-- ==== Sys2Proof/Word.lean ====
section
/-! DEFINITION. The word types of the XH96 and their plainest arithmetic (spec/00_scope.md R8, R9). -/

namespace Sys2Proof

/-- A 32-bit register. -/
abbrev Word := BitVec 32

/-- A 64-bit register pair, a virtual address or a system register. -/
abbrev DWord := BitVec 64

/-- The smallest addressable unit. -/
abbrev Byte := BitVec 8

/-- The 1 or 0 a Boolean field holds. -/
def bit (b : Bool) : Nat := if b then 1 else 0

/-- The unsigned bit field `[hi:lo]` of a number (R8). -/
def field (x hi lo : Nat) : Nat := (x >>> lo) % 2 ^ (hi - lo + 1)

/-- ⌈a / b⌉. -/
def ceilDiv (a b : Nat) : Nat := (a + b - 1) / b

/-- The bytes of an n-byte little-endian number, lowest first (R9). -/
def leBytes : Nat → Nat → List Byte
  | 0, _ => []
  | n + 1, x => BitVec.ofNat 8 x :: leBytes n (x / 256)

/-- The number that little-endian bytes hold (R9). -/
def ofLeBytes : List Byte → Nat
  | [] => 0
  | b :: bs => b.toNat + 256 * ofLeBytes bs

/-- The signed value of the low `w` bits of a number. -/
def sval (w x : Nat) : Int :=
  let y := x % 2 ^ w
  if y < 2 ^ (w - 1) then (y : Int) else (y : Int) - (2 ^ w : Nat)

/-- An integer reduced modulo 2^w into 0 … 2^w − 1. -/
def unsig (w : Nat) (x : Int) : Nat := (x % ((2 ^ w : Nat) : Int)).toNat

end Sys2Proof
end

