-- ==== Sys2Proof/Config.lean ====
section
/-! DEFINITION. What the implementation fixes, and the FREE VALUES: opaque constants without a body, which stand wherever the
spec leaves a value open while the machine goes on (log 6). Nothing in Lean can evaluate one or prove a value of one; a
statement about one holds whatever it is. -/

namespace Sys2Proof.Config

/-- DESIGN CHOICE (log 2): what a byte of memory that nothing has written reads as. -/
def memDefault : Byte := 0

/-- The logical cores of the part (R1, R21). -/
def nCores : Nat := 192

/-- The packs a core holds (R21). -/
def packSlots : Nat := 16

/-- The blocks a core holds (R21). -/
def maxBlocks : Nat := 8

/-- The range-scoreboard entries of a core (R137). -/
def scoreEntries : Nat := 32

/-- The kennel's entries (R437). -/
def kennelEntries : Nat := 65536

/-- The tasks that may be live (R94). -/
def maxTasks : Nat := 4096

/-- HIID (R449). -/
def hiid : BitVec 64 := 0x00000000005896B0

/-- FREE VALUE (log 6): which of the alternatives of an unspecified outcome is taken (R5, R161, R371); applied to the counter
`State.free` and reduced modulo the number of alternatives. -/
opaque choice : Nat → Nat

/-- FREE VALUE (log 6): the cycle count of a core at a tick of the model (R288 selector 17). -/
opaque coreClock : Nat → Nat → BitVec 64

/-- FREE VALUE (log 6): the device's certificate chain (R477). -/
opaque certificate : List Byte

/-- FREE VALUE (log 6): the Ed25519 signature by the identity key over a message (R477, R478), 64 bytes as a number. -/
opaque signature : List Byte → BitVec 512

/-- FREE VALUE (log 6): the device serial from fuses (R478). -/
opaque serial : BitVec 128

/-- FREE VALUE (log 6): the measurements block that SPDM returns (R477). -/
opaque measurements : List Byte

/-- FREE VALUE (log 6): where the device places a stash allocation (R126), applied to `State.free`. -/
opaque stashPlace : Nat → Nat

/-- FREE VALUE (log 6): the way of the L2 that a fill takes (R143), applied to `State.free`. -/
opaque l2Way : Nat → Nat

/-- FREE VALUE (log 6): for how long the L1 keeps a copy (R141, R165), applied to `State.free`. -/
opaque l1Life : Nat → Nat

/-- FREE VALUE (log 6): the place of a lane's access among those of its instruction (R17, R161), applied to `State.free` and the
lane. -/
opaque laneKey : Nat → Nat → Nat

/-- FREE VALUE (log 6): the bytes of a block's record in the save area (R108), applied to `State.free` and the place. -/
opaque recordByte : Nat → Nat → Byte

/-- The Revision ID of the PCIe configuration header (R1). -/
def revisionId : BitVec 8 := 0xB0

/-- FREE VALUE (log 6): the initial credits that the other end of a link announces for a virtual channel (R393). -/
opaque linkCredits : Nat → Nat → Nat

/-- The initial credits of a channel of a link: 1 to 1,024 flits (R393). -/
def initialCredits (link vc : Nat) : Nat := linkCredits link vc % 1024 + 1

/-- FREE VALUE (log 6): the payload bytes whose form the spec does not give (those of link-control and expert flits, and those behind a
message's end), applied to `State.free` and the place. -/
opaque flitByte : Nat → Nat → Byte

end Sys2Proof.Config
end

