-- ==== Sys2Proof/Syntax.lean ====
section
/-! DEFINITION. The steps of the XH96 as syntax: the operand forms of spec/07_encoding.md and ONE inductive, one constructor
per row of spec/opcode_table.json. An instruction's constructor holds the fields of its layout, already decoded; an event's
constructor holds what the unit or the outside world supplies. Operand meaning lives in Machine/. -/

namespace Sys2Proof

/-- A source operand (R233, R234): codes 0–127 v, 128–191 s, 192–199 b, 200–207 q, 208–239 the constant n, 240–247 the
constants of R234, 255 unused. -/
inductive Src where
  | v (n : BitVec 7)
  | s (n : BitVec 6)
  | b (n : BitVec 3)
  | q (n : BitVec 3)
  | k (n : BitVec 5)
  | c (n : BitVec 3)
  | unused
  deriving DecidableEq, Repr

/-- A destination (R237). -/
inductive Dst where
  | v (n : BitVec 7)
  | s (n : BitVec 6)
  | q (n : BitVec 3)
  | p (n : BitVec 3)
  | null
  deriving DecidableEq, Repr

/-- A predicate operand (R241): its index, and whether it is inverted. -/
structure Pred where
  neg : Bool
  idx : BitVec 3
  deriving DecidableEq, Repr

/-- The operand and result types of mod[3:0] (R243). -/
inductive Ty where
  | i32 | n32 | i64 | n64 | i16x2 | n16x2 | i8x4 | n8x4 | f32 | f64 | f16x2 | bf16x2 | tf8x4 | b32 | b64
  deriving DecidableEq, Repr

/-- The rounding modes of mod[5:4] (R201). -/
inductive Rnd where
  | rne | rtz | rdn | rup
  deriving DecidableEq, Repr

/-- The scopes of R166. -/
inductive Scope where
  | block | device | grid | system
  deriving DecidableEq, Repr

/-- The orders of R166. -/
inductive Order where
  | plain | acquire | release | acqRel
  deriving DecidableEq, Repr

/-- The fields of the E64 generic layout (R240, R243). -/
structure Gen where
  dst : Dst
  nowb : Bool
  pred : Pred
  a : Src
  b : Src
  c : Src
  ty : Ty
  rnd : Rnd
  sat : Bool
  opx : BitVec 4
  scope : Scope
  hint : BitVec 4
  deriving DecidableEq, Repr

/-- The special registers that MOVSR selects (R288), in selector order. -/
inductive SpecialReg where
  | laneid | sliceid | octetid | packid | packw | gang | lmasklt | blockid | blockx | blocky | blockz
  | nblockx | nblocky | nblockz | coreid | dieid | ctxid | clock | lclock
  | coord0 | coord1 | coord2 | coord3 | coord4 | gsize0 | gsize1 | gsize2 | gsize3 | gsize4
  | fpstat | faultmask | faultaddr | faultcause | faultpc
  deriving DecidableEq, Repr

/-- MOVSR: the generic layout with a selector in srcA (R288). -/
structure Movsr where
  dst : Dst
  nowb : Bool
  pred : Pred
  sel : SpecialReg
  ty : Ty
  deriving DecidableEq, Repr

/-- PLOP: the generic layout with predicate names in its source fields (R291). -/
structure Plop where
  dst : BitVec 3
  pred : Pred
  pa : Pred
  pb : Pred
  pc : Pred
  lut : BitVec 8
  deriving DecidableEq, Repr

/-- The access widths of the M64 layout (R245). -/
inductive Width where
  | b8 | b16 | b32 | b64 | b128 | cp4 | cp8 | cp16 | cp32
  deriving DecidableEq, Repr

/-- The fields of the M64 layout (R245). -/
structure M64 where
  data : Src
  nowb : Bool
  pred : Pred
  base : Src
  off : BitVec 20
  width : Width
  order : Order
  scope : Scope
  sel : BitVec 3
  ext : BitVec 2
  deriving DecidableEq, Repr

/-- The fields of the J64 layout (R248). -/
structure J64 where
  pred : Pred
  tgt : Src
  off : BitVec 32
  deriving DecidableEq, Repr

/-- The conditions of BRC (R249), in code order. -/
inductive Cond where
  | eq | ne | lt | ge | le | gt | ltu | geu | leu | gtu | flt | fge | fle | fgt | feq | fneu
  deriving DecidableEq, Repr

/-- The fields of BRC (R249). -/
structure Brc where
  cond : Cond
  a : Src
  b : Src
  off : BitVec 26
  deriving DecidableEq, Repr

/-- The fields of BRV (R250). -/
structure Brv where
  pred : Pred
  toff : BitVec 20
  joff : BitVec 20
  deriving DecidableEq, Repr

/-- What MOVI writes (R251): 32 bits, the sign- or zero-extended pair, or the high register of the pair. -/
inductive MoviExt where
  | word | sx | zx | hi
  deriving DecidableEq, Repr

/-- The fields of MOVI (R251). -/
structure Movi where
  dst : Dst
  nowb : Bool
  pred : Pred
  ext : MoviExt
  imm : BitVec 32
  deriving DecidableEq, Repr

/-- The fields of the X64 layout (R252). -/
structure X64 where
  tile : BitVec 7
  tid : BitVec 8
  slot : BitVec 9
  mslot : BitVec 5
  reg : Src
  cnt : BitVec 4
  flags : BitVec 6
  deriving DecidableEq, Repr

/-- The fields of the G64 layout (R253). -/
structure G64 where
  data : Src
  pred : Pred
  addr : Src
  gp : BitVec 4
  cw : Src
  width : BitVec 4
  gop : BitVec 4
  order : Order
  scope : Scope
  gflags : BitVec 4
  gext : BitVec 4
  deriving DecidableEq, Repr

/-- The second source of a C16 instruction (R229). -/
inductive Src6 where
  | v (n : BitVec 5)
  | s (n : BitVec 4)
  | b (n : BitVec 3)
  | k (n : BitVec 3)
  deriving DecidableEq, Repr

/-- The fields of C16 (R226). -/
structure C16 where
  vd : BitVec 5
  src : Src6
  deriving DecidableEq, Repr

/-- The fields of A32 (R230). -/
structure A32 where
  vd : BitVec 7
  nowb : Bool
  a : Src
  b : Src
  deriving DecidableEq, Repr

/-! ## What the events carry -/

/-- A fragment: its block's number, its pack's PACKID parts (R57) and its entry of the split table (R48). -/
structure FragRef where
  blk : Nat
  pidx : Nat
  pos : Nat
  frag : Nat
  deriving DecidableEq, Repr

/-- The kinds of request that a home slice serves (R123). -/
inductive HomeKind where
  | load | store | atomic | reduction
  deriving DecidableEq, Repr

/-- A request at a home slice: width bytes at a physical address; `op` is an atomic code of R247; `cmp` is the compare
value of a compare-and-swap. -/
structure HomeReq where
  kind : HomeKind
  pa : Nat
  width : Nat
  op : BitVec 5
  data : Nat
  cmp : Nat
  deriving DecidableEq, Repr

/-- A grid message (R400): the header's fields and the data that its kind carries. `count` is M − 1 of R415; `bytes` are a
line's bytes, each with whether its byte-mask bit is set; `element` is an atomic's, scan's or load's element, `lane` the issuing lane
that a reply goes to; `markers` is the number of release markers to wait for (R398). -/
structure GMsg where
  pat : BitVec 128
  src : Nat
  ctx : Nat
  tag : Nat
  gop : Nat
  width : Nat
  order : Order
  sys : Bool
  mflag : Bool
  poison : Bool
  count : Nat
  key : Nat
  addr : Nat
  nparts : Nat
  part : Nat
  cnt : Nat
  cw : Nat
  bytes : List (Bool × Byte)
  element : Nat
  compare : Nat
  lane : Nat
  refused : Nat
  first : Nat
  fvalid : Bool
  code : Nat
  landing : Nat
  markers : Nat
  deriving DecidableEq, Repr

/-- A grid message to send, on its way or looped back (R482), with its kind code of R400. -/
structure GOut where
  kind : Nat
  msg : GMsg
  deriving DecidableEq, Repr

/-- A request in a combining wait buffer with its combine records (R403): `two` holds the left and the right constituent and the
combined request. -/
inductive CombTree where
  | one (g : GOut)
  | two (left right : CombTree) (m : GMsg)
  deriving DecidableEq, Repr

/-- What is sent again to a page's new home (R157): a request, or one into which others have combined, with its combine records (R158). -/
inductive Resent where
  | request (r : HomeReq)
  | combined (t : CombTree)
  deriving DecidableEq, Repr

/-- A contribution of a GRED, and whether it finds its router port busy (R403). -/
structure Contribution where
  msg : GMsg
  busy : Bool
  deriving DecidableEq, Repr

/-- A release marker: the operation's tag, its context, and the plane (R398). -/
structure MarkerId where
  tag : BitVec 16
  ctx : BitVec 16
  plane : BitVec 3
  deriving DecidableEq, Repr

/-- A token row on its way to an expert's owner (R430). -/
structure TokenRow where
  src : Nat
  ctx : Nat
  op : Nat
  gate : Nat
  batch : Nat
  token : Nat
  slot : Nat
  pos : Nat
  expert : Nat
  weight : BitVec 32
  row : List (BitVec 16)
  poison : Bool := false
  deriving DecidableEq, Repr

/-- An owner's answer to a token row: a refusal as full (R430), its kennel form, a refusal of status 3 (R431), or the
position granted (R445). -/
inductive RowAnswer where
  | full | kennel | refused | granted (i : Nat)
  deriving DecidableEq, Repr

structure RowReply where
  op : Nat
  token : Nat
  slot : Nat
  answer : RowAnswer
  deriving DecidableEq, Repr

/-- The identity by which an arriving packet is matched to an installed channel (R467). -/
structure NeId where
  rfa : BitVec 128
  job : BitVec 24
  rpid : BitVec 12
  lpid : BitVec 12
  deriving DecidableEq, Repr

/-- A segment that arrives at the network engine (R465, R467). `op` is the request code of R463, 5 for the returned
bytes of a read; `msg` numbers the message of its sender, `part` the segment, `size` is the request's segment size. -/
structure NeSeg where
  id : NeId
  op : Nat
  rod : Bool
  psn : Nat
  msg : Nat
  part : Nat
  nparts : Nat
  offset : Nat
  total : Nat
  size : Nat
  tag : BitVec 64
  raddr : Nat
  rkey : Nat
  data : List Byte
  deriving DecidableEq, Repr

/-- An acknowledgement that arrives at the network engine (R531): the packet sequence numbers it reports received, and
the refusal of a whole message with its fault code (R533). -/
structure NeAck where
  id : NeId
  received : List Nat
  refusal : Option (Nat × Nat)
  deriving DecidableEq, Repr

/-- What the scrub finds in a sector (R512). -/
inductive ScrubResult where
  | clean | corrected | uncorrectable
  deriving DecidableEq, Repr

/-- How self-test ends (R553): in the running phase, with the repairs of MBREPAIR[39:0] and the grid links and Ethernet ports that
are left down; or in the lehr state at a failing step, unit class and physical index. -/
inductive TestOutcome where
  | pass (repairs : BitVec 40) (links : BitVec 64) (ports : BitVec 8)
  | fail (phase : BitVec 4) (unit : BitVec 8) (index : BitVec 16)
  deriving DecidableEq, Repr

/-- One step of the XH96, one constructor per row of spec/opcode_table.json. -/
inductive Instr where
  /-- NOP (R265). -/
  | nop (g : Gen)
  /-- BRA (R266). -/
  | bra (j : J64)
  /-- BRC (R269). -/
  | brc (c : Brc)
  /-- BRV (R270). -/
  | brv (v : Brv)
  /-- BRANY (R268). -/
  | brany (j : J64)
  /-- BRALL (R268). -/
  | brall (j : J64)
  /-- JMP (R266). -/
  | jmp (j : J64)
  /-- CALL (R266). -/
  | call (j : J64)
  /-- RET (R266). -/
  | ret (g : Gen)
  /-- REGANG (R271). -/
  | regang (g : Gen)
  /-- EXIT (R272). -/
  | exit (g : Gen)
  /-- HOLD (R274). -/
  | hold (g : Gen)
  /-- YIELD (R276). -/
  | yield (g : Gen)
  /-- WAITCNT (R278). -/
  | waitcnt (g : Gen)
  /-- WAITTAG (R278). -/
  | waittag (g : Gen)
  /-- PSPLIT (R56). -/
  | psplit (g : Gen)
  /-- PFUSE (R61). -/
  | pfuse (g : Gen)
  /-- IADD (R280). -/
  | iadd (g : Gen)
  /-- ISUB (R280). -/
  | isub (g : Gen)
  /-- IMUL (R280). -/
  | imul (g : Gen)
  /-- IMULH (R281). -/
  | imulh (g : Gen)
  /-- IMAD (R280). -/
  | imad (g : Gen)
  /-- IMIN (R280). -/
  | imin (g : Gen)
  /-- IMAX (R280). -/
  | imax (g : Gen)
  /-- IABSD (R280). -/
  | iabsd (g : Gen)
  /-- AND (R282). -/
  | and (g : Gen)
  /-- OR (R282). -/
  | or (g : Gen)
  /-- XOR (R282). -/
  | xor (g : Gen)
  /-- ANDN (R282). -/
  | andn (g : Gen)
  /-- SHL (R282). -/
  | shl (g : Gen)
  /-- SHR (R282). -/
  | shr (g : Gen)
  /-- SAR (R282). -/
  | sar (g : Gen)
  /-- ROTL (R282). -/
  | rotl (g : Gen)
  /-- BFE (R283). -/
  | bfe (g : Gen)
  /-- BFI (R283). -/
  | bfi (g : Gen)
  /-- POPC (R284). -/
  | popc (g : Gen)
  /-- CLZ (R284). -/
  | clz (g : Gen)
  /-- CTZ (R284). -/
  | ctz (g : Gen)
  /-- BREV (R284). -/
  | brev (g : Gen)
  /-- PRMT (R285). -/
  | prmt (g : Gen)
  /-- LEA (R286). -/
  | lea (g : Gen)
  /-- ISET (R287). -/
  | iset (g : Gen)
  /-- SEL (R287). -/
  | sel (g : Gen)
  /-- MOV (R287). -/
  | mov (g : Gen)
  /-- MOVSR (R288). -/
  | movsr (m : Movsr)
  /-- MOVI (R251). -/
  | movi (m : Movi)
  /-- CVTI (R290). -/
  | cvti (g : Gen)
  /-- PLOP (R291). -/
  | plop (p : Plop)
  /-- SHFL (R292). -/
  | shfl (g : Gen)
  /-- VOTE (R293). -/
  | vote (g : Gen)
  /-- MATCH (R294). -/
  | matchLanes (g : Gen)
  /-- REDUX (R295). -/
  | redux (g : Gen)
  /-- SCAN (R295). -/
  | scan (g : Gen)
  /-- RANK (R294). -/
  | rank (g : Gen)
  /-- BCAST (R296). -/
  | bcast (g : Gen)
  /-- FADD (R302). -/
  | fadd (g : Gen)
  /-- FSUB (R302). -/
  | fsub (g : Gen)
  /-- FMUL (R302). -/
  | fmul (g : Gen)
  /-- FFMA (R302). -/
  | ffma (g : Gen)
  /-- FMIN (R303). -/
  | fmin (g : Gen)
  /-- FMAX (R303). -/
  | fmax (g : Gen)
  /-- FSET (R305). -/
  | fset (g : Gen)
  /-- FDIV (R302). -/
  | fdiv (g : Gen)
  /-- FRCP (R304). -/
  | frcp (g : Gen)
  /-- FSQRT (R304). -/
  | fsqrt (g : Gen)
  /-- FRSQ (R304). -/
  | frsq (g : Gen)
  /-- FEX2 (R304). -/
  | fex2 (g : Gen)
  /-- FLG2 (R304). -/
  | flg2 (g : Gen)
  /-- FRND (R307). -/
  | frnd (g : Gen)
  /-- FSCALE (R308). -/
  | fscale (g : Gen)
  /-- FCLASS (R306). -/
  | fclass (g : Gen)
  /-- CVT (R310). -/
  | cvt (g : Gen)
  /-- TF8PK (R311). -/
  | tf8pk (g : Gen)
  /-- TF8UP (R312). -/
  | tf8up (g : Gen)
  /-- REQUANT (R313). -/
  | requant (g : Gen)
  /-- RNG (R314). -/
  | rng (g : Gen)
  /-- FSTAT_READ (R315). -/
  | fstatRead (g : Gen)
  /-- FSTAT_CLEAR (R315). -/
  | fstatClear (g : Gen)
  /-- FSTAT_SET (R315). -/
  | fstatSet (g : Gen)
  /-- LD (R322). -/
  | ld (m : M64)
  /-- ST (R322). -/
  | st (m : M64)
  /-- LDS (R322). -/
  | lds (m : M64)
  /-- STS (R322). -/
  | sts (m : M64)
  /-- LDC (R324). -/
  | ldc (m : M64)
  /-- ATOM (R325). -/
  | atom (m : M64)
  /-- RED (R325). -/
  | red (m : M64)
  /-- CPL (R329). -/
  | cpl (m : M64)
  /-- PREF (R331). -/
  | pref (m : M64)
  /-- DISCARD (R332). -/
  | discard (m : M64)
  /-- FENCE (R333). -/
  | fence (g : Gen)
  /-- SMAP (R334). -/
  | smap (g : Gen)
  /-- SUNMAP (R336). -/
  | sunmap (g : Gen)
  /-- SFLUSH (R336). -/
  | sflush (g : Gen)
  /-- BXFER_LOAD (R338). -/
  | bxferLoad (g : Gen)
  /-- BXFER_STORE (R338). -/
  | bxferStore (g : Gen)
  /-- BXFER_RED (R338). -/
  | bxferRed (g : Gen)
  /-- WAITC (R341). -/
  | waitc (m : M64)
  /-- BARINIT (R343). -/
  | barinit (g : Gen)
  /-- BARARR (R343). -/
  | bararr (g : Gen)
  /-- BARARR_JOIN (R343). -/
  | bararrJoin (g : Gen)
  /-- BARARR_DROP (R343). -/
  | bararrDrop (g : Gen)
  /-- BARWAIT (R345). -/
  | barwait (g : Gen)
  /-- BAREXP (R344). -/
  | barexp (g : Gen)
  /-- BARTRY (R345). -/
  | bartry (g : Gen)
  /-- QCFG (R347). -/
  | qcfg (g : Gen)
  /-- APPEND (R349). -/
  | append (g : Gen)
  /-- DECLINE (R349). -/
  | decline (g : Gen)
  /-- TDSET (R363). -/
  | tdset (x : X64)
  /-- TDGET (R363). -/
  | tdget (x : X64)
  /-- MLDB (R364). -/
  | mldb (x : X64)
  /-- MBREL (R364). -/
  | mbrel (x : X64)
  /-- MLDMETA (R366). -/
  | mldmeta (x : X64)
  /-- MZERO (R367). -/
  | mzero (x : X64)
  /-- MMA (R369). -/
  | mma (x : X64)
  /-- MMA_RING (R370). -/
  | mmaRing (x : X64)
  /-- MMASP (R369). -/
  | mmasp (x : X64)
  /-- MST (R372). -/
  | mst (x : X64)
  /-- MST_ADD (R374). -/
  | mstAdd (x : X64)
  /-- MRDA (R375). -/
  | mrda (x : X64)
  /-- MWRA (R375). -/
  | mwra (x : X64)
  /-- RINGINIT (R376). -/
  | ringinit (x : X64)
  /-- RINGPUT (R377). -/
  | ringput (x : X64)
  /-- RINGTAKE (R377). -/
  | ringtake (x : X64)
  /-- RINGDONE (R377). -/
  | ringdone (x : X64)
  /-- MSTAT (R378). -/
  | mstat (g : Gen)
  /-- GPAT (R410). -/
  | gpat (g : G64)
  /-- GST (R411). -/
  | gst (g : G64)
  /-- GLD (R413). -/
  | gld (g : G64)
  /-- GRED (R414). -/
  | gred (g : G64)
  /-- GATOM (R417). -/
  | gatom (g : G64)
  /-- GSCAN (R418). -/
  | gscan (g : G64)
  /-- GCOPY (R412). -/
  | gcopy (g : G64)
  /-- GFENCE (R419). -/
  | gfence (g : G64)
  /-- GWAIT (R420). -/
  | gwait (g : G64)
  /-- GATECFG (R425). -/
  | gatecfg (g : Gen)
  /-- GDISPATCH (R429). -/
  | gdispatch (g : Gen)
  /-- MBMARK (R432). -/
  | mbmark (g : Gen)
  /-- ERTOP_DEFINE (R440). -/
  | ertopDefine (g : Gen)
  /-- ERTOP_FETCH (R440). -/
  | ertopFetch (g : Gen)
  /-- ERTOP_EVICT (R436). -/
  | ertopEvict (g : Gen)
  /-- ERTOP_PIN (R440). -/
  | ertopPin (g : Gen)
  /-- ERTOP_UNPIN (R440). -/
  | ertopUnpin (g : Gen)
  /-- ERTOP_READ (R440). -/
  | ertopRead (g : Gen)
  /-- TASKDEF (R443). -/
  | taskdef (g : Gen)
  /-- TASKDEP_SET (R443). -/
  | taskdepSet (g : Gen)
  /-- TASKDEP_ADD (R443). -/
  | taskdepAdd (g : Gen)
  /-- TASKDEP_SUB (R443). -/
  | taskdepSub (g : Gen)
  /-- KSTAT (R444). -/
  | kstat (g : Gen)
  /-- NPOST (R464). -/
  | npost (g : Gen)
  /-- NRECV (R463). -/
  | nrecv (g : Gen)
  /-- NPOLL (R469). -/
  | npoll (g : Gen)
  /-- LARM (R470). -/
  | larm (g : Gen)
  /-- LAUNCH (R472). -/
  | launch (g : Gen)
  /-- SRR (R456). -/
  | srr (g : Gen)
  /-- SRW (R456). -/
  | srw (g : Gen)
  /-- TLBINV_PAGE (R457). -/
  | tlbinvPage (g : Gen)
  /-- TLBINV_CONTEXT (R457). -/
  | tlbinvContext (g : Gen)
  /-- TLBINV_ALL (R457). -/
  | tlbinvAll (g : Gen)
  /-- BIASFLIP_DEV (R458). -/
  | biasflipDev (g : Gen)
  /-- BIASFLIP_HOST (R458). -/
  | biasflipHost (g : Gen)
  /-- MIGRATE_LOCAL (R459). -/
  | migrateLocal (g : Gen)
  /-- MIGRATE_REMOTE (R459). -/
  | migrateRemote (g : Gen)
  /-- CAPSET (R462). -/
  | capset (g : Gen)
  /-- MAPPG (R494). -/
  | mappg (g : Gen)
  /-- TRAP (R492). -/
  | trap (g : Gen)
  /-- TRAP_DBG (R492). -/
  | trapDbg (g : Gen)
  /-- RETF_RETRY (R496). -/
  | retfRetry (g : Gen)
  /-- RETF_NEXT (R496). -/
  | retfNext (g : Gen)
  /-- RETF_ESC (R496). -/
  | retfEsc (g : Gen)
  /-- CTRREAD (R476). -/
  | ctrread (g : Gen)
  /-- MOV_C16 (R227). -/
  | movC16 (c : C16)
  /-- IADD_C16 (R227). -/
  | iaddC16 (c : C16)
  /-- ISUB_C16 (R227). -/
  | isubC16 (c : C16)
  /-- IMUL_C16 (R227). -/
  | imulC16 (c : C16)
  /-- AND_C16 (R227). -/
  | andC16 (c : C16)
  /-- OR_C16 (R227). -/
  | orC16 (c : C16)
  /-- XOR_C16 (R227). -/
  | xorC16 (c : C16)
  /-- SHL_C16 (R227). -/
  | shlC16 (c : C16)
  /-- SHR_C16 (R227). -/
  | shrC16 (c : C16)
  /-- SAR_C16 (R227). -/
  | sarC16 (c : C16)
  /-- FADD_C16 (R227). -/
  | faddC16 (c : C16)
  /-- FSUB_C16 (R227). -/
  | fsubC16 (c : C16)
  /-- FMUL_C16 (R227). -/
  | fmulC16 (c : C16)
  /-- FMAX_C16 (R227). -/
  | fmaxC16 (c : C16)
  /-- FMIN_C16 (R227). -/
  | fminC16 (c : C16)
  /-- NOP_C16 (R228). -/
  | nopC16
  /-- YIELD_C16 (R228). -/
  | yieldC16
  /-- RET_C16 (R228). -/
  | retC16
  /-- EXIT_C16 (R228). -/
  | exitC16
  /-- MOV_A32 (R231). -/
  | movA32 (a : A32)
  /-- IADD_A32 (R231). -/
  | iaddA32 (a : A32)
  /-- ISUB_A32 (R231). -/
  | isubA32 (a : A32)
  /-- IMUL_A32 (R231). -/
  | imulA32 (a : A32)
  /-- IMAD_A32 (R231). -/
  | imadA32 (a : A32)
  /-- IMIN_A32 (R231). -/
  | iminA32 (a : A32)
  /-- IMAX_A32 (R231). -/
  | imaxA32 (a : A32)
  /-- AND_A32 (R231). -/
  | andA32 (a : A32)
  /-- OR_A32 (R231). -/
  | orA32 (a : A32)
  /-- XOR_A32 (R231). -/
  | xorA32 (a : A32)
  /-- ANDN_A32 (R231). -/
  | andnA32 (a : A32)
  /-- SHL_A32 (R231). -/
  | shlA32 (a : A32)
  /-- SHR_A32 (R231). -/
  | shrA32 (a : A32)
  /-- SAR_A32 (R231). -/
  | sarA32 (a : A32)
  /-- POPC_A32 (R231). -/
  | popcA32 (a : A32)
  /-- CLZ_A32 (R231). -/
  | clzA32 (a : A32)
  /-- FADD_F32_A32 (R231). -/
  | faddF32A32 (a : A32)
  /-- FSUB_F32_A32 (R231). -/
  | fsubF32A32 (a : A32)
  /-- FMUL_F32_A32 (R231). -/
  | fmulF32A32 (a : A32)
  /-- FFMA_F32_A32 (R231). -/
  | ffmaF32A32 (a : A32)
  /-- FMIN_F32_A32 (R231). -/
  | fminF32A32 (a : A32)
  /-- FMAX_F32_A32 (R231). -/
  | fmaxF32A32 (a : A32)
  /-- FADD_F16X2_A32 (R231). -/
  | faddF16x2A32 (a : A32)
  /-- FMUL_F16X2_A32 (R231). -/
  | fmulF16x2A32 (a : A32)
  /-- FFMA_F16X2_A32 (R231). -/
  | ffmaF16x2A32 (a : A32)
  /-- FADD_BF16X2_A32 (R231). -/
  | faddBf16x2A32 (a : A32)
  /-- FMUL_BF16X2_A32 (R231). -/
  | fmulBf16x2A32 (a : A32)
  /-- FFMA_BF16X2_A32 (R231). -/
  | ffmaBf16x2A32 (a : A32)
  /-- SHFL_XOR_A32 (R292). -/
  | shflXorA32 (a : A32)
  /-- LDS_A32 (R232). -/
  | ldsA32 (a : A32)
  /-- BRA_A32 (R232). -/
  | braA32 (off : BitVec 24)
  /-- CALL_A32 (R232). -/
  | callA32 (off : BitVec 24)
  /-- HOST_QUEUE_DOORBELL (R452). -/
  | hostQueueDoorbell (q : BitVec 8) (p : Word)
  /-- HQERR_CLEAR (R452). -/
  | hqerrClear (mask : DWord)
  /-- HOST_SYSREG_WRITE (R454). -/
  | hostSysregWrite (n : BitVec 4) (x : DWord)
  /-- HOST_REGISTER_WRITE (R449). -/
  | hostRegisterWrite (off : BitVec 24) (x : DWord)
  /-- LAUNCH_ACCEPT (R83). -/
  | launchAccept
  /-- BLOCK_PLACEMENT (R90). -/
  | blockPlacement
  /-- BLOCK_START (R91). -/
  | blockStart (core : BitVec 8)
  /-- STEAL_ATTEMPT (R92). -/
  | stealAttempt (core : BitVec 8)
  /-- BLOCK_END (R66). -/
  | blockEnd (blk : Nat)
  /-- PENDING_SPAWN (R95). -/
  | pendingSpawn
  /-- RUN_END (R98). -/
  | runEnd (core : BitVec 8) (sched : BitVec 2)
  /-- FRAGMENT_WAKE (R78). -/
  | fragmentWake (f : FragRef)
  /-- BUDGET_PERIOD_END (R103). -/
  | budgetPeriodEnd (unit : BitVec 11) (act : BitVec 3) (rcb : BitVec 52)
  /-- PREEMPT (R107). -/
  | preempt (blk : Nat)
  /-- CONTEXT_SWITCH (R106). -/
  | contextSwitch (rcb : BitVec 52)
  /-- BLOCK_RESUME (R109). -/
  | blockResume (blk : Nat) (core : BitVec 8)
  /-- DET_ROUND_COMPLETE (R112). -/
  | detRoundComplete (launch : Nat)
  /-- DET_SYNC_TURN (R113). -/
  | detSyncTurn (launch : Nat)
  /-- APPEND_CLAIM_GRANT (R116). -/
  | appendClaimGrant (f : FragRef)
  /-- STASH_SEGMENT_WAKE (R128). -/
  | stashSegmentWake (core : BitVec 8) (seg : BitVec 4)
  /-- STASH_FILL_COMPLETE (R130). -/
  | stashFillComplete (blk line : Nat)
  /-- HOME_SLICE_ACCESS (R123). -/
  | homeSliceAccess (r : HomeReq)
  /-- STASH_WRITEBACK (R134). -/
  | stashWriteback (blk line : Nat) (err : Bool)
  /-- L2_WAY_GATE (R143). -/
  | l2WayGate (stack : BitVec 2) (way : Nat)
  /-- L2_WAY_ENABLE (R143). -/
  | l2WayEnable (stack : BitVec 2) (way : Nat)
  /-- PAGE_WALK_COMPLETE (R150). -/
  | pageWalkComplete (ctx : BitVec 16) (va : DWord)
  /-- HOST_MEMORY_ACCESS (R193). -/
  | hostMemoryAccess (r : HomeReq)
  /-- MIGRATION_RESEND (R157). -/
  | migrationResend (ctx : BitVec 16) (va : DWord) (r : Resent)
  /-- CONDITION_MONITOR_WAKE (R190). -/
  | conditionMonitorWake (f : FragRef)
  /-- MONITOR_POLL (R191). -/
  | monitorPoll (f : FragRef)
  /-- STREAMER_BYTES_COMPLETE (R340). -/
  | streamerBytesComplete (op n : Nat)
  /-- LANE_COPY_LAND (R330). -/
  | laneCopyLand (op : Nat)
  /-- MATRIX_PASS_COMPLETE (R222). -/
  | matrixPassComplete (op : Nat)
  /-- CHECKSUM_REPLAY (R536). -/
  | checksumReplay (op : Nat) (good : Bool)
  /-- MATRIX_DRAIN_COMPLETE (R372). -/
  | matrixDrainComplete (op : Nat)
  /-- GST_LINE_RECEIVE (R411). -/
  | gstLineReceive (m : GMsg)
  /-- GLD_REQUEST_RECEIVE (R413). -/
  | gldRequestReceive (m : GMsg)
  /-- GLD_REPLY_RECEIVE (R413). -/
  | gldReplyReceive (m : GMsg)
  /-- GRED_CONTRIBUTION_RECEIVE (R416). -/
  | gredContributionReceive (c : Contribution)
  /-- GATOM_REQUEST_RECEIVE (R404). -/
  | gatomRequestReceive (m : GMsg) (busy : Bool)
  /-- GATOM_REPLY_RECEIVE (R404). -/
  | gatomReplyReceive (m : GMsg)
  /-- GSCAN_CONTRIBUTION_RECEIVE (R418). -/
  | gscanContributionReceive (m : GMsg)
  /-- GSCAN_REPLY_RECEIVE (R418). -/
  | gscanReplyReceive (m : GMsg)
  /-- GCOPY_LINE_RECEIVE (R412). -/
  | gcopyLineReceive (m : GMsg)
  /-- GCOPY_HELD_DELIVERY (R412). -/
  | gcopyHeldDelivery
  /-- ACKNOWLEDGEMENT_RECEIVE (R402). -/
  | acknowledgementReceive (m : GMsg)
  /-- RELEASE_MARKER_RECEIVE (R398). -/
  | releaseMarkerReceive (src : BitVec 20) (mark : MarkerId)
  /-- REFUSAL_RECEIVE (R519). -/
  | refusalReceive (m : GMsg)
  /-- IDLE_FLIT_RECEIVE (R393). -/
  | idleFlitReceive (link : BitVec 6) (vc : BitVec 3) (crd : BitVec 6)
  /-- RESERVED_VC_FLIT (R392). -/
  | reservedVcFlit (link : BitVec 6)
  /-- LINK_REPLAY_REQUEST (R523). -/
  | linkReplayRequest (link : BitVec 6) (fseq : BitVec 8)
  /-- LINK_DOWN (R523). -/
  | linkDown (link : BitVec 6)
  /-- LINK_FAILOVER_NOTICE (R523). -/
  | linkFailoverNotice (link : BitVec 6) (fseq : BitVec 8)
  /-- AUDIT_FLIT_SEND (R524). -/
  | auditFlitSend (link : BitVec 6)
  /-- CREDIT_AUDIT_RECEIVE (R524). -/
  | creditAuditReceive (link : BitVec 6) (vc : BitVec 3) (slots : Nat)
  /-- PLANE_LOSS_REPORT (R525). -/
  | planeLossReport (plane : BitVec 3)
  /-- UNREACHABLE_MARK (R559). -/
  | unreachableMark (link : BitVec 6)
  /-- TOKEN_ROW_RECEIVE (R430). -/
  | tokenRowReceive (r : TokenRow)
  /-- ROW_REFUSAL_RECEIVE (R430). -/
  | rowRefusalReceive (r : RowReply)
  /-- GDISPATCH_COMPLETE (R431). -/
  | gdispatchComplete (op : Nat)
  /-- MBMARK_COMMIT (R432). -/
  | mbmarkCommit (slot : BitVec 3)
  /-- CLOSE_MARKER_SEND (R432). -/
  | closeMarkerSend (slot : BitVec 3)
  /-- CLOSE_MARKER_RECEIVE (R434). -/
  | closeMarkerReceive (slot : BitVec 3) (batch src : Nat) (last : Bool) (dests : List Nat)
  /-- LOAD_MULTICAST_RECEIVE (R433). -/
  | loadMulticastReceive (slot : BitVec 3) (batch : Nat) (loads : List (Nat × Nat))
  /-- FILL_COUNTER_RESET (R434). -/
  | fillCounterReset (slot : BitVec 3) (bank : BitVec 1)
  /-- ORDERED_ROUND_CLOSE (R445). -/
  | orderedRoundClose (slot : BitVec 3)
  /-- PAGER_FETCH_COMPLETE (R438). -/
  | pagerFetchComplete (idx : BitVec 14)
  /-- FETCH_ATTEMPT_FAIL (R528). -/
  | fetchAttemptFail (idx : BitVec 14)
  /-- EVICT_UNMAP_COMPLETE (R436). -/
  | evictUnmapComplete (idx : BitVec 14)
  /-- TILE_SPAWN (R441). -/
  | tileSpawn (slot : BitVec 3) (bank : BitVec 1) (expert tile : Nat)
  /-- NPOST_START (R465). -/
  | npostStart (op : Nat)
  /-- NE_SEGMENT_RECEIVE (R467). -/
  | neSegmentReceive (g : NeSeg)
  /-- NE_ACK_RECEIVE (R466). -/
  | neAckReceive (a : NeAck)
  /-- NE_NOT_READY_RECEIVE (R467). -/
  | neNotReadyReceive (op : Nat)
  /-- NE_RETRANSMIT_TIMEOUT (R531). -/
  | neRetransmitTimeout (op : Nat) (part : Nat)
  /-- NE_RECEIVE_TIMEOUT (R532). -/
  | neReceiveTimeout (op : Nat)
  /-- NE_ABORT_RECEIVE (R532). -/
  | neAbortReceive (id : NeId) (msg : Nat)
  /-- SHADOW_FLUSH_TIMER (R474). -/
  | shadowFlushTimer (unit : BitVec 11)
  /-- ENERGY_INTERVAL (R475). -/
  | energyInterval (island : BitVec 8) (nj : Nat)
  /-- SCRUB (R512). -/
  | scrub (sector : Nat) (r : ScrubResult)
  /-- ISLAND_SET (R25). -/
  | islandSet (island : BitVec 8) (mv mhz : BitVec 16)
  /-- MCTP_STATUS (R477). -/
  | mctpStatus
  /-- MCTP_ISLAND_TELEMETRY (R477). -/
  | mctpIslandTelemetry
  /-- MCTP_READ_COUNTERS (R477). -/
  | mctpReadCounters (ctx : BitVec 16)
  /-- MCTP_SIGNED_SNAPSHOT (R478). -/
  | mctpSignedSnapshot (ctx : BitVec 16) (nonce : BitVec 256)
  /-- MCTP_SELF_TEST_REPORT (R477). -/
  | mctpSelfTestReport
  /-- SPDM_GET_CERTIFICATE (R477). -/
  | spdmGetCertificate
  /-- SPDM_CHALLENGE (R477). -/
  | spdmChallenge (nonce : BitVec 256)
  /-- SPDM_GET_MEASUREMENTS (R477). -/
  | spdmGetMeasurements (nonce : BitVec 256)
  /-- COLD_RESET (R557). -/
  | coldReset (o : TestOutcome)
  /-- WARM_RESET_FLR (R557). -/
  | warmResetFlr (o : TestOutcome)
  /-- WARM_RESET_SECONDARY_BUS (R557). -/
  | warmResetSecondaryBus (o : TestOutcome)
  /-- WARM_RESET_MP (R557). -/
  | warmResetMp (o : TestOutcome)
  /-- HOST_LINK_DOWN (R556). -/
  | hostLinkDown
  /-- CXL_CACHE_SNOOP (R142). -/
  | cxlCacheSnoop (line : Nat) (inval : Bool)
  /-- FLIT_CRC_FAILURE (R523). -/
  | flitCrcFailure (link : BitVec 6)
  /-- LINK_FLIT_ACKNOWLEDGE (R523). -/
  | linkFlitAcknowledge (link : BitVec 6) (fseq : BitVec 8)
  /-- ROW_ACCEPTANCE_RECEIVE (R445). -/
  | rowAcceptanceReceive (r : RowReply)
  deriving DecidableEq, Repr

/-- Why bytes are no instruction (R257, R549): parcels missing, a reserved SYS selector or src6, op6, op8, an operand or destination code, a
reserved bit or type, or a field value that the instruction does not accept. -/
inductive Reject where
  | truncated | sysSelector | op6 | op8 | operand | reserved | notAccepted
  deriving DecidableEq, Repr

/-- What the decoder makes of the parcels at an address: an instruction and its length in parcels, or a rejection. -/
inductive Decoded where
  | instr (i : Instr) (parcels : Nat)
  | reject (r : Reject)
  deriving DecidableEq, Repr

end Sys2Proof
end

