-- ==== Sys2Proof/Machine/State.lean ====
section
/-! DEFINITION. The state of the device as plain data: everything the spec gives the machine (INVENTORY.md, "State"), the
reasons a step can stop, and the state right after reset. A register file, a stash, a tile or any other sparse store is a
list of (key, value) pairs in one canonical form (keys strictly rising, no entry at the default), as memory is. -/

namespace Sys2Proof.Machine

/-- Why the machine stops. -/
inductive Fault where
  /-- Raised by a meaning of an instruction when no fragment is the issuer: `step` never runs one so. Safe. -/
  | noIssuer
  deriving DecidableEq, Repr

/-- Why a step has no meaning. -/
inductive Refusal where
  /-- Raised by `exec` for an instruction whose meaning is not written. Safe. -/
  | notModelled (mnemonic : String)
  deriving DecidableEq, Repr

/-- A sparse store: (key, value) pairs. -/
abbrev Sparse (α : Type) := List (Nat × α)

/-! ## Lanes, slices, fragments -/

/-- A lane's own registers: v0–v127, the banked v120–v127 (R488), and p0–p6. -/
structure Lane where
  v : Sparse Word := []
  vb : Sparse Word := []
  p : BitVec 7 := 0
  deriving DecidableEq, Repr

/-- An entry of a slice's mask stack (R40, R42). -/
structure MaskEntry where
  join : DWord
  pendPc : DWord
  pend : BitVec 4
  saved : BitVec 4
  deriving DecidableEq, Repr

/-- A slice: four lanes, the lane mask, the lanes that have not exited, the mask stack (top first), its FPSTAT copy (R204)
and its draw counter (R214). -/
structure Slice where
  lanes : List Lane
  mask : BitVec 4
  live : BitVec 4
  stack : List MaskEntry := []
  fpstat : BitVec 8 := 0
  draw : BitVec 22 := 0
  deriving DecidableEq, Repr

/-- A bypass latch (R100): a result for each lane (zero where unlisted), whether it is valid, and whether its producer
issued in the HOLD burst in progress (R101). -/
structure Latch where
  vals : Sparse (BitVec 128) := []
  valid : Bool := false
  inBurst : Bool := false
  deriving DecidableEq, Repr

/-- What a fragment that does not issue waits for; it tries its instruction again when the condition holds. -/
inductive Wait where
  | none
  /-- The passes in flight on accumulator tiles (R359). -/
  | tiles (ts : List Nat)
  /-- WAITCNT (R278): the class counter to be at most n. -/
  | cnt (cls n : Nat)
  /-- WAITTAG (R278). -/
  | tags (mask : Nat)
  /-- A counter at 255 (R277): the class, and the tag of a lane copy. -/
  | room (cls : Nat) (tag : Option Nat)
  /-- PSPLIT and PFUSE (R58, R61): every counter of the pack zero. -/
  | drained
  /-- BARWAIT (R345): the barrier's phase to be past the one named. -/
  | barrier (b phase : Nat)
  /-- A pop from an empty queue, a push to a full one (R70). -/
  | popItem (q : Nat)
  | pushRoom (q : Nat)
  /-- RINGTAKE and a ring MMA (R370, R377): a slot valid (mode 0), or free or consumed (mode 1). -/
  | ring (tid slot mode : Nat)
  /-- WAITC (R190): the word at a physical address, armed at a condition monitor or polled (R191), or at a stash offset. -/
  | word (pa width sel value : Nat) (mon : Bool)
  | stashWord (off width sel value : Nat)
  /-- GWAIT (R420): the count at a physical address to be at least the target, at a monitor or polled. -/
  | cword (pa target : Nat) (mon : Bool)
  /-- APPEND and DECLINE (R116). -/
  | append (stream : Nat)
  /-- A range of the scoreboard (R138), or a free entry of it (R140). -/
  | range (lo hi : Nat)
  | entry
  /-- A stash segment that wakes (R128). -/
  | segment (seg : Nat)
  /-- GATECFG (R425), MBMARK (R432) and a GDISPATCH behind it on a gate slot. -/
  | gate (slot : Nat)
  | mark (slot : Nat)
  | markDone (slot : Nat)
  /-- The turn of a synchronising operation, the publication of a round (R113, R112, R198). -/
  | turn
  | round
  /-- TLBINV, MIGRATE and SRW of PLANEMAP (R439, R457, R526). -/
  | translations
  | planes
  /-- A region held at a unit for an activity (R104). -/
  | budget (unit act : Nat)
  deriving DecidableEq, Repr

/-- The scheduling states of R48. -/
inductive FragState where
  | free | ready | regang | pairing | pfuse | waiting | parked
  deriving DecidableEq, Repr

/-- What a trap reports (R486): cause, the lanes that raised it, their addresses, whether it stood in a HOLD burst, was
octet-level, or came from a marver reload; the instructions of the burst that were left; and the parts that a withdrawn GRED or
GSCAN still sends (R521). -/
structure TrapInfo where
  cause : Nat
  lanes : BitVec 64 := 0
  addrs : Sparse (BitVec 64) := []
  pc : DWord := 0
  burst : Bool := false
  octet : Bool := false
  reload : Bool := false
  left : Nat := 0
  poison : List GOut := []
  deriving DecidableEq, Repr

/-- What a slice brought into the handler (R485). -/
structure SavedSlice where
  mask : BitVec 4
  stack : List MaskEntry
  fpstat : BitVec 8
  preds : List (BitVec 7)
  deriving DecidableEq, Repr

/-- The trap frame (R485) with the fault registers (R486). -/
structure TrapFrame where
  info : TrapInfo
  slices : BitVec 16
  saved : List SavedSlice
  latches : List Latch
  resume : DWord
  deriving DecidableEq, Repr

/-- The registers a HOLD burst may change, as they stood before the HOLD (R102): the fragment's slices, and the uniform and grid
pattern registers of the pack. -/
structure Snapshot where
  slices : List Slice
  s : Sparse Word
  sb : Sparse Word
  gp : Sparse (BitVec 128)
  latches : List Latch
  deriving DecidableEq, Repr

/-- The writes of a burst to registers that its pack shares, kept from the pack's other fragments until it commits (R102). -/
structure BurstWrites where
  s : List (Nat × Word)
  sb : List (Nat × Word)
  gp : List (Nat × BitVec 128)
  deriving DecidableEq, Repr

/-- A HOLD burst in progress: the HOLD's address, the instructions still to issue, what a trap restores, what the burst has
counted on the logical clock, and its writes while another fragment of the pack has the scheduler. -/
structure Burst where
  pc : DWord
  left : Nat
  snap : Snapshot
  count : Nat := 0
  away : Option BurstWrites := none
  deriving DecidableEq, Repr

/-- An entry of the split table (R48) with what the fragment owns: its latches (most recent first), its wait, its run at
the scheduler (R98), a burst, the trap frame (present in supervisor mode), a held trap (R487), and the octets that the
matrix instruction at `octPc` has already performed with another fragment (R53), the phase that the BARWAIT at hand waits for
(R345), and, once the TLBINV or MIGRATE at hand has passed its checks, the residency entries that it still waits for (R439). -/
structure Fragment where
  pc : DWord
  slices : BitVec 16
  st : FragState := .ready
  gang : BitVec 16 := 0
  latches : List Latch := []
  wait : Wait := .none
  running : Bool := false
  slots : Nat := 0
  since : Nat := 0
  burst : Option Burst := none
  frame : Option TrapFrame := none
  held : Option TrapInfo := none
  octs : BitVec 8 := 0
  octPc : DWord := 0
  phase : Option Nat := none
  evicts : Option (List Nat) := none
  pub : Bool := false
  deriving DecidableEq, Repr

/-! ## Packs -/

/-- The engine classes of R180. -/
inductive EngClass where
  | streamer | drain | grid | net | copy
  deriving DecidableEq, Repr

/-- An operation that a counter counts: the device-wide number of its record, class, lane-copy tag, and whether it has
completed. Counters fall in issue order within a class, and within a tag (R180, R480). -/
structure EngOp where
  id : Nat
  cls : EngClass
  tag : Option Nat := none
  done : Bool := false
  deriving DecidableEq, Repr

/-- A queue register's binding (R69): the object's offset, and whether it pushes. -/
structure QBind where
  q : Nat
  off : Nat
  push : Bool
  deriving DecidableEq, Repr

/-- One split of which a sub-pack is a part (R61): the parent's width, position, and the number of parts. -/
structure SplitRec where
  width : Nat
  pos : Nat
  parts : Nat
  deriving DecidableEq, Repr

/-- A buffered write of a deterministic launch (R112, R321): bytes at a physical address, or at a stash offset, or a RED; or one of these
whose page has moved to another device meanwhile (R157). -/
inductive BufOp where
  | mem (pa : Nat) (bytes : List Byte)
  | stash (off : Nat) (bytes : List Byte)
  | red (pa width : Nat) (op : BitVec 5) (data : Nat)
  | farMem (dest va : Nat) (bytes : List Byte)
  | farRed (dest va width : Nat) (op : BitVec 5) (data : Nat)
  deriving DecidableEq, Repr

/-- A pack or sub-pack (R37, R56 to R61). `pos` is the sub-pack position in units of 8 lanes, `hist` the splits that made
it, innermost first. `badV`, `badS` and `badP` are the registers whose value an error has lost (R509): lane, number and whether in the
handler's bank. -/
structure Pack where
  pidx : Nat
  pos : Nat
  width : Nat
  slot : Nat
  slices : List Slice
  s : Sparse Word := []
  sb : Sparse Word := []
  gp : Sparse (BitVec 128) := []
  qbind : List QBind := []
  streamer : Bool := false
  eng : List EngOp := []
  hist : List SplitRec := []
  frags : List Fragment
  lclock : Nat := 0
  skew : Nat := 0
  quantumEnd : Nat := 0
  ended : Bool := false
  lastSync : Nat := 0
  buf : List BufOp := []
  badV : List (Nat × Nat × Bool) := []
  badS : List (Nat × Bool) := []
  badP : List (Nat × Nat) := []
  fences : List Nat := []
  deriving DecidableEq, Repr

/-! ## Blocks -/

/-- A block barrier (R342). `arrivals` holds, for each pack that has arrived, its key and the phase of its latest arrival. -/
structure Barrier where
  expected : Nat
  arrived : Nat := 0
  phase : Nat := 0
  posted : Nat := 0
  delivered : Nat := 0
  postedNext : Nat := 0
  deliveredNext : Nat := 0
  arrivals : List (Nat × Nat) := []
  deriving DecidableEq, Repr

/-- A queue object (R347): capacity and element width, its elements oldest first, and whether a pushing and a popping
binding exist. -/
structure Queue where
  cap : Nat
  width : Nat
  elems : List (List Word) := []
  pushed : Bool := false
  popped : Bool := false
  deriving DecidableEq, Repr

inductive AccKind where
  | f32 | i32
  deriving DecidableEq, Repr

/-- An accumulator tile (R368): element 128 × row + column, with poisoned elements (R507) and those in which an uncorrectable error
stands (R506, R538). -/
structure AccTile where
  kind : AccKind := .f32
  data : Sparse Word := []
  poison : List Nat := []
  errs : List Nat := []
  deriving DecidableEq, Repr

/-- A loaded marver slot (R351): the format code of R352, the B elements (key 128 × row + column) as stored codes, the
exponent b + gs of each (TF8), poisoned elements, the checksum sums, the source reference, the cause and address of a failed
reload (R503), and whether an uncorrectable error stands in it (R510). -/
structure MarverSlot where
  fmt : Nat
  elems : Sparse Nat
  exps : Sparse Int
  poison : List Nat := []
  sums : List Nat := []
  entry : BitVec 512
  ti : Nat
  tj : Nat
  pending : Bool := false
  reload : Option (Nat × Nat) := none
  err : Bool := false
  deriving DecidableEq, Repr

/-- A loaded meta slot (R366): the nibble of row r and group g at key 128 × r + g. -/
structure MetaSlot where
  fmt : Nat
  row0 : Nat
  kt : Nat
  nibbles : Sparse Nat
  poison : Bool := false
  deriving DecidableEq, Repr

inductive RingSlot where
  | free | valid | consumed
  deriving DecidableEq, Repr

/-- A tile ring (R376). -/
structure Ring where
  tid : Nat
  slots : List RingSlot
  deriving DecidableEq, Repr

/-- A range-scoreboard entry (R137): stash bytes, and the operation, or the pack key and tag, or the source and tag of a GCOPY, that it
guards. -/
structure ScoreEntry where
  lo : Nat
  hi : Nat
  op : Option Nat
  tag : Option (Nat × Nat) := none
  grid : Option (Nat × Nat) := none
  deriving DecidableEq, Repr

/-- The modes of a stash region (R131). -/
inductive RegionMode where
  | rw | ro | wo
  deriving DecidableEq, Repr

/-- A stash region bound to global memory (R129). -/
structure StashRegion where
  idx : Nat
  off : Nat
  va : Nat
  lines : Nat
  mode : RegionMode
  deriving DecidableEq, Repr

/-- A present line of a bound region (R130): the stash line number, the physical line it filled from, and the bytes of it
that are dirty. A line with no record is absent. -/
structure StashLine where
  line : Nat
  pa : Nat
  dirty : BitVec 128
  written : BitVec 128
  deriving DecidableEq, Repr

/-- A product sum of a pass as it enters the accumulator (R221, R222): the element of the tile, the FP32 pattern or the
integer, and the exact sum n × 2^q that the residue check reads (none for a non-finite product). -/
structure PassSum where
  elem : Nat
  value : Word
  exact : Option (Int × Int)
  poison : Bool := false
  deriving DecidableEq, Repr

/-- One octet's part of a matrix pass that has issued and not been applied (R369, R378): the tile, the kind, the sums, the
residues that R379 expects of its columns and rows, the replays so far (R536), and whether it runs in a pass that another octet has
begun (R371). -/
structure PassOp where
  id : Nat
  pidx : Nat
  pos : Nat
  tile : Nat
  kind : AccKind
  sums : List PassSum
  cols : List (Nat × Nat)
  rows : List (Nat × Nat)
  replays : Nat := 0
  pc : DWord := 0
  lane : Nat := 0
  fused : Bool := false
  deriving DecidableEq, Repr

/-- Where a block is (R106 to R109). -/
inductive BlockState where
  | resident | preempted
  deriving DecidableEq, Repr

/-- A started block. `record` lists the pages of the save area
that its record takes (R108), `fuse` the pass of each marver slot that later octets may join: its format and kind, and its rows
(R371). `behind` marks one pre-empted under the deterministic case of R106 (R109); `order` numbers the starts. -/
structure Block where
  bid : Nat
  launch : Nat
  linear : Nat
  core : Nat
  state : BlockState := .resident
  behind : Bool := false
  base : Nat
  packs : List Pack
  stash : Sparse Byte := []
  stashPoison : List Nat := []
  regions : List StashRegion := []
  lines : List StashLine := []
  refill : List Nat := []
  barriers : Sparse Barrier := []
  queues : Sparse Queue := []
  acc : Sparse AccTile := []
  marver : Sparse MarverSlot := []
  mslots : Sparse MetaSlot := []
  rings : List Ring := []
  score : List ScoreEntry := []
  passes : List PassOp := []
  passCount : Nat := 0
  replays : Nat := 0
  fuse : Sparse (Nat × Nat) := []
  tdbase : DWord
  capbase : DWord
  order : Nat := 0
  record : List Nat := []
  deriving DecidableEq, Repr

/-! ## Operations in flight (records that engine counters point at) -/

/-- A lane of a CPL (R329): stash destination, valid bytes, and the physical address. -/
structure CopyLane where
  dst : Nat
  valid : Nat
  pa : Nat
  deriving DecidableEq, Repr

/-- One element that an MST writes (R372): a stash offset or a physical address, and the bytes; for MST.add the FP32 value
to add (an integer where `int` is set) and the destination format. -/
structure DrainElem where
  stash : Bool
  addr : Nat
  size : Nat
  value : Nat
  fmt : Nat
  int : Bool := false
  poison : Bool := false
  deriving DecidableEq, Repr

/-- The kinds of BXFER (R338). -/
inductive XferKind where
  | load | store | red (op : BitVec 5) (width : Nat)
  deriving DecidableEq, Repr

/-- What an engine does for an operation in flight: a lane copy, a streamer transfer (with its page list, the barrier and
next-phase mark, and the bytes already moved), or a drain. -/
inductive EngineWork where
  | copy (size : Nat) (lanes : List CopyLane)
  | xfer (kind : XferKind) (pages : List (Nat × Nat)) (va off len moved : Nat) (bar : Option (Nat × Bool))
  | drain (add : Bool) (elems : List DrainElem)
  deriving DecidableEq, Repr

structure EngineOp where
  id : Nat
  blk : Nat
  pidx : Nat
  pos : Nat
  work : EngineWork
  deriving DecidableEq, Repr

/-! ## Launches, cores, tasks -/

/-- Where a launch packet came from (R86): a host queue (its leaf RCB), a LAUNCH, template or class of an issuing leaf RCB. -/
inductive LaunchSource where
  | queue (q : Nat) (rcb : Nat)
  | leaf (rcb : Nat)
  deriving DecidableEq, Repr

/-- The tile that a tile task computes (R441): context, gate slot, micro-batch, expert, tile number, ERT index, dependence counter. -/
structure TileTask where
  ctx : Nat
  gate : Nat
  batch : Nat
  expert : Nat
  tile : Nat
  ert : Nat
  counter : Nat
  deriving DecidableEq, Repr

/-- A packet on its way to the dispatcher: 1,024 bits, its source, argument 0 where the source gives one (R88), and the
tile of a tile task. -/
structure Pending where
  packet : BitVec 1024
  source : LaunchSource
  arg0 : Option DWord := none
  task : Option TileTask := none
  isTask : Bool := false
  deriving DecidableEq, Repr

/-- A claim-taking stream of R116: the base and the block linear ids that have claimed or ended. -/
structure Stream where
  base : DWord := 0
  claimed : List Nat := []
  deriving DecidableEq, Repr

/-- An effect of a synchronising operation on a byte since the last round (R114): its place in the order, the byte's
physical address, the old and the new value. -/
structure SyncEffect where
  seq : Nat
  pa : Nat
  old : Byte
  new : Byte
  deriving DecidableEq, Repr

/-- An accepted launch: what the dispatcher and its blocks need of it. -/
structure Launch where
  lid : Nat
  packet : BitVec 1024
  region : Nat
  ctx : Nat
  args : DWord
  arg0 : Option DWord
  det : Bool
  strict : Bool
  prio : Nat
  quantum : Nat
  next : Nat := 0
  ended : List Nat := []
  streams : Sparse Stream := []
  seq : Nat := 0
  effects : List SyncEffect := []
  task : Option TileTask := none
  isTask : Bool := false
  deriving DecidableEq, Repr

/-- A line of a core's L1 (R21, R141): the line number, its valid 32-byte sectors, their bytes as the home held them when they were
read, and the tick from which it is no longer used (R165; log 7). -/
structure L1Line where
  line : Nat
  valid : BitVec 4
  data : Sparse Byte
  until_ : Nat
  deriving DecidableEq, Repr

/-- A core: its pending blocks (launch, linear id), oldest first, its steal LFSR, the stash segments awake (R128), and its L1, the
line filled last first. -/
structure Core where
  queue : List (Nat × Nat) := []
  lfsr : BitVec 16
  awake : BitVec 16 := 0
  l1 : List L1Line := []
  deriving DecidableEq, Repr

/-- A line of the L2 (R142): its valid and dirty sectors, its way, the bytes that memory holds behind the dirty ones and
which of them are poisoned there, and the tick of its fill. Its own bytes are those of `State.mem`, which is what every agent reads. -/
structure L2Line where
  valid : BitVec 4 := 0
  dirty : BitVec 4 := 0
  way : Nat
  back : Sparse Byte := []
  bad : BitVec 4 := 0
  filled : Nat := 0
  deriving DecidableEq, Repr

/-- A dependence counter (R94, R443). -/
structure DepCounter where
  value : Word := 0
  cls : Option Nat := none
  ctx : Option Nat := none
  deriving DecidableEq, Repr

/-- A task class (R443). -/
structure TaskClass where
  ctx : Nat
  region : Nat
  packet : BitVec 1024
  deriving DecidableEq, Repr

/-- A region's use at a unit in the current period (R103, R104), the allowance that the unit took at the period's start (R105),
and whether the held event was posted (R548). -/
structure BudgetUse where
  unit : Nat
  act : Nat
  rcb : Nat
  used : Nat
  allow : Nat
  posted : Bool := false
  deriving DecidableEq, Repr

/-- A counter shadow (R474): unit, ctxid, leaf RCB, counter number, amount; energy remainders are kept in nJ. -/
structure Shadow where
  unit : Nat
  rcb : Nat
  idx : Nat
  amount : Nat
  deriving DecidableEq, Repr

/-! ## Translation, migration -/

/-- Where a translation is held (R150): the L1 TLB of a core, or the L2 TLB of a C-die. -/
inductive TlbPlace where
  | core (c : Nat)
  | die (d : Nat)
  deriving DecidableEq, Repr

/-- A translation held in a TLB: the context, the page's virtual base, its exponent and its leaf. -/
structure TlbEntry where
  place : TlbPlace
  ctx : Nat
  va : Nat
  k : Nat
  leaf : BitVec 64
  deriving DecidableEq, Repr

/-- A page walk of a C-die (R150): the 4 KiB granule that it walks for, the cores whose misses wait for it, and the region that it is
charged to (R547). -/
structure Walk where
  die : Nat
  ctx : Nat
  rcb : Nat
  granule : Nat
  cores : List Nat
  deriving DecidableEq, Repr

/-- A page of the grid-symmetric window that has moved to another device (R459). -/
structure Moved where
  ctx : Nat
  va : Nat
  k : Nat
  dest : Nat
  deriving DecidableEq, Repr

/-! ## Grid -/

/-- A grid operation of a local pack (R402): tag, issuer, kind code of R400, acknowledgements expected and received,
refusals, the lowest refusing device, the completion word's physical address, the destination register and width of a
reply, lanes still to be answered with their addresses, the lowest refused address, whether it is a poisoned contribution (R561)
and was issued in supervisor mode,
the number below which the pack's earlier operations must be acknowledged before it is delivered (R186, R482; 0 none), the
physical planes that its messages have taken, whether it acquires (R187), and, for a request re-sent for a home slice, the address that its
answer is for (R157). -/
structure GridOp where
  tag : Nat
  op : Nat
  blk : Nat
  pidx : Nat
  pos : Nat
  kind : Nat
  ctx : Nat
  linear : Nat
  region : Nat
  expect : Nat
  got : Nat := 0
  refused : Nat := 0
  first : Option Nat := none
  cw : Option Nat := none
  dst : Nat := 0
  width : Nat := 0
  lanes : List (Nat × Nat) := []
  lowAddr : Option Nat := none
  poisoned : Bool := false
  sup : Bool := false
  after : Nat := 0
  planes : List Nat := []
  acq : Bool := false
  home : Option Nat := none
  deriving DecidableEq, Repr

/-- Requests that left as one message, or that this device re-sends for others (R158, R404): the tag and part of the message, the
tree that its answer splits to, and whether the constituents are answered over the fabric. -/
structure Relay where
  tag : Nat
  part : Nat
  tree : CombTree
  far : Bool
  deriving DecidableEq, Repr

/-- A batch that a root holds (R415, R416, R418): the kind of its messages, the completion word's window address, the context,
the messages held, the spill frames taken for them at each M-stack, and the lines spilled there. -/
structure Batch where
  kind : Nat
  cw : Nat
  ctx : Nat
  held : List GMsg
  frames : List (Nat × Nat) := []
  spilled : Sparse Nat := []
  deriving DecidableEq, Repr

/-- A released write that waits for its markers (R398): the markers needed (0 while no part of it has come), the planes whose
markers have come, and the messages of it that have come. -/
structure HeldRelease where
  src : Nat
  tag : Nat
  need : Nat := 0
  got : List Nat := []
  seen : Nat := 0
  deriving DecidableEq, Repr

/-- The line messages of one instruction that a destination has settled (R402), whether one was refused, and whether one arrived
poisoned (R522). -/
structure Part where
  src : Nat
  tag : Nat
  seen : Nat := 0
  refused : Bool := false
  poison : Bool := false
  deriving DecidableEq, Repr

/-- A flit of a link (R391): its header but for the CRC, which its bits determine, and its 56 bytes of payload. -/
structure Flit where
  vc : BitVec 3
  sof : Bool
  eof : Bool
  crd : BitVec 6 := 0
  cvc : BitVec 3 := 0
  kind : BitVec 2 := 0
  fseq : BitVec 8 := 0
  payload : List Byte
  deriving DecidableEq, Repr

/-- A flit at a port with the line whose requests keep their order there (R395). -/
structure PortFlit where
  line : Option Nat
  flit : Flit
  deriving DecidableEq, Repr

/-- A link of the fabric (R391, R393, R523, R524): whether it is up, the next sequence numbers to send and to accept, the flits sent
and not acknowledged, those that wait for credit, the failed replays, the credits spent of each channel and those owed to the other end,
the flits sent since the last audit, the first flit that a failover moved here, and the link errors counted. -/
structure Link where
  up : Bool := true
  tx : BitVec 8 := 0
  rx : BitVec 8 := 0
  kept : List PortFlit := []
  queue : List PortFlit := []
  fails : Nat := 0
  spent : Sparse Nat := []
  owed : Sparse Nat := []
  flits : Nat := 0
  moved : Option (BitVec 8) := none
  errors : Nat := 0
  deriving DecidableEq, Repr

/-- The link-control flits that the device sends (R523, R524, R559): a replay request from a number on, a failover notice with the
first moved number, an audit, and its being unreachable. -/
inductive CtlFlit where
  | replay (link : Nat) (fseq : BitVec 8)
  | failover (link : Nat) (fseq : BitVec 8)
  | audit (link : Nat)
  | unreachable (link : Nat)
  deriving DecidableEq, Repr

/-! ## Experts -/

/-- A token slot of a dispatch (R430): the token, the slot index, the ranked position and expert it is at, whether an attempt
is unanswered, whether it is settled and with which status (R431), whether its last refusal was for a full kennel, and its
weight. A slot that is neither waits for its next attempt (R445). -/
structure SlotState where
  token : Nat
  slot : Nat
  pos : Nat
  expert : Nat
  out : Bool := true
  settled : Bool := false
  status : Nat := 0
  kennel : Bool := false
  weight : Word
  deriving DecidableEq, Repr

/-- A token of a dispatch: its row index, the ranked list, the positions that its slots have taken, the row, and whether that was
poisoned. -/
structure Token where
  row : Nat
  ranked : List Nat
  taken : Nat
  data : List (BitVec 16)
  poison : Bool
  deriving DecidableEq, Repr

/-- A GDISPATCH in flight (R429). `route` holds the translated route-table pages, `depth` is D of R430. -/
structure Dispatch where
  op : Nat
  blk : Nat
  pidx : Nat
  pos : Nat
  ctx : Nat
  region : Nat
  gate : Nat
  batch : Nat
  ordered : Bool
  route : List (Nat × Nat)
  routeVa : Nat
  r0 : Nat
  depth : Nat
  owners : List Nat
  tokens : List Token
  slots : List SlotState
  deriving DecidableEq, Repr

/-- A micro-batch at this device as an owner (R434, R441, R445): the devices of gpP, how many close markers each has sent and
which have sent their last, the ordered rounds closed, whether the batch is closed and its close has subtracted (R441), the
tiles spawned and the tile tasks still live, the positions whose rows have been written, those parked and those void (R528), and
the rows held for an ordered round with the pool frames that hold them. -/
structure BatchState where
  batch : Nat
  dests : List Nat := []
  marks : Sparse Nat := []
  lasts : List Nat := []
  round : Nat := 0
  closed : Bool := false
  closeDone : Bool := false
  spawned : List (Nat × Nat) := []
  live : Nat := 0
  written : List (Nat × Nat) := []
  parked : List (Nat × Nat) := []
  void : List (Nat × Nat) := []
  heldRows : List TokenRow := []
  frames : List Nat := []
  deriving DecidableEq, Repr

/-- A micro-batch that MBMARK has ended (R432 step 3): its devices, and the close markers sent. -/
structure MarkDue where
  batch : Nat
  dests : List Nat
  sent : Nat := 0
  deriving DecidableEq, Repr

/-- A message of the expert machinery over VC 6 (R430, R432, R433, R445): a row to an owner, its answer, a close marker, an owner's
loads. `last` marks the marker after which its source sends no more rows of the batch. -/
inductive XMsg where
  | row (dest : Nat) (r : TokenRow)
  | reply (dest : Nat) (r : RowReply)
  | close (dests : List Nat) (slot batch src : Nat) (last : Bool)
  | loads (dests : List Nat) (slot batch : Nat) (loads : List (Nat × Nat))
  deriving DecidableEq, Repr

/-- A configured gate slot (R422, R425). `shadowFor` is the batch whose update the shadow holds (R433), `loads` are the loads
received: (batch, expert) and load. `err` says that an uncorrectable error stands in its weights (R510). -/
structure GateSlot where
  ctx : Nat
  region : Nat
  gcb : BitVec 512
  weights : List (BitVec 16)
  bias : List Word
  shadow : List Word
  shadowFor : Nat
  ptab : List Nat
  j : Nat := 0
  drops : Nat := 0
  moves : Nat := 0
  loads : List ((Nat × Nat) × Nat) := []
  err : Bool := false
  toClose : List MarkDue := []
  batches : List BatchState := []
  deriving DecidableEq, Repr

/-- A row that waits in the kennel (R437); `place` is its entry, `slot` the token slot that the row is for. -/
structure KennelEntry where
  slot : Nat
  place : Nat
  ert : Nat
  pos : Nat
  bank : Nat
  gate : Nat
  expert : Nat
  deriving DecidableEq, Repr

/-- A fetch of the pager (R438, R528): the ERT index, and the attempts that failed. -/
structure Fetch where
  idx : Nat
  tries : Nat := 0
  deriving DecidableEq, Repr

/-! ## Network engine -/

/-- An installed channel (R462): whose, where and which it is, the region of the launch, the entry; the ring positions and the
overflow; for sending, the outstanding bytes, the next packet sequence number and the start position (R465); for reception, the
lowest packet sequence number not yet taken, those taken above it, the spans of messages begun (message, first number, count,
whether ROD), the segments held for order, and the messages refused (R467, R533); the reads answered, with the first number of each
answer. `gen` numbers the installations, and `past` holds the ring positions (read, write) of the earlier ones, for the requests that
were accepted under them. -/
structure Channel where
  ctx : Nat
  table : Nat
  ch : Nat
  region : Nat
  entry : BitVec 512
  rd : Nat := 0
  wr : Nat := 0
  ovf : Bool := false
  out : Nat := 0
  psn : Nat := 0
  start : Nat := 0
  rxNext : Nat := 0
  rxSeen : List Nat := []
  spans : List (Nat × Nat × Nat × Bool) := []
  heldSegs : List NeSeg := []
  refused : List Nat := []
  answered : List (Nat × Nat) := []
  gen : Nat := 0
  past : List (Nat × Nat × Nat) := []
  deriving DecidableEq, Repr

/-- A segment of a request (R465, R531): its packet sequence number, its place among the live ports, whether acknowledged, the
resendings, the number of its latest sending, and the later segments reported since. -/
structure SegState where
  part : Nat
  psn : Nat
  port : Nat
  acked : Bool := false
  resent : Nat := 0
  sentAt : Nat := 0
  later : List Nat := []
  deriving DecidableEq, Repr

/-- A request of NPOST (R463) in flight, with the entry it was accepted with and that entry's installation (R462). -/
structure NeReq where
  op : Nat
  blk : Nat
  pidx : Nat
  pos : Nat
  ctx : Nat
  table : Nat
  region : Nat
  entry : BitVec 512
  wr : BitVec 512
  pages : List (Nat × Nat)
  ctr : Option Nat
  begun : Bool := false
  segs : List SegState := []
  placed : List Nat := []
  gen : Nat := 0
  deriving DecidableEq, Repr

/-- A receive of NRECV (R467), with the entry it was accepted with and its installation (R462): the message taken, with its tag, the segments placed, their number, the bytes placed and the
message's length. -/
structure NeRecv where
  op : Nat
  ctx : Nat
  table : Nat
  region : Nat
  wr : BitVec 512
  pages : List (Nat × Nat)
  ctr : Option Nat
  msg : Option Nat := none
  tag : BitVec 64 := 0
  placed : List Nat := []
  nparts : Nat := 0
  bytes : Nat := 0
  total : Nat := 0
  entry : BitVec 512 := 0
  gen : Nat := 0
  deriving DecidableEq, Repr

/-- A launch arm (R470). -/
structure Arm where
  ctx : Nat
  idx : Nat
  packet : BitVec 1024
  region : Nat
  tag : BitVec 64
  mask : BitVec 64
  keep : Bool
  deriving DecidableEq, Repr

/-- What the network engine sends (R465 to R467, R531, R533): a segment on a port, an acknowledgement, the refusal of a message with
its fault, "not ready", an abort. -/
inductive NeOut where
  | segment (port : Nat) (g : NeSeg)
  | ack (id : NeId) (psn : Nat)
  | refuse (id : NeId) (msg fault : Nat)
  | notReady (id : NeId) (msg : Nat)
  | abort (id : NeId) (msg : Nat)
  deriving DecidableEq, Repr

/-! ## The device -/

/-- The system registers of R453 that are stored once per device. -/
structure SysRegs where
  trapbase : DWord := 0
  griddesc : DWord := 0
  gridself : DWord := 0
  planemap : DWord := 0x000000FF76543210#64
  detq : DWord := 12#64
  rngseed : DWord := 0
  ertbase : DWord := 0
  kennelcfg : DWord := 0
  ovfdepth : DWord := 0
  biascfg : DWord := 0
  budgetcfg : DWord := 1#64
  deriving DecidableEq, Repr

/-- A host queue's indices (R452). -/
structure HostQueue where
  q : Nat
  cons : Word := 0
  target : Word := 0
  stopped : Bool := false
  deriving DecidableEq, Repr

/-- The host-interface registers and the status mailbox (R449, R555). -/
structure HostRegs where
  histat : DWord := 0
  ctxtab : DWord := 0
  hqtab : DWord := 0
  hqerr : DWord := 0
  biastab : DWord := 0
  queues : List HostQueue := []
  mbstat : DWord := 0
  mbrepair : DWord := 0
  mbce : DWord := 0
  mbue : DWord := 0
  mbfabric : DWord := 0
  mbnet : DWord := 0
  mbrefuse : DWord := 0
  mbhost : DWord := 0
  mbreset : DWord := 0
  mblost : DWord := 0
  mblog : List (BitVec 128) := []
  deriving DecidableEq, Repr

/-- An island (R25, R475): millivolts, megahertz, and the meter in nJ. -/
structure Island where
  mv : BitVec 16
  mhz : BitVec 16
  meter : Nat := 0
  deriving DecidableEq, Repr

/-- The remap table (R31): the physical C-die of each logical one, and the physical cores that present its logical cores. -/
structure Remap where
  dies : List Nat
  cores : List (List Nat)
  deriving DecidableEq, Repr

/-- The table that the fuses of this part give (log 4): every C-die presents itself, with its first 48 physical cores. -/
def Remap.fuses : Remap := { dies := List.range 4, cores := List.replicate 4 (List.range 48) }

/-- An error of an array (R506): one that is corrected; or where an uncorrectable one strikes: a sector of memory, L2 data, an L2 tag, an L1 line, a TLB, a stash word, a register
or a predicate of a pack (in a lane; the handler's bank or not), an accumulator element, a marver slot, a gate slot. -/
inductive Upset where
  | corrected
  | memory (sector : Nat)
  | l2Data (sector : Nat)
  | l2Tag (line : Nat)
  | l1 (core line : Nat)
  | tlb (place : TlbPlace) (va : Nat)
  | stash (blk word : Nat)
  | vector (blk pidx pos lane reg : Nat) (banked : Bool)
  | uniform (blk pidx pos reg : Nat) (banked : Bool)
  | predicate (blk pidx pos lane reg : Nat)
  | accumulator (blk tile elem : Nat)
  | marver (blk slot : Nat)
  | gate (slot : Nat)
  deriving DecidableEq, Repr

/-- What reaches the device from outside with no row of the opcode table: an error of an array (R506), and a page of the
grid-symmetric window that another device migrates here (R156, R459): its source, its context, address and exponent, its bytes that are not
at the default and its poisoned sectors. -/
inductive Input where
  | upset (u : Upset)
  | page (src ctx va k : Nat) (cells : List Host.Cell) (poison : List Nat)
  deriving DecidableEq, Repr

/-- A write-back that has failed and is to be reported (R134, R515): the region, and the line's virtual address. -/
structure LostLine where
  region : Nat
  va : Nat
  deriving DecidableEq, Repr

/-- A fault that is to stop a fault domain (R497): where it was met. -/
structure Doom where
  region : Nat
  ctx : Nat
  pack : Nat
  linear : Nat
  info : TrapInfo
  deriving DecidableEq, Repr

/-- A page that leaves for another device (R156, R459): the device, the page, its bytes that are not at the default and its poisoned
sectors, by their places in it. -/
structure PageOut where
  dest : Nat
  ctx : Nat
  va : Nat
  k : Nat
  cells : List Host.Cell
  poison : List Nat
  deriving DecidableEq, Repr

/-- The state of the device. `mem` is physical memory in canonical form (`Memory.wf`, Machine/Mem.lean). The fields from
`agenda` on are the model's own (log 1, log 6). -/
structure State where
  mem : List Host.Cell := []
  poison : List Nat := []
  sys : SysRegs := {}
  selfWritten : Bool := false
  hi : HostRegs := {}
  islands : Sparse Island := []
  tlb : List TlbEntry := []
  walks : List Walk := []
  l2 : Sparse L2Line := []
  remap : Remap := Remap.fuses
  gated : List (Nat × Nat) := []
  moved : List Moved := []
  cores : Sparse Core := []
  arriving : List Pending := []
  launches : List Launch := []
  blocks : List Block := []
  classes : Sparse TaskClass := []
  counters : Sparse DepCounter := []
  spawns : List (Nat × Nat) := []
  rr : Nat := 0
  budget : List BudgetUse := []
  shadows : List Shadow := []
  activity : List Shadow := []
  unattributed : Nat := 0
  engine : List EngineOp := []
  gridOps : List GridOp := []
  loop : List GOut := []
  outbox : List GOut := []
  flitsOut : List (Nat × Flit) := []
  heldMsgs : List GOut := []
  markersDue : List GOut := []
  poisonDue : List (Nat × List GOut) := []
  portOut : List CombTree := []
  combOut : List Relay := []
  portIn : List GOut := []
  comb : List CombTree := []
  batches : List Batch := []
  heldRel : List HeldRelease := []
  parts : List Part := []
  landings : List GMsg := []
  links : Sparse Link := []
  deadPlanes : BitVec 8 := 0
  unreachable : Bool := true
  planeWrite : Option DWord := none
  gates : Sparse GateSlot := []
  dispatches : List Dispatch := []
  xout : List XMsg := []
  xloop : List XMsg := []
  kennel : List KennelEntry := []
  fetches : List Fetch := []
  channels : List Channel := []
  sends : List NeReq := []
  receives : List NeRecv := []
  arms : List Arm := []
  netOut : List NeOut := []
  livePorts : BitVec 8 := 0xFF
  snapshots : Nat := 0
  agenda : List Instr := []
  cur : Option FragRef := none
  tick : Nat := 0
  free : Nat := 0
  nextId : Nat := 1
  replies : List (Nat × Option Nat) := []
  ctlOut : List CtlFlit := []
  mgmtOut : List (List Byte) := []
  pagesOut : List PageOut := []
  lost : List LostLine := []
  doomed : List Doom := []
  inputs : List Input := []
  co : List FragRef := []
  deriving DecidableEq, Repr

/-! ## Results of the shared operations -/

/-- A page of a page table (R147): its virtual base, exponent, physical base and permissions. -/
structure Page where
  va : Nat
  k : Nat
  pa : Nat
  w : Bool
  x : Bool
  sup : Bool
  gw : Bool
  cache : Nat
  deriving DecidableEq, Repr

/-- What an access needs of its page: a read, a write, an instruction fetch, a write of a remote grid operation (R147). -/
inductive Need where
  | read | write | exec | gridRead | gridWrite
  deriving DecidableEq, Repr

/-- The tiers of the physical address space (R122). -/
inductive Tier where
  | dram | lpddr | registers | expert | host
  deriving DecidableEq, Repr

/-- A region as launches see it: the effective values of R72. -/
structure Region where
  rcb : Nat
  ctxid : Nat
  prio : Nat
  det : Nat
  cores : BitVec 192
  pool : Nat
  ftbase : Nat
  ftsize : Nat
  chain : List Nat
  domain : Nat
  deriving DecidableEq, Repr

/-- An IEEE binary format (R199): exponent and fraction bits. -/
structure Fmt where
  ebits : Nat
  fbits : Nat
  deriving DecidableEq, Repr

/-- An exact floating-point value: a NaN (signalling or not), an infinity, or ±m × 2^e (R206). -/
inductive FVal where
  | nan (snan : Bool)
  | inf (neg : Bool)
  | fin (neg : Bool) (m : Nat) (e : Int)
  deriving DecidableEq, Repr

/-- The fragment that issues, with what holds it. -/
structure Issuer where
  ref : FragRef
  b : Block
  p : Pack
  f : Fragment
  l : Launch
  deriving DecidableEq, Repr

/-- What an instruction leaves at its retirement besides its effect: the value for latch b0, if it is result-producing (R100);
the next PC of slices that do not fall through; a HOLD burst that begins; whether its run ends. -/
structure Retire where
  res : Option (Sparse (BitVec 128)) := none
  jump : Sparse DWord := []
  hold : Option Nat := none
  endRun : Bool := false
  deriving DecidableEq, Repr

/-- A source operand as an instruction reads it: the type that its constants take, whether it is 64 bits wide (R233
to R235), and the value of a constant of a short form (R229). -/
structure Opnd where
  src : Src
  ty : Ty
  wide : Bool
  imm : Option Nat := none
  deriving DecidableEq, Repr

/-- How an instruction ends: it retires; it traps with no effect; it waits, to be tried again, in a scheduling state of R48; its
run ends before it issues (R98); or it has retired its fragments itself (R50, R58, R61, R496). -/
inductive Act where
  | ok (s : State) (r : Retire)
  | trap (t : TrapInfo)
  | wait (st : FragState) (w : Wait)
  | endRun
  | own (s : State)
  deriving DecidableEq, Repr

/-- Where an instruction may stand in a HOLD burst (R274): anywhere, last only, nowhere. -/
inductive BurstPlace where
  | any | last | never
  deriving DecidableEq, Repr

/-- Island n after reset (log 5): 350 mV and 1,500 MHz (R24). -/
def Island.reset : Island := { mv := 350#16, mhz := 1500#16 }

/-- The device right after reset: every register at the value the spec states (R449, R453, R555, R557), no launch, no
block, memory with nothing listed. What the spec gives no value for is named in log 3 and log 5. -/
def State.reset : State := {}

end Sys2Proof.Machine
end

