-- ==== Sys2Proof/Machine/Num.lean ====
section
/-! DEFINITION. Arithmetic and its flags (spec/06_numbers.md): integer elements, the IEEE formats with exact values rounded once,
TF8, the generator. A flag set is a number whose bits are those of FPSTAT (R203). -/

namespace Sys2Proof.Machine

/-! ## Flags (R203) -/

def flagNV : Nat := 1
def flagDZ : Nat := 2
def flagOF : Nat := 4
def flagUF : Nat := 8
def flagNX : Nat := 16
def flagSAT : Nat := 32
def flagNAR : Nat := 64
def flagSU : Nat := 128

/-! ## Elements of a type (R199, R208, R212) -/

/-- The element width of a type, in bits. -/
def elemBits : Ty → Nat
  | .i32 => 32 | .n32 => 32 | .i64 => 64 | .n64 => 64 | .i16x2 => 16 | .n16x2 => 16 | .i8x4 => 8 | .n8x4 => 8
  | .f32 => 32 | .f64 => 64 | .f16x2 => 16 | .bf16x2 => 16 | .tf8x4 => 8 | .b32 => 32 | .b64 => 64

def elemCount : Ty → Nat
  | .i16x2 => 2 | .n16x2 => 2 | .f16x2 => 2 | .bf16x2 => 2 | .i8x4 => 4 | .n8x4 => 4 | .tf8x4 => 4 | _ => 1

/-- The width of the operand of a type: one register or a pair. -/
def tyBits (t : Ty) : Nat := elemBits t * elemCount t

def tySigned (t : Ty) : Bool := t == .i32 || t == .i64 || t == .i16x2 || t == .i8x4

def tyFloat (t : Ty) : Bool := t == .f32 || t == .f64 || t == .f16x2 || t == .bf16x2

/-- Element k of width w. -/
def elem (w x k : Nat) : Nat := x / 2 ^ (w * k) % 2 ^ w

/-- The elements of an operand, lowest first. -/
def elemsOf (t : Ty) (x : Nat) : List Nat := (List.range (elemCount t)).map (elem (elemBits t) x)

/-- The operand made of elements of width w. -/
def joinElems (w : Nat) : List Nat → Nat
  | [] => 0
  | x :: xs => x % 2 ^ w + 2 ^ w * joinElems w xs

/-- The exact value of an integer element, signed or unsigned as the type says (R280). -/
def intOf (t : Ty) (x : Nat) : Int := if tySigned t then sval (elemBits t) x else (x : Int)

/-- The range of an integer type's element. -/
def intMin (t : Ty) : Int := if tySigned t then -((2 ^ (elemBits t - 1) : Nat) : Int) else 0
def intMax (t : Ty) : Int :=
  if tySigned t then ((2 ^ (elemBits t - 1) : Nat) : Int) - 1 else ((2 ^ elemBits t : Nat) : Int) - 1

/-- WrapInt or Clamp with its SAT flag (R205, R206, R280): the element's bits and flags. -/
def intResult (t : Ty) (sat : Bool) (x : Int) : Nat × Nat :=
  if sat then
    let y := if x < intMin t then intMin t else if intMax t < x then intMax t else x
    (unsig (elemBits t) y, if y = x then 0 else flagSAT)
  else (unsig (elemBits t) x, 0)

/-! ## Small number facts -/

/-- The bits of a number: 0 for 0, else ⌊log2 n⌋ + 1. -/
def bitLen (n : Nat) : Nat := if n = 0 then 0 else Nat.log2 n + 1

/-- ⌊√n⌋, bit by bit from bit k − 1 down. -/
def isqrtFrom (n r : Nat) : Nat → Nat
  | 0 => r
  | k + 1 => isqrtFrom n (if (r + 2 ^ k) * (r + 2 ^ k) ≤ n then r + 2 ^ k else r) k

def isqrt (n : Nat) : Nat := isqrtFrom n 0 (bitLen n / 2 + 1)

/-- A number times 2^k, k of either sign, rounded toward zero. -/
def shl2 (m : Nat) (k : Int) : Nat := if 0 ≤ k then m * 2 ^ k.toNat else m / 2 ^ (-k).toNat

/-! ## IEEE formats (R199 to R206) -/

def fmtF64 : Fmt := { ebits := 11, fbits := 52 }
def fmtF32 : Fmt := { ebits := 8, fbits := 23 }
def fmtF16 : Fmt := { ebits := 5, fbits := 10 }
def fmtBF16 : Fmt := { ebits := 8, fbits := 7 }

def fmtOf : Ty → Fmt
  | .f64 => fmtF64
  | .f16x2 => fmtF16
  | .bf16x2 => fmtBF16
  | _ => fmtF32

def fmtBias (f : Fmt) : Int := ((2 ^ (f.ebits - 1) : Nat) : Int) - 1
def fmtEmin (f : Fmt) : Int := 1 - fmtBias f
def fmtSignBit (f : Fmt) : Nat := 2 ^ (f.ebits + f.fbits)
def fmtInf (f : Fmt) : Nat := (2 ^ f.ebits - 1) * 2 ^ f.fbits
def fmtNaN (f : Fmt) : Nat := fmtInf f + 2 ^ (f.fbits - 1)
def fmtMax (f : Fmt) : Nat := fmtInf f - 1
def fmtSigned (f : Fmt) (neg : Bool) (x : Nat) : Nat := if neg then fmtSignBit f + x else x

/-- The value of a pattern. -/
def fDecode (f : Fmt) (x : Nat) : FVal :=
  let neg := x / fmtSignBit f % 2 == 1
  let ex := x / 2 ^ f.fbits % 2 ^ f.ebits
  let fr := x % 2 ^ f.fbits
  if ex = 2 ^ f.ebits - 1 then
    if fr = 0 then .inf neg else .nan (fr < 2 ^ (f.fbits - 1))
  else if ex = 0 then .fin neg fr (fmtEmin f - f.fbits)
  else .fin neg (2 ^ f.fbits + fr) ((ex : Int) - fmtBias f - f.fbits)

/-- Whether a remainder makes a magnitude round up (R201). -/
def roundsUp (mode : Rnd) (neg odd : Bool) (rem half : Nat) (sticky : Bool) : Bool :=
  match mode with
  | .rne => half < rem || (rem == half && (sticky || odd))
  | .rtz => false
  | .rdn => neg && (rem != 0 || sticky)
  | .rup => !neg && (rem != 0 || sticky)

/-- ±(m + sticky) × 2^e as a multiple of 2^q: the multiple, and whether it is inexact. A sticky value has q > e. -/
def roundAt (mode : Rnd) (neg : Bool) (m : Nat) (e : Int) (sticky : Bool) (q : Int) : Nat × Bool :=
  if q ≤ e then (m * 2 ^ (e - q).toNat, sticky)
  else
    let d := (q - e).toNat
    let n := m / 2 ^ d
    let rem := m % 2 ^ d
    (if roundsUp mode neg (n % 2 == 1) rem (2 ^ (d - 1)) sticky then n + 1 else n, rem != 0 || sticky)

/-- The overflow result of R201. -/
def overflowBits (f : Fmt) (mode : Rnd) (neg : Bool) : Nat :=
  fmtSigned f neg
    (match mode with
     | .rne => fmtInf f
     | .rtz => fmtMax f
     | .rdn => if neg then fmtInf f else fmtMax f
     | .rup => if neg then fmtMax f else fmtInf f)

/-- The rounding of a non-zero exact value, once (R201, R203, R206): the pattern and the flags OF, UF, NX. The magnitude is
m × 2^e, or strictly between that and (m + 1) × 2^e when sticky is set. -/
def roundFin (f : Fmt) (mode : Rnd) (neg : Bool) (m : Nat) (e : Int) (sticky : Bool) : Nat × Nat :=
  if m = 0 ∧ !sticky then (fmtSigned f neg 0, 0)
  else
    let top : Int := e + (bitLen m : Int) - 1
    let q := max top (fmtEmin f) - f.fbits
    let (n, inexact) := roundAt mode neg m e sticky q
    -- the rounding with unbounded exponent, which decides tininess
    let (nu, _) := roundAt mode neg m e sticky (top - f.fbits)
    let tiny := decide (top < fmtEmin f) && !(decide (top = fmtEmin f - 1) && nu == 2 ^ (f.fbits + 1))
    if n < 2 ^ f.fbits then
      (fmtSigned f neg n, (if inexact then flagNX else 0) + (if inexact && tiny then flagUF else 0))
    else
      let n' := if n = 2 ^ (f.fbits + 1) then 2 ^ f.fbits else n
      let q' := if n = 2 ^ (f.fbits + 1) then q + 1 else q
      let biased := q' + f.fbits + fmtBias f
      if ((2 ^ f.ebits : Nat) : Int) - 1 ≤ biased then (overflowBits f mode neg, flagOF + flagNX)
      else
        (fmtSigned f neg (biased.toNat * 2 ^ f.fbits + (n' - 2 ^ f.fbits)),
          (if inexact then flagNX else 0) + (if inexact && tiny then flagUF else 0))

/-- The canonical NaN with a flag set. -/
def nanRes (f : Fmt) (flags : Nat) : Nat × Nat := (fmtNaN f, flags)

def isNan : FVal → Bool
  | .nan _ => true
  | _ => false

def isSnan : FVal → Bool
  | .nan b => b
  | _ => false

def isZero : FVal → Bool
  | .fin _ m _ => m == 0
  | _ => false

def fNeg : FVal → Bool
  | .inf n => n
  | .fin n _ _ => n
  | .nan _ => false

/-- NV where an operand is signalling (R202). -/
def snanFlag (vs : List FVal) : Nat := if vs.any isSnan then flagNV else 0

/-- A value rounded to a format (R206). -/
def roundVal (f : Fmt) (mode : Rnd) : FVal → Nat × Nat
  | .nan s => nanRes f (if s then flagNV else 0)
  | .inf neg => (fmtSigned f neg (fmtInf f), 0)
  | .fin neg m e => roundFin f mode neg m e false

/-- The negation of a value. -/
def fNegate : FVal → FVal
  | .nan s => .nan s
  | .inf n => .inf (!n)
  | .fin n m e => .fin (!n) m e

/-- The signed integer of a finite magnitude. -/
def signedOf (neg : Bool) (m : Nat) : Int := if neg then -(m : Int) else m

/-- The exact sum of two finite values, with the sign of an exact zero (R302). -/
def addFin (mode : Rnd) (n1 : Bool) (m1 : Nat) (e1 : Int) (n2 : Bool) (m2 : Nat) (e2 : Int) : FVal :=
  let e := min e1 e2
  let x := signedOf n1 m1 * (2 ^ (e1 - e).toNat : Nat) + signedOf n2 m2 * (2 ^ (e2 - e).toNat : Nat)
  if x = 0 then
    if m1 = 0 ∧ m2 = 0 ∧ n1 = n2 then .fin n1 0 0 else .fin (mode == .rdn) 0 0
  else .fin (x < 0) x.natAbs e

/-- The exact sum, or a NaN with NV for ∞ − ∞ (R302). -/
def addVal (mode : Rnd) (a b : FVal) : FVal × Nat :=
  match a, b with
  | .nan s, y => (.nan false, if s || isSnan y then flagNV else 0)
  | _, .nan s => (.nan false, if s then flagNV else 0)
  | .inf n, .inf k => if n = k then (.inf n, 0) else (.nan false, flagNV)
  | .inf n, _ => (.inf n, 0)
  | _, .inf n => (.inf n, 0)
  | .fin n1 m1 e1, .fin n2 m2 e2 => (addFin mode n1 m1 e1 n2 m2 e2, 0)

/-- The exact product, or a NaN with NV for 0 × ∞ (R302). -/
def mulVal (a b : FVal) : FVal × Nat :=
  match a, b with
  | .nan s, y => (.nan false, if s || isSnan y then flagNV else 0)
  | x, .nan s => (.nan false, if s || isSnan x then flagNV else 0)
  | .inf n, .inf k => (.inf (n != k), 0)
  | .inf n, .fin k m _ => if m = 0 then (.nan false, flagNV) else (.inf (n != k), 0)
  | .fin k m _, .inf n => if m = 0 then (.nan false, flagNV) else (.inf (n != k), 0)
  | .fin n1 m1 e1, .fin n2 m2 e2 => (.fin (n1 != n2) (m1 * m2) (e1 + e2), 0)

def fAdd (f : Fmt) (mode : Rnd) (x y : Nat) : Nat × Nat :=
  let (v, fl) := addVal mode (fDecode f x) (fDecode f y)
  let (r, fl') := roundVal f mode v
  (r, fl ||| fl')

def fSub (f : Fmt) (mode : Rnd) (x y : Nat) : Nat × Nat :=
  let (v, fl) := addVal mode (fDecode f x) (fNegate (fDecode f y))
  let (r, fl') := roundVal f mode v
  (r, fl ||| fl')

def fMul (f : Fmt) (mode : Rnd) (x y : Nat) : Nat × Nat :=
  let (v, fl) := mulVal (fDecode f x) (fDecode f y)
  let (r, fl') := roundVal f mode v
  (r, fl ||| fl')

/-- FFMA with the negations of its opx (R302). A product of 0 and ∞ raises NV whatever the addend. -/
def fFma (f : Fmt) (mode : Rnd) (negab negc : Bool) (x y z : Nat) : Nat × Nat :=
  let (p, fl) := mulVal (fDecode f x) (fDecode f y)
  let p := if negab then fNegate p else p
  let c := if negc then fNegate (fDecode f z) else fDecode f z
  let (v, fl1) := addVal mode p c
  let (r, fl2) := roundVal f mode v
  (r, fl ||| fl1 ||| fl2)

/-- FDIV (R217, R302). -/
def fDiv (f : Fmt) (mode : Rnd) (x y : Nat) : Nat × Nat :=
  match fDecode f x, fDecode f y with
  | .nan s, b => nanRes f (if s || isSnan b then flagNV else 0)
  | _, .nan s => nanRes f (if s then flagNV else 0)
  | .inf _, .inf _ => nanRes f flagNV
  | .inf n, .fin k _ _ => (fmtSigned f (n != k) (fmtInf f), 0)
  | .fin n _ _, .inf k => (fmtSigned f (n != k) 0, 0)
  | .fin n m1 e1, .fin k m2 e2 =>
    if m2 = 0 then
      if m1 = 0 then nanRes f flagNV else (fmtSigned f (n != k) (fmtInf f), flagDZ)
    else if m1 = 0 then (fmtSigned f (n != k) 0, 0)
    else
      let sh := f.fbits + 4 + bitLen m2
      roundFin f mode (n != k) (m1 * 2 ^ sh / m2) (e1 - e2 - sh) (m1 * 2 ^ sh % m2 != 0)

def fOne (f : Fmt) : Nat := (fmtBias f).toNat * 2 ^ f.fbits

/-- FRCP (R217): a NaN gives a NaN, ±0 gives ±∞ and DZ. -/
def fRcp (f : Fmt) (mode : Rnd) (x : Nat) : Nat × Nat := fDiv f mode (fOne f) x

/-- FSQRT (R217). -/
def fSqrt (f : Fmt) (mode : Rnd) (x : Nat) : Nat × Nat :=
  match fDecode f x with
  | .nan s => nanRes f (if s then flagNV else 0)
  | .inf n => if n then nanRes f flagNV else (fmtInf f, 0)
  | .fin n m e =>
    if m = 0 then (fmtSigned f n 0, 0)
    else if n then nanRes f flagNV
    else
      let (m, e) := if e % 2 = 0 then (m, e) else (2 * m, e - 1)
      let k := f.fbits + 4
      let y := m * 2 ^ (2 * k)
      let r := isqrt y
      roundFin f mode false r (e / 2 - k) (r * r != y)

/-- FRSQ (R217). -/
def fRsq (f : Fmt) (mode : Rnd) (x : Nat) : Nat × Nat :=
  match fDecode f x with
  | .nan s => nanRes f (if s then flagNV else 0)
  | .inf n => if n then nanRes f flagNV else (0, 0)
  | .fin n m e =>
    if m = 0 then (fmtSigned f n (fmtInf f), flagDZ)
    else if n then nanRes f flagNV
    else
      let (m, e) := if e % 2 = 0 then (m, e) else (2 * m, e - 1)
      let k := f.fbits + 4 + bitLen m
      let r := isqrt (2 ^ (2 * k) / m)
      roundFin f mode false r (-(e / 2) - k) (r * r * m != 2 ^ (2 * k))

/-! ## 2^x and log2 x, correctly rounded (R217) -/

/-- Bounds of 2^f for f = num / 2^bits, as multiples of 2^-p: the product of the roots 2^(2^-i) over the set bits of f, from the
highest. `lo` and `hi` bound the current root, `aLo` and `aHi` the product. -/
def exp2Bits (p num : Nat) : Nat → Nat → Nat → Nat → Nat → Nat × Nat
  | 0, _, _, aLo, aHi => (aLo, aHi)
  | k + 1, lo, hi, aLo, aHi =>
    let lo' := isqrt (lo * 2 ^ p)
    let hi' := isqrt (hi * 2 ^ p) + 1
    if num.testBit k then exp2Bits p num k lo' hi' (aLo * lo' / 2 ^ p) (aHi * hi' / 2 ^ p + 1)
    else exp2Bits p num k lo' hi' aLo aHi

/-- 2^f for 0 < f < 1 to t bits after the point: the true value lies strictly between the result and the result plus one unit.
Each round of fuel doubles the working precision. -/
def exp2Frac (t num bits : Nat) : Nat → Nat → Nat
  | 0, p => (exp2Bits p num bits (2 * 2 ^ p) (2 * 2 ^ p) (2 ^ p) (2 ^ p)).1 / 2 ^ (p - t)
  | fuel + 1, p =>
    let (lo, hi) := exp2Bits p num bits (2 * 2 ^ p) (2 * 2 ^ p) (2 ^ p) (2 ^ p)
    if lo / 2 ^ (p - t) = hi / 2 ^ (p - t) then lo / 2 ^ (p - t) else exp2Frac t num bits fuel (2 * p)

/-- FEX2 (R217). -/
def fEx2 (f : Fmt) (mode : Rnd) (x : Nat) : Nat × Nat :=
  match fDecode f x with
  | .nan s => nanRes f (if s then flagNV else 0)
  | .inf n => if n then (0, 0) else (fmtInf f, 0)
  | .fin neg m e =>
    if m = 0 then (fOne f, 0)
    else
      let top : Int := e + (bitLen m : Int) - 1
      if top < -70 then
        -- |x| < 2^-69, so 2^x differs from 1 by less than 2^-69
        if neg then roundFin f mode false (2 ^ 64 - 1) (-64) true else roundFin f mode false (2 ^ 64) (-64) true
      else if 14 < top then
        if neg then roundFin f mode false (2 ^ 64) (-(2 ^ 14 : Nat) - 64) true
        else roundFin f mode false (2 ^ 64) ((2 ^ 14 : Nat) - 64) true
      else if 0 ≤ e then
        let n := signedOf neg (m * 2 ^ e.toNat)
        roundFin f mode false 1 n false
      else
        let bits := (-e).toNat
        let y := signedOf neg m
        let n := y / ((2 ^ bits : Nat) : Int)
        let num := (y % ((2 ^ bits : Nat) : Int)).toNat
        if num = 0 then roundFin f mode false 1 n false
        else
          let t := f.fbits + 8
          roundFin f mode false (exp2Frac t num bits 4 (t + 80)) (n - t) true

/-- The binary digits of log2 y for 1 ≤ y < 2, by squaring: y lies between lo and hi, multiples of 2^-p. None where the bounds do
not decide a digit. -/
def log2Digits (p : Nat) : Nat → Nat → Nat → Nat → Option Nat
  | 0, _, _, acc => some acc
  | k + 1, lo, hi, acc =>
    let lo' := lo * lo / 2 ^ p
    let hi' := hi * hi / 2 ^ p + 1
    if 2 * 2 ^ p ≤ lo' then log2Digits p k (lo' / 2) (hi' / 2 + 1) (2 * acc + 1)
    else if hi' < 2 * 2 ^ p then log2Digits p k lo' hi' (2 * acc)
    else none

/-- ⌊2^t × log2 y⌋ for y = m / 2^k, 1 < y < 2. -/
def log2Floor (t m k : Nat) : Nat → Nat → Nat
  | 0, _ => 0
  | fuel + 1, p =>
    match log2Digits p t (m * 2 ^ p / 2 ^ k) (m * 2 ^ p / 2 ^ k + 1) 0 with
    | some n => n
    | none => log2Floor t m k fuel (2 * p)

/-- FLG2 (R217). -/
def fLg2 (f : Fmt) (mode : Rnd) (x : Nat) : Nat × Nat :=
  match fDecode f x with
  | .nan s => nanRes f (if s then flagNV else 0)
  | .inf n => if n then nanRes f flagNV else (fmtInf f, 0)
  | .fin neg m e =>
    if m = 0 then (fmtSigned f true (fmtInf f), flagDZ)
    else if neg then nanRes f flagNV
    else
      let k := bitLen m - 1
      let n : Int := e + k
      if m = 2 ^ k then
        if n = 0 then (0, 0) else roundFin f mode (n < 0) n.natAbs 0 false
      else
        let t := 2 * f.fbits + 24
        let v := n * (2 ^ t : Nat) + log2Floor t m k 5 (3 * t)
        if 0 ≤ v then roundFin f mode false v.toNat (-t) true
        else roundFin f mode true (-v - 1).toNat (-t) true

/-! ## Other float operations -/

/-- Whether a < b, for values that are no NaN. -/
def fLt (a b : FVal) : Bool :=
  match a, b with
  | .nan _, _ => false
  | _, .nan _ => false
  | .inf n, .inf k => n && !k
  | .inf n, .fin _ _ _ => n
  | .fin _ _ _, .inf k => !k
  | .fin n1 m1 e1, .fin n2 m2 e2 =>
    let e := min e1 e2
    decide (signedOf n1 m1 * (2 ^ (e1 - e).toNat : Nat) < signedOf n2 m2 * (2 ^ (e2 - e).toNat : Nat))

/-- Whether a = b, neither a NaN; −0 equals +0. -/
def fEq (a b : FVal) : Bool := !isNan a && !isNan b && !fLt a b && !fLt b a

/-- FMIN or FMAX (R202, R303): one operand unchanged, −0 below +0. -/
def fMinMax (f : Fmt) (isMax : Bool) (x y : Nat) : Nat × Nat :=
  let a := fDecode f x
  let b := fDecode f y
  let fl := snanFlag [a, b]
  if isNan a && isNan b then nanRes f fl
  else if isNan a then (y, fl)
  else if isNan b then (x, fl)
  else
    let less := fLt a b || (fEq a b && fNeg a && !fNeg b)
    (if less != isMax then x else y, fl)

/-- SatF (R205): clamped to [+0, 1], with SAT where the value changes. -/
def satF (f : Fmt) (x : Nat) : Nat × Nat :=
  match fDecode f x with
  | .nan _ => (0, flagSAT)
  | .inf n => (if n then 0 else fOne f, flagSAT)
  | .fin n m e =>
    if m = 0 then (0, 0)
    else if n then (0, flagSAT)
    else if fLt (fDecode f (fOne f)) (.fin n m e) then (fOne f, flagSAT)
    else (x, 0)

/-- A result with SatF after it when sat is set. -/
def withSat (f : Fmt) (sat : Bool) (r : Nat × Nat) : Nat × Nat :=
  if sat then ((satF f r.1).1, r.2 ||| (satF f r.1).2) else r

/-- The conditions of FSET (R305) and the NV it raises. -/
def fSetCond (f : Fmt) (cond x y : Nat) : Bool × Nat :=
  let a := fDecode f x
  let b := fDecode f y
  let un := isNan a || isNan b
  let nv := if 2 ≤ cond ∧ cond ≤ 5 then (if un then flagNV else 0) else snanFlag [a, b]
  (match cond with
   | 0 => fEq a b
   | 1 => !fEq a b
   | 2 => fLt a b
   | 3 => fLt a b || fEq a b
   | 4 => fLt b a
   | 5 => fLt b a || fEq a b
   | 6 => un
   | _ => !un, nv)

/-- The class bit of R306. -/
def fClassBit (f : Fmt) (x : Nat) : Nat :=
  match fDecode f x with
  | .nan s => if s then 0 else 1
  | .inf n => if n then 2 else 9
  | .fin n m _ =>
    if m = 0 then (if n then 5 else 6)
    else if m < 2 ^ f.fbits then (if n then 4 else 7)
    else (if n then 3 else 8)

/-- FRND (R307). -/
def fRnd (f : Fmt) (mode : Rnd) (exact : Bool) (x : Nat) : Nat × Nat :=
  match fDecode f x with
  | .nan s => nanRes f (if s then flagNV else 0)
  | .inf _ => (x, 0)
  | .fin n m e =>
    if m = 0 ∨ 0 ≤ e then (x, 0)
    else
      let (k, inexact) := roundAt mode n m e false 0
      let (r, _) := if k = 0 then (fmtSigned f n 0, 0) else roundFin f .rne n k 0 false
      (r, if exact && inexact then flagNX else 0)

/-- FSCALE (R308). -/
def fScale (f : Fmt) (mode : Rnd) (x : Nat) (n : Int) : Nat × Nat :=
  match fDecode f x with
  | .nan s => nanRes f (if s then flagNV else 0)
  | .inf _ => (x, 0)
  | .fin neg m e => if m = 0 then (x, 0) else roundFin f mode neg m (e + n) false

/-- CvtInt (R206): the integer's bits in w bits and the flags. -/
def cvtInt (w : Nat) (signed : Bool) (mode : Rnd) (v : FVal) : Nat × Nat :=
  let lo : Int := if signed then -((2 ^ (w - 1) : Nat) : Int) else 0
  let hi : Int := if signed then ((2 ^ (w - 1) : Nat) : Int) - 1 else ((2 ^ w : Nat) : Int) - 1
  match v with
  | .nan _ => (0, flagNV)
  | .inf n => (unsig w (if n then lo else hi), flagNV + flagSAT)
  | .fin n m e =>
    let x := signedOf n (roundAt mode n m e false 0).1
    if x < lo then (unsig w lo, flagNV + flagSAT)
    else if hi < x then (unsig w hi, flagNV + flagSAT)
    else (unsig w x, 0)

/-- An integer as an exact value. -/
def valOfInt (x : Int) : FVal := .fin (x < 0) x.natAbs 0

/-! ## TF8 (R207 to R211) -/

/-- The leading zeros z, the fraction bits f of R207's table, by z. -/
def tf8F (z : Nat) : Nat := if z ≤ 3 then 4 - z else 0

/-- The exponent of row z and selector x (R207). -/
def tf8Exp (z x : Nat) : Int :=
  match z with
  | 5 => if x = 0 then -11 else 10
  | 6 => -12
  | _ => if x < 2 then -2 - 2 * (z : Int) + x else 2 * (z : Int) + x - 2

/-- TF8Value (R207). -/
def tf8Value (c : Nat) : FVal :=
  let neg := c / 128 % 2 == 1
  let g := c % 128
  if g = 0 then (if neg then .nan false else .fin false 0 0)
  else
    let z := 7 - bitLen g
    let f := tf8F z
    let rest := g - 2 ^ (6 - z)
    .fin neg (2 ^ f + rest % 2 ^ f) (tf8Exp z (rest / 2 ^ f) - f)

/-- The row z of an exponent −12 … 10 (R207). -/
def tf8Row (e : Int) : Nat :=
  if e = -12 then 6
  else if e = -11 ∨ e = 10 then 5
  else if 0 ≤ e then e.toNat / 2
  else (-e - 1).toNat / 2

/-- The body g of the magnitude 2^e × (1 + fr / 2^f) (R207). -/
def tf8Body (e : Int) (fr : Nat) : Nat :=
  let z := tf8Row e
  let f := tf8F z
  let x := if z = 6 then 0 else if z = 5 then (if e = 10 then 1 else 0)
    else if 0 ≤ e then (e - 2 * (z : Int) + 2).toNat else (e + 2 + 2 * (z : Int)).toNat
  2 ^ (6 - z) + x * 2 ^ f + fr

/-- RoundTF8 (R209) of ±m × 2^e with the 24-bit draw w. -/
def tf8Round (v : FVal) (w : Nat) : Nat × Nat :=
  match v with
  | .nan s => (0x80, flagNAR + (if s then flagNV else 0))
  | .inf _ => (0x80, flagNAR)
  | .fin neg m e =>
    let sign := if neg then 128 else 0
    if m = 0 then (0, 0)
    else
      let top : Int := e + (bitLen m : Int) - 1
      if 10 < top ∨ (top = 10 ∧ m ≠ 2 ^ (bitLen m - 1)) then (sign + 0x03, flagSAT + flagNX)
      else if top < -12 then
        let k := shl2 m (e + 36)
        if w < k then (sign + 0x01, flagSU + flagNX) else (0, flagSU + flagNX)
      else
        let f := tf8F (tf8Row top)
        let q := top - f
        if q ≤ e then (sign + tf8Body top (m * 2 ^ (e - q).toNat - 2 ^ f), 0)
        else
          let d := (q - e).toNat
          let n := m / 2 ^ d
          let rem := m % 2 ^ d
          let lo := tf8Body top (n - 2 ^ f)
          let hi := if n + 1 = 2 ^ (f + 1) then tf8Body (top + 1) 0 else tf8Body top (n + 1 - 2 ^ f)
          let up := 2 ^ (d - 1) < rem || (rem == 2 ^ (d - 1) && hi % 2 == 0 && lo % 2 == 1)
          if rem = 0 then (sign + lo, 0) else (sign + (if up then hi else lo), flagNX)

/-- A value times 2^k. -/
def scaleVal (v : FVal) (k : Int) : FVal :=
  match v with
  | .fin n m e => .fin n m (e + k)
  | v => v

/-- Requant (R206). -/
def tf8Requant (c : Nat) (d : Int) (w : Nat) : Nat × Nat :=
  if c % 256 = 0x80 then (0x80, 0) else tf8Round (scaleVal (tf8Value c) (-d)) w

/-! ## The generator (R213 to R216) -/

def rotl32 (x : Word) (k : Nat) : Word := x.rotateLeft k

/-- A round of R215. -/
def genRound (x0 x1 x2 x3 : Word) (k : Nat) : Word × Word × Word × Word :=
  let x0 := x0 + x1 + BitVec.ofNat 32 ((k + 1) * 0x9E3779B9)
  let x3 := rotl32 (x3 ^^^ x0) 16
  let x2 := x2 + x3
  let x1 := rotl32 (x1 ^^^ x2) 12
  let x0 := x0 + x1
  let x3 := rotl32 (x3 ^^^ x0) 8
  let x2 := x2 + x3
  let x1 := rotl32 (x1 ^^^ x2) 7
  (x0, x1, x2, x3)

/-- Gen(key, ctr) (R215): y0 to y3. -/
def genWords (key ctr : Nat) : List Word :=
  let i0 := BitVec.ofNat 32 ctr
  let i1 := BitVec.ofNat 32 (ctr / 2 ^ 32)
  let i2 := BitVec.ofNat 32 key
  let i3 := BitVec.ofNat 32 (key / 2 ^ 32)
  let (x0, x1, x2, x3) :=
    (List.range 6).foldl (fun st k => genRound st.1 st.2.1 st.2.2.1 st.2.2.2 k) (i0, i1, i2, i3)
  [x0 + i0, x1 + i1, x2 + i2, x3 + i3]

/-- Word k of a draw. -/
def genWord (ys : List Word) (k : Nat) : Nat := (ys.getD k 0).toNat

/-! ## Constants of operand codes (R233, R234, R229) -/

/-- The pattern of an exact small value ±m × 2^e in a float format. -/
def fConst (f : Fmt) (neg : Bool) (m : Nat) (e : Int) : Nat := (roundFin f .rne neg m e false).1

/-- The element of the constant codes 208–239 (R233). -/
def constK (t : Ty) (n : Nat) : Nat :=
  if tyFloat t then (if n = 0 then 0 else fConst (fmtOf t) false n 0) else n

/-- The element of the constant codes 240–247 (R234). -/
def constC (t : Ty) (n : Nat) : Nat :=
  if tyFloat t then
    let f := fmtOf t
    match n with
    | 0 => fConst f false 1 (-1)
    | 1 => fConst f false 1 (-2)
    | 2 => fConst f true 1 0
    | 3 => fConst f true 2 0
    | 4 => fConst f true 1 (-1)
    | 5 => fmtInf f
    | 6 => fmtSigned f true (fmtInf f)
    | _ => fmtNaN f
  else
    let w := elemBits t
    match n with
    | 5 => 2 ^ (w - 1)
    | 6 => 2 ^ (w - 1) - 1
    | 7 => 2 ^ w - 1
    | n => unsig w (-((2 ^ n : Nat) : Int))

/-- A constant element in every element of the type. -/
def splat (t : Ty) (x : Nat) : Nat := joinElems (elemBits t) (List.replicate (elemCount t) x)

/-- The constants of R229: the integer column or the float column, by code 56 + n. -/
def constSrc6 (float : Bool) (n : Nat) : Nat :=
  if float then
    match n with
    | 0 => 0
    | 1 => fConst fmtF32 false 1 0
    | 2 => fConst fmtF32 true 1 0
    | 3 => fConst fmtF32 false 2 0
    | 4 => fConst fmtF32 false 1 (-1)
    | 5 => fConst fmtF32 false 4 0
    | 6 => fConst fmtF32 true 2 0
    | _ => fConst fmtF32 false 1 (-2)
  else
    match n with
    | 0 => 0
    | 1 => 1
    | 2 => 2 ^ 32 - 1
    | 3 => 2
    | 4 => 4
    | 5 => 8
    | 6 => 16
    | _ => 255

/-! ## Atomics (R325, R327) -/

/-- The new value of an atomic of width w bytes on old value m, operand a, compare value c. -/
def atomNew (op w m a c : Nat) : Nat :=
  let n := 8 * w
  match op with
  | 0 => (m + a) % 2 ^ n
  | 1 => m &&& a
  | 2 => m ||| a
  | 3 => m ^^^ a
  | 4 => if sval n m ≤ sval n a then m else a
  | 5 => if sval n m ≤ sval n a then a else m
  | 6 => min m a
  | 7 => max m a
  | 8 => a
  | 9 => if m = c then a else m
  | 10 => (fAdd fmtF32 .rne m a).1
  | 11 => (fAdd fmtF64 .rne m a).1
  | _ => m

end Sys2Proof.Machine
end

