-- ==== Sys2Proof/Machine/Mem.lean ====
section
/-! DEFINITION. The named operations over memory: sparse stores in canonical form, physical memory with its poison marks, the
stash lines that own global lines, the L2, and translation (spec/04_memory_hierarchy.md; spec/19_faults_memory_fabric.md R507, R513). -/

namespace Sys2Proof.Machine

/-! ## Sparse stores -/

/-- The value at a key; `d` where the key is not listed. -/
def spGet {α : Type} (d : α) : List (Nat × α) → Nat → α
  | [], _ => d
  | (k, v) :: l, i => if i = k then v else spGet d l i

/-- Canonical form: keys strictly rising from `lo`, no entry at the default. -/
def spWfFrom {α : Type} [DecidableEq α] (d : α) (lo : Nat) : List (Nat × α) → Bool
  | [] => true
  | (k, v) :: l => lo ≤ k && !(v == d) && spWfFrom d (k + 1) l

def spWf {α : Type} [DecidableEq α] (d : α) (l : List (Nat × α)) : Bool := spWfFrom d 0 l

/-- The entry at a key, for stores that list only the keys in use. -/
def spFind? {α : Type} : List (Nat × α) → Nat → Option α
  | [], _ => none
  | (k, v) :: l, i => if i = k then some v else spFind? l i

/-- The store with an entry at a key, whatever its value. -/
def spSet {α : Type} : List (Nat × α) → Nat → α → List (Nat × α)
  | [], i, v => [(i, v)]
  | (k, u) :: l, i, v =>
    if i < k then (i, v) :: (k, u) :: l
    else if i = k then (i, v) :: l
    else (k, u) :: spSet l i v

/-- The store without a key. -/
def spDel {α : Type} (l : List (Nat × α)) (i : Nat) : List (Nat × α) := l.filter fun e => e.1 != i

/-- The store with a value at a key; a key at the default is not listed. -/
def spPut {α : Type} [DecidableEq α] (d : α) (l : List (Nat × α)) (i : Nat) (v : α) : List (Nat × α) :=
  if v = d then spDel l i else spSet l i v

/-- A list in which the first element that a test selects is replaced. -/
def replaceFirst {α : Type} (p : α → Bool) (x : α) : List α → List α
  | [] => []
  | y :: l => if p y then x :: l else y :: replaceFirst p x l

/-- A sorted list of numbers with one more, or one fewer. -/
def insNat : List Nat → Nat → List Nat
  | [], n => [n]
  | m :: l, n => if n < m then n :: m :: l else if n = m then m :: l else m :: insNat l n

def delNat (l : List Nat) (n : Nat) : List Nat := l.filter (· != n)

/-! ## Bytes -/

/-- The bytes at addresses a … a + n − 1 of a byte store. -/
def readBytes (d : Byte) (m : Sparse Byte) (a : Nat) : Nat → List Byte
  | 0 => []
  | n + 1 => spGet d m a :: readBytes d m (a + 1) n

/-- The byte store with bytes written from address a on. -/
def writeBytes (d : Byte) (m : Sparse Byte) (a : Nat) : List Byte → Sparse Byte
  | [] => m
  | b :: bs => writeBytes d (spPut d m a b) (a + 1) bs

/-- The canonical form of memory (log 2: what an unlisted byte reads as). -/
def Memory.wf (m : List Host.Cell) : Bool := spWf Config.memDefault m

/-! ## Physical memory (R122, R507) -/

/-- The tier of a physical address. DESIGN CHOICE (log 70): what is attached sets the capacity of the expert tier and of host memory
(R23), and the model takes every address of both ranges as backed. -/
def tierOf (pa : Nat) : Option Tier :=
  if pa < 0x006000000000 then some .dram
  else if pa < 0x010000000000 then none
  else if pa < 0x022000000000 then some .lpddr
  else if pa ≤ 0x022000FFFFFF then some .registers
  else if pa < 0x4000000000000 then none
  else if pa < 0x8000000000000 then some .expert
  else if pa < 0x10000000000000 then some .host
  else none

/-- The home M-stack of a line (R122). -/
def stackOf (pa : Nat) : Nat :=
  match tierOf pa with
  | some .dram => pa / 0x001800000000
  | some .lpddr => (pa - 0x010000000000) / 0x004800000000
  | _ => (pa / 128 % 4) ^^^ (pa / 8192 % 4)

/-- The home L2 slice of a line on its M-stack (R123). -/
def homeSlice (pa : Nat) : Nat :=
  match tierOf pa with
  | some .expert => (pa / 512 % 64) ^^^ (pa / 32768 % 64)
  | some .host => (pa / 512 % 64) ^^^ (pa / 32768 % 64)
  | _ => (pa / 128 % 64) ^^^ (pa / 8192 % 64)

/-- The LPDDR-6 channel of its M-stack that holds a line (R123). -/
def lpddrChannel (pa : Nat) : Option Nat :=
  if tierOf pa = some .lpddr then some ((pa - 0x010000000000) % 0x004800000000 / 4096 % 9) else none

/-- One byte of physical memory, whatever stash owns it. -/
def rawByte (s : State) (pa : Nat) : Byte := spGet Config.memDefault s.mem pa

/-- The number of a 4 KiB unit in the bias table (R153). -/
def biasUnit (pa : Nat) : Option Nat :=
  match tierOf pa with
  | some .dram => some (pa / 4096)
  | some .lpddr => some (100663296 + (pa - 0x010000000000) / 4096)
  | _ => none

/-- Where the bias bit of a unit lies: a byte address and the bit of it. -/
def biasPlace (s : State) (unit : Nat) : Nat × Nat := (field s.hi.biastab.toNat 51 12 * 4096 + unit / 8, unit % 8)

/-- Whether an address is under host bias (R153). -/
def hostBias (s : State) (pa : Nat) : Bool :=
  s.hi.biastab.getLsbD 0 &&
  match biasUnit pa with
  | some u => (rawByte s (biasPlace s u).1).getLsbD (biasPlace s u).2
  | none => false

/-- With the host link down, host memory and host-bias lines cannot be reached: they read as poisoned, and writes to them are
dropped (R556). -/
def cutOff (s : State) (pa : Nat) : Bool :=
  s.hi.mbhost.getLsbD 32 && (tierOf pa == some .host || hostBias s pa)

/-- The poison marks after a write of n bytes at a: a sector wholly covered is clear (R507). -/
def clearPoison (p : List Nat) (a n : Nat) : List Nat :=
  p.filter fun sec => !(a ≤ 32 * sec && 32 * sec + 32 ≤ a + n)

/-! ## The L2 (R142; log 7)

`State.mem` holds the value that every agent reads of a line at its home. A line of the L2 holds besides what memory itself still
holds behind its dirty sectors. -/

/-- The numbers of the lines that n bytes at an address touch. -/
def linesOf (pa n : Nat) : List Nat :=
  if n = 0 then [] else (List.range ((pa + n - 1) / 128 - pa / 128 + 1)).map fun i => pa / 128 + i

/-- The sectors of a line that n bytes at an address touch. -/
def sectorBits (pa n line : Nat) : BitVec 4 :=
  BitVec.ofNat 4 (((List.range 4).filter fun k => 128 * line + 32 * k < pa + n && pa < 128 * line + 32 * k + 32).foldl
    (fun m k => m ||| 2 ^ k) 0)

def countBits (n : Nat) (x : BitVec n) : Nat := ((List.range n).filter fun i => x.getLsbD i).length

/-- A line whose sectors are about to change: what memory holds of those that were clean is kept behind them. -/
def l2Dirtied (s : State) (line : Nat) (secs : BitVec 4) (l : L2Line) : L2Line :=
  let new := secs &&& ~~~ l.dirty
  { l with valid := l.valid ||| secs, dirty := l.dirty ||| secs,
           back := (List.range 128).foldl (fun b i =>
             if new.getLsbD (i / 32) then spPut Config.memDefault b i (rawByte s (128 * line + i)) else b) l.back,
           bad := (List.range 4).foldl (fun b k =>
             if new.getLsbD k && s.poison.contains (4 * line + k) then b ||| BitVec.ofNat 4 (2 ^ k) else b) l.bad }

/-- The L2 before a write of n bytes: the lines that it holds of them become dirty. -/
def l2Before (s : State) (pa n : Nat) : Sparse L2Line :=
  (linesOf pa n).foldl (fun l2 k => match spFind? l2 k with
    | some l => spSet l2 k (l2Dirtied s k (sectorBits pa n k) l)
    | none => l2) s.l2

/-- The lines that a test selects are written back and leave the L2. -/
def l2Drop (s : State) (p : Nat → L2Line → Bool) : State := { s with l2 := s.l2.filter fun e => !p e.1 e.2 }

/-- The lines of n bytes at an address leave the L2, written back. -/
def l2DropRange (s : State) (pa n : Nat) : State := l2Drop s fun k _ => (linesOf pa n).contains k

/-- A write to physical memory itself. -/
def rawWrite (s : State) (pa : Nat) (bs : List Byte) : State :=
  { s with mem := writeBytes Config.memDefault s.mem pa bs, poison := clearPoison s.poison pa bs.length,
           l2 := l2Before s pa bs.length }

def poisonSector (s : State) (pa : Nat) : State := { s with poison := insNat s.poison (pa / 32) }

/-! ## Blocks by number -/

def getBlock (s : State) (n : Nat) : Option Block := s.blocks.find? fun b => b.bid == n

def setBlock (s : State) (b : Block) : State :=
  { s with blocks := replaceFirst (fun c => c.bid == b.bid) b s.blocks }

/-! ## Stash lines (R129 to R135) -/

def stashByte (b : Block) (o : Nat) : Byte := spGet 0 b.stash o

/-- The region that covers a stash offset. -/
def regionAt (b : Block) (o : Nat) : Option StashRegion :=
  b.regions.find? fun r => r.off ≤ o && o < r.off + 128 * r.lines

def lineAt (b : Block) (line : Nat) : Option StashLine := b.lines.find? fun l => l.line == line

def setLine (b : Block) (l : StashLine) : Block :=
  { b with lines := l :: b.lines.filter fun m => m.line != l.line }

def dropLine (b : Block) (line : Nat) : Block :=
  { b with lines := b.lines.filter fun m => m.line != line }

/-- A write to stash bytes: the words it covers whole lose their marks (R507). -/
def stashPut (b : Block) (o : Nat) (bs : List Byte) : Block :=
  { b with stash := writeBytes 0 b.stash o bs,
           stashPoison := b.stashPoison.filter fun w => !(o ≤ 4 * w && 4 * w + 4 ≤ o + bs.length) }

/-- Whether a poisoned word lies in stash bytes o … o + n − 1. -/
def stashPoisoned (b : Block) (o n : Nat) : Bool :=
  b.stashPoison.any fun w => o < 4 * w + 4 && 4 * w < o + n

/-- The stash line that owns a physical line (R132). -/
def ownerOf (s : State) (pa : Nat) : Option (Block × StashLine) :=
  s.blocks.findSome? fun b => (b.lines.find? fun l => l.pa == pa / 128 * 128).map fun l => (b, l)

/-! ## Coherent accesses (R123, R133) -/

/-- One byte as every agent reads it: from the owning stash if it holds the byte, else from memory. -/
def gByte (s : State) (pa : Nat) : Byte :=
  match ownerOf s pa with
  | some (b, l) => if l.written.getLsbD (pa % 128) then stashByte b (128 * l.line + pa % 128) else rawByte s pa
  | none => rawByte s pa

def gRead (s : State) (pa : Nat) : Nat → List Byte
  | 0 => []
  | n + 1 => gByte s pa :: gRead s (pa + 1) n

def gReadNat (s : State) (pa n : Nat) : Nat := ofLeBytes (gRead s pa n)

/-- Whether a byte of the access is poisoned, where it is read (R507, R508). -/
def gPoisoned (s : State) (pa n : Nat) : Bool :=
  cutOff s pa || (List.range n).any fun i =>
    match ownerOf s (pa + i) with
    | some (b, l) =>
      if l.written.getLsbD ((pa + i) % 128) then b.stashPoison.contains ((128 * l.line + (pa + i) % 128) / 4)
      else s.poison.contains ((pa + i) / 32)
    | none => s.poison.contains ((pa + i) / 32)

/-! ## Translation (R146 to R152) -/

/-- The context table entry of a ctxid (R450): the root table and the context's top RCB. -/
def ctxEntry (s : State) (ctx : Nat) : Option (Nat × Nat) :=
  if s.hi.ctxtab.getLsbD 0 then
    let e := gReadNat s (field s.hi.ctxtab.toNat 51 12 * 4096 + 16 * ctx) 16
    if e % 2 = 1 ∧ field e 11 1 = 0 ∧ field e 63 52 = 0 ∧ field e 127 108 = 0 then
      some (field e 51 12 * 4096, field e 107 64 * 256)
    else none
  else none

/-- A table pointer names neither a reserved range nor the device registers (R149). -/
def tablePaOk (pa : Nat) : Bool :=
  match tierOf pa with
  | none => false
  | some .registers => false
  | _ => true

/-- A leaf's page, if the entry obeys R147 and R148 at its level. -/
def leafPage (level va e : Nat) : Except Nat Page :=
  let k := 12 + field e 9 6
  let pa := field e 51 12 * 4096
  if field e 63 52 ≠ 0 ∨ field e 11 10 = 3 then .error 2
  else if ¬ ((level = 0 ∧ k ≤ 20) ∨ (level = 1 ∧ 21 ≤ k)) then .error 2
  else if pa % 2 ^ k ≠ 0 then .error 2
  else .ok { va := va / 2 ^ k * 2 ^ k, k, pa, w := e.testBit 2, x := e.testBit 3, sup := e.testBit 4,
             gw := e.testBit 5, cache := field e 11 10 }

/-- The walk from a table of a level (R146, R149): its page, or the cause. DESIGN CHOICE (log 75): of replicas that differ it uses the one
that the accessed address indexes (R148), and it ignores the w, x, sup and gw bits of a non-leaf entry (R147). -/
def walkFrom (s : State) (va : Nat) : Nat → Nat → Except Nat Page
  | level, table =>
    if !tablePaOk table then .error 2
    else
      let e := gReadNat s (table + 8 * (va / 2 ^ (12 + 9 * level) % 512)) 8
      if e % 2 = 0 then .error 1
      else if e.testBit 1 then leafPage level va e
      else
        match level with
        | 0 => .error 2
        | n + 1 =>
          if field e 63 52 ≠ 0 ∨ field e 9 6 ≠ 0 ∨ field e 11 10 = 3 then .error 2
          else walkFrom s va n (field e 51 12 * 4096)

/-- A page walk in a context. A context without a valid entry maps nothing. -/
def walk (s : State) (ctx va : Nat) : Except Nat Page :=
  match ctxEntry s ctx with
  | none => .error 1
  | some (root, _) => walkFrom s va 4 root

/-- The page of a TLB entry (R150). -/
def tlbPage (e : TlbEntry) : Page :=
  let n := e.leaf.toNat
  { va := e.va, k := e.k, pa := field n 51 12 * 4096, w := n.testBit 2, x := n.testBit 3, sup := n.testBit 4,
    gw := n.testBit 5, cache := field n 11 10 }

/-- The core whose fragment issues. -/
def issuingCore (s : State) : Option Nat := s.cur.bind fun r => (getBlock s r.blk).map fun b => b.core

/-- The leaf region whose fragment issues. -/
def issuingRegion (s : State) : Nat :=
  match s.cur.bind fun r => getBlock s r.blk with
  | some b => (s.launches.find? fun l => l.lid == b.launch).elim 0 fun l => l.region
  | none => 0

/-- Whether a TLB entry holds the page of an address. -/
def covers (ctx va : Nat) (e : TlbEntry) : Bool := e.ctx == ctx && e.va ≤ va && va < e.va + 2 ^ e.k

/-- What the TLBs hold for an address: the L1 TLB of the issuing core, then the L2 TLB of its C-die (R150); a unit that is no core
finds it in any of them (log 65). -/
def tlbFind (s : State) (ctx va : Nat) : Option TlbEntry :=
  match issuingCore s with
  | some c =>
    (match s.tlb.find? fun e => e.place == .core c && covers ctx va e with
     | some e => some e
     | none => s.tlb.find? fun e => e.place == .die (c / 48) && covers ctx va e)
  | none => s.tlb.find? (covers ctx va)

/-- The translation of an address: what a TLB holds for it, else a walk (R150, R152). -/
def pageOf (s : State) (ctx va : Nat) : Except Nat Page :=
  match tlbFind s ctx va with
  | some e => .ok (tlbPage e)
  | none => walk s ctx va

/-! ## Misses and walkers (R150) -/

/-- The page walkers of a C-die (R19). -/
def walkersOf (s : State) (d : Nat) : List Walk := s.walks.filter fun w => w.die == d

/-- A translation that a core asks for and its L1 TLB does not hold: the L2 TLB of its C-die gives it, or a walk is asked for, which
the walks for the same granule take in. -/
def noteMiss (ctx : Nat) (s : State) (va : Nat) : State :=
  match issuingCore s with
  | none => s
  | some c =>
    if s.tlb.any fun e => e.place == .core c && covers ctx va e then s
    else
      match s.tlb.find? fun e => e.place == .die (c / 48) && covers ctx va e with
      | some e => { s with tlb := { e with place := .core c } :: s.tlb }
      | none =>
        let same := fun (w : Walk) => w.die == c / 48 && w.ctx == ctx && w.granule == va / 4096
        if s.walks.any same then
          { s with walks := s.walks.map fun w => if same w then { w with cores := insNat w.cores c } else w }
        else if (walkersOf s (c / 48)).length < 64 then
          { s with walks := s.walks ++ [{ die := c / 48, ctx, rcb := issuingRegion s, granule := va / 4096, cores := [c] }] }
        else s

/-- The permission of an access through a page (R147, R449). -/
def pageAllows (p : Page) (sup : Bool) (need : Need) (pa : Nat) : Bool :=
  (match need with
   | .read => sup || !p.sup
   | .write => p.w && (sup || !p.sup)
   | .exec => p.x && (sup || !p.sup)
   | .gridRead => !p.sup
   | .gridWrite => p.w && p.gw && !p.sup) &&
  (match tierOf pa with
   | none => false
   | some .registers => sup && p.sup && p.cache == 2 && need != .exec && need != .gridRead && need != .gridWrite
   | _ => true)

/-- A virtual address to a physical one, or the cause (R119, R149). -/
def xlate (s : State) (ctx : Nat) (sup : Bool) (need : Need) (va : Nat) : Except Nat Nat :=
  if 2 ^ 57 ≤ va then .error 2
  else
    match pageOf s ctx va with
    | .error c => .error c
    | .ok p =>
      let pa := p.pa + (va - p.va)
      if pageAllows p sup need pa then .ok pa else .error 2

/-- The failure that an instruction reports of several, by cause and address: 0x02 before 0x01 (R320, R552), the first of its kind. -/
def reported (l : List (Nat × Nat)) : Option (Nat × Nat) :=
  match l.find? fun x => x.1 == 2 with
  | some x => some x
  | none => l.head?

def failures {α β : Type} (l : List (α × Except Nat β)) : List (Nat × α) :=
  l.filterMap fun x => match x.2 with
    | .error c => some (c, x.1)
    | .ok _ => none

def successes {α β : Type} (l : List (α × Except Nat β)) : List (α × β) :=
  l.filterMap fun x => match x.2 with
    | .error _ => none
    | .ok y => some (x.1, y)

/-- The 4 KiB units that n bytes at va touch, each translated, or the failure that is reported: its cause and the lowest byte of the
range in its unit. -/
def xlateRange (s : State) (ctx : Nat) (sup : Bool) (need : Need) (va n : Nat) : Except (Nat × Nat) (List (Nat × Nat)) :=
  if n = 0 then .ok []
  else
    let units := (List.range ((va + n - 1) / 4096 - va / 4096 + 1)).map fun i => (va / 4096 + i) * 4096
    let xs := units.map fun u => (u, xlate s ctx sup need u)
    match reported (failures xs) with
    | some (c, u) => .error (c, max va u)
    | none => .ok (successes xs)

/-- The physical address of a byte of a translated range. -/
def pagesPa (pages : List (Nat × Nat)) (va : Nat) : Nat :=
  match pages.find? fun p => p.1 == va / 4096 * 4096 with
  | some p => p.2 + va % 4096
  | none => 0

/-- Bytes through a translated range. -/
def pagesRead (s : State) (pages : List (Nat × Nat)) (va : Nat) : Nat → List Byte
  | 0 => []
  | n + 1 => gByte s (pagesPa pages va) :: pagesRead s pages (va + 1) n

/-- Whether a byte of a translated range is poisoned: the first such address. -/
def pagesPoison (s : State) (pages : List (Nat × Nat)) (va n : Nat) : Option Nat :=
  (List.range n).findSome? fun i => if gPoisoned s (pagesPa pages (va + i)) 1 then some (va + i) else none

end Sys2Proof.Machine
end

