-- ==== Sys2Proof/Machine/Charge.lean ====
section
/-! DEFINITION. What an access costs: the units and their counters (R473, R474, R548), budgets (R103 to R105), and the bytes that the
L2 moves for it (R103, R142). -/

namespace Sys2Proof.Machine

/-! ## Control blocks, as far as a charge reads them (R72, R84) -/

/-- Its first 16 bytes: the parent, the marks, the overrides and the small fields. -/
def rcbHead (s : State) (rcb : Nat) : Nat := gReadNat s rcb 16

def rcbParent (n : Nat) : Nat := field n 43 0 * 256
/-- The allowance of an activity. -/
def rcbAllow (s : State) (rcb a : Nat) : Nat := gReadNat s (rcb + 16 + 8 * a) 8
/-- The chain of an RCB by its parents, whatever its validity. -/
def chainOf (s : State) : Nat → Nat → List Nat
  | 0, _ => []
  | fuel + 1, rcb =>
    let p := rcbParent (rcbHead s rcb)
    rcb :: (if p = 0 then [] else chainOf s fuel p)

/-! ## Units and shadows -/

/-- The unit and the activity that an access at a physical address is charged to (R103). -/
def memUnit (pa : Nat) : Nat × Nat :=
  match tierOf pa with
  | some .dram => (256 + stackOf pa, 2)
  | some .lpddr => (256 + stackOf pa, 3)
  | some .expert => (513 + pa / 2 ^ 48 % 4, 4)
  | _ => (512, 4)

/-- The counter that an activity's bytes go to (R473). -/
def actCounter (a : Nat) : Nat := if a = 2 then 4 else if a = 3 then 5 else 6

/-- A list of shadows with an amount added to one (R474). -/
def addShadow (l : List Shadow) (unit rcb idx amount : Nat) : List Shadow :=
  if amount = 0 then l
  else if l.any fun h => h.unit == unit && h.rcb == rcb && h.idx == idx then
    l.map fun h => if h.unit = unit ∧ h.rcb = rcb ∧ h.idx = idx then { h with amount := h.amount + amount } else h
  else l ++ [({ unit, rcb, idx, amount } : Shadow)]

/-- Adds to a shadow (R474). -/
def count (s : State) (unit rcb idx amount : Nat) : State := { s with shadows := addShadow s.shadows unit rcb idx amount }

/-! ## Budgets (R103 to R105) -/

/-- The effective allowance of the region at the head of a chain (R72). -/
def allowOf (s : State) (chain : List Nat) (act : Nat) : Nat :=
  chain.foldl (fun a r => if (rcbHead s r).testBit 65 then min a (rcbAllow s r act) else a) (2 ^ 64 - 1)

def findUse (s : State) (unit act rcb : Nat) : Option BudgetUse :=
  s.budget.find? fun u => u.unit == unit && u.act == act && u.rcb == rcb

/-- The uses of the regions with an amount added to that of the region at the head of a chain, at a unit. -/
def addUse (s : State) (unit act amount : Nat) (l : List BudgetUse) (chain : List Nat) : List BudgetUse :=
  let rcb := chain.headD 0
  if l.any fun u => u.unit == unit && u.act == act && u.rcb == rcb then
    l.map fun u => if u.unit = unit ∧ u.act = act ∧ u.rcb = rcb then { u with used := u.used + amount } else u
  else l ++ [({ unit, act, rcb, used := amount, allow := allowOf s chain act } : BudgetUse)]

/-- A chain and its tails: the region and each of its ancestors, with what lies above it. -/
def tails : List Nat → List (List Nat)
  | [] => []
  | r :: rs => (r :: rs) :: tails rs

/-- The physical core, numbered as its island (R25), that presents a logical core (R31, R32). -/
def physCore (s : State) (n : Nat) : Nat := 52 * s.remap.dies.getD (n / 48) 0 + (s.remap.cores.getD (n / 48) []).getD (n % 48) 0

/-- The islands that supply a unit (R25): the core's own, which follows the remap (R35), the M-stack's four, the X-die's sixteen. -/
def unitIslands (s : State) (unit : Nat) : List Nat :=
  if unit < 192 then [physCore s unit]
  else if 256 ≤ unit ∧ unit < 260 then (List.range 4).map fun i => 224 + 4 * (unit - 256) + i
  else (List.range 16).map (240 + ·)

/-- Activity of the current interval of an island's meter (R475). -/
def noteActivity (rcb amount : Nat) (l : List Shadow) (island : Nat) : List Shadow :=
  if l.any fun h => h.unit == island && h.rcb == rcb then
    l.map fun h => if h.unit = island ∧ h.rcb = rcb then { h with amount := h.amount + amount } else h
  else l ++ [{ unit := island, rcb, idx := 11, amount }]

/-- Charges a leaf region and every ancestor (R73). -/
def charge (s : State) (unit act rcb amount : Nat) : State :=
  { s with activity := if amount = 0 then s.activity else (unitIslands s unit).foldl (noteActivity rcb amount) s.activity,
           budget := if amount = 0 then s.budget else (tails (chainOf s 8 rcb)).foldl (addUse s unit act amount) s.budget }

/-- Whether a region is held at a unit: it, or an ancestor, has used its allowance (R73, R104). An allowance of all ones is
unlimited (R85). -/
def heldAt (s : State) (unit act rcb : Nat) : Bool :=
  let chain := chainOf s 8 rcb
  s.sys.budgetcfg.getLsbD 0 && (List.range chain.length).any fun i =>
    let c := chain.drop i
    let (used, allow) := match findUse s unit act (c.headD 0) with
      | some u => (u.used, u.allow)
      | none => (0, allowOf s c act)
    allow != 2 ^ 64 - 1 && allow ≤ used

/-- A free choice among n alternatives (R5; log 6): the alternative, and the counter that it uses up. -/
def choose (s : State) (n : Nat) : Nat × State := (Config.choice s.free % n, { s with free := s.free + 1 })

/-! ## Accesses (R103, R142, R143; log 7) -/

/-- An access to sectors of a line of the L2, with the free values used and the bytes moved so far. A line that is not held is
filled, unless the way for it is gated. One that is held may have been written back and replaced meanwhile. -/
def l2Access (s : State) (pa n : Nat) (t : Sparse L2Line × Nat × Nat) (line : Nat) : Sparse L2Line × Nat × Nat :=
  let secs := sectorBits pa n line
  match spFind? t.1 line with
  | none =>
    let way := Config.l2Way t.2.1
    (if s.gated.contains (stackOf pa, way) then t.1 else spSet t.1 line { valid := secs, way, filled := s.tick },
     t.2.1 + 1, t.2.2 + 32 * countBits 4 secs)
  | some l =>
    let gone := Config.choice t.2.1 % 2 == 1
    let kept := if gone then { l with valid := 0, dirty := 0, back := [], bad := 0 } else l
    (spSet t.1 line { kept with valid := kept.valid ||| secs }, t.2.1 + 1,
     t.2.2 + 32 * countBits 4 (secs &&& ~~~ kept.valid) + (if gone then 32 * countBits 4 l.dirty else 0))

/-- The lines of a slice (R23: 1 MiB). -/
def sliceLines (l2 : Sparse L2Line) (pa : Nat) : Sparse L2Line :=
  l2.filter fun e => stackOf (128 * e.1) == stackOf pa && homeSlice (128 * e.1) == homeSlice pa

/-- A slice that holds more than its 8,192 lines writes the oldest back and drops it. -/
def l2Trim (l2 : Sparse L2Line) (pa : Nat) : Sparse L2Line :=
  if l2.length ≤ 8192 then l2
  else
    match sliceLines l2 pa with
    | [] => l2
    | e :: es =>
      if es.length < 8192 then l2 else spDel l2 (es.foldl (fun m x => if x.2.filled < m.2.filled then x else m) e).1

/-- Bytes at a memory tier, charged and counted at its unit (R103, R473). -/
def chargeTier (s : State) (rcb pa bytes : Nat) : State :=
  let (unit, act) := memUnit pa
  count (charge s unit act rcb bytes) unit rcb (actCounter act) bytes

/-- An access at the home slices of its lines (R123, R142): the state, and the bytes that they fill and write back for it. -/
def homeTouch (s : State) (pa n : Nat) : State × Nat :=
  let t := (linesOf pa n).foldl (l2Access s pa n) (s.l2, s.free, 0)
  ({ s with l2 := l2Trim t.1 pa, free := t.2.1 }, t.2.2)

/-- The bytes that an access moves at its memory tier. -/
def chargeMem (s : State) (rcb pa n : Nat) : State :=
  let t := homeTouch s pa n
  chargeTier t.1 rcb pa t.2

/-- The bytes of an access that no L2 holds: of an uncached page (R147). -/
def chargeUncached (s : State) (rcb pa n : Nat) : State :=
  if n = 0 then s else chargeTier s rcb pa (32 * ((pa + n - 1) / 32 - pa / 32 + 1))

/-- The parts of n bytes that lie in one 4 KiB unit each: address and length. -/
def unitParts (va n : Nat) : List (Nat × Nat) :=
  if n = 0 then []
  else (List.range ((va + n - 1) / 4096 - va / 4096 + 1)).map fun i =>
    let lo := max va ((va / 4096 + i) * 4096)
    (lo, min (va + n) ((va / 4096 + i + 1) * 4096) - lo)

/-- The bytes that an access through a translated range moves. -/
def chargePages (s : State) (rcb : Nat) (pages : List (Nat × Nat)) (va n : Nat) : State :=
  (unitParts va n).foldl (fun s x => chargeMem s rcb (pagesPa pages x.1) x.2) s

/-- A line of the L2 is written back and dropped; what is dirty of it is charged. -/
def l2Evict (rcb : Nat) (s : State) (line : Nat) : State :=
  match spFind? s.l2 line with
  | none => s
  | some l => { chargeTier s rcb (128 * line) (32 * countBits 4 l.dirty) with l2 := spDel s.l2 line }

end Sys2Proof.Machine
end

