-- ==== Sys2Proof/Machine/Home.lean ====
section
/-! DEFINITION. Writes at the homes of global lines: recalls and write-backs of stash lines (R132 to R134, R515), coherent writes (R123,
R133), and what becomes of a core's L1 copies (R141, R144). -/

namespace Sys2Proof.Machine

/-! ## Cores -/

def coreOf (s : State) (c : Nat) : Core := spGet { lfsr := BitVec.ofNat 16 (0x8000 ||| c) } s.cores c

/-- The power-on form of a core is not listed (R92: its LFSR starts at 0x8000 or COREID). -/
def putCore (s : State) (c : Nat) (k : Core) : State :=
  { s with cores := spPut { lfsr := BitVec.ofNat 16 (0x8000 ||| c) } s.cores c k }

/-! ## Write-backs of stash lines (R133, R134, R515) -/

/-- The global address that backs a stash line. -/
def lineVa (b : Block) (line : Nat) : Nat :=
  match regionAt b (128 * line) with
  | some r => r.va + (128 * line - r.off)
  | none => 0

/-- The leaf region of a block's launch. -/
def regionOfBlock (s : State) (b : Block) : Nat :=
  match s.launches.find? fun l => l.lid == b.launch with
  | some l => l.region
  | none => 0

/-- Whether a line's home answers through a CXL port. -/
def cxlHome (pa : Nat) : Bool := tierOf pa == some .host || tierOf pa == some .expert

/-- Whether a write-back fails: its home cannot be reached (R556), or its CXL port answers with an error (R515), which is open. -/
def writeBackFails (s : State) (pa : Nat) : Bool := cutOff s pa || (cxlHome pa && Config.choice s.free % 2 == 1)

/-- The sectors of a line in which a byte is dirty. -/
def dirtySectors (l : StashLine) : List Nat :=
  (List.range 4).filter fun k => (List.range 32).any fun i => l.dirty.getLsbD (32 * k + i)

/-- Memory with the dirty bytes of a line. -/
def memWithLine (m : List Host.Cell) (b : Block) (l : StashLine) : List Host.Cell :=
  (List.range 128).foldl (fun m i =>
    if l.dirty.getLsbD i then spPut Config.memDefault m (l.pa + i) (stashByte b (128 * l.line + i)) else m) m

/-- The poison marks after a line's write-back: a sector wholly dirty loses its mark, one that receives a byte of a poisoned word
has one. -/
def poisonWithLine (p : List Nat) (b : Block) (l : StashLine) : List Nat :=
  let p := (List.range 4).foldl (fun p k =>
    if (List.range 32).all fun i => l.dirty.getLsbD (32 * k + i) then delNat p (l.pa / 32 + k) else p) p
  (List.range 32).foldl (fun p k =>
    if b.stashPoison.contains (32 * l.line + k) && (List.range 4).any fun i => l.dirty.getLsbD (4 * k + i) then
      insNat p (l.pa / 32 + k / 8) else p) p

/-- The dirty bytes of a line go to its home (R134), charged to its block's region (R103, R547). -/
def sendLine (s : State) (b : Block) (l : StashLine) : State :=
  let s := (dirtySectors l).foldl (fun s k => chargeMem s (regionOfBlock s b) (l.pa + 32 * k) 32) s
  { s with mem := memWithLine s.mem b l, poison := poisonWithLine s.poison b l, l2 := l2Before s l.pa 128 }

/-- The write-back of a line. Where it fails the dirty bytes are lost, and the failure is kept to be reported (R515). -/
def writeBackLine (s : State) (b : Block) (l : StashLine) : State :=
  if l.dirty = 0 then s
  else if writeBackFails s l.pa then
    { s with free := s.free + 1, lost := s.lost ++ [{ region := regionOfBlock s b, va := lineVa b l.line }] }
  else sendLine { s with free := s.free + 1 } b l

/-- A recall (R132, R133): the owner writes back and gives up the line, which its next touch refills. -/
def recallLine (s : State) (pa : Nat) : State :=
  match ownerOf s pa with
  | none => s
  | some (b, l) =>
    let s := writeBackLine s b l
    match getBlock s b.bid with
    | none => s
    | some c => setBlock s { dropLine c l.line with refill := insNat c.refill l.line }

/-- The recall of every line that n bytes at pa touch. -/
def recallRange (s : State) (pa n : Nat) : State :=
  if n = 0 then s
  else (List.range ((pa + n - 1) / 128 - pa / 128 + 1)).foldl (fun s i => recallLine s ((pa / 128 + i) * 128)) s

/-! ## Coherent writes (R123, R133) -/

/-- A write recalls the lines it touches and is performed at their homes, unless they cannot be reached. -/
def gWrite (s : State) (pa : Nat) (bs : List Byte) : State :=
  let s := recallRange s pa bs.length
  if cutOff s pa then s else rawWrite s pa bs

def gWriteNat (s : State) (pa n x : Nat) : State := gWrite s pa (leBytes n x)

/-- Bytes into a translated range, one 4 KiB unit at a time. -/
def pagesWriteUnits (s : State) (pages : List (Nat × Nat)) (va : Nat) (bs : List Byte) : Nat → State
  | 0 => s
  | f + 1 =>
    if bs.isEmpty then s
    else
      let n := 4096 - va % 4096
      pagesWriteUnits (gWrite s (pagesPa pages va) (bs.take n)) pages (va + n) (bs.drop n) f

def pagesWrite (s : State) (pages : List (Nat × Nat)) (va : Nat) (bs : List Byte) : State :=
  pagesWriteUnits s pages va bs (bs.length / 4096 + 2)

/-! ## The L1 of a core (R141, R144, R165; log 7) -/

/-- The bytes of sectors of a line as its home holds them. -/
def homeBytes (s : State) (line : Nat) (secs : BitVec 4) (m : Sparse Byte) : Sparse Byte :=
  (List.range 128).foldl (fun m i => if secs.getLsbD (i / 32) then spPut 0 m i (gByte s (128 * line + i)) else m) m

/-- The L1's copy of a line, if it is still used. -/
def l1Find (s : State) (c line : Nat) : Option L1Line := (coreOf s c).l1.find? fun l => l.line == line && s.tick < l.until_

/-- Whether the L1 holds n bytes, which lie in one sector. -/
def l1Hit (s : State) (c pa n : Nat) : Bool :=
  match l1Find s c (pa / 128) with
  | some l => sectorBits pa n (pa / 128) &&& ~~~ l.valid == 0
  | none => false

/-- A byte of an L1 copy, none where the L1 does not hold it. -/
def l1Byte (s : State) (c pa : Nat) : Option Byte :=
  if l1Hit s c pa 1 then (l1Find s c (pa / 128)).map fun l => spGet 0 l.data (pa % 128) else none

def setL1 (s : State) (c : Nat) (ls : List L1Line) : State := putCore s c { coreOf s c with l1 := ls }

/-- Every line of a core's L1 is invalid: an acquire at device, grid or system scope (R141). -/
def l1Clear (s : State) (c : Nat) : State := setL1 s c []

/-- A core's copies of n bytes are invalid. -/
def l1DropRange (s : State) (c pa n : Nat) : State :=
  setL1 s c ((coreOf s c).l1.filter fun l => !(linesOf pa n).contains l.line)

/-- A core's copies of bytes of a translated range are invalid. -/
def l1DropPages (s : State) (c : Nat) (pages : List (Nat × Nat)) (va n : Nat) : State :=
  (unitParts va n).foldl (fun s x => l1DropRange s c (pagesPa pages x.1) x.2) s

/-- Every core's copies of n bytes are invalid. -/
def l1DropAll (s : State) (pa n : Nat) : State := (s.cores.map (·.1)).foldl (fun s c => l1DropRange s c pa n) s

/-- The sectors that an L1 may copy: none of a line that a stash owns, whose block writes it there, none that is poisoned. -/
def l1Sectors (s : State) (pa n : Nat) : BitVec 4 :=
  if (ownerOf s pa).isSome then 0
  else (List.range 4).foldl (fun m k => if gPoisoned s (pa / 128 * 128 + 32 * k) 32 then m &&& ~~~ BitVec.ofNat 4 (2 ^ k) else m)
    (sectorBits pa n (pa / 128))

/-- The lines that a load of n bytes brings into the L1: 2,048 lines at most (R21). -/
def l1Fill (s : State) (c pa n : Nat) : State :=
  let k := pa / 128
  let secs := l1Sectors s pa n
  let others := (coreOf s c).l1.filter fun l => l.line != k
  match l1Find s c k with
  | some l =>
    let new := secs &&& ~~~ l.valid
    setL1 s c ({ l with valid := l.valid ||| secs, data := homeBytes s k new l.data } :: others)
  | none =>
    let l : L1Line := { line := k, valid := secs, data := homeBytes s k secs [], until_ := s.tick + 1 + Config.l1Life s.free }
    setL1 { s with free := s.free + 1 } c ((l :: others).take 2048)

/-- A store of the core goes into the copies that its L1 holds (R141). -/
def l1Store (s : State) (c pa : Nat) (bs : List Byte) : State :=
  setL1 s c ((coreOf s c).l1.map fun l =>
    if l.line = pa / 128 then { l with data := writeBytes 0 l.data (pa % 128) bs } else l)

/-- A line that a `.last` load has read (R144): it leaves the core's L1, and the L2, written back. -/
def lastRead (rcb c n : Nat) (s : State) (pa : Nat) : State := (linesOf pa n).foldl (l2Evict rcb) (l1DropRange s c pa n)

/-- A write of a core: to the home, and into the core's own copies (R141). -/
def coreWrite (s : State) (c pa : Nat) (bs : List Byte) : State := l1Store (gWrite s pa bs) c pa bs

end Sys2Proof.Machine
end

