-- ==== Sys2Proof/Machine/Region.lean ====
section
/-! DEFINITION. The region tree: control blocks and effective values (R72, R84, R85), event rings (R498), budgets (R103 to R105,
R547, R548) and counters (R473, R474). -/

namespace Sys2Proof.Machine

/-! ## Control blocks -/

/-- The 256 bytes of an RCB, as one number (R84). -/
def rcbWord (s : State) (rcb : Nat) : Nat := gReadNat s rcb 256

def rcbLeaf (n : Nat) : Bool := n.testBit 44
def rcbFdroot (n : Nat) : Bool := n.testBit 45
def rcbValid (n : Nat) : Bool := n.testBit 46
def rcbKlog (n a : Nat) : Nat := field n (576 + 5 * a + 4) (576 + 5 * a)
def rcbCtrblk (n : Nat) : Nat := field n 876 832 * 128
def ctrblkOf (s : State) (rcb : Nat) : Nat := gReadNat s (rcb + 104) 6 % 2 ^ 45 * 128
def rcbSave (n : Nat) : Nat := field n 935 896 * 4096
def rcbSaveBytes (n : Nat) : Nat := field n 959 936 * 4096
def rcbCtxid (s : State) (rcb : Nat) : Nat := gReadNat s (rcb + 144) 2

/-- Counter blocks and save areas lie in bonded DRAM, LPDDR-6 or host memory (R85). -/
def rcbMemOk (pa : Nat) : Bool :=
  match tierOf pa with
  | some .dram => true
  | some .lpddr => true
  | some .host => true
  | _ => false

/-- A save area lies there as a whole. -/
def rcbSpanOk (pa n : Nat) : Bool :=
  rcbMemOk pa && (n == 0 || (tierOf (pa + n - 1) == tierOf pa))

/-- The validity that R85 gives one RCB. -/
def rcbOk (n : Nat) : Bool :=
  rcbValid n && field n 63 47 == 0 && field n 127 75 == 0 && field n 639 611 == 0 && field n 895 877 == 0 &&
  field n 1023 1017 == 0 && field n 1087 1048 == 0 && field n 1151 1132 == 0 && field n 2047 1168 == 0 &&
  (List.range 7).all (fun a => 12 ≤ rcbKlog n a && rcbKlog n a ≤ 24) &&
  rcbMemOk (rcbCtrblk n) && rcbSpanOk (rcbSave n) (rcbSaveBytes n) &&
  (rcbParent n != 0 || (field n 68 64 == 31 && rcbFdroot n))

/-- The chain from an RCB to its root, at most eight levels (R72, R85), each valid. -/
def rcbChain (s : State) : Nat → Nat → Option (List Nat)
  | 0, _ => none
  | fuel + 1, rcb =>
    let n := rcbWord s rcb
    if !rcbOk n then none
    else if rcbParent n = 0 then some [rcb]
    else (rcbChain s fuel (rcbParent n)).map fun l => rcb :: l

/-- The nearest RCB of a chain with a bit set. -/
def nearest (s : State) (chain : List Nat) (b : Nat) : Nat :=
  match chain.find? fun r => (rcbWord s r).testBit b with
  | some r => r
  | none => chain.getLastD 0

/-- The effective values of a region (R72), from its chain. -/
def effective (s : State) (rcb : Nat) (chain : List Nat) : Region :=
  let words := chain.map (rcbWord s)
  let pool := rcbWord s (nearest s chain 66)
  { rcb, ctxid := rcbCtxid s rcb,
    prio := words.foldl (fun p n => if n.testBit 64 then min p (field n 72 69) else p) 15,
    det := field (rcbWord s (nearest s chain 67)) 74 73,
    cores := words.foldl (fun c n => if n.testBit 68 then c &&& BitVec.ofNat 192 (field n 831 640) else c)
      (BitVec.allOnes 192),
    pool := field pool 1131 1088 * 256, ftbase := field pool 1016 960, ftsize := field pool 1047 1024 * 2 ^ 21,
    chain, domain := nearest s chain 45 }

/-- A region, if its RCB and every ancestor is valid. -/
def regionOf (s : State) (rcb : Nat) : Option Region := (rcbChain s 8 rcb).map (effective s rcb)

/-- The fault domain of an RCB (R72), whatever its validity: the nearest ancestor whose bit is set. -/
def domainOf (s : State) : Nat → Nat → Nat
  | 0, rcb => rcb
  | fuel + 1, rcb =>
    let n := rcbHead s rcb
    if rcbFdroot n ∨ rcbParent n = 0 then rcb else domainOf s fuel (rcbParent n)

/-- Whether an RCB lies in the subtree of another. -/
def underRcb (s : State) (top : Nat) : Nat → Nat → Bool
  | 0, rcb => rcb == top
  | fuel + 1, rcb => rcb == top || (rcbParent (rcbHead s rcb) != 0 && underRcb s top fuel (rcbParent (rcbHead s rcb)))

def under (s : State) (top rcb : Nat) : Bool := underRcb s top 8 rcb

/-! ## Event rings (R498) -/

/-- An event record. -/
def eventRecord (kind code ctxid pack flags block pc addr : Nat) : Nat :=
  kind % 2 ^ 8 + code % 2 ^ 8 * 2 ^ 8 + ctxid % 2 ^ 16 * 2 ^ 16 + pack % 2 ^ 7 * 2 ^ 32 + flags % 2 ^ 11 * 2 ^ 39 +
  block % 2 ^ 52 * 2 ^ 64 + pc % 2 ^ 64 * 2 ^ 128 + addr % 2 ^ 64 * 2 ^ 192

/-- A mailbox register that holds two 32-bit counts (R555): the low or the high one rises by one, and saturates. -/
def bumpHalf (x : DWord) (high : Bool) : DWord :=
  let lo := x.toNat % 2 ^ 32
  let hi := x.toNat / 2 ^ 32
  let up := fun n => min (n + 1) (2 ^ 32 - 1)
  BitVec.ofNat 64 (if high then lo + up hi * 2 ^ 32 else up lo + hi * 2 ^ 32)

/-- A mailbox register that is one count (R555). -/
def bumpAll (x : DWord) : DWord := if x = BitVec.allOnes 64 then x else x + 1

/-- A region event or a counter flush is lost, because its memory answers with an error (R474, R498). -/
def noteLost (s : State) (flush : Bool) : State := { s with hi := { s.hi with mblost := bumpHalf s.hi.mblost flush } }

/-- Writes an event to the ring in a domain's save area: the record, then wr; at 127 unread records it is dropped and `lost`
rises. -/
def postTo (s : State) (domain record : Nat) : State :=
  let base := gReadNat s (domain + 112) 5 * 4096
  if cutOff s base then noteLost s false else
  let wr := gReadNat s base 4
  let rd := gReadNat s (base + 4) 4
  if 127 ≤ (wr + 2 ^ 32 - rd) % 2 ^ 32 then gWriteNat s (base + 8) 4 (gReadNat s (base + 8) 4 + 1)
  else
    let s := gWriteNat s (base + 32 + 32 * (wr % 127)) 32 record
    gWriteNat s base 4 (wr + 1)

/-- Writes an event to the fault domain of a region. -/
def postEvent (s : State) (rcb record : Nat) : State := postTo s (domainOf s 8 rcb) record

/-- A memory-error event (kind 5) of a region. -/
def postMemoryError (s : State) (rcb block addr : Nat) : State :=
  postEvent s rcb (eventRecord 5 0x0E (rcbCtxid s rcb) 0 0 block 0 addr)

/-! ## Units (R548) and counters (R473, R474) -/

def unitGrid : Nat := 768
def unitNet : Nat := 1024

/-- What a flush of a shadow adds: whole microjoules of energy, which is kept in nJ (R475), or the amount itself. -/
def shadowFlushed (h : Shadow) : Nat := if h.idx = 11 then h.amount / 1000 else h.amount

/-- A flush of one shadow (R474): added to the counter blocks of the leaf and of every ancestor. -/
def flushOne (s : State) (h : Shadow) : State :=
  (chainOf s 8 h.rcb).foldl (fun s r =>
    let a := ctrblkOf s r + 8 * h.idx
    if cutOff s a then noteLost s true else gWriteNat s a 8 (gReadNat s a 8 + shadowFlushed h)) s

/-- The flush of every shadow that a test selects. -/
def flushWhere (s : State) (p : Shadow → Bool) : State :=
  let sel := s.shadows.filter p
  let s := { s with shadows := (s.shadows.filter fun h => !p h) ++
    (sel.filter fun h => h.idx == 11 && h.amount % 1000 != 0).map fun h => { h with amount := h.amount % 1000 } }
  sel.foldl flushOne s

/-- A counter as R476 forms it: the counter block's value plus every shadow of the region and its subtree (R74). -/
def counterOf (s : State) (rcb idx : Nat) : Nat :=
  let sh := s.shadows.foldl (fun n h => if under s rcb h.rcb ∧ h.idx = idx then n + shadowFlushed h else n) 0
  (gReadNat s (ctrblkOf s rcb + 8 * idx) 8 + sh) % 2 ^ 64

/-- The first hold of a region at a unit in a period posts a budget-held event when BUDGETCFG[1] is set (R548). -/
def postHeld (s : State) (unit act rcb : Nat) : State :=
  if s.sys.budgetcfg.getLsbD 1 then
    match findUse s unit act rcb with
    | some u =>
      if u.posted then s
      else
        let s := { s with budget := s.budget.map fun v =>
          if v.unit = unit ∧ v.act = act ∧ v.rcb = rcb then { v with posted := true } else v }
        postEvent s rcb (eventRecord 4 act (rcbCtxid s rcb) 0 0 unit 0 0)
    | none =>
      let s := { s with budget := s.budget ++
        [{ unit, act, rcb, used := 0, allow := allowOf s (chainOf s 8 rcb) act, posted := true }] }
      postEvent s rcb (eventRecord 4 act (rcbCtxid s rcb) 0 0 unit 0 0)
  else s

end Sys2Proof.Machine
end

