-- ==== Sys2Proof/Machine/Block.lean ====
section
/-! DEFINITION. Operations over one block: its packs and launch, stash accesses with their fills (R129 to R136, R513), the range
scoreboard (R137 to R140), the barriers (R342 to R346, R540), the engine counters (R180, R277, R480). -/

namespace Sys2Proof.Machine

/-! ## Looking up -/

def getPack (b : Block) (pidx pos : Nat) : Option Pack := b.packs.find? fun p => p.pidx == pidx && p.pos == pos

def setPack (b : Block) (p : Pack) : Block :=
  { b with packs := replaceFirst (fun q => q.pidx == p.pidx && q.pos == p.pos) p b.packs }

def getFrag (p : Pack) (i : Nat) : Option Fragment := p.frags[i]?

def setFrag (p : Pack) (i : Nat) (f : Fragment) : Pack := { p with frags := p.frags.set i f }

def getLaunch (s : State) (l : Nat) : Option Launch := s.launches.find? fun x => x.lid == l

def setLaunch (s : State) (l : Launch) : State :=
  { s with launches := replaceFirst (fun x => x.lid == l.lid) l s.launches }

/-- PACKID (R57). -/
def packId (p : Pack) : Nat := p.pidx + 16 * p.pos

/-! ## The launch packet (R80) -/

def pkEntry (n : Nat) : Nat := field n 56 0
def pkNbx (n : Nat) : Nat := field n 83 64 + 1
def pkNby (n : Nat) : Nat := field n 99 84 + 1
def pkNbz (n : Nat) : Nat := field n 115 100 + 1
def pkPacks (n : Nat) : Nat := field n 119 116 + 1
def pkWidth (n : Nat) : Nat := 8 * 2 ^ field n 121 120
def pkVregs (n : Nat) : Nat := field n 135 128
def pkSregs (n : Nat) : Nat := field n 142 136
def pkProducer (n : Nat) : Nat := field n 146 143
def pkQlog (n : Nat) : Nat := field n 158 154
def pkStash (n : Nat) : Nat := field n 205 192
def pkAcc (n : Nat) : Nat := field n 213 206
def pkMarver (n : Nat) : Nat := field n 223 214
def pkMeta (n : Nat) : Nat := field n 229 224
def pkRegion (n : Nat) : Nat := field n 299 256 * 256
def pkArgs (n : Nat) : Nat := field n 376 320
def pkSeed (n : Nat) : Nat := field n 575 512
def pkDone (n : Nat) : Nat := field n 632 576

def launchWord (l : Launch) : Nat := l.packet.toNat
def launchBlocks (l : Launch) : Nat := pkNbx (launchWord l) * pkNby (launchWord l) * pkNbz (launchWord l)

/-- The bytes of a block's stash allocation (R125). -/
def stashBytes (l : Launch) : Nat := 128 * pkStash (launchWord l)

/-! ## Stash accesses -/

/-- The lines of bound regions that n stash bytes at o touch. -/
def boundLines (b : Block) (o n : Nat) : List Nat :=
  if n = 0 then []
  else ((List.range ((o + n - 1) / 128 - o / 128 + 1)).map fun i => o / 128 + i).filter fun k =>
    (regionAt b (128 * k)).isSome

/-- The translation that the fill of an absent line needs (R130, R513): its physical line, none where the line is present. -/
def fillNeed (s : State) (ctx : Nat) (sup : Bool) (b : Block) (line : Nat) : Except Nat (Option Nat) :=
  match regionAt b (128 * line), lineAt b line with
  | some r, none =>
    let va := r.va + (128 * line - r.off)
    match xlate s ctx sup (if r.mode = .ro then .read else .write) va with
    | .error c => .error c
    | .ok pa => .ok (some (pa / 128 * 128))
  | _, _ => .ok none

/-- The fill of an absent line from its physical line (R130 to R132, R135): another owner gives it up first; a write-only line
that was not present before a pre-emption starts empty. The core's L1 copies go, so that its packs read the stash's. -/
def doFill (s : State) (bid line pa : Nat) : State :=
  let s := recallLine s pa
  match getBlock s bid with
  | none => s
  | some b =>
    let s := l1DropRange s b.core pa 128
    match regionAt b (128 * line) with
    | none => s
    | some r =>
      if r.mode = .wo ∧ ¬ b.refill.contains line then
        let b := stashPut b (128 * line) (List.replicate 128 0)
        setBlock s (setLine b { line, pa, dirty := 0, written := 0 })
      else
        let b := stashPut b (128 * line) ((List.range 128).map fun i => rawByte s (pa + i))
        let s := chargeMem s (regionOfBlock s b) pa 128
        let bad := (List.range 32).filter fun k => s.poison.contains (pa / 32 + k / 8)
        let b := { b with stashPoison := bad.foldl (fun p k => insNat p (32 * line + k)) b.stashPoison,
                          refill := delNat b.refill line }
        setBlock s (setLine b { line, pa, dirty := 0, written := BitVec.allOnes 128 })

/-- Ones at bits lo … lo + n − 1 of a line's byte mask. -/
def byteMask (lo n : Nat) : BitVec 128 := BitVec.ofNat 128 ((2 ^ n - 1) * 2 ^ lo)

/-- The state of a line after bytes o … o + n − 1 of it are written (R131): whole sectors of a read-write line become dirty, the
written bytes of a write-only line join its mask. -/
def markLine (b : Block) (l : StashLine) (o n : Nat) : StashLine :=
  match regionAt b (128 * l.line) with
  | some r =>
    if r.mode = .wo then { l with dirty := l.dirty ||| byteMask o n, written := l.written ||| byteMask o n }
    else
      let lo := o / 32 * 32
      { l with dirty := l.dirty ||| byteMask lo ((o + n + 31) / 32 * 32 - lo) }
  | none => l

/-- A write to stash bytes, bound lines included (R131). -/
def stashStore (b : Block) (o : Nat) (bs : List Byte) : Block :=
  let n := bs.length
  let b := stashPut b o bs
  (boundLines b o n).foldl (fun b k =>
    match lineAt b k with
    | some l =>
      let lo := max o (128 * k) - 128 * k
      let hi := min (o + n) (128 * k + 128) - 128 * k
      setLine b (markLine b l lo (hi - lo))
    | none => b) b

/-- Stash bytes as the block reads them. -/
def stashRead (b : Block) (o : Nat) : Nat → List Byte
  | 0 => []
  | n + 1 => stashByte b o :: stashRead b (o + 1) n

def stashReadNat (b : Block) (o n : Nat) : Nat := ofLeBytes (stashRead b o n)

/-- Lines of bound regions that are absent when an engine comes to them fill through the translation of the moment. -/
def engineFill (s : State) (ctx bid o n : Nat) : State :=
  match getBlock s bid with
  | none => s
  | some b => (boundLines b o n).foldl (fun s k =>
      match fillNeed s ctx true b k with
      | .ok (some pa) => doFill s bid k pa
      | _ => s) s

/-- A write by an engine; `poisoned` are the offsets of bytes that it writes poisoned (R511). -/
def engineStash (s : State) (ctx bid o : Nat) (bs : List Byte) (poisoned : List Nat) : State :=
  let s := engineFill s ctx bid o bs.length
  match getBlock s bid with
  | none => s
  | some b =>
    let b := stashStore b o bs
    setBlock s { b with stashPoison := poisoned.foldl (fun p a => insNat p (a / 4)) b.stashPoison }

/-- The write-backs that have failed are reported (R134, R499, R515). -/
def reportLost (s : State) : State :=
  s.lost.foldl (fun s x => postEvent s x.region (eventRecord 3 0x0E (rcbCtxid s x.region) 0 0 0 0 x.va)) { s with lost := [] }

/-- One line is written back and is clean; or its write-back fails and it is absent (R515). -/
def cleanLine (bid : Nat) (s : State) (l : StashLine) : State :=
  if l.dirty = 0 then s else
  match getBlock s bid with
  | none => s
  | some b =>
    let t := writeBackLine s b l
    setBlock t (if s.lost.length < t.lost.length then dropLine b l.line else setLine b { l with dirty := 0 })

/-- Writes back the dirty lines of a block that a test selects (R134), leaving them clean. A line that cannot be written is lost
and released as absent, and a write-back-failed event posted (R499, R515). -/
def cleanLines (s : State) (b : Block) (sel : StashLine → Bool) : State :=
  reportLost ((b.lines.filter sel).foldl (cleanLine b.bid) s)

/-! ## The range scoreboard (R137 to R140) -/

/-- The entries in use on a core. -/
def scoreUsed (s : State) (core : Nat) : Nat :=
  s.blocks.foldl (fun n b => if b.core = core ∧ b.state = .resident then n + b.score.length else n) 0

/-- Whether stash bytes lo … hi overlap an entry of the block (R138). -/
def scoreHit (b : Block) (lo hi : Nat) : Bool := b.score.any fun e => e.lo ≤ hi && lo ≤ e.hi

def scoreAdd (b : Block) (e : ScoreEntry) : Block := { b with score := b.score ++ [e] }

/-- The entry of a tag is created or widened (R137). -/
def scoreTag (b : Block) (key tag lo hi : Nat) : Block :=
  if b.score.any fun e => e.tag == some (key, tag) then
    { b with score := b.score.map fun e =>
        if e.tag = some (key, tag) then { e with lo := min e.lo lo, hi := max e.hi hi } else e }
  else scoreAdd b { lo, hi, op := none, tag := some (key, tag) }

def hasTag (b : Block) (key tag : Nat) : Bool := b.score.any fun e => e.tag == some (key, tag)

/-- The entry of an operation retires (R139). -/
def scoreDrop (b : Block) (op : Nat) : Block := { b with score := b.score.filter fun e => e.op != some op }

/-- An entry for the bytes that a GCOPY lands in the block's stash, which widens as they come (R412). -/
def hasGrid (b : Block) (key : Nat × Nat) : Bool := b.score.any fun e => e.grid == some key

def scoreGrid (b : Block) (key : Nat × Nat) (lo hi : Nat) : Block :=
  if hasGrid b key then
    { b with score := b.score.map fun e => if e.grid = some key then { e with lo := min e.lo lo, hi := max e.hi hi } else e }
  else scoreAdd b { lo, hi, op := none, grid := some key }

def scoreDropGrid (b : Block) (key : Nat × Nat) : Block := { b with score := b.score.filter fun e => e.grid != some key }

def scoreDropTag (b : Block) (key tag : Nat) : Block :=
  { b with score := b.score.filter fun e => e.tag != some (key, tag) }

/-! ## Engine counters (R180, R277, R480) -/

def classCount (p : Pack) (c : EngClass) : Nat := (p.eng.filter fun o => o.cls == c).length

/-- The copies of a tag that count: all but those that, with every older one of the tag, have completed. -/
def tagCount (p : Pack) (t : Nat) : Nat :=
  ((p.eng.filter fun o => o.tag == some t).dropWhile fun o => o.done).length

/-- The operations that still count in their class: an operation leaves when it and every older one have completed. -/
def pruneClass (ops : List EngOp) (c : EngClass) : List EngOp :=
  let keep := ((ops.filter fun o => o.cls == c).dropWhile fun o => o.done).map fun o => o.id
  ops.filter fun o => o.cls != c || keep.contains o.id

/-- An operation completes at its pack (R180). -/
def engDone (p : Pack) (id : Nat) : Pack :=
  let ops := p.eng.map fun o => if o.id = id then { o with done := true } else o
  { p with eng := [EngClass.streamer, .drain, .grid, .net, .copy].foldl pruneClass ops }

def engAdd (p : Pack) (id : Nat) (c : EngClass) (tag : Option Nat) : Pack :=
  { p with eng := p.eng ++ [{ id, cls := c, tag }] }

/-- Whether every counter of a pack is zero (R58, R66). -/
def engIdle (p : Pack) : Bool := p.eng.isEmpty

/-- The pack that holds a position now: siblings that have fused are one (R61). -/
def packAt (b : Block) (pidx pos : Nat) : Option Pack :=
  (b.packs.find? fun p => p.pidx == pidx && p.pos ≤ pos && pos < p.pos + p.width / 8).bind fun p => getPack b p.pidx p.pos

/-- Marks an operation complete at the pack that issued it, if that pack is still there. -/
def completeAt (s : State) (bid pidx pos id : Nat) : State :=
  match getBlock s bid with
  | none => s
  | some b =>
    match packAt b pidx pos with
    | none => s
    | some p => setBlock s (setPack b (engDone p id))

/-! ## Barriers (R342 to R346, R540) -/

/-- A phase completes when A = E and D = X (R344). -/
def barSettle (b : Barrier) : Barrier :=
  if b.arrived = b.expected ∧ b.delivered = b.posted then
    { b with arrived := 0, phase := (b.phase + 1) % 2 ^ 32, posted := b.postedNext, delivered := b.deliveredNext,
             postedNext := 0, deliveredNext := 0 }
  else b

def getBar (b : Block) (i : Nat) : Option Barrier := spFind? b.barriers i

def setBar (b : Block) (i : Nat) (x : Barrier) : Block := { b with barriers := spSet b.barriers i x }

/-- A loss posts its event (R540, R542). -/
def barLost (s : State) (b : Block) (i : Nat) (next : Bool) (n : Nat) : State :=
  match getLaunch s b.launch with
  | none => s
  | some l => postEvent s l.region (eventRecord 12 0x0B l.ctx 0 0 b.linear (i + 16 * bit next) n)

/-- Bytes that an engine completes toward a barrier (R344, R540). -/
def barDeliver (s : State) (bid i : Nat) (next : Bool) (n : Nat) : State :=
  match getBlock s bid with
  | none => s
  | some b =>
    match getBar b i with
    | none => barLost s b i next n
    | some x =>
      let d := if next then x.deliveredNext else x.delivered
      if 2 ^ 40 - 1 < d + n then barLost s b i next n
      else if next then setBlock s (setBar b i (barSettle { x with deliveredNext := d + n }))
      else setBlock s (setBar b i (barSettle { x with delivered := d + n }))

/-! ## Atomics at a home (R325, R327) -/

/-- An atomic performed at the home slice: the state and the old value; a poisoned location is left as it is (R508). -/
def memAtomic (s : State) (pa w op a c : Nat) : State × Nat :=
  let s := recallRange s pa w
  let m := gReadNat s pa w
  if gPoisoned s pa w then (s, m) else (gWriteNat s pa w (atomNew op w m a c), m)

end Sys2Proof.Machine
end

