-- ==== Sys2Proof/Machine/Engine.lean ====
section
/-! DEFINITION. What the engines do for operations in flight: lane copies (R329, R330), the streamer (R338 to R340), matrix passes
(R221, R222, R359) and drains (R372 to R374); and pre-emption, which lets them finish (R107, R135, R380). -/

namespace Sys2Proof.Machine

def getEngine (s : State) (id : Nat) : Option EngineOp := s.engine.find? fun o => o.id == id

def dropEngine (s : State) (id : Nat) : State := { s with engine := s.engine.filter fun o => o.id != id }

def putEngine (s : State) (o : EngineOp) : State :=
  { s with engine := s.engine.map fun x => if x.id = o.id then o else x }

/-- The context and region of a block's launch. -/
def blockCtx (s : State) (b : Block) : Nat × Nat :=
  match getLaunch s b.launch with
  | some l => (l.ctx, l.region)
  | none => (0, 0)

/-- The key of a pack in a block: its PACKID. -/
def packKey (pidx pos : Nat) : Nat := pidx + 16 * pos

/-- The first poisoned address of n bytes at a physical address. -/
def firstPoison (s : State) (pa n : Nat) : Option Nat :=
  (List.range n).findSome? fun i => if gPoisoned s (pa + i) 1 then some (pa + i) else none

/-! ## Lane copies (R329, R330, R511) -/

/-- One lane's bytes land: the valid ones from memory, zero after them. -/
def copyLane (s : State) (bid ctx region linear size : Nat) (l : CopyLane) : State :=
  let bytes := gRead s l.pa l.valid ++ List.replicate (size - l.valid) 0
  let bad := (List.range l.valid).filter fun i => gPoisoned s (l.pa + i) 1
  let s := chargeMem s region l.pa l.valid
  let s := engineStash s ctx bid l.dst bytes (bad.map fun i => l.dst + i)
  match bad with
  | [] => s
  | i :: _ => postMemoryError s region linear (l.pa + i)

/-- A lane copy lands whole: its tag's entry retires when it was the tag's last (R139), and its counters fall. -/
def copyLand (s : State) (o : EngineOp) (size : Nat) (lanes : List CopyLane) : State :=
  match getBlock s o.blk with
  | none => dropEngine s o.id
  | some b =>
    let (ctx, region) := blockCtx s b
    let s := lanes.foldl (fun s l => copyLane s o.blk ctx region b.linear size l) s
    let s := completeAt (dropEngine s o.id) o.blk o.pidx o.pos o.id
    match getBlock s o.blk with
    | none => s
    | some b =>
      match packAt b o.pidx o.pos with
      | none => s
      | some p =>
        let key := packKey o.pidx o.pos
        (List.range 8).foldl (fun s t =>
          match getBlock s o.blk with
          | some b =>
            if p.eng.all (fun e => e.tag != some t || e.done) && hasTag b key t then setBlock s (scoreDropTag b key t) else s
          | none => s) s

/-! ## The streamer (R338 to R340) -/

/-- One element of a reduction (R338): a poisoned destination is left as it is and reported (R508), a poisoned source leaves the
destination poisoned (R511). -/
def redElem (b : Block) (region op w va off : Nat) (pages : List (Nat × Nat)) (s : State) (k : Nat) : State :=
  let pa := pagesPa pages (va + k * w)
  if gPoisoned s pa w then postMemoryError s region b.linear (va + k * w)
  else
    let s := (memAtomic (l1DropRange s b.core pa w) pa w op (stashReadNat b (off + k * w) w) 0).1
    if stashPoisoned b (off + k * w) w then poisonSector s pa else s

/-- The bytes of the next part of a transfer move. -/
def xferPart (s : State) (o : EngineOp) (kind : XferKind) (pages : List (Nat × Nat)) (va off n : Nat) : State :=
  match getBlock s o.blk with
  | none => s
  | some b =>
  let (ctx, region) := blockCtx s b
  let s := engineFill (chargePages s region pages va n) ctx o.blk off n
  let b := (getBlock s o.blk).getD b
  match kind with
  | .load =>
    let bad := (List.range n).filter fun i => gPoisoned s (pagesPa pages (va + i)) 1
    let s := engineStash s ctx o.blk off (pagesRead s pages va n) (bad.map fun i => off + i)
    (match bad with
     | [] => s
     | i :: _ => postMemoryError s region b.linear (va + i))
  | .store =>
    let bad := (List.range n).filter fun i => b.stashPoison.contains ((off + i) / 4)
    let s := l1DropPages (pagesWrite s pages va (stashRead b off n)) b.core pages va n
    let s := bad.foldl (fun s i => poisonSector s (pagesPa pages (va + i))) s
    (match bad with
     | [] => s
     | i :: _ => postMemoryError s region b.linear (off + i))
  | .red op w =>
    let s := (List.range (n / w)).foldl (redElem b region op.toNat w va off pages) s
    (match (List.range n).find? fun i => b.stashPoison.contains ((off + i) / 4) with
     | some i => postMemoryError s region b.linear (off + i)
     | none => s)

/-- n more bytes of a transfer complete (R340): they count toward its barrier, and the last of them completes it. -/
def xferMove (s : State) (o : EngineOp) (kind : XferKind) (pages : List (Nat × Nat)) (va off len moved : Nat)
    (bar : Option (Nat × Bool)) (n : Nat) : State :=
  match getBlock s o.blk with
  | none => dropEngine s o.id
  | some b =>
    let (_, region) := blockCtx s b
    let s := xferPart s o kind pages (va + moved) (off + moved) n
    let s := count s b.core region 3 n
    let s :=
      if moved + n < len then putEngine s { o with work := .xfer kind pages va off len (moved + n) bar }
      else
        let s := dropEngine s o.id
        let s := match getBlock s o.blk with
          | some b => setBlock s (scoreDrop b o.id)
          | none => s
        completeAt s o.blk o.pidx o.pos o.id
    match bar with
    | some (i, next) => barDeliver s o.blk i next n
    | none => s

/-! ## Matrix passes (R221, R222, R359) -/

/-- The accumulator element after a pass sum: WrapInt for an i32 pass, RoundF32 for the others. -/
def accAdd (kind : AccKind) (old value : Word) : Word :=
  match kind with
  | .i32 => old + value
  | .f32 => BitVec.ofNat 32 (fAdd fmtF32 .rne old.toNat value.toNat).1

/-- One octet's pass takes effect on its tile (R368, R507). -/
def applyPass (b : Block) (p : PassOp) : Block :=
  let t := spGet {} b.acc p.tile
  let t := { t with kind := p.kind }
  let t := p.sums.foldl (fun t x =>
    { t with data := spPut 0 t.data x.elem (accAdd p.kind (spGet 0 t.data x.elem) x.value),
             poison := if x.poison then insNat t.poison x.elem else t.poison }) t
  { b with acc := spPut {} b.acc p.tile t, passes := b.passes.filter fun q => q.id != p.id,
           passCount := (b.passCount + 1) % 2 ^ 32 }

/-! ### Their checks (R379, R536 to R538) -/

/-- The modulus of the residues (R379). -/
def resP : Nat := 2 ^ 61 - 1

/-- The residue of n × 2^q. -/
def residue (n q : Int) : Nat := ((n % (resP : Int)).toNat * 2 ^ (q % 61).toNat) % resP

/-- The residue of a finite value; a non-finite one enters no check. -/
def valRes : FVal → Nat
  | .fin neg m e => residue (signedOf neg m) e
  | _ => 0

def sumRes (l : List Nat) : Nat := l.foldl (fun t x => (t + x) % resP) 0

/-- The residue of the sums that a test selects. -/
def sumsRes (sums : List PassSum) (f : Nat → Bool) : Nat :=
  sumRes ((sums.filter fun x => f x.elem).map fun x => match x.exact with
    | some y => residue y.1 y.2
    | none => 0)

/-- The two identities of R379. -/
def passCheck (p : PassOp) : Bool :=
  p.cols.all (fun c => sumsRes p.sums (fun k => k % 128 == c.1) == c.2) &&
  p.rows.all fun r => sumsRes p.sums (fun k => k / 128 == r.1) == r.2

/-- A replay is counted: in CHECKSUM_RETRIES and MATRIX_CYCLES, and for MSTAT (R537). -/
def countReplay (s : State) (b : Block) (p : PassOp) : State :=
  let (_, region) := blockCtx s b
  let b := { b with replays := b.replays + 1,
                    passes := b.passes.map fun q => if q.id = p.id then { q with replays := q.replays + 1 } else q }
  count (count (setBlock s b) b.core region 13 1) b.core region 2 8

/-- A fault that is to stop its domain once the operation that met it has ended (R497). -/
def doom (s : State) (region ctx pack linear : Nat) (info : TrapInfo) : State :=
  { s with doomed := s.doomed ++ [{ region, ctx, pack, linear, info }] }

/-- Elements of a tile are poisoned (R507). -/
def poisonElems (b : Block) (tile : Nat) (elems : List Nat) : Block :=
  let t := spGet {} b.acc tile
  { b with acc := spPut {} b.acc tile { t with poison := elems.foldl insNat t.poison,
                                               errs := t.errs.filter fun k => !elems.contains k } }

/-- A pass is lost (R538): the result is discarded, elements are poisoned, the event is posted, and the domain is to escalate. -/
def losePassAt (s : State) (b : Block) (p : PassOp) (elems : List Nat) : State :=
  let (ctx, region) := blockCtx s b
  let b := poisonElems { b with passes := b.passes.filter fun q => q.id != p.id } p.tile elems
  let s := postEvent (setBlock s b) region (eventRecord 11 0x0D ctx 0 0 b.linear p.pc.toNat (p.tile % 128))
  doom s region ctx (packKey p.pidx p.pos) b.linear
    { cause := 0x0D, lanes := BitVec.ofNat 64 (2 ^ p.lane), pc := p.pc, octet := true }

/-- The second replay has failed: every element that the pass would have updated is poisoned. -/
def losePass (s : State) (b : Block) (p : PassOp) : State := losePassAt s b p (p.sums.map fun x => x.elem)

/-- The elements in error that a pass would read (R538). -/
def passErrs (b : Block) (p : PassOp) : List Nat :=
  (spGet {} b.acc p.tile).errs.filter fun k => p.sums.any fun x => x.elem == k

/-- A pass in flight completes: its check passes, or a replay's does, which is open once a check has failed (R536); or it is lost. -/
def endPass (bid : Nat) (s : State) (p : PassOp) : State :=
  match getBlock s bid with
  | none => s
  | some b =>
    if !(passErrs b p).isEmpty then losePassAt s b p (passErrs b p)
    else if p.replays = 0 ∧ passCheck p then setBlock s (applyPass b p)
    else
      let good := Config.choice s.free % 2 == 0
      let s := countReplay { s with free := s.free + 1 } b p
      match getBlock s bid with
      | none => s
      | some b => if good then setBlock s (applyPass b p) else losePass s b p

/-- Every pass in flight of a block completes, in issue order (R107 step 3, R380). -/
def endPasses (s : State) (bid : Nat) : State :=
  match getBlock s bid with
  | none => s
  | some b => b.passes.foldl (endPass bid) s

/-! ## Drains (R372 to R374, R507) -/

/-- The format of a tensor's element, by the code of R352. -/
def tensorFmt (code : Nat) : Fmt := if code = 2 then fmtBF16 else if code = 3 then fmtF16 else fmtF32

/-- The exact value of an accumulator element (R368). -/
def accVal (int : Bool) (x : Nat) : FVal := if int then valOfInt (sval 32 x) else fDecode fmtF32 x

/-- The value that a drained element leaves: itself, or the old value plus it, rounded once (R374). -/
def drainValue (add : Bool) (old : Nat) (e : DrainElem) : Nat :=
  if add then (roundVal (tensorFmt e.fmt) .rne (addVal .rne (fDecode (tensorFmt e.fmt) old) (accVal e.int e.value)).1).1
  else e.value

/-- One element of a drain. What MST.add adds to a poisoned word leaves it poisoned, since its value comes from it (R507). -/
def drainElem (s : State) (bid ctx core : Nat) (add : Bool) (e : DrainElem) : State :=
  if e.stash then
    let s := engineFill s ctx bid e.addr e.size
    match getBlock s bid with
    | none => s
    | some b =>
      let v := drainValue add (stashReadNat b e.addr e.size) e
      engineStash s ctx bid e.addr (leBytes e.size v)
        (if e.poison || (add && stashPoisoned b e.addr e.size) then [e.addr] else [])
  else
    let v := drainValue add (gReadNat s e.addr e.size) e
    let s := l1DropRange (gWriteNat s e.addr e.size v) core e.addr e.size
    if e.poison then poisonSector s e.addr else s

def drainFinish (s : State) (o : EngineOp) (add : Bool) (elems : List DrainElem) : State :=
  match getBlock s o.blk with
  | none => dropEngine s o.id
  | some b =>
    let (ctx, region) := blockCtx s b
    let secs := ((elems.filter fun e => !e.stash).map fun e => e.addr / 32).eraseDups
    let s := secs.foldl (fun s k => chargeMem s region (32 * k) 32) s
    let s := elems.foldl (fun s e => drainElem s o.blk ctx b.core add e) s
    let s := dropEngine s o.id
    let s := match getBlock s o.blk with
      | some b => setBlock s (scoreDrop b o.id)
      | none => s
    completeAt s o.blk o.pidx o.pos o.id

/-! ## Finishing everything of a block -/

/-- The whole rest of an operation in flight. -/
def finishOp (s : State) (o : EngineOp) : State :=
  match o.work with
  | .copy size lanes => copyLand s o size lanes
  | .xfer kind pages va off len moved bar => xferMove s o kind pages va off len moved bar (len - moved)
  | .drain add elems => drainFinish s o add elems

/-- Lane copies, transfers, passes and drains in flight complete (R107 step 3). -/
def finishBlock (s : State) (bid : Nat) : State :=
  let s := endPasses s bid
  (s.engine.filter fun o => o.blk == bid).foldl finishOp s

/-- Every dirty bound line goes back and its ownership is released; the lines that were present are marked for refilling
(R135). -/
def releaseLines (s : State) (bid : Nat) : State :=
  match getBlock s bid with
  | none => s
  | some b =>
    let s := cleanLines s b fun _ => true
    setBlock s { b with lines := [], refill := b.lines.foldl (fun r l => insNat r l.line) b.refill }

/-! ## HOLD bursts -/

/-- The slices of a fragment, by number. -/
def fragSlices (p : Pack) (f : Fragment) : List Nat :=
  (List.range p.slices.length).filter fun k => f.slices.getLsbD k

/-- What a burst may change, as it stands (R102). -/
def takeSnapshot (p : Pack) (f : Fragment) : Snapshot :=
  { slices := (fragSlices p f).filterMap fun k => p.slices[k]?, s := p.s, sb := p.sb, gp := p.gp, latches := f.latches }

/-- The keys at which a store differs from an earlier one, with their values. -/
def spDiff {α : Type} [DecidableEq α] (d : α) (old new : List (Nat × α)) : List (Nat × α) :=
  ((((old ++ new).map (·.1)).eraseDups).filter fun k => !(spGet d old k == spGet d new k)).map fun k => (k, spGet d new k)

def spApply {α : Type} [DecidableEq α] (d : α) (l ds : List (Nat × α)) : List (Nat × α) :=
  ds.foldl (fun l x => spPut d l x.1 x.2) l

/-- A fragment in a burst loses the scheduler: the burst's writes to shared registers are not seen until it commits (R102). -/
def setAside (p : Pack) (i : Nat) : Pack :=
  match getFrag p i with
  | none => p
  | some f =>
    match f.burst with
    | none => p
    | some u =>
      if u.away.isSome then p
      else
        let w : BurstWrites := { s := spDiff 0 u.snap.s p.s, sb := spDiff 0 u.snap.sb p.sb, gp := spDiff 0 u.snap.gp p.gp }
        setFrag { p with s := u.snap.s, sb := u.snap.sb, gp := u.snap.gp } i { f with burst := some { u with away := some w } }

/-- It has the scheduler again: its burst goes on over the registers as the others have left them. -/
def takeUp (p : Pack) (i : Nat) : Pack :=
  match getFrag p i with
  | none => p
  | some f =>
    match f.burst with
    | none => p
    | some u =>
      match u.away with
      | none => p
      | some w =>
        setFrag { p with s := spApply 0 p.s w.s, sb := spApply 0 p.sb w.sb, gp := spApply 0 p.gp w.gp } i
          { f with burst := some { u with snap := { u.snap with s := p.s, sb := p.sb, gp := p.gp }, away := none } }

/-- A pack with the slices of a list in the places of a fragment. -/
def putSlices (slices : List Slice) (ks : List Nat) (new : List Slice) : List Slice :=
  (ks.zip new).foldl (fun l e => l.set e.1 e.2) slices

/-- An unfinished burst is discarded: its effects vanish and the fragment stands at the HOLD (R102, R500). -/
def discardBurst (p : Pack) (i : Nat) : Pack :=
  match getFrag p i with
  | none => p
  | some f =>
    match f.burst with
    | none => p
    | some u =>
      let p := setAside p i
      let p := { p with slices := putSlices p.slices (fragSlices p f) u.snap.slices, lclock := p.lclock - u.count }
      setFrag p i { f with pc := u.pc, latches := u.snap.latches, burst := none }

def discardBursts (p : Pack) : Pack := (List.range p.frags.length).foldl discardBurst p

/-- The latches of a fragment after it loses the scheduler, or at a pre-emption (R100). -/
def dropLatches (f : Fragment) : Fragment :=
  { f with latches := f.latches.map fun l => { l with valid := false, inBurst := false } }

/-! ## Pre-emption (R107, R109, R380) -/

/-- A store with a block of bytes in place of what it held there. -/
def spBlock (d : Byte) (m : Sparse Byte) (lo : Nat) (bs : List Byte) : Sparse Byte :=
  (m.filter fun e => e.1 < lo) ++ ((bs.mapIdx fun i b => (lo + i, b)).filter fun e => !(e.2 == d)) ++
  (m.filter fun e => lo + bs.length ≤ e.1)

/-- A page of a block's record is written; what it holds is the device's own (R108), a free value. -/
def writeRecordPage (region : Nat) (s : State) (pa : Nat) : State :=
  let s := chargeMem (recallRange s pa 4096) region pa 4096
  { s with mem := spBlock Config.memDefault s.mem pa ((List.range 4096).map (Config.recordByte s.free)),
           poison := clearPoison s.poison pa 4096, l2 := l2Before s pa 4096, free := s.free + 1 }

/-- The block's record goes to the save area (R107 steps 5 and 6); a page that cannot be written escalates with cause 0x0E (R502). -/
def writeRecord (s : State) (b : Block) : State :=
  let (ctx, region) := blockCtx s b
  if b.record.any (writeBackFails s) then doom { s with free := s.free + 1 } region ctx 0 b.linear { cause := 0x0E }
  else b.record.foldl (writeRecordPage region) s

/-- The steps of R107 but for the return to the dispatcher: issue stops, engines finish, lines go back, the record is written, latches
are lost, marver slots keep their references alone. -/
def suspendBlock (s : State) (bid : Nat) : State :=
  match getBlock s bid with
  | none => s
  | some b =>
    let s := setBlock s { b with packs := b.packs.map discardBursts }
    let s := releaseLines (finishBlock s bid) bid
    match getBlock s bid with
    | none => s
    | some b =>
      let (_, region) := blockCtx s b
      let s := count (writeRecord s b) b.core region 12 1
      let b := { b with packs := b.packs.map fun p =>
                          { p with frags := p.frags.map fun f => { dropLatches f with running := false, slots := 0 } },
                        marver := b.marver.map fun e => (e.1, { e.2 with pending := true }), score := [],
                        state := .preempted }
      let s := setBlock s b
      { s with cur := match s.cur with
                 | some r => if r.blk = bid then none else some r
                 | none => none }

/-- A pre-emption: the block goes back to the dispatcher ahead of the unstarted blocks of its launch, or behind them (R109). -/
def preemptBlock (s : State) (bid : Nat) (behind : Bool) : State :=
  let s := suspendBlock s bid
  match getBlock s bid with
  | none => s
  | some b => setBlock s { b with behind := behind }

end Sys2Proof.Machine
end

