-- ==== Sys2Proof/Machine/Combine.lean ====
section
/-! DEFINITION. What a router port does with requests that wait there (R403 to R405): which may combine, the combined request, and how
its answer splits. -/

namespace Sys2Proof.Machine

/-- The bytes of an element of a width code (R245). -/
def elemBytes (width : Nat) : Nat := 2 ^ min width 4

/-! ## Elements of a line -/

/-- The element at a place of a line, where the mask names all of it. -/
def lineElem (m : GMsg) (w i : Nat) : Option Nat :=
  let bs := (m.bytes.drop (i * w)).take w
  if bs.length = w ∧ bs.all (fun b => b.1) then some (ofLeBytes (bs.map fun b => b.2)) else none

/-- The elements that a line supplies: place and value. -/
def lineElems (m : GMsg) : List (Nat × Nat) :=
  let w := elemBytes m.width
  (List.range (128 / w)).filterMap fun i => (lineElem m w i).map fun v => (i, v)

/-! ## Trees -/

/-- The request that a tree stands for: the earliest constituent's header with the combined operand and counts (R403). -/
def treeMsg : CombTree → GMsg
  | .one g => g.msg
  | .two _ _ m => m

def treeKind : CombTree → Nat
  | .one g => g.kind
  | .two l _ _ => treeKind l

def treeOut (t : CombTree) : GOut := { kind := treeKind t, msg := treeMsg t }

def treeLeaves : CombTree → List GMsg
  | .one g => [g.msg]
  | .two l r _ => treeLeaves l ++ treeLeaves r

/-! ## Combining -/

/-- The table of R403: whether an operation combines, `exch` for GATOM alone. -/
def gopCombines (g : GOut) : Bool :=
  g.msg.gop ≤ 7 || (g.msg.gop == 8 && g.kind == 4) || (g.msg.gop == 10 && !g.msg.mflag)

/-- A request that may wait in a combining buffer: a GATOM or a contribution of GRED, with a value, that waits for no marker. -/
def combinable (g : GOut) : Bool := (g.kind == 3 || g.kind == 4) && gopCombines g && !g.msg.poison && g.msg.markers == 0

/-- Whether two requests may combine, but for what stands behind the earlier one (R403). -/
def mayCombine (a b : GOut) : Bool :=
  combinable a && combinable b && a.kind == b.kind && a.msg.ctx == b.msg.ctx && a.msg.addr == b.msg.addr &&
  a.msg.width == b.msg.width && a.msg.gop == b.msg.gop && a.msg.order == b.msg.order && a.msg.sys == b.msg.sys &&
  a.msg.mflag == b.msg.mflag && a.msg.cw == b.msg.cw

/-- The combined operand of L and R, and the value after L is applied to v (R403). -/
def combOperand (m : GMsg) (x y : Nat) : Nat := atomNew m.gop (elemBytes m.width) x y 0

/-- Two lines of contributions, element by element: an element that only one of them supplies passes. -/
def combBytes (a b : GMsg) : List (Bool × Byte) :=
  let w := elemBytes a.width
  let put (v : Nat) : List (Bool × Byte) := (leBytes w v).map fun x => (true, x)
  (List.range (128 / w)).flatMap fun i =>
    match lineElem a w i, lineElem b w i with
    | some x, some y => put (combOperand a x y)
    | some x, none => put x
    | none, some y => put y
    | none, none => List.replicate w (false, 0)

/-- The combined request: in the earlier one's place, with the sum of the counts. -/
def combMsg (kind : Nat) (a b : GMsg) : GMsg :=
  { a with cnt := a.cnt + b.cnt,
           element := if kind = 4 then combOperand a a.element b.element else a.element,
           bytes := if kind = 3 then combBytes a b else a.bytes }

/-- A waiting request of a source for a line. -/
def sameSourceLine (m : GMsg) (t : CombTree) : Bool :=
  (treeLeaves t).any fun x => x.src == m.src && x.addr / 128 == m.addr / 128

/-- A request enters a wait buffer of n entries (R403): it combines with the first entry that lets it, behind which no message of its
source to its line stands. On the way out, both have one pattern. -/
def combineInto (out : Bool) (g : GOut) : Nat → List CombTree → List CombTree
  | _, [] => [.one g]
  | 0, l => l ++ [.one g]
  | n + 1, t :: l =>
    if mayCombine (treeOut t) g && (!out || (treeMsg t).pat == g.msg.pat) && !l.any (sameSourceLine g.msg) then
      .two t (.one g) (combMsg g.kind (treeMsg t) g.msg) :: l
    else t :: combineInto out g n l

/-- The value that answers a request splits at each combine record (R404): what is done for each constituent with its value. -/
def splitAnswer (f : State → GOut → Nat → State) : CombTree → Nat → State → State
  | .one g, v, s => f s g v
  | .two l r _, v, s => splitAnswer f r (combOperand (treeMsg l) v (treeMsg l).element) (splitAnswer f l v s)

end Sys2Proof.Machine
end

