-- ==== Sys2Proof/Machine/Link.lean ====
section
/-! DEFINITION. Links and flits (R391 to R396, R400): the bits of a message and of its flits, credits, and what a port lets go. -/

namespace Sys2Proof.Machine

/-! ## The bits of a message (R400) -/

/-- The code of an order (R248). -/
def orderCode : Order → Nat
  | .plain => 0
  | .acquire => 1
  | .release => 2
  | .acqRel => 3

/-- The 48-byte message header. Of M − 1 the field `mult` holds the low four bits (log 69). -/
def headerNat (g : GOut) : Nat :=
  let m := g.msg
  m.pat.toNat + g.kind % 2 ^ 4 * 2 ^ 128 + m.src % 2 ^ 20 * 2 ^ 132 + m.ctx % 2 ^ 16 * 2 ^ 152 + m.tag % 2 ^ 16 * 2 ^ 168 +
  m.gop % 2 ^ 4 * 2 ^ 184 + m.width % 2 ^ 3 * 2 ^ 188 + orderCode m.order * 2 ^ 191 + bit m.sys * 2 ^ 193 + bit m.mflag * 2 ^ 194 +
  bit m.poison * 2 ^ 195 + m.count % 2 ^ 4 * 2 ^ 196 + m.key % 2 ^ 45 * 2 ^ 200 + m.addr % 2 ^ 57 * 2 ^ 248 +
  m.nparts % 2 ^ 24 * 2 ^ 312 + m.part % 2 ^ 24 * 2 ^ 336 + m.cnt % 2 ^ 24 * 2 ^ 360

/-- A line's 16-byte mask and its 128 bytes. -/
def lineData (m : GMsg) : List Byte :=
  leBytes 16 (m.bytes.foldr (fun b n => bit b.1 + 2 * n) 0) ++ m.bytes.map fun b => b.2

/-- The data of a message by its kind (R400; log 69). -/
def msgData (g : GOut) : List Byte :=
  let m := g.msg
  let n := elemBytes m.width
  match g.kind with
  | 0 | 8 => lineData m
  | 3 => leBytes 8 m.cw ++ (if m.poison then [] else lineData m)
  | 6 => leBytes 8 m.cw ++ (if m.poison then [] else leBytes 8 m.element)
  | 4 => if m.gop = 9 then leBytes n m.element ++ leBytes n m.compare else leBytes 8 m.element
  | 2 | 5 | 7 => leBytes (max 8 n) m.element
  | 9 | 11 => leBytes 8 (m.refused % 2 ^ 20 + m.first % 2 ^ 20 * 2 ^ 20 + bit m.fvalid * 2 ^ 40)
  | _ => []

/-- The bytes of a message. -/
def msgBytes (g : GOut) : List Byte := leBytes 48 (headerNat g) ++ msgData g

/-- The bytes that a message carries, which it charges (R408). -/
def payloadBytes (g : GOut) : Nat := 48 + (msgData g).length

/-! ## The bits of a flit (R391) -/

def crcBit (c : BitVec 32) : BitVec 32 := if c.getLsbD 0 then (c >>> 1) ^^^ 0x82F63B78#32 else c >>> 1

def crcByte (c : BitVec 32) (b : Byte) : BitVec 32 := (List.range 8).foldl (fun c _ => crcBit c) (c ^^^ b.setWidth 32)

/-- CRC-32C. -/
def crc32c (bs : List Byte) : BitVec 32 := ~~~ bs.foldl crcByte 0xFFFFFFFF#32

/-- Header bits [31:0]. -/
def flitHead (f : Flit) : Nat :=
  f.vc.toNat + bit f.sof * 2 ^ 3 + bit f.eof * 2 ^ 4 + f.crd.toNat * 2 ^ 5 + f.cvc.toNat * 2 ^ 11 + f.kind.toNat * 2 ^ 14 +
  f.fseq.toNat * 2 ^ 16

/-- The 64 bytes of a flit on the link. -/
def flitBytes (f : Flit) : List Byte :=
  let head := leBytes 4 (flitHead f)
  head ++ leBytes 4 (crc32c (head ++ f.payload)).toNat ++ f.payload

/-- Bytes whose values the spec does not give. -/
def fillBytes (s : State) (n : Nat) : List Byte := (List.range n).map (Config.flitByte s.free)

/-- The payloads of n flits that carry given bytes. -/
def payloads (s : State) (n : Nat) (bs : List Byte) : List (List Byte) :=
  (List.range n).map fun i =>
    let x := (bs.drop (56 * i)).take 56
    x ++ fillBytes s (56 - x.length)

/-- The flits of something sent on a channel, without what the link adds. -/
def flitsFor (kind vc : Nat) (line : Option Nat) (ps : List (List Byte)) : List PortFlit :=
  ps.mapIdx fun i p =>
    { line, flit := { vc := BitVec.ofNat 3 vc, sof := i == 0, eof := i + 1 == ps.length, kind := BitVec.ofNat 2 kind, payload := p } }

/-! ## Ports (R393, R395) -/

def getLink (s : State) (k : Nat) : Link := spGet {} s.links k

def putLink (s : State) (k : Nat) (l : Link) : State := { s with links := spPut {} s.links k l }

/-- A flit leaves: it takes the next number and up to 63 of the credits owed, spends a credit of its channel unless it is idle, and is
kept until it is acknowledged. -/
def sendFlit (l : Link) (w : PortFlit) : Link × Flit :=
  let vc := w.flit.vc.toNat
  let (cvc, n) := l.owed.headD (0, 0)
  let f := { w.flit with fseq := l.tx, crd := BitVec.ofNat 6 (min 63 n), cvc := BitVec.ofNat 3 cvc }
  ({ l with tx := l.tx + 1, flits := l.flits + 1, kept := l.kept ++ [{ w with flit := f }],
            spent := if f.kind = 1#2 then l.spent else spPut 0 l.spent vc (spGet 0 l.spent vc + 1),
            owed := spPut 0 l.owed cvc (n - min 63 n) }, f)

/-- What waits at a port leaves in order, but what finds no credit, or stands behind something of its channel, or of its line, that
stays: the link, what has left, what stays. -/
def drainPort (k : Nat) : List (BitVec 3) → List Nat → Link → List PortFlit → Link × List Flit × List PortFlit
  | _, _, l, [] => (l, [], [])
  | vcs, lines, l, w :: ws =>
    if vcs.contains w.flit.vc || w.line.any lines.contains ||
       decide (Config.initialCredits k w.flit.vc.toNat ≤ spGet 0 l.spent w.flit.vc.toNat) then
      let r := drainPort k (w.flit.vc :: vcs) (w.line.toList ++ lines) l ws
      (r.1, r.2.1, w :: r.2.2)
    else
      let x := sendFlit l w
      let r := drainPort k vcs lines x.1 ws
      (r.1, x.2 :: r.2.1, r.2.2)

/-- Idle flits return the credits that are left. -/
def returnCredits (fill : List Byte) : Nat → Link → Link × List Flit
  | 0, l => (l, [])
  | n + 1, l =>
    if l.owed.isEmpty then (l, [])
    else
      let x := sendFlit l { line := none, flit := { vc := 5, sof := true, eof := true, kind := 1, payload := fill } }
      let r := returnCredits fill n x.1
      (r.1, x.2 :: r.2)

/-- What a link can send now: the link and the flits that leave. -/
def pumpLink (k : Nat) (fill : List Byte) (l : Link) : Link × List Flit :=
  let x := drainPort k [] [] l l.queue
  let y := returnCredits fill (x.1.owed.map fun o => o.2).sum { x.1 with queue := x.2.2 }
  (y.1, x.2.1 ++ y.2)

/-- A link changes, and sends what it can. -/
def pump (s : State) (k : Nat) (l : Link) : State :=
  let x := if l.up then pumpLink k (fillBytes s 56) l else (l, [])
  putLink { s with flitsOut := s.flitsOut ++ x.2.map fun f => (k, f) } k x.1

/-- Flits join the queue of a link. -/
def enqueue (s : State) (k : Nat) (ws : List PortFlit) : State :=
  let l := getLink s k
  pump s k { l with queue := l.queue ++ ws }

/-- Flits of a form that the spec does not give leave on a channel. -/
def sendOpen (s : State) (k kind vc n : Nat) : State :=
  enqueue { s with free := s.free + 1 } k (flitsFor kind vc none (payloads s n []))

/-- n flits of a channel are accepted on a link, and their slots are free again. -/
def acceptFlits (s : State) (k vc n : Nat) : State :=
  let l := getLink s k
  pump s k { l with rx := l.rx + BitVec.ofNat 8 n, owed := spPut 0 l.owed vc (spGet 0 l.owed vc + n) }

end Sys2Proof.Machine
end

