-- ==== Sys2Proof/Machine/Pattern.lean ====
section
/-! DEFINITION. The grid as a device sees it: GRIDDESC and GRIDSELF (R382 to R384), patterns (R385 to R388) and planes (R396, R397). -/

namespace Sys2Proof.Machine

/-! ## The grid's description -/

def gridAxes (s : State) : Nat := field s.sys.griddesc.toNat 2 0

/-- The size of an axis; 1 beyond the axis count (R288). -/
def gridSize (s : State) (a : Nat) : Nat :=
  if a < gridAxes s then field s.sys.griddesc.toNat (18 + 11 * a) (8 + 11 * a) + 1 else 1

/-- The device's own coordinate on an axis; 0 beyond the axis count (R288). -/
def gridCoord (s : State) (a : Nat) : Nat :=
  if a < gridAxes s then field s.sys.gridself.toNat (10 + 11 * a) (11 * a) else 0

/-- ⌈log2 n⌉ for n up to 2,048. -/
def ceilLog2 (n : Nat) : Nat := ((List.range 12).filter fun k => 2 ^ k < n).length

/-- The validity of R383. -/
def gridValid (s : State) : Bool :=
  let n := gridAxes s
  let d := s.sys.griddesc.toNat
  let g := s.sys.gridself.toNat
  1 ≤ n && n ≤ 5 &&
  (List.range 5).all (fun a => a < n || (field d (18 + 11 * a) (8 + 11 * a) == 0 && field g (10 + 11 * a) (11 * a) == 0)) &&
  ((List.range n).foldl (fun t a => t + ceilLog2 (gridSize s a)) 0) ≤ 20 &&
  (List.range n).all fun a => gridCoord s a < gridSize s a

/-- A coordinate as a list, axis 0 first. -/
def selfCoord (s : State) : List Nat := (List.range (gridAxes s)).map (gridCoord s)

def gridSizes (s : State) : List Nat := (List.range (gridAxes s)).map (gridSize s)

/-- Lin(c) of R384. -/
def linIndex (s : State) (c : List Nat) : Nat := (c.zip (gridSizes s)).foldl (fun t e => t * e.2 + e.1) 0

def selfLin (s : State) : Nat := linIndex s (selfCoord s)

/-- The coordinate of a linear index, last axis first peeled. -/
def coordOfRev : List Nat → Nat → List Nat
  | [], _ => []
  | n :: ns, x => coordOfRev ns (x / n) ++ [x % n]

def coordOf (s : State) (lin : Nat) : List Nat := coordOfRev (gridSizes s).reverse lin

def gridDevices (s : State) : Nat := (gridSizes s).foldl (· * ·) 1

/-! ## Patterns -/

def patMode (p a : Nat) : Nat := field p (24 * a + 1) (24 * a)
def patLo (p a : Nat) : Nat := field p (24 * a + 12) (24 * a + 2)
def patHi (p a : Nat) : Nat := field p (24 * a + 23) (24 * a + 13)
def patAxes (p : Nat) : Nat := field p 122 120
def patExself (p : Nat) : Bool := p.testBit 123

/-- Axis a of a pattern obeys R386. -/
def axisValid (s : State) (p a : Nat) : Bool :=
  match patMode p a with
  | 0 => patLo p a < gridSize s a && patHi p a == 0
  | 2 => patLo p a ≤ patHi p a && patHi p a < gridSize s a
  | _ => patLo p a == 0 && patHi p a == 0

/-- The validity of a pattern under GRIDDESC (R386). -/
def patValid (s : State) (p : Nat) : Bool :=
  let n := gridAxes s
  patAxes p == n && field p 127 124 == 0 &&
  (List.range 5).all fun a => if a < n then axisValid s p a else field p (24 * a + 23) (24 * a) == 0

/-- Whether the device at c matches a pattern that the device at e evaluates (R387). -/
def patMatches (p : Nat) (e c : List Nat) : Bool :=
  (List.range (patAxes p)).all fun a =>
    match patMode p a with
    | 0 => c.getD a 0 == patLo p a
    | 1 => true
    | 2 => patLo p a ≤ c.getD a 0 && c.getD a 0 ≤ patHi p a
    | _ => c.getD a 0 == e.getD a 0

def patExtent (s : State) (p a : Nat) : Nat :=
  match patMode p a with
  | 1 => gridSize s a
  | 2 => patHi p a - patLo p a + 1
  | _ => 1

/-- The raw count of R387. -/
def patRaw (s : State) (p : Nat) : Nat := (List.range (patAxes p)).foldl (fun t a => t * patExtent s p a) 1

/-- E as the device at e evaluates it (R387). -/
def patExpected (s : State) (p : Nat) (e : List Nat) : Nat :=
  if patExself p && patMatches p e e then patRaw s p - 1 else patRaw s p

/-- The rank of a matching device (R388). -/
def patRank (s : State) (p : Nat) (c : List Nat) : Nat :=
  (List.range (patAxes p)).foldl (fun t a =>
    let i := match patMode p a with
      | 1 => c.getD a 0
      | 2 => c.getD a 0 - patLo p a
      | _ => 0
    t * patExtent s p a + i) 0

/-- The root as the device at e sees it (R388). -/
def patRoot (p : Nat) (e : List Nat) : List Nat :=
  (List.range (patAxes p)).map fun a =>
    match patMode p a with
    | 1 => 0
    | 3 => e.getD a 0
    | _ => patLo p a

/-- Whether a pattern has a wildcard or range axis (R392, R401). -/
def patMulti (p : Nat) : Bool := (List.range (patAxes p)).any fun a => patMode p a == 1 || patMode p a == 2

/-- Whether a message with this pattern reaches the device at c from the issuer at e (R401). -/
def patReaches (p : Nat) (e c : List Nat) : Bool := patMatches p e c && !(patExself p && e == c)

/-! ## Planes -/

/-- The logical plane of a line (R396). -/
def planeOf (va : Nat) : Nat := field va 9 7 ^^^ field va 12 10 ^^^ field va 15 13 ^^^ field va 18 16

/-- The link of a line within its plane (R396). -/
def linkOf (va : Nat) : Nat := field va 21 19 ^^^ field va 24 22

def planeLive (s : State) (m : Nat) : Bool := s.sys.planemap.getLsbD (32 + m)

/-- The physical plane of a logical plane (R397). -/
def physOf (s : State) (k : Nat) : Option Nat :=
  let phys := field s.sys.planemap.toNat (4 * k + 2) (4 * k)
  ((List.range 8).map fun i => (phys + i) % 8).find? (planeLive s)

def livePlanes (s : State) : List Nat := (List.range 8).filter (planeLive s)

/-- Whether a pattern's logical plane for a line travels a plane that has failed (R525). -/
def planeFailed (s : State) (va : Nat) : Bool :=
  match physOf s (planeOf va) with
  | some m => s.deadPlanes.getLsbD m
  | none => true

end Sys2Proof.Machine
end

