-- ==== Sys2Proof/Machine/Send.lean ====
section
/-! DEFINITION. Sending grid messages (R392, R396 to R398, R400, R401, R403, R408, R482): where a message goes, what it is charged, and
what the grid interface holds while a plane has failed or a plane fence is in progress (R525, R526). -/

namespace Sys2Proof.Machine

/-! ## Where a message goes -/

/-- A message that answers its issuer: a reply, an acknowledgement or a refusal (R400). -/
def isAnswer (kind : Nat) : Bool := kind == 2 || kind == 5 || kind == 7 || kind == 9 || kind == 11

/-- A contribution, which goes to the root alone (R414, R418). -/
def isContribution (kind : Nat) : Bool := kind == 3 || kind == 6

/-- Whether a message of this device has the device itself among its destinations. -/
def goesHome (s : State) (g : GOut) : Bool :=
  let p := g.msg.pat.toNat
  let e := selfCoord s
  if isAnswer g.kind then g.msg.src == selfLin s
  else if isContribution g.kind then patRoot p e == e
  else patReaches p e e

/-- Whether it has another device among its destinations. -/
def goesOut (s : State) (g : GOut) : Bool :=
  let p := g.msg.pat.toNat
  let e := selfCoord s
  if isAnswer g.kind then g.msg.src != selfLin s
  else if isContribution g.kind then patRoot p e != e
  else patExpected s p e != bit (patReaches p e e)

/-- The virtual channel of a message (R392). -/
def vcOf (g : GOut) : Nat :=
  if g.kind = 0 ∨ g.kind = 8 then (if patMulti g.msg.pat.toNat then 2 else 0)
  else if g.kind = 1 then 0
  else if g.kind = 2 ∨ g.kind = 5 ∨ g.kind = 7 then 1
  else if g.kind = 3 ∨ g.kind = 4 ∨ g.kind = 6 then 3
  else 4

/-- The address whose line chooses a message's plane (R396): its own, or the completion word's where it names no element (R521). -/
def lineOf (g : GOut) : Nat := if g.msg.poison && isContribution g.kind then g.msg.cw else g.msg.addr

/-- The line whose requests a port keeps in order (R395). -/
def orderLine (g : GOut) : Option Nat := if isAnswer g.kind ∨ g.kind = 10 then none else some (lineOf g / 128)

/-- The plane that a message takes: its line's, or the one that a marker is for (R396, R398). -/
def planeFor (s : State) (g : GOut) : Option Nat := if g.kind = 10 then some g.msg.part else physOf s (planeOf (lineOf g))

/-- The link that a message takes: its line's, or its source's for a marker (R396, R398), or the next live one of the plane in
cyclic order (R523). -/
def linkFor (s : State) (g : GOut) : Option Nat :=
  let first := if g.kind = 10 then g.msg.src % 8 else linkOf (lineOf g)
  (planeFor s g).bind fun m => ((List.range 8).map fun i => 8 * m + (first + i) % 8).find? fun k => (getLink s k).up

/-- The flits of a message. -/
def flitCount (g : GOut) : Nat := (payloadBytes g + 55) / 56

/-! ## Leaving the device -/

/-- The operation of a message of this device takes a plane. -/
def noteTravel (s : State) (g : GOut) : List GridOp :=
  if isAnswer g.kind then s.gridOps
  else s.gridOps.map fun o => if o.tag = g.msg.tag then { o with planes := (o.planes ++ (planeFor s g).toList).eraseDups } else o

/-- A message leaves on its link: its flits wait there for credit. -/
def leave (s : State) (g : GOut) : State :=
  let s := { s with outbox := s.outbox ++ [g], gridOps := noteTravel s g, free := s.free + 1 }
  match linkFor s g with
  | some k => enqueue s k (flitsFor 0 (vcOf g) (orderLine g) (payloads s (flitCount g) (msgBytes g)))
  | none => s

/-- What waits at the router port leaves: a combined request as one, with its combine records kept here (R403). -/
def leavePort (s : State) (t : CombTree) : State :=
  let r := match t with
    | .one _ => []
    | .two _ _ m => [{ tag := m.tag, part := m.part, tree := t, far := false : Relay }]
  leave { s with combOut := s.combOut ++ r } (treeOut t)

def flushPort (s : State) : State := s.portOut.foldl leavePort { s with portOut := [] }

/-- A message reaches the port on its way out. A request that may combine can find the port busy, which is free (R403); nothing
overtakes a waiting request of its line (R395). -/
def toPort (s : State) (g : GOut) : State :=
  if combinable g ∧ (choose s 2).1 = 1 then { s with free := s.free + 1, portOut := combineInto true g 64 s.portOut }
  else leave (if !isAnswer g.kind && s.portOut.any (sameSourceLine g.msg) then flushPort s else s) g

/-! ## Release markers (R186, R398) -/

/-- The release markers of a released write, one for each plane that is live when it is sent (R398). -/
def markersOf (s : State) (g : GOut) : List GOut :=
  (livePlanes s).map fun m => { kind := 10, msg := { g.msg with bytes := [], element := 0, compare := 0, part := m } }

/-- A released write carries the number of markers to expect (R398). -/
def stamp (s : State) (g : GOut) : GOut :=
  if g.msg.markers = 0 then g else { g with msg := { g.msg with markers := (livePlanes s).length } }

/-- The earlier operations of its pack that a released write must follow. -/
def earlierOps (s : State) (tag : Nat) : List GridOp :=
  match s.gridOps.find? fun o => o.tag == tag with
  | none => []
  | some o => s.gridOps.filter fun x =>
      x.blk == o.blk && x.pidx == o.pidx && x.pos == o.pos && !x.poisoned && decide (x.op < o.after) && x.tag != o.tag

/-- Whether a message of an operation still waits at this device as its own destination. -/
def waitsHere (s : State) (tag : Nat) : Bool :=
  let mine (m : GMsg) : Bool := m.src == selfLin s && m.tag == tag
  (s.loop.any fun g => !isAnswer g.kind && mine g.msg) || (s.portIn.any fun g => mine g.msg) ||
  (s.comb.any fun t => (treeLeaves t).any mine) || s.landings.any mine

/-- A marker may not leave before what precedes its release on this device itself (R186): that crosses no plane. -/
def markerWaits (s : State) (g : GOut) : Bool := (earlierOps s g.msg.tag).any fun o => waitsHere s o.tag

/-- A marker leaves, or waits. -/
def sendMarker (s : State) (g : GOut) : State :=
  if markerWaits s g then { s with markersDue := s.markersDue ++ [g] } else leave s g

/-- The markers that need not wait any longer leave, in order. -/
def releaseMarkers (s : State) : State := s.markersDue.foldl sendMarker { s with markersDue := [] }

def dueMarkers (s : State) : Bool := s.markersDue.any fun g => !markerWaits s g

/-! ## Charges (R408) -/

/-- Bytes sent (counter 7) or received (counter 8) over the fabric (R103, R473). -/
def chargeFabric (s : State) (region n : Nat) (received : Bool) : State :=
  count (charge s unitGrid 5 region n) unitGrid region (if received then 8 else 7) n

/-- The markers of a write, with their bytes charged to the region of its operation. -/
def sendMarkers (s : State) (g : GOut) : State :=
  let region := (s.gridOps.find? fun o => o.tag == g.msg.tag).map fun o => o.region
  (markersOf s g).foldl (fun s m =>
    sendMarker (match region with
      | some r => chargeFabric s r (payloadBytes m) false
      | none => s) m) s

/-- A message is sent to each of its destinations, the issuer itself by the loop of R482; the markers of a release go with its first
part. -/
def emit (s : State) (g : GOut) : State :=
  let s := if goesHome s g then { s with loop := s.loop ++ [g] } else s
  if goesOut s g then
    let g := stamp s g
    if g.msg.markers ≠ 0 ∧ g.msg.part = 0 then sendMarkers (toPort s g) g else toPort s g
  else s

/-! ## Holding -/

/-- A plane fence is in progress (R526): a host's write of PLANEMAP, or a fragment at SRW, waits. -/
def fencePending (s : State) : Bool :=
  s.planeWrite.isSome || s.blocks.any fun b => b.packs.any fun p => p.frags.any fun f => f.wait == .planes

/-- A new message that the grid interface holds: during a plane fence, or while its plane has failed (R525, R526). -/
def isHeld (s : State) (g : GOut) : Bool :=
  !isAnswer g.kind && g.kind != 10 && (fencePending s || planeFailed s (lineOf g))

def route (s : State) (g : GOut) : State :=
  if isHeld s g then { s with heldMsgs := s.heldMsgs ++ [g] } else emit s g

/-- The held messages that may leave do so, in order. -/
def releaseHeld (s : State) : State :=
  s.heldMsgs.foldl route { s with heldMsgs := [] }

/-- A message of a region leaves. -/
def send (region : Nat) (s : State) (g : GOut) : State := route (chargeFabric s region (payloadBytes g) false) g

/-! ## Tags -/

/-- The smallest tag that no operation in flight has (R400), if the 16 bits have one. -/
def freeTag (s : State) : Option Nat :=
  (List.range (min (s.gridOps.length + 1) 65536)).find? fun t => !s.gridOps.any fun o => o.tag == t

def freshTag (s : State) : Nat := (freeTag s).getD 0

def putTag (t : Nat) (g : GOut) : GOut := { g with msg := { g.msg with tag := t } }

/-- The poisoned parts of a contribution leave on behalf of a pack (R521, R561): they count in no counter, and the operation
that awaits their acknowledgements only discards them. Where no tag is free, they wait. -/
def sendPoison (region : Nat) (s : State) (gs : List GOut) : State :=
  match gs, freeTag s with
  | [], _ => s
  | _, none => { s with poisonDue := s.poisonDue ++ [(region, gs)] }
  | g :: _, some t =>
    let o : GridOp := { tag := t, op := 0, blk := 0, pidx := 0, pos := 0, kind := g.kind, ctx := g.msg.ctx, linear := 0, region,
                        expect := gs.length, poisoned := true }
    (gs.map (putTag t)).foldl (send region) { s with gridOps := s.gridOps ++ [o] }

/-- The parts that wait for a tag. -/
def sendPoisonDue (s : State) : State := s.poisonDue.foldl (fun s x => sendPoison x.1 s x.2) { s with poisonDue := [] }

/-! ## Requests for a page that has moved to another device (R157, R158, R459) -/

/-- The region of a context at this device (R389, R450). -/
def regionOfCtx (s : State) (ctx : Nat) : Option Region := (ctxEntry s ctx).bind fun e => regionOf s e.2

/-- The pattern that names one device. -/
def patOne (s : State) (dest : Nat) : Nat :=
  let c := coordOf s dest
  (List.range (gridAxes s)).foldl (fun n a => n + c.getD a 0 * 2 ^ (24 * a + 2)) (gridAxes s * 2 ^ 120)

/-- The device to which a page has moved (R459). -/
def movedTo (s : State) (ctx va : Nat) : Option Nat :=
  (s.moved.find? fun m => m.ctx == ctx && m.va ≤ va && va < m.va + 2 ^ m.k).map fun m => m.dest

/-- A request leaves for its page's new home as one of this device, which awaits its answer for the address of a home slice's requester, or
for no one. -/
def sendOn (s : State) (kind dest : Nat) (m : GMsg) (home : Option Nat) : State :=
  let t := freshTag s
  let m := { m with pat := BitVec.ofNat 128 (patOne s dest), src := selfLin s, tag := t, nparts := 1, part := 0, markers := 0 }
  let region := (regionOfCtx s m.ctx).map fun r => r.rcb
  let o : GridOp := { tag := t, op := 0, blk := 0, pidx := 0, pos := 0, kind, ctx := m.ctx, linear := 0,
                      region := region.getD 0, expect := 1, poisoned := true, home }
  let g : GOut := { kind, msg := m }
  let s := { s with gridOps := s.gridOps ++ [o] }
  match region with
  | some r => send r s g
  | none => route s g

/-- A message that says no more than a context and an address. -/
def plainMsg (ctx addr : Nat) : GMsg :=
  { pat := 0, src := 0, ctx, tag := 0, gop := 0, width := 0, order := .plain, sys := false, mflag := false, poison := false, count := 0,
    key := 0, addr, nparts := 1, part := 0, cnt := 1, cw := 0, bytes := [], element := 0, compare := 0, lane := 0, refused := 0,
    first := 0, fvalid := false, code := 0, landing := 0, markers := 0 }

/-- A store, an atomic or a load of a moved page, as a grid operation of its kind (R459). -/
def farStore (s : State) (dest ctx va : Nat) (bs : List Byte) : State :=
  let o := va % 128
  sendOn s 0 dest { plainMsg ctx (va - o) with
    bytes := List.replicate o (false, 0) ++ bs.map (fun b => (true, b)) ++ List.replicate (128 - o - bs.length) (false, 0) } none

def farAtom (s : State) (dest ctx va w gop x c : Nat) (home : Option Nat) : State :=
  sendOn s 4 dest { plainMsg ctx va with gop, width := w.log2, element := x, compare := c } home

def farLoad (s : State) (dest ctx va w : Nat) (home : Option Nat) : State :=
  sendOn s 1 dest { plainMsg ctx va with width := w.log2 } home

/-! ## Plane fences (R526) -/

/-- An operation whose answers are the lanes' own. -/
def laneAnswers (o : GridOp) : Bool := (o.kind == 1 || o.kind == 4 || o.kind == 6) && !o.poisoned

/-- Whether everything that has been sent of an operation is acknowledged: of the lanes and of the parts of contributions all but those
that the interface holds; a destination acknowledges nothing of a GST or GCOPY of which a part is held. -/
def opQuiet (s : State) (o : GridOp) : Bool :=
  let held := s.heldMsgs.filter fun g => g.msg.tag == o.tag
  if laneAnswers o then o.lanes.all fun x => held.any fun g => g.msg.lane == x.1
  else if o.poisoned || o.kind == 3 then decide (o.expect ≤ o.got + held.length)
  else !held.isEmpty

/-- Every grid message that was sent has been acknowledged (R526). -/
def gridQuiet (s : State) : Bool := s.gridOps.all (opQuiet s)

/-- A link of a live plane returns to use. -/
def restoreLink (s : State) (ls : Sparse Link) (k : Nat) : Sparse Link :=
  if planeLive s (k / 8) then spPut {} ls k { spGet {} ls k with up := true, fails := 0 } else ls

/-- PLANEMAP takes effect: down links of live planes return to use, and the held messages leave under the new map. -/
def setPlanemap (s : State) (x : DWord) : State :=
  let s := { s with sys := { s.sys with planemap := x }, planeWrite := none }
  releaseHeld { s with
    links := (List.range 64).foldl (restoreLink s) s.links,
    deadPlanes := s.deadPlanes &&& ~~~ BitVec.ofNat 8 (field x.toNat 39 32) }

end Sys2Proof.Machine
end

