-- ==== Sys2Proof/Machine/HostRegs.lean ====
section
/-! DEFINITION. The device's registers: the system registers (R453, R454, R456, R526), the host-interface registers and the
mailbox (R449, R554, R555), and the host queues (R451, R452). -/

namespace Sys2Proof.Machine

/-- In the lehr state (R554). -/
def inLehr (s : State) : Bool := s.hi.histat.getLsbD 1

/-! ## System registers (R453) -/

/-- The bits of a register that are not reserved; none where SRW is reserved. -/
def sysMask (n : Nat) : Nat :=
  match n with
  | 0 => 2 ^ 57 - 2
  | 2 => 0x7FFFFFFFFFFFFF07
  | 3 => 2 ^ 55 - 1
  | 4 => 0x000000FF77777777
  | 5 => 0x1F
  | 6 => 2 ^ 64 - 1
  | 7 => 2 ^ 57 - 64
  | 8 => 2 ^ 57 - 64
  | 9 => 2 ^ 52 - 2 ^ 13
  | 10 => 2 ^ 52 - 2 ^ 20 + 1
  | 11 => 0x1F
  | 12 => 2 ^ 32 - 1
  | 13 => 3
  | _ => 0

/-- Whether a value lies in the range that the register's field gives (log 9). -/
def sysRangeOk (n x : Nat) : Bool :=
  match n with
  | 2 => x % 8 ≤ 5
  | 5 => 8 ≤ x && x ≤ 16
  | 11 => x ≤ 16
  | _ => true

/-- A write to a reserved field (R456). -/
def sysReserved (n x : Nat) : Bool := n == 1 || 13 < n || x &&& sysMask n != x || !sysRangeOk n x

/-- A device-wide register as a read sees it. -/
def sysGet (s : State) (n : Nat) : DWord :=
  match n with
  | 0 => s.sys.trapbase
  | 2 => s.sys.griddesc
  | 3 => s.sys.gridself
  | 4 => s.sys.planemap
  | 5 => s.sys.detq
  | 6 => s.sys.rngseed
  | 9 => s.sys.ertbase
  | 10 => s.sys.kennelcfg
  | 11 => s.sys.ovfdepth
  | 12 => s.sys.biascfg
  | 13 => s.sys.budgetcfg
  | _ => 0

/-- The device becomes reachable when software writes a valid GRIDSELF (R559). -/
def noteSelf (s : State) : State :=
  { s with selfWritten := true, unreachable := s.unreachable && !gridValid { s with selfWritten := true } }

/-- A device-wide register takes a value. -/
def sysPut (s : State) (n : Nat) (x : DWord) : State :=
  match n with
  | 0 => { s with sys := { s.sys with trapbase := x } }
  | 2 => { s with sys := { s.sys with griddesc := x } }
  | 3 => noteSelf { s with sys := { s.sys with gridself := x } }
  | 4 => setPlanemap s x
  | 5 => { s with sys := { s.sys with detq := x } }
  | 6 => { s with sys := { s.sys with rngseed := x } }
  | 9 => { s with sys := { s.sys with ertbase := x } }
  | 10 => { s with sys := { s.sys with kennelcfg := x } }
  | 11 => { s with sys := { s.sys with ovfdepth := x } }
  | 12 => { s with sys := { s.sys with biascfg := x } }
  | 13 => { s with sys := { s.sys with budgetcfg := x } }
  | _ => s

/-- A write of a PLANEMAP that changes a live bit or a phys field is a plane fence (R526). -/
def planeFence (s : State) (x : DWord) : Bool := s.sys.planemap != x

/-- A host write (R454): reserved bits are ignored, and a value outside the register's range; a plane fence waits until the
grid is quiet. -/
def hostSysWrite (s : State) (n : Nat) (x : Nat) : State :=
  let y := x &&& sysMask n
  if n = 1 ∨ n = 7 ∨ n = 8 ∨ 13 < n ∨ !sysRangeOk n y then s
  else if n = 4 ∧ planeFence s (BitVec.ofNat 64 y) ∧ ¬ gridQuiet s then { s with planeWrite := some (BitVec.ofNat 64 y) }
  else sysPut s n (BitVec.ofNat 64 y)

/-! ## Host queues (R451, R452) -/

def getQueue (s : State) (q : Nat) : HostQueue :=
  match s.hi.queues.find? fun h => h.q == q with
  | some h => h
  | none => { q }

def putQueue (s : State) (h : HostQueue) : State :=
  { s with hi := { s.hi with queues := h :: s.hi.queues.filter fun g => g.q != h.q } }

/-- HISTAT[3] says whether a queue error is pending (R449, R452). -/
def noteQueues (s : State) : State :=
  let bad := s.hi.queues.any fun h => h.stopped
  { s with hi := { s.hi with histat := if bad then s.hi.histat ||| 8 else s.hi.histat &&& ~~~ 8 } }

/-- A queue stops on an error: its bit of HQERR, where the register has one, and HISTAT[3]. -/
def stopQueue (s : State) (q : Nat) : State :=
  let s := putQueue s { getQueue s q with stopped := true }
  noteQueues { s with hi := { s.hi with hqerr := s.hi.hqerr ||| BitVec.ofNat 64 (2 ^ q) } }

/-- The descriptor of a host queue (R451): slog, ring, RCB, and where the consumer index goes. -/
def queueDesc (s : State) (q : Nat) : Option (Nat × Nat × Nat × Nat) :=
  if s.hi.hqtab.getLsbD 0 then
    let d := gReadNat s (field s.hi.hqtab.toNat 51 12 * 4096 + 32 * q) 32
    let slog := field d 5 1
    if d % 2 = 1 ∧ 1 ≤ slog ∧ slog ≤ 16 ∧ field d 11 6 = 0 ∧ field d 63 52 = 0 ∧ field d 127 108 = 0 ∧
       field d 255 192 = 0 ∧ field d 130 128 = 0 then
      some (slog, field d 51 12 * 4096, field d 107 64 * 256, field d 191 128)
    else none
  else none

/-- One packet is read, the consumer index written, and the packet handed to the dispatcher. -/
def readPacket (q slog ring rcb cons : Nat) (s : State) : State :=
  let h := getQueue s q
  let pkt := gReadNat s (ring + 128 * (h.cons.toNat % 2 ^ slog)) 128
  let s := putQueue s { h with cons := h.cons + 1 }
  let s := gWriteNat s cons 8 (h.cons + 1).toNat
  { s with arriving := s.arriving ++ [{ packet := BitVec.ofNat 1024 pkt, source := .queue q rcb }] }

/-- A doorbell (R452). -/
def doorbell (s : State) (q : Nat) (p : Word) : State :=
  let h := getQueue s q
  if h.stopped then s
  else
    match queueDesc s q with
    | none => stopQueue s q
    | some (slog, ring, rcb, cons) =>
      let n := (p - h.cons).toNat
      if 2 ^ slog < n then stopQueue s q
      else (List.range n).foldl (fun s _ => readPacket q slog ring rcb cons s) (putQueue s { h with target := p })

/-- Clearing bits of HQERR lets their queues read again (R452). -/
def hqerrWrite (s : State) (mask : DWord) : State :=
  let hi := { s.hi with hqerr := s.hi.hqerr &&& ~~~ mask,
                        queues := s.hi.queues.map fun h => if mask.getLsbD h.q then { h with stopped := false } else h }
  noteQueues { s with hi := hi }

/-! ## The registers at their offsets (R449, R555) -/

/-- The mailbox (R555). -/
def mailbox (s : State) (off : Nat) : Nat :=
  if 0x2100 ≤ off ∧ off < 0x3000 then
    let e := (s.hi.mblog.getD ((off - 0x2100) / 16) 0).toNat
    if off % 16 = 0 then e % 2 ^ 64 else e / 2 ^ 64
  else
    match off with
    | 0x2000 => s.hi.mbstat.toNat
    | 0x2008 => s.hi.mbrepair.toNat
    | 0x2010 => s.hi.mbce.toNat
    | 0x2018 => s.hi.mbue.toNat
    | 0x2020 => s.hi.mbfabric.toNat
    | 0x2028 => s.hi.mbnet.toNat
    | 0x2030 => s.hi.mbrefuse.toNat
    | 0x2038 => s.hi.mbhost.toNat
    | 0x2040 => s.hi.mbreset.toNat
    | 0x2048 => s.hi.mblost.toNat
    | _ => 0

/-- A register, at an offset that is a multiple of 8. -/
def hostReg (s : State) (off : Nat) : Nat :=
  if 0x2000 ≤ off ∧ off < 0x3000 then mailbox s off
  else if off = 0 then Config.hiid.toNat
  else if off = 8 then s.hi.histat.toNat
  else if inLehr s then 0
  else if 0x400 ≤ off ∧ off < 0x480 then (sysGet s ((off - 0x400) / 8)).toNat
  else
    match off with
    | 0x10 => s.hi.ctxtab.toNat
    | 0x18 => s.hi.hqtab.toNat
    | 0x20 => s.hi.hqerr.toNat
    | 0x28 => s.hi.biastab.toNat
    | _ => 0

/-- The PCIe configuration header as far as the spec gives it (R1): the Revision ID, in the byte at offset 8 (log 68). -/
def pcieHeader (off : Nat) : Option Byte := if off = 8 then some Config.revisionId else none

/-- The bits of CTXTAB, HQTAB and BIASTAB that are not reserved. -/
def tabMask : BitVec 64 := 0x000FFFFFFFFFF001

/-- A write of a register; reserved bits, read-only registers and reserved offsets ignore it (R14, R449). -/
def hostRegPut (s : State) (off : Nat) (x : DWord) : State :=
  if inLehr s then s
  else if 0x400 ≤ off ∧ off < 0x480 then hostSysWrite s ((off - 0x400) / 8) x.toNat
  else if 0x1000 ≤ off ∧ off < 0x1800 then doorbell s ((off - 0x1000) / 8) (x.setWidth 32)
  else
    match off with
    | 0x10 => { s with hi := { s.hi with ctxtab := x &&& tabMask } }
    | 0x18 => { s with hi := { s.hi with hqtab := x &&& tabMask } }
    | 0x20 => hqerrWrite s x
    | 0x28 => { s with hi := { s.hi with biastab := x &&& tabMask } }
    | _ => s

/-! ## Device code's accesses to them -/

def isReg (pa : Nat) : Bool := tierOf pa == some .registers

/-- The n bytes, n up to 16, at a register address (log 10). -/
def regRead (s : State) (pa n : Nat) : List Byte :=
  let off := pa - 0x022000000000
  (List.range n).map fun i =>
    let o := off + i
    BitVec.ofNat 8 (hostReg s (o / 8 * 8) / 2 ^ (8 * (o % 8)))

/-- A write narrower than a register keeps the other bytes as they read (log 10); of a write-one-to-clear register they are
zero. -/
def regWrite (s : State) (pa : Nat) (bs : List Byte) : State :=
  let off := pa - 0x022000000000
  (List.range ((off + bs.length - 1) / 8 - off / 8 + 1)).foldl (fun s k =>
    let o := (off / 8 + k) * 8
    let old := if o = 0x20 then 0 else hostReg s o
    let bytes := (leBytes 8 old).mapIdx fun i b => if off ≤ o + i then bs.getD (o + i - off) b else b
    hostRegPut s o (BitVec.ofNat 64 (ofLeBytes bytes))) s

end Sys2Proof.Machine
end

