-- ==== Sys2Proof/Machine/Ops.lean ====
section
/-! DEFINITION. The operations that every instruction shares: the issuing fragment, the join check and the split (R43, R46, R47),
retirement (R97, R98, R100, R111), TAKING A TRAP and escalation (R484 to R500), the return from the handler (R496), and the
frame that turns a meaning into a step (`issue`). -/

namespace Sys2Proof.Machine

/-! ## The issuing fragment -/

def issuerAt (s : State) (r : FragRef) : Option Issuer :=
  match getBlock s r.blk with
  | none => none
  | some b =>
    match getPack b r.pidx r.pos, getLaunch s b.launch with
    | some p, some l =>
      (match getFrag p r.frag with
       | some f => some { ref := r, b, p, f, l }
       | none => none)
    | _, _ => none

/-- The issuer at a fragment as the state now has it, or as it was. -/
def refresh (s : State) (e : Issuer) : Issuer := (issuerAt s e.ref).getD e

def inSup (f : Fragment) : Bool := f.frame.isSome

/-- Puts a pack into the issuer's block. -/
def putPack (s : State) (blk : Nat) (p : Pack) : State :=
  match getBlock s blk with
  | none => s
  | some b => setBlock s (setPack b p)

/-- Puts a fragment into its pack. -/
def putFrag (s : State) (r : FragRef) (f : Fragment) : State :=
  match getBlock s r.blk with
  | none => s
  | some b =>
    match getPack b r.pidx r.pos with
    | none => s
    | some p => setBlock s (setPack b (setFrag p r.frag f))

def sliceOf (p : Pack) (k : Nat) : Slice := p.slices.getD k { lanes := [], mask := 0, live := 0 }

/-- The live slices of a pack (R46). -/
def liveSlices (p : Pack) : List Nat := (List.range p.slices.length).filter fun k => (sliceOf p k).live != 0

/-- A set of slices as a 16-bit mask. -/
def sliceMask (ks : List Nat) : BitVec 16 := BitVec.ofNat 16 (ks.foldl (fun m k => m ||| 2 ^ k) 0)

/-- Whether a fragment holds every live slice of its pack. -/
def holdsAll (p : Pack) (f : Fragment) : Bool := (liveSlices p).all fun k => f.slices.getLsbD k

/-- The lanes whose lane-mask bit is set in the fragment's slices, ascending. -/
def maskLanes (p : Pack) (f : Fragment) : List Nat :=
  (List.range p.width).filter fun l => f.slices.getLsbD (l / 4) && (sliceOf p (l / 4)).mask.getLsbD (l % 4)

/-- The lanes that have not exited in the fragment's slices, ascending. -/
def liveLanes (p : Pack) (f : Fragment) : List Nat :=
  (List.range p.width).filter fun l => f.slices.getLsbD (l / 4) && (sliceOf p (l / 4)).live.getLsbD (l % 4)

def lanesMask (ls : List Nat) : BitVec 64 := BitVec.ofNat 64 (ls.foldl (fun m l => m ||| 2 ^ l) 0)

/-- The issue slots of an instruction (R97). -/
def slotsOf (f : Fragment) : Nat :=
  if 8 < ((List.range 16).filter fun k => f.slices.getLsbD k).length then 2 else 1

/-! ## The join check and the split (R43, R46, R47) -/

/-- The join check of one slice: its next PC and its mask and stack there. -/
def joinCheck : Nat → DWord → Slice → DWord × Slice
  | 0, pc, sl => (pc, sl)
  | n + 1, pc, sl =>
    match sl.stack with
    | [] => (pc, sl)
    | e :: rest =>
      if sl.mask = 0 ∨ pc = e.join then
        if e.pend ≠ 0 then joinCheck n e.pendPc { sl with mask := e.pend, stack := { e with pend := 0 } :: rest }
        else joinCheck n e.join { sl with mask := e.saved, stack := rest }
      else (pc, sl)

/-- The first free entry of the split table. -/
def freeEntry (p : Pack) : Nat := (p.frags.findIdx? fun f => f.st == .free).getD p.frags.length

def putEntry (p : Pack) (i : Nat) (f : Fragment) : Pack :=
  if i < p.frags.length then setFrag p i f else { p with frags := p.frags ++ [f] }

def freeFrag : Fragment := { pc := 0, slices := 0, st := .free }

/-- Groups (slice, PC) pairs by PC, in the order of their first slices. -/
def groupPcs : Nat → List (Nat × DWord) → List (DWord × List Nat)
  | 0, _ => []
  | _, [] => []
  | n + 1, (k, pc) :: l =>
    (pc, k :: ((l.filter fun e => e.2 == pc).map (·.1))) :: groupPcs n (l.filter fun e => e.2 != pc)

/-- A part of a fragment that splits: those of its slices, at a PC. DESIGN CHOICE (log 66): inside a HOLD burst each part goes on with
the burst, and with what the burst saved of its own slices. -/
def partOf (f : Fragment) (all ks : List Nat) (pc : DWord) : Fragment :=
  { f with pc, slices := sliceMask ks,
           burst := f.burst.map fun u => { u with snap := { u.snap with
             slices := ((all.zip u.snap.slices).filter fun x => ks.contains x.1).map fun x => x.2 } } }

/-- The slices of a fragment come to their next PCs: the join check runs for each that has a live lane, and the fragment splits into
one per PC (R43, R46, R47, R49). A slice that has exited stays with the first of them, for the flags it carries (R204, R316); a
fragment with no live lane is gone. -/
def settleFrag (tick : Nat) (p : Pack) (i : Nat) (next : Nat → DWord) : Pack :=
  match getFrag p i with
  | none => p
  | some f =>
    let all := fragSlices p f
    let ks := all.filter fun k => (sliceOf p k).live != 0
    let moved := ks.map fun k => (k, joinCheck 10 (next k) (sliceOf p k))
    let p := { p with slices := moved.foldl (fun l e => l.set e.1 e.2.2) p.slices }
    match groupPcs 16 (moved.map fun e => (e.1, e.2.1)) with
    | [] => setFrag p i freeFrag
    | (pc, g) :: rest =>
      let p := setFrag p i (partOf f all (g ++ all.filter fun k => (sliceOf p k).live == 0) pc)
      rest.foldl (fun p e =>
        putEntry p (freeEntry p) { partOf f all e.2 e.1 with running := false, slots := 0, since := tick }) p

/-! ## Retirement -/

/-- Whether an instruction counts on the logical clock: all but handler instructions of a deterministic launch (R111, R504). -/
def counts (l : Launch) (sup : Bool) : Bool := !(l.det && sup)

/-- The logical clock counts one; a deterministic pack that
reaches its boundary outside a burst ends its quantum. -/
def countClock (l : Launch) (sup bursting : Bool) (p : Pack) : Pack :=
  if !counts l sup then p
  else
    let p := { p with lclock := p.lclock + 1 }
    if l.det && !bursting && p.quantumEnd ≤ p.lclock then { p with ended := true } else p

/-- A result-producing instruction shifts the latches (R100). -/
def shiftLatches (ls : List Latch) (bursting : Bool) (res : Option (Sparse (BitVec 128))) : List Latch :=
  match res with
  | none => ls
  | some v => ({ vals := v, valid := true, inBurst := bursting } :: ls).take 8

/-- Charges an instruction's issue slots (R97, R103, R473). -/
def chargeIssue (s : State) (e : Issuer) : State :=
  count (charge s e.b.core 0 e.l.region (slotsOf e.f)) e.b.core e.l.region 0 (slotsOf e.f)

/-- What becomes of a burst when one of its instructions retires. -/
def burstNext (f : Fragment) : Fragment :=
  match f.burst with
  | none => f
  | some u =>
    if u.left ≤ 1 then { f with burst := none, latches := f.latches.map fun l => { l with inBurst := false } }
    else { f with burst := some { u with left := u.left - 1 } }

/-- A burst keeps what it has counted on the clock, for its discard to take back. -/
def countIn (counted : Bool) (u : Burst) : Burst := { u with count := u.count + bit counted }

/-- The instruction of `len` bytes at the fragment retires. -/
def retire (s : State) (e : Issuer) (len : Nat) (r : Retire) : State :=
  match issuerAt s e.ref with
  | none => chargeIssue s e
  | some e' =>
    let f := e'.f
    let bursting := f.burst.isSome
    let f := burstNext { f with latches := shiftLatches f.latches bursting r.res }
    let f := match r.hold with
      | some n => { f with burst := some { pc := f.pc, left := n, snap := takeSnapshot e'.p e'.f } }
      | none => f
    let f := { f with burst := f.burst.map (countIn (counts e'.l (inSup f))) }
    let f := { f with slots := f.slots + slotsOf e.f, octs := if f.octPc = f.pc then 0 else f.octs, pub := false, wait := .none,
                       st := .ready, phase := none, evicts := none }
    let f := if r.endRun then { dropLatches f with slots := 64, since := s.tick } else f
    let p := countClock e'.l (inSup f) f.burst.isSome (setFrag e'.p e.ref.frag f)
    let next := f.pc + BitVec.ofNat 64 len
    let p := settleFrag s.tick p e.ref.frag fun k => (spFind? r.jump k).getD next
    chargeIssue (putPack s e.ref.blk p) e

/-! ## Traps -/

/-- Whether a cause enters the handler (R489). -/
def vectors (cause : Nat) : Bool := cause == 0x01 || cause == 0x02 || cause == 0x13 || cause == 0x14

/-- FAULTCAUSE (R486). -/
def faultCause (t : TrapInfo) (nested : Bool) : Nat :=
  t.cause % 256 + 256 * bit t.burst + 512 * bit t.octet + 1024 * bit nested + 2048 * bit t.reload

/-- The poisoned parts that a fragment stopped at a GRED or GSCAN sends (R521). -/
def poisonOf (f : Fragment) : List GOut :=
  (match f.frame with
   | some fr => fr.info.poison
   | none => []) ++
  (match f.held with
   | some t => t.poison
   | none => [])

/-- What the fragments of a block that escalation stops still send. -/
def blockPoison (s : State) (b : Block) : State :=
  let (_, region) := blockCtx s b
  (b.packs.flatMap fun p => p.frags.map poisonOf).foldl (sendPoison region) s

/-- A block is gone from its core and from the device. -/
def removeBlock (s : State) (bid : Nat) : State := { s with blocks := s.blocks.filter fun b => b.bid != bid }

/-- Every launch of a fault domain stops (R75, R497): its blocks are pre-empted and never resumed, its queued blocks removed. -/
def stopDomain (s : State) (domain : Nat) : State :=
  let ls := (s.launches.filter fun l => under s domain l.region).map fun l => l.lid
  let bs := s.blocks.filter fun b => ls.contains b.launch
  let s := bs.foldl (fun s b => if b.state = .resident then suspendBlock s b.bid else s) s
  let s := bs.foldl (fun s b => removeBlock (blockPoison s b) b.bid) s
  let s := flushWhere s fun h => under s domain h.rcb
  { s with launches := s.launches.filter (fun l => !ls.contains l.lid),
           cores := s.cores.map fun e => (e.1, { e.2 with queue := e.2.queue.filter fun q => !ls.contains q.1 }),
           cur := match s.cur with
             | some r => if bs.any (fun b => b.bid == r.blk) then none else some r
             | none => none }

/-- The address that an event reports: FAULTADDR of the lowest lane in FAULTMASK (R498). -/
def lowAddr (t : TrapInfo) : Nat :=
  match (List.range 64).find? fun l => t.lanes.getLsbD l with
  | some l => (spGet 0 t.addrs l).toNat
  | none => 0

/-- Escalation (R497) of a fault of a pack: the domain stops, and the escalation event is written. -/
def escalateAt (s : State) (region ctx pack linear : Nat) (t : TrapInfo) (nested : Bool) : State :=
  let domain := domainOf s 8 region
  let s := stopDomain s domain
  let s := sendPoison region s t.poison
  postTo s domain (eventRecord 2 t.cause ctx pack (faultCause t nested) linear t.pc.toNat (lowAddr t))

def escalate (s : State) (e : Issuer) (t : TrapInfo) (nested : Bool) : State :=
  escalateAt s e.l.region e.l.ctx (packId e.p) e.b.linear t nested

/-- What a slice brings into the handler (R485). -/
def saveSlice (sl : Slice) : SavedSlice :=
  { mask := sl.mask, stack := sl.stack, fpstat := sl.fpstat, preds := sl.lanes.map fun l => l.p }

/-- Entry into the handler (R485): the frame is saved, every live lane of the fragment's slices runs from TRAPBASE. -/
def enterHandler (s : State) (r : FragRef) (t : TrapInfo) : State :=
  match issuerAt s r with
  | none => s
  | some e =>
    let ks := fragSlices e.p e.f
    let fr : TrapFrame := { info := t, slices := e.f.slices, saved := ks.map fun k => saveSlice (sliceOf e.p k),
                            latches := e.f.latches, resume := e.f.pc }
    let slices := ks.foldl (fun l k => l.set k { sliceOf e.p k with mask := (sliceOf e.p k).live, stack := [] }) e.p.slices
    let f := { e.f with pc := s.sys.trapbase, latches := [], frame := some fr, st := .ready, wait := .none, gang := 0,
                        held := none, pub := false, phase := none, evicts := none }
    putPack s r.blk (setFrag { e.p with slices := slices } r.frag f)

/-- A fragment traps (R484, R487, R489, R490). An unfinished burst is discarded first (R500). The cause enters the handler, or is
held while another fragment of the pack is in its handler, or escalates. -/
def takeTrap (s : State) (e : Issuer) (t : TrapInfo) : State :=
  let (burst, left) := match e.f.burst with
    | some u => (true, u.left)
    | none => (false, 0)
  let t := { t with pc := e.f.pc, burst, left }
  let s := putPack s e.ref.blk (discardBurst e.p e.ref.frag)
  if inSup e.f ∨ ¬ vectors t.cause ∨ s.sys.trapbase = 0 then escalate s e t (inSup e.f)
  else if e.p.frags.any inSup then
    match issuerAt s e.ref with
    | some e' => putFrag s e.ref { e'.f with st := .parked, wait := .none, held := some t, since := s.tick, pub := false }
    | none => s
  else enterHandler s e.ref t

/-- A trap that names no lanes is raised by every active lane, with FAULTADDR zero (log 12). -/
def trapAll (e : Issuer) (lanes : List Nat) (cause : Nat) : TrapInfo :=
  { cause, lanes := lanesMask (if lanes.isEmpty then maskLanes e.p e.f else lanes) }

/-- A trap of lanes, each with its address. -/
def trapLanes (cause : Nat) (as : List (Nat × Nat)) : TrapInfo :=
  { cause, lanes := lanesMask (as.map (·.1)), addrs := as.foldl (fun l e => spPut 0 l e.1 (BitVec.ofNat 64 e.2)) [] }

/-- The traps that are to stop their domains do so (R497). -/
def takeDooms (s : State) : State :=
  s.doomed.foldl (fun s d => escalateAt s d.region d.ctx d.pack d.linear d.info false) { s with doomed := [] }

/-- The held trap of a pack that waited longest is delivered (R487): to the handler, or it escalates where TRAPBASE is zero by then
(R489). -/
def deliverHeld (s : State) (blk pidx pos : Nat) : State :=
  match getBlock s blk with
  | none => s
  | some b =>
    match getPack b pidx pos with
    | none => s
    | some p =>
      let held := (List.range p.frags.length).filterMap fun i =>
        match getFrag p i with
        | some f => f.held.map fun t => (f.since, i, t)
        | none => none
      match held with
      | [] => s
      | h :: hs =>
        let m := hs.foldl (fun m x => if x.1 < m.1 then x else m) h
        let r : FragRef := { blk, pidx, pos, frag := m.2.1 }
        if s.sys.trapbase = 0 then
          match issuerAt s r with
          | some e => escalate s e m.2.2 false
          | none => s
        else enterHandler s r m.2.2

/-- What is left of a mask stack when lanes have exited (R46). -/
def liveStack (live : BitVec 4) (l : List MaskEntry) : List MaskEntry :=
  l.map fun x => { x with pend := x.pend &&& live, saved := x.saved &&& live }

/-- The saved slices return (R485, R496), without the lanes that have exited in the handler (R46). -/
def restoreSlices (p : Pack) (ks : List Nat) (saved : List SavedSlice) : Pack :=
  { p with slices := (ks.zip saved).foldl (fun l e =>
      let sl := sliceOf p e.1
      l.set e.1 { sl with mask := e.2.mask &&& sl.live, stack := liveStack sl.live e.2.stack, fpstat := e.2.fpstat,
                          lanes := (sl.lanes.zip e.2.preds).map fun x => { x.1 with p := x.2 } }) p.slices }

/-- The return from the handler to an address (R496): the frame is restored, and the fragment is in user mode. The RETF itself
retires in the handler; a trap held meanwhile is delivered. -/
def returnTo (s : State) (e : Issuer) (fr : TrapFrame) (pc : DWord) : State :=
  let p := countClock e.l true false e.p
  let p := restoreSlices p (fragSlices e.p e.f) fr.saved
  let f := { e.f with pc, latches := fr.latches, frame := none, slots := e.f.slots + slotsOf e.f,
                      octs := if pc = fr.resume then e.f.octs else 0 }
  let p := setFrag p e.ref.frag f
  let p := settleFrag s.tick p e.ref.frag fun _ => pc
  deliverHeld (putPack (chargeIssue s e) e.ref.blk p) e.ref.blk e.ref.pidx e.ref.pos

/-- Whether a fragment may return from its handler (R496). -/
def frameMatches (e : Issuer) (fr : TrapFrame) : Bool :=
  e.f.slices == fr.slices && (fragSlices e.p e.f).all fun k => (sliceOf e.p k).stack.isEmpty

/-! ## From a meaning to a step -/

/-- The end of an instruction of `len` bytes. -/
def finish (s : State) (e : Issuer) (len : Nat) : Act → State
  | .ok s' r => retire s' e len r
  | .trap t => takeTrap s e t
  | .wait st w =>
    putFrag s e.ref { e.f with st, wait := w, since := s.tick, gang := 0 }
  | .endRun => putFrag s e.ref { e.f with slots := 64, since := s.tick }
  | .own s' => s'

/-- Whether an instruction may stand where it does in a burst (R274, R275). -/
def burstOk (f : Fragment) : BurstPlace → Bool
  | .any => true
  | .last => match f.burst with
    | some u => u.left == 1
    | none => true
  | .never => f.burst.isNone

/-- An instruction of `len` bytes issues: a place in a burst that R274 does not allow, or a supervisor instruction in user mode,
traps before anything else (R275, R489). -/
def issue (s : State) (len : Nat) (place : BurstPlace) (sup : Bool) (body : Issuer → Act) :
    Host.Outcome State Fault Refusal :=
  match s.cur with
  | none => .fault .noIssuer
  | some r =>
    match issuerAt s r with
    | none => .fault .noIssuer
    | some e =>
      if !burstOk e.f place then .next (takeTrap s e (trapAll e [] 0x05))
      else if sup && !inSup e.f then .next (takeTrap s e (trapAll e [] 0x06))
      else .next (finish s e len (body e))

/-- The same for an octet-level instruction, whose traps say so (R357, R486). -/
def octetTrap (t : TrapInfo) : TrapInfo := { t with octet := true }

def octetAct : Act → Act
  | .trap t => .trap (octetTrap t)
  | a => a

def issueOctet (s : State) (body : Issuer → Act) : Host.Outcome State Fault Refusal :=
  match s.cur with
  | none => .fault .noIssuer
  | some r =>
    match issuerAt s r with
    | none => .fault .noIssuer
    | some e =>
      if !burstOk e.f .last then .next (takeTrap s e (octetTrap (trapAll e [] 0x05)))
      else .next (finish s e 8 (octetAct (body e)))

/-! ## Events -/

/-- An event whose object is there has its effect. -/
@[always_inline, inline] def due (enabled : Bool) (s' : State) : Option State := if enabled then some s' else none

/-- What an event does: its effect, or nothing where it is no event of the state (log 22). -/
def occur (s : State) (r : Option State) : Host.Outcome State Fault Refusal := .next (r.getD s)

end Sys2Proof.Machine
end

