-- ==== Sys2Proof/Machine/Det.lean ====
section
/-! DEFINITION. Deterministic mode: buffered stores and their publication (R112, R321), loads (R114), the turn of a synchronising
operation (R113, R562), the quantum's end before an operation (R198); and the conditions that waiting fragments wait for (R78). -/

namespace Sys2Proof.Machine

/-! ## Packs of a launch -/

def packExited (p : Pack) : Bool := (liveSlices p).isEmpty

/-- The pack identifier (R111), for comparison. -/
def packIdent (b : Block) (p : Pack) : Nat := b.linear * 2 ^ 16 + p.pidx * 2 ^ 8 + p.pos

/-- Every pack of a launch that a started block holds. -/
def launchPacks (s : State) (lid : Nat) : List (Block × Pack) :=
  (s.blocks.filter fun b => b.launch == lid).flatMap fun b => b.packs.map fun p => (b, p)

/-- The lowest block linear id of a launch that has not started. -/
def firstUnstarted (s : State) (l : Launch) : Option Nat :=
  let queued := s.cores.flatMap fun e => (e.2.queue.filter fun q => q.1 == l.lid).map (·.2)
  let all := if l.next < launchBlocks l then l.next :: queued else queued
  match all with
  | [] => none
  | x :: xs => some (xs.foldl min x)

/-- The waits that R562 counts. -/
def detWait (f : Fragment) : Bool :=
  match f.st with
  | .regang => true
  | .pairing => true
  | .pfuse => true
  | .waiting =>
    match f.wait with
    | .cnt _ _ => true
    | .tags _ => true
    | .barrier _ _ => true
    | .popItem _ => true
    | .pushRoom _ => true
    | .ring _ _ _ => true
    | .word _ _ _ _ _ => true
    | .stashWord _ _ _ _ => true
    | .cword _ _ _ => true
    | .append _ => true
    | _ => false
  | _ => false

def liveFrags (p : Pack) : List Fragment := p.frags.filter fun f => f.st != .free

def waitsTurn (p : Pack) : Bool := p.frags.any fun f => f.st == .waiting && f.wait == .turn

/-- A pack waits for R112 and R113 (R562). -/
def packWaiting (p : Pack) : Bool := p.ended || waitsTurn p || (liveFrags p).all detWait

def syncStamp (p : Pack) : Nat := p.lclock + p.skew

/-- Whether (stamp, identifier) pairs stand in order. -/
def stampLt (a i b j : Nat) : Bool := a < b || (a == b && i < j)

/-- Whether it is a pack's turn: its stamp is least among the packs that do not wait and those that wait for their turn (R113;
log 13). -/
def turnOk (s : State) (l : Launch) (b : Block) (p : Pack) : Bool :=
  (launchPacks s l.lid).all (fun x =>
    packExited x.2 || (x.1.bid == b.bid && x.2.pidx == p.pidx && x.2.pos == p.pos) ||
    (packWaiting x.2 && !waitsTurn x.2) || stampLt (syncStamp p) (packIdent b p) (syncStamp x.2) (packIdent x.1 x.2)) &&
  match firstUnstarted s l with
  | some u => stampLt (syncStamp p) (packIdent b p) 0 (u * 2 ^ 16)
  | none => true

/-- Whether the issuer must have its turn: a user-mode synchronising operation of a deterministic launch (R113, R504). -/
def needsTurn (s : State) (e : Issuer) : Bool := e.l.det && !inSup e.f && !turnOk s e.l e.b e.p

/-- Buffered mode: user-mode code of a deterministic launch (R112, R504). -/
def buffered (e : Issuer) : Bool := e.l.det && !inSup e.f

/-- The pack ends its quantum at this instruction, which is tried again after the publication. -/
def forceRound (s : State) (e : Issuer) : Act :=
  .own (putPack s e.ref.blk
    (setFrag { e.p with ended := true } e.ref.frag { e.f with st := .waiting, wait := .round, since := s.tick, pub := true }))

/-- Whether an operation that reads memory must first end the quantum (R198). -/
def needsRound (e : Issuer) : Bool := buffered e && !e.f.pub

/-! ## Buffered stores and loads (R112, R114, R321) -/

def bufBytes (b : List BufOp) : Nat :=
  b.foldl (fun n o => match o with
    | .mem _ bs => n + bs.length
    | .stash _ bs => n + bs.length
    | .red _ w _ _ => n + w
    | .farMem _ _ bs => n + bs.length
    | .farRed _ _ w _ _ => n + w) 0

/-- The pack's own latest buffered store to a byte of global memory. -/
def bufMem (b : List BufOp) (pa : Nat) : Option Byte :=
  b.foldl (fun r o => match o with
    | .mem a bs => if a ≤ pa ∧ pa < a + bs.length then bs[pa - a]? else r
    | _ => r) none

def bufStash (b : List BufOp) (off : Nat) : Option Byte :=
  b.foldl (fun r o => match o with
    | .stash a bs => if a ≤ off ∧ off < a + bs.length then bs[off - a]? else r
    | _ => r) none

/-- The byte that published state and the earlier synchronising operations hold for a pack: a later operation's effect is not
seen (R114). That of the pack's own latest one is: R114 does not say whether it is ordered before itself (DESIGN CHOICE, log 74). -/
def detByte (s : State) (l : Launch) (last pa : Nat) : Byte :=
  match l.effects.find? fun x => x.pa == pa && last < x.seq with
  | some x => x.old
  | none => gByte s pa

/-- n bytes of global memory as a lane of the issuer loads them. -/
def laneBytes (s : State) (e : Issuer) (pa : Nat) : Nat → List Byte
  | 0 => []
  | n + 1 =>
    (if isReg pa then (regRead s pa 1).headD 0
     else if buffered e then (bufMem e.p.buf pa).getD (detByte s e.l e.p.lastSync pa)
     else gByte s pa) :: laneBytes s e (pa + 1) n

/-- n bytes of the stash as a lane of the issuer loads them. -/
def laneStash (e : Issuer) (b : Block) (off : Nat) : Nat → List Byte
  | 0 => []
  | n + 1 =>
    (if buffered e then (bufStash e.p.buf off).getD (stashByte b off) else stashByte b off) :: laneStash e b (off + 1) n

/-- An atomic's write is an effect of a synchronising operation (R114): the bytes that changed are recorded. -/
def noteEffect (s : State) (lid seq pa : Nat) (old new : List Byte) : State :=
  match getLaunch s lid with
  | none => s
  | some l =>
    setLaunch s { l with effects := l.effects ++ ((old.zip new).mapIdx fun i x => { seq, pa := pa + i, old := x.1, new := x.2 }) }

/-- The fills that accesses to stash ranges of a block trigger (R130): the physical lines. -/
def fillPas (s : State) (ctx : Nat) (sup : Bool) (b : Block) (ranges : List (Nat × Nat)) : List Nat :=
  ((ranges.flatMap fun r => boundLines b r.1 r.2).eraseDups).filterMap fun k => match fillNeed s ctx sup b k with
    | .ok (some pa) => some pa
    | _ => none

/-- The first of some accesses at which a region is held (R104): the unit and the activity. -/
def heldAmong (s : State) (region : Nat) (pas : List Nat) : Option (Nat × Nat) :=
  pas.findSome? fun pa =>
    if isReg pa then none
    else
      let (u, a) := memUnit pa
      if heldAt s u a region then some (u, a) else none

/-- An operation that a unit may hold (R104): it has its effect, or waits, and the unit may first report that (R548). -/
@[always_inline, inline] def admitAt (s : State) (region : Nat) (h : Option (Nat × Nat)) (t : State) : Option State :=
  match h with
  | none => some t
  | some (u, a) =>
    if !s.sys.budgetcfg.getLsbD 1 || (findUse s u a region).any fun x => x.posted then none else some (postHeld s u a region)

/-- Where the publication of a buffered operation is held (R104). -/
def opHeld (s : State) (bid ctx region : Nat) (o : BufOp) : Option (Nat × Nat) :=
  match o with
  | .mem pa _ => heldAmong s region [pa]
  | .red pa _ _ _ => heldAmong s region [pa]
  | .farMem _ _ _ => none
  | .farRed _ _ _ _ _ => none
  | .stash off bs =>
    match getBlock s bid with
    | none => none
    | some b => heldAmong s region (fillPas s ctx true b [(off, bs.length)])

/-- A buffered operation takes effect (R112, R321). -/
def publishOp (bid core ctx region linear : Nat) (s : State) (o : BufOp) : State :=
  match o with
  | .mem pa bs =>
    if isReg pa then regWrite s pa bs
    else if cutOff s pa then postMemoryError s region linear pa
    else coreWrite (chargeMem s region pa bs.length) core pa bs
  | .stash off bs => engineStash s ctx bid off bs []
  | .red pa w op d =>
    let s := l1DropRange (chargeMem s region pa w) core pa w
    if gPoisoned s pa w then postMemoryError s region linear pa else (memAtomic s pa w op.toNat d 0).1
  | .farMem dest va bs => farStore s dest ctx va bs
  | .farRed dest va w op d => farAtom s dest ctx va w op.toNat d 0 none

/-- Buffered operations in order, up to the first that is held. -/
def publishOps (bid core ctx region linear : Nat) : List BufOp → State → State × List BufOp
  | [], s => (s, [])
  | o :: os, s =>
    match opHeld s bid ctx region o with
    | some h => (postHeld s h.1 h.2 region, o :: os)
    | none => publishOps bid core ctx region linear os (publishOp bid core ctx region linear s o)

/-- The stores of a pack are published, unless those of an earlier pack are still held. -/
def publishPack (l : Launch) (t : State × Bool) (x : Block × Pack) : State × Bool :=
  if !t.2 then t
  else
    let r := publishOps x.1.bid x.1.core l.ctx l.region x.1.linear x.2.buf t.1
    ({ r.1 with blocks := r.1.blocks.map fun b =>
        if b.bid = x.1.bid then
          { b with packs := b.packs.map fun p => if p.pidx = x.2.pidx ∧ p.pos = x.2.pos then { p with buf := r.2 } else p }
        else b }, r.2.isEmpty)

def insertPack (x : Block × Pack) : List (Block × Pack) → List (Block × Pack)
  | [] => [x]
  | y :: l => if packIdent x.1 x.2 ≤ packIdent y.1 y.2 then x :: y :: l else y :: insertPack x l

/-- Packs in ascending pack identifier. -/
def sortPacks (l : List (Block × Pack)) : List (Block × Pack) := l.foldr insertPack []

/-- Whether the round of a launch is complete (R112, R562): every live pack has ended its quantum, waits or has exited, and no
turn is due (log 13). -/
def roundDone (s : State) (l : Launch) : Bool :=
  let ps := launchPacks s l.lid
  (firstUnstarted s l).isNone && ps.all (fun x => packExited x.2 || packWaiting x.2) &&
  ps.any (fun x => x.2.ended || !x.2.buf.isEmpty) &&
  !ps.any fun x => !packExited x.2 && !x.2.ended && waitsTurn x.2 && turnOk s l x.1 x.2

/-- Where the publication of a round is held: its first operation, by pack identifier and program order (R104). -/
def roundHeld (s : State) (l : Launch) : Option (Nat × Nat) :=
  match (sortPacks (launchPacks s l.lid)).find? fun x => !x.2.buf.isEmpty with
  | some x => opHeld s x.1.bid l.ctx l.region (x.2.buf.headD (.stash 0 []))
  | none => none

/-- Every pack of a launch is in its next quantum, and sees the round's stores. -/
def nextQuantum (s : State) (l : Launch) : State :=
  let s := { s with blocks := s.blocks.map fun b =>
    if b.launch = l.lid then
      { b with packs := b.packs.map fun p => { p with buf := [], ended := false, quantumEnd := p.quantumEnd + l.quantum } }
    else b }
  match getLaunch s l.lid with
  | some l => setLaunch s { l with effects := [] }
  | none => s

/-- The publication of a round (R112): every pack's stores, in ascending pack identifier; then every pack is in its next
quantum. Where a unit holds the region, the rest of them wait there, and every pack with them (R104). -/
def publishRound (s : State) (l : Launch) : State :=
  let t := (sortPacks (launchPacks s l.lid)).foldl (publishPack l) (s, true)
  if t.2 then nextQuantum t.1 l else t.1

/-! ## What waiting fragments wait for (R78) -/

def engClassOf (n : Nat) : EngClass :=
  match n with
  | 0 => .streamer
  | 1 => .drain
  | 2 => .grid
  | 3 => .net
  | _ => .copy

/-- A counter has room for one more operation (R277). -/
def hasRoom (p : Pack) (cls : Nat) (tag : Option Nat) : Bool :=
  classCount p (engClassOf cls) < 255 &&
  match tag with
  | some t => tagCount p t < 255
  | none => true

/-- The comparison of WAITC (R247, R341). -/
def waitcTest (sel w m x : Nat) : Bool :=
  match sel with
  | 0 => m == x
  | 1 => m != x
  | 2 => sval (8 * w) m < sval (8 * w) x
  | 3 => sval (8 * w) x ≤ sval (8 * w) m
  | 4 => m < x
  | 5 => x ≤ m
  | _ => m &&& x != 0

/-- A word at a physical address as a wait sees it. -/
def seeNat (s : State) (pa n : Nat) : Nat := if isReg pa then ofLeBytes (regRead s pa n) else gReadNat s pa n

/-- A stash word as its block sees it, an absent bound line through its backing. -/
def stashSee (s : State) (b : Block) (off n : Nat) : Nat :=
  if (boundLines b off n).all fun k => (lineAt b k).isSome then stashReadNat b off n
  else
    let (ctx, _) := blockCtx s b
    match xlate s ctx true .read (lineVa b (off / 128) + off % 128) with
    | .ok pa => gReadNat s pa n
    | .error _ => stashReadNat b off n

/-- Whether every block of lower linear id has claimed or ended on a stream (R116). -/
def appendTurn (l : Launch) (stream linear : Nat) : Bool :=
  let st := spGet {} l.streams stream
  (st.claimed.filter (· < linear)).length == linear

/-- The phase of a barrier that a pack waits for (R345). -/
def waitPhase (bar : Barrier) (p : Pack) : Nat :=
  match bar.arrivals.find? fun a => a.1 == packId p with
  | some a => a.2
  | none => bar.phase

/-- The slot of a ring is in the state that an instruction waits for (R370, R377): valid, or not valid. -/
def ringReady (b : Block) (tid slot mode : Nat) : Bool :=
  match b.rings.find? fun r => r.tid == tid with
  | some r =>
    match r.slots[slot]? with
    | some .valid => mode == 0
    | some _ => mode == 1
    | none => true
  | none => true

/-- Whether a MBMARK of a gate slot waits. -/
def markWaits (s : State) (slot : Nat) : Bool :=
  s.blocks.any fun b => b.packs.any fun p => p.frags.any fun f => f.wait == .mark slot

/-- Whether every GDISPATCH and MBMARK of a gate slot has completed (R425). -/
def gateFree (s : State) (slot : Nat) : Bool :=
  match spFind? s.gates slot with
  | none => true
  | some g => g.toClose.isEmpty && !(s.dispatches.any fun d => d.gate == slot) && !markWaits s slot

/-- Whether a MBMARK can take its step (R432): the shadow holds the update for batch j, and every tile task of batch j − 1 on this
device has ended. -/
def markFree (s : State) (slot : Nat) : Bool :=
  match spFind? s.gates slot with
  | none => true
  | some g => (g.j == 0 || g.shadowFor == g.j) && g.batches.all fun m => m.batch + 1 != g.j || (m.closeDone && m.live == 0)

/-- Whether an installed translation of the network engine covers what a wait is for, or an expert stands in an address's way
(R439, R457). -/
def netBusy (s : State) : Bool := s.sends.any fun q => q.begun

/-- Every slice that the fragments waiting at REGANG at an address name is there (R50, R271). -/
def regangReady (p : Pack) (f : Fragment) : Bool :=
  let at' := p.frags.filter fun g => g.st == .regang && g.pc == f.pc
  let named := at'.foldl (fun m g => m ||| g.gang) 0
  let there := at'.foldl (fun m g => m ||| g.slices) 0
  (liveSlices p).all fun k => !named.getLsbD k || there.getLsbD k

/-- An octet that has performed the matrix instruction at which a fragment stands, with another fragment. -/
def octDone (f : Fragment) (k : Nat) : Bool := f.octPc == f.pc && f.octs.getLsbD k

/-- Slice h of a fragment has a live lane. -/
def holdsLive (p : Pack) (f : Fragment) (h : Nat) : Bool := f.slices.getLsbD h && (sliceOf p h).live != 0

/-- The octets of a fragment: an exited slice drops out (R46). -/
def fragOctets (p : Pack) (f : Fragment) : List Nat :=
  (List.range 8).filter fun k => holdsLive p f (2 * k) || holdsLive p f (2 * k + 1)

/-- Each octet's slices stand at the fragment's instruction, which they have not performed, or have exited (R53). -/
def pairReady (p : Pack) (f : Fragment) : Bool :=
  (fragOctets p f).all fun k => octDone f k || [2 * k, 2 * k + 1].all fun h =>
    f.slices.getLsbD h || (sliceOf p h).live == 0 ||
    p.frags.any fun g => g.st != .free && g.pc == f.pc && g.slices.getLsbD h && !octDone g k

/-- The siblings of a sub-pack's innermost split (R61): the sub-packs of its block within the parent's lanes. -/
def siblings (b : Block) (p : Pack) : List Pack :=
  match p.hist with
  | [] => []
  | h :: _ => b.packs.filter fun q => q.pidx == p.pidx && h.pos ≤ q.pos && q.pos < h.pos + h.width / 8

/-- Whether a pack stands as a whole at PFUSE with its counters at zero, or has exited. -/
def fuseReady (h : SplitRec) (q : Pack) : Bool :=
  packExited q ||
  (q.hist.head? == some h && engIdle q && q.width == h.width / h.parts &&
   (liveFrags q).all fun g => g.st == .pfuse)

def allFused (b : Block) (p : Pack) : Bool :=
  match p.hist with
  | [] => true
  | h :: _ => (siblings b p).all (fuseReady h)

/-- No pass is in flight on the tiles that a matrix instruction waits for (R359). -/
def tilesQuiet (b : Block) (w : Wait) : Bool :=
  match w with
  | .tiles ts => b.passes.all fun p => !ts.contains p.tile
  | _ => true

/-- Whether the condition that a fragment waits for holds (R78). -/
def wakes (s : State) (b : Block) (p : Pack) (f : Fragment) : Bool :=
  match f.st with
  | .regang => regangReady p f
  | .pairing => pairReady p f && tilesQuiet b f.wait
  | .pfuse => allFused b p
  | .waiting =>
    match f.wait with
    | .none => true
    | .tiles ts => tilesQuiet b (.tiles ts)
    | .cnt c n => classCount p (engClassOf c) ≤ n
    | .tags m => (List.range 8).all fun t => !m.testBit t || tagCount p t == 0
    | .room c t => hasRoom p c t
    | .drained => engIdle p
    | .barrier i ph => (match getBar b i with
        | some x => x.phase != ph
        | none => true)
    | .popItem o => (match spFind? b.queues o with
        | some q => !q.elems.isEmpty
        | none => true)
    | .pushRoom o => (match spFind? b.queues o with
        | some q => q.elems.length < q.cap
        | none => true)
    | .ring t i m => ringReady b t i m
    | .word pa w c x _ => gPoisoned s pa w || waitcTest c w (seeNat s pa w) x
    | .stashWord o w c x => stashPoisoned b o w || waitcTest c w (stashSee s b o w) x
    | .cword pa t _ => t ≤ gReadNat s pa 4
    | .append i => (match getLaunch s b.launch with
        | some l => appendTurn l i b.linear
        | none => true)
    | .range lo hi => !scoreHit b lo hi
    | .entry => scoreUsed s b.core < Config.scoreEntries
    | .segment g => (coreOf s b.core).awake.getLsbD g
    | .gate i => gateFree s i
    | .mark _ => false
    | .markDone i => !markWaits s i
    | .turn => (match getLaunch s b.launch with
        | some l => turnOk s l b p
        | none => true)
    | .round => !p.ended
    | .translations => true
    | .planes => gridQuiet s
    | .budget u a => (match getLaunch s b.launch with
        | some l => !heldAt s u a l.region
        | none => true)
  | _ => false

/-- What a fragment that becomes ready still holds: the claim of R116 that it waited for. -/
def heldWait : Wait → Wait
  | .append i => .append i
  | _ => .none

/-- A fragment becomes ready. -/
def wakeFrag (s : State) (r : FragRef) : State :=
  match issuerAt s r with
  | none => s
  | some e => putFrag s r { e.f with st := .ready, wait := heldWait e.f.wait, gang := 0, since := s.tick }

/-- Every fragment of a block. -/
def blockFrags (b : Block) : List FragRef :=
  b.packs.flatMap fun p => (List.range p.frags.length).map fun i => { blk := b.bid, pidx := p.pidx, pos := p.pos, frag := i }

/-- A synchronising operation of a deterministic launch is done (R113): it takes its place in the order, and the packs that it
wakes take a stamp above its own. -/
def syncDone (s : State) (e : Issuer) : State :=
  if !buffered e then s
  else
    match issuerAt s e.ref with
    | none => s
    | some e' =>
      let s := setLaunch s { e'.l with seq := e'.l.seq + 1 }
      let s := putPack s e.ref.blk { e'.p with lastSync := e'.l.seq + 1 }
      ((s.blocks.filter fun b => b.launch == e.l.lid).flatMap blockFrags).foldl (fun s r =>
        match issuerAt s r with
        | none => s
        | some w =>
          if w.f.st = .waiting ∧ detWait w.f ∧ wakes s w.b w.p w.f then
            let s := wakeFrag s r
            (match issuerAt s r with
             | some x => putPack s r.blk { x.p with skew := max x.p.skew (syncStamp e'.p + 1 - x.p.lclock) }
             | none => s)
          else s) s

/-- The place in the order that the issuer's synchronising operation takes. -/
def syncSeq (e : Issuer) : Nat := e.l.seq + 1

end Sys2Proof.Machine
end

