-- ==== Sys2Proof/Machine/Flags.lean ====
section
/-! DEFINITION. FPSTAT (R203, R204, R301, R315): each slice's copy, and what an instruction's flags do to it. The flags of each
operation are computed beside its result (Machine/Num.lean). -/

namespace Sys2Proof.Machine

/-- A slice's copy takes flags that a lane of it raised. -/
def raiseSlice (p : Pack) (k flags : Nat) : Pack :=
  if flags = 0 then p
  else { p with slices := p.slices.modify k fun sl => { sl with fpstat := sl.fpstat ||| BitVec.ofNat 8 flags } }

/-- The flags that lanes raise, each into its slice's copy (R301). -/
def raiseLanes (p : Pack) (fs : List (Nat × Nat)) : Pack := fs.foldl (fun p x => raiseSlice p (x.1 / 4) x.2) p

/-- The flags of a result that is computed once, into every slice of the fragment (R301). -/
def raiseAll (p : Pack) (f : Fragment) (flags : Nat) : Pack := (fragSlices p f).foldl (fun p k => raiseSlice p k flags) p

/-- The OR of the copies that a fragment's slices hold (R204). -/
def fpstatOf (p : Pack) (f : Fragment) : BitVec 8 :=
  (fragSlices p f).foldl (fun m k => m ||| (sliceOf p k).fpstat) 0

/-- A change of every copy of a fragment (R315). -/
def modFpstat (p : Pack) (f : Fragment) (g : BitVec 8 → BitVec 8) : Pack :=
  (fragSlices p f).foldl (fun p k =>
    { p with slices := p.slices.modify k fun sl => { sl with fpstat := g sl.fpstat } }) p

end Sys2Proof.Machine
end

