-- ==== Sys2Proof/Machine/Operands.lean ====
section
/-! DEFINITION. Operands (R233 to R242, R488): registers with their banks, constants, latches, queues and predicates; the checks
that a use of one meets at issue; the write of a result; and `alu`, the frame of the instructions that only compute. -/

namespace Sys2Proof.Machine

/-! ## Registers -/

def laneAt (p : Pack) (l : Nat) : Lane := ((sliceOf p (l / 4)).lanes).getD (l % 4) {}

/-- The four lanes of a slice, with lane i changed. -/
def putLane (ls : List Lane) (i : Nat) (g : Lane → Lane) : List Lane :=
  (List.range 4).map fun j => if j = i then g (ls.getD j {}) else ls.getD j {}

def modLane (p : Pack) (l : Nat) (g : Lane → Lane) : Pack :=
  { p with slices := p.slices.modify (l / 4) fun sl => { sl with lanes := putLane sl.lanes (l % 4) g } }

/-- A vector register of a lane; in supervisor mode v120–v127 are the bank (R488). -/
def getV (sup : Bool) (p : Pack) (l r : Nat) : Word :=
  let ln := laneAt p l
  if sup && 120 ≤ r then spGet 0 ln.vb r else spGet 0 ln.v r

/-- A write also clears a register's error (R509). -/
def putV (sup : Bool) (l r : Nat) (x : Word) (p : Pack) : Pack :=
  let p := if p.badV.isEmpty then p else { p with badV := p.badV.filter fun b => b != (l, r, sup && 120 ≤ r) }
  modLane p l fun ln =>
    if sup && 120 ≤ r then { ln with vb := spPut 0 ln.vb r x } else { ln with v := spPut 0 ln.v r x }

def getS (sup : Bool) (p : Pack) (r : Nat) : Word :=
  if sup && 56 ≤ r then spGet 0 p.sb r else spGet 0 p.s r

def putS (sup : Bool) (r : Nat) (x : Word) (p : Pack) : Pack :=
  let p := if p.badS.isEmpty then p else { p with badS := p.badS.filter fun b => b != (r, sup && 56 ≤ r) }
  if sup && 56 ≤ r then { p with sb := spPut 0 p.sb r x } else { p with s := spPut 0 p.s r x }

/-- A pair of registers, low register first (R235). -/
def pairNat (lo hi : Word) : Nat := lo.toNat + 2 ^ 32 * hi.toNat

def getS64 (sup : Bool) (p : Pack) (r : Nat) : Nat := pairNat (getS sup p r) (getS sup p (r + 1))

def putS64 (sup : Bool) (r x : Nat) (p : Pack) : Pack :=
  putS sup (r + 1) (BitVec.ofNat 32 (x / 2 ^ 32)) (putS sup r (BitVec.ofNat 32 x) p)

def getV64 (sup : Bool) (p : Pack) (l r : Nat) : Nat := pairNat (getV sup p l r) (getV sup p l (r + 1))

/-- A predicate of a lane; p7 reads true (R241). -/
def getP (p : Pack) (l i : Nat) : Bool := i == 7 || (laneAt p l).p.getLsbD i

def setBit7 (x : BitVec 7) (i : Nat) (b : Bool) : BitVec 7 :=
  if b then x ||| BitVec.ofNat 7 (2 ^ i) else x &&& ~~~ BitVec.ofNat 7 (2 ^ i)

/-- A write to p7 is discarded (R237); another clears the predicate's error (R509). -/
def putP (l i : Nat) (b : Bool) (p : Pack) : Pack :=
  let p := if p.badP.isEmpty then p else { p with badP := p.badP.filter fun x => x != (l, i) }
  if i = 7 then p else modLane p l fun ln => { ln with p := setBit7 ln.p i b }

/-- n consecutive uniform registers as one number. -/
def getSRange (sup : Bool) (p : Pack) (r : Nat) : Nat → Nat
  | 0 => 0
  | n + 1 => (getS sup p r).toNat + 2 ^ 32 * getSRange sup p (r + 1) n

def putSRange (sup : Bool) (r x : Nat) : Nat → Pack → Pack
  | 0, p => p
  | n + 1, p => putSRange sup (r + 1) (x / 2 ^ 32) n (putS sup r (BitVec.ofNat 32 x) p)

/-- n consecutive vector registers of a lane take a number, lowest first. -/
def putVRange (sup : Bool) (l r x : Nat) : Nat → Pack → Pack
  | 0, p => p
  | n + 1, p => putVRange sup l (r + 1) (x / 2 ^ 32) n (putV sup l r (BitVec.ofNat 32 x) p)

/-! ## The active set (R41, R241) -/

def predTrue (p : Pack) (pr : Pred) (l : Nat) : Bool := getP p l pr.idx.toNat != pr.neg

def activeLanes (e : Issuer) (pr : Pred) : List Nat := (maskLanes e.p e.f).filter (predTrue e.p pr)

/-! ## Checks at issue -/

/-- A v register, or a run of n, lies below vregs, or in the supervisor's bank (R236). -/
def vOk (e : Issuer) (r n : Nat) : Bool :=
  (inSup e.f && 120 ≤ r && r + n ≤ 128) || r + n ≤ pkVregs (launchWord e.l)

def sOk (e : Issuer) (r n : Nat) : Bool :=
  (inSup e.f && 56 ≤ r && r + n ≤ 64) || r + n ≤ pkSregs (launchWord e.l)

/-- A latch read (R101). -/
def latchCause (e : Issuer) (k : Nat) : Option Nat :=
  let lt := e.f.latches[k]?
  let fresh := match lt with
    | some l => l.inBurst
    | none => false
  if e.l.det && e.l.strict && !fresh then some 0x0A
  else if (match lt with | some l => l.valid | none => false) then none
  else some 0x05

def qbindOf (p : Pack) (q : Nat) : Option QBind := p.qbind.find? fun b => b.q == q

/-- The misuse of a queue register that R71 gives: unbound, bound the other way, a fragment without all live slices, another
width. -/
def queueCause (e : Issuer) (q : Nat) (push : Bool) : Option Nat :=
  match qbindOf e.p q with
  | none => some 0x0C
  | some b =>
    if b.push != push || !holdsAll e.p e.f then some 0x0C
    else
      match spFind? e.b.queues b.off with
      | none => some 0x0C
      | some o => if o.width = e.p.width then none else some 0x0C

/-- Whether an error has lost a register that the fragment reads: in its mode's bank (R488, R509). -/
def badVec (e : Issuer) (l r : Nat) : Bool := e.p.badV.contains (l, r, inSup e.f && 120 ≤ r)

def badUni (e : Issuer) (r : Nat) : Bool := e.p.badS.contains (r, inSup e.f && 56 ≤ r)

/-- A register error that a read finds (R509). -/
def badRead (e : Issuer) (act : List Nat) (o : Opnd) : Bool :=
  match o.src with
  | .v r => !e.p.badV.isEmpty && act.any fun l => badVec e l r.toNat || (o.wide && badVec e l (r.toNat + 1))
  | .s r => !e.p.badS.isEmpty && (badUni e r.toNat || (o.wide && badUni e (r.toNat + 1)))
  | _ => false

/-- The cause that a source raises at issue: a register out of range, a queue code where none may stand (R275, R488), a latch, a
misused queue. An instruction without active lanes performs no queue operation (R70). -/
def srcCause (e : Issuer) (act : List Nat) (o : Opnd) : Option Nat :=
  match o.src with
  | .v r => if vOk e r.toNat (1 + bit o.wide) then none else some 0x05
  | .s r => if sOk e r.toNat (1 + bit o.wide) then none else some 0x05
  | .b k => latchCause e k.toNat
  | .q q => if inSup e.f || e.f.burst.isSome then some 0x05 else if act.isEmpty then none else queueCause e q.toNat false
  | _ => none

def dstCause (e : Issuer) (act : List Nat) (d : Dst) (n : Nat) : Option Nat :=
  match d with
  | .v r => if vOk e r.toNat n then none else some 0x05
  | .s r => if sOk e r.toNat n then none else some 0x05
  | .q q => if inSup e.f || e.f.burst.isSome then some 0x05 else if act.isEmpty then none else queueCause e q.toNat true
  | _ => none

/-- The first cause of a list. -/
def firstCause (l : List (Option Nat)) : Option Nat := l.findSome? id

/-- The cause of an instruction's operands, illegal encodings first, then queue misuse, then register errors. -/
def operandCause (e : Issuer) (act : List Nat) (srcs : List Opnd) (d : Dst) (n : Nat) : Option Nat :=
  let cs := dstCause e act d n :: srcs.map (srcCause e act)
  if cs.contains (some 0x05) then some 0x05
  else
    match firstCause cs with
    | some c => some c
    | none => if srcs.any (badRead e act) then some 0x0E else none

/-- The queue registers that an instruction reads, each once (R70). -/
def popsOf (srcs : List Opnd) : List Nat :=
  (srcs.filterMap fun o => match o.src with | .q q => some q.toNat | _ => none).eraseDups

def pushOf (d : Dst) : Option Nat :=
  match d with
  | .q q => some q.toNat
  | _ => none

def queueOf (e : Issuer) (q : Nat) : Option (Nat × Queue) :=
  match qbindOf e.p q with
  | some b => (spFind? e.b.queues b.off).map fun o => (b.off, o)
  | none => none

/-- The stall of R70: a pop from an empty queue, a push to a full one; or the turn of R113. -/
def queueWait (s : State) (e : Issuer) (act : List Nat) (srcs : List Opnd) (d : Dst) : Option Wait :=
  let pops := popsOf srcs
  if act.isEmpty || (pops.isEmpty && (pushOf d).isNone) then none
  else if needsTurn s e then some .turn
  else
    match pops.findSome? fun q => match queueOf e q with
      | some (o, x) => if x.elems.isEmpty then some (Wait.popItem o) else none
      | none => none with
    | some w => some w
    | none =>
      match pushOf d with
      | none => none
      | some q =>
        match queueOf e q with
        | some (o, x) =>
          let freed := if pops.any (fun r => (queueOf e r).map (·.1) == some o) then 1 else 0
          if x.elems.length < x.cap + freed then none else some (.pushRoom o)
        | none => none

/-! ## Reading -/

/-- An operand in a lane (R233 to R235, R70). -/
def opndVal (e : Issuer) (o : Opnd) (l : Nat) : Nat :=
  let sup := inSup e.f
  match o.src with
  | .v r => if o.wide then getV64 sup e.p l r.toNat else (getV sup e.p l r.toNat).toNat
  | .s r => if o.wide then getS64 sup e.p r.toNat else (getS sup e.p r.toNat).toNat
  | .b k =>
    (match e.f.latches[k.toNat]? with
     | some t => (spGet 0 t.vals l).toNat % 2 ^ (if o.wide then 64 else 32)
     | none => 0)
  | .q q =>
    (match queueOf e q.toNat with
     | some (_, x) => ((x.elems.headD []).getD l 0).toNat
     | none => 0)
  | .k n => splat o.ty (constK o.ty n.toNat)
  | .c n => splat o.ty (constC o.ty n.toNat)
  | .unused => o.imm.getD 0

def wide64 (t : Ty) : Bool := tyBits t == 64

/-- The registers that a value of a type takes. -/
def nregs (t : Ty) : Nat := if wide64 t then 2 else 1

/-- An operand of an instruction's own type. -/
def opn (src : Src) (t : Ty) : Opnd := { src, ty := t, wide := wide64 t }

def usesUniform (d : Dst) : Bool :=
  match d with
  | .s _ => true
  | _ => false

/-! ## Writing -/

/-- The queue that a queue register is bound to loses its oldest element. -/
def popQueue (e : Issuer) (b : Block) (q : Nat) : Block :=
  match qbindOf e.p q with
  | some x =>
    (match spFind? b.queues x.off with
     | some o => { b with queues := spSet b.queues x.off { o with elems := o.elems.tail } }
     | none => b)
  | none => b

/-- The queue that a queue register is bound to takes an element: a word for each lane, zero where a lane gives none. -/
def pushQueue (e : Issuer) (b : Block) (q : Nat) (vals : List (Nat × Nat)) : Block :=
  match qbindOf e.p q with
  | some x =>
    (match spFind? b.queues x.off with
     | some o =>
       let words := (List.range o.width).map fun l => BitVec.ofNat 32 ((vals.find? fun v => v.1 == l).elim 0 (·.2))
       { b with queues := spSet b.queues x.off { o with elems := o.elems ++ [words] } }
     | none => b)
  | none => b

/-- Pops and pushes of an instruction with active lanes: pops first (R70). -/
def moveQueues (e : Issuer) (b : Block) (srcs : List Opnd) (d : Dst) (vals : List (Nat × Nat)) : Block :=
  let b := (popsOf srcs).foldl (popQueue e) b
  match pushOf d with
  | none => b
  | some q => pushQueue e b q vals

/-- The write-back of a result to v, s or p registers (R237, R238); nothing with nowb (R242). -/
def writeBack (sup : Bool) (d : Dst) (nowb : Bool) (n : Nat) (vals : List (Nat × Nat)) (p : Pack) : Pack :=
  if nowb then p
  else
    match d with
    | .v r => vals.foldl (fun p x => putVRange sup x.1 r.toNat x.2 n p) p
    | .s r =>
      (match vals with
       | [] => p
       | x :: _ => putSRange sup r.toNat x.2 n p)
    | .p i => vals.foldl (fun p x => putP x.1 i.toNat (x.2 != 0) p) p
    | _ => p

/-- What goes into latch b0 (R100): each lane's result, zero in the lanes outside the active set; a uniform result in every active
lane. -/
def latchOf (d : Dst) (act : List Nat) (vals : List (Nat × Nat)) : Option (Sparse (BitVec 128)) :=
  match d with
  | .null => none
  | .s _ =>
    (match vals with
     | [] => some []
     | x :: _ => some (act.foldl (fun m l => spPut 0 m l (BitVec.ofNat 128 x.2)) []))
  | _ => some (vals.foldl (fun m x => spPut 0 m x.1 (BitVec.ofNat 128 x.2)) [])

/-- The frame of an instruction that computes a result from operands: the checks, the queues, the computation, the write-back. The
computation gets a reader of source i in a lane, the active set, and the lanes whose results are wanted (the lowest one for a
uniform destination); it gives each such lane's result and the flags of slices (by the number of any lane of the slice). `post`
is what else the instruction does to its pack. -/
def alu (s : State) (e : Issuer) (pr : Pred) (srcs : List Opnd) (d : Dst) (nowb : Bool) (n : Nat)
    (f : (Nat → Nat → Nat) → List Nat → List Nat → List (Nat × Nat) × List (Nat × Nat)) (post : Pack → Pack) : Act :=
  let act := activeLanes e pr
  match operandCause e act srcs d n with
  | some c => .trap (trapAll e act c)
  | none =>
    match queueWait s e act srcs d with
    | some w => .wait .waiting w
    | none =>
      let rd := fun i l => opndVal e (srcs.getD i { src := .unused, ty := .b32, wide := false }) l
      let outs := if usesUniform d then act.take 1 else act
      let (vals, flags) := if act.isEmpty then ([], []) else f rd act outs
      let p := post (raiseLanes (writeBack (inSup e.f) d nowb n vals e.p) flags)
      let b := setPack e.b p
      let b := if act.isEmpty then b else moveQueues e b srcs d vals
      let s := setBlock s b
      let queued := !act.isEmpty && (!(popsOf srcs).isEmpty || (pushOf d).isSome)
      .ok (if queued then syncDone s e else s) { res := latchOf d act vals }

/-- A computation lane by lane: results and flags of a lane from its own operands. The flags of a uniform result go to every slice
of the fragment (R301). -/
def perLane (e : Issuer) (d : Dst) (g : (Nat → Nat) → Nat → Nat × Nat) (rd : Nat → Nat → Nat) (_act outs : List Nat) :
    List (Nat × Nat) × List (Nat × Nat) :=
  let rs := outs.map fun l => (l, g (fun i => rd i l) l)
  (rs.map fun r => (r.1, r.2.1),
   if usesUniform d then
     match rs with
     | [] => []
     | r :: _ => (fragSlices e.p e.f).map fun k => (4 * k, r.2.2)
   else rs.map fun r => (r.1, r.2.2))

/-- Element by element: the results joined, the flags together. -/
def elementwise (t : Ty) (g : Nat → Nat × Nat) : Nat × Nat :=
  let rs := (List.range (elemCount t)).map g
  (joinElems (elemBits t) (rs.map (·.1)), rs.foldl (fun m r => m ||| r.2) 0)

/-- A uniform operand of an instruction that acts for its whole fragment. -/
def uniVal (e : Issuer) (src : Src) : Nat := opndVal e { src, ty := .b32, wide := false } 0

/-- The cause of uniform operands: a register out of range, or a register error. -/
def uniCause (e : Issuer) (srcs : List Opnd) : Option Nat := operandCause e [] srcs .null 1

end Sys2Proof.Machine
end

