-- ==== Sys2Proof/Machine/Control.lean ====
section
/-! DEFINITION. Control transfer, regrouping, waiting and ending (spec/08 R263 to R279; spec/02 R42 to R63). -/

namespace Sys2Proof.Machine

/-! ## Branches -/

/-- Every slice of the fragment goes to one target. -/
def jumpAll (e : Issuer) (target : DWord) : Sparse DWord := (fragSlices e.p e.f).map fun k => (k, target)

/-- A parcel offset from the branch (R225). -/
def branchTarget (e : Issuer) (off : BitVec 64) : DWord := e.f.pc + 2 * off

/-- The target checks of R266: its address is what every active lane reports. -/
def targetCause (target : DWord) : Option Nat :=
  if target.getLsbD 0 then some 0x04 else if target.toNat / 2 ^ 57 ≠ 0 then some 0x02 else none

def trapTarget (e : Issuer) (cause : Nat) (target : DWord) : Act :=
  .trap (trapLanes cause ((maskLanes e.p e.f).map fun l => (l, target.toNat)))

/-- A branch of the whole fragment, with what it does to the pack (R266). -/
def branchAct (s : State) (e : Issuer) (target : DWord) (link : Pack → Pack) : Act :=
  match targetCause target with
  | some c => trapTarget e c target
  | none => .ok (setBlock s (setPack e.b (link e.p))) { jump := jumpAll e target }

def execNop (_g : Gen) (s : State) : Host.Outcome State Fault Refusal :=
  issue s 8 .any false fun _ => .ok s {}

def execBra (j : J64) (s : State) : Host.Outcome State Fault Refusal :=
  issue s 8 .never false fun e => branchAct s e (branchTarget e (j.off.signExtend 64)) id

def execJmp (j : J64) (s : State) : Host.Outcome State Fault Refusal :=
  issue s 8 .never false fun e =>
    let o : Opnd := { src := j.tgt, ty := .b64, wide := true }
    match uniCause e [o] with
    | some c => .trap (trapAll e [] c)
    | none => branchAct s e (BitVec.ofNat 64 (opndVal e o 0)) id

/-- CALL writes the link pair s62:s63, which every pack has (R267). -/
def callAct (s : State) (e : Issuer) (len : Nat) (off : BitVec 64) : Act :=
  branchAct s e (branchTarget e off) (putS64 (inSup e.f) 62 (e.f.pc + BitVec.ofNat 64 len).toNat)

def execCall (j : J64) (s : State) : Host.Outcome State Fault Refusal :=
  issue s 8 .never false fun e => callAct s e 8 (j.off.signExtend 64)

/-- The link pair as a source (R267). -/
def linkOpnd : Opnd := { src := .s 62, ty := .b64, wide := true }

def retAct (s : State) (e : Issuer) : Act :=
  match uniCause e [linkOpnd] with
  | some c => .trap (trapAll e [] c)
  | none => branchAct s e (BitVec.ofNat 64 (getS64 (inSup e.f) e.p 62)) id

def execRet (_g : Gen) (s : State) : Host.Outcome State Fault Refusal := issue s 8 .never false fun e => retAct s e

/-- BRANY and BRALL (R268). -/
def branchIf (s : State) (e : Issuer) (j : J64) (test : (Nat → Bool) → List Nat → Bool) : Act :=
  if test (predTrue e.p j.pred) (maskLanes e.p e.f) then
    .ok s { jump := jumpAll e (branchTarget e (j.off.signExtend 64)) }
  else .ok s {}

def execBrany (j : J64) (s : State) : Host.Outcome State Fault Refusal :=
  issue s 8 .never false fun e => branchIf s e j fun f l => l.any f

def execBrall (j : J64) (s : State) : Host.Outcome State Fault Refusal :=
  issue s 8 .never false fun e => branchIf s e j fun f l => l.all f

/-- The type that BRC's condition gives its comparands (R249). -/
def condTy : Cond → Ty
  | .eq => .b32 | .ne => .b32
  | .lt => .i32 | .ge => .i32 | .le => .i32 | .gt => .i32
  | .ltu => .n32 | .geu => .n32 | .leu => .n32 | .gtu => .n32
  | .flt => .f32 | .fge => .f32 | .fle => .f32 | .fgt => .f32 | .feq => .f32 | .fneu => .f32

/-- The test of a BRC condition (R249). -/
def condTest (c : Cond) (x y : Nat) : Bool :=
  let a := fDecode fmtF32 x
  let b := fDecode fmtF32 y
  match c with
  | .eq => x == y
  | .ne => x != y
  | .lt => sval 32 x < sval 32 y
  | .ge => sval 32 y ≤ sval 32 x
  | .le => sval 32 x ≤ sval 32 y
  | .gt => sval 32 y < sval 32 x
  | .ltu => x < y
  | .geu => y ≤ x
  | .leu => x ≤ y
  | .gtu => y < x
  | .flt => fLt a b
  | .fge => fLt b a || fEq a b
  | .fle => fLt a b || fEq a b
  | .fgt => fLt b a
  | .feq => fEq a b
  | .fneu => !fEq a b

/-- The lowest lane of a slice whose lane-mask bit is set. -/
def lowestLane (sl : Slice) (k : Nat) : Nat := 4 * k + ((List.range 4).find? fun i => sl.mask.getLsbD i).getD 0

def execBrc (c : Brc) (s : State) : Host.Outcome State Fault Refusal :=
  issue s 8 .never false fun e =>
    let t := condTy c.cond
    let lanes := ((fragSlices e.p e.f).filter (holdsLive e.p e.f)).map fun k => (k, lowestLane (sliceOf e.p k) k)
    match operandCause e (lanes.map (·.2)) [opn c.a t, opn c.b t] .null 1 with
    | some x => .trap (trapAll e [] x)
    | none =>
      let taken := lanes.filter fun l => condTest c.cond (opndVal e (opn c.a t) l.2) (opndVal e (opn c.b t) l.2)
      .ok s { jump := taken.map fun l => (l.1, branchTarget e (c.off.signExtend 64)) }

/-- The lanes of a slice that take a divergent branch. -/
def takenMask (p : Pack) (pr : Pred) (k : Nat) : BitVec 4 :=
  BitVec.ofNat 4 ((List.range 4).foldl (fun m i =>
    if (sliceOf p k).mask.getLsbD i && predTrue p pr (4 * k + i) then m + 2 ^ i else m) 0)

/-- A slice whose lanes disagree at a BRV (R42). -/
def diverges (p : Pack) (pr : Pred) (k : Nat) : Bool :=
  takenMask p pr k != 0 && takenMask p pr k != (sliceOf p k).mask

def execBrv (v : Brv) (s : State) : Host.Outcome State Fault Refusal :=
  issue s 8 .never false fun e =>
    let ks := fragSlices e.p e.f
    let target := branchTarget e (v.toff.signExtend 64)
    if v.pred.idx = 7 ∧ v.pred.neg = false then branchAct s e target id
    else if ks.any fun k => diverges e.p v.pred k && 4 ≤ (sliceOf e.p k).stack.length then .trap (trapAll e [] 0x05)
    else
      let join := branchTarget e (v.joff.signExtend 64)
      let p := ks.foldl (fun p k =>
        if diverges e.p v.pred k then
          let sl := sliceOf e.p k
          let t := takenMask e.p v.pred k
          let entry : MaskEntry := { join, pendPc := e.f.pc + 8, pend := sl.mask &&& ~~~ t, saved := sl.mask }
          { p with slices := p.slices.set k { sl with mask := t, stack := entry :: sl.stack } }
        else p) e.p
      let taken := ks.filter fun k => takenMask e.p v.pred k != 0
      .ok (setBlock s (setPack e.b p)) { jump := taken.map fun k => (k, target) }

/-! ## REGANG -/

/-- Slices that merge take the largest of their draw counters (R214). -/
def mergeDraws (p : Pack) (ks : List Nat) : Pack :=
  let m := ks.foldl (fun m k => if m < (sliceOf p k).draw then (sliceOf p k).draw else m) 0
  { p with slices := ks.foldl (fun l k => l.modify k fun sl => { sl with draw := m }) p.slices }

/-- The fragments waiting at an address become one, in the entry of one of them (R50, R52). -/
def mergeRegang (s : State) (e : Issuer) : State :=
  let p := e.p
  let js := (List.range p.frags.length).filter fun j => match getFrag p j with
    | some g => g.st == .regang && g.pc == e.f.pc
    | none => false
  let all := js.foldl (fun m j => m ||| (match getFrag p j with | some g => g.slices | none => 0)) 0
  let p := js.foldl (fun p j => if j = e.ref.frag then p else setFrag p j freeFrag) p
  let f := { e.f with slices := all, st := .ready, gang := 0, latches := [], wait := .none, slots := e.f.slots + slotsOf e.f }
  let p := setFrag p e.ref.frag f
  let p := mergeDraws p (fragSlices p f)
  let p := js.foldl (fun p _ => countClock e.l (inSup e.f) false p) p
  let p := settleFrag s.tick p e.ref.frag fun _ => e.f.pc + 8
  let s := js.foldl (fun s j => match getFrag e.p j with
    | some g => chargeIssue s { e with f := g }
    | none => s) s
  putPack s e.ref.blk p

def execRegang (g : Gen) (s : State) : Host.Outcome State Fault Refusal :=
  issue s 8 .never false fun e =>
    match uniCause e [opn g.a .n32] with
    | some c => .trap (trapAll e [] c)
    | none =>
      let n := uniVal e g.a
      let own := (fragSlices e.p e.f).filter fun k => (sliceOf e.p k).live != 0
      if n / 2 ^ (e.p.width / 4) ≠ 0 ∨ ¬ own.all (fun k => n.testBit k) then .trap (trapAll e [] 0x0B)
      else
        let f := { e.f with st := .regang, gang := BitVec.ofNat 16 n, since := s.tick }
        let e := { e with f := f, p := setFrag e.p e.ref.frag f }
        if regangReady e.p f then .own (mergeRegang s e) else .own (putPack s e.ref.blk e.p)

/-- The fragments of a pack that wait at REGANG for slices that are all there, or have exited, merge at once (R50). -/
def regroup (s : State) (blk pidx pos : Nat) : Nat → State
  | 0 => s
  | n + 1 =>
    match (match getBlock s blk with
      | none => none
      | some b => (getPack b pidx pos).bind fun p => (List.range p.frags.length).find? fun i => match getFrag p i with
        | some f => f.st == .regang && regangReady p f
        | none => false) with
    | none => s
    | some i =>
      match issuerAt s { blk, pidx, pos, frag := i } with
      | none => s
      | some e => regroup (mergeRegang s e) blk pidx pos n

/-! ## EXIT, HOLD, YIELD and the counter waits -/

/-- Lanes of a slice end (R46). -/
def exitSlice (sl : Slice) (gone : BitVec 4) : Slice :=
  { sl with mask := sl.mask &&& ~~~ gone, live := sl.live &&& ~~~ gone,
            stack := sl.stack.map fun x => { x with pend := x.pend &&& ~~~ gone, saved := x.saved &&& ~~~ gone } }

/-- The lanes of a list that lie in slice k, as its mask. -/
def laneBits (ls : List Nat) (k : Nat) : BitVec 4 :=
  BitVec.ofNat 4 (ls.foldl (fun m l => if l / 4 = k then m ||| 2 ^ (l % 4) else m) 0)

def exitAct (s : State) (e : Issuer) (act : List Nat) : Act :=
  let p := { e.p with slices := e.p.slices.mapIdx fun k sl => exitSlice sl (laneBits act k) }
  .ok (regroup (setBlock s (setPack e.b p)) e.ref.blk e.ref.pidx e.ref.pos 16) {}

def execExit (g : Gen) (s : State) : Host.Outcome State Fault Refusal :=
  issue s 8 .never false fun e => exitAct s e (activeLanes e g.pred)

/-- HOLD n (R98, R102, R274): its slots must fit the run. -/
def execHold (g : Gen) (s : State) : Host.Outcome State Fault Refusal :=
  issue s 8 .never false fun e =>
    let n := g.opx.toNat + 1
    if 0 < e.f.slots ∧ 64 < e.f.slots + (n + 1) * slotsOf e.f then .endRun else .ok s { hold := some n }

def execYield (_g : Gen) (s : State) : Host.Outcome State Fault Refusal :=
  issue s 8 .never false fun _ => .ok s { endRun := true }

/-- An acquire at device scope, or a covering wait: no later load of the core finds an L1 copy from before it (R141, R182). -/
def acquired (s : State) (e : Issuer) : State := l1Clear s e.b.core

/-- The condition monitors armed at an M-stack (R190). -/
def armedAt (s : State) (stack : Nat) : Nat :=
  (s.blocks.flatMap fun b => b.packs.flatMap fun p => p.frags.filter fun f => match f.wait with
    | .word pa _ _ _ true => f.st == .waiting && stackOf pa == stack
    | .cword pa _ true => f.st == .waiting && stackOf pa == stack
    | _ => false).length

/-- Whether a monitor is free at the home of an address (R19, R191). -/
def monitorFree (s : State) (pa : Nat) : Bool := armedAt s (stackOf pa) < 1024

/-- The return of a wait is an acquire at device scope, or covers operations; that for a stash word is one at block scope (R182, R190,
R192). -/
def wakeAcquire (s : State) (e : Issuer) (w : Wait) : State :=
  match w with
  | .stashWord _ _ _ _ => s
  | _ => acquired s e

/-- A wait for a condition, which is a synchronising operation of a deterministic launch (R113, R278). -/
def waitFor (s : State) (e : Issuer) (holds : Bool) (w : Wait) : Act :=
  if needsTurn s e then .wait .waiting .turn
  else if holds then .ok (syncDone (wakeAcquire s e w) e) {}
  else .wait .waiting w

def execWaitcnt (g : Gen) (s : State) : Host.Outcome State Fault Refusal :=
  issue s 8 .never false fun e =>
    match uniCause e [opn g.a .n32] with
    | some c => .trap (trapAll e [] c)
    | none =>
      let n := uniVal e g.a
      waitFor s e (255 ≤ n || classCount e.p (engClassOf g.opx.toNat) ≤ n) (.cnt g.opx.toNat n)

def execWaittag (g : Gen) (s : State) : Host.Outcome State Fault Refusal :=
  issue s 8 .never false fun e =>
    match uniCause e [opn g.a .n32] with
    | some c => .trap (trapAll e [] c)
    | none =>
      let m := uniVal e g.a
      if 256 ≤ m then .trap (trapAll e [] 0x05)
      else waitFor s e ((List.range 8).all fun t => !m.testBit t || tagCount e.p t == 0) (.tags m)

/-! ## PSPLIT and PFUSE (R56 to R63, R563) -/

/-- Sub-pack j of a split into n (R56, R58). -/
def subPack (tick : Nat) (p : Pack) (f : Fragment) (n j : Nat) (clock : Nat) : Pack :=
  let w := p.width / n
  let q : Pack := { p with
    pos := p.pos + j * w / 8, width := w, slices := (p.slices.drop (j * w / 4)).take (w / 4),
    qbind := if j = 0 then p.qbind else [], streamer := j == 0 && p.streamer, eng := [],
    hist := { width := p.width, pos := p.pos, parts := n } :: p.hist, frags := [], lclock := clock, buf := [],
    badV := (p.badV.filter fun b => j * w ≤ b.1 && b.1 < (j + 1) * w).map fun b => (b.1 - j * w, b.2),
    badP := (p.badP.filter fun b => j * w ≤ b.1 && b.1 < (j + 1) * w).map fun b => (b.1 - j * w, b.2) }
  let f' : Fragment := { pc := f.pc + 8, slices := sliceMask (List.range q.slices.length), since := tick, frame := f.frame }
  settleFrag tick { q with frags := [f'] } 0 fun _ => f.pc + 8

def execPsplit (g : Gen) (s : State) : Host.Outcome State Fault Refusal :=
  issue s 8 .never false fun e =>
    let n := 2 ^ g.opx.toNat
    if e.p.width / n < 8 ∨ ¬ holdsAll e.p e.f then .trap (trapAll e [] 0x0B)
    else if needsRound e then forceRound s e
    else if !engIdle e.p then .wait .ready .drained
    else
      let clock := (countClock e.l (inSup e.f) false e.p).lclock
      let subs := (List.range n).map fun j => subPack s.tick e.p e.f n j clock
      let packs := e.b.packs.flatMap fun q => if q.pidx = e.p.pidx ∧ q.pos = e.p.pos then subs else [q]
      .own (chargeIssue (setBlock s { e.b with packs := packs }) e)

/-- Packs in ascending position. -/
def insertPos (p : Pack) : List Pack → List Pack
  | [] => [p]
  | q :: l => if p.pos ≤ q.pos then p :: q :: l else q :: insertPos p l

/-- The PFUSE of a sibling counts once, but for an exited one's and for handler code of a deterministic launch (R61, R111, R504). -/
def fuseClock (det : Bool) (q : Pack) : Nat := q.lclock + bit (!packExited q && !(det && (liveFrags q).any inSup))

/-- The pack that siblings become (R61), standing at `pc`. DESIGN CHOICE (log 33): the queue bindings of the siblings above the lowest
live one are dropped, their objects staying marked as bound; the draw counter is the largest of the slices that have a live lane
(R214). An exited sibling's operations still in flight count at the fused pack. -/
def fusePacks (det : Bool) (h : SplitRec) (sibs : List Pack) (low : Pack) (pc : DWord) : Pack :=
  let q : Pack := { low with
    pos := h.pos, width := h.width, slices := sibs.flatMap (·.slices), hist := low.hist.tail,
    eng := sibs.flatMap (·.eng), lclock := sibs.foldl (fun m x => max m (fuseClock det x)) 0,
    skew := sibs.foldl (fun m x => max m x.skew) 0, lastSync := sibs.foldl (fun m x => max m x.lastSync) 0,
    buf := sibs.flatMap (·.buf), frags := [],
    badV := sibs.flatMap fun x => x.badV.map fun b => (b.1 + 8 * (x.pos - h.pos), b.2),
    badP := sibs.flatMap fun x => x.badP.map fun b => (b.1 + 8 * (x.pos - h.pos), b.2) }
  let q := mergeDraws q (liveSlices q)
  { q with frags := [{ pc, slices := sliceMask (List.range q.slices.length), frame := low.frags.findSome? (·.frame) }] }

/-- The joining of siblings that have all arrived (R61, R62). -/
def fuseAll (s : State) (e : Issuer) (h : SplitRec) : State :=
  let sibs := (siblings e.b e.p).foldr insertPos []
  let live := sibs.filter fun q => !packExited q
  let low := live.headD e.p
  let pcs := live.flatMap fun q => (liveFrags q).map (·.pc)
  let pc := pcs.headD e.f.pc
  let same := pcs.all (· == pc)
  let q := fusePacks e.l.det h sibs low (if same then pc + 8 else pc)
  let q := if same then settleFrag s.tick q 0 fun _ => pc + 8 else q
  let rest := e.b.packs.filter fun x => !(sibs.any fun y => y.pidx == x.pidx && y.pos == x.pos)
  let before := rest.filter fun x => x.pidx < q.pidx || (x.pidx == q.pidx && x.pos < q.pos)
  let after := rest.filter fun x => !(x.pidx < q.pidx || (x.pidx == q.pidx && x.pos < q.pos))
  let s := setBlock s { e.b with packs := before ++ q :: after }
  let s := live.foldl (fun s x => (liveFrags x).foldl (fun s g => chargeIssue s { e with f := g }) s) s
  if same then s
  else
    match issuerAt s { e.ref with pos := h.pos, frag := 0 } with
    | some e' => takeTrap s e' (trapAll e' [] 0x0B)
    | none => s

def execPfuse (_g : Gen) (s : State) : Host.Outcome State Fault Refusal :=
  issue s 8 .never false fun e =>
    match e.p.hist with
    | [] => .trap (trapAll e [] 0x0B)
    | h :: _ =>
      if !holdsAll e.p e.f then .trap (trapAll e [] 0x0B)
      else if needsRound e then forceRound s e
      else
        let p := setFrag e.p e.ref.frag { e.f with st := .pfuse, since := s.tick }
        let b := setPack e.b p
        if allFused b p then .own (fuseAll (setBlock s b) { e with b := b, p := p } h) else .own (setBlock s b)

end Sys2Proof.Machine
end

