-- ==== Sys2Proof/Machine/Integer.lean ====
section
/-! DEFINITION. Integer instructions, moves and predicates (spec/08 R280 to R291; MOVI of spec/07 R251). -/

namespace Sys2Proof.Machine

/-! ## Shared forms -/

/-- A 32-bit operand that is read as n32, whatever the instruction's type (R282, R283). -/
def opn32 (src : Src) : Opnd := { src, ty := .n32, wide := false }

/-- The three sources of an instruction, each of its own type. -/
def srcs3 (g : Gen) : List Opnd := [opn g.a g.ty, opn g.b g.ty, opn g.c g.ty]

/-- A whole-operand computation: a function of the operands of one lane, without flags. -/
def wordAct (s : State) (e : Issuer) (g : Gen) (srcs : List Opnd) (n : Nat) (f : (Nat → Nat) → Nat) : Act :=
  alu s e g.pred srcs g.dst g.nowb n (perLane e g.dst fun v _ => (f v, 0)) id

/-- An element-by-element computation of an instruction's type. -/
def elemAct (s : State) (e : Issuer) (g : Gen) (srcs : List Opnd) (f : (Nat → Nat) → Nat × Nat) : Act :=
  alu s e g.pred srcs g.dst g.nowb (nregs g.ty)
    (perLane e g.dst fun v _ => elementwise g.ty fun k => f fun i => elem (elemBits g.ty) (v i) k) id

/-- An exact integer value of the operands' elements, wrapped or clamped (R280). -/
def intAct (s : State) (e : Issuer) (g : Gen) (srcs : List Opnd) (x : (Nat → Int) → Int) : Act :=
  elemAct s e g srcs fun v => intResult g.ty g.sat (x fun i => intOf g.ty (v i))

/-! ## Arithmetic (R280, R281) -/

def xAdd (v : Nat → Int) : Int := v 0 + v 1
def xSub (v : Nat → Int) : Int := v 0 - v 1
def xMul (v : Nat → Int) : Int := v 0 * v 1
def xMad (v : Nat → Int) : Int := v 0 * v 1 + v 2
def xMin (v : Nat → Int) : Int := min (v 0) (v 1)
def xMax (v : Nat → Int) : Int := max (v 0) (v 1)
def xAbsd (v : Nat → Int) : Int := (v 0 - v 1).natAbs

def execIadd (g : Gen) (s : State) : Host.Outcome State Fault Refusal :=
  issue s 8 .any false fun e => intAct s e g (srcs3 g) xAdd

def execIsub (g : Gen) (s : State) : Host.Outcome State Fault Refusal :=
  issue s 8 .any false fun e => intAct s e g (srcs3 g) xSub

def execImul (g : Gen) (s : State) : Host.Outcome State Fault Refusal :=
  issue s 8 .any false fun e => intAct s e g (srcs3 g) xMul

def execImad (g : Gen) (s : State) : Host.Outcome State Fault Refusal :=
  issue s 8 .any false fun e => intAct s e g (srcs3 g) xMad

def execImin (g : Gen) (s : State) : Host.Outcome State Fault Refusal :=
  issue s 8 .any false fun e => intAct s e g (srcs3 g) xMin

def execImax (g : Gen) (s : State) : Host.Outcome State Fault Refusal :=
  issue s 8 .any false fun e => intAct s e g (srcs3 g) xMax

def execIabsd (g : Gen) (s : State) : Host.Outcome State Fault Refusal :=
  issue s 8 .any false fun e => intAct s e g (srcs3 g) xAbsd

/-- The high half of the exact product, rounded toward −∞ (R281). -/
def mulHigh (t : Ty) (a b : Nat) : Nat :=
  unsig (elemBits t) (intOf t a * intOf t b / ((2 ^ elemBits t : Nat) : Int))

def execImulh (g : Gen) (s : State) : Host.Outcome State Fault Refusal :=
  issue s 8 .any false fun e => wordAct s e g (srcs3 g) (nregs g.ty) fun v => mulHigh g.ty (v 0) (v 1)

/-! ## Bitwise, shift and bit-field operations (R282 to R286) -/

def bitAnd (_w a b : Nat) : Nat := a &&& b
def bitOr (_w a b : Nat) : Nat := a ||| b
def bitXor (_w a b : Nat) : Nat := a ^^^ b
def bitAndn (w a b : Nat) : Nat := a &&& (2 ^ w - 1 - b)

def bitAct (s : State) (e : Issuer) (g : Gen) (srcs : List Opnd) (f : Nat → Nat → Nat → Nat) : Act :=
  wordAct s e g srcs (nregs g.ty) fun v => f (tyBits g.ty) (v 0) (v 1)

def execAnd (g : Gen) (s : State) : Host.Outcome State Fault Refusal :=
  issue s 8 .any false fun e => bitAct s e g (srcs3 g) bitAnd

def execOr (g : Gen) (s : State) : Host.Outcome State Fault Refusal :=
  issue s 8 .any false fun e => bitAct s e g (srcs3 g) bitOr

def execXor (g : Gen) (s : State) : Host.Outcome State Fault Refusal :=
  issue s 8 .any false fun e => bitAct s e g (srcs3 g) bitXor

def execAndn (g : Gen) (s : State) : Host.Outcome State Fault Refusal :=
  issue s 8 .any false fun e => bitAct s e g (srcs3 g) bitAndn

/-- Shifts of a w-bit value by n32 amounts (R282). -/
def shlBits (w a n : Nat) : Nat := if w ≤ n then 0 else a * 2 ^ n % 2 ^ w
def shrBits (w a n : Nat) : Nat := if w ≤ n then 0 else a / 2 ^ n
def sarBits (w a n : Nat) : Nat := unsig w (sval w a / ((2 ^ min n w : Nat) : Int))
def rotlBits (w a n : Nat) : Nat := (a * 2 ^ (n % w) ||| a / 2 ^ (w - n % w)) % 2 ^ w

/-- The sources of a shift: a of the type, n as n32. -/
def srcsShift (g : Gen) : List Opnd := [opn g.a g.ty, opn32 g.b]

def execShl (g : Gen) (s : State) : Host.Outcome State Fault Refusal :=
  issue s 8 .any false fun e => bitAct s e g (srcsShift g) shlBits

def execShr (g : Gen) (s : State) : Host.Outcome State Fault Refusal :=
  issue s 8 .any false fun e => bitAct s e g (srcsShift g) shrBits

def execSar (g : Gen) (s : State) : Host.Outcome State Fault Refusal :=
  issue s 8 .any false fun e => bitAct s e g (srcsShift g) sarBits

def execRotl (g : Gen) (s : State) : Host.Outcome State Fault Refusal :=
  issue s 8 .any false fun e => bitAct s e g (srcsShift g) rotlBits

/-- Position and length L′ of a bit field (R283). -/
def fieldCtl (w ctl : Nat) : Nat × Nat :=
  let p := ctl % 256
  (p, if p < w then min (ctl / 256 % 256) (w - p) else 0)

def bfeBits (t : Ty) (a ctl : Nat) : Nat :=
  let w := tyBits t
  let (p, n) := fieldCtl w ctl
  let x := a / 2 ^ p % 2 ^ n
  if n = 0 then 0 else if tySigned t then unsig w (sval n x) else x

def bfiBits (w a f ctl : Nat) : Nat :=
  let (p, n) := fieldCtl w ctl
  if n = 0 then a else a - (a / 2 ^ p % 2 ^ n) * 2 ^ p + f % 2 ^ n * 2 ^ p

def execBfe (g : Gen) (s : State) : Host.Outcome State Fault Refusal :=
  issue s 8 .any false fun e =>
    wordAct s e g [opn g.a g.ty, opn32 g.b] (nregs g.ty) fun v => bfeBits g.ty (v 0) (v 1)

def execBfi (g : Gen) (s : State) : Host.Outcome State Fault Refusal :=
  issue s 8 .any false fun e =>
    wordAct s e g [opn g.a g.ty, opn g.b g.ty, opn32 g.c] (nregs g.ty) fun v => bfiBits (tyBits g.ty) (v 0) (v 1) (v 2)

/-- Counts over w bits (R284). -/
def popcBits (w a : Nat) : Nat := ((List.range w).filter fun i => a.testBit i).length
def clzBits (w a : Nat) : Nat := w - bitLen a
def ctzBits (w a : Nat) : Nat := ((List.range w).find? fun i => a.testBit i).getD w
def brevBits (w a : Nat) : Nat := (List.range w).foldl (fun m i => if a.testBit i then m + 2 ^ (w - 1 - i) else m) 0

def countAct (s : State) (e : Issuer) (g : Gen) (f : Nat → Nat → Nat) : Act :=
  wordAct s e g [opn g.a g.ty] (nregs g.ty) fun v => f (tyBits g.ty) (v 0)

def execPopc (g : Gen) (s : State) : Host.Outcome State Fault Refusal :=
  issue s 8 .any false fun e => countAct s e g popcBits

def execClz (g : Gen) (s : State) : Host.Outcome State Fault Refusal :=
  issue s 8 .any false fun e => countAct s e g clzBits

def execCtz (g : Gen) (s : State) : Host.Outcome State Fault Refusal :=
  issue s 8 .any false fun e => countAct s e g ctzBits

def execBrev (g : Gen) (s : State) : Host.Outcome State Fault Refusal :=
  issue s 8 .any false fun e => countAct s e g brevBits

/-- The result bytes of PRMT from byte k on, the byte before being `prev` (R285). -/
def prmtBytes (ab sel : Nat) : Nat → Nat → Nat → List Nat
  | 0, _, _ => []
  | n + 1, k, prev =>
    let x :=
      if sel.testBit (12 + k) then 0
      else if sel.testBit (16 + k) ∧ 1 ≤ k then (if prev.testBit 7 then 255 else 0)
      else elem 8 ab (field sel (3 * k + 2) (3 * k))
    x :: prmtBytes ab sel n (k + 1) x

def execPrmt (g : Gen) (s : State) : Host.Outcome State Fault Refusal :=
  issue s 8 .any false fun e =>
    wordAct s e g (srcs3 g) 1 fun v => joinElems 8 (prmtBytes (v 0 + 2 ^ 32 * v 1) (v 2) 4 0 0)

/-- The second source of LEA as a 64-bit number (R286). -/
def leaSrc (g : Gen) : Opnd :=
  match g.ty with
  | .i64 => { src := g.b, ty := .i32, wide := false }
  | .n64 => { src := g.b, ty := .n32, wide := false }
  | _ => opn g.b .b64

def leaBits (t : Ty) (k a b : Nat) : Nat :=
  let x := match t with
    | .i64 => unsig 64 (sval 32 b)
    | _ => b
  (a + x * 2 ^ k) % 2 ^ 64

def execLea (g : Gen) (s : State) : Host.Outcome State Fault Refusal :=
  issue s 8 .any false fun e =>
    wordAct s e g [opn g.a g.ty, leaSrc g] 2 fun v => leaBits g.ty g.opx.toNat (v 0) (v 1)

/-! ## Comparison, selection and moves (R287 to R291) -/

def isetTest (cond : Nat) (a b : Int) : Bool :=
  match cond with
  | 0 => a == b
  | 1 => a != b
  | 2 => a < b
  | 3 => a ≤ b
  | 4 => b < a
  | _ => b ≤ a

def execIset (g : Gen) (s : State) : Host.Outcome State Fault Refusal :=
  issue s 8 .any false fun e => elemAct s e g (srcs3 g) fun v =>
    (if isetTest g.opx.toNat (intOf g.ty (v 0)) (intOf g.ty (v 1)) then 2 ^ elemBits g.ty - 1 else 0, 0)

def execSel (g : Gen) (s : State) : Host.Outcome State Fault Refusal :=
  issue s 8 .any false fun e =>
    let n := g.opx.toNat
    alu s e g.pred (srcs3 g) g.dst g.nowb (nregs g.ty) (perLane e g.dst fun v l =>
      (if getP e.p l (n % 8) != n.testBit 3 then v 0 else v 1, 0)) id

def execMov (g : Gen) (s : State) : Host.Outcome State Fault Refusal :=
  issue s 8 .any false fun e => wordAct s e g [opn g.a g.ty] (nregs g.ty) fun v => v 0

/-- The coordinates of a block in its launch (R65). -/
def blockX (e : Issuer) : Nat := e.b.linear % pkNbx (launchWord e.l)
def blockY (e : Issuer) : Nat := e.b.linear / pkNbx (launchWord e.l) % pkNby (launchWord e.l)
def blockZ (e : Issuer) : Nat := e.b.linear / pkNbx (launchWord e.l) / pkNby (launchWord e.l)

/-- GANG (R39). -/
def gangOf (e : Issuer) : Nat :=
  (sliceMask ((fragSlices e.p e.f).filter fun k => (sliceOf e.p k).live != 0)).toNat

/-- The fault registers of the frame (R486). -/
def faultInfo (f : Fragment) : TrapInfo :=
  match f.frame with
  | some fr => fr.info
  | none => { cause := 0 }

/-- A special register in a lane (R288, R289). -/
def specialVal (s : State) (e : Issuer) (r : SpecialReg) (l : Nat) : Nat :=
  let n := launchWord e.l
  match r with
  | .laneid => l
  | .sliceid => l / 4
  | .octetid => l / 8
  | .packid => packId e.p
  | .packw => e.p.width
  | .gang => gangOf e
  | .lmasklt => 2 ^ l - 1
  | .blockid => e.b.linear
  | .blockx => blockX e
  | .blocky => blockY e
  | .blockz => blockZ e
  | .nblockx => pkNbx n
  | .nblocky => pkNby n
  | .nblockz => pkNbz n
  | .coreid => if e.l.det then 0 else e.b.core
  | .dieid => if e.l.det then 0 else e.b.core / 48
  | .ctxid => e.l.ctx
  | .clock => if e.l.det then e.p.lclock % 2 ^ 64 else (Config.coreClock e.b.core s.tick).toNat
  | .lclock => e.p.lclock % 2 ^ 64
  | .coord0 => gridCoord s 0
  | .coord1 => gridCoord s 1
  | .coord2 => gridCoord s 2
  | .coord3 => gridCoord s 3
  | .coord4 => gridCoord s 4
  | .gsize0 => gridSize s 0
  | .gsize1 => gridSize s 1
  | .gsize2 => gridSize s 2
  | .gsize3 => gridSize s 3
  | .gsize4 => gridSize s 4
  | .fpstat => (fpstatOf e.p e.f).toNat
  | .faultmask => (faultInfo e.f).lanes.toNat
  | .faultaddr => (spGet 0 (faultInfo e.f).addrs l).toNat
  | .faultcause => faultCause (faultInfo e.f) false
  | .faultpc => (faultInfo e.f).pc.toNat

/-- The fault registers are the supervisor's (R288). -/
def srSup (r : SpecialReg) : Bool := r == .faultmask || r == .faultaddr || r == .faultcause || r == .faultpc

def execMovsr (m : Movsr) (s : State) : Host.Outcome State Fault Refusal :=
  issue s 8 .any (srSup m.sel) fun e =>
    alu s e m.pred [] m.dst m.nowb (nregs m.ty) (perLane e m.dst fun _ l => (specialVal s e m.sel l, 0)) id

/-- The high register of a destination pair. -/
def dstHigh (d : Dst) : Dst :=
  match d with
  | .v n => .v (n + 1)
  | .s n => .s (n + 1)
  | d => d

/-- MOVI (R251): `.hi` writes the high register of its pair alone. -/
def execMovi (m : Movi) (s : State) : Host.Outcome State Fault Refusal :=
  issue s 8 .any false fun e =>
    let (d, n, x) := match m.ext with
      | .word => (m.dst, 1, m.imm.toNat)
      | .sx => (m.dst, 2, (m.imm.signExtend 64).toNat)
      | .zx => (m.dst, 2, m.imm.toNat)
      | .hi => (dstHigh m.dst, 1, m.imm.toNat)
    alu s e m.pred [] d m.nowb n (perLane e d fun _ _ => (x, 0)) id

/-- The source types of CVTI (R290): width, signedness. -/
def cvtiSrc (n : Nat) : Nat × Bool :=
  match n with
  | 0 => (32, true)
  | 1 => (32, false)
  | 2 => (64, true)
  | 3 => (64, false)
  | 4 => (16, true)
  | 5 => (16, false)
  | 6 => (8, true)
  | _ => (8, false)

/-- The operand of CVTI; a narrow source is the low bits of a b32 (log 14). -/
def cvtiOpnd (g : Gen) : Opnd :=
  match g.opx.toNat with
  | 0 => opn g.a .i32
  | 1 => opn g.a .n32
  | 2 => opn g.a .i64
  | 3 => opn g.a .n64
  | _ => opn g.a .b32

def execCvti (g : Gen) (s : State) : Host.Outcome State Fault Refusal :=
  issue s 8 .any false fun e =>
    let (w, signed) := cvtiSrc g.opx.toNat
    alu s e g.pred [cvtiOpnd g] g.dst g.nowb (nregs g.ty) (perLane e g.dst fun v _ =>
      let x := v 0 % 2 ^ w
      intResult g.ty g.sat (if signed then sval w x else (x : Int))) id

def execPlop (q : Plop) (s : State) : Host.Outcome State Fault Refusal :=
  issue s 8 .any false fun e =>
    alu s e q.pred [] (.p q.dst) false 1 (perLane e (.p q.dst) fun _ l =>
      let i := bit (predTrue e.p q.pa l) + 2 * bit (predTrue e.p q.pb l) + 4 * bit (predTrue e.p q.pc l)
      (bit (q.lut.getLsbD i), 0)) id

end Sys2Proof.Machine
end

