-- ==== Sys2Proof/Machine/Lane.lean ====
section
/-! DEFINITION. Lane exchange (spec/08 R292 to R297; the trees of spec/06 R218, R219). -/

namespace Sys2Proof.Machine

/-- Whether a lane is live in a slice of the issuing fragment (R292). -/
def liveHere (e : Issuer) (l : Nat) : Bool :=
  l < e.p.width && e.f.slices.getLsbD (l / 4) && (sliceOf e.p (l / 4)).live.getLsbD (l % 4)

/-! ## SHFL and BCAST (R292, R296) -/

/-- The source lane of SHFL. -/
def shflLane (mode w l b : Nat) : Nat :=
  let n := b % w
  match mode with
  | 0 => n
  | 1 => (l + n) % w
  | 2 => (l + w - n) % w
  | _ => l ^^^ n

def shflAct (s : State) (e : Issuer) (g : Gen) (mode : Nat) : Act :=
  alu s e g.pred [opn g.a g.ty, opn32 g.b, opn g.c g.ty] g.dst g.nowb (nregs g.ty) (fun rd _ outs =>
    (outs.map fun l =>
      let j := shflLane mode e.p.width l (rd 1 l)
      (l, if liveHere e j then rd 0 j else rd 2 l), [])) id

def execShfl (g : Gen) (s : State) : Host.Outcome State Fault Refusal :=
  issue s 8 .any false fun e => shflAct s e g g.opx.toNat

def execBcast (g : Gen) (s : State) : Host.Outcome State Fault Refusal :=
  issue s 8 .any false fun e =>
    alu s e g.pred [opn g.a g.ty, opn32 g.b] g.dst g.nowb (nregs g.ty) (fun rd _ outs =>
      (outs.map fun l =>
        let j := rd 1 l
        (l, if liveHere e j then rd 0 j else 0), [])) id

/-! ## VOTE, MATCH and RANK (R293, R294) -/

def voteVal (mode w : Nat) (act held : List Nat) : Nat :=
  match mode with
  | 0 => bit (!held.isEmpty)
  | 1 => bit (held.length == act.length)
  | 2 => held.length
  | 3 => (lanesMask held).toNat
  | _ => held.headD w

def execVote (g : Gen) (s : State) : Host.Outcome State Fault Refusal :=
  issue s 8 .any false fun e =>
    alu s e g.pred [opn g.a .b32] g.dst g.nowb (nregs g.ty) (fun rd act outs =>
      let x := voteVal g.opx.toNat e.p.width act (act.filter fun l => rd 0 l != 0)
      (outs.map fun l => (l, x), [])) id

/-- The group word of a lane (R294). -/
def matchWord (group : List Nat) (l : Nat) : Nat :=
  group.headD 0 + 64 * bit (group.head? == some l) + 256 * group.length + 65536 * (group.filter (· < l)).length

def execMatchLanes (g : Gen) (s : State) : Host.Outcome State Fault Refusal :=
  issue s 8 .any false fun e =>
    alu s e g.pred [opn g.a g.ty] g.dst g.nowb 1 (fun rd act outs =>
      (outs.map fun l => (l, matchWord (act.filter fun j => rd 0 j == rd 0 l) l), [])) id

def execRank (g : Gen) (s : State) : Host.Outcome State Fault Refusal :=
  issue s 8 .any false fun e =>
    alu s e g.pred [opn g.a g.ty] g.dst g.nowb 1 (fun rd act outs =>
      (outs.map fun l =>
        let grp := act.filter fun j => rd 0 j == rd 0 l
        (l, if g.opx = 0 then (grp.filter (· < l)).length else grp.length), [])) id

/-! ## REDUX and SCAN (R295, R218, R219) -/

/-- The magnitude of an element (amax). -/
def absBits (t : Ty) (x : Nat) : Nat := if tyFloat t then x % 2 ^ (elemBits t - 1) else (intOf t x).natAbs

/-- One combination: result and flags. -/
def combine (op : Nat) (t : Ty) (mode : Rnd) (x y : Nat) : Nat × Nat :=
  let f := fmtOf t
  if tyFloat t then
    match op with
    | 0 => fAdd f mode x y
    | 1 => fMinMax f false x y
    | 6 => fMul f mode x y
    | _ => fMinMax f true x y
  else
    match op with
    | 0 => ((x + y) % 2 ^ elemBits t, 0)
    | 1 => (if intOf t x ≤ intOf t y then x else y, 0)
    | 2 => (if intOf t x ≤ intOf t y then y else x, 0)
    | 3 => (x &&& y, 0)
    | 4 => (x ||| y, 0)
    | 5 => (x ^^^ y, 0)
    | _ => (max x y, 0)

/-- The identity of an operation (R218, R295). -/
def reduxIdentity (op : Nat) (t : Ty) : Nat :=
  let w := elemBits t
  if tyFloat t then
    match op with
    | 1 => fmtInf (fmtOf t)
    | 2 => fmtSigned (fmtOf t) true (fmtInf (fmtOf t))
    | 6 => fOne (fmtOf t)
    | _ => 0
  else
    match op with
    | 1 => if tySigned t then 2 ^ (w - 1) - 1 else 2 ^ w - 1
    | 2 => if tySigned t then 2 ^ (w - 1) else 0
    | 3 => 2 ^ w - 1
    | _ => 0

/-- Two nodes meet: a valued one passes alone (R218), a NaN too, unchanged and without a flag: R202 and R218 do not say whether it
becomes canonical (DESIGN CHOICE, log 77). A node holds its value and the flags of the combinations under it. -/
def meet (c : Nat → Nat → Nat × Nat) (a b : Option (Nat × Nat)) : Option (Nat × Nat) :=
  match a, b with
  | some x, some y => let r := c x.1 y.1; some (r.1, x.2 ||| y.2 ||| r.2)
  | some x, none => some x
  | none, y => y

/-- The next level of the tree. -/
def pairUp (c : Nat → Nat → Nat × Nat) : List (Option (Nat × Nat)) → List (Option (Nat × Nat))
  | a :: b :: l => meet c a b :: pairUp c l
  | l => l

/-- The levels of the tree, leaves first. -/
def treeLevels (c : Nat → Nat → Nat × Nat) : Nat → List (Option (Nat × Nat)) → List (List (Option (Nat × Nat)))
  | 0, l => [l]
  | n + 1, l => l :: treeLevels c n (pairUp c l)

/-- The inclusive scan over the first n leaves: the blocks of n's binary digits, largest first, left to right (R219). -/
def scanFirst (c : Nat → Nat → Nat × Nat) (levels : List (List (Option (Nat × Nat)))) (n : Nat) : Option (Nat × Nat) :=
  ((List.range levels.length).reverse.foldl (fun (x : Nat × Option (Nat × Nat)) k =>
    if n.testBit k then
      (x.1 + 2 ^ k, meet c x.2 ((levels.getD k []).getD (x.1 / 2 ^ k) none))
    else x) (0, none)).2

def reduxLeaf (op : Nat) (t : Ty) (x : Nat) : Nat := if op = 7 then absBits t x else x

/-- The tree of an instruction over the lanes of the pack. -/
def reduxLevels (e : Issuer) (g : Gen) (op : Nat) (rd : Nat → Nat) (act : List Nat) : List (List (Option (Nat × Nat))) :=
  treeLevels (combine op g.ty g.rnd) 6 ((List.range e.p.width).map fun l =>
    if act.contains l then some (reduxLeaf op g.ty (rd l), 0) else none)

/-- Flags into every slice that holds an active lane (R295). -/
def flagSlices (act : List Nat) (flags : Nat) : List (Nat × Nat) := act.map fun l => (l, flags)

def execRedux (g : Gen) (s : State) : Host.Outcome State Fault Refusal :=
  issue s 8 .any false fun e =>
    let op := g.opx.toNat
    alu s e g.pred [opn g.a g.ty] g.dst g.nowb (nregs g.ty) (fun rd act outs =>
      let r := (scanFirst (combine op g.ty g.rnd) (reduxLevels e g op (rd 0) act) e.p.width).getD (reduxIdentity op g.ty, 0)
      (outs.map fun l => (l, r.1), flagSlices act r.2)) id

def execScan (g : Gen) (s : State) : Host.Outcome State Fault Refusal :=
  issue s 8 .any false fun e =>
    let op := g.opx.toNat % 8
    let excl := g.opx.getLsbD 3
    alu s e g.pred [opn g.a g.ty] g.dst g.nowb (nregs g.ty) (fun rd act outs =>
      let levels := reduxLevels e g op (rd 0) act
      let rs := outs.map fun l =>
        (l, (scanFirst (combine op g.ty g.rnd) levels (if excl then l else l + 1)).getD (reduxIdentity op g.ty, 0))
      (rs.map fun r => (r.1, r.2.1), flagSlices act (rs.foldl (fun m r => m ||| r.2.2) 0))) id

end Sys2Proof.Machine
end

