-- ==== Sys2Proof/Machine/Pool.lean ====
section
/-! DEFINITION. The first-touch page pool (R493). -/

namespace Sys2Proof.Machine

/-- A pool descriptor: the small-frame exponent, the two arrays and what they still hold. -/
def poolWord (s : State) (pool : Nat) : Nat := gReadNat s pool 64

def poolK (n : Nat) : Nat := field n 5 1
def poolSlist (n : Nat) : Nat := field n 127 64
def poolScount (n : Nat) : Nat := field n 159 128
def poolLlist (n : Nat) : Nat := field n 255 192
def poolLcount (n : Nat) : Nat := field n 287 256

/-- A descriptor in use, with a size that R493 gives and its reserved bits zero (R14). -/
def poolValid (n : Nat) : Bool :=
  n.testBit 0 && 12 ≤ poolK n && poolK n ≤ 27 && field n 63 6 == 0 && field n 191 160 == 0 && field n 511 288 == 0

/-- A frame lies in bonded DRAM or LPDDR-6. -/
def frameTierOk (pa : Nat) : Bool :=
  match tierOf pa with
  | some .dram => true
  | some .lpddr => true
  | _ => false

/-- A frame of 2^k bytes as R494 requires it. -/
def frameOk (k pa : Nat) : Bool := pa % 2 ^ k == 0 && frameTierOk pa && frameTierOk (pa + 2 ^ k - 1)

/-- Takes a small frame: the state and the entry, none when none is left. -/
def takeSmall (s : State) (pool : Nat) : Option (State × Nat) :=
  let n := poolWord s pool
  let c := poolScount n
  if !poolValid n ∨ c = 0 then none
  else some (gWriteNat s (pool + 16) 4 (c - 1), gReadNat s (poolSlist n + 8 * (c - 1)) 8)

/-- Takes a large frame. -/
def takeLarge (s : State) (pool : Nat) : Option (State × Nat) :=
  let n := poolWord s pool
  let c := poolLcount n
  if !poolValid n ∨ c = 0 then none
  else some (gWriteNat s (pool + 32) 4 (c - 1), gReadNat s (poolLlist n + 8 * (c - 1)) 8)

/-- A frame goes back: its entry, then the count (R438, R528). -/
def giveSmall (pool : Nat) (s : State) (f : Nat) : State :=
  let n := poolWord s pool
  gWriteNat (gWriteNat s (poolSlist n + 8 * poolScount n) 8 f) (pool + 16) 4 (poolScount n + 1)

def giveLarge (pool : Nat) (s : State) (f : Nat) : State :=
  let n := poolWord s pool
  gWriteNat (gWriteNat s (poolLlist n + 8 * poolLcount n) 8 f) (pool + 32) 4 (poolLcount n + 1)

/-- n small frames, or none at all. -/
def takeSmalls (s : State) (pool : Nat) : Nat → Option (State × List Nat)
  | 0 => some (s, [])
  | n + 1 =>
    match takeSmall s pool with
    | none => none
    | some (s, f) => (takeSmalls s pool n).map fun x => (x.1, f :: x.2)

/-- n large frames, or none at all: what was taken goes back. -/
def takeLarges (s : State) (pool : Nat) : Nat → Option (State × List Nat)
  | 0 => some (s, [])
  | n + 1 =>
    match takeLarge s pool with
    | none => none
    | some (s, f) => (takeLarges s pool n).map fun x => (x.1, f :: x.2)

end Sys2Proof.Machine
end

