-- ==== Sys2Proof/Machine/GridHome.lean ====
section
/-! DEFINITION. The destination and the root of grid messages (R389, R398, R402 to R405, R411 to R418, R518, R522): what a device does
with a request that reaches it. -/

namespace Sys2Proof.Machine

/-! ## Regions, refusals, answers -/

/-- A refusal is reported to the region's fault domain, or counted in the mailbox where there is no region (R518). -/
def noteRefusal (s : State) (m : GMsg) (cause addr : Nat) : State :=
  match regionOfCtx s m.ctx with
  | some r => postTo s r.domain (eventRecord 8 cause m.ctx 0 0 m.src m.tag addr)
  | none => { s with hi := { s.hi with mbrefuse := bumpAll s.hi.mbrefuse } }

/-- An answer to a message: it goes to the message's source, charged to the region of the context. -/
def answer (s : State) (m : GMsg) (kind : Nat) (change : GMsg → GMsg) : State :=
  let r := change { m with bytes := [], element := 0, compare := 0, markers := 0, poison := false, refused := 0, first := 0,
                           fvalid := false }
  let g : GOut := { kind, msg := r }
  match regionOfCtx s m.ctx with
  | some rg => send rg.rcb s g
  | none => route s g

/-- The acknowledgement of n constituents, performed or refused. -/
def acknowledge (s : State) (m : GMsg) (n : Nat) (refused poison : Bool) : State :=
  let lin := selfLin s
  answer s m 9 fun r => { r with cnt := n, poison, refused := if refused then n else 0, first := if refused then lin else 0,
                                 fvalid := refused }

/-- The refusal of a lane's request. -/
def refuseLane (s : State) (m : GMsg) (code : Nat) : State :=
  let lin := selfLin s
  answer s m 11 fun r => { r with refused := m.cnt, first := lin, fvalid := true, code }

/-- One more line message of an instruction is settled; the last of them is acknowledged (R402). -/
def settlePart (s : State) (m : GMsg) (refused : Bool) : State :=
  let p := (s.parts.find? fun p => p.src == m.src && p.tag == m.tag).getD { src := m.src, tag := m.tag }
  let p := { p with seen := p.seen + 1, refused := p.refused || refused, poison := p.poison || (m.poison && !refused) }
  let s := { s with parts := s.parts.filter fun q => !(q.src == m.src && q.tag == m.tag) }
  if m.nparts ≤ p.seen then acknowledge s m 1 p.refused p.poison else { s with parts := p :: s.parts }

/-- The translation at a destination (R389): in the region's context, as R147 allows remote operations. -/
def homePa (s : State) (m : GMsg) (need : Need) (va : Nat) : Except Nat (Nat × Region) :=
  match regionOfCtx s m.ctx with
  | none => .error 0x0F
  | some r =>
    match xlate s m.ctx false need va with
    | .error c => .error c
    | .ok pa => .ok (pa, r)

/-! ## Pages that have moved (R157, R158, R459) -/

/-- A request that finds its page moved is re-sent whole, with its combine records (R158). -/
def forward (s : State) (t : CombTree) (dest : Nat) : State :=
  sendOn { s with combOut := s.combOut ++ [{ tag := freshTag s, part := 0, tree := t, far := true : Relay }] } (treeKind t) dest
    (treeMsg t) none

/-! ## Completion words (R390) -/

def sat20 (n : Nat) : Nat := min n (2 ^ 20 - 1)

/-- A completion word after an indivisible update: count, refused parts with the refusing device, poisoned contributions. -/
def cwordAdd (w count refused errors : Nat) (first : Option Nat) : Nat :=
  let old := if w.testBit 104 then some (field w 103 84) else none
  let f := match first, old with
    | some a, some b => some (min a b)
    | some a, none => some a
    | none, o => o
  (field w 31 0 + count) % 2 ^ 32 + sat20 (field w 51 32 + refused) * 2 ^ 32 +
  bit (w.testBit 52 || refused != 0) * 2 ^ 52 + bit (w.testBit 53 || errors != 0) * 2 ^ 53 + field w 63 54 * 2 ^ 54 +
  sat20 (field w 83 64 + errors) * 2 ^ 64 + f.getD (field w 103 84) * 2 ^ 84 + bit f.isSome * 2 ^ 104 +
  field w 127 105 * 2 ^ 105

def updateCword (s : State) (pa count refused errors : Nat) (first : Option Nat) : State :=
  gWriteNat s pa 16 (cwordAdd (gReadNat s pa 16) count refused errors first)

/-! ## GST and GCOPY (R411, R412) -/

/-- The runs of bytes that a mask names, with their places. -/
def maskRuns : Nat → List (Bool × Byte) → List (Nat × List Byte)
  | _, [] => []
  | i, (false, _) :: l => maskRuns (i + 1) l
  | i, (true, b) :: l =>
    match maskRuns (i + 1) l with
    | (j, bs) :: rest => if j = i + 1 then (i, b :: bs) :: rest else (i, [b]) :: (j, bs) :: rest
    | [] => [(i, [b])]

/-- The bytes of a line are written; a line that arrived poisoned leaves its sectors poisoned (R522). -/
def writeLine (s : State) (m : GMsg) (r : Region) (pa : Nat) : State :=
  (maskRuns 0 m.bytes).foldl (fun s x =>
    let a := pa + x.1
    let s := chargeMem s r.rcb a x.2.length
    if cutOff s a then postMemoryError s r.rcb 0 (m.addr + x.1)
    else
      let s := gWrite s a x.2
      if m.poison then (List.range x.2.length).foldl (fun s i => poisonSector s (a + i)) s else s) s

def storeLine (s : State) (g : GOut) : State :=
  let m := g.msg
  match homePa s m .gridWrite m.addr, movedTo s m.ctx m.addr with
  | .error 0x01, some d => forward s (.one g) d
  | .error c, _ => settlePart (noteRefusal s m c m.addr) m true
  | .ok (pa, r), _ => settlePart (writeLine s m r pa) m false

/-- The oldest running launch of a context (R412). -/
def landLaunch (s : State) (ctx : Nat) : Option Launch := s.launches.find? fun l => l.ctx == ctx

/-- Where a stash landing goes (R412): nowhere, or to a block, which may not be resident. The address of such a message holds the
stash offset of its line and, above it, the block linear id. -/
def landAt (s : State) (m : GMsg) : Option (Option Block) :=
  match landLaunch s m.ctx with
  | none => none
  | some l =>
    let blk := m.addr / 2 ^ 32
    if l.ended.contains blk ∨ launchBlocks l ≤ blk ∨
       (maskRuns 0 m.bytes).any (fun x => decide (stashBytes l < m.addr % 2 ^ 32 + x.1 + x.2.length)) then none
    else
      match s.blocks.find? fun b => b.launch == l.lid && b.linear == blk with
      | some b => some (if b.state = .resident then some b else none)
      | none => some none

/-- Whether a line may land: one that is not alone needs an entry of the range scoreboard (R137, R140). -/
def landRoom (s : State) (m : GMsg) (b : Block) : Bool :=
  m.nparts == 1 || hasGrid b (m.src, m.tag) || scoreUsed s b.core < Config.scoreEntries

/-- Bytes land in a stash, and their range joins the copy's in the scoreboard; with bit 4 of the landing control they count toward a
barrier (R340, R344, R412). -/
def landLine (s : State) (m : GMsg) (b : Block) : State :=
  let runs := maskRuns 0 m.bytes
  let off := m.addr % 2 ^ 32
  let s := match runs with
    | [] => s
    | x :: _ =>
      if m.nparts = 1 then s
      else setBlock s (scoreGrid b (m.src, m.tag) (off + x.1) (runs.foldl (fun h y => max h (off + y.1 + y.2.length - 1)) 0))
  let s := runs.foldl (fun s x =>
    let o := off + x.1
    engineStash s m.ctx b.bid o x.2 (if m.poison then (List.range x.2.length).map (o + ·) else [])) s
  let n := (runs.map fun x => x.2.length).sum
  if m.landing.testBit 4 then barDeliver s b.bid (m.landing % 16) (m.landing.testBit 5) n else s

/-- A line for a stash is performed or refused; the last of a copy ends its entry in the scoreboard (R139). -/
def settleStash (s : State) (m : GMsg) (refused : Bool) : State :=
  let s := settlePart s m refused
  if s.parts.any fun p => p.src == m.src && p.tag == m.tag then s
  else { s with blocks := s.blocks.map fun b => scoreDropGrid b (m.src, m.tag) }

/-- A GCOPY line for a stash (R412, R518): it lands, waits outside the link buffers, or is refused. -/
def stashLine (s : State) (m : GMsg) : State :=
  match regionOfCtx s m.ctx, landAt s m with
  | some _, some (some b) =>
    if landRoom s m b then settleStash (landLine s m b) m false else { s with landings := s.landings ++ [m] }
  | some _, some none => { s with landings := s.landings ++ [m] }
  | _, _ => settleStash (noteRefusal s m 0x0F m.addr) m true

/-- The held lines whose blocks are resident by now land; those that can no longer land are refused. -/
def landingDue (s : State) (m : GMsg) : Bool :=
  match landAt s m with
  | some none => false
  | some (some b) => landRoom s m b
  | none => true

def deliverLandings (s : State) : State :=
  let due := s.landings.filter (landingDue s)
  due.foldl stashLine { s with landings := s.landings.filter fun m => !landingDue s m }

/-! ## GLD (R413) -/

def loadLine (s : State) (g : GOut) : State :=
  let m := g.msg
  match homePa s m .gridRead m.addr, movedTo s m.ctx m.addr with
  | .error 0x01, some d => forward s (.one g) d
  | .error c, _ => refuseLane (noteRefusal s m c m.addr) m c
  | .ok (pa, r), _ =>
    let n := elemBytes m.width
    if gPoisoned s pa n then refuseLane (noteRefusal s m 0x0E m.addr) m 0x0E
    else answer (chargeMem s r.rcb pa n) m 2 fun x => { x with element := gReadNat s pa n }

/-! ## GATOM (R403 to R405, R417) -/

/-- A request is applied at the home, as one update, and answered; or refused, or re-sent to where its page has gone (R404, R518). -/
def serveAtom (s : State) (t : CombTree) : State :=
  let m := treeMsg t
  let n := elemBytes m.width
  let refuse (c : Nat) : State := (treeLeaves t).foldl (fun s x => refuseLane s x c) (noteRefusal s m c m.addr)
  match homePa s m .gridWrite m.addr, movedTo s m.ctx m.addr with
  | .error 0x01, some d => forward s t d
  | .error c, _ => refuse c
  | .ok (pa, r), _ =>
    if gPoisoned s pa n then refuse 0x0E
    else
      let (s, v) := memAtomic (chargeMem s r.rcb pa n) pa n m.gop m.element m.compare
      splitAnswer (fun s g v => answer s g.msg 5 fun x => { x with element := v }) t v s

/-! ## GRED (R414 to R416, R522) -/

/-- The cause that refuses a contribution's line. -/
def gredRefusal (s : State) (m : GMsg) : Option (Nat × Nat) :=
  if m.poison then none
  else
    let w := elemBytes m.width
    match homePa s m .gridWrite m.addr with
    | .error c => some (c, m.addr)
    | .ok (pa, _) =>
      (lineElems m).findSome? fun e => if gPoisoned s (pa + e.1 * w) w then some (0x0E, m.addr + e.1 * w) else none

/-- The errors that an arriving contribution adds (R522): one for each poisoned GRED, on part 0. -/
def poisonErrors (kind : Nat) (m : GMsg) : Nat := bit (m.poison && (kind == 6 || m.part == 0))

/-- The count of an arriving contribution, with what it says of refusal and poison (R402, R415). -/
def countPart (s : State) (kind cwPa : Nat) (m : GMsg) (refused : Bool) : State :=
  updateCword s cwPa m.cnt (if refused then m.cnt else 0) (poisonErrors kind m) (if refused then some (selfLin s) else none)

/-- Fast and integer modes: each element is applied as RED, or in FP32 with one rounding. -/
def applyLine (s : State) (m : GMsg) : State :=
  match homePa s m .gridWrite m.addr with
  | .error _ => s
  | .ok (pa, r) =>
    let w := elemBytes m.width
    (lineElems m).foldl (fun s e => (memAtomic (chargeMem s r.rcb (pa + e.1 * w) w) (pa + e.1 * w) w m.gop e.2 0).1) s

/-! ### Batches (R415) -/

/-- The contributions of a batch: what each device contributes, the devices, and the parts of each. -/
def batchSize (s : State) (kind : Nat) (m : GMsg) : Nat :=
  patExpected s m.pat.toNat (selfCoord s) * (m.count + 1) * (if kind = 3 then m.nparts else 1)

def getBatch (s : State) (kind : Nat) (m : GMsg) : Batch :=
  (s.batches.find? fun b => b.kind == kind && b.cw == m.cw && b.ctx == m.ctx).getD { kind, cw := m.cw, ctx := m.ctx, held := [] }

def dropBatch (s : State) (b : Batch) : State :=
  { s with batches := s.batches.filter fun x => !(x.kind == b.kind && x.cw == b.cw && x.ctx == b.ctx) }

def putBatch (s : State) (b : Batch) : State := { dropBatch s b with batches := b :: (dropBatch s b).batches }

/-- (rank of the source, key): the order of a batch. -/
def batchKey (s : State) (m : GMsg) : Nat := patRank s m.pat.toNat (coordOf s m.src) * 2 ^ 64 + m.key

def insertKeyed (x : Nat × GMsg) : List (Nat × GMsg) → List (Nat × GMsg)
  | [] => [x]
  | y :: l => if x.1 < y.1 then x :: y :: l else y :: insertKeyed x l

def batchOrder (s : State) (ms : List GMsg) : List GMsg :=
  (ms.foldl (fun l m => insertKeyed (batchKey s m, m) l) []).map fun x => x.2

/-- A held contribution that supplies no value: poisoned, or refused. -/
def noValue (m : GMsg) : Bool := m.poison || m.refused != 0

/-- FADD in RNE, without flags. -/
def addF32 (x y : Nat) : Nat × Nat := ((fAdd fmtF32 .rne x y).1, 0)

/-- The tree of R218 over leaves, some without a value: all its levels. -/
def sumLevels (ls : List (Option Nat)) : List (List (Option (Nat × Nat))) :=
  treeLevels addF32 (ls.length.log2 + 1) (ls.map fun o => o.map fun v => (v, 0))

def treeSum (ls : List (Option Nat)) : Option Nat := (((sumLevels ls).getLastD []).headD none).map fun x => x.1

/-- One line of an ordered batch is reduced (R416). -/
def reduceLine (s : State) (ms : List GMsg) (part : Nat) : State :=
  let ms := ms.filter fun m => m.part == part
  match ms.find? fun m => !noValue m with
  | none => s
  | some m =>
    match homePa s m .gridWrite m.addr with
    | .error c => noteRefusal s m c m.addr
    | .ok (pa, r) =>
      (List.range 32).foldl (fun s i =>
        match treeSum (ms.map fun x => if noValue x then none else lineElem x 4 i) with
        | none => s
        | some v => (memAtomic (chargeMem s r.rcb (pa + 4 * i) 4) (pa + 4 * i) 4 10 v 0).1) s

/-- The M-stack at which a contribution is held, and how many lines each holds: 2 MiB, then spill frames (R416). -/
def heldStack (s : State) (m : GMsg) : Nat :=
  match homePa s m .gridWrite m.addr with
  | .ok (pa, _) => stackOf pa
  | .error _ => 0

def heldLines (s : State) (stack : Nat) : Nat :=
  (s.batches.map fun b => (b.held.filter fun m => b.kind == 3 && !noValue m && heldStack s m == stack).length).sum

/-- The lines of an M-stack's batches that have spilled. -/
def spilledLines (s : State) (stack : Nat) : Nat := (s.batches.map fun b => spGet 0 b.spilled stack).sum

/-- A contribution that finds the buffer of its M-stack full spills: into a frame that its batch has taken there, or a further one
(R416). -/
def spill (s : State) (m : GMsg) (b : Batch) : Option (State × Batch) :=
  match homePa s m .gridWrite m.addr with
  | .error _ => some (s, b)
  | .ok (pa, r) =>
    let k := stackOf pa
    let n := spGet 0 b.spilled k
    let next := { b with spilled := spPut 0 b.spilled k (n + 1) }
    if heldLines s k - spilledLines s k < 16384 then some (s, b)
    else if n < (b.frames.filter fun f => f.1 == k).length * (2 ^ poolK (poolWord s r.pool) / 128) then some (s, next)
    else (takeSmall s r.pool).map fun x => (x.1, { next with frames := (k, x.2) :: b.frames })

/-- The end of an ordered batch: each of its lines is reduced, and its spill frames go back. -/
def finishOrdered (s : State) (m : GMsg) (b : Batch) : State :=
  let ms := batchOrder s b.held
  let parts := (ms.map fun m => m.part).eraseDups
  let s := parts.foldl (fun s k => reduceLine s ms k) (dropBatch s b)
  match regionOfCtx s m.ctx with
  | some r => (b.frames.map fun f => f.2).foldl (giveSmall r.pool) s
  | none => s

/-- An ordered contribution is held, and the last of a batch reduces it before it counts (R416). -/
def orderedPart (s : State) (cwPa : Nat) (m : GMsg) (refused : Bool) : State :=
  let b := getBatch s 3 m
  let b := { b with held := b.held ++ [if refused then { m with refused := 1 } else m] }
  let s := acknowledge s m m.cnt refused false
  let s := if batchSize s 3 m ≤ (b.held.map fun x => x.cnt).sum then finishOrdered s m b else putBatch s b
  countPart s 3 cwPa m refused

/-- Every constituent of a contribution is acknowledged. -/
def ackLeaves (s : State) (t : CombTree) (refused : Bool) : State :=
  (treeLeaves t).foldl (fun s x => acknowledge s x x.cnt refused false) s

/-- A GRED contribution at the root, combined or not (R416, R518). -/
def gredLine (s : State) (t : CombTree) : State :=
  let m := treeMsg t
  match homePa s m .gridWrite m.cw with
  | .error c => ackLeaves (noteRefusal s m c m.cw) t true
  | .ok (cwPa, _) =>
    match gredRefusal s m with
    | some (c, a) =>
      let s := noteRefusal s m c a
      if m.mflag then orderedPart s cwPa m true else ackLeaves (countPart s 3 cwPa m true) t true
    | none =>
      if m.mflag then
        match (if m.poison then some (s, getBatch s 3 m) else spill s m (getBatch s 3 m)) with
        | none => orderedPart (noteRefusal s m 0x12 m.addr) cwPa m true
        | some (s, b) => orderedPart (putBatch s b) cwPa m false
      else
        let s := if m.poison then s else applyLine s m
        ackLeaves (countPart s 3 cwPa m false) t false

/-! ## The wait buffer of the home's router (R403) -/

def serveTree (s : State) (t : CombTree) : State := if treeKind t = 3 then gredLine s t else serveAtom s t

/-- Everything in the wait buffer is served, in order. -/
def drainComb (s : State) : State := s.comb.foldl serveTree { s with comb := [] }

/-- A request that may combine: while the port is busy it enters the buffer; else what waits there goes first. -/
def atPort (s : State) (g : GOut) (busy : Bool) : State :=
  if busy && combinable g then { s with comb := combineInto false g 64 s.comb } else serveTree (drainComb s) (.one g)

/-! ## GSCAN (R418) -/

/-- The cause that refuses a scan contribution. -/
def gscanRefusal (s : State) (m : GMsg) : Option Nat :=
  if m.poison then none
  else
    match homePa s m .gridWrite m.addr with
    | .error c => some c
    | .ok (pa, _) => if gPoisoned s pa (elemBytes m.width) then some 0x0E else none

/-- The exclusive prefixes of integer contributions, and the total: a contribution without a value supplies the identity. -/
def intPrefixes (gop w : Nat) : Nat → List GMsg → List Nat × Nat
  | acc, [] => ([], acc)
  | acc, m :: l =>
    let r := intPrefixes gop w (if noValue m then acc else atomNew gop w acc m.element 0) l
    (acc :: r.1, r.2)

/-- The values of a batch in its order, and the location's new value (R418). -/
def scanValues (gop w base : Nat) (ms : List GMsg) : List Nat × Nat :=
  if gop = 10 then
    let levels := sumLevels (ms.map fun m => some (if noValue m then 0 else m.element))
    let at' := fun i => (addF32 base (((scanFirst addF32 levels i).map fun x => x.1).getD 0)).1
    ((List.range ms.length).map at',
     (addF32 base ((((levels.getLastD []).headD none).map fun x => x.1).getD 0)).1)
  else intPrefixes gop w base ms

/-- A complete batch: the location is written, and every contribution that is still to be answered is (R418). -/
def finishScan (s : State) (b : Batch) : State :=
  let ms := batchOrder s b.held
  let s := dropBatch s b
  match ms.find? fun m => !noValue m with
  | none => s
  | some m =>
    match homePa s m .gridWrite m.addr with
    | .error c => (ms.filter fun x => !noValue x).foldl (fun s x => refuseLane s x c) (noteRefusal s m c m.addr)
    | .ok (pa, r) =>
      let w := elemBytes m.width
      let (vals, last) := scanValues m.gop w (gReadNat s pa w) ms
      let s := gWriteNat (chargeMem s r.rcb pa w) pa w last
      ((ms.zip vals).filter fun x => !noValue x.1).foldl (fun s x => answer s x.1 7 fun y => { y with element := x.2 }) s

/-- A scan contribution at the root: held until the count reaches E × M. -/
def scanPart (s : State) (cwPa : Nat) (m : GMsg) (refused : Bool) : State :=
  let b := getBatch s 6 m
  let b := { b with held := b.held ++ [if refused then { m with refused := 1 } else m] }
  let s := if m.poison then acknowledge s m m.cnt false false else s
  let s := if batchSize s 6 m ≤ (b.held.map fun x => x.cnt).sum then finishScan s b else putBatch s b
  countPart s 6 cwPa m refused

def gscanContribution (s : State) (m : GMsg) : State :=
  match homePa s m .gridWrite m.cw with
  | .error c => (if m.poison then acknowledge (noteRefusal s m c m.cw) m m.cnt true false
                 else refuseLane (noteRefusal s m c m.cw) m c)
  | .ok (cwPa, _) =>
    match gscanRefusal s m with
    | some c => scanPart (refuseLane (noteRefusal s m c m.addr) m c) cwPa m true
    | none => scanPart s cwPa m false

/-! ## Arrival (R395, R398, R408) -/

/-- A request is performed. Requests of its source for its line that wait in the combining buffer go first (R395). -/
def deliver (s : State) (g : GOut) (busy : Bool) : State :=
  let m := g.msg
  let s := if g.kind ≠ 3 ∧ g.kind ≠ 4 ∧ s.comb.any (sameSourceLine m) then drainComb s else s
  match g.kind with
  | 0 => storeLine s g
  | 1 => loadLine s g
  | 3 | 4 => atPort s g busy
  | 6 => gscanContribution s m
  | 8 => if m.mflag then stashLine s m else storeLine s g
  | _ => s

/-! ### Released writes (R398) -/

def sameRelease (src tag : Nat) (m : GMsg) : Bool := m.src == src && m.tag == tag

def findHeld (s : State) (src tag : Nat) : HeldRelease :=
  (s.heldRel.find? fun h => h.src == src && h.tag == tag).getD { src, tag }

/-- Every marker of a released write is in. -/
def releaseIn (h : HeldRelease) : Bool := h.need != 0 && decide (h.need ≤ h.got.length)

/-- A marker of a released write is lost with its plane. -/
def releaseLost (s : State) (h : HeldRelease) : Bool :=
  !releaseIn h && (livePlanes s).any fun m => s.deadPlanes.getLsbD m && !h.got.contains m

/-- What a released write's record does to its waiting parts: they need wait no longer, or are discarded; the record goes with the last of
n parts. -/
def settleRelease (s : State) (h : HeldRelease) (n : Nat) : State :=
  let parts := if releaseLost s h then s.portIn.filter fun g => !(g.msg.markers != 0 && sameRelease h.src h.tag g.msg)
    else if releaseIn h then
      s.portIn.map fun g => if sameRelease h.src h.tag g.msg then { g with msg := { g.msg with markers := 0 } } else g
    else s.portIn
  let others := s.heldRel.filter fun x => !(x.src == h.src && x.tag == h.tag)
  { s with portIn := parts, heldRel := if n ≤ h.seen ∧ (releaseLost s h ∨ releaseIn h) then others else h :: others }

/-- The number of parts of a released write, as far as it is known. -/
def releaseParts (s : State) (src tag : Nat) : Nat :=
  match s.portIn.find? fun g => sameRelease src tag g.msg with
  | some g => g.msg.nparts
  | none => 2 ^ 24

/-! ### Requests of one source to one line keep their order (R185, R395) -/

def sameOrder (a b : GMsg) : Bool := a.src == b.src && a.addr / 128 == b.addr / 128

/-- The waiting requests that may be performed, and those that still wait: for markers, or behind one that does. -/
def splitPort : List GOut → List GOut → List GOut × List GOut
  | _, [] => ([], [])
  | held, g :: l =>
    if g.msg.markers != 0 || held.any fun h => sameOrder h.msg g.msg then
      let r := splitPort (g :: held) l
      (r.1, g :: r.2)
    else
      let r := splitPort held l
      (g :: r.1, r.2)

/-- What may be performed is; while the port is busy, those that may combine enter its buffer. -/
def settlePort (s : State) (busy : Bool) : State :=
  let r := splitPort [] s.portIn
  r.1.foldl (fun s g => deliver s g busy) { s with portIn := r.2 }

/-- A message reaches the home's port, charged to its context's region; a released write waits for its markers (R398). -/
def arrive (s : State) (g : GOut) (busy : Bool := false) : State :=
  let s := match regionOfCtx s g.msg.ctx with
    | some r => chargeFabric s r.rcb (payloadBytes g) true
    | none => s
  let s := { s with portIn := s.portIn ++ [g] }
  if g.msg.markers = 0 then settlePort s busy
  else
    let h := findHeld s g.msg.src g.msg.tag
    settlePort (settleRelease s { h with need := g.msg.markers, seen := h.seen + 1 } g.msg.nparts) busy

/-- The release marker of a plane arrives. -/
def markerArrives (s : State) (src tag plane : Nat) : State :=
  let h := findHeld s src tag
  settlePort (settleRelease s { h with got := (plane :: h.got).eraseDups } (releaseParts s src tag)) false

/-- What a link brings takes slots of its channel there, which are free again at once (R393). -/
def fromLink (s : State) (g : GOut) : State :=
  match linkFor s g with
  | some k => acceptFlits s k (vcOf g) (flitCount g)
  | none => s

end Sys2Proof.Machine
end

