-- ==== Sys2Proof/Machine/Task.lean ====
section
/-! DEFINITION. Launch packets as the dispatcher checks them (R80, R83, R86), task classes, dependence counters and task spawns
(R94, R95, R441 to R443). -/

namespace Sys2Proof.Machine

/-! ## The checks of a packet (R83) -/

def pkDet (n : Nat) : Bool := n.testBit 147
def pkStrict (n : Nat) : Bool := n.testBit 148

/-- Code 1: a reserved bit or value, or strict without det. -/
def packetReserved (n : Nat) : Bool :=
  n.testBit 0 || field n 63 57 != 0 || field n 127 122 != 0 || field n 191 159 != 0 || field n 255 230 != 0 ||
  field n 319 300 != 0 || 64 < field n 383 377 || field n 447 441 != 0 || field n 511 505 != 0 || field n 1023 633 != 0 ||
  (pkStrict n && !pkDet n) || !(pkQlog n == 0 || (8 ≤ pkQlog n && pkQlog n ≤ 16))

/-- Code 2: more than a core has (R21, R22). -/
def packetTooBig (n : Nat) : Bool :=
  8192 < pkStash n || 128 < pkAcc n || 512 < pkMarver n || 32 < pkMeta n

/-- Code 3: the producer, vregs or sregs out of range. -/
def packetShape (n : Nat) : Bool :=
  pkPacks n ≤ pkProducer n || pkVregs n < 1 || 128 < pkVregs n || pkSregs n < 1 || 64 < pkSregs n

/-- The regions that a source may launch into (R86): a queue's own, or those of the issuing leaf's fault domain. -/
def sourceAllows (s : State) (src : LaunchSource) (rcb : Nat) : Bool :=
  match src with
  | .queue _ r => rcb == r
  | .leaf r => under s (domainOf s 8 r) rcb

/-- The region of a packet, if it names a valid leaf RCB that the source may launch into, with a valid context (code 4; R450). -/
def packetRegion (s : State) (src : LaunchSource) (n : Nat) : Option Region :=
  if sourceAllows s src (pkRegion n) && rcbLeaf (rcbWord s (pkRegion n)) then
    (regionOf s (pkRegion n)).bind fun r => if (ctxEntry s r.ctxid).isSome then some r else none
  else none

/-- Code 7: args, tdbase, capbase or done misaligned. -/
def packetMisaligned (n : Nat) : Bool :=
  pkArgs n % 64 != 0 || field n 440 384 % 64 != 0 || field n 504 448 % 64 != 0 || pkDone n % 8 != 0

/-- The reason code of R83: the lowest of those that apply. -/
def packetReason (s : State) (src : LaunchSource) (n : Nat) : Nat :=
  if packetReserved n then 1
  else if packetTooBig n then 2
  else if packetShape n then 3
  else
    match packetRegion s src n with
    | none => 4
    | some r =>
      if pkDet n && r.det == 3 then 5
      else if r.cores == 0 then 6
      else if packetMisaligned n then 7
      else 0

/-! ## Device writes (R565) -/

/-- The first byte address of translated units that a write cannot reach. -/
def unreached (s : State) (ps : List (Nat × Nat)) (va : Nat) : Option Nat :=
  (ps.find? fun p => cutOff s p.2).map fun p => max va p.1

/-- A write that the device makes for software: not performed, and reported, where its translation or its memory fails. -/
def deviceWrite (s : State) (rcb ctx block va : Nat) (bs : List Byte) : State :=
  let lost := fun (c a : Nat) => postEvent s rcb (eventRecord 13 c ctx 0 0 block 0 a)
  match xlateRange s ctx false .write va bs.length with
  | .error (c, a) => lost c a
  | .ok ps =>
    match unreached s ps va with
    | some a => lost 0x0E a
    | none => pagesWrite (chargeMem s rcb (pagesPa ps va) bs.length) ps va bs

/-! ## Tasks (R94, R95) -/

/-- The tasks that are queued or running. -/
def liveTasks (s : State) : Nat :=
  (s.arriving.filter fun p => p.isTask).length + (s.launches.filter fun l => l.isTask).length

/-- A task of a class goes to the dispatcher; a class that is not registered has none. -/
def startTask (s : State) (cls : Nat) (arg0 : DWord) (task : Option TileTask) : State :=
  match spFind? s.classes cls with
  | none => s
  | some c =>
    { s with arriving := s.arriving ++
        [{ packet := c.packet, source := .leaf c.region, arg0 := some arg0, task, isTask := true }] }

/-- A spawn waits behind those already pending, and while 4,096 tasks are live (R95). -/
def spawnTask (s : State) (counter cls : Nat) : State :=
  if s.spawns.isEmpty && liveTasks s < Config.maxTasks then startTask s cls 0 none
  else { s with spawns := s.spawns ++ [(counter, cls)] }

/-- The spawns that have room proceed in their order (R95). -/
def startSpawn (s : State) : State :=
  match s.spawns with
  | [] => s
  | x :: l => startTask { s with spawns := l } x.2 0 none

def spawnReady (s : State) : Bool := !s.spawns.isEmpty && liveTasks s < Config.maxTasks

/-! ## Dependence counters (R94, R443) -/

def counterAt (s : State) (n : Nat) : DepCounter := spGet {} s.counters n

def putCounter (s : State) (n : Nat) (c : DepCounter) : State := { s with counters := spPut {} s.counters n c }

/-- A bound counter that comes to zero spawns one task of its class. -/
def counterZero (s : State) (n : Nat) : State :=
  match (counterAt s n).cls with
  | none => s
  | some c => spawnTask s n c

/-- A counter takes a value; a change from a non-zero value to zero spawns. -/
def counterTo (s : State) (n x : Nat) : State :=
  let c := counterAt s n
  let s := putCounter s n { c with value := BitVec.ofNat 32 x }
  if c.value ≠ 0 ∧ BitVec.ofNat 32 x = 0#32 then counterZero s n else s

/-- Whether a counter, or a class, is a context's to use: one that another context has set or defined is not (R443). What software gets
wrong in one region changes nothing of another's (R6). -/
def counterFor (s : State) (ctx n : Nat) : Bool := (counterAt s n).ctx.all (· == ctx)

def classFor (s : State) (ctx c : Nat) : Bool := (spFind? s.classes c).any fun x => x.ctx == ctx

/-- The scheduler adds one for a context (R441). -/
def counterUp (s : State) (ctx n : Nat) : State :=
  if counterFor s ctx n then counterTo s n ((counterAt s n).value.toNat + 1) else s

/-- The scheduler subtracts one; a counter at zero stays there. -/
def counterDown (s : State) (ctx n : Nat) : State :=
  if counterFor s ctx n then counterTo s n ((counterAt s n).value.toNat - 1) else s

end Sys2Proof.Machine
end

