-- ==== Sys2Proof/Machine/Ert.lean ====
section
/-! DEFINITION. The expert residency table (R435, R436), the kennel (R437, R530) and the pager (R438, R493, R528). -/

namespace Sys2Proof.Machine

/-! ## Entries (R435) -/

/-- A number with one of its bit fields replaced. -/
def putField (n hi lo v : Nat) : Nat := n - field n hi lo * 2 ^ lo + v % 2 ^ (hi - lo + 1) * 2 ^ lo

def ertAddr (s : State) (i : Nat) : Nat := field s.sys.ertbase.toNat 51 13 * 8192 + 32 * i

def ertEntry (s : State) (i : Nat) : Nat := gReadNat s (ertAddr s i) 32

def putErt (s : State) (i n : Nat) : State := gWriteNat s (ertAddr s i) 32 n

def ertState (n : Nat) : Nat := field n 2 0
def ertDefer (n : Nat) : Bool := n.testBit 3
def ertPins (n : Nat) : Nat := field n 15 4
def ertCtx (n : Nat) : Nat := field n 31 16
def ertPages (n : Nat) : Nat := field n 47 32
def ertParked (n : Nat) : Nat := field n 63 48
def ertSrc (n : Nat) : Nat := field n 127 64
def ertDst (n : Nat) : Nat := field n 191 128

def setErtState (n st : Nat) : Nat := putField n 2 0 st
def setErtDefer (n : Nat) (d : Bool) : Nat := putField n 3 3 (bit d)
def setErtPins (n p : Nat) : Nat := putField n 15 4 p
def setErtParked (n p : Nat) : Nat := putField n 63 48 p

/-- A row is placed without parking, and a tile spawns (R436). -/
def ertAdmits (n : Nat) : Bool := ertState n == 2 || (ertState n == 3 && !ertDefer n)

/-- No TLB on the device holds a translation that meets a range (R438, R457). -/
def tlbDrop (s : State) (ctx va len : Nat) : State :=
  { s with tlb := s.tlb.filter fun e => !(e.ctx == ctx && e.va < va + len && va < e.va + 2 ^ e.k) }

/-- No TLB holds a page of an entry's dst range (R483). -/
def dropDst (s : State) (n : Nat) : State := tlbDrop s (ertCtx n) (ertDst n) (ertPages n * 2 ^ 21)

/-- An entry becomes fetching; the pager takes its fetch in turn (R438). -/
def startFetch (s : State) (i : Nat) : State :=
  let t := dropDst (putErt s i (setErtState (ertEntry s i) 1)) (ertEntry s i)
  { t with fetches := t.fetches ++ [{ idx := i }] }

/-- A spawn or a pin (R436). -/
def ertPin (s : State) (i : Nat) : State :=
  let n := ertEntry s i
  if ertState n = 2 ∨ ertState n = 3 then putErt s i (setErtState (setErtPins n (ertPins n + 1)) 3) else s

/-- A task end or an unpin (R436): at pins = 0, evicting if the entry was told to, else resident. -/
def ertUnpin (s : State) (i : Nat) : State :=
  let n := ertEntry s i
  if ertState n = 3 ∧ ertPins n ≠ 0 then
    let m := setErtPins n (ertPins n - 1)
    putErt s i (if ertPins n = 1 then setErtState m (if ertDefer n then 4 else 2) else m)
  else s

/-- An eviction, or an invalidation of a page of dst (R436). -/
def ertEvict (s : State) (i : Nat) : State :=
  let n := ertEntry s i
  if ertState n = 2 then putErt s i (setErtState n 4)
  else if ertState n = 3 then putErt s i (setErtDefer n true)
  else s

/-- Whether a virtual range meets the pages of an entry's dst, in its context. -/
def ertCovers (n ctx va len : Nat) : Bool :=
  ertPages n != 0 && ertCtx n == ctx && va < ertDst n + ertPages n * 2 ^ 21 && ertDst n < va + len

/-- The entries that memory or a stash line holds anything of: an entry of zeros is undefined (R435). -/
def ertListed (s : State) : List Nat :=
  let base := ertAddr s 0
  let inside := fun (a : Nat) => base ≤ a && a < base + 16384 * 32
  let cells := ((s.mem.map (·.1)).filter inside).map fun a => (a - base) / 32
  let lines := (s.blocks.flatMap fun b => (b.lines.map (·.pa)).filter inside).flatMap fun a =>
    (List.range 4).map fun i => (a - base) / 32 + i
  (cells ++ lines).eraseDups

/-- The entries in a state that a test selects, of one context or of all, whose dst range meets a range (R439). -/
def ertHits (s : State) (ctx : Option Nat) (va len : Nat) (sel : Nat → Bool) : List Nat :=
  (ertListed s).filter fun i =>
    let n := ertEntry s i
    sel (ertState n) && ertCovers n (ctx.getD (ertCtx n)) va len

/-! ## The kennel (R437, R530) -/

def kennelBase (s : State) : Nat := field s.sys.kennelcfg.toNat 51 20 * 2 ^ 20

/-- The lowest entry that no row takes (R437 leaves the place open; log 17). -/
def kennelPlace (s : State) : Nat :=
  ((List.range (s.kennel.length + 1)).find? fun k => !s.kennel.any fun e => e.place == k).getD 0

/-- The 16 bytes of a kennel entry; `slot` is the token's (R437, and the timeline at R483). -/
def kennelWord (e : KennelEntry) : Nat := e.ert + e.pos * 2 ^ 32 + e.bank % 2 * 2 ^ 52 + e.slot % 8 * 2 ^ 53

/-- Whether a row may park (R530). -/
def kennelTakes (s : State) (n : Nat) : Bool :=
  s.sys.kennelcfg.getLsbD 0 && s.kennel.length < Config.kennelEntries && ertParked n < 65535

/-- A row parks; an absent expert's fetch starts (R436). -/
def park (s : State) (e : KennelEntry) : State :=
  let e := { e with place := kennelPlace s }
  let s := gWriteNat { s with kennel := s.kennel ++ [e] } (kennelBase s + 16 * e.place) 16 (kennelWord e)
  let n := ertEntry s e.ert
  let s := putErt s e.ert (setErtParked n (ertParked n + 1))
  if ertState n = 0 then startFetch s e.ert else s

/-- The rows of an expert leave the kennel. -/
def unpark (s : State) (i : Nat) : State × List KennelEntry :=
  let out := s.kennel.filter fun e => e.ert == i
  (out.foldl (fun s e => gWriteNat s (kennelBase s + 16 * e.place) 16 0)
    { s with kennel := s.kennel.filter fun e => e.ert != i }, out)

/-- A batch of a slot, changed. -/
def modBatch (s : State) (slot : Nat) (sel : BatchState → Bool) (f : BatchState → BatchState) : State :=
  match spFind? s.gates slot with
  | none => s
  | some g => { s with gates := spSet s.gates slot { g with batches := g.batches.map fun m => if sel m then f m else m } }

/-- A released row counts toward its tile (R437); a discarded one leaves its position void (R528). -/
def releaseRow (void : Bool) (s : State) (e : KennelEntry) : State :=
  if (spFind? s.gates e.gate).any fun g => g.ctx == ertCtx (ertEntry s e.ert) then
    modBatch s e.gate (fun m => m.batch % 2 == e.bank) fun m =>
      let k := (e.expert, e.pos)
      { m with parked := m.parked.filter (· != k), void := if void then k :: m.void else m.void }
  else s

/-! ## Page-table entries -/

/-- The table of a level that an address uses in a context, if every level above has its table. -/
def tableFrom (s : State) (va : Nat) (want : Nat) : Nat → Nat → Option Nat
  | 0, table => if want = 0 then some table else none
  | n + 1, table =>
    if want = n + 1 then some table
    else
      let e := gReadNat s (table + 8 * (va / 2 ^ (12 + 9 * (n + 1)) % 512)) 8
      let next := field e 51 12 * 4096
      if !e.testBit 0 || e.testBit 1 || !tablePaOk next then none else tableFrom s va want n next

/-- The physical address of the entry of an address at a level. -/
def entryAddr (s : State) (ctx va level : Nat) : Option Nat :=
  match ctxEntry s ctx with
  | none => none
  | some (root, _) =>
    if !tablePaOk root then none
    else (tableFrom s va level 4 root).map fun t => t + 8 * (va / 2 ^ (12 + 9 * level) % 512)

/-! ## The pager (R438, R528) -/

/-- The fetches that run: the first 32 in order. -/
def runningFetch (s : State) (i : Nat) : Option Fetch := (s.fetches.take 32).find? fun f => f.idx == i

/-- The pool of an entry's owning region. -/
def ertPool (s : State) (n : Nat) : Nat :=
  match regionOfCtx s (ertCtx n) with
  | some r => r.pool
  | none => 0

/-- Whether the whole source lies in the expert tier. -/
def srcOk (n : Nat) : Bool :=
  tierOf (ertSrc n) == some .expert && tierOf (ertSrc n + ertPages n * 2 ^ 21 - 1) == some .expert

/-- Stash lines of a physical range go back to their homes (R133). -/
def recallSpan (s : State) (pa n : Nat) : State :=
  s.blocks.foldl (fun s b => b.lines.foldl (fun s l => if pa ≤ l.pa && l.pa < pa + n then recallLine s l.pa else s) s) s

/-- What n bytes of memory hold, by their places: the bytes that are not at the default, and the poisoned sectors. -/
def spanCells (s : State) (pa n : Nat) : List Host.Cell :=
  (s.mem.filter fun c => pa ≤ c.1 && c.1 < pa + n).map fun c => (c.1 - pa, c.2)

def spanPoison (s : State) (pa n : Nat) : List Nat :=
  (s.poison.filter fun k => pa ≤ 32 * k && 32 * k < pa + n).map fun k => k - pa / 32

/-- A frame takes bytes and marks; no cache keeps a copy of what it held (R156 steps 2 and 3). -/
def putSpan (s : State) (pa n : Nat) (cells : List Host.Cell) (bad : List Nat) : State :=
  let old := (s.mem.filter fun c => pa ≤ c.1 && c.1 < pa + n).map fun c => (c.1, Config.memDefault)
  let kept := s.poison.filter fun k => !(pa ≤ 32 * k && 32 * k < pa + n)
  { s with mem := (old ++ cells.map fun c => (pa + c.1, c.2)).foldl (fun m c => spPut Config.memDefault m c.1 c.2) s.mem,
           poison := bad.foldl (fun p k => insNat p (pa / 32 + k)) kept }

/-- The copies of n bytes that caches hold are gone (R154, R156). -/
def dropCaches (s : State) (pa n : Nat) : State :=
  { s with l2 := s.l2.filter fun l => !(pa ≤ 128 * l.1 && 128 * l.1 < pa + n),
           cores := s.cores.map fun c => (c.1, { c.2 with l1 := c.2.l1.filter fun l => !(pa ≤ 128 * l.line && 128 * l.line < pa + n) }) }

/-- n bytes are copied between frames of whole sectors, with their poison marks (R507, R511). -/
def copySpan (s : State) (src dst n : Nat) : State :=
  let s := recallSpan (recallSpan s src n) dst n
  dropCaches (putSpan s dst n (spanCells s src n) (spanPoison s src n)) dst n

/-- The first poisoned sector of the source. -/
def srcPoison (s : State) (n : Nat) : Option Nat :=
  (s.poison.find? fun k => ertSrc n ≤ 32 * k && 32 * k < ertSrc n + ertPages n * 2 ^ 21).map (32 * ·)

/-- A level-1 leaf of the pager (R438): size 9, no w, x or gw. -/
def pagerLeaf (frame : Nat) : Nat := 3 + 9 * 2 ^ 6 + frame

/-- One page of an expert arrives: its bytes, then its leaf. -/
def fetchPage (n : Nat) (s : State) (x : Nat × Nat) : State :=
  let s := copySpan s (ertSrc n + x.1 * 2 ^ 21) x.2 (2 ^ 21)
  match entryAddr s (ertCtx n) (ertDst n + x.1 * 2 ^ 21) 1 with
  | some a => gWriteNat s a 8 (pagerLeaf x.2)
  | none => s

/-- The expert-tier port of each page of a source (R103, R122). -/
def fetchPorts (n : Nat) : List Nat := (List.range (ertPages n)).map fun k => (memUnit (ertSrc n + k * 2 ^ 21)).1

/-- The bytes of a fetch are charged at the ports that they cross (R103, R438). -/
def chargeFetch (s : State) (n : Nat) : State :=
  match regionOfCtx s (ertCtx n) with
  | none => s
  | some r => (fetchPorts n).foldl (fun s unit => count (charge s unit 4 r.rcb (2 ^ 21)) unit r.rcb 6 (2 ^ 21)) s

/-- The owning region is held at none of the ports (R104). -/
def fetchFunded (s : State) (n : Nat) : Bool :=
  match regionOfCtx s (ertCtx n) with
  | none => true
  | some r => (fetchPorts n).all fun unit => !heldAt s unit 4 r.rcb

/-- The tables that the leaves of a fetch go to are there: the pager completes its leaf writes before residency (R483; log 63). -/
def leavesThere (s : State) (n : Nat) : Bool :=
  (List.range (ertPages n)).all fun k => (entryAddr s (ertCtx n) (ertDst n + k * 2 ^ 21) 1).isSome

/-- A fetch completes with its frames: bytes, leaves, then residency (R483); parked rows are released in kennel order. -/
def fetchDone (s : State) (i : Nat) (frames : List Nat) : State :=
  let n := ertEntry s i
  let s := frames.mapIdx (fun k f => (k, f)) |>.foldl (fetchPage n) s
  let s := dropDst (chargeFetch s n) n
  let s := match srcPoison s n, regionOfCtx s (ertCtx n) with
    | some a, some r => postMemoryError s r.rcb 0 a
    | _, _ => s
  let (s, rows) := unpark { s with fetches := s.fetches.filter fun f => f.idx != i } i
  rows.foldl (releaseRow false) (putErt s i (setErtParked (setErtState (ertEntry s i) 2) 0))

/-- Entry i is absent: no TLBINV or MIGRATE waits for it any longer (R439). -/
def passAbsent (s : State) (i : Nat) : State :=
  { s with blocks := s.blocks.map fun b => { b with packs := b.packs.map fun p => { p with frags := p.frags.map fun f =>
      { f with evicts := f.evicts.map fun l => l.filter (· != i) } } } }

/-- After the third failure (R528): absent, its rows discarded, the event posted. -/
def fetchFailed (s : State) (i : Nat) (pool : Bool) : State :=
  let n := ertEntry s i
  let (s, rows) := unpark { s with fetches := s.fetches.filter fun f => f.idx != i } i
  let s := rows.foldl (releaseRow true) (passAbsent (putErt s i (setErtParked (setErtState n 0) 0)) i)
  match regionOfCtx s (ertCtx n) with
  | none => s
  | some r => postEvent s r.rcb (eventRecord 6 (if pool then 0x12 else 0x11) (ertCtx n) 0 0 i rows.length (ertSrc n))

/-- An attempt fails (R528). -/
def attemptFails (s : State) (f : Fetch) (pool : Bool) : State :=
  if 2 ≤ f.tries then fetchFailed s f.idx pool
  else { s with fetches := s.fetches.map fun g => if g.idx = f.idx then { g with tries := g.tries + 1 } else g }

/-- The frames of a fetch, if its pool has them. -/
def fetchFrames (s : State) (i : Nat) : Option (State × List Nat) :=
  let n := ertEntry s i
  takeLarges s (ertPool s n) (ertPages n)

/-- PAGER_FETCH_COMPLETE: a fetch that runs, whose source lies in the expert tier, whose frames the pool has, whose leaves have their
tables, and whose bytes its region may move. -/
def fetchReady (s : State) (i : Nat) : Bool :=
  let n := ertEntry s i
  (runningFetch s i).isSome && srcOk n && (fetchFrames s i).isSome && leavesThere s n && fetchFunded s n

def onPagerFetchComplete (idx : BitVec 14) (s : State) : Option State :=
  let i := idx.toNat
  due (fetchReady s i) (match fetchFrames s i with
    | some (s, frames) => fetchDone s i frames
    | none => s)

/-- The step of PAGER_FETCH_COMPLETE. -/
def execPagerFetchComplete (idx : BitVec 14) (s : State) : Host.Outcome State Fault Refusal :=
  occur s (onPagerFetchComplete idx s)

/-- One page of an evicted expert is unmapped and its frame returned (R438). -/
def unmapPage (n pool : Nat) (s : State) (k : Nat) : State :=
  match entryAddr s (ertCtx n) (ertDst n + k * 2 ^ 21) 1 with
  | none => s
  | some a =>
    let leaf := gReadNat s a 8
    let s := gWriteNat s a 8 0
    if leaf % 4 = 3 ∧ poolValid (poolWord s pool) then giveLarge pool s (field leaf 51 12 * 4096) else s

/-- EVICT_UNMAP_COMPLETE (R436, R438). -/
def evictDone (s : State) (i : Nat) : State :=
  let n := ertEntry s i
  let s := (List.range (ertPages n)).foldl (unmapPage n (ertPool s n)) s
  let s := dropDst s n
  let s := passAbsent (putErt s i (setErtDefer (setErtState (ertEntry s i) 0) false)) i
  if ertParked n = 0 then s else startFetch s i

def onEvictUnmapComplete (idx : BitVec 14) (s : State) : Option State :=
  due (ertState (ertEntry s idx.toNat) == 4) (evictDone s idx.toNat)

/-- The step of EVICT_UNMAP_COMPLETE. -/
def execEvictUnmapComplete (idx : BitVec 14) (s : State) : Host.Outcome State Fault Refusal :=
  occur s (onEvictUnmapComplete idx s)

end Sys2Proof.Machine
end

