-- ==== Sys2Proof/Machine/Accept.lean ====
section
/-! DEFINITION. Which field values each instruction accepts: the encodings that are instructions and not reserved, as far as the
fields alone decide it (R13, R235 to R239, R242 to R253, and the entry of each instruction). The limits that a launch sets
(vregs, sregs, R236) are checked at issue, in Machine/Operands.lean. -/

namespace Sys2Proof.Machine

/-! ## Operands -/

/-- A type whose element is 64 bits wide (R235). -/
def tyWide (t : Ty) : Bool := t == .i64 || t == .n64 || t == .f64 || t == .b64

/-- A source that is read as 32 bits: any code but "unused" (R233, R239). -/
def srcOne (s : Src) : Bool := s != .unused

/-- A source that is read as 64 bits (R235): an even v or s register, a latch or a constant; no queue. -/
def srcPair : Src → Bool
  | .v n => n.toNat % 2 == 0
  | .s n => n.toNat % 2 == 0
  | .q _ => false
  | .unused => false
  | _ => true

/-- A source read as one register or as a pair. -/
def srcW (wide : Bool) (s : Src) : Bool := if wide then srcPair s else srcOne s

/-- A field that the instruction does not read (R239). -/
def srcNone (s : Src) : Bool := s == .unused

def srcIsS : Src → Bool
  | .s _ => true
  | _ => false

/-- An s register whose number is a multiple of n. -/
def srcS (n : Nat) : Src → Bool
  | .s k => k.toNat % n == 0
  | _ => false

/-- A v or s register whose number is a multiple of n. -/
def srcVS (n : Nat) : Src → Bool
  | .v k => k.toNat % n == 0
  | .s k => k.toNat % n == 0
  | _ => false

def srcV (n : Nat) : Src → Bool
  | .v k => k.toNat % n == 0
  | _ => false

def srcConst : Src → Bool
  | .k _ => true
  | .c _ => true
  | _ => false

/-- "s or constant". -/
def srcSK (s : Src) : Bool := srcIsS s || srcConst s

/-- "u" (R424, R455): an s register or a constant code 208–239. -/
def srcU : Src → Bool
  | .s _ => true
  | .k _ => true
  | _ => false

/-- A uniform register or constant, or no source at all: what R238 lets a uniform destination read. -/
def srcUniform (s : Src) : Bool := srcSK s || srcNone s

def predAll : Pred := { neg := false, idx := 7#3 }

/-! ## Destinations -/

def dstIsNull (d : Dst) : Bool := d == .null

def dstIsV : Dst → Bool
  | .v _ => true
  | _ => false

def dstIsS : Dst → Bool
  | .s _ => true
  | _ => false

def dstIsP : Dst → Bool
  | .p _ => true
  | _ => false

def dstIsQ : Dst → Bool
  | .q _ => true
  | _ => false

/-- A v or s destination whose number is a multiple of n. -/
def dstVS (n : Nat) : Dst → Bool
  | .v k => k.toNat % n == 0
  | .s k => k.toNat % n == 0
  | _ => false

/-- The pair rule of R235 for a destination of a 64-bit result. -/
def dstW (wide : Bool) (d : Dst) : Bool :=
  if wide then dstVS 2 d || dstIsP d || dstIsNull d else true

/-- nowb = 1 requires a v or s destination (R242). -/
def nowbOk (nowb : Bool) (d : Dst) : Bool := !nowb || dstIsV d || dstIsS d

def dstAny (_ : Dst) : Bool := true
def dstVSP (d : Dst) : Bool := dstIsV d || dstIsS d || dstIsP d
def dstVSPN (d : Dst) : Bool := dstVSP d || dstIsNull d
def dstVSQN (d : Dst) : Bool := dstIsV d || dstIsS d || dstIsQ d || dstIsNull d
def dstVSN (d : Dst) : Bool := dstIsV d || dstIsS d || dstIsNull d
def dstSN (d : Dst) : Bool := dstIsS d || dstIsNull d

/-! ## The generic layout -/

/-- The fields that carry no value: round, sat, scope and hint zero (R244). -/
def genPlain (g : Gen) : Bool := g.rnd == .rne && !g.sat && g.scope == .block && g.hint == 0#4

/-- The destination, with its width, and R238. -/
def genDst (g : Gen) (ok : Dst → Bool) (wide : Bool) : Bool :=
  ok g.dst && dstW wide g.dst && nowbOk g.nowb g.dst &&
  (!dstIsS g.dst || (srcUniform g.a && srcUniform g.b && srcUniform g.c))

/-- The same for the instructions that R238's exception covers (VOTE, REDUX, BCAST). -/
def genDstX (g : Gen) (ok : Dst → Bool) (wide : Bool) : Bool :=
  ok g.dst && dstW wide g.dst && nowbOk g.nowb g.dst

def genSrc (g : Gen) (a b c : Src → Bool) : Bool := a g.a && b g.b && c g.c

def noDst (g : Gen) : Bool := dstIsNull g.dst && !g.nowb

/-- An instruction for the whole fragment: pred4 = 0b0111, no type and no modifier but opx (R263, R265). -/
def genCtl (g : Gen) : Bool := genPlain g && g.pred == predAll && g.ty == .i32

def tysI8 : List Ty := [.i32, .n32, .i64, .n64, .i16x2, .n16x2, .i8x4, .n8x4]
def tysI4 : List Ty := [.i32, .n32, .i64, .n64]
def tysB : List Ty := [.b32, .b64]
def tysF4 : List Ty := [.f32, .f64, .f16x2, .bf16x2]

/-! ## Control (R265 to R279) -/

def acceptNop (g : Gen) : Bool :=
  genPlain g && g.ty == .i32 && g.opx == 0#4 && noDst g && genSrc g srcNone srcNone srcNone

def acceptRet (g : Gen) : Bool :=
  genCtl g && g.opx == 0#4 && noDst g && genSrc g srcNone srcNone srcNone

def acceptRegang (g : Gen) : Bool :=
  genCtl g && g.opx == 0#4 && noDst g && genSrc g srcSK srcNone srcNone

def acceptHold (g : Gen) : Bool := genCtl g && noDst g && genSrc g srcNone srcNone srcNone

def acceptWaitcnt (g : Gen) : Bool :=
  genCtl g && g.opx.toNat ≤ 4 && noDst g && genSrc g srcSK srcNone srcNone

def acceptPsplit (g : Gen) : Bool :=
  genCtl g && (1 ≤ g.opx.toNat && g.opx.toNat ≤ 3) && noDst g && genSrc g srcNone srcNone srcNone

def acceptBra (j : J64) : Bool := j.pred == predAll && srcNone j.tgt
def acceptBrany (j : J64) : Bool := srcNone j.tgt
def acceptJmp (j : J64) : Bool := j.pred == predAll && srcS 2 j.tgt && j.off == 0#32

def srcBrc (s : Src) : Bool :=
  match s with
  | .q _ => false
  | .unused => false
  | _ => true

def acceptBrc (c : Brc) : Bool := srcBrc c.a && srcBrc c.b
def acceptBrv (v : Brv) : Bool := v.toff != 0#20 && v.joff != 0#20

/-! ## Integer (R263, R280 to R291) -/

/-- The frame of every integer and lane-exchange instruction: no rounding, scope or hint. -/
def intMod (g : Gen) (sat : Bool) : Bool :=
  g.rnd == .rne && (sat || !g.sat) && g.scope == .block && g.hint == 0#4

def acceptInt2 (g : Gen) (tys : List Ty) (sat : Bool) : Bool :=
  let w := tyWide g.ty
  intMod g sat && tys.contains g.ty && g.opx == 0#4 && genDst g dstAny w && genSrc g (srcW w) (srcW w) srcNone

def acceptImad (g : Gen) : Bool :=
  let w := tyWide g.ty
  intMod g true && tysI8.contains g.ty && g.opx == 0#4 && genDst g dstAny w && genSrc g (srcW w) (srcW w) (srcW w)

/-- A shift or bit-field extraction: the second source is one 32-bit operand whatever the type (R282, R283). -/
def acceptShift (g : Gen) (tys : List Ty) : Bool :=
  let w := tyWide g.ty
  intMod g false && tys.contains g.ty && g.opx == 0#4 && genDst g dstAny w && genSrc g (srcW w) srcOne srcNone

def acceptBfi (g : Gen) : Bool :=
  let w := tyWide g.ty
  intMod g false && tysB.contains g.ty && g.opx == 0#4 && genDst g dstAny w && genSrc g (srcW w) (srcW w) srcOne

def acceptInt1 (g : Gen) : Bool :=
  let w := tyWide g.ty
  intMod g false && tysB.contains g.ty && g.opx == 0#4 && genDst g dstAny w && genSrc g (srcW w) srcNone srcNone

def acceptPrmt (g : Gen) : Bool :=
  intMod g false && g.ty == .b32 && g.opx == 0#4 && genDst g dstAny false && genSrc g srcOne srcOne srcOne

def acceptLea (g : Gen) : Bool :=
  intMod g false && (g.ty == .i64 || g.ty == .n64 || g.ty == .b64) && genDst g (dstVS 2) true &&
  genSrc g srcPair (srcW (g.ty == .b64)) srcNone

def acceptIset (g : Gen) : Bool :=
  let w := tyWide g.ty
  intMod g false && tysI8.contains g.ty && g.opx.toNat ≤ 5 && genDst g dstAny w && genSrc g (srcW w) (srcW w) srcNone

def acceptSel (g : Gen) : Bool :=
  let w := tyWide g.ty
  intMod g false && tysB.contains g.ty && genDst g dstAny w && genSrc g (srcW w) (srcW w) srcNone

/-- The special registers of 64 bits, and those whose value differs per lane (R288). -/
def srWide (r : SpecialReg) : Bool :=
  r == .lmasklt || r == .blockid || r == .clock || r == .lclock || r == .faultmask || r == .faultaddr || r == .faultpc

def srPerLane (r : SpecialReg) : Bool :=
  r == .laneid || r == .sliceid || r == .octetid || r == .lmasklt || r == .faultaddr

def acceptMovsr (m : Movsr) : Bool :=
  m.ty == (if srWide m.sel then .b64 else .b32) &&
  (dstIsV m.dst || (dstIsS m.dst && !srPerLane m.sel)) && dstW (srWide m.sel) m.dst

def acceptMovi (m : Movi) : Bool :=
  nowbOk m.nowb m.dst && (m.ext == .word || dstVS 2 m.dst)

/-- The source types of CVTI (R290), by code. -/
def cvtiWide (n : Nat) : Bool := n == 2 || n == 3

def acceptCvti (g : Gen) : Bool :=
  intMod g true && tysI4.contains g.ty && g.opx.toNat ≤ 7 && genDst g dstAny (tyWide g.ty) &&
  genSrc g (srcW (cvtiWide g.opx.toNat)) srcNone srcNone

/-! ## Lane exchange (R292 to R296) -/

def acceptShfl (g : Gen) : Bool :=
  let w := tyWide g.ty
  intMod g false && tysB.contains g.ty && g.opx.toNat ≤ 3 && genDst g dstAny w &&
  genSrc g (srcW w) srcOne (fun c => srcNone c || srcW w c)

def acceptVote (g : Gen) : Bool :=
  let m := g.opx.toNat
  intMod g false && genSrc g srcOne srcNone srcNone &&
  (if m ≤ 1 then g.ty == .b32 && genDstX g dstVSP false
   else if m == 3 then g.ty == .b64 && genDstX g (fun d => dstIsV d || dstIsS d) true
   else m ≤ 4 && g.ty == .b32 && genDstX g (fun d => dstIsV d || dstIsS d) false)

def acceptMatch (g : Gen) : Bool :=
  intMod g false && tysB.contains g.ty && g.opx == 0#4 && genDst g dstIsV false &&
  genSrc g (srcW (tyWide g.ty)) srcNone srcNone

/-- The types of each operation of REDUX and SCAN (R295). -/
def reduxTys : Nat → List Ty
  | 0 => [.i32, .n32, .i64, .n64, .f32, .f64]
  | 1 => [.i32, .n32, .i64, .n64, .f32, .f64]
  | 2 => [.i32, .n32, .i64, .n64, .f32, .f64]
  | 3 => tysB
  | 4 => tysB
  | 5 => tysB
  | 6 => [.f32, .f64]
  | 7 => [.i32, .i64, .f32, .f64]
  | _ => []

/-- The float forms take a rounding mode; the others none (R263). -/
def reduxMod (g : Gen) : Bool :=
  !g.sat && g.scope == .block && g.hint == 0#4 && (g.rnd == .rne || g.ty == .f32 || g.ty == .f64)

def acceptRedux (g : Gen) : Bool :=
  reduxMod g && (reduxTys g.opx.toNat).contains g.ty && genDstX g dstVSP (tyWide g.ty) &&
  genSrc g (srcW (tyWide g.ty)) srcNone srcNone

def acceptScan (g : Gen) : Bool :=
  reduxMod g && (reduxTys (g.opx.toNat % 8)).contains g.ty &&
  genDst g (fun d => dstIsV d || dstIsP d) (tyWide g.ty) && genSrc g (srcW (tyWide g.ty)) srcNone srcNone

def acceptRank (g : Gen) : Bool :=
  intMod g false && tysB.contains g.ty && g.opx.toNat ≤ 1 && genDst g (fun d => dstIsV d || dstIsP d) false &&
  genSrc g (srcW (tyWide g.ty)) srcNone srcNone

def acceptBcast (g : Gen) : Bool :=
  let w := tyWide g.ty
  intMod g false && tysB.contains g.ty && g.opx == 0#4 && genDstX g dstAny w && genSrc g (srcW w) srcSK srcNone

/-! ## Float and conversion (R298 to R315) -/

def fltMod (g : Gen) (rnd sat : Bool) : Bool :=
  (rnd || g.rnd == .rne) && (sat || !g.sat) && g.scope == .block && g.hint == 0#4

def acceptF2 (g : Gen) : Bool :=
  let w := tyWide g.ty
  fltMod g true true && tysF4.contains g.ty && g.opx == 0#4 && genDst g dstAny w && genSrc g (srcW w) (srcW w) srcNone

def acceptFfma (g : Gen) : Bool :=
  let w := tyWide g.ty
  fltMod g true true && tysF4.contains g.ty && g.opx.toNat ≤ 3 && genDst g dstAny w &&
  genSrc g (srcW w) (srcW w) (srcW w)

def acceptFmin (g : Gen) : Bool :=
  let w := tyWide g.ty
  fltMod g false false && tysF4.contains g.ty && g.opx == 0#4 && genDst g dstAny w && genSrc g (srcW w) (srcW w) srcNone

def acceptFset (g : Gen) : Bool :=
  let w := tyWide g.ty
  fltMod g false false && tysF4.contains g.ty && g.opx.toNat ≤ 7 && genDst g dstVSPN false &&
  genSrc g (srcW w) (srcW w) srcNone

def acceptF1 (g : Gen) : Bool :=
  let w := tyWide g.ty
  fltMod g true true && tysF4.contains g.ty && g.opx == 0#4 && genDst g dstAny w && genSrc g (srcW w) srcNone srcNone

def acceptFrnd (g : Gen) : Bool :=
  let w := tyWide g.ty
  fltMod g true true && tysF4.contains g.ty && g.opx.toNat ≤ 1 && genDst g dstAny w && genSrc g (srcW w) srcNone srcNone

def acceptFscale (g : Gen) : Bool :=
  let w := tyWide g.ty
  fltMod g true true && tysF4.contains g.ty && g.opx == 0#4 && genDst g dstAny w && genSrc g (srcW w) srcOne srcNone

def acceptFclass (g : Gen) : Bool :=
  let w := tyWide g.ty
  fltMod g false false && tysF4.contains g.ty && g.opx == 0#4 && genDst g dstVSPN false &&
  genSrc g (srcW w) srcOne srcNone

/-- The source codes of CVT (R309): 0–3 integer, 4 f32, 5 f64, 6–7 an f16 element, 8–9 a bf16 element, 10, 11 packed. -/
def cvtWide (n : Nat) : Bool := n == 2 || n == 3 || n == 5

/-- The pairs of R310: the source codes accepted for a destination type, and whether b is read. -/
def cvtPair (d : Ty) (n : Nat) : Option Bool :=
  match d with
  | .i32 => if 4 ≤ n ∧ n ≤ 9 then some false else none
  | .n32 => if 4 ≤ n ∧ n ≤ 9 then some false else none
  | .i64 => if 4 ≤ n ∧ n ≤ 9 then some false else none
  | .n64 => if 4 ≤ n ∧ n ≤ 9 then some false else none
  | .f32 => if n ≤ 9 ∧ n ≠ 4 then some false else none
  | .f64 => if n ≤ 9 ∧ n ≠ 5 then some false else none
  | .f16x2 => if n ≤ 5 ∨ n = 8 ∨ n = 9 then some true else if n = 11 then some false else none
  | .bf16x2 => if n ≤ 7 then some true else if n = 10 then some false else none
  | _ => none

def acceptCvt (g : Gen) : Bool :=
  let n := g.opx.toNat
  fltMod g true (tysF4.contains g.ty) && genDst g dstAny (tyWide g.ty) &&
  (match cvtPair g.ty n with
   | none => false
   | some two => genSrc g (srcW (cvtWide n)) (if two then srcW (cvtWide n) else srcNone) srcNone)

def acceptTf8pk (g : Gen) : Bool :=
  fltMod g false false && g.ty == .tf8x4 && genDst g dstVSQN false &&
  (if g.opx == 0#4 then genSrc g (srcVS 4) srcNone srcOne
   else g.opx.toNat ≤ 2 && genSrc g srcOne srcOne srcOne)

def acceptTf8up (g : Gen) : Bool :=
  fltMod g true false && genSrc g srcOne srcOne srcNone && genDst g dstVSQN false &&
  (if g.ty == .f32 then g.opx.toNat ≤ 3 || (g.opx == 4#4 && dstVS 4 g.dst && !g.nowb)
   else (g.ty == .f16x2 || g.ty == .bf16x2) && g.opx.toNat ≤ 1)

def acceptRequant (g : Gen) : Bool :=
  fltMod g false false && g.ty == .tf8x4 && g.opx == 0#4 && genDst g dstVSQN false && genSrc g srcOne srcOne srcNone

def dstV4 : Dst → Bool
  | .v k => k.toNat % 4 == 0
  | _ => false

def acceptRng (g : Gen) : Bool :=
  fltMod g false false && genSrc g srcNone srcNone srcNone && dstIsV g.dst &&
  (if g.ty == .n32 || g.ty == .f32 then g.opx.toNat ≤ 3 || (g.opx == 4#4 && dstV4 g.dst && !g.nowb)
   else (g.ty == .n64 || g.ty == .f64) && g.opx.toNat ≤ 1 && dstVS 2 g.dst)

def acceptFstat (g : Gen) (opx : BitVec 4) : Bool :=
  fltMod g false false && g.ty == .b32 && g.opx == opx && genDst g dstVSN false &&
  genSrc g (if opx == 0#4 then srcNone else srcSK) srcNone srcNone

/-! ## Memory and synchronisation (R319 to R349) -/

def widthBytes : Width → Nat
  | .b8 => 1
  | .b16 => 2
  | .b32 => 4
  | .b64 => 8
  | .b128 => 16
  | .cp4 => 4
  | .cp8 => 8
  | .cp16 => 16
  | .cp32 => 32

/-- The register alignment of a datum: the registers it spans (R246). -/
def widthRegs (w : Width) : Nat := (widthBytes w + 3) / 4

def widthPlain (w : Width) : Bool := w == .b8 || w == .b16 || w == .b32 || w == .b64 || w == .b128

def orderOk (m : M64) (os : List Order) : Bool :=
  os.contains m.order && (m.order != .plain || m.scope == .block)

/-- The data operand of a load (v, or null) and of a store (R319). -/
def dataLoad (m : M64) : Bool :=
  (srcV (widthRegs m.width) m.data) || (srcNone m.data && !m.nowb)

def dataStore (m : M64) : Bool :=
  !m.nowb &&
  (match m.data with
   | .v k => k.toNat % widthRegs m.width == 0
   | .s k => k.toNat % widthRegs m.width == 0
   | .b _ => true
   | .k _ => widthBytes m.width ≤ 4
   | .c _ => widthBytes m.width ≤ 4
   | _ => false)

def extOk (m : M64) : Bool := m.ext == 0#2 || (m.ext == 1#2 && widthBytes m.width ≤ 2)

def acceptLd (m : M64) : Bool :=
  dataLoad m && srcVS 2 m.base && widthPlain m.width && orderOk m [.plain, .acquire] && m.sel.toNat ≤ 2 && extOk m

def acceptSt (m : M64) : Bool :=
  dataStore m && srcVS 2 m.base && widthPlain m.width && orderOk m [.plain, .release] &&
  (m.sel == 0#3 || m.sel == 2#3) && m.ext == 0#2

def acceptLds (m : M64) : Bool :=
  dataLoad m && srcVS 1 m.base && widthPlain m.width && orderOk m [.plain, .acquire] && m.sel == 0#3 && extOk m

def acceptSts (m : M64) : Bool :=
  dataStore m && srcVS 1 m.base && widthPlain m.width && orderOk m [.plain, .release] && m.sel == 0#3 && m.ext == 0#2

def acceptLdc (m : M64) : Bool :=
  srcS (widthRegs m.width) m.data && srcS 2 m.base && widthPlain m.width && orderOk m [.plain, .acquire] &&
  m.sel.toNat ≤ 2 && extOk m

/-- The atomic code sel:ext of R247. -/
def atomCode (m : M64) : Nat := m.sel.toNat * 4 + m.ext.toNat

/-- The widths that R325 gives each code. -/
def atomWidth (op : Nat) (w : Width) : Bool :=
  if op ≤ 9 then w == .b32 || w == .b64
  else if op == 10 then w == .b32
  else op == 11 && w == .b64

/-- The alignment of register k of an atomic (R326). -/
def atomRegs (op : Nat) (w : Width) : Nat :=
  (if op == 9 then 2 else 1) * (if w == .b64 then 2 else 1)

def acceptAtom (m : M64) : Bool :=
  !m.nowb && atomWidth (atomCode m) m.width && srcV (atomRegs (atomCode m) m.width) m.data && srcVS 2 m.base &&
  orderOk m [.plain, .acquire, .release, .acqRel]

def acceptRed (m : M64) : Bool :=
  !m.nowb && atomWidth (atomCode m) m.width && atomCode m != 8 && atomCode m != 9 &&
  (match m.data with
   | .v k => k.toNat % widthRegs m.width == 0
   | .s k => k.toNat % widthRegs m.width == 0
   | .b _ => true
   | .k _ => true
   | .c _ => true
   | _ => false) && srcVS 2 m.base && orderOk m [.plain, .release]

def acceptCpl (m : M64) : Bool :=
  !m.nowb && srcVS 1 m.data && srcVS 2 m.base && (m.width == .cp4 || m.width == .cp8 || m.width == .cp16 || m.width == .cp32) &&
  orderOk m [.plain] && m.ext.toNat ≤ 1

def acceptPref (m : M64) : Bool :=
  !m.nowb && srcNone m.data && srcVS 2 m.base && m.width == .b8 && orderOk m [.plain] && m.sel == 0#3 && m.ext == 0#2

def acceptDiscard (m : M64) : Bool :=
  !m.nowb && m.pred == predAll && srcIsS m.data && srcS 2 m.base && m.width == .b8 && orderOk m [.plain] &&
  m.sel == 0#3 && m.ext == 0#2

def acceptWaitc (m : M64) : Bool :=
  !m.nowb && m.pred == predAll && (m.width == .b32 || m.width == .b64) && orderOk m [.plain] && m.sel.toNat ≤ 6 &&
  (srcS (widthRegs m.width) m.data || srcConst m.data) &&
  (if m.ext == 0#2 then srcS 2 m.base else m.ext == 1#2 && srcIsS m.base)

def acceptFence (g : Gen) : Bool :=
  g.rnd == .rne && !g.sat && g.hint == 0#4 && g.ty == .i32 && g.pred == predAll && noDst g &&
  (1 ≤ g.opx.toNat && g.opx.toNat ≤ 3) && genSrc g srcNone srcNone srcNone

def acceptSmap (g : Gen) : Bool :=
  g.rnd == .rne && !g.sat && g.scope == .block && g.hint.toNat ≤ 2 && g.ty == .i32 && g.pred == predAll && noDst g &&
  genSrc g (srcS 2) srcSK srcSK

def acceptSunmap (g : Gen) : Bool := genCtl g && noDst g && genSrc g srcNone srcNone srcNone

def acceptBxfer (g : Gen) (kind : Nat) : Bool :=
  genPlain g && g.pred == predAll && noDst g && g.opx.toNat < 8 && g.opx.toNat % 4 == kind && srcS 4 g.a &&
  (srcSK g.b || srcNone g.b) &&
  (if kind == 2 then srcSK g.c && tysB.contains g.ty else srcNone g.c && g.ty == .i32)

def acceptBarinit (g : Gen) : Bool :=
  genCtl g && noDst g && g.opx == 0#4 && genSrc g srcSK srcSK srcNone

def acceptBararr (g : Gen) (opx : BitVec 4) : Bool :=
  genCtl g && noDst g && g.opx == opx && genSrc g srcSK (if opx == 0#4 then srcNone else srcSK) srcNone

def acceptBarwait (g : Gen) : Bool :=
  genCtl g && noDst g && g.opx == 0#4 && genSrc g srcSK srcNone srcNone

def acceptBarexp (g : Gen) : Bool :=
  genCtl g && noDst g && g.opx.toNat ≤ 1 && genSrc g srcSK srcSK srcNone

def acceptBartry (g : Gen) : Bool :=
  genCtl g && dstVSP g.dst && nowbOk g.nowb g.dst && g.opx == 0#4 && genSrc g srcSK srcNone srcNone

def acceptQcfg (g : Gen) : Bool := genCtl g && noDst g && genSrc g srcSK srcSK srcNone

def acceptAppend (g : Gen) (two : Bool) : Bool :=
  genPlain g && g.pred == predAll && g.ty == .n64 && g.opx == 0#4 && (dstVS 2 g.dst || dstIsNull g.dst) &&
  nowbOk g.nowb g.dst && genSrc g srcSK (if two then srcSK else srcNone) srcNone

/-! ## Matrix (R252, R361, R362) -/

/-- A coordinate operand (R361). -/
def srcCoord : Src → Bool
  | .s k => k.toNat % 2 == 0
  | .k _ => true
  | _ => false

def xUnused (x : X64) (tile tid slot mslot cnt flags : Bool) : Bool :=
  (tile || x.tile == 0#7) && (tid || x.tid == 0#8) && (slot || x.slot == 0#9) && (mslot || x.mslot == 0#5) &&
  (cnt || x.cnt == 0#4) && (flags || x.flags == 0#6)

def acceptTdset (x : X64) : Bool := xUnused x false true false false false false && srcS 16 x.reg
def acceptMldb (x : X64) : Bool := xUnused x false true true false false false && srcCoord x.reg
def acceptMbrel (x : X64) : Bool := xUnused x false false true false false false && srcNone x.reg
def acceptMldmeta (x : X64) : Bool := xUnused x false true false true false false && srcCoord x.reg
def acceptMzero (x : X64) : Bool := xUnused x true false false false true false && srcNone x.reg

/-- flags[0] is .shared, flags[1] is .ring (R252). -/
def acceptMma (x : X64) : Bool :=
  xUnused x true true true false false true && x.flags.toNat ≤ 1 && srcCoord x.reg

def acceptMmaRing (x : X64) : Bool :=
  xUnused x true true true false true true && (x.flags.toNat == 2 || x.flags.toNat == 3) && srcSK x.reg

def acceptMmasp (x : X64) : Bool :=
  xUnused x true true true true true true && x.flags.toNat ≤ 3 &&
  (if x.flags.toNat ≥ 2 then srcSK x.reg else srcCoord x.reg && x.cnt == 0#4)

def acceptMst (x : X64) (flags : BitVec 6) : Bool :=
  xUnused x true true false false false true && x.flags == flags && srcCoord x.reg

def acceptMrda (x : X64) : Bool :=
  xUnused x true false false false true false && x.cnt.toNat ≤ 7 && srcV 16 x.reg

def acceptRing (x : X64) : Bool := xUnused x false true false false false false && srcSK x.reg

def acceptMstat (g : Gen) : Bool :=
  genPlain g && g.ty == .b32 && g.opx.toNat ≤ 2 && dstVSN g.dst && nowbOk g.nowb g.dst && genSrc g srcNone srcNone srcNone

/-! ## Grid (R253, R406) -/

def gWidthRegs (w : Nat) : Nat := if w ≤ 2 then 1 else if w = 3 then 2 else 4

def gOrder (g : G64) (os : List Order) : Bool :=
  os.contains g.order && (if g.order == .plain then g.scope == .block else g.scope == .grid || g.scope == .system)

/-- A data source of GST or GRED: any source code, aligned for its width. -/
def gSource (w : Nat) : Src → Bool
  | .v k => k.toNat % gWidthRegs w == 0
  | .s k => k.toNat % gWidthRegs w == 0
  | .q _ => w ≤ 2
  | .unused => false
  | _ => true

def gZero (g : G64) (width gop flags : Bool) : Bool :=
  (width || g.width == 0#4) && (gop || g.gop == 0#4) && (flags || (g.gflags == 0#4 && g.gext == 0#4))

def acceptGpat (g : G64) : Bool :=
  gZero g false false false && gOrder g [.plain] && srcS 4 g.data && srcNone g.addr && srcNone g.cw

def acceptGst (g : G64) : Bool :=
  gZero g true false false && gOrder g [.plain, .release] && g.width.toNat ≤ 4 && gSource g.width.toNat g.data &&
  srcVS 2 g.addr && (srcS 2 g.cw || srcNone g.cw)

def acceptGld (g : G64) : Bool :=
  gZero g true false false && gOrder g [.plain, .acquire] && g.width.toNat ≤ 4 &&
  srcV (gWidthRegs g.width.toNat) g.data && srcVS 2 g.addr && srcNone g.cw

def gRedOp (g : G64) : Bool :=
  (g.gop.toNat ≤ 7 && (g.width == 2#4 || g.width == 3#4)) || (g.gop == 10#4 && g.width == 2#4)

def acceptGred (g : G64) : Bool :=
  gOrder g [.plain, .release] && gRedOp g && gSource g.width.toNat g.data && srcS 2 g.addr && srcS 2 g.cw &&
  (g.gflags.toNat % 2 == 0 || g.gop == 10#4)

def gAtomOp (g : G64) : Bool :=
  atomWidth g.gop.toNat (if g.width == 2#4 then .b32 else if g.width == 3#4 then .b64 else .b8)

def acceptGatom (g : G64) : Bool :=
  gOrder g [.plain, .acquire, .release, .acqRel] && gAtomOp g &&
  srcV (atomRegs g.gop.toNat (if g.width == 3#4 then .b64 else .b32)) g.data && srcVS 2 g.addr && srcNone g.cw &&
  g.gext == 0#4 && (g.gflags == 0#4 || (g.gflags == 1#4 && g.gop == 10#4))

def acceptGscan (g : G64) : Bool :=
  gOrder g [.plain] && gRedOp g && srcV (gWidthRegs g.width.toNat) g.data && srcS 2 g.addr && srcS 2 g.cw &&
  g.gflags.toNat % 2 == (if g.gop == 10#4 then 1 else 0)

def acceptGcopy (g : G64) : Bool :=
  gZero g false false true && gOrder g [.plain, .release] && srcS 4 g.data && srcS 2 g.addr &&
  (srcS 2 g.cw || srcNone g.cw) && g.gflags.toNat ≤ 1 && g.gext == 0#4

def acceptGfence (g : G64) : Bool :=
  gZero g false false false && gOrder g [.release] && g.pred == predAll && srcNone g.data && srcNone g.addr &&
  srcNone g.cw && g.gp == 0#4

def acceptGwait (g : G64) : Bool :=
  gZero g false false true && gOrder g [.plain, .acquire] && (srcVS 2 g.data || srcNone g.data) && srcS 2 g.cw &&
  (srcNone g.addr || (srcU g.addr && g.gflags == 0#4 && g.gext == 0#4))

/-! ## Experts, tasks (R424) -/

def acceptGatecfg (g : Gen) : Bool :=
  genCtl g && noDst g && g.opx.toNat ≤ 7 && genSrc g (srcS 2) srcNone srcNone

def acceptGdispatch (g : Gen) : Bool :=
  genCtl g && noDst g && g.opx.toNat ≤ 7 && genSrc g (srcS 4) srcU srcNone

def acceptMbmark (g : Gen) : Bool :=
  genCtl g && noDst g && g.opx.toNat ≤ 7 && genSrc g srcU srcNone srcNone

def acceptErtop (g : Gen) (opx : BitVec 4) : Bool :=
  genCtl g && g.opx == opx && genSrc g srcU (if opx == 0#4 then srcS 4 else srcNone) srcNone &&
  (if opx == 5#4 then (dstIsNull g.dst || (dstIsS g.dst && dstVS 2 g.dst)) && nowbOk g.nowb g.dst else noDst g)

def acceptTaskdef (g : Gen) : Bool :=
  genCtl g && g.opx == 0#4 && dstSN g.dst && nowbOk g.nowb g.dst && genSrc g srcU (srcS 2) srcNone

def acceptTaskdep (g : Gen) (opx : BitVec 4) : Bool :=
  genCtl g && g.opx == opx && dstSN g.dst && nowbOk g.nowb g.dst &&
  genSrc g srcU srcU (if opx == 0#4 then srcU else srcNone)

def acceptKstat (g : Gen) : Bool :=
  genCtl g && g.opx.toNat ≤ 5 && (dstIsV g.dst || dstIsS g.dst) && nowbOk g.nowb g.dst &&
  genSrc g (if g.opx == 0#4 then srcNone else srcU) srcNone srcNone

/-! ## Network, system and traps (R455, R491) -/

def acceptNpost (g : Gen) : Bool :=
  genCtl g && noDst g && g.opx == 0#4 && genSrc g (srcS 16) srcNone srcNone

def acceptNpoll (g : Gen) : Bool :=
  genCtl g && g.opx == 0#4 && dstIsS g.dst && dstVS 8 g.dst && genSrc g srcU srcNone srcNone

def acceptLarm (g : Gen) : Bool :=
  genCtl g && noDst g && g.opx == 0#4 && genSrc g srcU (srcS 8) srcNone

def acceptLaunch (g : Gen) : Bool :=
  genCtl g && noDst g && g.opx == 0#4 && genSrc g (srcS 2) srcNone srcNone

/-- Numbers 14 and 15 are reserved (R453). -/
def acceptSrr (g : Gen) : Bool :=
  genCtl g && g.opx.toNat ≤ 13 && dstIsS g.dst && dstVS 2 g.dst && genSrc g srcNone srcNone srcNone

/-- SRW of PAGEPOOL is reserved (R453). -/
def acceptSrw (g : Gen) : Bool :=
  genCtl g && noDst g && g.opx.toNat ≤ 13 && g.opx != 1#4 && genSrc g (srcS 2) srcNone srcNone

def acceptTlbinv (g : Gen) (opx : BitVec 4) : Bool :=
  genCtl g && noDst g && g.opx == opx &&
  genSrc g (if opx == 0#4 then srcS 2 else srcNone) srcU srcNone

def acceptBiasflip (g : Gen) (opx : BitVec 4) : Bool :=
  genCtl g && noDst g && g.opx == opx && genSrc g (srcS 2) srcU srcNone

def acceptMigrate (g : Gen) (opx : BitVec 4) : Bool :=
  genCtl g && noDst g && g.opx == opx &&
  (if opx == 0#4 then genSrc g (srcS 2) (srcS 2) srcNone else genSrc g (srcS 2) srcNone srcU)

def acceptCapset (g : Gen) : Bool :=
  genCtl g && noDst g && g.opx == 0#4 && genSrc g srcU (srcS 16) srcNone

def acceptCtrread (g : Gen) : Bool :=
  genCtl g && g.opx.toNat ≤ 13 && dstIsS g.dst && dstVS 2 g.dst && genSrc g srcNone srcNone srcNone

def acceptMappg (g : Gen) : Bool :=
  genPlain g && g.ty == .i32 && g.opx == 0#4 && (dstIsV g.dst || dstIsNull g.dst) && nowbOk g.nowb g.dst &&
  genSrc g (srcVS 2) srcSK srcNone

def srcTrapCode : Src → Bool
  | .v _ => true
  | s => srcSK s

def acceptTrap (g : Gen) (opx : BitVec 4) : Bool :=
  genPlain g && g.ty == .i32 && noDst g && g.opx == opx && genSrc g srcTrapCode srcNone srcNone

def acceptRetf (g : Gen) (opx : BitVec 4) : Bool :=
  genCtl g && noDst g && g.opx == opx && genSrc g (if opx == 2#4 then srcSK else srcNone) srcNone srcNone

/-! ## A32 (R230 to R232) -/

def acceptA32 (a : A32) : Bool := srcOne a.a && srcOne a.b
def acceptA32One (a : A32) : Bool := srcOne a.a && srcNone a.b

/-- LDS: operands of R233 other than queue codes (R232). -/
def acceptLdsA32 (a : A32) : Bool := srcBrc a.a && srcBrc a.b

end Sys2Proof.Machine
end

