-- ==== Sys2Proof/WellFormed.lean ====
section
/-! DEFINITION. Well-formed instructions: every field holds a value that the instruction's entry accepts (R13, R257). The checks
themselves stand in Machine/Accept.lean. A word whose fields fail them is no instruction: the decoder rejects it, and the
machine takes the illegal-instruction trap. An event carries no encoding, so every event is well formed. -/

namespace Sys2Proof

/-- The well-formedness of each constructor. -/
def Instr.wf (i : Instr) : Bool :=
  match i with
  | .nop g => Machine.acceptNop g
  | .bra j => Machine.acceptBra j
  | .brc c => Machine.acceptBrc c
  | .brv v => Machine.acceptBrv v
  | .brany j => Machine.acceptBrany j
  | .brall j => Machine.acceptBrany j
  | .jmp j => Machine.acceptJmp j
  | .call j => Machine.acceptBra j
  | .ret g => Machine.acceptRet g
  | .regang g => Machine.acceptRegang g
  | .exit g => Machine.acceptNop g
  | .hold g => Machine.acceptHold g
  | .yield g => Machine.acceptRet g
  | .waitcnt g => Machine.acceptWaitcnt g
  | .waittag g => Machine.acceptRegang g
  | .psplit g => Machine.acceptPsplit g
  | .pfuse g => Machine.acceptRet g
  | .iadd g => Machine.acceptInt2 g Machine.tysI8 true
  | .isub g => Machine.acceptInt2 g Machine.tysI8 true
  | .imul g => Machine.acceptInt2 g Machine.tysI8 true
  | .imulh g => Machine.acceptInt2 g Machine.tysI4 false
  | .imad g => Machine.acceptImad g
  | .imin g => Machine.acceptInt2 g Machine.tysI8 false
  | .imax g => Machine.acceptInt2 g Machine.tysI8 false
  | .iabsd g => Machine.acceptInt2 g Machine.tysI8 true
  | .and g => Machine.acceptInt2 g Machine.tysB false
  | .or g => Machine.acceptInt2 g Machine.tysB false
  | .xor g => Machine.acceptInt2 g Machine.tysB false
  | .andn g => Machine.acceptInt2 g Machine.tysB false
  | .shl g => Machine.acceptShift g Machine.tysB
  | .shr g => Machine.acceptShift g [.n32, .n64]
  | .sar g => Machine.acceptShift g [.i32, .i64]
  | .rotl g => Machine.acceptShift g Machine.tysB
  | .bfe g => Machine.acceptShift g Machine.tysI4
  | .bfi g => Machine.acceptBfi g
  | .popc g => Machine.acceptInt1 g
  | .clz g => Machine.acceptInt1 g
  | .ctz g => Machine.acceptInt1 g
  | .brev g => Machine.acceptInt1 g
  | .prmt g => Machine.acceptPrmt g
  | .lea g => Machine.acceptLea g
  | .iset g => Machine.acceptIset g
  | .sel g => Machine.acceptSel g
  | .mov g => Machine.acceptInt1 g
  | .movsr m => Machine.acceptMovsr m
  | .movi m => Machine.acceptMovi m
  | .cvti g => Machine.acceptCvti g
  | .plop _ => true
  | .shfl g => Machine.acceptShfl g
  | .vote g => Machine.acceptVote g
  | .matchLanes g => Machine.acceptMatch g
  | .redux g => Machine.acceptRedux g
  | .scan g => Machine.acceptScan g
  | .rank g => Machine.acceptRank g
  | .bcast g => Machine.acceptBcast g
  | .fadd g => Machine.acceptF2 g
  | .fsub g => Machine.acceptF2 g
  | .fmul g => Machine.acceptF2 g
  | .ffma g => Machine.acceptFfma g
  | .fmin g => Machine.acceptFmin g
  | .fmax g => Machine.acceptFmin g
  | .fset g => Machine.acceptFset g
  | .fdiv g => Machine.acceptF2 g
  | .frcp g => Machine.acceptF1 g
  | .fsqrt g => Machine.acceptF1 g
  | .frsq g => Machine.acceptF1 g
  | .fex2 g => Machine.acceptF1 g
  | .flg2 g => Machine.acceptF1 g
  | .frnd g => Machine.acceptFrnd g
  | .fscale g => Machine.acceptFscale g
  | .fclass g => Machine.acceptFclass g
  | .cvt g => Machine.acceptCvt g
  | .tf8pk g => Machine.acceptTf8pk g
  | .tf8up g => Machine.acceptTf8up g
  | .requant g => Machine.acceptRequant g
  | .rng g => Machine.acceptRng g
  | .fstatRead g => Machine.acceptFstat g 0#4
  | .fstatClear g => Machine.acceptFstat g 1#4
  | .fstatSet g => Machine.acceptFstat g 2#4
  | .ld m => Machine.acceptLd m
  | .st m => Machine.acceptSt m
  | .lds m => Machine.acceptLds m
  | .sts m => Machine.acceptSts m
  | .ldc m => Machine.acceptLdc m
  | .atom m => Machine.acceptAtom m
  | .red m => Machine.acceptRed m
  | .cpl m => Machine.acceptCpl m
  | .pref m => Machine.acceptPref m
  | .discard m => Machine.acceptDiscard m
  | .fence g => Machine.acceptFence g
  | .smap g => Machine.acceptSmap g
  | .sunmap g => Machine.acceptSunmap g
  | .sflush g => Machine.acceptSunmap g
  | .bxferLoad g => Machine.acceptBxfer g 0
  | .bxferStore g => Machine.acceptBxfer g 1
  | .bxferRed g => Machine.acceptBxfer g 2
  | .waitc m => Machine.acceptWaitc m
  | .barinit g => Machine.acceptBarinit g
  | .bararr g => Machine.acceptBararr g 0#4
  | .bararrJoin g => Machine.acceptBararr g 1#4
  | .bararrDrop g => Machine.acceptBararr g 2#4
  | .barwait g => Machine.acceptBarwait g
  | .barexp g => Machine.acceptBarexp g
  | .bartry g => Machine.acceptBartry g
  | .qcfg g => Machine.acceptQcfg g
  | .append g => Machine.acceptAppend g true
  | .decline g => Machine.acceptAppend g false
  | .tdset x => Machine.acceptTdset x
  | .tdget x => Machine.acceptTdset x
  | .mldb x => Machine.acceptMldb x
  | .mbrel x => Machine.acceptMbrel x
  | .mldmeta x => Machine.acceptMldmeta x
  | .mzero x => Machine.acceptMzero x
  | .mma x => Machine.acceptMma x
  | .mmaRing x => Machine.acceptMmaRing x
  | .mmasp x => Machine.acceptMmasp x
  | .mst x => Machine.acceptMst x 0#6
  | .mstAdd x => Machine.acceptMst x 1#6
  | .mrda x => Machine.acceptMrda x
  | .mwra x => Machine.acceptMrda x
  | .ringinit x => Machine.acceptRing x
  | .ringput x => Machine.acceptRing x
  | .ringtake x => Machine.acceptRing x
  | .ringdone x => Machine.acceptRing x
  | .mstat g => Machine.acceptMstat g
  | .gpat g => Machine.acceptGpat g
  | .gst g => Machine.acceptGst g
  | .gld g => Machine.acceptGld g
  | .gred g => Machine.acceptGred g
  | .gatom g => Machine.acceptGatom g
  | .gscan g => Machine.acceptGscan g
  | .gcopy g => Machine.acceptGcopy g
  | .gfence g => Machine.acceptGfence g
  | .gwait g => Machine.acceptGwait g
  | .gatecfg g => Machine.acceptGatecfg g
  | .gdispatch g => Machine.acceptGdispatch g
  | .mbmark g => Machine.acceptMbmark g
  | .ertopDefine g => Machine.acceptErtop g 0#4
  | .ertopFetch g => Machine.acceptErtop g 1#4
  | .ertopEvict g => Machine.acceptErtop g 2#4
  | .ertopPin g => Machine.acceptErtop g 3#4
  | .ertopUnpin g => Machine.acceptErtop g 4#4
  | .ertopRead g => Machine.acceptErtop g 5#4
  | .taskdef g => Machine.acceptTaskdef g
  | .taskdepSet g => Machine.acceptTaskdep g 0#4
  | .taskdepAdd g => Machine.acceptTaskdep g 1#4
  | .taskdepSub g => Machine.acceptTaskdep g 2#4
  | .kstat g => Machine.acceptKstat g
  | .npost g => Machine.acceptNpost g
  | .nrecv g => Machine.acceptNpost g
  | .npoll g => Machine.acceptNpoll g
  | .larm g => Machine.acceptLarm g
  | .launch g => Machine.acceptLaunch g
  | .srr g => Machine.acceptSrr g
  | .srw g => Machine.acceptSrw g
  | .tlbinvPage g => Machine.acceptTlbinv g 0#4
  | .tlbinvContext g => Machine.acceptTlbinv g 1#4
  | .tlbinvAll g => Machine.acceptTlbinv g 2#4
  | .biasflipDev g => Machine.acceptBiasflip g 0#4
  | .biasflipHost g => Machine.acceptBiasflip g 1#4
  | .migrateLocal g => Machine.acceptMigrate g 0#4
  | .migrateRemote g => Machine.acceptMigrate g 1#4
  | .capset g => Machine.acceptCapset g
  | .mappg g => Machine.acceptMappg g
  | .trap g => Machine.acceptTrap g 0#4
  | .trapDbg g => Machine.acceptTrap g 1#4
  | .retfRetry g => Machine.acceptRetf g 0#4
  | .retfNext g => Machine.acceptRetf g 1#4
  | .retfEsc g => Machine.acceptRetf g 2#4
  | .ctrread g => Machine.acceptCtrread g
  | .movC16 _ => true
  | .iaddC16 _ => true
  | .isubC16 _ => true
  | .imulC16 _ => true
  | .andC16 _ => true
  | .orC16 _ => true
  | .xorC16 _ => true
  | .shlC16 _ => true
  | .shrC16 _ => true
  | .sarC16 _ => true
  | .faddC16 _ => true
  | .fsubC16 _ => true
  | .fmulC16 _ => true
  | .fmaxC16 _ => true
  | .fminC16 _ => true
  | .nopC16 => true
  | .yieldC16 => true
  | .retC16 => true
  | .exitC16 => true
  | .movA32 a => Machine.acceptA32One a
  | .iaddA32 a => Machine.acceptA32 a
  | .isubA32 a => Machine.acceptA32 a
  | .imulA32 a => Machine.acceptA32 a
  | .imadA32 a => Machine.acceptA32 a
  | .iminA32 a => Machine.acceptA32 a
  | .imaxA32 a => Machine.acceptA32 a
  | .andA32 a => Machine.acceptA32 a
  | .orA32 a => Machine.acceptA32 a
  | .xorA32 a => Machine.acceptA32 a
  | .andnA32 a => Machine.acceptA32 a
  | .shlA32 a => Machine.acceptA32 a
  | .shrA32 a => Machine.acceptA32 a
  | .sarA32 a => Machine.acceptA32 a
  | .popcA32 a => Machine.acceptA32One a
  | .clzA32 a => Machine.acceptA32One a
  | .faddF32A32 a => Machine.acceptA32 a
  | .fsubF32A32 a => Machine.acceptA32 a
  | .fmulF32A32 a => Machine.acceptA32 a
  | .ffmaF32A32 a => Machine.acceptA32 a
  | .fminF32A32 a => Machine.acceptA32 a
  | .fmaxF32A32 a => Machine.acceptA32 a
  | .faddF16x2A32 a => Machine.acceptA32 a
  | .fmulF16x2A32 a => Machine.acceptA32 a
  | .ffmaF16x2A32 a => Machine.acceptA32 a
  | .faddBf16x2A32 a => Machine.acceptA32 a
  | .fmulBf16x2A32 a => Machine.acceptA32 a
  | .ffmaBf16x2A32 a => Machine.acceptA32 a
  | .shflXorA32 a => Machine.acceptA32 a
  | .ldsA32 a => Machine.acceptLdsA32 a
  | .braA32 _ => true
  | .callA32 _ => true
  | .hostQueueDoorbell _ _ => true
  | .hqerrClear _ => true
  | .hostSysregWrite _ _ => true
  | .hostRegisterWrite _ _ => true
  | .launchAccept => true
  | .blockPlacement => true
  | .blockStart _ => true
  | .stealAttempt _ => true
  | .blockEnd _ => true
  | .pendingSpawn => true
  | .runEnd _ _ => true
  | .fragmentWake _ => true
  | .budgetPeriodEnd _ _ _ => true
  | .preempt _ => true
  | .contextSwitch _ => true
  | .blockResume _ _ => true
  | .detRoundComplete _ => true
  | .detSyncTurn _ => true
  | .appendClaimGrant _ => true
  | .stashSegmentWake _ _ => true
  | .stashFillComplete _ _ => true
  | .homeSliceAccess _ => true
  | .stashWriteback _ _ _ => true
  | .l2WayGate _ _ => true
  | .l2WayEnable _ _ => true
  | .pageWalkComplete _ _ => true
  | .hostMemoryAccess _ => true
  | .migrationResend _ _ _ => true
  | .conditionMonitorWake _ => true
  | .monitorPoll _ => true
  | .streamerBytesComplete _ _ => true
  | .laneCopyLand _ => true
  | .matrixPassComplete _ => true
  | .checksumReplay _ _ => true
  | .matrixDrainComplete _ => true
  | .gstLineReceive _ => true
  | .gldRequestReceive _ => true
  | .gldReplyReceive _ => true
  | .gredContributionReceive _ => true
  | .gatomRequestReceive _ _ => true
  | .gatomReplyReceive _ => true
  | .gscanContributionReceive _ => true
  | .gscanReplyReceive _ => true
  | .gcopyLineReceive _ => true
  | .gcopyHeldDelivery => true
  | .acknowledgementReceive _ => true
  | .releaseMarkerReceive _ _ => true
  | .refusalReceive _ => true
  | .idleFlitReceive _ _ _ => true
  | .reservedVcFlit _ => true
  | .linkReplayRequest _ _ => true
  | .linkDown _ => true
  | .linkFailoverNotice _ _ => true
  | .auditFlitSend _ => true
  | .creditAuditReceive _ _ _ => true
  | .planeLossReport _ => true
  | .unreachableMark _ => true
  | .tokenRowReceive _ => true
  | .rowRefusalReceive _ => true
  | .gdispatchComplete _ => true
  | .mbmarkCommit _ => true
  | .closeMarkerSend _ => true
  | .closeMarkerReceive _ _ _ _ _ => true
  | .loadMulticastReceive _ _ _ => true
  | .fillCounterReset _ _ => true
  | .orderedRoundClose _ => true
  | .pagerFetchComplete _ => true
  | .fetchAttemptFail _ => true
  | .evictUnmapComplete _ => true
  | .tileSpawn _ _ _ _ => true
  | .npostStart _ => true
  | .neSegmentReceive _ => true
  | .neAckReceive _ => true
  | .neNotReadyReceive _ => true
  | .neRetransmitTimeout _ _ => true
  | .neReceiveTimeout _ => true
  | .neAbortReceive _ _ => true
  | .shadowFlushTimer _ => true
  | .energyInterval _ _ => true
  | .scrub _ _ => true
  | .islandSet _ _ _ => true
  | .mctpStatus => true
  | .mctpIslandTelemetry => true
  | .mctpReadCounters _ => true
  | .mctpSignedSnapshot _ _ => true
  | .mctpSelfTestReport => true
  | .spdmGetCertificate => true
  | .spdmChallenge _ => true
  | .spdmGetMeasurements _ => true
  | .coldReset _ => true
  | .warmResetFlr _ => true
  | .warmResetSecondaryBus _ => true
  | .warmResetMp _ => true
  | .hostLinkDown => true
  | .cxlCacheSnoop _ _ => true
  | .flitCrcFailure _ => true
  | .linkFlitAcknowledge _ _ => true
  | .rowAcceptanceReceive _ => true

end Sys2Proof
end

