-- ==== Sys2Proof/Decode.lean ====
section
/-! DEFINITION. The decoder, total on any bytes and rejecting by name, and the encoder beside it, both from the layouts of
spec/07_encoding.md. A word is read as a list of fields from bit 0 upward, and written back from the same lists. -/

namespace Sys2Proof

/-! ## Fields -/

/-- The fields of a word, lowest first, of the widths given (R8). -/
def splitFields : List Nat → Nat → List Nat
  | [], _ => []
  | n :: ns, w => w % 2 ^ n :: splitFields ns (w / 2 ^ n)

/-- The word whose fields, lowest first, are the (value, width) pairs given. -/
def joinFields : List (Nat × Nat) → Nat
  | [] => 0
  | (v, n) :: fs => v % 2 ^ n + 2 ^ n * joinFields fs

/-! ## Operand codes (R233, R237, R229) -/

def srcOfCode (c : Nat) : Except Reject Src :=
  if c < 128 then .ok (.v (BitVec.ofNat 7 c))
  else if c < 192 then .ok (.s (BitVec.ofNat 6 (c - 128)))
  else if c < 200 then .ok (.b (BitVec.ofNat 3 (c - 192)))
  else if c < 208 then .ok (.q (BitVec.ofNat 3 (c - 200)))
  else if c < 240 then .ok (.k (BitVec.ofNat 5 (c - 208)))
  else if c < 248 then .ok (.c (BitVec.ofNat 3 (c - 240)))
  else if c = 255 then .ok .unused
  else .error .operand

def srcCode : Src → Nat
  | .v n => n.toNat
  | .s n => 128 + n.toNat
  | .b n => 192 + n.toNat
  | .q n => 200 + n.toNat
  | .k n => 208 + n.toNat
  | .c n => 240 + n.toNat
  | .unused => 255

def dstOfCode (c : Nat) : Except Reject Dst :=
  if c < 128 then .ok (.v (BitVec.ofNat 7 c))
  else if c < 192 then .ok (.s (BitVec.ofNat 6 (c - 128)))
  else if c < 200 then .error .operand
  else if c < 208 then .ok (.q (BitVec.ofNat 3 (c - 200)))
  else if c < 216 then .ok (.p (BitVec.ofNat 3 (c - 208)))
  else if c = 255 then .ok .null
  else .error .operand

def dstCode : Dst → Nat
  | .v n => n.toNat
  | .s n => 128 + n.toNat
  | .q n => 200 + n.toNat
  | .p n => 208 + n.toNat
  | .null => 255

/-- The src6 codes (R229). -/
def src6OfCode (c : Nat) : Src6 :=
  if c < 32 then .v (BitVec.ofNat 5 c)
  else if c < 48 then .s (BitVec.ofNat 4 (c - 32))
  else if c < 56 then .b (BitVec.ofNat 3 (c - 48))
  else .k (BitVec.ofNat 3 (c - 56))

def src6Code : Src6 → Nat
  | .v n => n.toNat
  | .s n => 32 + n.toNat
  | .b n => 48 + n.toNat
  | .k n => 56 + n.toNat

def predOfCode (c : Nat) : Pred := { neg := c / 8 % 2 = 1, idx := BitVec.ofNat 3 c }
def predCode (p : Pred) : Nat := 8 * bit p.neg + p.idx.toNat

/-! ## Small enumerations, in code order (R243, R201, R166, R245, R249, R251, R288) -/

def tyOfCode : Nat → Except Reject Ty
  | 0 => .ok .i32 | 1 => .ok .n32 | 2 => .ok .i64 | 3 => .ok .n64 | 4 => .ok .i16x2 | 5 => .ok .n16x2 | 6 => .ok .i8x4
  | 7 => .ok .n8x4 | 8 => .ok .f32 | 9 => .ok .f64 | 10 => .ok .f16x2 | 11 => .ok .bf16x2 | 12 => .ok .tf8x4
  | 13 => .ok .b32 | 14 => .ok .b64 | _ => .error .reserved

def tyCode : Ty → Nat
  | .i32 => 0 | .n32 => 1 | .i64 => 2 | .n64 => 3 | .i16x2 => 4 | .n16x2 => 5 | .i8x4 => 6 | .n8x4 => 7 | .f32 => 8
  | .f64 => 9 | .f16x2 => 10 | .bf16x2 => 11 | .tf8x4 => 12 | .b32 => 13 | .b64 => 14

def rndOfCode : Nat → Rnd
  | 0 => .rne | 1 => .rtz | 2 => .rdn | _ => .rup

def rndCode : Rnd → Nat
  | .rne => 0 | .rtz => 1 | .rdn => 2 | .rup => 3

def scopeOfCode : Nat → Scope
  | 0 => .block | 1 => .device | 2 => .grid | _ => .system

def scopeCode : Scope → Nat
  | .block => 0 | .device => 1 | .grid => 2 | .system => 3

def orderOfCode : Nat → Order
  | 0 => .plain | 1 => .acquire | 2 => .release | _ => .acqRel

def orderCode : Order → Nat
  | .plain => 0 | .acquire => 1 | .release => 2 | .acqRel => 3

def widthOfCode : Nat → Except Reject Width
  | 0 => .ok .b8 | 1 => .ok .b16 | 2 => .ok .b32 | 3 => .ok .b64 | 4 => .ok .b128 | 5 => .ok .cp4 | 6 => .ok .cp8
  | 7 => .ok .cp16 | 8 => .ok .cp32 | _ => .error .reserved

def widthCode : Width → Nat
  | .b8 => 0 | .b16 => 1 | .b32 => 2 | .b64 => 3 | .b128 => 4 | .cp4 => 5 | .cp8 => 6 | .cp16 => 7 | .cp32 => 8

def condOfCode : Nat → Cond
  | 0 => .eq | 1 => .ne | 2 => .lt | 3 => .ge | 4 => .le | 5 => .gt | 6 => .ltu | 7 => .geu | 8 => .leu | 9 => .gtu
  | 10 => .flt | 11 => .fge | 12 => .fle | 13 => .fgt | 14 => .feq | _ => .fneu

def condCode : Cond → Nat
  | .eq => 0 | .ne => 1 | .lt => 2 | .ge => 3 | .le => 4 | .gt => 5 | .ltu => 6 | .geu => 7 | .leu => 8 | .gtu => 9
  | .flt => 10 | .fge => 11 | .fle => 12 | .fgt => 13 | .feq => 14 | .fneu => 15

def extOfCode : Nat → MoviExt
  | 0 => .word | 1 => .sx | 2 => .zx | _ => .hi

def extCode : MoviExt → Nat
  | .word => 0 | .sx => 1 | .zx => 2 | .hi => 3

def specialOfCode : Nat → Except Reject SpecialReg
  | 0 => .ok .laneid | 1 => .ok .sliceid | 2 => .ok .octetid | 3 => .ok .packid | 4 => .ok .packw | 5 => .ok .gang
  | 6 => .ok .lmasklt | 7 => .ok .blockid | 8 => .ok .blockx | 9 => .ok .blocky | 10 => .ok .blockz | 11 => .ok .nblockx
  | 12 => .ok .nblocky | 13 => .ok .nblockz | 14 => .ok .coreid | 15 => .ok .dieid | 16 => .ok .ctxid | 17 => .ok .clock
  | 18 => .ok .lclock | 19 => .ok .coord0 | 20 => .ok .coord1 | 21 => .ok .coord2 | 22 => .ok .coord3 | 23 => .ok .coord4
  | 24 => .ok .gsize0 | 25 => .ok .gsize1 | 26 => .ok .gsize2 | 27 => .ok .gsize3 | 28 => .ok .gsize4 | 29 => .ok .fpstat
  | 30 => .ok .faultmask | 31 => .ok .faultaddr | 32 => .ok .faultcause | 33 => .ok .faultpc | _ => .error .operand

def specialCode : SpecialReg → Nat
  | .laneid => 0 | .sliceid => 1 | .octetid => 2 | .packid => 3 | .packw => 4 | .gang => 5 | .lmasklt => 6 | .blockid => 7
  | .blockx => 8 | .blocky => 9 | .blockz => 10 | .nblockx => 11 | .nblocky => 12 | .nblockz => 13 | .coreid => 14
  | .dieid => 15 | .ctxid => 16 | .clock => 17 | .lclock => 18 | .coord0 => 19 | .coord1 => 20 | .coord2 => 21
  | .coord3 => 22 | .coord4 => 23 | .gsize0 => 24 | .gsize1 => 25 | .gsize2 => 26 | .gsize3 => 27 | .gsize4 => 28
  | .fpstat => 29 | .faultmask => 30 | .faultaddr => 31 | .faultcause => 32 | .faultpc => 33

/-! ## The E64 layouts, each read and written -/

/-- Generic (R240, R243). -/
def genLayout : List Nat := [2, 8, 8, 1, 4, 8, 8, 8, 4, 2, 1, 4, 2, 4]

def genOf (w : Nat) : Except Reject Gen :=
  match splitFields genLayout w with
  | [_, _, d, nb, pr, a, b, c, ty, rnd, sat, opx, sc, hint] => do
    let dst ← dstOfCode d
    let a ← srcOfCode a
    let b ← srcOfCode b
    let c ← srcOfCode c
    let ty ← tyOfCode ty
    .ok { dst, nowb := nb = 1, pred := predOfCode pr, a, b, c, ty, rnd := rndOfCode rnd, sat := sat = 1,
          opx := BitVec.ofNat 4 opx, scope := scopeOfCode sc, hint := BitVec.ofNat 4 hint }
  | _ => .error .reserved

def genWord (op : Nat) (g : Gen) : Nat :=
  joinFields [(3, 2), (op, 8), (dstCode g.dst, 8), (bit g.nowb, 1), (predCode g.pred, 4), (srcCode g.a, 8),
    (srcCode g.b, 8), (srcCode g.c, 8), (tyCode g.ty, 4), (rndCode g.rnd, 2), (bit g.sat, 1), (g.opx.toNat, 4),
    (scopeCode g.scope, 2), (g.hint.toNat, 4)]

/-- MOVSR: the selector in srcA, every other modifier zero (R288). -/
def movsrOf (w : Nat) : Except Reject Movsr :=
  match splitFields genLayout w with
  | [_, _, d, nb, pr, a, b, c, ty, rnd, sat, opx, sc, hint] => do
    let dst ← dstOfCode d
    let sel ← specialOfCode a
    let ty ← tyOfCode ty
    if b = 255 ∧ c = 255 ∧ rnd = 0 ∧ sat = 0 ∧ opx = 0 ∧ sc = 0 ∧ hint = 0 then
      .ok { dst, nowb := nb = 1, pred := predOfCode pr, sel, ty }
    else .error .reserved
  | _ => .error .reserved

def movsrWord (m : Movsr) : Nat :=
  joinFields [(3, 2), (0x3b, 8), (dstCode m.dst, 8), (bit m.nowb, 1), (predCode m.pred, 4), (specialCode m.sel, 8),
    (255, 8), (255, 8), (tyCode m.ty, 4), (0, 2), (0, 1), (0, 4), (0, 2), (0, 4)]

/-- PLOP: predicate names in the source fields, the truth table in mod[16:13] and mod[10:7] (R291). -/
def plopOf (w : Nat) : Except Reject Plop :=
  match splitFields genLayout w with
  | [_, _, d, nb, pr, a, b, c, ty, rnd, sat, opx, sc, hint] =>
    match dstOfCode d with
    | .ok (.p dst) =>
      if a < 16 ∧ b < 16 ∧ c < 16 then
        if nb = 0 ∧ ty = 13 ∧ rnd = 0 ∧ sat = 0 ∧ sc = 0 then
          .ok { dst, pred := predOfCode pr, pa := predOfCode a, pb := predOfCode b, pc := predOfCode c,
                lut := BitVec.ofNat 8 (hint * 16 + opx) }
        else .error .reserved
      else .error .operand
    | _ => .error .operand
  | _ => .error .reserved

def plopWord (p : Plop) : Nat :=
  joinFields [(3, 2), (0x3e, 8), (208 + p.dst.toNat, 8), (0, 1), (predCode p.pred, 4), (predCode p.pa, 8),
    (predCode p.pb, 8), (predCode p.pc, 8), (13, 4), (0, 2), (0, 1), (p.lut.toNat % 16, 4), (0, 2), (p.lut.toNat / 16, 4)]

/-- M64 (R245). -/
def m64Of (w : Nat) : Except Reject M64 :=
  match splitFields [2, 8, 8, 1, 4, 8, 20, 4, 2, 2, 3, 2] w with
  | [_, _, d, nb, pr, a, off, wd, ord, sc, sel, ext] => do
    let data ← srcOfCode d
    let base ← srcOfCode a
    let width ← widthOfCode wd
    .ok { data, nowb := nb = 1, pred := predOfCode pr, base, off := BitVec.ofNat 20 off, width,
          order := orderOfCode ord, scope := scopeOfCode sc, sel := BitVec.ofNat 3 sel, ext := BitVec.ofNat 2 ext }
  | _ => .error .reserved

def m64Word (op : Nat) (m : M64) : Nat :=
  joinFields [(3, 2), (op, 8), (srcCode m.data, 8), (bit m.nowb, 1), (predCode m.pred, 4), (srcCode m.base, 8),
    (m.off.toNat, 20), (widthCode m.width, 4), (orderCode m.order, 2), (scopeCode m.scope, 2), (m.sel.toNat, 3),
    (m.ext.toNat, 2)]

/-- J64 (R248). -/
def j64Of (w : Nat) : Except Reject J64 :=
  match splitFields [2, 8, 8, 1, 4, 8, 1, 32] w with
  | [_, _, z, nb, pr, tgt, z', off] => do
    let tgt ← srcOfCode tgt
    if z = 0 ∧ nb = 0 ∧ z' = 0 then .ok { pred := predOfCode pr, tgt, off := BitVec.ofNat 32 off }
    else .error .reserved
  | _ => .error .reserved

def j64Word (op : Nat) (j : J64) : Nat :=
  joinFields [(3, 2), (op, 8), (0, 8), (0, 1), (predCode j.pred, 4), (srcCode j.tgt, 8), (0, 1), (j.off.toNat, 32)]

/-- BRC (R249). -/
def brcOf (w : Nat) : Except Reject Brc :=
  match splitFields [2, 8, 8, 4, 8, 8, 26] w with
  | [_, _, z, cond, a, b, off] => do
    let a ← srcOfCode a
    let b ← srcOfCode b
    if z = 0 then .ok { cond := condOfCode cond, a, b, off := BitVec.ofNat 26 off } else .error .reserved
  | _ => .error .reserved

def brcWord (c : Brc) : Nat :=
  joinFields [(3, 2), (0x02, 8), (0, 8), (condCode c.cond, 4), (srcCode c.a, 8), (srcCode c.b, 8), (c.off.toNat, 26)]

/-- BRV (R250). -/
def brvOf (w : Nat) : Except Reject Brv :=
  match splitFields [2, 8, 8, 1, 4, 20, 20, 1] w with
  | [_, _, z, nb, pr, toff, joff, z'] =>
    if z = 0 ∧ nb = 0 ∧ z' = 0 then
      .ok { pred := predOfCode pr, toff := BitVec.ofNat 20 toff, joff := BitVec.ofNat 20 joff }
    else .error .reserved
  | _ => .error .reserved

def brvWord (v : Brv) : Nat :=
  joinFields [(3, 2), (0x03, 8), (0, 8), (0, 1), (predCode v.pred, 4), (v.toff.toNat, 20), (v.joff.toNat, 20), (0, 1)]

/-- MOVI (R251). -/
def moviOf (w : Nat) : Except Reject Movi :=
  match splitFields [2, 8, 8, 1, 4, 2, 7, 32] w with
  | [_, _, d, nb, pr, ext, z, imm] => do
    let dst ← dstOfCode d
    if z = 0 then
      .ok { dst, nowb := nb = 1, pred := predOfCode pr, ext := extOfCode ext, imm := BitVec.ofNat 32 imm }
    else .error .reserved
  | _ => .error .reserved

def moviWord (m : Movi) : Nat :=
  joinFields [(3, 2), (0x3c, 8), (dstCode m.dst, 8), (bit m.nowb, 1), (predCode m.pred, 4), (extCode m.ext, 2), (0, 7),
    (m.imm.toNat, 32)]

/-- X64 (R252). -/
def x64Of (w : Nat) : Except Reject X64 :=
  match splitFields [2, 8, 7, 2, 4, 8, 9, 5, 8, 4, 6, 1] w with
  | [_, _, tile, z, pr, tid, slot, mslot, reg, cnt, flags, z'] => do
    let reg ← srcOfCode reg
    if z = 0 ∧ pr = 7 ∧ z' = 0 then
      .ok { tile := BitVec.ofNat 7 tile, tid := BitVec.ofNat 8 tid, slot := BitVec.ofNat 9 slot,
            mslot := BitVec.ofNat 5 mslot, reg, cnt := BitVec.ofNat 4 cnt, flags := BitVec.ofNat 6 flags }
    else .error .reserved
  | _ => .error .reserved

def x64Word (op : Nat) (x : X64) : Nat :=
  joinFields [(3, 2), (op, 8), (x.tile.toNat, 7), (0, 2), (7, 4), (x.tid.toNat, 8), (x.slot.toNat, 9), (x.mslot.toNat, 5),
    (srcCode x.reg, 8), (x.cnt.toNat, 4), (x.flags.toNat, 6), (0, 1)]

/-- G64 (R253). -/
def g64Of (w : Nat) : Except Reject G64 :=
  match splitFields [2, 8, 8, 1, 4, 8, 4, 8, 4, 4, 2, 2, 4, 4, 1] w with
  | [_, _, d, z, pr, addr, gp, cw, width, gop, ord, sc, gflags, gext, z'] => do
    let data ← srcOfCode d
    let addr ← srcOfCode addr
    let cw ← srcOfCode cw
    if z = 0 ∧ z' = 0 then
      .ok { data, pred := predOfCode pr, addr, gp := BitVec.ofNat 4 gp, cw, width := BitVec.ofNat 4 width,
            gop := BitVec.ofNat 4 gop, order := orderOfCode ord, scope := scopeOfCode sc,
            gflags := BitVec.ofNat 4 gflags, gext := BitVec.ofNat 4 gext }
    else .error .reserved
  | _ => .error .reserved

def g64Word (op : Nat) (g : G64) : Nat :=
  joinFields [(3, 2), (op, 8), (srcCode g.data, 8), (0, 1), (predCode g.pred, 4), (srcCode g.addr, 8), (g.gp.toNat, 4),
    (srcCode g.cw, 8), (g.width.toNat, 4), (g.gop.toNat, 4), (orderCode g.order, 2), (scopeCode g.scope, 2),
    (g.gflags.toNat, 4), (g.gext.toNat, 4), (0, 1)]

/-! ## The opcode map (R254, R255) -/

/-- The generic opcodes; an op8 that assigns several rows of the table tells them apart by opx. -/
def genInstr (op : Nat) (g : Gen) : Except Reject Instr :=
  match op with
  | 0x00 => .ok (.nop g)
  | 0x08 => .ok (.ret g)
  | 0x09 => .ok (.regang g)
  | 0x0a => .ok (.exit g)
  | 0x0b => .ok (.hold g)
  | 0x0c => .ok (.yield g)
  | 0x0d => .ok (.waitcnt g)
  | 0x0e => .ok (.waittag g)
  | 0x0f => .ok (.psplit g)
  | 0x10 => .ok (.pfuse g)
  | 0x20 => .ok (.iadd g)
  | 0x21 => .ok (.isub g)
  | 0x22 => .ok (.imul g)
  | 0x23 => .ok (.imulh g)
  | 0x24 => .ok (.imad g)
  | 0x25 => .ok (.imin g)
  | 0x26 => .ok (.imax g)
  | 0x27 => .ok (.iabsd g)
  | 0x28 => .ok (.and g)
  | 0x29 => .ok (.or g)
  | 0x2a => .ok (.xor g)
  | 0x2b => .ok (.andn g)
  | 0x2c => .ok (.shl g)
  | 0x2d => .ok (.shr g)
  | 0x2e => .ok (.sar g)
  | 0x2f => .ok (.rotl g)
  | 0x30 => .ok (.bfe g)
  | 0x31 => .ok (.bfi g)
  | 0x32 => .ok (.popc g)
  | 0x33 => .ok (.clz g)
  | 0x34 => .ok (.ctz g)
  | 0x35 => .ok (.brev g)
  | 0x36 => .ok (.prmt g)
  | 0x37 => .ok (.lea g)
  | 0x38 => .ok (.iset g)
  | 0x39 => .ok (.sel g)
  | 0x3a => .ok (.mov g)
  | 0x3d => .ok (.cvti g)
  | 0x40 => .ok (.shfl g)
  | 0x41 => .ok (.vote g)
  | 0x42 => .ok (.matchLanes g)
  | 0x43 => .ok (.redux g)
  | 0x44 => .ok (.scan g)
  | 0x45 => .ok (.rank g)
  | 0x46 => .ok (.bcast g)
  | 0x50 => .ok (.fadd g)
  | 0x51 => .ok (.fsub g)
  | 0x52 => .ok (.fmul g)
  | 0x53 => .ok (.ffma g)
  | 0x54 => .ok (.fmin g)
  | 0x55 => .ok (.fmax g)
  | 0x56 => .ok (.fset g)
  | 0x57 => .ok (.fdiv g)
  | 0x58 => .ok (.frcp g)
  | 0x59 => .ok (.fsqrt g)
  | 0x5a => .ok (.frsq g)
  | 0x5b => .ok (.fex2 g)
  | 0x5c => .ok (.flg2 g)
  | 0x5d => .ok (.frnd g)
  | 0x5e => .ok (.fscale g)
  | 0x5f => .ok (.fclass g)
  | 0x60 => .ok (.cvt g)
  | 0x61 => .ok (.tf8pk g)
  | 0x62 => .ok (.tf8up g)
  | 0x63 => .ok (.requant g)
  | 0x64 => .ok (.rng g)
  | 0x65 => match g.opx.toNat with
    | 0 => .ok (.fstatRead g)
    | 1 => .ok (.fstatClear g)
    | 2 => .ok (.fstatSet g)
    | _ => .error .notAccepted
  | 0x7a => .ok (.fence g)
  | 0x7b => .ok (.smap g)
  | 0x7c => .ok (.sunmap g)
  | 0x7d => .ok (.sflush g)
  | 0x7e => if g.opx.toNat % 4 = 0 then .ok (.bxferLoad g) else if g.opx.toNat % 4 = 1 then .ok (.bxferStore g) else if g.opx.toNat % 4 = 2 then .ok (.bxferRed g)
    else .error .notAccepted
  | 0x90 => .ok (.barinit g)
  | 0x91 => match g.opx.toNat with
    | 0 => .ok (.bararr g)
    | 1 => .ok (.bararrJoin g)
    | 2 => .ok (.bararrDrop g)
    | _ => .error .notAccepted
  | 0x92 => .ok (.barwait g)
  | 0x93 => .ok (.barexp g)
  | 0x94 => .ok (.bartry g)
  | 0x95 => .ok (.qcfg g)
  | 0x96 => .ok (.append g)
  | 0x97 => .ok (.decline g)
  | 0xaf => .ok (.mstat g)
  | 0xd0 => .ok (.gatecfg g)
  | 0xd1 => .ok (.gdispatch g)
  | 0xd2 => .ok (.mbmark g)
  | 0xd3 => match g.opx.toNat with
    | 0 => .ok (.ertopDefine g)
    | 1 => .ok (.ertopFetch g)
    | 2 => .ok (.ertopEvict g)
    | 3 => .ok (.ertopPin g)
    | 4 => .ok (.ertopUnpin g)
    | 5 => .ok (.ertopRead g)
    | _ => .error .notAccepted
  | 0xd4 => .ok (.taskdef g)
  | 0xd5 => match g.opx.toNat with
    | 0 => .ok (.taskdepSet g)
    | 1 => .ok (.taskdepAdd g)
    | 2 => .ok (.taskdepSub g)
    | _ => .error .notAccepted
  | 0xd6 => .ok (.kstat g)
  | 0xd8 => .ok (.npost g)
  | 0xd9 => .ok (.nrecv g)
  | 0xda => .ok (.npoll g)
  | 0xdb => .ok (.larm g)
  | 0xdc => .ok (.launch g)
  | 0xe0 => .ok (.srr g)
  | 0xe1 => .ok (.srw g)
  | 0xe2 => match g.opx.toNat with
    | 0 => .ok (.tlbinvPage g)
    | 1 => .ok (.tlbinvContext g)
    | 2 => .ok (.tlbinvAll g)
    | _ => .error .notAccepted
  | 0xe3 => match g.opx.toNat with
    | 0 => .ok (.biasflipDev g)
    | 1 => .ok (.biasflipHost g)
    | _ => .error .notAccepted
  | 0xe4 => match g.opx.toNat with
    | 0 => .ok (.migrateLocal g)
    | 1 => .ok (.migrateRemote g)
    | _ => .error .notAccepted
  | 0xe5 => .ok (.capset g)
  | 0xe6 => .ok (.mappg g)
  | 0xe7 => match g.opx.toNat with
    | 0 => .ok (.trap g)
    | 1 => .ok (.trapDbg g)
    | _ => .error .notAccepted
  | 0xe8 => match g.opx.toNat with
    | 0 => .ok (.retfRetry g)
    | 1 => .ok (.retfNext g)
    | 2 => .ok (.retfEsc g)
    | _ => .error .notAccepted
  | 0xe9 => .ok (.ctrread g)
  | _ => .error .op8

def j64Instr (op : Nat) (j : J64) : Except Reject Instr :=
  match op with
  | 0x01 => .ok (.bra j)
  | 0x04 => .ok (.brany j)
  | 0x05 => .ok (.brall j)
  | 0x06 => .ok (.jmp j)
  | 0x07 => .ok (.call j)
  | _ => .error .op8

def m64Instr (op : Nat) (m : M64) : Except Reject Instr :=
  match op with
  | 0x70 => .ok (.ld m)
  | 0x71 => .ok (.st m)
  | 0x72 => .ok (.lds m)
  | 0x73 => .ok (.sts m)
  | 0x74 => .ok (.ldc m)
  | 0x75 => .ok (.atom m)
  | 0x76 => .ok (.red m)
  | 0x77 => .ok (.cpl m)
  | 0x78 => .ok (.pref m)
  | 0x79 => .ok (.discard m)
  | 0x7f => .ok (.waitc m)
  | _ => .error .op8

/-- Flags [58] and [57] tell MMA's and MST's rows apart (R252). -/
def x64Instr (op : Nat) (x : X64) : Except Reject Instr :=
  match op with
  | 0xa0 => .ok (.tdset x)
  | 0xa1 => .ok (.tdget x)
  | 0xa2 => .ok (.mldb x)
  | 0xa3 => .ok (.mbrel x)
  | 0xa4 => .ok (.mldmeta x)
  | 0xa5 => .ok (.mzero x)
  | 0xa6 => if x.flags.toNat < 2 then .ok (.mma x) else .ok (.mmaRing x)
  | 0xa7 => .ok (.mmasp x)
  | 0xa8 => if x.flags = 0#6 then .ok (.mst x) else .ok (.mstAdd x)
  | 0xa9 => .ok (.mrda x)
  | 0xaa => .ok (.mwra x)
  | 0xab => .ok (.ringinit x)
  | 0xac => .ok (.ringput x)
  | 0xad => .ok (.ringtake x)
  | 0xae => .ok (.ringdone x)
  | _ => .error .op8

def g64Instr (op : Nat) (g : G64) : Except Reject Instr :=
  match op with
  | 0xc0 => .ok (.gpat g)
  | 0xc1 => .ok (.gst g)
  | 0xc2 => .ok (.gld g)
  | 0xc3 => .ok (.gred g)
  | 0xc4 => .ok (.gatom g)
  | 0xc5 => .ok (.gscan g)
  | 0xc6 => .ok (.gcopy g)
  | 0xc7 => .ok (.gfence g)
  | 0xc8 => .ok (.gwait g)
  | _ => .error .op8

/-- The instruction an E64 word encodes, before its acceptance (R254). -/
def e64Instr (w : Nat) : Except Reject Instr :=
  let op := w / 4 % 256
  if op = 0x02 then (brcOf w).map .brc
  else if op = 0x03 then (brvOf w).map .brv
  else if op = 0x3b then (movsrOf w).map .movsr
  else if op = 0x3c then (moviOf w).map .movi
  else if op = 0x3e then (plopOf w).map .plop
  else if op = 0x01 ∨ (0x04 ≤ op ∧ op ≤ 0x07) then (j64Of w).bind (j64Instr op)
  else if (0x70 ≤ op ∧ op ≤ 0x79) ∨ op = 0x7f then (m64Of w).bind (m64Instr op)
  else if 0xa0 ≤ op ∧ op ≤ 0xae then (x64Of w).bind (x64Instr op)
  else if 0xc0 ≤ op ∧ op ≤ 0xc8 then (g64Of w).bind (g64Instr op)
  else (genOf w).bind (genInstr op)

/-! ## The short forms (R226 to R232) -/

def c16Instr (op4 : Nat) (c : C16) : Except Reject Instr :=
  match op4 with
  | 0 => .ok (.movC16 c)
  | 1 => .ok (.iaddC16 c)
  | 2 => .ok (.isubC16 c)
  | 3 => .ok (.imulC16 c)
  | 4 => .ok (.andC16 c)
  | 5 => .ok (.orC16 c)
  | 6 => .ok (.xorC16 c)
  | 7 => .ok (.shlC16 c)
  | 8 => .ok (.shrC16 c)
  | 9 => .ok (.sarC16 c)
  | 10 => .ok (.faddC16 c)
  | 11 => .ok (.fsubC16 c)
  | 12 => .ok (.fmulC16 c)
  | 13 => .ok (.fmaxC16 c)
  | 14 => .ok (.fminC16 c)
  | _ => .error .sysSelector

/-- R226, R228. -/
def c16Of (w : Nat) : Except Reject Instr :=
  match splitFields [1, 4, 5, 6] w with
  | [_, op4, vd, src6] =>
    if op4 = 15 then
      if src6 = 0 then
        match vd with
        | 0 => .ok .nopC16
        | 1 => .ok .yieldC16
        | 2 => .ok .retC16
        | 3 => .ok .exitC16
        | _ => .error .sysSelector
      else .error .sysSelector
    else c16Instr op4 { vd := BitVec.ofNat 5 vd, src := src6OfCode src6 }
  | _ => .error .reserved

def c16Word (op4 : Nat) (c : C16) : Nat := joinFields [(0, 1), (op4, 4), (c.vd.toNat, 5), (src6Code c.src, 6)]
def sysWord (n : Nat) : Nat := joinFields [(0, 1), (15, 4), (n, 5), (0, 6)]

def a32Instr (op6 : Nat) (a : A32) : Except Reject Instr :=
  match op6 with
  | 0 => .ok (.movA32 a)
  | 1 => .ok (.iaddA32 a)
  | 2 => .ok (.isubA32 a)
  | 3 => .ok (.imulA32 a)
  | 4 => .ok (.imadA32 a)
  | 5 => .ok (.iminA32 a)
  | 6 => .ok (.imaxA32 a)
  | 7 => .ok (.andA32 a)
  | 8 => .ok (.orA32 a)
  | 9 => .ok (.xorA32 a)
  | 10 => .ok (.andnA32 a)
  | 11 => .ok (.shlA32 a)
  | 12 => .ok (.shrA32 a)
  | 13 => .ok (.sarA32 a)
  | 14 => .ok (.popcA32 a)
  | 15 => .ok (.clzA32 a)
  | 16 => .ok (.faddF32A32 a)
  | 17 => .ok (.fsubF32A32 a)
  | 18 => .ok (.fmulF32A32 a)
  | 19 => .ok (.ffmaF32A32 a)
  | 20 => .ok (.fminF32A32 a)
  | 21 => .ok (.fmaxF32A32 a)
  | 22 => .ok (.faddF16x2A32 a)
  | 23 => .ok (.fmulF16x2A32 a)
  | 24 => .ok (.ffmaF16x2A32 a)
  | 25 => .ok (.faddBf16x2A32 a)
  | 26 => .ok (.fmulBf16x2A32 a)
  | 27 => .ok (.ffmaBf16x2A32 a)
  | 28 => .ok (.shflXorA32 a)
  | 29 => .ok (.ldsA32 a)
  | _ => .error .op6

/-- R230 to R232. -/
def a32Of (w : Nat) : Except Reject Instr :=
  match splitFields [2, 6, 7, 1, 8, 8] w with
  | [_, op6, vd, nb, a, b] =>
    if op6 = 56 then .ok (.braA32 (BitVec.ofNat 24 (w / 256)))
    else if op6 = 57 then .ok (.callA32 (BitVec.ofNat 24 (w / 256)))
    else if 30 ≤ op6 then .error .op6
    else do
      let a ← srcOfCode a
      let b ← srcOfCode b
      a32Instr op6 { vd := BitVec.ofNat 7 vd, nowb := nb = 1, a, b }
  | _ => .error .reserved

def a32Word (op6 : Nat) (a : A32) : Nat :=
  joinFields [(1, 2), (op6, 6), (a.vd.toNat, 7), (bit a.nowb, 1), (srcCode a.a, 8), (srcCode a.b, 8)]

def a32Branch (op6 : Nat) (off : BitVec 24) : Nat := joinFields [(1, 2), (op6, 6), (off.toNat, 24)]

/-! ## Decoding -/

/-- The length that the first parcel gives, in parcels (R224). -/
def parcelsOf (w : Nat) : Nat := if w % 2 = 0 then 1 else if w % 4 = 1 then 2 else 4

/-- The instruction in a word of that length, its acceptance included (R257). -/
def decodeWord (w : Nat) : Decoded :=
  let n := parcelsOf w
  match (if n = 1 then c16Of w else if n = 2 then a32Of w else e64Instr w) with
  | .error r => .reject r
  | .ok i => if i.wf then .instr i n else .reject .notAccepted

/-- Decoding at the start of a list of bytes (R9, R224): total, and the bytes after the instruction play no part. -/
def decode (bs : List Byte) : Decoded :=
  let n := parcelsOf (ofLeBytes (bs.take 2))
  if bs.length < 2 ∨ bs.length < 2 * n then .reject .truncated else decodeWord (ofLeBytes (bs.take (2 * n)))

/-- The instruction of a word numbered as the opcode table numbers it (bit 0 the least significant bit of the first parcel),
its bytes laid out as the device stores them. -/
def decodeTableWord (nbits w : Nat) : Option Instr :=
  match decode (leBytes 8 (w % 2 ^ nbits)) with
  | .instr i _ => some i
  | .reject _ => none

/-! ## Encoding -/

/-- The parcels of an instruction; an event has none. -/
def Instr.parcels (i : Instr) : Nat :=
  match i with
  | .nop _ => 4
  | .bra _ => 4
  | .brc _ => 4
  | .brv _ => 4
  | .brany _ => 4
  | .brall _ => 4
  | .jmp _ => 4
  | .call _ => 4
  | .ret _ => 4
  | .regang _ => 4
  | .exit _ => 4
  | .hold _ => 4
  | .yield _ => 4
  | .waitcnt _ => 4
  | .waittag _ => 4
  | .psplit _ => 4
  | .pfuse _ => 4
  | .iadd _ => 4
  | .isub _ => 4
  | .imul _ => 4
  | .imulh _ => 4
  | .imad _ => 4
  | .imin _ => 4
  | .imax _ => 4
  | .iabsd _ => 4
  | .and _ => 4
  | .or _ => 4
  | .xor _ => 4
  | .andn _ => 4
  | .shl _ => 4
  | .shr _ => 4
  | .sar _ => 4
  | .rotl _ => 4
  | .bfe _ => 4
  | .bfi _ => 4
  | .popc _ => 4
  | .clz _ => 4
  | .ctz _ => 4
  | .brev _ => 4
  | .prmt _ => 4
  | .lea _ => 4
  | .iset _ => 4
  | .sel _ => 4
  | .mov _ => 4
  | .movsr _ => 4
  | .movi _ => 4
  | .cvti _ => 4
  | .plop _ => 4
  | .shfl _ => 4
  | .vote _ => 4
  | .matchLanes _ => 4
  | .redux _ => 4
  | .scan _ => 4
  | .rank _ => 4
  | .bcast _ => 4
  | .fadd _ => 4
  | .fsub _ => 4
  | .fmul _ => 4
  | .ffma _ => 4
  | .fmin _ => 4
  | .fmax _ => 4
  | .fset _ => 4
  | .fdiv _ => 4
  | .frcp _ => 4
  | .fsqrt _ => 4
  | .frsq _ => 4
  | .fex2 _ => 4
  | .flg2 _ => 4
  | .frnd _ => 4
  | .fscale _ => 4
  | .fclass _ => 4
  | .cvt _ => 4
  | .tf8pk _ => 4
  | .tf8up _ => 4
  | .requant _ => 4
  | .rng _ => 4
  | .fstatRead _ => 4
  | .fstatClear _ => 4
  | .fstatSet _ => 4
  | .ld _ => 4
  | .st _ => 4
  | .lds _ => 4
  | .sts _ => 4
  | .ldc _ => 4
  | .atom _ => 4
  | .red _ => 4
  | .cpl _ => 4
  | .pref _ => 4
  | .discard _ => 4
  | .fence _ => 4
  | .smap _ => 4
  | .sunmap _ => 4
  | .sflush _ => 4
  | .bxferLoad _ => 4
  | .bxferStore _ => 4
  | .bxferRed _ => 4
  | .waitc _ => 4
  | .barinit _ => 4
  | .bararr _ => 4
  | .bararrJoin _ => 4
  | .bararrDrop _ => 4
  | .barwait _ => 4
  | .barexp _ => 4
  | .bartry _ => 4
  | .qcfg _ => 4
  | .append _ => 4
  | .decline _ => 4
  | .tdset _ => 4
  | .tdget _ => 4
  | .mldb _ => 4
  | .mbrel _ => 4
  | .mldmeta _ => 4
  | .mzero _ => 4
  | .mma _ => 4
  | .mmaRing _ => 4
  | .mmasp _ => 4
  | .mst _ => 4
  | .mstAdd _ => 4
  | .mrda _ => 4
  | .mwra _ => 4
  | .ringinit _ => 4
  | .ringput _ => 4
  | .ringtake _ => 4
  | .ringdone _ => 4
  | .mstat _ => 4
  | .gpat _ => 4
  | .gst _ => 4
  | .gld _ => 4
  | .gred _ => 4
  | .gatom _ => 4
  | .gscan _ => 4
  | .gcopy _ => 4
  | .gfence _ => 4
  | .gwait _ => 4
  | .gatecfg _ => 4
  | .gdispatch _ => 4
  | .mbmark _ => 4
  | .ertopDefine _ => 4
  | .ertopFetch _ => 4
  | .ertopEvict _ => 4
  | .ertopPin _ => 4
  | .ertopUnpin _ => 4
  | .ertopRead _ => 4
  | .taskdef _ => 4
  | .taskdepSet _ => 4
  | .taskdepAdd _ => 4
  | .taskdepSub _ => 4
  | .kstat _ => 4
  | .npost _ => 4
  | .nrecv _ => 4
  | .npoll _ => 4
  | .larm _ => 4
  | .launch _ => 4
  | .srr _ => 4
  | .srw _ => 4
  | .tlbinvPage _ => 4
  | .tlbinvContext _ => 4
  | .tlbinvAll _ => 4
  | .biasflipDev _ => 4
  | .biasflipHost _ => 4
  | .migrateLocal _ => 4
  | .migrateRemote _ => 4
  | .capset _ => 4
  | .mappg _ => 4
  | .trap _ => 4
  | .trapDbg _ => 4
  | .retfRetry _ => 4
  | .retfNext _ => 4
  | .retfEsc _ => 4
  | .ctrread _ => 4
  | .movC16 _ => 1
  | .iaddC16 _ => 1
  | .isubC16 _ => 1
  | .imulC16 _ => 1
  | .andC16 _ => 1
  | .orC16 _ => 1
  | .xorC16 _ => 1
  | .shlC16 _ => 1
  | .shrC16 _ => 1
  | .sarC16 _ => 1
  | .faddC16 _ => 1
  | .fsubC16 _ => 1
  | .fmulC16 _ => 1
  | .fmaxC16 _ => 1
  | .fminC16 _ => 1
  | .nopC16 => 1
  | .yieldC16 => 1
  | .retC16 => 1
  | .exitC16 => 1
  | .movA32 _ => 2
  | .iaddA32 _ => 2
  | .isubA32 _ => 2
  | .imulA32 _ => 2
  | .imadA32 _ => 2
  | .iminA32 _ => 2
  | .imaxA32 _ => 2
  | .andA32 _ => 2
  | .orA32 _ => 2
  | .xorA32 _ => 2
  | .andnA32 _ => 2
  | .shlA32 _ => 2
  | .shrA32 _ => 2
  | .sarA32 _ => 2
  | .popcA32 _ => 2
  | .clzA32 _ => 2
  | .faddF32A32 _ => 2
  | .fsubF32A32 _ => 2
  | .fmulF32A32 _ => 2
  | .ffmaF32A32 _ => 2
  | .fminF32A32 _ => 2
  | .fmaxF32A32 _ => 2
  | .faddF16x2A32 _ => 2
  | .fmulF16x2A32 _ => 2
  | .ffmaF16x2A32 _ => 2
  | .faddBf16x2A32 _ => 2
  | .fmulBf16x2A32 _ => 2
  | .ffmaBf16x2A32 _ => 2
  | .shflXorA32 _ => 2
  | .ldsA32 _ => 2
  | .braA32 _ => 2
  | .callA32 _ => 2
  | .hostQueueDoorbell _ _ => 0
  | .hqerrClear _ => 0
  | .hostSysregWrite _ _ => 0
  | .hostRegisterWrite _ _ => 0
  | .launchAccept => 0
  | .blockPlacement => 0
  | .blockStart _ => 0
  | .stealAttempt _ => 0
  | .blockEnd _ => 0
  | .pendingSpawn => 0
  | .runEnd _ _ => 0
  | .fragmentWake _ => 0
  | .budgetPeriodEnd _ _ _ => 0
  | .preempt _ => 0
  | .contextSwitch _ => 0
  | .blockResume _ _ => 0
  | .detRoundComplete _ => 0
  | .detSyncTurn _ => 0
  | .appendClaimGrant _ => 0
  | .stashSegmentWake _ _ => 0
  | .stashFillComplete _ _ => 0
  | .homeSliceAccess _ => 0
  | .stashWriteback _ _ _ => 0
  | .l2WayGate _ _ => 0
  | .l2WayEnable _ _ => 0
  | .pageWalkComplete _ _ => 0
  | .hostMemoryAccess _ => 0
  | .migrationResend _ _ _ => 0
  | .conditionMonitorWake _ => 0
  | .monitorPoll _ => 0
  | .streamerBytesComplete _ _ => 0
  | .laneCopyLand _ => 0
  | .matrixPassComplete _ => 0
  | .checksumReplay _ _ => 0
  | .matrixDrainComplete _ => 0
  | .gstLineReceive _ => 0
  | .gldRequestReceive _ => 0
  | .gldReplyReceive _ => 0
  | .gredContributionReceive _ => 0
  | .gatomRequestReceive _ _ => 0
  | .gatomReplyReceive _ => 0
  | .gscanContributionReceive _ => 0
  | .gscanReplyReceive _ => 0
  | .gcopyLineReceive _ => 0
  | .gcopyHeldDelivery => 0
  | .acknowledgementReceive _ => 0
  | .releaseMarkerReceive _ _ => 0
  | .refusalReceive _ => 0
  | .idleFlitReceive _ _ _ => 0
  | .reservedVcFlit _ => 0
  | .linkReplayRequest _ _ => 0
  | .linkDown _ => 0
  | .linkFailoverNotice _ _ => 0
  | .auditFlitSend _ => 0
  | .creditAuditReceive _ _ _ => 0
  | .planeLossReport _ => 0
  | .unreachableMark _ => 0
  | .tokenRowReceive _ => 0
  | .rowRefusalReceive _ => 0
  | .gdispatchComplete _ => 0
  | .mbmarkCommit _ => 0
  | .closeMarkerSend _ => 0
  | .closeMarkerReceive _ _ _ _ _ => 0
  | .loadMulticastReceive _ _ _ => 0
  | .fillCounterReset _ _ => 0
  | .orderedRoundClose _ => 0
  | .pagerFetchComplete _ => 0
  | .fetchAttemptFail _ => 0
  | .evictUnmapComplete _ => 0
  | .tileSpawn _ _ _ _ => 0
  | .npostStart _ => 0
  | .neSegmentReceive _ => 0
  | .neAckReceive _ => 0
  | .neNotReadyReceive _ => 0
  | .neRetransmitTimeout _ _ => 0
  | .neReceiveTimeout _ => 0
  | .neAbortReceive _ _ => 0
  | .shadowFlushTimer _ => 0
  | .energyInterval _ _ => 0
  | .scrub _ _ => 0
  | .islandSet _ _ _ => 0
  | .mctpStatus => 0
  | .mctpIslandTelemetry => 0
  | .mctpReadCounters _ => 0
  | .mctpSignedSnapshot _ _ => 0
  | .mctpSelfTestReport => 0
  | .spdmGetCertificate => 0
  | .spdmChallenge _ => 0
  | .spdmGetMeasurements _ => 0
  | .coldReset _ => 0
  | .warmResetFlr _ => 0
  | .warmResetSecondaryBus _ => 0
  | .warmResetMp _ => 0
  | .hostLinkDown => 0
  | .cxlCacheSnoop _ _ => 0
  | .flitCrcFailure _ => 0
  | .linkFlitAcknowledge _ _ => 0
  | .rowAcceptanceReceive _ => 0

/-- The word of an instruction, from the same layouts; an event has none. -/
def encode (i : Instr) : Nat :=
  match i with
  | .nop g => genWord 0x00 g
  | .bra j => j64Word 0x01 j
  | .brc c => brcWord c
  | .brv v => brvWord v
  | .brany j => j64Word 0x04 j
  | .brall j => j64Word 0x05 j
  | .jmp j => j64Word 0x06 j
  | .call j => j64Word 0x07 j
  | .ret g => genWord 0x08 g
  | .regang g => genWord 0x09 g
  | .exit g => genWord 0x0a g
  | .hold g => genWord 0x0b g
  | .yield g => genWord 0x0c g
  | .waitcnt g => genWord 0x0d g
  | .waittag g => genWord 0x0e g
  | .psplit g => genWord 0x0f g
  | .pfuse g => genWord 0x10 g
  | .iadd g => genWord 0x20 g
  | .isub g => genWord 0x21 g
  | .imul g => genWord 0x22 g
  | .imulh g => genWord 0x23 g
  | .imad g => genWord 0x24 g
  | .imin g => genWord 0x25 g
  | .imax g => genWord 0x26 g
  | .iabsd g => genWord 0x27 g
  | .and g => genWord 0x28 g
  | .or g => genWord 0x29 g
  | .xor g => genWord 0x2a g
  | .andn g => genWord 0x2b g
  | .shl g => genWord 0x2c g
  | .shr g => genWord 0x2d g
  | .sar g => genWord 0x2e g
  | .rotl g => genWord 0x2f g
  | .bfe g => genWord 0x30 g
  | .bfi g => genWord 0x31 g
  | .popc g => genWord 0x32 g
  | .clz g => genWord 0x33 g
  | .ctz g => genWord 0x34 g
  | .brev g => genWord 0x35 g
  | .prmt g => genWord 0x36 g
  | .lea g => genWord 0x37 g
  | .iset g => genWord 0x38 g
  | .sel g => genWord 0x39 g
  | .mov g => genWord 0x3a g
  | .movsr m => movsrWord m
  | .movi m => moviWord m
  | .cvti g => genWord 0x3d g
  | .plop p => plopWord p
  | .shfl g => genWord 0x40 g
  | .vote g => genWord 0x41 g
  | .matchLanes g => genWord 0x42 g
  | .redux g => genWord 0x43 g
  | .scan g => genWord 0x44 g
  | .rank g => genWord 0x45 g
  | .bcast g => genWord 0x46 g
  | .fadd g => genWord 0x50 g
  | .fsub g => genWord 0x51 g
  | .fmul g => genWord 0x52 g
  | .ffma g => genWord 0x53 g
  | .fmin g => genWord 0x54 g
  | .fmax g => genWord 0x55 g
  | .fset g => genWord 0x56 g
  | .fdiv g => genWord 0x57 g
  | .frcp g => genWord 0x58 g
  | .fsqrt g => genWord 0x59 g
  | .frsq g => genWord 0x5a g
  | .fex2 g => genWord 0x5b g
  | .flg2 g => genWord 0x5c g
  | .frnd g => genWord 0x5d g
  | .fscale g => genWord 0x5e g
  | .fclass g => genWord 0x5f g
  | .cvt g => genWord 0x60 g
  | .tf8pk g => genWord 0x61 g
  | .tf8up g => genWord 0x62 g
  | .requant g => genWord 0x63 g
  | .rng g => genWord 0x64 g
  | .fstatRead g => genWord 0x65 g
  | .fstatClear g => genWord 0x65 g
  | .fstatSet g => genWord 0x65 g
  | .ld m => m64Word 0x70 m
  | .st m => m64Word 0x71 m
  | .lds m => m64Word 0x72 m
  | .sts m => m64Word 0x73 m
  | .ldc m => m64Word 0x74 m
  | .atom m => m64Word 0x75 m
  | .red m => m64Word 0x76 m
  | .cpl m => m64Word 0x77 m
  | .pref m => m64Word 0x78 m
  | .discard m => m64Word 0x79 m
  | .fence g => genWord 0x7a g
  | .smap g => genWord 0x7b g
  | .sunmap g => genWord 0x7c g
  | .sflush g => genWord 0x7d g
  | .bxferLoad g => genWord 0x7e g
  | .bxferStore g => genWord 0x7e g
  | .bxferRed g => genWord 0x7e g
  | .waitc m => m64Word 0x7f m
  | .barinit g => genWord 0x90 g
  | .bararr g => genWord 0x91 g
  | .bararrJoin g => genWord 0x91 g
  | .bararrDrop g => genWord 0x91 g
  | .barwait g => genWord 0x92 g
  | .barexp g => genWord 0x93 g
  | .bartry g => genWord 0x94 g
  | .qcfg g => genWord 0x95 g
  | .append g => genWord 0x96 g
  | .decline g => genWord 0x97 g
  | .tdset x => x64Word 0xa0 x
  | .tdget x => x64Word 0xa1 x
  | .mldb x => x64Word 0xa2 x
  | .mbrel x => x64Word 0xa3 x
  | .mldmeta x => x64Word 0xa4 x
  | .mzero x => x64Word 0xa5 x
  | .mma x => x64Word 0xa6 x
  | .mmaRing x => x64Word 0xa6 x
  | .mmasp x => x64Word 0xa7 x
  | .mst x => x64Word 0xa8 x
  | .mstAdd x => x64Word 0xa8 x
  | .mrda x => x64Word 0xa9 x
  | .mwra x => x64Word 0xaa x
  | .ringinit x => x64Word 0xab x
  | .ringput x => x64Word 0xac x
  | .ringtake x => x64Word 0xad x
  | .ringdone x => x64Word 0xae x
  | .mstat g => genWord 0xaf g
  | .gpat g => g64Word 0xc0 g
  | .gst g => g64Word 0xc1 g
  | .gld g => g64Word 0xc2 g
  | .gred g => g64Word 0xc3 g
  | .gatom g => g64Word 0xc4 g
  | .gscan g => g64Word 0xc5 g
  | .gcopy g => g64Word 0xc6 g
  | .gfence g => g64Word 0xc7 g
  | .gwait g => g64Word 0xc8 g
  | .gatecfg g => genWord 0xd0 g
  | .gdispatch g => genWord 0xd1 g
  | .mbmark g => genWord 0xd2 g
  | .ertopDefine g => genWord 0xd3 g
  | .ertopFetch g => genWord 0xd3 g
  | .ertopEvict g => genWord 0xd3 g
  | .ertopPin g => genWord 0xd3 g
  | .ertopUnpin g => genWord 0xd3 g
  | .ertopRead g => genWord 0xd3 g
  | .taskdef g => genWord 0xd4 g
  | .taskdepSet g => genWord 0xd5 g
  | .taskdepAdd g => genWord 0xd5 g
  | .taskdepSub g => genWord 0xd5 g
  | .kstat g => genWord 0xd6 g
  | .npost g => genWord 0xd8 g
  | .nrecv g => genWord 0xd9 g
  | .npoll g => genWord 0xda g
  | .larm g => genWord 0xdb g
  | .launch g => genWord 0xdc g
  | .srr g => genWord 0xe0 g
  | .srw g => genWord 0xe1 g
  | .tlbinvPage g => genWord 0xe2 g
  | .tlbinvContext g => genWord 0xe2 g
  | .tlbinvAll g => genWord 0xe2 g
  | .biasflipDev g => genWord 0xe3 g
  | .biasflipHost g => genWord 0xe3 g
  | .migrateLocal g => genWord 0xe4 g
  | .migrateRemote g => genWord 0xe4 g
  | .capset g => genWord 0xe5 g
  | .mappg g => genWord 0xe6 g
  | .trap g => genWord 0xe7 g
  | .trapDbg g => genWord 0xe7 g
  | .retfRetry g => genWord 0xe8 g
  | .retfNext g => genWord 0xe8 g
  | .retfEsc g => genWord 0xe8 g
  | .ctrread g => genWord 0xe9 g
  | .movC16 c => c16Word 0 c
  | .iaddC16 c => c16Word 1 c
  | .isubC16 c => c16Word 2 c
  | .imulC16 c => c16Word 3 c
  | .andC16 c => c16Word 4 c
  | .orC16 c => c16Word 5 c
  | .xorC16 c => c16Word 6 c
  | .shlC16 c => c16Word 7 c
  | .shrC16 c => c16Word 8 c
  | .sarC16 c => c16Word 9 c
  | .faddC16 c => c16Word 10 c
  | .fsubC16 c => c16Word 11 c
  | .fmulC16 c => c16Word 12 c
  | .fmaxC16 c => c16Word 13 c
  | .fminC16 c => c16Word 14 c
  | .nopC16 => sysWord 0
  | .yieldC16 => sysWord 1
  | .retC16 => sysWord 2
  | .exitC16 => sysWord 3
  | .movA32 a => a32Word 0 a
  | .iaddA32 a => a32Word 1 a
  | .isubA32 a => a32Word 2 a
  | .imulA32 a => a32Word 3 a
  | .imadA32 a => a32Word 4 a
  | .iminA32 a => a32Word 5 a
  | .imaxA32 a => a32Word 6 a
  | .andA32 a => a32Word 7 a
  | .orA32 a => a32Word 8 a
  | .xorA32 a => a32Word 9 a
  | .andnA32 a => a32Word 10 a
  | .shlA32 a => a32Word 11 a
  | .shrA32 a => a32Word 12 a
  | .sarA32 a => a32Word 13 a
  | .popcA32 a => a32Word 14 a
  | .clzA32 a => a32Word 15 a
  | .faddF32A32 a => a32Word 16 a
  | .fsubF32A32 a => a32Word 17 a
  | .fmulF32A32 a => a32Word 18 a
  | .ffmaF32A32 a => a32Word 19 a
  | .fminF32A32 a => a32Word 20 a
  | .fmaxF32A32 a => a32Word 21 a
  | .faddF16x2A32 a => a32Word 22 a
  | .fmulF16x2A32 a => a32Word 23 a
  | .ffmaF16x2A32 a => a32Word 24 a
  | .faddBf16x2A32 a => a32Word 25 a
  | .fmulBf16x2A32 a => a32Word 26 a
  | .ffmaBf16x2A32 a => a32Word 27 a
  | .shflXorA32 a => a32Word 28 a
  | .ldsA32 a => a32Word 29 a
  | .braA32 off => a32Branch 56 off
  | .callA32 off => a32Branch 57 off
  | .hostQueueDoorbell _ _ => 0
  | .hqerrClear _ => 0
  | .hostSysregWrite _ _ => 0
  | .hostRegisterWrite _ _ => 0
  | .launchAccept => 0
  | .blockPlacement => 0
  | .blockStart _ => 0
  | .stealAttempt _ => 0
  | .blockEnd _ => 0
  | .pendingSpawn => 0
  | .runEnd _ _ => 0
  | .fragmentWake _ => 0
  | .budgetPeriodEnd _ _ _ => 0
  | .preempt _ => 0
  | .contextSwitch _ => 0
  | .blockResume _ _ => 0
  | .detRoundComplete _ => 0
  | .detSyncTurn _ => 0
  | .appendClaimGrant _ => 0
  | .stashSegmentWake _ _ => 0
  | .stashFillComplete _ _ => 0
  | .homeSliceAccess _ => 0
  | .stashWriteback _ _ _ => 0
  | .l2WayGate _ _ => 0
  | .l2WayEnable _ _ => 0
  | .pageWalkComplete _ _ => 0
  | .hostMemoryAccess _ => 0
  | .migrationResend _ _ _ => 0
  | .conditionMonitorWake _ => 0
  | .monitorPoll _ => 0
  | .streamerBytesComplete _ _ => 0
  | .laneCopyLand _ => 0
  | .matrixPassComplete _ => 0
  | .checksumReplay _ _ => 0
  | .matrixDrainComplete _ => 0
  | .gstLineReceive _ => 0
  | .gldRequestReceive _ => 0
  | .gldReplyReceive _ => 0
  | .gredContributionReceive _ => 0
  | .gatomRequestReceive _ _ => 0
  | .gatomReplyReceive _ => 0
  | .gscanContributionReceive _ => 0
  | .gscanReplyReceive _ => 0
  | .gcopyLineReceive _ => 0
  | .gcopyHeldDelivery => 0
  | .acknowledgementReceive _ => 0
  | .releaseMarkerReceive _ _ => 0
  | .refusalReceive _ => 0
  | .idleFlitReceive _ _ _ => 0
  | .reservedVcFlit _ => 0
  | .linkReplayRequest _ _ => 0
  | .linkDown _ => 0
  | .linkFailoverNotice _ _ => 0
  | .auditFlitSend _ => 0
  | .creditAuditReceive _ _ _ => 0
  | .planeLossReport _ => 0
  | .unreachableMark _ => 0
  | .tokenRowReceive _ => 0
  | .rowRefusalReceive _ => 0
  | .gdispatchComplete _ => 0
  | .mbmarkCommit _ => 0
  | .closeMarkerSend _ => 0
  | .closeMarkerReceive _ _ _ _ _ => 0
  | .loadMulticastReceive _ _ _ => 0
  | .fillCounterReset _ _ => 0
  | .orderedRoundClose _ => 0
  | .pagerFetchComplete _ => 0
  | .fetchAttemptFail _ => 0
  | .evictUnmapComplete _ => 0
  | .tileSpawn _ _ _ _ => 0
  | .npostStart _ => 0
  | .neSegmentReceive _ => 0
  | .neAckReceive _ => 0
  | .neNotReadyReceive _ => 0
  | .neRetransmitTimeout _ _ => 0
  | .neReceiveTimeout _ => 0
  | .neAbortReceive _ _ => 0
  | .shadowFlushTimer _ => 0
  | .energyInterval _ _ => 0
  | .scrub _ _ => 0
  | .islandSet _ _ _ => 0
  | .mctpStatus => 0
  | .mctpIslandTelemetry => 0
  | .mctpReadCounters _ => 0
  | .mctpSignedSnapshot _ _ => 0
  | .mctpSelfTestReport => 0
  | .spdmGetCertificate => 0
  | .spdmChallenge _ => 0
  | .spdmGetMeasurements _ => 0
  | .coldReset _ => 0
  | .warmResetFlr _ => 0
  | .warmResetSecondaryBus _ => 0
  | .warmResetMp _ => 0
  | .hostLinkDown => 0
  | .cxlCacheSnoop _ _ => 0
  | .flitCrcFailure _ => 0
  | .linkFlitAcknowledge _ _ => 0
  | .rowAcceptanceReceive _ => 0

/-- The bytes of an instruction, as memory holds them. -/
def encodeBytes (i : Instr) : List Byte := leBytes (2 * i.parcels) (encode i)

end Sys2Proof
end

