-- ==== Sys2Proof/Machine/Fetch.lean ====
section
/-! DEFINITION. Fetching an instruction (R224, R549, R550), choosing the fragment that issues (R97 to R100), and the program that
a word to fetch makes of a state (log 15). -/

namespace Sys2Proof.Machine

/-! ## Fetch -/

/-- The bytes of n parcels from an address, through execute translations; or the cause and the address that fails (R224). -/
def fetchBytes (s : State) (ctx : Nat) (sup : Bool) : Nat → Nat → Except (Nat × Nat) (List Byte)
  | 0, _ => .ok []
  | n + 1, va =>
    match xlate s ctx sup .exec va with
    | .error c => .error (c, va)
    | .ok pa =>
      match fetchBytes s ctx sup n (va + 2) with
      | .error e => .error e
      | .ok bs => .ok (gRead s pa 2 ++ bs)

/-- The parcels of the instruction at a PC: the first parcel gives their number. -/
def fetchAt (s : State) (ctx : Nat) (sup : Bool) (pc : Nat) : Except (Nat × Nat) (List Byte) :=
  match fetchBytes s ctx sup 1 pc with
  | .error e => .error e
  | .ok bs => fetchBytes s ctx sup (parcelsOf (ofLeBytes bs)) pc

/-- The predicates that an instruction reads: its guard or condition, and those of SEL and PLOP (R241, R287, R291). -/
def predsOf (i : Instr) : List Pred :=
  match i with
  | .plop q => [q.pred, q.pa, q.pb, q.pc]
  | .sel g => [g.pred, { neg := false, idx := BitVec.ofNat 3 (g.opx.toNat % 8) }]
  | .iadd g | .isub g | .imul g | .imulh g | .imad g | .imin g | .imax g | .iabsd g | .and g | .or g | .xor g | .andn g
  | .shl g | .shr g | .sar g | .rotl g | .bfe g | .bfi g | .popc g | .clz g | .ctz g | .brev g | .prmt g | .lea g
  | .iset g | .mov g | .cvti g | .shfl g | .vote g | .matchLanes g | .redux g | .scan g | .rank g | .bcast g | .fadd g
  | .fsub g | .fmul g | .ffma g | .fmin g | .fmax g | .fset g | .fdiv g | .frcp g | .fsqrt g | .frsq g | .fex2 g
  | .flg2 g | .frnd g | .fscale g | .fclass g | .cvt g | .tf8pk g | .tf8up g | .requant g | .rng g | .fstatRead g
  | .fstatClear g | .fstatSet g | .fence g | .smap g | .sunmap g | .sflush g | .bxferLoad g | .bxferStore g | .bxferRed g
  | .barinit g | .bararr g | .bararrJoin g | .bararrDrop g | .barwait g | .barexp g | .bartry g | .qcfg g | .append g
  | .decline g | .mstat g | .gatecfg g | .gdispatch g | .mbmark g | .ertopDefine g | .ertopFetch g | .ertopEvict g
  | .ertopPin g | .ertopUnpin g | .ertopRead g | .taskdef g | .taskdepSet g | .taskdepAdd g | .taskdepSub g | .kstat g
  | .npost g | .nrecv g | .npoll g | .larm g | .launch g | .srr g | .srw g | .tlbinvPage g | .tlbinvContext g
  | .tlbinvAll g | .biasflipDev g | .biasflipHost g | .migrateLocal g | .migrateRemote g | .capset g | .mappg g | .trap g
  | .trapDbg g | .retfRetry g | .retfNext g | .retfEsc g | .ctrread g | .nop g | .ret g | .regang g | .exit g | .hold g
  | .yield g | .waitcnt g | .waittag g | .psplit g | .pfuse g => [g.pred]
  | .movsr m => [m.pred]
  | .ld m | .st m | .lds m | .sts m | .ldc m | .atom m | .red m | .cpl m | .pref m | .discard m | .waitc m => [m.pred]
  | .bra j | .brany j | .brall j | .jmp j | .call j => [j.pred]
  | .brv v => [v.pred]
  | .movi m => [m.pred]
  | .gpat g | .gst g | .gld g | .gred g | .gatom g | .gscan g | .gcopy g | .gfence g | .gwait g => [g.pred]
  | _ => []

/-- Whether a lane's predicate that an instruction reads has been lost by an error (R509). -/
def badPreds (e : Issuer) (i : Instr) : Bool :=
  !e.p.badP.isEmpty && (predsOf i).any fun q => q.idx != 7 && (maskLanes e.p e.f).any fun l => e.p.badP.contains (l, q.idx.toNat)

/-- What the issuer finds at its PC: an instruction, or the trap that it takes instead. Every lane of the lane masks raises a
fetch fault, at the parcel that cannot be fetched (log 12). A predicate that an error has lost traps before any effect (R509). -/
def fetched (s : State) (e : Issuer) : Except TrapInfo Instr :=
  match fetchAt s e.l.ctx (inSup e.f) e.f.pc.toNat with
  | .error (c, va) => .error (trapLanes c ((maskLanes e.p e.f).map fun l => (l, va)))
  | .ok bs =>
    match decode bs with
    | .instr i _ => if badPreds e i then .error (trapAll e [] 0x0E) else .ok i
    | .reject _ => .error (trapAll e [] 0x05)

/-! ## Which fragment issues (R97, R98, R100) -/

def allFrags (s : State) : List FragRef := (s.blocks.filter fun b => b.state == .resident).flatMap blockFrags

/-- A fragment is ready: it waits for nothing, its pack's quantum has not ended, and its region is not held at the core. -/
def fragReady (s : State) (e : Issuer) : Bool :=
  e.f.st == .ready && e.f.slices != 0 && (e.f.wait != .drained || engIdle e.p) &&
  !(e.p.ended && !inSup e.f) && !heldAt s e.b.core 0 e.l.region

def readyFrags (s : State) : List Issuer :=
  (allFrags s).filterMap fun r => match issuerAt s r with
    | some e => if fragReady s e then some e else none
    | none => none

/-- The issue scheduler of a pack (R96). -/
def schedOf (e : Issuer) : Nat := 4 * e.b.core + e.p.slot % 4

/-- The datapath quarter to which a pack of width 8, or a sub-pack of width 8, is bound (R96). -/
def quarterOf (p : Pack) : Option Nat :=
  if p.width ≠ 8 then none else if p.hist.isEmpty then some (p.slot / 4) else some (p.pos % 4)

/-- The one of a list that has waited longest. -/
def longest (e : Issuer) (l : List Issuer) : Issuer := l.foldl (fun m x => if x.f.since < m.f.since then x else m) e

/-- The fragment that a scheduler selects among its ready ones (R98): the running one until its run ends, else the one that has
waited longest. -/
def selectOn (l : List Issuer) : Option Issuer :=
  match l.find? fun e => e.f.running && (e.f.slots < 48 || e.f.burst.isSome) with
  | some e => some e
  | none =>
    match l.filter fun e => !e.f.running with
    | x :: xs => some (longest x xs)
    | [] => l.head?

/-- The schedulers with a ready fragment issue in turn (log 1). -/
def selectFrag (s : State) : Option Issuer :=
  let l := readyFrags s
  let ks := (l.map schedOf).eraseDups
  match ks[s.tick / 2 % ks.length]? with
  | none => none
  | some k => selectOn (l.filter fun e => schedOf e == k)

/-- A fragment that had the scheduler loses it, and its latches with it (R100); outside a burst, which keeps them (log 16). It waits
from now on. -/
def loseRun (tick : Nat) (f : Fragment) : Fragment :=
  if f.running then
    (if f.burst.isSome then { f with running := false, since := tick }
     else { dropLatches f with running := false, slots := 0, since := tick })
  else f

def startFrag (tick : Nat) (e : Issuer) (b : Block) (p : Pack) (i : Nat) (f : Fragment) : Fragment :=
  if b.bid = e.ref.blk ∧ p.pidx = e.ref.pidx ∧ p.pos = e.ref.pos ∧ i = e.ref.frag then
    { f with running := true, slots := if f.running && (f.slots < 48 || f.burst.isSome) then f.slots else 0 }
  else loseRun tick f

/-- The bursts of a pack: that of the fragment which has the scheduler goes on, the others' writes are set aside (R102). -/
def turnBursts (p : Pack) (i : Nat) : Pack :=
  takeUp ((List.range p.frags.length).foldl (fun p j => if j = i then p else setAside p j) p) i

def startPack (tick : Nat) (e : Issuer) (b : Block) (p : Pack) : Pack :=
  if p.slot % 4 = e.p.slot % 4 then
    let p := { p with frags := p.frags.mapIdx (startFrag tick e b p) }
    if b.bid = e.ref.blk ∧ p.pidx = e.ref.pidx ∧ p.pos = e.ref.pos ∧ p.frags.any (fun f => f.burst.isSome) then
      turnBursts p e.ref.frag
    else p
  else p

def startRun (s : State) (e : Issuer) : State :=
  { s with cur := some e.ref,
           blocks := s.blocks.map fun b =>
             if b.core = e.b.core then { b with packs := b.packs.map (startPack s.tick e b) } else b }

/-- A scheduler turns to a fragment, whose fetch goes through its core's L1 TLB (R150). -/
def takeTurn (s : State) (e : Issuer) : State := noteMiss e.l.ctx (startRun s e) e.f.pc.toNat

/-! ## Co-issue (R99) -/

/-- The vector ALU instructions: op8 0x20 to 0x3E and 0x50 to 0x63, and their short forms (R99). -/
def vectorAlu (i : Instr) : Bool :=
  match i with
  | .iadd _ | .isub _ | .imul _ | .imulh _ | .imad _ | .imin _ | .imax _ | .iabsd _ | .and _ | .or _ | .xor _ | .andn _
  | .shl _ | .shr _ | .sar _ | .rotl _ | .bfe _ | .bfi _ | .popc _ | .clz _ | .ctz _ | .brev _ | .prmt _ | .lea _
  | .iset _ | .sel _ | .mov _ | .movsr _ | .movi _ | .cvti _ | .plop _ | .fadd _ | .fsub _ | .fmul _ | .ffma _ | .fmin _
  | .fmax _ | .fset _ | .fdiv _ | .frcp _ | .fsqrt _ | .frsq _ | .fex2 _ | .flg2 _ | .frnd _ | .fscale _ | .fclass _
  | .cvt _ | .tf8pk _ | .tf8up _ | .requant _ | .movC16 _ | .iaddC16 _ | .isubC16 _ | .imulC16 _ | .andC16 _ | .orC16 _
  | .xorC16 _ | .shlC16 _ | .shrC16 _ | .sarC16 _ | .faddC16 _ | .fsubC16 _ | .fmulC16 _ | .fmaxC16 _ | .fminC16 _
  | .movA32 _ | .iaddA32 _ | .isubA32 _ | .imulA32 _ | .imadA32 _ | .iminA32 _ | .imaxA32 _ | .andA32 _ | .orA32 _
  | .xorA32 _ | .andnA32 _ | .shlA32 _ | .shrA32 _ | .sarA32 _ | .popcA32 _ | .clzA32 _ | .faddF32A32 _ | .fsubF32A32 _
  | .fmulF32A32 _ | .ffmaF32A32 _ | .fminF32A32 _ | .fmaxF32A32 _ | .faddF16x2A32 _ | .fmulF16x2A32 _ | .ffmaF16x2A32 _
  | .faddBf16x2A32 _ | .fmulBf16x2A32 _ | .ffmaBf16x2A32 _ => true
  | _ => false

/-- A fragment whose next instruction is a vector ALU instruction. -/
def vectorNext (s : State) (e : Issuer) : Bool :=
  match fetched s e with
  | .ok i => vectorAlu i
  | .error _ => false

/-- The fragment of another pack of width 8 that issues in the same cycle: of those ready with a vector ALU instruction, in a run that
has not reached its limit, the one that has waited longest (log 67). -/
def coIssuer (s : State) (l : List Issuer) : Option FragRef :=
  match l.filter fun x => (x.f.slots < 48 || x.f.burst.isSome) && vectorNext s x with
  | [] => none
  | x :: xs => some (longest x xs).ref

/-- The fragments that issue in the same cycle as a vector ALU instruction of a pack of width 8: one of every other such pack of its
scheduler that is bound to a different quarter. -/
def coIssuers (s : State) (e : Issuer) (i : Instr) : List FragRef :=
  match quarterOf e.p with
  | none => []
  | some q =>
    if !vectorAlu i then []
    else
      let mates := (readyFrags s).filter fun x => schedOf x == schedOf e && (match quarterOf x.p with
        | some r => r != q
        | none => false)
      ((mates.map fun x => (x.ref.blk, x.ref.pidx, x.ref.pos)).eraseDups).filterMap fun k =>
        coIssuer s (mates.filter fun x => (x.ref.blk, x.ref.pidx, x.ref.pos) == k)

end Sys2Proof.Machine
end

