-- ==== Sys2Proof/Machine/Float.lean ====
section
/-! DEFINITION. Floating point, conversion, TF8 and the generator (spec/09 R298 to R317). -/

namespace Sys2Proof.Machine

/-! ## Arithmetic (R302 to R308) -/

/-- An element operation with its rounding, and the clamp when sat is set (R205). -/
def floatAct (s : State) (e : Issuer) (g : Gen) (srcs : List Opnd) (f : Fmt → Rnd → (Nat → Nat) → Nat × Nat) : Act :=
  elemAct s e g srcs fun v => withSat (fmtOf g.ty) g.sat (f (fmtOf g.ty) g.rnd v)

def opAdd (f : Fmt) (m : Rnd) (v : Nat → Nat) : Nat × Nat := fAdd f m (v 0) (v 1)
def opSub (f : Fmt) (m : Rnd) (v : Nat → Nat) : Nat × Nat := fSub f m (v 0) (v 1)
def opMul (f : Fmt) (m : Rnd) (v : Nat → Nat) : Nat × Nat := fMul f m (v 0) (v 1)
def opFma (negab negc : Bool) (f : Fmt) (m : Rnd) (v : Nat → Nat) : Nat × Nat := fFma f m negab negc (v 0) (v 1) (v 2)
def opMin (f : Fmt) (_m : Rnd) (v : Nat → Nat) : Nat × Nat := fMinMax f false (v 0) (v 1)
def opMax (f : Fmt) (_m : Rnd) (v : Nat → Nat) : Nat × Nat := fMinMax f true (v 0) (v 1)
def opDiv (f : Fmt) (m : Rnd) (v : Nat → Nat) : Nat × Nat := fDiv f m (v 0) (v 1)

def execFadd (g : Gen) (s : State) : Host.Outcome State Fault Refusal :=
  issue s 8 .any false fun e => floatAct s e g (srcs3 g) opAdd

def execFsub (g : Gen) (s : State) : Host.Outcome State Fault Refusal :=
  issue s 8 .any false fun e => floatAct s e g (srcs3 g) opSub

def execFmul (g : Gen) (s : State) : Host.Outcome State Fault Refusal :=
  issue s 8 .any false fun e => floatAct s e g (srcs3 g) opMul

def execFfma (g : Gen) (s : State) : Host.Outcome State Fault Refusal :=
  issue s 8 .any false fun e => floatAct s e g (srcs3 g) (opFma (g.opx.getLsbD 0) (g.opx.getLsbD 1))

def execFmin (g : Gen) (s : State) : Host.Outcome State Fault Refusal :=
  issue s 8 .any false fun e => floatAct s e g (srcs3 g) opMin

def execFmax (g : Gen) (s : State) : Host.Outcome State Fault Refusal :=
  issue s 8 .any false fun e => floatAct s e g (srcs3 g) opMax

def execFdiv (g : Gen) (s : State) : Host.Outcome State Fault Refusal :=
  issue s 8 .any false fun e => floatAct s e g (srcs3 g) opDiv

def execFrcp (g : Gen) (s : State) : Host.Outcome State Fault Refusal :=
  issue s 8 .any false fun e => floatAct s e g (srcs3 g) fun f m v => fRcp f m (v 0)

def execFsqrt (g : Gen) (s : State) : Host.Outcome State Fault Refusal :=
  issue s 8 .any false fun e => floatAct s e g (srcs3 g) fun f m v => fSqrt f m (v 0)

def execFrsq (g : Gen) (s : State) : Host.Outcome State Fault Refusal :=
  issue s 8 .any false fun e => floatAct s e g (srcs3 g) fun f m v => fRsq f m (v 0)

def execFex2 (g : Gen) (s : State) : Host.Outcome State Fault Refusal :=
  issue s 8 .any false fun e => floatAct s e g (srcs3 g) fun f m v => fEx2 f m (v 0)

def execFlg2 (g : Gen) (s : State) : Host.Outcome State Fault Refusal :=
  issue s 8 .any false fun e => floatAct s e g (srcs3 g) fun f m v => fLg2 f m (v 0)

def execFrnd (g : Gen) (s : State) : Host.Outcome State Fault Refusal :=
  issue s 8 .any false fun e => floatAct s e g (srcs3 g) fun f m v => fRnd f m (g.opx == 1) (v 0)

def execFscale (g : Gen) (s : State) : Host.Outcome State Fault Refusal :=
  issue s 8 .any false fun e =>
    alu s e g.pred [opn g.a g.ty, { src := g.b, ty := .i32, wide := false }] g.dst g.nowb (nregs g.ty)
      (perLane e g.dst fun v _ => elementwise g.ty fun k =>
        withSat (fmtOf g.ty) g.sat (fScale (fmtOf g.ty) g.rnd (elem (elemBits g.ty) (v 0) k) (sval 32 (v 1)))) id

/-- The all-ones value that FSET writes to an element (R305): 32 bits for f64, the element's width otherwise. -/
def fsetOnes (t : Ty) : Nat := 2 ^ min 32 (elemBits t) - 1

/-- FSET (R299, R305): one 32-bit destination, whatever the type. -/
def execFset (g : Gen) (s : State) : Host.Outcome State Fault Refusal :=
  issue s 8 .any false fun e =>
    alu s e g.pred (srcs3 g) g.dst g.nowb 1
      (perLane e g.dst fun v _ => elementwise g.ty fun k =>
        let r := fSetCond (fmtOf g.ty) g.opx.toNat (elem (elemBits g.ty) (v 0) k) (elem (elemBits g.ty) (v 1) k)
        (if r.1 then fsetOnes g.ty else 0, r.2)) id

/-- FCLASS (R299, R306): one 32-bit destination, whatever the type. -/
def execFclass (g : Gen) (s : State) : Host.Outcome State Fault Refusal :=
  issue s 8 .any false fun e =>
    alu s e g.pred [opn g.a g.ty, opn32 g.b] g.dst g.nowb 1
      (perLane e g.dst fun v _ => elementwise g.ty fun k =>
        (2 ^ fClassBit (fmtOf g.ty) (elem (elemBits g.ty) (v 0) k) &&& (v 1 % 1024), 0)) id

/-! ## CVT (R309, R310) -/

/-- The type under which CVT reads a source of code n; the halves of a register are read as b32 (log 14). -/
def cvtTy (n : Nat) : Ty :=
  match n with
  | 0 => .i32
  | 1 => .n32
  | 2 => .i64
  | 3 => .n64
  | 4 => .f32
  | 5 => .f64
  | 10 => .f16x2
  | 11 => .bf16x2
  | _ => .b32

/-- The exact value of a source operand; k is the element of a packed source. -/
def cvtVal (n x k : Nat) : FVal :=
  match n with
  | 0 => valOfInt (sval 32 x)
  | 1 => valOfInt x
  | 2 => valOfInt (sval 64 x)
  | 3 => valOfInt x
  | 4 => fDecode fmtF32 x
  | 5 => fDecode fmtF64 x
  | 6 => fDecode fmtF16 (elem 16 x 0)
  | 7 => fDecode fmtF16 (elem 16 x 1)
  | 8 => fDecode fmtBF16 (elem 16 x 0)
  | 9 => fDecode fmtBF16 (elem 16 x 1)
  | 10 => fDecode fmtF16 (elem 16 x k)
  | _ => fDecode fmtBF16 (elem 16 x k)

/-- One element of a CVT: element k of the destination comes from source k, or from element k of a packed source. -/
def cvtElem (g : Gen) (v : Nat → Nat) (k : Nat) : Nat × Nat :=
  let n := g.opx.toNat
  let x := if 10 ≤ n then cvtVal n (v 0) k else cvtVal n (v k) 0
  if tyFloat g.ty then withSat (fmtOf g.ty) g.sat (roundVal (fmtOf g.ty) g.rnd x)
  else cvtInt (elemBits g.ty) (tySigned g.ty) g.rnd x

def execCvt (g : Gen) (s : State) : Host.Outcome State Fault Refusal :=
  issue s 8 .any false fun e =>
    let t := cvtTy g.opx.toNat
    alu s e g.pred [opn g.a t, opn g.b t] g.dst g.nowb (nregs g.ty)
      (perLane e g.dst fun v _ => elementwise g.ty (cvtElem g v)) id

/-! ## Draws (R213 to R216) -/

/-- The words of a draw for lane l with slice k's counter, the key changed by x (R213, R373). -/
def drawWordsFor (s : State) (e : Issuer) (k l x : Nat) : List Word :=
  let key := s.sys.rngseed.toNat ^^^ pkSeed (launchWord e.l) ^^^ (e.b.linear / 2 ^ 32 % 2 ^ 20 * 2 ^ 44) ^^^ x
  let ctr := (sliceOf e.p k).draw.toNat + (e.p.pos * 8 + l) % 64 * 2 ^ 22 + e.p.pidx % 16 * 2 ^ 28 +
    e.b.linear % 2 ^ 32 * 2 ^ 32
  genWords key ctr

/-- The words of a lane's draw. -/
def drawWords (s : State) (e : Issuer) (l : Nat) : List Word := drawWordsFor s e (l / 4) l 0

/-- w_k of R216. -/
def drawW (ys : List Word) (k : Nat) : Nat := (ys.getD k 0).toNat % 2 ^ 24

/-- The draw counters of the fragment's slices advance by one (R214), but for handler code of a deterministic launch (R504). -/
def advanceDraws (e : Issuer) (p : Pack) : Pack :=
  if e.l.det && inSup e.f then p
  else (fragSlices p e.f).foldl (fun p k =>
    { p with slices := p.slices.modify k fun sl => { sl with draw := sl.draw + 1 } }) p

/-! ## TF8 (R311 to R313) -/

/-- A register k places up. -/
def srcPlus (x : Src) (k : Nat) : Src :=
  match x with
  | .v n => .v (n + BitVec.ofNat 7 k)
  | .s n => .s (n + BitVec.ofNat 6 k)
  | x => x

/-- The operands of TF8PK: four registers or two packed ones, then sh. -/
def tf8pkSrcs (g : Gen) : List Opnd :=
  let sh : Opnd := { src := g.c, ty := .i32, wide := false }
  if g.opx = 0 then ((List.range 4).map fun k => opn (srcPlus g.a k) .f32) ++ [sh]
  else
    let t : Ty := if g.opx = 1 then .f16x2 else .bf16x2
    [opn g.a t, opn g.b t, sh]

def tf8pkVal (g : Gen) (v : Nat → Nat) (k : Nat) : FVal :=
  if g.opx = 0 then fDecode fmtF32 (v k)
  else fDecode (if g.opx = 1 then fmtF16 else fmtBF16) (elem 16 (v (k / 2)) (k % 2))

def execTf8pk (g : Gen) (s : State) : Host.Outcome State Fault Refusal :=
  issue s 8 .any false fun e =>
    let n := if g.opx = 0 then 4 else 2
    alu s e g.pred (tf8pkSrcs g) g.dst g.nowb 1
      (perLane e g.dst fun v l =>
        let ys := drawWords s e l
        elementwise .tf8x4 fun k => tf8Round (scaleVal (tf8pkVal g v k) (-(sval 32 (v n)))) (drawW ys k))
      (advanceDraws e)

/-- The TF8 elements that TF8UP widens, and the width of each in the result. -/
def tf8upSel (g : Gen) : List Nat × Nat :=
  let n := g.opx.toNat
  match g.ty with
  | .f32 => if n = 4 then ([0, 1, 2, 3], 32) else ([n], 32)
  | _ => ([2 * n, 2 * n + 1], 16)

def execTf8up (g : Gen) (s : State) : Host.Outcome State Fault Refusal :=
  issue s 8 .any false fun e =>
    let (ks, w) := tf8upSel g
    alu s e g.pred [opn g.a .tf8x4, { src := g.b, ty := .i32, wide := false }] g.dst g.nowb
      (if ks.length = 4 then 4 else 1)
      (perLane e g.dst fun v _ =>
        let rs := ks.map fun k => roundVal (fmtOf g.ty) g.rnd (scaleVal (tf8Value (elem 8 (v 0) k)) (sval 32 (v 1)))
        (joinElems w (rs.map (·.1)), rs.foldl (fun m r => m ||| r.2) 0)) id

def execRequant (g : Gen) (s : State) : Host.Outcome State Fault Refusal :=
  issue s 8 .any false fun e =>
    alu s e g.pred [opn g.a .tf8x4, { src := g.b, ty := .i32, wide := false }] g.dst g.nowb 1
      (perLane e g.dst fun v l =>
        let ys := drawWords s e l
        elementwise .tf8x4 fun k => tf8Requant (elem 8 (v 0) k) (sval 32 (v 1)) (drawW ys k))
      (advanceDraws e)

/-! ## RNG and FSTAT (R314, R315) -/

/-- A number below 2^n as a float times 2^−n, exactly. -/
def unitFloat (f : Fmt) (m n : Nat) : Nat := (roundFin f .rne false m (-(n : Int)) false).1

/-- What RNG writes of its words (R314), as one number. -/
def rngVal (t : Ty) (opx : Nat) (ys : List Word) : Nat :=
  let y := fun k => (ys.getD k 0).toNat
  let p := y (2 * opx) + 2 ^ 32 * y (2 * opx + 1)
  let f := fun k => if y k / 256 = 0 then 0 else unitFloat fmtF32 (y k / 256) 24
  match t with
  | .n64 => p
  | .f64 => if p / 2 ^ 11 = 0 then 0 else unitFloat fmtF64 (p / 2 ^ 11) 53
  | .f32 => if opx = 4 then joinElems 32 [f 0, f 1, f 2, f 3] else f opx
  | _ => if opx = 4 then joinElems 32 [y 0, y 1, y 2, y 3] else y opx

def execRng (g : Gen) (s : State) : Host.Outcome State Fault Refusal :=
  issue s 8 .any false fun e =>
    alu s e g.pred [] g.dst g.nowb (if g.opx = 4 then 4 else nregs g.ty)
      (perLane e g.dst fun _ l => (rngVal g.ty g.opx.toNat (drawWords s e l), 0)) (advanceDraws e)

/-- FSTAT: the OR of the copies goes to d, then the copies change (R315). -/
def fstatAct (s : State) (e : Issuer) (g : Gen) (f : BitVec 8 → BitVec 8 → BitVec 8) : Act :=
  let m := BitVec.ofNat 8 (uniVal e g.a)
  let old := (fpstatOf e.p e.f).toNat
  alu s e g.pred [opn32 g.a] g.dst g.nowb 1 (perLane e g.dst fun _ _ => (old, 0)) fun p =>
    if (activeLanes e g.pred).isEmpty then p else modFpstat p e.f fun x => f x m

def execFstatRead (g : Gen) (s : State) : Host.Outcome State Fault Refusal :=
  issue s 8 .any false fun e => fstatAct s e g fun x _ => x

def execFstatClear (g : Gen) (s : State) : Host.Outcome State Fault Refusal :=
  issue s 8 .any false fun e => fstatAct s e g fun x m => x &&& ~~~ m

def execFstatSet (g : Gen) (s : State) : Host.Outcome State Fault Refusal :=
  issue s 8 .any false fun e => fstatAct s e g fun x m => x ||| m

end Sys2Proof.Machine
end

