-- ==== Sys2Proof/Machine/Memory.lean ====
section
/-! DEFINITION. Memory instructions (spec/10 R318 to R341): loads, stores, atomics, lane copies, stash regions, the streamer and
WAITC. -/

namespace Sys2Proof.Machine

/-! ## Addresses and checks (R318 to R320) -/

def m64Bytes (m : M64) : Nat := widthBytes m.width

/-- The base operand: a pair, or one register for the stash. -/
def baseOpnd (m : M64) (stash : Bool) : Opnd := { src := m.base, ty := .b64, wide := !stash }

/-- The address of a lane (R318). -/
def m64Addr (e : Issuer) (m : M64) (stash : Bool) (l : Nat) : Nat :=
  let b := opndVal e (baseOpnd m stash) l
  if stash then unsig 32 ((b : Int) + m.off.toInt) else unsig 64 ((b : Int) + m.off.toInt)

/-- The cause of a data field that names n registers. -/
def regsCause (e : Issuer) (act : List Nat) (x : Src) (n : Nat) : Option Nat :=
  match x with
  | .v r => if vOk e r.toNat n then (if (List.range n).any fun i => badRead e act { src := .v (r + BitVec.ofNat 7 i), ty := .b32, wide := false } then some 0x0E else none) else some 0x05
  | .s r => if sOk e r.toNat n then (if (List.range n).any fun i => badRead e act { src := .s (r + BitVec.ofNat 6 i), ty := .b32, wide := false } then some 0x0E else none) else some 0x05
  | .b k => latchCause e k.toNat
  | _ => none

/-- The value of n registers from a data field on, in a lane; a constant is read under the type that the instruction gives it: b32
for a store (R322). -/
def regsVal (e : Issuer) (x : Src) (n l : Nat) (ty : Ty := .b32) : Nat :=
  match x with
  | .v r => joinElems 32 ((List.range n).map fun i => (getV (inSup e.f) e.p l (r.toNat + i)).toNat)
  | .s r => getSRange (inSup e.f) e.p r.toNat n
  | .b k =>
    (match e.f.latches[k.toNat]? with
     | some t => (spGet 0 t.vals l).toNat % 2 ^ (32 * n)
     | none => 0)
  | x => opndVal e { src := x, ty, wide := false } l

/-- A data field as a destination. -/
def dstOf (x : Src) : Dst :=
  match x with
  | .v r => .v r
  | .s r => .s r
  | _ => .null

/-- What each lane of a list raises: a cause and an address. The instruction traps with the first cause in the order of R320, the
later ones after it; every lane that raises it is named. -/
def firstFault (ls : List (Nat × Option (Nat × Nat))) : Option TrapInfo :=
  [0x04, 0x03, 0x02, 0x01, 0x0E].findSome? fun c =>
    match ls.filterMap fun x => match x.2 with
      | some (k, a) => if k = c then some (x.1, a) else none
      | none => none with
    | [] => none
    | as => some (trapLanes c as)

/-- The translation of one aligned lane access of global memory, or what it raises. -/
def laneXlate (s : State) (e : Issuer) (need : Need) (n va : Nat) : Except (Nat × Nat) Nat :=
  if va % n ≠ 0 then .error (0x04, va)
  else
    match xlate s e.l.ctx (inSup e.f) need va with
    | .error c => .error (c, va)
    | .ok pa => .ok pa

/-- The lanes whose translations succeeded, with their physical addresses. -/
def reached (xs : List (Nat × Except (Nat × Nat) Nat)) : List (Nat × Nat) :=
  xs.filterMap fun x => match x.2 with
    | .ok pa => some (x.1, pa)
    | .error _ => none

/-- What the lanes whose translations failed raise. -/
def missed (xs : List (Nat × Except (Nat × Nat) Nat)) : Option TrapInfo :=
  firstFault (xs.map fun x => (x.1, match x.2 with
    | .error f => some f
    | .ok _ => none))

/-- The lanes of an access: the active set, or its lowest lane where one access serves all (R324). -/
def accessLanes (m : M64) (act : List Nat) : List Nat :=
  match m.base with
  | .s _ => act.take 1
  | _ => act

/-- A fault of the one access of an instruction with a uniform base is raised by every active lane. -/
def spreadFault (act : List Nat) (t : TrapInfo) : TrapInfo :=
  { t with lanes := lanesMask act,
           addrs := act.foldl (fun m l => spPut 0 m l (BitVec.ofNat 64 (lowAddr t))) [] }

def faultOf (m : M64) (act : List Nat) (t : TrapInfo) : TrapInfo :=
  match m.base with
  | .s _ => spreadFault act t
  | _ => t

/-- The hold of R104 on the issuer's accesses at physical addresses, none where no unit holds the region. -/
def memHold (s : State) (e : Issuer) (pas : List Nat) : Option (Nat × Nat) := heldAmong s e.l.region pas

/-- The issuer waits for a held region (R104), and the unit may report it (R548). -/
def holdAct (s : State) (e : Issuer) (h : Nat × Nat) : Act :=
  .own (putFrag (postHeld s h.1 h.2 e.l.region) e.ref
    { e.f with st := .waiting, wait := .budget h.1 h.2, since := s.tick })

/-- The distinct sectors of accesses to memory. -/
def sectorsOf (as : List (Nat × Nat)) : List Nat :=
  (as.flatMap fun a => if isReg a.1 then [] else
    (List.range ((a.1 + a.2 - 1) / 32 - a.1 / 32 + 1)).map fun i => a.1 / 32 + i).eraseDups

/-- The distinct sectors of accesses, each charged once (R103). -/
def chargeSectors (s : State) (region : Nat) (as : List (Nat × Nat)) : State :=
  (sectorsOf as).foldl (fun s k => chargeMem s region (32 * k) 32) s

/-- The same of accesses to uncached pages, which no L2 serves (R147). -/
def chargeDirect (s : State) (region : Nat) (as : List (Nat × Nat)) : State :=
  (sectorsOf as).foldl (fun s k => chargeUncached s region (32 * k) 32) s

/-- The caching of the page of an address (R147). -/
def cacheOf (s : State) (e : Issuer) (va : Nat) : Nat :=
  match pageOf s e.l.ctx va with
  | .ok p => p.cache
  | .error _ => 0

/-- What lane accesses of n bytes at (lane, physical address) pairs cost: their sectors, by the caching of their pages, and the
translations that the core's L1 TLB does not hold (R150). -/
def chargeLanes (s : State) (e : Issuer) (m : M64) (n : Nat) (as : List (Nat × Nat)) : State :=
  let direct := fun (a : Nat × Nat) => cacheOf s e (m64Addr e m false a.1) == 2
  let s := chargeSectors s e.l.region ((as.filter fun a => !direct a).map fun a => (a.2, n))
  let s := chargeDirect s e.l.region ((as.filter direct).map fun a => (a.2, n))
  as.foldl (fun s a => noteMiss e.l.ctx s (m64Addr e m false a.1)) s

/-- Whether two accesses of a list overlap. -/
def overlapping (n : Nat) : List (Nat × Nat) → Bool
  | [] => false
  | a :: l => (l.any fun b => a.2 < b.2 + n && b.2 < a.2 + n) || overlapping n l

def insertKey (key : Nat → Nat) (a : Nat × Nat) : List (Nat × Nat) → List (Nat × Nat)
  | [] => [a]
  | b :: l => if key a.1 ≤ key b.1 then a :: b :: l else b :: insertKey key a l

/-- Lanes of one instruction are unordered (R17, R161, R328): where their accesses meet, free keys of the lanes give the order. A
deterministic launch takes them in ascending order (R115). -/
def laneOrder (s : State) (e : Issuer) (n : Nat) (as : List (Nat × Nat)) : List (Nat × Nat) × State :=
  if buffered e || !overlapping n as then (as, s)
  else (as.foldr (insertKey (Config.laneKey s.free)) [], { s with free := s.free + 1 })

/-- The parts of an access of n bytes that are performed each on its own: the 8-byte parts of a b128 access (R163). -/
def accessParts (n : Nat) : List Nat := if n = 16 then [0, 8] else [0]

/-- A line that an operation in flight of the launch writes (R544). -/
def writesLine (s : State) (lid pa : Nat) : Bool :=
  s.engine.any fun o =>
    (match getBlock s o.blk with
     | some b => b.launch == lid
     | none => false) &&
    match o.work with
    | .xfer .load _ _ _ _ _ _ => false
    | .xfer _ pages va _ len moved _ =>
      pages.any fun p => p.2 / 4096 == pa / 4096 &&
        (let lo := max (va + moved) p.1
         let hi := min (va + len) (p.1 + 4096)
         lo < hi && (p.2 + (lo - p.1)) / 128 ≤ pa / 128 && pa / 128 ≤ (p.2 + (hi - 1 - p.1)) / 128)
    | .drain _ es => es.any fun d => !d.stash && d.addr / 128 == pa / 128
    | .copy _ _ => false

def strictRace (s : State) (e : Issuer) (pas : List Nat) : Bool :=
  e.l.det && e.l.strict && !inSup e.f && pas.any (writesLine s e.l.lid)

/-! ## Stash accesses (R125, R128, R130, R138) -/

/-- What a lane's stash access raises: alignment, bounds, a read-only region, a fill (R320, R513). -/
def laneStashCheck (s : State) (e : Issuer) (write : Bool) (align n o : Nat) : Option (Nat × Nat) :=
  if o % align ≠ 0 then some (0x04, o)
  else if stashBytes e.l < o + n then some (0x03, o)
  else if write && (boundLines e.b o n).any fun k => match regionAt e.b (128 * k) with
    | some r => r.mode == .ro
    | none => false then some (0x02, o)
  else
    (boundLines e.b o n).findSome? fun k =>
      match fillNeed s e.l.ctx (inSup e.f) e.b k with
      | .error c => some (c, lineVa e.b k + (max o (128 * k) - 128 * k))
      | .ok _ => none

/-- The stalls of stash accesses: a segment that wakes (R128), a range of the scoreboard (R138). -/
def stashStall (s : State) (e : Issuer) (n : Nat) (offs : List Nat) : Option Wait :=
  match offs.findSome? fun o => [(e.b.base + o) / 65536, (e.b.base + o + n - 1) / 65536].find? fun g =>
      !(coreOf s e.b.core).awake.getLsbD g with
  | some g => some (.segment g)
  | none => offs.findSome? fun o => if scoreHit e.b o (o + n - 1) then some (Wait.range o (o + n - 1)) else none

/-- The fill of a line, if it is absent (R130). -/
def fillLine (e : Issuer) (s : State) (k : Nat) : State :=
  match getBlock s e.ref.blk with
  | none => s
  | some b =>
    match fillNeed s e.l.ctx (inSup e.f) b k with
    | .ok (some pa) => noteMiss e.l.ctx (doFill s e.ref.blk k pa) (lineVa b k)
    | _ => s

/-- The hold of R104 on the fills that accesses trigger. -/
def fillHold (s : State) (e : Issuer) (ranges : List (Nat × Nat)) : Option (Nat × Nat) :=
  memHold s e (fillPas s e.l.ctx (inSup e.f) e.b ranges)

/-- The fills of absent lines that accesses trigger. -/
def fillLines (s : State) (e : Issuer) (ranges : List (Nat × Nat)) : State :=
  ((ranges.flatMap fun r => boundLines e.b r.1 r.2).eraseDups).foldl (fillLine e) s

/-! ## LD, LDC and LDS (R322 to R324) -/

/-- The value of a load (R322). -/
def extend (m : M64) (x : Nat) : Nat :=
  let w := 8 * m64Bytes m
  if m.ext = 1 ∧ w < 32 then unsig 32 (sval w x) else x

/-- The results of a load go to its destination and its latch. -/
def loadEnd (s : State) (e : Issuer) (m : M64) (act : List Nat) (vals : List (Nat × Nat)) : Act :=
  let e' := refresh s e
  let d := dstOf m.data
  let p := writeBack (inSup e.f) d m.nowb (widthRegs m.width) vals e'.p
  .ok (putPack s e.ref.blk p) { res := latchOf d act vals }

/-- The value of every active lane, from the values of the accesses made. -/
def spreadVals (m : M64) (act : List Nat) (vals : List (Nat × Nat)) : List (Nat × Nat) :=
  match m.base with
  | .s _ => (match vals with
      | [] => []
      | v :: _ => act.map fun l => (l, v.2))
  | _ => vals

/-- A wide acquire: at device, grid or system scope. -/
def wideAcquire (m : M64) : Bool := (m.order == .acquire || m.order == .acqRel) && m.scope != .block

/-- Whether the L1 may serve a lane's access (R141, R173): it is no wide acquire, and reads a page of normal caching. A load of a
deterministic launch sees what R114 says. -/
def l1Serves (s : State) (e : Issuer) (m : M64) (l : Nat) : Bool :=
  !e.l.det && !wideAcquire m && cacheOf s e (m64Addr e m false l) == 0

/-- Whether the L1 serves it. -/
def l1Served (s : State) (e : Issuer) (m : M64) (a : Nat × Nat) : Bool :=
  l1Serves s e m a.1 && l1Hit s e.b.core a.2 (m64Bytes m)

/-- The bytes of an L1 copy. -/
def l1Bytes (s : State) (c pa : Nat) : Nat → List Byte
  | 0 => []
  | n + 1 => (l1Byte s c pa).getD 0 :: l1Bytes s c (pa + 1) n

/-- What a lane's access reads. -/
def laneRead (s : State) (e : Issuer) (m : M64) (a : Nat × Nat) : Nat :=
  ofLeBytes (if l1Served s e m a then l1Bytes s e.b.core a.2 (m64Bytes m) else laneBytes s e a.2 (m64Bytes m))

/-- What accesses that go to the home leave in the L1 (R141, R144, R147, R323): a wide acquire empties it first; a `.last` access
drops what it has read, a `.nl1` access and a page that is not of normal caching leave nothing. -/
def l1After (e : Issuer) (m : M64) (far all : List (Nat × Nat)) (s : State) : State :=
  let n := m64Bytes m
  let s := if wideAcquire m then acquired s e else s
  if m.sel = 1 then all.foldl (fun s a => if isReg a.2 then s else lastRead e.l.region e.b.core n s a.2) s
  else far.foldl (fun s a =>
    if !isReg a.2 && m.sel != 2 && !e.l.det && cacheOf s e (m64Addr e m false a.1) == 0 then l1Fill s e.b.core a.2 n else s) s

def loadAct (s : State) (e : Issuer) (m : M64) : Act :=
  let act := activeLanes e m.pred
  let d := dstOf m.data
  match operandCause e act [baseOpnd m false] d (widthRegs m.width) with
  | some c => .trap (trapAll e act c)
  | none =>
    let n := m64Bytes m
    let lanes := accessLanes m act
    let xs := lanes.map fun l => (l, laneXlate s e .read n (m64Addr e m false l))
    match missed xs with
    | some t => .trap (faultOf m act t)
    | none =>
      let as := reached xs
      let far := as.filter fun a =>
        !l1Served s e m a && !(buffered e && (List.range n).all fun i => (bufMem e.p.buf (a.2 + i)).isSome)
      match memHold s e (far.map (·.2)) with
      | some h => holdAct s e h
      | none =>
        if strictRace s e (far.map (·.2)) then .trap (trapAll e act 0x0A)
        else
          match firstFault (far.map fun a =>
              (a.1, if !isReg a.2 && gPoisoned s a.2 n then some (0x0E, m64Addr e m false a.1) else none)) with
          | some t => .trap (faultOf m act t)
          | none =>
            let vals := as.map fun a => (a.1, extend m (laneRead s e m a))
            loadEnd (l1After e m far as (chargeLanes s e m n far)) e m act (spreadVals m act vals)

def execLd (m : M64) (s : State) : Host.Outcome State Fault Refusal := issue s 8 .last false fun e => loadAct s e m

def execLdc (m : M64) (s : State) : Host.Outcome State Fault Refusal := issue s 8 .last false fun e => loadAct s e m

/-- Whether a load of stash bytes would bring poison: a byte that the pack's own buffer gives brings none (R114, R508). -/
def lanePoisoned (e : Issuer) (b : Block) (o n : Nat) : Bool :=
  (List.range n).any fun i => !(buffered e && (bufStash e.p.buf (o + i)).isSome) && stashPoisoned b (o + i) 1

/-- A stash load of n bytes in each lane at its offset, by any addressing. -/
def stashLoad (s : State) (e : Issuer) (act lanes : List Nat) (n : Nat) (addr : Nat → Nat) (spread : TrapInfo → TrapInfo)
    (k : State → List (Nat × Nat) → Act) : Act :=
  match firstFault (lanes.map fun l => (l, laneStashCheck s e false n n (addr l))) with
  | some t => .trap (spread t)
  | none =>
    match stashStall s e n (lanes.map addr), fillHold s e (lanes.map fun l => (addr l, n)) with
    | some w, _ => .wait .waiting w
    | none, some h => holdAct s e h
    | none, none =>
      let s := fillLines s e (lanes.map fun l => (addr l, n))
      match getBlock s e.ref.blk with
      | none => .trap (trapAll e act 0x05)
      | some b =>
        match firstFault (lanes.map fun l => (l, if lanePoisoned e b (addr l) n then some (0x0E, addr l) else none)) with
        | some t => .trap (spread t)
        | none => k s (lanes.map fun l => (l, ofLeBytes (laneStash e b (addr l) n)))

def execLds (m : M64) (s : State) : Host.Outcome State Fault Refusal :=
  issue s 8 .last false fun e =>
    let act := activeLanes e m.pred
    match operandCause e act [baseOpnd m true] (dstOf m.data) (widthRegs m.width) with
    | some c => .trap (trapAll e act c)
    | none =>
      stashLoad s e act (accessLanes m act) (m64Bytes m) (m64Addr e m true) (faultOf m act) fun s vals =>
        loadEnd s e m act (spreadVals m act (vals.map fun v => (v.1, extend m v.2)))

/-- LDS of A32: the offset is A + B (R232). -/
def ldsSumAct (s : State) (e : Issuer) (x : A32) : Act :=
  let act := maskLanes e.p e.f
  let srcs := [opn32 x.a, opn32 x.b]
  match operandCause e act srcs (.v x.vd) 1 with
  | some c => .trap (trapAll e act c)
  | none =>
    stashLoad s e act act 4 (fun l => (opndVal e (opn32 x.a) l + opndVal e (opn32 x.b) l) % 2 ^ 32) id fun s vals =>
      let p := writeBack (inSup e.f) (.v x.vd) x.nowb 1 vals (refresh s e).p
      .ok (putPack s e.ref.blk p) { res := latchOf (.v x.vd) act vals }

/-! ## ST and STS -/

/-- The pack's buffer takes operations; a buffer that would pass 32 KiB ends the quantum first (R112). -/
def bufferAct (s : State) (e : Issuer) (ops : List BufOp) : Act :=
  if 32768 < bufBytes e.p.buf + bufBytes ops ∧ !e.p.buf.isEmpty then forceRound s e
  else .ok (putPack s e.ref.blk { (refresh s e).p with buf := (refresh s e).p.buf ++ ops }) {}

/-- The part at o of a lane's store is performed; one that cannot reach its memory is dropped and reported (R516, R556). -/
def storeLane (e : Issuer) (n : Nat) (val : Nat → Nat) (o : Nat) (s : State) (a : Nat × Nat) : State :=
  let bs := ((leBytes n (val a.1)).drop o).take 8
  let pa := a.2 + o
  if isReg pa then regWrite s pa bs
  else if cutOff s pa then postMemoryError s e.l.region e.b.linear pa
  else coreWrite s e.b.core pa bs

/-- The stores of lanes at the homes of their addresses. -/
def storeLanes (s : State) (e : Issuer) (n : Nat) (val : Nat → Nat) (as : List (Nat × Nat)) : State :=
  (accessParts n).foldl (fun s o => (laneOrder s e n as).1.foldl (storeLane e n val o) (laneOrder s e n as).2) s

def execSt (m : M64) (s : State) : Host.Outcome State Fault Refusal :=
  issue s 8 .last false fun e =>
    let act := activeLanes e m.pred
    match firstCause [operandCause e act [baseOpnd m false] .null 1, regsCause e act m.data (widthRegs m.width)] with
    | some c => .trap (trapAll e act c)
    | none =>
      let n := m64Bytes m
      let xs := act.map fun l => (l, laneXlate s e .write n (m64Addr e m false l))
      match missed xs with
      | some t => .trap t
      | none =>
        let as := reached xs
        let val := regsVal e m.data (widthRegs m.width)
        if buffered e then bufferAct s e (as.map fun a => .mem a.2 (leBytes n (val a.1)))
        else
          match memHold s e (as.map (·.2)) with
          | some h => holdAct s e h
          | none => .ok (storeLanes (chargeLanes s e m n as) e n val as) {}

/-- The part at o of a lane's store to the stash. -/
def stashLane (n : Nat) (val : Nat → Nat) (o : Nat) (b : Block) (a : Nat × Nat) : Block :=
  stashStore b (a.2 + o) (((leBytes n (val a.1)).drop o).take 8)

/-- The stores of lanes to the issuer's stash. -/
def stashLanes (s : State) (e : Issuer) (n : Nat) (val : Nat → Nat) (as : List (Nat × Nat)) : State :=
  (accessParts n).foldl (fun s o =>
    match getBlock s e.ref.blk with
    | none => s
    | some b => setBlock (laneOrder s e n as).2 ((laneOrder s e n as).1.foldl (stashLane n val o) b)) s

def execSts (m : M64) (s : State) : Host.Outcome State Fault Refusal :=
  issue s 8 .last false fun e =>
    let act := activeLanes e m.pred
    match firstCause [operandCause e act [baseOpnd m true] .null 1, regsCause e act m.data (widthRegs m.width)] with
    | some c => .trap (trapAll e act c)
    | none =>
      let n := m64Bytes m
      let addr := m64Addr e m true
      match firstFault (act.map fun l => (l, laneStashCheck s e true n n (addr l))) with
      | some t => .trap t
      | none =>
        match stashStall s e n (act.map addr), fillHold s e (act.map fun l => (addr l, n)) with
        | some w, _ => .wait .waiting w
        | none, some h => holdAct s e h
        | none, none =>
          let s := fillLines s e (act.map fun l => (addr l, n))
          let val := regsVal e m.data (widthRegs m.width)
          if buffered e then bufferAct s e (act.map fun l => .stash (addr l) (leBytes n (val l)))
          else .ok (stashLanes s e n val (act.map fun l => (l, addr l))) {}

/-! ## ATOM and RED (R325 to R328) -/

/-- The five-bit operation of an atomic (R247). -/
def atomOp (m : M64) : Nat := m.sel.toNat * 4 + m.ext.toNat

/-- One atomic of a core at its home, whose result the core's L1 does not keep: the state and the old value. -/
def atomAt (s : State) (core pa w op a c : Nat) : State × Nat :=
  if isReg pa then
    let old := ofLeBytes (regRead s pa w)
    (regWrite s pa (leBytes w (atomNew op w old a c)), old)
  else memAtomic (l1DropRange s core pa w) pa w op a c

/-- Operand and compare value of a lane (R326). -/
def atomArgs (e : Issuer) (m : M64) (l : Nat) : Nat × Nat :=
  let n := widthRegs m.width
  let x := regsVal e m.data (if atomOp m = 9 then 2 * n else n) l
  if atomOp m = 9 then (x / 2 ^ (32 * n), x % 2 ^ (32 * n)) else (x, 0)

/-- The lanes of an atomic in turn. -/
def atomLanes (e : Issuer) (m : M64) (s : State) (order : List (Nat × Nat)) : State × List (Nat × Nat) :=
  let w := m64Bytes m
  order.foldl (fun (x : State × List (Nat × Nat)) a =>
    let (v, c) := atomArgs e m a.1
    let before := gRead x.1 a.2 w
    let (s, old) := atomAt x.1 e.b.core a.2 w (atomOp m) v c
    let s := if buffered e then noteEffect s e.l.lid (syncSeq e) a.2 before (gRead s a.2 w) else s
    (s, x.2 ++ [(a.1, old)])) (s, [])

def execAtom (m : M64) (s : State) : Host.Outcome State Fault Refusal :=
  issue s 8 .last false fun e =>
    let act := activeLanes e m.pred
    let n := widthRegs m.width
    match firstCause [operandCause e act [baseOpnd m false] .null 1,
                      regsCause e act m.data (if atomOp m = 9 then 2 * n else n)] with
    | some c => .trap (trapAll e act c)
    | none =>
      let w := m64Bytes m
      let xs := act.map fun l => (l, laneXlate s e .write w (m64Addr e m false l))
      match missed xs with
      | some t => .trap t
      | none =>
        let as := reached xs
        match memHold s e (as.map (·.2)) with
        | some h => holdAct s e h
        | none =>
          if needsTurn s e && !act.isEmpty then .wait .waiting .turn
          else
            match firstFault (as.map fun a =>
                (a.1, if !isReg a.2 && gPoisoned s a.2 w then some (0x0E, m64Addr e m false a.1) else none)) with
            | some t => .trap t
            | none =>
              let s := chargeLanes s e m w as
              let s := if wideAcquire m then acquired s e else s
              let (order, s) := laneOrder s e w as
              let (s, vals) := atomLanes e m s order
              let p := writeBack (inSup e.f) (dstOf m.data) false n vals (refresh s e).p
              let s := putPack s e.ref.blk p
              .ok (if act.isEmpty then s else syncDone s e) { res := latchOf (dstOf m.data) act vals }

/-- A RED of a lane: a poisoned location is left as it is and reported (R508). -/
def redLane (e : Issuer) (w op : Nat) (val : Nat → Nat) (s : State) (a : Nat × Nat) : State :=
  if !isReg a.2 && gPoisoned s a.2 w then postMemoryError s e.l.region e.b.linear a.2
  else (atomAt s e.b.core a.2 w op (val a.1) 0).1

def execRed (m : M64) (s : State) : Host.Outcome State Fault Refusal :=
  issue s 8 .last false fun e =>
    let act := activeLanes e m.pred
    match firstCause [operandCause e act [baseOpnd m false] .null 1, regsCause e act m.data (widthRegs m.width)] with
    | some c => .trap (trapAll e act c)
    | none =>
      let w := m64Bytes m
      let xs := act.map fun l => (l, laneXlate s e .write w (m64Addr e m false l))
      match missed xs with
      | some t => .trap t
      | none =>
        let as := reached xs
        let val := fun l => regsVal e m.data (widthRegs m.width) l (if w = 8 then .b64 else .b32)
        if buffered e then
          bufferAct s e (as.map fun a => .red a.2 w (BitVec.ofNat 5 (atomOp m)) (val a.1))
        else
          match memHold s e (as.map (·.2)) with
          | some h => holdAct s e h
          | none =>
            let (order, s) := laneOrder (chargeLanes s e m w as) e w as
            .ok (order.foldl (redLane e w (atomOp m) val) s) {}

/-! ## CPL, PREF, DISCARD and FENCE (R329 to R333) -/

/-- The lane copies of an instruction: destination and valid bytes of each lane. -/
def cplLanes (e : Issuer) (m : M64) (act : List Nat) : List (Nat × Nat × Nat) :=
  let n := m64Bytes m
  act.map fun l =>
    let x := regsVal e m.data (if m.ext = 1 then 2 else 1) l
    (l, x % 2 ^ 32, if m.ext = 1 then min (x / 2 ^ 32) n else n)

/-- What a lane of CPL raises (R320, R329): of its global source and its stash destination, the cause that comes first. -/
def cplCheck (s : State) (e : Issuer) (m : M64) (x : Nat × Nat × Nat) : Option (Nat × Nat) :=
  let n := m64Bytes m
  let va := m64Addr e m false x.1
  let src := if x.2.2 = 0 then [] else match laneXlate s e .read n va with
    | .error f => [f]
    | .ok _ => []
  let fs := src ++ (laneStashCheck s e true n n x.2.1).toList
  [0x04, 0x03, 0x02, 0x01].findSome? fun c => fs.find? fun f => f.1 == c

def execCpl (m : M64) (s : State) : Host.Outcome State Fault Refusal :=
  issue s 8 .last false fun e =>
    let act := activeLanes e m.pred
    match firstCause [operandCause e act [baseOpnd m false] .null 1, regsCause e act m.data (if m.ext = 1 then 2 else 1)] with
    | some c => .trap (trapAll e act c)
    | none =>
      let n := m64Bytes m
      let tag := m.sel.toNat
      let xs := cplLanes e m act
      match firstFault (xs.map fun x => (x.1, cplCheck s e m x)) with
      | some t => .trap t
      | none =>
        if act.isEmpty then .ok s {}
        else if needsRound e then forceRound s e
        else if !hasRoom e.p 4 (some tag) then .wait .waiting (.room 4 (some tag))
        else if !hasTag e.b (packId e.p) tag && Config.scoreEntries ≤ scoreUsed s e.b.core then .wait .waiting .entry
        else
          let lanes : List CopyLane := xs.map fun x =>
            { dst := x.2.1, valid := x.2.2,
              pa := match xlate s e.l.ctx (inSup e.f) .read (m64Addr e m false x.1) with
                | .ok pa => if x.2.2 = 0 then 0 else pa
                | .error _ => 0 }
          match memHold s e (((lanes.filter fun l => l.valid != 0).map (·.pa)) ++
              fillPas s e.l.ctx (inSup e.f) e.b (xs.map fun x => (x.2.1, n))) with
          | some h => holdAct s e h
          | none =>
            if strictRace s e ((lanes.filter fun l => l.valid != 0).map (·.pa)) then .trap (trapAll e act 0x0A)
            else
              let s := xs.foldl (fun s x => if x.2.2 = 0 then s else noteMiss e.l.ctx s (m64Addr e m false x.1)) s
              let s := fillLines s e (xs.map fun x => (x.2.1, n))
              let e' := refresh s e
              let id := s.nextId
              let lo := lanes.foldl (fun a l => min a l.dst) (stashBytes e.l)
              let hi := lanes.foldl (fun a l => max a (l.dst + n - 1)) 0
              let b := scoreTag (setPack e'.b (engAdd e'.p id .copy (some tag))) (packId e.p) tag lo hi
              let o : EngineOp := { id, blk := e.ref.blk, pidx := e.ref.pidx, pos := e.ref.pos, work := .copy n lanes }
              .ok { setBlock s b with nextId := id + 1, engine := s.engine ++ [o] } {}

/-- The line of a lane's address comes into the L2, and into the L1 where its page is of normal caching; an address that would fault
is dropped, and so is one whose memory holds the region (R104, R331). -/
def prefLane (e : Issuer) (m : M64) (s : State) (l : Nat) : State :=
  let va := m64Addr e m false l
  match xlate s e.l.ctx (inSup e.f) .read va with
  | .error _ => s
  | .ok pa =>
    let line := pa / 128 * 128
    if isReg pa || cacheOf s e va == 2 || (memHold s e [pa]).isSome then s
    else
      let s := chargeMem (noteMiss e.l.ctx s va) e.l.region line 128
      if cacheOf s e va == 0 && !e.l.det then l1Fill s e.b.core line 128 else s

/-- PREF changes no value, counter or order (R331). -/
def execPref (m : M64) (s : State) : Host.Outcome State Fault Refusal :=
  issue s 8 .last false fun e =>
    let act := activeLanes e m.pred
    match operandCause e act [baseOpnd m false] .null 1 with
    | some c => .trap (trapAll e act c)
    | none => .ok (act.foldl (prefLane e m) s) {}

/-- The bytes of a sector that were last written back to memory (R145). -/
def behindBytes (s : State) (sec : Nat) : List Byte :=
  (List.range 32).map fun i => match spFind? s.l2 (sec / 4) with
    | some l => if l.dirty.getLsbD (sec % 4) then spGet Config.memDefault l.back (32 * (sec % 4) + i) else rawByte s (32 * sec + i)
    | none => rawByte s (32 * sec + i)

def behindBad (s : State) (sec : Nat) : Bool :=
  match spFind? s.l2 (sec / 4) with
  | some l => if l.dirty.getLsbD (sec % 4) then l.bad.getLsbD (sec % 4) else s.poison.contains sec
  | none => s.poison.contains sec

/-- A sector of a line that the L2 holds is no longer dirty there. -/
def undirty (l2 : Sparse L2Line) (sec : Nat) : Sparse L2Line :=
  match spFind? l2 (sec / 4) with
  | none => l2
  | some l =>
    let bit' := BitVec.ofNat 4 (2 ^ (sec % 4))
    spSet l2 (sec / 4) { l with dirty := l.dirty &&& ~~~ bit', bad := l.bad &&& ~~~ bit',
                                back := l.back.filter fun x => x.1 / 32 != sec % 4 }

/-- A sector of an owning stash's line takes bytes and is no longer dirty. -/
def stashRevert (b : Block) (l : StashLine) (sec : Nat) (bs : List Byte) (bad : Bool) : Block :=
  let o := 128 * l.line + 32 * (sec % 4)
  let b := stashPut b o bs
  setLine { b with stashPoison := if bad then (List.range 8).foldl (fun p k => insNat p (o / 4 + k)) b.stashPoison else b.stashPoison }
    { l with dirty := l.dirty &&& ~~~ byteMask (32 * (sec % 4)) 32 }

/-- A sector holds the value last written back to memory (R145): what the L2 and an owning stash held above it is given up. -/
def sectorBehind (s : State) (sec : Nat) : State :=
  let bs := behindBytes s sec
  let bad := behindBad s sec
  let s := match ownerOf s (32 * sec) with
    | some (b, l) => setBlock s (stashRevert b l sec bs bad)
    | none => s
  { s with mem := writeBytes Config.memDefault s.mem (32 * sec) bs,
           poison := if bad then insNat s.poison sec else delNat s.poison sec, l2 := undirty s.l2 sec }

/-- A sector is given up (R145): it keeps its value, or takes the one last written back, which is open. -/
def discardSector (core : Nat) (s : State) (pa : Nat) : State :=
  if isReg pa || cutOff s pa then s
  else
    let (c, s) := choose (l1DropRange s core pa 32) 2
    if c = 0 then s else sectorBehind s (pa / 32)

def execDiscard (m : M64) (s : State) : Host.Outcome State Fault Refusal :=
  issue s 8 .last false fun e =>
    let act := activeLanes e m.pred
    match firstCause [operandCause e act [baseOpnd m false] .null 1, regsCause e act m.data 1] with
    | some c => .trap (trapAll e act c)
    | none =>
      let a := m64Addr e m false 0
      let n := regsVal e m.data 1 0
      let lo := (a + 31) / 32 * 32
      let hi := (a + n) / 32 * 32
      if hi ≤ lo then .ok s {}
      else
        match xlateRange s e.l.ctx (inSup e.f) .write lo (hi - lo) with
        | .error (c, va) => .trap (spreadFault act (trapLanes c [(0, va)]))
        | .ok pages =>
          if e.l.det then .ok s {}
          else .ok ((List.range ((hi - lo) / 32)).foldl (fun s i => discardSector e.b.core s (pagesPa pages (lo + 32 * i))) s) {}

/-- A fence that later loads come after, at device scope or wider (R169). -/
def fenceAcquires (g : Gen) : Bool := g.opx != 2 && g.scope != .block

/-- FENCE orders accesses that this model performs in order; an acquiring fence at device scope or wider keeps later loads from older
L1 copies (R141, R169). -/
def execFence (g : Gen) (s : State) : Host.Outcome State Fault Refusal :=
  issue s 8 .last false fun e => .ok (if fenceAcquires g then acquired s e else s) {}

/-! ## SMAP, SUNMAP and SFLUSH (R334 to R337) -/

/-- The lines of a region. -/
def inRegion (r : StashRegion) (line : Nat) : Bool := r.off / 128 ≤ line && line < r.off / 128 + r.lines

/-- The hold of R104 on the write-backs of a region. -/
def cleanHold (s : State) (e : Issuer) (i : Nat) : Option (Nat × Nat) :=
  match e.b.regions.find? fun r => r.idx == i with
  | none => none
  | some r => memHold s e ((e.b.lines.filter fun l => inRegion r l.line && l.dirty != 0).map fun l => l.pa)

/-- A region is written back, released and forgotten; its range reads zero (R336). -/
def unmapRegion (s : State) (bid i : Nat) : State :=
  match getBlock s bid with
  | none => s
  | some b =>
    match b.regions.find? fun r => r.idx == i with
    | none => s
    | some r =>
      let s := cleanLines s b fun l => inRegion r l.line
      match getBlock s bid with
      | none => s
      | some b =>
        let b := { b with lines := b.lines.filter fun l => !inRegion r l.line,
                          refill := b.refill.filter fun k => !inRegion r k,
                          regions := b.regions.filter fun x => x.idx != i }
        setBlock s { b with stash := b.stash.filter fun x => !(r.off ≤ x.1 && x.1 < r.off + 128 * r.lines),
                            stashPoison := b.stashPoison.filter fun w => !(r.off ≤ 4 * w && 4 * w < r.off + 128 * r.lines) }

def smapMode (h : BitVec 4) : RegionMode := if h = 1 then .ro else if h = 2 then .wo else .rw

/-- What SMAP raises, with the address it reports (R335). -/
def smapCause (e : Issuer) (i off va n : Nat) : Option (Nat × Nat) :=
  if off % 128 ≠ 0 ∨ va % 128 ≠ 0 then some (0x04, off)
  else if n = 0 ∨ 8192 < n ∨ stashBytes e.l < off + 128 * n then some (0x03, off)
  else if e.b.regions.any (fun r => r.idx != i &&
      ((off < r.off + 128 * r.lines && r.off < off + 128 * n) || (va < r.va + 128 * r.lines && r.va < va + 128 * n))) then
    some (0x03, off)
  else if 2 ^ 57 ≤ va then some (0x02, va)
  else none

/-- A trap of an instruction that acts for its fragment: every active lane reports the address. -/
def trapAt (e : Issuer) (cause addr : Nat) : TrapInfo := trapLanes cause ((maskLanes e.p e.f).map fun l => (l, addr))

def execSmap (g : Gen) (s : State) : Host.Outcome State Fault Refusal :=
  issue s 8 .last false fun e =>
    match uniCause e [opn g.a .b64, opn32 g.b, opn32 g.c] with
    | some c => .trap (trapAll e [] c)
    | none =>
      let i := g.opx.toNat
      let va := opndVal e (opn g.a .b64) 0
      let off := uniVal e g.b
      let n := uniVal e g.c
      match smapCause e i off va n with
      | some (c, a) => .trap (trapAt e c a)
      | none =>
        if needsRound e then forceRound s e
        else match cleanHold s e i with
        | some h => holdAct s e h
        | none =>
          let s := unmapRegion s e.ref.blk i
          match getBlock s e.ref.blk with
          | none => .ok s {}
          | some b =>
            .ok (setBlock s { b with
              regions := b.regions ++ [{ idx := i, off, va, lines := n, mode := smapMode g.hint }] }) {}

def execSunmap (g : Gen) (s : State) : Host.Outcome State Fault Refusal :=
  issue s 8 .last false fun e =>
    if needsRound e then forceRound s e
    else match cleanHold s e g.opx.toNat with
    | some h => holdAct s e h
    | none => .ok (unmapRegion s e.ref.blk g.opx.toNat) {}

def execSflush (g : Gen) (s : State) : Host.Outcome State Fault Refusal :=
  issue s 8 .last false fun e =>
    if needsRound e then forceRound s e
    else
      match e.b.regions.find? (fun r => r.idx == g.opx.toNat), cleanHold s e g.opx.toNat with
      | none, _ => .ok s {}
      | some _, some h => holdAct s e h
      | some r, none => .ok (cleanLines s e.b fun l => inRegion r l.line) {}

/-! ## BXFER (R338 to R340) -/

/-- The operands of BXFER: global address, stash offset, length, and the barrier if one is named. -/
def bxferArgs (e : Issuer) (g : Gen) : Nat × Nat × Nat × Option Nat :=
  let d := regsVal e g.a 4 0
  (field d 63 0, field d 95 64, field d 127 96,
   match g.b with
   | .unused => none
   | b => some (uniVal e b))

/-- What BXFER raises on the stash side: a read-only region that it writes, and the fills of absent lines. -/
def bxferFills (s : State) (e : Issuer) (off len : Nat) (stashWrite : Bool) : List (Nat × Nat) :=
  (boundLines e.b off len).filterMap fun k =>
    if stashWrite && (match regionAt e.b (128 * k) with | some r => r.mode == .ro | none => false) then some (0x02, 128 * k)
    else match fillNeed s e.l.ctx (inSup e.f) e.b k with
      | .error c => some (c, lineVa e.b k)
      | .ok _ => none

/-- What BXFER raises, in the order of R339, with the address it reports (R505). -/
def bxferCause (s : State) (e : Issuer) (need : Need) (va off len : Nat) (bar : Option Nat) (stashWrite : Bool) :
    Option (Nat × Nat) :=
  if !e.p.streamer then some (0x06, 0)
  else if len % 16 ≠ 0 ∨ va % 16 ≠ 0 ∨ off % 16 ≠ 0 then some (0x04, va)
  else if len < 16 ∨ 1048576 < len ∨ stashBytes e.l < off + len then some (0x09, max off (stashBytes e.l))
  else if 2 ^ 57 < va + len then some (0x02, va)
  else
    let pages := match xlateRange s e.l.ctx (inSup e.f) need va len with
      | .error f => [f]
      | .ok _ => []
    match reported (pages ++ bxferFills s e off len stashWrite) with
    | some f => some f
    | none =>
      match bar with
      | some i => if (getBar e.b i).isNone then some (0x0B, 0) else none
      | none => none

def bxferAct (s : State) (e : Issuer) (g : Gen) (kind : XferKind) : Act :=
  match firstCause [regsCause e [] g.a 4, uniCause e [opn32 g.b, opn32 g.c]] with
  | some c => .trap (trapAll e [] c)
  | none =>
    let (va, off, len, bar) := bxferArgs e g
    let load := match kind with | .load => true | _ => false
    match bxferCause s e (if load then .read else .write) va off len bar load with
    | some (c, a) => .trap (trapAt e c a)
    | none =>
      let fadd := match kind with | .red op _ => op == 10 || op == 11 | _ => false
      if fadd && e.l.det && e.l.strict then .trap (trapAll e [] 0x0A)
      else if needsRound e then forceRound s e
      else if !hasRoom e.p 0 none then .wait .waiting (.room 0 none)
      else if Config.scoreEntries ≤ scoreUsed s e.b.core then .wait .waiting .entry
      else
        match xlateRange s e.l.ctx (inSup e.f) (if load then .read else .write) va len with
        | .error (c, a) => .trap (trapAt e c a)
        | .ok pages =>
          match memHold s e (pages.map (·.2) ++ fillPas s e.l.ctx (inSup e.f) e.b [(off, len)]) with
          | some h => holdAct s e h
          | none =>
            if load && strictRace s e (pages.map (·.2)) then .trap (trapAll e [] 0x0A)
            else
              let s := fillLines (pages.foldl (fun s p => noteMiss e.l.ctx s p.1) s) e [(off, len)]
              let e' := refresh s e
              let id := s.nextId
              let b := scoreAdd (setPack e'.b (engAdd e'.p id .streamer none)) { lo := off, hi := off + len - 1, op := some id }
              let o : EngineOp := { id, blk := e.ref.blk, pidx := e.ref.pidx, pos := e.ref.pos,
                                    work := .xfer kind pages va off len 0 (bar.map fun i => (i, g.opx.getLsbD 2)) }
              .ok { setBlock s b with nextId := id + 1, engine := s.engine ++ [o] } {}

def execBxferLoad (g : Gen) (s : State) : Host.Outcome State Fault Refusal :=
  issue s 8 .last false fun e => bxferAct s e g .load

def execBxferStore (g : Gen) (s : State) : Host.Outcome State Fault Refusal :=
  issue s 8 .last false fun e => bxferAct s e g .store

/-- A reduction code that its type does not take is a reserved value (R338). -/
def redCodeOk (t : Ty) (n : Nat) : Bool := n ≤ 7 || (n == 10 && t == .b32) || (n == 11 && t == .b64)

def execBxferRed (g : Gen) (s : State) : Host.Outcome State Fault Refusal :=
  issue s 8 .last false fun e =>
    match uniCause e [opn32 g.c] with
    | some c => .trap (trapAll e [] c)
    | none =>
      let n := uniVal e g.c
      if !redCodeOk g.ty n then .trap (trapAll e [] 0x05)
      else bxferAct s e g (.red (BitVec.ofNat 5 n) (tyBits g.ty / 8))

/-! ## WAITC (R341) -/

/-- Arming a monitor on a line that a stash owns recalls it (R192). -/
def armOn (pa : Nat) (s : State) : State := if isReg pa then s else recallLine s pa

/-- The condition of a wait holds, and the wait is over; or the fragment waits for it, in the state that its test has left. -/
def meetOrWait (s : State) (e : Issuer) (holds : Bool) (w : Wait) (done : State) : Act :=
  if holds then .ok (syncDone done e) {}
  else .own (putFrag s e.ref { (refresh s e).f with st := .waiting, wait := w, since := s.tick, gang := 0 })

/-- A wait for a word of global memory (R190 to R192). -/
def waitMonitored (s : State) (e : Issuer) (holds : Bool) (w : Wait) (pa : Nat) : Act :=
  if needsTurn s e then .wait .waiting .turn
  else
    let s := armOn pa s
    meetOrWait s e holds w (acquired s e)

def execWaitc (m : M64) (s : State) : Host.Outcome State Fault Refusal :=
  issue s 8 .never false fun e =>
    let stash := m.ext == 1
    let act := activeLanes e m.pred
    let w := m64Bytes m
    match firstCause [operandCause e act [baseOpnd m stash] .null 1, regsCause e act m.data (widthRegs m.width)] with
    | some c => .trap (trapAll e act c)
    | none =>
      let a := m64Addr e m stash 0
      let x := match m.data with
        | .s _ => regsVal e m.data (widthRegs m.width) 0
        | d => opndVal e (opn d (if w = 8 then .b64 else .b32)) 0
      let sel := m.sel.toNat
      if stash then
        match laneStashCheck s e false w w a with
        | some (c, k) => .trap (trapAt e c k)
        | none =>
          (match stashStall s e w [a], fillHold s e [(a, w)] with
           | some t, _ => .wait .waiting t
           | none, some h => holdAct s e h
           | none, none =>
             let s := fillLines s e [(a, w)]
             let b := (refresh s e).b
             if stashPoisoned b a w then .trap (trapAt e 0x0E a)
             else if needsTurn s e then .wait .waiting .turn
             else meetOrWait s e (waitcTest sel w (stashReadNat b a w) x) (.stashWord a w sel x) s)
      else
        match laneXlate s e .read w a with
        | .error (c, k) => .trap (trapAt e c k)
        | .ok pa =>
          if !isReg pa && gPoisoned s pa w then .trap (trapAt e 0x0E a)
          else
            waitMonitored s e (waitcTest sel w (seeNat s pa w) x) (.word pa w sel x (monitorFree s pa)) pa

end Sys2Proof.Machine
end

