-- ==== Sys2Proof/Machine/GridOps.lean ====
section
/-! DEFINITION. The issuer's side of grid messages (R402, R409, R413, R417 to R420, R519, R520): what an answer does, how an
operation retires, and which looped-back messages are delivered (R482). -/

namespace Sys2Proof.Machine

/-! ## Results that arrive -/

/-- A lane's registers take a value that arrives after issue; a burst that may be discarded keeps it (R102). -/
def lateWrite (sup : Bool) (l r x n : Nat) (p : Pack) : Pack :=
  let q := putVRange sup l r x n p
  { q with frags := q.frags.map fun f =>
      match f.burst with
      | none => f
      | some u =>
        if f.slices.getLsbD (l / 4) then
          let ks := fragSlices p f
          let old := putVRange sup l r x n { p with slices := putSlices p.slices ks u.snap.slices }
          { f with burst := some { u with snap := { u.snap with slices := ks.filterMap fun k => old.slices[k]? } } }
        else f }

def writeReply (s : State) (o : GridOp) (l x : Nat) : State :=
  match getBlock s o.blk with
  | none => s
  | some b =>
    match getPack b o.pidx o.pos with
    | none => s
    | some p => setBlock s (setPack b (lateWrite o.sup l o.dst x (max 1 (o.width / 4)) p))

/-! ## Retirement of a grid operation -/

def setGridOp (s : State) (o : GridOp) : State :=
  { s with gridOps := s.gridOps.map fun x => if x.tag = o.tag then o else x }

/-- Whether every answer of an operation is in: its lanes, or its acknowledgements (R402, R413, R415). -/
def gridDone (o : GridOp) : Bool :=
  if laneAnswers o then o.lanes.isEmpty else o.expect ≤ o.got

/-- Whether a refusal is reported with an event (R520): there is no completion word. -/
def reportsRefusal (o : GridOp) : Bool := o.refused != 0 && o.cw.isNone && !o.poisoned && o.kind != 3

/-- The core of an operation that acquires finds no earlier L1 copy from its reply on (R187, R189). -/
def gridAcquire (s : State) (o : GridOp) : State :=
  match getBlock s o.blk with
  | some b => if o.acq then l1Clear s b.core else s
  | none => s

/-- An operation whose answers are all in retires: the event of R520 first, then its counter. -/
def settleOp (s : State) (o : GridOp) : State :=
  if gridDone o then
    let s := { s with gridOps := s.gridOps.filter fun x => x.tag != o.tag }
    if o.poisoned then s
    else
      match getBlock s o.blk with
      | none => s
      | some _ =>
        let s := if reportsRefusal o then
            postEvent s o.region (eventRecord 9 0x0F o.ctx 0 0 o.linear o.refused (o.lowAddr.getD 0))
          else s
        completeAt (gridAcquire s o) o.blk o.pidx o.pos o.op
  else setGridOp s o

/-- The lower of two addresses or devices, of which there may be none. -/
def lower (a : Option Nat) (b : Nat) : Option Nat :=
  match a with
  | some x => some (min x b)
  | none => some b

/-- A lane's answer: a value, or a refusal, which leaves zero (R413, R417, R418, R520). -/
def laneAnswer (s : State) (o : GridOp) (m : GMsg) (refused : Bool) : State :=
  match o.lanes.find? fun x => x.1 == m.lane with
  | none => s
  | some x =>
    let s := writeReply s o m.lane (if refused then 0 else m.element)
    let o := { o with lanes := o.lanes.filter fun y => y.1 != m.lane }
    settleOp s (if refused then { o with refused := o.refused + 1, lowAddr := lower o.lowAddr x.2 } else o)

/-- An acknowledgement, or the refusal of a whole part: it counts into the completion word, or internally (R402, R519, R522). -/
def partAnswer (s : State) (o : GridOp) (m : GMsg) (refused : Nat) : State :=
  let first := if m.fvalid || refused != 0 then some m.first else none
  let s := match o.cw, getBlock s o.blk with
    | some pa, some _ => updateCword s pa m.cnt refused (bit m.poison) first
    | _, _ => s
  settleOp s { o with got := o.got + m.cnt, refused := o.refused + refused }

/-- An answer for an operation of a pack. -/
def opAnswer (s : State) (o : GridOp) (g : GOut) : State :=
  match g.kind with
  | 9 => partAnswer s o g.msg g.msg.refused
  | 11 => if laneAnswers o then laneAnswer s o g.msg true else partAnswer s o g.msg (max g.msg.refused g.msg.cnt)
  | _ => if o.poisoned then settleOp s { o with got := o.got + g.msg.cnt } else laneAnswer s o g.msg false

/-- What answers a constituent of requests that left as one: its value, or its acknowledgement, refused if theirs is. -/
def ownAnswer (kind : Nat) (a : GMsg) (s : State) (leaf : GOut) (v : Nat) : State :=
  match s.gridOps.find? fun o => o.tag == leaf.msg.tag with
  | none => s
  | some o =>
    let n := leaf.msg.cnt
    opAnswer s o { kind, msg := { leaf.msg with element := v, refused := (if kind = 11 ∨ a.refused ≠ 0 then n else 0), first := a.first,
                                                fvalid := a.fvalid, code := a.code, poison := false } }

/-- What answers a request that this device has re-sent for another source (R157, R158). -/
def relayAnswer (kind : Nat) (a : GMsg) (s : State) (leaf : GOut) (v : Nat) : State :=
  let refused := kind == 11 || a.refused != 0
  match leaf.kind with
  | 1 => if refused then refuseLane s leaf.msg a.code else answer s leaf.msg 2 fun x => { x with element := v }
  | 4 => if refused then refuseLane s leaf.msg a.code else answer s leaf.msg 5 fun x => { x with element := v }
  | _ => settlePart s leaf.msg refused

/-- An answer to a message that stands for several requests, or for another source's. -/
def splitRelay (s : State) (r : Relay) (g : GOut) : State :=
  let s := { s with combOut := s.combOut.filter fun x => !(x.tag == r.tag && x.part == r.part),
                    gridOps := if r.far then s.gridOps.filter fun o => o.tag != r.tag else s.gridOps }
  splitAnswer (if r.far then relayAnswer g.kind g.msg else ownAnswer g.kind g.msg) r.tree g.msg.element s

/-- An answer that reaches its issuer. One that no operation awaits is discarded (R497, R561). -/
def receiveAnswer (s : State) (g : GOut) : State :=
  match s.gridOps.find? fun o => o.tag == g.msg.tag with
  | none => s
  | some o =>
    let s := chargeFabric s o.region (payloadBytes g) true
    match s.combOut.find? fun r => r.tag == g.msg.tag && r.part == g.msg.part with
    | some r => splitRelay s r g
    | none =>
      match o.home with
      | some a =>
        { s with gridOps := s.gridOps.filter fun x => x.tag != o.tag,
                 replies := s.replies ++ (if g.kind = 2 ∨ g.kind = 5 then [(a, some g.msg.element)]
                                          else if g.kind = 11 then [(a, none)] else []) }
      | none => opAnswer s o g

/-! ## The loop (R482) -/

/-- Whether an earlier operation that a message must follow is still unacknowledged. -/
def waitsEarlier (s : State) (g : GOut) : Bool := !(earlierOps s g.msg.tag).isEmpty

/-- Whether a looped-back message may be delivered: an answer always; a request when it need not wait, and no earlier one for its
line does (R185). -/
def loopReady (s : State) (before : List GOut) (g : GOut) : Bool :=
  isAnswer g.kind ||
  (!waitsEarlier s g && !before.any fun x => !isAnswer x.kind && x.msg.addr / 128 == g.msg.addr / 128)

/-- The first looped-back message that may be delivered, and the others. -/
def takeLoop (s : State) : List GOut → List GOut → Option (GOut × List GOut)
  | _, [] => none
  | before, g :: l => if loopReady s before g then some (g, before ++ l) else takeLoop s (before ++ [g]) l

/-- A looped-back message is delivered, as one from a link would be, but for its markers: it may find the home's port busy, which is
free (R403, R482). -/
def deliverLoop (s : State) : Option State :=
  (takeLoop s [] s.loop).map fun x =>
    let s := { s with loop := x.2 }
    if isAnswer x.1.kind then receiveAnswer s x.1
    else arrive { s with free := s.free + 1 } { x.1 with msg := { x.1.msg with markers := 0 } } ((choose s 2).1 == 1)

/-! ## Issue -/

/-- The pattern that an instruction names. -/
def patOf (e : Issuer) (g : G64) : BitVec 128 := spGet 0 e.p.gp g.gp.toNat

/-- GRIDDESC and GRIDSELF are valid and a plane is live (R383, R397). -/
def gridUp (s : State) : Bool := gridValid s && !(livePlanes s).isEmpty

/-- The checks of a pattern at issue, with the count condition of an entry (R386, R407). -/
def patOk (s : State) (e : Issuer) (g : G64) (more : Nat → Bool) : Bool :=
  gridUp s && patValid s (patOf e g).toNat && more (patOf e g).toNat

/-- E ≥ 1 (R411). -/
def someTarget (s : State) (p : Nat) : Bool := 1 ≤ patExpected s p (selfCoord s)

/-- One destination (R413). -/
def oneTarget (p : Nat) : Bool := !patMulti p && !patExself p

/-- The issuer contributes: it matches, and is no excluded root (R414). -/
def contributes (s : State) (p : Nat) : Bool :=
  let e := selfCoord s
  patMatches p e e && !(patExself p && patRoot p e == e)

/-- What a window address of n bytes raises (R389, R407). -/
def windowCause (align n va : Nat) : Option (Nat × Nat) :=
  if va % align ≠ 0 then some (0x04, va)
  else if va / 2 ^ 56 ≠ 1 ∨ (va + (n - 1)) / 2 ^ 56 ≠ 1 then some (0x02, va)
  else none

/-- The address pair in a lane. -/
def gridAddr (e : Issuer) (g : G64) (l : Nat) : Nat := opndVal e { src := g.addr, ty := .b64, wide := true } l

def gridBytes (g : G64) : Nat := elemBytes g.width.toNat

def gridRegs (g : G64) : Nat := max 1 (gridBytes g / 4)

def addrOpnd (g : G64) : Opnd := { src := g.addr, ty := .b64, wide := true }

def cwOpnd (g : G64) : Opnd := { src := g.cw, ty := .b64, wide := true }

/-- The address of the completion word that an instruction names, if it names one. -/
def cwAddr (e : Issuer) (g : G64) : Option Nat :=
  match g.cw with
  | .unused => none
  | _ => some (opndVal e (cwOpnd g) 0)

/-- What a local completion word raises, and where it lies (R390, R407). -/
def cwCause (s : State) (e : Issuer) (g : G64) (need : Need) : Option (Nat × Nat) :=
  match cwAddr e g with
  | none => none
  | some va =>
    if va % 16 ≠ 0 then some (0x04, va)
    else match xlate s e.l.ctx (inSup e.f) need va with
      | .error c => some (c, va)
      | .ok _ => none

def cwPa (s : State) (e : Issuer) (g : G64) (need : Need) : Option Nat :=
  match cwAddr e g with
  | none => none
  | some va =>
    match xlate s e.l.ctx (inSup e.f) need va with
    | .error _ => none
    | .ok pa => some pa

/-- The cause of a data source: a queue register, or the registers of its width. -/
def dataCause (e : Issuer) (act : List Nat) (g : G64) (n : Nat) : Option Nat :=
  match g.data with
  | .q _ => operandCause e act [{ src := g.data, ty := .b32, wide := false }] .null 1
  | _ => regsCause e act g.data n

def dataSrcs (g : G64) : List Opnd :=
  match g.data with
  | .q _ => [{ src := g.data, ty := .b32, wide := false }]
  | _ => []

/-- The value of a data source in a lane. -/
def dataVal (e : Issuer) (g : G64) (n l : Nat) : Nat :=
  (match g.data with
   | .q _ => opndVal e { src := g.data, ty := .b32, wide := false } l
   | _ => regsVal e g.data n l) % 2 ^ (8 * gridBytes g)

/-- The rank key of a lane's contribution (R400). -/
def laneKey (e : Issuer) (l : Nat) : Nat :=
  e.b.linear % 2 ^ 32 * 2 ^ 13 + e.p.pidx % 16 * 2 ^ 9 + e.p.pos % 8 * 2 ^ 6 + l % 64

/-- M − 1 of GRED and GSCAN, and of GWAIT (R406). -/
def multOf (g : G64) : Nat := g.gext.toNat * 8 + g.gflags.toNat / 2

def waitMult (g : G64) : Nat := g.gext.toNat * 16 + g.gflags.toNat

/-- Whether an instruction writes as a released write: marked so, or after a GFENCE (R186, R419). -/
def releases (e : Issuer) (g : G64) : Bool := g.order == .release || g.order == .acqRel || !e.p.fences.isEmpty

/-- What a message of an instruction says, but for its place and data. -/
def baseMsg (s : State) (e : Issuer) (g : G64) (write : Bool) : GMsg :=
  { pat := patOf e g, src := selfLin s, ctx := e.l.ctx, tag := 0, gop := g.gop.toNat, width := g.width.toNat, order := g.order,
    sys := g.scope == .system, mflag := g.gflags.getLsbD 0, poison := false, count := 0, key := 0, addr := 0, nparts := 1,
    part := 0, cnt := 1, cw := 0, bytes := [], element := 0, compare := 0, lane := 0, refused := 0, first := 0, fvalid := false,
    code := 0, landing := 0, markers := bit (write && releases e g) }

/-- The number below which the pack's operations must be acknowledged before this one's writes are delivered (R186, R419): none for a
plain write without a fence, its own for a released one, that of the last GFENCE else. -/
def afterOf (s : State) (e : Issuer) (g : G64) (write : Bool) : Nat :=
  if !write then 0
  else if g.order == .release || g.order == .acqRel then s.nextId
  else e.p.fences.headD 0

/-- An operation issues (R408): its record, the pack's grid counter, its messages. -/
def sendOp (s : State) (e : Issuer) (o : GridOp) (gs : List GOut) : State :=
  let t := freshTag s
  let id := s.nextId
  let s := putPack { s with nextId := id + 1, gridOps := s.gridOps ++ [{ o with tag := t, op := id }] } e.ref.blk
    (engAdd (refresh s e).p id .grid none)
  (gs.map (putTag t)).foldl (send e.l.region) s

/-- The record of an operation. -/
def newOp (s : State) (e : Issuer) (g : G64) (kind expect : Nat) (write : Bool) : GridOp :=
  { tag := 0, op := 0, blk := e.ref.blk, pidx := e.ref.pidx, pos := e.ref.pos, kind, ctx := e.l.ctx, linear := e.b.linear,
    region := e.l.region, expect, sup := inSup e.f, after := afterOf s e g write,
    acq := g.order == .acquire || g.order == .acqRel }

/-- What keeps an operation from issuing though its checks pass: the round of R421, a full counter (R277), a hold of the region at the
grid interface (R104), the want of a tag (R400). -/
def gridStall (s : State) (e : Issuer) : Option Act :=
  if needsRound e then some (forceRound s e)
  else if !hasRoom e.p 2 none then some (.wait .waiting (.room 2 none))
  else if heldAt s unitGrid 5 e.l.region then some (holdAct s e (unitGrid, 5))
  else if (freeTag s).isNone then some (.wait .waiting .none)
  else none

end Sys2Proof.Machine
end

