-- ==== Sys2Proof/Machine/Sync.lean ====
section
/-! DEFINITION. Barriers (R342 to R346), queue configuration (R347, R348) and ordered append (R349, R116). -/

namespace Sys2Proof.Machine

/-- One value for every active lane of an instruction of the whole fragment: the write-back and the latch. -/
def sameResult (s : State) (e : Issuer) (d : Dst) (nowb : Bool) (n x : Nat) : Act :=
  let act := maskLanes e.p e.f
  let vals := act.map fun l => (l, x)
  .ok (putPack s e.ref.blk (writeBack (inSup e.f) d nowb n vals (refresh s e).p)) { res := latchOf d act vals }

/-! ## Barriers -/

/-- A barrier instruction: its operands, its turn (R113), the index check of R346, then its effect, which gets the index and the
second operand. -/
def barAct (s : State) (e : Issuer) (g : Gen) (f : Nat → Nat → Act) : Act :=
  match uniCause e [opn32 g.a, opn32 g.b] with
  | some c => .trap (trapAll e [] c)
  | none =>
    if needsTurn s e then .wait .waiting .turn
    else
      let i := uniVal e g.a
      if 15 < i then .trap (trapAll e [] 0x0B) else f i (uniVal e g.b)

/-- The same for an instruction that needs an initialised barrier. -/
def barUse (s : State) (e : Issuer) (g : Gen) (f : Nat → Barrier → Nat → Act) : Act :=
  barAct s e g fun i n =>
    match getBar e.b i with
    | none => .trap (trapAll e [] 0x0B)
    | some x => f i x n

/-- Whether a fragment of the block waits on a barrier. -/
def barWaiter (b : Block) (i : Nat) : Bool :=
  b.packs.any fun p => p.frags.any fun f => f.st == .waiting && (match f.wait with | .barrier j _ => j == i | _ => false)

/-- Whether a streamer transfer of the block that names a barrier has not completed (R539). -/
def barNamed (s : State) (b : Block) (i : Nat) : Bool :=
  s.engine.any fun o => o.blk == b.bid && match o.work with
    | .xfer _ _ _ _ _ _ (some x) => x.1 == i
    | _ => false

/-- Whether a BARINIT may take a barrier (R346, R539). -/
def barFree (s : State) (b : Block) (i : Nat) : Bool :=
  !barNamed s b i && match getBar b i with
  | none => true
  | some x => x.arrived == 0 && x.posted == 0 && x.delivered == 0 && x.postedNext == 0 && x.deliveredNext == 0 &&
      !barWaiter b i

/-- A barrier changes, and a phase may complete. -/
def barDone (s : State) (e : Issuer) (i : Nat) (x : Barrier) : Act :=
  .ok (syncDone (setBlock s (setBar e.b i (barSettle x))) e) {}

def execBarinit (g : Gen) (s : State) : Host.Outcome State Fault Refusal :=
  issue s 8 .never false fun e => barAct s e g fun i n =>
    if n < 1 ∨ 4095 < n ∨ ¬ barFree s e.b i then .trap (trapAll e [] 0x0B)
    else
      let phase := match getBar e.b i with
        | some x => x.phase
        | none => 0
      .ok (syncDone (setBlock s (setBar e.b i { expected := n, phase })) e) {}

/-- A plain BARARR (R343): one arrival of the pack in this phase. -/
def execBararr (g : Gen) (s : State) : Host.Outcome State Fault Refusal :=
  issue s 8 .never false fun e => barUse s e g fun i x _ =>
    if !holdsAll e.p e.f || x.arrivals.contains (packId e.p, x.phase) then .trap (trapAll e [] 0x0B)
    else
      barDone s e i { x with arrived := x.arrived + 1,
                             arrivals := (packId e.p, x.phase) :: x.arrivals.filter fun a => a.1 != packId e.p }

/-- A change of E (R343), which must stay in 1–4,095 and not below A (R346). -/
def barResize (s : State) (e : Issuer) (i : Nat) (x : Barrier) (n : Int) : Act :=
  if !holdsAll e.p e.f || n < 1 || 4095 < n || n < x.arrived then .trap (trapAll e [] 0x0B)
  else barDone s e i { x with expected := n.toNat }

def execBararrJoin (g : Gen) (s : State) : Host.Outcome State Fault Refusal :=
  issue s 8 .never false fun e => barUse s e g fun i x n => barResize s e i x ((x.expected : Int) + n)

def execBararrDrop (g : Gen) (s : State) : Host.Outcome State Fault Refusal :=
  issue s 8 .never false fun e => barUse s e g fun i x n => barResize s e i x ((x.expected : Int) - n)

def execBarwait (g : Gen) (s : State) : Host.Outcome State Fault Refusal :=
  issue s 8 .never false fun e => barUse s e g fun i x _ =>
    let ph := e.f.phase.getD (waitPhase x e.p)
    if x.phase ≠ ph then .ok (syncDone s e) {}
    else .own (putFrag s e.ref { e.f with st := .waiting, wait := .barrier i ph, since := s.tick, gang := 0, phase := some ph })

/-- BAREXP (R344): a byte count that would pass 2^40 − 1 is misuse. -/
def execBarexp (g : Gen) (s : State) : Host.Outcome State Fault Refusal :=
  issue s 8 .never false fun e => barUse s e g fun i x n =>
    let next := g.opx == 1#4
    let t := (if next then x.postedNext else x.posted) + n
    if 2 ^ 40 ≤ t then .trap (trapAll e [] 0x0B)
    else barDone s e i (if next then { x with postedNext := t } else { x with posted := t })

def execBartry (g : Gen) (s : State) : Host.Outcome State Fault Refusal :=
  issue s 8 .never false fun e =>
    match dstCause e (maskLanes e.p e.f) g.dst 1 with
    | some c => .trap (trapAll e [] c)
    | none => barUse s e g fun _ x _ =>
      match sameResult s e g.dst g.nowb 1 (bit (x.phase != waitPhase x e.p)) with
      | .ok s r => .ok (syncDone s e) r
      | a => a

/-! ## Queues (R347, R348) -/

/-- A binding of a queue register ends; its object is free once it has none. -/
def unbindQueue (b : Block) (p : Pack) (q : Nat) : Block :=
  match qbindOf p q with
  | none => b
  | some x =>
    let b := setPack b { p with qbind := p.qbind.filter fun y => y.q != q }
    match spFind? b.queues x.off with
    | none => b
    | some o =>
      let o := if x.push then { o with pushed := false } else { o with popped := false }
      if o.pushed || o.popped then { b with queues := spSet b.queues x.off o } else { b with queues := spDel b.queues x.off }

/-- The misuse of a binding (R348), in the block as the implicit unbind leaves it. -/
def bindMisuse (b : Block) (width off cap : Nat) (push : Bool) : Bool :=
  match spFind? b.queues off with
  | none => false
  | some o => o.cap != cap || o.width != width || (if push then o.pushed else o.popped)

def bindQueue (b : Block) (p : Pack) (q off cap : Nat) (push : Bool) : Block :=
  let b := setPack b { p with qbind := { q, off, push } :: p.qbind.filter fun y => y.q != q }
  let o := (spFind? b.queues off).getD { cap, width := p.width }
  { b with queues := spSet b.queues off (if push then { o with pushed := true } else { o with popped := true }) }

/-- What QCFG raises, in the order of R552. -/
def qcfgCause (e : Issuer) (q off cap : Nat) (push : Bool) : Option Nat :=
  if 255 < cap ∨ ¬ holdsAll e.p e.f ∨ (cap = 0 ∧ (qbindOf e.p q).isNone) then some 0x0C
  else if cap = 0 then none
  else if bindMisuse (unbindQueue e.b e.p q) e.p.width off cap push then some 0x0C
  else if stashBytes e.l < off + 64 + 4 * cap * e.p.width then some 0x03
  else if off % 64 ≠ 0 then some 0x04
  else none

def execQcfg (g : Gen) (s : State) : Host.Outcome State Fault Refusal :=
  issue s 8 .never false fun e =>
    match uniCause e [opn32 g.a, opn32 g.b] with
    | some c => .trap (trapAll e [] c)
    | none =>
      if needsTurn s e then .wait .waiting .turn
      else
        let q := g.opx.toNat % 8
        let push := g.opx.toNat < 8
        let off := uniVal e g.a
        let cap := uniVal e g.b
        match qcfgCause e q off cap push with
        | some c => .trap (if c = 0x0C then trapAll e [] c else trapAt e c off)
        | none =>
          let b := unbindQueue e.b e.p q
          let b := if cap = 0 then b else bindQueue b ((getPack b e.p.pidx e.p.pos).getD e.p) q off cap push
          .ok (syncDone (setBlock s b) e) {}

/-! ## Ordered append (R116, R117, R349) -/

/-- Another fragment of the block waits for its claim on a stream, or holds it. -/
def appendPending (e : Issuer) (stream : Nat) : Bool :=
  (blockFrags e.b).any fun r => r != e.ref &&
    match getPack e.b r.pidx r.pos with
    | some p => (match getFrag p r.frag with
        | some f => f.wait == .append stream
        | none => false)
    | none => false

/-- The block's claim of n items on a stream: the base before it. -/
def claimStream (l : Launch) (stream linear n : Nat) : Launch × DWord :=
  let t := spGet {} l.streams stream
  let u : Stream := { base := t.base + BitVec.ofNat 64 n, claimed := insNat t.claimed linear }
  ({ l with streams := spPut {} l.streams stream u }, t.base)

def appendAct (s : State) (e : Issuer) (g : Gen) (n : Nat) : Act :=
  match firstCause [dstCause e (maskLanes e.p e.f) g.dst 2, uniCause e [opn32 g.a, opn32 g.b]] with
  | some c => .trap (trapAll e [] c)
  | none =>
    let stream := uniVal e g.a
    if 15 < stream then .trap (trapAll e [] 0x0C)
    else if needsTurn s e then .wait .waiting .turn
    else if (spGet {} e.l.streams stream).claimed.contains e.b.linear || appendPending e stream then
      .trap (trapAll e [] 0x0C)
    else if !appendTurn e.l stream e.b.linear then .wait .waiting (.append stream)
    else
      let (l, base) := claimStream e.l stream e.b.linear n
      match sameResult (setLaunch s l) e g.dst g.nowb 2 base.toNat with
      | .ok s r => .ok (syncDone s e) r
      | a => a

def execAppend (g : Gen) (s : State) : Host.Outcome State Fault Refusal :=
  issue s 8 .never false fun e => appendAct s e g (uniVal e g.b)

def execDecline (g : Gen) (s : State) : Host.Outcome State Fault Refusal :=
  issue s 8 .never false fun e => appendAct s e g 0

end Sys2Proof.Machine
end

