-- ==== Sys2Proof/Machine/Tensor.lean ====
section
/-! DEFINITION. Tensors as matrix instructions see them (spec/11 R350 to R356, R358, R365): identifier entries, views, addresses,
scales, B blocks, products of a pass with their residues (R220 to R222, R379). -/

namespace Sys2Proof.Machine

/-! ## Identifier entries (R352) -/

def tFmt (w : Nat) : Nat := field w 2 0
def tStash (w : Nat) : Bool := w.testBit 4
def tSparse (w : Nat) : Bool := w.testBit 5
def tGroup (w : Nat) : Nat := 32 * 2 ^ field w 7 6
def tZord (w : Nat) : Bool := w.testBit 16
def tTrans (w : Nat) : Bool := w.testBit 17
def tRaxis (w : Nat) : Bool := w.testBit 18
def tSbase (w : Nat) : Int := sval 8 (field w 15 8)
def tRows (w : Nat) : Nat := field w 55 32
def tCols (w : Nat) : Nat := field w 87 64
def tBase (w : Nat) : Nat := field w 159 96
def tStride (w : Nat) : Nat := field w 191 160
def tSplane (w : Nat) : Nat := field w 255 192
def tMbase (w : Nat) : Nat := field w 319 256

/-- The element size of a format. -/
def fmtSize (fmt : Nat) : Nat := if fmt ≤ 1 then 1 else if fmt ≤ 3 then 2 else 4

def tSize (w : Nat) : Nat := fmtSize (tFmt w)

/-- The stored row length. -/
def tRowLen (w : Nat) : Nat := if tSparse w then tCols w / 2 else tCols w

/-- What R352 and R353 ask of every entry in use. -/
def entryOk (w : Nat) : Bool :=
  w.testBit 3 && tFmt w ≤ 4 && field w 7 6 != 3 && (tFmt w == 0 || field w 15 8 == 0) &&
  field w 31 19 == 0 && field w 63 56 == 0 && field w 95 88 == 0 && field w 511 320 == 0 &&
  1 ≤ tRows w && tRows w ≤ 2 ^ 22 && 1 ≤ tCols w && tCols w ≤ 2 ^ 22 && tBase w % 128 == 0 &&
  (!tSparse w || (tFmt w ≤ 3 && tCols w % 4 == 0 && tMbase w % 16 == 0)) &&
  (!tTrans w || (tZord w && !tSparse w)) && ceilDiv (tRowLen w) 128 ≤ tStride w

/-! ## Views and addresses (R354, R355) -/

/-- The rows and columns of the view. -/
def viewRows (w : Nat) : Nat := if tTrans w then tCols w else tRows w
def viewCols (w : Nat) : Nat := if tTrans w then tRows w else tRowLen w

/-- The stored position of a view element. -/
def storedAt (w r c : Nat) : Option (Nat × Nat) :=
  if r < viewRows w ∧ c < viewCols w then some (if tTrans w then (c, r) else (r, c)) else none

/-- The Morton index of R355. -/
def mortonIx (r c : Nat) : Nat :=
  (List.range 5).foldl (fun m b => m + field (c / 4) b b * 2 ^ (2 * b) + field (r / 4) b b * 2 ^ (2 * b + 1)) 0

/-- The address of stored element (R, C). -/
def storedAddr (w r c : Nat) : Nat :=
  if tZord w then
    tBase w + ((r / 128 * tStride w + c / 128) * 16384 + 16 * mortonIx (r % 128) (c % 128) + 4 * (r % 4) + c % 4) * tSize w
  else tBase w + (r * tStride w * 128 + c) * tSize w

def cellAddr (w r c : Nat) : Option Nat := (storedAt w r c).map fun x => storedAddr w x.1 x.2

/-- Whether the view's reduction axis is its column index (R356). -/
def reducesCols (w : Nat) : Bool := tRaxis w == tTrans w

/-- The address of a TF8 element's group scale (R211), by its stored position. -/
def scaleAddr (w r c : Nat) : Option Nat :=
  if tFmt w ≠ 0 then none
  else
    (storedAt w r c).map fun x =>
      let (i, k, ext) := if tRaxis w then (x.2, x.1, tRows w) else (x.1, x.2, tRowLen w)
      tSplane w + i * ceilDiv ext (tGroup w) + k / tGroup w

/-! ## Reading an element -/

/-- Where the bytes of a matrix read come from: global bytes by physical address, translations, and the block whose stash it is. -/
def cellRaw (b : Block) (rd : Nat → Byte) (tr : Nat → Option Nat) (w r c : Nat) : Nat :=
  match cellAddr w r c with
  | none => 0
  | some a =>
    if tStash w then stashReadNat b a (tSize w)
    else match tr a with
      | some pa => ofLeBytes ((List.range (tSize w)).map fun i => rd (pa + i))
      | none => 0

/-- The exponent b + gs of an element (R210). -/
def cellExp (rd : Nat → Byte) (tr : Nat → Option Nat) (w r c : Nat) : Int :=
  match scaleAddr w r c with
  | none => 0
  | some a => match tr a with
    | some pa => tSbase w + sval 8 (rd pa).toNat
    | none => tSbase w

/-- The first poisoned address of an element or of its scale. -/
def cellPoison (s : State) (b : Block) (tr : Nat → Option Nat) (w r c : Nat) : Option Nat :=
  let at' := fun (a n : Nat) => match tr a with
    | some pa => if gPoisoned s pa n then some a else none
    | none => none
  match cellAddr w r c with
  | none => none
  | some a =>
    match (if tStash w then (if stashPoisoned b a (tSize w) then some a else none) else at' a (tSize w)) with
    | some a => some a
    | none => match scaleAddr w r c with
      | none => none
      | some sa => at' sa 1

/-- The exact value of a stored code (R199, R207, R210, R212). -/
def codeVal (fmt raw : Nat) (ex : Int) : FVal :=
  if fmt = 0 then scaleVal (tf8Value (raw % 256)) ex
  else if fmt = 1 then valOfInt (sval 8 raw)
  else fDecode (if fmt = 2 then fmtBF16 else if fmt = 3 then fmtF16 else fmtF32) raw

/-! ## Faults of operands (R358) -/

/-- The faults of one element access: cause and address. `scaleNeed` is what its scale byte needs. -/
def cellFaults (s : State) (e : Issuer) (need scaleNeed : Need) (w r c : Nat) : List (Nat × Nat) :=
  match cellAddr w r c with
  | none => []
  | some a =>
    let n := tSize w
    let own :=
      if tStash w then
        if stashBytes e.l < a + n then [(0x09, max a (stashBytes e.l))]
        else if need == .write && (match regionAt e.b a with | some q => q.mode == .ro | none => false) then [(0x02, a)]
        else (boundLines e.b a n).filterMap fun k => match fillNeed s e.l.ctx (inSup e.f) e.b k with
          | .error x => some (x, lineVa e.b k)
          | .ok _ => none
      else match xlate s e.l.ctx (inSup e.f) need a with
        | .error x => [(x, a)]
        | .ok _ => []
    own ++ (match scaleAddr w r c with
      | none => []
      | some sa => match xlate s e.l.ctx (inSup e.f) scaleNeed sa with
        | .error x => [(x, sa)]
        | .ok _ => [])

/-- The cells of a rectangle of a view. -/
def cellsOf (r0 nr c0 nc : Nat) : List (Nat × Nat) :=
  (List.range nr).flatMap fun i => (List.range nc).map fun j => (r0 + i, c0 + j)

def rectFaults (s : State) (e : Issuer) (need scaleNeed : Need) (w r0 nr c0 nc : Nat) : List (Nat × Nat) :=
  (cellsOf r0 nr c0 nc).flatMap fun x => cellFaults s e need scaleNeed w x.1 x.2

def minOf (l : List Nat) : Nat := match l with
  | [] => 0
  | x :: xs => xs.foldl min x

/-- The trap of an issue: the first cause in the order of R358, the octets that raise it, each with its lowest address; `lanes`
gives the lanes of an octet. -/
def matTrap (octet : Bool) (lanes : Nat → List Nat) (xs : List (Nat × List (Nat × Nat))) : Option TrapInfo :=
  [0x08, 0x0C, 0x09, 0x04, 0x02, 0x01].findSome? fun c =>
    match xs.filterMap fun x => match (x.2.filter fun f => f.1 == c).map (·.2) with
      | [] => none
      | as => some (x.1, minOf as) with
    | [] => none
    | os => some { trapLanes c (os.flatMap fun o => (lanes o.1).map fun l => (l, o.2)) with octet }

/-- The lanes of octet o. -/
def octLanes (o : Nat) : List Nat := (List.range 8).map fun i => 8 * o + i

/-! ## B blocks (R351, R364) -/

/-- Kp of a format (R350). -/
def passDepth (fmt : Nat) : Nat := if fmt ≤ 1 then 128 else 64

/-- B element (k, j) of a loaded slot. -/
def slotVal (m : MarverSlot) (k j : Nat) : FVal :=
  codeVal m.fmt (spGet 0 m.elems (128 * k + j)) (spGet 0 m.exps (128 * k + j))

/-- The slot that MLDB fills from entry w at tile (ti, tj) (R351, R364). -/
def loadSlot (s : State) (b : Block) (rd : Nat → Byte) (tr : Nat → Option Nat) (w ti tj : Nat) : MarverSlot :=
  let kp := passDepth (tFmt w)
  let cells := cellsOf 0 kp 0 128
  let at' := fun (f : Nat → Nat → Nat × Nat) => cells.map fun x => f x.1 x.2
  let elems := (at' fun k j => (128 * k + j, cellRaw b rd tr w (ti * kp + k) (tj * 128 + j))).filter fun x => x.2 != 0
  let exps := (cells.map fun x => (128 * x.1 + x.2, cellExp rd tr w (ti * kp + x.1) (tj * 128 + x.2))).filter fun x => x.2 != 0
  let bad := cells.filter fun x => (cellPoison s b tr w (ti * kp + x.1) (tj * 128 + x.2)).isSome
  let m : MarverSlot := { fmt := tFmt w, elems, exps, poison := bad.map fun x => 128 * x.1 + x.2,
                          entry := BitVec.ofNat 512 w, ti, tj }
  { m with sums := (List.range kp).map fun k => sumRes ((List.range 128).map fun j => valRes (slotVal m k j)) }

/-- The first poisoned address of a rectangle (R511). -/
def rectPoison (s : State) (b : Block) (tr : Nat → Option Nat) (w r0 nr c0 nc : Nat) : Option Nat :=
  (cellsOf r0 nr c0 nc).findSome? fun x => cellPoison s b tr w x.1 x.2

/-! ## The products of a pass (R220 to R222) -/

/-- The finite non-zero products, as signed integers with exponents. -/
def finParts (ps : List FVal) : List (Int × Int) :=
  ps.filterMap fun p => match p with
    | .fin neg m e => if m = 0 then none else some (signedOf neg m, e)
    | _ => none

/-- The exact sum of such parts, as n × 2^q. -/
def exactSum (xs : List (Int × Int)) : Int × Int :=
  match xs with
  | [] => (0, 0)
  | x :: r =>
    let q := r.foldl (fun m y => min m y.2) x.2
    (xs.foldl (fun t y => t + y.1 * (2 ^ (y.2 - q).toNat : Nat)) 0, q)

/-- ⌊log2⌋ of a part. -/
def partTop (x : Int × Int) : Int := x.2 + (bitLen x.1.natAbs : Int) - 1

/-- The window sum of R222 step 3, in units of 2^(E − 88): each part truncated toward zero. -/
def windowSum (xs : List (Int × Int)) (u : Int) : Int :=
  xs.foldl (fun t x => t + signedOf (x.1 < 0) (shl2 x.1.natAbs (x.2 - u))) 0

/-- The pass sum of R222 steps 1 to 4, with the exact sum where the products are finite. -/
def passSum (ps : List FVal) : Nat × Option (Int × Int) :=
  let pos := ps.any fun p => p == .inf false
  let neg := ps.any fun p => p == .inf true
  if ps.any isNan || (pos && neg) then (fmtNaN fmtF32, none)
  else if pos then (fmtInf fmtF32, none)
  else if neg then (fmtSigned fmtF32 true (fmtInf fmtF32), none)
  else
    let xs := finParts ps
    match xs with
    | [] => (0, some (0, 0))
    | x :: r =>
      let u := r.foldl (fun m y => max m (partTop y)) (partTop x) - 88
      let sum := windowSum xs u
      ((roundFin fmtF32 .rne (sum < 0) sum.natAbs u false).1, some (exactSum xs))

/-- The sum of an INT8 pass (R221). -/
def intSum (ps : List FVal) : Nat × Option (Int × Int) :=
  let x := exactSum (finParts ps)
  (unsig 32 (x.1 * (2 ^ x.2.toNat : Nat)), some (x.1, x.2))

/-- The sums of one octet's eight rows, from each row's terms (B row, A value), and the residues that R379 expects of the columns
and rows without a non-finite product. -/
def octetPass (int : Bool) (rows : List (List (Nat × FVal))) (bv : Nat → Nat → FVal) (bsum : Nat → Nat) (poison : Bool) :
    List PassSum × List (Nat × Nat) × List (Nat × Nat) :=
  let sums := (List.range 8).flatMap fun i => (List.range 128).map fun j =>
    let ps := (rows.getD i []).map fun t => (mulVal t.2 (bv t.1 j)).1
    let (v, x) := if int then intSum ps else passSum ps
    ({ elem := 128 * i + j, value := BitVec.ofNat 32 v, exact := x, poison } : PassSum)
  let fine := fun (f : Nat → Bool) => sums.all fun x => !f x.elem || x.exact.isSome
  let cols := ((List.range 128).filter fun j => fine fun k => k % 128 == j).map fun j =>
    (j, sumRes (rows.map fun r => sumRes (r.map fun t => valRes t.2 * valRes (bv t.1 j) % resP)))
  let rws := ((List.range 8).filter fun i => fine fun k => k / 128 == i).map fun i =>
    (i, sumRes ((rows.getD i []).map fun t => valRes t.2 * bsum t.1 % resP))
  (sums, cols, rws)

/-! ## Sparse metadata (R365, R366) -/

/-- The address of the nibble of stored row r and group g. -/
def metaAddr (w r g : Nat) : Nat := tMbase w + r * ceilDiv (tCols w) 128 * 16 + g / 2

/-- The logical row of B that stored column s of a row takes, by its nibble (R365, R369). -/
def sparseRow (nib s : Nat) : Nat := 4 * (s / 2) + (if s % 2 = 0 then nib % 4 else nib / 4 % 4)

/-- Klog of a format (R350), and the rows that a meta slot holds (R366). -/
def sparseDepth (fmt : Nat) : Nat := 2 * passDepth fmt
def metaRows (fmt : Nat) : Nat := if fmt ≤ 1 then 64 else 128

end Sys2Proof.Machine
end

