-- ==== Sys2Proof/Machine/Matrix.lean ====
section
/-! DEFINITION. The matrix instructions (spec/11 R357 to R381): identifiers, slots, zeroing, passes, drains, rows, rings. The sums
of a pass are formed at issue and applied to its tiles when it completes (R359, R369). -/

namespace Sys2Proof.Machine

/-! ## Octets (R53, R357) -/

/-- The octets of the issue: those of the fragment that no partner has performed. -/
def todoOctets (p : Pack) (f : Fragment) : List Nat := (fragOctets p f).filter fun k => !octDone f k

/-- The other fragments at the instruction take note of the octets that it performed for them. -/
def markPartners (s : State) (e : Issuer) (octs : List Nat) : State :=
  match getBlock s e.ref.blk with
  | none => s
  | some b =>
    match getPack b e.p.pidx e.p.pos with
    | none => s
    | some p =>
      let frags := p.frags.mapIdx fun i g =>
        if i = e.ref.frag ∨ g.st = .free ∨ g.pc ≠ e.f.pc then g
        else
          let mine := octs.filter fun k => g.slices.getLsbD (2 * k) || g.slices.getLsbD (2 * k + 1)
          if mine.isEmpty then g
          else
            { g with octs := mine.foldl (fun m k => m ||| BitVec.ofNat 8 (2 ^ k)) (if g.octPc = g.pc then g.octs else 0),
                     octPc := g.pc }
      setBlock s (setPack b { p with frags := frags })

/-- The issue of a matrix instruction: the octets pair up, and those left to the issuer perform (R53). `res` is the result that it
leaves, read from the pack afterwards. -/
def matIssue (s : State) (e : Issuer) (res : Pack → Retire) (k : List Nat → Act) : Act :=
  if !pairReady e.p e.f then .wait .pairing .none
  else
    let octs := todoOctets e.p e.f
    if octs.isEmpty then .ok s (res e.p)
    else
      match k octs with
      | .ok s _ =>
        let s := markPartners s e octs
        .ok s (res (refresh s e).p)
      | a => a

def noRes (_ : Pack) : Retire := {}

/-- An octet-level instruction that reads or writes tiles waits in state 3 until the passes in flight on them have taken effect
(R359). -/
def afterPasses (e : Issuer) (tiles : List Nat) (k : Act) : Act :=
  if tilesQuiet e.b (.tiles tiles) then k else .wait .pairing (.tiles tiles)

/-! ## Operands -/

/-- The registers of a coordinate operand (R361). -/
def coordOpnd (src : Src) : Opnd := { src, ty := .n32, wide := match src with | .s _ => true | _ => false }

def coordOf' (e : Issuer) (src : Src) : Nat × Nat :=
  let x := opndVal e (coordOpnd src) 0
  match src with
  | .s _ => (x % 2 ^ 32, x / 2 ^ 32)
  | _ => (x, 0)

/-- The lanes that a trap of a pack-level instruction names. -/
def packLanes (e : Issuer) : Nat → List Nat := fun _ => liveLanes e.p e.f

def tdAddr (e : Issuer) (tid : Nat) : Nat := (e.b.tdbase.toNat + 64 * tid) % 2 ^ 64

/-- Global bytes as the issuer loads them, and its read translations. -/
def issuerRd (s : State) (e : Issuer) (pa : Nat) : Byte := (laneBytes s e pa 1).headD 0

def issuerTr (s : State) (e : Issuer) (va : Nat) : Option Nat :=
  match xlate s e.l.ctx (inSup e.f) .read va with
  | .ok pa => some pa
  | .error _ => none

/-- The entry of an identifier (R353): its word and address, or the trap of its translation. -/
def entryOf (s : State) (e : Issuer) (tid : Nat) : Except (Nat × Nat) (Nat × Nat) :=
  let a := tdAddr e tid
  match xlate s e.l.ctx (inSup e.f) .read a with
  | .error c => .error (c, a)
  | .ok pa => .ok (ofLeBytes (laneBytes s e pa 64), a)

/-- The fault of an entry that does not suit its use. -/
def useFaults (w a : Nat) (suits : Bool) : List (Nat × Nat) := if entryOk w && suits then [] else [(0x08, a)]

def beyond (n limit : Nat) : List (Nat × Nat) := if limit < n then [(0x09, 0)] else []

/-! ## What every read of operands meets (R138, R104, R198, R544) -/

/-- A matrix read of cells (entry word, row, column): the stalls and holds, then the fills and charges. -/
def matRead (s : State) (e : Issuer) (cells : List (Nat × Nat × Nat)) (k : State → Act) : Act :=
  let stash := cells.filterMap fun x => if tStash x.1 then (cellAddr x.1 x.2.1 x.2.2).map fun a => (a, tSize x.1) else none
  let far := cells.flatMap fun x =>
    (if tStash x.1 then [] else
      (((cellAddr x.1 x.2.1 x.2.2).bind (issuerTr s e)).map fun pa => (pa, tSize x.1)).toList) ++
    (((scaleAddr x.1 x.2.1 x.2.2).bind (issuerTr s e)).map fun pa => (pa, 1)).toList
  if needsRound e then forceRound s e
  else
    match stash.findSome? fun x => stashStall s e x.2 [x.1] with
    | some w => .wait .waiting w
    | none =>
      match memHold s e (far.map (·.1) ++ fillPas s e.l.ctx (inSup e.f) e.b stash) with
      | some h => holdAct s e h
      | none =>
        if strictRace s e (far.map (·.1)) then .trap (trapAll e [] 0x0A)
        else k (chargeSectors (fillLines s e stash) e.l.region far)

/-- The cells of a rectangle of one view. -/
def viewCells (w r0 nr c0 nc : Nat) : List (Nat × Nat × Nat) := (cellsOf r0 nr c0 nc).map fun x => (w, x.1, x.2)

/-! ## TDSET and TDGET (R363) -/

/-- Bytes stored outside any buffer. -/
def storeBytes (s : State) (e : Issuer) (pa : Nat) (bs : List Byte) : State :=
  if isReg pa then regWrite s pa bs
  else if cutOff s pa then postMemoryError s e.l.region e.b.linear pa
  else l1DropRange (gWrite s pa bs) e.b.core pa bs.length

/-- A store of a synchronising operation (R114). -/
def syncStore (s : State) (e : Issuer) (pa : Nat) (bs : List Byte) : State :=
  let before := gRead s pa bs.length
  let s := storeBytes s e pa bs
  if buffered e then noteEffect s e.l.lid (syncSeq e) pa before bs else s

def execTdset (x : X64) (s : State) : Host.Outcome State Fault Refusal :=
  issue s 8 .never false fun e =>
    match regsCause e [] x.reg 16 with
    | some c => .trap (trapAll e [] c)
    | none => matIssue s e noRes fun _ =>
      let a := tdAddr e x.tid.toNat
      let w := regsVal e x.reg 16 0
      let bad := if w.testBit 3 && !entryOk w then [(0x08, a)] else []
      let miss := match xlate s e.l.ctx (inSup e.f) .write a with
        | .error c => [(c, a)]
        | .ok _ => []
      match matTrap false (packLanes e) [(0, bad ++ miss)], xlate s e.l.ctx (inSup e.f) .write a with
      | some t, _ => .trap t
      | none, .error c => .trap (trapAt e c a)
      | none, .ok pa =>
        if needsTurn s e then .wait .waiting .turn
        else
          match memHold s e [pa] with
          | some h => holdAct s e h
          | none =>
            let s := syncStore (chargeSectors s e.l.region [(pa, 64)]) e pa (leBytes 64 w)
            .ok (syncDone s e) {}

/-- The result of TDGET, as its registers hold it. -/
def tdgetRes (e : Issuer) (x : X64) (p : Pack) : Retire :=
  { res := latchOf (dstOf x.reg) (maskLanes e.p e.f)
      ((maskLanes e.p e.f).map fun l => (l, regsVal { e with p := p } x.reg 4 l)) }

def execTdget (x : X64) (s : State) : Host.Outcome State Fault Refusal :=
  issue s 8 .never false fun e =>
    match dstCause e [] (dstOf x.reg) 16 with
    | some c => .trap (trapAll e [] c)
    | none => matIssue s e (tdgetRes e x) fun _ =>
      match entryOf s e x.tid.toNat with
      | .error (c, a) => .trap { trapLanes c ((liveLanes e.p e.f).map fun l => (l, a)) with octet := false }
      | .ok (w, a) =>
        let pas := (issuerTr s e a).toList
        match memHold s e pas with
        | some h => holdAct s e h
        | none =>
          if strictRace s e pas then .trap (trapAll e [] 0x0A)
          else
            let s := chargeSectors s e.l.region (pas.map fun pa => (pa, 64))
            match x.reg with
            | .s r => .ok (putPack s e.ref.blk (putSRange (inSup e.f) r.toNat w 16 (refresh s e).p)) {}
            | _ => .ok s {}

/-! ## MLDB, MBREL and MLDMETA (R364 to R366) -/

/-- A slot takes new contents, which no pass under way reads: no later octet joins one (R371). -/
def closeFuse (b : Block) (i : Nat) : Block := { b with fuse := b.fuse.filter fun x => x.1 != i && x.1 + 1 != i }

def putSlot (b : Block) (i : Nat) (m : MarverSlot) : Block := { closeFuse b i with marver := spSet b.marver i m }

def execMldb (x : X64) (s : State) : Host.Outcome State Fault Refusal :=
  issue s 8 .last false fun e =>
    match uniCause e [coordOpnd x.reg] with
    | some c => .trap (trapAll e [] c)
    | none => matIssue s e noRes fun _ =>
      match entryOf s e x.tid.toNat with
      | .error (c, a) => .trap (trapLanes c ((liveLanes e.p e.f).map fun l => (l, a)))
      | .ok (w, a) =>
        let (ti, tj) := coordOf' e x.reg
        let kp := passDepth (tFmt w)
        let faults := useFaults w a (tFmt w ≤ 3 && !tSparse w)
        let faults := if faults.isEmpty then
            beyond (x.slot.toNat + 1) (pkMarver (launchWord e.l)) ++ rectFaults s e .read .read w (ti * kp) kp (tj * 128) 128
          else faults
        match matTrap false (packLanes e) [(0, faults)] with
        | some t => .trap t
        | none => matRead s e (viewCells w (ti * kp) kp (tj * 128) 128) fun s =>
          let b := (refresh s e).b
          let slot := loadSlot s b (issuerRd s e) (issuerTr s e) w ti tj
          let bad := rectPoison s b (issuerTr s e) w (ti * kp) kp (tj * 128) 128
          let s := setBlock s (putSlot b x.slot.toNat slot)
          match bad with
          | some a => .ok (postMemoryError s e.l.region e.b.linear a) {}
          | none => .ok s {}

def execMbrel (x : X64) (s : State) : Host.Outcome State Fault Refusal :=
  issue s 8 .never false fun e => matIssue s e noRes fun _ =>
    match matTrap false (packLanes e) [(0, beyond (x.slot.toNat + 1) (pkMarver (launchWord e.l)))] with
    | some t => .trap t
    | none => .ok (setBlock s { closeFuse e.b x.slot.toNat with marver := spDel e.b.marver x.slot.toNat }) {}

/-- The (row, group) places of a meta slot that lie inside the tensor (R366). -/
def metaCells (w row0 kt : Nat) : List (Nat × Nat) :=
  (cellsOf 0 (metaRows (tFmt w)) 0 (sparseDepth (tFmt w) / 4)).filter fun x =>
    row0 + x.1 < tRows w && 4 * (kt * (sparseDepth (tFmt w) / 4) + x.2) < tCols w

def execMldmeta (x : X64) (s : State) : Host.Outcome State Fault Refusal :=
  issue s 8 .never false fun e =>
    match uniCause e [coordOpnd x.reg] with
    | some c => .trap (trapAll e [] c)
    | none => matIssue s e noRes fun _ =>
      match entryOf s e x.tid.toNat with
      | .error (c, a) => .trap (trapLanes c ((liveLanes e.p e.f).map fun l => (l, a)))
      | .ok (w, a) =>
        let (row0, kt) := coordOf' e x.reg
        let addr := fun (q : Nat × Nat) => metaAddr w (row0 + q.1) (kt * (sparseDepth (tFmt w) / 4) + q.2)
        let faults := useFaults w a (tFmt w ≤ 3 && tSparse w)
        let cells := if faults.isEmpty then metaCells w row0 kt else []
        let faults := if faults.isEmpty then
            beyond (x.mslot.toNat + 1) (pkMeta (launchWord e.l)) ++
            cells.filterMap fun q => match xlate s e.l.ctx (inSup e.f) .read (addr q) with
              | .error c => some (c, addr q)
              | .ok _ => none
          else faults
        match matTrap false (packLanes e) [(0, faults)] with
        | some t => .trap t
        | none =>
          let far := cells.filterMap fun q => (issuerTr s e (addr q)).map fun pa => (q, pa)
          if needsRound e then forceRound s e
          else
            match memHold s e (far.map (·.2)) with
            | some h => holdAct s e h
            | none =>
              if strictRace s e (far.map (·.2)) then .trap (trapAll e [] 0x0A)
              else
                let s := chargeSectors s e.l.region (far.map fun y => (y.2, 1))
                let nib := fun (y : (Nat × Nat) × Nat) =>
                  (issuerRd s e y.2).toNat / 16 ^ (y.1.2 % 2) % 16
                let bad := far.find? fun y => gPoisoned s y.2 1
                let nibbles := (far.map fun y => (128 * y.1.1 + y.1.2, nib y)).filter fun y => y.2 != 0
                let m : MetaSlot := { fmt := tFmt w, row0, kt, poison := bad.isSome, nibbles }
                let b := (refresh s e).b
                let s := setBlock s { b with mslots := spSet b.mslots x.mslot.toNat m }
                match bad with
                | some y => .ok (postMemoryError s e.l.region e.b.linear (addr y.1)) {}
                | none => .ok s {}

/-! ## MZERO (R367) -/

def execMzero (x : X64) (s : State) : Host.Outcome State Fault Refusal :=
  issueOctet s fun e => matIssue s e noRes fun octs =>
    let n := x.cnt.toNat + 1
    let first := fun o => x.tile.toNat + o * n
    match matTrap true octLanes (octs.map fun o => (o, beyond (first o + n) (pkAcc (launchWord e.l)))) with
    | some t => .trap t
    | none =>
      let ts := octs.flatMap fun o => (List.range n).map fun i => first o + i
      afterPasses e ts (.ok (setBlock s { e.b with acc := ts.foldl (fun a t => spPut {} a t {}) e.b.acc }) {})

/-! ## MMA and MMASP (R369 to R371) -/

/-- The slots of octet o. -/
def mmaSlots (x : X64) (sparse : Bool) (o : Nat) : List Nat :=
  let base := x.slot.toNat + (if x.flags.getLsbD 0 then (if sparse then 2 * o else o) else 0)
  if sparse then [base, base + 1] else [base]

def mmaRow (x : X64) (row0 o : Nat) : Nat := if x.flags.getLsbD 0 then row0 else row0 + 8 * o

/-- A row of A: the view that holds it and its row there; for a ring operand, the concatenated rows of `cnt` slots from `first`,
wrapping at n (R370). -/
def aRow (ring : Option (Nat × Nat × Nat)) (w r : Nat) : Option (Nat × Nat) :=
  match ring with
  | none => some (w, r)
  | some (first, cnt, n) =>
    let v := viewRows w
    if r / v < cnt ∧ v ≠ 0 then
      some (w + (first + r / v) % n * (tRows w * tRowLen w * tSize w) * 2 ^ 96, r % v)
    else none

/-- The cells that octet o reads of A. -/
def mmaCells (ring : Option (Nat × Nat × Nat)) (w rbase kt : Nat) : List (Nat × Nat × Nat) :=
  let kp := passDepth (tFmt w)
  (List.range 8).flatMap fun i => match aRow ring w (rbase + i) with
    | none => []
    | some (v, r) => (List.range kp).map fun k => (v, r, kt * kp + k)

/-- What a meta slot must hold for an octet's rows (R369). -/
def metaOk (b : Block) (m fmt rbase kt : Nat) : Bool :=
  match spFind? b.mslots m with
  | none => false
  | some q => passDepth q.fmt == passDepth fmt && q.kt == kt && q.row0 ≤ rbase && rbase + 8 ≤ q.row0 + metaRows q.fmt

/-- The faults of octet o (R353, R358). -/
def mmaFaults (s : State) (e : Issuer) (x : X64) (ring : Option (Nat × Nat × Nat)) (sparse : Bool) (w a row0 kt o : Nat) :
    List (Nat × Nat) :=
  let slots := mmaSlots x sparse o
  let rbase := mmaRow x row0 o
  let lim := pkMarver (launchWord e.l)
  let bad := slots.any fun k => k < lim && match spFind? e.b.marver k with
    | some m => m.fmt != tFmt w
    | none => true
  let bad := bad || (sparse && x.mslot.toNat < pkMeta (launchWord e.l) && !metaOk e.b x.mslot.toNat (tFmt w) rbase kt)
  (if bad then [(0x08, a)] else []) ++ beyond (x.tile.toNat + o + 1) (pkAcc (launchWord e.l)) ++
  slots.flatMap (fun k => beyond (k + 1) lim) ++
  (if sparse then beyond (x.mslot.toNat + 1) (pkMeta (launchWord e.l)) else []) ++
  (mmaCells ring w rbase kt).flatMap fun c => cellFaults s e .read .read c.1 c.2.1 c.2.2

/-! ## Reloads (R380, R503) -/

/-- A loaded slot is reloaded from its source reference; a translation fault leaves it with the fault, a poisoned source is reported
as MLDB reports it (R511). -/
def reloadSlot (s : State) (bid i : Nat) : State :=
  match getBlock s bid with
  | none => s
  | some b =>
    match spFind? b.marver i, getLaunch s b.launch with
    | some m, some l =>
      let w := m.entry.toNat
      let kp := passDepth (tFmt w)
      let tr := fun va => match xlate s l.ctx false .read va with
        | .ok pa => some pa
        | .error _ => none
      let cells := viewCells w (m.ti * kp) kp (m.tj * 128) 128
      let vas := cells.flatMap fun x => (if tStash w then [] else (cellAddr x.1 x.2.1 x.2.2).toList) ++
        (scaleAddr x.1 x.2.1 x.2.2).toList
      let lines := if tStash w then (cells.flatMap fun x => match cellAddr x.1 x.2.1 x.2.2 with
        | some a => boundLines b a (tSize w)
        | none => []).eraseDups else []
      let faults := (vas.filterMap fun a => match xlate s l.ctx false .read a with
        | .error c => some (c, a)
        | .ok _ => none) ++ lines.filterMap fun k => match fillNeed s l.ctx false b k with
          | .error c => some (c, lineVa b k)
          | .ok _ => none
      (match [0x02, 0x01].findSome? fun c => match (faults.filter fun f => f.1 == c).map (·.2) with
          | [] => none
          | as => some (c, minOf as) with
       | some f => setBlock s (putSlot b i { m with pending := false, reload := some f, err := false })
       | none =>
         let s := lines.foldl (fun s k => match getBlock s bid with
           | some b => (match fillNeed s l.ctx false b k with
               | .ok (some pa) => doFill s bid k pa
               | _ => s)
           | none => s) s
         match getBlock s bid with
         | none => s
         | some b =>
           let s := chargeSectors s l.region (vas.filterMap fun a => (tr a).map fun pa => (pa, 1))
           let s := setBlock s (putSlot b i (loadSlot s b (gByte s) tr w m.ti m.tj))
           (match rectPoison s b tr w (m.ti * kp) kp (m.tj * 128) 128 with
            | some a => postMemoryError s l.region b.linear a
            | none => s))
    | _, _ => s

/-- The reload fault of a slot that the issue names (R503). -/
def reloadFault (e : Issuer) (x : X64) (sparse : Bool) (octs : List Nat) : Option (Nat × Nat × Nat) :=
  octs.findSome? fun o => (mmaSlots x sparse o).findSome? fun k =>
    match spFind? e.b.marver k with
    | some m => m.reload.map fun r => (o, r)
    | none => none

/-- The pass of octet o. -/
def mmaPass (s : State) (e : Issuer) (x : X64) (ring : Option (Nat × Nat × Nat)) (sparse : Bool)
    (w row0 kt id o : Nat) : PassOp :=
  let b := (refresh s e).b
  let fmt := tFmt w
  let kp := passDepth fmt
  let rbase := mmaRow x row0 o
  let slots := (mmaSlots x sparse o).map fun k => (spFind? b.marver k).getD { fmt, elems := [], exps := [], entry := 0, ti := 0, tj := 0 }
  let slotAt := fun k => slots.getD (k / kp) { fmt, elems := [], exps := [], entry := 0, ti := 0, tj := 0 }
  let rd := issuerRd s e
  let tr := issuerTr s e
  let q := spFind? b.mslots x.mslot.toNat
  let bRow := fun r k => if sparse then
      sparseRow (match q with | some m => spGet 0 m.nibbles (128 * (r - m.row0) + k / 2) | none => 0) k
    else k
  let aVal := fun r k => match aRow ring w r with
    | none => .fin false 0 0
    | some (v, r') => codeVal fmt (cellRaw b rd tr v r' (kt * kp + k)) (cellExp rd tr v r' (kt * kp + k))
  let rows := (List.range 8).map fun i => (List.range kp).map fun k => (bRow (rbase + i) k, aVal (rbase + i) k)
  let poison := slots.any (fun m => !m.poison.isEmpty) || (sparse && (match q with | some m => m.poison | none => false)) ||
    (mmaCells ring w rbase kt).any fun c => (cellPoison s b tr c.1 c.2.1 c.2.2).isSome
  let (sums, cols, rws) := octetPass (fmt == 1) rows (fun k j => slotVal (slotAt k) (k % kp) j)
    (fun k => (slotAt k).sums.getD (k % kp) 0) poison
  { id, pidx := e.ref.pidx, pos := e.ref.pos, tile := x.tile.toNat + o, kind := if fmt = 1 then .i32 else .f32, sums, cols,
    rows := rws, pc := e.f.pc, lane := 8 * o }

/-- The octets of an issue on each slot: the slot and their number. -/
def slotGroups (x : X64) (sparse : Bool) (octs : List Nat) : List (Nat × Nat) :=
  if x.flags.getLsbD 0 then octs.map fun o => ((mmaSlots x sparse o).headD 0, 1)
  else [(x.slot.toNat, octs.length)]

/-- The octets that still fit the pass under way on a slot, if it is of the same format and kind (R371). -/
def fuseRoom (b : Block) (slot code : Nat) : Nat :=
  match spFind? b.fuse slot with
  | some (c, rows) => if c = code then (128 - rows) / 8 else 0
  | none => 0

/-- The passes that the device forms of n octets on a slot (R371): as it chooses, some join the pass under way, and the others run in
one pass for 16 of them up to one for each; the last of these may be joined later. The passes begun so far go with the state. -/
def formPasses (code : Nat) (x : State × Block × Nat) (g : Nat × Nat) : State × Block × Nat :=
  let (s, b, n) := x
  let (j, s) := choose s (min g.2 (fuseRoom b g.1 code) + 1)
  let rest := g.2 - j
  let lo := ceilDiv (8 * rest) 128
  let (c, s) := choose s (rest - lo + 1)
  let passes := lo + c
  let least := max 1 (rest - 16 * (passes - 1))
  let (k, s) := choose s (min 16 (rest - (passes - 1)) - least + 1)
  let rows := if rest = 0 then (match spFind? b.fuse g.1 with | some (_, r) => r | none => 0) + 8 * j else 8 * (least + k)
  (s, { b with fuse := spSet b.fuse g.1 (code, rows) }, n + passes)

/-- The charges of an issue's passes (R103, R379, R473). -/
def chargePasses (s : State) (e : Issuer) (x : X64) (sparse : Bool) (fmt : Nat) (octs : List Nat) : State :=
  let (s, b, n) := (slotGroups x sparse octs).foldl (formPasses (fmt + 8 * bit sparse)) (s, (refresh s e).b, 0)
  let s := setBlock s { b with passes := b.passes.map fun p =>
    if p.pidx = e.ref.pidx ∧ p.pos = e.ref.pos ∧ p.pc = e.f.pc then { p with fused := n < octs.length } else p }
  let s := count (charge s e.b.core 1 e.l.region n) e.b.core e.l.region 1 n
  count s e.b.core e.l.region 2 (8 * octs.length + n)

/-- The ring operand of an issue: its first slot, its slots, and the ring's size. -/
def ringOpnd (e : Issuer) (x : X64) (ring : Bool) : Option (Nat × Nat × Nat) :=
  if ring then
    match e.b.rings.find? fun r => r.tid == x.tid.toNat with
    | some r => some (uniVal e x.reg, x.cnt.toNat + 1, r.slots.length)
    | none => some (0, 0, 0)
  else none

/-- The first slot of a ring operand that is not valid. -/
def ringMissing (e : Issuer) (x : X64) (ring : Option (Nat × Nat × Nat)) : Option Nat :=
  match ring with
  | none => none
  | some (first, cnt, n) =>
    ((List.range cnt).map fun i => (first + i) % n).find? fun k => !ringReady e.b x.tid.toNat k 0

/-- The slots of an issue in which an uncorrectable error stands. -/
def badSlots (e : Issuer) (x : X64) (sparse : Bool) (octs : List Nat) : List Nat :=
  (octs.flatMap fun o => mmaSlots x sparse o).eraseDups.filter fun k => match spFind? e.b.marver k with
    | some m => m.err
    | none => false

def mmaAct (s : State) (e : Issuer) (x : X64) (isRing sparse : Bool) : Act :=
  match uniCause e [if isRing then opn32 x.reg else coordOpnd x.reg] with
  | some c => .trap (trapAll e [] c)
  | none => matIssue s e noRes fun octs =>
    match entryOf s e x.tid.toNat with
    | .error (c, a) => .trap { trapLanes c (octs.flatMap fun o => (octLanes o).map fun l => (l, a)) with octet := true }
    | .ok (w, a) =>
      let (row0, kt) := if isRing then (0, 0) else coordOf' e x.reg
      let ring := ringOpnd e x isRing
      let use := useFaults w a (tFmt w ≤ 3 && tSparse w == sparse && (!isRing || tStash w))
      let misuse := match ring with
        | some (first, _, n) => if n ≤ first then [(0x0C, 0)] else []
        | none => []
      let pre := use ++ misuse
      match matTrap true octLanes (octs.map fun o =>
          (o, if pre.isEmpty then mmaFaults s e x ring sparse w a row0 kt o else pre)) with
      | some t => .trap t
      | none =>
        if !(badSlots e x sparse octs).isEmpty then
          .own ((badSlots e x sparse octs).foldl (fun s k => reloadSlot s e.ref.blk k) s)
        else
        match reloadFault e x sparse octs with
        | some (_, c, va) =>
          .trap { trapLanes c (octs.flatMap fun o => (octLanes o).map fun l => (l, va)) with octet := true, reload := true }
        | none =>
          if isRing && needsRound e then forceRound s e
          else if isRing && needsTurn s e then .wait .waiting .turn
          else
            match ringMissing e x ring with
            | some k => .wait .waiting (.ring x.tid.toNat k 0)
            | none =>
              if heldAt s e.b.core 1 e.l.region then holdAct s e (e.b.core, 1)
              else matRead s e (octs.flatMap fun o => mmaCells ring w (mmaRow x row0 o) kt) fun s =>
                let ps := octs.mapIdx fun i o => mmaPass s e x ring sparse w row0 kt (s.nextId + i) o
                let b := (refresh s e).b
                let s := setBlock { s with nextId := s.nextId + octs.length } { b with passes := b.passes ++ ps }
                let s := chargePasses s e x sparse (tFmt w) octs
                .ok (if isRing then syncDone s e else s) {}

def execMma (x : X64) (s : State) : Host.Outcome State Fault Refusal :=
  issueOctet s fun e => mmaAct s e x false false

def execMmaRing (x : X64) (s : State) : Host.Outcome State Fault Refusal :=
  issueOctet s fun e => mmaAct s e x true false

def execMmasp (x : X64) (s : State) : Host.Outcome State Fault Refusal :=
  issueOctet s fun e => mmaAct s e x (x.flags.getLsbD 1) true

/-! ## MST (R372 to R374) -/

/-- The group scale of values under scale base b (R373). -/
def groupScale (vs : List FVal) (b : Int) : Int :=
  match vs.filterMap fun v => match v with
    | .fin _ m e => if m = 0 then none else some (e + (bitLen m : Int) - 1)
    | _ => none with
  | [] => 0
  | x :: xs => min 127 (max (-128) (xs.foldl max x - b))

/-- A drained element's stored bits in the destination format (R372). -/
def drainBits (fmt : Nat) (int : Bool) (raw : Nat) (ex : Int) (w : Nat) : Nat :=
  let v := accVal int raw
  if fmt = 4 then (if int then (roundVal fmtF32 .rne v).1 else raw)
  else if fmt = 2 then (roundVal fmtBF16 .rne v).1
  else if fmt = 3 then (roundVal fmtF16 .rne v).1
  else if fmt = 1 then
    (if int then unsig 8 (max (-128) (min 127 (sval 32 raw))) else (cvtInt 8 true .rne v).1)
  else (tf8Round (scaleVal v (-ex)) w).1

/-- The elements, and the scale bytes, that octet o's MST writes. -/
def drainElems (s : State) (e : Issuer) (x : X64) (add : Bool) (w row0 tj o : Nat) : List DrainElem :=
  let t := spGet {} e.b.acc (x.tile.toNat + o)
  let int := t.kind == .i32
  let raw := fun i j => (spGet 0 t.data (128 * i + j)).toNat
  let g := tGroup w
  let gs := fun i j => groupScale ((List.range g).map fun k => accVal int (raw i (j / g * g + k))) (tSbase w)
  let tr := issuerTr s e
  let va := fun a => match xlate s e.l.ctx (inSup e.f) .write a with
    | .ok pa => pa
    | .error _ => 0
  (List.range 8).flatMap fun i =>
    let r := row0 + 8 * o + i
    let elems := (List.range 128).filterMap fun j =>
      let c := tj * 128 + j
      match cellAddr w r c with
      | none => none
      | some a =>
        let ex := if tFmt w = 0 then (if reducesCols w then tSbase w + gs i j else cellExp (issuerRd s e) tr w r c) else 0
        let d := drawW (drawWordsFor s e (2 * o) (8 * o + i) (j / 4)) (j % 4)
        some ({ stash := tStash w, addr := if tStash w then a else va a, size := tSize w,
                value := if add then raw i j else drainBits (tFmt w) int (raw i j) ex d,
                fmt := tFmt w, int, poison := t.poison.contains (128 * i + j) } : DrainElem)
    let scales := if tFmt w = 0 ∧ reducesCols w then
        (List.range (128 / g)).filterMap fun k =>
          (scaleAddr w r (tj * 128 + k * g)).map fun a =>
            ({ stash := false, addr := va a, size := 1, value := unsig 8 (gs i (k * g)), fmt := 1 } : DrainElem)
      else []
    elems ++ scales

/-- The fragments whose octets the issue performs draw once (R214): the issuer's, and those of partners that it finishes. -/
def matDraws (e : Issuer) (octs : List Nat) (p : Pack) : Pack :=
  let done := fun (g : Fragment) => (fragOctets p g).all fun k => octDone g k || octs.contains k
  let others := p.frags.mapIdx fun i g => if i ≠ e.ref.frag ∧ g.st ≠ .free ∧ g.pc = e.f.pc ∧ done g ∧ g.slices ≠ 0 then [g] else []
  (e.f :: others.flatten).foldl (fun p g => advanceDraws { e with f := g } p) p

/-- One octet's drain begins. -/
def drainStart (e : Issuer) (s : State) (x : Bool × List DrainElem) : State :=
  match getBlock s e.ref.blk with
  | none => s
  | some b =>
    let id := s.nextId
    let p := engAdd ((getPack b e.p.pidx e.p.pos).getD e.p) id .drain none
    let inStash := x.2.filter fun d => d.stash
    let b := setPack b p
    let b := match inStash with
      | [] => b
      | d :: ds => scoreAdd b { lo := ds.foldl (fun m y => min m y.addr) d.addr,
                                hi := ds.foldl (fun m y => max m (y.addr + y.size - 1)) (d.addr + d.size - 1), op := some id }
    let o : EngineOp := { id, blk := e.ref.blk, pidx := e.ref.pidx, pos := e.ref.pos, work := .drain x.1 x.2 }
    { setBlock s b with nextId := id + 1, engine := s.engine ++ [o] }

/-- The accumulator elements in error that the octets of an issue read: octet, tile and element (R538). -/
def readErrs (e : Issuer) (x : X64) (octs : List Nat) (sel : Nat → Bool) : List (Nat × Nat × Nat) :=
  octs.flatMap fun o => ((spGet {} e.b.acc (x.tile.toNat + o)).errs.filter sel).map fun k => (o, x.tile.toNat + o, k)

/-- An instruction that reads elements in error (R538): they are poisoned, the event is posted, and it traps with cause 0x0D. -/
def accLost (s : State) (e : Issuer) (errs : List (Nat × Nat × Nat)) : Act :=
  let b := errs.foldl (fun b x => poisonElems b x.2.1 [x.2.2]) e.b
  let s := postEvent (setBlock s b) e.l.region
    (eventRecord 11 0x0D e.l.ctx (packId e.p) 0 e.b.linear e.f.pc.toNat ((errs.headD (0, 0, 0)).2.1 % 128))
  .own (takeTrap s (refresh s e)
    { trapLanes 0x0D ((errs.flatMap fun x => octLanes x.1).map fun l => (l, 0)) with octet := true })

def mstAct (s : State) (e : Issuer) (x : X64) (add : Bool) : Act :=
  match uniCause e [coordOpnd x.reg] with
  | some c => .trap (trapAll e [] c)
  | none => matIssue s e noRes fun octs =>
    match entryOf s e x.tid.toNat with
    | .error (c, a) => .trap { trapLanes c (octs.flatMap fun o => (octLanes o).map fun l => (l, a)) with octet := true }
    | .ok (w, a) =>
      let (row0, tj) := coordOf' e x.reg
      let use := useFaults w a (!tSparse w && (!add || 2 ≤ tFmt w))
      match matTrap true octLanes (octs.map fun o => (o, if use.isEmpty then
            beyond (x.tile.toNat + o + 1) (pkAcc (launchWord e.l)) ++
            rectFaults s e .write (if reducesCols w then .write else .read) w (row0 + 8 * o) 8 (tj * 128) 128
          else use)) with
      | some t => .trap t
      | none =>
        if !tilesQuiet e.b (.tiles (octs.map (x.tile.toNat + ·))) then .wait .pairing (.tiles (octs.map (x.tile.toNat + ·)))
        else if needsRound e then forceRound s e
        else if 255 < classCount e.p .drain + octs.length then .wait .waiting (.room 1 none)
        else if tStash w && Config.scoreEntries < scoreUsed s e.b.core + octs.length then .wait .waiting .entry
        else
          let jobs := octs.map fun o => drainElems s e x add w row0 tj o
          let inStash := (jobs.flatten.filter fun d => d.stash).map fun d => (d.addr, d.size)
          match memHold s e ((jobs.flatten.filter fun d => !d.stash).map (·.addr) ++ fillPas s e.l.ctx (inSup e.f) e.b inStash),
              readErrs e x octs (fun _ => true) with
          | some h, _ => holdAct s e h
          | none, er :: ers => accLost s e (er :: ers)
          | none, [] =>
            let s := fillLines s e inStash
            let s := jobs.foldl (fun s j => drainStart e s (add, j)) s
            .ok (if tFmt w = 0 then putPack s e.ref.blk (matDraws e octs (refresh s e).p) else s) {}

def execMst (x : X64) (s : State) : Host.Outcome State Fault Refusal :=
  issueOctet s fun e => mstAct s e x false

def execMstAdd (x : X64) (s : State) : Host.Outcome State Fault Refusal :=
  issueOctet s fun e => mstAct s e x true

/-! ## MRDA and MWRA (R375) -/

/-- The key of register r of lane i in row `row` of a tile. -/
def rowKey (row i r : Nat) : Nat := 128 * row + 16 * i + r

/-- The sixteen words that lane i receives, as one number. -/
def rowWords (t : AccTile) (row i : Nat) : Nat := joinElems 32 ((List.range 16).map fun r => (spGet 0 t.data (rowKey row i r)).toNat)

def mrdaRes (e : Issuer) (x : X64) (p : Pack) : Retire :=
  let lanes := (fragOctets e.p e.f).flatMap octLanes
  { res := latchOf (dstOf x.reg) lanes (lanes.map fun l => (l, regsVal { e with p := p } x.reg 4 l)) }

/-- The poison check of a read row (R508). -/
def rowPoisoned (t : AccTile) (row : Nat) : Bool := t.poison.any fun k => k / 128 == row

def execMrda (x : X64) (s : State) : Host.Outcome State Fault Refusal :=
  issueOctet s fun e =>
    match dstCause e [] (dstOf x.reg) 16 with
    | some c => .trap (trapAll e [] c)
    | none => matIssue s e (mrdaRes e x) fun octs =>
      let row := x.cnt.toNat
      let tile := fun o => spGet {} e.b.acc (x.tile.toNat + o)
      match matTrap true octLanes (octs.map fun o => (o, beyond (x.tile.toNat + o + 1) (pkAcc (launchWord e.l)))) with
      | some t => .trap t
      | none => afterPasses e (octs.map (x.tile.toNat + ·))
        (match readErrs e x octs (fun k => k / 128 == row), octs.filter fun o => rowPoisoned (tile o) row with
        | er :: ers, _ => accLost s e (er :: ers)
        | [], b :: bs => .trap (trapLanes 0x0E ((b :: bs).flatMap fun o => (octLanes o).map fun l => (l, 0)))
        | [], [] =>
          match x.reg with
          | .v r =>
            let p := octs.foldl (fun p o => (List.range 8).foldl (fun p i =>
              putVRange (inSup e.f) (8 * o + i) r.toNat (rowWords (tile o) row i) 16 p) p) e.p
            .ok (putPack s e.ref.blk p) {}
          | _ => .ok s {})

/-- A row of a tile takes a lane's sixteen words; they are poisoned no more (R507). -/
def putRow (t : AccTile) (row i x : Nat) : AccTile :=
  (List.range 16).foldl (fun t r =>
    let k := rowKey row i r
    { t with data := spPut 0 t.data k (BitVec.ofNat 32 (elem 32 x r)), poison := delNat t.poison k, errs := delNat t.errs k }) t

def execMwra (x : X64) (s : State) : Host.Outcome State Fault Refusal :=
  issueOctet s fun e =>
    match regsCause e (todoOctets e.p e.f |>.flatMap octLanes) x.reg 16 with
    | some c => .trap (trapAll e [] c)
    | none => matIssue s e noRes fun octs =>
      match matTrap true octLanes (octs.map fun o => (o, beyond (x.tile.toNat + o + 1) (pkAcc (launchWord e.l)))) with
      | some t => .trap t
      | none =>
        let acc := octs.foldl (fun acc o =>
          let t := (List.range 8).foldl (fun t i => putRow t x.cnt.toNat i (regsVal e x.reg 16 (8 * o + i)))
            (spGet {} acc (x.tile.toNat + o))
          spPut {} acc (x.tile.toNat + o) t) e.b.acc
        afterPasses e (octs.map (x.tile.toNat + ·)) (.ok (setBlock s { e.b with acc := acc }) {})

/-! ## Tile rings (R376, R377) -/

/-- Whether a fragment of the block waits on a ring. -/
def ringWaiter (b : Block) (tid : Nat) : Bool :=
  b.packs.any fun p => p.frags.any fun f => f.st == .waiting && (match f.wait with | .ring t _ _ => t == tid | _ => false)

/-- The bytes of a stored tensor from its base on (R376). -/
def storedExtent (w : Nat) : Nat := storedAddr w (tRows w - 1) (tRowLen w - 1) + tSize w - tBase w

def execRinginit (x : X64) (s : State) : Host.Outcome State Fault Refusal :=
  issue s 8 .never false fun e =>
    match uniCause e [opn32 x.reg] with
    | some c => .trap (trapAll e [] c)
    | none => matIssue s e noRes fun _ =>
      match entryOf s e x.tid.toNat with
      | .error (c, a) => .trap (trapLanes c ((liveLanes e.p e.f).map fun l => (l, a)))
      | .ok (w, a) =>
        let tid := x.tid.toNat
        let n := uniVal e x.reg
        let others := e.b.rings.filter fun r => r.tid != tid
        let size := (n - 1) * (tRows w * tRowLen w * tSize w) + storedExtent w
        let use := useFaults w a (tFmt w ≤ 3 && tStash w)
        if use.isEmpty && needsTurn s e then .wait .waiting .turn
        else
          let faults := use ++
            (if n < 2 ∨ 64 < n ∨ 8 ≤ others.length ∨ ringWaiter e.b tid then [(0x0C, 0)] else []) ++
            (if stashBytes e.l < tBase w + size then [(0x09, max (tBase w) (stashBytes e.l))] else [])
          match matTrap false (packLanes e) [(0, faults)] with
          | some t => .trap t
          | none =>
            let b := { e.b with rings := others ++ [{ tid, slots := List.replicate n .free }] }
            .ok (syncDone (setBlock s b) e) {}

/-- A ring operation on the slot that its operand names (R377). -/
def ringAct (s : State) (e : Issuer) (x : X64) (k : Nat → Nat → RingSlot → Act) : Act :=
  match uniCause e [opn32 x.reg] with
  | some c => .trap (trapAll e [] c)
  | none => matIssue s e noRes fun _ =>
    if needsTurn s e then .wait .waiting .turn
    else
      let n := uniVal e x.reg
      match e.b.rings.find? fun r => r.tid == x.tid.toNat with
      | none => .trap (trapAll e [] 0x0C)
      | some r =>
        match r.slots[n % 65536]? with
        | none => .trap (trapAll e [] 0x0C)
        | some st => k (n % 65536) (n / 65536 % 2) st

/-- The block with a ring slot in another state. -/
def setRingSlot (b : Block) (tid i : Nat) (st : RingSlot) : Block :=
  { b with rings := b.rings.map fun r => if r.tid = tid then { r with slots := r.slots.set i st } else r }

def execRingput (x : X64) (s : State) : Host.Outcome State Fault Refusal :=
  issue s 8 .never false fun e => ringAct s e x fun i _ st =>
    if st = .valid then .trap (trapAll e [] 0x0C)
    else .ok (syncDone (setBlock s (setRingSlot e.b x.tid.toNat i .valid)) e) {}

def execRingtake (x : X64) (s : State) : Host.Outcome State Fault Refusal :=
  issue s 8 .never false fun e => ringAct s e x fun i mode _ =>
    if ringReady e.b x.tid.toNat i mode then .ok (syncDone s e) {} else .wait .waiting (.ring x.tid.toNat i mode)

def execRingdone (x : X64) (s : State) : Host.Outcome State Fault Refusal :=
  issue s 8 .never false fun e => ringAct s e x fun i _ st =>
    if st ≠ .valid then .trap (trapAll e [] 0x0C)
    else .ok (syncDone (setBlock s (setRingSlot e.b x.tid.toNat i .consumed)) e) {}

/-! ## MSTAT (R378) -/

/-- The value of a selector; zero in a deterministic launch. -/
def mstatVal (e : Issuer) (n : Nat) : Nat :=
  if e.l.det then 0
  else
    match n with
    | 0 => e.b.passCount
    | 1 => e.b.replays % 2 ^ 32
    | _ => (e.b.passes.filter fun q => q.pidx == e.p.pidx && q.pos == e.p.pos).length

/-- The lanes of octets whose lane mask and predicate are set. -/
def octActive (e : Issuer) (pr : Pred) (octs : List Nat) : List Nat :=
  (octs.flatMap octLanes).filter fun l => l < e.p.width && (sliceOf e.p (l / 4)).mask.getLsbD (l % 4) && predTrue e.p pr l

/-- The value that a lane has from MSTAT, as its destination holds it. -/
def mstatSeen (e : Issuer) (g : Gen) (l : Nat) : Nat :=
  if g.nowb then mstatVal e g.opx.toNat
  else match g.dst with
    | .v r => (getV (inSup e.f) e.p l r.toNat).toNat
    | .s r => (getS (inSup e.f) e.p r.toNat).toNat
    | _ => mstatVal e g.opx.toNat

def mstatRes (e : Issuer) (g : Gen) (p : Pack) : Retire :=
  let e := { e with p := p }
  { res := latchOf g.dst (activeLanes e g.pred) ((activeLanes e g.pred).map fun l => (l, mstatSeen e g l)) }

def execMstat (g : Gen) (s : State) : Host.Outcome State Fault Refusal :=
  issue s 8 .never false fun e =>
    match operandCause e (maskLanes e.p e.f) [] g.dst 1 with
    | some c => .trap (trapAll e [] c)
    | none => matIssue s e (mstatRes e g) fun octs =>
      let vals := (octActive e g.pred octs).map fun l => (l, mstatVal e g.opx.toNat)
      .ok (putPack s e.ref.blk (writeBack (inSup e.f) g.dst g.nowb 1 vals e.p)) {}

end Sys2Proof.Machine
end

