-- ==== Sys2Proof/Machine/Expert.lean ====
section
/-! DEFINITION. Expert routing (spec/13 R422 to R434, R441, R445; R528 to R530): scoring and ranking, the source's walk and its
route table, the owner's ingress, micro-batches with their close markers and loads, and tile tasks. -/

namespace Sys2Proof.Machine

/-! ## The gate configuration block (R422, R423) -/

def gE (n : Nat) : Nat := field n 8 0 + 1
def gH (n : Nat) : Nat := 32 * (field n 17 9 + 1)
def gK (n : Nat) : Nat := field n 20 18 + 1
def gL (n : Nat) : Nat := field n 24 21 + 1
def gOrdered (n : Nat) : Bool := n.testBit 25
def gCap (n : Nat) : Nat := field n 63 32
def gWtid (n : Nat) : Nat := field n 71 64
def gWofs (n : Nat) : Nat := field n 87 80
def gErt (n : Nat) : Nat := field n 109 96
def gTclass (n : Nat) : Nat := field n 119 112
def gCidx (n : Nat) : Nat := field n 129 120
def gBias (n : Nat) : Nat := field n 248 192
def gPtab (n : Nat) : Nat := field n 312 256
def gTbuf (n : Nat) : Nat := field n 376 320
def gRmeta (n : Nat) : Nat := field n 440 384
def gFill (n : Nat) : Nat := field n 504 448

/-- The weight range of a slot in the SRAM, in bytes. -/
def gRange (n : Nat) : Nat × Nat := (gWofs n * 65536, gWofs n * 65536 + 2 * gE n * gH n)

def isWindow (va : Nat) : Bool := va / 2 ^ 56 == 1

/-- Every field lies in its values and no reserved bit is set (R425). -/
def gcbOk (n : Nat) : Bool :=
  field n 31 26 == 0 && field n 79 72 == 0 && field n 95 88 == 0 && field n 111 110 == 0 && field n 191 130 == 0 &&
  field n 255 249 == 0 && field n 319 313 == 0 && field n 383 377 == 0 && field n 447 441 == 0 && field n 511 505 == 0 &&
  gK n ≤ gL n && gK n ≤ gE n && 1 ≤ gCap n && gCap n ≤ 2 ^ 20 && (gRange n).2 ≤ 2 ^ 24 && gErt n + gE n ≤ 16384 &&
  gCidx n % 2 == 0 && gBias n % 4 == 0 && gPtab n % 8 == 0 && gTbuf n % 128 == 0 && isWindow (gTbuf n) &&
  gRmeta n % 16 == 0 && isWindow (gRmeta n) && gFill n % 8 == 0 && isWindow (gFill n)

def gCapr (n : Nat) : Nat := ceilDiv (gCap n) 128 * 128

def rowVa (n j e i : Nat) : Nat := gTbuf n + ((j % 2 * gE n + e) * gCapr n + i) * (2 * gH n)
def recordVa (n j e i : Nat) : Nat := gRmeta n + ((j % 2 * gE n + e) * gCapr n + i) * 16
def fillVa (n j e : Nat) : Nat := gFill n + 4 * (j % 2 * gE n + e)

def gateWord (g : GateSlot) : Nat := g.gcb.toNat

/-! ## Scoring and ranking (R426 to R428) -/

/-- The sum of one chunk of products. -/
def chunkSum (xs ws : List (BitVec 16)) : Nat :=
  (passSum ((xs.zip ws).map fun p => (mulVal (fDecode fmtBF16 p.1.toNat) (fDecode fmtBF16 p.2.toNat)).1)).1

/-- The logit of one gate-weight row, in chunks of 32. -/
def logitFrom (acc : Nat) (xs ws : List (BitVec 16)) : Nat → Nat
  | 0 => acc
  | n + 1 => logitFrom (fAdd fmtF32 .rne acc (chunkSum (xs.take 32) (ws.take 32))).1 (xs.drop 32) (ws.drop 32) n

def logits (g : GateSlot) (x : List (BitVec 16)) : List Nat :=
  let h := gH (gateWord g)
  (List.range (gE (gateWord g))).map fun e => logitFrom 0 x ((g.weights.drop (e * h)).take h) (h / 32)

/-- Whether score a of expert i ranks before score b of expert j (R427). -/
def ranksBefore (a i b j : Nat) : Bool :=
  let x := fDecode fmtF32 a
  let y := fDecode fmtF32 b
  if isNan x || isNan y then (!isNan x && isNan y) || (isNan x == isNan y && i < j)
  else fLt y x || (!fLt x y && i < j)

def insertRank (p : Nat × Nat) : List (Nat × Nat) → List (Nat × Nat)
  | [] => [p]
  | q :: l => if ranksBefore p.1 p.2 q.1 q.2 then p :: q :: l else q :: insertRank p l

/-- The ranked list of a token: its L best experts. -/
def rankedList (g : GateSlot) (ls : List Nat) : List Nat :=
  let scores := (ls.zip g.bias).mapIdx fun e x => ((fAdd fmtF32 .rne x.1 x.2.toNat).1, e)
  ((scores.foldr insertRank []).take (gL (gateWord g))).map (·.2)

/-- The routing weights of the chosen experts, from their raw logits. -/
def routeWeights (ls : List Nat) : List Nat :=
  match ls with
  | [] => []
  | x :: r =>
    let m := r.foldl (fun m y => (fMinMax fmtF32 true m y).1) x
    let p := ls.map fun y => (fEx2 fmtF32 .rne (fMul fmtF32 .rne (fSub fmtF32 .rne y m).1 0x3FB8AA3B).1).1
    let t := p.tail.foldl (fun t y => (fAdd fmtF32 .rne t y).1) (p.headD 0)
    p.map fun y => (fDiv fmtF32 .rne y t).1

/-! ## Messages over VC 6 -/

/-- The bytes that a row with its record carries (R447). -/
def rowBytes (r : TokenRow) : Nat := 2 * r.row.length + 16

/-- The flits of a message: a row's carry its payload; the spec gives the form of none, nor the length of the others (log 69). -/
def xFlits : XMsg → Nat
  | .row _ r => (rowBytes r + 55) / 56
  | _ => 1

/-- The link of an expert message, which no rule gives: one that is up, of a live plane, by free choice (log 69). -/
def xLink (s : State) : Option Nat :=
  let ks := (List.range 64).filter fun k => planeLive s (k / 8) && (getLink s k).up
  ks[Config.choice s.free % ks.length]?

/-- A message leaves on virtual channel 6 (R392). -/
def leaveX (s : State) (x : XMsg) : State :=
  let t := { s with xout := s.xout ++ [x] }
  match xLink s with
  | some k => sendOpen t k 0 6 (xFlits x)
  | none => t

/-- What a link brings on that channel. -/
def fromXLink (s : State) (x : XMsg) : State :=
  match xLink s with
  | some k => acceptFlits { s with free := s.free + 1 } k 6 (xFlits x)
  | none => s

/-- A message leaves for its destinations; the device's own copy goes by the loop of R482. -/
def sendX (s : State) (x : XMsg) : State :=
  let self := selfLin s
  let (home, out) : Bool × Bool := match x with
    | .row d _ => (d == self, d != self)
    | .reply d _ => (d == self, d != self)
    | .close ds _ _ _ _ => (ds.contains self, ds.any (· != self))
    | .loads ds _ _ _ => (ds.contains self, ds.any (· != self))
  let s := if home then { s with xloop := s.xloop ++ [x] } else s
  if out then leaveX s x else s

/-! ## The source (R430, R431, R445) -/

def putDispatch (s : State) (d : Dispatch) : State :=
  { s with dispatches := s.dispatches.map fun x => if x.op = d.op then d else x }

def putGate (s : State) (n : Nat) (g : GateSlot) : State := { s with gates := spSet s.gates n g }

def modGate (s : State) (n : Nat) (f : GateSlot → GateSlot) : State :=
  match spFind? s.gates n with
  | none => s
  | some g => putGate s n (f g)

/-- Slot i of a dispatch, changed. -/
def setSlot (d : Dispatch) (i : Nat) (x : SlotState) : Dispatch := { d with slots := d.slots.set i x }

/-- A slot ends with a status; drops and overflow moves are counted (R431, R444). -/
def endSlot (s : State) (d : Dispatch) (i : Nat) (x : SlotState) (status k : Nat) : State :=
  let s := putDispatch s (setSlot d i { x with out := false, settled := true, status })
  modGate s d.gate fun g =>
    { g with drops := g.drops + bit (status == 1 || status == 2), moves := g.moves + bit (status == 0 && k ≤ x.pos) }

/-- The chosen experts of a token: as many as its slots. -/
def chosenCount (d : Dispatch) : Nat := (d.slots.filter fun x => x.token == 0).length

/-- The attempt at which a slot stands is sent to its expert's owner; a linear index without a device cannot be reached. -/
def sendAttempt (s : State) (d : Dispatch) (i : Nat) : State :=
  match d.slots[i]? with
  | none => s
  | some x =>
    match d.tokens[x.token]? with
    | none => s
    | some t =>
      let owner := d.owners.getD x.expert 0
      if gridDevices s ≤ owner then endSlot s d i x 3 (chosenCount d)
      else
        let r : TokenRow :=
          { src := selfLin s, ctx := d.ctx, op := d.op, gate := d.gate, batch := d.batch, token := t.row, slot := x.slot,
            pos := x.pos, expert := x.expert, weight := x.weight, row := t.data, poison := t.poison }
        sendX (chargeFabric (putDispatch s d) d.region (rowBytes r) false) (.row owner r)

/-- The walk of a refused slot (R430): the lowest ranked position below D that no slot of its token has taken, or a drop. -/
def walkSlot (s : State) (d : Dispatch) (i : Nat) : State :=
  match d.slots[i]? with
  | none => s
  | some x =>
    match d.tokens[x.token]? with
    | none => s
    | some t =>
      if t.taken < min d.depth t.ranked.length then
        let x := { x with pos := t.taken, expert := t.ranked.getD t.taken 0, out := true }
        let d := setSlot { d with tokens := d.tokens.set x.token { t with taken := t.taken + 1 } } i x
        sendAttempt s d i
      else endSlot s d i x (if x.kennel then 2 else 1) (chosenCount d)

/-- The slot of a dispatch that an answer is for. -/
def replySlot (d : Dispatch) (r : RowReply) : Option Nat :=
  d.slots.findIdx? fun x => x.out && x.slot == r.slot && (d.tokens[x.token]?).map (·.row) == some r.token

/-- An owner's answer arrives (R430, R431, R445). -/
def rowReply (s : State) (r : RowReply) : State :=
  match s.dispatches.find? fun d => d.op == r.op with
  | none => s
  | some d =>
    match replySlot d r with
    | none => s
    | some i =>
      match d.slots[i]? with
      | none => s
      | some x =>
        match r.answer with
        | .granted _ => endSlot s d i x 0 (chosenCount d)
        | .refused => endSlot s d i x 3 (chosenCount d)
        | a =>
          let d := setSlot d i { x with out := false, kennel := a == .kennel }
          if d.ordered then putDispatch s d else walkSlot s d i

/-- Whether an answer is for an attempt in flight. -/
def replyKnown (s : State) (r : RowReply) : Bool :=
  s.dispatches.any fun d => d.op == r.op && (replySlot d r).isSome

/-- ROW_REFUSAL_RECEIVE (R430, R431). -/
def onRowRefusalReceive (r : RowReply) (s : State) : Option State :=
  let ok := match r.answer with
    | .granted _ => false
    | _ => replyKnown s r
  due ok (rowReply (fromXLink s (.reply (selfLin s) r)) r)

/-- The step of ROW_REFUSAL_RECEIVE. -/
def execRowRefusalReceive (r : RowReply) (s : State) : Host.Outcome State Fault Refusal := occur s (onRowRefusalReceive r s)

/-- ROW_ACCEPTANCE_RECEIVE (R431, R445). -/
def onRowAcceptanceReceive (r : RowReply) (s : State) : Option State :=
  let ok := match r.answer with
    | .granted _ => replyKnown s r
    | _ => false
  due ok (rowReply (fromXLink s (.reply (selfLin s) r)) r)

/-- The step of ROW_ACCEPTANCE_RECEIVE. -/
def execRowAcceptanceReceive (r : RowReply) (s : State) : Host.Outcome State Fault Refusal := occur s (onRowAcceptanceReceive r s)

/-- The 8 bytes of a slot in the route table (R431). -/
def routeEntry (x : SlotState) : Nat :=
  x.expert % 512 + x.pos % 16 * 2 ^ 9 + x.status % 4 * 2 ^ 13 + (if x.status = 0 then x.weight.toNat * 2 ^ 32 else 0)

/-- Every slot accepted or dropped: the route table is written and the operation completes (R431). An operation of a block that
escalation stopped writes nothing (R497). -/
def dispatchDone (s : State) (d : Dispatch) : State :=
  let s := { s with dispatches := s.dispatches.filter fun x => x.op != d.op }
  match getBlock s d.blk with
  | none => s
  | some _ =>
    let s := d.slots.foldl (fun s x =>
      match d.tokens[x.token]? with
      | some t => pagesWrite s d.route (d.routeVa + (t.row - d.r0) * 64 + 8 * x.slot) (leBytes 8 (routeEntry x))
      | none => s) s
    let s := (List.range d.tokens.length).foldl (fun s t =>
      chargeMem s d.region (pagesPa d.route (d.routeVa + 64 * t)) (8 * chosenCount d)) s
    completeAt s d.blk d.pidx d.pos d.op

def onGdispatchComplete (op : Nat) (s : State) : Option State :=
  match s.dispatches.find? fun d => d.op == op with
  | none => none
  | some d => due (d.slots.all fun x => x.settled) (dispatchDone s d)

/-- The step of GDISPATCH_COMPLETE. -/
def execGdispatchComplete (op : Nat) (s : State) : Host.Outcome State Fault Refusal := occur s (onGdispatchComplete op s)

/-! ## Close markers (R432, R445) -/

/-- The dispatches of a micro-batch of a slot. -/
def batchOps (s : State) (slot batch : Nat) : List Dispatch :=
  s.dispatches.filter fun d => d.gate == slot && d.batch == batch

/-- Whether the next marker of a micro-batch may go: unordered, once its dispatches have completed; ordered, for round 0 at once
and for each later round once every answer is in. -/
def markReady (s : State) (slot : Nat) (ordered : Bool) (m : MarkDue) : Bool :=
  let ds := batchOps s slot m.batch
  if ordered then m.sent == 0 || ds.all fun d => d.slots.all fun x => !x.out
  else ds.isEmpty

/-- The refused slots of an ordered micro-batch walk, in ascending token and slot (R445). -/
def walkRound (s : State) (slot batch : Nat) : State :=
  (batchOps s slot batch).foldl (fun s d =>
    (List.range d.slots.length).foldl (fun s i =>
      match s.dispatches.find? fun x => x.op == d.op with
      | none => s
      | some d =>
        match d.slots[i]? with
        | some x => if x.out || x.settled then s else walkSlot s d i
        | none => s) s) s

/-- Whether a row of a micro-batch is unanswered. -/
def batchOut (s : State) (slot batch : Nat) : Bool := (batchOps s slot batch).any fun d => d.slots.any fun x => x.out

def sendMark (s : State) (slot : Nat) (g : GateSlot) (m : MarkDue) : State :=
  let ordered := gOrdered (gateWord g)
  let s := if ordered && m.sent != 0 then walkRound s slot m.batch else s
  let last := !ordered || !batchOut s slot m.batch
  let s := modGate s slot fun g =>
    { g with toClose := if last then g.toClose.tail else { m with sent := m.sent + 1 } :: g.toClose.tail }
  sendX s (.close m.dests slot m.batch (selfLin s) last)

/-- CLOSE_MARKER_SEND (R432 step 3). -/
def onCloseMarkerSend (slot : BitVec 3) (s : State) : Option State :=
  match spFind? s.gates slot.toNat with
  | none => none
  | some g =>
    match g.toClose with
    | [] => none
    | m :: _ =>
      due (markReady s slot.toNat (gOrdered (gateWord g)) m) (sendMark s slot.toNat g m)

/-- The step of CLOSE_MARKER_SEND. -/
def execCloseMarkerSend (slot : BitVec 3) (s : State) : Host.Outcome State Fault Refusal := occur s (onCloseMarkerSend slot s)

/-! ## The owner: batches (R434) -/

def getMb (g : GateSlot) (j : Nat) : Option BatchState := g.batches.find? fun m => m.batch == j

def putMb (g : GateSlot) (m : BatchState) : GateSlot :=
  { g with batches := if g.batches.any fun x => x.batch == m.batch then
      g.batches.map fun x => if x.batch = m.batch then m else x else g.batches ++ [m] }

/-- The physical address of bytes of the expert buffers on the owner, which it writes with the permission of a local write (log 18). -/
def ownerPages (s : State) (ctx va n : Nat) : Except (Nat × Nat) (List (Nat × Nat)) := xlateRange s ctx false .write va n

def fillCount (s : State) (g : GateSlot) (j e : Nat) : Nat :=
  match ownerPages s g.ctx (fillVa (gateWord g) j e) 4 with
  | .ok ps => gReadNat s (pagesPa ps (fillVa (gateWord g) j e)) 4
  | .error _ => 0

/-- The experts of a slot whose owner this device is. -/
def ownExperts (s : State) (g : GateSlot) : List Nat :=
  (List.range (gE (gateWord g))).filter fun e => g.ptab[e]? == some (selfLin s)

/-- The positions of a tile (R441). -/
def tileRows (s : State) (g : GateSlot) (j e q : Nat) : List Nat :=
  ((List.range 128).map fun i => 128 * q + i).filter fun i => i < min (fillCount s g j e) (gCap (gateWord g))

/-- A tile that is still to be spawned: it has rows, not all of them void. -/
def tileDue (s : State) (g : GateSlot) (m : BatchState) (e q : Nat) : Bool :=
  let rows := tileRows s g m.batch e q
  !rows.isEmpty && !m.spawned.contains (e, q) && !rows.all fun i => m.void.contains (e, i)

/-- The tiles of a batch that are still to be spawned. -/
def tilesDue (s : State) (g : GateSlot) (m : BatchState) : List (Nat × Nat) :=
  (ownExperts s g).flatMap fun e =>
    ((List.range (ceilDiv (min (fillCount s g m.batch e) (gCap (gateWord g))) 128)).filter (tileDue s g m e)).map fun q => (e, q)

/-- The close of a batch subtracts once its last tile has spawned (R441). -/
def settleClose (s : State) (slot : Nat) : State :=
  match spFind? s.gates slot with
  | none => s
  | some g =>
    match g.batches.find? fun m => m.closed && !m.closeDone && (tilesDue s g m).isEmpty with
    | none => s
    | some m => counterDown (putGate s slot (putMb g { m with closeDone := true })) g.ctx (gCidx (gateWord g) + m.batch % 2)

def settleCloses (s : State) : State := (List.range 8).foldl settleClose s

/-- A batch closes: the owner multicasts its experts' loads (R433, R434). -/
def closeBatch (s : State) (slot : Nat) (g : GateSlot) (m : BatchState) : State :=
  let s := putGate s slot (putMb g { m with closed := true })
  let ls := (ownExperts s g).map fun e => (e, fillCount s g m.batch e)
  settleClose (if ls.isEmpty then s else sendX s (.loads m.dests slot m.batch ls)) slot

/-- A batch whose tile tasks have all ended, after its close, gives up its bank (R434). -/
def resetReady (m : BatchState) : Bool := m.closeDone && m.live == 0

def resetBank (s : State) (slot : Nat) (g : GateSlot) (m : BatchState) : State :=
  let s := (List.range (gE (gateWord g))).foldl (fun s e =>
    let va := fillVa (gateWord g) m.batch e
    match ownerPages s g.ctx va 4 with
    | .ok ps => gWriteNat s (pagesPa ps va) 4 0
    | .error _ => s) s
  putGate s slot { g with batches := g.batches.filter fun x => x.batch != m.batch }

/-- The batch of a slot that holds a bank. -/
def bankBatch (g : GateSlot) (bank : Nat) : Option BatchState := g.batches.find? fun m => m.batch % 2 == bank

/-- FILL_COUNTER_RESET (R434). -/
def onFillCounterReset (slot : BitVec 3) (bank : BitVec 1) (s : State) : Option State :=
  match spFind? s.gates slot.toNat with
  | none => none
  | some g =>
    match bankBatch g bank.toNat with
    | none => none
    | some m => due (resetReady m) (resetBank s slot.toNat g m)

/-- The step of FILL_COUNTER_RESET. -/
def execFillCounterReset (slot : BitVec 3) (bank : BitVec 1) (s : State) : Host.Outcome State Fault Refusal :=
  occur s (onFillCounterReset slot bank s)

/-- Whether a message of a micro-batch may be taken: its bank is not held by another one that is still at work. -/
def bankFree (s : State) (slot j : Nat) : Bool :=
  match spFind? s.gates slot with
  | none => true
  | some g => g.batches.all fun m => m.batch == j || m.batch % 2 != j % 2 || resetReady m

/-- The bank is given up by the batch before. -/
def openBatch (s : State) (slot j : Nat) : State :=
  match spFind? s.gates slot with
  | none => s
  | some g =>
    let s := match g.batches.find? fun m => m.batch != j && m.batch % 2 == j % 2 with
      | some m => resetBank s slot g m
      | none => s
    modGate s slot fun g => if (getMb g j).isSome then g else putMb g { batch := j }

/-- A close marker arrives (R434, R445): an unordered batch closes with the last of them. -/
def closeMark (s : State) (slot j src : Nat) (last : Bool) (dests : List Nat) : State :=
  let s := openBatch s slot j
  match spFind? s.gates slot with
  | none => s
  | some g =>
    match getMb g j with
    | none => s
    | some m =>
      let m := { m with dests, marks := spPut 0 m.marks src (spGet 0 m.marks src + 1),
                        lasts := if last then insNat m.lasts src else m.lasts }
      if !gOrdered (gateWord g) && dests.all fun d => m.lasts.contains d then closeBatch s slot g m
      else putGate s slot (putMb g m)

def onCloseMarkerReceive (slot : BitVec 3) (batch src : Nat) (last : Bool) (dests : List Nat) (s : State) : Option State :=
  due (!s.unreachable && bankFree s slot.toNat batch && dests.contains src && dests.contains (selfLin s))
    (closeMark (fromXLink s (.close dests slot.toNat batch src last)) slot.toNat batch src last dests)

/-- The step of CLOSE_MARKER_RECEIVE. -/
def execCloseMarkerReceive (slot : BitVec 3) (batch src : Nat) (last : Bool) (dests : List Nat) (s : State) :
    Host.Outcome State Fault Refusal :=
  occur s (onCloseMarkerReceive slot batch src last dests s)

/-! ## The owner: rows (R430, R436, R437, R445, R518) -/

def replyTo (s : State) (r : TokenRow) (a : RowAnswer) : State :=
  sendX s (.reply r.src { op := r.op, token := r.token, slot := r.slot, answer := a })

/-- A refusal of status 3, with its event (R431, R518, R530). -/
def refuseRow (s : State) (r : TokenRow) (code addr : Nat) : State :=
  let e := eventRecord 8 code r.ctx 0 0 r.src r.op addr
  let s := match regionOfCtx s r.ctx with
    | some g => postTo s g.domain e
    | none => { s with hi := { s.hi with mbrefuse := bumpAll s.hi.mbrefuse } }
  replyTo s r .refused

/-- The 16 bytes of a token record (R423). -/
def recordBytes (r : TokenRow) : List Byte :=
  leBytes 4 r.src ++ leBytes 4 r.token ++ leBytes 4 r.weight.toNat ++ [BitVec.ofNat 8 r.slot, BitVec.ofNat 8 r.pos, 0, 0]

/-- Bytes written to the owner's buffers, charged to its region. -/
def ownerWrite (s : State) (rcb : Nat) (ps : List (Nat × Nat)) (va : Nat) (bs : List Byte) : State :=
  let pa := pagesPa ps va
  pagesWrite (chargeMem s rcb pa bs.length) ps va bs

/-- A position that no row takes: nothing is written there. -/
def voidPosition (s : State) (slot j e i : Nat) : State :=
  modBatch s slot (fun m => m.batch == j) fun m => { m with written := (e, i) :: m.written, void := (e, i) :: m.void }

/-- The row and the record are written at a granted position; a row that was read poisoned lands poisoned (R511). -/
def placeRow (s : State) (slot rcb : Nat) (g : GateSlot) (r : TokenRow) (i : Nat) (rows recs : List (Nat × Nat)) : State :=
  let n := gateWord g
  let va := rowVa n r.batch r.expert i
  let s := ownerWrite s rcb rows va (r.row.flatMap fun x => leBytes 2 x.toNat)
  let s := if r.poison then (List.range (2 * gH n)).foldl (fun s k => poisonSector s (pagesPa rows (va + k))) s else s
  let s := ownerWrite s rcb recs (recordVa n r.batch r.expert i) (recordBytes r)
  modBatch s slot (fun m => m.batch == r.batch) fun m => { m with written := (r.expert, i) :: m.written }

/-- What the ranges of an operation raise: permission before absence (R320). -/
def rangeCause (rs : List (Except (Nat × Nat) (List (Nat × Nat)))) : Option (Nat × Nat) :=
  [0x02, 0x01].findSome? fun c => rs.findSome? fun r => match r with
    | .error x => if x.1 = c then some x else none
    | .ok _ => none

/-- A row is granted a position, parks, or is refused (R430, R436, R437). -/
def grantRow (s : State) (slot rcb : Nat) (g : GateSlot) (r : TokenRow) : State :=
  let n := gateWord g
  let fva := fillVa n r.batch r.expert
  let idx := gErt n + r.expert
  match ownerPages s g.ctx fva 4 with
  | .error x => refuseRow s r x.1 fva
  | .ok fp =>
    let pa := pagesPa fp fva
    if gPoisoned s pa 4 then refuseRow s r 0x0E fva
    else
      let (s, i) := memAtomic s pa 4 0 1 0
      if gCap n ≤ i then replyTo s r .full
      else
        match ownerPages s g.ctx (rowVa n r.batch r.expert i) (2 * gH n), ownerPages s g.ctx (recordVa n r.batch r.expert i) 16 with
        | .ok rows, .ok recs =>
          if ertAdmits (ertEntry s idx) then replyTo (placeRow s slot rcb g r i rows recs) r (.granted i)
          else if kennelTakes s (ertEntry s idx) then
            let s := placeRow s slot rcb g r i rows recs
            let s := modBatch s slot (fun m => m.batch == r.batch) fun m => { m with parked := (r.expert, i) :: m.parked }
            let s := park s { slot := r.slot, place := 0, ert := idx, pos := i, bank := r.batch % 2, gate := slot, expert := r.expert }
            replyTo s r (.granted i)
          else replyTo (voidPosition s slot r.batch r.expert i) r .kennel
        | rows, recs =>
          match rangeCause [rows, recs] with
          | some x => refuseRow (voidPosition s slot r.batch r.expert i) r x.1 x.2
          | none => s

/-- A row is held for its round, in frames of the region's pool (R445). -/
def holdRow (s : State) (slot : Nat) (rg : Region) (g : GateSlot) (r : TokenRow) : State :=
  match getMb g r.batch with
  | none => s
  | some m =>
    let k := poolK (poolWord s rg.pool)
    let need := ceilDiv ((m.heldRows.length + 1) * (2 * gH (gateWord g) + 16)) (2 ^ k)
    let put := fun (s : State) (frames : List Nat) =>
      putGate s slot (putMb g { m with heldRows := m.heldRows ++ [r], frames })
    match takeSmalls s rg.pool (need - m.frames.length) with
    | some (s, fs) => put s (fs ++ m.frames)
    | none => refuseRow s r 0x12 (rowVa (gateWord g) r.batch r.expert 0)

/-- A row arrives at the device that owns its expert (R430). -/
def rowArrives (s : State) (r : TokenRow) : State :=
  match spFind? s.gates r.gate, regionOfCtx s r.ctx with
  | some g, some rg =>
    let n := gateWord g
    let t := ertEntry s (gErt n + r.expert)
    let s := chargeFabric s rg.rcb (rowBytes r) true
    if g.ctx ≠ r.ctx ∨ gE n ≤ r.expert ∨ ertCtx t ≠ r.ctx ∨ ertPages t = 0 then refuseRow s r 0x0F 0
    else
      let s := openBatch s r.gate r.batch
      match spFind? s.gates r.gate with
      | none => s
      | some g => if gOrdered n then holdRow s r.gate rg g r else grantRow s r.gate rg.rcb g r
  | _, _ => refuseRow s r 0x0F 0

/-- TOKEN_ROW_RECEIVE (R430). -/
def onTokenRowReceive (r : TokenRow) (s : State) : Option State :=
  due (!s.unreachable && bankFree s r.gate r.batch) (rowArrives (fromXLink s (.row (selfLin s) r)) r)

/-- The step of TOKEN_ROW_RECEIVE. -/
def execTokenRowReceive (r : TokenRow) (s : State) : Host.Outcome State Fault Refusal := occur s (onTokenRowReceive r s)

/-! ## Ordered rounds (R445) -/

def rowBefore (a b : TokenRow) : Bool :=
  a.src < b.src || (a.src == b.src && (a.token < b.token || (a.token == b.token && a.slot ≤ b.slot)))

def insertRow (r : TokenRow) : List TokenRow → List TokenRow
  | [] => [r]
  | x :: l => if rowBefore r x then r :: x :: l else x :: insertRow r l

/-- Every device of gpP has finished the round. -/
def roundReady (m : BatchState) : Bool :=
  !m.closed && !m.dests.isEmpty && m.dests.all fun d => m.lasts.contains d || m.round < spGet 0 m.marks d

/-- A round closes: positions are granted in ascending (source, token row, slot), and the rows beyond are refused. -/
def closeRound (s : State) (slot : Nat) (g : GateSlot) (m : BatchState) : State :=
  let s := putGate s slot (putMb g { m with heldRows := [], frames := [], round := m.round + 1 })
  let s := match regionOfCtx s g.ctx with
    | none => s
    | some rg =>
      let s := m.frames.foldl (giveSmall rg.pool) s
      (m.heldRows.foldr insertRow []).foldl (fun s r =>
        match spFind? s.gates slot with
        | some g => grantRow s slot rg.rcb g r
        | none => s) s
  if m.dests.all fun d => m.lasts.contains d then
    match spFind? s.gates slot with
    | none => s
    | some g =>
      (match getMb g m.batch with
       | some m => closeBatch s slot g m
       | none => s)
  else s

/-- ORDERED_ROUND_CLOSE (R445). -/
def onOrderedRoundClose (slot : BitVec 3) (s : State) : Option State :=
  match spFind? s.gates slot.toNat with
  | none => none
  | some g =>
    match g.batches.find? roundReady with
    | none => none
    | some m => due (gOrdered (gateWord g)) (closeRound s slot.toNat g m)

/-- The step of ORDERED_ROUND_CLOSE. -/
def execOrderedRoundClose (slot : BitVec 3) (s : State) : Host.Outcome State Fault Refusal := occur s (onOrderedRoundClose slot s)

/-! ## Loads and the shadow (R433) -/

/-- sgn as an FP32 pattern. -/
def signF32 (x : Int) : Nat := if x = 0 then 0 else if x < 0 then 0xBF800000 else 0x3F800000

/-- The shadow after a close: B + η × sgn(T − E × load), rounded once. -/
def shadowOf (eta : Nat) (bias : List Word) (loads : List Nat) : List Word :=
  let t : Nat := loads.foldl (fun n x => n + x) 0
  (bias.zip loads).map fun x =>
    BitVec.ofNat 32 (fFma fmtF32 .rne false false eta (signF32 ((t : Int) - (bias.length : Int) * (x.2 : Int))) x.1.toNat).1

/-- The loads of the batch before the current one, if every expert's is in. -/
def allLoads (g : GateSlot) : Option (List Nat) :=
  if g.j = 0 then none
  else
    (List.range (gE (gateWord g))).foldr (fun e acc =>
      match g.loads.find? fun x => x.1 == (g.j - 1, e), acc with
      | some x, some l => some (x.2 :: l)
      | _, _ => none) (some [])

/-- Loads arrive; with the last of them the scorer computes its shadow. -/
def takeLoads (s : State) (slot j : Nat) (ls : List (Nat × Nat)) : State :=
  modGate s slot fun g =>
    let g := { g with loads := g.loads ++ ls.map fun x => ((j, x.1), x.2) }
    match allLoads g with
    | none => g
    | some l =>
      { g with shadow := shadowOf (s.sys.biascfg.toNat % 2 ^ 32) g.bias l, shadowFor := g.j,
               loads := g.loads.filter fun x => g.j ≤ x.1.1 }

/-- LOAD_MULTICAST_RECEIVE (R433). -/
def onLoadMulticastReceive (slot : BitVec 3) (batch : Nat) (loads : List (Nat × Nat)) (s : State) : Option State :=
  due (!s.unreachable && (spFind? s.gates slot.toNat).isSome) (takeLoads (fromXLink s (.loads [selfLin s] slot.toNat batch loads)) slot.toNat batch loads)

/-- The step of LOAD_MULTICAST_RECEIVE. -/
def execLoadMulticastReceive (slot : BitVec 3) (batch : Nat) (loads : List (Nat × Nat)) (s : State) :
    Host.Outcome State Fault Refusal :=
  occur s (onLoadMulticastReceive slot batch loads s)

/-! ## Tile tasks (R441) -/

/-- Argument 0 of a tile task. -/
def tileArg (slot j e q rows : Nat) : DWord :=
  BitVec.ofNat 64 (e % 512 + (rows - 1) % 128 * 2 ^ 9 + q % 2 ^ 24 * 2 ^ 16 + slot % 8 * 2 ^ 40 + j % 2 * 2 ^ 43)

/-- A tile is ready (R441, R445), its expert admits a spawn and another pin (R436), and a task has room (R94). -/
def tileReady (s : State) (g : GateSlot) (m : BatchState) (e q : Nat) : Bool :=
  let rows := tileRows s g m.batch e q
  let n := ertEntry s (gErt (gateWord g) + e)
  (ownExperts s g).contains e && tileDue s g m e q && (rows.length == 128 || m.closed) &&
  (!gOrdered (gateWord g) || m.closed) && (rows.all fun i => m.written.contains (e, i) && !m.parked.contains (e, i)) &&
  ertCtx n == g.ctx && ertAdmits n && ertPins n < 4095 && s.spawns.isEmpty && liveTasks s < Config.maxTasks

/-- The end of a tile task (R441): the pin, the counter, the batch, each of the task's own context (R6). -/
def taskEnd (s : State) (t : TileTask) : State :=
  let s := if ertCtx (ertEntry s t.ert) = t.ctx then ertUnpin s t.ert else s
  let s := counterDown s t.ctx t.counter
  if (spFind? s.gates t.gate).any fun g => g.ctx == t.ctx then
    modBatch s t.gate (fun m => m.batch == t.batch) fun m => { m with live := m.live - 1 }
  else s

/-- A ready tile is spawned; without a registered class of its context the spawn ends at once, as a task end. -/
def spawnTile (s : State) (slot : Nat) (g : GateSlot) (m : BatchState) (e q : Nat) : State :=
  let n := gateWord g
  let t : TileTask := { ctx := g.ctx, gate := slot, batch := m.batch, expert := e, tile := q, ert := gErt n + e,
                        counter := gCidx n + m.batch % 2 }
  let arg := tileArg slot m.batch e q (tileRows s g m.batch e q).length
  let s := counterUp (ertPin s t.ert) g.ctx t.counter
  let s := modBatch s slot (fun x => x.batch == m.batch) fun x => { x with spawned := (e, q) :: x.spawned, live := x.live + 1 }
  let s := if classFor s g.ctx (gTclass n) then startTask s (gTclass n) arg (some t) else taskEnd s t
  settleClose s slot

/-- TILE_SPAWN (R441). -/
def onTileSpawn (slot : BitVec 3) (bank : BitVec 1) (expert tile : Nat) (s : State) : Option State :=
  match spFind? s.gates slot.toNat with
  | none => none
  | some g =>
    match bankBatch g bank.toNat with
    | none => none
    | some m => due (tileReady s g m expert tile) (spawnTile s slot.toNat g m expert tile)

/-- The step of TILE_SPAWN. -/
def execTileSpawn (slot : BitVec 3) (bank : BitVec 1) (expert tile : Nat) (s : State) : Host.Outcome State Fault Refusal :=
  occur s (onTileSpawn slot bank expert tile s)

/-- FETCH_ATTEMPT_FAIL (R528): an expert-tier read answered with an error, a source outside the tier, or an exhausted pool. A batch
whose last rows it discards may have no tile left to spawn. -/
def onFetchAttemptFail (idx : BitVec 14) (s : State) : Option State :=
  let i := idx.toNat
  match runningFetch s i with
  | none => none
  | some f =>
    due true
      (settleCloses (attemptFails s f (srcOk (ertEntry s i) && (fetchFrames s i).isNone)))

/-- The step of FETCH_ATTEMPT_FAIL. -/
def execFetchAttemptFail (idx : BitVec 14) (s : State) : Host.Outcome State Fault Refusal := occur s (onFetchAttemptFail idx s)

/-! ## The device's own messages (R482) -/

/-- Whether a looped-back message may be delivered now. -/
def xReady (s : State) : XMsg → Bool
  | .row _ r => bankFree s r.gate r.batch
  | .close _ slot j _ _ => bankFree s slot j
  | _ => true

def deliverX (s : State) : XMsg → State
  | .row _ r => rowArrives s r
  | .reply _ r => rowReply s r
  | .close ds slot j src last => closeMark s slot j src last ds
  | .loads _ slot j ls => takeLoads s slot j ls

/-- The first looped-back message that may be delivered is. -/
def takeX (s : State) (before : List XMsg) : List XMsg → Option State
  | [] => none
  | x :: l => if xReady s x then some (deliverX { s with xloop := before ++ l } x) else takeX s (before ++ [x]) l

def deliverXloop (s : State) : Option State := takeX s [] s.xloop

end Sys2Proof.Machine
end

