-- ==== Sys2Proof/Machine/ExpertInstr.lean ====
section
/-! DEFINITION. The expert and task instructions (spec/13 R424, R425, R429, R432, R440, R443, R444, R446). -/

namespace Sys2Proof.Machine

/-! ## Operands -/

/-- A later register of a group of s registers. -/
def sPlus (x : Src) (k : Nat) : Src :=
  match x with
  | .s n => .s (n + BitVec.ofNat 6 k)
  | y => y

/-- A uniform 64-bit operand. -/
def uniPair (x : Src) : Opnd := { src := x, ty := .b64, wide := true }

def uniWide (e : Issuer) (x : Src) : Nat := opndVal e (uniPair x) 0

/-- The reads of an instruction that R198 and R104 hold back: the round first, then the memory units. -/
def readHold (s : State) (e : Issuer) (pas : List Nat) : Option Act :=
  if needsRound e then some (forceRound s e)
  else (memHold s e pas).map (holdAct s e)

/-- What the ranges of an instruction raise: permission before absence (R320). -/
def rangeFault (e : Issuer) (rs : List (Except (Nat × Nat) (List (Nat × Nat)))) : Option TrapInfo :=
  (rangeCause rs).map fun x => trapAt e x.1 x.2

/-- The pages of a range that does translate. -/
def rangePages (r : Except (Nat × Nat) (List (Nat × Nat))) : List (Nat × Nat) :=
  match r with
  | .ok ps => ps
  | .error _ => []

/-! ## GATECFG (R425) -/

/-- Two ranges of bytes meet. -/
def rangesMeet (a b : Nat × Nat) : Bool := a.1 < b.2 && b.1 < a.2

/-- Whether the weight range of a block overlaps a slot that a test selects. -/
def overlaps (s : State) (n : Nat) (sel : Nat → GateSlot → Bool) : Bool :=
  s.gates.any fun x => sel x.1 x.2 && rangesMeet (gRange n) (gRange (gateWord x.2))

/-- The gate weights' identifier (R422). -/
def gateTensor (n w : Nat) : Bool :=
  entryOk w && tFmt w == 2 && !tStash w && !tSparse w && !tZord w && !tTrans w && tRows w == gE n && tCols w == gH n

/-- The ranges that a configuration reads: weight rows, bias vector, placement table. -/
def gateRanges (s : State) (e : Issuer) (n w : Nat) : List (Nat × Except (Nat × Nat) (List (Nat × Nat))) :=
  let rd := fun (va len : Nat) => (va, xlateRange s e.l.ctx (inSup e.f) .read va len)
  ((List.range (gE n)).map fun i => rd (storedAddr w i 0) (2 * gH n)) ++ [rd (gBias n) (4 * gE n), rd (gPtab n) (8 * gE n)]

def words16 (bs : List Byte) : Nat → List (BitVec 16)
  | 0 => []
  | n + 1 => BitVec.ofNat 16 (ofLeBytes (bs.take 2)) :: words16 (bs.drop 2) n

/-- The slot that a configuration loads. -/
def loadGate (s : State) (e : Issuer) (n : Nat) (rs : List (Nat × Except (Nat × Nat) (List (Nat × Nat)))) : GateSlot :=
  let at' := fun (i : Nat) => rs.getD i (0, .ok [])
  let bytes := fun (i len : Nat) => pagesRead s (rangePages (at' i).2) (at' i).1 len
  let k := gE n
  let bs := bytes k (4 * k)
  let ps := bytes (k + 1) (8 * k)
  let bias := (List.range k).map fun i => BitVec.ofNat 32 (ofLeBytes ((bs.drop (4 * i)).take 4))
  { ctx := e.l.ctx, region := e.l.region, gcb := BitVec.ofNat 512 n,
    weights := (List.range k).flatMap fun i => words16 (bytes i (2 * gH n)) (gH n),
    bias, shadow := bias, shadowFor := 0,
    ptab := (List.range k).map fun i => ofLeBytes ((ps.drop (8 * i)).take 8) }

/-- The slot takes its configuration; a slot of the same context whose range it overlaps becomes unconfigured. -/
def installGate (s : State) (slot n : Nat) (g : GateSlot) : State :=
  { s with gates := spSet (s.gates.filter fun x => x.1 == slot || !rangesMeet (gRange n) (gRange (gateWord x.2))) slot g }

/-- The configuration block is read: what it is refused for, then its effect. -/
def gateRead (s : State) (e : Issuer) (slot n : Nat) (gp : List (Nat × Nat)) : Act :=
  match entryOf s e (gWtid n) with
  | .error (c, a) => .trap (trapAt e c a)
  | .ok (w, a) =>
    if !gateTensor n w then .trap (trapAt e 0x08 a)
    else if overlaps s n fun _ g => g.ctx != e.l.ctx then .trap (trapAll e [] 0x06)
    else
      let rs := gateRanges s e n w
      match rangeFault e (rs.map (·.2)) with
      | some t => .trap t
      | none =>
        let pages := gp ++ rs.flatMap fun r => rangePages r.2
        match memHold s e (pages.map (·.2)) with
        | some h => holdAct s e h
        | none =>
          let g := loadGate s e n rs
          if strictRace s e (pages.map (·.2)) then .trap (trapAll e [] 0x0A)
          else if g.ptab.any fun x => 2 ^ 20 ≤ x then .trap (trapAll e [] 0x08)
          else
            let len := 64 + 2 * gE n * gH n + 12 * gE n
            .ok (installGate (chargeMem s e.l.region (pagesPa gp (gp.headD (0, 0)).1) len) slot n g) {}

def execGatecfg (g : Gen) (s : State) : Host.Outcome State Fault Refusal :=
  issue s 8 .never false fun e =>
    match uniCause e [uniPair g.a] with
    | some c => .trap (trapAll e [] c)
    | none =>
      let slot := g.opx.toNat % 8
      if needsRound e then forceRound s e
      else if !gateFree s slot then .wait .waiting (.gate slot)
      else
        let va := uniWide e g.a
        match xlateRange s e.l.ctx (inSup e.f) .read va 64 with
        | .error (c, a) => .trap (trapAt e c a)
        | .ok gp =>
          let n := ofLeBytes (pagesRead s gp va 64)
          if !gcbOk n then .trap (trapAt e 0x08 va) else gateRead s e slot n gp

/-! ## GDISPATCH (R429) -/

/-- The token tensor suits the slot, and its rows exist. -/
def tokenTensor (n w r0 k : Nat) : Bool :=
  entryOk w && tFmt w == 2 && !tStash w && !tSparse w && !tZord w && !tTrans w && tCols w == gH n &&
  1 ≤ k && k ≤ 65536 && r0 + k ≤ tRows w

/-- One token: its row, its ranked list with the first k taken. -/
def readToken (s : State) (g : GateSlot) (row va : Nat) (ps : List (Nat × Nat)) : Token :=
  let n := gateWord g
  let data := words16 (pagesRead s ps va (2 * gH n)) (gH n)
  { row, ranked := rankedList g (logits g data), taken := gK n, data, poison := (pagesPoison s ps va (2 * gH n)).isSome }

/-- The slots of a token, at the chosen experts. -/
def tokenSlots (g : GateSlot) (i : Nat) (t : Token) : List SlotState :=
  let chosen := t.ranked.take (gK (gateWord g))
  let ls := logits g t.data
  let ws := routeWeights (chosen.map fun x => ls.getD x 0)
  chosen.mapIdx fun k x => { token := i, slot := k, pos := k, expert := x, weight := BitVec.ofNat 32 (ws.getD k 0) }

/-- The weights of a slot with an error are read again from the weight tensor of its configuration, before the scorer uses them (R510).
The address at which that read fails. -/
def gateAgain (s : State) (e : Issuer) (g : GateSlot) : Except Nat GateSlot :=
  let n := gateWord g
  if !g.err then .ok g
  else
    match entryOf s e (gWtid n) with
    | .error x => .error x.2
    | .ok (w, a) =>
      let rs := (List.range (gE n)).map fun i =>
        let a := storedAddr w i 0
        (a, xlateRange s e.l.ctx (inSup e.f) .read a (2 * gH n))
      match (if gateTensor n w then none else some a), rangeCause (rs.map (·.2)),
          rs.findSome? fun r => pagesPoison s (rangePages r.2) r.1 (2 * gH n) with
      | some a, _, _ => .error a
      | none, some x, _ => .error x.2
      | none, none, some a => .error a
      | none, none, none =>
        .ok { g with err := false,
                     weights := rs.flatMap fun r => words16 (pagesRead s (rangePages r.2) r.1 (2 * gH n)) (gH n) }

/-- The slots of a token that no scorer could score: each ends with status 3, at an expert that the spec does not name (R510). -/
def lostSlots (s : State) (g : GateSlot) (i : Nat) : List SlotState :=
  (List.range (gK (gateWord g))).map fun k =>
    { token := i, slot := k, pos := k, expert := Config.choice (s.free + i * gK (gateWord g) + k) % gE (gateWord g), out := false,
      settled := true, status := 3, weight := 0 }

/-- The dispatch of a slot whose weights are lost: its event, and every slot at status 3 (R510). -/
def dispatchLost (s : State) (e : Issuer) (slot : Nat) (g : GateSlot) (va r0 : Nat) (route : List (Nat × Nat)) (k a : Nat) : State :=
  let d : Dispatch :=
    { op := s.nextId, blk := e.ref.blk, pidx := e.ref.pidx, pos := e.ref.pos, ctx := e.l.ctx, region := e.l.region, gate := slot,
      batch := g.j, ordered := gOrdered (gateWord g), route, routeVa := va, r0, depth := 0, owners := g.ptab,
      tokens := (List.range k).map fun i => { row := r0 + i, ranked := [], taken := 0, data := [], poison := false },
      slots := (List.range k).flatMap (lostSlots s g) }
  let s := postMemoryError { s with free := s.free + k * gK (gateWord g) } e.l.region e.b.linear a
  putPack { s with nextId := s.nextId + 1, dispatches := s.dispatches ++ [d] } e.ref.blk (engAdd (refresh s e).p d.op .grid none)

/-- The dispatch is accepted: its tokens are scored and their rows sent (R426 to R430). -/
def dispatchEffect (s : State) (e : Issuer) (slot : Nat) (g : GateSlot) (va r0 : Nat) (route : List (Nat × Nat))
    (rows : List (Nat × List (Nat × Nat))) : State :=
  let n := gateWord g
  let tokens := rows.mapIdx fun i r => readToken s g (r0 + i) r.1 r.2
  let slots := (tokens.mapIdx (tokenSlots g)).flatten
  let d : Dispatch :=
    { op := s.nextId, blk := e.ref.blk, pidx := e.ref.pidx, pos := e.ref.pos, ctx := e.l.ctx, region := e.l.region, gate := slot,
      batch := g.j, ordered := gOrdered n, route, routeVa := va, r0,
      depth := min (max (s.sys.ovfdepth.toNat % 32) (gK n)) (gL n), owners := g.ptab, tokens, slots }
  let s := rows.foldl (fun s r => chargeMem s e.l.region (pagesPa r.2 r.1) (2 * gH n)) s
  let s := match rows.findSome? fun r => pagesPoison s r.2 r.1 (2 * gH n) with
    | some a => postMemoryError s e.l.region e.b.linear a
    | none => s
  let s := putPack { s with nextId := s.nextId + 1, dispatches := s.dispatches ++ [d] } e.ref.blk
    (engAdd (refresh s e).p d.op .grid none)
  (List.range slots.length).foldl (fun s i =>
    match s.dispatches.find? fun x => x.op == d.op with
    | some d => sendAttempt s d i
    | none => s) s

/-- The checks behind those on the slot. -/
def dispatchAct (s : State) (e : Issuer) (slot : Nat) (g : GateSlot) (w va r0 k : Nat) : Act :=
  let n := gateWord g
  if va % 64 ≠ 0 then .trap (trapAt e 0x04 va)
  else
    let route := xlateRange s e.l.ctx (inSup e.f) .write va (64 * k)
    let rows := (List.range k).map fun i =>
      let a := storedAddr w (r0 + i) 0
      (a, xlateRange s e.l.ctx (inSup e.f) .read a (2 * gH n))
    match rangeFault e (route :: rows.map (·.2)) with
    | some t => .trap t
    | none =>
      match gridStall s e with
      | some a => a
      | none =>
        if markWaits s slot then .wait .waiting (.markDone slot)
        else
          let rs := rows.map fun r => (r.1, rangePages r.2)
          match memHold s e (rs.flatMap fun r => r.2.map (·.2)) with
          | some h => holdAct s e h
          | none =>
            if strictRace s e (rs.flatMap fun r => r.2.map (·.2)) then .trap (trapAll e [] 0x0A)
            else
              match gateAgain s e g with
              | .ok g => .ok (dispatchEffect (putGate s slot g) e slot g va r0 (rangePages route) rs) {}
              | .error a => .ok (dispatchLost s e slot g va r0 (rangePages route) k a) {}

def execGdispatch (g : Gen) (s : State) : Host.Outcome State Fault Refusal :=
  issue s 8 .never false fun e =>
    match firstCause [regsCause e [] g.a 4, uniCause e [opn32 g.b]] with
    | some c => .trap (trapAll e [] c)
    | none =>
      let slot := g.opx.toNat % 8
      let va := uniWide e g.a
      let r0 := uniVal e (sPlus g.a 2)
      let k := uniVal e (sPlus g.a 3)
      let tid := uniVal e g.b
      match spFind? s.gates slot with
      | none => .trap (trapAll e [] 0x08)
      | some gs =>
        if 255 < tid then .trap (trapAll e [] 0x08)
        else
          match entryOf s e tid with
          | .error (c, a) => .trap (trapAt e c a)
          | .ok (w, a) =>
            if !tokenTensor (gateWord gs) w r0 k then .trap (trapAt e 0x08 a)
            else if gs.ctx ≠ e.l.ctx then .trap (trapAll e [] 0x06)
            else if e.l.det && e.l.strict && !gOrdered (gateWord gs) then .trap (trapAll e [] 0x0A)
            else dispatchAct s e slot gs w va r0 k

/-! ## MBMARK (R432) -/

/-- The devices of gpP. -/
def patDevices (s : State) (p : Nat) : List Nat :=
  (List.range (gridDevices s)).filter fun i => patMatches p (selfCoord s) (coordOf s i)

/-- Steps 2 and 3: the flip, its write-back, the micro-batch that ends. -/
def markEffect (s : State) (e : Issuer) (slot : Nat) (g : GateSlot) (p : Nat) : State :=
  let s := putGate s slot { g with bias := g.shadow, j := g.j + 1,
                                   toClose := g.toClose ++ [{ batch := g.j, dests := patDevices s p }] }
  deviceWrite s e.l.region e.l.ctx e.b.linear (gBias (gateWord g)) (g.shadow.flatMap fun x => leBytes 4 x.toNat)

/-- MBMARK; `commit` where it has waited its turn at the scorer. -/
def markAct (s : State) (e : Issuer) (x : Gen) (commit : Bool) : Act :=
  match uniCause e [opn32 x.a] with
  | some c => .trap (trapAll e [] c)
  | none =>
    let slot := x.opx.toNat % 8
    let p := (spGet 0 e.p.gp (uniVal e x.a)).toNat
    if 15 < uniVal e x.a || !patValid s p || patExself p || !patMatches p (selfCoord s) (selfCoord s) then
      .trap (trapAll e [] 0x10)
    else
      match spFind? s.gates slot with
      | none => .trap (trapAll e [] 0x08)
      | some g =>
        if g.ctx ≠ e.l.ctx then .trap (trapAll e [] 0x06)
        else if needsRound e then forceRound s e
        else if (!commit && markWaits s slot) || !markFree s slot then .wait .waiting (.mark slot)
        else .ok (markEffect s e slot g p) {}

def execMbmark (g : Gen) (s : State) : Host.Outcome State Fault Refusal :=
  issue s 8 .never false fun e => markAct s e g false

/-- The MBMARK that waited longest at a slot. -/
def markWaiter (s : State) (slot : Nat) : Option Issuer :=
  match ((allFrags s).filterMap (issuerAt s)).filter fun e => e.f.wait == .mark slot with
  | x :: xs => some (longest x xs)
  | [] => none

/-- MBMARK_COMMIT (R432): the MBMARK that waits takes its step. -/
def onMbmarkCommit (slot : BitVec 3) (s : State) : Option State :=
  match markWaiter s slot.toNat with
  | none => none
  | some e =>
    let s' := wakeFrag s e.ref
    let e' := refresh s' e
    match fetched s' e' with
    | .ok (.mbmark g) => due (markFree s slot.toNat) (finish s' e' 8 (markAct s' e' g true))
    | _ => due true s'

/-- The step of MBMARK_COMMIT. -/
def execMbmarkCommit (slot : BitVec 3) (s : State) : Host.Outcome State Fault Refusal := occur s (onMbmarkCommit slot s)

/-! ## ERTOP (R440) -/

/-- The operands of an ERTOP, the index check and the round of R446. -/
def ertAct (e : Issuer) (g : Gen) (f : Nat → Act) : Act :=
  match uniCause e [opn32 g.a] with
  | some c => .trap (trapAll e [] c)
  | none =>
    let i := uniVal e g.a
    if 16383 < i then .trap (trapAll e [] 0x0C) else f i

/-- An ERTOP on an entry of the issuing region's context. -/
def ertUse (s : State) (e : Issuer) (g : Gen) (f : Nat → Nat → Act) : Act :=
  ertAct e g fun i =>
    let n := ertEntry s i
    if ertCtx n ≠ e.l.ctx then .trap (trapAll e [] 0x06) else f i n

/-- The entry that a define writes: npages, src and dst from its registers, ctx from the issuing region. -/
def definedEntry (e : Issuer) (g : Gen) : Nat :=
  e.l.ctx % 2 ^ 16 * 2 ^ 16 + uniVal e g.b % 2 ^ 16 * 2 ^ 32 + uniVal e (sPlus g.b 1) * 2 ^ 21 * 2 ^ 64 +
  uniWide e (sPlus g.b 2) * 2 ^ 128

/-- What a define raises, in the order of R552. -/
def defineCause (s : State) (e : Issuer) (g : Gen) (i : Nat) : Option Nat :=
  let w := uniVal e g.b
  let src := uniVal e (sPlus g.b 1)
  let dst := uniWide e (sPlus g.b 2)
  if w % 2 ^ 16 = 0 ∨ 2 ^ 16 ≤ w ∨ 2 ^ 31 ≤ src ∨ 2 ^ 57 ≤ dst then some 0x05
  else if dst % 2 ^ 21 ≠ 0 then some 0x04
  else if 16383 < i ∨ ertState (ertEntry s i) ≠ 0 ∨ ertParked (ertEntry s i) ≠ 0 then some 0x0C
  else none

def execErtopDefine (g : Gen) (s : State) : Host.Outcome State Fault Refusal :=
  issue s 8 .never true fun e =>
    match firstCause [uniCause e [opn32 g.a], regsCause e [] g.b 4] with
    | some c => .trap (trapAll e [] c)
    | none =>
      let i := uniVal e g.a
      match defineCause s e g i with
      | some c => .trap (if c = 0x04 then trapAt e c (uniWide e (sPlus g.b 2)) else trapAll e [] c)
      | none => if needsRound e then forceRound s e else .ok (dropDst (putErt s i (definedEntry e g)) (definedEntry e g)) {}

def execErtopFetch (g : Gen) (s : State) : Host.Outcome State Fault Refusal :=
  issue s 8 .never false fun e => ertUse s e g fun i n =>
    if needsRound e then forceRound s e
    else .ok (if ertState n = 0 ∧ ertPages n ≠ 0 then startFetch s i else s) {}

def execErtopEvict (g : Gen) (s : State) : Host.Outcome State Fault Refusal :=
  issue s 8 .never false fun e => ertUse s e g fun i _ =>
    if needsRound e then forceRound s e else .ok (ertEvict s i) {}

/-- A pin of an entry at 4,095 waits until the count falls (R436). -/
def execErtopPin (g : Gen) (s : State) : Host.Outcome State Fault Refusal :=
  issue s 8 .never false fun e => ertUse s e g fun i n =>
    if needsRound e then forceRound s e
    else if ertPins n = 4095 then .wait .waiting .translations
    else .ok (ertPin s i) {}

def execErtopUnpin (g : Gen) (s : State) : Host.Outcome State Fault Refusal :=
  issue s 8 .never false fun e => ertUse s e g fun i n =>
    if ertPins n = 0 then .trap (trapAll e [] 0x0C)
    else if needsRound e then forceRound s e
    else .ok (ertUnpin s i) {}

def execErtopRead (g : Gen) (s : State) : Host.Outcome State Fault Refusal :=
  issue s 8 .never false fun e =>
    match dstCause e (maskLanes e.p e.f) g.dst 2 with
    | some c => .trap (trapAll e [] c)
    | none => ertUse s e g fun _ n =>
      if needsRound e then forceRound s e else sameResult s e g.dst g.nowb 2 (n % 2 ^ 64)

/-! ## TASKDEF and TASKDEP (R443) -/

/-- The value that a TASKDEF leaves: 0, or why the template is refused. -/
def templateReason (s : State) (e : Issuer) (n : Nat) : Nat :=
  match packetReason s (.leaf e.l.region) n with
  | 0 => if pkNbx n = 1 ∧ pkNby n = 1 ∧ pkNbz n = 1 then 0 else 8
  | r => r

/-- A template is registered, or its class unregistered. -/
def putClass (s : State) (e : Issuer) (c n reason : Nat) : State :=
  { s with classes := if reason = 0 then
      spSet s.classes c { ctx := e.l.ctx, region := e.l.region, packet := BitVec.ofNat 1024 n }
    else spDel s.classes c }

def execTaskdef (g : Gen) (s : State) : Host.Outcome State Fault Refusal :=
  issue s 8 .never false fun e =>
    match firstCause [dstCause e (maskLanes e.p e.f) g.dst 1, uniCause e [opn32 g.a, uniPair g.b]] with
    | some c => .trap (trapAll e [] c)
    | none =>
      let c := uniVal e g.a
      let va := uniWide e g.b
      if 255 < c then .trap (trapAll e [] 0x0C)
      else
        match xlateRange s e.l.ctx (inSup e.f) .read va 128 with
        | .error (x, a) => .trap (trapAt e x a)
        | .ok ps =>
          match readHold s e (ps.map (·.2)) with
          | some a => a
          | none =>
            let n := ofLeBytes (pagesRead s ps va 128)
            let r := templateReason s e n
            sameResult (putClass (chargeMem s e.l.region (pagesPa ps va) 128) e c n r) e g.dst g.nowb 1 r

/-- Another context's counter or class (R443). -/
def othersCounter (s : State) (e : Issuer) (n : Nat) : Bool :=
  match (counterAt s n).ctx with
  | some c => c != e.l.ctx
  | none => false

def othersClass (s : State) (e : Issuer) (c : Nat) : Bool :=
  match spFind? s.classes c with
  | some k => k.ctx != e.l.ctx
  | none => false

/-- TASKDEP: operands, its turn (R446), then the change, which gets the counter's number and the value. -/
def depAct (s : State) (e : Issuer) (g : Gen) (f : Nat → Nat → Except Nat State) : Act :=
  let srcs := [opn32 g.a, opn32 g.b] ++ (if g.c == .unused then [] else [opn32 g.c])
  match firstCause [dstCause e (maskLanes e.p e.f) g.dst 1, uniCause e srcs] with
  | some c => .trap (trapAll e [] c)
  | none =>
    if needsTurn s e then .wait .waiting .turn
    else
      let n := uniVal e g.a
      if 1023 < n then .trap (trapAll e [] 0x0C)
      else
        match f n (uniVal e g.b) with
        | .error c => .trap (trapAll e [] c)
        | .ok s' =>
          match sameResult s' e g.dst g.nowb 1 (counterAt s n).value.toNat with
          | .ok s r => .ok (syncDone s e) r
          | a => a

/-- A set takes the counter over, and a set to zero spawns at once. -/
def setCounter (s : State) (e : Issuer) (n v c : Nat) : State :=
  let s := putCounter s n { value := BitVec.ofNat 32 v, cls := some c, ctx := some e.l.ctx }
  if v = 0 then counterZero s n else s

def execTaskdepSet (g : Gen) (s : State) : Host.Outcome State Fault Refusal :=
  issue s 8 .never false fun e => depAct s e g fun n v =>
    let c := uniVal e g.c
    if othersClass s e c then .error 0x06
    else if 255 < c then .error 0x0C
    else .ok (setCounter s e n v c)

def execTaskdepAdd (g : Gen) (s : State) : Host.Outcome State Fault Refusal :=
  issue s 8 .never false fun e => depAct s e g fun n v =>
    if othersCounter s e n then .error 0x06
    else if 2 ^ 32 ≤ (counterAt s n).value.toNat + v then .error 0x0C
    else .ok (counterTo s n ((counterAt s n).value.toNat + v))

def execTaskdepSub (g : Gen) (s : State) : Host.Outcome State Fault Refusal :=
  issue s 8 .never false fun e => depAct s e g fun n v =>
    if othersCounter s e n then .error 0x06
    else if (counterAt s n).value.toNat < v then .error 0x0C
    else .ok (counterTo s n ((counterAt s n).value.toNat - v))

/-! ## KSTAT (R444) -/

/-- What a selector reads, or the cause that it raises. -/
def kstatValue (s : State) (e : Issuer) (sel i : Nat) : Except Nat Nat :=
  if sel = 0 then .ok s.kennel.length
  else if sel ≤ 2 then
    if 16383 < i then .error 0x0C
    else if ertCtx (ertEntry s i) ≠ e.l.ctx then .error 0x06
    else .ok (if sel = 1 then ertParked (ertEntry s i) else ertState (ertEntry s i))
  else if 7 < i then .error 0x0C
  else
    match spFind? s.gates i with
    | none => .ok 0
    | some g =>
      if g.ctx ≠ e.l.ctx then .error 0x06
      else .ok (if sel = 3 then g.drops else if sel = 4 then g.moves else g.j)

def execKstat (g : Gen) (s : State) : Host.Outcome State Fault Refusal :=
  issue s 8 .never false fun e =>
    let srcs := if g.a == .unused then [] else [opn32 g.a]
    match firstCause [dstCause e (maskLanes e.p e.f) g.dst 1, uniCause e srcs] with
    | some c => .trap (trapAll e [] c)
    | none =>
      match kstatValue s e g.opx.toNat (uniVal e g.a) with
      | .error c => .trap (trapAll e [] c)
      | .ok x => sameResult s e g.dst g.nowb 1 ((if e.l.det then 0 else x) % 2 ^ 32)

end Sys2Proof.Machine
end

