-- ==== Sys2Proof/Machine/Launch.lean ====
section
/-! DEFINITION. How the dispatcher accepts or rejects a launch packet (R76, R81, R83, R87, R450, R452, R499), and LAUNCH (R472). -/

namespace Sys2Proof.Machine

/-- The launch that an accepted packet becomes. -/
def makeLaunch (s : State) (p : Pending) (r : Region) : Launch :=
  let n := p.packet.toNat
  let prio := if n.testBit 149 then min r.prio (field n 153 150) else r.prio
  let qlog := if pkQlog n = 0 then s.sys.detq.toNat % 32 else pkQlog n
  { lid := s.nextId, packet := p.packet, region := r.rcb, ctx := r.ctxid, args := BitVec.ofNat 64 (pkArgs n), arg0 := p.arg0,
    det := pkDet n || r.det == 1 || r.det == 2, strict := (pkDet n && pkStrict n) || r.det == 2, prio, quantum := 2 ^ qlog,
    task := p.task, isTask := p.isTask }

/-- A launch-rejected event (kind 1): to the domain of the region that the packet names where that RCB is valid, else to the
issuing launch's; a host queue then stops (R452, R499). -/
def rejectPacket (s : State) (src : LaunchSource) (n reason : Nat) : State :=
  match regionOf s (pkRegion n), src with
  | some r, _ => postEvent s r.rcb (eventRecord 1 reason r.ctxid 0 0 0 0 (pkRegion n))
  | none, .leaf l => postEvent s l (eventRecord 1 reason (rcbCtxid s l) 0 0 0 0 (pkRegion n))
  | none, .queue q _ => stopQueue s q

/-- A packet is accepted or rejected; a tile task that is rejected ends. -/
def acceptPacket (s : State) (p : Pending) : State :=
  let n := p.packet.toNat
  match packetReason s p.source n, packetRegion s p.source n with
  | 0, some r => { s with nextId := s.nextId + 1, launches := s.launches ++ [makeLaunch s p r] }
  | reason, _ =>
    let s := rejectPacket s p.source n reason
    match p.task with
    | some t => taskEnd s t
    | none => s

/-- LAUNCH_ACCEPT (R83, R87): the packet that reached the dispatcher first. -/
def onLaunchAccept (s : State) : Option State :=
  match s.arriving with
  | [] => none
  | p :: l => due true (acceptPacket { s with arriving := l } p)

/-- The step of LAUNCH_ACCEPT. -/
def execLaunchAccept (s : State) : Host.Outcome State Fault Refusal := occur s (onLaunchAccept s)

/-- LAUNCH (R472): the packet is read as a load, and the dispatcher accepts or rejects it before it retires. In a deterministic
launch it reads published state (log 19). -/
def execLaunch (g : Gen) (s : State) : Host.Outcome State Fault Refusal :=
  issue s 8 .never false fun e =>
    match uniCause e [uniPair g.a] with
    | some c => .trap (trapAll e [] c)
    | none =>
      let va := uniWide e g.a
      match xlateRange s e.l.ctx (inSup e.f) .read va 128 with
      | .error (c, a) => .trap (trapAt e c a)
      | .ok ps =>
        match readHold s e (ps.map (·.2)) with
        | some a => a
        | none =>
          let n := ofLeBytes (pagesRead s ps va 128)
          .ok (acceptPacket (chargeMem s e.l.region (pagesPa ps va) 128)
            { packet := BitVec.ofNat 1024 n, source := .leaf e.l.region }) {}

end Sys2Proof.Machine
end

