-- ==== Sys2Proof/Machine/Net.lean ====
section
/-! DEFINITION. The network engine (spec/14 R460 to R471; R531 to R534, R565): work requests, channels, completions, sending and
receiving. -/

namespace Sys2Proof.Machine

/-! ## Work requests and channel entries (R461, R463) -/

def wrOp (n : Nat) : Nat := field n 7 0
def wrCh (n : Nat) : Nat := field n 13 8
def wrRod (n : Nat) : Bool := n.testBit 14
def wrRec (n : Nat) : Bool := n.testBit 15
def wrSeg (n : Nat) : Nat := 1024 * 2 ^ field n 17 16
def wrLen (n : Nat) : Nat := field n 63 32
def wrLaddr (n : Nat) : Nat := field n 120 64
def wrRaddr (n : Nat) : Nat := field n 184 128
def wrRkey (n : Nat) : Nat := field n 223 192
def wrTag (n : Nat) : Nat := field n 319 256
def wrCtr (n : Nat) : Nat := field n 376 320
def wrMask (n : Nat) : Nat := field n 447 384

/-- A reserved bit, or a value outside its field (R464). -/
def wrBad (n : Nat) : Bool :=
  field n 31 18 != 0 || field n 127 121 != 0 || field n 191 185 != 0 || field n 255 224 != 0 || field n 383 377 != 0 ||
  field n 511 448 != 0 || 2 ^ 28 < wrLen n || (wrOp n != 2 && wrOp n != 3 && wrRaddr n != 0)

def ceId (n : Nat) : NeId :=
  { rfa := BitVec.ofNat 128 (field n 127 0), job := BitVec.ofNat 24 (field n 151 128), rpid := BitVec.ofNat 12 (field n 163 152),
    lpid := BitVec.ofNat 12 (field n 175 164) }
def ceValid (n : Nat) : Bool := n.testBit 176
/-- Permission i: send, receive, write, read, launch. -/
def cePerm (n i : Nat) : Bool := n.testBit (177 + i)
def ceKey (n : Nat) : Nat := field n 223 192
def ceAllow (n : Nat) : Nat := field n 255 224
def ceRing (n : Nat) : Nat := field n 312 256
def ceRlog (n : Nat) : Nat := field n 317 313

/-- An entry that CAPSET refuses (R462). -/
def ceBad (n : Nat) : Bool :=
  field n 191 182 != 0 || field n 511 318 != 0 || !(ceRlog n == 0 || (4 ≤ ceRlog n && ceRlog n ≤ 16)) ||
  (ceRlog n != 0 && ceRing n % 32 != 0)

/-! ## Channels -/

def isChan (ctx table ch : Nat) (c : Channel) : Bool := c.ctx == ctx && c.table == table && c.ch == ch

def chanOf (s : State) (ctx table ch : Nat) : Option Channel := s.channels.find? (isChan ctx table ch)

def putChan (s : State) (c : Channel) : State :=
  { s with channels := if s.channels.any (isChan c.ctx c.table c.ch) then
      s.channels.map fun x => if isChan c.ctx c.table c.ch x then c else x else s.channels ++ [c] }

def modChan (s : State) (ctx table ch : Nat) (f : Channel → Channel) : State :=
  { s with channels := s.channels.map fun x => if isChan ctx table ch x then f x else x }

/-- The installed and valid entries of an identity (R467). -/
def hasId (id : NeId) (c : Channel) : Bool := ceValid c.entry.toNat && ceId c.entry.toNat == id

def chanById (s : State) (id : NeId) : Option Channel := s.channels.find? (hasId id)

/-- Whether an entry admits the operation of a segment: its permission, and for an RMA its key (R467, R533). -/
def admits (n : Nat) (g : NeSeg) : Bool :=
  if g.op = 5 then cePerm n 3 else cePerm n (if g.op ≤ 1 then 1 else g.op) && (g.op < 2 || g.rkey == ceKey n)

/-- The entry that a segment matches (R467): one that admits it; where none does, one that refuses it (R533). -/
def chanFor (s : State) (g : NeSeg) : Option Channel :=
  match s.channels.find? fun c => hasId g.id c && admits c.entry.toNat g with
  | some c => some c
  | none => chanById s g.id

/-- What an entry of another identity does not know of: the reads answered. -/
def knownReads (c : Channel) (entry : BitVec 512) : List (Nat × Nat) :=
  if ceId entry.toNat = ceId c.entry.toNat then c.answered else []

/-- Installing an entry (R462) resets its ring's positions. A request accepted before keeps the entry that it had. -/
def installChan (s : State) (ctx table ch region : Nat) (entry : BitVec 512) : State :=
  match chanOf s ctx table ch with
  | some c =>
    putChan s { c with region, entry, rd := 0, wr := 0, ovf := false, answered := knownReads c entry, gen := c.gen + 1,
                       past := (c.gen, c.rd, c.wr) :: c.past }
  | none => putChan s { ctx, table, ch, region, entry }

/-! ## Completions (R466, R468, R471, R565) -/

/-- The 32 bytes of a completion record. -/
def neRecordWord (status fault op ch bytes tag addr : Nat) : Nat :=
  status + fault * 2 ^ 8 + op % 2 ^ 8 * 2 ^ 16 + ch % 64 * 2 ^ 24 + bytes % 2 ^ 32 * 2 ^ 32 + tag % 2 ^ 64 * 2 ^ 64 +
  addr % 2 ^ 64 * 2 ^ 128

/-- The counter rises by one, through the translation of the request's issue (R464, R466). -/
def neCount (s : State) (rcb ctx va : Nat) (ctr : Option Nat) : State :=
  match ctr with
  | none => s
  | some pa =>
    if cutOff s pa then postEvent s rcb (eventRecord 13 0x0E ctx 0 0 0 0 va)
    else (memAtomic (chargeMem s rcb pa 8) pa 8 0 1 0).1

/-- The read and write positions of an installation's ring. -/
def ringPos (c : Channel) (gen : Nat) : Nat × Nat :=
  if c.gen = gen then (c.rd, c.wr) else ((c.past.find? fun x => x.1 == gen).map fun x => x.2).getD (0, 0)

/-- One more record has been written to it. -/
def ringWrote (c : Channel) (gen : Nat) : Channel :=
  if c.gen = gen then { c with wr := c.wr + 1 }
  else { c with past := c.past.map fun x => if x.1 = gen then (x.1, x.2.1, x.2.2 + 1) else x }

/-- A record goes to the ring of the entry that its request was accepted with, if it has room; a full ring loses it (R462, R468). -/
def neRecord (s : State) (ctx table ch : Nat) (entry : BitVec 512) (gen word : Nat) : State :=
  match chanOf s ctx table ch with
  | none => s
  | some c =>
    let n := entry.toNat
    let (rd, wr) := ringPos c gen
    if ceRlog n = 0 then s
    else if 2 ^ ceRlog n ≤ wr - rd then (if c.gen = gen then putChan s { c with ovf := true } else s)
    else deviceWrite (putChan s (ringWrote c gen)) c.region ctx 0 (ceRing n + 32 * (wr % 2 ^ ceRlog n)) (leBytes 32 word)

/-- The bytes that a sender's request has moved. -/
def sentBytes (q : NeReq) : Nat :=
  let n := q.wr.toNat
  let size := fun (i : Nat) => min (wrSeg n) (wrLen n - i * wrSeg n)
  if wrOp n = 3 then (q.placed.map size).sum else ((q.segs.filter fun g => g.acked).map fun g => size g.part).sum

/-- A request of NPOST completes (R466): counter, record, outstanding bytes, network counter. -/
def finishSend (s : State) (q : NeReq) (status fault : Nat) : State :=
  let n := q.wr.toNat
  let s := { s with sends := s.sends.filter fun x => x.op != q.op }
  let s := neCount s q.region q.ctx (wrCtr n) q.ctr
  let bytes := if status = 1 then wrLen n else sentBytes q
  let s := if wrRec n then
      neRecord s q.ctx q.table (wrCh n) q.entry q.gen (neRecordWord status fault (wrOp n) (wrCh n) bytes (wrTag n) (wrLaddr n))
    else s
  let s := if q.begun then modChan s q.ctx q.table (wrCh n) fun c => { c with out := c.out - wrLen n } else s
  completeAt s q.blk q.pidx q.pos q.op

/-- The arms of a context that a received tag fires (R471). DESIGN CHOICE (log 71): these alone fire, since no rule gives how a tagged
grid message does (R86). -/
def fireArms (s : State) (ctx : Nat) (tag : BitVec 64) (addr : Nat) : State :=
  let hit := fun (a : Arm) => a.ctx == ctx && tag &&& a.mask == a.tag &&& a.mask
  { s with arriving := s.arriving ++ (s.arms.filter hit).map fun a =>
             { packet := a.packet, source := .leaf a.region, arg0 := some (BitVec.ofNat 64 addr) },
           arms := s.arms.filter fun a => !hit a || a.keep }

/-- A receive completes: counter, the arms that it fires, record (R466, R467, R471). -/
def finishRecv (s : State) (r : NeRecv) (status fault : Nat) : State :=
  let n := r.wr.toNat
  let s := { s with receives := s.receives.filter fun x => x.op != r.op }
  let s := neCount s r.region r.ctx (wrCtr n) r.ctr
  let s := if r.msg.isSome && cePerm r.entry.toNat 4 then fireArms s r.ctx r.tag (wrLaddr n) else s
  let tag := if r.msg.isSome then r.tag.toNat else wrTag n
  if wrRec n then
    neRecord s r.ctx r.table (wrCh n) r.entry r.gen (neRecordWord status fault 4 (wrCh n) r.bytes tag (wrLaddr n))
  else s

/-! ## Sending (R465, R466, R531) -/

def livePorts (s : State) : List Nat := (List.range 8).filter fun i => s.livePorts.getLsbD i

/-- Payload bytes of a region over the network (R103, R473). -/
def chargeNet (s : State) (rcb n : Nat) (received : Bool) : State :=
  count (charge s unitNet 6 rcb n) unitNet rcb (if received then 10 else 9) n

def putReq (s : State) (q : NeReq) : State := { s with sends := s.sends.map fun x => if x.op = q.op then q else x }

/-- The segments of a request: one for a read. -/
def reqParts (n : Nat) : Nat := if wrOp n = 3 then 1 else max 1 (ceilDiv (wrLen n) (wrSeg n))

/-- The bytes of a segment: place and number. -/
def segSpan (n part : Nat) : Nat × Nat :=
  if wrOp n = 3 then (0, 0) else (part * wrSeg n, min (wrSeg n) (wrLen n - part * wrSeg n))

/-- A segment goes out on its port, its bytes read anew. -/
def sendSeg (s : State) (q : NeReq) (g : SegState) : State :=
  let n := q.wr.toNat
  let (off, len) := segSpan n g.part
  let seg : NeSeg :=
    { id := ceId q.entry.toNat, op := wrOp n, rod := wrRod n, psn := g.psn, msg := q.op, part := g.part, nparts := reqParts n,
      offset := off, total := wrLen n, size := wrSeg n, tag := if wrOp n = 1 then BitVec.ofNat 64 (wrTag n) else 0,
      raddr := wrRaddr n, rkey := wrRkey n, data := pagesRead s q.pages (wrLaddr n + off) len }
  let s := chargeNet (chargePages s q.region q.pages (wrLaddr n + off) len) q.region len false
  { s with netOut := s.netOut ++ [.segment ((livePorts s).getD g.port 0) seg] }

/-- The first poisoned byte of what a request sends. -/
def reqPoison (s : State) (q : NeReq) (g : SegState) : Bool :=
  let (off, len) := segSpan q.wr.toNat g.part
  (pagesPoison s q.pages (wrLaddr q.wr.toNat + off) len).isSome

/-- A request of a channel may start (R465): it is the oldest that waits, and its bytes fit the allowance; the region is not held
at the engine or where its bytes lie (R104), and a port is live. -/
def sendReady (s : State) (q : NeReq) : Bool :=
  let n := q.wr.toNat
  let mine := fun (x : NeReq) => x.ctx == q.ctx && x.table == q.table && wrCh x.wr.toNat == wrCh n
  !q.begun && ((s.sends.filter fun x => mine x && !x.begun).map (·.op)).head? == some q.op && s.livePorts != 0 &&
  !heldAt s unitNet 6 q.region && (wrOp n == 3 || (heldAmong s q.region (q.pages.map fun p => p.2)).isNone) &&
  match chanOf s q.ctx q.table (wrCh n) with
  | some c => c.out + wrLen n ≤ ceAllow q.entry.toNat
  | none => false

/-- A request starts: its segments leave over the live ports in turn. One that reads poisoned bytes fails (R511). -/
def startSend (s : State) (q : NeReq) : State :=
  let n := q.wr.toNat
  let k := reqParts n
  if (pagesPoison s q.pages (wrLaddr n) (if wrOp n = 3 then 0 else wrLen n)).isSome then finishSend s q 3 0x0E
  else
    match chanOf s q.ctx q.table (wrCh n) with
    | none => s
    | some c =>
      let p := (livePorts s).length
      let segs : List SegState := (List.range k).map fun i =>
        { part := i, psn := c.psn + i, port := (c.start + i) % p, sentAt := s.nextId + i }
      let q := { q with begun := true, segs }
      let s := putChan s { c with out := c.out + wrLen n, psn := c.psn + k, start := (c.start + k) % p }
      segs.foldl (fun s g => sendSeg s q g) (putReq { s with nextId := s.nextId + k } q)

/-- NPOST_START (R465). -/
def onNpostStart (op : Nat) (s : State) : Option State :=
  match s.sends.find? fun q => q.op == op with
  | none => none
  | some q => due (sendReady s q) (startSend s q)

/-- The step of NPOST_START. -/
def execNpostStart (op : Nat) (s : State) : Host.Outcome State Fault Refusal := occur s (onNpostStart op s)

/-- A request fails: the receiver is told, and nothing more of it is sent. -/
def failSend (s : State) (q : NeReq) (status fault : Nat) : State :=
  finishSend { s with netOut := s.netOut ++ [.abort (ceId q.entry.toNat) q.op] } q status fault

/-- One segment is sent again (R465, R531): on the next port, or its request fails after seven times. -/
def resend (s : State) (q : NeReq) (g : SegState) (counted : Bool) : State :=
  if counted ∧ 7 ≤ g.resent then failSend s q 4 0
  else if reqPoison s q g then failSend s q 3 0x0E
  else
    let p := (livePorts s).length
    let g := { g with resent := g.resent + bit counted, port := (g.port + 1) % p, sentAt := s.nextId, later := [] }
    let q := { q with segs := q.segs.map fun x => if x.part = g.part then g else x }
    sendSeg (putReq { s with nextId := s.nextId + 1 } q) q g

/-- A segment of a request that is still unacknowledged, for a request by its number. -/
def openSeg (s : State) (op part : Nat) : Option (NeReq × SegState) :=
  (s.sends.find? fun q => q.op == op && q.begun).bind fun q =>
    (q.segs.find? fun g => g.part == part && !g.acked).map fun g => (q, g)

/-- NE_RETRANSMIT_TIMEOUT (R531). -/
def onNeRetransmitTimeout (op part : Nat) (s : State) : Option State :=
  match openSeg s op part with
  | none => none
  | some (q, g) => due (s.livePorts != 0) (resend s q g true)

/-- The step of NE_RETRANSMIT_TIMEOUT. -/
def execNeRetransmitTimeout (op part : Nat) (s : State) : Host.Outcome State Fault Refusal :=
  occur s (onNeRetransmitTimeout op part s)

/-- NE_NOT_READY_RECEIVE (R467): the segments not acknowledged are sent again; the retries of R531 do not count it. -/
def onNeNotReadyReceive (op : Nat) (s : State) : Option State :=
  match s.sends.find? fun q => q.op == op && q.begun with
  | none => none
  | some q =>
    due (s.livePorts != 0) ((q.segs.filter fun g => !g.acked).foldl (fun s g =>
      match openSeg s op g.part with
      | some x => resend s x.1 x.2 false
      | none => s) s)

/-- The step of NE_NOT_READY_RECEIVE. -/
def execNeNotReadyReceive (op : Nat) (s : State) : Host.Outcome State Fault Refusal := occur s (onNeNotReadyReceive op s)

/-- The requests of a channel in flight whose entry has an identity: that which they were accepted with (R462). -/
def chanReqs (s : State) (c : Channel) (id : NeId) : List NeReq :=
  s.sends.filter fun q => q.begun && isChan q.ctx q.table (wrCh q.wr.toNat) c && ceId q.entry.toNat == id

/-- One segment is reported received: it is acknowledged, and the missing ones sent before it take note (R531). -/
def reportSeg (s : State) (c : Channel) (id : NeId) (psn : Nat) : State :=
  match (chanReqs s c id).findSome? fun q => (q.segs.find? fun g => g.psn == psn && !g.acked && wrOp q.wr.toNat != 3) with
  | none => s
  | some g =>
    let qs := (chanReqs s c id).map fun q => { q with segs := q.segs.map fun x =>
      if x.psn = psn ∧ x.sentAt = g.sentAt then { x with acked := true }
      else if !x.acked && x.sentAt < g.sentAt then { x with later := insNat x.later psn } else x }
    qs.foldl putReq s

/-- Segments that three later ones were reported ahead of are sent again. -/
def resendLost (s : State) (c : Channel) (id : NeId) : State :=
  (chanReqs s c id).foldl (fun s q => q.segs.foldl (fun s g =>
    match openSeg s q.op g.part with
    | some x => if 3 ≤ x.2.later.length then resend s x.1 x.2 true else s
    | none => s) s) s

/-- An acknowledgement (R466, R531), or the refusal of a whole message (R533): of a read of poisoned bytes, status 3 (R511). -/
def ackArrives (s : State) (c : Channel) (a : NeAck) : State :=
  let s := match a.refusal with
    | some (msg, fault) =>
      (match (chanReqs s c a.id).find? fun q => q.op == msg with
       | some q => finishSend s q (if fault = 0x0E then 3 else 2) fault
       | none => s)
    | none => s
  let s := resendLost (a.received.foldl (fun s p => reportSeg s c a.id p) s) c a.id
  (chanReqs s c a.id).foldl (fun s q =>
    if wrOp q.wr.toNat != 3 && q.segs.all fun g => g.acked then finishSend s q 1 0 else s) s

/-- Whether an acknowledgement is for a request. -/
def ackFor (a : NeAck) (q : NeReq) : Bool :=
  (a.refusal.any fun x => x.1 == q.op) || q.segs.any fun g => !g.acked && a.received.contains g.psn

/-- The channel that an acknowledgement is for: one with such a request, else an installed one. -/
def ackChan (s : State) (a : NeAck) : Option Channel :=
  match s.channels.find? fun c => (chanReqs s c a.id).any (ackFor a) with
  | some c => some c
  | none => chanById s a.id

/-- NE_ACK_RECEIVE. -/
def onNeAckReceive (a : NeAck) (s : State) : Option State :=
  match ackChan s a with
  | none => none
  | some c => due (s.livePorts != 0) (ackArrives s c a)

/-- The step of NE_ACK_RECEIVE. -/
def execNeAckReceive (a : NeAck) (s : State) : Host.Outcome State Fault Refusal := occur s (onNeAckReceive a s)

/-! ## Receiving (R467, R533) -/

/-- The numbers from the lowest not taken on. -/
def rxSettle : Nat → Channel → Channel
  | 0, c => c
  | n + 1, c =>
    if c.rxSeen.contains c.rxNext then rxSettle n { c with rxNext := c.rxNext + 1, rxSeen := delNat c.rxSeen c.rxNext } else c

def rxTake (c : Channel) (psn : Nat) : Channel :=
  let c := { c with rxSeen := insNat c.rxSeen psn }
  let c := rxSettle c.rxSeen.length c
  { c with spans := c.spans.filter fun x => c.rxNext < x.2.1 + x.2.2.1 }

def rxTaken (c : Channel) (psn : Nat) : Bool := psn < c.rxNext || c.rxSeen.contains psn

/-- The number of a message among the spans: those of the peer, and the answers to this device's reads. -/
def spanKey (g : NeSeg) : Nat := 2 * g.msg + bit (g.op == 5)

/-- A message of which a segment has come. -/
def noteSpan (c : Channel) (g : NeSeg) : Channel :=
  if c.spans.any fun x => x.1 == spanKey g then c else { c with spans := (spanKey g, g.psn - g.part, g.nparts, g.rod) :: c.spans }

/-- A lower number of a RUD message begun. -/
def inRud (c : Channel) (psn : Nat) : Bool := c.spans.any fun x => !x.2.2.2 && x.2.1 ≤ psn && psn < x.2.1 + x.2.2.1

/-- A segment must be held: one of a ROD message while a lower number is missing that belongs to no RUD message begun, another one while
a missing lower number belongs to a ROD message begun (R467; log 20). -/
def rxHolds (c : Channel) (g : NeSeg) : Bool :=
  if g.rod then (List.range (g.psn - c.rxNext)).any fun i => !rxTaken c (c.rxNext + i) && !inRud c (c.rxNext + i)
  else c.spans.any fun x => x.2.2.2 && (List.range x.2.2.1).any fun i => x.2.1 + i < g.psn && !rxTaken c (x.2.1 + i)

/-- No segment of a message of the peer is awaited any more. -/
def dropMessage (c : Channel) (msg : Nat) : Channel :=
  let nums := (c.spans.filter fun x => x.1 == 2 * msg).flatMap fun x => (List.range x.2.2.1).map fun i => x.2.1 + i
  (nums.filter fun k => !rxTaken c k).foldl rxTake { c with heldSegs := c.heldSegs.filter fun g => g.msg != msg || g.op == 5 }

/-- The receive that a message has taken. -/
def recvOf (s : State) (c : Channel) (msg : Nat) : Option NeRecv :=
  s.receives.find? fun r => isChan r.ctx r.table (wrCh r.wr.toNat) c && r.msg == some msg

/-- The oldest pending receive that a message's tag matches. -/
def recvFor (s : State) (c : Channel) (tag : BitVec 64) : Option NeRecv :=
  s.receives.find? fun r =>
    isChan r.ctx r.table (wrCh r.wr.toNat) c && r.msg.isNone &&
    tag &&& BitVec.ofNat 64 (wrMask r.wr.toNat) == BitVec.ofNat 64 (wrTag r.wr.toNat) &&& BitVec.ofNat 64 (wrMask r.wr.toNat)

def putRecv (s : State) (r : NeRecv) : State := { s with receives := s.receives.map fun x => if x.op = r.op then r else x }

/-- A whole message is refused (R533): the receive completes with status 2, and the sender is told. -/
def refuseMsg (s : State) (c : Channel) (g : NeSeg) (fault : Nat) : State :=
  let s := match recvOf s c g.msg with
    | some r => finishRecv s r 2 fault
    | none => s
  let s := modChan s c.ctx c.table c.ch fun c => { dropMessage c g.msg with refused := g.msg :: c.refused }
  { s with netOut := s.netOut ++ [.refuse g.id g.msg fault] }

/-- A segment has been taken: its number, and its acknowledgement. -/
def tookSeg (s : State) (c : Channel) (g : NeSeg) : State :=
  let s := modChan s c.ctx c.table c.ch fun c => rxTake c g.psn
  { s with netOut := s.netOut ++ [.ack g.id g.psn] }

/-- A segment of a message is placed in the receive that it has taken; with its last segment the receive completes. -/
def placeSeg (s : State) (c : Channel) (r : NeRecv) (g : NeSeg) : State :=
  let n := r.wr.toNat
  let bs := g.data.take (wrLen n - g.offset)
  let s := chargePages s r.region r.pages (wrLaddr n + g.offset) bs.length
  let s := chargeNet (pagesWrite s r.pages (wrLaddr n + g.offset) bs) r.region bs.length true
  let r := { r with msg := some g.msg, tag := if g.op = 1 then g.tag else 0, placed := g.part :: r.placed, nparts := g.nparts,
                    bytes := r.bytes + bs.length, total := g.total }
  let s := tookSeg (putRecv s r) c g
  if g.nparts ≤ r.placed.length then finishRecv s r (if wrLen n < g.total then 6 else 1) 0 else s

/-- One segment of a read's answer leaves. -/
def answerSeg (c : Channel) (g : NeSeg) (ps : List (Nat × Nat)) (k first : Nat) (s : State) (i : Nat) : State :=
  match chanOf s c.ctx c.table c.ch with
  | none => s
  | some c =>
    let len := min g.size (g.total - i * g.size)
    let port := (livePorts s).getD (c.start % (livePorts s).length) 0
    let seg : NeSeg := { g with op := 5, psn := first + i, part := i, nparts := k, offset := i * g.size,
                                data := pagesRead s ps (g.raddr + i * g.size) len }
    let s := putChan (chargeNet (chargePages s c.region ps (g.raddr + i * g.size) len) c.region len false)
      { c with start := (c.start + 1) % (livePorts s).length }
    { s with netOut := s.netOut ++ [.segment port seg] }

/-- The returned bytes of a read leave, in segments of the request's size; a read that comes again is answered under the same
numbers (R531). -/
def answerRead (s : State) (c : Channel) (g : NeSeg) (ps : List (Nat × Nat)) : State :=
  let k := max 1 (ceilDiv g.total g.size)
  match c.answered.find? fun x => x.1 == g.msg with
  | some x => (List.range k).foldl (answerSeg c g ps k x.2) s
  | none =>
    let s := modChan s c.ctx c.table c.ch fun c => { c with psn := c.psn + k, answered := (g.msg, c.psn) :: c.answered }
    (List.range k).foldl (answerSeg c g ps k c.psn) s

/-- An RMA write or read acts at raddr in the receiving entry's context (R467, R533). -/
def rmaSeg (s : State) (c : Channel) (g : NeSeg) : State :=
  if g.op = 2 then
    match xlateRange s c.ctx false .write (g.raddr + g.offset) g.data.length with
    | .error (x, _) => refuseMsg s c g x
    | .ok ps =>
      let s := chargePages s c.region ps (g.raddr + g.offset) g.data.length
      tookSeg (chargeNet (pagesWrite s ps (g.raddr + g.offset) g.data) c.region g.data.length true) c g
  else
    match xlateRange s c.ctx false .read g.raddr g.total with
    | .error (x, _) => refuseMsg s c g x
    | .ok ps =>
      if (pagesPoison s ps g.raddr g.total).isSome then refuseMsg s c g 0x0E
      else answerRead (modChan s c.ctx c.table c.ch fun c => rxTake c g.psn) c g ps

/-- The returned bytes of a read are placed; with the last of them the request completes (R466). -/
def readBack (s : State) (c : Channel) (g : NeSeg) : State :=
  let s := tookSeg s c g
  match (chanReqs s c g.id).find? fun q => q.op == g.msg && wrOp q.wr.toNat == 3 with
  | none => s
  | some q =>
    if q.placed.contains g.part then s
    else
      let n := q.wr.toNat
      let bs := g.data.take (wrLen n - g.offset)
      let s := chargePages s q.region q.pages (wrLaddr n + g.offset) bs.length
      let s := chargeNet (pagesWrite s q.pages (wrLaddr n + g.offset) bs) q.region bs.length true
      let q := { q with placed := g.part :: q.placed }
      if max 1 (ceilDiv (wrLen n) (wrSeg n)) ≤ q.placed.length then finishSend s q 1 0 else putReq s q

/-- A segment in its turn: the checks of R533, then its placement. -/
def takeSeg (s : State) (c : Channel) (g : NeSeg) : State :=
  let n := c.entry.toNat
  if g.op = 5 then readBack s c g
  else if c.refused.contains g.msg then modChan s c.ctx c.table c.ch fun c => rxTake c g.psn
  else if !admits n g then refuseMsg s c g 0x07
  else if 2 ≤ g.op then rmaSeg s c g
  else
    match recvOf s c g.msg with
    | some r => placeSeg s c r g
    | none =>
      match recvFor s c (if g.op = 1 then g.tag else 0) with
      | some r => placeSeg s c r g
      | none => { s with netOut := s.netOut ++ [.notReady g.id g.msg] }

/-- The held segments that may be taken by now are. -/
def drainHeld (ctx table ch : Nat) : Nat → State → State
  | 0, s => s
  | n + 1, s =>
    match chanOf s ctx table ch with
    | none => s
    | some c =>
      match c.heldSegs.find? fun g => !rxHolds c g with
      | none => s
      | some g =>
        let s := modChan s ctx table ch fun c => { c with heldSegs := c.heldSegs.filter fun x => x.psn != g.psn }
        drainHeld ctx table ch n (match chanOf s ctx table ch with
          | some c => takeSeg s c g
          | none => s)

/-- The channel of a segment: for the bytes that a read returns, that of the request. -/
def segChan (s : State) (g : NeSeg) : Option Channel :=
  match s.channels.find? fun c => g.op == 5 && (chanReqs s c g.id).any fun q => q.op == g.msg with
  | some c => some c
  | none => chanFor s g

/-- A segment arrives (R467, R531, R533). -/
def segArrives (s : State) (g : NeSeg) : State :=
  match segChan s g with
  | none => { s with hi := { s.hi with mbnet := bumpAll s.hi.mbnet } }
  | some c =>
    if rxTaken c g.psn then
      if g.op = 3 ∧ ¬ c.refused.contains g.msg then takeSeg s c g
      else { s with netOut := s.netOut ++ [.ack g.id g.psn] }
    else if c.heldSegs.any fun x => x.psn == g.psn then s
    else
      let c := noteSpan c g
      let s := putChan s c
      if rxHolds c g then putChan s { c with heldSegs := c.heldSegs ++ [g] }
      else
        let s := takeSeg s c g
        drainHeld c.ctx c.table c.ch c.heldSegs.length s

/-- NE_SEGMENT_RECEIVE: a segment of an operation of R463 from its sender, or returned bytes. -/
def onNeSegmentReceive (g : NeSeg) (s : State) : Option State :=
  due
    (!inLehr s && (g.op ≤ 3 || g.op == 5) && g.part < g.nparts && g.part ≤ g.psn && 1 ≤ g.size && s.livePorts != 0) (segArrives s g)

/-- The step of NE_SEGMENT_RECEIVE. -/
def execNeSegmentReceive (g : NeSeg) (s : State) : Host.Outcome State Fault Refusal := occur s (onNeSegmentReceive g s)

/-- NE_RECEIVE_TIMEOUT (R532): a receive that has taken a segment. -/
def onNeReceiveTimeout (op : Nat) (s : State) : Option State :=
  match s.receives.find? fun r => r.op == op && r.msg.isSome with
  | none => none
  | some r => due true (finishRecv s r 4 0)

/-- The step of NE_RECEIVE_TIMEOUT. -/
def execNeReceiveTimeout (op : Nat) (s : State) : Host.Outcome State Fault Refusal := occur s (onNeReceiveTimeout op s)

/-- NE_ABORT_RECEIVE (R532). -/
def abortArrives (s : State) (c : Channel) (msg : Nat) : State :=
  let s := match recvOf s c msg with
    | some r => finishRecv s r 4 0
    | none => s
  let s := modChan s c.ctx c.table c.ch fun c => dropMessage c msg
  drainHeld c.ctx c.table c.ch c.heldSegs.length s

def onNeAbortReceive (id : NeId) (msg : Nat) (s : State) : Option State :=
  match chanById s id with
  | none => none
  | some c => due true (abortArrives s c msg)

/-- The step of NE_ABORT_RECEIVE. -/
def execNeAbortReceive (id : NeId) (msg : Nat) (s : State) : Host.Outcome State Fault Refusal :=
  occur s (onNeAbortReceive id msg s)

/-! ## NPOST, NRECV (R464) -/

/-- The sixteen registers of a work request. -/
def workRequest (e : Issuer) (g : Gen) : Nat := regsVal e g.a 16 0

/-- What a request's pages and counter raise (R320), and what they translate to. -/
def wrPages (s : State) (e : Issuer) (n : Nat) : Except TrapInfo (List (Nat × Nat) × Option Nat) :=
  if wrCtr n % 8 ≠ 0 then .error (trapAt e 0x04 (wrCtr n))
  else
    let need : Need := if wrOp n = 3 ∨ wrOp n = 4 then .write else .read
    let ps := xlateRange s e.l.ctx (inSup e.f) need (wrLaddr n) (wrLen n)
    let ct := xlateRange s e.l.ctx (inSup e.f) .write (wrCtr n) (if wrCtr n = 0 then 0 else 8)
    match rangeFault e [ps, ct] with
    | some t => .error t
    | none => .ok (rangePages ps, if wrCtr n = 0 then none else some (pagesPa (rangePages ct) (wrCtr n)))

/-- The channel that a request may use: installed, valid, with the permission its op needs (R464). -/
def wrChan (s : State) (e : Issuer) (n : Nat) : Option Channel :=
  (chanOf s e.l.ctx e.b.capbase.toNat (wrCh n)).bind fun c =>
    let t := c.entry.toNat
    let perm := if wrOp n ≤ 1 then 0 else if wrOp n = 4 then 1 else wrOp n
    if ceValid t && cePerm t perm then some c else none

def npostEffect (s : State) (e : Issuer) (n : Nat) (ps : List (Nat × Nat)) (ctr : Option Nat) : State :=
  let q : NeReq := { op := s.nextId, blk := e.ref.blk, pidx := e.ref.pidx, pos := e.ref.pos, ctx := e.l.ctx,
                     table := e.b.capbase.toNat, region := e.l.region, entry := 0, wr := BitVec.ofNat 512 n, pages := ps, ctr }
  let s := putPack { s with nextId := s.nextId + 1 } e.ref.blk (engAdd (refresh s e).p q.op .net none)
  let q := match chanOf s e.l.ctx e.b.capbase.toNat (wrCh n) with
    | some c => { q with entry := c.entry, gen := c.gen }
    | none => q
  match wrChan s e n with
  | none => finishSend { s with sends := s.sends ++ [q] } q 5 0
  | some c =>
    let s := { s with sends := s.sends ++ [q] }
    if ceAllow c.entry.toNat < wrLen n then finishSend s q 5 0 else s

def execNpost (g : Gen) (s : State) : Host.Outcome State Fault Refusal :=
  issue s 8 .last false fun e =>
    match regsCause e [] g.a 16 with
    | some c => .trap (trapAll e [] c)
    | none =>
      let n := workRequest e g
      if wrBad n || 3 < wrOp n then .trap (trapAll e [] 0x05)
      else
        match wrPages s e n with
        | .error t => .trap t
        | .ok (ps, ctr) =>
          if needsRound e then forceRound s e
          else if !hasRoom e.p 3 none then .wait .waiting (.room 3 none)
          else if wrOp n ≤ 2 && strictRace s e (ps.map (·.2)) then .trap (trapAll e [] 0x0A)
          else .ok (npostEffect s e n ps ctr) {}

def nrecvEffect (s : State) (e : Issuer) (n : Nat) (ps : List (Nat × Nat)) (ctr : Option Nat) : State :=
  let r : NeRecv := { op := s.nextId, ctx := e.l.ctx, table := e.b.capbase.toNat, region := e.l.region, wr := BitVec.ofNat 512 n,
                      pages := ps, ctr }
  let r := match chanOf s e.l.ctx e.b.capbase.toNat (wrCh n) with
    | some c => { r with entry := c.entry, gen := c.gen }
    | none => r
  let s := { s with nextId := s.nextId + 1, receives := s.receives ++ [r] }
  match wrChan s e n with
  | none => finishRecv s r 5 0
  | some _ => s

def execNrecv (g : Gen) (s : State) : Host.Outcome State Fault Refusal :=
  issue s 8 .never false fun e =>
    match regsCause e [] g.a 16 with
    | some c => .trap (trapAll e [] c)
    | none =>
      let n := workRequest e g
      if wrBad n || wrOp n != 4 then .trap (trapAll e [] 0x05)
      else
        match wrPages s e n with
        | .error t => .trap t
        | .ok (ps, ctr) => if needsRound e then forceRound s e else .ok (nrecvEffect s e n ps ctr) {}

/-! ## NPOLL (R468, R469) -/

/-- The record that a poll reads: the oldest unread one, with the overflow since the last poll, or zero. -/
def pollEffect (s : State) (c : Channel) (ps : List (Nat × Nat)) (va : Nat) : State × Nat :=
  if c.wr ≤ c.rd then (s, 0)
  else
    let word := ofLeBytes (pagesRead s ps va 32)
    (putChan s { c with rd := c.rd + 1, ovf := false }, word ||| (bit c.ovf * 2 ^ 30))

def execNpoll (g : Gen) (s : State) : Host.Outcome State Fault Refusal :=
  issue s 8 .never false fun e =>
    match firstCause [dstCause e (maskLanes e.p e.f) g.dst 8, uniCause e [opn32 g.a]] with
    | some c => .trap (trapAll e [] c)
    | none =>
      match chanOf s e.l.ctx e.b.capbase.toNat (uniVal e g.a) with
      | none => .trap (trapAll e [] 0x07)
      | some c =>
        let n := c.entry.toNat
        if ceRlog n = 0 then .trap (trapAll e [] 0x07)
        else if buffered e && e.l.strict then .trap (trapAll e [] 0x0A)
        else if needsRound e then forceRound s e
        else
          let va := ceRing n + 32 * (c.rd % 2 ^ ceRlog n)
          match xlateRange s e.l.ctx (inSup e.f) .read va (if c.wr ≤ c.rd then 0 else 32) with
          | .error (x, a) => .trap (trapAt e x a)
          | .ok ps =>
            match memHold s e (ps.map (·.2)) with
            | some h => holdAct s e h
            | none =>
              let (s, word) := pollEffect (acquired s e) c ps va
              sameResult s e g.dst g.nowb 8 word

/-! ## LARM (R470) -/

/-- An arm takes a template that passes R83; one that does not is reported, and the arm stays as it was. -/
def armEffect (s : State) (e : Issuer) (i n tag mask : Nat) (keep : Bool) : State :=
  match packetReason s (.leaf e.l.region) n with
  | 0 =>
    { s with arms := { ctx := e.l.ctx, idx := i, packet := BitVec.ofNat 1024 n, region := e.l.region, tag := BitVec.ofNat 64 tag,
                       mask := BitVec.ofNat 64 mask, keep } ::
               s.arms.filter fun a => !(a.ctx == e.l.ctx && a.idx == i) }
  | r => rejectPacket s (.leaf e.l.region) n r

def execLarm (g : Gen) (s : State) : Host.Outcome State Fault Refusal :=
  issue s 8 .never false fun e =>
    match firstCause [uniCause e [opn32 g.a], regsCause e [] g.b 8] with
    | some c => .trap (trapAll e [] c)
    | none =>
      let i := uniVal e g.a
      let va := uniWide e g.b
      let ctl := uniVal e (sPlus g.b 6)
      if 63 < i ∨ 1 < ctl ∨ uniVal e (sPlus g.b 7) ≠ 0 then .trap (trapAll e [] 0x05)
      else if va = 0 then .ok { s with arms := s.arms.filter fun a => !(a.ctx == e.l.ctx && a.idx == i) } {}
      else
        match xlateRange s e.l.ctx (inSup e.f) .read va 128 with
        | .error (x, a) => .trap (trapAt e x a)
        | .ok ps =>
          match readHold s e (ps.map (·.2)) with
          | some a => a
          | none =>
            let n := ofLeBytes (pagesRead s ps va 128)
            .ok (armEffect (chargeMem s e.l.region (pagesPa ps va) 128) e i n (uniWide e (sPlus g.b 2))
              (uniWide e (sPlus g.b 4)) (ctl == 1)) {}

end Sys2Proof.Machine
end

