-- ==== Sys2Proof/Machine/System.lean ====
section
/-! DEFINITION. The system instructions (spec/14 R455 to R459, R462, R476; R154, R156, R517, R526): SRR, SRW, TLBINV, BIASFLIP,
MIGRATE, CAPSET, CTRREAD. -/

namespace Sys2Proof.Machine

/-! ## SRR and SRW (R453, R456) -/

/-- A register as the issuer reads it. -/
def issuerReg (s : State) (e : Issuer) (n : Nat) : DWord :=
  match n with
  | 1 => BitVec.ofNat 64 (match regionOf s e.l.region with
      | some r => r.pool
      | none => 0)
  | 7 => e.b.tdbase
  | 8 => e.b.capbase
  | _ => sysGet s n

def execSrr (g : Gen) (s : State) : Host.Outcome State Fault Refusal :=
  issue s 8 .never true fun e =>
    match dstCause e (maskLanes e.p e.f) g.dst 2 with
    | some c => .trap (trapAll e [] c)
    | none => sameResult (acquired s e) e g.dst g.nowb 2 (issuerReg s e g.opx.toNat).toNat

/-- A register takes a value; TDBASE and CAPBASE are the issuing block's. -/
def issuerPut (s : State) (e : Issuer) (n : Nat) (x : DWord) : State :=
  match n with
  | 7 => setBlock s { e.b with tdbase := x }
  | 8 => setBlock s { e.b with capbase := x }
  | _ => sysPut s n x

/-- SRW; a plane fence waits until the grid is quiet (R526). -/
def execSrw (g : Gen) (s : State) : Host.Outcome State Fault Refusal :=
  issue s 8 .never true fun e =>
    match uniCause e [uniPair g.a] with
    | some c => .trap (trapAll e [] c)
    | none =>
      let n := g.opx.toNat
      let x := uniWide e g.a
      if sysReserved n x then .trap (trapAll e [] 0x05)
      else if n = 4 ∧ planeFence s (BitVec.ofNat 64 x) ∧ ¬ gridQuiet s then .wait .waiting .planes
      else .ok (issuerPut s e n (BitVec.ofNat 64 x)) {}

/-! ## TLBINV (R457, R439) -/

/-- What a TLBINV covers: one context or all, and a range of addresses. -/
structure InvRange where
  ctx : Option Nat
  va : Nat
  len : Nat
  deriving DecidableEq, Repr

def invCtx (r : InvRange) (ctx : Nat) : Bool := r.ctx.getD ctx == ctx

/-- Whether a range covers a translated unit. -/
def invUnit (r : InvRange) (ctx va : Nat) : Bool := invCtx r ctx && r.va < va + 4096 && va < r.va + r.len

/-- Whether a request of the network engine holds a covered translation. -/
def invReq (r : InvRange) (ctx : Nat) (pages : List (Nat × Nat)) (ctr : Nat) (hasCtr : Bool) : Bool :=
  (pages.any fun p => invUnit r ctx p.1) || (hasCtr && invUnit r ctx (ctr / 4096 * 4096))

def invSend (r : InvRange) (q : NeReq) : Bool := invReq r q.ctx q.pages (wrCtr q.wr.toNat) q.ctr.isSome
def invRecv (r : InvRange) (q : NeRecv) : Bool := invReq r q.ctx q.pages (wrCtr q.wr.toNat) q.ctr.isSome

/-- Covered requests that have not begun complete with status 3 and fault 0. -/
def invIdle (s : State) (r : InvRange) : State :=
  let s := (s.sends.filter fun q => !q.begun && invSend r q).foldl (fun s q => finishSend s q 3 0) s
  (s.receives.filter fun q => q.msg.isNone && invRecv r q).foldl (fun s q => finishRecv s q 3 0) s

/-- Covered requests that have begun. -/
def invBusy (s : State) (r : InvRange) : Bool :=
  (s.sends.any fun q => q.begun && invSend r q) || s.receives.any fun q => q.msg.isSome && invRecv r q

/-- The experts of a range that are not absent or resident (R439). -/
def ertBusy (s : State) (ctx : Option Nat) (va len : Nat) : List Nat := ertHits s ctx va len fun st => st == 1 || st == 3 || st == 4

/-- The invalidation as experts see it (R436). -/
def ertInval (s : State) (ctx : Option Nat) (va len : Nat) : State :=
  (ertHits s ctx va len fun st => st == 2 || st == 3).foldl ertEvict s

/-- Experts are told of an invalidation, once, and again when what was being fetched is resident: the state, and those that must still pass
to absent (R436, R439). -/
def evictRange (s : State) (e : Issuer) (ctx : Option Nat) (va len : Nat) : State × List Nat :=
  match e.f.evicts with
  | none => let t := ertInval s ctx va len; (t, ertBusy t ctx va len)
  | some l => (l.foldl ertEvict s, l)

/-- The issuer waits, its checks behind it. -/
def waitEvicts (s : State) (e : Issuer) (l : List Nat) : Act :=
  .own (putFrag s e.ref { (refresh s e).f with st := .waiting, wait := .translations, since := s.tick, gang := 0, evicts := some l })

/-- The stash lines that were filled through a covered translation go back, and are absent (R514). -/
def invStash (s : State) (r : InvRange) : State :=
  s.blocks.foldl (fun s b =>
    if invCtx r (blockCtx s b).1 then
      (b.lines.filter fun l => r.va < lineVa b l.line + 128 && lineVa b l.line < r.va + r.len).foldl (fun s l => recallLine s l.pa) s
    else s) s

/-- The translations go; stashes, requests and experts are told; it retires when nothing stands in its way. -/
def invAct (s : State) (e : Issuer) (r : InvRange) : Act :=
  let s := { s with tlb := s.tlb.filter fun t => !(invCtx r t.ctx && t.va < r.va + r.len && r.va < t.va + 2 ^ t.k) }
  let s := if e.f.evicts.isSome then s else invIdle s r
  let x := evictRange (invStash s r) e r.ctx r.va r.len
  if invBusy x.1 r || !x.2.isEmpty then waitEvicts x.1 e x.2 else .ok (acquired x.1 e) {}

def execTlbinvPage (g : Gen) (s : State) : Host.Outcome State Fault Refusal :=
  issue s 8 .never true fun e =>
    match uniCause e [uniPair g.a, opn32 g.b] with
    | some c => .trap (trapAll e [] c)
    | none =>
      let va := uniWide e g.a
      let k := uniVal e g.b
      if k < 12 ∨ 27 < k then .trap (trapAll e [] 0x05)
      else if va % 2 ^ k ≠ 0 then .trap (trapAt e 0x04 va)
      else invAct s e { ctx := some e.l.ctx, va, len := 2 ^ k }

def execTlbinvContext (g : Gen) (s : State) : Host.Outcome State Fault Refusal :=
  issue s 8 .never true fun e =>
    match uniCause e [opn32 g.b] with
    | some c => .trap (trapAll e [] c)
    | none => invAct s e { ctx := some (uniVal e g.b), va := 0, len := 2 ^ 57 }

def execTlbinvAll (_g : Gen) (s : State) : Host.Outcome State Fault Refusal :=
  issue s 8 .never true fun e => invAct s e { ctx := none, va := 0, len := 2 ^ 57 }

/-! ## BIASFLIP (R154, R458) -/

/-- A unit changes its bias (R154). Its lines leave the stashes and caches for host bias. -/
def flipUnit (host : Bool) (s : State) (pa : Nat) : State :=
  let s := if host then dropCaches (recallSpan s pa 4096) pa 4096 else s
  match biasUnit pa with
  | none => s
  | some u =>
    if s.hi.biastab.getLsbD 0 then
      let (a, i) := biasPlace s u
      let old := gByte s a
      let mask : Byte := BitVec.ofNat 8 (2 ^ i)
      gWrite s a [if host then old ||| mask else old &&& ~~~ mask]
    else s

/-- The units of a flip, or the cause that one of them raises. -/
def flipUnits (s : State) (e : Issuer) (va n : Nat) : Except (Nat × Nat) (List Nat) :=
  match xlateRange s e.l.ctx true .read va (4096 * n) with
  | .error x => .error x
  | .ok ps =>
    match ps.find? fun p => (biasUnit p.2).isNone with
    | some p => .error (0x02, p.1)
    | none => .ok (ps.map (·.2))

def flipAct (s : State) (e : Issuer) (g : Gen) (host : Bool) : Act :=
  match uniCause e [uniPair g.a, opn32 g.b] with
  | some c => .trap (trapAll e [] c)
  | none =>
    let va := uniWide e g.a
    let n := uniVal e g.b
    if n < 1 ∨ 65536 < n then .trap (trapAll e [] 0x05)
    else if va % 4096 ≠ 0 then .trap (trapAt e 0x04 va)
    else if host && !s.hi.biastab.getLsbD 0 then .trap (trapAt e 0x02 va)
    else
      match flipUnits s e va n with
      | .error (c, a) => .trap (trapAt e c a)
      | .ok us => .ok (us.foldl (flipUnit host) s) {}

def execBiasflipDev (g : Gen) (s : State) : Host.Outcome State Fault Refusal :=
  issue s 8 .never true fun e => flipAct s e g false

def execBiasflipHost (g : Gen) (s : State) : Host.Outcome State Fault Refusal :=
  issue s 8 .never true fun e => flipAct s e g true

/-! ## MIGRATE (R156 to R159, R439, R459, R517) -/

/-- The level of a page of 2^k bytes, and the number of its replicas (R148). -/
def leafLevel (k : Nat) : Nat := if k ≤ 20 then 0 else 1
def leafReplicas (k : Nat) : Nat := if k ≤ 20 then 2 ^ (k - 12) else 2 ^ (k - 21)

/-- Every replica of a page's leaf is changed. -/
def changeLeaves (s : State) (ctx : Nat) (p : Page) (f : Nat → Nat) : State :=
  match entryAddr s ctx p.va (leafLevel p.k) with
  | none => s
  | some a => (List.range (leafReplicas p.k)).foldl (fun s i => gWriteNat s (a + 8 * i) 8 (f (gReadNat s (a + 8 * i) 8))) s

/-- Bytes moved at one end of a migration: R159 does not say how many where the L2 holds lines; all of the page's, to the issuing region
(DESIGN CHOICE, log 76). -/
def chargeMove (s : State) (rcb pa n : Nat) : State :=
  let (u, a) := memUnit pa
  count (charge s u a rcb n) u rcb (actCounter a) n

/-- The frame of a local migration: in bonded DRAM, LPDDR-6 or the expert tier. -/
def moveTierOk (pa : Nat) : Bool := frameTierOk pa || tierOf pa == some .expert

/-- The page that a MIGRATE moves, or what it raises. -/
def movePage (s : State) (e : Issuer) (va : Nat) : Except Nat Page :=
  match xlate s e.l.ctx true .write va, pageOf s e.l.ctx va with
  | .error c, _ => .error c
  | _, .error c => .error c
  | .ok _, .ok p => .ok p

/-- What holds a MIGRATE back before its first step, which keeps it from step 4 (R439). -/
def moveHeld (s : State) (e : Issuer) (p : Page) : Option Act :=
  let x := evictRange s e (some e.l.ctx) p.va (2 ^ p.k)
  if x.2.isEmpty then none else some (waitEvicts x.1 e x.2)

/-- A MIGRATE whose page is gone while it waited has nothing left to move; one that still waits goes on waiting. -/
def moveGone (s : State) (e : Issuer) (c va : Nat) : Act :=
  match e.f.evicts with
  | none => .trap (trapAt e c va)
  | some [] => .ok s {}
  | some l => waitEvicts (l.foldl ertEvict s) e l

/-- No TLB holds a page, for any context on the same table (R156 step 4). -/
def dropTable (s : State) (ctx va n : Nat) : State :=
  let root := (ctxEntry s ctx).map (·.1)
  { s with tlb := s.tlb.filter fun e => !((ctxEntry s e.ctx).map (·.1) == root && e.va < va + n && va < e.va + 2 ^ e.k) }

/-- Where an address of the old frame lies in the new one. -/
def shiftPa (old frame n pa : Nat) : Nat := if old ≤ pa ∧ pa < old + n then pa - old + frame else pa

def shiftPages (f : Nat → Nat) (ps : List (Nat × Nat)) : List (Nat × Nat) := ps.map fun p => (p.1, f p.2)

def shiftWait (f : Nat → Nat) : Wait → Wait
  | .word pa w c x m => .word (f pa) w c x m
  | .cword pa t m => .cword (f pa) t m
  | w => w

def shiftBuf (f : Nat → Nat) : BufOp → BufOp
  | .mem pa bs => .mem (f pa) bs
  | .red pa w op d => .red (f pa) w op d
  | o => o

def shiftPack (f : Nat → Nat) (p : Pack) : Pack :=
  { p with buf := p.buf.map (shiftBuf f), frags := p.frags.map fun g => { g with wait := shiftWait f g.wait } }

def shiftWork (f : Nat → Nat) : EngineWork → EngineWork
  | .copy size ls => .copy size (ls.map fun l => { l with pa := f l.pa })
  | .xfer kind pages va off len moved bar => .xfer kind (shiftPages f pages) va off len moved bar
  | .drain add es => .drain add (es.map fun x => if x.stash then x else { x with addr := f x.addr })

/-- Requests that were translated before the migration and not yet performed go to the new home (R157). -/
def shiftRequests (s : State) (f : Nat → Nat) : State :=
  { s with blocks := s.blocks.map fun b => { b with packs := b.packs.map (shiftPack f) },
           launches := s.launches.map fun l => { l with effects := l.effects.map fun x => { x with pa := f x.pa } },
           engine := s.engine.map fun o => { o with work := shiftWork f o.work },
           gridOps := s.gridOps.map fun o => { o with cw := o.cw.map f },
           dispatches := s.dispatches.map fun d => { d with route := shiftPages f d.route },
           sends := s.sends.map fun q => { q with pages := shiftPages f q.pages, ctr := q.ctr.map f },
           receives := s.receives.map fun q => { q with pages := shiftPages f q.pages, ctr := q.ctr.map f } }

/-- The steps of a local migration. -/
def moveLocal (s : State) (e : Issuer) (p : Page) (frame : Nat) : State :=
  let n := 2 ^ p.k
  let s := chargeMove (chargeMove (dropCaches (copySpan s p.pa frame n) p.pa n) e.l.region p.pa n) e.l.region frame n
  let s := changeLeaves s e.l.ctx p fun x => x - field x 51 12 * 4096 + frame
  shiftRequests (dropTable s e.l.ctx p.va n) (shiftPa p.pa frame n)

def execMigrateLocal (g : Gen) (s : State) : Host.Outcome State Fault Refusal :=
  issue s 8 .never true fun e =>
    match uniCause e [uniPair g.a, uniPair g.b] with
    | some c => .trap (trapAll e [] c)
    | none =>
      let va := uniWide e g.a
      let frame := uniWide e g.b
      match movePage s e va with
      | .error c => moveGone s e c va
      | .ok p =>
        if va % 2 ^ p.k ≠ 0 then .trap (trapAt e 0x04 va)
        else if frame % 2 ^ p.k ≠ 0 then .trap (trapAt e 0x04 frame)
        else if !moveTierOk frame || !moveTierOk (frame + 2 ^ p.k - 1) then .trap (trapAt e 0x02 frame)
        else
          match moveHeld s e p with
          | some a => a
          | none => .ok (moveLocal s e p frame) {}

/-- Whether a request of an engine, translated before, is still to reach the old frame: the freeze of a remote migration follows it
(R157; log 72). -/
def oldFrame (s : State) (pa n : Nat) : Bool :=
  let inside (x : Nat) : Bool := pa < x + 4096 && x < pa + n
  let pages (ps : List (Nat × Nat)) : Bool := ps.any fun p => inside p.2
  (s.engine.any fun o => match o.work with
    | .copy _ ls => ls.any fun l => inside l.pa
    | .xfer _ ps _ _ _ _ _ => pages ps
    | .drain _ es => es.any fun x => !x.stash && inside x.addr) ||
  (s.gridOps.any fun o => o.cw.any inside) || (s.dispatches.any fun d => pages d.route) ||
  (s.sends.any fun q => pages q.pages || q.ctr.any inside) || s.receives.any fun q => pages q.pages || q.ctr.any inside

/-- A buffered store of a pack to the page becomes one to its new home (R157). -/
def farBuf (p : Page) (dest : Nat) (o : BufOp) : BufOp :=
  let inside (pa : Nat) : Bool := p.pa ≤ pa && pa < p.pa + 2 ^ p.k
  match o with
  | .mem pa bs => if inside pa then .farMem dest (p.va + (pa - p.pa)) bs else o
  | .red pa w op d => if inside pa then .farRed dest (p.va + (pa - p.pa)) w op d else o
  | o => o

/-- A wait for a word of the page tries its instruction again, and finds the page absent. -/
def farWait (p : Page) (w : Wait) : Wait :=
  let inside (pa : Nat) : Bool := p.pa ≤ pa && pa < p.pa + 2 ^ p.k
  match w with
  | .word pa _ _ _ _ => if inside pa then .none else w
  | .cword pa _ _ => if inside pa then .none else w
  | w => w

def farRequests (s : State) (p : Page) (dest : Nat) : State :=
  { s with blocks := s.blocks.map fun b => { b with packs := b.packs.map fun q =>
      { q with buf := q.buf.map (farBuf p dest), frags := q.frags.map fun f => { f with wait := farWait p f.wait } } } }

/-- The steps of a migration to another device that succeeds. What has reached the home before the freeze is performed; the lines leave
over the fabric; the local leaves are gone, and requests for the page go to its new home (R156, R157, R459). -/
def moveRemote (s : State) (e : Issuer) (p : Page) (dest : Nat) : State :=
  let n := 2 ^ p.k
  let s := recallSpan (drainComb s) p.pa n
  let out : PageOut := { dest, ctx := e.l.ctx, va := p.va, k := p.k, cells := spanCells s p.pa n, poison := spanPoison s p.pa n }
  let s := chargeFabric (chargeMove (dropCaches s p.pa n) e.l.region p.pa n) e.l.region n false
  let s := changeLeaves s e.l.ctx p fun x => x - x % 2
  let s := farRequests (dropTable s e.l.ctx p.va n) p dest
  { s with moved := { ctx := e.l.ctx, va := p.va, k := p.k, dest } :: s.moved, pagesOut := s.pagesOut ++ [out] }

/-- A page that another device migrates here is written to the frame that its window address has, or refused (R459, R517, R518). -/
def takePage (s : State) (src ctx va k : Nat) (cells : List Host.Cell) (bad : List Nat) : State :=
  let m := { plainMsg ctx va with src }
  match homePa s m .gridWrite va, pageOf s ctx va with
  | .ok (pa, r), .ok p =>
    if p.k = k ∧ p.va = va then
      let s := chargeMove (chargeFabric (recallSpan s pa (2 ^ k)) r.rcb (2 ^ k) true) r.rcb pa (2 ^ k)
      dropCaches (putSpan s pa (2 ^ k) (cells.filter fun c => c.1 < 2 ^ k) (bad.filter fun x => 32 * x < 2 ^ k)) pa (2 ^ k)
    else noteRefusal s m 0x01 va
  | .error c, _ => noteRefusal s m c va
  | _, .error c => noteRefusal s m c va

/-- A failure after step 1 (R517): the freeze is undone and the event posted. -/
def moveAborted (s : State) (e : Issuer) (p : Page) (dest cause : Nat) : State :=
  postEvent s e.l.region (eventRecord 7 cause e.l.ctx 0 0 dest 0 p.va)

/-- What becomes of a remote migration: it cannot reach the device, or that device takes the page or refuses it, which is free
(log 6). -/
def moveOutcome (s : State) (e : Issuer) (p : Page) (dest : Nat) : State :=
  if !gridUp s || gridDevices s ≤ dest || dest == selfLin s || planeFailed s p.va then moveAborted s e p dest 0x0F
  else
    let (c, s) := choose s 4
    match c with
    | 0 => moveRemote s e p dest
    | 1 => moveAborted s e p dest 0x01
    | 2 => moveAborted s e p dest 0x02
    | _ => moveAborted s e p dest 0x0F

def execMigrateRemote (g : Gen) (s : State) : Host.Outcome State Fault Refusal :=
  issue s 8 .never true fun e =>
    match uniCause e [uniPair g.a, opn32 g.c] with
    | some c => .trap (trapAll e [] c)
    | none =>
      let va := uniWide e g.a
      match movePage s e va with
      | .error c => moveGone s e c va
      | .ok p =>
        if va % 2 ^ p.k ≠ 0 then .trap (trapAt e 0x04 va)
        else if !isWindow va then .trap (trapAt e 0x02 va)
        else
          match moveHeld s e p with
          | some a => a
          | none =>
            if oldFrame s p.pa (2 ^ p.k) then waitEvicts s e [] else .ok (moveOutcome s e p (uniVal e g.c)) {}

/-! ## CAPSET and CTRREAD (R462, R476) -/

def execCapset (g : Gen) (s : State) : Host.Outcome State Fault Refusal :=
  issue s 8 .never true fun e =>
    match firstCause [uniCause e [opn32 g.a], regsCause e [] g.b 16] with
    | some c => .trap (trapAll e [] c)
    | none =>
      let c := uniVal e g.a
      let n := regsVal e g.b 16 0
      if 63 < c ∨ ceBad n then .trap (trapAll e [] 0x07)
      else
        let va := e.b.capbase.toNat + 64 * c
        match xlateRange s e.l.ctx true .write va 64 with
        | .error (x, a) => .trap (trapAt e x a)
        | .ok ps =>
          match memHold s e (ps.map (·.2)) with
          | some h => holdAct s e h
          | none =>
            let s := pagesWrite (chargeMem s e.l.region (pagesPa ps va) 64) ps va (leBytes 64 n)
            .ok (installChan s e.l.ctx e.b.capbase.toNat c e.l.region (BitVec.ofNat 512 n)) {}

def execCtrread (g : Gen) (s : State) : Host.Outcome State Fault Refusal :=
  issue s 8 .never false fun e =>
    match dstCause e (maskLanes e.p e.f) g.dst 2 with
    | some c => .trap (trapAll e [] c)
    | none => sameResult s e g.dst g.nowb 2 (if e.l.det then 0 else counterOf s e.l.region g.opx.toNat)

end Sys2Proof.Machine
end

