-- ==== Sys2Proof/Machine/Trap.lean ====
section
/-! DEFINITION. The handler's instructions (spec/18 R491 to R496, R504, R521): MAPPG, TRAP, RETF. -/

namespace Sys2Proof.Machine

/-! ## MAPPG (R493 to R495) -/

/-- Where the leaf of an address goes: the entry at its level, or the status that ends the lane (1 where a leaf covers the address, 4
where a table is absent). -/
def mapEntry (s : State) (va want : Nat) : Nat → Nat → Except Nat Nat
  | level, table =>
    let a := table + 8 * (va / 2 ^ (12 + 9 * level) % 512)
    let e := gReadNat s a 8
    if level = want then (if !e.testBit 0 then .ok a else if e.testBit 1 then .error 1 else .error 4)
    else if !e.testBit 0 then .error 4
    else if e.testBit 1 then .error 1
    else
      match level with
      | 0 => .error 4
      | n + 1 => if !tablePaOk (field e 51 12 * 4096) then .error 4 else mapEntry s va want n (field e 51 12 * 4096)

/-- Every byte of a frame becomes zero; unlisted bytes read as zero already (log 2). -/
def zeroFrame (s : State) (pa n : Nat) : State :=
  let s := recallSpan s pa n
  dropCaches { s with mem := (s.mem.filter fun c => pa ≤ c.1 && c.1 < pa + n).foldl (fun m c => spPut Config.memDefault m c.1 0) s.mem,
                      poison := s.poison.filter fun k => !(pa ≤ 32 * k && 32 * k < pa + n) } pa n

/-- The leaf that MAPPG writes (R494). -/
def mapLeaf (k attr frame : Nat) : Nat :=
  3 + bit (attr.testBit 0) * 2 ^ 2 + bit (attr.testBit 1) * 2 ^ 3 + bit (attr.testBit 2) * 2 ^ 5 + (k - 12) * 2 ^ 6 +
  field attr 4 3 * 2 ^ 10 + frame

/-- One lane of MAPPG: the state and its status. -/
def mapLane (ctx rcb attr : Nat) (r : Region) (s : State) (va : Nat) : State × Nat :=
  let n := poolWord s r.pool
  let k := poolK n
  let base := va / 2 ^ k * 2 ^ k
  if !poolValid n then (s, 3)
  else if 2 ^ 57 ≤ va ∨ base < r.ftbase ∨ r.ftbase + r.ftsize ≤ base then (s, 2)
  else
    match ctxEntry s ctx with
    | none => (s, 4)
    | some (root, _) =>
      match mapEntry s base (leafLevel k) 4 root with
      | .error st => (s, st)
      | .ok a =>
        match takeSmall s r.pool with
        | none => (s, 3)
        | some (s, f) =>
          if !frameOk k f then (s, 5)
          else
            let s := chargeMove (zeroFrame s f (2 ^ k)) rcb f (2 ^ k)
            ((List.range (leafReplicas k)).foldl (fun s i => gWriteNat s (a + 8 * i) 8 (mapLeaf k attr f)) s, 0)

/-- The lanes in ascending order. -/
def mapLanes (ctx rcb attr : Nat) (r : Region) (s : State) : List (Nat × Nat) → State × List (Nat × Nat)
  | [] => (s, [])
  | (l, va) :: rest =>
    let (s, st) := mapLane ctx rcb attr r s va
    let (s, vs) := mapLanes ctx rcb attr r s rest
    (s, (l, st) :: vs)

/-- An attribute word with other bits than R494 gives. -/
def attrBad (attr : Nat) : Bool := 32 ≤ attr || field attr 4 3 == 3

def execMappg (g : Gen) (s : State) : Host.Outcome State Fault Refusal :=
  issue s 8 .never true fun e =>
    let act := activeLanes e g.pred
    match operandCause e act [uniPair g.a, opn32 g.b] g.dst 1 with
    | some c => .trap (trapAll e act c)
    | none =>
      let attr := uniVal e g.b
      if attrBad attr then .trap (trapAll e act 0x05)
      else
        let (s, vals) := match regionOf s e.l.region with
          | some r => mapLanes e.l.ctx e.l.region attr r s (act.map fun l => (l, opndVal e (uniPair g.a) l))
          | none => (s, act.map fun l => (l, 3))
        .ok (putPack s e.ref.blk (writeBack true g.dst g.nowb 1 vals (refresh s e).p)) { res := latchOf g.dst act vals }

/-! ## TRAP (R492) -/

def trapAct (s : State) (e : Issuer) (g : Gen) (cause : Nat) : Act :=
  let act := activeLanes e g.pred
  match operandCause e act [opn32 g.a] .null 1 with
  | some c => .trap (trapAll e act c)
  | none => if act.isEmpty then .ok s {} else .trap (trapLanes cause (act.map fun l => (l, opndVal e (opn32 g.a) l)))

def execTrap (g : Gen) (s : State) : Host.Outcome State Fault Refusal :=
  issue s 8 .never false fun e => trapAct s e g 0x13

def execTrapDbg (g : Gen) (s : State) : Host.Outcome State Fault Refusal :=
  issue s 8 .never false fun e => trapAct s e g 0x14

/-! ## RETF (R496) -/

/-- The frame that a RETF returns from, if it stands where R496 requires. -/
def retfFrame (e : Issuer) : Option TrapFrame :=
  match e.f.frame with
  | some fr => if frameMatches e fr then some fr else none
  | none => none

/-- The marver slots whose failed reload a frame reports are reloaded (R503). -/
def reloadTrapped (s : State) (blk : Nat) (t : TrapInfo) : State :=
  match getBlock s blk with
  | some b =>
    (b.marver.filter fun m => t.reload && m.2.reload == some (t.cause, lowAddr t)).foldl (fun s m => reloadSlot s blk m.1) s
  | none => s

def execRetfRetry (_g : Gen) (s : State) : Host.Outcome State Fault Refusal :=
  issue s 8 .never true fun e =>
    match retfFrame e with
    | some fr => .own (reloadTrapped (returnTo s e fr fr.resume) e.ref.blk fr.info)
    | none => .trap (trapAll e [] 0x05)

/-- The address after n instructions, by their first parcels. -/
def skipFrom (s : State) (ctx : Nat) : Nat → Nat → Except (Nat × Nat) Nat
  | 0, pc => .ok pc
  | n + 1, pc =>
    match fetchBytes s ctx false 1 pc with
    | .error x => .error x
    | .ok bs => skipFrom s ctx n (pc + 2 * parcelsOf (ofLeBytes bs))

/-- The address behind the faulting instruction, or behind the burst. -/
def nextPc (s : State) (e : Issuer) (fr : TrapFrame) : Except (Nat × Nat) Nat :=
  skipFrom s e.l.ctx (if fr.info.burst then fr.info.left else 1) fr.info.pc.toNat

/-- RETF.next; a GRED or GSCAN that it leaves behind contributes poison (R521). -/
def execRetfNext (_g : Gen) (s : State) : Host.Outcome State Fault Refusal :=
  issue s 8 .never true fun e =>
    match retfFrame e with
    | none => .trap (trapAll e [] 0x05)
    | some fr =>
      match nextPc s e fr with
      | .error (c, a) => .trap (trapAt e c a)
      | .ok pc => .own (sendPoison e.l.region (returnTo s e fr (BitVec.ofNat 64 pc)) fr.info.poison)

/-- RETF.esc: the fault escalates, with the cause c, or its own where c is zero. -/
def execRetfEsc (g : Gen) (s : State) : Host.Outcome State Fault Refusal :=
  issue s 8 .never true fun e =>
    match uniCause e [opn32 g.a] with
    | some c => .trap (trapAll e [] c)
    | none =>
      match retfFrame e with
      | none => .trap (trapAll e [] 0x05)
      | some fr =>
        let c := uniVal e g.a % 256
        .own (escalate s e { fr.info with cause := if c = 0 then fr.info.cause else c, poison := [] } false)

end Sys2Proof.Machine
end

