-- ==== Sys2Proof/Machine/Host.lean ====
section
/-! DEFINITION. What the host does to the device: doorbells, register writes (R449, R452, R454), accesses to device memory and snoops
(R142, R153, R193), the loss of the link (R556); and the requests that a home slice serves (R123, R133). -/

namespace Sys2Proof.Machine

/-- The host link is up (R556). -/
def hostUp (s : State) : Bool := !s.hi.mbhost.getLsbD 32

/-! ## Writes through BAR0 -/

/-- A host write waits behind one of PLANEMAP that has not completed (R454, R526). -/
def hostMayWrite (s : State) : Bool := hostUp s && s.planeWrite.isNone

/-- HOST_QUEUE_DOORBELL (R452); ignored in the lehr state (R554). -/
def onHostQueueDoorbell (q : BitVec 8) (p : Word) (s : State) : Option State :=
  due (hostMayWrite s) (hostRegPut s (0x1000 + 8 * q.toNat) (p.setWidth 64))

/-- The step of HOST_QUEUE_DOORBELL. -/
def execHostQueueDoorbell (q : BitVec 8) (p : Word) (s : State) : Host.Outcome State Fault Refusal :=
  occur s (onHostQueueDoorbell q p s)

/-- HQERR_CLEAR (R452). -/
def onHqerrClear (mask : DWord) (s : State) : Option State :=
  due (hostMayWrite s) (hostRegPut s 0x20 mask)

/-- The step of HQERR_CLEAR. -/
def execHqerrClear (mask : DWord) (s : State) : Host.Outcome State Fault Refusal := occur s (onHqerrClear mask s)

/-- HOST_SYSREG_WRITE (R454). A write of PLANEMAP that had to wait completes once the grid is quiet (R526). -/
def onHostSysregWrite (n : BitVec 4) (x : DWord) (s : State) : Option State :=
  match s.planeWrite with
  | none => due (hostUp s) (hostRegPut s (0x400 + 8 * n.toNat) x)
  | some y => due (n == 4 && x == y && gridQuiet s) (setPlanemap s y)

/-- The step of HOST_SYSREG_WRITE. -/
def execHostSysregWrite (n : BitVec 4) (x : DWord) (s : State) : Host.Outcome State Fault Refusal :=
  occur s (onHostSysregWrite n x s)

/-- The registers whose writes are events of their own. -/
def ownEvent (off : Nat) : Bool := off == 0x20 || (0x400 ≤ off && off < 0x480) || (0x1000 ≤ off && off < 0x1800)

/-- HOST_REGISTER_WRITE (R449). -/
def onHostRegisterWrite (off : BitVec 24) (x : DWord) (s : State) : Option State :=
  due (hostMayWrite s && off.toNat % 8 == 0 && !ownEvent off.toNat) (hostRegPut s off.toNat x)

/-- The step of HOST_REGISTER_WRITE. -/
def execHostRegisterWrite (off : BitVec 24) (x : DWord) (s : State) : Host.Outcome State Fault Refusal :=
  occur s (onHostRegisterWrite off x s)

/-! ## Home slices -/

/-- A request that a home slice can serve: bytes of one line of a memory tier, an aligned element for an atomic of R247. -/
def homeOk (r : HomeReq) : Bool :=
  1 ≤ r.width && r.pa % 128 + r.width ≤ 128 && (match tierOf r.pa with
    | none => false
    | some .registers => false
    | _ => true) &&
  match r.kind with
  | .load => true
  | .store => true
  | .atomic => (r.width == 4 || r.width == 8) && r.pa % r.width == 0 && r.op.toNat ≤ 11
  | .reduction => (r.width == 4 || r.width == 8) && r.pa % r.width == 0 && r.op.toNat ≤ 11 && r.op.toNat != 9

/-- The reply to a request, none where it answers with poison. -/
def reply (s : State) (pa : Nat) (x : Option Nat) : State := { s with replies := s.replies ++ [(pa, x)] }

/-- What a request does to its line's bytes, wherever they are (R133, R508). -/
def homePerform (s : State) (r : HomeReq) : State :=
  match r.kind with
  | .load => reply s r.pa (if gPoisoned s r.pa r.width then none else some (gReadNat s r.pa r.width))
  | .store => gWriteNat s r.pa r.width r.data
  | .atomic =>
    if gPoisoned s r.pa r.width then reply s r.pa none
    else
      let x := memAtomic s r.pa r.width r.op.toNat r.data r.cmp
      reply x.1 r.pa (some x.2)
  | .reduction => if gPoisoned s r.pa r.width then s else (memAtomic s r.pa r.width r.op.toNat r.data r.cmp).1

/-- A request is performed at the home slice of its line, which holds the line from then on (R123, R142). -/
def homeServe (s : State) (r : HomeReq) : State := homePerform (homeTouch s r.pa r.width).1 r

/-- HOME_SLICE_ACCESS (R123): at slice `homeSlice` of M-stack `stackOf`. -/
def onHomeSliceAccess (r : HomeReq) (s : State) : Option State :=
  due (homeOk r) (homeServe s r)

/-- The step of HOME_SLICE_ACCESS. -/
def execHomeSliceAccess (r : HomeReq) (s : State) : Host.Outcome State Fault Refusal := occur s (onHomeSliceAccess r s)

/-! ## The host's accesses -/

/-- What the host sees as device memory (R153). -/
def deviceMemory (pa : Nat) : Bool := tierOf pa == some .dram || tierOf pa == some .lpddr

/-- HOST_MEMORY_ACCESS (R193): a CXL.mem read or write; in the lehr state it is aborted (R554). -/
def onHostMemoryAccess (r : HomeReq) (s : State) : Option State :=
  due (hostUp s && homeOk r && deviceMemory r.pa && (r.kind == .load || r.kind == .store))
    (if inLehr s then reply s r.pa none else homeServe s r)

/-- The step of HOST_MEMORY_ACCESS. -/
def execHostMemoryAccess (r : HomeReq) (s : State) : Host.Outcome State Fault Refusal := occur s (onHostMemoryAccess r s)

/-- CXL_CACHE_SNOOP (R142): a line of host memory is answered with its value; one that the host takes leaves the stash that owns
it. -/
def onCxlCacheSnoop (line : Nat) (inval : Bool) (s : State) : Option State :=
  due (hostUp s && tierOf line == some .host && line % 128 == 0)
    (if inLehr s then reply s line none
     else
       let t := reply s line (if gPoisoned s line 128 then none else some (gReadNat s line 128))
       if inval then recallLine t line else t)

/-- The step of CXL_CACHE_SNOOP. -/
def execCxlCacheSnoop (line : Nat) (inval : Bool) (s : State) : Host.Outcome State Fault Refusal :=
  occur s (onCxlCacheSnoop line inval s)

/-! ## The loss of the host link (R556) -/

def hostLost (s : State) : State :=
  let s := { s with hi := { s.hi with mbhost := bumpHalf s.hi.mbhost false ||| 0x100000000 } }
  let s := { s with hi := { s.hi with hqerr := BitVec.allOnes 64,
                                      queues := (List.range 256).map fun q => { getQueue s q with stopped := true } } }
  noteQueues s

/-- HOST_LINK_DOWN (R556). -/
def onHostLinkDown (s : State) : Option State := due (hostUp s) (hostLost s)

/-- The step of HOST_LINK_DOWN. -/
def execHostLinkDown (s : State) : Host.Outcome State Fault Refusal := occur s (onHostLinkDown s)

/-! ## Requests that meet a migration (R157, R459) -/

def homeNeed (k : HomeKind) : Need := if k = .load then .read else .write

/-- A request that goes to the page's new home on another device, as a grid operation of its kind; its answer is the home slice's. -/
def resendGrid (s : State) (ctx : Nat) (va : Nat) (r : HomeReq) (dest : Nat) : State :=
  match r.kind with
  | .load => farLoad s dest ctx va r.width (some r.pa)
  | .store => farStore s dest ctx va (leBytes r.width r.data)
  | .atomic => farAtom s dest ctx va r.width r.op.toNat r.data r.cmp (some r.pa)
  | .reduction => farAtom s dest ctx va r.width r.op.toNat r.data r.cmp none

/-- MIGRATION_RESEND (R157): the request is translated again and performed at the new home. Its own address gives the bytes' place
in their line. A combined request comes with its combine records, which it keeps (R158). -/
def onMigrationResend (ctx : BitVec 16) (va : DWord) (r : Resent) (s : State) : Option State :=
  match r with
  | .combined t =>
    due ((treeKind t == 3 || treeKind t == 4) && (treeMsg t).ctx == ctx.toNat && (treeMsg t).addr == va.toNat) (serveTree s t)
  | .request r =>
    match xlate s ctx.toNat false (homeNeed r.kind) va.toNat, movedTo s ctx.toNat va.toNat with
    | .ok pa, _ => due (homeOk { r with pa := pa }) (homeServe s { r with pa := pa })
    | .error _, some d => due (homeOk { r with pa := va.toNat % 128 }) (resendGrid s ctx.toNat va.toNat r d)
    | .error _, none => none

/-- The step of MIGRATION_RESEND. -/
def execMigrationResend (ctx : BitVec 16) (va : DWord) (r : Resent) (s : State) : Host.Outcome State Fault Refusal :=
  occur s (onMigrationResend ctx va r s)

end Sys2Proof.Machine
end

