-- ==== Sys2Proof/Machine/Sched.lean ====
section
/-! DEFINITION. The dispatcher and the cores (R66, R82, R88 to R93): placement, the start of a block, stealing, its end; runs, waits and
budgets (R78, R98, R103); pre-emption and resumption (R106 to R109, R541); deterministic rounds and turns (R112, R113). -/

namespace Sys2Proof.Machine

/-! ## What a core holds (R21, R91, R108) -/

def residents (s : State) (c : Nat) : List Block := s.blocks.filter fun b => b.core == c && b.state == .resident

/-- The launch of a block, as its packet gives it. -/
def packetOf (s : State) (b : Block) : Nat := match getLaunch s b.launch with
  | some l => launchWord l
  | none => 0

/-- The pack slots in use: a pack that has exited with its counters at zero has freed its own (R273). -/
def slotsUsed (s : State) (c : Nat) : List Nat :=
  ((residents s c).flatMap fun b => (b.packs.filter fun p => !(packExited p && engIdle p)).map fun p => p.slot).eraseDups

def freeSlots (s : State) (c : Nat) : List Nat := (List.range Config.packSlots).filter fun k => !(slotsUsed s c).contains k

/-- The multiples of 256 at which n contiguous bytes of a core's stash are free (R126). -/
def freePlaces (s : State) (c n : Nat) : List Nat :=
  let used := (residents s c).map fun b => (b.base, 128 * pkStash (packetOf s b))
  ((List.range 4096).map (256 * ·)).filter fun o =>
    o + n ≤ 2 ^ 20 && used.all fun u => n == 0 || u.2 == 0 || o + n ≤ u.1 || u.1 + u.2 ≤ o

/-- What is left of a pool after the resident blocks' shares. -/
def poolFits (s : State) (c : Nat) (f : Nat → Nat) (n total : Nat) : Bool :=
  ((residents s c).map fun b => f (packetOf s b)).sum + f n ≤ total

/-- The size of a block's record (R108). -/
def saveBytes (n : Nat) : Nat :=
  let x := 4096 + pkPacks n * (pkWidth n * pkVregs n * 4 + 1024) + pkStash n * 128 + pkAcc n * 4096 + pkMeta n * 2048 +
    pkMarver n * 16
  (x + 4095) / 4096 * 4096

/-- The pages of the save area that started blocks hold for their records (R91). -/
def savePagesUsed (s : State) : List Nat := s.blocks.flatMap fun b => b.record

/-- The pages of the leaf region's save area that a record of a launch would take: the lowest free ones. The event ring has the first
page of a fault domain's (R498). -/
def recordPages (s : State) (l : Launch) : List Nat :=
  let n := rcbWord s l.region
  let used := savePagesUsed s
  let need := saveBytes (launchWord l) / 4096
  let own := (List.range (min (rcbSaveBytes n / 4096) (used.length + need + 1))).drop (bit (rcbFdroot n))
  ((own.map fun i => rcbSave n + 4096 * i).filter fun a => !used.contains a).take need

/-- Room in the save area of the leaf region for one more record (R91). -/
def saveRoom (s : State) (l : Launch) : Bool := (recordPages s l).length == saveBytes (launchWord l) / 4096

/-- Whether the resources of a block with so many packs to hold fit a core. -/
def coreFits (s : State) (c packs : Nat) (l : Launch) : Bool :=
  let n := launchWord l
  (residents s c).length < Config.maxBlocks && packs ≤ (freeSlots s c).length && !(freePlaces s c (stashBytes l)).isEmpty &&
  poolFits s c pkAcc n 128 && poolFits s c pkMarver n 512 && poolFits s c pkMeta n 32

/-- Whether a core could start a block of a launch (R91). -/
def couldStart (s : State) (c : Nat) (l : Launch) : Bool := coreFits s c (pkPacks (launchWord l)) l && saveRoom s l

/-- The allowed cores of a launch (R72, R33). -/
def allowedCores (s : State) (l : Launch) : BitVec 192 := (effective s l.region (chainOf s 8 l.region)).cores

/-- The segments of a core's stash that its allocations touch (R128). -/
def touched (s : State) (c : Nat) : BitVec 16 :=
  BitVec.ofNat 16 (((List.range 16).filter fun g => (residents s c).any fun b =>
    let n := 128 * pkStash (packetOf s b)
    n != 0 && b.base < 65536 * (g + 1) && 65536 * g < b.base + n).foldl (fun m g => m ||| 2 ^ g) 0)

/-- A segment that no allocation touches is gated (R128). -/
def regate (s : State) (c : Nat) : State := putCore s c { coreOf s c with awake := (coreOf s c).awake &&& touched s c }

/-! ## Placement (R89, R90) -/

/-- A launch has blocks to hand out: pre-empted ones that stand ahead of them are resumed first (R109). -/
def hasBlocks (s : State) (l : Launch) : Bool :=
  l.next < launchBlocks l && !s.blocks.any fun b => b.launch == l.lid && b.state == .preempted && !b.behind

/-- The allowed core with a free queue entry and the fewest resident plus queued blocks, the lowest on a tie. -/
def placeCore (s : State) (l : Launch) : Option Nat :=
  let allowed := allowedCores s l
  let cs := (List.range Config.nCores).filter fun c => allowed.getLsbD c && (coreOf s c).queue.length < 32
  let load := fun c => (residents s c).length + (coreOf s c).queue.length
  match cs with
  | [] => none
  | c :: rest => some (rest.foldl (fun m x => if load x < load m then x else m) c)

/-- Whether one launch is served before another: by priority, then by region in round robin after the one served last, then by
acceptance. -/
def servedBefore (rr : Nat) (a b : Launch) : Bool :=
  let turn := fun (l : Launch) => if rr < l.region then l.region else l.region + 2 ^ 64
  b.prio < a.prio || (a.prio == b.prio && (turn a < turn b || (turn a == turn b && a.lid < b.lid)))

/-- The pack slots that a block needs on a core, as numbered where it was. -/
def slotsNeeded (b : Block) : List Nat := ((b.packs.filter fun p => !(packExited p && engIdle p)).map fun p => p.slot).eraseDups

/-- The pre-empted block of a launch that is next to resume (R89, R109): the lowest of those ahead of the launch's unstarted blocks; when
none of these is left, of those behind. -/
def nextResume (s : State) (l : Launch) : Option Block :=
  let out := s.blocks.filter fun b => b.launch == l.lid && b.state == .preempted
  let first := match out.filter fun b => !b.behind with
    | [] => if (firstUnstarted s l).isNone then out else []
    | bs => bs
  match first with
  | [] => none
  | b :: bs => some (bs.foldl (fun m x => if x.linear < m.linear then x else m) b)

/-- Whether a pre-empted block fits a core of its launch's allowed set. -/
def resumeFits (s : State) (l : Launch) (b : Block) (c : Nat) : Bool :=
  (allowedCores s l).getLsbD c && coreFits s c (slotsNeeded b).length l

/-- A launch has a pre-empted block that can resume. -/
def canResume (s : State) (l : Launch) : Bool :=
  match nextResume s l with
  | some b => (List.range Config.nCores).any (resumeFits s l b)
  | none => false

/-- The launch to serve, among those that have a block and a core for it: a pre-empted block counts as one that has not started. -/
def nextLaunch (s : State) : Option Launch :=
  match s.launches.filter fun l => (hasBlocks s l && (placeCore s l).isSome) || canResume s l with
  | [] => none
  | l :: rest => some (rest.foldl (fun m x => if servedBefore s.rr x m then x else m) l)

/-- A chunk of a launch goes to a core. -/
def placeChunk (s : State) (l : Launch) (c : Nat) : State :=
  let k := coreOf s c
  let n := min 4 (min (launchBlocks l - l.next) (32 - k.queue.length))
  let s := putCore s c { k with queue := k.queue ++ (List.range n).map fun i => (l.lid, l.next + i) }
  setLaunch { s with rr := l.region } { l with next := l.next + n }

/-- BLOCK_PLACEMENT (R89, R90). -/
def onBlockPlacement (s : State) : Option State :=
  match nextLaunch s with
  | none => none
  | some l =>
    match placeCore s l with
    | none => none
    | some c => due (hasBlocks s l) (placeChunk s l c)

/-- The step of BLOCK_PLACEMENT. -/
def execBlockPlacement (s : State) : Host.Outcome State Fault Refusal := occur s (onBlockPlacement s)

/-! ## The start of a block (R68, R88, R91, R96) -/

/-- Argument 0 of a host launch or a LAUNCH: the first 8 bytes of the argument block. DESIGN CHOICE (log 78): they are read whatever
the block's size, and are zero where they cannot be. -/
def argZero (s : State) (l : Launch) : DWord :=
  match l.arg0 with
  | some x => x
  | none =>
    match xlateRange s l.ctx false .read l.args.toNat 8 with
    | .error _ => 0
    | .ok ps => if (pagesPoison s ps l.args.toNat 8).isSome then 0 else BitVec.ofNat 64 (ofLeBytes (pagesRead s ps l.args.toNat 8))

/-- The uniform registers that the launch sequence loads (R88). -/
def launchRegs (s : State) (l : Launch) (linear : Nat) : Sparse Word :=
  let a := l.args.toNat
  let x := (argZero s l).toNat
  let all := [a % 2 ^ 32, a / 2 ^ 32, x % 2 ^ 32, x / 2 ^ 32, linear % 2 ^ 32, linear / 2 ^ 32 % 2 ^ 20]
  (List.range (min 6 (pkSregs (launchWord l)))).foldl (fun m i => spPut 0 m i (BitVec.ofNat 32 (all.getD i 0))) []

/-- A pack at block start. -/
def newPack (s : State) (l : Launch) (linear i slot : Nat) : Pack :=
  let n := launchWord l
  let k := pkWidth n / 4
  { pidx := i, pos := 0, width := pkWidth n, slot, slices := List.replicate k { lanes := List.replicate 4 {}, mask := 15, live := 15 },
    s := launchRegs s l linear, streamer := pkProducer n == i, quantumEnd := l.quantum,
    frags := [{ pc := BitVec.ofNat 64 (pkEntry n), slices := sliceMask (List.range k), since := s.tick }] }

/-- Where an allocation goes: a free place of the device's choice (R126; log 6). -/
def pickPlace (s : State) (c n : Nat) : Nat :=
  let ps := freePlaces s c n
  ps.getD (Config.stashPlace s.free % ps.length) 0

def newBlock (s : State) (l : Launch) (linear c : Nat) : Block :=
  let n := launchWord l
  let slots := freeSlots s c
  { bid := s.nextId, launch := l.lid, linear, core := c, base := pickPlace s c (stashBytes l),
    packs := (List.range (pkPacks n)).map fun i => newPack s l linear i (slots.getD i 0),
    tdbase := BitVec.ofNat 64 (field n 440 384), capbase := BitVec.ofNat 64 (field n 504 448), order := s.nextId, record := recordPages s l }

/-- What the launch sequence's read of argument 0 moves (R88, R103). -/
def chargeArg (s : State) (l : Launch) : State :=
  match l.arg0, xlateRange s l.ctx false .read l.args.toNat 8 with
  | none, .ok ps => chargePages s l.region ps l.args.toNat 8
  | _, _ => s

/-- The block at the head of a core's queue starts. A task acquires (R443). -/
def startHead (s : State) (c linear : Nat) (l : Launch) : State :=
  let s := regate (chargeArg s l) c
  let s := if l.isTask then l1Clear s c else s
  let s := putCore s c { coreOf s c with queue := (coreOf s c).queue.drop 1 }
  { s with blocks := s.blocks ++ [newBlock s l linear c], nextId := s.nextId + 1, free := s.free + 1 }

/-- BLOCK_START (R91). -/
def onBlockStart (core : BitVec 8) (s : State) : Option State :=
  let c := core.toNat
  match (coreOf s c).queue with
  | [] => none
  | q :: _ =>
    match getLaunch s q.1 with
    | none => none
    | some l => due (couldStart s c l) (startHead s c q.2 l)

/-- The step of BLOCK_START. -/
def execBlockStart (core : BitVec 8) (s : State) : Host.Outcome State Fault Refusal := occur s (onBlockStart core s)

/-! ## Stealing (R92, R93) -/

/-- A core is idle: its queue is empty and it could start another block. -/
def coreIdle (s : State) (c : Nat) : Bool :=
  (coreOf s c).queue.isEmpty && (residents s c).length < Config.maxBlocks && !(freeSlots s c).isEmpty

/-- The LFSR of R92 advances. -/
def lfsrNext (x : BitVec 16) : BitVec 16 :=
  let b := bit (x.getLsbD 15 ^^ (x.getLsbD 13 ^^ (x.getLsbD 12 ^^ x.getLsbD 10)))
  (x <<< 1) ||| BitVec.ofNat 16 b

/-- Whether a victim may give a queued block up to a thief. -/
def mayGive (s : State) (thief : Nat) (q : Nat × Nat) : Bool :=
  match getLaunch s q.1 with
  | some l => (allowedCores s l).getLsbD thief && couldStart s thief l
  | none => false

/-- A steal: the victim gives up the tail-most block that the thief may take, or nothing. -/
def stealFrom (s : State) (thief victim : Nat) : State :=
  let q := (coreOf s victim).queue
  match (List.range q.length).reverse.find? fun i => match q[i]? with
      | some x => mayGive s thief x
      | none => false with
  | none => s
  | some i =>
    let s := putCore s victim { coreOf s victim with queue := q.take i ++ q.drop (i + 1) }
    putCore s thief { coreOf s thief with queue := (coreOf s thief).queue ++ (q[i]?).toList }

def stealAttempt (s : State) (c : Nat) : State :=
  let x := lfsrNext (coreOf s c).lfsr
  let s := putCore s c { coreOf s c with lfsr := x }
  let v := x.toNat % 192
  if v = c then s else stealFrom s c v

/-- STEAL_ATTEMPT (R92). -/
def onStealAttempt (core : BitVec 8) (s : State) : Option State :=
  due (core.toNat < Config.nCores && coreIdle s core.toNat) (stealAttempt s core.toNat)

/-- The step of STEAL_ATTEMPT. -/
def execStealAttempt (core : BitVec 8) (s : State) : Host.Outcome State Fault Refusal := occur s (onStealAttempt core s)

/-! ## The end of a block (R66, R82, R116, R441, R474, R565) -/

/-- The three conditions of R66, and that its passes have taken effect; in a deterministic launch its last stores are published. -/
def blockDone (b : Block) : Bool :=
  b.state == .resident && b.passes.isEmpty && b.packs.all fun p => packExited p && engIdle p && p.buf.isEmpty

/-- A block that has not claimed on a stream declines on it (R116). -/
def declineAll (l : Launch) (linear : Nat) : Launch := (List.range 16).foldl (fun l i => (claimStream l i linear 0).1) l

/-- The completion counter rises by one (R82); a write that cannot be performed is reported (R565). -/
def doneIncrement (s : State) (l : Launch) (linear : Nat) : State :=
  let va := pkDone (launchWord l)
  if va = 0 then s
  else
    let lost := fun c => postEvent s l.region (eventRecord 13 c l.ctx 0 0 linear 0 va)
    match xlate s l.ctx false .write va with
    | .error c => lost c
    | .ok pa => if gPoisoned s pa 8 then lost 0x0E else (memAtomic (chargeMem s l.region pa 8) pa 8 0 1 0).1

/-- The last block of a launch has ended. -/
def launchEnd (s : State) (l : Launch) (linear : Nat) : State :=
  let s := doneIncrement s l linear
  let s := { s with launches := s.launches.filter fun x => x.lid != l.lid }
  match l.task with
  | some t => taskEnd s t
  | none => s

/-- The shadows of a region on a core are flushed when its last block there has ended (R474). -/
def flushLast (s : State) (c rcb : Nat) : State :=
  if (residents s c).any fun b => (blockCtx s b).2 == rcb then s else flushWhere s fun h => h.unit == c && h.rcb == rcb

/-- The end of a block: its lines go back, its resources are released. -/
def endBlock (s : State) (b : Block) (l : Launch) : State :=
  let s := removeBlock (cleanLines s b fun _ => true) b.bid
  let s := regate s b.core
  let l := { declineAll l b.linear with ended := l.ended ++ [b.linear] }
  let s := flushLast (setLaunch s l) b.core l.region
  if launchBlocks l ≤ l.ended.length then launchEnd s l b.linear else s

/-- The addresses that the end of a block writes: its dirty lines' homes, and the completion counter of a launch that ends with it. -/
def endWrites (s : State) (b : Block) (l : Launch) : List Nat :=
  ((b.lines.filter fun x => x.dirty != 0).map fun x => x.pa) ++
  if l.ended.length + 1 < launchBlocks l ∨ pkDone (launchWord l) = 0 then []
  else match xlate s l.ctx false .write (pkDone (launchWord l)) with
    | .ok pa => [pa]
    | .error _ => []

/-- Where they are held (R104). -/
def endHeld (s : State) (b : Block) (l : Launch) : Option (Nat × Nat) := heldAmong s l.region (endWrites s b l)

/-- BLOCK_END (R66). -/
def onBlockEnd (blk : Nat) (s : State) : Option State :=
  match getBlock s blk with
  | none => none
  | some b =>
    match getLaunch s b.launch with
    | none => none
    | some l => if blockDone b then admitAt s l.region (endHeld s b l) (endBlock s b l) else none

/-- The step of BLOCK_END. -/
def execBlockEnd (blk : Nat) (s : State) : Host.Outcome State Fault Refusal := occur s (onBlockEnd blk s)

/-- PENDING_SPAWN (R95). -/
def onPendingSpawn (s : State) : Option State := due (spawnReady s) (startSpawn s)

/-- The step of PENDING_SPAWN. -/
def execPendingSpawn (s : State) : Host.Outcome State Fault Refusal := occur s (onPendingSpawn s)

/-! ## Runs (R98) -/

/-- The fragment that runs on a scheduler, at the limit of its run. -/
def atLimit (s : State) (k : Nat) : Option Issuer :=
  ((allFrags s).filterMap (issuerAt s)).find? fun e => schedOf e == k && e.f.running && 48 ≤ e.f.slots && e.f.burst.isNone

/-- The run ends: the ready fragment that has waited longest runs next, or the same one in a new run. -/
def endRun (s : State) (k : Nat) (e : Issuer) : State :=
  match (readyFrags s).filter fun x => schedOf x == k && !x.f.running with
  | [] => putFrag s e.ref { e.f with slots := 0 }
  | x :: xs => { startRun s (longest x xs) with cur := s.cur }

/-- RUN_END (R98). -/
def onRunEnd (core : BitVec 8) (sched : BitVec 2) (s : State) : Option State :=
  let k := 4 * core.toNat + sched.toNat
  match atLimit s k with
  | none => none
  | some e => due true (endRun s k e)

/-- The step of RUN_END. -/
def execRunEnd (core : BitVec 8) (sched : BitVec 2) (s : State) : Host.Outcome State Fault Refusal :=
  occur s (onRunEnd core sched s)

/-! ## Waits (R78, R113, R116, R190, R191) -/

/-- The word of global memory that a wait is for: its address and width, and whether a monitor is armed at its home. -/
def wordOf : Wait → Option (Nat × Nat × Bool)
  | .word pa w _ _ mon => some (pa, w, mon)
  | .cword pa _ mon => some (pa, 4, mon)
  | _ => none

/-- A wait of WAITC or GWAIT (R190, R192, R420). -/
def isWordWait : Wait → Bool
  | .stashWord _ _ _ _ => true
  | w => (wordOf w).isSome

/-- Whether a wait reads its word again by the schedule of R191: no monitor was free, or a stash owns the line (R192). -/
def polls (s : State) (w : Wait) : Bool :=
  match wordOf w with
  | some (pa, _, mon) => !mon || (ownerOf s pa).isSome
  | none => false

def isAppendWait : Wait → Bool
  | .append _ => true
  | _ => false

/-- A fragment of a resident block that waits for something that now holds. -/
def canWake (s : State) (r : FragRef) (p : Wait → Bool) : Bool :=
  match issuerAt s r with
  | none => false
  | some e => e.b.state == .resident && (e.f.st == .waiting || e.f.st == .regang || e.f.st == .pairing || e.f.st == .pfuse) &&
      p e.f.wait && wakes s e.b e.p e.f

/-- A fragment goes on: at REGANG it merges with those that wait there (R50), else it tries its instruction again. -/
def resumeFrag (s : State) (r : FragRef) : State :=
  match issuerAt s r with
  | some e => if e.f.st = .regang then mergeRegang s e else wakeFrag s r
  | none => s

/-- FRAGMENT_WAKE (R78), but for the waits whose end is an event of its own. -/
def onFragmentWake (f : FragRef) (s : State) : Option State :=
  due (canWake s f fun w => !isWordWait w && !isAppendWait w && w != .turn) (resumeFrag s f)

/-- The step of FRAGMENT_WAKE. -/
def execFragmentWake (f : FragRef) (s : State) : Host.Outcome State Fault Refusal := occur s (onFragmentWake f s)

/-- APPEND_CLAIM_GRANT (R116): every lower block has claimed; the fragment performs its claim. -/
def onAppendClaimGrant (f : FragRef) (s : State) : Option State :=
  due (canWake s f isAppendWait) (wakeFrag s f)

/-- The step of APPEND_CLAIM_GRANT. -/
def execAppendClaimGrant (f : FragRef) (s : State) : Host.Outcome State Fault Refusal := occur s (onAppendClaimGrant f s)

/-- CONDITION_MONITOR_WAKE (R190, R192): a monitor at the word's home, or the stash of the block, sees the write. -/
def onConditionMonitorWake (f : FragRef) (s : State) : Option State :=
  due (canWake s f fun w => isWordWait w && !polls s w) (wakeFrag s f)

/-- The step of CONDITION_MONITOR_WAKE. -/
def execConditionMonitorWake (f : FragRef) (s : State) : Host.Outcome State Fault Refusal := occur s (onConditionMonitorWake f s)

/-- The word that a fragment reads again, with the fragment. -/
def pollAt (s : State) (r : FragRef) : Option (Issuer × Nat × Nat) :=
  match issuerAt s r with
  | none => none
  | some e =>
    if e.b.state = .resident ∧ e.f.st = .waiting ∧ polls s e.f.wait then (wordOf e.f.wait).map fun x => (e, x.1, x.2.1) else none

/-- The read, an acquire at device scope (R191); the fragment goes on where it finds the condition. -/
def pollWord (s : State) (e : Issuer) (pa w : Nat) : State :=
  let t := l1Clear (if isReg pa then s else chargeMem s e.l.region pa w) e.b.core
  if wakes t e.b e.p e.f then wakeFrag t e.ref else t

/-- MONITOR_POLL (R191). -/
def onMonitorPoll (f : FragRef) (s : State) : Option State :=
  match pollAt s f with
  | none => none
  | some (e, pa, w) => admitAt s e.l.region (heldAmong s e.l.region [pa]) (pollWord s e pa w)

/-- The step of MONITOR_POLL. -/
def execMonitorPoll (f : FragRef) (s : State) : Host.Outcome State Fault Refusal := occur s (onMonitorPoll f s)

/-- BUDGET_PERIOD_END (R103, R105): the use starts again at zero, under the allowance as it now is. -/
def onBudgetPeriodEnd (unit : BitVec 11) (act : BitVec 3) (rcb : BitVec 52) (s : State) : Option State :=
  let (u, a, r) := (unit.toNat, act.toNat, rcb.toNat)
  due (findUse s u a r).isSome
    { s with budget := s.budget.map fun x =>
        if x.unit = u ∧ x.act = a ∧ x.rcb = r then { x with used := 0, allow := allowOf s (chainOf s 8 r) a, posted := false } else x }

/-- The step of BUDGET_PERIOD_END. -/
def execBudgetPeriodEnd (unit : BitVec 11) (act : BitVec 3) (rcb : BitVec 52) (s : State) : Host.Outcome State Fault Refusal :=
  occur s (onBudgetPeriodEnd unit act rcb s)

/-! ## Pre-emption (R106, R107) -/

/-- Every live fragment of every live pack waits in a way that a test selects. DESIGN CHOICE (log 73): a pack that has exited counts as
waiting in the "every pack" of R106. -/
def allWait (b : Block) (p : Wait → Bool) : Bool :=
  b.packs.all fun q => packExited q || (liveFrags q).all fun f => f.st == .waiting && p f.wait

/-- Every pack waits at condition monitors or at APPEND while another block waits for the core. -/
def idleForOthers (s : State) (b : Block) : Bool :=
  allWait b (fun w => isWordWait w || isAppendWait w) && !(coreOf s b.core).queue.isEmpty && b.packs.any fun p => !packExited p

/-- Every pack of a deterministic block waits while its launch has a block that has not started. -/
def detStuck (s : State) (b : Block) (l : Launch) : Bool :=
  l.det && (firstUnstarted s l).isSome && b.packs.all fun p => packExited p || packWaiting p

/-- A launch with a block that cannot start on any core of its allowed set. -/
def blockedLaunch (s : State) (l : Launch) : Bool :=
  (firstUnstarted s l).isSome && (List.range Config.nCores).all fun c => !(allowedCores s l).getLsbD c || !couldStart s c l

/-- Whether the release of a block would let a launch start on its core. -/
def wouldFree (s : State) (b : Block) (l : Launch) : Bool :=
  (allowedCores s l).getLsbD b.core &&
  coreFits { s with blocks := s.blocks.map fun x => if x.bid = b.bid then { x with state := .preempted } else x } b.core
    (pkPacks (launchWord l)) l && saveRoom s l

def prioOf (s : State) (b : Block) : Nat := match getLaunch s b.launch with
  | some l => l.prio
  | none => 0

/-- The block that a higher-priority launch displaces, of those on its allowed set: the lowest priority, then the latest start. -/
def isVictim (s : State) (b : Block) (l : Launch) : Bool :=
  let fit := fun (x : Block) => x.state == .resident && prioOf s x < l.prio && wouldFree s x l
  fit b && (s.blocks.filter fit).all fun x =>
    prioOf s b < prioOf s x || (prioOf s b == prioOf s x && x.order ≤ b.order)

def displaced (s : State) (b : Block) : Bool := s.launches.any fun l => prioOf s b < l.prio && blockedLaunch s l && isVictim s b l

/-- PREEMPT (R107), in the first three cases of R106. -/
def onPreempt (blk : Nat) (s : State) : Option State :=
  match getBlock s blk with
  | none => none
  | some b =>
    match getLaunch s b.launch with
    | none => none
    | some l =>
      let stuck := detStuck s b l
      due (b.state == .resident && (stuck || idleForOthers s b || displaced s b)) (preemptBlock s blk stuck)

/-- The step of PREEMPT. -/
def execPreempt (blk : Nat) (s : State) : Host.Outcome State Fault Refusal := occur s (onPreempt blk s)

/-- Every block of a region is pre-empted, and its shadows are flushed (R106, R474). -/
def switchRegion (s : State) (rcb : Nat) : State :=
  let bs := s.blocks.filter fun b => b.state == .resident && under s rcb (blockCtx s b).2
  flushWhere (bs.foldl (fun s b => preemptBlock s b.bid false) s) fun h => under s rcb h.rcb

/-- CONTEXT_SWITCH (R106). -/
def onContextSwitch (rcb : BitVec 52) (s : State) : Option State :=
  due (!inLehr s) (switchRegion s rcb.toNat)

/-- The step of CONTEXT_SWITCH. -/
def execContextSwitch (rcb : BitVec 52) (s : State) : Host.Outcome State Fault Refusal := occur s (onContextSwitch rcb s)

/-! ## Resumption (R109, R380, R541) -/

/-- Packs take free slots of the core; sub-packs of one pack share one (R59). -/
def moveSlots (free : List Nat) (b : Block) : List Pack :=
  let need := slotsNeeded b
  b.packs.map fun p => match need.findIdx? fun k => k == p.slot with
    | some i => { p with slot := free.getD i 0 }
    | none => p

/-- The marver slots that a pre-emption left without their elements. -/
def reloadAll (s : State) (bid : Nat) : State :=
  match getBlock s bid with
  | none => s
  | some b => (b.marver.filter fun e => e.2.pending).foldl (fun s e => reloadSlot s bid e.1) s

/-- A block resumes on a core: its packs find no L1 copy from before (R195), its marver slots reload. -/
def resumeBlock (s : State) (b : Block) (l : Launch) (c : Nat) : State :=
  let s := l1Clear (regate { s with rr := l.region } c) c
  let x := { b with core := c, state := .resident, behind := false, base := pickPlace s c (stashBytes l),
                    packs := moveSlots (freeSlots s c) b }
  reloadAll { setBlock s x with free := s.free + 1 } b.bid

/-- A block whose leaf RCB is no longer valid is discarded when it would resume (R541). -/
def discardBlock (s : State) (b : Block) (l : Launch) : State :=
  let s := removeBlock (blockPoison s b) b.bid
  postEvent s l.region (eventRecord 2 0 l.ctx 0 0 b.linear 0 0)

/-- BLOCK_RESUME (R109). -/
def onBlockResume (blk : Nat) (core : BitVec 8) (s : State) : Option State :=
  match getBlock s blk with
  | none => none
  | some b =>
    match getLaunch s b.launch with
    | none => none
    | some l =>
      let turn := (nextResume s l).any (fun x => x.bid == blk) && (nextLaunch s).any fun x => x.lid == l.lid
      if !rcbValid (rcbWord s l.region) then due (b.state == .preempted) (discardBlock s b l)
      else due (turn && resumeFits s l b core.toNat) (resumeBlock s b l core.toNat)

/-- The step of BLOCK_RESUME. -/
def execBlockResume (blk : Nat) (core : BitVec 8) (s : State) : Host.Outcome State Fault Refusal :=
  occur s (onBlockResume blk core s)

/-! ## Deterministic launches (R112, R113) -/

/-- DET_ROUND_COMPLETE (R112). -/
def onDetRoundComplete (launch : Nat) (s : State) : Option State :=
  match getLaunch s launch with
  | none => none
  | some l => if l.det && roundDone s l then admitAt s l.region (roundHeld s l) (publishRound s l) else none

/-- The step of DET_ROUND_COMPLETE. -/
def execDetRoundComplete (launch : Nat) (s : State) : Host.Outcome State Fault Refusal := occur s (onDetRoundComplete launch s)

/-- The fragments of a launch whose turn it is. -/
def dueTurns (s : State) (lid : Nat) : List FragRef :=
  ((s.blocks.filter fun b => b.launch == lid && b.state == .resident).flatMap blockFrags).filter fun r =>
    canWake s r fun w => w == .turn

/-- DET_SYNC_TURN (R113): the operation whose turn it is may perform. -/
def onDetSyncTurn (launch : Nat) (s : State) : Option State :=
  match dueTurns s launch with
  | [] => none
  | r :: _ => due true (wakeFrag s r)

/-- The step of DET_SYNC_TURN. -/
def execDetSyncTurn (launch : Nat) (s : State) : Host.Outcome State Fault Refusal := occur s (onDetSyncTurn launch s)

end Sys2Proof.Machine
end

