-- ==== Sys2Proof/Machine/Events.lean ====
section
/-! DEFINITION. What the memory system and the engines do on their own: stash segments, fills and write-backs (R128, R130, R134,
R515), L2 ways (R143), page walks (R150), streamer bytes, lane copies, matrix passes and drains (R222, R330, R340, R372, R536 to
R538), errors of the arrays and the scrub (R506, R512). -/

namespace Sys2Proof.Machine

/-! ## The stash -/

/-- STASH_SEGMENT_WAKE (R128): a gated segment that an allocation touches is awake. -/
def onStashSegmentWake (core : BitVec 8) (seg : BitVec 4) (s : State) : Option State :=
  let c := core.toNat
  let k := coreOf s c
  due ((touched s c).getLsbD seg.toNat && !k.awake.getLsbD seg.toNat)
    (putCore s c { k with awake := k.awake ||| BitVec.ofNat 16 (2 ^ seg.toNat) })

/-- The step of STASH_SEGMENT_WAKE. -/
def execStashSegmentWake (core : BitVec 8) (seg : BitVec 4) (s : State) : Host.Outcome State Fault Refusal :=
  occur s (onStashSegmentWake core seg s)

/-- STASH_FILL_COMPLETE (R130): the fill of an absent line of a bound region. -/
def onStashFillComplete (blk line : Nat) (s : State) : Option State :=
  match getBlock s blk with
  | none => none
  | some b =>
    match fillNeed s (blockCtx s b).1 true b line with
    | .ok (some pa) => due (b.state == .resident) (doFill s blk line pa)
    | _ => none

/-- The step of STASH_FILL_COMPLETE. -/
def execStashFillComplete (blk line : Nat) (s : State) : Host.Outcome State Fault Refusal :=
  occur s (onStashFillComplete blk line s)

/-- A line whose write-back its CXL port answers with an error: its dirty bytes are lost, it is absent, and the event is posted
(R515). -/
def loseLine (s : State) (b : Block) (l : StashLine) : State :=
  let (ctx, region) := blockCtx s b
  postEvent (setBlock s (dropLine b l.line)) region (eventRecord 3 0x0E ctx 0 0 0 0 (lineVa b l.line))

/-- An early write-back (R134): the line stays clean. -/
def earlyBack (s : State) (b : Block) (l : StashLine) : State := setBlock (sendLine s b l) (setLine b { l with dirty := 0 })

/-- STASH_WRITEBACK (R134): it succeeds, or its home cannot be reached or answers with an error. -/
def onStashWriteback (blk line : Nat) (err : Bool) (s : State) : Option State :=
  match getBlock s blk with
  | none => none
  | some b =>
    match lineAt b line with
    | none => none
    | some l =>
      if l.dirty = 0 ∨ (err && !cxlHome l.pa) then none
      else admitAt s (blockCtx s b).2 (heldAmong s (blockCtx s b).2 [l.pa])
        (if err || cutOff s l.pa then loseLine s b l else earlyBack s b l)

/-- The step of STASH_WRITEBACK. -/
def execStashWriteback (blk line : Nat) (err : Bool) (s : State) : Host.Outcome State Fault Refusal :=
  occur s (onStashWriteback blk line err s)

/-! ## The L2 (R143; log 7) -/

/-- The lines of a way of an M-stack. -/
def inWay (w : Nat × Nat) (line : Nat) (l : L2Line) : Bool := stackOf (128 * line) == w.1 && l.way == w.2

/-- L2_WAY_GATE: the way's lines are written back before it gates. -/
def onL2WayGate (stack : BitVec 2) (way : Nat) (s : State) : Option State :=
  let w := (stack.toNat, way)
  due (!s.gated.contains w) { l2Drop s (inWay w) with gated := w :: s.gated }

/-- The step of L2_WAY_GATE. -/
def execL2WayGate (stack : BitVec 2) (way : Nat) (s : State) : Host.Outcome State Fault Refusal :=
  occur s (onL2WayGate stack way s)

/-- L2_WAY_ENABLE: the way returns empty. -/
def onL2WayEnable (stack : BitVec 2) (way : Nat) (s : State) : Option State :=
  let w := (stack.toNat, way)
  due (s.gated.contains w) { s with gated := s.gated.filter fun x => x != w }

/-- The step of L2_WAY_ENABLE. -/
def execL2WayEnable (stack : BitVec 2) (way : Nat) (s : State) : Host.Outcome State Fault Refusal :=
  occur s (onL2WayEnable stack way s)

/-! ## Page walks (R146 to R150) -/

/-- The leaf entry that a page stands for. -/
def pageLeaf (p : Page) : Nat :=
  3 + 4 * bit p.w + 8 * bit p.x + 16 * bit p.sup + 32 * bit p.gw + (p.k - 12) * 64 + p.cache * 1024 + p.pa

/-- The table entries that a walk reads. -/
def walkPath (s : State) (va : Nat) : Nat → Nat → List Nat
  | level, table =>
    if !tablePaOk table then []
    else
      let a := table + 8 * (va / 2 ^ (12 + 9 * level) % 512)
      let e := gReadNat s a 8
      a :: if e % 2 = 0 ∨ e.testBit 1 then []
        else match level with
          | 0 => []
          | n + 1 => walkPath s va n (field e 51 12 * 4096)

/-- What a walk reads is charged (R547). -/
def chargeWalk (s : State) (w : Walk) : State :=
  match ctxEntry s w.ctx with
  | none => s
  | some (root, _) => (walkPath s (4096 * w.granule) 4 root).foldl (fun s a => chargeMem s w.rcb a 8) s

/-- A translation enters a TLB. -/
def putTlb (s : State) (e : TlbEntry) : State := { s with tlb := e :: s.tlb.filter fun x => x != e }

/-- A page that no TLB may hold: one of an ERT entry that is absent or fetching (R483). -/
def unheld (s : State) (ctx : Nat) (p : Page) : Bool := !(ertHits s (some ctx) p.va (2 ^ p.k) fun st => st == 0 || st == 1).isEmpty

/-- Whether a walk of the same C-die and context is for a granule of a page. -/
def sameWalk (w x : Walk) (p : Page) : Bool :=
  x.die == w.die && x.ctx == w.ctx && p.va ≤ 4096 * x.granule && 4096 * x.granule < p.va + 2 ^ p.k

/-- A walk has found a page: every pending miss that it covers completes, in the L1 TLBs of the cores and the L2 TLB of the C-die. -/
def walkFound (s : State) (w : Walk) (p : Page) : State :=
  let e : TlbEntry := { place := .die w.die, ctx := w.ctx, va := p.va, k := p.k, leaf := BitVec.ofNat 64 (pageLeaf p) }
  let cores := (s.walks.filter fun x => sameWalk w x p).flatMap fun x => x.cores
  let s := { s with walks := s.walks.filter fun x => !sameWalk w x p }
  cores.foldl (fun s c => putTlb s { e with place := .core c }) (putTlb s e)

/-- A walk ends; a fault enters no TLB. -/
def walkEnds (s : State) (w : Walk) : State :=
  let t := chargeWalk { s with walks := s.walks.filter fun x => x != w } w
  match walk s w.ctx (4096 * w.granule) with
  | .ok p => if unheld s w.ctx p then t else walkFound { t with walks := s.walks } w p
  | .error _ => t

/-- PAGE_WALK_COMPLETE (R150): a walk for the granule of an address. -/
def onPageWalkComplete (ctx : BitVec 16) (va : DWord) (s : State) : Option State :=
  (s.walks.find? fun w => w.ctx == ctx.toNat && w.granule == va.toNat / 4096).map (walkEnds s)

/-- The step of PAGE_WALK_COMPLETE. -/
def execPageWalkComplete (ctx : BitVec 16) (va : DWord) (s : State) : Host.Outcome State Fault Refusal :=
  occur s (onPageWalkComplete ctx va s)

/-! ## Engines -/

/-- An engine's operation goes on where no unit holds its region for the addresses, or the stash lines that it fills (R104). -/
def engineGoes (s : State) (o : EngineOp) (pas : List Nat) (fills : List (Nat × Nat)) (t : State) : Option State :=
  match getBlock s o.blk with
  | none => some t
  | some b =>
    let (ctx, region) := blockCtx s b
    admitAt s region (heldAmong s region (pas ++ fillPas s ctx true b fills)) t

/-- STREAMER_BYTES_COMPLETE (R340): n more bytes, whole elements of a reduction. -/
def onStreamerBytesComplete (op n : Nat) (s : State) : Option State :=
  match getEngine s op with
  | none => none
  | some o =>
    match o.work with
    | .xfer kind pages va off len moved bar =>
      let whole := match kind with
        | .red _ w => n % w == 0
        | _ => true
      if 1 ≤ n && moved + n ≤ len && whole then
        engineGoes s o ((unitParts (va + moved) n).map fun x => pagesPa pages x.1) [(off + moved, n)]
          (xferMove s o kind pages va off len moved bar n)
      else none
    | _ => none

/-- The step of STREAMER_BYTES_COMPLETE. -/
def execStreamerBytesComplete (op n : Nat) (s : State) : Host.Outcome State Fault Refusal :=
  occur s (onStreamerBytesComplete op n s)

/-- LANE_COPY_LAND (R330). -/
def onLaneCopyLand (op : Nat) (s : State) : Option State :=
  match getEngine s op with
  | none => none
  | some o =>
    match o.work with
    | .copy size lanes =>
      engineGoes s o (lanes.map fun l => l.pa) (lanes.map fun l => (l.dst, size)) (copyLand s o size lanes)
    | _ => none

/-- The step of LANE_COPY_LAND. -/
def execLaneCopyLand (op : Nat) (s : State) : Host.Outcome State Fault Refusal := occur s (onLaneCopyLand op s)

/-- MATRIX_DRAIN_COMPLETE (R372 to R374). -/
def onMatrixDrainComplete (op : Nat) (s : State) : Option State :=
  match getEngine s op with
  | none => none
  | some o =>
    match o.work with
    | .drain add elems =>
      engineGoes s o ((elems.filter fun d => !d.stash).map fun d => d.addr)
        ((elems.filter fun d => d.stash).map fun d => (d.addr, d.size)) (drainFinish s o add elems)
    | _ => none

/-- The step of MATRIX_DRAIN_COMPLETE. -/
def execMatrixDrainComplete (op : Nat) (s : State) : Host.Outcome State Fault Refusal := occur s (onMatrixDrainComplete op s)

/-! ## Matrix passes (R222, R359, R379, R536 to R538) -/

/-- The block that holds a pass, and the pass, if it is the oldest on its tile (R359). -/
def passAt (s : State) (op : Nat) : Option (Block × PassOp) :=
  s.blocks.findSome? fun b =>
    match b.passes.find? fun p => p.id == op with
    | some p => if (b.passes.find? fun q => q.tile == p.tile).map (·.id) = some op then some (b, p) else none
    | none => none

/-- A pass is lost, and its domain escalates (R538). -/
def passLost (s : State) (b : Block) (p : PassOp) (elems : List Nat) : State := takeDooms (losePassAt s b p elems)

/-- MATRIX_PASS_COMPLETE (R222): the residues agree and the tile is updated, unless an element that it reads is in error (R538). -/
def onMatrixPassComplete (op : Nat) (s : State) : Option State :=
  match passAt s op with
  | none => none
  | some (b, p) =>
    if !(passErrs b p).isEmpty then some (passLost s b p (passErrs b p))
    else due (p.replays == 0 && passCheck p) (setBlock s (applyPass b p))

/-- The step of MATRIX_PASS_COMPLETE. -/
def execMatrixPassComplete (op : Nat) (s : State) : Host.Outcome State Fault Refusal := occur s (onMatrixPassComplete op s)

/-- What a replay leaves: the tile's update where its check passes (R536), else the pass still to replay, or lost. -/
def replayPass (s : State) (b : Block) (p : PassOp) (good : Bool) : State :=
  let s := countReplay s b p
  match getBlock s b.bid with
  | none => s
  | some b' =>
    if good then setBlock s (applyPass b' p)
    else if p.replays = 0 then s
    else passLost s b' p (p.sums.map fun x => x.elem)

/-- CHECKSUM_REPLAY (R536): a replay of a pass whose check failed. -/
def onChecksumReplay (op : Nat) (good : Bool) (s : State) : Option State :=
  match passAt s op with
  | none => none
  | some (b, p) => due (!good || passCheck p) (replayPass s b p good)

/-- The step of CHECKSUM_REPLAY. -/
def execChecksumReplay (op : Nat) (good : Bool) (s : State) : Host.Outcome State Fault Refusal :=
  occur s (onChecksumReplay op good s)

/-! ## Errors of the arrays, and the scrub (R506, R512) -/

/-- An error of a sector of memory: poison; where the L2 holds the sector dirty, of what memory holds behind it. -/
def memoryError (s : State) (sector : Nat) : State :=
  let k := sector / 4
  let m := BitVec.ofNat 4 (2 ^ (sector % 4))
  match spFind? s.l2 k with
  | some l => if l.dirty &&& m = 0 then poisonSector s (32 * sector) else { s with l2 := spSet s.l2 k { l with bad := l.bad ||| m } }
  | none => poisonSector s (32 * sector)

def noteCorrected (s : State) : State := { s with hi := { s.hi with mbce := bumpAll s.hi.mbce } }

def noteUncorrected (s : State) : State := { s with hi := { s.hi with mbue := bumpAll s.hi.mbue } }

/-- An error of an L2 tag: the line is recovered from memory and its owning stash, unless its bytes stood in the L2 alone. -/
def tagError (s : State) (line : Nat) : State :=
  match spFind? s.l2 line with
  | none => s
  | some l =>
    let t := { s with l2 := spDel s.l2 line }
    let owned := match ownerOf s (128 * line) with
      | some (_, x) => x.written == BitVec.allOnes 128
      | none => false
    if l.dirty == 0 || owned then t else (List.range 4).foldl (fun s k => poisonSector s (128 * line + 32 * k)) t

/-- A resident block, changed. -/
def strikeBlock (s : State) (blk : Nat) (f : Block → Option Block) : Option State :=
  match getBlock s blk with
  | some b => if b.state = .resident then (f b).map (setBlock s) else none
  | none => none

def strikePack (s : State) (blk pidx pos : Nat) (f : Pack → Pack) : Option State :=
  strikeBlock s blk fun b => (getPack b pidx pos).map fun p => setPack b (f p)

/-- An accumulator element of a block is in error. -/
def strikeAcc (b : Block) (tile elem : Nat) : Block :=
  let t := spGet {} b.acc tile
  { b with acc := spPut {} b.acc tile { t with errs := insNat t.errs elem } }

/-- An error of an array, where the array holds what it strikes (R506). -/
def strikeAt (s : State) : Upset → Option State
  | .corrected => some s
  | .memory k => if deviceMemory (32 * k) then some (memoryError s k) else none
  | .l2Data k => (spFind? s.l2 (k / 4)).bind fun l => if l.valid.getLsbD (k % 4) then some (poisonSector s (32 * k)) else none
  | .l2Tag k => if (spFind? s.l2 k).isSome then some (tagError s k) else none
  | .l1 c k => some (setL1 s c ((coreOf s c).l1.filter fun l => l.line != k))
  | .tlb p va => some { s with tlb := s.tlb.filter fun e => !(e.place == p && e.va ≤ va && va < e.va + 2 ^ e.k) }
  | .stash blk w => strikeBlock s blk fun b =>
      if 4 * w < 128 * pkStash (packetOf s b) then some { b with stashPoison := insNat b.stashPoison w } else none
  | .vector blk i j lane r banked => strikePack s blk i j fun p => { p with badV := (lane, r, banked) :: p.badV }
  | .uniform blk i j r banked => strikePack s blk i j fun p => { p with badS := (r, banked) :: p.badS }
  | .predicate blk i j lane r => strikePack s blk i j fun p => { p with badP := (lane, r) :: p.badP }
  | .accumulator blk t k => strikeBlock s blk fun b =>
      if t < pkAcc (packetOf s b) ∧ k < 1024 then some (strikeAcc b t k) else none
  | .marver blk k => strikeBlock s blk fun b =>
      (spFind? b.marver k).map fun m => { b with marver := spSet b.marver k { m with err := true } }
  | .gate k => (spFind? s.gates k).map fun g => { s with gates := spSet s.gates k { g with err := true } }

/-- An error of an array is counted (R555) and acts as R506 gives. -/
def strike (s : State) (u : Upset) : State :=
  match strikeAt s u with
  | none => s
  | some t => if u = .corrected then noteCorrected t else noteUncorrected t

/-- What reaches the device from outside with no event of its own (log 79). -/
def takeInput (s : State) : Input → State
  | .upset u => strike s u
  | .page src ctx va k cells bad => takePage s src ctx va k cells bad

def scrubSector (s : State) (sector : Nat) : ScrubResult → State
  | .clean => s
  | .corrected => noteCorrected s
  | .uncorrectable => noteUncorrected (memoryError s sector)

/-- SCRUB (R512). -/
def onScrub (sector : Nat) (r : ScrubResult) (s : State) : Option State :=
  due (!inLehr s && deviceMemory (32 * sector)) (scrubSector s sector r)

/-- The step of SCRUB. -/
def execScrub (sector : Nat) (r : ScrubResult) (s : State) : Host.Outcome State Fault Refusal := occur s (onScrub sector r s)

end Sys2Proof.Machine
end

