-- ==== Sys2Proof/Machine/Fabric.lean ====
section
/-! DEFINITION. Grid messages that links bring (R395 to R398, R402 to R404, R411 to R418, R519), and the links and planes themselves
(R391 to R393, R523 to R525, R559). -/

namespace Sys2Proof.Machine

/-! ## Messages (R389, R401) -/

/-- A message of another device may arrive: this one is reachable (R559), its grid is described, and the pattern is valid. -/
def fromAfar (s : State) (m : GMsg) : Bool :=
  !s.unreachable && gridValid s && m.src != selfLin s && m.src < gridDevices s && 1 ≤ m.cnt && 1 ≤ m.nparts && m.part < m.nparts

/-- A request whose pattern, as its source evaluates it, reaches this device. -/
def reachesHere (s : State) (m : GMsg) : Bool :=
  fromAfar s m && patValid s m.pat.toNat && patReaches m.pat.toNat (coordOf s m.src) (selfCoord s)

/-- A contribution whose root this device is. -/
def rootHere (s : State) (m : GMsg) : Bool :=
  fromAfar s m && patValid s m.pat.toNat && patRoot m.pat.toNat (coordOf s m.src) == selfCoord s

/-- An answer to an operation of this device. -/
def answersHere (s : State) (m : GMsg) : Bool :=
  !s.unreachable && gridValid s && m.src == selfLin s && 1 ≤ m.cnt

/-- A request that a link brings. -/
def requestIn (s : State) (g : GOut) (busy : Bool := false) : State := arrive (fromLink s g) g busy

/-- An answer that a link brings. -/
def answerIn (s : State) (g : GOut) : State := receiveAnswer (fromLink s g) g

/-- GST_LINE_RECEIVE (R411). -/
def onGstLineReceive (m : GMsg) (s : State) : Option State :=
  due (reachesHere s m) (requestIn s { kind := 0, msg := m })

/-- The step of GST_LINE_RECEIVE. -/
def execGstLineReceive (m : GMsg) (s : State) : Host.Outcome State Fault Refusal := occur s (onGstLineReceive m s)

/-- GLD_REQUEST_RECEIVE (R413). -/
def onGldRequestReceive (m : GMsg) (s : State) : Option State :=
  due (reachesHere s m) (requestIn s { kind := 1, msg := m })

/-- The step of GLD_REQUEST_RECEIVE. -/
def execGldRequestReceive (m : GMsg) (s : State) : Host.Outcome State Fault Refusal := occur s (onGldRequestReceive m s)

/-- GLD_REPLY_RECEIVE (R413). -/
def onGldReplyReceive (m : GMsg) (s : State) : Option State :=
  due (answersHere s m) (answerIn s { kind := 2, msg := m })

/-- The step of GLD_REPLY_RECEIVE. -/
def execGldReplyReceive (m : GMsg) (s : State) : Host.Outcome State Fault Refusal := occur s (onGldReplyReceive m s)

/-- GRED_CONTRIBUTION_RECEIVE (R416): it may find its router port busy (R403). -/
def onGredContributionReceive (c : Contribution) (s : State) : Option State :=
  due (rootHere s c.msg) (requestIn s { kind := 3, msg := c.msg } c.busy)

/-- The step of GRED_CONTRIBUTION_RECEIVE. -/
def execGredContributionReceive (c : Contribution) (s : State) : Host.Outcome State Fault Refusal :=
  occur s (onGredContributionReceive c s)

/-- GATOM_REQUEST_RECEIVE (R403, R404): it may find its router port busy. -/
def onGatomRequestReceive (m : GMsg) (busy : Bool) (s : State) : Option State :=
  due (reachesHere s m) (requestIn s { kind := 4, msg := m } busy)

/-- The step of GATOM_REQUEST_RECEIVE. -/
def execGatomRequestReceive (m : GMsg) (busy : Bool) (s : State) : Host.Outcome State Fault Refusal :=
  occur s (onGatomRequestReceive m busy s)

/-- GATOM_REPLY_RECEIVE (R404). -/
def onGatomReplyReceive (m : GMsg) (s : State) : Option State :=
  due (answersHere s m) (answerIn s { kind := 5, msg := m })

/-- The step of GATOM_REPLY_RECEIVE. -/
def execGatomReplyReceive (m : GMsg) (s : State) : Host.Outcome State Fault Refusal := occur s (onGatomReplyReceive m s)

/-- GSCAN_CONTRIBUTION_RECEIVE (R418). -/
def onGscanContributionReceive (m : GMsg) (s : State) : Option State :=
  due (rootHere s m) (requestIn s { kind := 6, msg := m })

/-- The step of GSCAN_CONTRIBUTION_RECEIVE. -/
def execGscanContributionReceive (m : GMsg) (s : State) : Host.Outcome State Fault Refusal :=
  occur s (onGscanContributionReceive m s)

/-- GSCAN_REPLY_RECEIVE (R418). -/
def onGscanReplyReceive (m : GMsg) (s : State) : Option State :=
  due (answersHere s m) (answerIn s { kind := 7, msg := m })

/-- The step of GSCAN_REPLY_RECEIVE. -/
def execGscanReplyReceive (m : GMsg) (s : State) : Host.Outcome State Fault Refusal := occur s (onGscanReplyReceive m s)

/-- GCOPY_LINE_RECEIVE (R412). -/
def onGcopyLineReceive (m : GMsg) (s : State) : Option State :=
  due (reachesHere s m) (requestIn s { kind := 8, msg := m })

/-- The step of GCOPY_LINE_RECEIVE. -/
def execGcopyLineReceive (m : GMsg) (s : State) : Host.Outcome State Fault Refusal := occur s (onGcopyLineReceive m s)

/-- GCOPY_HELD_DELIVERY (R412). -/
def onGcopyHeldDelivery (s : State) : Option State :=
  due (s.landings.any (landingDue s)) (deliverLandings s)

/-- The step of GCOPY_HELD_DELIVERY. -/
def execGcopyHeldDelivery (s : State) : Host.Outcome State Fault Refusal := occur s (onGcopyHeldDelivery s)

/-- ACKNOWLEDGEMENT_RECEIVE (R402). -/
def onAcknowledgementReceive (m : GMsg) (s : State) : Option State :=
  due (answersHere s m) (answerIn s { kind := 9, msg := m })

/-- The step of ACKNOWLEDGEMENT_RECEIVE. -/
def execAcknowledgementReceive (m : GMsg) (s : State) : Host.Outcome State Fault Refusal := occur s (onAcknowledgementReceive m s)

/-- The marker of a plane, as a message. -/
def markerMsg (src tag ctx plane : Nat) : GOut :=
  { kind := 10,
    msg := { pat := 0, src, ctx, tag, gop := 0, width := 0, order := .release, sys := false, mflag := false, poison := false, count := 0,
             key := 0, addr := 0, nparts := 1, part := plane, cnt := 1, cw := 0, bytes := [], element := 0, compare := 0, lane := 0,
             refused := 0, first := 0, fvalid := false, code := 0, landing := 0, markers := 0 } }

/-- A marker that a link brings, with its bytes charged to its context's region (R408). -/
def markerIn (s : State) (g : GOut) : State :=
  let s := fromLink s g
  let s := match regionOfCtx s g.msg.ctx with
    | some r => chargeFabric s r.rcb (payloadBytes g) true
    | none => s
  markerArrives s g.msg.src g.msg.tag g.msg.part

/-- RELEASE_MARKER_RECEIVE (R398). -/
def onReleaseMarkerReceive (src : BitVec 20) (mark : MarkerId) (s : State) : Option State :=
  due (!s.unreachable && gridValid s && src.toNat != selfLin s && src.toNat < gridDevices s)
    (markerIn s (markerMsg src.toNat mark.tag.toNat mark.ctx.toNat mark.plane.toNat))

/-- The step of RELEASE_MARKER_RECEIVE. -/
def execReleaseMarkerReceive (src : BitVec 20) (mark : MarkerId) (s : State) : Host.Outcome State Fault Refusal :=
  occur s (onReleaseMarkerReceive src mark s)

/-- REFUSAL_RECEIVE (R519). -/
def onRefusalReceive (m : GMsg) (s : State) : Option State :=
  due (answersHere s m) (answerIn s { kind := 11, msg := m })

/-- The step of REFUSAL_RECEIVE. -/
def execRefusalReceive (m : GMsg) (s : State) : Host.Outcome State Fault Refusal := occur s (onRefusalReceive m s)

/-! ## Failed planes (R398, R525) -/

/-- The domains of the regions that have a grid message in flight on a plane. -/
def planeDomains (s : State) (m : Nat) : List Nat :=
  ((s.gridOps.filter fun o => o.planes.contains m && !o.poisoned).map fun o => domainOf s 8 o.region).eraseDups

/-- A domain escalates for a failed plane, with its event. -/
def planeEscalate (m : Nat) (s : State) (domain : Nat) : State :=
  let ctx := rcbCtxid s domain
  let s := postTo (stopDomain s domain) domain (eventRecord 2 0x0F ctx 0 0x0F 0 0 0)
  postTo s domain (eventRecord 10 0x0F ctx 0 0 m 0 0)

/-- Nothing that stood at the links of a plane leaves on it any longer. -/
def clearLink (ls : Sparse Link) (k : Nat) : Sparse Link := spPut {} ls k { spGet {} ls k with kept := [], queue := [] }

/-- A plane fails: nothing more is sent on it, its domains stop, their acknowledgements are discarded; a released write here that still
waits for its marker is discarded (R398). -/
def failPlane (s : State) (m : Nat) : State :=
  let ds := planeDomains s m
  let s := { s with deadPlanes := s.deadPlanes ||| BitVec.ofNat 8 (2 ^ m),
                    links := ((List.range 8).map fun i => 8 * m + i).foldl clearLink s.links,
                    gridOps := s.gridOps.filter fun o => !o.planes.contains m }
  let s := s.heldRel.foldl (fun s h => settleRelease s h (releaseParts s h.src h.tag)) s
  ds.foldl (planeEscalate m) (settlePort s false)

/-- PLANE_LOSS_REPORT (R525). -/
def onPlaneLossReport (plane : BitVec 3) (s : State) : Option State :=
  due (!s.deadPlanes.getLsbD plane.toNat) (failPlane s plane.toNat)

/-- The step of PLANE_LOSS_REPORT. -/
def execPlaneLossReport (plane : BitVec 3) (s : State) : Host.Outcome State Fault Refusal := occur s (onPlaneLossReport plane s)

/-! ## Links (R391 to R393, R523, R524, R559) -/

/-- A link that is up: what arrives on it is taken. -/
def linkUp (s : State) (k : Nat) : Bool := (getLink s k).up

/-- A control flit leaves on virtual channel 5 (R392). -/
def sendCtl (s : State) (k : Nat) (f : CtlFlit) : State := sendOpen { s with ctlOut := s.ctlOut ++ [f] } k 2 5 1

/-- An accepted link-control flit. -/
def takeFlit (s : State) (k : Nat) : State := acceptFlits s k 5 1

/-- An idle flit takes its number, and no slot. -/
def takeIdle (l : Link) (vc crd : Nat) : Link :=
  { l with rx := l.rx + 1, spent := spPut 0 l.spent vc (spGet 0 l.spent vc - crd) }

/-- IDLE_FLIT_RECEIVE (R393): credits return, never beyond the announced count, and what waited for them leaves. -/
def onIdleFlitReceive (link : BitVec 6) (vc : BitVec 3) (crd : BitVec 6) (s : State) : Option State :=
  let k := link.toNat
  due (linkUp s k) (pump s k (takeIdle (getLink s k) vc.toNat crd.toNat))

/-- The step of IDLE_FLIT_RECEIVE. -/
def execIdleFlitReceive (link : BitVec 6) (vc : BitVec 3) (crd : BitVec 6) (s : State) : Host.Outcome State Fault Refusal :=
  occur s (onIdleFlitReceive link vc crd s)

/-- RESERVED_VC_FLIT (R392): it is dropped, and its slot is free. -/
def onReservedVcFlit (link : BitVec 6) (s : State) : Option State :=
  let k := link.toNat
  let t := acceptFlits s k 7 1
  due (linkUp s k) (putLink t k { getLink t k with errors := (getLink t k).errors + 1 })

/-- The step of RESERVED_VC_FLIT. -/
def execReservedVcFlit (link : BitVec 6) (s : State) : Host.Outcome State Fault Refusal := occur s (onReservedVcFlit link s)

/-- FLIT_CRC_FAILURE (R523): the flit is discarded, and a replay asked for. -/
def onFlitCrcFailure (link : BitVec 6) (s : State) : Option State :=
  let k := link.toNat
  due (linkUp s k) (sendCtl s k (.replay k (getLink s k).rx))

/-- The step of FLIT_CRC_FAILURE. -/
def execFlitCrcFailure (link : BitVec 6) (s : State) : Host.Outcome State Fault Refusal := occur s (onFlitCrcFailure link s)

/-- The kept flits from a number on. -/
def keptFrom (l : Link) (fseq : BitVec 8) : List PortFlit := l.kept.dropWhile fun w => w.flit.fseq != fseq

/-- Kept flits are sent again, as they were. -/
def resendFlits (s : State) (k : Nat) (ws : List PortFlit) : State :=
  { s with flitsOut := s.flitsOut ++ ws.map fun w => (k, w.flit) }

/-- LINK_REPLAY_REQUEST (R523): the kept flits are sent again, in order, and a failed replay counts. -/
def onLinkReplayRequest (link : BitVec 6) (fseq : BitVec 8) (s : State) : Option State :=
  let k := link.toNat
  let l := getLink s k
  let again := keptFrom l fseq
  due (l.up && l.fails < 16 && (!again.isEmpty || fseq == l.tx))
    (resendFlits (putLink s k { l with fails := l.fails + 1, flits := l.flits + again.length }) k again)

/-- The step of LINK_REPLAY_REQUEST. -/
def execLinkReplayRequest (link : BitVec 6) (fseq : BitVec 8) (s : State) : Host.Outcome State Fault Refusal :=
  occur s (onLinkReplayRequest link fseq s)

/-- LINK_FLIT_ACKNOWLEDGE (R523): the copies up to the acknowledged flit are dropped. -/
def onLinkFlitAcknowledge (link : BitVec 6) (fseq : BitVec 8) (s : State) : Option State :=
  let k := link.toNat
  let l := getLink s k
  due (l.up && l.kept.any fun w => w.flit.fseq == fseq)
    (putLink s k { l with kept := (keptFrom l fseq).drop 1, fails := 0 })

/-- The step of LINK_FLIT_ACKNOWLEDGE. -/
def execLinkFlitAcknowledge (link : BitVec 6) (fseq : BitVec 8) (s : State) : Host.Outcome State Fault Refusal :=
  occur s (onLinkFlitAcknowledge link fseq s)

/-- The next live link of a link's plane, in cyclic order. -/
def nextLink (s : State) (k : Nat) : Option Nat :=
  ((List.range 7).map fun i => k / 8 * 8 + (k + 1 + i) % 8).find? (linkUp s)

/-- What stands first in a queue of the messages of which a flit has left already, and the rest. -/
def begun : List (BitVec 3) → List PortFlit → List PortFlit × List PortFlit
  | _, [] => ([], [])
  | vcs, w :: ws =>
    if w.flit.sof || vcs.contains w.flit.vc then
      let r := begun (w.flit.vc :: vcs) ws
      (r.1, w :: r.2)
    else
      let r := begun vcs ws
      (w :: r.1, r.2)

/-- The flits that a link had not had acknowledged move to another one, ahead of newer traffic, and its queue follows; a control flit
names the first of them to the receiver. -/
def moveFlits (s : State) (old : Link) (k : Nat) : State :=
  let kept := old.kept.filter fun w => w.flit.kind != 1#2
  let s := match kept with
    | [] => s
    | w :: _ => sendCtl s k (.failover k w.flit.fseq)
  let l := getLink s k
  let q := begun [] l.queue
  pump s k { l with queue := q.1 ++ kept ++ q.2 ++ old.queue }

/-- A link goes down: its unacknowledged flits move, and the report goes to the mailbox; without a live link the plane fails
(R523, R525). -/
def downLink (s : State) (k : Nat) : State :=
  let l := getLink s k
  let s := putLink s k { l with up := false, kept := [], queue := [], owed := [] }
  let s := { s with hi := { s.hi with mbfabric := bumpHalf s.hi.mbfabric false } }
  match nextLink s k with
  | some j => moveFlits s l j
  | none => if s.deadPlanes.getLsbD (k / 8) then s else failPlane s (k / 8)

/-- LINK_DOWN (R523): after 16 failed replays. -/
def onLinkDown (link : BitVec 6) (s : State) : Option State :=
  let k := link.toNat
  due (linkUp s k && 16 ≤ (getLink s k).fails) (downLink s k)

/-- The step of LINK_DOWN. -/
def execLinkDown (link : BitVec 6) (s : State) : Host.Outcome State Fault Refusal := occur s (onLinkDown link s)

/-- LINK_FAILOVER_NOTICE (R523): what was moved here and has been accepted before is discarded from that flit on. -/
def onLinkFailoverNotice (link : BitVec 6) (fseq : BitVec 8) (s : State) : Option State :=
  let k := link.toNat
  let t := takeFlit s k
  due (linkUp s k) (putLink t k { getLink t k with moved := some fseq })

/-- The step of LINK_FAILOVER_NOTICE. -/
def execLinkFailoverNotice (link : BitVec 6) (fseq : BitVec 8) (s : State) : Host.Outcome State Fault Refusal :=
  occur s (onLinkFailoverNotice link fseq s)

/-- AUDIT_FLIT_SEND (R524): every 2^16 flits. -/
def onAuditFlitSend (link : BitVec 6) (s : State) : Option State :=
  let k := link.toNat
  let t := putLink s k { getLink s k with flits := 0 }
  due (linkUp s k && 2 ^ 16 ≤ (getLink s k).flits) (sendCtl t k (.audit k))

/-- The step of AUDIT_FLIT_SEND. -/
def execAuditFlitSend (link : BitVec 6) (s : State) : Host.Outcome State Fault Refusal := occur s (onAuditFlitSend link s)

/-- The kept flits that hold a slot of a channel at the other end. -/
def flying (l : Link) (vc : Nat) : Nat := (l.kept.filter fun w => w.flit.kind != 1#2 && w.flit.vc.toNat == vc).length

/-- A link retrains: initial credits are exchanged again, and the unacknowledged flits replayed (R524). -/
def retrain (s : State) (k : Nat) : State :=
  let l := getLink s k
  let spent := (List.range 8).foldl (fun m vc => spPut 0 m vc (flying l vc)) []
  let s := resendFlits s k l.kept
  let s := pump s k { l with spent, owed := [], flits := l.flits + l.kept.length }
  { s with hi := { s.hi with mbfabric := bumpHalf s.hi.mbfabric true } }

/-- CREDIT_AUDIT_RECEIVE (R524): the announced free slots against the credits left and the flits in flight. -/
def onCreditAuditReceive (link : BitVec 6) (vc : BitVec 3) (slots : Nat) (s : State) : Option State :=
  let k := link.toNat
  let t := takeFlit s k
  let l := getLink s k
  due (linkUp s k)
    (if Config.initialCredits k vc.toNat + flying l vc.toNat = slots + spGet 0 l.spent vc.toNat then t else retrain t k)

/-- The step of CREDIT_AUDIT_RECEIVE. -/
def execCreditAuditReceive (link : BitVec 6) (vc : BitVec 3) (slots : Nat) (s : State) : Host.Outcome State Fault Refusal :=
  occur s (onCreditAuditReceive link vc slots s)

/-- UNREACHABLE_MARK (R559). -/
def onUnreachableMark (link : BitVec 6) (s : State) : Option State :=
  due (s.unreachable && linkUp s link.toNat) (sendCtl s link.toNat (.unreachable link.toNat))

/-- The step of UNREACHABLE_MARK. -/
def execUnreachableMark (link : BitVec 6) (s : State) : Host.Outcome State Fault Refusal := occur s (onUnreachableMark link s)

end Sys2Proof.Machine
end

