-- ==== Sys2Proof/Machine/GridInstr.lean ====
section
/-! DEFINITION. The grid instructions (spec/12 R406 to R421): GPAT, GST, GCOPY, GLD, GRED, GATOM, GSCAN, GFENCE and GWAIT. -/

namespace Sys2Proof.Machine

def execGpat (g : G64) (s : State) : Host.Outcome State Fault Refusal :=
  issue s 8 .any false fun e =>
    let act := activeLanes e g.pred
    match regsCause e act g.data 4 with
    | some c => .trap (trapAll e act c)
    | none =>
      if (livePlanes s).isEmpty then .trap (trapAll e act 0x10)
      else if act.isEmpty then .ok s {}
      else .ok (putPack s e.ref.blk { e.p with gp := spPut 0 e.p.gp g.gp.toNat (BitVec.ofNat 128 (regsVal e g.data 4 0)) }) {}

/-! ## Lines -/

/-- Bytes at addresses laid over the lines that they touch: each line's address with its bytes and mask. A later byte takes the
place of an earlier one. -/
def putByte (line : List (Bool × Byte)) (i : Nat) (b : Byte) : List (Bool × Byte) := line.set i (true, b)

def emptyLine : List (Bool × Byte) := List.replicate 128 (false, 0)

def overlay (lines : List (Nat × List (Bool × Byte))) (a : Nat) (b : Byte) : List (Nat × List (Bool × Byte)) :=
  if lines.any fun l => l.1 == a / 128 then
    lines.map fun l => if l.1 = a / 128 then (l.1, putByte l.2 (a % 128) b) else l
  else lines ++ [(a / 128, putByte emptyLine (a % 128) b)]

def overlayBytes (lines : List (Nat × List (Bool × Byte))) (a : Nat) : List Byte → List (Nat × List (Bool × Byte))
  | [] => lines
  | b :: bs => overlayBytes (overlay lines a b) (a + 1) bs

/-- The messages of lines: each its address and bytes, numbered among the parts of the instruction. -/
def lineMsgs (kind : Nat) (m : GMsg) (lines : List (Nat × List (Bool × Byte))) : List GOut :=
  lines.mapIdx fun i l => { kind, msg := { m with addr := l.1 * 128, bytes := l.2, part := i, nparts := lines.length } }

/-- What lanes raise at a uniform check. -/
def uniformFault (lanes : List Nat) (f : Option (Nat × Nat)) : List (Nat × Option (Nat × Nat)) :=
  match f with
  | none => []
  | some _ => lanes.map fun l => (l, f)

/-! ## GST (R411) -/

/-- The lanes of a store in the order in which they are laid over the lines: a free choice where they meet (R161). -/
def gstOrder (s : State) (e : Issuer) (n : Nat) (as : List (Nat × Nat)) : List (Nat × Nat) × State := laneOrder s e n as

def gstEffect (s : State) (e : Issuer) (g : G64) (act : List Nat) : Act :=
  let n := gridBytes g
  let (order, s) := gstOrder s e n (act.map fun l => (l, gridAddr e g l))
  let lines := order.foldl (fun ls a => overlayBytes ls a.2 (leBytes n (dataVal e g (gridRegs g) a.1))) []
  let o := { newOp s e g 0 (patExpected s (patOf e g).toNat (selfCoord s)) true with
             cw := cwPa s e g .write, lowAddr := (act.map (gridAddr e g)).foldl (fun m a => lower m a) none }
  let s := setBlock s (moveQueues e e.b (dataSrcs g) .null [])
  let s := sendOp s e o (lineMsgs 0 (baseMsg s e g true) lines)
  .ok (if (popsOf (dataSrcs g)).isEmpty then s else syncDone s e) {}

def execGst (g : G64) (s : State) : Host.Outcome State Fault Refusal :=
  issue s 8 .last false fun e =>
    let act := activeLanes e g.pred
    match firstCause [operandCause e act [addrOpnd g] .null 1, uniCause e [cwOpnd g], dataCause e act g (gridRegs g)] with
    | some c => .trap (trapAll e act c)
    | none =>
      if !patOk s e g (someTarget s) then .trap (trapAll e act 0x10)
      else
        match firstFault (uniformFault act (cwCause s e g .write) ++
            act.map fun l => (l, windowCause (gridBytes g) (gridBytes g) (gridAddr e g l))) with
        | some t => .trap t
        | none =>
          if act.isEmpty then .ok s {}
          else
            match gridStall s e, queueWait s e act (dataSrcs g) .null with
            | some a, _ => a
            | none, some w => .wait .waiting w
            | none, none => gstEffect s e g act

/-! ## GCOPY (R412) -/

/-- The operands of a GCOPY: source, length, landing control, destination. -/
def gcopyArgs (e : Issuer) (g : G64) : Nat × Nat × Nat × Nat :=
  let d := regsVal e g.data 4 0
  (d % 2 ^ 64, field d 95 64, field d 127 96, gridAddr e g 0)

/-- What a GCOPY raises, beside its pattern and completion word, in the order of R407. -/
def gcopyCause (s : State) (e : Issuer) (g : G64) : Option (Nat × Nat) :=
  let (src, len, _, dst) := gcopyArgs e g
  let stash := g.gflags.getLsbD 0
  if len % 16 ≠ 0 ∨ len = 0 ∨ 2 ^ 24 < len ∨ src % 16 ≠ 0 then some (0x04, src)
  else if dst % 16 ≠ 0 then some (0x04, if stash then dst % 2 ^ 32 else dst)
  else if !stash && (windowCause 16 len dst).isSome then windowCause 16 len dst
  else
    match xlateRange s e.l.ctx (inSup e.f) .read src len with
    | .error (c, a) => some (c, a)
    | .ok _ => none

/-- The line messages of a GCOPY: those of a line whose source is poisoned carry the poison (R511). -/
def gcopyMsgs (s : State) (e : Issuer) (g : G64) (pages : List (Nat × Nat)) : List GOut :=
  let (src, len, ctl, dst) := gcopyArgs e g
  let off := if g.gflags.getLsbD 0 then dst % 2 ^ 32 else dst
  let high := if g.gflags.getLsbD 0 then dst / 2 ^ 32 * 2 ^ 32 else 0
  let n := (off + len - 1) / 128 - off / 128 + 1
  (List.range n).map fun i =>
    let line := (off / 128 + i) * 128
    let lo := max off line
    let k := min (off + len) (line + 128) - lo
    let from' := src + (lo - off)
    let bytes := List.replicate (lo - line) (false, 0) ++ (pagesRead s pages from' k).map (fun b => (true, b)) ++
      List.replicate (line + 128 - lo - k) (false, 0)
    { kind := 8, msg := { baseMsg s e g true with addr := line + high, bytes, part := i, nparts := n, landing := ctl,
                                                  poison := (pagesPoison s pages from' k).isSome } }

/-- Whether a GCOPY lands in the stash of the issuing block itself: its range then has an entry of the scoreboard from issue (R137). -/
def gcopyHere (s : State) (e : Issuer) (g : G64) : Bool :=
  let dst := (gcopyArgs e g).2.2.2
  g.gflags.getLsbD 0 && patReaches (patOf e g).toNat (selfCoord s) (selfCoord s) && dst / 2 ^ 32 == e.b.linear &&
  (landLaunch s e.l.ctx).any fun l => l.lid == e.b.launch

def gcopyEntry (s : State) (e : Issuer) (g : G64) : State :=
  let (_, len, _, dst) := gcopyArgs e g
  if gcopyHere s e g then
    setBlock s (scoreGrid e.b (selfLin s, freshTag s) (dst % 2 ^ 32) (dst % 2 ^ 32 + len - 1))
  else s

def gcopyEffect (s : State) (e : Issuer) (g : G64) (pages : List (Nat × Nat)) : Act :=
  let s := gcopyEntry s e g
  let (src, len, _, dst) := gcopyArgs e g
  let o := { newOp s e g 8 (patExpected s (patOf e g).toNat (selfCoord s)) true with
             cw := cwPa s e g .write, lowAddr := some dst }
  let s1 := sendOp s e o (gcopyMsgs s e g pages)
  let s2 := chargeSectors s1 e.l.region (pages.map fun p =>
    let lo := max src p.1
    (p.2 + (lo - p.1), min (src + len) (p.1 + 4096) - lo))
  match pagesPoison s pages src len with
  | some a => .ok (postMemoryError s2 e.l.region e.b.linear a) {}
  | none => .ok s2 {}

def execGcopy (g : G64) (s : State) : Host.Outcome State Fault Refusal :=
  issue s 8 .last false fun e =>
    let act := activeLanes e g.pred
    match firstCause [uniCause e [addrOpnd g, cwOpnd g], regsCause e act g.data (if g.gflags.getLsbD 0 then 4 else 3)] with
    | some c => .trap (trapAll e act c)
    | none =>
      let (src, len, ctl, _) := gcopyArgs e g
      if g.gflags.getLsbD 0 && 63 < ctl then .trap (trapAll e act 0x05)
      else if !patOk s e g (someTarget s) then .trap (trapAll e act 0x10)
      else
        match firstFault (uniformFault act (cwCause s e g .write) ++ uniformFault act (gcopyCause s e g)) with
        | some t => .trap t
        | none =>
          if act.isEmpty then .ok s {}
          else
            match xlateRange s e.l.ctx (inSup e.f) .read src len with
            | .error (c, a) => .trap (trapAt e c a)
            | .ok pages =>
              match gridStall s e, memHold s e (pages.map (·.2)) with
              | some a, _ => a
              | none, some h => holdAct s e h
              | none, none =>
                if strictRace s e (pages.map (·.2)) then .trap (trapAll e act 0x0A)
                else if gcopyHere s e g && decide (Config.scoreEntries ≤ scoreUsed s e.b.core) then .wait .waiting .entry
                else gcopyEffect s e g pages

/-! ## GLD and GATOM (R413, R417) -/

/-- One message for each lane, numbered among them. -/
def laneMsgs (kind : Nat) (act : List Nat) (f : Nat → GMsg) : List GOut :=
  act.mapIdx fun i l => { kind, msg := { f l with lane := l, part := i, nparts := act.length } }

/-- An operation that a value answers in each active lane. -/
def laneOp (s : State) (e : Issuer) (g : G64) (kind : Nat) (write : Bool) (as : List (Nat × Nat)) : GridOp :=
  { newOp s e g kind 0 write with lanes := as, width := gridBytes g,
                                  dst := match g.data with | .v r => r.toNat | _ => 0 }

def execGld (g : G64) (s : State) : Host.Outcome State Fault Refusal :=
  issue s 8 .last false fun e =>
    let act := activeLanes e g.pred
    match operandCause e act [addrOpnd g] (dstOf g.data) (gridRegs g) with
    | some c => .trap (trapAll e act c)
    | none =>
      if !patOk s e g oneTarget then .trap (trapAll e act 0x10)
      else
        match firstFault (act.map fun l => (l, windowCause (gridBytes g) (gridBytes g) (gridAddr e g l))) with
        | some t => .trap t
        | none =>
          if act.isEmpty then .ok s {}
          else
            match gridStall s e with
            | some a => a
            | none =>
              .ok (sendOp s e (laneOp s e g 1 false (act.map fun l => (l, gridAddr e g l)))
                (laneMsgs 1 act fun l => { baseMsg s e g false with addr := gridAddr e g l })) {}

/-- Operand and compare value of a GATOM lane (R326). -/
def gatomArgs (e : Issuer) (g : G64) (l : Nat) : Nat × Nat :=
  let n := gridRegs g
  let x := regsVal e g.data (if g.gop = 9#4 then 2 * n else n) l
  if g.gop = 9#4 then (x / 2 ^ (32 * n), x % 2 ^ (32 * n)) else (x, 0)

def execGatom (g : G64) (s : State) : Host.Outcome State Fault Refusal :=
  issue s 8 .last false fun e =>
    let act := activeLanes e g.pred
    let n := gridRegs g
    match firstCause [operandCause e act [addrOpnd g] .null 1, regsCause e act g.data (if g.gop = 9#4 then 2 * n else n)] with
    | some c => .trap (trapAll e act c)
    | none =>
      if e.l.det && e.l.strict then .trap (trapAll e act 0x0A)
      else if !patOk s e g oneTarget then .trap (trapAll e act 0x10)
      else
        match firstFault (act.map fun l => (l, windowCause (gridBytes g) (gridBytes g) (gridAddr e g l))) with
        | some t => .trap t
        | none =>
          if act.isEmpty then .ok s {}
          else
            match gridStall s e with
            | some a => a
            | none =>
              .ok (sendOp s e (laneOp s e g 4 true (act.map fun l => (l, gridAddr e g l)))
                (laneMsgs 4 act fun l => { baseMsg s e g true with
                  addr := gridAddr e g l, element := (gatomArgs e g l).1, compare := (gatomArgs e g l).2 })) {}

/-! ## GRED and GSCAN (R414, R418) -/

/-- A contribution: its completion word at the root, its count of contributions, its key. -/
def contribMsg (s : State) (e : Issuer) (g : G64) (write : Bool) (l : Nat) : GMsg :=
  { baseMsg s e g write with mflag := g.gflags.getLsbD 0, count := multOf g, key := laneKey e l, cw := (cwAddr e g).getD 0 }

/-- The lines of a GRED's footprint (R414). -/
def gredLines (e : Issuer) (g : G64) : Nat := (e.p.width * gridBytes g + 127) / 128

/-- The parts that a GRED or GSCAN which traps still sends if it is skipped or stopped (R521, R561): none unless its pattern is valid,
its issuer contributes, and the completion word is aligned. -/
def poisonParts (s : State) (e : Issuer) (g : G64) (kind : Nat) (act : List Nat) : List GOut :=
  let named := (match g.cw with | .s k => sOk e k.toNat 2 | _ => false)
  if named && patOk s e g (contributes s) && (cwAddr e g).getD 0 % 16 == 0 then
    let m := { contribMsg s e g false (act.headD 0) with poison := true, addr := (cwAddr e g).getD 0 }
    let n := if kind = 3 then gredLines e g else act.length
    (List.range n).map fun i =>
      { kind, msg := { m with part := i, nparts := n, lane := act.getD i 0 } }
  else []

/-- A trap of a contribution carries the parts of R521. -/
def withPoison (s : State) (e : Issuer) (g : G64) (kind : Nat) (act : List Nat) : Act → Act
  | .trap t => .trap { t with poison := poisonParts s e g kind act }
  | a => a

/-- The cause of an instruction that stands where a burst does not allow it. -/
def placeCause (e : Issuer) : Option Nat := if burstOk e.f .last then none else some 0x05

/-- The line messages of a GRED: all of its parts, each with the values of its active lanes (R408, R414). -/
def gredMsgs (s : State) (e : Issuer) (g : G64) (act : List Nat) : List GOut :=
  let w := gridBytes g
  let base := gridAddr e g 0
  let n := gredLines e g
  let m := contribMsg s e g true (act.headD 0)
  (List.range n).map fun i =>
    let line := (base / 128 + i) * 128
    let bytes := act.foldl (fun bs l =>
      let a := base + l * w
      if line ≤ a ∧ a < line + 128 then
        ((leBytes w (dataVal e g (gridRegs g) l)).mapIdx fun j b => (j, b)).foldl (fun bs x => putByte bs (a - line + x.1) x.2) bs
      else bs) emptyLine
    { kind := 3, msg := { m with addr := line, bytes, part := i, nparts := n } }

def gredAct (s : State) (e : Issuer) (g : G64) (act : List Nat) : Act :=
  match firstCause [placeCause e, uniCause e [addrOpnd g, cwOpnd g], dataCause e act g (gridRegs g)] with
  | some c => .trap (trapAll e act c)
  | none =>
    let span := e.p.width * gridBytes g
    if e.l.det && e.l.strict && g.gop == 10#4 && !g.gflags.getLsbD 0 then .trap (trapAll e act 0x0A)
    else if !patOk s e g (contributes s) then .trap (trapAll e act 0x10)
    else
      let lanes := if act.isEmpty then maskLanes e.p e.f else act
      let cw := (cwAddr e g).getD 0
      match firstFault (uniformFault lanes (if cw % 16 ≠ 0 then some (0x04, cw) else none) ++
          uniformFault lanes (windowCause (min span 128) span (gridAddr e g 0))) with
      | some t => .trap t
      | none =>
        match gridStall s e, queueWait s e act (dataSrcs g) .null with
        | some a, _ => a
        | none, some w => .wait .waiting w
        | none, none =>
          let s := setBlock s (if act.isEmpty then e.b else moveQueues e e.b (dataSrcs g) .null [])
          let s := sendOp s e (newOp s e g 3 (gredLines e g) true) (gredMsgs s e g act)
          .ok (if act.isEmpty ∨ (popsOf (dataSrcs g)).isEmpty then s else syncDone s e) {}

def execGred (g : G64) (s : State) : Host.Outcome State Fault Refusal :=
  issue s 8 .any false fun e =>
    let act := activeLanes e g.pred
    withPoison s e g 3 act (gredAct s e g act)

def gscanAct (s : State) (e : Issuer) (g : G64) (act : List Nat) : Act :=
  match firstCause [placeCause e, uniCause e [addrOpnd g, cwOpnd g], regsCause e act g.data (gridRegs g)] with
  | some c => .trap (trapAll e act c)
  | none =>
    if !patOk s e g (contributes s) then .trap (trapAll e act 0x10)
    else
      let cw := (cwAddr e g).getD 0
      match firstFault (uniformFault act (if cw % 16 ≠ 0 then some (0x04, cw) else none) ++
          uniformFault act (windowCause (gridBytes g) (gridBytes g) (gridAddr e g 0))) with
      | some t => .trap t
      | none =>
        if act.isEmpty then .ok s {}
        else
          match gridStall s e with
          | some a => a
          | none =>
            .ok (sendOp s e (laneOp s e g 6 true (act.map fun l => (l, gridAddr e g 0)))
              (laneMsgs 6 act fun l => { contribMsg s e g true l with
                addr := gridAddr e g 0, element := dataVal e g (gridRegs g) l })) {}

def execGscan (g : G64) (s : State) : Host.Outcome State Fault Refusal :=
  issue s 8 .any false fun e =>
    let act := activeLanes e g.pred
    withPoison s e g 6 act (gscanAct s e g act)

/-! ## GFENCE and GWAIT (R419, R420) -/

/-- What issued before the fence has a lower number than anything after it. -/
def execGfence (_g : G64) (s : State) : Host.Outcome State Fault Refusal :=
  issue s 8 .never false fun e =>
    if !gridUp s then .trap (trapAll e [] 0x10)
    else .ok (putPack { s with nextId := s.nextId + 1 } e.ref.blk { e.p with fences := [s.nextId] }) {}

/-- The count that a GWAIT waits for: M × E. -/
def waitTarget (s : State) (e : Issuer) (g : G64) : Nat :=
  (match g.addr with
   | .unused => waitMult g + 1
   | a => uniVal e a) * patExpected s (patOf e g).toNat (selfCoord s)

def execGwait (g : G64) (s : State) : Host.Outcome State Fault Refusal :=
  issue s 8 .never false fun e =>
    let act := activeLanes e g.pred
    match firstCause [uniCause e [cwOpnd g, { src := g.addr, ty := .b32, wide := false }], dstCause e act (dstOf g.data) 2] with
    | some c => .trap (trapAll e act c)
    | none =>
      if !patOk s e g (fun _ => true) then .trap (trapAll e act 0x10)
      else
        match firstFault (uniformFault act (cwCause s e g .read)) with
        | some t => .trap t
        | none =>
          if act.isEmpty then .ok s { res := latchOf (dstOf g.data) act [] }
          else if needsTurn s e then .wait .waiting .turn
          else
            let pa := (cwPa s e g .read).getD 0
            let target := waitTarget s e g
            let t := armOn pa s
            if gReadNat s pa 4 < target then
              .own (putFrag t e.ref { (refresh t e).f with st := .waiting, wait := .cword pa target (monitorFree s pa), since := t.tick,
                                                           gang := 0 })
            else
              let vals := act.map fun l => (l, gReadNat s pa 8)
              let t := putPack t e.ref.blk (writeBack (inSup e.f) (dstOf g.data) false 2 vals e.p)
              let t := if g.order == .acquire then acquired t e else t
              .ok (syncDone t e) { res := latchOf (dstOf g.data) act vals }

end Sys2Proof.Machine
end

