-- ==== Sys2Proof/Machine/Mgmt.lean ====
section
/-! DEFINITION. Accounting, islands, the management processor (R25, R26, R474, R475, R477 to R479), self-test and the resets (R553 to
R558). -/

namespace Sys2Proof.Machine

/-! ## Counters and meters (R474, R475) -/

/-- SHADOW_FLUSH_TIMER (R474). -/
def onShadowFlushTimer (unit : BitVec 11) (s : State) : Option State :=
  due true (flushWhere s fun h => h.unit == unit.toNat)

/-- The step of SHADOW_FLUSH_TIMER. -/
def execShadowFlushTimer (unit : BitVec 11) (s : State) : Host.Outcome State Fault Refusal := occur s (onShadowFlushTimer unit s)

/-- The logical core that a physical core presents (R31). -/
def logicalCore (s : State) (n : Nat) : Option Nat := (List.range Config.nCores).find? fun c => physCore s c == n

/-- The island of a physical core that the remap table does not enable is off (R26). -/
def islandOff (s : State) (n : Nat) : Bool := n < 208 && (logicalCore s n).isNone

/-- An island; one that is off has no voltage and no clock. -/
def islandOf (s : State) (n : Nat) : Island :=
  if islandOff s n then { mv := 0, mhz := 0 } else spGet Island.reset s.islands n

def putIsland (s : State) (n : Nat) (x : Island) : State := { s with islands := spPut Island.reset s.islands n x }

/-- The unit under which an island's energy is kept in the shadows. -/
def islandUnit (s : State) (n : Nat) : Nat :=
  if n < 208 then (logicalCore s n).getD 0 else if 224 ≤ n ∧ n < 240 then 256 + (n - 224) / 4 else 512

/-- An interval's energy, split in proportion to the activity charged; what the shares leave goes to the unattributed meter (log
11). -/
def splitEnergy (s : State) (n nj : Nat) : State :=
  let mine := s.activity.filter fun h => h.unit == n
  let total := (mine.map fun h => h.amount).sum
  let share := fun (h : Shadow) => if total = 0 then 0 else nj * h.amount / total
  let s := mine.foldl (fun s h => count s (islandUnit s n) h.rcb 11 (share h)) s
  let x := islandOf s n
  putIsland { s with activity := s.activity.filter (fun h => h.unit != n),
                     unattributed := s.unattributed + (nj - (mine.map share).sum) } n { x with meter := x.meter + nj }

/-- ENERGY_INTERVAL (R475). -/
def onEnergyInterval (island : BitVec 8) (nj : Nat) (s : State) : Option State :=
  due (!islandOff s island.toNat) (splitEnergy s island.toNat nj)

/-- The step of ENERGY_INTERVAL. -/
def execEnergyInterval (island : BitVec 8) (nj : Nat) (s : State) : Host.Outcome State Fault Refusal :=
  occur s (onEnergyInterval island nj s)

/-- ISLAND_SET (R25, R26). -/
def onIslandSet (island : BitVec 8) (mv mhz : BitVec 16) (s : State) : Option State :=
  due (!islandOff s island.toNat) (putIsland s island.toNat { islandOf s island.toNat with mv, mhz })

/-- The step of ISLAND_SET. -/
def execIslandSet (island : BitVec 8) (mv mhz : BitVec 16) (s : State) : Host.Outcome State Fault Refusal :=
  occur s (onIslandSet island mv mhz s)

/-! ## Management commands (R477 to R479) -/

/-- A response of the MP; one without bytes is an error. -/
def respond (s : State) (bs : List Byte) : State := { s with mgmtOut := s.mgmtOut ++ [bs] }

/-- MCTP_STATUS: HISTAT, then the mailbox. -/
def onMctpStatus (s : State) : Option State :=
  due true
    (respond s (leBytes 8 s.hi.histat.toNat ++ (List.range 512).flatMap fun i => leBytes 8 (mailbox s (0x2000 + 8 * i))))

/-- The step of MCTP_STATUS. -/
def execMctpStatus (s : State) : Host.Outcome State Fault Refusal := occur s (onMctpStatus s)

/-- The telemetry of an island: voltage, frequency, meter (log 11). -/
def islandBytes (s : State) (n : Nat) : List Byte :=
  let x := islandOf s n
  leBytes 2 x.mv.toNat ++ leBytes 2 x.mhz.toNat ++ leBytes 8 x.meter

/-- MCTP_ISLAND_TELEMETRY. -/
def onMctpIslandTelemetry (s : State) : Option State :=
  due true (respond s ((List.range 256).flatMap (islandBytes s)))

/-- The step of MCTP_ISLAND_TELEMETRY. -/
def execMctpIslandTelemetry (s : State) : Host.Outcome State Fault Refusal := occur s (onMctpIslandTelemetry s)

/-- The 14 counters of a context's RCB, none where the context has no valid entry or the counter block lies outside device memory
(R477, R479). -/
def contextCounters (s : State) (ctx : Nat) : Option (List Byte) :=
  match ctxEntry s ctx with
  | none => none
  | some (_, rcb) =>
    let a := ctrblkOf s rcb
    if deviceMemory a && deviceMemory (a + 111) then some ((List.range 14).flatMap fun i => leBytes 8 (counterOf s rcb i)) else none

/-- MCTP_READ_COUNTERS; not in the lehr state. -/
def onMctpReadCounters (ctx : BitVec 16) (s : State) : Option State :=
  due (!inLehr s) (respond s ((contextCounters s ctx.toNat).getD []))

/-- The step of MCTP_READ_COUNTERS. -/
def execMctpReadCounters (ctx : BitVec 16) (s : State) : Host.Outcome State Fault Refusal := occur s (onMctpReadCounters ctx s)

/-- The record of R478. -/
def snapshotRecord (number ctx : Nat) (nonce : BitVec 256) (counters : List Byte) : List Byte :=
  let m := leBytes 2 ctx ++ List.replicate 6 0 ++ leBytes 8 number ++ leBytes 32 nonce.toNat ++ leBytes 16 Config.serial.toNat ++ counters
  m ++ leBytes 64 (Config.signature m).toNat

def takeSnapshotOf (s : State) (ctx : Nat) (nonce : BitVec 256) : State :=
  match contextCounters s ctx with
  | none => respond s []
  | some cs => respond { s with snapshots := s.snapshots + 1 } (snapshotRecord (s.snapshots + 1) ctx nonce cs)

/-- MCTP_SIGNED_SNAPSHOT (R478); not in the lehr state. -/
def onMctpSignedSnapshot (ctx : BitVec 16) (nonce : BitVec 256) (s : State) : Option State :=
  due (!inLehr s) (takeSnapshotOf s ctx.toNat nonce)

/-- The step of MCTP_SIGNED_SNAPSHOT. -/
def execMctpSignedSnapshot (ctx : BitVec 16) (nonce : BitVec 256) (s : State) : Host.Outcome State Fault Refusal :=
  occur s (onMctpSignedSnapshot ctx nonce s)

/-- MCTP_SELF_TEST_REPORT: the physical core of each logical one, then the results of the mailbox. -/
def onMctpSelfTestReport (s : State) : Option State :=
  due true
    (respond s ((List.range Config.nCores).flatMap (fun n => leBytes 2 (physCore s n)) ++ leBytes 8 s.hi.mbstat.toNat ++
      leBytes 8 s.hi.mbrepair.toNat ++ s.hi.mblog.flatMap fun e => leBytes 16 e.toNat))

/-- The step of MCTP_SELF_TEST_REPORT. -/
def execMctpSelfTestReport (s : State) : Host.Outcome State Fault Refusal := occur s (onMctpSelfTestReport s)

/-- SPDM_GET_CERTIFICATE. -/
def onSpdmGetCertificate (s : State) : Option State :=
  due true (respond s Config.certificate)

/-- The step of SPDM_GET_CERTIFICATE. -/
def execSpdmGetCertificate (s : State) : Host.Outcome State Fault Refusal := occur s (onSpdmGetCertificate s)

/-- A signed answer: the nonce, what it attests, the signature over both. -/
def signed (nonce : BitVec 256) (what : List Byte) : List Byte :=
  let m := leBytes 32 nonce.toNat ++ what
  m ++ leBytes 64 (Config.signature m).toNat

/-- SPDM_CHALLENGE. -/
def onSpdmChallenge (nonce : BitVec 256) (s : State) : Option State :=
  due true (respond s (signed nonce Config.certificate))

/-- The step of SPDM_CHALLENGE. -/
def execSpdmChallenge (nonce : BitVec 256) (s : State) : Host.Outcome State Fault Refusal := occur s (onSpdmChallenge nonce s)

/-- SPDM_GET_MEASUREMENTS. -/
def onSpdmGetMeasurements (nonce : BitVec 256) (s : State) : Option State :=
  due true (respond s (signed nonce Config.measurements))

/-- The step of SPDM_GET_MEASUREMENTS. -/
def execSpdmGetMeasurements (nonce : BitVec 256) (s : State) : Host.Outcome State Fault Refusal :=
  occur s (onSpdmGetMeasurements nonce s)

/-! ## Self-test (R553 to R555) -/

def popcount (n x : Nat) : Nat := ((List.range n).filter fun i => x.testBit i).length

/-- What self-test leaves in the registers; the MP is ready when it ends (log 8). -/
def selfTest (s : State) : TestOutcome → State
  | .pass repairs links ports =>
    let down := (List.range 64).filter fun k => links.getLsbD k
    { s with hi := { s.hi with histat := 5, mbstat := 5,
                               mbrepair := BitVec.ofNat 64 (repairs.toNat + popcount 64 links.toNat * 2 ^ 40 +
                                 popcount 8 ports.toNat * 2 ^ 47) },
             links := down.foldl (fun l k => spPut {} l k { up := false }) s.links,
             livePorts := ~~~ports }
  | .fail phase unit index =>
    let x := phase.toNat % 16
    { s with hi := { s.hi with histat := 6, mbstat := BitVec.ofNat 64 (6 + x * 16 + unit.toNat * 256 + index.toNat * 2 ^ 16),
                               mblog := [BitVec.ofNat 128 (x + unit.toNat * 256 + index.toNat * 2 ^ 16)] } }

/-! ## Resets (R557, R558) -/

/-- The state of the logic after a reset, before self-test: the remap table is loaded from fuses during ROM boot (R31). What the model
has recorded of outputs stays, and what is still to come from outside. -/
def cleared (s : State) : State :=
  { State.reset with replies := s.replies, mgmtOut := s.mgmtOut, outbox := s.outbox, flitsOut := s.flitsOut, xout := s.xout,
                     netOut := s.netOut, ctlOut := s.ctlOut, pagesOut := s.pagesOut, inputs := s.inputs, agenda := s.agenda,
                     tick := s.tick, free := s.free, nextId := s.nextId, remap := Remap.fuses }

/-- The sectors that are dirty in the L2, of the lines that a test selects. -/
def dirtyAbove (s : State) (p : Nat → Bool) : List Nat :=
  (s.l2.filter fun e => p (128 * e.1)).flatMap fun e => ((List.range 4).filter fun k => e.2.dirty.getLsbD k).map fun k => 4 * e.1 + k

/-- A cold reset loses all memory of the device, and what stood above host memory in its caches (R557). -/
def coldReset (s : State) (o : TestOutcome) : State :=
  let s := (dirtyAbove s fun a => tierOf a == some .host).foldl sectorBehind { s with blocks := [] }
  selfTest { cleared s with mem := s.mem.filter fun c => tierOf c.1 == some .host } o

/-- A dirty line is written back, or, where that cannot be, marked poisoned in memory (R557). -/
def saveLine (bid : Nat) (s : State) (l : StashLine) : State :=
  match getBlock s bid with
  | none => s
  | some b =>
    let s := setBlock s (dropLine b l.line)
    if l.dirty = 0 then s
    else if writeBackFails s l.pa then
      (List.range 4).foldl (fun s k => poisonSector s (l.pa + 32 * k)) { s with free := s.free + 1 }
    else sendLine { s with free := s.free + 1 } b l

def saveLines (s : State) (b : Block) : State := b.lines.foldl (saveLine b.bid) s

/-- The dirty sectors of the L2 that cannot be written back are marked poisoned in memory. -/
def saveL2 (s : State) : State :=
  (dirtyAbove s (cutOff s)).foldl (fun s k => poisonSector (sectorBehind s k) (32 * k)) s

/-- Every block stops as pre-emption stops it, without events, and is gone. -/
def stopAll (s : State) : State :=
  let s := (s.blocks.filter fun b => b.state == .resident).foldl (fun s b => finishBlock s b.bid) s
  let s := s.blocks.foldl saveLines s
  let s := (s.blocks.filter fun b => b.state == .resident).foldl (fun s b => suspendBlock s b.bid) s
  { saveL2 s with blocks := [], launches := [] }

/-- Whether a shadow cannot be flushed. -/
def unflushable (s : State) : Bool :=
  s.shadows.any fun h => (chainOf s 8 h.rcb).any fun r => cutOff s (ctrblkOf s r)

def satLow (x : DWord) : Nat := min (x.toNat % 2 ^ 32 + 1) (2 ^ 32 - 1)

/-- A warm reset: launches stop, shadows are flushed, memory and the kept mailbox registers survive (R555, R557, R558). -/
def warmReset (s : State) (cause : Nat) (o : TestOutcome) : State :=
  let resets := satLow s.hi.mbreset
  let s := stopAll s
  let lost := unflushable s
  let s := flushWhere s fun _ => true
  let hi := { (cleared s).hi with mbce := s.hi.mbce, mbue := s.hi.mbue, mbhost := s.hi.mbhost &&& 0xFFFFFFFF,
                                  mbreset := BitVec.ofNat 64 (resets + cause * 2 ^ 32 + bit lost * 2 ^ 40) }
  selfTest { cleared s with mem := s.mem, poison := s.poison, hi := hi } o

/-- COLD_RESET (R557). -/
def onColdReset (o : TestOutcome) (s : State) : Option State := due true (coldReset s o)

/-- The step of COLD_RESET. -/
def execColdReset (o : TestOutcome) (s : State) : Host.Outcome State Fault Refusal := occur s (onColdReset o s)

/-- WARM_RESET_FLR (R557). -/
def onWarmResetFlr (o : TestOutcome) (s : State) : Option State :=
  due true (warmReset s 1 o)

/-- The step of WARM_RESET_FLR. -/
def execWarmResetFlr (o : TestOutcome) (s : State) : Host.Outcome State Fault Refusal := occur s (onWarmResetFlr o s)

/-- WARM_RESET_SECONDARY_BUS (R557). -/
def onWarmResetSecondaryBus (o : TestOutcome) (s : State) : Option State :=
  due true (warmReset s 2 o)

/-- The step of WARM_RESET_SECONDARY_BUS. -/
def execWarmResetSecondaryBus (o : TestOutcome) (s : State) : Host.Outcome State Fault Refusal :=
  occur s (onWarmResetSecondaryBus o s)

/-- WARM_RESET_MP (R557). -/
def onWarmResetMp (o : TestOutcome) (s : State) : Option State :=
  due true (warmReset s 3 o)

/-- The step of WARM_RESET_MP. -/
def execWarmResetMp (o : TestOutcome) (s : State) : Host.Outcome State Fault Refusal := occur s (onWarmResetMp o s)

end Sys2Proof.Machine
end

