-- ==== Sys2Proof/Machine/Short.lean ====
section
/-! DEFINITION. The short forms C16 (spec/07 R226 to R229) and A32 (R230 to R232): each has the effect of its E64 twin. -/

namespace Sys2Proof.Machine

/-! ## C16 -/

def alwaysPred : Pred := { neg := false, idx := 7 }

/-- The generic fields of a short form: dst = vd, unpredicated, RNE, no saturation. -/
def shortGen (vd : BitVec 7) (nowb : Bool) (a b : Src) (t : Ty) : Gen :=
  { dst := .v vd, nowb, pred := alwaysPred, a, b, c := .v vd, ty := t, rnd := .rne, sat := false, opx := 0,
    scope := .block, hint := 0 }

/-- The operand that src6 names (R229). -/
def src6Opnd (t : Ty) (x : Src6) : Opnd :=
  match x with
  | .v n => opn (.v (n.setWidth 7)) t
  | .s n => opn (.s (n.setWidth 6)) t
  | .b n => opn (.b n) t
  | .k n => { src := .unused, ty := t, wide := false, imm := some (constSrc6 (tyFloat t) n.toNat) }

def c16Gen (c : C16) (t : Ty) : Gen :=
  { shortGen (c.vd.setWidth 7) false (.v (c.vd.setWidth 7)) .unused t with c := .unused }

/-- vd and src6's operand. -/
def c16Srcs (c : C16) (t : Ty) : List Opnd := [opn (.v (c.vd.setWidth 7)) t, src6Opnd t c.src]

def execMovC16 (c : C16) (s : State) : Host.Outcome State Fault Refusal :=
  issue s 2 .any false fun e => wordAct s e (c16Gen c .b32) [src6Opnd .b32 c.src] 1 fun v => v 0

def execIaddC16 (c : C16) (s : State) : Host.Outcome State Fault Refusal :=
  issue s 2 .any false fun e => intAct s e (c16Gen c .i32) (c16Srcs c .i32) xAdd

def execIsubC16 (c : C16) (s : State) : Host.Outcome State Fault Refusal :=
  issue s 2 .any false fun e => intAct s e (c16Gen c .i32) (c16Srcs c .i32) xSub

def execImulC16 (c : C16) (s : State) : Host.Outcome State Fault Refusal :=
  issue s 2 .any false fun e => intAct s e (c16Gen c .i32) (c16Srcs c .i32) xMul

def execAndC16 (c : C16) (s : State) : Host.Outcome State Fault Refusal :=
  issue s 2 .any false fun e => bitAct s e (c16Gen c .b32) (c16Srcs c .b32) bitAnd

def execOrC16 (c : C16) (s : State) : Host.Outcome State Fault Refusal :=
  issue s 2 .any false fun e => bitAct s e (c16Gen c .b32) (c16Srcs c .b32) bitOr

def execXorC16 (c : C16) (s : State) : Host.Outcome State Fault Refusal :=
  issue s 2 .any false fun e => bitAct s e (c16Gen c .b32) (c16Srcs c .b32) bitXor

def execShlC16 (c : C16) (s : State) : Host.Outcome State Fault Refusal :=
  issue s 2 .any false fun e => bitAct s e (c16Gen c .b32) (c16Srcs c .b32) shlBits

def execShrC16 (c : C16) (s : State) : Host.Outcome State Fault Refusal :=
  issue s 2 .any false fun e => bitAct s e (c16Gen c .n32) (c16Srcs c .n32) shrBits

def execSarC16 (c : C16) (s : State) : Host.Outcome State Fault Refusal :=
  issue s 2 .any false fun e => bitAct s e (c16Gen c .i32) (c16Srcs c .i32) sarBits

def execFaddC16 (c : C16) (s : State) : Host.Outcome State Fault Refusal :=
  issue s 2 .any false fun e => floatAct s e (c16Gen c .f32) (c16Srcs c .f32) opAdd

def execFsubC16 (c : C16) (s : State) : Host.Outcome State Fault Refusal :=
  issue s 2 .any false fun e => floatAct s e (c16Gen c .f32) (c16Srcs c .f32) opSub

def execFmulC16 (c : C16) (s : State) : Host.Outcome State Fault Refusal :=
  issue s 2 .any false fun e => floatAct s e (c16Gen c .f32) (c16Srcs c .f32) opMul

def execFmaxC16 (c : C16) (s : State) : Host.Outcome State Fault Refusal :=
  issue s 2 .any false fun e => floatAct s e (c16Gen c .f32) (c16Srcs c .f32) opMax

def execFminC16 (c : C16) (s : State) : Host.Outcome State Fault Refusal :=
  issue s 2 .any false fun e => floatAct s e (c16Gen c .f32) (c16Srcs c .f32) opMin

def execNopC16 (s : State) : Host.Outcome State Fault Refusal := issue s 2 .any false fun _ => .ok s {}

def execYieldC16 (s : State) : Host.Outcome State Fault Refusal := issue s 2 .never false fun _ => .ok s { endRun := true }

def execRetC16 (s : State) : Host.Outcome State Fault Refusal := issue s 2 .never false fun e => retAct s e

def execExitC16 (s : State) : Host.Outcome State Fault Refusal :=
  issue s 2 .never false fun e => exitAct s e (activeLanes e alwaysPred)

/-! ## A32 -/

def a32Gen (x : A32) (t : Ty) : Gen := shortGen x.vd x.nowb x.a x.b t

/-- The sources of an A32 instruction: A, B, and vd as the accumulator. -/
def a32Srcs (x : A32) (t : Ty) : List Opnd := [opn x.a t, opn x.b t]

def a32Acc (x : A32) (t : Ty) : List Opnd := [opn x.a t, opn x.b t, opn (.v x.vd) t]

def execMovA32 (x : A32) (s : State) : Host.Outcome State Fault Refusal :=
  issue s 4 .any false fun e => wordAct s e (a32Gen x .b32) [opn x.a .b32] 1 fun v => v 0

def execIaddA32 (x : A32) (s : State) : Host.Outcome State Fault Refusal :=
  issue s 4 .any false fun e => intAct s e (a32Gen x .i32) (a32Srcs x .i32) xAdd

def execIsubA32 (x : A32) (s : State) : Host.Outcome State Fault Refusal :=
  issue s 4 .any false fun e => intAct s e (a32Gen x .i32) (a32Srcs x .i32) xSub

def execImulA32 (x : A32) (s : State) : Host.Outcome State Fault Refusal :=
  issue s 4 .any false fun e => intAct s e (a32Gen x .i32) (a32Srcs x .i32) xMul

def execImadA32 (x : A32) (s : State) : Host.Outcome State Fault Refusal :=
  issue s 4 .any false fun e => intAct s e (a32Gen x .i32) (a32Acc x .i32) xMad

def execIminA32 (x : A32) (s : State) : Host.Outcome State Fault Refusal :=
  issue s 4 .any false fun e => intAct s e (a32Gen x .i32) (a32Srcs x .i32) xMin

def execImaxA32 (x : A32) (s : State) : Host.Outcome State Fault Refusal :=
  issue s 4 .any false fun e => intAct s e (a32Gen x .i32) (a32Srcs x .i32) xMax

def execAndA32 (x : A32) (s : State) : Host.Outcome State Fault Refusal :=
  issue s 4 .any false fun e => bitAct s e (a32Gen x .b32) (a32Srcs x .b32) bitAnd

def execOrA32 (x : A32) (s : State) : Host.Outcome State Fault Refusal :=
  issue s 4 .any false fun e => bitAct s e (a32Gen x .b32) (a32Srcs x .b32) bitOr

def execXorA32 (x : A32) (s : State) : Host.Outcome State Fault Refusal :=
  issue s 4 .any false fun e => bitAct s e (a32Gen x .b32) (a32Srcs x .b32) bitXor

def execAndnA32 (x : A32) (s : State) : Host.Outcome State Fault Refusal :=
  issue s 4 .any false fun e => bitAct s e (a32Gen x .b32) (a32Srcs x .b32) bitAndn

def execShlA32 (x : A32) (s : State) : Host.Outcome State Fault Refusal :=
  issue s 4 .any false fun e => bitAct s e (a32Gen x .b32) [opn x.a .b32, opn32 x.b] shlBits

def execShrA32 (x : A32) (s : State) : Host.Outcome State Fault Refusal :=
  issue s 4 .any false fun e => bitAct s e (a32Gen x .n32) [opn x.a .n32, opn32 x.b] shrBits

def execSarA32 (x : A32) (s : State) : Host.Outcome State Fault Refusal :=
  issue s 4 .any false fun e => bitAct s e (a32Gen x .i32) [opn x.a .i32, opn32 x.b] sarBits

def execFaddF32A32 (x : A32) (s : State) : Host.Outcome State Fault Refusal :=
  issue s 4 .any false fun e => floatAct s e (a32Gen x .f32) (a32Srcs x .f32) opAdd

def execFsubF32A32 (x : A32) (s : State) : Host.Outcome State Fault Refusal :=
  issue s 4 .any false fun e => floatAct s e (a32Gen x .f32) (a32Srcs x .f32) opSub

def execFmulF32A32 (x : A32) (s : State) : Host.Outcome State Fault Refusal :=
  issue s 4 .any false fun e => floatAct s e (a32Gen x .f32) (a32Srcs x .f32) opMul

def execFfmaF32A32 (x : A32) (s : State) : Host.Outcome State Fault Refusal :=
  issue s 4 .any false fun e => floatAct s e (a32Gen x .f32) (a32Acc x .f32) (opFma false false)

def execFminF32A32 (x : A32) (s : State) : Host.Outcome State Fault Refusal :=
  issue s 4 .any false fun e => floatAct s e (a32Gen x .f32) (a32Srcs x .f32) opMin

def execFmaxF32A32 (x : A32) (s : State) : Host.Outcome State Fault Refusal :=
  issue s 4 .any false fun e => floatAct s e (a32Gen x .f32) (a32Srcs x .f32) opMax

def execFaddF16x2A32 (x : A32) (s : State) : Host.Outcome State Fault Refusal :=
  issue s 4 .any false fun e => floatAct s e (a32Gen x .f16x2) (a32Srcs x .f16x2) opAdd

def execFmulF16x2A32 (x : A32) (s : State) : Host.Outcome State Fault Refusal :=
  issue s 4 .any false fun e => floatAct s e (a32Gen x .f16x2) (a32Srcs x .f16x2) opMul

def execFfmaF16x2A32 (x : A32) (s : State) : Host.Outcome State Fault Refusal :=
  issue s 4 .any false fun e => floatAct s e (a32Gen x .f16x2) (a32Acc x .f16x2) (opFma false false)

def execFaddBf16x2A32 (x : A32) (s : State) : Host.Outcome State Fault Refusal :=
  issue s 4 .any false fun e => floatAct s e (a32Gen x .bf16x2) (a32Srcs x .bf16x2) opAdd

def execFmulBf16x2A32 (x : A32) (s : State) : Host.Outcome State Fault Refusal :=
  issue s 4 .any false fun e => floatAct s e (a32Gen x .bf16x2) (a32Srcs x .bf16x2) opMul

def execFfmaBf16x2A32 (x : A32) (s : State) : Host.Outcome State Fault Refusal :=
  issue s 4 .any false fun e => floatAct s e (a32Gen x .bf16x2) (a32Acc x .bf16x2) (opFma false false)

def execPopcA32 (x : A32) (s : State) : Host.Outcome State Fault Refusal :=
  issue s 4 .any false fun e => countAct s e (a32Gen x .b32) popcBits

def execClzA32 (x : A32) (s : State) : Host.Outcome State Fault Refusal :=
  issue s 4 .any false fun e => countAct s e (a32Gen x .b32) clzBits

/-- SHFL.xor.b32 with srcC unused (R292). -/
def execShflXorA32 (x : A32) (s : State) : Host.Outcome State Fault Refusal :=
  issue s 4 .any false fun e => shflAct s e { a32Gen x .b32 with c := .unused } 3

/-- LDS.b32 at offset (A + B) mod 2^32 (R232). -/
def execLdsA32 (x : A32) (s : State) : Host.Outcome State Fault Refusal :=
  issue s 4 .last false fun e => ldsSumAct s e x

def execBraA32 (off : BitVec 24) (s : State) : Host.Outcome State Fault Refusal :=
  issue s 4 .never false fun e => branchAct s e (branchTarget e (off.signExtend 64)) id

def execCallA32 (off : BitVec 24) (s : State) : Host.Outcome State Fault Refusal :=
  issue s 4 .never false fun e => callAct s e 4 (off.signExtend 64)

end Sys2Proof.Machine
end

