-- ==== Sys2Proof/Machine/Dispatch.lean ====
section
/-! DEFINITION. The step of one instruction or event: one arm per constructor of Instr, each one direct call of its meaning. -/

namespace Sys2Proof.Machine

/-- The meaning of an instruction or event. -/
def exec (i : Instr) (s : State) : Host.Outcome State Fault Refusal :=
  match i with
  | .nop g => Sys2Proof.Machine.execNop g s
  | .bra j => Sys2Proof.Machine.execBra j s
  | .brc c => Sys2Proof.Machine.execBrc c s
  | .brv v => Sys2Proof.Machine.execBrv v s
  | .brany j => Sys2Proof.Machine.execBrany j s
  | .brall j => Sys2Proof.Machine.execBrall j s
  | .jmp j => Sys2Proof.Machine.execJmp j s
  | .call j => Sys2Proof.Machine.execCall j s
  | .ret g => Sys2Proof.Machine.execRet g s
  | .regang g => Sys2Proof.Machine.execRegang g s
  | .exit g => Sys2Proof.Machine.execExit g s
  | .hold g => Sys2Proof.Machine.execHold g s
  | .yield g => Sys2Proof.Machine.execYield g s
  | .waitcnt g => Sys2Proof.Machine.execWaitcnt g s
  | .waittag g => Sys2Proof.Machine.execWaittag g s
  | .psplit g => Sys2Proof.Machine.execPsplit g s
  | .pfuse g => Sys2Proof.Machine.execPfuse g s
  | .iadd g => Sys2Proof.Machine.execIadd g s
  | .isub g => Sys2Proof.Machine.execIsub g s
  | .imul g => Sys2Proof.Machine.execImul g s
  | .imulh g => Sys2Proof.Machine.execImulh g s
  | .imad g => Sys2Proof.Machine.execImad g s
  | .imin g => Sys2Proof.Machine.execImin g s
  | .imax g => Sys2Proof.Machine.execImax g s
  | .iabsd g => Sys2Proof.Machine.execIabsd g s
  | .and g => Sys2Proof.Machine.execAnd g s
  | .or g => Sys2Proof.Machine.execOr g s
  | .xor g => Sys2Proof.Machine.execXor g s
  | .andn g => Sys2Proof.Machine.execAndn g s
  | .shl g => Sys2Proof.Machine.execShl g s
  | .shr g => Sys2Proof.Machine.execShr g s
  | .sar g => Sys2Proof.Machine.execSar g s
  | .rotl g => Sys2Proof.Machine.execRotl g s
  | .bfe g => Sys2Proof.Machine.execBfe g s
  | .bfi g => Sys2Proof.Machine.execBfi g s
  | .popc g => Sys2Proof.Machine.execPopc g s
  | .clz g => Sys2Proof.Machine.execClz g s
  | .ctz g => Sys2Proof.Machine.execCtz g s
  | .brev g => Sys2Proof.Machine.execBrev g s
  | .prmt g => Sys2Proof.Machine.execPrmt g s
  | .lea g => Sys2Proof.Machine.execLea g s
  | .iset g => Sys2Proof.Machine.execIset g s
  | .sel g => Sys2Proof.Machine.execSel g s
  | .mov g => Sys2Proof.Machine.execMov g s
  | .movsr m => Sys2Proof.Machine.execMovsr m s
  | .movi m => Sys2Proof.Machine.execMovi m s
  | .cvti g => Sys2Proof.Machine.execCvti g s
  | .plop p => Sys2Proof.Machine.execPlop p s
  | .shfl g => Sys2Proof.Machine.execShfl g s
  | .vote g => Sys2Proof.Machine.execVote g s
  | .matchLanes g => Sys2Proof.Machine.execMatchLanes g s
  | .redux g => Sys2Proof.Machine.execRedux g s
  | .scan g => Sys2Proof.Machine.execScan g s
  | .rank g => Sys2Proof.Machine.execRank g s
  | .bcast g => Sys2Proof.Machine.execBcast g s
  | .fadd g => Sys2Proof.Machine.execFadd g s
  | .fsub g => Sys2Proof.Machine.execFsub g s
  | .fmul g => Sys2Proof.Machine.execFmul g s
  | .ffma g => Sys2Proof.Machine.execFfma g s
  | .fmin g => Sys2Proof.Machine.execFmin g s
  | .fmax g => Sys2Proof.Machine.execFmax g s
  | .fset g => Sys2Proof.Machine.execFset g s
  | .fdiv g => Sys2Proof.Machine.execFdiv g s
  | .frcp g => Sys2Proof.Machine.execFrcp g s
  | .fsqrt g => Sys2Proof.Machine.execFsqrt g s
  | .frsq g => Sys2Proof.Machine.execFrsq g s
  | .fex2 g => Sys2Proof.Machine.execFex2 g s
  | .flg2 g => Sys2Proof.Machine.execFlg2 g s
  | .frnd g => Sys2Proof.Machine.execFrnd g s
  | .fscale g => Sys2Proof.Machine.execFscale g s
  | .fclass g => Sys2Proof.Machine.execFclass g s
  | .cvt g => Sys2Proof.Machine.execCvt g s
  | .tf8pk g => Sys2Proof.Machine.execTf8pk g s
  | .tf8up g => Sys2Proof.Machine.execTf8up g s
  | .requant g => Sys2Proof.Machine.execRequant g s
  | .rng g => Sys2Proof.Machine.execRng g s
  | .fstatRead g => Sys2Proof.Machine.execFstatRead g s
  | .fstatClear g => Sys2Proof.Machine.execFstatClear g s
  | .fstatSet g => Sys2Proof.Machine.execFstatSet g s
  | .ld m => Sys2Proof.Machine.execLd m s
  | .st m => Sys2Proof.Machine.execSt m s
  | .lds m => Sys2Proof.Machine.execLds m s
  | .sts m => Sys2Proof.Machine.execSts m s
  | .ldc m => Sys2Proof.Machine.execLdc m s
  | .atom m => Sys2Proof.Machine.execAtom m s
  | .red m => Sys2Proof.Machine.execRed m s
  | .cpl m => Sys2Proof.Machine.execCpl m s
  | .pref m => Sys2Proof.Machine.execPref m s
  | .discard m => Sys2Proof.Machine.execDiscard m s
  | .fence g => Sys2Proof.Machine.execFence g s
  | .smap g => Sys2Proof.Machine.execSmap g s
  | .sunmap g => Sys2Proof.Machine.execSunmap g s
  | .sflush g => Sys2Proof.Machine.execSflush g s
  | .bxferLoad g => Sys2Proof.Machine.execBxferLoad g s
  | .bxferStore g => Sys2Proof.Machine.execBxferStore g s
  | .bxferRed g => Sys2Proof.Machine.execBxferRed g s
  | .waitc m => Sys2Proof.Machine.execWaitc m s
  | .barinit g => Sys2Proof.Machine.execBarinit g s
  | .bararr g => Sys2Proof.Machine.execBararr g s
  | .bararrJoin g => Sys2Proof.Machine.execBararrJoin g s
  | .bararrDrop g => Sys2Proof.Machine.execBararrDrop g s
  | .barwait g => Sys2Proof.Machine.execBarwait g s
  | .barexp g => Sys2Proof.Machine.execBarexp g s
  | .bartry g => Sys2Proof.Machine.execBartry g s
  | .qcfg g => Sys2Proof.Machine.execQcfg g s
  | .append g => Sys2Proof.Machine.execAppend g s
  | .decline g => Sys2Proof.Machine.execDecline g s
  | .tdset x => Sys2Proof.Machine.execTdset x s
  | .tdget x => Sys2Proof.Machine.execTdget x s
  | .mldb x => Sys2Proof.Machine.execMldb x s
  | .mbrel x => Sys2Proof.Machine.execMbrel x s
  | .mldmeta x => Sys2Proof.Machine.execMldmeta x s
  | .mzero x => Sys2Proof.Machine.execMzero x s
  | .mma x => Sys2Proof.Machine.execMma x s
  | .mmaRing x => Sys2Proof.Machine.execMmaRing x s
  | .mmasp x => Sys2Proof.Machine.execMmasp x s
  | .mst x => Sys2Proof.Machine.execMst x s
  | .mstAdd x => Sys2Proof.Machine.execMstAdd x s
  | .mrda x => Sys2Proof.Machine.execMrda x s
  | .mwra x => Sys2Proof.Machine.execMwra x s
  | .ringinit x => Sys2Proof.Machine.execRinginit x s
  | .ringput x => Sys2Proof.Machine.execRingput x s
  | .ringtake x => Sys2Proof.Machine.execRingtake x s
  | .ringdone x => Sys2Proof.Machine.execRingdone x s
  | .mstat g => Sys2Proof.Machine.execMstat g s
  | .gpat g => Sys2Proof.Machine.execGpat g s
  | .gst g => Sys2Proof.Machine.execGst g s
  | .gld g => Sys2Proof.Machine.execGld g s
  | .gred g => Sys2Proof.Machine.execGred g s
  | .gatom g => Sys2Proof.Machine.execGatom g s
  | .gscan g => Sys2Proof.Machine.execGscan g s
  | .gcopy g => Sys2Proof.Machine.execGcopy g s
  | .gfence g => Sys2Proof.Machine.execGfence g s
  | .gwait g => Sys2Proof.Machine.execGwait g s
  | .gatecfg g => Sys2Proof.Machine.execGatecfg g s
  | .gdispatch g => Sys2Proof.Machine.execGdispatch g s
  | .mbmark g => Sys2Proof.Machine.execMbmark g s
  | .ertopDefine g => Sys2Proof.Machine.execErtopDefine g s
  | .ertopFetch g => Sys2Proof.Machine.execErtopFetch g s
  | .ertopEvict g => Sys2Proof.Machine.execErtopEvict g s
  | .ertopPin g => Sys2Proof.Machine.execErtopPin g s
  | .ertopUnpin g => Sys2Proof.Machine.execErtopUnpin g s
  | .ertopRead g => Sys2Proof.Machine.execErtopRead g s
  | .taskdef g => Sys2Proof.Machine.execTaskdef g s
  | .taskdepSet g => Sys2Proof.Machine.execTaskdepSet g s
  | .taskdepAdd g => Sys2Proof.Machine.execTaskdepAdd g s
  | .taskdepSub g => Sys2Proof.Machine.execTaskdepSub g s
  | .kstat g => Sys2Proof.Machine.execKstat g s
  | .npost g => Sys2Proof.Machine.execNpost g s
  | .nrecv g => Sys2Proof.Machine.execNrecv g s
  | .npoll g => Sys2Proof.Machine.execNpoll g s
  | .larm g => Sys2Proof.Machine.execLarm g s
  | .launch g => Sys2Proof.Machine.execLaunch g s
  | .srr g => Sys2Proof.Machine.execSrr g s
  | .srw g => Sys2Proof.Machine.execSrw g s
  | .tlbinvPage g => Sys2Proof.Machine.execTlbinvPage g s
  | .tlbinvContext g => Sys2Proof.Machine.execTlbinvContext g s
  | .tlbinvAll g => Sys2Proof.Machine.execTlbinvAll g s
  | .biasflipDev g => Sys2Proof.Machine.execBiasflipDev g s
  | .biasflipHost g => Sys2Proof.Machine.execBiasflipHost g s
  | .migrateLocal g => Sys2Proof.Machine.execMigrateLocal g s
  | .migrateRemote g => Sys2Proof.Machine.execMigrateRemote g s
  | .capset g => Sys2Proof.Machine.execCapset g s
  | .mappg g => Sys2Proof.Machine.execMappg g s
  | .trap g => Sys2Proof.Machine.execTrap g s
  | .trapDbg g => Sys2Proof.Machine.execTrapDbg g s
  | .retfRetry g => Sys2Proof.Machine.execRetfRetry g s
  | .retfNext g => Sys2Proof.Machine.execRetfNext g s
  | .retfEsc g => Sys2Proof.Machine.execRetfEsc g s
  | .ctrread g => Sys2Proof.Machine.execCtrread g s
  | .movC16 c => Sys2Proof.Machine.execMovC16 c s
  | .iaddC16 c => Sys2Proof.Machine.execIaddC16 c s
  | .isubC16 c => Sys2Proof.Machine.execIsubC16 c s
  | .imulC16 c => Sys2Proof.Machine.execImulC16 c s
  | .andC16 c => Sys2Proof.Machine.execAndC16 c s
  | .orC16 c => Sys2Proof.Machine.execOrC16 c s
  | .xorC16 c => Sys2Proof.Machine.execXorC16 c s
  | .shlC16 c => Sys2Proof.Machine.execShlC16 c s
  | .shrC16 c => Sys2Proof.Machine.execShrC16 c s
  | .sarC16 c => Sys2Proof.Machine.execSarC16 c s
  | .faddC16 c => Sys2Proof.Machine.execFaddC16 c s
  | .fsubC16 c => Sys2Proof.Machine.execFsubC16 c s
  | .fmulC16 c => Sys2Proof.Machine.execFmulC16 c s
  | .fmaxC16 c => Sys2Proof.Machine.execFmaxC16 c s
  | .fminC16 c => Sys2Proof.Machine.execFminC16 c s
  | .nopC16 => Sys2Proof.Machine.execNopC16 s
  | .yieldC16 => Sys2Proof.Machine.execYieldC16 s
  | .retC16 => Sys2Proof.Machine.execRetC16 s
  | .exitC16 => Sys2Proof.Machine.execExitC16 s
  | .movA32 a => Sys2Proof.Machine.execMovA32 a s
  | .iaddA32 a => Sys2Proof.Machine.execIaddA32 a s
  | .isubA32 a => Sys2Proof.Machine.execIsubA32 a s
  | .imulA32 a => Sys2Proof.Machine.execImulA32 a s
  | .imadA32 a => Sys2Proof.Machine.execImadA32 a s
  | .iminA32 a => Sys2Proof.Machine.execIminA32 a s
  | .imaxA32 a => Sys2Proof.Machine.execImaxA32 a s
  | .andA32 a => Sys2Proof.Machine.execAndA32 a s
  | .orA32 a => Sys2Proof.Machine.execOrA32 a s
  | .xorA32 a => Sys2Proof.Machine.execXorA32 a s
  | .andnA32 a => Sys2Proof.Machine.execAndnA32 a s
  | .shlA32 a => Sys2Proof.Machine.execShlA32 a s
  | .shrA32 a => Sys2Proof.Machine.execShrA32 a s
  | .sarA32 a => Sys2Proof.Machine.execSarA32 a s
  | .popcA32 a => Sys2Proof.Machine.execPopcA32 a s
  | .clzA32 a => Sys2Proof.Machine.execClzA32 a s
  | .faddF32A32 a => Sys2Proof.Machine.execFaddF32A32 a s
  | .fsubF32A32 a => Sys2Proof.Machine.execFsubF32A32 a s
  | .fmulF32A32 a => Sys2Proof.Machine.execFmulF32A32 a s
  | .ffmaF32A32 a => Sys2Proof.Machine.execFfmaF32A32 a s
  | .fminF32A32 a => Sys2Proof.Machine.execFminF32A32 a s
  | .fmaxF32A32 a => Sys2Proof.Machine.execFmaxF32A32 a s
  | .faddF16x2A32 a => Sys2Proof.Machine.execFaddF16x2A32 a s
  | .fmulF16x2A32 a => Sys2Proof.Machine.execFmulF16x2A32 a s
  | .ffmaF16x2A32 a => Sys2Proof.Machine.execFfmaF16x2A32 a s
  | .faddBf16x2A32 a => Sys2Proof.Machine.execFaddBf16x2A32 a s
  | .fmulBf16x2A32 a => Sys2Proof.Machine.execFmulBf16x2A32 a s
  | .ffmaBf16x2A32 a => Sys2Proof.Machine.execFfmaBf16x2A32 a s
  | .shflXorA32 a => Sys2Proof.Machine.execShflXorA32 a s
  | .ldsA32 a => Sys2Proof.Machine.execLdsA32 a s
  | .braA32 off => Sys2Proof.Machine.execBraA32 off s
  | .callA32 off => Sys2Proof.Machine.execCallA32 off s
  | .hostQueueDoorbell q p => Sys2Proof.Machine.execHostQueueDoorbell q p s
  | .hqerrClear mask => Sys2Proof.Machine.execHqerrClear mask s
  | .hostSysregWrite n x => Sys2Proof.Machine.execHostSysregWrite n x s
  | .hostRegisterWrite off x => Sys2Proof.Machine.execHostRegisterWrite off x s
  | .launchAccept => Sys2Proof.Machine.execLaunchAccept s
  | .blockPlacement => Sys2Proof.Machine.execBlockPlacement s
  | .blockStart core => Sys2Proof.Machine.execBlockStart core s
  | .stealAttempt core => Sys2Proof.Machine.execStealAttempt core s
  | .blockEnd blk => Sys2Proof.Machine.execBlockEnd blk s
  | .pendingSpawn => Sys2Proof.Machine.execPendingSpawn s
  | .runEnd core sched => Sys2Proof.Machine.execRunEnd core sched s
  | .fragmentWake f => Sys2Proof.Machine.execFragmentWake f s
  | .budgetPeriodEnd unit act rcb => Sys2Proof.Machine.execBudgetPeriodEnd unit act rcb s
  | .preempt blk => Sys2Proof.Machine.execPreempt blk s
  | .contextSwitch rcb => Sys2Proof.Machine.execContextSwitch rcb s
  | .blockResume blk core => Sys2Proof.Machine.execBlockResume blk core s
  | .detRoundComplete launch => Sys2Proof.Machine.execDetRoundComplete launch s
  | .detSyncTurn launch => Sys2Proof.Machine.execDetSyncTurn launch s
  | .appendClaimGrant f => Sys2Proof.Machine.execAppendClaimGrant f s
  | .stashSegmentWake core seg => Sys2Proof.Machine.execStashSegmentWake core seg s
  | .stashFillComplete blk line => Sys2Proof.Machine.execStashFillComplete blk line s
  | .homeSliceAccess r => Sys2Proof.Machine.execHomeSliceAccess r s
  | .stashWriteback blk line err => Sys2Proof.Machine.execStashWriteback blk line err s
  | .l2WayGate stack way => Sys2Proof.Machine.execL2WayGate stack way s
  | .l2WayEnable stack way => Sys2Proof.Machine.execL2WayEnable stack way s
  | .pageWalkComplete ctx va => Sys2Proof.Machine.execPageWalkComplete ctx va s
  | .hostMemoryAccess r => Sys2Proof.Machine.execHostMemoryAccess r s
  | .migrationResend ctx va r => Sys2Proof.Machine.execMigrationResend ctx va r s
  | .conditionMonitorWake f => Sys2Proof.Machine.execConditionMonitorWake f s
  | .monitorPoll f => Sys2Proof.Machine.execMonitorPoll f s
  | .streamerBytesComplete op n => Sys2Proof.Machine.execStreamerBytesComplete op n s
  | .laneCopyLand op => Sys2Proof.Machine.execLaneCopyLand op s
  | .matrixPassComplete op => Sys2Proof.Machine.execMatrixPassComplete op s
  | .checksumReplay op good => Sys2Proof.Machine.execChecksumReplay op good s
  | .matrixDrainComplete op => Sys2Proof.Machine.execMatrixDrainComplete op s
  | .gstLineReceive m => Sys2Proof.Machine.execGstLineReceive m s
  | .gldRequestReceive m => Sys2Proof.Machine.execGldRequestReceive m s
  | .gldReplyReceive m => Sys2Proof.Machine.execGldReplyReceive m s
  | .gredContributionReceive c => Sys2Proof.Machine.execGredContributionReceive c s
  | .gatomRequestReceive m busy => Sys2Proof.Machine.execGatomRequestReceive m busy s
  | .gatomReplyReceive m => Sys2Proof.Machine.execGatomReplyReceive m s
  | .gscanContributionReceive m => Sys2Proof.Machine.execGscanContributionReceive m s
  | .gscanReplyReceive m => Sys2Proof.Machine.execGscanReplyReceive m s
  | .gcopyLineReceive m => Sys2Proof.Machine.execGcopyLineReceive m s
  | .gcopyHeldDelivery => Sys2Proof.Machine.execGcopyHeldDelivery s
  | .acknowledgementReceive m => Sys2Proof.Machine.execAcknowledgementReceive m s
  | .releaseMarkerReceive src mark => Sys2Proof.Machine.execReleaseMarkerReceive src mark s
  | .refusalReceive m => Sys2Proof.Machine.execRefusalReceive m s
  | .idleFlitReceive link vc crd => Sys2Proof.Machine.execIdleFlitReceive link vc crd s
  | .reservedVcFlit link => Sys2Proof.Machine.execReservedVcFlit link s
  | .linkReplayRequest link fseq => Sys2Proof.Machine.execLinkReplayRequest link fseq s
  | .linkDown link => Sys2Proof.Machine.execLinkDown link s
  | .linkFailoverNotice link fseq => Sys2Proof.Machine.execLinkFailoverNotice link fseq s
  | .auditFlitSend link => Sys2Proof.Machine.execAuditFlitSend link s
  | .creditAuditReceive link vc slots => Sys2Proof.Machine.execCreditAuditReceive link vc slots s
  | .planeLossReport plane => Sys2Proof.Machine.execPlaneLossReport plane s
  | .unreachableMark link => Sys2Proof.Machine.execUnreachableMark link s
  | .tokenRowReceive r => Sys2Proof.Machine.execTokenRowReceive r s
  | .rowRefusalReceive r => Sys2Proof.Machine.execRowRefusalReceive r s
  | .gdispatchComplete op => Sys2Proof.Machine.execGdispatchComplete op s
  | .mbmarkCommit slot => Sys2Proof.Machine.execMbmarkCommit slot s
  | .closeMarkerSend slot => Sys2Proof.Machine.execCloseMarkerSend slot s
  | .closeMarkerReceive slot batch src last dests => Sys2Proof.Machine.execCloseMarkerReceive slot batch src last dests s
  | .loadMulticastReceive slot batch loads => Sys2Proof.Machine.execLoadMulticastReceive slot batch loads s
  | .fillCounterReset slot bank => Sys2Proof.Machine.execFillCounterReset slot bank s
  | .orderedRoundClose slot => Sys2Proof.Machine.execOrderedRoundClose slot s
  | .pagerFetchComplete idx => Sys2Proof.Machine.execPagerFetchComplete idx s
  | .fetchAttemptFail idx => Sys2Proof.Machine.execFetchAttemptFail idx s
  | .evictUnmapComplete idx => Sys2Proof.Machine.execEvictUnmapComplete idx s
  | .tileSpawn slot bank expert tile => Sys2Proof.Machine.execTileSpawn slot bank expert tile s
  | .npostStart op => Sys2Proof.Machine.execNpostStart op s
  | .neSegmentReceive g => Sys2Proof.Machine.execNeSegmentReceive g s
  | .neAckReceive a => Sys2Proof.Machine.execNeAckReceive a s
  | .neNotReadyReceive op => Sys2Proof.Machine.execNeNotReadyReceive op s
  | .neRetransmitTimeout op part => Sys2Proof.Machine.execNeRetransmitTimeout op part s
  | .neReceiveTimeout op => Sys2Proof.Machine.execNeReceiveTimeout op s
  | .neAbortReceive id msg => Sys2Proof.Machine.execNeAbortReceive id msg s
  | .shadowFlushTimer unit => Sys2Proof.Machine.execShadowFlushTimer unit s
  | .energyInterval island nj => Sys2Proof.Machine.execEnergyInterval island nj s
  | .scrub sector r => Sys2Proof.Machine.execScrub sector r s
  | .islandSet island mv mhz => Sys2Proof.Machine.execIslandSet island mv mhz s
  | .mctpStatus => Sys2Proof.Machine.execMctpStatus s
  | .mctpIslandTelemetry => Sys2Proof.Machine.execMctpIslandTelemetry s
  | .mctpReadCounters ctx => Sys2Proof.Machine.execMctpReadCounters ctx s
  | .mctpSignedSnapshot ctx nonce => Sys2Proof.Machine.execMctpSignedSnapshot ctx nonce s
  | .mctpSelfTestReport => Sys2Proof.Machine.execMctpSelfTestReport s
  | .spdmGetCertificate => Sys2Proof.Machine.execSpdmGetCertificate s
  | .spdmChallenge nonce => Sys2Proof.Machine.execSpdmChallenge nonce s
  | .spdmGetMeasurements nonce => Sys2Proof.Machine.execSpdmGetMeasurements nonce s
  | .coldReset o => Sys2Proof.Machine.execColdReset o s
  | .warmResetFlr o => Sys2Proof.Machine.execWarmResetFlr o s
  | .warmResetSecondaryBus o => Sys2Proof.Machine.execWarmResetSecondaryBus o s
  | .warmResetMp o => Sys2Proof.Machine.execWarmResetMp o s
  | .hostLinkDown => Sys2Proof.Machine.execHostLinkDown s
  | .cxlCacheSnoop line inval => Sys2Proof.Machine.execCxlCacheSnoop line inval s
  | .flitCrcFailure link => Sys2Proof.Machine.execFlitCrcFailure link s
  | .linkFlitAcknowledge link fseq => Sys2Proof.Machine.execLinkFlitAcknowledge link fseq s
  | .rowAcceptanceReceive r => Sys2Proof.Machine.execRowAcceptanceReceive r s

end Sys2Proof.Machine
end

