-- ==== Sys2Proof/Machine/Internal.lean ====
section
/-! DEFINITION. The events that the device comes to by itself, which `step` takes in turn with the fragments (log 1); the others are
the outside world's, or a clock's, and stand in `State.agenda`. What a step does before either. And the program that a word to fetch
makes of a state (log 15). -/

namespace Sys2Proof.Machine

/-! ## What is due -/

/-- A move: what an event does, where it is one of the state. -/
abbrev Move := State → Option State

/-- The block at the head of a core's queue could start there; a pre-empted block resumes elsewhere (log 1). -/
def headFits (s : State) (c : Nat) : Bool :=
  match (coreOf s c).queue with
  | [] => false
  | q :: _ =>
    match getLaunch s q.1 with
    | some l => couldStart s c l
    | none => false

/-- Dispatch, start and end of blocks; pre-emption where R106 asks for it. -/
def dueBlocks (s : State) : List Move :=
  [onLaunchAccept, onPendingSpawn, onBlockPlacement] ++
  ((s.cores.filter fun e => !e.2.queue.isEmpty).map fun e => onBlockStart (BitVec.ofNat 8 e.1)) ++
  s.blocks.flatMap fun b =>
    if b.state = .resident then [onBlockEnd b.bid, onPreempt b.bid]
    else match getLaunch s b.launch with
      | none => []
      | some l =>
        if !rcbValid (rcbWord s l.region) then [onBlockResume b.bid 0]
        else
        let cs := (List.range Config.nCores).filter (resumeFits s l b)
        match (cs.filter fun c => !headFits s c).head? with
          | some c => [onBlockResume b.bid (BitVec.ofNat 8 c)]
          | none => []

/-- Fragments whose waits may be over, and the rounds and turns of deterministic launches. -/
def dueFrags (s : State) : List Move :=
  ((allFrags s).filter fun r => match issuerAt s r with
    | some e => e.f.st != .ready && e.f.st != .free
    | none => false).flatMap (fun r => [onFragmentWake r, onAppendClaimGrant r, onConditionMonitorWake r, onMonitorPoll r]) ++
  (s.launches.filter fun l => l.det).flatMap fun l => [onDetSyncTurn l.lid, onDetRoundComplete l.lid]

/-- Stash segments that allocations touch and that are not awake; budgets that hold a region. -/
def dueUnits (s : State) : List Move :=
  ((s.blocks.map fun b => b.core).eraseDups.flatMap fun c =>
    ((List.range 16).filter fun g => (touched s c).getLsbD g && !(coreOf s c).awake.getLsbD g).map fun g =>
      onStashSegmentWake (BitVec.ofNat 8 c) (BitVec.ofNat 4 g)) ++
  (s.budget.filter fun u => u.allow ≤ u.used).map fun u =>
    onBudgetPeriodEnd (BitVec.ofNat 11 u.unit) (BitVec.ofNat 3 u.act) (BitVec.ofNat 52 u.rcb)

/-- A pass completes; one whose check has failed is replayed, with an outcome that is open (R536; log 6). -/
def passMove (p : PassOp) (s : State) : Option State :=
  if p.replays = 0 then onMatrixPassComplete p.id s
  else onChecksumReplay p.id (Config.choice s.free % 2 == 0) { s with free := s.free + 1 }

/-- The engines' operations in flight, the oldest pass of each block, and the page walks. -/
def dueEngines (s : State) : List Move :=
  s.engine.map (fun o => match o.work with
    | .copy _ _ => onLaneCopyLand o.id
    | .xfer _ _ _ _ len moved _ => onStreamerBytesComplete o.id (len - moved)
    | .drain _ _ => onMatrixDrainComplete o.id) ++
  (s.blocks.flatMap fun b => (b.passes.take 1).map passMove) ++
  s.walks.map fun w => onPageWalkComplete (BitVec.ofNat 16 w.ctx) (BitVec.ofNat 64 (4096 * w.granule))

/-- The expert units of a gate slot. -/
def dueGate (s : State) (k : Nat) (g : GateSlot) : List Move :=
  let i := BitVec.ofNat 3 k
  [onMbmarkCommit i, onCloseMarkerSend i, onOrderedRoundClose i, onFillCounterReset i 0, onFillCounterReset i 1] ++
  g.batches.flatMap fun m => (tilesDue s g m).map fun x => onTileSpawn i (BitVec.ofNat 1 (m.batch % 2)) x.1 x.2

/-- The expert units, the pager, the network engine, and a plane fence of the host. -/
def dueOthers (s : State) : List Move :=
  s.gates.flatMap (fun e => dueGate s e.1 e.2) ++ s.dispatches.map (fun d => onGdispatchComplete d.op) ++
  (s.fetches.filter fun f => fetchFunded s (ertEntry s f.idx)).map (fun f =>
    if fetchReady s f.idx then onPagerFetchComplete (BitVec.ofNat 14 f.idx) else onFetchAttemptFail (BitVec.ofNat 14 f.idx)) ++
  ((ertListed s).filter fun i => ertState (ertEntry s i) == 4).map (fun i => onEvictUnmapComplete (BitVec.ofNat 14 i)) ++
  (s.sends.filter fun q => !q.begun).map (fun q => onNpostStart q.op) ++
  (if s.landings.isEmpty then [] else [onGcopyHeldDelivery]) ++
  match s.planeWrite with
  | some x => [onHostSysregWrite 4 x]
  | none => []

/-- Everything that may be due, in the order of a turn that moves on with every step. -/
def dueMoves (s : State) : List Move :=
  let l := dueBlocks s ++ dueFrags s ++ dueUnits s ++ dueEngines s ++ dueOthers s
  l.drop (s.tick / 2 % l.length) ++ l.take (s.tick / 2 % l.length)

/-- Something that is there to be done. -/
@[always_inline, inline] def onSome (there : Bool) (f : State → State) (s : State) : Option State := due there (f s)

/-- What the grid interface does by itself: the device's own messages (R482), the requests that wait at a router's ports (R403), the
markers that need wait no longer (R186), and the poisoned parts for which a tag is free (R521). -/
def gridMoves (s : State) : List Move :=
  [deliverLoop, deliverXloop, onSome (!s.portOut.isEmpty) flushPort, onSome (!s.comb.isEmpty) drainComb,
   onSome (dueMarkers s) releaseMarkers, onSome (!s.poisonDue.isEmpty && (freeTag s).isSome) sendPoisonDue]

/-- The first of a list of moves that is one. -/
def firstMove (s : State) (l : List Move) : Option State := l.findSome? fun m => m s

/-- An event that the device comes to by itself: the grid interface's first at every second turn, the others' first at the rest, so that
neither keeps the other waiting (R78). -/
def internalStep (s : State) : Option State :=
  if s.tick / 2 % 2 = 0 then firstMove s (gridMoves s ++ dueMoves s) else firstMove s (dueMoves s ++ gridMoves s)

/-! ## Before anything else -/

/-- What reaches the device from outside; then the domains that a fault met in an operation stops (R497), and the write-backs to
report (R515). -/
def pressing (s : State) : Option State :=
  match s.inputs with
  | i :: rest => some (takeInput { s with inputs := rest } i)
  | [] =>
    if !s.doomed.isEmpty then some (takeDooms s)
    else if !s.lost.isEmpty then some (reportLost s)
    else none

/-! ## Issue (R97 to R99) -/

/-- The state in which a fragment's instruction issues, those that issue with it noted (R99). -/
def withMates (s : State) (e : Issuer) (i : Instr) : State := { s with co := coIssuers s e i }

/-- A fragment that issues in the cycle of another one's instruction takes no scheduler from it (R99). -/
def joinTurn (s : State) (e : Issuer) : State :=
  let s := { s with cur := some e.ref }
  noteMiss e.l.ctx (if e.p.frags.any fun f => f.burst.isSome then putPack s e.ref.blk (turnBursts e.p e.ref.frag) else s) e.f.pc.toNat

/-- The next of those that issue in the cycle of the last instruction, if it still does; and the others. -/
def coTurn (s : State) : State × Option Issuer :=
  match s.co.dropWhile fun r => match issuerAt s r with
      | some e => !(fragReady s e && vectorNext s e)
      | none => true with
  | [] => ({ s with co := [] }, none)
  | r :: rest => ({ s with co := rest }, issuerAt s r)

/-! ## A program of one instruction (log 15) -/

/-- The bytes of a word to fetch: the bits above nbits are zero. -/
def wordBytes (nbits w : Nat) : List Byte := leBytes 8 (w % 2 ^ nbits)

/-- The packet of the program: one block of one pack of width 8, every register and resource of a core. -/
def probePacket (entry rcb : Nat) : Nat :=
  entry + 128 * 2 ^ 128 + 64 * 2 ^ 136 + 8192 * 2 ^ 192 + 128 * 2 ^ 206 + 512 * 2 ^ 214 + 32 * 2 ^ 224 + rcb / 256 * 2 ^ 256

/-- Where the program's tables lie in bonded DRAM. -/
def probeBase : Nat := 0x100000000

/-- The fields of the program's region, a root and its own fault domain: byte offset, width and value. Every override is set, the
allowances are 2^56, core 0 is allowed, and the counter block and the save area lie in bonded DRAM. -/
def probeRcb : List (Nat × Nat × Nat) :=
  [(5, 1, 0x70), (8, 1, 0x1F), (23, 1, 1), (31, 1, 1), (39, 1, 1), (47, 1, 1), (55, 1, 1), (63, 1, 1), (71, 1, 1),
   (72, 5, 12 + 12 * 2 ^ 5 + 12 * 2 ^ 10 + 12 * 2 ^ 15 + 12 * 2 ^ 20 + 12 * 2 ^ 25 + 12 * 2 ^ 30), (80, 1, 1),
   (104, 5, (probeBase + 0x8000) / 128), (112, 3, (probeBase + 0x9000) / 4096), (118, 1, 0x10)]

/-- The context table, the page tables that map the code at 0x1000, the control block and the code. -/
def probeMemory (s : State) (bs : List Byte) : State :=
  let p := probeBase
  let s := { s with hi := { s.hi with ctxtab := BitVec.ofNat 64 (p + 1) } }
  let s := gWriteNat (gWriteNat s p 8 (p + 0x1001)) (p + 8) 8 ((p + 0x7000) / 256)
  let s := (List.range 4).foldl (fun s i => gWriteNat s (p + 0x1000 * (i + 1)) 8 (p + 0x1000 * (i + 2) + 1)) s
  let s := gWriteNat s (p + 0x5008) 8 (p + 0x600F)
  let s := probeRcb.foldl (fun s x => gWriteNat s (p + 0x7000 + x.1) x.2.1 x.2.2) s
  gWrite s (p + 0x6000) bs

/-- The launch and its only block, resident on core 0. -/
def probeBlock (s : State) : State :=
  let rcb := probeBase + 0x7000
  let l : Launch := { lid := s.nextId, packet := BitVec.ofNat 1024 (probePacket 0x1000 rcb), region := rcb, ctx := 0, args := 0,
                      arg0 := some 0, det := false, strict := false, prio := 0, quantum := 4096, next := 1 }
  let s := { s with launches := s.launches ++ [l], nextId := s.nextId + 1 }
  let b : Block := { bid := s.nextId, launch := l.lid, linear := 0, core := 0, base := 0, packs := [newPack s l 0 0 0], tdbase := 0,
                     capbase := 0, order := s.nextId }
  let s := { s with blocks := s.blocks ++ [b], nextId := s.nextId + 1 }
  putCore s 0 { coreOf s 0 with awake := 0xFFFF }

/-- The fragment that issues next, with the physical address at its PC, if it can fetch there. -/
def nextFetch (s : State) : Option Nat :=
  match selectFrag s with
  | none => none
  | some e =>
    match xlate s e.l.ctx (inSup e.f) .exec e.f.pc.toNat with
    | .ok pa => if pa % 4096 ≤ 4088 then some pa else none
    | .error _ => none

/-- The word stands where the next fetch goes: at the PC of the fragment that issues next, or else in a program that is loaded for
it. The next step is a fragment's. -/
def placeWord (s : State) (nbits w : Nat) : State :=
  let s := { s with agenda := [], inputs := [], doomed := [], lost := [], co := [], tick := s.tick / 2 * 2 }
  match nextFetch s with
  | some pa => gWrite s pa (wordBytes nbits w)
  | none => probeBlock (probeMemory s (wordBytes nbits w))

end Sys2Proof.Machine
end

