-- ==== Sys2Proof/Machine/Step.lean ====
section
/-! DEFINITION. One step of the device: what presses from outside or from a fault; else the instruction of a fragment that issues in the
cycle of the last one; else an event of the agenda; else the instruction of a fragment, or an event that the device comes to by itself,
in turn; else nothing (log 1). -/

namespace Sys2Proof.Machine

/-- A fragment takes its scheduler, and its instruction issues, or a trap of its fetch is taken (R97, R98, R224, R549). -/
def issueFrom (s : State) (e : Issuer) : Host.Outcome State Fault Refusal :=
  let s := takeTurn s e
  let e := refresh s e
  match fetched s e with
  | .error t => .next (takeTrap s e t)
  | .ok i => exec i (withMates s e i)

/-- A fragment issues in the same cycle (R99). -/
def issueWith (s : State) (e : Issuer) : Host.Outcome State Fault Refusal :=
  let s := joinTurn s e
  let e := refresh s e
  match fetched s e with
  | .error t => .next (takeTrap s e t)
  | .ok i => exec i s

/-- A fragment's turn: if none can issue, an event; if there is none, nothing happens. -/
def fragmentFirst (s : State) : Host.Outcome State Fault Refusal :=
  match selectFrag s with
  | some e => issueFrom s e
  | none => .next ((internalStep s).getD s)

/-- An event's turn: if none is due, a fragment. -/
def eventFirst (s : State) : Host.Outcome State Fault Refusal :=
  match internalStep s with
  | some t => .next t
  | none => fragmentFirst s

/-- A step of the agenda, of a fragment, or of an event. -/
def turn (s : State) : Host.Outcome State Fault Refusal :=
  let t := { s with tick := s.tick + 1 }
  match s.agenda with
  | i :: rest => exec i { t with agenda := rest }
  | [] => if s.tick % 2 = 0 then fragmentFirst t else eventFirst t

/-- The step. -/
def step (s : State) : Host.Outcome State Fault Refusal :=
  let t := { s with cur := none }
  match pressing t with
  | some u => .next u
  | none =>
    match coTurn t with
    | (u, some e) => issueWith u e
    | (u, none) => turn u

/-- The state in which the word is the instruction that the next step fetches (log 15). -/
def State.withFetchWord (s : State) (nbits w : Nat) : State := placeWord s nbits w

end Sys2Proof.Machine
end

