-- ==== Sys2Proof/Safety.lean ====
section
/-! DEFINITION. The words in which claims are stated: the issuing fragment, what a register or a latch reads as, what a step leaves
alone, and what counts as a safe run. -/

namespace Sys2Proof.Safety

open Sys2Proof Sys2Proof.Machine

/-- A run without a fault or a refusal. -/
def SafeRun : Nat → State → Prop
  | 0, _ => True
  | n + 1, s => ∃ t, step s = .next t ∧ SafeRun n t

/-- The fragment that issues in a state, with its block, pack and launch as the state holds them. -/
def Issues (s : State) (e : Issuer) : Prop := s.cur = some e.ref ∧ issuerAt s e.ref = some e

/-- A fragment issues outside a HOLD burst. -/
def IssuesAlone (s : State) (e : Issuer) : Prop := Issues s e ∧ e.f.burst = none

/-- The pack at a place, as a state has it. -/
def packNow (s : State) (r : FragRef) : Option Pack := (getBlock s r.blk).bind fun b => getPack b r.pidx r.pos

/-- The slices that an instruction of a fragment moves: those with a lane that has not exited. -/
def movedSlices (p : Pack) (f : Fragment) : List Nat := (fragSlices p f).filter fun k => (sliceOf p k).live != 0

/-- A slice of a pack stands at an address, in a fragment. -/
def StandsAt (p : Pack) (k : Nat) (pc : DWord) : Prop :=
  ∃ i g, getFrag p i = some g ∧ g.st ≠ .free ∧ g.slices.getLsbD k = true ∧ g.pc = pc

/-- A lane's value of latch b(k), and whether the latch is valid (R100). -/
def latchVal (f : Fragment) (k l : Nat) : Nat := ((f.latches[k]?).elim 0 fun t => (spGet 0 t.vals l).toNat)
def latchValid (f : Fragment) (k : Nat) : Bool := (f.latches[k]?).elim false fun t => t.valid

/-- A state is another but for one pack and what charging an instruction records (the counter of free choices, log 6, with it): every
other field, block and pack, and every byte of memory, is the same. -/
structure OnlyPack (s t : State) (r : FragRef) : Prop where
  device : t = { s with blocks := t.blocks, budget := t.budget, shadows := t.shadows, activity := t.activity, free := t.free }
  blocks : ∀ n, n ≠ r.blk → getBlock t n = getBlock s n
  block : ∀ b, getBlock s r.blk = some b → ∃ b', getBlock t r.blk = some b' ∧ b' = { b with packs := b'.packs } ∧
    ∀ i j, ¬ (i = r.pidx ∧ j = r.pos) → getPack b' i j = getPack b i j
  bytes : ∀ a, gByte t a = gByte s a

/-- Word i of a result. -/
def wordOf (x i : Nat) : Word := BitVec.ofNat 32 (x / 2 ^ (32 * i))

/-- The first register of a destination. -/
def dstBase (d : Dst) : Nat :=
  match d with
  | .v n => n.toNat
  | .s n => n.toNat
  | .q n => n.toNat
  | .p n => n.toNat
  | .null => 0

/-- Whether a write of n registers to a destination covers register v(r), s(r) or p(r) (R237, R238, R242). -/
def vDest (d : Dst) (nowb : Bool) (n r : Nat) : Prop :=
  match d with
  | .v k => nowb = false ∧ k.toNat ≤ r ∧ r < k.toNat + n
  | _ => False
def sDest (d : Dst) (nowb : Bool) (n r : Nat) : Prop :=
  match d with
  | .s k => nowb = false ∧ k.toNat ≤ r ∧ r < k.toNat + n
  | _ => False
def pDest (d : Dst) (nowb : Bool) (r : Nat) : Prop :=
  match d with
  | .p k => nowb = false ∧ r = k.toNat ∧ r ≠ 7
  | _ => False

/-- The registers of a pack after a write of a result to a destination: each active lane's v registers or predicate hold its own
value, uniform registers that of the lowest active lane; in supervisor mode v120 and s56 up are the banks; every other register
is as it was (R237, R238, R488). -/
structure RegsAfter (p q : Pack) (sup : Bool) (d : Dst) (nowb : Bool) (n : Nat) (act : List Nat) (val : Nat → Nat) : Prop where
  vWritten : ∀ b l r, l ∈ act → vDest d nowb n r → (b = sup ∨ r < 120) → getV b q l r = wordOf (val l) (r - dstBase d)
  vKept : ∀ b l r, ¬ (l ∈ act ∧ vDest d nowb n r ∧ (b = sup ∨ r < 120)) → getV b q l r = getV b p l r
  sWritten : ∀ b r, act ≠ [] → sDest d nowb n r → (b = sup ∨ r < 56) → getS b q r = wordOf (val (act.headD 0)) (r - dstBase d)
  sKept : ∀ b r, ¬ (act ≠ [] ∧ sDest d nowb n r ∧ (b = sup ∨ r < 56)) → getS b q r = getS b p r
  pWritten : ∀ l i, l ∈ act → pDest d nowb i → getP q l i = (val l != 0)
  pKept : ∀ l i, i < 8 → ¬ (l ∈ act ∧ pDest d nowb i) → getP q l i = getP p l i

/-- The latches of a fragment after a result (R100): b0 takes it in every lane, zero outside the active set; a result discarded with
a null destination shifts nothing. -/
structure LatchesAfter (f g : Fragment) (d : Dst) (act : List Nat) (val : Nat → Nat) : Prop where
  fresh : d ≠ .null → latchValid g 0 = true ∧
    ∀ l, latchVal g 0 l = if l ∈ act then val (if usesUniform d then act.headD 0 else l) % 2 ^ 128 else 0
  older : d ≠ .null → ∀ k, k < 7 → latchValid g (k + 1) = latchValid f k ∧ ∀ l, latchVal g (k + 1) l = latchVal f k l
  kept : d = .null → ∀ k, latchValid g k = latchValid f k ∧ ∀ l, latchVal g k l = latchVal f k l

/-- Every moved slice of a fragment stands, with its mask and stack, where its join check puts it from a next address (R43, R46). -/
def Advanced (p q : Pack) (f : Fragment) (next : Nat → DWord) : Prop :=
  ∀ k ∈ movedSlices p f, StandsAt q k (joinCheck 10 (next k) (sliceOf p k)).1 ∧
    (sliceOf q k).mask = (joinCheck 10 (next k) (sliceOf p k)).2.mask ∧
    (sliceOf q k).stack = (joinCheck 10 (next k) (sliceOf p k)).2.stack

/-- The logical clock after an instruction (R111, R504). -/
def clockAfter (e : Issuer) : Nat := if e.l.det && inSup e.f then e.p.lclock else e.p.lclock + 1

/-- The flags that a list of (lane, flags) pairs raises in a slice. -/
def sliceFlags (fs : List (Nat × Nat)) (k : Nat) : BitVec 8 :=
  (fs.filter fun x => x.1 / 4 == k).foldl (fun m x => m ||| BitVec.ofNat 8 x.2) 0

/-- What an instruction leaves that computes `val` in each lane of `act` and writes it to a destination: the registers, the latches,
each slice's FPSTAT copy and draw counter, the clock, where its slices stand; and that nothing else changes, queues and
what they wake apart. -/
structure Computed (s t : State) (e : Issuer) (len : Nat) (srcs : List Opnd) (d : Dst) (nowb : Bool) (n : Nat) (act : List Nat)
    (val : Nat → Nat) (fp : Nat → BitVec 8) (draw : Nat → BitVec 22) : Prop where
  device : t = { s with blocks := t.blocks, launches := t.launches, budget := t.budget, shadows := t.shadows,
                        activity := t.activity, free := t.free }
  bytes : ∀ a, gByte t a = gByte s a
  quiet : popsOf srcs = [] → pushOf d = none → OnlyPack s t e.ref
  pack : ∃ p, packNow t e.ref = some p ∧ RegsAfter e.p p (inSup e.f) d nowb n act val ∧
    (∀ k, (sliceOf p k).fpstat = fp k ∧ (sliceOf p k).draw = draw k ∧ (sliceOf p k).live = (sliceOf e.p k).live) ∧
    p = { e.p with slices := p.slices, s := p.s, sb := p.sb, badV := p.badV, badS := p.badS, badP := p.badP, frags := p.frags,
                   lclock := clockAfter e, ended := p.ended, lastSync := p.lastSync, skew := p.skew } ∧
    Advanced e.p p e.f (fun _ => e.f.pc + BitVec.ofNat 64 len) ∧
    ∀ g, getFrag p e.ref.frag = some g → g.st ≠ .free → LatchesAfter e.f g d act val

/-- The operands of a computing instruction are readable and its destination writable, and no queue nor turn holds it: registers in
range, latches valid, no register error, queue registers bound as they are used with an element or a place there (R70, R71,
R101, R113, R236, R509). -/
def OperandsReady (s : State) (e : Issuer) (pr : Pred) (srcs : List Opnd) (d : Dst) (n : Nat) : Prop :=
  operandCause e (activeLanes e pr) srcs d n = none ∧ queueWait s e (activeLanes e pr) srcs d = none

/-- Source i of an instruction in a lane. -/
def reader (e : Issuer) (srcs : List Opnd) (i l : Nat) : Nat :=
  opndVal e (srcs.getD i { src := .unused, ty := .b32, wide := false }) l

/-- The lanes whose results are wanted: for a uniform destination the lowest (R237). -/
def outLanes (d : Dst) (act : List Nat) : List Nat := if usesUniform d then act.take 1 else act

/-- The flags that lanes raise: each lane's into its own slice; those of a uniform result into every slice of the fragment (R301). -/
def laneFlags (e : Issuer) (d : Dst) (act : List Nat) (f : Nat → Nat) : List (Nat × Nat) :=
  if usesUniform d then
    match act with
    | [] => []
    | a :: _ => (fragSlices e.p e.f).map fun k => (4 * k, f a)
  else act.map fun l => (l, f l)

/-- A computing instruction whose operands are ready completes, and leaves in each active lane the value, and in the slices the
flags, that `val` gives from its sources; `draws` says whether it draws (R214, R504). -/
def Gives (i : Instr) (s : State) (e : Issuer) (len : Nat) (pr : Pred) (srcs : List Opnd) (d : Dst) (nowb : Bool) (n : Nat)
    (draws : Bool) (val : (Nat → Nat → Nat) → Nat → Nat × Nat) : Prop :=
  Issues s e → OperandsReady s e pr srcs d n →
  ∃ t, exec i s = .next t ∧
    Computed s t e len srcs d nowb n (activeLanes e pr) (fun l => (val (reader e srcs) l).1)
      (fun k => (sliceOf e.p k).fpstat |||
        sliceFlags (laneFlags e d (activeLanes e pr) fun l => (val (reader e srcs) l).2) k)
      (fun k => if draws && !(e.l.det && inSup e.f) && (fragSlices e.p e.f).contains k then (sliceOf e.p k).draw + 1
        else (sliceOf e.p k).draw)

/-- Element by element, an exact integer value narrowed to its type (R280). -/
def intVal (t : Ty) (sat : Bool) (x : (Nat → Int) → Int) (rd : Nat → Nat → Nat) (l : Nat) : Nat × Nat :=
  elementwise t fun k => intResult t sat (x fun i => intOf t (elem (elemBits t) (rd i l) k))

/-- A function of whole operands, without flags. -/
def wordVal (f : (Nat → Nat) → Nat) (rd : Nat → Nat → Nat) (l : Nat) : Nat × Nat := (f fun i => rd i l, 0)

/-- Element by element, a floating-point operation with its rounding, clamped when sat is set (R205). -/
def floatVal (t : Ty) (rnd : Rnd) (sat : Bool) (f : Fmt → Rnd → (Nat → Nat) → Nat × Nat) (rd : Nat → Nat → Nat) (l : Nat) :
    Nat × Nat :=
  elementwise t fun k => withSat (fmtOf t) sat (f (fmtOf t) rnd fun i => elem (elemBits t) (rd i l) k)

/-- The same for an instruction whose results come from all lanes together: its result in each lane and the flags of each slice are
functions of the sources in every lane; it draws nothing. -/
def Yields (i : Instr) (s : State) (e : Issuer) (len : Nat) (pr : Pred) (srcs : List Opnd) (d : Dst) (nowb : Bool) (n : Nat)
    (val : (Nat → Nat → Nat) → Nat → Nat) (fp : (Nat → Nat → Nat) → Nat → BitVec 8 → BitVec 8) : Prop :=
  Issues s e → OperandsReady s e pr srcs d n →
  ∃ t, exec i s = .next t ∧
    Computed s t e len srcs d nowb n (activeLanes e pr) (val (reader e srcs))
      (fun k => fp (reader e srcs) k (sliceOf e.p k).fpstat) (fun k => (sliceOf e.p k).draw)

/-- A slice of the fragment holds an active lane. -/
def activeSlice (act : List Nat) (k : Nat) : Bool := act.any fun l => l / 4 == k

/-- The lanes of a list that hold the same value as a lane (R294). -/
def groupOf (act : List Nat) (v : Nat → Nat) (l : Nat) : List Nat := act.filter fun j => v j == v l

/-- The tree's result over the first m lanes of a pack, its active lanes' values being the leaves (R218, R219, R295). -/
def treeOver (e : Issuer) (g : Gen) (op : Nat) (act : List Nat) (v : Nat → Nat) (m : Nat) : Nat × Nat :=
  (scanFirst (combine op g.ty g.rnd) (reduxLevels e g op v act) m).getD (reduxIdentity op g.ty, 0)

/-! ## Instructions with an effect of their own -/

/-- A state is another but for what waiting and the order of synchronising operations record. -/
structure Stirred (s t : State) : Prop where
  device : t = { s with blocks := t.blocks, launches := t.launches }
  bytes : ∀ a, gByte t a = gByte s a
  issuers : ∀ r e, issuerAt s r = some e → ∃ e', issuerAt t r = some e' ∧ e'.b = { e.b with packs := e'.b.packs } ∧
    e'.p = { e.p with frags := e'.p.frags, lastSync := e'.p.lastSync, skew := e'.p.skew } ∧
    e'.f = { e.f with st := e'.f.st, wait := e'.f.wait, gang := e'.f.gang, since := e'.f.since } ∧
    e'.l = { e.l with seq := e'.l.seq }

/-- A state is another but for the issuer's pack, which is p. -/
def PackIs (s m : State) (e : Issuer) (p : Pack) : Prop := OnlyPack s m e.ref ∧ packNow m e.ref = some p

/-- The latches of a fragment after an instruction: a result shifts them, its values into b0; without one they stay (R100). -/
def LatchesShift (f g : Fragment) : Option (Sparse (BitVec 128)) → Prop
  | none => ∀ k, latchValid g k = latchValid f k ∧ ∀ l, latchVal g k l = latchVal f k l
  | some v => latchValid g 0 = true ∧ (∀ l, latchVal g 0 l = (spGet 0 v l).toNat) ∧
      ∀ k, k < 7 → latchValid g (k + 1) = latchValid f k ∧ ∀ l, latchVal g (k + 1) l = latchVal f k l

/-- What retirement adds to the state m that an instruction's own effect leaves: only the issuer's pack changes, beside what charging
records; its clock counts; each moved slice stands where its join check puts it from its next address; a result shifts the
latches, HOLD begins a burst, YIELD drops the latches. -/
structure Retired (m t : State) (e : Issuer) (len : Nat) (r : Retire) : Prop where
  frame : OnlyPack m t e.ref
  pack : ∃ e' p, issuerAt m e.ref = some e' ∧ packNow t e.ref = some p ∧
    p = { e'.p with slices := p.slices, frags := p.frags, ended := p.ended, lclock := clockAfter e' } ∧
    (∀ k, sliceOf p k = if k ∈ movedSlices e'.p e'.f then
        (joinCheck 10 ((spFind? r.jump k).getD (e'.f.pc + BitVec.ofNat 64 len)) (sliceOf e'.p k)).2 else sliceOf e'.p k) ∧
    Advanced e'.p p e'.f (fun k => (spFind? r.jump k).getD (e'.f.pc + BitVec.ofNat 64 len)) ∧
    ∀ g, getFrag p e.ref.frag = some g → g.st ≠ .free → g.st = .ready ∧ g.frame = e'.f.frame ∧
      (r.endRun = false → LatchesShift e'.f g r.res) ∧
      (r.endRun = true → g.slots = 64 ∧ ∀ k, latchValid g k = false) ∧
      (r.endRun = false → ∀ n, r.hold = some n → ∃ u, g.burst = some u ∧ u.pc = e'.f.pc ∧ u.left = n)

/-- An instruction completes: its own effect, of which P speaks, then its retirement. -/
def Completes (i : Instr) (s : State) (e : Issuer) (len : Nat) (P : State → Retire → Prop) : Prop :=
  ∃ m r t, exec i s = .next t ∧ Retired m t e len r ∧ P m r

/-- What a waiting instruction leaves: only its own fragment changes, to a scheduling state with a reason (R48, R278). -/
def Waits (i : Instr) (s : State) (e : Issuer) (st : FragState) (w : Wait) : Prop :=
  ∃ t, exec i s = .next t ∧ PackIs s t e (setFrag e.p e.ref.frag { e.f with st, wait := w, since := s.tick, gang := 0 })

/-- An address that a control transfer may go to (R266). -/
def ValidTarget (a : DWord) : Prop := a.getLsbD 0 = false ∧ a.toNat < 2 ^ 57

/-- Every slice of the issuer goes to an address. -/
def goTo (e : Issuer) (a : DWord) : Retire := { jump := (fragSlices e.p e.f).map fun k => (k, a) }

/-- The slices of a list go to an address, the others fall through. -/
def goSome (ks : List Nat) (a : DWord) : Retire := { jump := ks.map fun k => (k, a) }

/-- A pack is another but for n uniform registers from r up, which hold the words of a value; in supervisor mode s56 up are the bank
(R237, R488). -/
def SetsUniform (p q : Pack) (sup : Bool) (r n val : Nat) : Prop :=
  q = { p with s := q.s, sb := q.sb, badS := q.badS } ∧
  ∀ b k, getS b q k = if r ≤ k ∧ k < r + n ∧ (b = sup ∨ k < 56) then wordOf val (k - r) else getS b p k

/-! ## Instructions that reach memory -/

/-- A state is another but for what accesses to memory leave in the caches and the TLBs, and what charging records (and the counter of
free choices, log 6): no byte of memory, no block and no register; of a core only its L1, and the TLBs hold no translation that they
did not hold. -/
structure Charged (s t : State) : Prop where
  device : t = { s with tlb := t.tlb, walks := t.walks, l2 := t.l2, cores := t.cores, budget := t.budget, shadows := t.shadows,
                        activity := t.activity, free := t.free }
  cores : ∀ c, { coreOf t c with l1 := [] } = { coreOf s c with l1 := [] }
  tlb : ∀ x ∈ t.tlb, ∃ y ∈ s.tlb, x = { y with place := x.place }

/-- An instruction whose effect is its result alone: the registers of its destination and the value for latch b0, `val` in each
active lane (the lowest one's for uniform registers). -/
structure ResultOnly (s m : State) (e : Issuer) (d : Dst) (nowb : Bool) (n : Nat) (act : List Nat) (val : Nat → Nat)
    (r : Retire) : Prop where
  frame : OnlyPack s m e.ref
  pack : ∃ p, packNow m e.ref = some p ∧ RegsAfter e.p p (inSup e.f) d nowb n act val ∧
    p = { e.p with slices := p.slices, s := p.s, sb := p.sb, badV := p.badV, badS := p.badS, badP := p.badP } ∧
    ∀ k, { sliceOf p k with lanes := [] } = { sliceOf e.p k with lanes := [] }
  latch : r = { res := r.res } ∧ (d = .null → r.res = none) ∧
    (d ≠ .null → ∃ v, r.res = some v ∧
      ∀ l, spGet 0 v l = if l ∈ act then BitVec.ofNat 128 (val (if usesUniform d then act.headD 0 else l)) else 0)

/-- The lane whose access serves a lane: its own, or with a uniform base the lowest active one (R324). -/
def servedBy (m : M64) (act : List Nat) (l : Nat) : Nat :=
  match m.base with
  | .s _ => act.headD 0
  | _ => l

/-- Byte i of a value. -/
def byteOf (x i : Nat) : Byte := BitVec.ofNat 8 (x / 2 ^ (8 * i))

/-- No stash owns a line that n bytes at a physical address touch (R132). -/
def Unowned (s : State) (pa n : Nat) : Prop := ∀ i, i < n → ownerOf s (pa + i) = none

/-- Aligned accesses of lanes to plain memory, each through its translation, none held by a budget, none cut off (R104, R318 to
R320, R556). -/
def Reaches (s : State) (e : Issuer) (need : Need) (n : Nat) (lanes : List Nat) (addr pa : Nat → Nat) : Prop :=
  (∀ l ∈ lanes, addr l % n = 0 ∧ xlate s e.l.ctx (inSup e.f) need (addr l) = .ok (pa l)) ∧
  memHold s e (lanes.map pa) = none

/-- Memory after lanes store: each stored byte holds its lane's byte, every other reads as before. -/
def BytesStored (s t : State) (n : Nat) (lanes : List Nat) (pa val : Nat → Nat) : Prop :=
  (∀ l ∈ lanes, ∀ i, i < n → gByte t (pa l + i) = byteOf (val l) i) ∧
  ∀ a, (∀ l ∈ lanes, ¬ (pa l ≤ a ∧ a < pa l + n)) → gByte t a = gByte s a

/-- The accesses of lanes do not meet. -/
def Apart (n : Nat) (lanes : List Nat) (pa : Nat → Nat) : Prop :=
  ∀ l ∈ lanes, ∀ k ∈ lanes, l ≠ k → pa l + n ≤ pa k ∨ pa k + n ≤ pa l

/-- A state is another but for lines that moved between stashes and memory, those whose write-back failed, and what that leaves in
the caches and the TLBs and in what charging records: no pack, no launch and no register of the device changes (R129 to R135). -/
structure LinesMoved (s t : State) : Prop where
  device : t = { s with mem := t.mem, poison := t.poison, blocks := t.blocks, lost := t.lost, tlb := t.tlb, walks := t.walks,
                        l2 := t.l2, cores := t.cores, budget := t.budget, shadows := t.shadows, activity := t.activity,
                        free := t.free }
  cores : ∀ c, { coreOf t c with l1 := [] } = { coreOf s c with l1 := [] }
  tlb : ∀ x ∈ t.tlb, ∃ y ∈ s.tlb, x = { y with place := x.place }
  blocks : ∀ n b, getBlock s n = some b → ∃ b', getBlock t n = some b' ∧
    b' = { b with stash := b'.stash, stashPoison := b'.stashPoison, lines := b'.lines, refill := b'.refill }

/-- A state is another but for one block's stash and lines. -/
structure StashOnly (s t : State) (bid : Nat) (b b' : Block) : Prop where
  device : t = { s with blocks := t.blocks }
  others : ∀ n, n ≠ bid → getBlock t n = getBlock s n
  before : getBlock s bid = some b
  after : getBlock t bid = some b'
  block : b' = { b with stash := b'.stash, stashPoison := b'.stashPoison, lines := b'.lines }

/-! ## Matrix instructions -/

/-- The stash bytes, and the global ones, of matrix cells (entry word, row, column). -/
def matStash (cells : List (Nat × Nat × Nat)) : List (Nat × Nat) :=
  cells.filterMap fun x => if tStash x.1 then (cellAddr x.1 x.2.1 x.2.2).map fun a => (a, tSize x.1) else none
def matFar (s : State) (e : Issuer) (cells : List (Nat × Nat × Nat)) : List (Nat × Nat) :=
  cells.flatMap fun x =>
    (if tStash x.1 then [] else
      (((cellAddr x.1 x.2.1 x.2.2).bind (issuerTr s e)).map fun pa => (pa, tSize x.1)).toList) ++
    (((scaleAddr x.1 x.2.1 x.2.2).bind (issuerTr s e)).map fun pa => (pa, 1)).toList

/-- Reads of matrix cells meet no publication, no stall, no held budget and no race (R104, R138, R198, R544). -/
def ReadsOpen (s : State) (e : Issuer) (cells : List (Nat × Nat × Nat)) : Prop :=
  needsRound e = false ∧ ((matStash cells).findSome? fun x => stashStall s e x.2 [x.1]) = none ∧
  memHold s e ((matFar s e cells).map (·.1) ++ fillPas s e.l.ctx (inSup e.f) e.b (matStash cells)) = none ∧
  strictRace s e ((matFar s e cells).map (·.1)) = false

/-- A matrix instruction performs: from the state that its own effect leaves, its partners take note of the octets (R53). -/
def Performs (i : Instr) (s : State) (e : Issuer) (P : State → Retire → Prop) : Prop :=
  Completes i s e 8 fun m r => ∃ v, P v r ∧ m = markPartners v e (todoOctets e.p e.f)

/-! ## Grid messages -/

/-- A state is another but for messages on their way (in the outbox, looped back, held at the grid interface or at its ports, their
flits on links), the planes that operations in flight are noted to take, and what charging records. -/
structure Sent (s t : State) : Prop where
  device : t = { s with outbox := t.outbox, loop := t.loop, heldMsgs := t.heldMsgs, markersDue := t.markersDue, portOut := t.portOut,
                        combOut := t.combOut, links := t.links, flitsOut := t.flitsOut, gridOps := t.gridOps, budget := t.budget,
                        shadows := t.shadows, activity := t.activity, free := t.free }
  ops : (t.gridOps.map fun o => { o with planes := [] }) = s.gridOps.map fun o => { o with planes := [] }

/-- A grid operation begins and counts in its pack, and its messages leave under a tag of its own (R400, R408). -/
def Posts (s m : State) (e : Issuer) (o : GridOp) (gs : List GOut) : Prop :=
  ∃ t v, t < 65536 ∧ (∀ x ∈ s.gridOps, x.tag ≠ t) ∧
    PackIs { s with nextId := s.nextId + 1, gridOps := s.gridOps ++ [{ o with tag := t, op := s.nextId }] } v e
      { e.p with eng := e.p.eng ++ [{ id := s.nextId, cls := .grid, tag := none }] } ∧
    m = (gs.map (putTag t)).foldl (send e.l.region) v

/-- Messages of one kind that carry lines: each its line's 128 bytes, those that a function of their address gives marked, the others
not; one message for a line, numbered among them. -/
structure LineMessages (kind : Nat) (m : GMsg) (gs : List GOut) (f : Nat → Option Byte) : Prop where
  parts : ∀ (i : Nat) (x : GOut), gs[i]? = some x →
    x = { kind, msg := { m with addr := x.msg.addr, bytes := x.msg.bytes, part := i, nparts := gs.length } } ∧
    x.msg.addr % 128 = 0 ∧ x.msg.bytes.length = 128 ∧
    ∀ j, j < 128 → x.msg.bytes[j]? = some ((f (x.msg.addr + j)).elim (false, 0) fun b => (true, b))
  once : (gs.map fun x => x.msg.addr).Nodup
  every : ∀ a b, f a = some b → ∃ x ∈ gs, x.msg.addr = a / 128 * 128

end Sys2Proof.Safety
end

