-- ==== Sys2Proof/Certificates/Slice0/Obligations.lean ====
section
/-! DEFINITION. What is claimed of the model, in the order of the opcode table, events and the whole machine last. -/

open Sys2Proof Sys2Proof.Machine Sys2Proof.Safety


/-! ## Instructions that compute -/

/-- R280, R281, R290: integer arithmetic computes exactly, element by element, and narrows once; the registers, the latches, FPSTAT and
all that stays as it was are those of `Gives`.
The model's readings: log 14. -/
def Obligations.IntegerArithmetic : Prop := ∀ (s : State) (e : Issuer) (g : Gen),
  Gives (.iadd g) s e 8 g.pred (srcs3 g) g.dst g.nowb (nregs g.ty) false (intVal g.ty g.sat fun v => v 0 + v 1) ∧
  Gives (.isub g) s e 8 g.pred (srcs3 g) g.dst g.nowb (nregs g.ty) false (intVal g.ty g.sat fun v => v 0 - v 1) ∧
  Gives (.imul g) s e 8 g.pred (srcs3 g) g.dst g.nowb (nregs g.ty) false (intVal g.ty g.sat fun v => v 0 * v 1) ∧
  Gives (.imad g) s e 8 g.pred (srcs3 g) g.dst g.nowb (nregs g.ty) false (intVal g.ty g.sat fun v => v 0 * v 1 + v 2) ∧
  Gives (.imin g) s e 8 g.pred (srcs3 g) g.dst g.nowb (nregs g.ty) false (intVal g.ty g.sat fun v => min (v 0) (v 1)) ∧
  Gives (.imax g) s e 8 g.pred (srcs3 g) g.dst g.nowb (nregs g.ty) false (intVal g.ty g.sat fun v => max (v 0) (v 1)) ∧
  Gives (.iabsd g) s e 8 g.pred (srcs3 g) g.dst g.nowb (nregs g.ty) false (intVal g.ty g.sat fun v => (v 0 - v 1).natAbs) ∧
  Gives (.imulh g) s e 8 g.pred (srcs3 g) g.dst g.nowb (nregs g.ty) false (wordVal fun v => mulHigh g.ty (v 0) (v 1)) ∧
  Gives (.cvti g) s e 8 g.pred [cvtiOpnd g] g.dst g.nowb (nregs g.ty) false (fun rd l =>
    intResult g.ty g.sat (if (cvtiSrc g.opx.toNat).2 then sval (cvtiSrc g.opx.toNat).1 (rd 0 l % 2 ^ (cvtiSrc g.opx.toNat).1)
      else (rd 0 l % 2 ^ (cvtiSrc g.opx.toNat).1 : Nat)))

/-- R282 to R286: bitwise, shift, bit-field and count operations, by the function of the operands that each computes. -/
def Obligations.BitwiseAndShifts : Prop := ∀ (s : State) (e : Issuer) (g : Gen),
  (∀ x ∈ [(Instr.and g, fun a b => a &&& b), (.or g, fun a b => a ||| b), (.xor g, fun a b => a ^^^ b),
          (.andn g, fun a b => a &&& (2 ^ tyBits g.ty - 1 - b))],
    Gives x.1 s e 8 g.pred (srcs3 g) g.dst g.nowb (nregs g.ty) false (wordVal fun v => x.2 (v 0) (v 1))) ∧
  (∀ x ∈ [(Instr.shl g, shlBits), (.shr g, shrBits), (.sar g, sarBits), (.rotl g, rotlBits)],
    Gives x.1 s e 8 g.pred (srcsShift g) g.dst g.nowb (nregs g.ty) false (wordVal fun v => x.2 (tyBits g.ty) (v 0) (v 1))) ∧
  (∀ x ∈ [(Instr.popc g, popcBits), (.clz g, clzBits), (.ctz g, ctzBits), (.brev g, brevBits)],
    Gives x.1 s e 8 g.pred [opn g.a g.ty] g.dst g.nowb (nregs g.ty) false (wordVal fun v => x.2 (tyBits g.ty) (v 0))) ∧
  Gives (.bfe g) s e 8 g.pred [opn g.a g.ty, opn32 g.b] g.dst g.nowb (nregs g.ty) false
    (wordVal fun v => bfeBits g.ty (v 0) (v 1)) ∧
  Gives (.bfi g) s e 8 g.pred [opn g.a g.ty, opn g.b g.ty, opn32 g.c] g.dst g.nowb (nregs g.ty) false
    (wordVal fun v => bfiBits (tyBits g.ty) (v 0) (v 1) (v 2)) ∧
  Gives (.prmt g) s e 8 g.pred (srcs3 g) g.dst g.nowb 1 false
    (wordVal fun v => joinElems 8 (prmtBytes (v 0 + 2 ^ 32 * v 1) (v 2) 4 0 0)) ∧
  Gives (.lea g) s e 8 g.pred [opn g.a g.ty, leaSrc g] g.dst g.nowb 2 false
    (wordVal fun v => leaBits g.ty g.opx.toNat (v 0) (v 1))

/-- R251, R287 to R291: comparison, selection, moves, the special registers (the supervisor's only in supervisor mode) and predicate
logic.
The model's readings: logs 16, 6. -/
def Obligations.MovesAndSelection : Prop := ∀ (s : State) (e : Issuer) (g : Gen) (m : Movsr) (w : Movi) (q : Plop),
  Gives (.iset g) s e 8 g.pred (srcs3 g) g.dst g.nowb (nregs g.ty) false (fun rd l => elementwise g.ty fun k =>
    let v := fun i => intOf g.ty (elem (elemBits g.ty) (rd i l) k)
    (if isetTest g.opx.toNat (v 0) (v 1) then 2 ^ elemBits g.ty - 1 else 0, 0)) ∧
  Gives (.sel g) s e 8 g.pred (srcs3 g) g.dst g.nowb (nregs g.ty) false
    (fun rd l => (if getP e.p l (g.opx.toNat % 8) != g.opx.toNat.testBit 3 then rd 0 l else rd 1 l, 0)) ∧
  Gives (.mov g) s e 8 g.pred [opn g.a g.ty] g.dst g.nowb (nregs g.ty) false (wordVal fun v => v 0) ∧
  ((srSup m.sel = true → inSup e.f = true) →
    Gives (.movsr m) s e 8 m.pred [] m.dst m.nowb (nregs m.ty) false (fun _ l => (specialVal s e m.sel l, 0))) ∧
  (w.ext = .word → Gives (.movi w) s e 8 w.pred [] w.dst w.nowb 1 false (fun _ _ => (w.imm.toNat, 0))) ∧
  (w.ext = .sx → Gives (.movi w) s e 8 w.pred [] w.dst w.nowb 2 false (fun _ _ => ((w.imm.signExtend 64).toNat, 0))) ∧
  (w.ext = .zx → Gives (.movi w) s e 8 w.pred [] w.dst w.nowb 2 false (fun _ _ => (w.imm.toNat, 0))) ∧
  (w.ext = .hi → Gives (.movi w) s e 8 w.pred [] (dstHigh w.dst) w.nowb 1 false (fun _ _ => (w.imm.toNat, 0))) ∧
  Gives (.plop q) s e 8 q.pred [] (.p q.dst) false 1 false (fun _ l =>
    (bit (q.lut.getLsbD (bit (predTrue e.p q.pa l) + 2 * bit (predTrue e.p q.pb l) + 4 * bit (predTrue e.p q.pc l))), 0))

/-- R302 to R310: floating-point arithmetic, comparison, classification and conversion, each rounded and clamped as its fields
say, with its flags raised in the slices of its lanes.
The model's readings: log 14. -/
def Obligations.FloatingPoint : Prop := ∀ (s : State) (e : Issuer) (g : Gen),
  (∀ x ∈ [(Instr.fadd g, fun f m (v : Nat → Nat) => fAdd f m (v 0) (v 1)), (.fsub g, fun f m v => fSub f m (v 0) (v 1)),
          (.fmul g, fun f m v => fMul f m (v 0) (v 1)),
          (.ffma g, fun f m v => fFma f m (g.opx.getLsbD 0) (g.opx.getLsbD 1) (v 0) (v 1) (v 2)),
          (.fmin g, fun f _ v => fMinMax f false (v 0) (v 1)), (.fmax g, fun f _ v => fMinMax f true (v 0) (v 1)),
          (.fdiv g, fun f m v => fDiv f m (v 0) (v 1)), (.frcp g, fun f m v => fRcp f m (v 0)),
          (.fsqrt g, fun f m v => fSqrt f m (v 0)), (.frsq g, fun f m v => fRsq f m (v 0)),
          (.fex2 g, fun f m v => fEx2 f m (v 0)), (.flg2 g, fun f m v => fLg2 f m (v 0)),
          (.frnd g, fun f m v => fRnd f m (g.opx == 1) (v 0))],
    Gives x.1 s e 8 g.pred (srcs3 g) g.dst g.nowb (nregs g.ty) false (floatVal g.ty g.rnd g.sat x.2)) ∧
  Gives (.fscale g) s e 8 g.pred [opn g.a g.ty, { src := g.b, ty := .i32, wide := false }] g.dst g.nowb (nregs g.ty) false
    (fun rd l => elementwise g.ty fun k =>
      withSat (fmtOf g.ty) g.sat (fScale (fmtOf g.ty) g.rnd (elem (elemBits g.ty) (rd 0 l) k) (sval 32 (rd 1 l)))) ∧
  Gives (.fset g) s e 8 g.pred (srcs3 g) g.dst g.nowb 1 false (fun rd l => elementwise g.ty fun k =>
    let v := fun i => elem (elemBits g.ty) (rd i l) k
    (if (fSetCond (fmtOf g.ty) g.opx.toNat (v 0) (v 1)).1 then 2 ^ min 32 (elemBits g.ty) - 1 else 0,
      (fSetCond (fmtOf g.ty) g.opx.toNat (v 0) (v 1)).2)) ∧
  Gives (.fclass g) s e 8 g.pred [opn g.a g.ty, opn32 g.b] g.dst g.nowb 1 false (fun rd l => elementwise g.ty fun k =>
    (2 ^ fClassBit (fmtOf g.ty) (elem (elemBits g.ty) (rd 0 l) k) &&& (rd 1 l % 1024), 0)) ∧
  Gives (.cvt g) s e 8 g.pred [opn g.a (cvtTy g.opx.toNat), opn g.b (cvtTy g.opx.toNat)] g.dst g.nowb (nregs g.ty) false
    (fun rd l => elementwise g.ty (cvtElem g fun i => rd i l))

/-- R213 to R216, R311 to R314: the instructions that draw, and TF8UP; each draw advances the counters of the fragment's slices by one,
but for handler code of a deterministic launch (R504). -/
def Obligations.DrawsAndTF8 : Prop := ∀ (s : State) (e : Issuer) (g : Gen),
  Gives (.tf8pk g) s e 8 g.pred (tf8pkSrcs g) g.dst g.nowb 1 true (fun rd l => elementwise .tf8x4 fun k =>
    tf8Round (scaleVal (tf8pkVal g (fun i => rd i l) k) (-(sval 32 (rd (if g.opx = 0 then 4 else 2) l)))) (drawW (drawWords s e l) k)) ∧
  Gives (.requant g) s e 8 g.pred [opn g.a .tf8x4, { src := g.b, ty := .i32, wide := false }] g.dst g.nowb 1 true
    (fun rd l => elementwise .tf8x4 fun k => tf8Requant (elem 8 (rd 0 l) k) (sval 32 (rd 1 l)) (drawW (drawWords s e l) k)) ∧
  Gives (.rng g) s e 8 g.pred [] g.dst g.nowb (if g.opx = 4 then 4 else nregs g.ty) true
    (fun _ l => (rngVal g.ty g.opx.toNat (drawWords s e l), 0)) ∧
  Gives (.tf8up g) s e 8 g.pred [opn g.a .tf8x4, { src := g.b, ty := .i32, wide := false }] g.dst g.nowb
    (if (tf8upSel g).1.length = 4 then 4 else 1) false (fun rd l =>
      let rs := (tf8upSel g).1.map fun k => roundVal (fmtOf g.ty) g.rnd (scaleVal (tf8Value (elem 8 (rd 0 l) k)) (sval 32 (rd 1 l)))
      (joinElems (tf8upSel g).2 (rs.map (·.1)), rs.foldl (fun m r => m ||| r.2) 0))

/-- R218, R219, R292 to R296: lane exchange, votes, groups, ranks, reductions and scans: the result of each lane from the sources of
all lanes; the flags of a tree go into every slice with an active lane. -/
def Obligations.LaneExchange : Prop := ∀ (s : State) (e : Issuer) (g : Gen),
  let act := activeLanes e g.pred
  Yields (.shfl g) s e 8 g.pred [opn g.a g.ty, opn32 g.b, opn g.c g.ty] g.dst g.nowb (nregs g.ty)
    (fun rd l => if liveHere e (shflLane g.opx.toNat e.p.width l (rd 1 l)) then rd 0 (shflLane g.opx.toNat e.p.width l (rd 1 l))
      else rd 2 l) (fun _ _ x => x) ∧
  Yields (.bcast g) s e 8 g.pred [opn g.a g.ty, opn32 g.b] g.dst g.nowb (nregs g.ty)
    (fun rd l => if liveHere e (rd 1 l) then rd 0 (rd 1 l) else 0) (fun _ _ x => x) ∧
  Yields (.vote g) s e 8 g.pred [opn g.a .b32] g.dst g.nowb (nregs g.ty)
    (fun rd _ => voteVal g.opx.toNat e.p.width act (act.filter fun l => rd 0 l != 0)) (fun _ _ x => x) ∧
  Yields (.matchLanes g) s e 8 g.pred [opn g.a g.ty] g.dst g.nowb 1
    (fun rd l => matchWord (groupOf act (rd 0) l) l) (fun _ _ x => x) ∧
  Yields (.rank g) s e 8 g.pred [opn g.a g.ty] g.dst g.nowb 1
    (fun rd l => if g.opx = 0 then ((groupOf act (rd 0) l).filter (· < l)).length else (groupOf act (rd 0) l).length)
    (fun _ _ x => x) ∧
  Yields (.redux g) s e 8 g.pred [opn g.a g.ty] g.dst g.nowb (nregs g.ty)
    (fun rd _ => (treeOver e g g.opx.toNat act (rd 0) e.p.width).1)
    (fun rd k x => if activeSlice act k then x ||| BitVec.ofNat 8 (treeOver e g g.opx.toNat act (rd 0) e.p.width).2 else x) ∧
  Yields (.scan g) s e 8 g.pred [opn g.a g.ty] g.dst g.nowb (nregs g.ty)
    (fun rd l => (treeOver e g (g.opx.toNat % 8) act (rd 0) (if g.opx.getLsbD 3 then l else l + 1)).1)
    (fun rd k x => if activeSlice act k then x ||| BitVec.ofNat 8 (((outLanes g.dst act).map fun l =>
        (treeOver e g (g.opx.toNat % 8) act (rd 0) (if g.opx.getLsbD 3 then l else l + 1)).2).foldl (· ||| ·) 0) else x)

/-- R204, R315: FSTAT reads the OR of the copies of the fragment's slices and, with an active lane, clears or sets bits in each of
them; the other slices keep theirs. -/
def Obligations.FstatCopies : Prop := ∀ (s : State) (e : Issuer) (g : Gen),
  ∀ x ∈ [(Instr.fstatRead g, fun c _ => c), (.fstatClear g, fun c m => c &&& ~~~ m), (.fstatSet g, fun c m => c ||| m)],
  Yields x.1 s e 8 g.pred [opn32 g.a] g.dst g.nowb 1
    (fun _ _ => ((fragSlices e.p e.f).foldl (fun m k => m ||| (sliceOf e.p k).fpstat) 0).toNat)
    (fun _ k c => if activeLanes e g.pred ≠ [] ∧ k ∈ fragSlices e.p e.f then x.2 c (BitVec.ofNat 8 (uniVal e g.a)) else c)

/-- R226 to R229, R300: the C16 forms compute what their twins do, unpredicated, from vd and the operand that src6 names, into vd. -/
def Obligations.ShortFormsC16 : Prop := ∀ (s : State) (e : Issuer) (c : C16),
  Gives (.movC16 c) s e 2 alwaysPred [src6Opnd .b32 c.src] (.v (c.vd.setWidth 7)) false 1 false (wordVal fun v => v 0) ∧
  (∀ x ∈ [(Instr.iaddC16 c, fun (v : Nat → Int) => v 0 + v 1), (.isubC16 c, fun v => v 0 - v 1), (.imulC16 c, fun v => v 0 * v 1)],
    Gives x.1 s e 2 alwaysPred (c16Srcs c .i32) (.v (c.vd.setWidth 7)) false 1 false (intVal .i32 false x.2)) ∧
  (∀ x ∈ [(Instr.andC16 c, Ty.b32, fun (_ : Nat) a b => a &&& b), (.orC16 c, .b32, fun _ a b => a ||| b),
          (.xorC16 c, .b32, fun _ a b => a ^^^ b), (.shlC16 c, .b32, shlBits), (.shrC16 c, .n32, shrBits), (.sarC16 c, .i32, sarBits)],
    Gives x.1 s e 2 alwaysPred (c16Srcs c x.2.1) (.v (c.vd.setWidth 7)) false 1 false
      (wordVal fun v => x.2.2 32 (v 0) (v 1))) ∧
  (∀ x ∈ [(Instr.faddC16 c, fun f m (v : Nat → Nat) => fAdd f m (v 0) (v 1)), (.fsubC16 c, fun f m v => fSub f m (v 0) (v 1)),
          (.fmulC16 c, fun f m v => fMul f m (v 0) (v 1)), (.fmaxC16 c, fun f _ v => fMinMax f true (v 0) (v 1)),
          (.fminC16 c, fun f _ v => fMinMax f false (v 0) (v 1))],
    Gives x.1 s e 2 alwaysPred (c16Srcs c .f32) (.v (c.vd.setWidth 7)) false 1 false (floatVal .f32 .rne false x.2))

/-- R230 to R232: the A32 forms that compute do what their twins do, unpredicated, from A and B (and vd as the accumulator), into vd. -/
def Obligations.ShortFormsA32 : Prop := ∀ (s : State) (e : Issuer) (x : A32),
  Gives (.movA32 x) s e 4 alwaysPred [opn x.a .b32] (.v x.vd) x.nowb 1 false (wordVal fun v => v 0) ∧
  (∀ i ∈ [(Instr.iaddA32 x, fun (v : Nat → Int) => v 0 + v 1), (.isubA32 x, fun v => v 0 - v 1), (.imulA32 x, fun v => v 0 * v 1),
          (.iminA32 x, fun v => min (v 0) (v 1)), (.imaxA32 x, fun v => max (v 0) (v 1))],
    Gives i.1 s e 4 alwaysPred (a32Srcs x .i32) (.v x.vd) x.nowb 1 false (intVal .i32 false i.2)) ∧
  Gives (.imadA32 x) s e 4 alwaysPred (a32Acc x .i32) (.v x.vd) x.nowb 1 false (intVal .i32 false fun v => v 0 * v 1 + v 2) ∧
  (∀ i ∈ [(Instr.andA32 x, fun (a b : Nat) => a &&& b), (.orA32 x, fun a b => a ||| b), (.xorA32 x, fun a b => a ^^^ b),
          (.andnA32 x, fun a b => a &&& (2 ^ 32 - 1 - b))],
    Gives i.1 s e 4 alwaysPred (a32Srcs x .b32) (.v x.vd) x.nowb 1 false (wordVal fun v => i.2 (v 0) (v 1))) ∧
  (∀ i ∈ [(Instr.shlA32 x, Ty.b32, shlBits), (.shrA32 x, .n32, shrBits), (.sarA32 x, .i32, sarBits)],
    Gives i.1 s e 4 alwaysPred [opn x.a i.2.1, opn32 x.b] (.v x.vd) x.nowb 1 false (wordVal fun v => i.2.2 32 (v 0) (v 1))) ∧
  (∀ i ∈ [(Instr.faddF32A32 x, Ty.f32, fun f m (v : Nat → Nat) => fAdd f m (v 0) (v 1)),
          (.fsubF32A32 x, .f32, fun f m v => fSub f m (v 0) (v 1)), (.fmulF32A32 x, .f32, fun f m v => fMul f m (v 0) (v 1)),
          (.fminF32A32 x, .f32, fun f _ v => fMinMax f false (v 0) (v 1)), (.fmaxF32A32 x, .f32, fun f _ v => fMinMax f true (v 0) (v 1)),
          (.faddF16x2A32 x, .f16x2, fun f m v => fAdd f m (v 0) (v 1)), (.fmulF16x2A32 x, .f16x2, fun f m v => fMul f m (v 0) (v 1)),
          (.faddBf16x2A32 x, .bf16x2, fun f m v => fAdd f m (v 0) (v 1)), (.fmulBf16x2A32 x, .bf16x2, fun f m v => fMul f m (v 0) (v 1))],
    Gives i.1 s e 4 alwaysPred (a32Srcs x i.2.1) (.v x.vd) x.nowb 1 false (floatVal i.2.1 .rne false i.2.2)) ∧
  (∀ i ∈ [(Instr.ffmaF32A32 x, Ty.f32), (.ffmaF16x2A32 x, .f16x2), (.ffmaBf16x2A32 x, .bf16x2)],
    Gives i.1 s e 4 alwaysPred (a32Acc x i.2) (.v x.vd) x.nowb 1 false
      (floatVal i.2 .rne false fun f m v => fFma f m false false (v 0) (v 1) (v 2))) ∧
  Gives (.popcA32 x) s e 4 alwaysPred [opn x.a .b32] (.v x.vd) x.nowb 1 false (wordVal fun v => popcBits 32 (v 0)) ∧
  Gives (.clzA32 x) s e 4 alwaysPred [opn x.a .b32] (.v x.vd) x.nowb 1 false (wordVal fun v => clzBits 32 (v 0)) ∧
  Yields (.shflXorA32 x) s e 4 alwaysPred [opn x.a .b32, opn32 x.b, opn .unused .b32] (.v x.vd) x.nowb 1
    (fun rd l => if liveHere e (l ^^^ (rd 1 l % e.p.width)) then rd 0 (l ^^^ (rd 1 l % e.p.width)) else 0) (fun _ _ c => c)

/-! ## Control -/

/-- R225, R263, R266, R267: BRA, JMP, CALL, RET and their short forms complete when their target is valid: every slice of the fragment goes there
and nothing of its pack changes but what retirement changes, the address of the next instruction in s62:s63 after a CALL apart. A
target at an odd address raises MISALIGNED (04) and one outside the address space PERMISSION_GVA (02) in every active lane, with the
target as its address.
The model's readings: log 12. -/
def Obligations.BranchesAndCalls : Prop := ∀ (s : State) (e : Issuer) (j : J64) (off : BitVec 24) (g : Gen), IssuesAlone s e →
  let near := e.f.pc + 2 * j.off.signExtend 64
  let short := e.f.pc + 2 * off.signExtend 64
  let far : DWord := BitVec.ofNat 64 (opndVal e { src := j.tgt, ty := .b64, wide := true } 0)
  let link : DWord := BitVec.ofNat 64 ((getS (inSup e.f) e.p 62).toNat + 2 ^ 32 * (getS (inSup e.f) e.p 63).toNat)
  let linked := uniCause e [{ src := .s 62, ty := .b64, wide := true }] = none
  let turned := fun (i : Instr) (a : DWord) => exec i s = .next (takeTrap s e
    (trapLanes (if a.getLsbD 0 then 0x04 else 0x02) ((maskLanes e.p e.f).map fun l => (l, a.toNat))))
  (ValidTarget near → ∃ m t, exec (.bra j) s = .next t ∧ PackIs s m e e.p ∧ Retired m t e 8 (goTo e near)) ∧
  (ValidTarget short → ∃ m t, exec (.braA32 off) s = .next t ∧ PackIs s m e e.p ∧ Retired m t e 4 (goTo e short)) ∧
  (uniCause e [{ src := j.tgt, ty := .b64, wide := true }] = none → ValidTarget far →
    ∃ m t, exec (.jmp j) s = .next t ∧ PackIs s m e e.p ∧ Retired m t e 8 (goTo e far)) ∧
  (linked → ValidTarget link → ∃ m t, exec (.ret g) s = .next t ∧ PackIs s m e e.p ∧ Retired m t e 8 (goTo e link)) ∧
  (linked → ValidTarget link → ∃ m t, exec .retC16 s = .next t ∧ PackIs s m e e.p ∧ Retired m t e 2 (goTo e link)) ∧
  (ValidTarget near → ∃ m t p, exec (.call j) s = .next t ∧ PackIs s m e p ∧
    SetsUniform e.p p (inSup e.f) 62 2 (e.f.pc + 8).toNat ∧ Retired m t e 8 (goTo e near)) ∧
  (ValidTarget short → ∃ m t p, exec (.callA32 off) s = .next t ∧ PackIs s m e p ∧
    SetsUniform e.p p (inSup e.f) 62 2 (e.f.pc + 4).toNat ∧ Retired m t e 4 (goTo e short)) ∧
  (¬ ValidTarget near → turned (.bra j) near ∧ turned (.call j) near) ∧
  (¬ ValidTarget short → turned (.braA32 off) short ∧ turned (.callA32 off) short) ∧
  (uniCause e [{ src := j.tgt, ty := .b64, wide := true }] = none → ¬ ValidTarget far → turned (.jmp j) far) ∧
  (linked → ¬ ValidTarget link → turned (.ret g) link ∧ turned .retC16 link)

/-- R268 to R270: BRANY and BRALL branch for the whole fragment by a predicate over its active lanes; BRC tests its operands in the lowest active
lane of each slice; BRV divides a slice whose lanes disagree: the lanes that take it go to the target and the others wait on the mask
stack for the join address; with the predicate that is always true it acts as BRA. -/
def Obligations.ConditionalBranches : Prop := ∀ (s : State) (e : Issuer) (j : J64) (c : Brc) (v : Brv), IssuesAlone s e →
  let act := maskLanes e.p e.f
  let ks := fragSlices e.p e.f
  let some' := ks.filter fun k => (sliceOf e.p k).live != 0
  let low := fun (k : Nat) => lowestLane (sliceOf e.p k) k
  let target := e.f.pc + 2 * v.toff.signExtend 64
  let always := v.pred.idx = 7 ∧ v.pred.neg = false
  (∀ x ∈ [(Instr.brany j, act.any fun l => predTrue e.p j.pred l), (.brall j, act.all fun l => predTrue e.p j.pred l)],
    Completes x.1 s e 8 fun m r => m = s ∧ r = goSome (if x.2 then ks else []) (e.f.pc + 2 * j.off.signExtend 64)) ∧
  (operandCause e (some'.map low) [opn c.a (condTy c.cond), opn c.b (condTy c.cond)] .null 1 = none →
    Completes (.brc c) s e 8 fun m r => m = s ∧
      r = goSome (some'.filter fun k => condTest c.cond (opndVal e (opn c.a (condTy c.cond)) (low k))
          (opndVal e (opn c.b (condTy c.cond)) (low k))) (e.f.pc + 2 * c.off.signExtend 64)) ∧
  (¬ always → (∀ k ∈ ks, diverges e.p v.pred k = true → (sliceOf e.p k).stack.length < 4) →
    Completes (.brv v) s e 8 fun m r => r = goSome (ks.filter fun k => takenMask e.p v.pred k != 0) target ∧
      ∃ p, PackIs s m e p ∧ p = { e.p with slices := p.slices } ∧
        ∀ k, sliceOf p k = if k ∈ ks ∧ diverges e.p v.pred k = true then
            { sliceOf e.p k with
              mask := takenMask e.p v.pred k,
              stack := { join := e.f.pc + 2 * v.joff.signExtend 64, pendPc := e.f.pc + 8,
                         pend := (sliceOf e.p k).mask &&& ~~~ takenMask e.p v.pred k, saved := (sliceOf e.p k).mask } ::
                (sliceOf e.p k).stack }
          else sliceOf e.p k) ∧
  (¬ always → (∃ k ∈ ks, diverges e.p v.pred k = true ∧ 4 ≤ (sliceOf e.p k).stack.length) →
    exec (.brv v) s = .next (takeTrap s e (trapAll e [] 0x05))) ∧
  (always → ValidTarget target → Completes (.brv v) s e 8 fun m r => PackIs s m e e.p ∧ r = goTo e target) ∧
  (always → ¬ ValidTarget target → exec (.brv v) s = .next (takeTrap s e
    (trapLanes (if target.getLsbD 0 then 0x04 else 0x02) (act.map fun l => (l, target.toNat)))))

/-- R46, R98, R102, R264, R272 to R274: NOP has no effect; EXIT ends its active lanes, on the mask stacks too, and
fragments whose wait at REGANG it completes merge (R50); YIELD ends the run; HOLD begins a burst of
n + 1 instructions, where its slots fit the run, and else ends the run before it issues.
The model's readings: log 32. -/
def Obligations.EndsAndHolds : Prop := ∀ (s : State) (e : Issuer) (g : Gen), 
  (Issues s e → ∀ x ∈ [(Instr.nop g, 8), (.nopC16, 2)], Completes x.1 s e x.2 fun m r => m = s ∧ r = {}) ∧
  (IssuesAlone s e →
    (∀ x ∈ [(Instr.yield g, 8), (.yieldC16, 2)], Completes x.1 s e x.2 fun m r => m = s ∧ r = { endRun := true }) ∧
    (e.f.st = .ready → ∀ x ∈ [(Instr.exit g, 8, activeLanes e g.pred), (.exitC16, 2, maskLanes e.p e.f)],
      Completes x.1 s e x.2.1 fun m r => r = {} ∧ ∃ u p, PackIs s u e p ∧ p = { e.p with slices := p.slices } ∧
        m = regroup u e.ref.blk e.ref.pidx e.ref.pos 16 ∧ ((∀ i x, getFrag p i = some x → x.st ≠ .regang) → m = u) ∧
        ∀ k, ∃ gone : BitVec 4, (∀ i, i < 4 → gone.getLsbD i = decide (4 * k + i ∈ x.2.2)) ∧
          sliceOf p k = { sliceOf e.p k with
            mask := (sliceOf e.p k).mask &&& ~~~ gone,
            live := (sliceOf e.p k).live &&& ~~~ gone,
            stack := (sliceOf e.p k).stack.map fun x => { x with pend := x.pend &&& ~~~ gone, saved := x.saved &&& ~~~ gone } }) ∧
    (¬ (0 < e.f.slots ∧ 64 < e.f.slots + (g.opx.toNat + 2) * slotsOf e.f) →
      Completes (.hold g) s e 8 fun m r => m = s ∧ r = { hold := some (g.opx.toNat + 1) }) ∧
    (0 < e.f.slots ∧ 64 < e.f.slots + (g.opx.toNat + 2) * slotsOf e.f →
      ∃ t, exec (.hold g) s = .next t ∧ PackIs s t e (setFrag e.p e.ref.frag { e.f with slots := 64, since := s.tick })))

/-- R180, R277, R278: WAITCNT completes once at most n operations of its class count, any n of 255 or more being satisfied; WAITTAG once no copy with a
tag of its mask counts, and no L1 copy from before it serves the core (R182); until then the fragment waits; each takes its turn in
a deterministic launch (R113).
The model's readings: logs 13, 32. -/
def Obligations.CounterWaits : Prop := ∀ (s : State) (e : Issuer) (g : Gen), IssuesAlone s e → uniCause e [opn g.a .n32] = none →
  let n := opndVal e { src := g.a, ty := .b32, wide := false } 0
  ∀ x ∈ [(Instr.waitcnt g, True, (255 ≤ n || classCount e.p (engClassOf g.opx.toNat) ≤ n), Wait.cnt g.opx.toNat n),
         (.waittag g, n < 256, ((List.range 8).all fun t => !n.testBit t || tagCount e.p t == 0), .tags n)], x.2.1 →
    (needsTurn s e = true → Waits x.1 s e .waiting .turn) ∧
    (needsTurn s e = false → x.2.2.1 = true → Completes x.1 s e 8 fun m r => r = {} ∧ Stirred (acquired s e) m) ∧
    (needsTurn s e = false → x.2.2.1 = false → Waits x.1 s e .waiting x.2.2.2)

/-! ## Regrouping -/

/-- R50 to R52, R111, R214, R271: REGANG with a mask that names a slice beyond the pack or omits a live slice of its own raises BARRIER_MISUSE (0B); else the
fragment waits at REGANG, or, once every live slice that the waiting fragments of its address name stands there, they become one:
each slice goes on behind the REGANG with its registers, mask and stack and the largest draw counter; the clock counts one for
each fragment; the merged fragment has no latches.
A fragment that names no other live slice goes on at once.
The model's readings: log 33. -/
def Obligations.Regang : Prop := ∀ (s : State) (e : Issuer) (g : Gen), IssuesAlone s e → uniCause e [opn g.a .n32] = none →
  let n := opndVal e { src := g.a, ty := .b32, wide := false } 0
  let f : Fragment := { e.f with st := .regang, gang := BitVec.ofNat 16 n, since := s.tick }
  let p := setFrag e.p e.ref.frag f
  let bad := n / 2 ^ (e.p.width / 4) ≠ 0 ∨ ∃ k ∈ movedSlices e.p e.f, n.testBit k = false
  let joins := fun (i : Nat) => ∃ x, getFrag p i = some x ∧ x.st = .regang ∧ x.pc = e.f.pc
  let merged := fun (k : Nat) => k < e.p.slices.length ∧ ∃ i x, getFrag p i = some x ∧ joins i ∧ x.slices.getLsbD k = true
  (bad → exec (.regang g) s = .next (takeTrap s e (trapAll e [] 0x0B))) ∧
  (¬ bad → regangReady p f = false → ∃ t, exec (.regang g) s = .next t ∧ PackIs s t e p) ∧
  (¬ bad → regangReady p f = true → ∃ t q, ∃ js : List Nat, exec (.regang g) s = .next t ∧ PackIs s t e q ∧
    q = { e.p with slices := q.slices, frags := q.frags, lclock := q.lclock, ended := q.ended } ∧
    (∀ i, i ∈ js ↔ joins i) ∧ js.Nodup ∧
    q.lclock = (if e.l.det && inSup e.f then e.p.lclock else e.p.lclock + js.length) ∧
    (∀ k, merged k → (sliceOf q k).lanes = (sliceOf e.p k).lanes ∧ (sliceOf e.p k).draw ≤ (sliceOf q k).draw ∧
      (∃ j, merged j ∧ (sliceOf q k).draw = (sliceOf e.p j).draw) ∧
      ((sliceOf e.p k).live ≠ 0 → StandsAt q k (joinCheck 10 (e.f.pc + 8) (sliceOf e.p k)).1)) ∧
    (∀ k, ¬ merged k → sliceOf q k = sliceOf e.p k) ∧
    ∀ x, getFrag q e.ref.frag = some x → x.latches = []) ∧
  (¬ bad → (∀ i x, i ≠ e.ref.frag → getFrag e.p i = some x → x.st ≠ .regang) →
    (∀ k, (sliceOf e.p k).live ≠ 0 → n.testBit k = true → e.f.slices.getLsbD k = true) →
    ∃ t q, exec (.regang g) s = .next t ∧ PackIs s t e q ∧ q.lclock = clockAfter e ∧
      q = { e.p with slices := q.slices, frags := q.frags, lclock := q.lclock, ended := q.ended } ∧
      ∀ k ∈ movedSlices e.p e.f, (sliceOf q k).lanes = (sliceOf e.p k).lanes ∧
        StandsAt q k (joinCheck 10 (e.f.pc + 8) (sliceOf e.p k)).1)

/-- R56 to R60, R112, R214, R279: PSPLIT into n sub-packs of at least 8 lanes, by a fragment with every live slice: sub-pack j has its lanes, a copy of
the uniform registers, the parent's clock counted once and no engine operation, and goes on behind the PSPLIT; sub-pack 0 alone keeps
queue bindings and the streamer right. Otherwise BARRIER_MISUSE (0B). While an operation of the parent counts, it waits.
The model's readings: log 33. -/
def Obligations.PackSplit : Prop := ∀ (s : State) (e : Issuer) (g : Gen), IssuesAlone s e →
  let n := 2 ^ g.opx.toNat
  let w := e.p.width / n
  let bad := w < 8 ∨ holdsAll e.p e.f = false
  (bad → exec (.psplit g) s = .next (takeTrap s e (trapAll e [] 0x0B))) ∧
  (¬ bad → needsRound e = false → engIdle e.p = false → Waits (.psplit g) s e .ready .drained) ∧
  (¬ bad → needsRound e = false → engIdle e.p = true → e.p.width ≤ 64 →
    (∀ q ∈ e.b.packs, q.pidx = e.p.pidx → e.p.pos < q.pos → e.p.pos + e.p.width / 8 ≤ q.pos) →
    ∃ t, exec (.psplit g) s = .next t ∧
      t = { s with blocks := t.blocks, budget := t.budget, shadows := t.shadows, activity := t.activity, free := t.free } ∧
      (∀ a, gByte t a = gByte s a) ∧ (∀ m, m ≠ e.ref.blk → getBlock t m = getBlock s m) ∧
      ∀ j, j < n → ∃ q, packNow t { e.ref with pos := e.p.pos + j * w / 8 } = some q ∧
        q.width = w ∧ q.lclock = clockAfter e ∧ q.s = e.p.s ∧ q.sb = e.p.sb ∧ q.eng = [] ∧
        q.hist = { width := e.p.width, pos := e.p.pos, parts := n } :: e.p.hist ∧
        q.qbind = (if j = 0 then e.p.qbind else []) ∧ q.streamer = (j == 0 && e.p.streamer) ∧
        ∀ k, k < w / 4 → (sliceOf q k).lanes = (sliceOf e.p (j * w / 4 + k)).lanes ∧ (sliceOf q k).live = (sliceOf e.p (j * w / 4 + k)).live ∧
          ((sliceOf q k).live ≠ 0 → StandsAt q k (joinCheck 10 (e.f.pc + 8) (sliceOf e.p (j * w / 4 + k))).1))

/-- R61 to R63, R111, R214: PFUSE in a pack that never split, or by a fragment without every live slice, raises BARRIER_MISUSE (0B). Until all
siblings have arrived with idle counters or have exited, the fragment waits. Then the siblings become one pack of the width and place
before the split: their slices in order of position, the registers, bindings and streamer right of the lowest live one, the largest of
the siblings' clocks, each that arrived counted once but in handler code of a deterministic launch (R504), no operation but those of
siblings that exited; it goes on behind the PFUSE, or, where they arrived at different addresses, takes
BARRIER_MISUSE at the lowest one's PFUSE.
The model's readings: log 33. -/
def Obligations.PackFuse : Prop := ∀ (s : State) (e : Issuer) (g : Gen), IssuesAlone s e →
  let p := setFrag e.p e.ref.frag { e.f with st := .pfuse, since := s.tick }
  let b := setPack e.b p
  let sibs := siblings b p
  let clock := fun (x : Pack) =>
    if liveSlices x = [] ∨ (e.l.det = true ∧ ∃ y ∈ liveFrags x, inSup y = true) then x.lclock else x.lclock + 1
  (e.p.hist = [] ∨ holdsAll e.p e.f = false → exec (.pfuse g) s = .next (takeTrap s e (trapAll e [] 0x0B))) ∧
  ∀ h hs, e.p.hist = h :: hs → holdsAll e.p e.f = true → needsRound e = false →
    (allFused b p = false → ∃ t, exec (.pfuse g) s = .next t ∧ PackIs s t e p) ∧
    ∀ low x0 pc, allFused b p = true → low ∈ sibs → liveSlices low ≠ [] → (∀ x ∈ sibs, liveSlices x ≠ [] → x = low ∨ low.pos < x.pos) →
      (liveFrags low).head? = some x0 → x0.pc = pc →
      ((∀ x ∈ sibs, liveSlices x ≠ [] → ∀ y ∈ liveFrags x, y.pc = pc) → ∃ t q, ∃ ordered : List Pack, exec (.pfuse g) s = .next t ∧
        t = { s with blocks := t.blocks, budget := t.budget, shadows := t.shadows, activity := t.activity, free := t.free } ∧
        (∀ a, gByte t a = gByte s a) ∧ (∀ m, m ≠ e.ref.blk → getBlock t m = getBlock s m) ∧
        packNow t { e.ref with pos := h.pos } = some q ∧ q.width = h.width ∧ q.hist = low.hist.tail ∧ q.s = low.s ∧ q.sb = low.sb ∧
        q.qbind = low.qbind ∧ q.streamer = low.streamer ∧ (∀ o ∈ q.eng, ∃ x ∈ sibs, liveSlices x = [] ∧ o ∈ x.eng) ∧
        (∀ x ∈ sibs, clock x ≤ q.lclock) ∧ (∃ x ∈ sibs, q.lclock = clock x) ∧
        ordered.Perm sibs ∧ ordered.Pairwise (fun x y => x.pos ≤ y.pos) ∧
        ∀ k, k < 16 →
          let sl := (ordered.flatMap (·.slices)).getD k { lanes := [], mask := 0, live := 0 }
          (sliceOf q k).lanes = sl.lanes ∧ (sliceOf q k).live = sl.live ∧ (sl.live ≠ 0 → StandsAt q k (joinCheck 10 (pc + 8) sl).1)) ∧
      ((∃ x ∈ sibs, liveSlices x ≠ [] ∧ ∃ y ∈ liveFrags x, y.pc ≠ pc) → ∃ u e', exec (.pfuse g) s = .next (takeTrap u e' (trapAll e' [] 0x0B)) ∧
        issuerAt u { e.ref with pos := h.pos, frag := 0 } = some e' ∧ e'.p.width = h.width ∧ e'.f.pc = pc)

/-! ## Memory -/

/-- R141, R318 to R324, R508: LD and LDC of readable memory: each active lane gets the bytes at its address, little-endian, extended as ext says:
those of the core's L1 copy where the L1 serves the access, else those of the home; with a uniform base one access serves all. Beside
the destination and the latches only what accesses leave in the caches and TLBs and what charging records changes.
The model's readings: logs 6, 7, 35, 36. -/
def Obligations.Loads : Prop := ∀ (s : State) (e : Issuer) (m : M64), IssuesAlone s e →
  let act := activeLanes e m.pred
  let n := widthBytes m.width
  let lanes := accessLanes m act
  operandCause e act [baseOpnd m false] (dstOf m.data) (widthRegs m.width) = none →
  ∀ pa : Nat → Nat, Reaches s e .read n lanes (m64Addr e m false) pa → strictRace s e (lanes.map pa) = false →
    (∀ l ∈ lanes, isReg (pa l) = true ∨ gPoisoned s (pa l) n = false) →
  ∀ i ∈ [Instr.ld m, .ldc m], Completes i s e 8 fun t r => ∃ u, Charged s u ∧
    ResultOnly u t e (dstOf m.data) m.nowb (widthRegs m.width) act
      (fun l =>
        let k := servedBy m act l
        extend m (ofLeBytes (if l1Served s e m (k, pa k) then l1Bytes s e.b.core (pa k) n else laneBytes s e (pa k) n))) r

/-- R318, R321, R325 to R328, R508: ST, RED and ATOM outside deterministic user code, their accesses aligned, translated with write permission, apart from
each other, on plain reachable memory that no stash owns (for RED and ATOM unpoisoned): each active lane's bytes take its
value, little-endian, or the new value of its operation; every other byte of memory reads as before; ATOM gives each lane the old
value. Nothing else changes but what accesses leave in the caches and TLBs and what charging records.
The model's readings: logs 6, 7, 35, 36. -/
def Obligations.StoresAndAtomics : Prop := ∀ (s : State) (e : Issuer) (m : M64), IssuesAlone s e → buffered e = false →
  let act := activeLanes e m.pred
  let n := widthBytes m.width
  let k := widthRegs m.width
  let k2 := if atomOp m = 9 then 2 * k else k
  let rval := fun l => regsVal e m.data k l (if n = 8 then .b64 else .b32)
  operandCause e act [baseOpnd m false] .null 1 = none →
  widthPlain m.width = true → ∀ pa : Nat → Nat, Reaches s e .write n act (m64Addr e m false) pa → Apart n act pa → s.hi.mbhost.getLsbD 32 = false →
    (∀ l ∈ act, isReg (pa l) = false ∧ Unowned s (pa l) n) →
  let old := fun l => ofLeBytes (gRead s (pa l) n)
  (regsCause e act m.data k = none → Completes (.st m) s e 8 fun t r => r = {} ∧
    BytesStored s t n act pa (regsVal e m.data k) ∧ Charged { s with mem := t.mem } t) ∧
  ((∀ l ∈ act, gPoisoned s (pa l) n = false) → regsCause e act m.data k = none →
    Completes (.red m) s e 8 fun t r => r = {} ∧
      BytesStored s t n act pa (fun l => atomNew (atomOp m) n (old l) (rval l) 0) ∧ Charged { s with mem := t.mem } t) ∧
  ((∀ l ∈ act, gPoisoned s (pa l) n = false) → regsCause e act m.data k2 = none →
    Completes (.atom m) s e 8 fun t r => ∃ u,
      BytesStored s u n act pa (fun l => atomNew (atomOp m) n (old l) (atomArgs e m l).1 (atomArgs e m l).2) ∧
      Charged { s with mem := u.mem } u ∧ ResultOnly u t e (dstOf m.data) false k act old r)

/-- R17, R104, R161, R163, R325, R328, R508, R516, R556: without regard to what their accesses meet, ST and RED outside deterministic user code perform
lane by lane, in ascending order unless accesses meet, where any order of them is open; a store of 16 bytes is two of 8 bytes; a store
to a device register goes by its own rule, one to memory that cannot be reached is dropped with an event; a RED leaves a poisoned
location as it is, with an event.
The model's readings: logs 6, 7, 35, 36. -/
def Obligations.StoresLaneByLane : Prop := ∀ (s : State) (e : Issuer) (m : M64), IssuesAlone s e → buffered e = false →
  let act := activeLanes e m.pred
  let n := widthBytes m.width
  let k := widthRegs m.width
  let rval := fun l => regsVal e m.data k l (if n = 8 then .b64 else .b32)
  operandCause e act [baseOpnd m false] .null 1 = none →
  ∀ pa : Nat → Nat, Reaches s e .write n act (m64Addr e m false) pa → regsCause e act m.data k = none →
  let as := act.map fun l => (l, pa l)
  let order := fun (v : State) => laneOrder v e n as
  let parts := if n = 16 then [0, 8] else [0]
  (∀ v, (order v).1.Perm as ∧ (Apart n act pa → (order v).1 = as) ∧ Charged v (order v).2) ∧
  (∃ v, Charged s v ∧ exec (.st m) s = .next (retire
    (parts.foldl (fun v o => (order v).1.foldl (storeLane e n (regsVal e m.data k) o) (order v).2) v) e 8 {})) ∧
  ∃ v, Charged s v ∧ exec (.red m) s = .next (retire ((order v).1.foldl (redLane e n (atomOp m) rval) (order v).2) e 8 {})

/-- R130, R138, R318 to R324: LDS reads each active lane's bytes from the block's stash, absent lines of bound regions being filled first.
The model's readings: log 34. -/
def Obligations.StashLoads : Prop := ∀ (s : State) (e : Issuer) (m : M64) (x : A32), IssuesAlone s e →
  (let act := activeLanes e m.pred
   let n := widthBytes m.width
   let lanes := accessLanes m act
   let addr := m64Addr e m true
   let ranges := lanes.map fun l => (addr l, n)
   let f := fillLines s e ranges
   operandCause e act [baseOpnd m true] (dstOf m.data) (widthRegs m.width) = none →
   (∀ l ∈ lanes, laneStashCheck s e false n n (addr l) = none) → stashStall s e n (lanes.map addr) = none → fillHold s e ranges = none →
   ∀ b, getBlock f e.ref.blk = some b → (∀ l ∈ lanes, lanePoisoned e b (addr l) n = false) →
   Completes (.lds m) s e 8 fun t r => LinesMoved s f ∧ ResultOnly f t e (dstOf m.data) m.nowb (widthRegs m.width) act
     (fun l => extend m (ofLeBytes (laneStash e b (addr (servedBy m act l)) n))) r) ∧
  (let act := maskLanes e.p e.f
   let addr := fun l => (opndVal e (opn32 x.a) l + opndVal e (opn32 x.b) l) % 2 ^ 32
   let ranges := act.map fun l => (addr l, 4)
   let f := fillLines s e ranges
   operandCause e act [opn32 x.a, opn32 x.b] (.v x.vd) 1 = none →
   (∀ l ∈ act, laneStashCheck s e false 4 4 (addr l) = none) → stashStall s e 4 (act.map addr) = none → fillHold s e ranges = none →
   ∀ b, getBlock f e.ref.blk = some b → (∀ l ∈ act, lanePoisoned e b (addr l) 4 = false) →
   Completes (.ldsA32 x) s e 4 fun t r => LinesMoved s f ∧ ResultOnly f t e (.v x.vd) x.nowb 1 act
     (fun l => ofLeBytes (laneStash e b (addr l) 4)) r)

/-- R131, R318, R321, R325: STS outside deterministic user code, its lanes apart: each active lane's bytes of the stash take its value; every other byte
of the stash is as before; where no line is held at the bytes stored to, every byte of memory reads as before.
The model's readings: log 34. -/
def Obligations.StashStores : Prop := ∀ (s : State) (e : Issuer) (m : M64), IssuesAlone s e → buffered e = false →
  let act := activeLanes e m.pred
  let n := widthBytes m.width
  let addr := m64Addr e m true
  let ranges := act.map fun l => (addr l, n)
  let f := fillLines s e ranges
  operandCause e act [baseOpnd m true] .null 1 = none → regsCause e act m.data (widthRegs m.width) = none →
  (∀ l ∈ act, laneStashCheck s e true n n (addr l) = none) → stashStall s e n (act.map addr) = none → fillHold s e ranges = none →
  widthPlain m.width = true → Apart n act addr →
  Completes (.sts m) s e 8 fun t r => r = {} ∧ LinesMoved s f ∧ ∃ b b', StashOnly f t e.ref.blk b b' ∧
    (∀ l ∈ act, ∀ i, i < n → stashByte b' (addr l + i) = byteOf (regsVal e m.data (widthRegs m.width) l) i) ∧
    (∀ o, (∀ l ∈ act, ¬ (addr l ≤ o ∧ o < addr l + n)) → stashByte b' o = stashByte b o) ∧
    ((∀ l ∈ act, ∀ i, i < n → lineAt b ((addr l + i) / 128) = none) → ∀ a, gByte t a = gByte f a)

/-- R112, R321, R325: in deterministic user code ST and RED add their lanes' stores to the pack's buffer, in ascending lane order, and change no
memory; where the buffer would pass 32 KiB the quantum ends first and the instruction is tried again.
The model's readings: log 13. -/
def Obligations.BufferedStores : Prop := ∀ (s : State) (e : Issuer) (m : M64), IssuesAlone s e → buffered e = true →
  let act := activeLanes e m.pred
  let n := widthBytes m.width
  let val := regsVal e m.data (widthRegs m.width)
  let rval := fun l => regsVal e m.data (widthRegs m.width) l (if n = 8 then .b64 else .b32)
  regsCause e act m.data (widthRegs m.width) = none →
  ∀ pa : Nat → Nat, operandCause e act [baseOpnd m false] .null 1 = none →
  (∀ l ∈ act, m64Addr e m false l % n = 0 ∧ xlate s e.l.ctx (inSup e.f) .write (m64Addr e m false l) = .ok (pa l)) →
  ∀ x ∈ [(Instr.st m, act.map fun l => BufOp.mem (pa l) (leBytes n (val l))),
         (.red m, act.map fun l => BufOp.red (pa l) n (BitVec.ofNat 5 (atomOp m)) (rval l))],
    (bufBytes e.p.buf + bufBytes x.2 ≤ 32768 ∨ e.p.buf = [] → Completes x.1 s e 8 fun t r => r = {} ∧ PackIs s t e { e.p with buf := e.p.buf ++ x.2 }) ∧
    (32768 < bufBytes e.p.buf + bufBytes x.2 → e.p.buf ≠ [] → ∃ t, exec x.1 s = .next t ∧
      PackIs s t e (setFrag { e.p with ended := true } e.ref.frag { e.f with st := .waiting, wait := .round, since := s.tick, pub := true }))

/-! ## Hints, stash regions and engines that copy -/

/-- R141, R145, R169, R331 to R333: PREF changes no value, only what the caches hold; FENCE orders accesses that are in order already, an
acquiring one of device scope or wider drops the core's L1 copies; DISCARD, its operands readable and its sectors writable, leaves in
each whole sector of its range the value there or the one last written back, which is open (in a deterministic launch the value
there), and changes no other byte.
The model's readings: logs 7, 36. -/
def Obligations.CacheHints : Prop := ∀ (s : State) (e : Issuer) (g : Gen) (m : M64), IssuesAlone s e →
  let act := activeLanes e m.pred
  let lo := (m64Addr e m false 0 + 31) / 32 * 32
  let hi := (m64Addr e m false 0 + regsVal e m.data 1 0) / 32 * 32
  (fenceAcquires g = false → Completes (.fence g) s e 8 fun t r => t = s ∧ r = {}) ∧
  (fenceAcquires g = true → Completes (.fence g) s e 8 fun t r => Charged s t ∧ (coreOf t e.b.core).l1 = [] ∧ r = {}) ∧
  (operandCause e act [baseOpnd m false] .null 1 = none → Completes (.pref m) s e 8 fun t r => Charged s t ∧ r = {}) ∧
  (operandCause e act [baseOpnd m false] .null 1 = none → regsCause e act m.data 1 = none → hi ≤ lo →
    Completes (.discard m) s e 8 fun t r => t = s ∧ r = {}) ∧
  (operandCause e act [baseOpnd m false] .null 1 = none → regsCause e act m.data 1 = none → lo < hi →
    ∀ ps, xlateRange s e.l.ctx (inSup e.f) .write lo (hi - lo) = .ok ps →
    Completes (.discard m) s e 8 fun t r => r = {} ∧ LinesMoved s t ∧ (e.l.det = true → t = s) ∧
      ∀ a, (∀ i, i < (hi - lo) / 32 → a / 32 ≠ pagesPa ps (lo + 32 * i) / 32) → rawByte t a = rawByte s a)

/-- R104, R334 to R337: SMAP releases the region of its number and binds it anew, SUNMAP releases it, SFLUSH writes its dirty bytes back; a
number that names no region is none. While the budget holds the launch at the home of a line to be written back, they wait.
The model's readings: log 36. -/
def Obligations.StashRegions : Prop := ∀ (s : State) (e : Issuer) (g : Gen), IssuesAlone s e → needsRound e = false →
  let i := g.opx.toNat
  let va := opndVal e (opn g.a .b64) 0
  let off := uniVal e g.b
  let n := uniVal e g.c
  let u := unmapRegion s e.ref.blk i
  cleanHold s e i = none →
  (Completes (.sunmap g) s e 8 fun m r => r = {} ∧ m = u) ∧
  (uniCause e [opn g.a .b64, opn32 g.b, opn32 g.c] = none →
    off % 128 = 0 → va % 128 = 0 → 1 ≤ n → n ≤ 8192 → off + 128 * n ≤ stashBytes e.l → va < 2 ^ 57 →
    (∀ r ∈ e.b.regions, r.idx ≠ i → (off + 128 * n ≤ r.off ∨ r.off + 128 * r.lines ≤ off) ∧
      (va + 128 * n ≤ r.va ∨ r.va + 128 * r.lines ≤ va)) →
    Completes (.smap g) s e 8 fun m r => r = {} ∧ ∃ b, getBlock u e.ref.blk = some b ∧
      m = setBlock u { b with regions := b.regions ++ [{ idx := i, off, va, lines := n, mode := smapMode g.hint }] }) ∧
  (∀ x, e.b.regions.find? (fun r => r.idx == i) = some x →
    Completes (.sflush g) s e 8 fun m r => r = {} ∧ m = cleanLines s e.b fun l => inRegion x l.line) ∧
  (e.b.regions.find? (fun r => r.idx == i) = none → u = s ∧ Completes (.sflush g) s e 8 fun m r => r = {} ∧ m = s)

/-- R134, R336, R337: a flush of lines of a block, whose lines have distinct places and distinct homes in reach, leaves every dirty byte in
memory and those lines clean, every other byte and every other line as it was; the release of a region forgets it and its lines, and
its range of the stash reads zero.
The model's readings: log 7. -/
def Obligations.RegionRelease : Prop := ∀ (s : State) (bid : Nat) (b : Block), getBlock s bid = some b → s.hi.mbhost.getLsbD 32 = false →
  s.lost = [] → (b.lines.map (·.pa)).Nodup → (b.lines.map (·.line)).Nodup → (∀ l ∈ b.lines, l.pa % 128 = 0 ∧ cxlHome l.pa = false) →
  (∀ sel : StashLine → Bool, ∃ t b', cleanLines s b sel = t ∧ LinesMoved s t ∧ t.lost = [] ∧
    (∀ n, n ≠ bid → getBlock t n = getBlock s n) ∧ getBlock t bid = some b' ∧ b' = { b with lines := b'.lines } ∧
    (∀ k, lineAt b' k = (lineAt b k).map fun l => if sel l then { l with dirty := 0 } else l) ∧
    (∀ l ∈ b.lines, sel l = true → ∀ j, j < 128 → l.dirty.getLsbD j = true → rawByte t (l.pa + j) = stashByte b (128 * l.line + j)) ∧
    ∀ a, (∀ l ∈ b.lines, sel l = true → ∀ j, j < 128 → l.dirty.getLsbD j = true → a ≠ l.pa + j) → rawByte t a = rawByte s a) ∧
  (∀ i x, b.regions.find? (fun r => r.idx == i) = some x → ∃ b', getBlock (unmapRegion s bid i) bid = some b' ∧
    b'.regions = b.regions.filter (fun r => r.idx != i) ∧ (∀ l ∈ b'.lines, inRegion x l.line = false) ∧
    ∀ o, stashByte b' o = if x.off ≤ o ∧ o < x.off + 128 * x.lines then 0 else stashByte b o)

/-- R137, R180, R329, R330: CPL, its lanes' checks passed and its counters, tag and entry having room, hands the copy engine one operation with each
active lane's stash offset, valid bytes and translated address; its tag's range grows by the bytes from its lowest to its highest
destination; no byte moves yet. Without an active lane it has no effect.
The model's readings: log 36. -/
def Obligations.LaneCopies : Prop := ∀ (s : State) (e : Issuer) (m : M64), IssuesAlone s e → needsRound e = false →
  let act := activeLanes e m.pred
  let n := widthBytes m.width
  let tag := m.sel.toNat
  let xs := cplLanes e m act
  operandCause e act [baseOpnd m false] .null 1 = none → regsCause e act m.data (if m.ext = 1 then 2 else 1) = none →
  (act = [] → ∃ t, exec (.cpl m) s = .next t ∧ Retired s t e 8 {}) ∧
  (act ≠ [] → (∀ x ∈ xs, cplCheck s e m x = none) →
    hasRoom e.p 4 (some tag) = true → (hasTag e.b (packId e.p) tag = true ∨ scoreUsed s e.b.core < Config.scoreEntries) →
    ∀ pa : Nat → Nat, (∀ x ∈ xs, if x.2.2 = 0 then pa x.1 = 0 else xlate s e.l.ctx (inSup e.f) .read (m64Addr e m false x.1) = .ok (pa x.1)) →
    memHold s e (((xs.filter fun x => x.2.2 != 0).map fun x => pa x.1) ++
      fillPas s e.l.ctx (inSup e.f) e.b (xs.map fun x => (x.2.1, n))) = none →
    strictRace s e ((xs.filter fun x => x.2.2 != 0).map fun x => pa x.1) = false →
    ∃ v t u b lo hi, exec (.cpl m) s = .next t ∧ Retired v t e 8 {} ∧ LinesMoved s u ∧ getBlock u e.ref.blk = some b ∧
      (∀ x ∈ xs, lo ≤ x.2.1 ∧ x.2.1 + n - 1 ≤ hi) ∧ (∃ x ∈ xs, lo = x.2.1) ∧ (∃ x ∈ xs, hi = x.2.1 + n - 1) ∧
      v = { setBlock u (scoreTag (setPack b (engAdd e.p s.nextId .copy (some tag))) (packId e.p) tag lo hi) with
              nextId := s.nextId + 1
              engine := s.engine ++ [{ id := s.nextId, blk := e.ref.blk, pidx := e.ref.pidx, pos := e.ref.pos,
                                       work := .copy n (xs.map fun x => { dst := x.2.1, valid := x.2.2, pa := pa x.1 }) }] })

/-- R338 to R340, R137, R180: BXFER, its checks passed and its counter and an entry having room, hands the streamer one transfer of its bytes through
the translations of the moment, with the barrier that it names; no byte moves yet.
The model's readings: log 36. -/
def Obligations.StreamerTransfers : Prop := ∀ (s : State) (e : Issuer) (g : Gen), IssuesAlone s e → needsRound e = false →
  let va := (bxferArgs e g).1
  let off := (bxferArgs e g).2.1
  let len := (bxferArgs e g).2.2.1
  let bar := (bxferArgs e g).2.2.2
  let red := XferKind.red (BitVec.ofNat 5 (uniVal e g.c)) (tyBits g.ty / 8)
  let fills := fillPas s e.l.ctx (inSup e.f) e.b [(off, len)]
  let begins := fun (kind : XferKind) (pages : List (Nat × Nat)) (v : State) => ∃ u b, LinesMoved s u ∧ getBlock u e.ref.blk = some b ∧
    v = { setBlock u (scoreAdd (setPack b (engAdd e.p s.nextId .streamer none)) { lo := off, hi := off + len - 1, op := some s.nextId }) with
            nextId := s.nextId + 1
            engine := s.engine ++ [{ id := s.nextId, blk := e.ref.blk, pidx := e.ref.pidx, pos := e.ref.pos,
                                     work := .xfer kind pages va off len 0 (bar.map fun i => (i, g.opx.getLsbD 2)) }] }
  regsCause e [] g.a 4 = none → uniCause e [opn32 g.b, opn32 g.c] = none → hasRoom e.p 0 none = true →
  scoreUsed s e.b.core < Config.scoreEntries →
  (bxferCause s e .read va off len bar true = none → ∀ pages, xlateRange s e.l.ctx (inSup e.f) .read va len = .ok pages →
    memHold s e (pages.map (·.2) ++ fills) = none → strictRace s e (pages.map (·.2)) = false →
    ∃ v t, exec (.bxferLoad g) s = .next t ∧ Retired v t e 8 {} ∧ begins .load pages v) ∧
  (bxferCause s e .write va off len bar false = none → ∀ pages, xlateRange s e.l.ctx (inSup e.f) .write va len = .ok pages →
    memHold s e (pages.map (·.2) ++ fills) = none →
    ∃ v t, exec (.bxferStore g) s = .next t ∧ Retired v t e 8 {} ∧ begins .store pages v) ∧
  (bxferCause s e .write va off len bar false = none → redCodeOk g.ty (uniVal e g.c) = true →
    (e.l.det = true → e.l.strict = true → uniVal e g.c ≤ 7) → uniCause e [opn32 g.c] = none →
    ∀ pages, xlateRange s e.l.ctx (inSup e.f) .write va len = .ok pages → memHold s e (pages.map (·.2) ++ fills) = none →
    ∃ v t, exec (.bxferRed g) s = .next t ∧ Retired v t e 8 {} ∧ begins red pages v)

/-- R182, R190 to R192, R247, R278, R341: WAITC completes once its comparison of the word in memory with its operand holds, and else waits on that word;
for a word of global memory a line that a stash owns is recalled first, a monitor of the home is taken where one is free, and what
the core's L1 holds is dropped on completion; each takes its turn in a deterministic launch (R113).
The model's readings: logs 13, 32. -/
def Obligations.WordWaits : Prop := ∀ (s : State) (e : Issuer) (m : M64), IssuesAlone s e →
  let act := activeLanes e m.pred
  let n := widthBytes m.width
  let a := m64Addr e m (m.ext == 1) 0
  let x := match m.data with
    | .s _ => regsVal e m.data (widthRegs m.width) 0
    | d => opndVal e (opn d (if n = 8 then .b64 else .b32)) 0
  operandCause e act [baseOpnd m (m.ext == 1)] .null 1 = none → regsCause e act m.data (widthRegs m.width) = none → needsTurn s e = false →
  (m.ext ≠ 1 → ∀ pa, a % n = 0 → xlate s e.l.ctx (inSup e.f) .read a = .ok pa → (isReg pa = true ∨ gPoisoned s pa n = false) →
    let u := armOn pa s
    LinesMoved s u ∧
    (waitcTest m.sel.toNat n (seeNat s pa n) x = true → Completes (.waitc m) s e 8 fun t r => r = {} ∧ Stirred (acquired u e) t) ∧
    (waitcTest m.sel.toNat n (seeNat s pa n) x = false → ∃ t, exec (.waitc m) s = .next t ∧ PackIs u t e (setFrag e.p e.ref.frag
      { e.f with st := .waiting, wait := .word pa n m.sel.toNat x (monitorFree s pa), since := s.tick, gang := 0 }))) ∧
  (m.ext = 1 → laneStashCheck s e false n n a = none → stashStall s e n [a] = none → fillHold s e [(a, n)] = none →
    ∀ u b, u = fillLines s e [(a, n)] → getBlock u e.ref.blk = some b → stashPoisoned b a n = false → needsTurn u e = false →
    LinesMoved s u ∧
    (waitcTest m.sel.toNat n (stashReadNat b a n) x = true → Completes (.waitc m) s e 8 fun t r => r = {} ∧ Stirred u t) ∧
    (waitcTest m.sel.toNat n (stashReadNat b a n) x = false → ∃ t, exec (.waitc m) s = .next t ∧ PackIs u t e (setFrag e.p e.ref.frag
      { e.f with st := .waiting, wait := .stashWord a n m.sel.toNat x, since := s.tick, gang := 0 })))

/-! ## Barriers, queues, ordered append -/

/-- R342 to R344, R346: the barrier instructions on barrier i, in the turn of their pack: BARINIT sets a free one up with its phase number kept; BARARR
adds the pack's arrival, JOIN and DROP change the expected count, BAREXP the posted bytes; where all have arrived and all posted bytes
are delivered, the phase completes. BARWAIT completes once the phase that it waits for is over, and waits until then, keeping that
phase; BARTRY leaves in every active lane whether it is.
The model's readings: logs 12, 13. -/
def Obligations.Barriers : Prop := ∀ (s : State) (e : Issuer) (g : Gen), IssuesAlone s e → uniCause e [opn32 g.a, opn32 g.b] = none →
  needsTurn s e = false →
  let i := uniVal e g.a
  let n := uniVal e g.b
  let leaves := fun (y : Barrier) (m : State) (r : Retire) => r = {} ∧ Stirred (setBlock s (setBar e.b i y)) m
  i ≤ 15 →
  (1 ≤ n → n ≤ 4095 → barFree s e.b i = true →
    Completes (.barinit g) s e 8 (leaves { expected := n, phase := (getBar e.b i).elim 0 (·.phase) })) ∧
  ∀ x, getBar e.b i = some x →
    let phase := e.f.phase.getD (waitPhase x e.p)
    (holdsAll e.p e.f = true → (packId e.p, x.phase) ∉ x.arrivals → Completes (.bararr g) s e 8 (leaves (barSettle
      { x with arrived := x.arrived + 1, arrivals := (packId e.p, x.phase) :: x.arrivals.filter fun a => a.1 != packId e.p }))) ∧
    (holdsAll e.p e.f = true → x.arrived ≤ x.expected + n → 1 ≤ x.expected + n → x.expected + n ≤ 4095 →
      Completes (.bararrJoin g) s e 8 (leaves (barSettle { x with expected := x.expected + n }))) ∧
    (holdsAll e.p e.f = true → x.arrived + n ≤ x.expected → n + 1 ≤ x.expected → x.expected ≤ n + 4095 →
      Completes (.bararrDrop g) s e 8 (leaves (barSettle { x with expected := x.expected - n }))) ∧
    (x.phase ≠ phase → Completes (.barwait g) s e 8 fun m r => r = {} ∧ Stirred s m) ∧
    (x.phase = phase → ∃ t, exec (.barwait g) s = .next t ∧ PackIs s t e (setFrag e.p e.ref.frag
      { e.f with st := .waiting, wait := .barrier i phase, since := s.tick, gang := 0, phase := some phase })) ∧
    ((if g.opx = 1#4 then x.postedNext else x.posted) + n < 2 ^ 40 → Completes (.barexp g) s e 8 (leaves (barSettle
      (if g.opx = 1#4 then { x with postedNext := x.postedNext + n } else { x with posted := x.posted + n })))) ∧
    (dstCause e (maskLanes e.p e.f) g.dst 1 = none → Completes (.bartry g) s e 8 fun m r => ∃ u, Stirred u m ∧
      ResultOnly s u e g.dst g.nowb 1 (maskLanes e.p e.f) (fun _ => if x.phase = waitPhase x e.p then 0 else 1) r)

/-- R346: a barrier number above 15, a barrier that is not initialised, an arrival of a fragment without every live slice or a second one in a phase,
and a count that leaves its range raise BARRIER_MISUSE (0B) in every active lane, without effect on the barrier.
The model's readings: log 12. -/
def Obligations.BarrierMisuse : Prop := ∀ (s : State) (e : Issuer) (g : Gen), IssuesAlone s e → uniCause e [opn32 g.a, opn32 g.b] = none →
  dstCause e (maskLanes e.p e.f) g.dst 1 = none → needsTurn s e = false →
  let i := uniVal e g.a
  let n := uniVal e g.b
  let misuse := fun (x : Instr) => exec x s = .next (takeTrap s e (trapAll e [] 0x0B))
  (15 < i ∨ getBar e.b i = none → ∀ x ∈ [Instr.bararr g, .bararrJoin g, .bararrDrop g, .barwait g, .barexp g, .bartry g], misuse x) ∧
  (15 < i ∨ n < 1 ∨ 4095 < n ∨ barFree s e.b i = false → misuse (.barinit g)) ∧
  ∀ x, getBar e.b i = some x →
    (holdsAll e.p e.f = false → misuse (.bararr g) ∧ misuse (.bararrJoin g) ∧ misuse (.bararrDrop g)) ∧
    ((packId e.p, x.phase) ∈ x.arrivals → misuse (.bararr g)) ∧
    (4095 < x.expected + n → misuse (.bararrJoin g)) ∧
    (x.expected < n + 1 ∨ x.expected < x.arrived + n → misuse (.bararrDrop g)) ∧
    (2 ^ 40 ≤ (if g.opx = 1#4 then x.postedNext else x.posted) + n → misuse (.barexp g))

/-- R69, R71, R347, R348: QCFG with a capacity binds a queue register of the pack to the queue object at its stash offset, made with that capacity and the
pack's width where none was, in place of the binding that the register had; with capacity 0 it ends that binding. The other bindings
of the pack stay.
The model's readings: logs 56, 57. -/
def Obligations.QueueBinding : Prop := ∀ (s : State) (e : Issuer) (g : Gen), IssuesAlone s e → uniCause e [opn32 g.a, opn32 g.b] = none →
  needsTurn s e = false →
  let q := g.opx.toNat % 8
  let push := decide (g.opx.toNat < 8)
  let off := uniVal e g.a
  let cap := uniVal e g.b
  qcfgCause e q off cap push = none →
  Completes (.qcfg g) s e 8 fun m r => r = {} ∧ ∃ b p, Stirred (setBlock s b) m ∧
    b = { e.b with packs := b.packs, queues := b.queues } ∧ getPack b e.p.pidx e.p.pos = some p ∧ p = { e.p with qbind := p.qbind } ∧
    (∀ i j, ¬ (i = e.p.pidx ∧ j = e.p.pos) → getPack b i j = getPack e.b i j) ∧
    (∀ k, k ≠ q → qbindOf p k = qbindOf e.p k) ∧
    qbindOf p q = (if cap = 0 then none else some { q, off, push }) ∧
    (cap ≠ 0 → ∃ o, spFind? b.queues off = some o ∧ o.cap = cap ∧ o.width = e.p.width ∧ (if push then o.pushed else o.popped) = true)

/-- R116, R117, R349: APPEND in its block's turn claims its items on a stream: every active lane gets the base before them and the stream's base passes
them; DECLINE claims none. Before its turn the fragment waits; a second claim of the block, or one while another fragment of the block
waits for its own, is QUEUE_MISUSE (0C), as is a stream above 15.
The model's readings: log 57. -/
def Obligations.OrderedAppend : Prop := ∀ (s : State) (e : Issuer) (g : Gen), IssuesAlone s e → uniCause e [opn32 g.a, opn32 g.b] = none →
  dstCause e (maskLanes e.p e.f) g.dst 2 = none →
  let k := uniVal e g.a
  let t := spGet {} e.l.streams k
  ∀ x ∈ [(Instr.append g, uniVal e g.b), (.decline g, 0)],
    (15 < k → exec x.1 s = .next (takeTrap s e (trapAll e [] 0x0C))) ∧
    (k ≤ 15 → needsTurn s e = false →
      ((e.b.linear ∈ t.claimed ∨ appendPending e k = true) → exec x.1 s = .next (takeTrap s e (trapAll e [] 0x0C))) ∧
      (e.b.linear ∉ t.claimed → appendPending e k = false →
        (appendTurn e.l k e.b.linear = false → Waits x.1 s e .waiting (.append k)) ∧
        (appendTurn e.l k e.b.linear = true → Completes x.1 s e 8 fun m r => ∃ l u, Stirred u m ∧
          l = { e.l with streams := l.streams } ∧
          (∀ j, spGet {} l.streams j = if j = k then { base := t.base + BitVec.ofNat 64 x.2, claimed := insNat t.claimed e.b.linear }
            else spGet {} e.l.streams j) ∧
          ResultOnly (setLaunch s l) u e g.dst g.nowb 2 (maskLanes e.p e.f) (fun _ => t.base.toNat) r)))

/-! ## The matrix unit -/

/-- R53, R357: a matrix instruction whose octets are not all there waits at its address, in pairing; where its partners have performed every octet it
completes without an effect of its own, those with a result taking it from the registers that a partner wrote. -/
def Obligations.OctetPairing : Prop := ∀ (s : State) (e : Issuer) (x : X64) (g : Gen), IssuesAlone s e →
  uniCause e [coordOpnd x.reg] = none → uniCause e [opn32 x.reg] = none → regsCause e [] x.reg 16 = none →
  regsCause e ((todoOctets e.p e.f).flatMap octLanes) x.reg 16 = none →
  dstCause e [] (dstOf x.reg) 16 = none → operandCause e (maskLanes e.p e.f) [] g.dst 1 = none →
  ∀ i ∈ [(Instr.tdset x, ({} : Retire)), (.mldb x, {}), (.mbrel x, {}), (.mldmeta x, {}), (.mzero x, {}), (.mma x, {}), (.mmaRing x, {}),
         (.mmasp x, {}), (.mst x, {}), (.mstAdd x, {}), (.mwra x, {}), (.ringinit x, {}), (.ringput x, {}), (.ringtake x, {}),
         (.ringdone x, {}), (.tdget x, tdgetRes e x e.p), (.mrda x, mrdaRes e x e.p), (.mstat g, mstatRes e g e.p)],
    (pairReady e.p e.f = false → Waits i.1 s e .pairing .none) ∧
    (pairReady e.p e.f = true → todoOctets e.p e.f = [] → Completes i.1 s e 8 fun m r => m = s ∧ r = i.2)

/-- R353, R363: TDGET reads, as a load, the sixteen words of the tensor's entry into its uniform registers; TDSET stores them there as one
synchronising store, an entry that claims validity without obeying R353 being FORMAT (08).
The model's readings: logs 13, 58. -/
def Obligations.TensorEntries : Prop := ∀ (s : State) (e : Issuer) (x : X64), IssuesAlone s e → pairReady e.p e.f = true →
  todoOctets e.p e.f ≠ [] →
  (∀ w a n, entryOf s e x.tid.toNat = .ok (w, a) → x.reg = .s n → dstCause e [] (.s n) 16 = none →
    memHold s e (issuerTr s e a).toList = none → strictRace s e (issuerTr s e a).toList = false → Performs (.tdget x) s e fun v r =>
    ∃ u p, Charged s u ∧ PackIs u v e p ∧ SetsUniform e.p p (inSup e.f) n.toNat 16 w ∧
      r = { res := latchOf (.s n) (maskLanes e.p e.f) ((maskLanes e.p e.f).map fun l => (l, getSRange (inSup e.f) p n.toNat 4)) }) ∧
  (regsCause e [] x.reg 16 = none → needsTurn s e = false →
    let w := regsVal e x.reg 16 0
    ∀ pa, xlate s e.l.ctx (inSup e.f) .write (tdAddr e x.tid.toNat) = .ok pa →
      (w.testBit 3 = true → entryOk w = false →
        exec (.tdset x) s = .next (takeTrap s e (trapLanes 0x08 ((liveLanes e.p e.f).map fun l => (l, tdAddr e x.tid.toNat))))) ∧
      ((w.testBit 3 = true → entryOk w = true) → memHold s e [pa] = none → Performs (.tdset x) s e fun v r => r = {} ∧
        ∃ u, Charged s u ∧ Stirred (syncStore u e pa (leBytes 64 w)) v))

/-- R351, R364 to R366: MLDB fills a marver slot with the Kp by 128 block of B at its tile coordinates; MBREL empties one; MLDMETA fills a meta slot with
the nibbles of the groups inside the tensor. Lines of the stash may fill first; poison is kept and reported (R511). No later octet
joins a pass under way on a slot that takes new contents (R371).
The model's readings: logs 13, 58. -/
def Obligations.OperandSlots : Prop := ∀ (s : State) (e : Issuer) (x : X64), IssuesAlone s e → pairReady e.p e.f = true →
  todoOctets e.p e.f ≠ [] →
  let performs := fun (i : Instr) (v : State) => ∃ m t, exec i s = .next t ∧ m = markPartners v e (todoOctets e.p e.f) ∧ Retired m t e 8 {}
  (x.slot.toNat < pkMarver (launchWord e.l) → ∃ v b, performs (.mbrel x) v ∧ v = setBlock s b ∧
    b = { e.b with marver := b.marver, fuse := b.fuse } ∧ spFind? b.fuse x.slot.toNat = none ∧
    ∀ k, spFind? b.marver k = if k = x.slot.toNat then none else spFind? e.b.marver k) ∧
  (uniCause e [coordOpnd x.reg] = none → ∀ w a, entryOf s e x.tid.toNat = .ok (w, a) → entryOk w = true → tFmt w ≤ 3 →
    let c := coordOf' e x.reg
    let kp := passDepth (tFmt w)
    (tSparse w = false → x.slot.toNat < pkMarver (launchWord e.l) → rectFaults s e .read .read w (c.1 * kp) kp (c.2 * 128) 128 = [] →
      ReadsOpen s e (viewCells w (c.1 * kp) kp (c.2 * 128) 128) → ∃ v u b b', performs (.mldb x) v ∧
        LinesMoved s u ∧ getBlock u e.ref.blk = some b ∧
        b' = { b with marver := spSet b.marver x.slot.toNat (loadSlot u b (issuerRd u e) (issuerTr u e) w c.1 c.2), fuse := b'.fuse } ∧
        spFind? b'.fuse x.slot.toNat = none ∧
        v = match rectPoison u b (issuerTr u e) w (c.1 * kp) kp (c.2 * 128) 128 with
          | some a => postMemoryError (setBlock u b') e.l.region e.b.linear a
          | none => setBlock u b') ∧
    (tSparse w = true → x.mslot.toNat < pkMeta (launchWord e.l) → ∀ pa : Nat × Nat → Nat,
      let cells := metaCells w c.1 c.2
      let addr := fun (q : Nat × Nat) => metaAddr w (c.1 + q.1) (c.2 * (sparseDepth (tFmt w) / 4) + q.2)
      (∀ q ∈ cells, xlate s e.l.ctx (inSup e.f) .read (addr q) = .ok (pa q)) → needsRound e = false →
      memHold s e (cells.map pa) = none → strictRace s e (cells.map pa) = false → (∀ q ∈ cells, gPoisoned s (pa q) 1 = false) →
      ∃ v u m, performs (.mldmeta x) v ∧ Charged s u ∧
        v = setBlock u { e.b with mslots := spSet e.b.mslots x.mslot.toNat m } ∧
        m.fmt = tFmt w ∧ m.row0 = c.1 ∧ m.kt = c.2 ∧ m.poison = false ∧
        ∀ k n, (k, n) ∈ m.nibbles ↔ ∃ q ∈ cells, k = 128 * q.1 + q.2 ∧ n = (issuerRd u e (pa q)).toNat / 16 ^ (q.2 % 2) % 16 ∧ n ≠ 0))

/-- R359, R367, R369 to R371, R380, R510: MZERO sets the tiles of its octets to zero once no pass is in flight on them, and waits until then; MMA,
MMA.ring and MMASP add one pass for each octet behind those in flight, its sums formed from the operands as they stand at issue,
without a change of any tile yet. MMA.ring waits for the slots of its ring that are not valid; a slot in error is reloaded first.
The model's readings: logs 58, 59. -/
def Obligations.MatrixPasses : Prop := ∀ (s : State) (e : Issuer) (x : X64), IssuesAlone s e → pairReady e.p e.f = true →
  todoOctets e.p e.f ≠ [] →
  let octs := todoOctets e.p e.f
  let n := x.cnt.toNat + 1
  let tiles := octs.flatMap fun o => (List.range n).map fun i => x.tile.toNat + o * n + i
  ((∀ o ∈ octs, x.tile.toNat + o * n + n ≤ pkAcc (launchWord e.l)) →
    ((∀ p ∈ e.b.passes, p.tile ∉ tiles) → Performs (.mzero x) s e fun v r => r = {} ∧
      ∃ b, v = setBlock s b ∧ b = { e.b with acc := b.acc } ∧
        ∀ t, spGet {} b.acc t = if t ∈ tiles then {} else spGet {} e.b.acc t) ∧
    ((∃ p ∈ e.b.passes, p.tile ∈ tiles) → Waits (.mzero x) s e .pairing (.tiles tiles))) ∧
  ∀ y ∈ [(Instr.mma x, false, false), (.mmaRing x, true, false), (.mmasp x, x.flags.getLsbD 1, true)],
    uniCause e [if y.2.1 then opn32 x.reg else coordOpnd x.reg] = none →
    ∀ w a, entryOf s e x.tid.toNat = .ok (w, a) → entryOk w = true → tFmt w ≤ 3 → tSparse w = y.2.2 → (y.2.1 = true → tStash w = true) →
    let c := if y.2.1 then (0, 0) else coordOf' e x.reg
    let ring := ringOpnd e x y.2.1
    (∀ f k m, ring = some (f, k, m) → f < m) → (∀ o ∈ octs, mmaFaults s e x ring y.2.2 w a c.1 c.2 o = []) →
    (badSlots e x y.2.2 octs ≠ [] → exec y.1 s = .next ((badSlots e x y.2.2 octs).foldl (fun u k => reloadSlot u e.ref.blk k) s)) ∧
    (badSlots e x y.2.2 octs = [] → reloadFault e x y.2.2 octs = none →
      (y.2.1 = true → needsRound e = false ∧ needsTurn s e = false) →
      (∀ k, ringMissing e x ring = some k → Waits y.1 s e .waiting (.ring x.tid.toNat k 0)) ∧
      (ringMissing e x ring = none → heldAt s e.b.core 1 e.l.region = false →
        ReadsOpen s e (octs.flatMap fun o => mmaCells ring w (mmaRow x c.1 o) c.2) →
        Performs y.1 s e fun v r => r = {} ∧ ∃ u b d t, LinesMoved s u ∧ getBlock u e.ref.blk = some b ∧
          d = { b with passes := d.passes, fuse := d.fuse } ∧
          (d.passes.map fun p => { p with fused := false }) =
            (b.passes ++ octs.mapIdx fun i o => mmaPass u e x ring y.2.2 w c.1 c.2 (s.nextId + i) o).map (fun p => { p with fused := false }) ∧
          Charged { setBlock u d with nextId := s.nextId + octs.length } t ∧ Stirred t v))

/-- R180, R359, R372 to R374: MST and MST.add, no pass being in flight on their tiles and no element of them in error, begin a drain for each octet, with
the elements that its tile holds; each counts as a drain of the pack.
The model's readings: log 59. -/
def Obligations.Drains : Prop := ∀ (s : State) (e : Issuer) (x : X64), IssuesAlone s e → pairReady e.p e.f = true → todoOctets e.p e.f ≠ [] →
  let octs := todoOctets e.p e.f
  let tiles := octs.map fun o => x.tile.toNat + o
  let c := coordOf' e x.reg
  uniCause e [coordOpnd x.reg] = none → ∀ w a, entryOf s e x.tid.toNat = .ok (w, a) → entryOk w = true → tSparse w = false →
  (∀ o ∈ octs, x.tile.toNat + o < pkAcc (launchWord e.l) ∧
    rectFaults s e .write (if reducesCols w then .write else .read) w (c.1 + 8 * o) 8 (c.2 * 128) 128 = []) →
  ∀ y ∈ [(Instr.mst x, false), (.mstAdd x, true)], (y.2 = true → 2 ≤ tFmt w) →
    let jobs := octs.map fun o => drainElems s e x y.2 w c.1 c.2 o
    ((∃ p ∈ e.b.passes, p.tile ∈ tiles) → Waits y.1 s e .pairing (.tiles tiles)) ∧
    ((∀ p ∈ e.b.passes, p.tile ∉ tiles) → (∀ o ∈ octs, (spGet {} e.b.acc (x.tile.toNat + o)).errs = []) → needsRound e = false →
      classCount e.p .drain + octs.length ≤ 255 → (tStash w = true → scoreUsed s e.b.core + octs.length ≤ Config.scoreEntries) →
      memHold s e ((jobs.flatten.filter fun d => !d.stash).map (·.addr) ++
        fillPas s e.l.ctx (inSup e.f) e.b ((jobs.flatten.filter fun d => d.stash).map fun d => (d.addr, d.size))) = none →
      Performs y.1 s e fun v r => r = {} ∧ v.nextId = s.nextId + octs.length ∧
        v.engine = s.engine ++ jobs.mapIdx (fun i j => { id := s.nextId + i, blk := e.ref.blk, pidx := e.ref.pidx, pos := e.ref.pos, work := .drain y.2 j }) ∧
        ∃ e', issuerAt v e.ref = some e' ∧ e'.b.acc = e.b.acc ∧ e'.b.passes = e.b.passes ∧
          e'.p.eng = e.p.eng ++ jobs.mapIdx (fun i _ => { id := s.nextId + i, cls := .drain, tag := none }) ∧ e'.p.s = e.p.s ∧ e'.p.lclock = e.p.lclock)

/-- R359, R375, R508, R538: MRDA gives lane i of an octet the sixteen words of its part of a tile's row, a poisoned row being POISON (0E); MWRA
writes them, and clears their poison and their errors; both once no pass is in flight on their tiles.
The model's readings: log 58. -/
def Obligations.AccumulatorRows : Prop := ∀ (s : State) (e : Issuer) (x : X64), IssuesAlone s e → pairReady e.p e.f = true →
  todoOctets e.p e.f ≠ [] →
  let octs := todoOctets e.p e.f
  let row := x.cnt.toNat
  let tile := fun o => spGet {} e.b.acc (x.tile.toNat + o)
  (∀ o ∈ octs, x.tile.toNat + o < pkAcc (launchWord e.l)) → (∀ p ∈ e.b.passes, ∀ o ∈ octs, p.tile ≠ x.tile.toNat + o) →
  (∀ n, x.reg = .v n → dstCause e [] (.v n) 16 = none → e.p.width ≤ 64 → e.p.slices.length * 4 = e.p.width → (∀ o ∈ octs, 8 * o + 8 ≤ e.p.width) →
    (∀ sl ∈ e.p.slices, sl.lanes.length = 4) → (∀ o ∈ octs, ∀ k ∈ (tile o).errs, k / 128 ≠ row) →
    ((∃ o ∈ octs, rowPoisoned (tile o) row = true) → ∃ t, t.cause = 0x0E ∧ exec (.mrda x) s = .next (takeTrap s e t)) ∧
    ((∀ o ∈ octs, rowPoisoned (tile o) row = false) → Performs (.mrda x) s e fun v _ => ∃ p, v = setBlock s (setPack e.b p) ∧
      p = { e.p with slices := p.slices, badV := p.badV } ∧
      ∀ l k, getV (inSup e.f) p l k = if l / 8 ∈ octs ∧ n.toNat ≤ k ∧ k < n.toNat + 16 then spGet 0 (tile (l / 8)).data (rowKey row (l % 8) (k - n.toNat))
        else getV (inSup e.f) e.p l k)) ∧
  (regsCause e (octs.flatMap octLanes) x.reg 16 = none → octs.Nodup → Performs (.mwra x) s e fun v r => r = {} ∧
    ∃ b, v = setBlock s b ∧ b = { e.b with acc := b.acc } ∧
      (∀ o ∈ octs, ∀ i k, i < 8 → k < 16 → spGet 0 (spGet {} b.acc (x.tile.toNat + o)).data (rowKey row i k) = wordOf (regsVal e x.reg 16 (8 * o + i)) k) ∧
      (∀ o ∈ octs, ∀ j, j / 128 ≠ row → spGet 0 (spGet {} b.acc (x.tile.toNat + o)).data j = spGet 0 (tile o).data j) ∧
      ∀ t, (∀ o ∈ octs, t ≠ x.tile.toNat + o) → spGet {} b.acc t = spGet {} e.b.acc t)

/-- R53, R376 to R378: RINGINIT makes a ring of free slots over a tensor in the stash; RINGPUT makes a slot valid, RINGDONE a valid one consumed,
RINGTAKE waits until its slot is valid, or is not, as its mode says; a wrong slot or state is QUEUE_MISUSE (0C). MSTAT gives each active
lane of its octets a count of the matrix unit, zero in a deterministic launch.
The model's readings: log 58. -/
def Obligations.TileRings : Prop := ∀ (s : State) (e : Issuer) (x : X64) (g : Gen), IssuesAlone s e → pairReady e.p e.f = true →
  todoOctets e.p e.f ≠ [] →
  (operandCause e (maskLanes e.p e.f) [] g.dst 1 = none → Performs (.mstat g) s e fun v r => ∃ p, PackIs s v e p ∧
    RegsAfter e.p p (inSup e.f) g.dst g.nowb 1 (octActive e g.pred (todoOctets e.p e.f)) (fun _ => if e.l.det then 0 else
      if g.opx = 0 then e.b.passCount else if g.opx = 1 then e.b.replays % 2 ^ 32 else
        (e.b.passes.filter fun q => q.pidx == e.p.pidx && q.pos == e.p.pos).length) ∧ r = mstatRes e g p) ∧
  (uniCause e [opn32 x.reg] = none → needsTurn s e = false →
    let n := uniVal e x.reg
    let i := n % 65536
    let tid := x.tid.toNat
    let misuse := fun (y : Instr) => exec y s = .next (takeTrap s e (trapAll e [] 0x0C))
    let becomes := fun (st : RingSlot) (v : State) (r : Retire) => r = {} ∧
      Stirred (setBlock s { e.b with rings := e.b.rings.map fun y => if y.tid = tid then { y with slots := y.slots.set i st } else y }) v
    (∀ w a, entryOf s e tid = .ok (w, a) → entryOk w = true → tFmt w ≤ 3 → tStash w = true → 2 ≤ n → n ≤ 64 →
      (e.b.rings.filter fun y => y.tid != tid).length < 8 → ringWaiter e.b tid = false →
      tBase w + ((n - 1) * (tRows w * tRowLen w * tSize w) + storedExtent w) ≤ stashBytes e.l →
      Performs (.ringinit x) s e fun v r => r = {} ∧
        Stirred (setBlock s { e.b with rings := (e.b.rings.filter fun y => y.tid != tid) ++ [{ tid, slots := List.replicate n .free }] }) v) ∧
    ((∀ y, e.b.rings.find? (fun y => y.tid == tid) = some y → y.slots.length ≤ i) → misuse (.ringput x) ∧ misuse (.ringtake x) ∧ misuse (.ringdone x)) ∧
    ∀ y st, e.b.rings.find? (fun y => y.tid == tid) = some y → y.slots[i]? = some st →
      (st = .valid → misuse (.ringput x) ∧ Performs (.ringdone x) s e (becomes .consumed)) ∧
      (st ≠ .valid → misuse (.ringdone x) ∧ Performs (.ringput x) s e (becomes .valid)) ∧
      ((st = .valid ↔ n / 65536 % 2 = 0) → Performs (.ringtake x) s e fun v r => r = {} ∧ Stirred s v) ∧
      (¬ (st = .valid ↔ n / 65536 % 2 = 0) → Waits (.ringtake x) s e .waiting (.ring tid i (n / 65536 % 2))))

/-! ## The grid -/

/-- R387, R397, R406, R410, R419: GPAT, while a plane lives, loads its pattern register from its four registers; with an empty active set it loads
none. GFENCE marks the pack's operations so far as those that must be acknowledged before later writes are delivered, and changes
nothing else. With no live plane both are GRID (10), GFENCE also without a described grid.
The model's readings: logs 40, 41. -/
def Obligations.GridPatternsAndFences : Prop := ∀ (s : State) (e : Issuer) (g : G64),
  (Issues s e → regsCause e (activeLanes e g.pred) g.data 4 = none →
    (livePlanes s ≠ [] → Completes (.gpat g) s e 8 fun m r => r = {} ∧ ∃ p, PackIs s m e p ∧ p = { e.p with gp := p.gp } ∧
      ∀ k, spGet 0 p.gp k = if k = g.gp.toNat ∧ activeLanes e g.pred ≠ [] then BitVec.ofNat 128 (regsVal e g.data 4 0)
        else spGet 0 e.p.gp k) ∧
    (livePlanes s = [] → exec (.gpat g) s = .next (takeTrap s e (trapAll e (activeLanes e g.pred) 0x10)))) ∧
  (IssuesAlone s e →
    (gridUp s = true → Completes (.gfence g) s e 8 fun m r => r = {} ∧
      PackIs { s with nextId := s.nextId + 1 } m e { e.p with fences := [s.nextId] }) ∧
    (gridUp s = false → exec (.gfence g) s = .next (takeTrap s e (trapAll e [] 0x10))))

/-- R133, R191, R192, R420: GWAIT with active lanes waits until the count of its completion word has reached M times E of its pattern, and then leaves
the first eight bytes of the word in every active lane, dropping what the core's L1 holds where it acquires; a stash that owns the word's line
gives it up, and the wait takes a monitor of the home where one is free. With none it completes at once.
The model's readings: logs 40, 44. -/
def Obligations.GridWaits : Prop := ∀ (s : State) (e : Issuer) (g : G64), IssuesAlone s e →
  let act := activeLanes e g.pred
  uniCause e [cwOpnd g, { src := g.addr, ty := .b32, wide := false }] = none → dstCause e act (dstOf g.data) 2 = none →
  patOk s e g (fun _ => true) = true →
  (act = [] → Completes (.gwait g) s e 8 fun m r => m = s ∧ r = { res := latchOf (dstOf g.data) [] [] }) ∧
  ∀ va pa, act ≠ [] → cwAddr e g = some va → va % 16 = 0 → xlate s e.l.ctx (inSup e.f) .read va = .ok pa → needsTurn s e = false →
    let a := armOn pa s
    LinesMoved s a ∧
    (gReadNat s pa 4 < waitTarget s e g → ∃ t, exec (.gwait g) s = .next t ∧ PackIs a t e (setFrag e.p e.ref.frag
      { e.f with st := .waiting, wait := .cword pa (waitTarget s e g) (monitorFree s pa), since := s.tick, gang := 0 })) ∧
    (waitTarget s e g ≤ gReadNat s pa 4 → Completes (.gwait g) s e 8 fun m r =>
      ∃ u v, ResultOnly a u e (dstOf g.data) false 2 act (fun _ => gReadNat s pa 8) r ∧
        v = (if g.order = .acquire then acquired u e else u) ∧ Stirred v m)

/-- R404, R408, R413, R417, R418: GLD, GATOM and GSCAN send one message for each active lane, with its address and its values, and count as one grid
operation of their pack; they go on without the answers. With an empty active set they send nothing.
The model's readings: logs 40, 43, 44. -/
def Obligations.GridLaneRequests : Prop := ∀ (s : State) (e : Issuer) (g : G64), Issues s e → burstOk e.f .last = true →
  let act := activeLanes e g.pred
  let n := gridBytes g
  let sends := fun (i : Instr) (kind : Nat) (write : Bool) (addr : Nat → Nat) (msg : Nat → GMsg) =>
    (act = [] → Completes i s e 8 fun m r => m = s ∧ r = {}) ∧
    (act ≠ [] → gridStall s e = none → Completes i s e 8 fun m r => r = {} ∧
      Posts s m e { newOp s e g kind 0 write with lanes := act.map fun l => (l, addr l), width := n,
                                                  dst := match g.data with | .v k => k.toNat | _ => 0 }
        (act.mapIdx fun k l => { kind, msg := { msg l with addr := addr l, lane := l, part := k, nparts := act.length } }))
  (operandCause e act [addrOpnd g] (dstOf g.data) (gridRegs g) = none → patOk s e g oneTarget = true →
    (∀ l ∈ act, windowCause n n (gridAddr e g l) = none) →
    sends (.gld g) 1 false (gridAddr e g) fun _ => baseMsg s e g false) ∧
  (operandCause e act [addrOpnd g] .null 1 = none →
    regsCause e act g.data (if g.gop = 9#4 then 2 * gridRegs g else gridRegs g) = none → (e.l.det && e.l.strict) = false →
    patOk s e g oneTarget = true → (∀ l ∈ act, windowCause n n (gridAddr e g l) = none) →
    sends (.gatom g) 4 true (gridAddr e g) fun l =>
      { baseMsg s e g true with element := (gatomArgs e g l).1, compare := (gatomArgs e g l).2 }) ∧
  (uniCause e [addrOpnd g, cwOpnd g] = none → regsCause e act g.data (gridRegs g) = none → patOk s e g (contributes s) = true →
    (cwAddr e g).getD 0 % 16 = 0 → windowCause n n (gridAddr e g 0) = none →
    sends (.gscan g) 6 true (fun _ => gridAddr e g 0) fun l =>
      { baseMsg s e g true with mflag := g.gflags.getLsbD 0, count := multOf g, key := laneKey e l, cw := (cwAddr e g).getD 0,
                                element := dataVal e g (gridRegs g) l })

/-- R137, R408, R411, R412, R414: GST, GCOPY and GRED send one message for each line: each byte of a line stands at its place, marked, where a lane
or the copy gives it, and no other byte is marked; a copy to the issuing block's own stash enters its range in the scoreboard. Their operation awaits an acknowledgement for each line from each of its
destinations, and from the root for GRED, which sends its lines for an empty active set too.
The model's readings: logs 40, 41, 42, 43, 44. -/
def Obligations.GridLines : Prop := ∀ (s : State) (e : Issuer) (g : G64), Issues s e → burstOk e.f .last = true → gridStall s e = none →
  let act := activeLanes e g.pred
  let n := gridBytes g
  let cw := cwPa s e g .write
  let laneByte := fun (addr : Nat → Nat) (a : Nat) => (act.find? fun l => addr l ≤ a && a < addr l + n).map
    fun l => byteOf (dataVal e g (gridRegs g) l) (a - addr l)
  let queued := fun (m v u : State) (b : Block) => Charged s u ∧ Stirred v m ∧
    b = (if act = [] then e.b else moveQueues e e.b (dataSrcs g) .null []) ∧ (dataSrcs g = [] → m = v)
  (operandCause e act [addrOpnd g] .null 1 = none → uniCause e [cwOpnd g] = none → dataCause e act g (gridRegs g) = none →
    patOk s e g (someTarget s) = true → cwCause s e g .write = none → (∀ l ∈ act, windowCause n n (gridAddr e g l) = none) →
    queueWait s e act (dataSrcs g) .null = none → act ≠ [] → Apart n act (gridAddr e g) →
    Completes (.gst g) s e 8 fun m r => r = {} ∧ ∃ u b v gs, queued m v u b ∧
      Posts (setBlock u b) v e { newOp s e g 0 (patExpected s (patOf e g).toNat (selfCoord s)) true with
        cw, lowAddr := (act.map (gridAddr e g)).min? } gs ∧
      LineMessages 0 (baseMsg s e g true) gs (laneByte (gridAddr e g))) ∧
  (uniCause e [addrOpnd g, cwOpnd g] = none → regsCause e act g.data (if g.gflags.getLsbD 0 then 4 else 3) = none →
    let len := (gcopyArgs e g).2.1
    let dst := (gcopyArgs e g).2.2.2
    (g.gflags.getLsbD 0 = true → (gcopyArgs e g).2.2.1 < 64) →
    patOk s e g (someTarget s) = true → cwCause s e g .write = none → gcopyCause s e g = none → act ≠ [] →
    (gcopyHere s e g = true → scoreUsed s e.b.core < Config.scoreEntries) →
    ∀ ps, xlateRange s e.l.ctx (inSup e.f) .read (gcopyArgs e g).1 len = .ok ps → memHold s e (ps.map (·.2)) = none →
      strictRace s e (ps.map (·.2)) = false → pagesPoison s ps (gcopyArgs e g).1 len = none →
      Completes (.gcopy g) s e 8 fun m r => r = {} ∧ ∃ u v gs, Charged v m ∧
        (gcopyHere s e g = false → u = s) ∧
        (gcopyHere s e g = true → ∃ t, u = setBlock s (scoreGrid e.b (selfLin s, t) (dst % 2 ^ 32) (dst % 2 ^ 32 + len - 1))) ∧
        Posts u v e { newOp s e g 8 (patExpected s (patOf e g).toNat (selfCoord s)) true with cw, lowAddr := some dst } gs ∧
        LineMessages 8 { baseMsg s e g true with landing := (gcopyArgs e g).2.2.1 } gs fun a =>
          if dst ≤ a ∧ a < dst + len then some ((pagesRead s ps ((gcopyArgs e g).1 + (a - dst)) 1).headD 0) else none) ∧
  (uniCause e [addrOpnd g, cwOpnd g] = none → dataCause e act g (gridRegs g) = none →
    (e.l.det && e.l.strict && g.gop == 10#4 && !g.gflags.getLsbD 0) = false → patOk s e g (contributes s) = true →
    (cwAddr e g).getD 0 % 16 = 0 →
    windowCause (min (e.p.width * n) 128) (e.p.width * n) (gridAddr e g 0) = none →
    (gridAddr e g 0 % 128 = 0 ∨ gridAddr e g 0 % 128 + e.p.width * n ≤ 128) → queueWait s e act (dataSrcs g) .null = none →
    Completes (.gred g) s e 8 fun m r => r = {} ∧ ∃ u b v gs, queued m v u b ∧ gs.length = (e.p.width * n + 127) / 128 ∧
      Posts (setBlock u b) v e (newOp s e g 3 ((e.p.width * n + 127) / 128) true) gs ∧
      LineMessages 3 { baseMsg s e g true with mflag := g.gflags.getLsbD 0, count := multOf g, key := laneKey e (act.headD 0),
                                               cw := (cwAddr e g).getD 0 } gs
        (laneByte fun l => gridAddr e g 0 + l * n)) ∧
  ((operandCause e act [addrOpnd g] .null 1 = none → uniCause e [cwOpnd g] = none → dataCause e act g (gridRegs g) = none →
    patOk s e g (someTarget s) = true → act = [] → Completes (.gst g) s e 8 fun m r => m = s ∧ r = {}) ∧
   (uniCause e [addrOpnd g, cwOpnd g] = none → regsCause e act g.data (if g.gflags.getLsbD 0 then 4 else 3) = none →
    (g.gflags.getLsbD 0 = true → (gcopyArgs e g).2.2.1 < 64) → patOk s e g (someTarget s) = true → act = [] →
    Completes (.gcopy g) s e 8 fun m r => m = s ∧ r = {}))

/-! ## Experts and tasks -/

/-- R423 to R425, R429, R432: GATECFG loads the slot from its configuration block: weights, bias, placement table, the shadow as the bias, no
micro-batch yet; a slot of the same context whose weights it overlaps is no longer configured. GDISPATCH begins an operation of its
pack on an accepted micro-batch, with a token for each row and the first attempt of each slot sent; weights in error are read again
first, and where that fails every slot ends with status 3 (R510). MBMARK makes the shadow the bias, begins the next micro-batch and
leaves the old one to be closed at the devices of its pattern; it waits while an earlier MBMARK or a close of the slot stands in its way.
The model's readings: logs 46, 48. -/
def Obligations.ExpertGating : Prop := ∀ (s : State) (e : Issuer) (g : Gen), IssuesAlone s e →
  let slot := g.opx.toNat % 8
  (uniCause e [uniPair g.a] = none → needsRound e = false →
    (gateFree s slot = false → Waits (.gatecfg g) s e .waiting (.gate slot)) ∧
    (gateFree s slot = true → ∀ gp w a, xlateRange s e.l.ctx (inSup e.f) .read (uniWide e g.a) 64 = .ok gp →
      let n := ofLeBytes (pagesRead s gp (uniWide e g.a) 64)
      let rs := gateRanges s e n w
      let x := loadGate s e n rs
      gcbOk n = true → entryOf s e (gWtid n) = .ok (w, a) → gateTensor n w = true → (overlaps s n fun _ y => y.ctx != e.l.ctx) = false →
      rangeFault e (rs.map (·.2)) = none → memHold s e ((gp ++ rs.flatMap fun r => rangePages r.2).map (·.2)) = none →
      strictRace s e ((gp ++ rs.flatMap fun r => rangePages r.2).map (·.2)) = false →
      (∀ y ∈ x.ptab, y < 2 ^ 20) →
      Completes (.gatecfg g) s e 8 fun m r => r = {} ∧ ∃ u kept, Charged s u ∧ m = { u with gates := spSet kept slot x } ∧
        x.shadow = x.bias ∧ x.j = 0 ∧ x.drops = 0 ∧ x.moves = 0 ∧
        ∀ y, y ∈ kept ↔ y ∈ s.gates ∧ (y.1 = slot ∨ rangesMeet (gRange n) (gRange (gateWord y.2)) = false))) ∧
  (regsCause e [] g.a 4 = none → uniCause e [opn32 g.b] = none → ∀ gs w a, spFind? s.gates slot = some gs →
    let va := uniWide e g.a
    let r0 := uniVal e (sPlus g.a 2)
    let k := uniVal e (sPlus g.a 3)
    uniVal e g.b ≤ 255 → entryOf s e (uniVal e g.b) = .ok (w, a) → tokenTensor (gateWord gs) w r0 k = true → gs.ctx = e.l.ctx →
    (e.l.det && e.l.strict && !gOrdered (gateWord gs)) = false → va % 64 = 0 → gridStall s e = none → markWaits s slot = false →
    ∀ route (rows : List (Nat × List (Nat × Nat))), xlateRange s e.l.ctx (inSup e.f) .write va (64 * k) = .ok route →
    (rows.length = k ∧ ∀ i, i < k → ∃ ps, rows[i]? = some (storedAddr w (r0 + i) 0, ps) ∧
      xlateRange s e.l.ctx (inSup e.f) .read (storedAddr w (r0 + i) 0) (2 * gH (gateWord gs)) = .ok ps) →
    memHold s e (rows.flatMap fun r => r.2.map (·.2)) = none → strictRace s e (rows.flatMap fun r => r.2.map (·.2)) = false →
    let counted := fun (m : State) =>
      ∃ p, packNow m e.ref = some p ∧ p = { e.p with eng := e.p.eng ++ [{ id := s.nextId, cls := .grid, tag := none }] }
    (gs.err = false → gateAgain s e gs = .ok gs) ∧
    (∀ x, gateAgain s e gs = .ok x → Completes (.gdispatch g) s e 8 fun m r => r = {} ∧
      m = dispatchEffect (putGate s slot x) e slot x va r0 route rows ∧ counted m) ∧
    (∀ a, gateAgain s e gs = .error a → Completes (.gdispatch g) s e 8 fun m r => r = {} ∧
      m = dispatchLost s e slot gs va r0 route k a ∧ counted m)) ∧
  (uniCause e [opn32 g.a] = none → uniVal e g.a ≤ 15 → ∀ x, spFind? s.gates slot = some x → x.ctx = e.l.ctx → needsRound e = false →
    let p := (spGet 0 e.p.gp (uniVal e g.a)).toNat
    patValid s p = true → patExself p = false → patMatches p (selfCoord s) (selfCoord s) = true →
    ((markWaits s slot = true ∨ markFree s slot = false) → Waits (.mbmark g) s e .waiting (.mark slot)) ∧
    (markWaits s slot = false → markFree s slot = true → Completes (.mbmark g) s e 8 fun m r => r = {} ∧
      ∃ u, u = { s with gates := u.gates } ∧
        (let closes := x.toClose ++ [{ batch := x.j, dests := patDevices s p }]
         ∀ k, spFind? u.gates k =
           if k = slot then some { x with bias := x.shadow, j := x.j + 1, toClose := closes } else spFind? s.gates k) ∧
        m = deviceWrite u e.l.region e.l.ctx e.b.linear (gBias (gateWord x)) (x.shadow.flatMap fun y => leBytes 4 y.toNat)))

/-- R435, R436, R440: ERTOP on an entry of its own context. A define of an absent entry without parked rows writes it, absent, without pins, with its pages,
source and destination; a fetch makes an absent entry fetching; an eviction makes a resident one evicting and marks a pinned one; a
pin and an unpin count, the last unpin leaving it resident, or evicting where it was marked; a read leaves the entry's first eight
bytes in every active lane; a define and a fetch drop what the TLBs hold of its destination (R483). An entry beyond the table, another
context's, and an unpin without pins stop the operation.
The model's readings: logs 49, 50. -/
def Obligations.ExpertResidency : Prop := ∀ (s : State) (e : Issuer) (g : Gen), IssuesAlone s e → uniCause e [opn32 g.a] = none →
  dstCause e (maskLanes e.p e.f) g.dst 2 = none →
  let i := uniVal e g.a
  let n := ertEntry s i
  let at' := fun (x : Instr) (t : State) => Completes x s e 8 fun m r => m = t ∧ r = {}
  let stops := fun (x : Instr) (c : Nat) => exec x s = .next (takeTrap s e (trapAll e [] c))
  let forgets := fun (w : Nat) (t : State) => tlbDrop t (ertCtx w) (ertDst w) (ertPages w * 2 ^ 21)
  (inSup e.f = true → regsCause e [] g.b 4 = none → defineCause s e g i = none → ∃ w, at' (.ertopDefine g) (forgets w (putErt s i w)) ∧
    ertState w = 0 ∧ ertDefer w = false ∧ ertPins w = 0 ∧ ertParked w = 0 ∧ ertCtx w = e.l.ctx % 2 ^ 16 ∧
    ertPages w = uniVal e g.b ∧ ertSrc w = uniVal e (sPlus g.b 1) * 2 ^ 21 ∧ ertDst w = uniWide e (sPlus g.b 2)) ∧
  (16383 < i → ∀ x ∈ [Instr.ertopFetch g, .ertopEvict g, .ertopPin g, .ertopUnpin g, .ertopRead g], stops x 0x0C) ∧
  (i ≤ 16383 → ertCtx n ≠ e.l.ctx →
    ∀ x ∈ [Instr.ertopFetch g, .ertopEvict g, .ertopPin g, .ertopUnpin g, .ertopRead g], stops x 0x06) ∧
  (i ≤ 16383 → ertCtx n = e.l.ctx →
    (ertPins n = 0 → stops (.ertopUnpin g) 0x0C) ∧
    (needsRound e = false →
      (ertState n = 0 → ertPages n ≠ 0 →
        at' (.ertopFetch g) { forgets n (putErt s i (setErtState n 1)) with fetches := s.fetches ++ [{ idx := i }] }) ∧
      ((ertState n ≠ 0 ∨ ertPages n = 0) → at' (.ertopFetch g) s) ∧
      (ertState n = 2 → at' (.ertopEvict g) (putErt s i (setErtState n 4))) ∧
      (ertState n = 3 → at' (.ertopEvict g) (putErt s i (setErtDefer n true))) ∧
      (ertState n ≠ 2 → ertState n ≠ 3 → at' (.ertopEvict g) s) ∧
      (ertPins n = 4095 → Waits (.ertopPin g) s e .waiting .translations) ∧
      (ertPins n ≠ 4095 → (ertState n = 2 ∨ ertState n = 3) →
        at' (.ertopPin g) (putErt s i (setErtState (setErtPins n (ertPins n + 1)) 3))) ∧
      (ertPins n ≠ 4095 → ertState n ≠ 2 → ertState n ≠ 3 → at' (.ertopPin g) s) ∧
      (ertState n = 3 → 1 < ertPins n → at' (.ertopUnpin g) (putErt s i (setErtPins n (ertPins n - 1)))) ∧
      (ertState n = 3 → ertPins n = 1 →
        at' (.ertopUnpin g) (putErt s i (setErtState (setErtPins n 0) (if ertDefer n then 4 else 2)))) ∧
      (ertState n ≠ 3 → ertPins n ≠ 0 → at' (.ertopUnpin g) s) ∧
      Completes (.ertopRead g) s e 8 fun m r =>
        ResultOnly s m e g.dst g.nowb 2 (maskLanes e.p e.f) (fun _ => n % 2 ^ 64) r))

/-- R94, R95, R443, R444, R446: TASKDEF registers the template that it reads under its class, or removes the class and says why; TASKDEP sets, adds to or
subtracts from a counter in its turn and leaves the old value, a bound counter that comes to zero spawning a task; KSTAT reads the
statistic that its selector names, zero in a deterministic launch.
The model's readings: log 51. -/
def Obligations.Tasks : Prop := ∀ (s : State) (e : Issuer) (g : Gen), IssuesAlone s e → dstCause e (maskLanes e.p e.f) g.dst 1 = none →
  let n := uniVal e g.a
  let v := uniVal e g.b
  let old := (counterAt s n).value.toNat
  let leaves := fun (x : Instr) (t : State) => Completes x s e 8 fun m r =>
    ∃ u, ResultOnly t u e g.dst g.nowb 1 (maskLanes e.p e.f) (fun _ => old) r ∧ Stirred u m
  (uniCause e [opn32 g.a, uniPair g.b] = none → n ≤ 255 → ∀ ps, xlateRange s e.l.ctx (inSup e.f) .read (uniWide e g.b) 128 = .ok ps →
    readHold s e (ps.map (·.2)) = none →
    let w := ofLeBytes (pagesRead s ps (uniWide e g.b) 128)
    Completes (.taskdef g) s e 8 fun m r => ∃ u t, Charged s u ∧ t = { u with classes := t.classes } ∧
      (∀ c, spFind? t.classes c = if c = n then
        (if templateReason s e w = 0 then some { ctx := e.l.ctx, region := e.l.region, packet := BitVec.ofNat 1024 w } else none)
        else spFind? s.classes c) ∧
      ResultOnly t m e g.dst g.nowb 1 (maskLanes e.p e.f) (fun _ => templateReason s e w) r) ∧
  (uniCause e ([opn32 g.a, opn32 g.b] ++ if g.c == .unused then [] else [opn32 g.c]) = none → needsTurn s e = false → n ≤ 1023 →
    (othersClass s e (uniVal e g.c) = false → uniVal e g.c ≤ 255 →
      let c : DepCounter := { value := BitVec.ofNat 32 v, cls := some (uniVal e g.c), ctx := some e.l.ctx }
      leaves (.taskdepSet g) (if v = 0 then spawnTask (putCounter s n c) n (uniVal e g.c) else putCounter s n c)) ∧
    (othersCounter s e n = false →
      (old + v < 2 ^ 32 → leaves (.taskdepAdd g) (putCounter s n { counterAt s n with value := BitVec.ofNat 32 (old + v) })) ∧
      (v ≤ old → leaves (.taskdepSub g)
        (let t := putCounter s n { counterAt s n with value := BitVec.ofNat 32 (old - v) }
         if v = old ∧ v ≠ 0 then (counterAt s n).cls.elim t fun c => spawnTask t n c else t)))) ∧
  (uniCause e (if g.a == .unused then [] else [opn32 g.a]) = none → ∀ x, kstatValue s e g.opx.toNat n = .ok x →
    Completes (.kstat g) s e 8 fun m r =>
      ResultOnly s m e g.dst g.nowb 1 (maskLanes e.p e.f) (fun _ => if e.l.det then 0 else x % 2 ^ 32) r)

/-! ## The network -/

/-- R463 to R465, R467: NPOST hands the request of its sixteen registers to the network engine as an operation of its pack, NRECV a receive; both go on at
once. A request without a channel that is installed, valid and permitted, or beyond what the channel allows, completes with status 5
without being sent.
The model's readings: logs 52, 53. -/
def Obligations.NetworkRequests : Prop := ∀ (s : State) (e : Issuer) (g : Gen), IssuesAlone s e → regsCause e [] g.a 16 = none →
  let n := workRequest e g
  wrBad n = false → needsRound e = false → ∀ ps ctr, wrPages s e n = .ok (ps, ctr) →
  let own := chanOf s e.l.ctx e.b.capbase.toNat (wrCh n)
  let q : NeReq := { op := s.nextId, blk := e.ref.blk, pidx := e.ref.pidx, pos := e.ref.pos, ctx := e.l.ctx,
                     table := e.b.capbase.toNat, region := e.l.region, entry := own.elim 0 (·.entry), gen := own.elim 0 (·.gen),
                     wr := BitVec.ofNat 512 n, pages := ps, ctr := ctr }
  let x : NeRecv := { op := s.nextId, ctx := e.l.ctx, table := e.b.capbase.toNat, region := e.l.region,
                      entry := own.elim 0 (·.entry), gen := own.elim 0 (·.gen), wr := BitVec.ofNat 512 n, pages := ps, ctr := ctr }
  (wrOp n ≤ 3 → hasRoom e.p 3 none = true → (wrOp n ≤ 2 → strictRace s e (ps.map (·.2)) = false) →
    Completes (.npost g) s e 8 fun m r => r = {} ∧ ∃ v, PackIs { s with nextId := s.nextId + 1, sends := s.sends ++ [q] } v e
        { e.p with eng := e.p.eng ++ [{ id := s.nextId, cls := .net, tag := none }] } ∧
      ((∃ c, wrChan s e n = some c ∧ wrLen n ≤ ceAllow c.entry.toNat) → m = v) ∧
      ((∀ c, wrChan s e n = some c → ceAllow c.entry.toNat < wrLen n) → m = finishSend v q 5 0)) ∧
  (wrOp n = 4 → Completes (.nrecv g) s e 8 fun m r => r = {} ∧ ∃ v, v = { s with nextId := s.nextId + 1, receives := s.receives ++ [x] } ∧
      m = if (wrChan s e n).isSome then v else finishRecv v x 5 0)

/-- R83, R468 to R472: NPOLL leaves the oldest unread record of its channel's ring, with the overflow since the last poll, and takes it; with none it leaves
zero; a channel that is not installed, or has no ring, is CAPABILITY (07). LARM replaces or removes an arm of its context. LAUNCH reads a
packet, which becomes a launch when it passes the checks of R83 and is reported when it does not.
The model's readings: logs 19, 52, 53. -/
def Obligations.PollsArmsLaunches : Prop := ∀ (s : State) (e : Issuer) (g : Gen), IssuesAlone s e →
  (dstCause e (maskLanes e.p e.f) g.dst 8 = none → uniCause e [opn32 g.a] = none →
    let chan := chanOf s e.l.ctx e.b.capbase.toNat (uniVal e g.a)
    (chan = none → exec (.npoll g) s = .next (takeTrap s e (trapAll e [] 0x07))) ∧
    ∀ c, chan = some c →
      let ring := ceRing c.entry.toNat
      (ceRlog c.entry.toNat = 0 → exec (.npoll g) s = .next (takeTrap s e (trapAll e [] 0x07))) ∧
      (ceRlog c.entry.toNat ≠ 0 → (buffered e && e.l.strict) = false → needsRound e = false →
        (c.wr ≤ c.rd → Completes (.npoll g) s e 8 fun m r =>
          ResultOnly (acquired s e) m e g.dst g.nowb 8 (maskLanes e.p e.f) (fun _ => 0) r) ∧
        (c.rd < c.wr → ∀ ps, let va := ring + 32 * (c.rd % 2 ^ ceRlog c.entry.toNat)
          xlateRange s e.l.ctx (inSup e.f) .read va 32 = .ok ps → memHold s e (ps.map (·.2)) = none →
          Completes (.npoll g) s e 8 fun m r =>
            ResultOnly (putChan (acquired s e) { c with rd := c.rd + 1, ovf := false }) m e g.dst g.nowb 8
              (maskLanes e.p e.f) (fun _ => ofLeBytes (pagesRead s ps va 32) ||| if c.ovf then 2 ^ 30 else 0) r))) ∧
  (uniCause e [opn32 g.a] = none → regsCause e [] g.b 8 = none → uniVal e g.a ≤ 63 → uniVal e (sPlus g.b 6) ≤ 1 →
    uniVal e (sPlus g.b 7) = 0 →
    let others := s.arms.filter fun a => !(a.ctx == e.l.ctx && a.idx == uniVal e g.a)
    let va := uniWide e g.b
    (va = 0 → Completes (.larm g) s e 8 fun m r => r = {} ∧ m = { s with arms := others }) ∧
    (va ≠ 0 → ∀ ps, xlateRange s e.l.ctx (inSup e.f) .read va 128 = .ok ps → readHold s e (ps.map (·.2)) = none →
      let w := ofLeBytes (pagesRead s ps va 128)
      Completes (.larm g) s e 8 fun m r => r = {} ∧ ∃ u, Charged s u ∧
        (packetReason u (.leaf e.l.region) w = 0 → m = { u with
          arms := { ctx := e.l.ctx, idx := uniVal e g.a, packet := BitVec.ofNat 1024 w, region := e.l.region,
                    tag := BitVec.ofNat 64 (uniWide e (sPlus g.b 2)), mask := BitVec.ofNat 64 (uniWide e (sPlus g.b 4)),
                    keep := uniVal e (sPlus g.b 6) == 1 } :: others }) ∧
        (packetReason u (.leaf e.l.region) w ≠ 0 →
          m = rejectPacket u (.leaf e.l.region) w (packetReason u (.leaf e.l.region) w)))) ∧
  (uniCause e [uniPair g.a] = none → ∀ ps, xlateRange s e.l.ctx (inSup e.f) .read (uniWide e g.a) 128 = .ok ps →
    readHold s e (ps.map (·.2)) = none →
    let w := ofLeBytes (pagesRead s ps (uniWide e g.a) 128)
    Completes (.launch g) s e 8 fun m r => r = {} ∧ ∃ u, Charged s u ∧
      let p : Pending := { packet := BitVec.ofNat 1024 w, source := .leaf e.l.region }
      (packetReason u p.source p.packet.toNat = 0 → ∃ x, packetRegion u p.source p.packet.toNat = some x ∧
        m = { u with nextId := u.nextId + 1, launches := u.launches ++ [makeLaunch u p x] }) ∧
      (packetReason u p.source p.packet.toNat ≠ 0 →
        m = rejectPacket u p.source p.packet.toNat (packetReason u p.source p.packet.toNat)))

/-! ## System instructions, traps and returns -/

/-- R453, R455, R456, R476, R526: in supervisor mode SRR leaves a special register in every active lane's pair, SRW writes one: TDBASE and CAPBASE of the
issuing block, the device's own for the others; a value with a reserved bit is ILLEGAL (05), and a change of PLANEMAP waits until the
grid is quiet. In user mode these and the other supervisor instructions are PRIVILEGED (06). CTRREAD leaves a counter of the issuing
region, zero in a deterministic launch.
The model's readings: logs 9, 38. -/
def Obligations.SystemRegisters : Prop := ∀ (s : State) (e : Issuer) (g : Gen), IssuesAlone s e →
  let all := maskLanes e.p e.f
  (inSup e.f = false → ∀ x ∈ [Instr.srr g, .srw g, .ertopDefine g, .tlbinvPage g, .tlbinvContext g, .tlbinvAll g, .biasflipDev g,
      .biasflipHost g, .migrateLocal g, .migrateRemote g, .capset g, .mappg g, .retfRetry g, .retfNext g, .retfEsc g],
    exec x s = .next (takeTrap s e (trapAll e [] 0x06))) ∧
  (inSup e.f = true → dstCause e all g.dst 2 = none → Completes (.srr g) s e 8 fun m r =>
    ResultOnly (acquired s e) m e g.dst g.nowb 2 all (fun _ => (issuerReg s e g.opx.toNat).toNat) r) ∧
  (inSup e.f = true → uniCause e [uniPair g.a] = none →
    let n := g.opx.toNat
    let x := uniWide e g.a
    (sysReserved n x = true → exec (.srw g) s = .next (takeTrap s e (trapAll e [] 0x05))) ∧
    (sysReserved n x = false →
      (n = 4 → planeFence s (BitVec.ofNat 64 x) = true → gridQuiet s = false → Waits (.srw g) s e .waiting .planes) ∧
      ((n ≠ 4 ∨ planeFence s (BitVec.ofNat 64 x) = false ∨ gridQuiet s = true) → Completes (.srw g) s e 8 fun m r => r = {} ∧
        (n = 7 → m = setBlock s { e.b with tdbase := BitVec.ofNat 64 x }) ∧
        (n = 8 → m = setBlock s { e.b with capbase := BitVec.ofNat 64 x }) ∧
        (n ≠ 7 → n ≠ 8 → m = sysPut s n (BitVec.ofNat 64 x))))) ∧
  (dstCause e all g.dst 2 = none → Completes (.ctrread g) s e 8 fun m r =>
    ResultOnly s m e g.dst g.nowb 2 all (fun _ => if e.l.det then 0 else counterOf s e.l.region g.opx.toNat) r)

/-- R154, R156, R439, R457 to R459, R462, R493, R494, R514: in supervisor mode TLBINV drops the translations that it covers, writes back and
releases the stash lines filled through them, tells requests and experts, and waits for those that are still at work; BIASFLIP sets
the bias of its units; MIGRATE moves its page; CAPSET stores a capability entry and installs its channel; MAPPG maps a page for each
active lane, in ascending order, and leaves each lane's status.
The model's readings: logs 26, 53, 54, 72. -/
def Obligations.Translations : Prop := ∀ (s : State) (e : Issuer) (g : Gen), IssuesAlone s e → inSup e.f = true →
  let va := uniWide e g.a
  let ctx := e.l.ctx
  let done := fun (i : Instr) (t : State) => Completes i s e 8 fun m r => m = t ∧ r = {}
  let invalidates := fun (i : Instr) (x : InvRange) =>
    let u := { s with tlb := s.tlb.filter fun t => !(invCtx x t.ctx && t.va < x.va + x.len && x.va < t.va + 2 ^ t.k) }
    let v := if e.f.evicts.isSome then u else invIdle u x
    let z := evictRange (invStash v x) e x.ctx x.va x.len
    LinesMoved v (invStash v x) ∧
    (invBusy z.1 x = false → z.2 = [] → done i (acquired z.1 e)) ∧
    ((invBusy z.1 x = true ∨ z.2 ≠ []) → exec i s = .next (putFrag z.1 e.ref
      { (refresh z.1 e).f with st := .waiting, wait := .translations, since := s.tick, gang := 0, evicts := some z.2 }))
  (uniCause e [uniPair g.a, opn32 g.b] = none → 12 ≤ uniVal e g.b → uniVal e g.b ≤ 27 → va % 2 ^ uniVal e g.b = 0 →
    invalidates (.tlbinvPage g) { ctx := some ctx, va := va, len := 2 ^ uniVal e g.b }) ∧
  (uniCause e [opn32 g.b] = none → invalidates (.tlbinvContext g) { ctx := some (uniVal e g.b), va := 0, len := 2 ^ 57 }) ∧
  invalidates (.tlbinvAll g) { ctx := none, va := 0, len := 2 ^ 57 } ∧
  (uniCause e [uniPair g.a, opn32 g.b] = none → 1 ≤ uniVal e g.b → uniVal e g.b ≤ 65536 → va % 4096 = 0 →
    ∀ us, flipUnits s e va (uniVal e g.b) = .ok us →
    done (.biasflipDev g) (us.foldl (flipUnit false) s) ∧
    (s.hi.biastab.getLsbD 0 = true → done (.biasflipHost g) (us.foldl (flipUnit true) s))) ∧
  (∀ p, movePage s e va = .ok p → va % 2 ^ p.k = 0 → moveHeld s e p = none →
    (uniCause e [uniPair g.a, uniPair g.b] = none → uniWide e g.b % 2 ^ p.k = 0 → moveTierOk (uniWide e g.b) = true →
      moveTierOk (uniWide e g.b + 2 ^ p.k - 1) = true → done (.migrateLocal g) (moveLocal s e p (uniWide e g.b))) ∧
    (uniCause e [uniPair g.a, opn32 g.c] = none → isWindow va = true →
      (oldFrame s p.pa (2 ^ p.k) = false → done (.migrateRemote g) (moveOutcome s e p (uniVal e g.c))) ∧
      (oldFrame s p.pa (2 ^ p.k) = true → exec (.migrateRemote g) s = .next (putFrag s e.ref
        { e.f with st := .waiting, wait := .translations, since := s.tick, gang := 0, evicts := some [] })))) ∧
  (uniCause e [opn32 g.a] = none → regsCause e [] g.b 16 = none →
    let c := uniVal e g.a
    let n := regsVal e g.b 16 0
    c ≤ 63 → ceBad n = false → ∀ ps, xlateRange s ctx true .write (e.b.capbase.toNat + 64 * c) 64 = .ok ps →
    memHold s e (ps.map (·.2)) = none → Completes (.capset g) s e 8 fun m r => r = {} ∧ ∃ u, Charged s u ∧
      m = installChan (pagesWrite u ps (e.b.capbase.toNat + 64 * c) (leBytes 64 n)) ctx e.b.capbase.toNat c e.l.region
        (BitVec.ofNat 512 n)) ∧
  (let act := activeLanes e g.pred
   operandCause e act [uniPair g.a, opn32 g.b] g.dst 1 = none → attrBad (uniVal e g.b) = false → ∀ x, regionOf s e.l.region = some x →
    Completes (.mappg g) s e 8 fun m r => ∃ t vals,
      (t, vals) = mapLanes ctx e.l.region (uniVal e g.b) x s (act.map fun l => (l, opndVal e (uniPair g.a) l)) ∧
      vals.map (·.1) = act ∧
      ResultOnly t m e g.dst g.nowb 1 act (fun l => (vals.find? fun y => y.1 == l).elim 0 (·.2)) r)

/-- R484 to R486, R489, R492, R496, R497: TRAP and TRAP.dbg in user mode, with a handler and no fragment of the pack in it, enter it: the fragment goes to TRAPBASE with
its address, slices, latches, masks, stacks, status and predicates saved, FAULTMASK its active lanes and FAULTADDR their
operands; every live lane is active, every stack empty. RETF returns with all of these restored but for lanes that have
exited (R46): RETF.retry to the address saved, a slot whose reload failed being reloaded (R503), RETF.next behind it with the poisoned
parts of R521 sent, RETF.esc by escalation, which ends every launch of the fault domain.
The model's readings: logs 12, 34, 55. -/
def Obligations.TrapsAndReturns : Prop := ∀ (s : State) (e : Issuer) (g : Gen), IssuesAlone s e →
  let act := activeLanes e g.pred
  (∀ x ∈ [(Instr.trap g, 0x13), (.trapDbg g, 0x14)], operandCause e act [opn32 g.a] .null 1 = none →
    (act = [] → Completes x.1 s e 8 fun m r => m = s ∧ r = {}) ∧
    (act ≠ [] → inSup e.f = false → s.sys.trapbase ≠ 0 → (∀ f ∈ e.p.frags, inSup f = false) →
      ∃ t p f fr, exec x.1 s = .next t ∧ PackIs s t e p ∧ p = { e.p with slices := p.slices, frags := p.frags } ∧
        getFrag p e.ref.frag = some f ∧ (∀ i, i ≠ e.ref.frag → getFrag p i = getFrag e.p i) ∧
        f.pc = s.sys.trapbase ∧ f.st = .ready ∧ f.slices = e.f.slices ∧ f.latches = [] ∧ f.frame = some fr ∧
        fr.slices = e.f.slices ∧ fr.resume = e.f.pc ∧ fr.latches = e.f.latches ∧ fr.info.cause = x.2 ∧ fr.info.pc = e.f.pc ∧
        fr.info.lanes = lanesMask act ∧
        (∀ l ∈ act, spGet 0 fr.info.addrs l = BitVec.ofNat 64 (opndVal e (opn32 g.a) l)) ∧
        fr.saved = (fragSlices e.p e.f).map (fun k => saveSlice (sliceOf e.p k)) ∧
        ∀ k, sliceOf p k = if k ∈ fragSlices e.p e.f then { sliceOf e.p k with mask := (sliceOf e.p k).live, stack := [] }
          else sliceOf e.p k)) ∧
  (inSup e.f = true → retfFrame e = none → ∀ x ∈ [Instr.retfRetry g, .retfNext g],
    exec x s = .next (takeTrap s e (trapAll e [] 0x05))) ∧
  ∀ fr, retfFrame e = some fr → (∀ f ∈ e.p.frags, f.held = none) → fr.saved.length = (fragSlices e.p e.f).length →
    (∀ x ∈ [(Instr.retfRetry g, (Except.ok fr.resume : Except (Nat × Nat) DWord), fun u => reloadTrapped u e.ref.blk fr.info),
        (.retfNext g, (nextPc s e fr).map (BitVec.ofNat 64), fun u => sendPoison e.l.region u fr.info.poison)],
      ∀ pc, x.2.1 = .ok pc → ∃ u q, exec x.1 s = .next (x.2.2 u) ∧ OnlyPack s u e.ref ∧ packNow u e.ref = some q ∧
        q.lclock = clockAfter e ∧
        (∀ (i k : Nat) (sv : SavedSlice), (fragSlices e.p e.f)[i]? = some k → fr.saved[i]? = some sv → (sliceOf e.p k).live ≠ 0 →
          let sl := sliceOf e.p k
          let y := { sl with mask := sv.mask &&& sl.live, fpstat := sv.fpstat,
                             stack := sv.stack.map fun x => { x with pend := x.pend &&& sl.live, saved := x.saved &&& sl.live },
                             lanes := (sl.lanes.zip sv.preds).map fun z => { z.1 with p := z.2 } }
          StandsAt q k (joinCheck 10 pc y).1 ∧ sliceOf q k = (joinCheck 10 pc y).2) ∧
        ∀ f, getFrag q e.ref.frag = some f → f.st ≠ .free → f.frame = none ∧ f.latches = fr.latches) ∧
    (uniCause e [opn32 g.a] = none →
      let c := uniVal e g.a % 256
      ∃ t, exec (.retfEsc g) s = .next t ∧
        t = escalate s e { fr.info with cause := if c = 0 then fr.info.cause else c, poison := [] } false ∧
        ∀ l ∈ t.launches, ∀ x ∈ s.launches, under s (domainOf s 8 e.l.region) x.region = true → x.lid ≠ l.lid)

/-! ## Events -/

/-- R66, R78, R82, R87 to R93, R95, R98, R103, R106 to R109, R112, R113, R116, R190, R191: what the dispatcher and the cores come to, where it is due: an
accepted packet, a chunk of blocks for the least loaded core, the start of the block at a queue's head, a steal, the end of a block, a
pending spawn, the end of a run, a wait that is over, the end of a budget's period, pre-emption and resumption, deterministic rounds
and turns. An event that is not due changes nothing (log 22).
The model's readings: logs 22, 28, 29, 30, 31. -/
def Obligations.EventsOfTheDispatcher : Prop := ∀ (s : State) (core : BitVec 8),
  let c := core.toNat
  let k := coreOf s c
  let ready := fun (r : FragRef) (e : Issuer) => putFrag s r { e.f with st := .ready, wait := heldWait e.f.wait, gang := 0, since := s.tick }
  (∀ p rest, s.arriving = p :: rest → exec .launchAccept s = .next (acceptPacket { s with arriving := rest } p)) ∧
  (s.arriving = [] → exec .launchAccept s = .next s) ∧
  (∀ l m, nextLaunch s = some l → placeCore s l = some m → hasBlocks s l = true →
    let n := min 4 (min (launchBlocks l - l.next) (32 - (coreOf s m).queue.length))
    exec .blockPlacement s = .next (setLaunch { putCore s m { coreOf s m with
      queue := (coreOf s m).queue ++ (List.range n).map fun i => (l.lid, l.next + i) } with rr := l.region } { l with next := l.next + n })) ∧
  (∀ q rest l, k.queue = q :: rest → getLaunch s q.1 = some l → couldStart s c l = true → ∃ t u, exec (.blockStart core) s = .next t ∧
    u = { s with cores := u.cores, walks := u.walks, tlb := u.tlb, l2 := u.l2, budget := u.budget, shadows := u.shadows,
                 activity := u.activity, free := u.free } ∧
    t.blocks = s.blocks ++ [newBlock u l q.2 c] ∧ (coreOf t c).queue = rest) ∧
  (c < 192 → coreIdle s c = true → exec (.stealAttempt core) s = .next (stealAttempt s c)) ∧
  (∀ n b l, getBlock s n = some b → getLaunch s b.launch = some l →
    (blockDone b = true → endHeld s b l = none → ∃ t, exec (.blockEnd n) s = .next t ∧ getBlock t n = none) ∧
    (blockDone b = false → exec (.blockEnd n) s = .next s) ∧
    (b.state = .resident → (detStuck s b l || idleForOthers s b || displaced s b) = true → ∃ t, exec (.preempt n) s = .next t ∧
      ∃ b', getBlock t n = some b' ∧ b'.state = .preempted ∧ b'.behind = detStuck s b l) ∧
    (rcbValid (rcbWord s l.region) = true → nextResume s l = some b → (∃ x, nextLaunch s = some x ∧ x.lid = l.lid) →
      (allowedCores s l).getLsbD c = true → coreFits s c (slotsNeeded b).length l = true → ∃ t b', exec (.blockResume n core) s = .next t ∧
        getBlock t n = some b' ∧ b'.core = c ∧ b'.state = .resident ∧ b'.behind = false) ∧
    (rcbValid (rcbWord s l.region) = false → b.state = .preempted → ∃ t, exec (.blockResume n core) s = .next t ∧ getBlock t n = none)) ∧
  (∀ p rest, s.spawns = p :: rest → liveTasks s < Config.maxTasks → exec .pendingSpawn s = .next (startSpawn s)) ∧
  (∀ (w : BitVec 2) e, atLimit s (4 * c + w.toNat) = some e → exec (.runEnd core w) s = .next (endRun s (4 * c + w.toNat) e)) ∧
  (∀ r e, issuerAt s r = some e → e.b.state = .resident → wakes s e.b e.p e.f = true →
    (e.f.st = .waiting → isWordWait e.f.wait = true → polls s e.f.wait = false → exec (.conditionMonitorWake r) s = .next (ready r e)) ∧
    (e.f.st = .waiting → isAppendWait e.f.wait = true → exec (.appendClaimGrant r) s = .next (ready r e)) ∧
    (isWordWait e.f.wait = false → isAppendWait e.f.wait = false → e.f.wait ≠ .turn →
      (e.f.st = .waiting ∨ e.f.st = .pairing ∨ e.f.st = .pfuse → exec (.fragmentWake r) s = .next (ready r e)) ∧
      (e.f.st = .regang → exec (.fragmentWake r) s = .next (mergeRegang s e)))) ∧
  (∀ r e pa w, pollAt s r = some (e, pa, w) → heldAmong s e.l.region [pa] = none →
    let t := l1Clear (if isReg pa then s else chargeMem s e.l.region pa w) e.b.core
    Charged s t ∧ (wakes t e.b e.p e.f = true → exec (.monitorPoll r) s = .next (wakeFrag t r)) ∧
      (wakes t e.b e.p e.f = false → exec (.monitorPoll r) s = .next t)) ∧
  (∀ (u : BitVec 11) (a : BitVec 3) (r : BitVec 52) x, findUse s u.toNat a.toNat r.toNat = some x →
    ∃ t, exec (.budgetPeriodEnd u a r) s = .next t ∧ t = { s with budget := t.budget } ∧
      ∃ y, findUse t u.toNat a.toNat r.toNat = some y ∧ y.used = 0 ∧ y.posted = false ∧
        y.allow = allowOf s (chainOf s 8 r.toNat) a.toNat) ∧
  (inLehr s = false → ∀ r : BitVec 52, exec (.contextSwitch r) s = .next (switchRegion s r.toNat)) ∧
  (∀ l, getLaunch s l.lid = some l → l.det = true → roundDone s l = true → roundHeld s l = none →
    exec (.detRoundComplete l.lid) s = .next (publishRound s l)) ∧
  (∀ n r rest e, dueTurns s n = r :: rest → issuerAt s r = some e → exec (.detSyncTurn n) s = .next (ready r e))

/-- R123, R128, R130, R134, R143, R150, R222, R330, R340, R372, R506, R512, R515, R536 to R538: what the memory system and the engines come to: a segment
that is awake, a filled line, a line written back, ways that gate and return, a walk whose leaf enters the TLBs, moved bytes, landed
copies, drains, matrix passes and their replays, a scrubbed sector, and requests at a home slice.
The model's readings: logs 7, 27, 31. -/
def Obligations.EventsOfTheUnits : Prop := ∀ (s : State),
  (∀ (core : BitVec 8) (seg : BitVec 4), (touched s core.toNat).getLsbD seg.toNat = true →
    (coreOf s core.toNat).awake.getLsbD seg.toNat = false → exec (.stashSegmentWake core seg) s = .next (putCore s core.toNat
      { coreOf s core.toNat with awake := (coreOf s core.toNat).awake ||| BitVec.ofNat 16 (2 ^ seg.toNat) })) ∧
  (∀ n b line, getBlock s n = some b →
    (∀ pa, fillNeed s (blockCtx s b).1 true b line = .ok (some pa) → b.state = .resident →
      exec (.stashFillComplete n line) s = .next (doFill s n line pa)) ∧
    (∀ l, lineAt b line = some l → l.dirty ≠ 0 → heldAmong s (blockCtx s b).2 [l.pa] = none →
      let lost := postEvent (setBlock s (dropLine b line)) (blockCtx s b).2 (eventRecord 3 0x0E (blockCtx s b).1 0 0 0 0 (lineVa b line))
      (cutOff s l.pa = false → exec (.stashWriteback n line false) s = .next (setBlock (sendLine s b l) (setLine b { l with dirty := 0 }))) ∧
      (cutOff s l.pa = true → exec (.stashWriteback n line false) s = .next lost) ∧
      (cxlHome l.pa = true → exec (.stashWriteback n line true) s = .next lost))) ∧
  (∀ (stack : BitVec 2) way,
    ((stack.toNat, way) ∉ s.gated → ∃ t, exec (.l2WayGate stack way) s = .next t ∧ t = { s with gated := (stack.toNat, way) :: s.gated, l2 := t.l2 } ∧
      ∀ x, x ∈ t.l2 ↔ x ∈ s.l2 ∧ inWay (stack.toNat, way) x.1 x.2 = false) ∧
    ((stack.toNat, way) ∈ s.gated → ∃ t, exec (.l2WayEnable stack way) s = .next t ∧ t = { s with gated := t.gated } ∧
      ∀ x, x ∈ t.gated ↔ x ∈ s.gated ∧ x ≠ (stack.toNat, way))) ∧
  (∀ (ctx : BitVec 16) (va : DWord) w, (s.walks.find? fun w => w.ctx == ctx.toNat && w.granule == va.toNat / 4096) = some w →
    ∃ t, exec (.pageWalkComplete ctx va) s = .next t ∧
      t = { s with tlb := t.tlb, walks := t.walks, l2 := t.l2, budget := t.budget, shadows := t.shadows, activity := t.activity, free := t.free } ∧
      (∀ x, walk s w.ctx (4096 * w.granule) = .error x → t.tlb = s.tlb ∧ w ∉ t.walks) ∧
      ∀ p, walk s w.ctx (4096 * w.granule) = .ok p →
        let entry := fun (place : TlbPlace) => ({ place := place, ctx := w.ctx, va := p.va, k := p.k, leaf := BitVec.ofNat 64 (pageLeaf p) } : TlbEntry)
        (unheld s w.ctx p = true → t.tlb = s.tlb ∧ w ∉ t.walks) ∧
        (unheld s w.ctx p = false → entry (.die w.die) ∈ t.tlb ∧ (∀ x ∈ s.tlb, x ∈ t.tlb) ∧
          ∀ x, sameWalk w x p = true → x ∉ t.walks ∧ (x ∈ s.walks → ∀ c ∈ x.cores, entry (.core c) ∈ t.tlb))) ∧
  (∀ o, getEngine s o.id = some o →
    let goes := fun (pas : List Nat) (fills : List (Nat × Nat)) => ∀ b, getBlock s o.blk = some b →
      heldAmong s (blockCtx s b).2 (pas ++ fillPas s (blockCtx s b).1 true b fills) = none
    (∀ kind pages va off len moved bar n, o.work = .xfer kind pages va off len moved bar → 1 ≤ n → moved + n ≤ len →
      (∀ x w, kind = .red x w → n % w = 0) → goes ((unitParts (va + moved) n).map fun x => pagesPa pages x.1) [(off + moved, n)] →
      exec (.streamerBytesComplete o.id n) s = .next (xferMove s o kind pages va off len moved bar n)) ∧
    (∀ size lanes, o.work = .copy size lanes → goes (lanes.map (·.pa)) (lanes.map fun l => (l.dst, size)) →
      exec (.laneCopyLand o.id) s = .next (copyLand s o size lanes)) ∧
    (∀ add elems, o.work = .drain add elems → goes ((elems.filter fun d => !d.stash).map (·.addr))
        ((elems.filter fun d => d.stash).map fun d => (d.addr, d.size)) →
      exec (.matrixDrainComplete o.id) s = .next (drainFinish s o add elems))) ∧
  (∀ n b p, passAt s n = some (b, p) →
    (passErrs b p = [] → p.replays = 0 → passCheck p = true → exec (.matrixPassComplete n) s = .next (setBlock s (applyPass b p))) ∧
    (passErrs b p ≠ [] → exec (.matrixPassComplete n) s = .next (takeDooms (losePassAt s b p (passErrs b p)))) ∧
    (passCheck p = true → exec (.checksumReplay n true) s = .next (replayPass s b p true)) ∧
    exec (.checksumReplay n false) s = .next (replayPass s b p false)) ∧
  (∀ sector, inLehr s = false → deviceMemory (32 * sector) = true →
    exec (.scrub sector .clean) s = .next s ∧
    exec (.scrub sector .corrected) s = .next { s with hi := { s.hi with mbce := bumpAll s.hi.mbce } } ∧
    ∃ t, exec (.scrub sector .uncorrectable) s = .next t ∧
      t = { s with hi := { s.hi with mbue := bumpAll s.hi.mbue }, poison := t.poison, l2 := t.l2 } ∧
      ((∀ l, spFind? s.l2 (sector / 4) = some l → l.dirty.getLsbD (sector % 4) = false) → t.l2 = s.l2 ∧
        ∀ k, k ∈ t.poison ↔ k ∈ s.poison ∨ k = sector)) ∧
  (∀ r, homeOk r = true → exec (.homeSliceAccess r) s = .next (homeServe s r)) ∧
  (∀ r, homeOk r = true → r.kind = .load → gPoisoned s r.pa r.width = false →
    ∃ t, exec (.homeSliceAccess r) s = .next t ∧
      t = { s with replies := s.replies ++ [(r.pa, some (gReadNat s r.pa r.width))], l2 := t.l2, free := t.free })

/-- R391 to R393, R396 to R398, R402 to R404, R411 to R418, R423 to R445, R465, R467, R519, R523 to R525, R528 to R533, R559: what arrives on links and ports is taken: grid messages
that reach this device or answer it, flits and what they say of their link, the loss of a plane, expert rows and their answers, close
markers and loads, the pager's fetches, and segments, acknowledgements and timeouts of the network engine.
The model's readings: logs 24, 25, 39, 41, 42, 43, 45, 47, 52, 69. -/
def Obligations.EventsOfMessages : Prop := ∀ (s : State) (m : GMsg),
  (∀ busy, reachesHere s m = true →
    exec (.gstLineReceive m) s = .next (requestIn s { kind := 0, msg := m }) ∧
    exec (.gldRequestReceive m) s = .next (requestIn s { kind := 1, msg := m }) ∧
    exec (.gatomRequestReceive m busy) s = .next (requestIn s { kind := 4, msg := m } busy) ∧
    exec (.gcopyLineReceive m) s = .next (requestIn s { kind := 8, msg := m })) ∧
  (∀ busy, rootHere s m = true →
    exec (.gredContributionReceive { msg := m, busy }) s = .next (requestIn s { kind := 3, msg := m } busy) ∧
    exec (.gscanContributionReceive m) s = .next (requestIn s { kind := 6, msg := m })) ∧
  (answersHere s m = true →
    exec (.gldReplyReceive m) s = .next (answerIn s { kind := 2, msg := m }) ∧
    exec (.gatomReplyReceive m) s = .next (answerIn s { kind := 5, msg := m }) ∧
    exec (.gscanReplyReceive m) s = .next (answerIn s { kind := 7, msg := m }) ∧
    exec (.acknowledgementReceive m) s = .next (answerIn s { kind := 9, msg := m }) ∧
    exec (.refusalReceive m) s = .next (answerIn s { kind := 11, msg := m })) ∧
  (∀ x ∈ s.landings, landingDue s x = true → exec .gcopyHeldDelivery s = .next (deliverLandings s)) ∧
  (∀ (src : BitVec 20) (k : MarkerId), s.unreachable = false → gridValid s = true →
    src.toNat ≠ selfLin s → src.toNat < gridDevices s →
    exec (.releaseMarkerReceive src k) s = .next (markerIn s (markerMsg src.toNat k.tag.toNat k.ctx.toNat k.plane.toNat))) ∧
  (∀ (p : BitVec 3), s.deadPlanes.getLsbD p.toNat = false → exec (.planeLossReport p) s = .next (failPlane s p.toNat)) ∧
  (∀ (k : BitVec 6), let l := getLink s k.toNat
    l.up = true →
    (∀ (vc : BitVec 3) (crd : BitVec 6), exec (.idleFlitReceive k vc crd) s = .next (pump s k.toNat
      { l with rx := l.rx + 1, spent := spPut 0 l.spent vc.toNat (spGet 0 l.spent vc.toNat - crd.toNat) })) ∧
    (∃ t, exec (.reservedVcFlit k) s = .next t ∧ (getLink t k.toNat).errors = l.errors + 1 ∧ (getLink t k.toNat).rx = l.rx + 1 ∧
      t.mem = s.mem ∧ t.blocks = s.blocks) ∧
    (∃ t, exec (.flitCrcFailure k) s = .next t ∧ t.ctlOut = s.ctlOut ++ [.replay k.toNat l.rx] ∧ (getLink t k.toNat).rx = l.rx) ∧
    (∀ (q : BitVec 8) pre w post, l.kept = pre ++ w :: post → w.flit.fseq = q → (∀ x ∈ pre, x.flit.fseq ≠ q) →
      (l.fails < 16 → exec (.linkReplayRequest k q) s = .next
        { putLink s k.toNat { l with fails := l.fails + 1, flits := l.flits + (post.length + 1) } with
          flitsOut := s.flitsOut ++ (w :: post).map fun x => (k.toNat, x.flit) }) ∧
      exec (.linkFlitAcknowledge k q) s = .next (putLink s k.toNat { l with kept := post, fails := 0 })) ∧
    (16 ≤ l.fails → exec (.linkDown k) s = .next (downLink s k.toNat)) ∧
    (∀ q : BitVec 8, ∃ t, exec (.linkFailoverNotice k q) s = .next t ∧ (getLink t k.toNat).moved = some q ∧
      (getLink t k.toNat).rx = l.rx + 1) ∧
    (2 ^ 16 ≤ l.flits → ∃ t, exec (.auditFlitSend k) s = .next t ∧ t.ctlOut = s.ctlOut ++ [.audit k.toNat] ∧ t.mem = s.mem) ∧
    (∀ (vc : BitVec 3) n, Config.initialCredits k.toNat vc.toNat + flying l vc.toNat = n + spGet 0 l.spent vc.toNat →
      exec (.creditAuditReceive k vc n) s = .next (takeFlit s k.toNat)) ∧
    (∀ (vc : BitVec 3) n, Config.initialCredits k.toNat vc.toNat + flying l vc.toNat ≠ n + spGet 0 l.spent vc.toNat →
      exec (.creditAuditReceive k vc n) s = .next (retrain (takeFlit s k.toNat) k.toNat)) ∧
    (s.unreachable = true → ∃ t, exec (.unreachableMark k) s = .next t ∧ t.ctlOut = s.ctlOut ++ [.unreachable k.toNat] ∧ t.mem = s.mem)) ∧
  (∀ (r : TokenRow), s.unreachable = false → bankFree s r.gate r.batch = true →
    exec (.tokenRowReceive r) s = .next (rowArrives (fromXLink s (.row (selfLin s) r)) r)) ∧
  (∀ (r : RowReply) d i, d ∈ s.dispatches → d.op = r.op → replySlot d r = some i →
    let u := rowReply (fromXLink s (.reply (selfLin s) r)) r
    ((∃ n, r.answer = .granted n) → exec (.rowAcceptanceReceive r) s = .next u) ∧
    ((∀ n, r.answer ≠ .granted n) → exec (.rowRefusalReceive r) s = .next u)) ∧
  (∀ d, (s.dispatches.find? fun x => x.op == d.op) = some d → (∀ x ∈ d.slots, x.settled = true) →
    exec (.gdispatchComplete d.op) s = .next (dispatchDone s d)) ∧
  (∀ (slot : BitVec 3) g, spFind? s.gates slot.toNat = some g →
    (∀ d rest, g.toClose = d :: rest → markReady s slot.toNat (gOrdered (gateWord g)) d = true →
      exec (.closeMarkerSend slot) s = .next (sendMark s slot.toNat g d)) ∧
    (s.unreachable = false → ∀ batch loads, exec (.loadMulticastReceive slot batch loads) s =
      .next (takeLoads (fromXLink s (.loads [selfLin s] slot.toNat batch loads)) slot.toNat batch loads)) ∧
    (∀ b, g.batches.find? roundReady = some b → gOrdered (gateWord g) = true →
      exec (.orderedRoundClose slot) s = .next (closeRound s slot.toNat g b)) ∧
    ∀ (bank : BitVec 1) b, bankBatch g bank.toNat = some b →
      (b.closeDone = true → b.live = 0 → exec (.fillCounterReset slot bank) s = .next (resetBank s slot.toNat g b)) ∧
      ∀ e q, tileReady s g b e q = true → exec (.tileSpawn slot bank e q) s = .next (spawnTile s slot.toNat g b e q)) ∧
  (∀ (slot : BitVec 3) batch src last dests, s.unreachable = false → bankFree s slot.toNat batch = true → src ∈ dests → selfLin s ∈ dests →
    exec (.closeMarkerReceive slot batch src last dests) s =
      .next (closeMark (fromXLink s (.close dests slot.toNat batch src last)) slot.toNat batch src last dests)) ∧
  (∀ (slot : BitVec 3) e g, markWaiter s slot.toNat = some e → markFree s slot.toNat = true →
    let u := wakeFrag s e.ref
    fetched u (refresh u e) = .ok (.mbmark g) →
    exec (.mbmarkCommit slot) s = .next (finish u (refresh u e) 8 (markAct u (refresh u e) g true))) ∧
  (∀ (i : BitVec 14),
    (∀ t f, fetchReady s i.toNat = true → fetchFrames s i.toNat = some (t, f) → exec (.pagerFetchComplete i) s = .next (fetchDone t i.toNat f)) ∧
    (∀ f, runningFetch s i.toNat = some f → exec (.fetchAttemptFail i) s = .next (settleCloses
      (attemptFails s f (srcOk (ertEntry s i.toNat) && (fetchFrames s i.toNat).isNone)))) ∧
    (ertState (ertEntry s i.toNat) = 4 → exec (.evictUnmapComplete i) s = .next (evictDone s i.toNat))) ∧
  (∀ q, (s.sends.find? fun x => x.op == q.op) = some q → sendReady s q = true → exec (.npostStart q.op) s = .next (startSend s q)) ∧
  (s.livePorts ≠ 0 →
    (∀ g : NeSeg, inLehr s = false → (g.op ≤ 3 ∨ g.op = 5) → g.part < g.nparts → g.part ≤ g.psn → 1 ≤ g.size →
      exec (.neSegmentReceive g) s = .next (segArrives s g)) ∧
    (∀ (a : NeAck) c, ackChan s a = some c → exec (.neAckReceive a) s = .next (ackArrives s c a)) ∧
    (∀ op part q g, openSeg s op part = some (q, g) → exec (.neRetransmitTimeout op part) s = .next (resend s q g true)) ∧
    (∀ op q, (s.sends.find? fun q => q.op == op && q.begun) = some q → ∃ t, exec (.neNotReadyReceive op) s = .next t ∧
      ((∀ g ∈ q.segs, g.acked = true) → t = s) ∧
      (∀ g, (q.segs.filter fun x => !x.acked) = [g] → openSeg s op g.part = some (q, g) → t = resend s q g false))) ∧
  (∀ op r, (s.receives.find? fun x => x.op == op && x.msg.isSome) = some r → exec (.neReceiveTimeout op) s = .next (finishRecv s r 4 0)) ∧
  (∀ id n c, chanById s id = some c → exec (.neAbortReceive id n) s = .next (abortArrives s c n))

/-- R1, R25, R26, R31, R142, R153, R157, R158, R193, R449, R452, R454, R474, R475, R477 to R479, R526, R554 to R558: what the host, the management processor and the clocks do:
doorbells and register writes, accesses to device memory and snoops, requests that meet a migration, the loss of the link, reports,
meters, islands, and the resets.
The model's readings: logs 8, 11, 23, 26, 27, 37, 38, 68. -/
def Obligations.EventsOfTheHost : Prop := ∀ (s : State),
  (hostUp s = true → s.planeWrite = none → inLehr s = false →
    (∀ (q : BitVec 8) (p : Word), exec (.hostQueueDoorbell q p) s = .next (doorbell s q.toNat p)) ∧
    (∀ mask, exec (.hqerrClear mask) s = .next (hqerrWrite s mask)) ∧
    (∀ (n : BitVec 4) x, exec (.hostSysregWrite n x) s = .next (hostSysWrite s n.toNat x.toNat)) ∧
    (∀ x, exec (.hostRegisterWrite 0x10 x) s = .next { s with hi := { s.hi with ctxtab := x &&& tabMask } } ∧
      exec (.hostRegisterWrite 0x18 x) s = .next { s with hi := { s.hi with hqtab := x &&& tabMask } } ∧
      exec (.hostRegisterWrite 0x28 x) s = .next { s with hi := { s.hi with biastab := x &&& tabMask } } ∧
      exec (.hostRegisterWrite 0 x) s = .next s ∧ exec (.hostRegisterWrite 8 x) s = .next s)) ∧
  (hostUp s = true → s.planeWrite = none → inLehr s = true → ∀ (q : BitVec 8) (p : Word) (n : BitVec 4) x,
    ∀ i ∈ [Instr.hostQueueDoorbell q p, .hqerrClear x, .hostSysregWrite n x, .hostRegisterWrite 0x10 x], exec i s = .next s) ∧
  (∀ y, s.planeWrite = some y → gridQuiet s = true → exec (.hostSysregWrite 4 y) s = .next (setPlanemap s y)) ∧
  (∀ r, hostUp s = true → homeOk r = true → deviceMemory r.pa = true →
    (inLehr s = true → (r.kind = .load ∨ r.kind = .store) →
      exec (.hostMemoryAccess r) s = .next { s with replies := s.replies ++ [(r.pa, none)] }) ∧
    (inLehr s = false → r.kind = .store → exec (.hostMemoryAccess r) s = .next (gWriteNat (homeTouch s r.pa r.width).1 r.pa r.width r.data)) ∧
    (inLehr s = false → r.kind = .load → gPoisoned s r.pa r.width = false → ∃ t, exec (.hostMemoryAccess r) s = .next t ∧
      t = { s with replies := s.replies ++ [(r.pa, some (gReadNat s r.pa r.width))], l2 := t.l2, free := t.free })) ∧
  (∀ line, hostUp s = true → tierOf line = some .host → line % 128 = 0 →
    (inLehr s = true → ∀ v, exec (.cxlCacheSnoop line v) s = .next { s with replies := s.replies ++ [(line, none)] }) ∧
    (inLehr s = false → gPoisoned s line 128 = false →
      let t := { s with replies := s.replies ++ [(line, some (gReadNat s line 128))] }
      exec (.cxlCacheSnoop line false) s = .next t ∧ exec (.cxlCacheSnoop line true) s = .next (recallLine t line))) ∧
  (hostUp s = true → ∃ t, exec .hostLinkDown s = .next t ∧ t = { s with hi := t.hi } ∧ t.hi.mbhost.getLsbD 32 = true ∧
    t.hi.hqerr = BitVec.allOnes 64 ∧ t.hi.histat.getLsbD 3 = true ∧ ∀ q, q < 256 → (getQueue t q).stopped = true) ∧
  (∀ (ctx : BitVec 16) (va : DWord) r,
    (∀ pa, xlate s ctx.toNat false (homeNeed r.kind) va.toNat = .ok pa → homeOk { r with pa := pa } = true →
      exec (.migrationResend ctx va (.request r)) s = .next (homeServe s { r with pa := pa })) ∧
    (∀ c d, xlate s ctx.toNat false (homeNeed r.kind) va.toNat = .error c → movedTo s ctx.toNat va.toNat = some d →
      homeOk { r with pa := va.toNat % 128 } = true → exec (.migrationResend ctx va (.request r)) s = .next (resendGrid s ctx.toNat va.toNat r d)) ∧
    (∀ t, treeKind t = 3 ∨ treeKind t = 4 → (treeMsg t).ctx = ctx.toNat → (treeMsg t).addr = va.toNat →
      exec (.migrationResend ctx va (.combined t)) s = .next (serveTree s t))) ∧
  (∀ u : BitVec 11, exec (.shadowFlushTimer u) s = .next (flushWhere s fun h => h.unit == u.toNat)) ∧
  (∀ (n : BitVec 8), islandOff s n.toNat = false →
    (∀ nj, ∃ t, exec (.energyInterval n nj) s = .next t ∧ (spGet Island.reset t.islands n.toNat).meter = (islandOf s n.toNat).meter + nj) ∧
    (∀ mv mhz, exec (.islandSet n mv mhz) s = .next (putIsland s n.toNat { islandOf s n.toNat with mv, mhz }))) ∧
  (let tells := fun (i : Instr) (bs : List Byte) => exec i s = .next { s with mgmtOut := s.mgmtOut ++ [bs] }
   tells .mctpStatus (leBytes 8 s.hi.histat.toNat ++ (List.range 512).flatMap fun i => leBytes 8 (mailbox s (0x2000 + 8 * i))) ∧
   tells .mctpIslandTelemetry ((List.range 256).flatMap (islandBytes s)) ∧
   tells .mctpSelfTestReport ((List.range 192).flatMap (fun n => leBytes 2 (physCore s n)) ++ leBytes 8 s.hi.mbstat.toNat ++
     leBytes 8 s.hi.mbrepair.toNat ++ s.hi.mblog.flatMap fun e => leBytes 16 e.toNat) ∧
   tells .spdmGetCertificate Config.certificate ∧
   (∀ x, tells (.spdmChallenge x) (signed x Config.certificate) ∧ tells (.spdmGetMeasurements x) (signed x Config.measurements)) ∧
   (inLehr s = false → ∀ (ctx : BitVec 16) x,
     tells (.mctpReadCounters ctx) ((contextCounters s ctx.toNat).getD []) ∧
     (contextCounters s ctx.toNat = none → tells (.mctpSignedSnapshot ctx x) []) ∧
     ∀ cs, contextCounters s ctx.toNat = some cs → exec (.mctpSignedSnapshot ctx x) s = .next
       { s with snapshots := s.snapshots + 1, mgmtOut := s.mgmtOut ++ [snapshotRecord (s.snapshots + 1) ctx.toNat x cs] })) ∧
  (∀ o, ∃ t, exec (.coldReset o) s = .next t ∧ t.blocks = [] ∧ t.launches = [] ∧ t.sys = State.reset.sys ∧ t.hi.mbreset = State.reset.hi.mbreset ∧
    t.remap = Remap.fuses ∧ ∀ c ∈ t.mem, tierOf c.1 = some .host) ∧
  (∀ o, ∀ x ∈ [(Instr.warmResetFlr o, 1), (.warmResetSecondaryBus o, 2), (.warmResetMp o, 3)], ∃ t, exec x.1 s = .next t ∧ t.blocks = [] ∧
    t.launches = [] ∧ t.sys = State.reset.sys ∧ t.remap = Remap.fuses ∧ t.hi.mbreset.toNat / 2 ^ 32 % 256 = x.2 ∧
    t.hi.mbreset.toNat % 2 ^ 32 = min (s.hi.mbreset.toNat % 2 ^ 32 + 1) (2 ^ 32 - 1))

/-! ## The whole machine -/

/-- R397, R449, R453, R555, R558, R559: after reset every host-interface register, every system register and every mailbox register that the spec gives a reset
value holds it: 12 in DETQ, 0x0000_00FF_7654_3210 in PLANEMAP, 1 in BUDGETCFG, HIID as fused, zero in the others; the device is
unreachable; and memory is in canonical form with nothing listed. -/
def Obligations.ResetValues : Prop :=
  (∀ n ∈ [0, 2, 3, 6, 9, 10, 11, 12], sysGet State.reset n = 0) ∧ sysGet State.reset 4 = 0x000000FF76543210#64 ∧
  sysGet State.reset 5 = 12#64 ∧ sysGet State.reset 13 = 1#64 ∧ hostReg State.reset 0 = 0x00000000005896B0 ∧
  (∀ off ∈ [0x08, 0x10, 0x18, 0x20, 0x28], hostReg State.reset off = 0) ∧ (∀ off, 0x2000 ≤ off → off < 0x3000 → hostReg State.reset off = 0) ∧
  State.reset.unreachable = true ∧ gridValid State.reset = false ∧ State.reset.blocks = [] ∧ State.reset.launches = [] ∧
  State.reset.arms = [] ∧ State.reset.channels = [] ∧ State.reset.tlb = [] ∧ State.reset.kennel = [] ∧ State.reset.comb = [] ∧
  State.reset.mem = [] ∧ Memory.wf State.reset.mem = true

/-- R97 to R99, R224, R509, R549: where nothing presses, no event is on the agenda and it is a fragment's turn, the fragment that the scheduler selects starts its run, and the step is its
instruction's: the one that its bytes decode to, or the trap that its fetch takes; bytes that are no instruction are ILLEGAL (05) in
every lane, and a predicate that an error has lost is 0E. A fragment of another quarter issues in the same cycle as its own step. The order of steps is the
model's choice (logs 1, 67): what comes from outside, the domains that stop and the lost write-backs to report are first, then the cycle's other fragments, then an event of the agenda; where no
fragment can issue, or in an event's turn, the device takes an event of its own if one is due. -/
def Obligations.StepRunsDecoded : Prop := ∀ (s : State),
  let calm := s.inputs = [] ∧ s.doomed = [] ∧ s.lost = []
  let c := { s with cur := none }
  let t := { c with tick := s.tick + 1 }
  (∀ e, calm → s.co = [] → s.agenda = [] → s.tick % 2 = 0 → selectFrag t = some e →
    let u := takeTurn t e
    let e' := refresh u e
    (∀ bs, fetchAt u e'.l.ctx (inSup e'.f) e'.f.pc.toNat = .ok bs →
      (∀ i n, decode bs = .instr i n → i.wf = true ∧ (badPreds e' i = false → step s = exec i (withMates u e' i)) ∧
        (badPreds e' i = true → step s = .next (takeTrap u e' (trapAll e' [] 0x0E)))) ∧
      (∀ r, decode bs = .reject r → step s = .next (takeTrap u e' (trapAll e' [] 0x05)))) ∧
    (∀ c va, fetchAt u e'.l.ctx (inSup e'.f) e'.f.pc.toNat = .error (c, va) →
      step s = .next (takeTrap u e' (trapLanes c ((maskLanes e'.p e'.f).map fun l => (l, va)))))) ∧
  (∀ e rest, calm → s.co = e.ref :: rest → issuerAt c e.ref = some e → fragReady c e = true → vectorNext c e = true →
    let u := joinTurn { c with co := rest } e
    ∀ i, fetched u (refresh u e) = .ok i → step s = exec i u) ∧
  (calm → s.co = [] →
    (∀ i rest, s.agenda = i :: rest → step s = exec i { t with agenda := rest }) ∧
    (s.agenda = [] → ∀ u, internalStep t = some u → (s.tick % 2 = 1 ∨ selectFrag t = none) → step s = .next u) ∧
    (s.agenda = [] → internalStep t = none → selectFrag t = none → step s = .next t)) ∧
  (∀ i rest, s.inputs = i :: rest → step s = .next (takeInput { c with inputs := rest } i)) ∧
  (s.inputs = [] → s.doomed ≠ [] → step s = .next (takeDooms c)) ∧
  (s.inputs = [] → s.doomed = [] → s.lost ≠ [] → step s = .next (reportLost c))

/-- R224 to R256: words written out from the encodings: the spec's worked examples, the system short forms, BRA of A32, RETF.retry, SRR of GRIDDESC to s4, FENCE of acquire and release at
device scope, BRV on p1; and words that are none: every bit set, a reserved selector, a reserved op6. -/
def Obligations.DecodeWords : Prop :=
  let none8 : Gen := { dst := .null, nowb := false, pred := { neg := false, idx := 7 }, a := .unused, b := .unused, c := .unused, ty := .i32,
                       rnd := .rne, sat := false, opx := 0, scope := .block, hint := 0 }
  decodeTableWord 16 0x001E = some .nopC16 ∧ decodeTableWord 16 0x003E = some .yieldC16 ∧ decodeTableWord 16 0x005E = some .retC16 ∧
  decodeTableWord 16 0x007E = some .exitC16 ∧
  decodeTableWord 16 0x8894 = some (.faddC16 { vd := 4, src := .s 2 }) ∧
  decodeTableWord 32 0x0C0B0A4D = some (.ffmaF32A32 { vd := 10, nowb := false, a := .v 11, b := .v 12 }) ∧
  decodeTableWord 32 0x06050441 = some (.faddF32A32 { vd := 4, nowb := false, a := .v 5, b := .v 6 }) ∧
  decodeTableWord 64 0x000C7FF80AD0514B = some (.fmul { none8 with dst := .v 20, pred := { neg := true, idx := 2 }, a := .v 21,
                                                                   b := .c 0, ty := .f32, rnd := .rtz }) ∧
  decodeTableWord 64 0x0010000804100DC7 = some (.st { data := .v 3, nowb := false, pred := { neg := false, idx := 2 }, base := .v 8, off := 16,
                                                      width := .b32, order := .plain, scope := .block, sel := 0, ext := 0 }) ∧
  decodeTableWord 32 0x000020E1 = some (.braA32 0x20) ∧
  decodeTableWord 64 0x00007FFFFFBBFFA3 = some (.retfRetry none8) ∧
  decodeTableWord 64 0x00807FFFFFBA1383 = some (.srr { none8 with dst := .s 4, opx := 2 }) ∧
  decodeTableWord 64 0x04C07FFFFFBBFDEB = some (.fence { none8 with opx := 3, scope := .device }) ∧
  decodeTableWord 64 0x000100000808000F = some (.brv { pred := { neg := false, idx := 1 }, toff := 0x10, joff := 0x20 }) ∧
  decodeTableWord 64 0xFFFFFFFFFFFFFFFF = none ∧ decodeTableWord 16 0x009E = none ∧ decodeTableWord 32 0x000000F9 = none

/-- R224, R240, R245, R248 to R253, R226, R230: for every instruction of a pack, whatever its operands, as long as its entry accepts them: decoding the bytes of its encoding gives it
back, with its length, whatever bytes follow. -/
def Obligations.DecodeOfEncode : Prop := ∀ (i : Instr) (more : List Byte), i.wf = true → i.parcels ≠ 0 →
  decode (encodeBytes i ++ more) = .instr i i.parcels

/-- R122, R123 (and log 2 for what an unlisted byte reads as): every step keeps memory in its canonical form, addresses strictly rising and no entry that equals what an
unlisted byte reads as, from any state. -/
def Obligations.StepKeepsMemoryCanonical : Prop := ∀ (s t : State), Memory.wf s.mem = true → step s = .next t →
  Memory.wf t.mem = true
end

