-- ==== Sys2Proof/Laws/Sparse.lean ====
section
/-! SUPPORT. Laws of the sparse stores: a read after a write, and that the operations keep the canonical form. -/

namespace Sys2Proof.Laws

open Sys2Proof.Machine

variable {α : Type}

theorem spGet_spSet (d : α) (l : List (Nat × α)) (i j : Nat) (v : α) :
    spGet d (spSet l i v) j = if j = i then v else spGet d l j := by
  induction l with
  | nil => simp [spSet, spGet]
  | cons e l ih =>
    obtain ⟨k, u⟩ := e
    by_cases h1 : i < k
    · simp only [spSet, if_pos h1, spGet]
    · by_cases h2 : i = k
      · subst h2
        simp only [spSet, if_neg h1, if_true, spGet]
        split <;> rfl
      · simp only [spSet, if_neg h1, if_neg h2, spGet, ih]
        by_cases h3 : j = k
        · simp [h3, Ne.symm h2]
        · simp [h3]

theorem spGet_spDel (d : α) (l : List (Nat × α)) (i j : Nat) :
    spGet d (spDel l i) j = if j = i then d else spGet d l j := by
  induction l with
  | nil => simp [spDel, spGet]
  | cons e l ih =>
    obtain ⟨k, u⟩ := e
    unfold spDel at ih ⊢
    by_cases h : k = i
    · subst h
      simp only [List.filter_cons, bne_self_eq_false, Bool.false_eq_true, if_false, ih, spGet]
      split <;> rfl
    · simp only [List.filter_cons, bne_iff_ne, ne_eq, h, not_false_eq_true, if_true, spGet, ih]
      by_cases h3 : j = k
      · simp [h3, h]
      · simp [h3]

/-- A read after a write: the value at the key written, the old value elsewhere. -/
theorem spGet_spPut [DecidableEq α] (d : α) (l : List (Nat × α)) (i j : Nat) (v : α) :
    spGet d (spPut d l i v) j = if j = i then v else spGet d l j := by
  unfold spPut
  split
  · subst_vars; exact spGet_spDel _ l i j
  · exact spGet_spSet d l i j v

theorem spFind?_spSet (l : List (Nat × α)) (i j : Nat) (v : α) :
    spFind? (spSet l i v) j = if j = i then some v else spFind? l j := by
  induction l with
  | nil => simp [spSet, spFind?]
  | cons e l ih =>
    obtain ⟨k, u⟩ := e
    by_cases h1 : i < k
    · simp only [spSet, if_pos h1, spFind?]
    · by_cases h2 : i = k
      · subst h2
        simp only [spSet, if_neg h1, if_true, spFind?]
        split <;> rfl
      · simp only [spSet, if_neg h1, if_neg h2, spFind?, ih]
        by_cases h3 : j = k
        · simp [h3, Ne.symm h2]
        · simp [h3]

theorem spFind?_spDel (l : List (Nat × α)) (i j : Nat) :
    spFind? (spDel l i) j = if j = i then none else spFind? l j := by
  induction l with
  | nil => simp [spDel, spFind?]
  | cons e l ih =>
    obtain ⟨k, u⟩ := e
    unfold spDel at ih ⊢
    by_cases h : k = i
    · subst h
      simp only [List.filter_cons, bne_self_eq_false, Bool.false_eq_true, if_false, ih, spFind?]
      split <;> rfl
    · simp only [List.filter_cons, bne_iff_ne, ne_eq, h, not_false_eq_true, if_true, spFind?, ih]
      by_cases h3 : j = k
      · simp [h3, h]
      · simp [h3]

/-! ## The canonical form -/

theorem spWfFrom_mono [DecidableEq α] (d : α) {lo lo' : Nat} (h : lo' ≤ lo) {l : List (Nat × α)}
    (w : spWfFrom d lo l = true) : spWfFrom d lo' l = true := by
  cases l with
  | nil => rfl
  | cons e l =>
    simp only [spWfFrom, Bool.and_eq_true, decide_eq_true_eq] at w ⊢
    exact ⟨⟨by omega, w.1.2⟩, w.2⟩

theorem spWfFrom_spSet [DecidableEq α] (d : α) {lo i : Nat} {v : α} (hv : v ≠ d) (hi : lo ≤ i) {l : List (Nat × α)}
    (w : spWfFrom d lo l = true) : spWfFrom d lo (spSet l i v) = true := by
  induction l generalizing lo with
  | nil => simp [spSet, spWfFrom, hi, hv]
  | cons e l ih =>
    obtain ⟨k, u⟩ := e
    simp only [spWfFrom, Bool.and_eq_true, decide_eq_true_eq, Bool.not_eq_true', beq_eq_false_iff_ne, ne_eq] at w
    by_cases h1 : i < k
    · simp only [spSet, if_pos h1, spWfFrom, Bool.and_eq_true, decide_eq_true_eq, Bool.not_eq_true', beq_eq_false_iff_ne,
        ne_eq]
      exact ⟨⟨hi, hv⟩, ⟨by omega, w.1.2⟩, w.2⟩
    · by_cases h2 : i = k
      · simp only [spSet, if_neg h1, if_pos h2, spWfFrom, Bool.and_eq_true, decide_eq_true_eq, Bool.not_eq_true',
          beq_eq_false_iff_ne, ne_eq]
        exact ⟨⟨hi, hv⟩, by rw [h2]; exact w.2⟩
      · simp only [spSet, if_neg h1, if_neg h2, spWfFrom, Bool.and_eq_true, decide_eq_true_eq, Bool.not_eq_true',
          beq_eq_false_iff_ne, ne_eq]
        exact ⟨w.1, ih (by omega) w.2⟩

theorem spWfFrom_filter [DecidableEq α] (d : α) (p : Nat × α → Bool) {lo : Nat} {l : List (Nat × α)}
    (w : spWfFrom d lo l = true) : spWfFrom d lo (l.filter p) = true := by
  induction l generalizing lo with
  | nil => rfl
  | cons e l ih =>
    simp only [spWfFrom, Bool.and_eq_true, decide_eq_true_eq] at w
    rw [List.filter_cons]
    split
    · simp only [spWfFrom, Bool.and_eq_true, decide_eq_true_eq]
      exact ⟨w.1, ih w.2⟩
    · exact spWfFrom_mono d (by omega) (ih w.2)

/-- A write keeps the canonical form. -/
theorem spWf_spPut [DecidableEq α] (d : α) {l : List (Nat × α)} (w : spWf d l = true) (i : Nat) (v : α) :
    spWf d (spPut d l i v) = true := by
  unfold spPut
  split
  · exact spWfFrom_filter d _ w
  · rename_i hv; exact spWfFrom_spSet d hv (Nat.zero_le i) w

/-- Stores in canonical form that read alike are equal. -/
theorem spWfFrom_ext [DecidableEq α] (d : α) {lo : Nat} {l m : List (Nat × α)} (wl : spWfFrom d lo l = true)
    (wm : spWfFrom d lo m = true) (h : ∀ i, spGet d l i = spGet d m i) : l = m := by
  have below : ∀ {lo : Nat} {l : List (Nat × α)} {i : Nat}, spWfFrom d lo l = true → i < lo → spGet d l i = d := by
    intro lo l i w hi
    induction l generalizing lo with
    | nil => rfl
    | cons e l ih =>
      simp only [spWfFrom, Bool.and_eq_true, decide_eq_true_eq] at w
      rw [spGet, if_neg (by omega)]
      exact ih w.2 (by omega)
  induction l generalizing m lo with
  | nil =>
    cases m with
    | nil => rfl
    | cons e m =>
      simp only [spWfFrom, Bool.and_eq_true, Bool.not_eq_true', beq_eq_false_iff_ne, ne_eq] at wm
      have := h e.1
      simp only [spGet, if_true] at this
      exact absurd this.symm wm.1.2
  | cons e l ih =>
    have wl' := wl
    simp only [spWfFrom, Bool.and_eq_true, decide_eq_true_eq, Bool.not_eq_true', beq_eq_false_iff_ne, ne_eq] at wl
    cases m with
    | nil =>
      have := h e.1
      simp only [spGet, if_true] at this
      exact absurd this wl.1.2
    | cons f m =>
      have wm' := wm
      simp only [spWfFrom, Bool.and_eq_true, decide_eq_true_eq, Bool.not_eq_true', beq_eq_false_iff_ne, ne_eq] at wm
      obtain ⟨k, u⟩ := e
      obtain ⟨k', u'⟩ := f
      have hk : k = k' := by
        rcases Nat.lt_trichotomy k k' with hlt | heq | hgt
        · have := h k
          simp only [spGet, if_true, if_neg (Nat.ne_of_lt hlt)] at this
          rw [below wm.2 (by omega)] at this
          exact absurd this wl.1.2
        · exact heq
        · have := h k'
          simp only [spGet, if_true, if_neg (Nat.ne_of_lt hgt)] at this
          rw [below wl.2 (by omega)] at this
          exact absurd this.symm wm.1.2
      subst hk
      have hu : u = u' := by simpa [spGet] using h k
      subst hu
      congr 1
      refine ih wl.2 wm.2 fun i => ?_
      by_cases hi : i = k
      · subst hi
        rw [below wl.2 (by omega), below wm.2 (by omega)]
      · simpa [spGet, hi] using h i

/-! ## Replacing one element -/

theorem find?_replaceFirst {p : α → Bool} {x y : α} (hx : p x = true) {l : List α} (h : l.find? p = some y) :
    (replaceFirst p x l).find? p = some x := by
  induction l with
  | nil => simp at h
  | cons z l ih =>
    by_cases hz : p z = true
    · simp [replaceFirst, hz, hx]
    · simp only [replaceFirst, if_neg hz, List.find?_cons] at h ⊢
      simp only [Bool.not_eq_true] at hz
      simp only [hz] at h ⊢
      exact ih h

theorem find?_replaceFirst_other {p q : α → Bool} {x : α} (hx : q x = false) (hpq : ∀ y, p y = true → q y = false)
    (l : List α) : (replaceFirst p x l).find? q = l.find? q := by
  induction l with
  | nil => rfl
  | cons z l ih =>
    by_cases hz : p z = true
    · simp [replaceFirst, hz, hx, hpq z hz]
    · simp only [replaceFirst, if_neg hz, List.find?_cons, ih]

end Sys2Proof.Laws
end

