-- ==== Sys2Proof/Laws/Regs.lean ====
section
/-! SUPPORT. Laws of the register accesses: what each read gives after each write, and what a write leaves alone. -/

namespace Sys2Proof.Laws

open Sys2Proof.Machine

theorem slices_modLane_length (p : Pack) (l : Nat) (g : Lane → Lane) :
    (modLane p l g).slices.length = p.slices.length := by simp [modLane]

theorem sliceOf_modify {p : Pack} {k : Nat} (g : Slice → Slice) (j : Nat) :
    sliceOf { p with slices := p.slices.modify k g } j =
      if j = k ∧ k < p.slices.length then g (sliceOf p j) else sliceOf p j := by
  unfold sliceOf
  simp only [List.getD_eq_getElem?_getD, List.getElem?_modify]
  by_cases h : j = k
  · subst h
    by_cases hl : j < p.slices.length <;> simp [hl]
  · simp [h, Ne.symm h]

theorem putLane_getD (ls : List Lane) (i j : Nat) (g : Lane → Lane) (hj : j < 4) :
    (putLane ls i g).getD j {} = if j = i then g (ls.getD j {}) else ls.getD j {} := by
  unfold putLane
  simp [List.getD_eq_getElem?_getD, hj]

/-- A lane after a lane of its pack changed. -/
theorem laneAt_modLane {p : Pack} {l : Nat} (g : Lane → Lane) (h : l / 4 < p.slices.length) (m : Nat) :
    laneAt (modLane p l g) m = if m = l then g (laneAt p l) else laneAt p m := by
  unfold laneAt modLane
  rw [sliceOf_modify]
  by_cases hk : m / 4 = l / 4
  · rw [if_pos ⟨hk, h⟩]
    simp only
    rw [putLane_getD _ _ _ _ (Nat.mod_lt _ (by decide)), hk]
    by_cases hm : m = l
    · subst hm; simp
    · rw [if_neg (by omega), if_neg hm]
  · rw [if_neg (by omega), if_neg (by rintro rfl; exact hk rfl)]

theorem laneAt_congr {p q : Pack} (h : q.slices = p.slices) (l : Nat) : laneAt q l = laneAt p l := by
  simp [laneAt, sliceOf, h]

/-- v after a write of one v register: in the compartment written, the value; elsewhere the old value. -/
theorem getV_putV {p : Pack} {l : Nat} (h : l / 4 < p.slices.length) (sup b : Bool) (r m k : Nat) (x : Word) :
    getV b (putV sup l r x p) m k =
      if m = l ∧ k = r ∧ (b = sup ∨ r < 120) then x else getV b p m k := by
  unfold putV
  generalize hq : (if p.badV.isEmpty then p else { p with badV := p.badV.filter fun b => b != (l, r, sup && decide (120 ≤ r)) }) = q
  have hs : q.slices = p.slices := by subst hq; split <;> rfl
  have hg : getV b p m k = getV b q m k := by simp [getV, laneAt_congr hs]
  rw [hg]
  simp only [getV]
  rw [laneAt_modLane _ (by rw [hs]; exact h)]
  by_cases hm : m = l
  · subst hm
    by_cases hr : r < 120 <;> by_cases hk : k < 120 <;> cases sup <;> cases b <;>
      simp [spGet_spPut, hr, hk, Nat.not_le.2, Nat.not_lt.1] <;> omega
  · simp [hm]

theorem getV_congr {p q : Pack} (h : q.slices = p.slices) (b : Bool) (l r : Nat) : getV b q l r = getV b p l r := by
  simp [getV, laneAt_congr h]

theorem getP_congr {p q : Pack} (h : q.slices = p.slices) (l i : Nat) : getP q l i = getP p l i := by
  simp [getP, laneAt_congr h]

theorem putV_length (sup : Bool) (l r : Nat) (x : Word) (p : Pack) :
    (putV sup l r x p).slices.length = p.slices.length := by
  unfold putV
  simp only [slices_modLane_length]
  split <;> rfl

theorem putVRange_length (sup : Bool) (l r x n : Nat) (p : Pack) :
    (putVRange sup l r x n p).slices.length = p.slices.length := by
  induction n generalizing r x p with
  | zero => rfl
  | succ n ih => rw [putVRange, ih, putV_length]

/-- Word i of a number. -/
theorem word_shift (x i : Nat) (h : 1 ≤ i) : x / 2 ^ 32 / 2 ^ (32 * (i - 1)) = x / 2 ^ (32 * i) := by
  rw [Nat.div_div_eq_div_mul, ← Nat.pow_add]
  congr 2
  omega

theorem getV_putVRange {p : Pack} {l : Nat} (h : l / 4 < p.slices.length) (sup b : Bool) (r x n m k : Nat) :
    getV b (putVRange sup l r x n p) m k =
      if m = l ∧ r ≤ k ∧ k < r + n ∧ (b = sup ∨ k < 120) then BitVec.ofNat 32 (x / 2 ^ (32 * (k - r)))
      else getV b p m k := by
  induction n generalizing r x p with
  | zero => rw [putVRange, if_neg (by omega)]
  | succ n ih =>
    rw [putVRange, ih (by rw [putV_length]; exact h), getV_putV h]
    by_cases hk : k = r
    · subst hk
      rw [if_neg (by omega)]
      by_cases hc : m = l ∧ (b = sup ∨ k < 120)
      · rw [if_pos ⟨hc.1, rfl, hc.2⟩, if_pos ⟨hc.1, le_refl _, by omega, hc.2⟩]
        simp
      · rw [if_neg (fun w => hc ⟨w.1, w.2.2⟩), if_neg (fun w => hc ⟨w.1, w.2.2.2⟩)]
    · rw [if_neg (c := m = l ∧ k = r ∧ (b = sup ∨ r < 120)) (fun w => hk w.2.1)]
      by_cases hc : m = l ∧ r + 1 ≤ k ∧ k < r + 1 + n ∧ (b = sup ∨ k < 120)
      · rw [if_pos hc, if_pos ⟨hc.1, by omega, by omega, hc.2.2.2⟩, ← word_shift x (k - r) (by omega)]
        congr 3
      · rw [if_neg hc, if_neg (fun w => hc ⟨w.1, by omega, by omega, w.2.2.2⟩)]

/-- The fold of a write over the lanes of a list. -/
theorem getV_foldl {outs : List Nat} (val : Nat → Nat) {p : Pack} (h : ∀ l ∈ outs, l / 4 < p.slices.length)
    (sup b : Bool) (r n m k : Nat) :
    getV b ((outs.map fun l => (l, val l)).foldl (fun p x => putVRange sup x.1 r x.2 n p) p) m k =
      if m ∈ outs ∧ r ≤ k ∧ k < r + n ∧ (b = sup ∨ k < 120) then BitVec.ofNat 32 (val m / 2 ^ (32 * (k - r)))
      else getV b p m k := by
  induction outs generalizing p with
  | nil => simp
  | cons a l ih =>
    rw [List.map_cons, List.foldl_cons, ih (by
      intro x hx; rw [putVRange_length]; exact h x (List.mem_cons_of_mem _ hx)),
      getV_putVRange (h a List.mem_cons_self)]
    by_cases hm : m ∈ l
    · by_cases hc : r ≤ k ∧ k < r + n ∧ (b = sup ∨ k < 120)
      · rw [if_pos ⟨hm, hc⟩, if_pos ⟨List.mem_cons_of_mem _ hm, hc⟩]
      · rw [if_neg (fun w => hc w.2), if_neg (fun w => hc w.2), if_neg (fun w => hc w.2)]
    · rw [if_neg (fun w => hm w.1)]
      by_cases ha : m = a
      · subst ha
        by_cases hc : r ≤ k ∧ k < r + n ∧ (b = sup ∨ k < 120)
        · rw [if_pos ⟨rfl, hc⟩, if_pos ⟨List.mem_cons_self, hc⟩]
        · rw [if_neg (fun w => hc w.2), if_neg (fun w => hc w.2)]
      · rw [if_neg (fun w => ha w.1), if_neg (fun w => by
          rcases List.mem_cons.1 w.1 with h | h
          · exact ha h
          · exact hm h)]

theorem getS_putS (sup b : Bool) (r k : Nat) (x : Word) (p : Pack) :
    getS b (putS sup r x p) k = if k = r ∧ (b = sup ∨ r < 56) then x else getS b p k := by
  unfold putS
  generalize hq : (if p.badS.isEmpty then p else { p with badS := p.badS.filter fun b => b != (r, sup && decide (56 ≤ r)) }) = q
  have h1 : q.s = p.s := by subst hq; split <;> rfl
  have h2 : q.sb = p.sb := by subst hq; split <;> rfl
  by_cases hr : r < 56 <;> by_cases hk : k < 56 <;> cases sup <;> cases b <;>
    simp [getS, spGet_spPut, hr, hk, h1, h2, Nat.not_le.2, Nat.not_lt.1] <;> omega

theorem getS_putSRange (sup b : Bool) (r x n k : Nat) (p : Pack) :
    getS b (putSRange sup r x n p) k =
      if r ≤ k ∧ k < r + n ∧ (b = sup ∨ k < 56) then BitVec.ofNat 32 (x / 2 ^ (32 * (k - r))) else getS b p k := by
  induction n generalizing r x p with
  | zero => rw [putSRange, if_neg (by omega)]
  | succ n ih =>
    rw [putSRange, ih, getS_putS]
    by_cases hk : k = r
    · subst hk
      rw [if_neg (by omega)]
      by_cases hc : b = sup ∨ k < 56
      · rw [if_pos ⟨rfl, hc⟩, if_pos ⟨le_refl _, by omega, hc⟩]
        simp
      · rw [if_neg (fun w => hc w.2), if_neg (fun w => hc w.2.2)]
    · rw [if_neg (c := k = r ∧ (b = sup ∨ r < 56)) (fun w => hk w.1)]
      by_cases hc : r + 1 ≤ k ∧ k < r + 1 + n ∧ (b = sup ∨ k < 56)
      · rw [if_pos hc, if_pos ⟨by omega, by omega, hc.2.2⟩, ← word_shift x (k - r) (by omega)]
        congr 3
      · rw [if_neg hc, if_neg (fun w => hc ⟨by omega, by omega, w.2.2⟩)]

theorem setBit7_getLsbD (x : BitVec 7) (i j : Nat) (b : Bool) (hi : i < 7) (hj : j < 7) :
    (setBit7 x i b).getLsbD j = if j = i then b else x.getLsbD j := by
  have h := Nat.testBit_two_pow (n := i) (m := j)
  unfold setBit7
  cases b
  · simp only [Bool.false_eq_true, if_false, BitVec.getLsbD_and, BitVec.getLsbD_not, BitVec.getLsbD_ofNat, hj, decide_true,
      Bool.true_and, h]
    by_cases he : j = i
    · subst he; simp
    · simp [he, Ne.symm he]
  · simp only [if_true, BitVec.getLsbD_or, BitVec.getLsbD_ofNat, hj, decide_true, Bool.true_and, h]
    by_cases he : j = i
    · subst he; simp
    · simp [he, Ne.symm he]

/-- A write to a predicate, in the pack whose mark of an error it has cleared (R509). -/
theorem putP_eq (l i : Nat) (b : Bool) (p : Pack) : ∃ bp, putP l i b p =
    if i = 7 then { p with badP := bp } else modLane { p with badP := bp } l fun ln => { ln with p := setBit7 ln.p i b } := by
  unfold putP
  by_cases h : p.badP.isEmpty
  · exact ⟨p.badP, by simp only [h, if_true]⟩
  · exact ⟨p.badP.filter fun x => x != (l, i), by simp only [h, if_false, Bool.false_eq_true]⟩

theorem putP_length (l i : Nat) (b : Bool) (p : Pack) : (putP l i b p).slices.length = p.slices.length := by
  obtain ⟨bp, h⟩ := putP_eq l i b p
  rw [h]
  split
  · rfl
  · exact slices_modLane_length _ _ _

theorem getP_putP {p : Pack} {l : Nat} (h : l / 4 < p.slices.length) {i j : Nat} (hi : i < 8) (hj : j < 8) (b : Bool)
    (m : Nat) : getP (putP l i b p) m j = if m = l ∧ j = i ∧ i ≠ 7 then b else getP p m j := by
  obtain ⟨bp, he⟩ := putP_eq l i b p
  rw [he, ← getP_congr (show ({ p with badP := bp } : Pack).slices = p.slices from rfl) m j]
  generalize hq : ({ p with badP := bp } : Pack) = q
  have hl : l / 4 < q.slices.length := by subst hq; exact h
  by_cases h7 : i = 7
  · subst h7; simp
  · rw [if_neg h7]
    unfold getP
    rw [laneAt_modLane _ hl]
    by_cases hj7 : j = 7
    · subst hj7; simp [Ne.symm h7]
    · have e1 : (j == 7) = false := by simp [hj7]
      simp only [e1, Bool.false_or]
      by_cases hm : m = l
      · subst hm
        simp only [if_true, true_and, setBit7_getLsbD _ _ _ _ (show i < 7 by omega) (show j < 7 by omega)]
        simp [h7]
      · simp [hm]

theorem getP_foldl {outs : List Nat} (val : Nat → Nat) {p : Pack} (h : ∀ l ∈ outs, l / 4 < p.slices.length)
    {i j : Nat} (hi : i < 8) (hj : j < 8) (m : Nat) :
    getP ((outs.map fun l => (l, val l)).foldl (fun p x => putP x.1 i (x.2 != 0) p) p) m j =
      if m ∈ outs ∧ j = i ∧ i ≠ 7 then val m != 0 else getP p m j := by
  induction outs generalizing p with
  | nil => simp
  | cons a l ih =>
    rw [List.map_cons, List.foldl_cons, ih (by
      intro x hx; rw [putP_length]; exact h x (List.mem_cons_of_mem _ hx)),
      getP_putP (h a List.mem_cons_self) hi hj]
    by_cases hm : m ∈ l
    · by_cases hc : j = i ∧ i ≠ 7
      · rw [if_pos ⟨hm, hc⟩, if_pos ⟨List.mem_cons_of_mem _ hm, hc⟩]
      · rw [if_neg (fun w => hc w.2), if_neg (fun w => hc w.2), if_neg (fun w => hc w.2)]
    · rw [if_neg (fun w => hm w.1)]
      by_cases ha : m = a
      · subst ha
        by_cases hc : j = i ∧ i ≠ 7
        · rw [if_pos ⟨rfl, hc⟩, if_pos ⟨List.mem_cons_self, hc⟩]
        · rw [if_neg (fun w => hc w.2), if_neg (fun w => hc w.2)]
      · rw [if_neg (fun w => ha w.1), if_neg (fun w => by
          rcases List.mem_cons.1 w.1 with h | h
          · exact ha h
          · exact hm h)]

end Sys2Proof.Laws
end

