-- ==== Sys2Proof/Laws/Block.lean ====
section
/-! SUPPORT. Laws of the lookups: blocks, packs, launches and fragments after an update, and what an issuer is. -/

namespace Sys2Proof.Laws

open Sys2Proof.Machine

theorem getBlock_bid {s : State} {n : Nat} {b : Block} (h : getBlock s n = some b) : b.bid = n := by
  simpa using List.find?_some h

theorem getPack_key {b : Block} {i j : Nat} {p : Pack} (h : getPack b i j = some p) : p.pidx = i ∧ p.pos = j := by
  simpa using List.find?_some h

theorem getLaunch_lid {s : State} {n : Nat} {l : Launch} (h : getLaunch s n = some l) : l.lid = n := by
  simpa using List.find?_some h

theorem getBlock_setBlock {s : State} {n : Nat} {b c : Block} (h : getBlock s n = some c) (hb : b.bid = n) :
    getBlock (setBlock s b) n = some b := by
  subst hb
  exact find?_replaceFirst (by simp) h

theorem getBlock_setBlock_other {s : State} {n : Nat} {b : Block} (h : n ≠ b.bid) :
    getBlock (setBlock s b) n = getBlock s n := by
  refine find?_replaceFirst_other (by simp [Ne.symm h]) ?_ _
  intro y hy
  simp only [beq_iff_eq] at hy
  simp [hy, Ne.symm h]

theorem getPack_setPack {b : Block} {i j : Nat} {p q : Pack} (h : getPack b i j = some q) (hi : p.pidx = i)
    (hj : p.pos = j) : getPack (setPack b p) i j = some p := by
  subst hi hj
  exact find?_replaceFirst (by simp) h

theorem getPack_setPack_other {b : Block} {i j : Nat} {p : Pack} (h : ¬ (i = p.pidx ∧ j = p.pos)) :
    getPack (setPack b p) i j = getPack b i j := by
  refine find?_replaceFirst_other ?_ ?_ _
  · simp only [Bool.and_eq_false_iff, beq_eq_false_iff_ne, ne_eq]
    by_cases h1 : p.pidx = i
    · exact .inr fun h2 => h ⟨h1.symm, h2.symm⟩
    · exact .inl h1
  · intro y hy
    simp only [Bool.and_eq_true, beq_iff_eq] at hy
    simp only [hy, Bool.and_eq_false_iff, beq_eq_false_iff_ne, ne_eq]
    by_cases h1 : p.pidx = i
    · exact .inr fun h2 => h ⟨h1.symm, h2.symm⟩
    · exact .inl h1

theorem getLaunch_setLaunch {s : State} {n : Nat} {l m : Launch} (h : getLaunch s n = some m) (hl : l.lid = n) :
    getLaunch (setLaunch s l) n = some l := by
  subst hl
  exact find?_replaceFirst (by simp) h

/-- What an issuer is: the block, the pack, the launch and the fragment at its place. -/
theorem issuerAt_eq {s : State} {r : FragRef} {e : Issuer} :
    issuerAt s r = some e ↔ e.ref = r ∧ getBlock s r.blk = some e.b ∧ getPack e.b r.pidx r.pos = some e.p ∧
      getLaunch s e.b.launch = some e.l ∧ getFrag e.p r.frag = some e.f := by
  unfold issuerAt
  constructor
  · intro h
    split at h
    · simp at h
    · rename_i b hb
      split at h
      · rename_i p l hp hl
        split at h
        · rename_i f hf
          simp only [Option.some.injEq] at h
          subst h
          exact ⟨rfl, hb, hp, hl, hf⟩
        · simp at h
      · simp at h
  · rintro ⟨h0, h1, h2, h3, h4⟩
    obtain ⟨er, eb, ep, ef, el⟩ := e
    simp only at h0 h1 h2 h3 h4
    simp [h0, h1, h2, h3, h4]

theorem issuerAt_setBlock {s : State} {r : FragRef} {e : Issuer} (h : issuerAt s r = some e) {p : Pack} {b : Block}
    {f : Fragment} (hb : b.bid = r.blk) (hl : b.launch = e.b.launch) (hp : getPack b r.pidx r.pos = some p)
    (hf : getFrag p r.frag = some f) :
    issuerAt (setBlock s b) r = some { ref := r, b, p, f, l := e.l } := by
  obtain ⟨-, h1, -, h3, -⟩ := issuerAt_eq.1 h
  exact issuerAt_eq.2 ⟨rfl, getBlock_setBlock h1 hb, hp, by rw [hl]; exact h3, hf⟩

theorem getFrag_setFrag {p : Pack} {i : Nat} {f g : Fragment} (h : getFrag p i = some g) :
    getFrag (setFrag p i f) i = some f := by
  unfold getFrag setFrag at *
  have := (List.getElem?_eq_some_iff.1 h).1
  simp [this]

theorem getFrag_setFrag_other {p : Pack} {i j : Nat} {f : Fragment} (h : i ≠ j) :
    getFrag (setFrag p i f) j = getFrag p j := by
  simp [getFrag, setFrag, h]

end Sys2Proof.Laws
end

