-- ==== Sys2Proof/Laws/Settle.lean ====
section
/-! SUPPORT. What the join check and the split do (R43, R46, R47, R49). -/

namespace Sys2Proof.Laws

open Sys2Proof Sys2Proof.Machine Sys2Proof.Safety

/-- The join check changes a slice's mask and stack only. -/
theorem joinCheck_keeps (n : Nat) (pc : DWord) (sl : Slice) :
    ∃ m st, (joinCheck n pc sl).2 = { sl with mask := m, stack := st } := by
  induction n generalizing pc sl with
  | zero => exact ⟨sl.mask, sl.stack, rfl⟩
  | succ n ih =>
    unfold joinCheck
    split
    · exact ⟨sl.mask, sl.stack, rfl⟩
    · split
      · split
        · obtain ⟨m, st, h⟩ := ih _ _; exact ⟨m, st, h⟩
        · obtain ⟨m, st, h⟩ := ih _ _; exact ⟨m, st, h⟩
      · exact ⟨sl.mask, sl.stack, rfl⟩

/-- The join check reads a slice's mask and stack only. -/
theorem joinCheck_congr (n : Nat) (pc : DWord) {sl sl' : Slice} (hm : sl'.mask = sl.mask) (hs : sl'.stack = sl.stack) :
    (joinCheck n pc sl').1 = (joinCheck n pc sl).1 ∧ (joinCheck n pc sl').2.mask = (joinCheck n pc sl).2.mask ∧
      (joinCheck n pc sl').2.stack = (joinCheck n pc sl).2.stack := by
  induction n generalizing pc sl sl' with
  | zero => exact ⟨rfl, hm, hs⟩
  | succ n ih =>
    unfold joinCheck
    rw [hs]
    split
    · exact ⟨rfl, hm, hs⟩
    · rw [hm]
      split
      · split
        · exact ih _ rfl rfl
        · exact ih _ rfl rfl
      · exact ⟨rfl, hm, hs⟩

/-- Setting slices at listed places. -/
theorem foldl_set_getD {α : Type} (d : α) (g : Nat → α) (ks : List Nat) (l : List α) (h : ∀ k ∈ ks, k < l.length) (j : Nat) :
    ((ks.map fun k => (k, g k)).foldl (fun l e => l.set e.1 e.2) l).getD j d = if j ∈ ks then g j else l.getD j d := by
  induction ks generalizing l with
  | nil => simp
  | cons a ks ih =>
    rw [List.map_cons, List.foldl_cons, ih _ (by
      intro k hk; rw [List.length_set]; exact h k (List.mem_cons_of_mem _ hk))]
    by_cases hj : j ∈ ks
    · simp [hj]
    · by_cases ha : j = a
      · subst ha
        have := h j List.mem_cons_self
        simp [hj, List.getD_eq_getElem?_getD, this]
      · simp [hj, ha, List.getD_eq_getElem?_getD, Ne.symm ha]

theorem foldl_set_length {α : Type} (ks : List (Nat × α)) (l : List α) :
    (ks.foldl (fun l e => l.set e.1 e.2) l).length = l.length := by
  induction ks generalizing l with
  | nil => rfl
  | cons a ks ih => rw [List.foldl_cons, ih, List.length_set]

theorem mem_fragSlices {p : Pack} {f : Fragment} {k : Nat} :
    k ∈ fragSlices p f ↔ k < p.slices.length ∧ f.slices.getLsbD k = true := by
  simp [fragSlices, List.mem_filter]

theorem sliceMask_getLsbD (ks : List Nat) (k : Nat) (h : k < 16) : (sliceMask ks).getLsbD k = decide (k ∈ ks) := by
  have gen : ∀ (l : List Nat) (m : Nat), (l.foldl (fun m k => m ||| 2 ^ k) m).testBit k = (m.testBit k || decide (k ∈ l)) := by
    intro l
    induction l with
    | nil => simp
    | cons a l ih =>
      intro m
      rw [List.foldl_cons, ih, Nat.testBit_or, Nat.testBit_two_pow]
      by_cases ha : a = k
      · simp [ha]
      · simp [ha, Ne.symm ha]
  rw [sliceMask, BitVec.getLsbD_ofNat, gen]
  simp [h]

/-- Every pair of a list is in its group. -/
theorem groupPcs_mem (n : Nat) (l : List (Nat × DWord)) (hn : l.length ≤ n) {k : Nat} {pc : DWord} (h : (k, pc) ∈ l) :
    ∃ g, (pc, g) ∈ groupPcs n l ∧ k ∈ g := by
  induction n generalizing l with
  | zero => simp_all
  | succ n ih =>
    cases l with
    | nil => simp at h
    | cons e l =>
      obtain ⟨k0, pc0⟩ := e
      unfold groupPcs
      by_cases hp : pc = pc0
      · subst hp
        refine ⟨_, List.mem_cons_self, ?_⟩
        rcases List.mem_cons.1 h with h | h
        · simp only [Prod.mk.injEq] at h; simp [h.1]
        · refine List.mem_cons_of_mem _ (List.mem_map.2 ⟨(k, pc), ?_, rfl⟩)
          simp [List.mem_filter, h]
      · have hin : (k, pc) ∈ l.filter fun e => e.2 != pc0 := by
          rcases List.mem_cons.1 h with h | h
          · simp only [Prod.mk.injEq] at h; exact absurd h.2 hp
          · simp [List.mem_filter, h, hp]
        have hlen : (l.filter fun e => e.2 != pc0).length ≤ n := by
          have := List.length_filter_le (fun e : Nat × DWord => e.2 != pc0) l
          simp only [List.length_cons] at hn
          omega
        obtain ⟨g, hg, hk⟩ := ih _ hlen hin
        exact ⟨g, List.mem_cons_of_mem _ hg, hk⟩

/-- Further entries leave those that are in use. -/
theorem putEntry_keeps {p : Pack} {i : Nat} {g : Fragment} (h : getFrag p i = some g) (hg : g.st ≠ .free) (f : Fragment) :
    getFrag (putEntry p (freeEntry p) f) i = some g := by
  have hi : freeEntry p ≠ i := by
    rintro rfl
    unfold freeEntry at h
    cases hf : p.frags.findIdx? (fun f => f.st == FragState.free) with
    | none => rw [hf] at h; simp [getFrag] at h
    | some j =>
      rw [hf] at h
      simp only [Option.getD_some] at h
      obtain ⟨hlt, hj, -⟩ := List.findIdx?_eq_some_iff_getElem.1 hf
      simp only [getFrag, List.getElem?_eq_getElem hlt, Option.some.injEq] at h
      rw [h] at hj
      exact hg (by simpa using hj)
  unfold putEntry
  split
  · rw [getFrag_setFrag_other hi, h]
  · simp only [getFrag] at h ⊢
    have := (List.getElem?_eq_some_iff.1 h).1
    rw [List.getElem?_append_left this, h]

theorem putEntry_has (p : Pack) (f : Fragment) : getFrag (putEntry p (freeEntry p) f) (freeEntry p) = some f := by
  unfold putEntry
  split
  · rename_i h; simp [getFrag, setFrag, h]
  · rename_i h
    have : freeEntry p = p.frags.length := by
      unfold freeEntry at *
      cases hf : p.frags.findIdx? (fun f => f.st == FragState.free) with
      | none => rfl
      | some j =>
        rw [hf] at h
        exact absurd (List.findIdx?_eq_some_iff_getElem.1 hf).1 (by simpa using h)
    simp [getFrag, this]

theorem putEntry_rest (p : Pack) (i : Nat) (f : Fragment) :
    putEntry p i f = { p with frags := (putEntry p i f).frags } := by
  unfold putEntry; split <;> rfl

theorem foldl_putEntry (mk : DWord × List Nat → Fragment) (rest : List (DWord × List Nat)) (p : Pack) :
    (rest.foldl (fun p e => putEntry p (freeEntry p) (mk e)) p) =
      { p with frags := (rest.foldl (fun p e => putEntry p (freeEntry p) (mk e)) p).frags } := by
  induction rest generalizing p with
  | nil => rfl
  | cons a rest ih =>
    rw [List.foldl_cons, ih, putEntry_rest]

theorem foldl_putEntry_keeps (mk : DWord × List Nat → Fragment) (rest : List (DWord × List Nat)) {p : Pack} {i : Nat}
    {g : Fragment} (h : getFrag p i = some g) (hg : g.st ≠ .free) :
    getFrag (rest.foldl (fun p e => putEntry p (freeEntry p) (mk e)) p) i = some g := by
  induction rest generalizing p with
  | nil => exact h
  | cons a rest ih => exact ih (putEntry_keeps h hg _)

theorem foldl_putEntry_has (mk : DWord × List Nat → Fragment) (hm : ∀ e, (mk e).st ≠ .free)
    (rest : List (DWord × List Nat)) (p : Pack) {e : DWord × List Nat} (h : e ∈ rest) :
    ∃ i, getFrag (rest.foldl (fun p e => putEntry p (freeEntry p) (mk e)) p) i = some (mk e) := by
  induction rest generalizing p with
  | nil => simp at h
  | cons a rest ih =>
    rcases List.mem_cons.1 h with rfl | h
    · exact ⟨_, foldl_putEntry_keeps mk rest (putEntry_has p (mk e)) (hm e)⟩
    · exact ih _ h

/-- What the split does: every slice of the fragment stands where its join check puts it; nothing else of the pack changes; the
fragment's entry keeps all but its address and slices. -/
theorem settleFrag_spec {tick : Nat} {p : Pack} {i : Nat} {f : Fragment} (next : Nat → DWord) (hf : getFrag p i = some f)
    (hst : f.st ≠ .free) :
    let q := settleFrag tick p i next
    q = { p with slices := q.slices, frags := q.frags } ∧
    (∀ k, sliceOf q k = if k ∈ movedSlices p f then (joinCheck 10 (next k) (sliceOf p k)).2 else sliceOf p k) ∧
    (∀ k ∈ movedSlices p f, StandsAt q k (joinCheck 10 (next k) (sliceOf p k)).1) ∧
    (getFrag q i = some freeFrag ∨ ∃ pc m, getFrag q i = some (partOf f (fragSlices p f) m pc)) := by
  intro q
  have hq : q = settleFrag tick p i next := rfl
  unfold settleFrag at hq
  rw [hf] at hq
  simp only at hq
  have hks : (fragSlices p f).filter (fun k => (sliceOf p k).live != 0) = movedSlices p f := rfl
  rw [hks] at hq
  generalize hK : movedSlices p f = ks at hq ⊢
  have hlt : ∀ k ∈ ks, k < p.slices.length ∧ k < 16 := by
    intro k hk
    rw [← hK] at hk
    have := mem_fragSlices.1 (List.mem_filter.1 hk).1
    refine ⟨this.1, ?_⟩
    by_contra h
    have := this.2
    rw [BitVec.getLsbD_of_ge _ _ (by omega)] at this
    cases this
  have hlen : ks.length ≤ 16 := by
    have hnd : ks.Nodup := by
      rw [← hK]; exact ((List.nodup_range).filter _).filter _
    have hsub : ks ⊆ List.range 16 := fun k hk => List.mem_range.2 (hlt k hk).2
    simpa using (List.subperm_of_subset hnd hsub).length_le
  have hmv : (ks.map fun k => (k, joinCheck 10 (next k) (sliceOf p k))).foldl (fun l e => l.set e.1 e.2.2) p.slices =
      (ks.map fun k => (k, (joinCheck 10 (next k) (sliceOf p k)).2)).foldl (fun l e => l.set e.1 e.2) p.slices := by
    simp [List.foldl_map]
  rw [hmv] at hq
  generalize hS : (ks.map fun k => (k, (joinCheck 10 (next k) (sliceOf p k)).2)).foldl (fun l e => l.set e.1 e.2) p.slices = sl
    at hq
  have hsl : ∀ k, sl.getD k { lanes := [], mask := 0, live := 0 } =
      if k ∈ ks then (joinCheck 10 (next k) (sliceOf p k)).2 else sliceOf p k := by
    intro k
    rw [← hS, foldl_set_getD _ (fun k => (joinCheck 10 (next k) (sliceOf p k)).2) ks _ (fun k hk => (hlt k hk).1)]
    rfl
  have hgm : ∀ k ∈ ks, ∃ g, ((joinCheck 10 (next k) (sliceOf p k)).1, g) ∈
      groupPcs 16 ((ks.map fun k => (k, joinCheck 10 (next k) (sliceOf p k))).map fun e => (e.1, e.2.1)) ∧ k ∈ g := by
    intro k hk
    refine groupPcs_mem 16 _ (by simpa using hlen) ?_
    simp only [List.map_map, List.mem_map, Function.comp_apply]
    exact ⟨k, hk, rfl⟩
  generalize groupPcs 16 ((ks.map fun k => (k, joinCheck 10 (next k) (sliceOf p k))).map fun e => (e.1, e.2.1)) = gs
    at hq hgm
  cases gs with
  | nil =>
    simp only at hq
    refine ⟨by rw [hq]; rfl, ?_, ?_, ?_⟩
    · intro k
      rw [← hsl k, hq]; rfl
    · intro k hk
      obtain ⟨g, hg, -⟩ := hgm k hk
      simp at hg
    · left
      rw [hq]
      exact getFrag_setFrag (p := { p with slices := sl }) hf
  | cons e rest =>
    obtain ⟨pc, g⟩ := e
    simp only at hq
    generalize hm : g ++ (fragSlices p f).filter (fun k => (sliceOf { p with slices := sl } k).live == 0) = m at hq
    generalize hfs : fragSlices p f = all at hq
    have h0 : getFrag (setFrag { p with slices := sl } i (partOf f all m pc)) i = some (partOf f all m pc) :=
      getFrag_setFrag (p := { p with slices := sl }) hf
    have hkeep := foldl_putEntry_keeps (fun e => { partOf f all e.2 e.1 with running := false, slots := 0, since := tick }) rest h0 hst
    rw [← hq] at hkeep
    have hfr := foldl_putEntry (fun e => { partOf f all e.2 e.1 with running := false, slots := 0, since := tick })
      rest (setFrag { p with slices := sl } i (partOf f all m pc))
    rw [← hq] at hfr
    refine ⟨by rw [hfr]; rfl, ?_, ?_, .inr ⟨_, _, hkeep⟩⟩
    · intro k
      rw [← hsl k, hfr]; rfl
    · intro k hk
      obtain ⟨g', hg', hkg⟩ := hgm k hk
      rcases List.mem_cons.1 hg' with heq | hin
      · simp only [Prod.mk.injEq] at heq
        refine ⟨i, _, hkeep, hst, ?_, heq.1.symm⟩
        have : k ∈ m := by rw [← hm, ← heq.2]; exact List.mem_append_left _ hkg
        simp only [partOf, sliceMask_getLsbD _ _ (hlt k hk).2, this, decide_true]
      · obtain ⟨j, hj⟩ := foldl_putEntry_has
          (fun e => { partOf f all e.2 e.1 with running := false, slots := 0, since := tick })
          (fun _ => hst) rest (setFrag { p with slices := sl } i (partOf f all m pc)) hin
        rw [← hq] at hj
        refine ⟨j, _, hj, hst, ?_, rfl⟩
        simp only [partOf, sliceMask_getLsbD _ _ (hlt k hk).2, hkg, decide_true]

end Sys2Proof.Laws
end

