-- ==== Sys2Proof/Laws/Retire.lean ====
section
/-! SUPPORT. What retirement does (R97, R100, R111): everything it can change, said once. -/

namespace Sys2Proof.Laws

open Sys2Proof Sys2Proof.Machine Sys2Proof.Safety

/-! ## Charging -/

theorem charge_eq (s : State) (u a r n : Nat) :
    charge s u a r n = { s with activity := (charge s u a r n).activity, budget := (charge s u a r n).budget } := rfl

theorem count_eq (s : State) (u r i n : Nat) : count s u r i n = { s with shadows := (count s u r i n).shadows } := rfl

theorem chargeIssue_eq (s : State) (e : Issuer) :
    chargeIssue s e = { s with budget := (chargeIssue s e).budget, shadows := (chargeIssue s e).shadows,
                               activity := (chargeIssue s e).activity } := by
  unfold chargeIssue
  rw [count_eq, charge_eq]

theorem getBlock_congr {s t : State} (h : t.blocks = s.blocks) (n : Nat) : getBlock t n = getBlock s n := by
  simp [getBlock, h]

theorem gByte_congr {s t : State} (hb : t.blocks = s.blocks) (hm : t.mem = s.mem) (a : Nat) : gByte t a = gByte s a := by
  simp [gByte, ownerOf, rawByte, hb, hm]

/-- A block that keeps its lines and its stash leaves every byte of memory as it was. -/
theorem gByte_setBlock {s : State} {b c : Block} (h : getBlock s c.bid = some b) (hl : c.lines = b.lines)
    (hs : c.stash = b.stash) (a : Nat) : gByte (setBlock s c) a = gByte s a := by
  have gen : ∀ (L : List Block), L.find? (fun x => x.bid == c.bid) = some b → ∀ (raw : Byte),
      (match (replaceFirst (fun x => x.bid == c.bid) c L).findSome? fun b => (b.lines.find? fun l => l.pa == a / 128 * 128).map fun l => (b, l) with
        | some (b, l) => if l.written.getLsbD (a % 128) then stashByte b (128 * l.line + a % 128) else raw
        | none => raw) =
      (match L.findSome? fun b => (b.lines.find? fun l => l.pa == a / 128 * 128).map fun l => (b, l) with
        | some (b, l) => if l.written.getLsbD (a % 128) then stashByte b (128 * l.line + a % 128) else raw
        | none => raw) := by
    intro L
    induction L with
    | nil => intro h; simp at h
    | cons x L ih =>
      intro hf raw
      by_cases hx : (x.bid == c.bid) = true
      · simp only [List.find?_cons, hx, Option.some.injEq] at hf
        subst hf
        simp only [replaceFirst, hx, if_true, List.findSome?_cons, hl]
        cases x.lines.find? fun l => l.pa == a / 128 * 128 with
        | none => rfl
        | some l => simp [stashByte, hs]
      · simp only [Bool.not_eq_true] at hx
        simp only [List.find?_cons, hx] at hf
        simp only [replaceFirst, hx, Bool.false_eq_true, if_false, List.findSome?_cons]
        cases x.lines.find? fun l => l.pa == a / 128 * 128 with
        | none => exact ih hf raw
        | some l => rfl
  exact gen s.blocks h (rawByte s a)

theorem putPack_eq {s : State} {n : Nat} {b : Block} (h : getBlock s n = some b) (p : Pack) :
    putPack s n p = setBlock s (setPack b p) := by
  simp [putPack, h]

/-- Putting a pack back changes that pack alone. -/
theorem onlyPack_setBlock {s : State} {r : FragRef} {b : Block} {p q : Pack} (hb : getBlock s r.blk = some b)
    (hp : getPack b r.pidx r.pos = some p) (h1 : q.pidx = p.pidx) (h2 : q.pos = p.pos) :
    OnlyPack s (setBlock s (setPack b q)) r := by
  have hk := getPack_key hp
  have hbid : (setPack b q).bid = r.blk := show b.bid = r.blk from getBlock_bid hb
  refine ⟨rfl, fun n hn => getBlock_setBlock_other (by rw [hbid]; exact hn), ?_, fun a => ?_⟩
  · intro c hc
    rw [hb, Option.some.injEq] at hc
    subst hc
    refine ⟨_, getBlock_setBlock hb hbid, rfl, fun i j hij => getPack_setPack_other ?_⟩
    rw [h1, h2, hk.1, hk.2]; exact hij
  · exact gByte_setBlock (c := setPack b q) (b := b) (by rw [hbid]; exact hb) rfl rfl a

theorem onlyPack_charge {s t : State} {r : FragRef} (h : OnlyPack s t r) (e : Issuer) : OnlyPack s (chargeIssue t e) r := by
  have he := chargeIssue_eq t e
  have hb : (chargeIssue t e).blocks = t.blocks := by rw [he]
  have hm : (chargeIssue t e).mem = t.mem := by rw [he]
  refine ⟨?_, ?_, ?_, ?_⟩
  · generalize chargeIssue t e = u at he
    obtain ⟨hd, -, -, -⟩ := h
    rw [he]
    generalize t.blocks = B, t.budget = U, t.shadows = H, t.activity = A, t.free = C at hd ⊢
    subst hd
    rfl
  · intro n hn; rw [getBlock_congr hb, h.blocks n hn]
  · intro b hb'
    obtain ⟨b', h1, h2⟩ := h.block b hb'
    exact ⟨b', by rw [getBlock_congr hb, h1], h2⟩
  · intro a; rw [gByte_congr hb hm, h.bytes]

/-! ## Retirement -/

theorem burstNext_eq (f : Fragment) :
    burstNext f = { f with burst := (burstNext f).burst, latches := (burstNext f).latches } := by
  unfold burstNext; split
  · rfl
  · split <;> rfl

theorem burstNext_latch (f : Fragment) (k l : Nat) :
    latchVal (burstNext f) k l = latchVal f k l ∧ latchValid (burstNext f) k = latchValid f k := by
  unfold burstNext
  split
  · exact ⟨rfl, rfl⟩
  · split
    · constructor
      · simp only [latchVal, List.getElem?_map]; cases f.latches[k]? <;> rfl
      · simp only [latchValid, List.getElem?_map]; cases f.latches[k]? <;> rfl
    · exact ⟨rfl, rfl⟩

/-- The fragment that an instruction leaves when it retires, before its slices move. -/
def retiredFrag (s : State) (e e' : Issuer) (r : Retire) : Fragment :=
  let f := burstNext { e'.f with latches := shiftLatches e'.f.latches e'.f.burst.isSome r.res }
  let f := match r.hold with
    | some n => { f with burst := some { pc := f.pc, left := n, snap := takeSnapshot e'.p e'.f } }
    | none => f
  let f := { f with burst := f.burst.map (countIn (counts e'.l (inSup f))) }
  let f := { f with slots := f.slots + slotsOf e.f, octs := if f.octPc = f.pc then 0 else f.octs, pub := false, wait := .none,
                     st := .ready, phase := none, evicts := none }
  if r.endRun then { dropLatches f with slots := 64, since := s.tick } else f

theorem retiredFrag_pc (s : State) (e e' : Issuer) (r : Retire) :
    (retiredFrag s e e' r).pc = e'.f.pc ∧ (retiredFrag s e e' r).slices = e'.f.slices ∧
      (retiredFrag s e e' r).st = .ready ∧ (retiredFrag s e e' r).frame = e'.f.frame := by
  unfold retiredFrag
  rw [burstNext_eq]
  cases r.hold <;> cases r.endRun <;> exact ⟨rfl, rfl, rfl, rfl⟩

theorem retiredFrag_latches {s : State} {e e' : Issuer} {r : Retire} (hr : r.endRun = false) (k l : Nat) :
    latchVal (retiredFrag s e e' r) k l =
        latchVal { e'.f with latches := shiftLatches e'.f.latches e'.f.burst.isSome r.res } k l ∧
    latchValid (retiredFrag s e e' r) k =
        latchValid { e'.f with latches := shiftLatches e'.f.latches e'.f.burst.isSome r.res } k := by
  have h := burstNext_latch { e'.f with latches := shiftLatches e'.f.latches e'.f.burst.isSome r.res } k l
  unfold retiredFrag
  rw [hr]
  cases r.hold <;> exact h

theorem countClock_eq (l : Launch) (sup bu : Bool) (p : Pack) :
    countClock l sup bu p = { p with lclock := if l.det && sup then p.lclock else p.lclock + 1,
                                     ended := (countClock l sup bu p).ended } := by
  unfold countClock counts
  by_cases h : (l.det && sup) = true
  · simp only [h, Bool.not_true, Bool.not_false, if_true]
  · simp only [h, Bool.not_not, Bool.false_eq_true, if_false]
    split <;> rfl

/-- Everything that retirement does: it changes the issuer's pack alone, beside what charging records; that pack's slices move by
their join checks; its clock counts; the fragment's entry holds the shifted latches. -/
theorem retire_spec {s : State} {e e' : Issuer} {len : Nat} {r : Retire} (h : issuerAt s e.ref = some e') :
    let t := retire s e len r
    OnlyPack s t e.ref ∧
    ∃ p, packNow t e.ref = some p ∧
      p = { e'.p with slices := p.slices, frags := p.frags, ended := p.ended,
                      lclock := if e'.l.det && inSup e'.f then e'.p.lclock else e'.p.lclock + 1 } ∧
      (∀ k, sliceOf p k = if k ∈ movedSlices e'.p e'.f then
          (joinCheck 10 ((spFind? r.jump k).getD (e'.f.pc + BitVec.ofNat 64 len)) (sliceOf e'.p k)).2 else sliceOf e'.p k) ∧
      Advanced e'.p p e'.f (fun k => (spFind? r.jump k).getD (e'.f.pc + BitVec.ofNat 64 len)) ∧
      (getFrag p e.ref.frag = some freeFrag ∨
        ∃ all m pc, getFrag p e.ref.frag = some (partOf (retiredFrag s e e' r) all m pc)) := by
  intro t
  obtain ⟨h0, h1, h2, h3, h4⟩ := issuerAt_eq.1 h
  have hF := retiredFrag_pc s e e' r
  generalize hFF : retiredFrag s e e' r = F at hF
  -- the pack before its slices move
  generalize hpk : countClock e'.l (inSup F) F.burst.isSome (setFrag e'.p e.ref.frag F) = pk
  have hsup : inSup F = inSup e'.f := by simp [inSup, hF.2.2.2]
  have hpe : pk = { e'.p with frags := e'.p.frags.set e.ref.frag F, ended := pk.ended,
                              lclock := if e'.l.det && inSup e'.f then e'.p.lclock else e'.p.lclock + 1 } := by
    subst hpk
    rw [countClock_eq, hsup]; rfl
  have hfr : getFrag pk e.ref.frag = some F := by
    rw [hpe]; exact getFrag_setFrag (p := e'.p) h4
  have ht : t = chargeIssue (putPack s e.ref.blk (settleFrag s.tick pk e.ref.frag fun k =>
      (spFind? r.jump k).getD (F.pc + BitVec.ofNat 64 len))) e := by
    subst hpk hFF
    simp only [t, retire, h]
    rfl
  obtain ⟨q1, q2, q3, q4⟩ := settleFrag_spec (tick := s.tick) (fun k => (spFind? r.jump k).getD (F.pc + BitVec.ofNat 64 len)) hfr
    (by rw [hF.2.2.1]; simp)
  generalize settleFrag s.tick pk e.ref.frag (fun k => (spFind? r.jump k).getD (F.pc + BitVec.ofNat 64 len)) = q at ht q1 q2 q3 q4
  rw [hF.1] at q2 q3
  have hmv : movedSlices pk F = movedSlices e'.p e'.f := by
    have hs : pk.slices = e'.p.slices := by rw [hpe]
    simp [movedSlices, fragSlices, sliceOf, hs, hF.2.1]
  have hso : ∀ k, sliceOf pk k = sliceOf e'.p k := by
    intro k
    have hs : pk.slices = e'.p.slices := by rw [hpe]
    simp [sliceOf, hs]
  simp only [hmv, hso] at q2 q3
  have hq0 : q = { e'.p with slices := q.slices, frags := q.frags, ended := q.ended,
                             lclock := if e'.l.det && inSup e'.f then e'.p.lclock else e'.p.lclock + 1 } := by
    have hend : q.ended = pk.ended := by rw [q1]
    conv_lhs => rw [q1]
    rw [hend]
    conv_lhs => rw [hpe]
  have hqi : q.pidx = e'.p.pidx ∧ q.pos = e'.p.pos := by constructor <;> rw [hq0]
  have honly : OnlyPack s (putPack s e.ref.blk q) e.ref := by
    rw [putPack_eq h1]
    exact onlyPack_setBlock h1 h2 hqi.1 hqi.2
  refine ⟨by rw [ht]; exact onlyPack_charge honly e, q, ?_, hq0, q2, ?_, q4.imp id fun ⟨pc, m, h⟩ => ⟨_, m, pc, h⟩⟩
  · have hkey := getPack_key h2
    have hce := chargeIssue_eq (putPack s e.ref.blk q) e
    have hbl : (chargeIssue (putPack s e.ref.blk q) e).blocks = (putPack s e.ref.blk q).blocks := by rw [hce]
    unfold packNow
    rw [ht, getBlock_congr hbl, putPack_eq h1, getBlock_setBlock h1 (b := setPack e'.b q) (show e'.b.bid = _ from getBlock_bid h1)]
    exact getPack_setPack h2 (hqi.1.trans hkey.1) (hqi.2.trans hkey.2)
  · intro k hk
    refine ⟨q3 k hk, ?_, ?_⟩ <;> rw [q2 k, if_pos hk]

end Sys2Proof.Laws
end

