-- ==== Sys2Proof/Laws/Sync.lean ====
section
/-! SUPPORT. What the end of a synchronising operation does to the packs (R113): it wakes fragments and moves stamps, and changes
no register, no memory and no device state. -/

namespace Sys2Proof.Laws

open Sys2Proof Sys2Proof.Machine Sys2Proof.Safety

theorem stirred_refl (s : State) : Stirred s s := ⟨rfl, fun _ => rfl, fun _ e h => ⟨e, h, rfl, rfl, rfl, rfl⟩⟩

theorem stirred_trans {s t u : State} (h : Stirred s t) (k : Stirred t u) : Stirred s u := by
  refine ⟨?_, fun a => (k.bytes a).trans (h.bytes a), fun r e he => ?_⟩
  · have hd := h.device
    have kd := k.device
    generalize t.blocks = B, t.launches = L at hd
    subst hd
    exact kd
  · obtain ⟨e1, i1, b1, p1, f1, l1⟩ := h.issuers r e he
    obtain ⟨e2, i2, b2, p2, f2, l2⟩ := k.issuers r e1 i1
    refine ⟨e2, i2, ?_, ?_, ?_, ?_⟩
    · rw [b2, b1]
    · rw [p2, p1]
    · rw [f2, f1]
    · rw [l2, l1]

/-- A pack whose fragments' waits, and whose stamps, changed. -/
theorem stirred_setPack {s : State} {n i j : Nat} {b : Block} {p q : Pack} (hb : getBlock s n = some b)
    (hp : getPack b i j = some p) (hq : q = { p with frags := q.frags, lastSync := q.lastSync, skew := q.skew })
    (hf : ∀ k f, getFrag p k = some f → ∃ f', getFrag q k = some f' ∧
      f' = { f with st := f'.st, wait := f'.wait, gang := f'.gang, since := f'.since }) :
    Stirred s (setBlock s (setPack b q)) := by
  have hk := getPack_key hp
  have hbid : (setPack b q).bid = n := show b.bid = n from getBlock_bid hb
  have q1 : q.pidx = p.pidx := by rw [hq]
  have q2 : q.pos = p.pos := by rw [hq]
  refine ⟨rfl, fun a => gByte_setBlock (c := setPack b q) (b := b) (by rw [hbid]; exact hb) rfl rfl a, ?_⟩
  intro r e he
  obtain ⟨h0, h1, h2, h3, h4⟩ := issuerAt_eq.1 he
  by_cases hr : r.blk = n
  · have heb : e.b = b := by
      rw [hr, hb, Option.some.injEq] at h1; exact h1.symm
    by_cases hpk : r.pidx = i ∧ r.pos = j
    · have hep : e.p = p := by
        rw [heb, hpk.1, hpk.2, hp, Option.some.injEq] at h2; exact h2.symm
      obtain ⟨f', hf', hfe⟩ := hf r.frag e.f (by rw [← hep]; exact h4)
      refine ⟨{ ref := r, b := setPack b q, p := q, f := f', l := e.l }, ?_, ?_, ?_, ?_, rfl⟩
      · refine issuerAt_eq.2 ⟨rfl, getBlock_setBlock (by rw [hr]; exact hb) (by rw [hbid, hr]), ?_, ?_, hf'⟩
        · rw [hpk.1, hpk.2]
          exact getPack_setPack hp (q1.trans hk.1) (q2.trans hk.2)
        · rw [heb] at h3; exact h3
      · rw [heb]; rfl
      · rw [hep]; exact hq
      · exact hfe
    · refine ⟨{ e with b := setPack b q }, ?_, ?_, rfl, rfl, rfl⟩
      · refine issuerAt_eq.2 ⟨h0, getBlock_setBlock (by rw [hr]; exact hb) (by rw [hbid, hr]), ?_, ?_, h4⟩
        · rw [getPack_setPack_other (by rw [q1, q2, hk.1, hk.2]; exact hpk), ← heb]; exact h2
        · rw [heb] at h3; exact h3
      · rw [heb]; rfl
  · refine ⟨e, ?_, rfl, rfl, rfl, rfl⟩
    refine issuerAt_eq.2 ⟨h0, ?_, h2, h3, h4⟩
    rw [getBlock_setBlock_other (by rw [hbid]; exact hr)]
    exact h1

theorem stirred_setLaunch {s : State} {l m : Launch} (hm : getLaunch s l.lid = some m) (hl : l = { m with seq := l.seq }) :
    Stirred s (setLaunch s l) := by
  refine ⟨rfl, fun a => rfl, fun r e he => ?_⟩
  obtain ⟨h0, h1, h2, h3, h4⟩ := issuerAt_eq.1 he
  by_cases hn : e.b.launch = l.lid
  · have hel : e.l = m := by
      rw [hn, hm, Option.some.injEq] at h3; exact h3.symm
    refine ⟨{ e with l := l }, ?_, rfl, rfl, rfl, by rw [hel]; exact hl⟩
    exact issuerAt_eq.2 ⟨h0, h1, h2, by rw [hn]; exact getLaunch_setLaunch hm rfl, h4⟩
  · refine ⟨e, ?_, rfl, rfl, rfl, rfl⟩
    refine issuerAt_eq.2 ⟨h0, h1, h2, ?_, h4⟩
    rw [← h3]
    refine find?_replaceFirst_other (by simpa using Ne.symm hn) ?_ _
    intro y hy
    simp only [beq_iff_eq] at hy
    simpa [hy] using Ne.symm hn

theorem putFrag_eq {s : State} {r : FragRef} {e : Issuer} (h : issuerAt s r = some e) (f : Fragment) :
    putFrag s r f = setBlock s (setPack e.b (setFrag e.p r.frag f)) := by
  obtain ⟨-, h1, h2, -, -⟩ := issuerAt_eq.1 h
  simp [putFrag, h1, h2]

theorem stirred_putFrag {s : State} {r : FragRef} {e : Issuer} (h : issuerAt s r = some e) {f : Fragment}
    (hf : f = { e.f with st := f.st, wait := f.wait, gang := f.gang, since := f.since }) : Stirred s (putFrag s r f) := by
  obtain ⟨-, h1, h2, -, h4⟩ := issuerAt_eq.1 h
  rw [putFrag_eq h]
  refine stirred_setPack h1 h2 rfl fun k g hg => ?_
  by_cases hk : r.frag = k
  · subst hk
    rw [h4, Option.some.injEq] at hg
    subst hg
    exact ⟨f, getFrag_setFrag h4, hf⟩
  · exact ⟨g, by rw [getFrag_setFrag_other hk, hg], rfl⟩

theorem stirred_wakeFrag (s : State) (r : FragRef) : Stirred s (wakeFrag s r) := by
  unfold wakeFrag
  split
  · exact stirred_refl s
  · rename_i e he
    exact stirred_putFrag he rfl

theorem stirred_foldl {α : Type} (g : State → α → State) (h : ∀ s x, Stirred s (g s x)) (l : List α) (s : State) :
    Stirred s (l.foldl g s) := by
  induction l generalizing s with
  | nil => exact stirred_refl s
  | cons a l ih => exact stirred_trans (h s a) (ih _)

/-- The pack that a fragment names, with other stamps. -/
theorem stirred_putPack {s : State} {r : FragRef} {e : Issuer} (h : issuerAt s r = some e) {q : Pack}
    (hq : q = { e.p with lastSync := q.lastSync, skew := q.skew }) : Stirred s (putPack s r.blk q) := by
  obtain ⟨-, h1, h2, -, -⟩ := issuerAt_eq.1 h
  rw [putPack_eq h1]
  have hfr : q.frags = e.p.frags := by rw [hq]
  refine stirred_setPack h1 h2 (by rw [hq]) fun k f hf => ⟨f, ?_, rfl⟩
  rw [← hf]; simp [getFrag, hfr]

/-- The end of a synchronising operation. -/
theorem stirred_syncDone (s : State) (e : Issuer) : Stirred s (syncDone s e) := by
  unfold syncDone
  split
  · exact stirred_refl s
  · split
    · exact stirred_refl s
    · rename_i e' he'
      obtain ⟨-, h1, h2, h3, h4⟩ := issuerAt_eq.1 he'
      have hlid : e'.l.lid = e'.b.launch := getLaunch_lid h3
      have k1 : Stirred s (setLaunch s { e'.l with seq := e'.l.seq + 1 }) :=
        stirred_setLaunch (m := e'.l) (by rw [← hlid] at h3; exact h3) rfl
      obtain ⟨e2, i2, b2, p2, f2, l2⟩ := k1.issuers e.ref e' he'
      have e2p : e2.p = e'.p := by
        obtain ⟨-, g1, g2, -, -⟩ := issuerAt_eq.1 i2
        have : getBlock (setLaunch s { e'.l with seq := e'.l.seq + 1 }) e.ref.blk = getBlock s e.ref.blk := rfl
        rw [this, h1, Option.some.injEq] at g1
        rw [← g1, h2, Option.some.injEq] at g2
        exact g2.symm
      refine stirred_trans k1 (stirred_trans (stirred_putPack i2 (q := { e'.p with lastSync := e'.l.seq + 1 }) (by rw [e2p]))
        (stirred_foldl _ (fun s r => ?_) _ _))
      dsimp only
      split
      · exact stirred_refl s
      · split
        · split
          · rename_i x hx
            refine stirred_trans (stirred_wakeFrag s r) (stirred_putPack hx ?_)
            rfl
          · exact stirred_wakeFrag s r
        · exact stirred_refl s

end Sys2Proof.Laws
end

