-- ==== Sys2Proof/Laws/Alu.lean ====
section
/-! SUPPORT. What an instruction does that only computes: everything `alu` can do when it retires, said once. -/

namespace Sys2Proof.Laws

open Sys2Proof Sys2Proof.Machine Sys2Proof.Safety

/-! ## Writes that change lanes and uniform registers alone -/

/-- A pack that differs in lane registers and uniform registers alone. -/
structure LanesOnly (p q : Pack) : Prop where
  rest : q = { p with slices := q.slices, s := q.s, sb := q.sb, badV := q.badV, badS := q.badS, badP := q.badP }
  length : q.slices.length = p.slices.length
  slices : ∀ k, { sliceOf q k with lanes := [] } = { sliceOf p k with lanes := [] }

theorem LanesOnly.refl (p : Pack) : LanesOnly p p := ⟨rfl, rfl, fun _ => rfl⟩

theorem LanesOnly.trans {p q r : Pack} (h : LanesOnly p q) (k : LanesOnly q r) : LanesOnly p r := by
  refine ⟨?_, k.length.trans h.length, fun i => (k.slices i).trans (h.slices i)⟩
  have hr := h.rest
  generalize q.slices = a, q.s = b, q.sb = c, q.badV = d, q.badS = f, q.badP = g at hr
  have kr := k.rest
  subst hr
  exact kr

theorem lanesOnly_modLane (p : Pack) (l : Nat) (g : Lane → Lane) : LanesOnly p (modLane p l g) := by
  refine ⟨rfl, slices_modLane_length p l g, fun k => ?_⟩
  unfold modLane
  rw [sliceOf_modify]
  split <;> rfl

theorem lanesOnly_putV (sup : Bool) (l r : Nat) (x : Word) (p : Pack) : LanesOnly p (putV sup l r x p) := by
  unfold putV
  dsimp only
  refine LanesOnly.trans ?_ (lanesOnly_modLane _ _ _)
  split
  · exact .refl p
  · exact ⟨rfl, rfl, fun _ => rfl⟩

theorem lanesOnly_putVRange (sup : Bool) (l r x n : Nat) (p : Pack) : LanesOnly p (putVRange sup l r x n p) := by
  induction n generalizing r x p with
  | zero => exact .refl p
  | succ n ih => exact (lanesOnly_putV _ _ _ _ _).trans (ih _ _ _)

theorem lanesOnly_putS (sup : Bool) (r : Nat) (x : Word) (p : Pack) : LanesOnly p (putS sup r x p) := by
  unfold putS
  dsimp only
  split <;> split <;> exact ⟨rfl, rfl, fun _ => rfl⟩

theorem lanesOnly_putSRange (sup : Bool) (r x n : Nat) (p : Pack) : LanesOnly p (putSRange sup r x n p) := by
  induction n generalizing r x p with
  | zero => exact .refl p
  | succ n ih => exact (lanesOnly_putS _ _ _ _).trans (ih _ _ _)

theorem lanesOnly_putP (l i : Nat) (b : Bool) (p : Pack) : LanesOnly p (putP l i b p) := by
  obtain ⟨bp, h⟩ := putP_eq l i b p
  rw [h]
  have hb : LanesOnly p { p with badP := bp } := ⟨rfl, rfl, fun _ => rfl⟩
  split
  · exact hb
  · exact hb.trans (lanesOnly_modLane _ _ _)

theorem lanesOnly_foldl {α : Type} (g : Pack → α → Pack) (h : ∀ p x, LanesOnly p (g p x)) (l : List α) (p : Pack) :
    LanesOnly p (l.foldl g p) := by
  induction l generalizing p with
  | nil => exact .refl p
  | cons a l ih => exact (h p a).trans (ih _)

theorem lanesOnly_writeBack (sup : Bool) (d : Dst) (nowb : Bool) (n : Nat) (vals : List (Nat × Nat)) (p : Pack) :
    LanesOnly p (writeBack sup d nowb n vals p) := by
  unfold writeBack
  split
  · exact .refl p
  · split
    · exact lanesOnly_foldl _ (fun p x => lanesOnly_putVRange _ _ _ _ _ p) _ _
    · split
      · exact .refl p
      · exact lanesOnly_putSRange _ _ _ _ _
    · exact lanesOnly_foldl _ (fun p x => lanesOnly_putP _ _ _ p) _ _
    · exact .refl p

/-- A write to uniform registers leaves the lanes. -/
theorem putSRange_slices (sup : Bool) (r x n : Nat) (p : Pack) : (putSRange sup r x n p).slices = p.slices := by
  induction n generalizing r x p with
  | zero => rfl
  | succ n ih =>
    rw [putSRange, ih]
    unfold putS
    dsimp only
    split <;> split <;> rfl

/-- A write to lanes leaves the uniform registers. -/
theorem getS_lanes {p q : Pack} (h1 : q.s = p.s) (h2 : q.sb = p.sb) (b : Bool) (r : Nat) : getS b q r = getS b p r := by
  simp [getS, h1, h2]

theorem putVRange_s (sup : Bool) (l r x n : Nat) (p : Pack) :
    (putVRange sup l r x n p).s = p.s ∧ (putVRange sup l r x n p).sb = p.sb := by
  induction n generalizing r x p with
  | zero => exact ⟨rfl, rfl⟩
  | succ n ih =>
    rw [putVRange, (ih _ _ _).1, (ih _ _ _).2]
    unfold putV modLane
    dsimp only
    split <;> exact ⟨rfl, rfl⟩

theorem foldl_keeps {α β γ : Type} (g : β → α → β) (v : β → γ) (h : ∀ p x, v (g p x) = v p) (l : List α) (p : β) :
    v (l.foldl g p) = v p := by
  induction l generalizing p with
  | nil => rfl
  | cons a l ih => rw [List.foldl_cons, ih, h]

theorem getV_putP (l i : Nat) (c : Bool) (p : Pack) (h : l / 4 < p.slices.length) (b : Bool) (m r : Nat) :
    getV b (putP l i c p) m r = getV b p m r := by
  obtain ⟨bp, he⟩ := putP_eq l i c p
  rw [he, ← getV_congr (show ({ p with badP := bp } : Pack).slices = p.slices from rfl) b m r]
  split
  · rfl
  · unfold getV
    rw [laneAt_modLane (p := { p with badP := bp }) _ h]
    by_cases hm : m = l
    · subst hm; simp
    · simp [hm]

theorem getP_putV (sup : Bool) (l r : Nat) (x : Word) (p : Pack) (h : l / 4 < p.slices.length) (m i : Nat) :
    getP (putV sup l r x p) m i = getP p m i := by
  unfold putV
  dsimp only
  generalize hq : (if p.badV.isEmpty then p else { p with badV := p.badV.filter fun b => b != (l, r, sup && decide (120 ≤ r)) }) = q
  have hs : q.slices = p.slices := by subst hq; split <;> rfl
  rw [← getP_congr hs]
  unfold getP
  rw [laneAt_modLane _ (by rw [hs]; exact h)]
  by_cases hm : m = l
  · subst hm
    simp only [if_true]
    split <;> rfl
  · simp [hm]

theorem getP_putVRange (sup : Bool) (l r x n : Nat) (p : Pack) (h : l / 4 < p.slices.length) (m i : Nat) :
    getP (putVRange sup l r x n p) m i = getP p m i := by
  induction n generalizing r x p with
  | zero => rfl
  | succ n ih => rw [putVRange, ih _ _ _ (by rw [putV_length]; exact h), getP_putV _ _ _ _ _ h]

theorem foldl_lanes_keeps {γ : Type} (g : Pack → Nat × Nat → Pack) (v : Pack → γ)
    (hl : ∀ p x, (g p x).slices.length = p.slices.length)
    (h : ∀ p x, x.1 / 4 < p.slices.length → v (g p x) = v p) (l : List (Nat × Nat)) (p : Pack)
    (hb : ∀ x ∈ l, x.1 / 4 < p.slices.length) : v (l.foldl g p) = v p := by
  induction l generalizing p with
  | nil => rfl
  | cons a l ih =>
    rw [List.foldl_cons, ih _ (by intro x hx; rw [hl]; exact hb x (List.mem_cons_of_mem _ hx)),
      h p a (hb a List.mem_cons_self)]

/-- The write-back, as reads see it. -/
theorem writeBack_regs {p : Pack} (sup : Bool) (d : Dst) (nowb : Bool) (n : Nat) {act : List Nat} (val : Nat → Nat)
    (h : ∀ l ∈ act, l / 4 < p.slices.length) :
    RegsAfter p (writeBack sup d nowb n ((outLanes d act).map fun l => (l, val l)) p) sup d nowb n act val := by
  cases nowb with
  | true =>
    refine ⟨?_, fun _ _ _ _ => rfl, ?_, fun _ _ _ => rfl, ?_, fun _ _ _ _ => rfl⟩
    · intro b l r _ hd; cases d <;> simp [vDest] at hd
    · intro b r _ hd; cases d <;> simp [sDest] at hd
    · intro l i _ hd; cases d <;> simp [pDest] at hd
  | false =>
    cases d with
    | v r0 =>
      have hw : writeBack sup (.v r0) false n ((outLanes (.v r0) act).map fun l => (l, val l)) p =
          (act.map fun l => (l, val l)).foldl (fun p x => putVRange sup x.1 r0.toNat x.2 n p) p := rfl
      rw [hw]
      have hb : ∀ x ∈ (act.map fun l => (l, val l)), x.1 / 4 < p.slices.length := by
        intro x hx
        obtain ⟨l, hl, rfl⟩ := List.mem_map.1 hx
        exact h l hl
      refine ⟨?_, ?_, ?_, ?_, ?_, ?_⟩
      · intro b l r hl hd hbk
        rw [getV_foldl val h, if_pos ⟨hl, hd.2.1, hd.2.2, hbk⟩]; rfl
      · intro b l r hn
        rw [getV_foldl val h, if_neg]
        rintro ⟨h1, h2, h3, h4⟩
        exact hn ⟨h1, ⟨rfl, h2, h3⟩, h4⟩
      · intro b r _ hd; exact absurd hd id
      · intro b r _
        exact getS_lanes (foldl_keeps _ (·.s) (fun p x => (putVRange_s _ _ _ _ _ p).1) _ _)
          (foldl_keeps _ (·.sb) (fun p x => (putVRange_s _ _ _ _ _ p).2) _ _) b r
      · intro l i _ hd; exact absurd hd id
      · intro l i _ _
        exact foldl_lanes_keeps _ (fun p => getP p l i) (fun p x => putVRange_length _ _ _ _ _ p)
          (fun p x hx => getP_putVRange _ _ _ _ _ p hx l i) _ _ hb
    | s r0 =>
      have hw : writeBack sup (.s r0) false n ((outLanes (.s r0) act).map fun l => (l, val l)) p =
          match act with
          | [] => p
          | a :: _ => putSRange sup r0.toNat (val a) n p := by cases act <;> rfl
      rw [hw]
      cases act with
      | nil =>
        refine ⟨?_, fun _ _ _ _ => rfl, ?_, fun _ _ _ => rfl, ?_, fun _ _ _ _ => rfl⟩
        · intro b l r hl; simp at hl
        · intro b r hne; exact absurd rfl hne
        · intro l i hl; simp at hl
      | cons a act =>
        refine ⟨?_, ?_, ?_, ?_, ?_, ?_⟩
        · intro b l r _ hd; exact absurd hd id
        · intro b l r _; exact getV_congr (putSRange_slices _ _ _ _ _) b l r
        · intro b r _ hd hbk
          dsimp only
          rw [getS_putSRange, if_pos ⟨hd.2.1, hd.2.2, hbk⟩]; rfl
        · intro b r hn
          dsimp only
          rw [getS_putSRange, if_neg]
          rintro ⟨h1, h2, h3⟩
          exact hn ⟨by simp, ⟨rfl, h1, h2⟩, h3⟩
        · intro l i _ hd; exact absurd hd id
        · intro l i _ _; exact getP_congr (putSRange_slices _ _ _ _ _) l i
    | q r0 =>
      refine ⟨?_, fun _ _ _ _ => rfl, ?_, fun _ _ _ => rfl, ?_, fun _ _ _ _ => rfl⟩
      · intro b l r _ hd; exact absurd hd id
      · intro b r _ hd; exact absurd hd id
      · intro l i _ hd; exact absurd hd id
    | p r0 =>
      have hw : writeBack sup (.p r0) false n ((outLanes (.p r0) act).map fun l => (l, val l)) p =
          (act.map fun l => (l, val l)).foldl (fun p x => putP x.1 r0.toNat (x.2 != 0) p) p := rfl
      rw [hw]
      have hb : ∀ x ∈ (act.map fun l => (l, val l)), x.1 / 4 < p.slices.length := by
        intro x hx
        obtain ⟨l, hl, rfl⟩ := List.mem_map.1 hx
        exact h l hl
      refine ⟨?_, ?_, ?_, ?_, ?_, ?_⟩
      · intro b l r _ hd; exact absurd hd id
      · intro b l r _
        exact foldl_lanes_keeps _ (fun p => getV b p l r) (fun p x => putP_length _ _ _ p)
          (fun p x hx => getV_putP _ _ _ p hx b l r) _ _ hb
      · intro b r _ hd; exact absurd hd id
      · intro b r _
        have hk : ∀ (p : Pack) (x : Nat × Nat), (putP x.1 r0.toNat (x.2 != 0) p).s = p.s ∧
            (putP x.1 r0.toNat (x.2 != 0) p).sb = p.sb := by
          intro p x
          obtain ⟨bp, h⟩ := putP_eq x.1 r0.toNat (x.2 != 0) p
          rw [h]
          split <;> exact ⟨rfl, rfl⟩
        exact getS_lanes (foldl_keeps _ (·.s) (fun p x => (hk p x).1) _ _)
          (foldl_keeps _ (·.sb) (fun p x => (hk p x).2) _ _) b r
      · intro l i hl hd
        rw [getP_foldl val h r0.isLt (by rw [hd.2.1]; exact r0.isLt), if_pos ⟨hl, hd.2.1, by rw [← hd.2.1]; exact hd.2.2⟩]
      · intro l i hi hn
        rw [getP_foldl val h r0.isLt hi, if_neg]
        rintro ⟨h1, h2, h3⟩
        exact hn ⟨h1, rfl, h2, by rw [h2]; exact h3⟩
    | null =>
      refine ⟨?_, fun _ _ _ _ => rfl, ?_, fun _ _ _ => rfl, ?_, fun _ _ _ _ => rfl⟩
      · intro b l r _ hd; exact absurd hd id
      · intro b r _ hd; exact absurd hd id
      · intro l i _ hd; exact absurd hd id

end Sys2Proof.Laws
end

