-- ==== Sys2Proof/Laws/AluSpec.lean ====
section
/-! SUPPORT. The frame of the instructions that only compute: when `alu` does not stop, the instruction leaves what `Computed`
says. -/

namespace Sys2Proof.Laws

open Sys2Proof Sys2Proof.Machine Sys2Proof.Safety

/-! ## Flags -/

theorem foldl_or_init (fs : List (Nat × Nat)) (m : BitVec 8) :
    fs.foldl (fun m x => m ||| BitVec.ofNat 8 x.2) m = m ||| fs.foldl (fun m x => m ||| BitVec.ofNat 8 x.2) 0 := by
  induction fs generalizing m with
  | nil => simp
  | cons a fs ih =>
    rw [List.foldl_cons, List.foldl_cons, ih, ih (0 ||| BitVec.ofNat 8 a.2), BitVec.or_assoc]
    simp

theorem raiseLanes_eq (p : Pack) (fs : List (Nat × Nat)) : raiseLanes p fs = { p with slices := (raiseLanes p fs).slices } := by
  unfold raiseLanes
  induction fs generalizing p with
  | nil => rfl
  | cons a fs ih =>
    rw [List.foldl_cons, ih]
    unfold raiseSlice
    split <;> rfl

theorem raiseSlice_slice {p : Pack} {j : Nat} (h : j < p.slices.length) (n k : Nat) :
    sliceOf (raiseSlice p j n) k =
      { sliceOf p k with fpstat := (sliceOf p k).fpstat ||| (if j = k then BitVec.ofNat 8 n else 0) } := by
  unfold raiseSlice
  split
  · rename_i h0; subst h0; simp
  · rw [sliceOf_modify]
    by_cases hk : k = j
    · subst hk; rw [if_pos ⟨rfl, h⟩]; simp
    · rw [if_neg (fun w => hk w.1), if_neg (Ne.symm hk)]; simp

theorem raiseSlice_length (p : Pack) (j n : Nat) : (raiseSlice p j n).slices.length = p.slices.length := by
  unfold raiseSlice; split
  · rfl
  · simp

theorem raiseLanes_length (p : Pack) (fs : List (Nat × Nat)) : (raiseLanes p fs).slices.length = p.slices.length := by
  unfold raiseLanes
  exact foldl_keeps _ (fun p => p.slices.length) (fun p x => raiseSlice_length p _ _) fs p

/-- The flags of lanes go into their slices' copies. -/
theorem raiseLanes_slice {p : Pack} {fs : List (Nat × Nat)} (h : ∀ x ∈ fs, x.1 / 4 < p.slices.length) (k : Nat) :
    sliceOf (raiseLanes p fs) k = { sliceOf p k with fpstat := (sliceOf p k).fpstat ||| sliceFlags fs k } := by
  unfold raiseLanes
  induction fs generalizing p with
  | nil => simp [sliceFlags]
  | cons a fs ih =>
    rw [List.foldl_cons, ih (by
      intro x hx; rw [raiseSlice_length]; exact h x (List.mem_cons_of_mem _ hx)),
      raiseSlice_slice (h a List.mem_cons_self)]
    simp only [sliceFlags, List.filter_cons]
    by_cases hk : a.1 / 4 = k
    · simp only [hk, if_true, beq_self_eq_true, List.foldl_cons]
      rw [foldl_or_init _ (0 ||| BitVec.ofNat 8 a.2), BitVec.or_assoc]
      simp
    · have : (a.1 / 4 == k) = false := by simpa using hk
      simp [hk, this]

/-! ## Queues -/

theorem popQueue_eq (e : Issuer) (b : Block) (q : Nat) : popQueue e b q = { b with queues := (popQueue e b q).queues } := by
  unfold popQueue
  split
  · split <;> rfl
  · rfl

theorem pushQueue_eq (e : Issuer) (b : Block) (q : Nat) (vals : List (Nat × Nat)) :
    pushQueue e b q vals = { b with queues := (pushQueue e b q vals).queues } := by
  unfold pushQueue
  split
  · split <;> rfl
  · rfl

theorem moveQueues_eq (e : Issuer) (b : Block) (srcs : List Opnd) (d : Dst) (vals : List (Nat × Nat)) :
    moveQueues e b srcs d vals = { b with queues := (moveQueues e b srcs d vals).queues } := by
  have pop : ∀ (l : List Nat) (b : Block), l.foldl (popQueue e) b = { b with queues := (l.foldl (popQueue e) b).queues } := by
    intro l
    induction l with
    | nil => intro b; rfl
    | cons q l ih => intro b; rw [List.foldl_cons, ih, popQueue_eq]
  unfold moveQueues
  dsimp only
  cases pushOf d with
  | none => exact pop _ _
  | some q =>
    dsimp only
    have hc := pop (popsOf srcs) b
    generalize (popsOf srcs).foldl (popQueue e) b = c at hc ⊢
    have hu := pushQueue_eq e c q vals
    generalize pushQueue e c q vals = u at hu ⊢
    generalize c.queues = x at hc
    subst hc
    exact hu

/-! ## Latches -/

theorem spGet_foldl (f : Nat → BitVec 128) (act : List Nat) (m : Sparse (BitVec 128)) (k : Nat) :
    spGet 0 (act.foldl (fun m l => spPut 0 m l (f l)) m) k = if k ∈ act then f k else spGet 0 m k := by
  induction act generalizing m with
  | nil => simp
  | cons a act ih =>
    rw [List.foldl_cons, ih, spGet_spPut]
    by_cases hk : k ∈ act
    · simp [hk]
    · by_cases ha : k = a
      · simp [ha]
      · simp [hk, ha]

theorem latchOf_spec (d : Dst) (act : List Nat) (val : Nat → Nat) :
    (d = .null → latchOf d act ((outLanes d act).map fun l => (l, val l)) = none) ∧
    (d ≠ .null → ∃ v, latchOf d act ((outLanes d act).map fun l => (l, val l)) = some v ∧
      ∀ l, spGet 0 v l = if l ∈ act then BitVec.ofNat 128 (val (if usesUniform d then act.headD 0 else l)) else 0) := by
  have lanes : ∀ act : List Nat, ∀ l, spGet 0 ((act.map fun l => (l, val l)).foldl
      (fun m x => spPut 0 m x.1 (BitVec.ofNat 128 x.2)) []) l = if l ∈ act then BitVec.ofNat 128 (val l) else 0 := by
    intro act l
    rw [List.foldl_map]
    exact spGet_foldl (fun l => BitVec.ofNat 128 (val l)) act [] l
  constructor
  · rintro rfl; rfl
  · intro hd
    cases d with
    | null => exact absurd rfl hd
    | s r =>
      cases act with
      | nil => exact ⟨[], rfl, fun l => by simp [spGet]⟩
      | cons a act => exact ⟨_, rfl, fun l => spGet_foldl (fun _ => BitVec.ofNat 128 (val a)) (a :: act) [] l⟩
    | v r => exact ⟨_, rfl, fun l => lanes act l⟩
    | q r => exact ⟨_, rfl, fun l => lanes act l⟩
    | p r => exact ⟨_, rfl, fun l => lanes act l⟩

theorem latchesAfter_shift {f g : Fragment} {d : Dst} {act : List Nat} {val : Nat → Nat} {bu : Bool} {ls : List Latch}
    (hls : ls = shiftLatches f.latches bu (latchOf d act ((outLanes d act).map fun l => (l, val l))))
    (h : ∀ k l, latchVal g k l = latchVal { f with latches := ls } k l ∧
      latchValid g k = latchValid { f with latches := ls } k) :
    LatchesAfter f g d act val := by
  subst hls
  obtain ⟨hn, hs⟩ := latchOf_spec d act val
  refine ⟨fun hd => ?_, fun hd k hk => ?_, fun hd k => ?_⟩
  · obtain ⟨v, hv, hl⟩ := hs hd
    rw [hv] at h
    refine ⟨by rw [(h 0 0).2]; rfl, fun l => ?_⟩
    rw [(h 0 l).1]
    have : latchVal { f with latches := shiftLatches f.latches bu (some v) } 0 l = (spGet 0 v l).toNat := rfl
    rw [this, hl l]
    split
    · rw [BitVec.toNat_ofNat]
    · rfl
  · obtain ⟨v, hv, -⟩ := hs hd
    rw [hv] at h
    have ht : ∀ x, ((x :: f.latches).take 8)[k + 1]? = f.latches[k]? := by
      intro x
      rw [List.getElem?_take, if_pos (by omega), List.getElem?_cons_succ]
    refine ⟨?_, fun l => ?_⟩
    · rw [(h (k + 1) 0).2]; simp only [latchValid, shiftLatches, ht]
    · rw [(h (k + 1) l).1]; simp only [latchVal, shiftLatches, ht]
  · rw [hn hd] at h
    exact ⟨(h k 0).2, fun l => (h k l).1⟩

/-! ## The whole -/

theorem OnlyPack.trans {s t u : State} {r : FragRef} (h : OnlyPack s t r) (k : OnlyPack t u r) : OnlyPack s u r := by
  refine ⟨?_, fun n hn => (k.blocks n hn).trans (h.blocks n hn), ?_, fun a => (k.bytes a).trans (h.bytes a)⟩
  · have hd := h.device
    have kd := k.device
    generalize t.blocks = B, t.budget = U, t.shadows = H, t.activity = A, t.free = C at hd
    subst hd
    exact kd
  · intro b hb
    obtain ⟨b1, h1, h2, h3⟩ := h.block b hb
    obtain ⟨b2, k1, k2, k3⟩ := k.block b1 h1
    exact ⟨b2, k1, by rw [k2, h2], fun i j hij => (k3 i j hij).trans (h3 i j hij)⟩

theorem mem_maskLanes {p : Pack} {f : Fragment} {l : Nat} (h : l ∈ maskLanes p f) :
    l / 4 < p.slices.length ∧ l < p.width ∧ f.slices.getLsbD (l / 4) = true ∧ (sliceOf p (l / 4)).mask.getLsbD (l % 4) = true := by
  simp only [maskLanes, List.mem_filter, List.mem_range, Bool.and_eq_true] at h
  refine ⟨?_, h.1, h.2.1, h.2.2⟩
  by_contra hl
  have : sliceOf p (l / 4) = { lanes := [], mask := 0, live := 0 } := by
    simp [sliceOf, List.getD_eq_getElem?_getD, List.getElem?_eq_none (by omega : p.slices.length ≤ l / 4)]
  rw [this] at h
  simp at h

theorem mem_activeLanes {e : Issuer} {pr : Pred} {l : Nat} (h : l ∈ activeLanes e pr) : l / 4 < e.p.slices.length :=
  (mem_maskLanes (List.mem_of_mem_filter h)).1

/-- What `alu` does when its operands are readable and no queue holds it: it retires, and leaves what `Computed` says. -/
theorem alu_spec {s : State} {e : Issuer} {pr : Pred} {srcs : List Opnd} {d : Dst} {nowb : Bool} {n len : Nat}
    {f : (Nat → Nat → Nat) → List Nat → List Nat → List (Nat × Nat) × List (Nat × Nat)} {post : Pack → Pack}
    (h : issuerAt s e.ref = some e) (hc : operandCause e (activeLanes e pr) srcs d n = none)
    (hw : queueWait s e (activeLanes e pr) srcs d = none) (val : Nat → Nat) (fs : List (Nat × Nat))
    (pg : Nat → BitVec 8 → BitVec 8) (pd : Nat → BitVec 22 → BitVec 22)
    (hf : activeLanes e pr ≠ [] → f (reader e srcs) (activeLanes e pr) (outLanes d (activeLanes e pr)) =
      ((outLanes d (activeLanes e pr)).map (fun l => (l, val l)), fs))
    (h0 : activeLanes e pr = [] → fs = []) (hfs : ∀ x ∈ fs, x.1 / 4 < e.p.slices.length)
    (hp : ∀ p, p.slices.length = e.p.slices.length → post p = { p with slices := (post p).slices } ∧
      (post p).slices.length = p.slices.length ∧
      ∀ k, sliceOf (post p) k = { sliceOf p k with fpstat := pg k (sliceOf p k).fpstat, draw := pd k (sliceOf p k).draw }) :
    ∃ s' r, alu s e pr srcs d nowb n f post = .ok s' r ∧
      Computed s (retire s' e len r) e len srcs d nowb n (activeLanes e pr) val
        (fun k => pg k ((sliceOf e.p k).fpstat ||| sliceFlags fs k)) (fun k => pd k (sliceOf e.p k).draw) := by
  obtain ⟨-, i1, i2, i3, i4⟩ := issuerAt_eq.1 h
  have hkey := getPack_key i2
  generalize hact : activeLanes e pr = act at *
  have hlane : ∀ l ∈ act, l / 4 < e.p.slices.length := by
    intro l hl; rw [← hact] at hl; exact mem_activeLanes hl
  -- the values
  generalize hvals : (outLanes d act).map (fun l => (l, val l)) = vals at hf
  have hvf : (if act.isEmpty then ([], []) else f (reader e srcs) act (outLanes d act)) = (vals, fs) := by
    by_cases ha : act = []
    · subst ha
      have : vals = [] := by rw [← hvals]; simp [outLanes]
      simp [this, h0 rfl]
    · rw [if_neg (by simpa using ha), hf ha]
  -- the pack
  have hw1 := writeBack_regs (inSup e.f) d nowb n val hlane
  have hw2 := lanesOnly_writeBack (inSup e.f) d nowb n vals e.p
  rw [hvals] at hw1
  generalize hp0 : writeBack (inSup e.f) d nowb n vals e.p = p0 at hw1 hw2
  have hr1 := raiseLanes_slice (p := p0) (fs := fs) (by rw [hw2.length]; exact hfs)
  have hr2 := raiseLanes_eq p0 fs
  have hr3 := raiseLanes_length p0 fs
  generalize hp1 : raiseLanes p0 fs = p1 at hr1 hr2 hr3
  obtain ⟨hq1, hq0, hq2⟩ := hp p1 (by rw [hr3, hw2.length])
  generalize hp2 : post p1 = p2 at hq1 hq0 hq2
  have p2rest : p2 = { e.p with slices := p2.slices, s := p2.s, sb := p2.sb, badV := p2.badV, badS := p2.badS, badP := p2.badP } := by
    have := hw2.rest
    generalize p0.slices = a1, p0.s = a2, p0.sb = a3, p0.badV = a4, p0.badS = a5, p0.badP = a6 at this
    subst this
    generalize p1.slices = c1 at hr2
    subst hr2
    generalize p2.slices = z at hq1
    subst hq1
    rfl
  have p2s : p2.s = p0.s ∧ p2.sb = p0.sb := by
    rw [hq1]; constructor <;> simp only <;> rw [hr2]
  have p2slice : ∀ k, (sliceOf p2 k).lanes = (sliceOf p0 k).lanes ∧
      (sliceOf p2 k).fpstat = pg k ((sliceOf e.p k).fpstat ||| sliceFlags fs k) ∧
      (sliceOf p2 k).draw = pd k (sliceOf e.p k).draw ∧ (sliceOf p2 k).live = (sliceOf e.p k).live ∧
      (sliceOf p2 k).mask = (sliceOf e.p k).mask ∧ (sliceOf p2 k).stack = (sliceOf e.p k).stack := by
    intro k
    have hk := hw2.slices k
    simp only [Slice.mk.injEq, true_and] at hk
    rw [hq2, hr1]
    simp only [hk, and_self]
  have p2len : p2.slices.length = e.p.slices.length := by rw [hq0, hr3, hw2.length]
  -- the block
  generalize hb2 : (if act.isEmpty then setPack e.b p2 else moveQueues e (setPack e.b p2) srcs d vals) = b2
  have b2rest : b2 = { setPack e.b p2 with queues := b2.queues } := by
    subst hb2
    split
    · rfl
    · exact moveQueues_eq _ _ _ _ _
  have b2bid : b2.bid = e.ref.blk := by rw [b2rest]; exact (show e.b.bid = e.ref.blk from getBlock_bid i1)
  have p2key : p2.pidx = e.p.pidx ∧ p2.pos = e.p.pos := by constructor <;> rw [p2rest]
  have b2pack : getPack b2 e.ref.pidx e.ref.pos = some p2 := by
    have : getPack b2 e.ref.pidx e.ref.pos = getPack (setPack e.b p2) e.ref.pidx e.ref.pos := by rw [b2rest]; rfl
    rw [this]
    exact getPack_setPack i2 (p2key.1.trans hkey.1) (p2key.2.trans hkey.2)
  have p2frag : getFrag p2 e.ref.frag = some e.f := by rw [← i4, p2rest]; rfl
  have i1' : issuerAt (setBlock s b2) e.ref = some { ref := e.ref, b := b2, p := p2, f := e.f, l := e.l } :=
    issuerAt_setBlock h b2bid (by rw [b2rest]; rfl) b2pack p2frag
  have b2bytes : ∀ a, gByte (setBlock s b2) a = gByte s a := fun a =>
    gByte_setBlock (c := b2) (b := e.b) (by rw [b2bid]; exact i1) (by rw [b2rest]; rfl) (by rw [b2rest]; rfl) a
  -- the state
  generalize hs2 : (if (!act.isEmpty && (!(popsOf srcs).isEmpty || (pushOf d).isSome)) = true
    then syncDone (setBlock s b2) e else setBlock s b2) = s2
  have stir : Stirred (setBlock s b2) s2 := by
    subst hs2
    split
    · exact stirred_syncDone _ e
    · exact stirred_refl _
  obtain ⟨e2, j1, j2, j3, j4, j5⟩ := stir.issuers e.ref _ i1'
  simp only at j2 j3 j4 j5
  have halu : alu s e pr srcs d nowb n f post = .ok s2 { res := latchOf d act vals } := by
    unfold alu
    simp only [hact, hc, hw]
    have e1 : (fun i l => opndVal e (srcs.getD i { src := .unused, ty := .b32, wide := false }) l) = reader e srcs := rfl
    have e2 : (if usesUniform d = true then act.take 1 else act) = outLanes d act := rfl
    rw [e1, e2]
    have e3 : (if act.isEmpty = true then (([], []) : List (Nat × Nat) × List (Nat × Nat))
        else f (reader e srcs) act (outLanes d act)) = (vals, fs) := hvf
    rw [e3]
    simp only [hp0, hp1, hp2, hb2, hs2]
  refine ⟨s2, _, halu, ?_⟩
  obtain ⟨k1, p, k2, k3, k4, k5, k6⟩ := retire_spec (len := len) (r := { res := latchOf d act vals }) j1
  generalize retire s2 e len { res := latchOf d act vals } = t at k1 k2
  have e2f : e2.f.pc = e.f.pc ∧ e2.f.slices = e.f.slices ∧ e2.f.frame = e.f.frame ∧ e2.f.latches = e.f.latches := by
    rw [j4]; exact ⟨rfl, rfl, rfl, rfl⟩
  have e2slices : e2.p.slices = p2.slices := by rw [j3]
  have e2slice : ∀ k, sliceOf e2.p k = sliceOf p2 k := fun k => by simp [sliceOf, e2slices]
  have moved : movedSlices e2.p e2.f = movedSlices e.p e.f := by
    unfold movedSlices fragSlices
    rw [e2slices, p2len, e2f.2.1]
    simp only [e2slice, (p2slice _).2.2.2.1]
  have keeps : ∀ k, ∃ m st, sliceOf p k = { sliceOf p2 k with mask := m, stack := st } := by
    intro k
    rw [k4 k, e2slice]
    split
    · exact joinCheck_keeps _ _ _
    · exact ⟨_, _, rfl⟩
  have plane : ∀ l, laneAt p l = laneAt p0 l := by
    intro l
    obtain ⟨m, st, hk⟩ := keeps (l / 4)
    simp [laneAt, hk, (p2slice (l / 4)).1]
  have ps : p.s = p0.s ∧ p.sb = p0.sb := by
    rw [k3]
    simp only
    rw [j3]
    exact p2s
  refine ⟨?_, fun a => (k1.bytes a).trans ((stir.bytes a).trans (b2bytes a)), ?_, p, k2, ?_, ?_, ?_, ?_, ?_⟩
  · have d1 := k1.device
    have d2 := stir.device
    generalize s2.blocks = B, s2.launches = L at d2
    subst d2
    generalize t.blocks = B, t.budget = U, t.shadows = H, t.activity = A, t.free = C at d1
    subst d1
    rfl
  · intro hpop hpush
    have hs : s2 = setBlock s (setPack e.b p2) := by
      have hm : b2 = setPack e.b p2 := by
        rw [← hb2]
        simp [moveQueues, hpop, hpush]
      rw [← hs2, hm]
      simp [hpop, hpush]
    refine OnlyPack.trans ?_ k1
    rw [hs]
    exact onlyPack_setBlock i1 i2 p2key.1 p2key.2
  · refine ⟨?_, ?_, ?_, ?_, ?_, ?_⟩
    · intro b l r h1 h2 h3; rw [← hw1.vWritten b l r h1 h2 h3]; simp [getV, plane]
    · intro b l r h1; rw [← hw1.vKept b l r h1]; simp [getV, plane]
    · intro b r h1 h2 h3; rw [← hw1.sWritten b r h1 h2 h3]; simp [getS, ps.1, ps.2]
    · intro b r h1; rw [← hw1.sKept b r h1]; simp [getS, ps.1, ps.2]
    · intro l i h1 h2; rw [← hw1.pWritten l i h1 h2]; simp [getP, plane]
    · intro l i h1 h2; rw [← hw1.pKept l i h1 h2]; simp [getP, plane]
  · intro k
    obtain ⟨m, st, hk⟩ := keeps k
    rw [hk]
    exact ⟨(p2slice k).2.1, (p2slice k).2.2.1, (p2slice k).2.2.2.1⟩
  · have hclk : (if (e2.l.det && inSup e2.f) = true then e2.p.lclock else e2.p.lclock + 1) = clockAfter e := by
      have h1 : e2.l.det = e.l.det := by rw [j5]
      have h2 : inSup e2.f = inSup e.f := by simp [inSup, e2f.2.2.1]
      have h3 : e2.p.lclock = e.p.lclock := by rw [j3]; simp only; rw [p2rest]
      rw [h1, h2, h3]; rfl
    rw [hclk] at k3
    generalize e2.p.frags = x1, e2.p.lastSync = x2, e2.p.skew = x3 at j3
    rw [j3, p2rest] at k3
    generalize p2.slices = y1, p2.s = y2, p2.sb = y3, p2.badV = y4, p2.badS = y5 at k3
    rw [k3]
  · intro k hk
    rw [← moved] at hk
    obtain ⟨c1, c2, c3⟩ := k5 k hk
    obtain ⟨g1, g2, g3⟩ := joinCheck_congr 10 (e.f.pc + BitVec.ofNat 64 len) (sl := sliceOf e.p k) (sl' := sliceOf e2.p k)
      (by rw [e2slice]; exact (p2slice k).2.2.2.2.1) (by rw [e2slice]; exact (p2slice k).2.2.2.2.2)
    have hn : (spFind? ([] : Sparse DWord) k).getD (e2.f.pc + BitVec.ofNat 64 len) = e.f.pc + BitVec.ofNat 64 len := by
      rw [e2f.1]; rfl
    simp only [hn] at c1 c2 c3
    rw [g1] at c1
    rw [g2] at c2
    rw [g3] at c3
    exact ⟨c1, c2, c3⟩
  · intro g hg hgf
    rcases k6 with k6 | ⟨all, m, pc, k6⟩
    · rw [k6, Option.some.injEq] at hg
      subst hg
      exact absurd rfl hgf
    · rw [k6, Option.some.injEq] at hg
      subst hg
      refine latchesAfter_shift (bu := e2.f.burst.isSome) rfl fun k l => ?_
      have hl := retiredFrag_latches (s := s2) (e := e) (e' := e2) (r := { res := latchOf d act vals }) rfl k l
      rw [hvals, ← e2f.2.2.2]
      exact hl

end Sys2Proof.Laws
end

