-- ==== Sys2Proof/Laws/Gives.lean ====
section
/-! SUPPORT. From the frame of computing instructions to `exec`: an instruction that issues takes its body's act; a computation lane
by lane gives what `Gives` says. -/

namespace Sys2Proof.Laws

open Sys2Proof Sys2Proof.Machine Sys2Proof.Safety

/-- An instruction that issues where it may stand, in a mode that may run it, ends as its body says. -/
theorem issue_next {s : State} {e : Issuer} (h : Issues s e) {len : Nat} {place : BurstPlace} {sup : Bool}
    {body : Issuer → Act} (hb : burstOk e.f place = true) (hs : sup = false ∨ inSup e.f = true) :
    issue s len place sup body = .next (finish s e len (body e)) := by
  unfold issue
  rw [h.1]
  simp only [h.2, hb]
  rcases hs with hs | hs <;> simp [hs]

theorem burstOk_any (f : Fragment) : burstOk f .any = true := rfl

theorem burstOk_alone {f : Fragment} (h : f.burst = none) (place : BurstPlace) : burstOk f place = true := by
  cases place <;> simp [burstOk, h]

theorem sliceOf_foldl_modify (g : Slice → Slice) (ks : List Nat) (hnd : ks.Nodup) (p : Pack)
    (hk : ∀ k ∈ ks, k < p.slices.length) (j : Nat) :
    let q := ks.foldl (fun p k => { p with slices := p.slices.modify k g }) p
    q = { p with slices := q.slices } ∧ q.slices.length = p.slices.length ∧
      sliceOf q j = if j ∈ ks then g (sliceOf p j) else sliceOf p j := by
  induction ks generalizing p with
  | nil => exact ⟨rfl, rfl, by simp⟩
  | cons a ks ih =>
    obtain ⟨ha, hnd⟩ := List.nodup_cons.1 hnd
    obtain ⟨h1, h2, h3⟩ := ih hnd { p with slices := p.slices.modify a g } (by
      intro k hk'; simpa using hk k (List.mem_cons_of_mem _ hk'))
    refine ⟨?_, by simpa using h2, ?_⟩
    · rw [List.foldl_cons, h1]
    · rw [List.foldl_cons, h3, sliceOf_modify]
      by_cases hj : j = a
      · subst hj
        simp [ha, hk j List.mem_cons_self]
      · simp [hj]

theorem fragSlices_nodup (p : Pack) (f : Fragment) : (fragSlices p f).Nodup := (List.nodup_range).filter _

theorem advanceDraws_spec (e : Issuer) (p : Pack) (hl : p.slices.length = e.p.slices.length) :
    advanceDraws e p = { p with slices := (advanceDraws e p).slices } ∧
    (advanceDraws e p).slices.length = p.slices.length ∧
    ∀ k, sliceOf (advanceDraws e p) k = { sliceOf p k with
      draw := if true && !(e.l.det && inSup e.f) && (fragSlices e.p e.f).contains k then (sliceOf p k).draw + 1
        else (sliceOf p k).draw } := by
  unfold advanceDraws
  by_cases hd : (e.l.det && inSup e.f) = true
  · simp [hd]
  · simp only [hd, Bool.false_eq_true, if_false]
    have hm : fragSlices p e.f = fragSlices e.p e.f := by simp [fragSlices, hl]
    rw [hm]
    have hk : ∀ k ∈ fragSlices e.p e.f, k < p.slices.length := fun k hk => by rw [hl]; exact (mem_fragSlices.1 hk).1
    refine ⟨(sliceOf_foldl_modify _ _ (fragSlices_nodup _ _) p hk 0).1, (sliceOf_foldl_modify _ _ (fragSlices_nodup _ _) p hk 0).2.1,
      fun k => ?_⟩
    rw [(sliceOf_foldl_modify _ _ (fragSlices_nodup _ _) p hk k).2.2]
    by_cases h : k ∈ fragSlices e.p e.f
    · simp [h]
    · simp [h]

theorem perLane_spec (e : Issuer) (d : Dst) (g : (Nat → Nat) → Nat → Nat × Nat) (rd : Nat → Nat → Nat) (act : List Nat) :
    perLane e d g rd act (outLanes d act) =
      ((outLanes d act).map (fun l => (l, (g (fun i => rd i l) l).1)),
       laneFlags e d act fun l => (g (fun i => rd i l) l).2) := by
  unfold perLane laneFlags outLanes
  by_cases hu : usesUniform d = true
  · cases act with
    | nil => simp [hu]
    | cons a act => simp [hu]
  · simp [hu]

theorem laneFlags_bound {e : Issuer} {d : Dst} {act : List Nat} {f : Nat → Nat} (h : ∀ l ∈ act, l / 4 < e.p.slices.length) :
    ∀ x ∈ laneFlags e d act f, x.1 / 4 < e.p.slices.length := by
  intro x hx
  unfold laneFlags at hx
  split at hx
  · split at hx
    · simp at hx
    · obtain ⟨k, hk, rfl⟩ := List.mem_map.1 hx
      have := (mem_fragSlices.1 hk).1
      simpa using this
  · obtain ⟨l, hl, rfl⟩ := List.mem_map.1 hx
    exact h l hl

/-- A computing instruction whose computation is lane by lane. -/
theorem gives_perLane {i : Instr} {s : State} {e : Issuer} {len : Nat} {pr : Pred} {srcs : List Opnd} {d : Dst} {nowb : Bool}
    {n : Nat} {draws : Bool} {g : (Nat → Nat) → Nat → Nat × Nat} {val : (Nat → Nat → Nat) → Nat → Nat × Nat} {body : Issuer → Act} {sup : Bool}
    (hx : exec i s = issue s len .any sup body) (hs : sup = false ∨ inSup e.f = true)
    (hb : body e = alu s e pr srcs d nowb n (perLane e d g) (if draws then advanceDraws e else id))
    (hv : val = fun rd l => g (fun i => rd i l) l) : Gives i s e len pr srcs d nowb n draws val := by
  subst hv
  intro h hr
  rw [hx, issue_next h (burstOk_any _) hs, hb]
  have hlane : ∀ l ∈ activeLanes e pr, l / 4 < e.p.slices.length := fun l hl => mem_activeLanes hl
  obtain ⟨s', r, h1, h2⟩ := alu_spec (len := len) h.2 hr.1 hr.2 (f := perLane e d g) (post := if draws then advanceDraws e else id)
    (nowb := nowb)
    (fun l => (g (fun i => reader e srcs i l) l).1) (laneFlags e d (activeLanes e pr) fun l => (g (fun i => reader e srcs i l) l).2)
    (fun _ x => x) (fun k x => if draws && !(e.l.det && inSup e.f) && (fragSlices e.p e.f).contains k then x + 1 else x)
    (fun _ => perLane_spec e d g (reader e srcs) (activeLanes e pr))
    (fun ha => by rw [ha]; simp [laneFlags]) (laneFlags_bound hlane)
    (fun p hl => by
      cases draws with
      | true => exact advanceDraws_spec e p hl
      | false => exact ⟨rfl, rfl, fun k => by simp⟩)
  refine ⟨retire s' e len r, ?_, h2⟩
  rw [h1]
  rfl

/-- The shapes that most computing instructions have. -/
theorem gives_float {i : Instr} {s : State} {e : Issuer} {len : Nat} {g : Gen} {srcs : List Opnd}
    {f : Fmt → Rnd → (Nat → Nat) → Nat × Nat} {body : Issuer → Act} (hx : exec i s = issue s len .any false body)
    (hb : body e = floatAct s e g srcs f) :
    Gives i s e len g.pred srcs g.dst g.nowb (nregs g.ty) false (floatVal g.ty g.rnd g.sat f) :=
  gives_perLane hx (.inl rfl) hb rfl

theorem gives_int {i : Instr} {s : State} {e : Issuer} {len : Nat} {g : Gen} {srcs : List Opnd}
    {x : (Nat → Int) → Int} {body : Issuer → Act} (hx : exec i s = issue s len .any false body)
    (hb : body e = intAct s e g srcs x) :
    Gives i s e len g.pred srcs g.dst g.nowb (nregs g.ty) false (intVal g.ty g.sat x) :=
  gives_perLane hx (.inl rfl) hb rfl

theorem gives_word {i : Instr} {s : State} {e : Issuer} {len n : Nat} {g : Gen} {srcs : List Opnd}
    {f : (Nat → Nat) → Nat} {body : Issuer → Act} (hx : exec i s = issue s len .any false body)
    (hb : body e = wordAct s e g srcs n f) :
    Gives i s e len g.pred srcs g.dst g.nowb n false (wordVal f) :=
  gives_perLane hx (.inl rfl) hb rfl

/-- A computing instruction whose results come from its lanes together. -/
theorem yields_lanes {i : Instr} {s : State} {e : Issuer} {len : Nat} {pr : Pred} {srcs : List Opnd} {d : Dst} {nowb : Bool}
    {n : Nat} {f : (Nat → Nat → Nat) → List Nat → List Nat → List (Nat × Nat) × List (Nat × Nat)}
    {val : (Nat → Nat → Nat) → Nat → Nat} {fp : (Nat → Nat → Nat) → Nat → BitVec 8 → BitVec 8} {body : Issuer → Act}
    (hx : exec i s = issue s len .any false body) (hb : body e = alu s e pr srcs d nowb n f id) (fs : List (Nat × Nat))
    (hf : activeLanes e pr ≠ [] → f (reader e srcs) (activeLanes e pr) (outLanes d (activeLanes e pr)) =
      ((outLanes d (activeLanes e pr)).map (fun l => (l, val (reader e srcs) l)), fs))
    (hfs : ∀ x ∈ fs, x.1 ∈ activeLanes e pr) (hfp : ∀ k x, fp (reader e srcs) k x = x ||| sliceFlags fs k) :
    Yields i s e len pr srcs d nowb n val fp := by
  intro h hr
  rw [hx, issue_next h (burstOk_any _) (.inl rfl), hb]
  obtain ⟨s', r, h1, h2⟩ := alu_spec (len := len) h.2 hr.1 hr.2 (f := f) (post := id) (nowb := nowb)
    (val (reader e srcs)) fs (fun _ x => x) (fun _ x => x) hf
    (fun ha => by
      cases fs with
      | nil => rfl
      | cons x fs => exact absurd (hfs x List.mem_cons_self) (by simp [ha]))
    (fun x hx => mem_activeLanes (hfs x hx)) (fun p _ => ⟨rfl, rfl, fun _ => rfl⟩)
  refine ⟨retire s' e len r, by rw [h1]; rfl, ?_⟩
  have : (fun k => fp (reader e srcs) k (sliceOf e.p k).fpstat) = fun k => (sliceOf e.p k).fpstat ||| sliceFlags fs k :=
    funext fun k => hfp k _
  rw [this]
  exact h2

theorem or_or_self (x y : BitVec 8) : x ||| y ||| y = x ||| y := by
  rw [BitVec.or_assoc, BitVec.or_self]

/-- The flags of a tree go into every slice with an active lane (R295). -/
theorem sliceFlags_flagSlices (act : List Nat) (fl k : Nat) :
    sliceFlags (flagSlices act fl) k = if activeSlice act k then BitVec.ofNat 8 fl else 0 := by
  have gen : ∀ (m : BitVec 8), ((flagSlices act fl).filter fun x => x.1 / 4 == k).foldl (fun m x => m ||| BitVec.ofNat 8 x.2) m =
      if activeSlice act k then m ||| BitVec.ofNat 8 fl else m := by
    induction act with
    | nil => intro m; rfl
    | cons a act ih =>
      intro m
      have hc : flagSlices (a :: act) fl = (a, fl) :: flagSlices act fl := rfl
      have hs : activeSlice (a :: act) k = ((a / 4 == k) || activeSlice act k) := rfl
      rw [hc, List.filter_cons, hs]
      cases hb : (a / 4 == k) with
      | true =>
        simp only [if_true, List.foldl_cons, ih, Bool.true_or]
        cases activeSlice act k with
        | true => exact or_or_self _ _
        | false => rfl
      | false => simp only [Bool.false_eq_true, if_false, ih, Bool.false_or]
  rw [sliceFlags, gen 0]
  simp

theorem flagSlices_mem {act : List Nat} {fl : Nat} : ∀ x ∈ flagSlices act fl, x.1 ∈ act := by
  intro x hx
  obtain ⟨l, hl, rfl⟩ := List.mem_map.1 hx
  exact hl

/-- No flags change nothing. -/
theorem no_flags (k : Nat) (x : BitVec 8) : x = x ||| sliceFlags [] k := by simp [sliceFlags]

/-- A change of every copy of a fragment, slice by slice. -/
theorem modFpstat_spec (e : Issuer) (g : BitVec 8 → BitVec 8) (p : Pack) (hl : p.slices.length = e.p.slices.length) :
    modFpstat p e.f g = { p with slices := (modFpstat p e.f g).slices } ∧
    (modFpstat p e.f g).slices.length = p.slices.length ∧
    ∀ k, sliceOf (modFpstat p e.f g) k = { sliceOf p k with
      fpstat := if k ∈ fragSlices e.p e.f then g (sliceOf p k).fpstat else (sliceOf p k).fpstat } := by
  unfold modFpstat
  have hm : fragSlices p e.f = fragSlices e.p e.f := by simp [fragSlices, hl]
  rw [hm]
  have hk : ∀ k ∈ fragSlices e.p e.f, k < p.slices.length := fun k hk => by rw [hl]; exact (mem_fragSlices.1 hk).1
  refine ⟨(sliceOf_foldl_modify _ _ (fragSlices_nodup _ _) p hk 0).1, (sliceOf_foldl_modify _ _ (fragSlices_nodup _ _) p hk 0).2.1,
    fun k => ?_⟩
  rw [(sliceOf_foldl_modify _ _ (fragSlices_nodup _ _) p hk k).2.2]
  by_cases h : k ∈ fragSlices e.p e.f
  · simp [h]
  · simp [h]

/-- Flags that are zero raise nothing. -/
theorem zeroFlags (e : Issuer) (d : Dst) (act : List Nat) (k : Nat) : sliceFlags (laneFlags e d act fun _ => 0) k = 0 := by
  have gen : ∀ (fs : List (Nat × Nat)) (_ : ∀ x ∈ fs, x.2 = 0) (m : BitVec 8),
      fs.foldl (fun m x => m ||| BitVec.ofNat 8 x.2) m = m := by
    intro fs
    induction fs with
    | nil => intros; rfl
    | cons a fs ih => intro h m; rw [List.foldl_cons, h a List.mem_cons_self, ih (fun x hx => h x (List.mem_cons_of_mem _ hx))]; simp
  refine gen _ ?_ 0
  intro x hx
  have hx := (List.mem_filter.1 hx).1
  unfold laneFlags at hx
  split at hx
  · split at hx
    · simp at hx
    · obtain ⟨k, hk, rfl⟩ := List.mem_map.1 hx; rfl
  · obtain ⟨k, hk, rfl⟩ := List.mem_map.1 hx; rfl

/-- FSTAT: what it reads and what becomes of the copies. -/
theorem yields_fstat {i : Instr} {s : State} {e : Issuer} (g : Gen) (f : BitVec 8 → BitVec 8 → BitVec 8)
    (hx : exec i s = issue s 8 .any false fun e => fstatAct s e g f) :
    Yields i s e 8 g.pred [opn32 g.a] g.dst g.nowb 1
    (fun _ _ => ((fragSlices e.p e.f).foldl (fun m k => m ||| (sliceOf e.p k).fpstat) 0).toNat)
    (fun _ k c => if activeLanes e g.pred ≠ [] ∧ k ∈ fragSlices e.p e.f then f c (BitVec.ofNat 8 (uniVal e g.a)) else c) := by
  intro h hr
  rw [hx, issue_next h (burstOk_any _) (.inl rfl)]
  obtain ⟨s', r, h1, h2⟩ := alu_spec (len := 8) h.2 hr.1 hr.2
    (f := perLane e g.dst fun _ _ => ((fpstatOf e.p e.f).toNat, 0)) (post := fun p =>
      if (activeLanes e g.pred).isEmpty then p else modFpstat p e.f fun x => f x (BitVec.ofNat 8 (uniVal e g.a))) (nowb := g.nowb)
    (fun _ => (fpstatOf e.p e.f).toNat) (laneFlags e g.dst (activeLanes e g.pred) fun _ => 0)
    (fun k x => if activeLanes e g.pred ≠ [] ∧ k ∈ fragSlices e.p e.f then f x (BitVec.ofNat 8 (uniVal e g.a)) else x) (fun _ x => x)
    (fun _ => perLane_spec e g.dst (fun _ _ => ((fpstatOf e.p e.f).toNat, 0)) (reader e [opn32 g.a]) (activeLanes e g.pred))
    (fun ha => by rw [ha]; simp [laneFlags]) (laneFlags_bound fun l hl => mem_activeLanes hl)
    (fun p hl => by
      cases ha : activeLanes e g.pred with
      | nil => exact ⟨rfl, rfl, fun k => by simp⟩
      | cons a l =>
        have := modFpstat_spec e (fun x => f x (BitVec.ofNat 8 (uniVal e g.a))) p hl
        refine ⟨this.1, this.2.1, fun k => (this.2.2 k).trans ?_⟩
        simp)
  refine ⟨retire s' e 8 r, ?_, ?_⟩
  · show Host.Outcome.next (finish s e 8 (fstatAct s e g f)) = _
    unfold fstatAct
    dsimp only
    rw [h1]; rfl
  · have hz : ∀ x : BitVec 8, x ||| 0 = x := fun x => by simp
    simp only [zeroFlags, hz] at h2
    exact h2


end Sys2Proof.Laws
end

