-- ==== Sys2Proof/Laws/Completes.lean ====
section
/-! SUPPORT. From an instruction's own effect to its completion: an instruction that issues and ends with `.ok` is retired as `Retired`
says. -/

namespace Sys2Proof.Laws

open Sys2Proof Sys2Proof.Machine Sys2Proof.Safety

theorem latchesShift_retired {s : State} {e e' : Issuer} {r : Retire} (hr : r.endRun = false) {g : Fragment}
    (h : ∀ k l, latchVal g k l = latchVal (retiredFrag s e e' r) k l ∧ latchValid g k = latchValid (retiredFrag s e e' r) k) :
    LatchesShift e'.f g r.res := by
  have hx : ∀ k l, latchVal g k l = latchVal { e'.f with latches := shiftLatches e'.f.latches e'.f.burst.isSome r.res } k l ∧
      latchValid g k = latchValid { e'.f with latches := shiftLatches e'.f.latches e'.f.burst.isSome r.res } k := fun k l =>
    ⟨(h k l).1.trans (retiredFrag_latches hr k l).1, (h k l).2.trans (retiredFrag_latches hr k l).2⟩
  generalize r.res = res at hx
  cases res with
  | none => exact fun k => ⟨(hx k 0).2, fun l => (hx k l).1⟩
  | some v =>
    have ht : ∀ x (k : Nat), k < 7 → ((x :: e'.f.latches).take 8)[k + 1]? = e'.f.latches[k]? := by
      intro x k hk
      rw [List.getElem?_take, if_pos (by omega), List.getElem?_cons_succ]
    refine ⟨by rw [(hx 0 0).2]; rfl, fun l => by rw [(hx 0 l).1]; rfl, fun k hk => ⟨?_, fun l => ?_⟩⟩
    · rw [(hx (k + 1) 0).2]; simp only [latchValid, shiftLatches, ht _ k hk]
    · rw [(hx (k + 1) l).1]; simp only [latchVal, shiftLatches, ht _ k hk]

/-- Retirement does what `Retired` says. -/
theorem retired_retire {m : State} {e e' : Issuer} {len : Nat} {r : Retire} (h : issuerAt m e.ref = some e') :
    Retired m (retire m e len r) e len r := by
  obtain ⟨h1, p, h2, h3, h4, h5, h6⟩ := retire_spec (len := len) (r := r) h
  refine ⟨h1, e', p, h, h2, h3, h4, h5, fun g hg hgf => ?_⟩
  rcases h6 with h6 | ⟨all, ms, pc, h6⟩
  · rw [h6, Option.some.injEq] at hg
    subst hg
    exact absurd rfl hgf
  · rw [h6, Option.some.injEq] at hg
    subst hg
    have hF := retiredFrag_pc m e e' r
    refine ⟨hF.2.2.1, hF.2.2.2, fun hr => latchesShift_retired hr fun k l => ⟨rfl, rfl⟩, fun hr => ?_, fun hr n hn => ?_⟩
    · have hz : ∀ f : Fragment, ∀ k, latchValid (dropLatches f) k = false := by
        intro f k
        simp only [latchValid, dropLatches, List.getElem?_map]
        cases f.latches[k]? <;> rfl
      unfold retiredFrag
      rw [if_pos hr]
      exact ⟨rfl, fun k => hz _ k⟩
    · unfold retiredFrag
      simp only [hr, hn, Bool.false_eq_true, if_false]
      refine ⟨_, rfl, ?_, rfl⟩
      simp only [countIn]
      rw [burstNext_eq]

/-- An instruction that issues where it may stand and ends with an effect completes. -/
theorem completes {i : Instr} {s m : State} {e e' : Issuer} {len : Nat} {place : BurstPlace} {sup : Bool} {body : Issuer → Act}
    {r : Retire} {P : State → Retire → Prop} (hx : exec i s = issue s len place sup body) (h : Issues s e)
    (hb : burstOk e.f place = true) (hs : sup = false ∨ inSup e.f = true) (ha : body e = .ok m r)
    (hm : issuerAt m e.ref = some e') (hP : P m r) : Completes i s e len P := by
  refine ⟨m, r, retire m e len r, ?_, retired_retire hm, hP⟩
  rw [hx, issue_next h hb hs, ha]
  rfl

/-! ## Effects on the issuer's pack -/

theorem packIs_set {s : State} {e : Issuer} (h : issuerAt s e.ref = some e) {p : Pack} (h1 : p.pidx = e.p.pidx)
    (h2 : p.pos = e.p.pos) : PackIs s (setBlock s (setPack e.b p)) e p := by
  obtain ⟨-, i1, i2, -, -⟩ := issuerAt_eq.1 h
  have hk := getPack_key i2
  refine ⟨onlyPack_setBlock i1 i2 h1 h2, ?_⟩
  unfold packNow
  rw [getBlock_setBlock i1 (b := setPack e.b p) (show e.b.bid = _ from getBlock_bid i1)]
  exact getPack_setPack i2 (h1.trans hk.1) (h2.trans hk.2)

theorem issuerAt_set {s : State} {e : Issuer} (h : issuerAt s e.ref = some e) {p : Pack} (h1 : p.pidx = e.p.pidx)
    (h2 : p.pos = e.p.pos) {f : Fragment} (hf : getFrag p e.ref.frag = some f) :
    issuerAt (setBlock s (setPack e.b p)) e.ref = some { ref := e.ref, b := setPack e.b p, p, f, l := e.l } := by
  obtain ⟨-, i1, i2, -, -⟩ := issuerAt_eq.1 h
  have hk := getPack_key i2
  exact issuerAt_setBlock h (show e.b.bid = _ from getBlock_bid i1) rfl
    (getPack_setPack i2 (h1.trans hk.1) (h2.trans hk.2)) hf

theorem issuer_frag {s : State} {e : Issuer} (h : issuerAt s e.ref = some e) : getFrag e.p e.ref.frag = some e.f :=
  (issuerAt_eq.1 h).2.2.2.2

/-- An effect on the issuer's pack alone that keeps its fragments. -/
theorem completes_pack {i : Instr} {s : State} {e : Issuer} {len : Nat} {place : BurstPlace} {sup : Bool}
    {body : Issuer → Act} {r : Retire} {P : State → Retire → Prop} {p : Pack} (hx : exec i s = issue s len place sup body)
    (h : Issues s e) (hb : burstOk e.f place = true) (hs : sup = false ∨ inSup e.f = true)
    (ha : body e = .ok (setBlock s (setPack e.b p)) r) (h1 : p.pidx = e.p.pidx) (h2 : p.pos = e.p.pos)
    (hf : p.frags = e.p.frags) (hP : PackIs s (setBlock s (setPack e.b p)) e p → P (setBlock s (setPack e.b p)) r) :
    Completes i s e len P :=
  completes hx h hb hs ha (issuerAt_set h.2 h1 h2 (f := e.f) (by
    have := issuer_frag h.2
    unfold getFrag at *
    rw [hf]; exact this)) (hP (packIs_set h.2 h1 h2))

/-- An instruction that waits changes its own fragment alone. -/
theorem waits {i : Instr} {s : State} {e : Issuer} {len : Nat} {place : BurstPlace} {sup : Bool} {body : Issuer → Act}
    {st : FragState} {w : Wait} (hx : exec i s = issue s len place sup body) (h : Issues s e)
    (hb : burstOk e.f place = true) (hs : sup = false ∨ inSup e.f = true) (ha : body e = .wait st w) : Waits i s e st w := by
  refine ⟨setBlock s (setPack e.b (setFrag e.p e.ref.frag { e.f with st, wait := w, since := s.tick, gang := 0 })), ?_, ?_⟩
  · rw [hx, issue_next h hb hs, ha]
    simp only [finish, putFrag_eq h.2]
  · exact packIs_set h.2 rfl rfl

theorem putS_eq (sup : Bool) (r : Nat) (x : Word) (p : Pack) :
    putS sup r x p = { p with s := (putS sup r x p).s, sb := (putS sup r x p).sb, badS := (putS sup r x p).badS } := by
  unfold putS
  split <;> split <;> rfl

theorem putSRange_eq (sup : Bool) (r x n : Nat) (p : Pack) :
    putSRange sup r x n p =
      { p with s := (putSRange sup r x n p).s, sb := (putSRange sup r x n p).sb, badS := (putSRange sup r x n p).badS } := by
  induction n generalizing r x p with
  | zero => rfl
  | succ n ih =>
    have h1 := putS_eq sup r (BitVec.ofNat 32 x) p
    have h2 := ih (r + 1) (x / 2 ^ 32) (putS sup r (BitVec.ofNat 32 x) p)
    rw [putSRange]
    generalize putSRange sup (r + 1) (x / 2 ^ 32) n (putS sup r (BitVec.ofNat 32 x) p) = u at h2 ⊢
    generalize putS sup r (BitVec.ofNat 32 x) p = v at h1 h2
    generalize v.s = a1, v.sb = a2, v.badS = a3 at h1
    subst h1
    exact h2

/-- Writes to uniform registers. -/
theorem setsUniform_putSRange (sup : Bool) (r x n : Nat) (p : Pack) : SetsUniform p (putSRange sup r x n p) sup r n x :=
  ⟨putSRange_eq sup r x n p, fun b k => getS_putSRange sup b r x n k p⟩

end Sys2Proof.Laws
end

