-- ==== Sys2Proof/Laws/Regroup.lean ====
section
/-! SUPPORT. Lemmas about the instructions that regroup slices and packs (R50, R56, R61): lists of packs, merged draw counters, clocks
counted together. -/

namespace Sys2Proof.Laws

open Sys2Proof Sys2Proof.Machine Sys2Proof.Safety

/-- A search in a list whose chosen elements were replaced by a list. -/
theorem find_flatMap {α : Type} (P Q : α → Bool) (subs : List α) {y : α} (L : List α) {x : α} (hx : L.find? Q = some x)
    (h1 : ∀ q ∈ L, Q q = false → P q = false) (hy : subs.find? P = some y) :
    (L.flatMap fun q => if Q q then subs else [q]).find? P = some y := by
  induction L with
  | nil => simp at hx
  | cons a L ih =>
    rw [List.flatMap_cons, List.find?_append]
    cases ha : Q a with
    | true => simp [hy]
    | false =>
      have hp := h1 a List.mem_cons_self ha
      simp only [Bool.false_eq_true, if_false, List.find?_cons, hp, List.find?_nil, Option.none_or]
      exact ih (by simpa [ha] using hx) (fun q hq => h1 q (List.mem_cons_of_mem _ hq))

theorem find_range {α : Type} (g : Nat → α) (P : α → Bool) (n j : Nat) (hj : j < n) (hp : P (g j) = true)
    (hn : ∀ i, i < j → P (g i) = false) : ((List.range n).map g).find? P = some (g j) := by
  induction n with
  | zero => omega
  | succ n ih =>
    rw [List.range_succ, List.map_append, List.find?_append]
    by_cases h : j < n
    · rw [ih h]; rfl
    · have : j = n := by omega
      subst this
      have : ((List.range j).map g).find? P = none := by
        rw [List.find?_eq_none]
        intro x hx
        obtain ⟨i, hi, rfl⟩ := List.mem_map.1 hx
        simp [hn i (List.mem_range.1 hi)]
      rw [this]
      simp [hp]

theorem onlyPack_refl (s : State) (r : FragRef) : OnlyPack s s r :=
  ⟨rfl, fun _ _ => rfl, fun b hb => ⟨b, hb, rfl, fun _ _ _ => rfl⟩, fun _ => rfl⟩

theorem onlyPack_charges {s t : State} {r : FragRef} (h : OnlyPack s t r) {α : Type} (E : α → Option Issuer) (js : List α) :
    OnlyPack s (js.foldl (fun s j => match E j with | some e => chargeIssue s e | none => s) t) r ∧
    (js.foldl (fun s j => match E j with | some e => chargeIssue s e | none => s) t).blocks = t.blocks := by
  induction js generalizing t with
  | nil => exact ⟨h, rfl⟩
  | cons a js ih =>
    rw [List.foldl_cons]
    cases E a with
    | none => exact ih h
    | some e =>
      obtain ⟨h1, h2⟩ := ih (onlyPack_charge h e)
      exact ⟨h1, h2.trans (by rw [chargeIssue_eq])⟩

/-- Freeing the entries of a list but one. -/
theorem freeOthers (i : Nat) (js : List Nat) (p : Pack) :
    let q := js.foldl (fun p j => if j = i then p else setFrag p j freeFrag) p
    q = { p with frags := q.frags } ∧ getFrag q i = getFrag p i := by
  induction js generalizing p with
  | nil => exact ⟨rfl, rfl⟩
  | cons j js ih =>
    rw [List.foldl_cons]
    by_cases hj : j = i
    · rw [if_pos hj]; exact ih p
    · rw [if_neg hj]
      obtain ⟨h1, h2⟩ := ih (setFrag p j freeFrag)
      exact ⟨h1, h2.trans (getFrag_setFrag_other hj)⟩

/-- Clocks counted once for each of a list. -/
theorem counts (l : Launch) (sup : Bool) (js : List Nat) (p : Pack) :
    let q := js.foldl (fun p _ => countClock l sup false p) p
    q = { p with lclock := if l.det && sup then p.lclock else p.lclock + js.length, ended := q.ended } := by
  induction js generalizing p with
  | nil => simp
  | cons j js ih =>
    rw [List.foldl_cons]
    have h1 := ih (countClock l sup false p)
    have h2 := countClock_eq l sup false p
    dsimp only at h1 ⊢
    generalize js.foldl (fun p _ => countClock l sup false p) (countClock l sup false p) = q at h1 ⊢
    generalize countClock l sup false p = u at h1 h2
    generalize q.ended = qe at h1 ⊢
    generalize u.ended = ue at h2
    subst h2
    rw [h1]
    cases l.det && sup
    · simp; omega
    · simp

theorem maxDraw (p : Pack) (ks : List Nat) (m : BitVec 22) :
    let r := ks.foldl (fun m k => if m < (sliceOf p k).draw then (sliceOf p k).draw else m) m
    m ≤ r ∧ (∀ k ∈ ks, (sliceOf p k).draw ≤ r) ∧ (r = m ∨ ∃ k ∈ ks, r = (sliceOf p k).draw) := by
  induction ks generalizing m with
  | nil => exact ⟨BitVec.le_refl _, by simp, .inl rfl⟩
  | cons a ks ih =>
    rw [List.foldl_cons]
    obtain ⟨h1, h2, h3⟩ := ih (if m < (sliceOf p a).draw then (sliceOf p a).draw else m)
    refine ⟨?_, ?_, ?_⟩
    · refine BitVec.le_trans ?_ h1
      split
      · exact BitVec.le_of_lt ‹_›
      · exact BitVec.le_refl _
    · intro k hk
      rcases List.mem_cons.1 hk with rfl | hk
      · refine BitVec.le_trans ?_ h1
        split
        · exact BitVec.le_refl _
        · exact BitVec.not_lt.1 ‹_›
      · exact h2 k hk
    · rcases h3 with h3 | ⟨k, hk, h3⟩
      · by_cases hc : m < (sliceOf p a).draw
        · right; exact ⟨a, List.mem_cons_self, by rw [h3, if_pos hc]⟩
        · left; rw [h3, if_neg hc]
      · right; exact ⟨k, List.mem_cons_of_mem _ hk, h3⟩

/-- Merged slices take the largest draw counter (R214). -/
theorem mergeDraws_spec (p : Pack) (ks : List Nat) (hnd : ks.Nodup) (hk : ∀ k ∈ ks, k < p.slices.length) :
    ∃ m : BitVec 22, mergeDraws p ks = { p with slices := (mergeDraws p ks).slices } ∧
      (mergeDraws p ks).slices.length = p.slices.length ∧
      (∀ j, sliceOf (mergeDraws p ks) j = if j ∈ ks then { sliceOf p j with draw := m } else sliceOf p j) ∧
      (∀ k ∈ ks, (sliceOf p k).draw ≤ m) ∧ (ks ≠ [] → ∃ k ∈ ks, m = (sliceOf p k).draw) := by
  obtain ⟨h1, h2, h3⟩ := maxDraw p ks 0
  generalize hm : ks.foldl (fun m k => if m < (sliceOf p k).draw then (sliceOf p k).draw else m) (0 : BitVec 22) = m at h1 h2 h3
  have he : mergeDraws p ks = { p with slices := ks.foldl (fun l k => l.modify k fun sl => { sl with draw := m }) p.slices } := by
    rw [← hm]; rfl
  have hf : ∀ (ks : List Nat) (p : Pack), ks.foldl (fun p k => { p with slices := p.slices.modify k fun sl : Slice => { sl with draw := m } }) p =
      { p with slices := ks.foldl (fun l k => l.modify k fun sl => { sl with draw := m }) p.slices } := by
    intro ks
    induction ks with
    | nil => intro p; rfl
    | cons a ks ih => intro p; rw [List.foldl_cons, ih]; rfl
  have hs := sliceOf_foldl_modify (fun sl => { sl with draw := m }) ks hnd p hk
  rw [← hf] at he
  refine ⟨m, ?_, ?_, ?_, h2, ?_⟩
  · rw [he]; exact (hs 0).1
  · rw [he]; exact (hs 0).2.1
  · intro j; rw [he]; exact (hs j).2.2
  · intro hne
    rcases h3 with h3 | h3
    · cases ks with
      | nil => exact absurd rfl hne
      | cons a ks =>
        refine ⟨a, List.mem_cons_self, ?_⟩
        have := h2 a List.mem_cons_self
        rw [h3] at this ⊢
        exact (BitVec.le_zero_iff.1 this).symm
    · exact h3

/-- The union of the slices of entries. -/
theorem orAll (p : Pack) (js : List Nat) (m : BitVec 16) (k : Nat) :
    (js.foldl (fun m j => m ||| (match getFrag p j with | some g => g.slices | none => 0)) m).getLsbD k = true ↔
      m.getLsbD k = true ∨ ∃ j ∈ js, ∃ x, getFrag p j = some x ∧ x.slices.getLsbD k = true := by
  induction js generalizing m with
  | nil => simp
  | cons a js ih =>
    rw [List.foldl_cons, ih]
    cases ha : getFrag p a with
    | none =>
      simp only [List.mem_cons]
      constructor
      · rintro (h | ⟨j, hj, h⟩)
        · exact .inl (by simpa using h)
        · exact .inr ⟨j, .inr hj, h⟩
      · rintro (h | ⟨j, hj | hj, x, hx, h⟩)
        · exact .inl (by simpa using h)
        · subst hj; rw [ha] at hx; cases hx
        · exact .inr ⟨j, hj, x, hx, h⟩
    | some g =>
      simp only [BitVec.getLsbD_or, Bool.or_eq_true, List.mem_cons]
      constructor
      · rintro ((h | h) | ⟨j, hj, h⟩)
        · exact .inl h
        · exact .inr ⟨a, .inl rfl, g, ha, h⟩
        · exact .inr ⟨j, .inr hj, h⟩
      · rintro (h | ⟨j, hj | hj, x, hx, h⟩)
        · exact .inl (.inl h)
        · subst hj; rw [ha, Option.some.injEq] at hx; subst hx; exact .inl (.inr h)
        · exact .inr ⟨j, hj, x, hx, h⟩

end Sys2Proof.Laws
end

