-- ==== Sys2Proof/Laws/Memory.lean ====
section
/-! SUPPORT. Memory: what charging leaves alone, reads and writes of bytes, and the accesses of lanes. -/

namespace Sys2Proof.Laws

open Sys2Proof Sys2Proof.Machine Sys2Proof.Safety

/-! ## Charging -/

theorem charged_refl (s : State) : Charged s s := ⟨rfl, fun _ => rfl, fun x h => ⟨x, h, rfl⟩⟩

theorem charged_trans {s t u : State} (h : Charged s t) (k : Charged t u) : Charged s u := by
  refine ⟨?_, fun c => (k.cores c).trans (h.cores c), fun x hx => ?_⟩
  · have h1 := h.device
    generalize t.tlb = T, t.walks = W, t.l2 = L, t.cores = K, t.budget = U, t.shadows = H, t.activity = A, t.free = C at h1
    subst h1
    exact k.device
  · obtain ⟨y, hy, hxy⟩ := k.tlb x hx
    obtain ⟨z, hz, hyz⟩ := h.tlb y hy
    exact ⟨z, hz, by rw [hxy, hyz]⟩

/-- Most of what charging changes touches no core and no TLB. -/
theorem charged_of {s t : State} (h : t = { s with walks := t.walks, l2 := t.l2, budget := t.budget, shadows := t.shadows,
                                                     activity := t.activity, free := t.free }) : Charged s t := by
  have hc : t.cores = s.cores := by rw [h]
  have ht : t.tlb = s.tlb := by rw [h]
  refine ⟨?_, fun c => ?_, fun x hx => ⟨x, ht ▸ hx, rfl⟩⟩
  · rw [hc, ht]; exact h
  · unfold coreOf; rw [hc]

theorem charged_count (s : State) (u r i n : Nat) : Charged s (count s u r i n) := charged_of rfl

theorem charged_charge (s : State) (u a r n : Nat) : Charged s (charge s u a r n) := charged_of rfl

theorem charged_chargeTier (s : State) (r pa n : Nat) : Charged s (chargeTier s r pa n) := charged_of rfl

theorem charged_chargeMem (s : State) (r pa n : Nat) : Charged s (chargeMem s r pa n) := charged_of rfl

theorem charged_chargeUncached (s : State) (r pa n : Nat) : Charged s (chargeUncached s r pa n) := by
  unfold chargeUncached
  split
  · exact charged_refl s
  · exact charged_chargeTier _ _ _ _

theorem charged_l2Evict (r : Nat) (s : State) (k : Nat) : Charged s (l2Evict r s k) := by
  unfold l2Evict
  split
  · exact charged_refl s
  · exact charged_of rfl

theorem charged_foldl {α : Type} (g : State → α → State) (h : ∀ s x, Charged s (g s x)) (l : List α) (s : State) :
    Charged s (l.foldl g s) := by
  induction l generalizing s with
  | nil => exact charged_refl s
  | cons a l ih => exact charged_trans (h s a) (ih _)

theorem charged_chargeSectors (s : State) (r : Nat) (as : List (Nat × Nat)) : Charged s (chargeSectors s r as) :=
  charged_foldl _ (fun s _ => charged_chargeMem s _ _ _) _ s

theorem charged_chargeDirect (s : State) (r : Nat) (as : List (Nat × Nat)) : Charged s (chargeDirect s r as) :=
  charged_foldl _ (fun s _ => charged_chargeUncached s _ _ _) _ s

theorem charged_noteMiss (ctx : Nat) (s : State) (va : Nat) : Charged s (noteMiss ctx s va) := by
  unfold noteMiss
  split
  · exact charged_refl s
  · split
    · exact charged_refl s
    · split
      · rename_i e he
        refine ⟨rfl, fun _ => rfl, fun x hx => ?_⟩
        rcases List.mem_cons.1 hx with rfl | hx
        · exact ⟨e, List.mem_of_find?_eq_some he, rfl⟩
        · exact ⟨x, hx, rfl⟩
      · dsimp only
        split
        · exact charged_of rfl
        · split
          · exact charged_of rfl
          · exact charged_refl s

theorem charged_chargeLanes (s : State) (e : Issuer) (m : M64) (n : Nat) (as : List (Nat × Nat)) :
    Charged s (chargeLanes s e m n as) :=
  charged_trans (charged_trans (charged_chargeSectors _ _ _) (charged_chargeDirect _ _ _))
    (charged_foldl _ (fun s _ => charged_noteMiss _ s _) _ _)

/-! ## The L1 -/

theorem coreOf_putCore (s : State) (c : Nat) (k : Core) (j : Nat) :
    coreOf (putCore s c k) j = if j = c then k else coreOf s j := by
  unfold coreOf putCore
  by_cases h : j = c
  · subst h
    rw [if_pos rfl]
    exact (spGet_spPut _ _ _ _ _).trans (if_pos rfl)
  · rw [if_neg h]
    dsimp only
    unfold spPut
    split
    · rw [spGet_spDel, if_neg h]
    · rw [spGet_spSet, if_neg h]

theorem charged_setL1 (s : State) (c : Nat) (ls : List L1Line) : Charged s (setL1 s c ls) := by
  refine ⟨rfl, fun j => ?_, fun x hx => ⟨x, hx, rfl⟩⟩
  unfold setL1
  rw [coreOf_putCore]
  split
  · subst_vars; rfl
  · rfl

theorem charged_l1DropRange (s : State) (c pa n : Nat) : Charged s (l1DropRange s c pa n) := charged_setL1 _ _ _

theorem charged_l1Store (s : State) (c pa : Nat) (bs : List Byte) : Charged s (l1Store s c pa bs) := charged_setL1 _ _ _

theorem charged_acquired (s : State) (e : Issuer) : Charged s (acquired s e) := charged_setL1 _ _ _

theorem charged_l1Fill (s : State) (c pa n : Nat) : Charged s (l1Fill s c pa n) := by
  unfold l1Fill
  dsimp only
  split
  · exact charged_setL1 _ _ _
  · exact charged_trans (t := { s with free := s.free + 1 }) (charged_of rfl) (charged_setL1 _ _ _)

theorem charged_lastRead (r c n : Nat) (s : State) (pa : Nat) : Charged s (lastRead r c n s pa) :=
  charged_trans (charged_l1DropRange _ _ _ _) (charged_foldl _ (fun s k => charged_l2Evict r s k) _ _)

theorem charged_l1After (e : Issuer) (m : M64) (far all : List (Nat × Nat)) (s : State) : Charged s (l1After e m far all s) := by
  unfold l1After
  dsimp only
  refine charged_trans (t := if wideAcquire m then acquired s e else s) ?_ ?_
  · split
    · exact charged_acquired s e
    · exact charged_refl s
  · generalize (if wideAcquire m then acquired s e else s) = u
    split
    · refine charged_foldl _ (fun s x => ?_) _ u
      split
      · exact charged_refl s
      · exact charged_lastRead _ _ _ _ _
    · refine charged_foldl _ (fun s x => ?_) _ u
      split
      · exact charged_l1Fill _ _ _ _
      · exact charged_refl s

/-! ## What charging leaves alone -/

theorem charged_blocks {s t : State} (h : Charged s t) : t.blocks = s.blocks := by rw [h.device]

theorem charged_launches {s t : State} (h : Charged s t) : t.launches = s.launches := by rw [h.device]

theorem charged_byte {s t : State} (h : Charged s t) (a : Nat) : gByte t a = gByte s a :=
  gByte_congr (charged_blocks h) (by rw [h.device]) a

theorem charged_issuer {s t : State} (h : Charged s t) (r : FragRef) : issuerAt t r = issuerAt s r := by
  unfold issuerAt getBlock getLaunch
  rw [charged_blocks h, charged_launches h]

/-! ## The accesses of lanes -/

theorem firstFault_none {ls : List (Nat × Option (Nat × Nat))} (h : ∀ x ∈ ls, x.2 = none) : firstFault ls = none := by
  have hf : ∀ c : Nat, (ls.filterMap fun x => match x.2 with
      | some (k, a) => if k = c then some (x.1, a) else none
      | none => none) = [] := by
    intro c
    rw [List.filterMap_eq_nil_iff]
    intro x hx
    rw [h x hx]
  unfold firstFault
  rw [List.findSome?_eq_none_iff]
  intro c _
  erw [hf]

theorem laneXlate_ok {s : State} {e : Issuer} {need : Need} {n va pa : Nat} (h : va % n = 0)
    (hx : xlate s e.l.ctx (inSup e.f) need va = .ok pa) : laneXlate s e need n va = .ok pa := by
  simp [laneXlate, h, hx]

/-- The translations of lanes that all succeed. -/
theorem xlate_lanes {s : State} {e : Issuer} {need : Need} {n : Nat} {lanes : List Nat} {addr pa : Nat → Nat}
    (h : ∀ l ∈ lanes, addr l % n = 0 ∧ xlate s e.l.ctx (inSup e.f) need (addr l) = .ok (pa l)) :
    lanes.map (fun l => (l, laneXlate s e need n (addr l))) = lanes.map (fun l => (l, (.ok (pa l) : Except (Nat × Nat) Nat))) :=
  List.map_congr_left fun l hl => by rw [laneXlate_ok (h l hl).1 (h l hl).2]

theorem memHold_subset {s : State} {e : Issuer} {ps qs : List Nat} (h : memHold s e ps = none) (hs : ∀ x ∈ qs, x ∈ ps) :
    memHold s e qs = none := by
  unfold memHold heldAmong at *
  rw [List.findSome?_eq_none_iff] at *
  exact fun x hx => h x (hs x hx)

theorem strictRace_subset {s : State} {e : Issuer} {ps qs : List Nat} (h : strictRace s e ps = false)
    (hs : ∀ x ∈ qs, x ∈ ps) : strictRace s e qs = false := by
  unfold strictRace at *
  simp only [Bool.and_eq_false_iff, List.any_eq_false] at *
  rcases h with h | h
  · exact .inl h
  · exact .inr fun x hx => h x (hs x hx)

/-! ## Results -/

theorem writeBack_all (sup : Bool) (d : Dst) (nowb : Bool) (n : Nat) (act : List Nat) (val : Nat → Nat) (p : Pack) :
    writeBack sup d nowb n (act.map fun l => (l, val l)) p =
      writeBack sup d nowb n ((outLanes d act).map fun l => (l, val l)) p := by
  cases d with
  | s r => cases act <;> rfl
  | _ => rfl

theorem latchOf_all (d : Dst) (act : List Nat) (val : Nat → Nat) :
    latchOf d act (act.map fun l => (l, val l)) = latchOf d act ((outLanes d act).map fun l => (l, val l)) := by
  cases d with
  | s r => cases act <;> rfl
  | _ => rfl

/-- A write-back into the issuer's pack is a `ResultOnly`. -/
theorem resultOnly_writeBack {t : State} {e : Issuer} (h : issuerAt t e.ref = some e) (d : Dst) (nowb : Bool)
    (n : Nat) {act : List Nat} (ha : ∀ l ∈ act, l / 4 < e.p.slices.length) (val : Nat → Nat) :
    ResultOnly t (putPack t e.ref.blk (writeBack (inSup e.f) d nowb n (act.map fun l => (l, val l)) e.p)) e d nowb n act val
      { res := latchOf d act (act.map fun l => (l, val l)) } := by
  have hw := writeBack_regs (inSup e.f) d nowb n val ha
  have hl := lanesOnly_writeBack (inSup e.f) d nowb n ((outLanes d act).map fun l => (l, val l)) e.p
  rw [writeBack_all, latchOf_all]
  generalize writeBack (inSup e.f) d nowb n ((outLanes d act).map fun l => (l, val l)) e.p = p at hw hl
  rw [putPack_eq (issuerAt_eq.1 h).2.1]
  have hp := packIs_set h (p := p) (by rw [hl.rest]) (by rw [hl.rest])
  exact ⟨hp.1, ⟨p, hp.2, hw, hl.rest, hl.slices⟩, rfl, (latchOf_spec d act val).1, (latchOf_spec d act val).2⟩

/-- The issuer after a write-back. -/
theorem issuer_writeBack {s t : State} {e : Issuer} (h : issuerAt s e.ref = some e) (ht : Charged s t) (d : Dst) (nowb : Bool)
    (n : Nat) (vals : List (Nat × Nat)) :
    ∃ e', issuerAt (putPack t e.ref.blk (writeBack (inSup e.f) d nowb n vals e.p)) e.ref = some e' := by
  have ht' : issuerAt t e.ref = some e := by rw [charged_issuer ht]; exact h
  have hl := lanesOnly_writeBack (inSup e.f) d nowb n vals e.p
  rw [putPack_eq (issuerAt_eq.1 ht').2.1]
  exact ⟨_, issuerAt_set ht' (by rw [hl.rest]) (by rw [hl.rest]) (f := e.f) (by
    have := issuer_frag h
    unfold getFrag at *
    rw [hl.rest]; exact this)⟩

/-! ## Bytes -/

theorem spGet_writeBytes (d : Byte) (bs : List Byte) (m : Sparse Byte) (a i : Nat) :
    spGet d (writeBytes d m a bs) i = if a ≤ i ∧ i < a + bs.length then bs.getD (i - a) 0 else spGet d m i := by
  induction bs generalizing m a with
  | nil => rw [writeBytes, if_neg (by simp)]
  | cons b bs ih =>
    rw [writeBytes, ih, spGet_spPut]
    by_cases h : i = a
    · subst h
      rw [if_neg (by omega), if_pos rfl, if_pos (by simp)]
      simp
    · rw [if_neg h]
      by_cases h2 : a + 1 ≤ i ∧ i < a + 1 + bs.length
      · rw [if_pos h2, if_pos (by simp only [List.length_cons]; omega)]
        obtain ⟨j, rfl⟩ := Nat.exists_eq_add_of_le h2.1
        have : a + 1 + j - a = j + 1 := by omega
        rw [this, List.getD_cons_succ]
        congr 1
        omega
      · rw [if_neg h2, if_neg (by simp only [List.length_cons]; omega)]

theorem ownerOf_line {s : State} {a b : Nat} (h : a / 128 = b / 128) : ownerOf s a = ownerOf s b := by
  unfold ownerOf
  rw [h]

theorem recallLine_unowned {s : State} {a : Nat} (h : ownerOf s a = none) : recallLine s a = s := by
  unfold recallLine
  rw [h]

/-- Where no stash owns a touched line nothing is recalled. -/
theorem recallRange_unowned {s : State} {pa n : Nat} (h : Unowned s pa n) : recallRange s pa n = s := by
  unfold recallRange
  split
  · rfl
  · rename_i hn
    have gen : ∀ (ks : List Nat), (∀ i ∈ ks, i < (pa + n - 1) / 128 - pa / 128 + 1) →
        ks.foldl (fun s i => recallLine s ((pa / 128 + i) * 128)) s = s := by
      intro ks
      induction ks with
      | nil => intro _; rfl
      | cons i ks ih =>
        intro hk
        rw [List.foldl_cons, recallLine_unowned, ih fun j hj => hk j (List.mem_cons_of_mem _ hj)]
        have hi := hk i List.mem_cons_self
        by_cases h0 : i = 0
        · subst h0
          have := h 0 (by omega)
          rw [← this]
          exact ownerOf_line (by omega)
        · have := h ((pa / 128 + i) * 128 - pa) (by omega)
          rw [← this]
          exact ownerOf_line (by omega)
    exact gen _ fun i hi => List.mem_range.1 hi

theorem clearPoison_small {p : List Nat} {a n : Nat} (h : n < 32) : clearPoison p a n = p := by
  unfold clearPoison
  rw [List.filter_eq_self]
  intro x _
  simp only [Bool.not_eq_true', Bool.and_eq_false_iff, decide_eq_false_iff_not]
  omega

theorem cutOff_up {s : State} (h : s.hi.mbhost.getLsbD 32 = false) (pa : Nat) : cutOff s pa = false := by
  unfold cutOff; rw [h]; rfl

/-- A state is another but for memory and what accesses leave in the caches and TLBs. -/
def Wrote (s t : State) : Prop := Charged { s with mem := t.mem } t

theorem wrote_mem (s : State) (m : Sparse Byte) {t : State} (h : Charged { s with mem := m } t) : Wrote s t := by
  have hm : t.mem = m := by rw [h.device]
  unfold Wrote; rw [hm]; exact h

theorem wrote_trans {s t u : State} (h : Wrote s t) (k : Wrote t u) : Wrote s u := by
  have hk : Charged { s with mem := u.mem } { t with mem := u.mem } :=
    ⟨by have h1 := h.device
        generalize t.tlb = T, t.walks = W, t.l2 = L, t.cores = K, t.budget = U, t.shadows = H, t.activity = A, t.free = C at h1 ⊢
        generalize t.mem = M at h1
        subst h1
        rfl, h.cores, h.tlb⟩
  exact charged_trans hk k

theorem wrote_charged {s t : State} (h : Charged s t) : Wrote s t := wrote_mem s s.mem h

/-- A short write to plain memory that no stash owns, with the host link up. -/
theorem gWrite_unowned {s : State} {pa : Nat} {bs : List Byte} (h : Unowned s pa bs.length) (hn : bs.length < 32)
    (hl : s.hi.mbhost.getLsbD 32 = false) :
    gWrite s pa bs = { s with mem := writeBytes Config.memDefault s.mem pa bs, l2 := l2Before s pa bs.length } := by
  unfold gWrite
  dsimp only
  rw [recallRange_unowned h, cutOff_up hl]
  simp only [Bool.false_eq_true, if_false, rawWrite, clearPoison_small hn]

theorem gByte_mem {s t : State} {a : Nat} (hb : t.blocks = s.blocks) (hm : rawByte t a = rawByte s a) :
    gByte t a = gByte s a := by
  have ho : ownerOf t a = ownerOf s a := by simp [ownerOf, hb]
  unfold gByte
  rw [ho, hm]

theorem gByte_unowned {s : State} {a : Nat} (h : ownerOf s a = none) : gByte s a = rawByte s a := by
  unfold gByte
  rw [h]

theorem leBytes_getD (n x i : Nat) (h : i < n) : (leBytes n x).getD i 0 = byteOf x i := by
  induction n generalizing x i with
  | zero => omega
  | succ n ih =>
    unfold leBytes
    cases i with
    | zero => simp [byteOf]
    | succ i =>
      rw [List.getD_cons_succ, ih _ _ (by omega)]
      unfold byteOf
      rw [Nat.div_div_eq_div_mul]
      congr 2
      rw [show 8 * (i + 1) = 8 + 8 * i by ring, Nat.pow_add]

theorem leBytes_length (n x : Nat) : (leBytes n x).length = n := by
  induction n generalizing x with
  | zero => rfl
  | succ n ih => simp [leBytes, ih]

theorem mod_two_pow_byteOf (x n i : Nat) (h : i < n) : byteOf (x % 2 ^ (8 * n)) i = byteOf x i := by
  unfold byteOf
  apply BitVec.eq_of_toNat_eq
  simp only [BitVec.toNat_ofNat]
  have h8 : 2 ^ (8 * n) = 2 ^ (8 * i) * 2 ^ (8 * (n - i)) := by rw [← Nat.pow_add]; congr 1; omega
  rw [h8, Nat.mod_mul_right_div_self]
  exact Nat.mod_mod_of_dvd _ (Nat.pow_dvd_pow 2 (by omega))

theorem wrote_blocks {s t : State} (h : Wrote s t) : t.blocks = s.blocks := by
  have h1 := h.device
  rw [h1]

/-- Stores of lanes that do not meet, one after another: each stores its own value whatever the order. -/
theorem fold_stores {g : State → Nat → State} {s : State} {n : Nat} {pa val : Nat → Nat} (lanes : List Nat) (hnd : lanes.Nodup)
    (hap : Apart n lanes pa)
    (hg : ∀ t l, l ∈ lanes → Wrote s t → (∀ i, i < n → rawByte t (pa l + i) = rawByte s (pa l + i)) →
      Wrote t (g t l) ∧ (g t l).mem = writeBytes Config.memDefault t.mem (pa l) (leBytes n (val l))) :
    Wrote s (lanes.foldl g s) ∧
      (∀ l ∈ lanes, ∀ i, i < n → rawByte (lanes.foldl g s) (pa l + i) = byteOf (val l) i) ∧
      ∀ a, (∀ l ∈ lanes, ¬ (pa l ≤ a ∧ a < pa l + n)) → rawByte (lanes.foldl g s) a = rawByte s a := by
  have gen : ∀ (ls : List Nat) (t : State), ls.Nodup → (∀ l ∈ ls, l ∈ lanes) → Wrote s t →
      (∀ l ∈ ls, ∀ i, i < n → rawByte t (pa l + i) = rawByte s (pa l + i)) →
      Wrote t (ls.foldl g t) ∧
        (∀ l ∈ ls, ∀ i, i < n → rawByte (ls.foldl g t) (pa l + i) = byteOf (val l) i) ∧
        ∀ a, (∀ l ∈ ls, ¬ (pa l ≤ a ∧ a < pa l + n)) → rawByte (ls.foldl g t) a = rawByte t a := by
    intro ls
    induction ls with
    | nil => intro t _ _ _ _; exact ⟨wrote_charged (charged_refl t), by simp, fun _ _ => rfl⟩
    | cons l ls ih =>
      intro t hn hin hw hM
      obtain ⟨hl, hn⟩ := List.nodup_cons.1 hn
      obtain ⟨hs, hm⟩ := hg t l (hin l List.mem_cons_self) hw (hM l List.mem_cons_self)
      have hr : ∀ a, rawByte (g t l) a =
          if pa l ≤ a ∧ a < pa l + n then (leBytes n (val l)).getD (a - pa l) 0 else rawByte t a := fun a => by
        unfold rawByte; rw [hm, spGet_writeBytes, leBytes_length]
      rw [List.foldl_cons]
      have hsep : ∀ k ∈ ls, pa l + n ≤ pa k ∨ pa k + n ≤ pa l := fun k hk =>
        hap l (hin l List.mem_cons_self) k (hin k (List.mem_cons_of_mem _ hk)) (fun w => hl (w ▸ hk))
      obtain ⟨h1, h2, h3⟩ := ih (g t l) hn (fun k hk => hin k (List.mem_cons_of_mem _ hk)) (wrote_trans hw hs) (by
          intro k hk i hi
          rw [hr, if_neg (by have := hsep k hk; omega)]
          exact hM k (List.mem_cons_of_mem _ hk) i hi)
      refine ⟨wrote_trans hs h1, ?_, ?_⟩
      · intro k hk i hi
        rcases List.mem_cons.1 hk with rfl | hk
        · rw [h3 _ (by intro j hj; have := hsep j hj; omega), hr, if_pos ⟨by omega, by omega⟩]
          have : pa k + i - pa k = i := by omega
          rw [this]
          exact leBytes_getD n _ i hi
        · exact h2 k hk i hi
      · intro a ha
        rw [h3 a (fun k hk => ha k (List.mem_cons_of_mem _ hk)), hr, if_neg (ha l List.mem_cons_self)]
  exact gen lanes s hnd (fun _ h => h) (wrote_charged (charged_refl s)) (fun _ _ _ _ => rfl)

/-- Stores on memory that no stash owns are what every agent reads. -/
theorem bytesStored_of {s t : State} {n : Nat} {lanes : List Nat} {pa val : Nat → Nat}
    (hu : ∀ l ∈ lanes, Unowned s (pa l) n) (hb : t.blocks = s.blocks)
    (h1 : ∀ l ∈ lanes, ∀ i, i < n → rawByte t (pa l + i) = byteOf (val l) i)
    (h2 : ∀ a, (∀ l ∈ lanes, ¬ (pa l ≤ a ∧ a < pa l + n)) → rawByte t a = rawByte s a) :
    BytesStored s t n lanes pa val := by
  refine ⟨fun l hl i hi => ?_, fun a ha => gByte_mem hb (h2 a ha)⟩
  have ho : ownerOf t (pa l + i) = none := by unfold ownerOf; rw [hb]; exact hu l hl i hi
  exact (gByte_unowned ho).trans (h1 l hl i hi)

theorem gRead_congr {s t : State} {pa n : Nat} (h : ∀ i, i < n → gByte t (pa + i) = gByte s (pa + i)) : gRead t pa n = gRead s pa n := by
  induction n generalizing pa with
  | zero => rfl
  | succ n ih =>
    rw [gRead, gRead, show gByte t pa = gByte s pa from h 0 (by omega), ih fun i hi => ?_]
    have := h (i + 1) (by omega)
    rw [show pa + 1 + i = pa + (i + 1) by omega]; exact this

theorem gPoisoned_wrote {s t : State} {pa n : Nat} (h : Wrote s t) (hl : s.hi.mbhost.getLsbD 32 = false) :
    gPoisoned t pa n = gPoisoned s pa n := by
  have ht : t.hi = s.hi := by rw [h.device]
  have hp : t.poison = s.poison := by rw [h.device]
  unfold gPoisoned ownerOf
  rw [cutOff_up (s := t) (by rw [ht]; exact hl), cutOff_up hl, wrote_blocks h, hp]

/-- An atomic on plain memory that no stash owns, unpoisoned, with the host link up. -/
theorem memAtomic_unowned {s : State} {pa w op a c : Nat} (h : Unowned s pa w) (hw : w < 32)
    (hl : s.hi.mbhost.getLsbD 32 = false) (hp : gPoisoned s pa w = false) :
    memAtomic s pa w op a c =
      ({ s with mem := writeBytes Config.memDefault s.mem pa (leBytes w (atomNew op w (ofLeBytes (gRead s pa w)) a c)),
                l2 := l2Before s pa w },
        ofLeBytes (gRead s pa w)) := by
  unfold memAtomic
  dsimp only
  rw [recallRange_unowned h, hp]
  simp only [Bool.false_eq_true, if_false, gWriteNat, gReadNat]
  rw [gWrite_unowned (by rw [leBytes_length]; exact h) (by rw [leBytes_length]; exact hw) hl, leBytes_length]

theorem overlapping_apart {n : Nat} {lanes : List Nat} (hnd : lanes.Nodup) {pa : Nat → Nat} (h : Apart n lanes pa) :
    overlapping n (lanes.map fun l => (l, pa l)) = false := by
  induction lanes with
  | nil => rfl
  | cons a ls ih =>
    obtain ⟨ha, hnd⟩ := List.nodup_cons.1 hnd
    have hap : Apart n ls pa := fun l hl k hk => h l (List.mem_cons_of_mem _ hl) k (List.mem_cons_of_mem _ hk)
    rw [List.map_cons, overlapping, ih hnd hap, Bool.or_false, List.any_eq_false]
    intro x hx
    obtain ⟨k, hk, rfl⟩ := List.mem_map.1 hx
    have := h a List.mem_cons_self k (List.mem_cons_of_mem _ hk) (fun w => ha (w ▸ hk))
    simp only [Bool.and_eq_true, decide_eq_true_eq]
    omega

theorem laneOrder_apart {s : State} {e : Issuer} {n : Nat} {lanes : List Nat} (hnd : lanes.Nodup) {pa : Nat → Nat}
    (h : Apart n lanes pa) : laneOrder s e n (lanes.map fun l => (l, pa l)) = (lanes.map fun l => (l, pa l), s) := by
  unfold laneOrder
  rw [overlapping_apart hnd h]
  simp

theorem activeLanes_nodup (e : Issuer) (pr : Pred) : (activeLanes e pr).Nodup := ((List.nodup_range).filter _).filter _

theorem reached_ok (lanes : List Nat) (pa : Nat → Nat) :
    reached (lanes.map fun l => (l, (.ok (pa l) : Except (Nat × Nat) Nat))) = lanes.map fun l => (l, pa l) := by
  unfold reached
  induction lanes with
  | nil => rfl
  | cons a l ih => rw [List.map_cons, List.map_cons, List.filterMap_cons, ih]

theorem missed_ok (lanes : List Nat) (pa : Nat → Nat) :
    missed (lanes.map fun l => (l, (.ok (pa l) : Except (Nat × Nat) Nat))) = none := by
  unfold missed
  refine firstFault_none ?_
  intro x hx
  simp only [List.map_map, List.mem_map] at hx
  obtain ⟨l, _, rfl⟩ := hx
  rfl

theorem firstCause_none {l : List (Option Nat)} (h : ∀ x ∈ l, x = none) : firstCause l = none := by
  unfold firstCause
  rw [List.findSome?_eq_none_iff]
  exact fun x hx => h x hx

theorem bytesStored_charged {s u t : State} {n : Nat} {lanes : List Nat} {pa val : Nat → Nat} (h : BytesStored s u n lanes pa val)
    (hc : Charged u t) : BytesStored s t n lanes pa val :=
  ⟨fun l hl i hi => (charged_byte hc _).trans (h.1 l hl i hi), fun a ha => (charged_byte hc _).trans (h.2 a ha)⟩

end Sys2Proof.Laws
end

