-- ==== Sys2Proof/Laws/Lines.lean ====
section
/-! SUPPORT. Lines that move between stashes and memory: what recalls and fills leave alone, and stores to a stash. -/

namespace Sys2Proof.Laws

open Sys2Proof Sys2Proof.Machine Sys2Proof.Safety

theorem linesMoved_refl (s : State) : LinesMoved s s := ⟨rfl, fun _ => rfl, fun x h => ⟨x, h, rfl⟩, fun _ b h => ⟨b, h, rfl⟩⟩

theorem linesMoved_trans {s t u : State} (h : LinesMoved s t) (k : LinesMoved t u) : LinesMoved s u := by
  refine ⟨?_, fun c => (k.cores c).trans (h.cores c), fun x hx => ?_, fun n b hb => ?_⟩
  · have h1 := h.device
    have k1 := k.device
    generalize t.mem = A1, t.poison = A2, t.blocks = A3, t.lost = B1, t.tlb = B2, t.walks = B3, t.l2 = B4, t.cores = B5,
      t.budget = A4, t.shadows = A5, t.activity = A6, t.free = A7 at h1
    subst h1
    exact k1
  · obtain ⟨y, hy, hxy⟩ := k.tlb x hx
    obtain ⟨z, hz, hyz⟩ := h.tlb y hy
    exact ⟨z, hz, by rw [hxy, hyz]⟩
  · obtain ⟨b1, h1, h2⟩ := h.blocks n b hb
    obtain ⟨b2, k1, k2⟩ := k.blocks n b1 h1
    exact ⟨b2, k1, by rw [k2, h2]⟩

theorem linesMoved_charged {s t : State} (h : Charged s t) : LinesMoved s t := by
  refine ⟨?_, h.cores, h.tlb, fun n b hb => ⟨b, by rw [getBlock_congr (charged_blocks h), hb], rfl⟩⟩
  rw [h.device]

theorem linesMoved_memory (s : State) (m : List Host.Cell) (p : List Nat) (l2 : Sparse L2Line) (lost : List LostLine) (n : Nat) :
    LinesMoved s { s with mem := m, poison := p, l2 := l2, lost := lost, free := n } :=
  ⟨rfl, fun _ => rfl, fun x h => ⟨x, h, rfl⟩, fun _ b h => ⟨b, h, rfl⟩⟩

theorem linesMoved_setBlock {s : State} {n : Nat} {b c : Block} (hb : getBlock s n = some b)
    (hc : c = { b with stash := c.stash, stashPoison := c.stashPoison, lines := c.lines, refill := c.refill }) :
    LinesMoved s (setBlock s c) := by
  refine ⟨rfl, fun _ => rfl, fun x h => ⟨x, h, rfl⟩, fun m d hd => ?_⟩
  have hbid : c.bid = n := by
    have h1 : c.bid = b.bid := by rw [hc]
    exact h1.trans (getBlock_bid hb)
  by_cases hm : m = n
  · subst hm
    rw [hb] at hd
    cases hd
    exact ⟨c, getBlock_setBlock hb hbid, hc⟩
  · exact ⟨d, by rw [getBlock_setBlock_other (by rw [hbid]; exact hm), hd], rfl⟩

theorem linesMoved_foldl {α : Type} (g : State → α → State) (h : ∀ s x, LinesMoved s (g s x)) (l : List α) (s : State) :
    LinesMoved s (l.foldl g s) := by
  induction l generalizing s with
  | nil => exact linesMoved_refl s
  | cons a l ih => exact linesMoved_trans (h s a) (ih _)

theorem charged_sendCharges (s : State) (b : Block) (l : StashLine) :
    Charged s ((dirtySectors l).foldl (fun s k => chargeMem s (regionOfBlock s b) (l.pa + 32 * k) 32) s) :=
  charged_foldl _ (fun s k => charged_chargeMem s (regionOfBlock s b) (l.pa + 32 * k) 32) _ s

/-- What the write-back of a line leaves: its dirty bytes in memory, beside marks and what charging records. -/
theorem sendLine_eq (s : State) (b : Block) (l : StashLine) : ∃ u, Charged s u ∧ sendLine s b l =
    { u with mem := memWithLine s.mem b l, poison := poisonWithLine s.poison b l, l2 := l2Before u l.pa 128 } := by
  have h : ∀ u : State, Charged s u → ({ u with mem := memWithLine u.mem b l, poison := poisonWithLine u.poison b l,
                                                  l2 := l2Before u l.pa 128 } : State) =
      { u with mem := memWithLine s.mem b l, poison := poisonWithLine s.poison b l, l2 := l2Before u l.pa 128 } := by
    intro u hu
    have hm : u.mem = s.mem := by rw [hu.device]
    have hp : u.poison = s.poison := by rw [hu.device]
    rw [hm, hp]
  have k := charged_sendCharges s b l
  unfold sendLine
  revert k
  generalize (dirtySectors l).foldl (fun s k => chargeMem s (regionOfBlock s b) (l.pa + 32 * k) 32) s = u
  intro k
  exact ⟨u, k, h u k⟩

theorem linesMoved_sendLine (s : State) (b : Block) (l : StashLine) : LinesMoved s (sendLine s b l) := by
  obtain ⟨u, h, e⟩ := sendLine_eq s b l
  rw [e]
  exact linesMoved_trans (linesMoved_charged h) (linesMoved_memory u _ _ _ u.lost u.free)

theorem linesMoved_writeBackLine (s : State) (b : Block) (l : StashLine) : LinesMoved s (writeBackLine s b l) := by
  unfold writeBackLine
  split
  · exact linesMoved_refl s
  · split
    · exact linesMoved_memory _ _ _ _ _ _
    · exact linesMoved_trans (linesMoved_memory s s.mem s.poison s.l2 s.lost (s.free + 1)) (linesMoved_sendLine _ _ _)

theorem linesMoved_recallLine (s : State) (pa : Nat) : LinesMoved s (recallLine s pa) := by
  unfold recallLine
  split
  · exact linesMoved_refl s
  · dsimp only
    split
    · exact linesMoved_writeBackLine _ _ _
    · rename_i b l _ _ c hc
      exact linesMoved_trans (linesMoved_writeBackLine _ _ _) (linesMoved_setBlock (b := c) hc rfl)

theorem linesMoved_recallRange (s : State) (pa n : Nat) : LinesMoved s (recallRange s pa n) := by
  unfold recallRange
  split
  · exact linesMoved_refl s
  · exact linesMoved_foldl _ (fun s i => linesMoved_recallLine s _) _ s

theorem linesMoved_doFill (s : State) (bid line pa : Nat) : LinesMoved s (doFill s bid line pa) := by
  unfold doFill
  dsimp only
  split
  · exact linesMoved_recallLine _ _
  · rename_i b hb
    have h1 : LinesMoved s (l1DropRange (recallLine s pa) b.core pa 128) :=
      linesMoved_trans (linesMoved_recallLine s pa) (linesMoved_charged (charged_l1DropRange _ _ _ _))
    have hb1 : getBlock (l1DropRange (recallLine s pa) b.core pa 128) bid = some b := hb
    generalize l1DropRange (recallLine s pa) b.core pa 128 = u at h1 hb1 ⊢
    split
    · exact h1
    · split
      · refine linesMoved_trans h1 ?_
        generalize List.replicate 128 (0 : Byte) = bs
        exact linesMoved_setBlock (b := b) hb1 rfl
      · refine linesMoved_trans h1 ?_
        generalize ((List.range 128).map fun i => rawByte u (pa + i)) = bs
        have hc := charged_chargeMem u (regionOfBlock u (stashPut b (128 * line) bs)) pa 128
        have hb2 := (getBlock_congr (charged_blocks hc) bid).trans hb1
        generalize chargeMem u (regionOfBlock u (stashPut b (128 * line) bs)) pa 128 = v at hc hb2 ⊢
        refine linesMoved_trans (linesMoved_charged hc) ?_
        generalize ((List.range 32).filter fun k => v.poison.contains (pa / 32 + k / 8)) = bad
        exact linesMoved_setBlock (b := b) hb2 rfl

theorem linesMoved_fillLine (e : Issuer) (s : State) (k : Nat) : LinesMoved s (fillLine e s k) := by
  unfold fillLine
  split
  · exact linesMoved_refl s
  · split
    · exact linesMoved_trans (linesMoved_doFill _ _ _ _) (linesMoved_charged (charged_noteMiss _ _ _))
    · exact linesMoved_refl s

/-- What filling lines leaves alone. -/
theorem linesMoved_fillLines (s : State) (e : Issuer) (rs : List (Nat × Nat)) : LinesMoved s (fillLines s e rs) :=
  linesMoved_foldl _ (linesMoved_fillLine e) _ s

/-- The issuer after lines moved: only its block's stash and lines may differ. -/
theorem linesMoved_issuer {s t : State} (h : LinesMoved s t) {r : FragRef} {e : Issuer} (he : issuerAt s r = some e) :
    ∃ b, getBlock t r.blk = some b ∧
      b = { e.b with stash := b.stash, stashPoison := b.stashPoison, lines := b.lines, refill := b.refill } ∧
      issuerAt t r = some { e with b := b } := by
  obtain ⟨h0, h1, h2, h3, h4⟩ := issuerAt_eq.1 he
  obtain ⟨b, hb, hb'⟩ := h.blocks _ _ h1
  refine ⟨b, hb, hb', issuerAt_eq.2 ⟨h0, hb, ?_, ?_, h4⟩⟩
  · show getPack b _ _ = _
    rw [hb']; exact h2
  · show getLaunch t b.launch = _
    rw [h.device, hb']; exact h3

/-- A result is the same whatever the block of the issuer holds besides. -/
theorem resultOnly_block {s t : State} {e : Issuer} {b : Block} {d : Dst} {nowb : Bool} {n : Nat} {act : List Nat}
    {val : Nat → Nat} {r : Retire} (h : ResultOnly s t { e with b := b } d nowb n act val r) :
    ResultOnly s t e d nowb n act val r := ⟨h.frame, h.pack, h.latch⟩

/-! ## Write-backs -/

/-- The bytes of a line that are put, whatever their order. -/
theorem puts_spec (d : Nat → Bool) (pa : Nat) (v : Nat → Byte) (js : List Nat) (m : List Host.Cell) :
    (∀ j ∈ js, d j = true → spGet Config.memDefault (js.foldl (fun m i =>
      if d i then spPut Config.memDefault m (pa + i) (v i) else m) m) (pa + j) = v j) ∧
    ∀ a, (∀ j ∈ js, d j = true → a ≠ pa + j) → spGet Config.memDefault (js.foldl (fun m i =>
      if d i then spPut Config.memDefault m (pa + i) (v i) else m) m) a = spGet Config.memDefault m a := by
  induction js generalizing m with
  | nil => exact ⟨by simp, fun _ _ => rfl⟩
  | cons j js ih =>
    rw [List.foldl_cons]
    obtain ⟨h2, h3⟩ := ih (if d j then spPut Config.memDefault m (pa + j) (v j) else m)
    refine ⟨fun k hk hdk => ?_, fun a ha => ?_⟩
    · by_cases hin : k ∈ js
      · exact h2 k hin hdk
      · have hkj : k = j := (List.mem_cons.1 hk).resolve_right hin
        subst hkj
        rw [h3 _ (fun i hi _ he => hin (by have : k = i := by omega
                                           exact this ▸ hi)), if_pos hdk, spGet_spPut, if_pos rfl]
    · rw [h3 a (fun k hk => ha k (List.mem_cons_of_mem _ hk))]
      split
      · rename_i hd
        rw [spGet_spPut, if_neg (ha j List.mem_cons_self hd)]
      · rfl

theorem linesMoved_cleanLine (bid : Nat) (s : State) (l : StashLine) : LinesMoved s (cleanLine bid s l) := by
  unfold cleanLine
  split
  · exact linesMoved_refl s
  · split
    · exact linesMoved_refl s
    · rename_i b hb
      have h := linesMoved_writeBackLine s b l
      have hw : getBlock (writeBackLine s b l) bid = some b := by
        unfold writeBackLine
        split
        · exact hb
        · split
          · exact hb
          · obtain ⟨u, hu, e⟩ := sendLine_eq { s with free := s.free + 1 } b l
            rw [e]
            exact (getBlock_congr (charged_blocks hu) bid).trans hb
      dsimp only
      generalize writeBackLine s b l = t at h hw ⊢
      refine linesMoved_trans h (linesMoved_setBlock hw ?_)
      split <;> rfl

/-- What one clean line leaves: its dirty bytes in memory and no other change there; the line clean, no other line changed. -/
theorem cleanLine_spec {s : State} {bid : Nat} {b : Block} {l : StashLine} (hb : getBlock s bid = some b)
    (hl : lineAt b l.line = some l) (hc : s.hi.mbhost.getLsbD 32 = false) (hx : cxlHome l.pa = false) :
    ∃ c, getBlock (cleanLine bid s l) bid = some c ∧ c = { b with lines := c.lines } ∧
      (cleanLine bid s l).lost = s.lost ∧ (∀ n, n ≠ bid → getBlock (cleanLine bid s l) n = getBlock s n) ∧
      lineAt c l.line = some { l with dirty := 0 } ∧ (∀ k, k ≠ l.line → lineAt c k = lineAt b k) ∧
      (∀ j, j < 128 → l.dirty.getLsbD j = true → rawByte (cleanLine bid s l) (l.pa + j) = stashByte b (128 * l.line + j)) ∧
      ∀ a, (∀ j, j < 128 → l.dirty.getLsbD j = true → a ≠ l.pa + j) → rawByte (cleanLine bid s l) a = rawByte s a := by
  unfold cleanLine
  split
  · rename_i h0
    have : ({ l with dirty := 0 } : StashLine) = l := by rw [← h0]
    exact ⟨b, hb, rfl, rfl, fun _ _ => rfl, by rw [this, hl], fun _ _ => rfl, fun j _ hd => by rw [h0] at hd; simp at hd,
      fun _ _ => rfl⟩
  · rename_i h0
    have hw : writeBackLine s b l = sendLine { s with free := s.free + 1 } b l := by
      unfold writeBackLine writeBackFails
      rw [if_neg h0, cutOff_up hc, hx]
      rfl
    obtain ⟨u, hu, e⟩ := sendLine_eq { s with free := s.free + 1 } b l
    have hm : (sendLine { s with free := s.free + 1 } b l).mem = memWithLine s.mem b l := by rw [e]
    have hlost : (sendLine { s with free := s.free + 1 } b l).lost = s.lost := by rw [e]; show u.lost = _; rw [hu.device]
    have hg : ∀ n, getBlock (sendLine { s with free := s.free + 1 } b l) n = getBlock s n := by
      intro n; rw [e]; exact getBlock_congr (charged_blocks hu) n
    rw [hb]
    dsimp only
    rw [hw]
    generalize sendLine { s with free := s.free + 1 } b l = t at hm hlost hg ⊢
    have hbid : b.bid = bid := getBlock_bid hb
    obtain ⟨p1, p2⟩ := puts_spec (fun i => l.dirty.getLsbD i) l.pa (fun i => stashByte b (128 * l.line + i)) (List.range 128) s.mem
    rw [hlost, if_neg (Nat.lt_irrefl _)]
    refine ⟨setLine b { l with dirty := 0 }, getBlock_setBlock ((hg bid).trans hb) hbid, rfl, hlost, fun n hn => ?_, ?_, ?_, ?_, ?_⟩
    · rw [getBlock_setBlock_other (by show n ≠ b.bid; rw [hbid]; exact hn)]
      exact hg n
    · unfold lineAt setLine
      simp
    · intro k hk
      unfold lineAt setLine
      rw [List.find?_cons_of_neg (by simpa using fun w => hk w.symm), List.find?_filter]
      congr 1
      funext x
      by_cases hxk : x.line = k
      · simp [hxk, hk]
      · simp [hxk]
    · intro j hj hd
      show spGet Config.memDefault t.mem _ = _
      rw [hm]
      exact p1 j (List.mem_range.2 hj) hd
    · intro a ha
      show spGet Config.memDefault t.mem _ = _
      rw [hm]
      exact p2 a fun j hj hd => ha j (List.mem_range.1 hj) hd

/-- What lines of distinct places and homes leave when they are cleaned one after another. -/
theorem cleanEach_spec {bid : Nat} (ls : List StashLine) (s : State) (b : Block) (hb : getBlock s bid = some b)
    (hc : s.hi.mbhost.getLsbD 32 = false) (hl : ∀ l ∈ ls, lineAt b l.line = some l ∧ l.pa % 128 = 0 ∧ cxlHome l.pa = false)
    (hn : (ls.map (·.pa)).Nodup) (hk : (ls.map (·.line)).Nodup) :
    ∃ c, getBlock (ls.foldl (cleanLine bid) s) bid = some c ∧ c = { b with lines := c.lines } ∧
      (ls.foldl (cleanLine bid) s).lost = s.lost ∧ (∀ n, n ≠ bid → getBlock (ls.foldl (cleanLine bid) s) n = getBlock s n) ∧
      (∀ l ∈ ls, lineAt c l.line = some { l with dirty := 0 }) ∧ (∀ k, (∀ l ∈ ls, k ≠ l.line) → lineAt c k = lineAt b k) ∧
      (∀ l ∈ ls, ∀ j, j < 128 → l.dirty.getLsbD j = true →
        rawByte (ls.foldl (cleanLine bid) s) (l.pa + j) = stashByte b (128 * l.line + j)) ∧
      ∀ a, (∀ l ∈ ls, ∀ j, j < 128 → l.dirty.getLsbD j = true → a ≠ l.pa + j) →
        rawByte (ls.foldl (cleanLine bid) s) a = rawByte s a := by
  induction ls generalizing s b with
  | nil => exact ⟨b, hb, rfl, rfl, fun _ _ => rfl, by simp, fun _ _ => rfl, by simp, fun _ _ => rfl⟩
  | cons l ls ih =>
    rw [List.map_cons, List.nodup_cons] at hn hk
    obtain ⟨h1, h2, h3⟩ := hl l List.mem_cons_self
    obtain ⟨c, a1, a2, a3, a4, a5, a6, a7, a8⟩ := cleanLine_spec hb h1 hc h3
    have hhi : (cleanLine bid s l).hi.mbhost.getLsbD 32 = false := by
      rw [(linesMoved_cleanLine bid s l).device]; exact hc
    have hne : ∀ x ∈ ls, x.line ≠ l.line := fun x hx w => hk.1 (List.mem_map.2 ⟨x, hx, w⟩)
    obtain ⟨d, b1, b2, b3, b4, b5, b6, b7, b8⟩ := ih (cleanLine bid s l) c a1 hhi
      (fun x hx => ⟨by rw [a6 _ (hne x hx)]; exact (hl x (List.mem_cons_of_mem _ hx)).1, (hl x (List.mem_cons_of_mem _ hx)).2⟩) hn.2 hk.2
    have hst : ∀ o, stashByte c o = stashByte b o := fun o => by rw [a2]; rfl
    rw [List.foldl_cons]
    refine ⟨d, b1, ?_, b3.trans a3, fun n h => (b4 n h).trans (a4 n h), ?_, ?_, ?_, ?_⟩
    · rw [b2, a2]
    · intro x hx
      rcases List.mem_cons.1 hx with rfl | hx
      · rw [b6 _ fun y hy => (hne y hy).symm, a5]
      · exact b5 x hx
    · intro k h
      rw [b6 k fun y hy => h y (List.mem_cons_of_mem _ hy), a6 k (h l List.mem_cons_self)]
    · intro x hx j hj hd
      rcases List.mem_cons.1 hx with rfl | hx
      · rw [b8 _ ?_]
        · exact a7 j hj hd
        · intro y hy i hi _ he
          have h4 := (hl y (List.mem_cons_of_mem _ hy)).2.1
          exact hn.1 (List.mem_map.2 ⟨y, hy, by omega⟩)
      · rw [b7 x hx j hj hd, hst]
    · intro a h
      rw [b8 a fun x hx => h x (List.mem_cons_of_mem _ hx), a8 a (h l List.mem_cons_self)]

/-- A flush none of whose write-backs fails reports nothing. -/
theorem reportLost_nil {s : State} (h : s.lost = []) : reportLost s = s := by
  unfold reportLost
  rw [h]
  show ({ s with lost := [] } : State) = s
  rw [← h]

/-! ## Stores to a stash -/

/-- A block that keeps its lines, and the stash bytes of those lines, leaves every byte of memory as it was. -/
theorem gByte_setBlock_lines {s : State} {b c : Block} (h : getBlock s c.bid = some b) (hl : c.lines = b.lines)
    (hs : ∀ l ∈ b.lines, ∀ j, j < 128 → stashByte c (128 * l.line + j) = stashByte b (128 * l.line + j)) (a : Nat) :
    gByte (setBlock s c) a = gByte s a := by
  have hv : ∀ (L : List Block), L.find? (fun x => x.bid == c.bid) = some b →
      ∀ raw : Byte, (((replaceFirst (fun x => x.bid == c.bid) c L).findSome? fun b =>
          (b.lines.find? fun l => l.pa == a / 128 * 128).map fun l => (b, l)).elim raw fun x =>
            if x.2.written.getLsbD (a % 128) then stashByte x.1 (128 * x.2.line + a % 128) else raw) =
        ((L.findSome? fun b => (b.lines.find? fun l => l.pa == a / 128 * 128).map fun l => (b, l)).elim raw fun x =>
            if x.2.written.getLsbD (a % 128) then stashByte x.1 (128 * x.2.line + a % 128) else raw) := by
    intro L
    induction L with
    | nil => intro h; simp at h
    | cons x L ih =>
      intro hf raw
      by_cases hx : (x.bid == c.bid) = true
      · simp only [List.find?_cons, hx, Option.some.injEq] at hf
        subst hf
        simp only [replaceFirst, hx, if_true, List.findSome?_cons, hl]
        cases hfd : x.lines.find? fun l => l.pa == a / 128 * 128 with
        | none => rfl
        | some l =>
          have := hs l (List.mem_of_find?_eq_some hfd) (a % 128) (Nat.mod_lt _ (by decide))
          simp [this]
      · simp only [Bool.not_eq_true] at hx
        simp only [List.find?_cons, hx] at hf
        simp only [replaceFirst, hx, Bool.false_eq_true, if_false, List.findSome?_cons]
        cases x.lines.find? fun l => l.pa == a / 128 * 128 with
        | none => exact ih hf raw
        | some l => rfl
  have hg : ∀ u : State, gByte u a = (ownerOf u a).elim (rawByte u a) fun x =>
      if x.2.written.getLsbD (a % 128) then stashByte x.1 (128 * x.2.line + a % 128) else rawByte u a := by
    intro u
    unfold gByte
    cases ownerOf u a <;> rfl
  rw [hg, hg]
  exact hv s.blocks h (rawByte s a)

theorem setLine_stash (b : Block) (l : StashLine) : (setLine b l).stash = b.stash := rfl

theorem markLines_eq (o n : Nat) (ks : List Nat) (b : Block) : ∃ ls, ks.foldl (fun b k =>
    match lineAt b k with
    | some l =>
      let lo := max o (128 * k) - 128 * k
      let hi := min (o + n) (128 * k + 128) - 128 * k
      setLine b (markLine b l lo (hi - lo))
    | none => b) b = { b with lines := ls } := by
  induction ks generalizing b with
  | nil => exact ⟨b.lines, rfl⟩
  | cons k ks ih =>
    rw [List.foldl_cons]
    split
    · obtain ⟨ls, h⟩ := ih (setLine b _)
      exact ⟨ls, h⟩
    · exact ih b

/-- A store to a stash changes its bytes, marks and lines alone. -/
theorem stashStore_eq (b : Block) (o : Nat) (bs : List Byte) : stashStore b o bs =
    { b with stash := writeBytes 0 b.stash o bs, stashPoison := (stashStore b o bs).stashPoison,
             lines := (stashStore b o bs).lines } := by
  obtain ⟨ls, h⟩ := markLines_eq o bs.length (boundLines (stashPut b o bs) o bs.length) (stashPut b o bs)
  unfold stashStore
  dsimp only at h ⊢
  erw [h]
  rfl

theorem stashByte_stashStore (b : Block) (o : Nat) (bs : List Byte) (x : Nat) : stashByte (stashStore b o bs) x =
    if o ≤ x ∧ x < o + bs.length then bs.getD (x - o) 0 else stashByte b x := by
  rw [stashStore_eq]
  exact spGet_writeBytes 0 bs b.stash o x

theorem stashStore_lines {b : Block} {o : Nat} {bs : List Byte} (h : ∀ i, i < bs.length → lineAt b ((o + i) / 128) = none) :
    (stashStore b o bs).lines = b.lines := by
  have gen : ∀ ks : List Nat, (∀ k ∈ ks, lineAt b k = none) → ∀ c : Block, c.lines = b.lines → (ks.foldl (fun b k =>
    match lineAt b k with
    | some l =>
      let lo := max o (128 * k) - 128 * k
      let hi := min (o + bs.length) (128 * k + 128) - 128 * k
      setLine b (markLine b l lo (hi - lo))
    | none => b) c).lines = b.lines := by
    intro ks
    induction ks with
    | nil => intro _ c hc; exact hc
    | cons k ks ih =>
      intro hk c hc
      have : lineAt c k = none := by unfold lineAt; rw [hc]; exact hk k List.mem_cons_self
      rw [List.foldl_cons, this]
      exact ih (fun j hj => hk j (List.mem_cons_of_mem _ hj)) c hc
  refine gen _ ?_ _ rfl
  intro k hk
  unfold boundLines at hk
  split at hk
  · cases hk
  · obtain ⟨j, hj, rfl⟩ := List.mem_map.1 (List.mem_filter.1 hk).1
    have hj := List.mem_range.1 hj
    by_cases h0 : j = 0
    · subst h0; exact h 0 (by omega)
    · have := h (128 * (o / 128 + j) - o) (by omega)
      have e : (o + (128 * (o / 128 + j) - o)) / 128 = o / 128 + j := by omega
      rw [e] at this
      exact this

/-- What the lanes of a store leave in a stash, where they do not meet. -/
theorem stashStores_spec {n : Nat} {addr val : Nat → Nat} (lanes : List Nat) (hnd : lanes.Nodup) (hap : Apart n lanes addr)
    (b : Block) : ∃ c, lanes.foldl (fun b l => stashStore b (addr l) (leBytes n (val l))) b = c ∧
      c = { b with stash := c.stash, stashPoison := c.stashPoison, lines := c.lines } ∧
      (∀ l ∈ lanes, ∀ i, i < n → stashByte c (addr l + i) = byteOf (val l) i) ∧
      (∀ o, (∀ l ∈ lanes, ¬ (addr l ≤ o ∧ o < addr l + n)) → stashByte c o = stashByte b o) ∧
      ((∀ l ∈ lanes, ∀ i, i < n → lineAt b ((addr l + i) / 128) = none) → c.lines = b.lines) := by
  refine ⟨_, rfl, ?_⟩
  induction lanes generalizing b with
  | nil => exact ⟨rfl, by simp, fun _ _ => rfl, fun _ => rfl⟩
  | cons l ls ih =>
    obtain ⟨hl, hn⟩ := List.nodup_cons.1 hnd
    rw [List.foldl_cons]
    obtain ⟨h1, h2, h3, h4⟩ := ih hn (fun j hj k hk => hap j (List.mem_cons_of_mem _ hj) k (List.mem_cons_of_mem _ hk))
      (stashStore b (addr l) (leBytes n (val l)))
    have hsep : ∀ k ∈ ls, addr l + n ≤ addr k ∨ addr k + n ≤ addr l := fun k hk =>
      hap l List.mem_cons_self k (List.mem_cons_of_mem _ hk) (fun w => hl (w ▸ hk))
    refine ⟨?_, ?_, ?_, ?_⟩
    · rw [stashStore_eq b] at h1 ⊢
      exact h1
    · intro k hk i hi
      rcases List.mem_cons.1 hk with rfl | hk
      · rw [h3 _ (by intro j hj; have := hsep j hj; omega), stashByte_stashStore, leBytes_length, if_pos ⟨by omega, by omega⟩]
        have : addr k + i - addr k = i := by omega
        rw [this]
        exact leBytes_getD n _ i hi
      · exact h2 k hk i hi
    · intro o ho
      rw [h3 o (fun k hk => ho k (List.mem_cons_of_mem _ hk)), stashByte_stashStore, leBytes_length, if_neg (ho l List.mem_cons_self)]
    · intro ha
      have h0 := stashStore_lines (b := b) (o := addr l) (bs := leBytes n (val l)) (by
        rw [leBytes_length]; exact ha l List.mem_cons_self)
      rw [h4 (fun k hk i hi => by
        unfold lineAt
        rw [h0]
        exact ha k (List.mem_cons_of_mem _ hk) i hi), h0]

end Sys2Proof.Laws
end

