-- ==== Sys2Proof/Laws/Canonical.lean ====
section
/-! SUPPORT. Memory keeps its canonical form (`Memory.wf`) under every operation that writes it. -/

namespace Sys2Proof.Laws

open Sys2Proof Sys2Proof.Machine

theorem wf_spPut {m : List Host.Cell} (h : Memory.wf m = true) (a : Nat) (b : Byte) :
    Memory.wf (spPut Config.memDefault m a b) = true := spWf_spPut Config.memDefault h a b

theorem wf_writeBytes (bs : List Byte) : ∀ {m : List Host.Cell} (a : Nat), Memory.wf m = true →
    Memory.wf (writeBytes Config.memDefault m a bs) = true := by
  induction bs with
  | nil => exact fun _ h => h
  | cons b bs ih => exact fun a h => ih (a + 1) (wf_spPut h a b)

theorem wf_foldl_spPut {α : Type} (key : α → Nat) (val : α → Byte) (l : List α) : ∀ {m : List Host.Cell}, Memory.wf m = true →
    Memory.wf (l.foldl (fun m c => spPut Config.memDefault m (key c) (val c)) m) = true := by
  induction l with
  | nil => exact fun h => h
  | cons x l ih => exact fun h => ih (wf_spPut h (key x) (val x))

theorem wf_filter {m : List Host.Cell} (h : Memory.wf m = true) (p : Host.Cell → Bool) : Memory.wf (m.filter p) = true :=
  spWfFrom_filter Config.memDefault p h

/-- A fold of steps that keep the form keeps it. -/
theorem wf_foldl {α : Type} (g : State → α → State) (hg : ∀ s x, Memory.wf s.mem = true → Memory.wf (g s x).mem = true)
    (l : List α) : ∀ {s : State}, Memory.wf s.mem = true → Memory.wf (l.foldl g s).mem = true := by
  induction l with
  | nil => exact fun h => h
  | cons x l ih => exact fun h => ih (hg _ x h)

theorem wf_rawWrite {s : State} (h : Memory.wf s.mem = true) (pa : Nat) (bs : List Byte) :
    Memory.wf (rawWrite s pa bs).mem = true := wf_writeBytes bs pa h

theorem wf_memWithLine {m : List Host.Cell} (h : Memory.wf m = true) (b : Block) (l : StashLine) :
    Memory.wf (memWithLine m b l) = true := by
  unfold memWithLine
  generalize List.range 128 = js
  induction js generalizing m with
  | nil => exact h
  | cons j js ih =>
    rw [List.foldl_cons]
    refine ih ?_
    split
    · exact wf_spPut h _ _
    · exact h

theorem wf_sendLine {s : State} (h : Memory.wf s.mem = true) (b : Block) (l : StashLine) : Memory.wf (sendLine s b l).mem = true := by
  obtain ⟨u, -, e⟩ := sendLine_eq s b l
  rw [e]
  exact wf_memWithLine h b l

theorem wf_writeBackLine {s : State} (h : Memory.wf s.mem = true) (b : Block) (l : StashLine) :
    Memory.wf (writeBackLine s b l).mem = true := by
  unfold writeBackLine
  split
  · exact h
  · split
    · exact h
    · exact wf_sendLine (s := { s with free := s.free + 1 }) h b l

theorem wf_recallLine {s : State} (h : Memory.wf s.mem = true) (pa : Nat) : Memory.wf (recallLine s pa).mem = true := by
  unfold recallLine
  split
  · exact h
  · dsimp only
    split
    · exact wf_writeBackLine h _ _
    · exact wf_writeBackLine h _ _

theorem wf_recallRange {s : State} (h : Memory.wf s.mem = true) (pa n : Nat) : Memory.wf (recallRange s pa n).mem = true := by
  unfold recallRange
  split
  · exact h
  · exact wf_foldl _ (fun t x ht => wf_recallLine ht _) _ h

theorem wf_gWrite {s : State} (h : Memory.wf s.mem = true) (pa : Nat) (bs : List Byte) : Memory.wf (gWrite s pa bs).mem = true := by
  unfold gWrite
  dsimp only
  split
  · exact wf_recallRange h _ _
  · exact wf_rawWrite (wf_recallRange h _ _) _ _

theorem wf_gWriteNat {s : State} (h : Memory.wf s.mem = true) (pa n x : Nat) : Memory.wf (gWriteNat s pa n x).mem = true :=
  wf_gWrite h _ _

theorem wf_memAtomic {s : State} (h : Memory.wf s.mem = true) (pa w op a c : Nat) :
    Memory.wf (memAtomic s pa w op a c).1.mem = true := by
  unfold memAtomic
  dsimp only
  split
  · exact wf_recallRange h _ _
  · exact wf_gWriteNat (wf_recallRange h _ _) _ _ _

theorem wf_pagesWrite {s : State} (h : Memory.wf s.mem = true) (pages : List (Nat × Nat)) (va : Nat) (bs : List Byte) :
    Memory.wf (pagesWrite s pages va bs).mem = true := by
  unfold pagesWrite
  generalize bs.length / 4096 + 2 = n
  induction n generalizing s va bs with
  | zero => exact h
  | succ n ih =>
    unfold pagesWriteUnits
    split
    · exact h
    · exact ih (wf_gWrite h _ _) _ _

theorem wf_recallSpan {s : State} (h : Memory.wf s.mem = true) (pa n : Nat) : Memory.wf (recallSpan s pa n).mem = true := by
  unfold recallSpan
  refine wf_foldl _ (fun t b ht => wf_foldl _ (fun u l hu => ?_) _ ht) _ h
  split
  · exact wf_recallLine hu _
  · exact hu

theorem wf_putSpan {s : State} (h : Memory.wf s.mem = true) (pa n : Nat) (cells : List Host.Cell) (bad : List Nat) :
    Memory.wf (putSpan s pa n cells bad).mem = true := wf_foldl_spPut _ _ _ h

theorem dropCaches_mem (s : State) (pa n : Nat) : (dropCaches s pa n).mem = s.mem := by
  unfold dropCaches
  rfl

theorem wf_copySpan {s : State} (h : Memory.wf s.mem = true) (src dst n : Nat) : Memory.wf (copySpan s src dst n).mem = true := by
  unfold copySpan
  rw [dropCaches_mem]
  exact wf_putSpan (wf_recallSpan (wf_recallSpan h _ _) _ _) _ _ _ _

theorem wf_coreWrite {s : State} (h : Memory.wf s.mem = true) (c pa : Nat) (bs : List Byte) :
    Memory.wf (coreWrite s c pa bs).mem = true := wf_gWrite h pa bs

theorem wf_zeroFrame {s : State} (h : Memory.wf s.mem = true) (pa n : Nat) : Memory.wf (zeroFrame s pa n).mem = true :=
  wf_foldl_spPut _ (fun _ => 0) _ (wf_recallSpan h _ _)

/-- A part below a key and a part from it on stand one after the other. -/
theorem spWfFrom_append {α : Type} [DecidableEq α] (d : α) {lo m : Nat} {l r : List (Nat × α)} (hl : spWfFrom d lo l = true)
    (hlt : ∀ x ∈ l, x.1 < m) (hr : spWfFrom d m r = true) (h : lo ≤ m) : spWfFrom d lo (l ++ r) = true := by
  induction l generalizing lo with
  | nil => exact spWfFrom_mono d h hr
  | cons x l ih =>
    simp only [List.cons_append, spWfFrom, Bool.and_eq_true] at hl ⊢
    exact ⟨hl.1, ih hl.2 (fun y hy => hlt y (List.mem_cons_of_mem _ hy)) (hlt x List.mem_cons_self)⟩

theorem spWfFrom_above {α : Type} [DecidableEq α] (d : α) {lo m : Nat} {l : List (Nat × α)} (h : spWfFrom d lo l = true) :
    spWfFrom d m (l.filter fun e => m ≤ e.1) = true := by
  induction l generalizing lo with
  | nil => rfl
  | cons x l ih =>
    simp only [spWfFrom, Bool.and_eq_true] at h
    by_cases hx : m ≤ x.1
    · rw [List.filter_cons_of_pos (by simpa using hx)]
      simp only [spWfFrom, Bool.and_eq_true]
      exact ⟨⟨by simpa using hx, h.1.2⟩, spWfFrom_filter d _ h.2⟩
    · rw [List.filter_cons_of_neg (by simpa using hx)]
      exact ih h.2

theorem spWfFrom_bytes (d : Byte) (bs : List Byte) (lo : Nat) :
    spWfFrom d lo ((bs.mapIdx fun i b => (lo + i, b)).filter fun e => !(e.2 == d)) = true := by
  induction bs generalizing lo with
  | nil => rfl
  | cons b bs ih =>
    have h := ih (lo + 1)
    have he : (bs.mapIdx fun i b => (lo + (i + 1), b)) = bs.mapIdx fun i b => (lo + 1 + i, b) :=
      congrArg bs.mapIdx (funext fun i => funext fun b => by rw [Nat.add_assoc, Nat.add_comm 1 i])
    rw [List.mapIdx_cons, he]
    by_cases hb : (b == d) = true
    · rw [List.filter_cons_of_neg (by simp [hb])]
      exact spWfFrom_mono d (Nat.le_succ lo) h
    · rw [List.filter_cons_of_pos (by simpa using hb)]
      simp only [spWfFrom, Nat.add_zero, Nat.le_refl, decide_true, Bool.true_and, Bool.and_eq_true]
      exact ⟨by simpa using hb, h⟩

theorem wf_spBlock {m : List Host.Cell} (h : Memory.wf m = true) (lo : Nat) (bs : List Byte) :
    Memory.wf (spBlock Config.memDefault m lo bs) = true := by
  unfold spBlock
  refine spWfFrom_append (m := lo + bs.length) _ (spWfFrom_append (m := lo) _ (spWfFrom_filter _ _ h) ?_ (spWfFrom_bytes _ bs lo)
    (Nat.zero_le _)) ?_ (spWfFrom_above _ h) (Nat.zero_le _)
  · intro x hx
    simpa using List.of_mem_filter hx
  · intro x hx
    rcases List.mem_append.1 hx with hx | hx
    · have : x.1 < lo := by simpa using List.of_mem_filter hx
      omega
    · obtain ⟨i, hi, rfl⟩ := List.mem_mapIdx.1 (List.mem_of_mem_filter hx)
      show lo + i < lo + bs.length
      omega

theorem chargeMem_mem (s : State) (r pa n : Nat) : (chargeMem s r pa n).mem = s.mem := by
  rw [(charged_chargeMem s r pa n).device]

theorem wf_writeRecordPage {s : State} (h : Memory.wf s.mem = true) (r pa : Nat) : Memory.wf (writeRecordPage r s pa).mem = true := by
  unfold writeRecordPage
  refine wf_spBlock ?_ _ _
  rw [chargeMem_mem]
  exact wf_recallRange h _ _

theorem wf_sectorBehind {s : State} (h : Memory.wf s.mem = true) (sec : Nat) : Memory.wf (sectorBehind s sec).mem = true := by
  have hm : (sectorBehind s sec).mem = writeBytes Config.memDefault s.mem (32 * sec) (behindBytes s sec) := by
    unfold sectorBehind
    split <;> rfl
  rw [hm]
  exact wf_writeBytes _ _ h

theorem wf_discardSector {s : State} (h : Memory.wf s.mem = true) (core pa : Nat) :
    Memory.wf (discardSector core s pa).mem = true := by
  unfold discardSector
  split
  · exact h
  · have hm : ∀ u : State, (choose u 2).2.mem = u.mem := fun _ => rfl
    have h1 : Memory.wf (choose (l1DropRange s core pa 32) 2).2.mem = true := (hm _).symm ▸ h
    generalize choose (l1DropRange s core pa 32) 2 = x at h1
    obtain ⟨c, u⟩ := x
    dsimp only at h1 ⊢
    split
    · exact h1
    · exact wf_sectorBehind h1 _

theorem selfTest_mem (s : State) (o : TestOutcome) : (selfTest s o).mem = s.mem := by cases o <;> rfl

theorem wf_coldReset {s : State} (h : Memory.wf s.mem = true) (o : TestOutcome) : Memory.wf (coldReset s o).mem = true := by
  unfold coldReset
  dsimp only
  rw [selfTest_mem]
  have h0 : Memory.wf ({ s with blocks := [] } : State).mem = true := h
  generalize ({ s with blocks := [] } : State) = u at h0
  have h1 : Memory.wf ((dirtyAbove s fun a => tierOf a == some .host).foldl sectorBehind u).mem = true :=
    wf_foldl sectorBehind (fun t x ht => wf_sectorBehind ht x) _ h0
  exact wf_filter h1 _

/-- The canonical form makes equal memories equal data. -/
theorem mem_ext {l m : List Host.Cell} (wl : Memory.wf l = true) (wm : Memory.wf m = true)
    (h : ∀ a, spGet Config.memDefault l a = spGet Config.memDefault m a) : l = m :=
  spWfFrom_ext Config.memDefault wl wm h

theorem reset_wf : Memory.wf State.reset.mem = true := rfl

end Sys2Proof.Laws
end

