-- ==== Sys2Proof/Laws/Sent.lean ====
section
/-! SUPPORT. Messages on their way: what sending leaves alone. -/

namespace Sys2Proof.Laws

open Sys2Proof Sys2Proof.Machine Sys2Proof.Safety

theorem sent_refl (s : State) : Sent s s := ⟨rfl, rfl⟩

theorem sent_trans {s t u : State} (h : Sent s t) (k : Sent t u) : Sent s u := by
  refine ⟨?_, k.ops.trans h.ops⟩
  have h1 := h.device
  generalize t.outbox = A1, t.loop = A2, t.heldMsgs = A3, t.markersDue = A4, t.portOut = A5, t.combOut = A6, t.links = A7,
    t.flitsOut = A8, t.gridOps = A9, t.budget = B1, t.shadows = B2, t.activity = B3, t.free = B4 at h1
  subst h1
  exact k.device

theorem sent_foldl {α : Type} (g : State → α → State) (h : ∀ s x, Sent s (g s x)) (l : List α) (s : State) :
    Sent s (l.foldl g s) := by
  induction l generalizing s with
  | nil => exact sent_refl s
  | cons a l ih => exact sent_trans (h s a) (ih _)

theorem sent_enqueue (s : State) (k : Nat) (ws : List PortFlit) : Sent s (enqueue s k ws) := ⟨rfl, rfl⟩

theorem noteTravel_ops (s : State) (g : GOut) :
    ((noteTravel s g).map fun o => { o with planes := [] }) = s.gridOps.map fun o => { o with planes := [] } := by
  unfold noteTravel
  split
  · rfl
  · rw [List.map_map]
    congr 1
    funext o
    simp only [Function.comp]
    split <;> rfl

theorem sent_leave (s : State) (g : GOut) : Sent s (leave s g) := by
  unfold leave
  have h : Sent s { s with outbox := s.outbox ++ [g], gridOps := noteTravel s g, free := s.free + 1 } :=
    ⟨rfl, noteTravel_ops s g⟩
  dsimp only
  generalize ({ s with outbox := s.outbox ++ [g], gridOps := noteTravel s g, free := s.free + 1 } : State) = u at h ⊢
  split
  · exact sent_trans h (sent_enqueue _ _ _)
  · exact h

theorem sent_leavePort (s : State) (t : CombTree) : Sent s (leavePort s t) := by
  cases t with
  | one g => exact sent_trans (t := { s with combOut := s.combOut ++ [] }) ⟨rfl, rfl⟩ (sent_leave _ _)
  | two a b m =>
    exact sent_trans (t := { s with combOut := s.combOut ++ [{ tag := m.tag, part := m.part, tree := .two a b m, far := false }] })
      ⟨rfl, rfl⟩ (sent_leave _ _)

theorem sent_flushPort (s : State) : Sent s (flushPort s) :=
  sent_trans (t := { s with portOut := [] }) ⟨rfl, rfl⟩ (sent_foldl _ sent_leavePort _ _)

theorem sent_toPort (s : State) (g : GOut) : Sent s (toPort s g) := by
  unfold toPort
  split
  · exact ⟨rfl, rfl⟩
  · refine sent_trans ?_ (sent_leave _ g)
    split
    · exact sent_flushPort s
    · exact sent_refl s

theorem sent_sendMarker (s : State) (g : GOut) : Sent s (sendMarker s g) := by
  unfold sendMarker
  split
  · exact ⟨rfl, rfl⟩
  · exact sent_leave s g

theorem sent_chargeFabric (s : State) (r n : Nat) (b : Bool) : Sent s (chargeFabric s r n b) := ⟨rfl, rfl⟩

theorem sent_sendMarkers (s : State) (g : GOut) : Sent s (sendMarkers s g) := by
  unfold sendMarkers
  dsimp only
  refine sent_foldl _ (fun s m => sent_trans ?_ (sent_sendMarker _ m)) _ s
  split
  · exact sent_chargeFabric _ _ _ _
  · exact sent_refl s

theorem sent_emit (s : State) (g : GOut) : Sent s (emit s g) := by
  unfold emit
  have h : Sent s (if goesHome s g then { s with loop := s.loop ++ [g] } else s) := by
    split
    · exact ⟨rfl, rfl⟩
    · exact sent_refl s
  generalize (if goesHome s g then { s with loop := s.loop ++ [g] } else s) = u at h
  dsimp only
  split
  · split
    · exact sent_trans h (sent_trans (sent_toPort _ _) (sent_sendMarkers _ _))
    · exact sent_trans h (sent_toPort _ _)
  · exact h

theorem sent_route (s : State) (g : GOut) : Sent s (route s g) := by
  unfold route
  split
  · exact ⟨rfl, rfl⟩
  · exact sent_emit s g

theorem sent_releaseHeld (s : State) : Sent s (releaseHeld s) :=
  sent_trans (t := { s with heldMsgs := [] }) ⟨rfl, rfl⟩ (sent_foldl _ sent_route _ _)

theorem sent_send (r : Nat) (s : State) (g : GOut) : Sent s (send r s g) :=
  sent_trans (sent_chargeFabric s r (payloadBytes g) false) (sent_route _ g)

theorem sent_blocks {s t : State} (h : Sent s t) : t.blocks = s.blocks := by rw [h.device]
theorem sent_launches {s t : State} (h : Sent s t) : t.launches = s.launches := by rw [h.device]

theorem sent_issuer {s t : State} (h : Sent s t) (r : FragRef) : issuerAt t r = issuerAt s r := by
  unfold issuerAt getBlock getLaunch
  rw [sent_blocks h, sent_launches h]

theorem setPlanemap_same (s : State) (x : DWord) : (setPlanemap s x).blocks = s.blocks ∧ (setPlanemap s x).launches = s.launches := by
  unfold setPlanemap
  dsimp only
  exact ⟨(sent_blocks (sent_releaseHeld _)).trans rfl, (sent_launches (sent_releaseHeld _)).trans rfl⟩

end Sys2Proof.Laws
end

