-- ==== Sys2Proof/Laws/Kept.lean ====
section
/-! SUPPORT. What keeps every issuing fragment in its place: memory operations, events, barriers, launches. -/

namespace Sys2Proof.Laws

open Sys2Proof Sys2Proof.Machine Sys2Proof.Safety

/-- Every fragment that a state holds, another holds too. -/
def Kept (s t : State) : Prop := ∀ r e, issuerAt s r = some e → ∃ e', issuerAt t r = some e'

theorem kept_refl (s : State) : Kept s s := fun _ e h => ⟨e, h⟩

theorem kept_trans {s t u : State} (h : Kept s t) (k : Kept t u) : Kept s u := fun r e he => by
  obtain ⟨e', h'⟩ := h r e he
  exact k r e' h'

theorem kept_same {s t : State} (hb : t.blocks = s.blocks) (hl : t.launches = s.launches) : Kept s t := fun r e he => by
  refine ⟨e, ?_⟩
  rw [← he]
  unfold issuerAt getBlock getLaunch
  rw [hb, hl]

theorem kept_charged {s t : State} (h : Charged s t) : Kept s t := fun r e he => ⟨e, by rw [charged_issuer h]; exact he⟩

theorem kept_linesMoved {s t : State} (h : LinesMoved s t) : Kept s t := fun r e he => by
  obtain ⟨b, -, -, hb⟩ := linesMoved_issuer h he
  exact ⟨_, hb⟩

theorem kept_stirred {s t : State} (h : Stirred s t) : Kept s t := fun r e he => by
  obtain ⟨e', he', -⟩ := h.issuers r e he
  exact ⟨e', he'⟩

theorem kept_foldl {α : Type} (g : State → α → State) (h : ∀ s x, Kept s (g s x)) (l : List α) (s : State) :
    Kept s (l.foldl g s) := by
  induction l generalizing s with
  | nil => exact kept_refl s
  | cons a l ih => exact kept_trans (h s a) (ih _)

/-- A block that keeps its launch, packs and fragments. -/
theorem kept_setBlock {s : State} {n : Nat} {b c : Block} (hb : getBlock s n = some b) (h1 : c.bid = b.bid)
    (h2 : c.launch = b.launch) (h3 : ∀ i j p, getPack b i j = some p → ∃ q, getPack c i j = some q ∧
      ∀ k f, getFrag p k = some f → ∃ g, getFrag q k = some g) : Kept s (setBlock s c) := fun r e he => by
  obtain ⟨h0, i1, i2, i3, i4⟩ := issuerAt_eq.1 he
  have hcn : c.bid = n := h1.trans (getBlock_bid hb)
  by_cases hn : r.blk = n
  · subst hn
    rw [hb] at i1
    obtain ⟨q, hq, hf⟩ := h3 _ _ _ (Option.some.inj i1 ▸ i2)
    obtain ⟨g, hg⟩ := hf _ _ i4
    refine ⟨_, issuerAt_setBlock he hcn ?_ hq hg⟩
    rw [h2, Option.some.inj i1]
  · exact ⟨e, issuerAt_eq.2 ⟨h0, by rw [getBlock_setBlock_other (by rw [hcn]; exact hn)]; exact i1, i2, i3, i4⟩⟩

/-- A block that keeps its launch and packs. -/
theorem kept_setBlock_packs {s : State} {n : Nat} {b c : Block} (hb : getBlock s n = some b) (h1 : c.bid = b.bid)
    (h2 : c.launch = b.launch) (h3 : c.packs = b.packs) : Kept s (setBlock s c) :=
  kept_setBlock hb h1 h2 fun i j p hp => ⟨p, by unfold getPack; rw [h3]; exact hp, fun _ f hf => ⟨f, hf⟩⟩

/-- A pack that keeps its place and fragments. -/
theorem kept_setPack {s : State} {n : Nat} {b c : Block} {i j : Nat} {p q : Pack} (hb : getBlock s n = some b)
    (hp : getPack b i j = some p) (h1 : q.pidx = p.pidx) (h2 : q.pos = p.pos)
    (h3 : ∀ k f, getFrag p k = some f → ∃ g, getFrag q k = some g)
    (hc : c = { setPack b q with stash := c.stash, stashPoison := c.stashPoison, lines := c.lines, refill := c.refill,
                                 regions := c.regions, score := c.score, queues := c.queues, barriers := c.barriers }) :
    Kept s (setBlock s c) := by
  have hk := getPack_key hp
  have e1 : c.bid = b.bid := by rw [hc]; rfl
  have e2 : c.launch = b.launch := by rw [hc]; rfl
  have e3 : c.packs = (setPack b q).packs := by rw [hc]
  refine kept_setBlock hb e1 e2 fun i' j' p' hp' => ?_
  have hg : getPack c i' j' = getPack (setPack b q) i' j' := by unfold getPack; rw [e3]
  rw [hg]
  by_cases hij : i' = q.pidx ∧ j' = q.pos
  · obtain ⟨rfl, rfl⟩ := hij
    have : p' = p := by
      rw [h1, h2, hk.1, hk.2, hp] at hp'
      exact (Option.some.inj hp').symm
    subst this
    exact ⟨q, getPack_setPack hp' rfl rfl, h3⟩
  · exact ⟨p', by rw [getPack_setPack_other hij]; exact hp', fun _ f hf => ⟨f, hf⟩⟩

theorem kept_setLaunch (s : State) (l : Launch) : Kept s (setLaunch s l) := fun r e he => by
  obtain ⟨h0, i1, i2, i3, i4⟩ := issuerAt_eq.1 he
  by_cases hn : e.b.launch = l.lid
  · exact ⟨{ e with l := l }, issuerAt_eq.2 ⟨h0, i1, i2, by rw [hn]; exact getLaunch_setLaunch (hn ▸ i3) rfl, i4⟩⟩
  · refine ⟨e, issuerAt_eq.2 ⟨h0, i1, i2, ?_, i4⟩⟩
    rw [← i3]
    unfold getLaunch setLaunch
    refine find?_replaceFirst_other (by simpa using Ne.symm hn) ?_ _
    intro y hy
    have hy : y.lid = l.lid := by simpa using hy
    simpa [hy] using Ne.symm hn

/-! ## Writes of memory and events -/

theorem linesMoved_gWrite (s : State) (pa : Nat) (bs : List Byte) : LinesMoved s (gWrite s pa bs) := by
  unfold gWrite
  dsimp only
  split
  · exact linesMoved_recallRange _ _ _
  · exact linesMoved_trans (linesMoved_recallRange _ _ _) (linesMoved_memory _ _ _ _ _ _)

theorem linesMoved_gWriteNat (s : State) (pa n x : Nat) : LinesMoved s (gWriteNat s pa n x) := linesMoved_gWrite _ _ _

theorem kept_ite {s t u : State} {c : Prop} [Decidable c] (h : Kept s t) (k : Kept s u) : Kept s (if c then t else u) := by
  split
  · exact h
  · exact k

theorem kept_noteLost (s : State) (f : Bool) : Kept s (noteLost s f) := kept_same rfl rfl

theorem kept_postTo (s : State) (d r : Nat) : Kept s (postTo s d r) :=
  kept_ite (kept_noteLost _ _) (kept_ite (kept_linesMoved (linesMoved_gWriteNat _ _ _ _))
    (kept_linesMoved (linesMoved_trans (linesMoved_gWriteNat _ _ _ _) (linesMoved_gWriteNat _ _ _ _))))

theorem kept_postEvent (s : State) (rcb r : Nat) : Kept s (postEvent s rcb r) := kept_postTo _ _ _

theorem kept_postMemoryError (s : State) (r b a : Nat) : Kept s (postMemoryError s r b a) := kept_postEvent _ _ _

theorem kept_reportLost (s : State) : Kept s (reportLost s) :=
  kept_trans (t := { s with lost := [] }) (kept_same rfl rfl) (kept_foldl _ (fun _ _ => kept_postEvent _ _ _) _ _)

theorem kept_cleanLines (s : State) (b : Block) (sel : StashLine → Bool) : Kept s (cleanLines s b sel) :=
  kept_trans (kept_foldl _ (fun _ _ => kept_linesMoved (linesMoved_cleanLine _ _ _)) _ s) (kept_reportLost _)

theorem kept_unmapRegion (s : State) (bid i : Nat) : Kept s (unmapRegion s bid i) := by
  unfold unmapRegion
  split
  · exact kept_refl s
  · rename_i b hb
    split
    · exact kept_refl s
    · dsimp only
      split
      · exact kept_cleanLines _ _ _
      · rename_i c hc
        exact kept_trans (kept_cleanLines _ _ _) (kept_setBlock_packs hc rfl rfl rfl)

/-! ## Device registers -/

theorem kept_readPacket (q slog ring rcb cons : Nat) (s : State) : Kept s (readPacket q slog ring rcb cons s) := by
  unfold readPacket
  dsimp only
  refine kept_trans (t := putQueue s { getQueue s q with cons := (getQueue s q).cons + 1 }) (kept_same rfl rfl) ?_
  exact kept_trans (kept_linesMoved (linesMoved_gWriteNat _ cons 8 ((getQueue s q).cons + 1).toNat)) (kept_same rfl rfl)

theorem kept_doorbell (s : State) (q : Nat) (p : Word) : Kept s (doorbell s q p) := by
  unfold doorbell
  dsimp only
  split
  · exact kept_refl s
  · split
    · exact kept_same rfl rfl
    · split
      · exact kept_same rfl rfl
      · rename_i slog ring rcb cons _ _
        exact kept_trans (t := putQueue s { getQueue s q with target := p }) (kept_same rfl rfl)
          (kept_foldl _ (fun s _ => kept_readPacket q slog ring rcb cons s) _ _)

theorem kept_sysPut (s : State) (n : Nat) (x : DWord) : Kept s (sysPut s n x) := by
  unfold sysPut
  split
  case h_4 => exact kept_same (setPlanemap_same s x).1 (setPlanemap_same s x).2
  all_goals exact kept_same rfl rfl

theorem kept_hostSysWrite (s : State) (n x : Nat) : Kept s (hostSysWrite s n x) := by
  unfold hostSysWrite
  dsimp only
  split
  · exact kept_refl s
  · split
    · exact kept_same rfl rfl
    · exact kept_sysPut _ _ _

theorem kept_hostRegPut (s : State) (off : Nat) (x : DWord) : Kept s (hostRegPut s off x) := by
  unfold hostRegPut
  split
  · exact kept_refl s
  · split
    · exact kept_hostSysWrite _ _ _
    · split
      · exact kept_doorbell _ _ _
      · split
        · exact kept_same rfl rfl
        · exact kept_same rfl rfl
        · exact kept_same rfl rfl
        · exact kept_same rfl rfl
        · exact kept_refl s

theorem kept_regWrite (s : State) (pa : Nat) (bs : List Byte) : Kept s (regWrite s pa bs) :=
  kept_foldl _ (fun s _ => kept_hostRegPut s _ _) _ _

theorem kept_noteEffect (s : State) (lid seq pa : Nat) (old new : List Byte) : Kept s (noteEffect s lid seq pa old new) := by
  unfold noteEffect
  split
  · exact kept_refl s
  · exact kept_setLaunch _ _

/-- One value for every active lane: what `sameResult` leaves. -/
theorem sameResult_ok {s : State} {e : Issuer} {b : Block} {l : Launch} (h : issuerAt s e.ref = some { e with b := b, l := l })
    (d : Dst) (nowb : Bool) (n x : Nat) : ∃ u r, sameResult s e d nowb n x = .ok u r ∧ (∃ e', issuerAt u e.ref = some e') ∧
      ResultOnly s u e d nowb n (maskLanes e.p e.f) (fun _ => x) r := by
  have h1 := resultOnly_writeBack (e := { e with b := b, l := l }) h d nowb n
    (act := maskLanes e.p e.f) (fun l hl => (mem_maskLanes hl).1) (fun _ => x)
  have hre : refresh s e = { e with b := b, l := l } := by unfold refresh; rw [h]; rfl
  refine ⟨_, _, rfl, ?_, ?_⟩
  · rw [hre]
    exact issuer_writeBack (e := { e with b := b, l := l }) h (charged_refl s) d nowb n ((maskLanes e.p e.f).map fun l => (l, x))
  · rw [hre]
    exact ⟨h1.frame, h1.pack, h1.latch⟩

end Sys2Proof.Laws
end

