-- ==== Sys2Proof/Laws/Grid.lean ====
section
/-! SUPPORT. Grid operations: the tag of a new one, how one begins, and the lines that its messages carry. -/

namespace Sys2Proof.Laws

open Sys2Proof Sys2Proof.Machine Sys2Proof.Safety

/-- A free tag is one of the 16 bits' and no operation's in flight. -/
theorem freshTag_new {s : State} (h : (freeTag s).isSome = true) :
    freshTag s < 65536 ∧ ∀ x ∈ s.gridOps, x.tag ≠ freshTag s := by
  obtain ⟨t, ht⟩ := Option.isSome_iff_exists.1 h
  have hf : freshTag s = t := by unfold freshTag; rw [ht]; rfl
  rw [hf]
  unfold freeTag at ht
  have h1 := List.mem_range.1 (List.mem_of_find?_eq_some ht)
  have h2 := List.find?_some ht
  simp only [Bool.not_eq_true', List.any_eq_false, beq_iff_eq] at h2
  exact ⟨by omega, fun x hx => h2 x hx⟩

/-- A grid operation begins as `Posts` says, and its issuer stays. -/
theorem posts_sendOp {s : State} {e e' : Issuer} (h : issuerAt s e.ref = some e') (hp : e'.p = e.p)
    (hf : (freeTag s).isSome = true) (o : GridOp) (gs : List GOut) :
    Posts s (sendOp s e o gs) e o gs ∧ ∃ e2, issuerAt (sendOp s e o gs) e.ref = some e2 := by
  obtain ⟨-, i1, i2, -, i4⟩ := issuerAt_eq.1 h
  have hr : refresh s e = e' := by unfold refresh; rw [h]; rfl
  have hk := getPack_key i2
  let v : State := { s with nextId := s.nextId + 1, gridOps := s.gridOps ++ [{ o with tag := freshTag s, op := s.nextId }] }
  have hv : getBlock v e.ref.blk = some e'.b := i1
  have hm : sendOp s e o gs =
      (gs.map (putTag (freshTag s))).foldl (send e.l.region) (setBlock v (setPack e'.b (engAdd e'.p s.nextId .grid none))) := by
    unfold sendOp
    rw [hr]
    dsimp only
    exact congrArg (fun x => (gs.map (putTag (freshTag s))).foldl (send e.l.region) x) (putPack_eq (s := v) hv _)
  refine ⟨⟨freshTag s, _, (freshTag_new hf).1, (freshTag_new hf).2,
    ⟨onlyPack_setBlock (s := v) (q := engAdd e'.p s.nextId .grid none) hv i2 rfl rfl, ?_⟩, hm⟩, ?_⟩
  · unfold packNow
    have hb0 : e'.b.bid = e.ref.blk := getBlock_bid i1
    rw [getBlock_setBlock hv (b := setPack e'.b (engAdd e'.p s.nextId .grid none)) hb0]
    refine (getPack_setPack (p := engAdd e'.p s.nextId .grid none) i2 hk.1 hk.2).trans ?_
    rw [hp]
    rfl
  · rw [hm]
    have h2 : issuerAt v e.ref = some e' := h
    have h3 : Kept v (setBlock v (setPack e'.b (engAdd e'.p s.nextId .grid none))) :=
      kept_setPack (q := engAdd e'.p s.nextId .grid none) hv i2 rfl rfl (fun k f hf => ⟨f, hf⟩) rfl
    obtain ⟨e3, h3⟩ := h3 _ _ h2
    exact ⟨e3, (sent_issuer (sent_foldl _ (sent_send _) _ _) _).trans h3⟩

/-! ## Lines -/

/-- Lines hold what a function of the address gives. -/
structure LinesHold (ls : List (Nat × List (Bool × Byte))) (f : Nat → Option Byte) : Prop where
  once : (ls.map (·.1)).Nodup
  full : ∀ x ∈ ls, x.2.length = 128 ∧ ∀ j, j < 128 → x.2[j]? = some ((f (x.1 * 128 + j)).elim (false, 0) fun b => (true, b))
  every : ∀ a b, f a = some b → ∃ x ∈ ls, x.1 = a / 128

theorem linesHold_nil : LinesHold [] fun _ => none := ⟨List.nodup_nil, fun _ h => absurd h (List.not_mem_nil), fun _ _ h => nomatch h⟩

theorem linesHold_congr {ls : List (Nat × List (Bool × Byte))} {f g : Nat → Option Byte} (h : LinesHold ls f) (k : ∀ a, f a = g a) :
    LinesHold ls g := by
  have : f = g := funext k
  rwa [← this]

theorem line_split (a j l : Nat) (hj : j < 128) (h : l * 128 + j = a) : l = a / 128 ∧ j = a % 128 := by omega

theorem linesHold_overlay {ls : List (Nat × List (Bool × Byte))} {f : Nat → Option Byte} (h : LinesHold ls f) (a : Nat) (b : Byte) :
    LinesHold (overlay ls a b) fun x => if x = a then some b else f x := by
  unfold overlay
  by_cases hc : (ls.any fun l => l.1 == a / 128) = true
  · rw [if_pos hc]
    have hfst : (ls.map fun l => if l.1 = a / 128 then (l.1, putByte l.2 (a % 128) b) else l).map (·.1) = ls.map (·.1) := by
      rw [List.map_map]
      refine List.map_congr_left fun x _ => ?_
      dsimp only [Function.comp]
      split <;> rfl
    refine ⟨by rw [hfst]; exact h.once, fun y hy => ?_, fun x c hx => ?_⟩
    · obtain ⟨x, hx, rfl⟩ := List.mem_map.1 hy
      obtain ⟨h1, h2⟩ := h.full x hx
      split
      · rename_i hxa
        refine ⟨by simp [putByte, h1], fun j hj => ?_⟩
        dsimp only
        unfold putByte
        rw [List.getElem?_set]
        by_cases hja : a % 128 = j
        · rw [if_pos hja, if_pos (by omega), if_pos (by omega)]
          rfl
        · rw [if_neg hja, h2 j hj, if_neg (by omega)]
      · rename_i hxa
        refine ⟨h1, fun j hj => ?_⟩
        rw [h2 j hj, if_neg (by omega)]
    · by_cases hxa : x = a
      · subst hxa
        obtain ⟨y, hy, hy2⟩ := List.any_eq_true.1 hc
        exact ⟨_, List.mem_map.2 ⟨y, hy, rfl⟩, by split <;> exact beq_iff_eq.1 hy2⟩
      · rw [if_neg hxa] at hx
        obtain ⟨y, hy, hy2⟩ := h.every x c hx
        exact ⟨_, List.mem_map.2 ⟨y, hy, rfl⟩, by split <;> exact hy2⟩
  · rw [if_neg hc]
    have hno : ∀ x ∈ ls, x.1 ≠ a / 128 := fun x hx he => hc (List.any_eq_true.2 ⟨x, hx, beq_iff_eq.2 he⟩)
    have hnone : ∀ j, j < 128 → f (a / 128 * 128 + j) = none := by
      intro j hj
      cases hf : f (a / 128 * 128 + j) with
      | none => rfl
      | some c =>
        obtain ⟨x, hx, hx2⟩ := h.every _ _ hf
        exact absurd (hx2.trans (by omega)) (hno x hx)
    refine ⟨?_, fun y hy => ?_, fun x c hx => ?_⟩
    · rw [List.map_append, List.nodup_append]
      refine ⟨h.once, by simp, ?_⟩
      intro x hx y hy
      obtain ⟨z, hz, rfl⟩ := List.mem_map.1 hx
      rw [List.mem_singleton.1 hy]
      exact hno z hz
    · rcases List.mem_append.1 hy with hy | hy
      · obtain ⟨h1, h2⟩ := h.full y hy
        refine ⟨h1, fun j hj => ?_⟩
        have := hno y hy
        rw [h2 j hj, if_neg (by omega)]
      · rw [List.mem_singleton.1 hy]
        refine ⟨by simp [putByte, emptyLine], fun j hj => ?_⟩
        dsimp only
        unfold putByte
        rw [List.getElem?_set]
        have hl : emptyLine.length = 128 := by simp [emptyLine]
        by_cases hja : a % 128 = j
        · rw [if_pos hja, if_pos (by omega), if_pos (by omega)]
          rfl
        · rw [if_neg hja, if_neg (by omega), hnone j hj]
          unfold emptyLine
          rw [List.getElem?_replicate, if_pos hj]
          rfl
    · by_cases hxa : x = a
      · exact ⟨_, List.mem_append_right _ (List.mem_singleton.2 rfl), by rw [hxa]⟩
      · rw [if_neg hxa] at hx
        obtain ⟨y, hy, hy2⟩ := h.every x c hx
        exact ⟨y, List.mem_append_left _ hy, hy2⟩

theorem linesHold_overlayBytes (bs : List Byte) : ∀ {ls : List (Nat × List (Bool × Byte))} {f : Nat → Option Byte} (_ : LinesHold ls f) (a : Nat),
    LinesHold (overlayBytes ls a bs) fun x => if a ≤ x ∧ x < a + bs.length then bs[x - a]? else f x := by
  induction bs with
  | nil =>
    intro ls f h a
    exact linesHold_congr h fun x => by rw [if_neg (by simp)]
  | cons b bs ih =>
    intro ls f h a
    refine linesHold_congr (ih (linesHold_overlay h a b) (a + 1)) fun x => ?_
    simp only [List.length_cons]
    by_cases hx : x = a
    · subst hx
      rw [if_neg (by omega), if_pos rfl, if_pos (by omega)]
      simp
    · by_cases h2 : a + 1 ≤ x ∧ x < a + 1 + bs.length
      · rw [if_pos h2, if_pos (by omega)]
        rw [show x - a = (x - (a + 1)) + 1 by omega, List.getElem?_cons_succ]
      · rw [if_neg h2, if_neg hx, if_neg (by omega)]

/-- The byte that a lane gives at an address, if one does. -/
def laneByteAt (n : Nat) (addr val : Nat → Nat) (act : List Nat) (a : Nat) : Option Byte :=
  (act.find? fun l => addr l ≤ a && a < addr l + n).map fun l => byteOf (val l) (a - addr l)

theorem linesHold_lanes {n : Nat} {addr val : Nat → Nat} (act : List Nat) (hnd : act.Nodup) (h : Apart n act addr) :
    ∀ {ls : List (Nat × List (Bool × Byte))} {f : Nat → Option Byte} (_ : LinesHold ls f),
      LinesHold ((act.map fun l => (l, addr l)).foldl (fun ls a => overlayBytes ls a.2 (leBytes n (val a.1))) ls)
        fun a => (laneByteAt n addr val act a).or (f a) := by
  induction act with
  | nil => exact fun h => h
  | cons l act ih =>
    intro ls f hf
    rw [List.map_cons, List.foldl_cons]
    have h2 : Apart n act addr := fun x hx y hy => h x (List.mem_cons_of_mem _ hx) y (List.mem_cons_of_mem _ hy)
    refine linesHold_congr (ih (List.nodup_cons.1 hnd).2 h2 (linesHold_overlayBytes (leBytes n (val l)) hf (addr l))) fun a => ?_
    unfold laneByteAt
    rw [leBytes_length, List.find?_cons]
    by_cases hc : addr l ≤ a ∧ a < addr l + n
    · have hn : (act.find? fun l => addr l ≤ a && a < addr l + n) = none := by
        rw [List.find?_eq_none]
        intro k hk hka
        simp only [Bool.and_eq_true, decide_eq_true_eq] at hka
        have hne : l ≠ k := fun he => (List.nodup_cons.1 hnd).1 (he ▸ hk)
        have := h l (List.mem_cons_self) k (List.mem_cons_of_mem _ hk) hne
        omega
      rw [hn, if_pos hc]
      have hd : (decide (addr l ≤ a) && decide (a < addr l + n)) = true := by simp [hc]
      rw [hd]
      simp only [Option.map_none, Option.none_or, Option.map_some, Option.some_or]
      have hlt : a - addr l < (leBytes n (val l)).length := by rw [leBytes_length]; omega
      rw [List.getElem?_eq_getElem hlt, ← leBytes_getD n (val l) (a - addr l) (by omega)]
      rw [List.getD_eq_getElem?_getD, List.getElem?_eq_getElem hlt]
      rfl
    · rw [if_neg hc]
      have hd : (decide (addr l ≤ a) && decide (a < addr l + n)) = false := by
        rw [Bool.and_eq_false_iff]
        simp only [decide_eq_false_iff_not]
        omega
      rw [hd]

/-- The messages of lines carry them. -/
theorem lineMessages_of {ls : List (Nat × List (Bool × Byte))} {f : Nat → Option Byte} (h : LinesHold ls f) (kind : Nat) (m : GMsg) :
    LineMessages kind m (lineMsgs kind m ls) f := by
  have hmap : (lineMsgs kind m ls).map (fun x => x.msg.addr) = (ls.map (·.1)).map (· * 128) := by
    unfold lineMsgs
    refine List.ext_getElem? fun i => ?_
    simp only [List.getElem?_map, List.getElem?_mapIdx, Option.map_map]
    rfl
  refine ⟨fun i x hx => ?_, ?_, fun a b hf => ?_⟩
  · unfold lineMsgs at hx
    rw [List.getElem?_mapIdx] at hx
    obtain ⟨y, hy, rfl⟩ := Option.map_eq_some_iff.1 hx
    obtain ⟨h1, h2⟩ := h.full y (List.mem_of_getElem? hy)
    exact ⟨by simp [lineMsgs], Nat.mul_mod_left _ _, h1, h2⟩
  · rw [hmap]
    exact h.once.map fun a b hab => by simpa using hab
  · obtain ⟨y, hy, hya⟩ := h.every a b hf
    obtain ⟨i, hi⟩ := List.mem_iff_getElem?.1 hy
    refine ⟨{ kind, msg := { m with addr := y.1 * 128, bytes := y.2, part := i, nparts := ls.length } }, ?_, by rw [hya]⟩
    refine List.mem_iff_getElem?.2 ⟨i, ?_⟩
    unfold lineMsgs
    rw [List.getElem?_mapIdx, hi]
    rfl

end Sys2Proof.Laws
end

