-- ==== Sys2Proof/Laws/Octets.lean ====
section
/-! SUPPORT. The matrix unit: the issue of octets and what partners take note of. -/

namespace Sys2Proof.Laws

open Sys2Proof Sys2Proof.Machine Sys2Proof.Safety

/-- Partners take note in their own fragments alone. -/
theorem kept_markPartners (s : State) (e : Issuer) (octs : List Nat) : Kept s (markPartners s e octs) := by
  unfold markPartners
  split
  · exact kept_refl s
  · rename_i b hb
    split
    · exact kept_refl s
    · rename_i p hp
      have gen : ∀ fr : List Fragment, (∀ k f, getFrag p k = some f → ∃ g, fr[k]? = some g) →
          Kept s (setBlock s (setPack b { p with frags := fr })) := fun fr hfr =>
        kept_setPack (q := { p with frags := fr }) hb hp rfl rfl hfr rfl
      refine gen _ fun k f hf => ?_
      unfold getFrag at hf
      simp only [List.getElem?_mapIdx, hf, Option.map_some]
      exact ⟨_, rfl⟩

/-- What partners take note of: only the fragments of the issuer's pack change. -/
theorem markPartners_eq {s : State} {e : Issuer} {octs : List Nat} {b : Block} {p : Pack} (hb : getBlock s e.ref.blk = some b)
    (hp : getPack b e.p.pidx e.p.pos = some p) : ∃ fr, markPartners s e octs = setBlock s (setPack b { p with frags := fr }) := by
  unfold markPartners
  simp only [hb, hp]
  exact ⟨_, rfl⟩

/-- The issuer's pack after partners took note. -/
theorem refresh_markPartners {s : State} {e e' : Issuer} {octs : List Nat} (h : issuerAt s e.ref = some e')
    (h1 : e'.p.pidx = e.p.pidx) (h2 : e'.p.pos = e.p.pos) :
    ∃ fr, (refresh (markPartners s e octs) e).p = { e'.p with frags := fr } := by
  obtain ⟨i0, i1, i2, -, -⟩ := issuerAt_eq.1 h
  have hk := getPack_key i2
  obtain ⟨fr, hm⟩ := markPartners_eq (octs := octs) i1 (by rw [← h1, ← h2, hk.1, hk.2]; exact i2)
  obtain ⟨e2, he2⟩ := kept_markPartners s e octs _ _ h
  refine ⟨fr, ?_⟩
  unfold refresh
  rw [he2, Option.getD_some]
  obtain ⟨j0, j1, j2, -, -⟩ := issuerAt_eq.1 he2
  have hbid : (setPack e'.b { e'.p with frags := fr }).bid = e.ref.blk := show e'.b.bid = e.ref.blk from getBlock_bid i1
  rw [hm, getBlock_setBlock i1 hbid] at j1
  rw [← Option.some.inj j1, getPack_setPack (p := { e'.p with frags := fr }) i2 hk.1 hk.2] at j2
  exact (Option.some.inj j2).symm

/-- A matrix instruction whose octets are there, some left to it, performs. -/
theorem performs {i : Instr} {s v : State} {e e' : Issuer} {place : BurstPlace} {body : Issuer → Act} {res : Pack → Retire}
    {k : List Nat → Act} {r : Retire} {P : State → Retire → Prop} (hx : exec i s = issue s 8 place false body) (h : Issues s e)
    (hb : burstOk e.f place = true) (hr : pairReady e.p e.f = true) (ho : todoOctets e.p e.f ≠ []) (ha : body e = matIssue s e res k)
    (hk : k (todoOctets e.p e.f) = .ok v r) (hv : issuerAt v e.ref = some e')
    (hP : P v (res (refresh (markPartners v e (todoOctets e.p e.f)) e).p)) : Performs i s e P := by
  obtain ⟨e2, he2⟩ := kept_markPartners v e (todoOctets e.p e.f) _ _ hv
  refine completes hx h hb (.inl rfl) ?_ he2 ⟨v, hP, rfl⟩
  rw [ha]
  unfold matIssue
  rw [hr]
  have hne : (todoOctets e.p e.f).isEmpty = false := by simpa using ho
  simp only [Bool.not_true, Bool.false_eq_true, if_false, hne, hk]

/-- What the issue of octets answers before it performs: it pairs, or its partners have performed. -/
theorem matIssue_pairing {s : State} {e : Issuer} {res : Pack → Retire} {k : List Nat → Act} (h : pairReady e.p e.f = false) :
    matIssue s e res k = .wait .pairing .none := by
  unfold matIssue
  rw [h]
  rfl

theorem matIssue_done {s : State} {e : Issuer} {res : Pack → Retire} {k : List Nat → Act} (h : pairReady e.p e.f = true)
    (ho : todoOctets e.p e.f = []) : matIssue s e res k = .ok s (res e.p) := by
  unfold matIssue
  rw [h, ho]
  rfl

/-- No fault, no trap. -/
theorem matTrap_none {octet : Bool} {lanes : Nat → List Nat} {xs : List (Nat × List (Nat × Nat))} (h : ∀ x ∈ xs, x.2 = []) :
    matTrap octet lanes xs = none := by
  unfold matTrap
  have : ∀ c : Nat, (xs.filterMap fun x => match (x.2.filter fun f => f.1 == c).map (·.2) with
      | [] => none
      | as => some (x.1, minOf as)) = [] := by
    intro c
    rw [List.filterMap_eq_nil_iff]
    intro x hx
    rw [h x hx]
    rfl
  rw [List.findSome?_eq_none_iff]
  intro c _
  erw [this c]

/-- Reads that nothing holds go on from a state in which lines have moved. -/
theorem matRead_open {s : State} {e : Issuer} {cells : List (Nat × Nat × Nat)} (h : ReadsOpen s e cells) (k : State → Act) :
    ∃ u, LinesMoved s u ∧ matRead s e cells k = k u := by
  obtain ⟨h1, h2, h3, h4⟩ := h
  refine ⟨chargeSectors (fillLines s e (matStash cells)) e.l.region (matFar s e cells),
    linesMoved_trans (linesMoved_fillLines _ _ _) (linesMoved_charged (charged_chargeSectors _ _ _)), ?_⟩
  unfold matRead
  dsimp only
  erw [h1]
  simp only [Bool.false_eq_true, if_false]
  erw [h2]
  dsimp only
  erw [h3]
  dsimp only
  erw [h4]
  simp only [Bool.false_eq_true, if_false]
  rfl

theorem useFaults_nil {w a : Nat} {suits : Bool} (h : entryOk w = true) (k : suits = true) : useFaults w a suits = [] := by
  unfold useFaults
  rw [h, k]
  rfl

theorem beyond_nil {n limit : Nat} (h : n ≤ limit) : beyond n limit = [] := if_neg (by omega)

end Sys2Proof.Laws
end

