-- ==== Sys2Proof/Laws/PerInstr.lean ====
section
/-! SUPPORT. The family Coding: a well-formed instruction of a pack has a word of the length that its first parcel gives. An event
has no encoding. -/

namespace Sys2Proof.Laws

open Sys2Proof

theorem joinFields_lt (fs : List (Nat × Nat)) : joinFields fs < 2 ^ (fs.map (·.2)).sum := by
  induction fs with
  | nil => exact Nat.one_pos
  | cons f fs ih =>
    obtain ⟨v, n⟩ := f
    simp only [joinFields, List.map_cons, List.sum_cons, Nat.pow_add]
    have h1 : v % 2 ^ n < 2 ^ n := Nat.mod_lt _ (Nat.two_pow_pos n)
    calc v % 2 ^ n + 2 ^ n * joinFields fs < 2 ^ n + 2 ^ n * joinFields fs := by omega
      _ = 2 ^ n * (joinFields fs + 1) := by rw [Nat.mul_add]; omega
      _ ≤ 2 ^ n * 2 ^ (fs.map (·.2)).sum := Nat.mul_le_mul_left _ ih

theorem joinFields_head (v n : Nat) (fs : List (Nat × Nat)) : joinFields ((v, n) :: fs) % 2 ^ n = v % 2 ^ n := by
  simp only [joinFields, Nat.add_mul_mod_self_left, Nat.mod_mod]

/-- The fields that were joined are those that are split. -/
theorem splitFields_joinFields (fs : List (Nat × Nat)) :
    splitFields (fs.map (·.2)) (joinFields fs) = fs.map fun x => x.1 % 2 ^ x.2 := by
  induction fs with
  | nil => rfl
  | cons f fs ih =>
    obtain ⟨v, n⟩ := f
    simp only [List.map_cons, splitFields]
    rw [joinFields_head]
    congr 1
    rw [← ih]
    congr 1
    simp only [joinFields]
    rw [Nat.add_mul_div_left _ _ (Nat.two_pow_pos n), Nat.div_eq_of_lt (Nat.mod_lt _ (Nat.two_pow_pos n)), Nat.zero_add]

/-- What the family says of an instruction: its word fits its parcels, and the first parcel gives their number (R224). -/
def Coding.Statement (i : Instr) : Prop :=
  i.wf = true → i.parcels ≠ 0 → encode i < 2 ^ (16 * i.parcels) ∧ parcelsOf (encode i) = i.parcels

theorem coded_e64 (fs : List (Nat × Nat)) (h : (fs.map (·.2)).sum = 62) :
    joinFields ((3, 2) :: fs) < 2 ^ (16 * 4) ∧ parcelsOf (joinFields ((3, 2) :: fs)) = 4 := by
  have h1 := joinFields_lt ((3, 2) :: fs)
  have h2 := joinFields_head 3 2 fs
  rw [List.map_cons, List.sum_cons, h] at h1
  refine ⟨h1, ?_⟩
  unfold parcelsOf
  rw [if_neg (by omega), if_neg (by omega)]

theorem coded_a32 (fs : List (Nat × Nat)) (h : (fs.map (·.2)).sum = 30) :
    joinFields ((1, 2) :: fs) < 2 ^ (16 * 2) ∧ parcelsOf (joinFields ((1, 2) :: fs)) = 2 := by
  have h1 := joinFields_lt ((1, 2) :: fs)
  have h2 := joinFields_head 1 2 fs
  rw [List.map_cons, List.sum_cons, h] at h1
  refine ⟨h1, ?_⟩
  unfold parcelsOf
  rw [if_neg (by omega), if_pos (by omega)]

theorem coded_c16 (fs : List (Nat × Nat)) (h : (fs.map (·.2)).sum = 15) :
    joinFields ((0, 1) :: fs) < 2 ^ (16 * 1) ∧ parcelsOf (joinFields ((0, 1) :: fs)) = 1 := by
  have h1 := joinFields_lt ((0, 1) :: fs)
  have h2 := joinFields_head 0 1 fs
  rw [List.map_cons, List.sum_cons, h] at h1
  refine ⟨h1, ?_⟩
  unfold parcelsOf
  rw [if_pos (by omega)]

theorem Coding.nop (g : Gen) : Coding.Statement (.nop g) := fun _ _ => coded_e64 _ rfl
theorem Coding.bra (j : J64) : Coding.Statement (.bra j) := fun _ _ => coded_e64 _ rfl
theorem Coding.brc (c : Brc) : Coding.Statement (.brc c) := fun _ _ => coded_e64 _ rfl
theorem Coding.brv (v : Brv) : Coding.Statement (.brv v) := fun _ _ => coded_e64 _ rfl
theorem Coding.brany (j : J64) : Coding.Statement (.brany j) := fun _ _ => coded_e64 _ rfl
theorem Coding.brall (j : J64) : Coding.Statement (.brall j) := fun _ _ => coded_e64 _ rfl
theorem Coding.jmp (j : J64) : Coding.Statement (.jmp j) := fun _ _ => coded_e64 _ rfl
theorem Coding.call (j : J64) : Coding.Statement (.call j) := fun _ _ => coded_e64 _ rfl
theorem Coding.ret (g : Gen) : Coding.Statement (.ret g) := fun _ _ => coded_e64 _ rfl
theorem Coding.regang (g : Gen) : Coding.Statement (.regang g) := fun _ _ => coded_e64 _ rfl
theorem Coding.exit (g : Gen) : Coding.Statement (.exit g) := fun _ _ => coded_e64 _ rfl
theorem Coding.hold (g : Gen) : Coding.Statement (.hold g) := fun _ _ => coded_e64 _ rfl
theorem Coding.yield (g : Gen) : Coding.Statement (.yield g) := fun _ _ => coded_e64 _ rfl
theorem Coding.waitcnt (g : Gen) : Coding.Statement (.waitcnt g) := fun _ _ => coded_e64 _ rfl
theorem Coding.waittag (g : Gen) : Coding.Statement (.waittag g) := fun _ _ => coded_e64 _ rfl
theorem Coding.psplit (g : Gen) : Coding.Statement (.psplit g) := fun _ _ => coded_e64 _ rfl
theorem Coding.pfuse (g : Gen) : Coding.Statement (.pfuse g) := fun _ _ => coded_e64 _ rfl
theorem Coding.iadd (g : Gen) : Coding.Statement (.iadd g) := fun _ _ => coded_e64 _ rfl
theorem Coding.isub (g : Gen) : Coding.Statement (.isub g) := fun _ _ => coded_e64 _ rfl
theorem Coding.imul (g : Gen) : Coding.Statement (.imul g) := fun _ _ => coded_e64 _ rfl
theorem Coding.imulh (g : Gen) : Coding.Statement (.imulh g) := fun _ _ => coded_e64 _ rfl
theorem Coding.imad (g : Gen) : Coding.Statement (.imad g) := fun _ _ => coded_e64 _ rfl
theorem Coding.imin (g : Gen) : Coding.Statement (.imin g) := fun _ _ => coded_e64 _ rfl
theorem Coding.imax (g : Gen) : Coding.Statement (.imax g) := fun _ _ => coded_e64 _ rfl
theorem Coding.iabsd (g : Gen) : Coding.Statement (.iabsd g) := fun _ _ => coded_e64 _ rfl
theorem Coding.and (g : Gen) : Coding.Statement (.and g) := fun _ _ => coded_e64 _ rfl
theorem Coding.or (g : Gen) : Coding.Statement (.or g) := fun _ _ => coded_e64 _ rfl
theorem Coding.xor (g : Gen) : Coding.Statement (.xor g) := fun _ _ => coded_e64 _ rfl
theorem Coding.andn (g : Gen) : Coding.Statement (.andn g) := fun _ _ => coded_e64 _ rfl
theorem Coding.shl (g : Gen) : Coding.Statement (.shl g) := fun _ _ => coded_e64 _ rfl
theorem Coding.shr (g : Gen) : Coding.Statement (.shr g) := fun _ _ => coded_e64 _ rfl
theorem Coding.sar (g : Gen) : Coding.Statement (.sar g) := fun _ _ => coded_e64 _ rfl
theorem Coding.rotl (g : Gen) : Coding.Statement (.rotl g) := fun _ _ => coded_e64 _ rfl
theorem Coding.bfe (g : Gen) : Coding.Statement (.bfe g) := fun _ _ => coded_e64 _ rfl
theorem Coding.bfi (g : Gen) : Coding.Statement (.bfi g) := fun _ _ => coded_e64 _ rfl
theorem Coding.popc (g : Gen) : Coding.Statement (.popc g) := fun _ _ => coded_e64 _ rfl
theorem Coding.clz (g : Gen) : Coding.Statement (.clz g) := fun _ _ => coded_e64 _ rfl
theorem Coding.ctz (g : Gen) : Coding.Statement (.ctz g) := fun _ _ => coded_e64 _ rfl
theorem Coding.brev (g : Gen) : Coding.Statement (.brev g) := fun _ _ => coded_e64 _ rfl
theorem Coding.prmt (g : Gen) : Coding.Statement (.prmt g) := fun _ _ => coded_e64 _ rfl
theorem Coding.lea (g : Gen) : Coding.Statement (.lea g) := fun _ _ => coded_e64 _ rfl
theorem Coding.iset (g : Gen) : Coding.Statement (.iset g) := fun _ _ => coded_e64 _ rfl
theorem Coding.sel (g : Gen) : Coding.Statement (.sel g) := fun _ _ => coded_e64 _ rfl
theorem Coding.mov (g : Gen) : Coding.Statement (.mov g) := fun _ _ => coded_e64 _ rfl
theorem Coding.movsr (m : Movsr) : Coding.Statement (.movsr m) := fun _ _ => coded_e64 _ rfl
theorem Coding.movi (m : Movi) : Coding.Statement (.movi m) := fun _ _ => coded_e64 _ rfl
theorem Coding.cvti (g : Gen) : Coding.Statement (.cvti g) := fun _ _ => coded_e64 _ rfl
theorem Coding.plop (p : Plop) : Coding.Statement (.plop p) := fun _ _ => coded_e64 _ rfl
theorem Coding.shfl (g : Gen) : Coding.Statement (.shfl g) := fun _ _ => coded_e64 _ rfl
theorem Coding.vote (g : Gen) : Coding.Statement (.vote g) := fun _ _ => coded_e64 _ rfl
theorem Coding.matchLanes (g : Gen) : Coding.Statement (.matchLanes g) := fun _ _ => coded_e64 _ rfl
theorem Coding.redux (g : Gen) : Coding.Statement (.redux g) := fun _ _ => coded_e64 _ rfl
theorem Coding.scan (g : Gen) : Coding.Statement (.scan g) := fun _ _ => coded_e64 _ rfl
theorem Coding.rank (g : Gen) : Coding.Statement (.rank g) := fun _ _ => coded_e64 _ rfl
theorem Coding.bcast (g : Gen) : Coding.Statement (.bcast g) := fun _ _ => coded_e64 _ rfl
theorem Coding.fadd (g : Gen) : Coding.Statement (.fadd g) := fun _ _ => coded_e64 _ rfl
theorem Coding.fsub (g : Gen) : Coding.Statement (.fsub g) := fun _ _ => coded_e64 _ rfl
theorem Coding.fmul (g : Gen) : Coding.Statement (.fmul g) := fun _ _ => coded_e64 _ rfl
theorem Coding.ffma (g : Gen) : Coding.Statement (.ffma g) := fun _ _ => coded_e64 _ rfl
theorem Coding.fmin (g : Gen) : Coding.Statement (.fmin g) := fun _ _ => coded_e64 _ rfl
theorem Coding.fmax (g : Gen) : Coding.Statement (.fmax g) := fun _ _ => coded_e64 _ rfl
theorem Coding.fset (g : Gen) : Coding.Statement (.fset g) := fun _ _ => coded_e64 _ rfl
theorem Coding.fdiv (g : Gen) : Coding.Statement (.fdiv g) := fun _ _ => coded_e64 _ rfl
theorem Coding.frcp (g : Gen) : Coding.Statement (.frcp g) := fun _ _ => coded_e64 _ rfl
theorem Coding.fsqrt (g : Gen) : Coding.Statement (.fsqrt g) := fun _ _ => coded_e64 _ rfl
theorem Coding.frsq (g : Gen) : Coding.Statement (.frsq g) := fun _ _ => coded_e64 _ rfl
theorem Coding.fex2 (g : Gen) : Coding.Statement (.fex2 g) := fun _ _ => coded_e64 _ rfl
theorem Coding.flg2 (g : Gen) : Coding.Statement (.flg2 g) := fun _ _ => coded_e64 _ rfl
theorem Coding.frnd (g : Gen) : Coding.Statement (.frnd g) := fun _ _ => coded_e64 _ rfl
theorem Coding.fscale (g : Gen) : Coding.Statement (.fscale g) := fun _ _ => coded_e64 _ rfl
theorem Coding.fclass (g : Gen) : Coding.Statement (.fclass g) := fun _ _ => coded_e64 _ rfl
theorem Coding.cvt (g : Gen) : Coding.Statement (.cvt g) := fun _ _ => coded_e64 _ rfl
theorem Coding.tf8pk (g : Gen) : Coding.Statement (.tf8pk g) := fun _ _ => coded_e64 _ rfl
theorem Coding.tf8up (g : Gen) : Coding.Statement (.tf8up g) := fun _ _ => coded_e64 _ rfl
theorem Coding.requant (g : Gen) : Coding.Statement (.requant g) := fun _ _ => coded_e64 _ rfl
theorem Coding.rng (g : Gen) : Coding.Statement (.rng g) := fun _ _ => coded_e64 _ rfl
theorem Coding.fstatRead (g : Gen) : Coding.Statement (.fstatRead g) := fun _ _ => coded_e64 _ rfl
theorem Coding.fstatClear (g : Gen) : Coding.Statement (.fstatClear g) := fun _ _ => coded_e64 _ rfl
theorem Coding.fstatSet (g : Gen) : Coding.Statement (.fstatSet g) := fun _ _ => coded_e64 _ rfl
theorem Coding.ld (m : M64) : Coding.Statement (.ld m) := fun _ _ => coded_e64 _ rfl
theorem Coding.st (m : M64) : Coding.Statement (.st m) := fun _ _ => coded_e64 _ rfl
theorem Coding.lds (m : M64) : Coding.Statement (.lds m) := fun _ _ => coded_e64 _ rfl
theorem Coding.sts (m : M64) : Coding.Statement (.sts m) := fun _ _ => coded_e64 _ rfl
theorem Coding.ldc (m : M64) : Coding.Statement (.ldc m) := fun _ _ => coded_e64 _ rfl
theorem Coding.atom (m : M64) : Coding.Statement (.atom m) := fun _ _ => coded_e64 _ rfl
theorem Coding.red (m : M64) : Coding.Statement (.red m) := fun _ _ => coded_e64 _ rfl
theorem Coding.cpl (m : M64) : Coding.Statement (.cpl m) := fun _ _ => coded_e64 _ rfl
theorem Coding.pref (m : M64) : Coding.Statement (.pref m) := fun _ _ => coded_e64 _ rfl
theorem Coding.discard (m : M64) : Coding.Statement (.discard m) := fun _ _ => coded_e64 _ rfl
theorem Coding.fence (g : Gen) : Coding.Statement (.fence g) := fun _ _ => coded_e64 _ rfl
theorem Coding.smap (g : Gen) : Coding.Statement (.smap g) := fun _ _ => coded_e64 _ rfl
theorem Coding.sunmap (g : Gen) : Coding.Statement (.sunmap g) := fun _ _ => coded_e64 _ rfl
theorem Coding.sflush (g : Gen) : Coding.Statement (.sflush g) := fun _ _ => coded_e64 _ rfl
theorem Coding.bxferLoad (g : Gen) : Coding.Statement (.bxferLoad g) := fun _ _ => coded_e64 _ rfl
theorem Coding.bxferStore (g : Gen) : Coding.Statement (.bxferStore g) := fun _ _ => coded_e64 _ rfl
theorem Coding.bxferRed (g : Gen) : Coding.Statement (.bxferRed g) := fun _ _ => coded_e64 _ rfl
theorem Coding.waitc (m : M64) : Coding.Statement (.waitc m) := fun _ _ => coded_e64 _ rfl
theorem Coding.barinit (g : Gen) : Coding.Statement (.barinit g) := fun _ _ => coded_e64 _ rfl
theorem Coding.bararr (g : Gen) : Coding.Statement (.bararr g) := fun _ _ => coded_e64 _ rfl
theorem Coding.bararrJoin (g : Gen) : Coding.Statement (.bararrJoin g) := fun _ _ => coded_e64 _ rfl
theorem Coding.bararrDrop (g : Gen) : Coding.Statement (.bararrDrop g) := fun _ _ => coded_e64 _ rfl
theorem Coding.barwait (g : Gen) : Coding.Statement (.barwait g) := fun _ _ => coded_e64 _ rfl
theorem Coding.barexp (g : Gen) : Coding.Statement (.barexp g) := fun _ _ => coded_e64 _ rfl
theorem Coding.bartry (g : Gen) : Coding.Statement (.bartry g) := fun _ _ => coded_e64 _ rfl
theorem Coding.qcfg (g : Gen) : Coding.Statement (.qcfg g) := fun _ _ => coded_e64 _ rfl
theorem Coding.append (g : Gen) : Coding.Statement (.append g) := fun _ _ => coded_e64 _ rfl
theorem Coding.decline (g : Gen) : Coding.Statement (.decline g) := fun _ _ => coded_e64 _ rfl
theorem Coding.tdset (x : X64) : Coding.Statement (.tdset x) := fun _ _ => coded_e64 _ rfl
theorem Coding.tdget (x : X64) : Coding.Statement (.tdget x) := fun _ _ => coded_e64 _ rfl
theorem Coding.mldb (x : X64) : Coding.Statement (.mldb x) := fun _ _ => coded_e64 _ rfl
theorem Coding.mbrel (x : X64) : Coding.Statement (.mbrel x) := fun _ _ => coded_e64 _ rfl
theorem Coding.mldmeta (x : X64) : Coding.Statement (.mldmeta x) := fun _ _ => coded_e64 _ rfl
theorem Coding.mzero (x : X64) : Coding.Statement (.mzero x) := fun _ _ => coded_e64 _ rfl
theorem Coding.mma (x : X64) : Coding.Statement (.mma x) := fun _ _ => coded_e64 _ rfl
theorem Coding.mmaRing (x : X64) : Coding.Statement (.mmaRing x) := fun _ _ => coded_e64 _ rfl
theorem Coding.mmasp (x : X64) : Coding.Statement (.mmasp x) := fun _ _ => coded_e64 _ rfl
theorem Coding.mst (x : X64) : Coding.Statement (.mst x) := fun _ _ => coded_e64 _ rfl
theorem Coding.mstAdd (x : X64) : Coding.Statement (.mstAdd x) := fun _ _ => coded_e64 _ rfl
theorem Coding.mrda (x : X64) : Coding.Statement (.mrda x) := fun _ _ => coded_e64 _ rfl
theorem Coding.mwra (x : X64) : Coding.Statement (.mwra x) := fun _ _ => coded_e64 _ rfl
theorem Coding.ringinit (x : X64) : Coding.Statement (.ringinit x) := fun _ _ => coded_e64 _ rfl
theorem Coding.ringput (x : X64) : Coding.Statement (.ringput x) := fun _ _ => coded_e64 _ rfl
theorem Coding.ringtake (x : X64) : Coding.Statement (.ringtake x) := fun _ _ => coded_e64 _ rfl
theorem Coding.ringdone (x : X64) : Coding.Statement (.ringdone x) := fun _ _ => coded_e64 _ rfl
theorem Coding.mstat (g : Gen) : Coding.Statement (.mstat g) := fun _ _ => coded_e64 _ rfl
theorem Coding.gpat (g : G64) : Coding.Statement (.gpat g) := fun _ _ => coded_e64 _ rfl
theorem Coding.gst (g : G64) : Coding.Statement (.gst g) := fun _ _ => coded_e64 _ rfl
theorem Coding.gld (g : G64) : Coding.Statement (.gld g) := fun _ _ => coded_e64 _ rfl
theorem Coding.gred (g : G64) : Coding.Statement (.gred g) := fun _ _ => coded_e64 _ rfl
theorem Coding.gatom (g : G64) : Coding.Statement (.gatom g) := fun _ _ => coded_e64 _ rfl
theorem Coding.gscan (g : G64) : Coding.Statement (.gscan g) := fun _ _ => coded_e64 _ rfl
theorem Coding.gcopy (g : G64) : Coding.Statement (.gcopy g) := fun _ _ => coded_e64 _ rfl
theorem Coding.gfence (g : G64) : Coding.Statement (.gfence g) := fun _ _ => coded_e64 _ rfl
theorem Coding.gwait (g : G64) : Coding.Statement (.gwait g) := fun _ _ => coded_e64 _ rfl
theorem Coding.gatecfg (g : Gen) : Coding.Statement (.gatecfg g) := fun _ _ => coded_e64 _ rfl
theorem Coding.gdispatch (g : Gen) : Coding.Statement (.gdispatch g) := fun _ _ => coded_e64 _ rfl
theorem Coding.mbmark (g : Gen) : Coding.Statement (.mbmark g) := fun _ _ => coded_e64 _ rfl
theorem Coding.ertopDefine (g : Gen) : Coding.Statement (.ertopDefine g) := fun _ _ => coded_e64 _ rfl
theorem Coding.ertopFetch (g : Gen) : Coding.Statement (.ertopFetch g) := fun _ _ => coded_e64 _ rfl
theorem Coding.ertopEvict (g : Gen) : Coding.Statement (.ertopEvict g) := fun _ _ => coded_e64 _ rfl
theorem Coding.ertopPin (g : Gen) : Coding.Statement (.ertopPin g) := fun _ _ => coded_e64 _ rfl
theorem Coding.ertopUnpin (g : Gen) : Coding.Statement (.ertopUnpin g) := fun _ _ => coded_e64 _ rfl
theorem Coding.ertopRead (g : Gen) : Coding.Statement (.ertopRead g) := fun _ _ => coded_e64 _ rfl
theorem Coding.taskdef (g : Gen) : Coding.Statement (.taskdef g) := fun _ _ => coded_e64 _ rfl
theorem Coding.taskdepSet (g : Gen) : Coding.Statement (.taskdepSet g) := fun _ _ => coded_e64 _ rfl
theorem Coding.taskdepAdd (g : Gen) : Coding.Statement (.taskdepAdd g) := fun _ _ => coded_e64 _ rfl
theorem Coding.taskdepSub (g : Gen) : Coding.Statement (.taskdepSub g) := fun _ _ => coded_e64 _ rfl
theorem Coding.kstat (g : Gen) : Coding.Statement (.kstat g) := fun _ _ => coded_e64 _ rfl
theorem Coding.npost (g : Gen) : Coding.Statement (.npost g) := fun _ _ => coded_e64 _ rfl
theorem Coding.nrecv (g : Gen) : Coding.Statement (.nrecv g) := fun _ _ => coded_e64 _ rfl
theorem Coding.npoll (g : Gen) : Coding.Statement (.npoll g) := fun _ _ => coded_e64 _ rfl
theorem Coding.larm (g : Gen) : Coding.Statement (.larm g) := fun _ _ => coded_e64 _ rfl
theorem Coding.launch (g : Gen) : Coding.Statement (.launch g) := fun _ _ => coded_e64 _ rfl
theorem Coding.srr (g : Gen) : Coding.Statement (.srr g) := fun _ _ => coded_e64 _ rfl
theorem Coding.srw (g : Gen) : Coding.Statement (.srw g) := fun _ _ => coded_e64 _ rfl
theorem Coding.tlbinvPage (g : Gen) : Coding.Statement (.tlbinvPage g) := fun _ _ => coded_e64 _ rfl
theorem Coding.tlbinvContext (g : Gen) : Coding.Statement (.tlbinvContext g) := fun _ _ => coded_e64 _ rfl
theorem Coding.tlbinvAll (g : Gen) : Coding.Statement (.tlbinvAll g) := fun _ _ => coded_e64 _ rfl
theorem Coding.biasflipDev (g : Gen) : Coding.Statement (.biasflipDev g) := fun _ _ => coded_e64 _ rfl
theorem Coding.biasflipHost (g : Gen) : Coding.Statement (.biasflipHost g) := fun _ _ => coded_e64 _ rfl
theorem Coding.migrateLocal (g : Gen) : Coding.Statement (.migrateLocal g) := fun _ _ => coded_e64 _ rfl
theorem Coding.migrateRemote (g : Gen) : Coding.Statement (.migrateRemote g) := fun _ _ => coded_e64 _ rfl
theorem Coding.capset (g : Gen) : Coding.Statement (.capset g) := fun _ _ => coded_e64 _ rfl
theorem Coding.mappg (g : Gen) : Coding.Statement (.mappg g) := fun _ _ => coded_e64 _ rfl
theorem Coding.trap (g : Gen) : Coding.Statement (.trap g) := fun _ _ => coded_e64 _ rfl
theorem Coding.trapDbg (g : Gen) : Coding.Statement (.trapDbg g) := fun _ _ => coded_e64 _ rfl
theorem Coding.retfRetry (g : Gen) : Coding.Statement (.retfRetry g) := fun _ _ => coded_e64 _ rfl
theorem Coding.retfNext (g : Gen) : Coding.Statement (.retfNext g) := fun _ _ => coded_e64 _ rfl
theorem Coding.retfEsc (g : Gen) : Coding.Statement (.retfEsc g) := fun _ _ => coded_e64 _ rfl
theorem Coding.ctrread (g : Gen) : Coding.Statement (.ctrread g) := fun _ _ => coded_e64 _ rfl
theorem Coding.movC16 (c : C16) : Coding.Statement (.movC16 c) := fun _ _ => coded_c16 _ rfl
theorem Coding.iaddC16 (c : C16) : Coding.Statement (.iaddC16 c) := fun _ _ => coded_c16 _ rfl
theorem Coding.isubC16 (c : C16) : Coding.Statement (.isubC16 c) := fun _ _ => coded_c16 _ rfl
theorem Coding.imulC16 (c : C16) : Coding.Statement (.imulC16 c) := fun _ _ => coded_c16 _ rfl
theorem Coding.andC16 (c : C16) : Coding.Statement (.andC16 c) := fun _ _ => coded_c16 _ rfl
theorem Coding.orC16 (c : C16) : Coding.Statement (.orC16 c) := fun _ _ => coded_c16 _ rfl
theorem Coding.xorC16 (c : C16) : Coding.Statement (.xorC16 c) := fun _ _ => coded_c16 _ rfl
theorem Coding.shlC16 (c : C16) : Coding.Statement (.shlC16 c) := fun _ _ => coded_c16 _ rfl
theorem Coding.shrC16 (c : C16) : Coding.Statement (.shrC16 c) := fun _ _ => coded_c16 _ rfl
theorem Coding.sarC16 (c : C16) : Coding.Statement (.sarC16 c) := fun _ _ => coded_c16 _ rfl
theorem Coding.faddC16 (c : C16) : Coding.Statement (.faddC16 c) := fun _ _ => coded_c16 _ rfl
theorem Coding.fsubC16 (c : C16) : Coding.Statement (.fsubC16 c) := fun _ _ => coded_c16 _ rfl
theorem Coding.fmulC16 (c : C16) : Coding.Statement (.fmulC16 c) := fun _ _ => coded_c16 _ rfl
theorem Coding.fmaxC16 (c : C16) : Coding.Statement (.fmaxC16 c) := fun _ _ => coded_c16 _ rfl
theorem Coding.fminC16 (c : C16) : Coding.Statement (.fminC16 c) := fun _ _ => coded_c16 _ rfl
theorem Coding.nopC16 : Coding.Statement .nopC16 := fun _ _ => coded_c16 _ rfl
theorem Coding.yieldC16 : Coding.Statement .yieldC16 := fun _ _ => coded_c16 _ rfl
theorem Coding.retC16 : Coding.Statement .retC16 := fun _ _ => coded_c16 _ rfl
theorem Coding.exitC16 : Coding.Statement .exitC16 := fun _ _ => coded_c16 _ rfl
theorem Coding.movA32 (a : A32) : Coding.Statement (.movA32 a) := fun _ _ => coded_a32 _ rfl
theorem Coding.iaddA32 (a : A32) : Coding.Statement (.iaddA32 a) := fun _ _ => coded_a32 _ rfl
theorem Coding.isubA32 (a : A32) : Coding.Statement (.isubA32 a) := fun _ _ => coded_a32 _ rfl
theorem Coding.imulA32 (a : A32) : Coding.Statement (.imulA32 a) := fun _ _ => coded_a32 _ rfl
theorem Coding.imadA32 (a : A32) : Coding.Statement (.imadA32 a) := fun _ _ => coded_a32 _ rfl
theorem Coding.iminA32 (a : A32) : Coding.Statement (.iminA32 a) := fun _ _ => coded_a32 _ rfl
theorem Coding.imaxA32 (a : A32) : Coding.Statement (.imaxA32 a) := fun _ _ => coded_a32 _ rfl
theorem Coding.andA32 (a : A32) : Coding.Statement (.andA32 a) := fun _ _ => coded_a32 _ rfl
theorem Coding.orA32 (a : A32) : Coding.Statement (.orA32 a) := fun _ _ => coded_a32 _ rfl
theorem Coding.xorA32 (a : A32) : Coding.Statement (.xorA32 a) := fun _ _ => coded_a32 _ rfl
theorem Coding.andnA32 (a : A32) : Coding.Statement (.andnA32 a) := fun _ _ => coded_a32 _ rfl
theorem Coding.shlA32 (a : A32) : Coding.Statement (.shlA32 a) := fun _ _ => coded_a32 _ rfl
theorem Coding.shrA32 (a : A32) : Coding.Statement (.shrA32 a) := fun _ _ => coded_a32 _ rfl
theorem Coding.sarA32 (a : A32) : Coding.Statement (.sarA32 a) := fun _ _ => coded_a32 _ rfl
theorem Coding.popcA32 (a : A32) : Coding.Statement (.popcA32 a) := fun _ _ => coded_a32 _ rfl
theorem Coding.clzA32 (a : A32) : Coding.Statement (.clzA32 a) := fun _ _ => coded_a32 _ rfl
theorem Coding.faddF32A32 (a : A32) : Coding.Statement (.faddF32A32 a) := fun _ _ => coded_a32 _ rfl
theorem Coding.fsubF32A32 (a : A32) : Coding.Statement (.fsubF32A32 a) := fun _ _ => coded_a32 _ rfl
theorem Coding.fmulF32A32 (a : A32) : Coding.Statement (.fmulF32A32 a) := fun _ _ => coded_a32 _ rfl
theorem Coding.ffmaF32A32 (a : A32) : Coding.Statement (.ffmaF32A32 a) := fun _ _ => coded_a32 _ rfl
theorem Coding.fminF32A32 (a : A32) : Coding.Statement (.fminF32A32 a) := fun _ _ => coded_a32 _ rfl
theorem Coding.fmaxF32A32 (a : A32) : Coding.Statement (.fmaxF32A32 a) := fun _ _ => coded_a32 _ rfl
theorem Coding.faddF16x2A32 (a : A32) : Coding.Statement (.faddF16x2A32 a) := fun _ _ => coded_a32 _ rfl
theorem Coding.fmulF16x2A32 (a : A32) : Coding.Statement (.fmulF16x2A32 a) := fun _ _ => coded_a32 _ rfl
theorem Coding.ffmaF16x2A32 (a : A32) : Coding.Statement (.ffmaF16x2A32 a) := fun _ _ => coded_a32 _ rfl
theorem Coding.faddBf16x2A32 (a : A32) : Coding.Statement (.faddBf16x2A32 a) := fun _ _ => coded_a32 _ rfl
theorem Coding.fmulBf16x2A32 (a : A32) : Coding.Statement (.fmulBf16x2A32 a) := fun _ _ => coded_a32 _ rfl
theorem Coding.ffmaBf16x2A32 (a : A32) : Coding.Statement (.ffmaBf16x2A32 a) := fun _ _ => coded_a32 _ rfl
theorem Coding.shflXorA32 (a : A32) : Coding.Statement (.shflXorA32 a) := fun _ _ => coded_a32 _ rfl
theorem Coding.ldsA32 (a : A32) : Coding.Statement (.ldsA32 a) := fun _ _ => coded_a32 _ rfl
theorem Coding.braA32 (off : BitVec 24) : Coding.Statement (.braA32 off) := fun _ _ => coded_a32 _ rfl
theorem Coding.callA32 (off : BitVec 24) : Coding.Statement (.callA32 off) := fun _ _ => coded_a32 _ rfl
theorem Coding.hostQueueDoorbell (q : BitVec 8) (p : Word) : Coding.Statement (.hostQueueDoorbell q p) := fun _ h => absurd rfl h
theorem Coding.hqerrClear (mask : DWord) : Coding.Statement (.hqerrClear mask) := fun _ h => absurd rfl h
theorem Coding.hostSysregWrite (n : BitVec 4) (x : DWord) : Coding.Statement (.hostSysregWrite n x) := fun _ h => absurd rfl h
theorem Coding.hostRegisterWrite (off : BitVec 24) (x : DWord) : Coding.Statement (.hostRegisterWrite off x) := fun _ h => absurd rfl h
theorem Coding.launchAccept : Coding.Statement .launchAccept := fun _ h => absurd rfl h
theorem Coding.blockPlacement : Coding.Statement .blockPlacement := fun _ h => absurd rfl h
theorem Coding.blockStart (core : BitVec 8) : Coding.Statement (.blockStart core) := fun _ h => absurd rfl h
theorem Coding.stealAttempt (core : BitVec 8) : Coding.Statement (.stealAttempt core) := fun _ h => absurd rfl h
theorem Coding.blockEnd (blk : Nat) : Coding.Statement (.blockEnd blk) := fun _ h => absurd rfl h
theorem Coding.pendingSpawn : Coding.Statement .pendingSpawn := fun _ h => absurd rfl h
theorem Coding.runEnd (core : BitVec 8) (sched : BitVec 2) : Coding.Statement (.runEnd core sched) := fun _ h => absurd rfl h
theorem Coding.fragmentWake (f : FragRef) : Coding.Statement (.fragmentWake f) := fun _ h => absurd rfl h
theorem Coding.budgetPeriodEnd (unit : BitVec 11) (act : BitVec 3) (rcb : BitVec 52) : Coding.Statement (.budgetPeriodEnd unit act rcb) := fun _ h => absurd rfl h
theorem Coding.preempt (blk : Nat) : Coding.Statement (.preempt blk) := fun _ h => absurd rfl h
theorem Coding.contextSwitch (rcb : BitVec 52) : Coding.Statement (.contextSwitch rcb) := fun _ h => absurd rfl h
theorem Coding.blockResume (blk : Nat) (core : BitVec 8) : Coding.Statement (.blockResume blk core) := fun _ h => absurd rfl h
theorem Coding.detRoundComplete (launch : Nat) : Coding.Statement (.detRoundComplete launch) := fun _ h => absurd rfl h
theorem Coding.detSyncTurn (launch : Nat) : Coding.Statement (.detSyncTurn launch) := fun _ h => absurd rfl h
theorem Coding.appendClaimGrant (f : FragRef) : Coding.Statement (.appendClaimGrant f) := fun _ h => absurd rfl h
theorem Coding.stashSegmentWake (core : BitVec 8) (seg : BitVec 4) : Coding.Statement (.stashSegmentWake core seg) := fun _ h => absurd rfl h
theorem Coding.stashFillComplete (blk line : Nat) : Coding.Statement (.stashFillComplete blk line) := fun _ h => absurd rfl h
theorem Coding.homeSliceAccess (r : HomeReq) : Coding.Statement (.homeSliceAccess r) := fun _ h => absurd rfl h
theorem Coding.stashWriteback (blk line : Nat) (err : Bool) : Coding.Statement (.stashWriteback blk line err) := fun _ h => absurd rfl h
theorem Coding.l2WayGate (stack : BitVec 2) (way : Nat) : Coding.Statement (.l2WayGate stack way) := fun _ h => absurd rfl h
theorem Coding.l2WayEnable (stack : BitVec 2) (way : Nat) : Coding.Statement (.l2WayEnable stack way) := fun _ h => absurd rfl h
theorem Coding.pageWalkComplete (ctx : BitVec 16) (va : DWord) : Coding.Statement (.pageWalkComplete ctx va) := fun _ h => absurd rfl h
theorem Coding.hostMemoryAccess (r : HomeReq) : Coding.Statement (.hostMemoryAccess r) := fun _ h => absurd rfl h
theorem Coding.migrationResend (ctx : BitVec 16) (va : DWord) (r : Resent) : Coding.Statement (.migrationResend ctx va r) := fun _ h => absurd rfl h
theorem Coding.conditionMonitorWake (f : FragRef) : Coding.Statement (.conditionMonitorWake f) := fun _ h => absurd rfl h
theorem Coding.monitorPoll (f : FragRef) : Coding.Statement (.monitorPoll f) := fun _ h => absurd rfl h
theorem Coding.streamerBytesComplete (op n : Nat) : Coding.Statement (.streamerBytesComplete op n) := fun _ h => absurd rfl h
theorem Coding.laneCopyLand (op : Nat) : Coding.Statement (.laneCopyLand op) := fun _ h => absurd rfl h
theorem Coding.matrixPassComplete (op : Nat) : Coding.Statement (.matrixPassComplete op) := fun _ h => absurd rfl h
theorem Coding.checksumReplay (op : Nat) (good : Bool) : Coding.Statement (.checksumReplay op good) := fun _ h => absurd rfl h
theorem Coding.matrixDrainComplete (op : Nat) : Coding.Statement (.matrixDrainComplete op) := fun _ h => absurd rfl h
theorem Coding.gstLineReceive (m : GMsg) : Coding.Statement (.gstLineReceive m) := fun _ h => absurd rfl h
theorem Coding.gldRequestReceive (m : GMsg) : Coding.Statement (.gldRequestReceive m) := fun _ h => absurd rfl h
theorem Coding.gldReplyReceive (m : GMsg) : Coding.Statement (.gldReplyReceive m) := fun _ h => absurd rfl h
theorem Coding.gredContributionReceive (c : Contribution) : Coding.Statement (.gredContributionReceive c) := fun _ h => absurd rfl h
theorem Coding.gatomRequestReceive (m : GMsg) (busy : Bool) : Coding.Statement (.gatomRequestReceive m busy) := fun _ h => absurd rfl h
theorem Coding.gatomReplyReceive (m : GMsg) : Coding.Statement (.gatomReplyReceive m) := fun _ h => absurd rfl h
theorem Coding.gscanContributionReceive (m : GMsg) : Coding.Statement (.gscanContributionReceive m) := fun _ h => absurd rfl h
theorem Coding.gscanReplyReceive (m : GMsg) : Coding.Statement (.gscanReplyReceive m) := fun _ h => absurd rfl h
theorem Coding.gcopyLineReceive (m : GMsg) : Coding.Statement (.gcopyLineReceive m) := fun _ h => absurd rfl h
theorem Coding.gcopyHeldDelivery : Coding.Statement .gcopyHeldDelivery := fun _ h => absurd rfl h
theorem Coding.acknowledgementReceive (m : GMsg) : Coding.Statement (.acknowledgementReceive m) := fun _ h => absurd rfl h
theorem Coding.releaseMarkerReceive (src : BitVec 20) (mark : MarkerId) : Coding.Statement (.releaseMarkerReceive src mark) := fun _ h => absurd rfl h
theorem Coding.refusalReceive (m : GMsg) : Coding.Statement (.refusalReceive m) := fun _ h => absurd rfl h
theorem Coding.idleFlitReceive (link : BitVec 6) (vc : BitVec 3) (crd : BitVec 6) : Coding.Statement (.idleFlitReceive link vc crd) := fun _ h => absurd rfl h
theorem Coding.reservedVcFlit (link : BitVec 6) : Coding.Statement (.reservedVcFlit link) := fun _ h => absurd rfl h
theorem Coding.linkReplayRequest (link : BitVec 6) (fseq : BitVec 8) : Coding.Statement (.linkReplayRequest link fseq) := fun _ h => absurd rfl h
theorem Coding.linkDown (link : BitVec 6) : Coding.Statement (.linkDown link) := fun _ h => absurd rfl h
theorem Coding.linkFailoverNotice (link : BitVec 6) (fseq : BitVec 8) : Coding.Statement (.linkFailoverNotice link fseq) := fun _ h => absurd rfl h
theorem Coding.auditFlitSend (link : BitVec 6) : Coding.Statement (.auditFlitSend link) := fun _ h => absurd rfl h
theorem Coding.creditAuditReceive (link : BitVec 6) (vc : BitVec 3) (slots : Nat) : Coding.Statement (.creditAuditReceive link vc slots) := fun _ h => absurd rfl h
theorem Coding.planeLossReport (plane : BitVec 3) : Coding.Statement (.planeLossReport plane) := fun _ h => absurd rfl h
theorem Coding.unreachableMark (link : BitVec 6) : Coding.Statement (.unreachableMark link) := fun _ h => absurd rfl h
theorem Coding.tokenRowReceive (r : TokenRow) : Coding.Statement (.tokenRowReceive r) := fun _ h => absurd rfl h
theorem Coding.rowRefusalReceive (r : RowReply) : Coding.Statement (.rowRefusalReceive r) := fun _ h => absurd rfl h
theorem Coding.gdispatchComplete (op : Nat) : Coding.Statement (.gdispatchComplete op) := fun _ h => absurd rfl h
theorem Coding.mbmarkCommit (slot : BitVec 3) : Coding.Statement (.mbmarkCommit slot) := fun _ h => absurd rfl h
theorem Coding.closeMarkerSend (slot : BitVec 3) : Coding.Statement (.closeMarkerSend slot) := fun _ h => absurd rfl h
theorem Coding.closeMarkerReceive (slot : BitVec 3) (batch src : Nat) (last : Bool) (dests : List Nat) : Coding.Statement (.closeMarkerReceive slot batch src last dests) := fun _ h => absurd rfl h
theorem Coding.loadMulticastReceive (slot : BitVec 3) (batch : Nat) (loads : List (Nat × Nat)) : Coding.Statement (.loadMulticastReceive slot batch loads) := fun _ h => absurd rfl h
theorem Coding.fillCounterReset (slot : BitVec 3) (bank : BitVec 1) : Coding.Statement (.fillCounterReset slot bank) := fun _ h => absurd rfl h
theorem Coding.orderedRoundClose (slot : BitVec 3) : Coding.Statement (.orderedRoundClose slot) := fun _ h => absurd rfl h
theorem Coding.pagerFetchComplete (idx : BitVec 14) : Coding.Statement (.pagerFetchComplete idx) := fun _ h => absurd rfl h
theorem Coding.fetchAttemptFail (idx : BitVec 14) : Coding.Statement (.fetchAttemptFail idx) := fun _ h => absurd rfl h
theorem Coding.evictUnmapComplete (idx : BitVec 14) : Coding.Statement (.evictUnmapComplete idx) := fun _ h => absurd rfl h
theorem Coding.tileSpawn (slot : BitVec 3) (bank : BitVec 1) (expert tile : Nat) : Coding.Statement (.tileSpawn slot bank expert tile) := fun _ h => absurd rfl h
theorem Coding.npostStart (op : Nat) : Coding.Statement (.npostStart op) := fun _ h => absurd rfl h
theorem Coding.neSegmentReceive (g : NeSeg) : Coding.Statement (.neSegmentReceive g) := fun _ h => absurd rfl h
theorem Coding.neAckReceive (a : NeAck) : Coding.Statement (.neAckReceive a) := fun _ h => absurd rfl h
theorem Coding.neNotReadyReceive (op : Nat) : Coding.Statement (.neNotReadyReceive op) := fun _ h => absurd rfl h
theorem Coding.neRetransmitTimeout (op : Nat) (part : Nat) : Coding.Statement (.neRetransmitTimeout op part) := fun _ h => absurd rfl h
theorem Coding.neReceiveTimeout (op : Nat) : Coding.Statement (.neReceiveTimeout op) := fun _ h => absurd rfl h
theorem Coding.neAbortReceive (id : NeId) (msg : Nat) : Coding.Statement (.neAbortReceive id msg) := fun _ h => absurd rfl h
theorem Coding.shadowFlushTimer (unit : BitVec 11) : Coding.Statement (.shadowFlushTimer unit) := fun _ h => absurd rfl h
theorem Coding.energyInterval (island : BitVec 8) (nj : Nat) : Coding.Statement (.energyInterval island nj) := fun _ h => absurd rfl h
theorem Coding.scrub (sector : Nat) (r : ScrubResult) : Coding.Statement (.scrub sector r) := fun _ h => absurd rfl h
theorem Coding.islandSet (island : BitVec 8) (mv mhz : BitVec 16) : Coding.Statement (.islandSet island mv mhz) := fun _ h => absurd rfl h
theorem Coding.mctpStatus : Coding.Statement .mctpStatus := fun _ h => absurd rfl h
theorem Coding.mctpIslandTelemetry : Coding.Statement .mctpIslandTelemetry := fun _ h => absurd rfl h
theorem Coding.mctpReadCounters (ctx : BitVec 16) : Coding.Statement (.mctpReadCounters ctx) := fun _ h => absurd rfl h
theorem Coding.mctpSignedSnapshot (ctx : BitVec 16) (nonce : BitVec 256) : Coding.Statement (.mctpSignedSnapshot ctx nonce) := fun _ h => absurd rfl h
theorem Coding.mctpSelfTestReport : Coding.Statement .mctpSelfTestReport := fun _ h => absurd rfl h
theorem Coding.spdmGetCertificate : Coding.Statement .spdmGetCertificate := fun _ h => absurd rfl h
theorem Coding.spdmChallenge (nonce : BitVec 256) : Coding.Statement (.spdmChallenge nonce) := fun _ h => absurd rfl h
theorem Coding.spdmGetMeasurements (nonce : BitVec 256) : Coding.Statement (.spdmGetMeasurements nonce) := fun _ h => absurd rfl h
theorem Coding.coldReset (o : TestOutcome) : Coding.Statement (.coldReset o) := fun _ h => absurd rfl h
theorem Coding.warmResetFlr (o : TestOutcome) : Coding.Statement (.warmResetFlr o) := fun _ h => absurd rfl h
theorem Coding.warmResetSecondaryBus (o : TestOutcome) : Coding.Statement (.warmResetSecondaryBus o) := fun _ h => absurd rfl h
theorem Coding.warmResetMp (o : TestOutcome) : Coding.Statement (.warmResetMp o) := fun _ h => absurd rfl h
theorem Coding.hostLinkDown : Coding.Statement .hostLinkDown := fun _ h => absurd rfl h
theorem Coding.cxlCacheSnoop (line : Nat) (inval : Bool) : Coding.Statement (.cxlCacheSnoop line inval) := fun _ h => absurd rfl h
theorem Coding.flitCrcFailure (link : BitVec 6) : Coding.Statement (.flitCrcFailure link) := fun _ h => absurd rfl h
theorem Coding.linkFlitAcknowledge (link : BitVec 6) (fseq : BitVec 8) : Coding.Statement (.linkFlitAcknowledge link fseq) := fun _ h => absurd rfl h
theorem Coding.rowAcceptanceReceive (r : RowReply) : Coding.Statement (.rowAcceptanceReceive r) := fun _ h => absurd rfl h

end Sys2Proof.Laws
end

