-- ==== Sys2Proof/Laws/State.lean ====
section
/-! SUPPORT. What the updates of one field of the state leave alone: one lemma per field. -/

namespace Sys2Proof.Laws

open Sys2Proof Sys2Proof.Machine

@[simp] theorem setBlock_mem (s : State) (b : Block) : (setBlock s b).mem = s.mem := rfl
@[simp] theorem setBlock_poison (s : State) (b : Block) : (setBlock s b).poison = s.poison := rfl
@[simp] theorem setBlock_sys (s : State) (b : Block) : (setBlock s b).sys = s.sys := rfl
@[simp] theorem setBlock_selfWritten (s : State) (b : Block) : (setBlock s b).selfWritten = s.selfWritten := rfl
@[simp] theorem setBlock_hi (s : State) (b : Block) : (setBlock s b).hi = s.hi := rfl
@[simp] theorem setBlock_islands (s : State) (b : Block) : (setBlock s b).islands = s.islands := rfl
@[simp] theorem setBlock_tlb (s : State) (b : Block) : (setBlock s b).tlb = s.tlb := rfl
@[simp] theorem setBlock_gated (s : State) (b : Block) : (setBlock s b).gated = s.gated := rfl
@[simp] theorem setBlock_moved (s : State) (b : Block) : (setBlock s b).moved = s.moved := rfl
@[simp] theorem setBlock_cores (s : State) (b : Block) : (setBlock s b).cores = s.cores := rfl
@[simp] theorem setBlock_arriving (s : State) (b : Block) : (setBlock s b).arriving = s.arriving := rfl
@[simp] theorem setBlock_launches (s : State) (b : Block) : (setBlock s b).launches = s.launches := rfl
@[simp] theorem setBlock_classes (s : State) (b : Block) : (setBlock s b).classes = s.classes := rfl
@[simp] theorem setBlock_counters (s : State) (b : Block) : (setBlock s b).counters = s.counters := rfl
@[simp] theorem setBlock_spawns (s : State) (b : Block) : (setBlock s b).spawns = s.spawns := rfl
@[simp] theorem setBlock_rr (s : State) (b : Block) : (setBlock s b).rr = s.rr := rfl
@[simp] theorem setBlock_budget (s : State) (b : Block) : (setBlock s b).budget = s.budget := rfl
@[simp] theorem setBlock_shadows (s : State) (b : Block) : (setBlock s b).shadows = s.shadows := rfl
@[simp] theorem setBlock_activity (s : State) (b : Block) : (setBlock s b).activity = s.activity := rfl
@[simp] theorem setBlock_unattributed (s : State) (b : Block) : (setBlock s b).unattributed = s.unattributed := rfl
@[simp] theorem setBlock_engine (s : State) (b : Block) : (setBlock s b).engine = s.engine := rfl
@[simp] theorem setBlock_gridOps (s : State) (b : Block) : (setBlock s b).gridOps = s.gridOps := rfl
@[simp] theorem setBlock_loop (s : State) (b : Block) : (setBlock s b).loop = s.loop := rfl
@[simp] theorem setBlock_outbox (s : State) (b : Block) : (setBlock s b).outbox = s.outbox := rfl
@[simp] theorem setBlock_heldMsgs (s : State) (b : Block) : (setBlock s b).heldMsgs = s.heldMsgs := rfl
@[simp] theorem setBlock_comb (s : State) (b : Block) : (setBlock s b).comb = s.comb := rfl
@[simp] theorem setBlock_batches (s : State) (b : Block) : (setBlock s b).batches = s.batches := rfl
@[simp] theorem setBlock_heldRel (s : State) (b : Block) : (setBlock s b).heldRel = s.heldRel := rfl
@[simp] theorem setBlock_parts (s : State) (b : Block) : (setBlock s b).parts = s.parts := rfl
@[simp] theorem setBlock_landings (s : State) (b : Block) : (setBlock s b).landings = s.landings := rfl
@[simp] theorem setBlock_links (s : State) (b : Block) : (setBlock s b).links = s.links := rfl
@[simp] theorem setBlock_deadPlanes (s : State) (b : Block) : (setBlock s b).deadPlanes = s.deadPlanes := rfl
@[simp] theorem setBlock_unreachable (s : State) (b : Block) : (setBlock s b).unreachable = s.unreachable := rfl
@[simp] theorem setBlock_planeWrite (s : State) (b : Block) : (setBlock s b).planeWrite = s.planeWrite := rfl
@[simp] theorem setBlock_gates (s : State) (b : Block) : (setBlock s b).gates = s.gates := rfl
@[simp] theorem setBlock_dispatches (s : State) (b : Block) : (setBlock s b).dispatches = s.dispatches := rfl
@[simp] theorem setBlock_xout (s : State) (b : Block) : (setBlock s b).xout = s.xout := rfl
@[simp] theorem setBlock_xloop (s : State) (b : Block) : (setBlock s b).xloop = s.xloop := rfl
@[simp] theorem setBlock_kennel (s : State) (b : Block) : (setBlock s b).kennel = s.kennel := rfl
@[simp] theorem setBlock_fetches (s : State) (b : Block) : (setBlock s b).fetches = s.fetches := rfl
@[simp] theorem setBlock_channels (s : State) (b : Block) : (setBlock s b).channels = s.channels := rfl
@[simp] theorem setBlock_sends (s : State) (b : Block) : (setBlock s b).sends = s.sends := rfl
@[simp] theorem setBlock_receives (s : State) (b : Block) : (setBlock s b).receives = s.receives := rfl
@[simp] theorem setBlock_arms (s : State) (b : Block) : (setBlock s b).arms = s.arms := rfl
@[simp] theorem setBlock_netOut (s : State) (b : Block) : (setBlock s b).netOut = s.netOut := rfl
@[simp] theorem setBlock_livePorts (s : State) (b : Block) : (setBlock s b).livePorts = s.livePorts := rfl
@[simp] theorem setBlock_snapshots (s : State) (b : Block) : (setBlock s b).snapshots = s.snapshots := rfl
@[simp] theorem setBlock_agenda (s : State) (b : Block) : (setBlock s b).agenda = s.agenda := rfl
@[simp] theorem setBlock_cur (s : State) (b : Block) : (setBlock s b).cur = s.cur := rfl
@[simp] theorem setBlock_tick (s : State) (b : Block) : (setBlock s b).tick = s.tick := rfl
@[simp] theorem setBlock_free (s : State) (b : Block) : (setBlock s b).free = s.free := rfl
@[simp] theorem setBlock_nextId (s : State) (b : Block) : (setBlock s b).nextId = s.nextId := rfl
@[simp] theorem setBlock_replies (s : State) (b : Block) : (setBlock s b).replies = s.replies := rfl
@[simp] theorem setBlock_ctlOut (s : State) (b : Block) : (setBlock s b).ctlOut = s.ctlOut := rfl
@[simp] theorem setBlock_mgmtOut (s : State) (b : Block) : (setBlock s b).mgmtOut = s.mgmtOut := rfl

@[simp] theorem setLaunch_mem (s : State) (l : Launch) : (setLaunch s l).mem = s.mem := rfl
@[simp] theorem setLaunch_poison (s : State) (l : Launch) : (setLaunch s l).poison = s.poison := rfl
@[simp] theorem setLaunch_sys (s : State) (l : Launch) : (setLaunch s l).sys = s.sys := rfl
@[simp] theorem setLaunch_selfWritten (s : State) (l : Launch) : (setLaunch s l).selfWritten = s.selfWritten := rfl
@[simp] theorem setLaunch_hi (s : State) (l : Launch) : (setLaunch s l).hi = s.hi := rfl
@[simp] theorem setLaunch_islands (s : State) (l : Launch) : (setLaunch s l).islands = s.islands := rfl
@[simp] theorem setLaunch_tlb (s : State) (l : Launch) : (setLaunch s l).tlb = s.tlb := rfl
@[simp] theorem setLaunch_gated (s : State) (l : Launch) : (setLaunch s l).gated = s.gated := rfl
@[simp] theorem setLaunch_moved (s : State) (l : Launch) : (setLaunch s l).moved = s.moved := rfl
@[simp] theorem setLaunch_cores (s : State) (l : Launch) : (setLaunch s l).cores = s.cores := rfl
@[simp] theorem setLaunch_arriving (s : State) (l : Launch) : (setLaunch s l).arriving = s.arriving := rfl
@[simp] theorem setLaunch_blocks (s : State) (l : Launch) : (setLaunch s l).blocks = s.blocks := rfl
@[simp] theorem setLaunch_classes (s : State) (l : Launch) : (setLaunch s l).classes = s.classes := rfl
@[simp] theorem setLaunch_counters (s : State) (l : Launch) : (setLaunch s l).counters = s.counters := rfl
@[simp] theorem setLaunch_spawns (s : State) (l : Launch) : (setLaunch s l).spawns = s.spawns := rfl
@[simp] theorem setLaunch_rr (s : State) (l : Launch) : (setLaunch s l).rr = s.rr := rfl
@[simp] theorem setLaunch_budget (s : State) (l : Launch) : (setLaunch s l).budget = s.budget := rfl
@[simp] theorem setLaunch_shadows (s : State) (l : Launch) : (setLaunch s l).shadows = s.shadows := rfl
@[simp] theorem setLaunch_activity (s : State) (l : Launch) : (setLaunch s l).activity = s.activity := rfl
@[simp] theorem setLaunch_unattributed (s : State) (l : Launch) : (setLaunch s l).unattributed = s.unattributed := rfl
@[simp] theorem setLaunch_engine (s : State) (l : Launch) : (setLaunch s l).engine = s.engine := rfl
@[simp] theorem setLaunch_gridOps (s : State) (l : Launch) : (setLaunch s l).gridOps = s.gridOps := rfl
@[simp] theorem setLaunch_loop (s : State) (l : Launch) : (setLaunch s l).loop = s.loop := rfl
@[simp] theorem setLaunch_outbox (s : State) (l : Launch) : (setLaunch s l).outbox = s.outbox := rfl
@[simp] theorem setLaunch_heldMsgs (s : State) (l : Launch) : (setLaunch s l).heldMsgs = s.heldMsgs := rfl
@[simp] theorem setLaunch_comb (s : State) (l : Launch) : (setLaunch s l).comb = s.comb := rfl
@[simp] theorem setLaunch_batches (s : State) (l : Launch) : (setLaunch s l).batches = s.batches := rfl
@[simp] theorem setLaunch_heldRel (s : State) (l : Launch) : (setLaunch s l).heldRel = s.heldRel := rfl
@[simp] theorem setLaunch_parts (s : State) (l : Launch) : (setLaunch s l).parts = s.parts := rfl
@[simp] theorem setLaunch_landings (s : State) (l : Launch) : (setLaunch s l).landings = s.landings := rfl
@[simp] theorem setLaunch_links (s : State) (l : Launch) : (setLaunch s l).links = s.links := rfl
@[simp] theorem setLaunch_deadPlanes (s : State) (l : Launch) : (setLaunch s l).deadPlanes = s.deadPlanes := rfl
@[simp] theorem setLaunch_unreachable (s : State) (l : Launch) : (setLaunch s l).unreachable = s.unreachable := rfl
@[simp] theorem setLaunch_planeWrite (s : State) (l : Launch) : (setLaunch s l).planeWrite = s.planeWrite := rfl
@[simp] theorem setLaunch_gates (s : State) (l : Launch) : (setLaunch s l).gates = s.gates := rfl
@[simp] theorem setLaunch_dispatches (s : State) (l : Launch) : (setLaunch s l).dispatches = s.dispatches := rfl
@[simp] theorem setLaunch_xout (s : State) (l : Launch) : (setLaunch s l).xout = s.xout := rfl
@[simp] theorem setLaunch_xloop (s : State) (l : Launch) : (setLaunch s l).xloop = s.xloop := rfl
@[simp] theorem setLaunch_kennel (s : State) (l : Launch) : (setLaunch s l).kennel = s.kennel := rfl
@[simp] theorem setLaunch_fetches (s : State) (l : Launch) : (setLaunch s l).fetches = s.fetches := rfl
@[simp] theorem setLaunch_channels (s : State) (l : Launch) : (setLaunch s l).channels = s.channels := rfl
@[simp] theorem setLaunch_sends (s : State) (l : Launch) : (setLaunch s l).sends = s.sends := rfl
@[simp] theorem setLaunch_receives (s : State) (l : Launch) : (setLaunch s l).receives = s.receives := rfl
@[simp] theorem setLaunch_arms (s : State) (l : Launch) : (setLaunch s l).arms = s.arms := rfl
@[simp] theorem setLaunch_netOut (s : State) (l : Launch) : (setLaunch s l).netOut = s.netOut := rfl
@[simp] theorem setLaunch_livePorts (s : State) (l : Launch) : (setLaunch s l).livePorts = s.livePorts := rfl
@[simp] theorem setLaunch_snapshots (s : State) (l : Launch) : (setLaunch s l).snapshots = s.snapshots := rfl
@[simp] theorem setLaunch_agenda (s : State) (l : Launch) : (setLaunch s l).agenda = s.agenda := rfl
@[simp] theorem setLaunch_cur (s : State) (l : Launch) : (setLaunch s l).cur = s.cur := rfl
@[simp] theorem setLaunch_tick (s : State) (l : Launch) : (setLaunch s l).tick = s.tick := rfl
@[simp] theorem setLaunch_free (s : State) (l : Launch) : (setLaunch s l).free = s.free := rfl
@[simp] theorem setLaunch_nextId (s : State) (l : Launch) : (setLaunch s l).nextId = s.nextId := rfl
@[simp] theorem setLaunch_replies (s : State) (l : Launch) : (setLaunch s l).replies = s.replies := rfl
@[simp] theorem setLaunch_ctlOut (s : State) (l : Launch) : (setLaunch s l).ctlOut = s.ctlOut := rfl
@[simp] theorem setLaunch_mgmtOut (s : State) (l : Launch) : (setLaunch s l).mgmtOut = s.mgmtOut := rfl

@[simp] theorem putCore_mem (s : State) (c : Nat) (k : Core) : (putCore s c k).mem = s.mem := rfl
@[simp] theorem putCore_poison (s : State) (c : Nat) (k : Core) : (putCore s c k).poison = s.poison := rfl
@[simp] theorem putCore_sys (s : State) (c : Nat) (k : Core) : (putCore s c k).sys = s.sys := rfl
@[simp] theorem putCore_selfWritten (s : State) (c : Nat) (k : Core) : (putCore s c k).selfWritten = s.selfWritten := rfl
@[simp] theorem putCore_hi (s : State) (c : Nat) (k : Core) : (putCore s c k).hi = s.hi := rfl
@[simp] theorem putCore_islands (s : State) (c : Nat) (k : Core) : (putCore s c k).islands = s.islands := rfl
@[simp] theorem putCore_tlb (s : State) (c : Nat) (k : Core) : (putCore s c k).tlb = s.tlb := rfl
@[simp] theorem putCore_gated (s : State) (c : Nat) (k : Core) : (putCore s c k).gated = s.gated := rfl
@[simp] theorem putCore_moved (s : State) (c : Nat) (k : Core) : (putCore s c k).moved = s.moved := rfl
@[simp] theorem putCore_arriving (s : State) (c : Nat) (k : Core) : (putCore s c k).arriving = s.arriving := rfl
@[simp] theorem putCore_launches (s : State) (c : Nat) (k : Core) : (putCore s c k).launches = s.launches := rfl
@[simp] theorem putCore_blocks (s : State) (c : Nat) (k : Core) : (putCore s c k).blocks = s.blocks := rfl
@[simp] theorem putCore_classes (s : State) (c : Nat) (k : Core) : (putCore s c k).classes = s.classes := rfl
@[simp] theorem putCore_counters (s : State) (c : Nat) (k : Core) : (putCore s c k).counters = s.counters := rfl
@[simp] theorem putCore_spawns (s : State) (c : Nat) (k : Core) : (putCore s c k).spawns = s.spawns := rfl
@[simp] theorem putCore_rr (s : State) (c : Nat) (k : Core) : (putCore s c k).rr = s.rr := rfl
@[simp] theorem putCore_budget (s : State) (c : Nat) (k : Core) : (putCore s c k).budget = s.budget := rfl
@[simp] theorem putCore_shadows (s : State) (c : Nat) (k : Core) : (putCore s c k).shadows = s.shadows := rfl
@[simp] theorem putCore_activity (s : State) (c : Nat) (k : Core) : (putCore s c k).activity = s.activity := rfl
@[simp] theorem putCore_unattributed (s : State) (c : Nat) (k : Core) : (putCore s c k).unattributed = s.unattributed := rfl
@[simp] theorem putCore_engine (s : State) (c : Nat) (k : Core) : (putCore s c k).engine = s.engine := rfl
@[simp] theorem putCore_gridOps (s : State) (c : Nat) (k : Core) : (putCore s c k).gridOps = s.gridOps := rfl
@[simp] theorem putCore_loop (s : State) (c : Nat) (k : Core) : (putCore s c k).loop = s.loop := rfl
@[simp] theorem putCore_outbox (s : State) (c : Nat) (k : Core) : (putCore s c k).outbox = s.outbox := rfl
@[simp] theorem putCore_heldMsgs (s : State) (c : Nat) (k : Core) : (putCore s c k).heldMsgs = s.heldMsgs := rfl
@[simp] theorem putCore_comb (s : State) (c : Nat) (k : Core) : (putCore s c k).comb = s.comb := rfl
@[simp] theorem putCore_batches (s : State) (c : Nat) (k : Core) : (putCore s c k).batches = s.batches := rfl
@[simp] theorem putCore_heldRel (s : State) (c : Nat) (k : Core) : (putCore s c k).heldRel = s.heldRel := rfl
@[simp] theorem putCore_parts (s : State) (c : Nat) (k : Core) : (putCore s c k).parts = s.parts := rfl
@[simp] theorem putCore_landings (s : State) (c : Nat) (k : Core) : (putCore s c k).landings = s.landings := rfl
@[simp] theorem putCore_links (s : State) (c : Nat) (k : Core) : (putCore s c k).links = s.links := rfl
@[simp] theorem putCore_deadPlanes (s : State) (c : Nat) (k : Core) : (putCore s c k).deadPlanes = s.deadPlanes := rfl
@[simp] theorem putCore_unreachable (s : State) (c : Nat) (k : Core) : (putCore s c k).unreachable = s.unreachable := rfl
@[simp] theorem putCore_planeWrite (s : State) (c : Nat) (k : Core) : (putCore s c k).planeWrite = s.planeWrite := rfl
@[simp] theorem putCore_gates (s : State) (c : Nat) (k : Core) : (putCore s c k).gates = s.gates := rfl
@[simp] theorem putCore_dispatches (s : State) (c : Nat) (k : Core) : (putCore s c k).dispatches = s.dispatches := rfl
@[simp] theorem putCore_xout (s : State) (c : Nat) (k : Core) : (putCore s c k).xout = s.xout := rfl
@[simp] theorem putCore_xloop (s : State) (c : Nat) (k : Core) : (putCore s c k).xloop = s.xloop := rfl
@[simp] theorem putCore_kennel (s : State) (c : Nat) (k : Core) : (putCore s c k).kennel = s.kennel := rfl
@[simp] theorem putCore_fetches (s : State) (c : Nat) (k : Core) : (putCore s c k).fetches = s.fetches := rfl
@[simp] theorem putCore_channels (s : State) (c : Nat) (k : Core) : (putCore s c k).channels = s.channels := rfl
@[simp] theorem putCore_sends (s : State) (c : Nat) (k : Core) : (putCore s c k).sends = s.sends := rfl
@[simp] theorem putCore_receives (s : State) (c : Nat) (k : Core) : (putCore s c k).receives = s.receives := rfl
@[simp] theorem putCore_arms (s : State) (c : Nat) (k : Core) : (putCore s c k).arms = s.arms := rfl
@[simp] theorem putCore_netOut (s : State) (c : Nat) (k : Core) : (putCore s c k).netOut = s.netOut := rfl
@[simp] theorem putCore_livePorts (s : State) (c : Nat) (k : Core) : (putCore s c k).livePorts = s.livePorts := rfl
@[simp] theorem putCore_snapshots (s : State) (c : Nat) (k : Core) : (putCore s c k).snapshots = s.snapshots := rfl
@[simp] theorem putCore_agenda (s : State) (c : Nat) (k : Core) : (putCore s c k).agenda = s.agenda := rfl
@[simp] theorem putCore_cur (s : State) (c : Nat) (k : Core) : (putCore s c k).cur = s.cur := rfl
@[simp] theorem putCore_tick (s : State) (c : Nat) (k : Core) : (putCore s c k).tick = s.tick := rfl
@[simp] theorem putCore_free (s : State) (c : Nat) (k : Core) : (putCore s c k).free = s.free := rfl
@[simp] theorem putCore_nextId (s : State) (c : Nat) (k : Core) : (putCore s c k).nextId = s.nextId := rfl
@[simp] theorem putCore_replies (s : State) (c : Nat) (k : Core) : (putCore s c k).replies = s.replies := rfl
@[simp] theorem putCore_ctlOut (s : State) (c : Nat) (k : Core) : (putCore s c k).ctlOut = s.ctlOut := rfl
@[simp] theorem putCore_mgmtOut (s : State) (c : Nat) (k : Core) : (putCore s c k).mgmtOut = s.mgmtOut := rfl

@[simp] theorem rawWrite_sys (s : State) (pa : Nat) (bs : List Byte) : (rawWrite s pa bs).sys = s.sys := rfl
@[simp] theorem rawWrite_selfWritten (s : State) (pa : Nat) (bs : List Byte) : (rawWrite s pa bs).selfWritten = s.selfWritten := rfl
@[simp] theorem rawWrite_hi (s : State) (pa : Nat) (bs : List Byte) : (rawWrite s pa bs).hi = s.hi := rfl
@[simp] theorem rawWrite_islands (s : State) (pa : Nat) (bs : List Byte) : (rawWrite s pa bs).islands = s.islands := rfl
@[simp] theorem rawWrite_tlb (s : State) (pa : Nat) (bs : List Byte) : (rawWrite s pa bs).tlb = s.tlb := rfl
@[simp] theorem rawWrite_gated (s : State) (pa : Nat) (bs : List Byte) : (rawWrite s pa bs).gated = s.gated := rfl
@[simp] theorem rawWrite_moved (s : State) (pa : Nat) (bs : List Byte) : (rawWrite s pa bs).moved = s.moved := rfl
@[simp] theorem rawWrite_cores (s : State) (pa : Nat) (bs : List Byte) : (rawWrite s pa bs).cores = s.cores := rfl
@[simp] theorem rawWrite_arriving (s : State) (pa : Nat) (bs : List Byte) : (rawWrite s pa bs).arriving = s.arriving := rfl
@[simp] theorem rawWrite_launches (s : State) (pa : Nat) (bs : List Byte) : (rawWrite s pa bs).launches = s.launches := rfl
@[simp] theorem rawWrite_blocks (s : State) (pa : Nat) (bs : List Byte) : (rawWrite s pa bs).blocks = s.blocks := rfl
@[simp] theorem rawWrite_classes (s : State) (pa : Nat) (bs : List Byte) : (rawWrite s pa bs).classes = s.classes := rfl
@[simp] theorem rawWrite_counters (s : State) (pa : Nat) (bs : List Byte) : (rawWrite s pa bs).counters = s.counters := rfl
@[simp] theorem rawWrite_spawns (s : State) (pa : Nat) (bs : List Byte) : (rawWrite s pa bs).spawns = s.spawns := rfl
@[simp] theorem rawWrite_rr (s : State) (pa : Nat) (bs : List Byte) : (rawWrite s pa bs).rr = s.rr := rfl
@[simp] theorem rawWrite_budget (s : State) (pa : Nat) (bs : List Byte) : (rawWrite s pa bs).budget = s.budget := rfl
@[simp] theorem rawWrite_shadows (s : State) (pa : Nat) (bs : List Byte) : (rawWrite s pa bs).shadows = s.shadows := rfl
@[simp] theorem rawWrite_activity (s : State) (pa : Nat) (bs : List Byte) : (rawWrite s pa bs).activity = s.activity := rfl
@[simp] theorem rawWrite_unattributed (s : State) (pa : Nat) (bs : List Byte) : (rawWrite s pa bs).unattributed = s.unattributed := rfl
@[simp] theorem rawWrite_engine (s : State) (pa : Nat) (bs : List Byte) : (rawWrite s pa bs).engine = s.engine := rfl
@[simp] theorem rawWrite_gridOps (s : State) (pa : Nat) (bs : List Byte) : (rawWrite s pa bs).gridOps = s.gridOps := rfl
@[simp] theorem rawWrite_loop (s : State) (pa : Nat) (bs : List Byte) : (rawWrite s pa bs).loop = s.loop := rfl
@[simp] theorem rawWrite_outbox (s : State) (pa : Nat) (bs : List Byte) : (rawWrite s pa bs).outbox = s.outbox := rfl
@[simp] theorem rawWrite_heldMsgs (s : State) (pa : Nat) (bs : List Byte) : (rawWrite s pa bs).heldMsgs = s.heldMsgs := rfl
@[simp] theorem rawWrite_comb (s : State) (pa : Nat) (bs : List Byte) : (rawWrite s pa bs).comb = s.comb := rfl
@[simp] theorem rawWrite_batches (s : State) (pa : Nat) (bs : List Byte) : (rawWrite s pa bs).batches = s.batches := rfl
@[simp] theorem rawWrite_heldRel (s : State) (pa : Nat) (bs : List Byte) : (rawWrite s pa bs).heldRel = s.heldRel := rfl
@[simp] theorem rawWrite_parts (s : State) (pa : Nat) (bs : List Byte) : (rawWrite s pa bs).parts = s.parts := rfl
@[simp] theorem rawWrite_landings (s : State) (pa : Nat) (bs : List Byte) : (rawWrite s pa bs).landings = s.landings := rfl
@[simp] theorem rawWrite_links (s : State) (pa : Nat) (bs : List Byte) : (rawWrite s pa bs).links = s.links := rfl
@[simp] theorem rawWrite_deadPlanes (s : State) (pa : Nat) (bs : List Byte) : (rawWrite s pa bs).deadPlanes = s.deadPlanes := rfl
@[simp] theorem rawWrite_unreachable (s : State) (pa : Nat) (bs : List Byte) : (rawWrite s pa bs).unreachable = s.unreachable := rfl
@[simp] theorem rawWrite_planeWrite (s : State) (pa : Nat) (bs : List Byte) : (rawWrite s pa bs).planeWrite = s.planeWrite := rfl
@[simp] theorem rawWrite_gates (s : State) (pa : Nat) (bs : List Byte) : (rawWrite s pa bs).gates = s.gates := rfl
@[simp] theorem rawWrite_dispatches (s : State) (pa : Nat) (bs : List Byte) : (rawWrite s pa bs).dispatches = s.dispatches := rfl
@[simp] theorem rawWrite_xout (s : State) (pa : Nat) (bs : List Byte) : (rawWrite s pa bs).xout = s.xout := rfl
@[simp] theorem rawWrite_xloop (s : State) (pa : Nat) (bs : List Byte) : (rawWrite s pa bs).xloop = s.xloop := rfl
@[simp] theorem rawWrite_kennel (s : State) (pa : Nat) (bs : List Byte) : (rawWrite s pa bs).kennel = s.kennel := rfl
@[simp] theorem rawWrite_fetches (s : State) (pa : Nat) (bs : List Byte) : (rawWrite s pa bs).fetches = s.fetches := rfl
@[simp] theorem rawWrite_channels (s : State) (pa : Nat) (bs : List Byte) : (rawWrite s pa bs).channels = s.channels := rfl
@[simp] theorem rawWrite_sends (s : State) (pa : Nat) (bs : List Byte) : (rawWrite s pa bs).sends = s.sends := rfl
@[simp] theorem rawWrite_receives (s : State) (pa : Nat) (bs : List Byte) : (rawWrite s pa bs).receives = s.receives := rfl
@[simp] theorem rawWrite_arms (s : State) (pa : Nat) (bs : List Byte) : (rawWrite s pa bs).arms = s.arms := rfl
@[simp] theorem rawWrite_netOut (s : State) (pa : Nat) (bs : List Byte) : (rawWrite s pa bs).netOut = s.netOut := rfl
@[simp] theorem rawWrite_livePorts (s : State) (pa : Nat) (bs : List Byte) : (rawWrite s pa bs).livePorts = s.livePorts := rfl
@[simp] theorem rawWrite_snapshots (s : State) (pa : Nat) (bs : List Byte) : (rawWrite s pa bs).snapshots = s.snapshots := rfl
@[simp] theorem rawWrite_agenda (s : State) (pa : Nat) (bs : List Byte) : (rawWrite s pa bs).agenda = s.agenda := rfl
@[simp] theorem rawWrite_cur (s : State) (pa : Nat) (bs : List Byte) : (rawWrite s pa bs).cur = s.cur := rfl
@[simp] theorem rawWrite_tick (s : State) (pa : Nat) (bs : List Byte) : (rawWrite s pa bs).tick = s.tick := rfl
@[simp] theorem rawWrite_free (s : State) (pa : Nat) (bs : List Byte) : (rawWrite s pa bs).free = s.free := rfl
@[simp] theorem rawWrite_nextId (s : State) (pa : Nat) (bs : List Byte) : (rawWrite s pa bs).nextId = s.nextId := rfl
@[simp] theorem rawWrite_replies (s : State) (pa : Nat) (bs : List Byte) : (rawWrite s pa bs).replies = s.replies := rfl
@[simp] theorem rawWrite_ctlOut (s : State) (pa : Nat) (bs : List Byte) : (rawWrite s pa bs).ctlOut = s.ctlOut := rfl
@[simp] theorem rawWrite_mgmtOut (s : State) (pa : Nat) (bs : List Byte) : (rawWrite s pa bs).mgmtOut = s.mgmtOut := rfl

@[simp] theorem poisonSector_mem (s : State) (pa : Nat) : (poisonSector s pa).mem = s.mem := rfl
@[simp] theorem poisonSector_sys (s : State) (pa : Nat) : (poisonSector s pa).sys = s.sys := rfl
@[simp] theorem poisonSector_selfWritten (s : State) (pa : Nat) : (poisonSector s pa).selfWritten = s.selfWritten := rfl
@[simp] theorem poisonSector_hi (s : State) (pa : Nat) : (poisonSector s pa).hi = s.hi := rfl
@[simp] theorem poisonSector_islands (s : State) (pa : Nat) : (poisonSector s pa).islands = s.islands := rfl
@[simp] theorem poisonSector_tlb (s : State) (pa : Nat) : (poisonSector s pa).tlb = s.tlb := rfl
@[simp] theorem poisonSector_gated (s : State) (pa : Nat) : (poisonSector s pa).gated = s.gated := rfl
@[simp] theorem poisonSector_moved (s : State) (pa : Nat) : (poisonSector s pa).moved = s.moved := rfl
@[simp] theorem poisonSector_cores (s : State) (pa : Nat) : (poisonSector s pa).cores = s.cores := rfl
@[simp] theorem poisonSector_arriving (s : State) (pa : Nat) : (poisonSector s pa).arriving = s.arriving := rfl
@[simp] theorem poisonSector_launches (s : State) (pa : Nat) : (poisonSector s pa).launches = s.launches := rfl
@[simp] theorem poisonSector_blocks (s : State) (pa : Nat) : (poisonSector s pa).blocks = s.blocks := rfl
@[simp] theorem poisonSector_classes (s : State) (pa : Nat) : (poisonSector s pa).classes = s.classes := rfl
@[simp] theorem poisonSector_counters (s : State) (pa : Nat) : (poisonSector s pa).counters = s.counters := rfl
@[simp] theorem poisonSector_spawns (s : State) (pa : Nat) : (poisonSector s pa).spawns = s.spawns := rfl
@[simp] theorem poisonSector_rr (s : State) (pa : Nat) : (poisonSector s pa).rr = s.rr := rfl
@[simp] theorem poisonSector_budget (s : State) (pa : Nat) : (poisonSector s pa).budget = s.budget := rfl
@[simp] theorem poisonSector_shadows (s : State) (pa : Nat) : (poisonSector s pa).shadows = s.shadows := rfl
@[simp] theorem poisonSector_activity (s : State) (pa : Nat) : (poisonSector s pa).activity = s.activity := rfl
@[simp] theorem poisonSector_unattributed (s : State) (pa : Nat) : (poisonSector s pa).unattributed = s.unattributed := rfl
@[simp] theorem poisonSector_engine (s : State) (pa : Nat) : (poisonSector s pa).engine = s.engine := rfl
@[simp] theorem poisonSector_gridOps (s : State) (pa : Nat) : (poisonSector s pa).gridOps = s.gridOps := rfl
@[simp] theorem poisonSector_loop (s : State) (pa : Nat) : (poisonSector s pa).loop = s.loop := rfl
@[simp] theorem poisonSector_outbox (s : State) (pa : Nat) : (poisonSector s pa).outbox = s.outbox := rfl
@[simp] theorem poisonSector_heldMsgs (s : State) (pa : Nat) : (poisonSector s pa).heldMsgs = s.heldMsgs := rfl
@[simp] theorem poisonSector_comb (s : State) (pa : Nat) : (poisonSector s pa).comb = s.comb := rfl
@[simp] theorem poisonSector_batches (s : State) (pa : Nat) : (poisonSector s pa).batches = s.batches := rfl
@[simp] theorem poisonSector_heldRel (s : State) (pa : Nat) : (poisonSector s pa).heldRel = s.heldRel := rfl
@[simp] theorem poisonSector_parts (s : State) (pa : Nat) : (poisonSector s pa).parts = s.parts := rfl
@[simp] theorem poisonSector_landings (s : State) (pa : Nat) : (poisonSector s pa).landings = s.landings := rfl
@[simp] theorem poisonSector_links (s : State) (pa : Nat) : (poisonSector s pa).links = s.links := rfl
@[simp] theorem poisonSector_deadPlanes (s : State) (pa : Nat) : (poisonSector s pa).deadPlanes = s.deadPlanes := rfl
@[simp] theorem poisonSector_unreachable (s : State) (pa : Nat) : (poisonSector s pa).unreachable = s.unreachable := rfl
@[simp] theorem poisonSector_planeWrite (s : State) (pa : Nat) : (poisonSector s pa).planeWrite = s.planeWrite := rfl
@[simp] theorem poisonSector_gates (s : State) (pa : Nat) : (poisonSector s pa).gates = s.gates := rfl
@[simp] theorem poisonSector_dispatches (s : State) (pa : Nat) : (poisonSector s pa).dispatches = s.dispatches := rfl
@[simp] theorem poisonSector_xout (s : State) (pa : Nat) : (poisonSector s pa).xout = s.xout := rfl
@[simp] theorem poisonSector_xloop (s : State) (pa : Nat) : (poisonSector s pa).xloop = s.xloop := rfl
@[simp] theorem poisonSector_kennel (s : State) (pa : Nat) : (poisonSector s pa).kennel = s.kennel := rfl
@[simp] theorem poisonSector_fetches (s : State) (pa : Nat) : (poisonSector s pa).fetches = s.fetches := rfl
@[simp] theorem poisonSector_channels (s : State) (pa : Nat) : (poisonSector s pa).channels = s.channels := rfl
@[simp] theorem poisonSector_sends (s : State) (pa : Nat) : (poisonSector s pa).sends = s.sends := rfl
@[simp] theorem poisonSector_receives (s : State) (pa : Nat) : (poisonSector s pa).receives = s.receives := rfl
@[simp] theorem poisonSector_arms (s : State) (pa : Nat) : (poisonSector s pa).arms = s.arms := rfl
@[simp] theorem poisonSector_netOut (s : State) (pa : Nat) : (poisonSector s pa).netOut = s.netOut := rfl
@[simp] theorem poisonSector_livePorts (s : State) (pa : Nat) : (poisonSector s pa).livePorts = s.livePorts := rfl
@[simp] theorem poisonSector_snapshots (s : State) (pa : Nat) : (poisonSector s pa).snapshots = s.snapshots := rfl
@[simp] theorem poisonSector_agenda (s : State) (pa : Nat) : (poisonSector s pa).agenda = s.agenda := rfl
@[simp] theorem poisonSector_cur (s : State) (pa : Nat) : (poisonSector s pa).cur = s.cur := rfl
@[simp] theorem poisonSector_tick (s : State) (pa : Nat) : (poisonSector s pa).tick = s.tick := rfl
@[simp] theorem poisonSector_free (s : State) (pa : Nat) : (poisonSector s pa).free = s.free := rfl
@[simp] theorem poisonSector_nextId (s : State) (pa : Nat) : (poisonSector s pa).nextId = s.nextId := rfl
@[simp] theorem poisonSector_replies (s : State) (pa : Nat) : (poisonSector s pa).replies = s.replies := rfl
@[simp] theorem poisonSector_ctlOut (s : State) (pa : Nat) : (poisonSector s pa).ctlOut = s.ctlOut := rfl
@[simp] theorem poisonSector_mgmtOut (s : State) (pa : Nat) : (poisonSector s pa).mgmtOut = s.mgmtOut := rfl

end Sys2Proof.Laws
end

