-- ==== Sys2Proof/Laws/Steady.lean ====
section
/-! SUPPORT. Effects that leave every pack as it is: events, writes of the device, messages, spawns of tasks. -/

namespace Sys2Proof.Laws

open Sys2Proof Sys2Proof.Machine Sys2Proof.Safety

/-- Every issuer keeps its pack and its fragment. -/
def Steady (s t : State) : Prop := ∀ r e, issuerAt s r = some e → ∃ b l, issuerAt t r = some { e with b := b, l := l }

theorem steady_refl (s : State) : Steady s s := fun _ e h => ⟨e.b, e.l, h⟩

theorem steady_trans {s t u : State} (h : Steady s t) (k : Steady t u) : Steady s u := fun r e he => by
  obtain ⟨b, l, h1⟩ := h r e he
  obtain ⟨b', l', h2⟩ := k r _ h1
  exact ⟨b', l', h2⟩

theorem steady_same {s t : State} (hb : t.blocks = s.blocks) (hl : t.launches = s.launches) : Steady s t := fun r e he =>
  ⟨e.b, e.l, by
    unfold issuerAt getBlock getLaunch at *
    rw [hb, hl]
    exact he⟩

theorem steady_kept {s t : State} (h : Steady s t) : Kept s t := fun r e he => by
  obtain ⟨b, l, h1⟩ := h r e he
  exact ⟨_, h1⟩

theorem steady_charged {s t : State} (h : Charged s t) : Steady s t := fun r e he =>
  ⟨e.b, e.l, (charged_issuer h r).trans he⟩

theorem steady_linesMoved {s t : State} (h : LinesMoved s t) : Steady s t := fun r e he => by
  obtain ⟨b, -, -, h1⟩ := linesMoved_issuer h he
  exact ⟨b, e.l, h1⟩

theorem steady_sent {s t : State} (h : Sent s t) : Steady s t := steady_same (sent_blocks h) (sent_launches h)

theorem steady_ite {s t u : State} {c : Prop} [Decidable c] (h : Steady s t) (k : Steady s u) : Steady s (if c then t else u) := by
  split
  · exact h
  · exact k

theorem steady_foldl {α : Type} (g : State → α → State) (h : ∀ s x, Steady s (g s x)) (l : List α) (s : State) :
    Steady s (l.foldl g s) := by
  induction l generalizing s with
  | nil => exact steady_refl s
  | cons a l ih => exact steady_trans (h s a) (ih _)

theorem steady_packNow {s t : State} (h : Steady s t) {r : FragRef} {e : Issuer} (he : issuerAt s r = some e) :
    packNow t r = some e.p := by
  obtain ⟨b, l, h1⟩ := h r e he
  obtain ⟨-, i1, i2, -, -⟩ := issuerAt_eq.1 h1
  unfold packNow
  rw [i1]
  exact i2

theorem steady_noteLost (s : State) (f : Bool) : Steady s (noteLost s f) := steady_same rfl rfl

theorem steady_postTo (s : State) (d r : Nat) : Steady s (postTo s d r) :=
  steady_ite (steady_noteLost _ _) (steady_ite (steady_linesMoved (linesMoved_gWriteNat _ _ _ _))
    (steady_linesMoved (linesMoved_trans (linesMoved_gWriteNat _ _ _ _) (linesMoved_gWriteNat _ _ _ _))))

theorem steady_postEvent (s : State) (rcb r : Nat) : Steady s (postEvent s rcb r) := steady_postTo _ _ _

theorem steady_postMemoryError (s : State) (r b a : Nat) : Steady s (postMemoryError s r b a) := steady_postEvent _ _ _

theorem linesMoved_pagesWrite (s : State) (ps : List (Nat × Nat)) (va : Nat) (bs : List Byte) : LinesMoved s (pagesWrite s ps va bs) := by
  unfold pagesWrite
  generalize bs.length / 4096 + 2 = f
  induction f generalizing s va bs with
  | zero => exact linesMoved_refl s
  | succ f ih =>
    unfold pagesWriteUnits
    split
    · exact linesMoved_refl s
    · exact linesMoved_trans (linesMoved_gWrite _ _ _) (ih _ _ _)

theorem steady_deviceWrite (s : State) (rcb ctx block va : Nat) (bs : List Byte) : Steady s (deviceWrite s rcb ctx block va bs) := by
  unfold deviceWrite
  dsimp only
  split
  · exact steady_postEvent _ _ _
  · split
    · exact steady_postEvent _ _ _
    · exact steady_linesMoved (linesMoved_trans (linesMoved_charged (charged_chargeMem _ _ _ _)) (linesMoved_pagesWrite _ _ _ _))

/-! ## Tasks -/

theorem steady_startTask (s : State) (c : Nat) (a : DWord) (t : Option TileTask) : Steady s (startTask s c a t) := by
  unfold startTask
  split
  · exact steady_refl s
  · exact steady_same rfl rfl

theorem steady_spawnTask (s : State) (n c : Nat) : Steady s (spawnTask s n c) :=
  steady_ite (steady_startTask _ _ _ _) (steady_same rfl rfl)

theorem steady_counterZero (s : State) (n : Nat) : Steady s (counterZero s n) := by
  unfold counterZero
  split
  · exact steady_refl s
  · exact steady_spawnTask _ _ _

theorem steady_counterTo (s : State) (n x : Nat) : Steady s (counterTo s n x) :=
  steady_ite (steady_trans (t := putCounter s n { counterAt s n with value := BitVec.ofNat 32 x }) (steady_same rfl rfl)
    (steady_counterZero _ _)) (steady_same rfl rfl)

/-! ## Experts -/

theorem linesMoved_putErt (s : State) (i n : Nat) : LinesMoved s (putErt s i n) := linesMoved_gWriteNat _ _ _ _

theorem steady_enqueue (s : State) (k : Nat) (ws : List PortFlit) : Steady s (enqueue s k ws) := steady_same rfl rfl

theorem steady_leaveX (s : State) (x : XMsg) : Steady s (leaveX s x) := by
  unfold leaveX
  dsimp only
  split
  · exact steady_trans (t := { s with xout := s.xout ++ [x], free := s.free + 1 }) (steady_same rfl rfl) (steady_enqueue _ _ _)
  · exact steady_same rfl rfl

theorem steady_sendX (s : State) (x : XMsg) : Steady s (sendX s x) := by
  have : ∀ a b : Bool, Steady s (let t := if a then { s with xloop := s.xloop ++ [x] } else s; if b then leaveX t x else t) := by
    intro a b
    refine steady_trans (t := if a then { s with xloop := s.xloop ++ [x] } else s)
      (steady_ite (steady_same rfl rfl) (steady_refl s)) (steady_ite (steady_leaveX _ _) (steady_refl _))
  cases x <;> exact this _ _

theorem steady_endSlot (s : State) (d : Dispatch) (i : Nat) (x : SlotState) (st k : Nat) : Steady s (endSlot s d i x st k) := by
  unfold endSlot modGate
  dsimp only
  split <;> exact steady_same rfl rfl

theorem steady_sendAttempt (s : State) (d : Dispatch) (i : Nat) : Steady s (sendAttempt s d i) := by
  unfold sendAttempt
  split
  · exact steady_refl s
  · split
    · exact steady_refl s
    · dsimp only
      split
      · exact steady_endSlot _ _ _ _ _ _
      · refine steady_trans ?_ (steady_sendX _ _)
        exact steady_trans (t := putDispatch s d) (steady_same rfl rfl) (steady_sent (sent_chargeFabric _ _ _ _))

/-! ## The network and launches -/

theorem steady_memAtomic (s : State) (pa w op a c : Nat) : Steady s (memAtomic s pa w op a c).1 := by
  unfold memAtomic
  have h := linesMoved_recallRange s pa w
  generalize recallRange s pa w = u at h
  dsimp only
  split
  · exact steady_linesMoved h
  · exact steady_linesMoved (linesMoved_trans h (linesMoved_gWriteNat _ _ _ _))

theorem steady_putChan (s : State) (c : Channel) : Steady s (putChan s c) := steady_same rfl rfl

theorem steady_neCount (s : State) (rcb ctx va : Nat) (c : Option Nat) : Steady s (neCount s rcb ctx va c) := by
  unfold neCount
  split
  · exact steady_refl s
  · split
    · exact steady_postEvent _ _ _
    · exact steady_trans (steady_charged (charged_chargeMem _ _ _ _)) (steady_memAtomic _ _ _ _ _ _)

theorem steady_neRecord (s : State) (ctx table ch : Nat) (entry : BitVec 512) (gen word : Nat) :
    Steady s (neRecord s ctx table ch entry gen word) := by
  unfold neRecord
  split
  · exact steady_refl s
  · dsimp only
    refine steady_ite (steady_refl s) (steady_ite (steady_ite (steady_putChan _ _) (steady_refl s)) ?_)
    exact steady_trans (steady_putChan _ _) (steady_deviceWrite _ _ _ _ _ _)

theorem packAt_getPack {b : Block} {i j : Nat} {p : Pack} (h : packAt b i j = some p) : getPack b p.pidx p.pos = some p := by
  unfold packAt at h
  obtain ⟨q, -, h2⟩ := Option.bind_eq_some_iff.1 h
  have hk := getPack_key h2
  rw [hk.1, hk.2]
  exact h2

theorem kept_completeAt (s : State) (b i j id : Nat) : Kept s (completeAt s b i j id) := by
  unfold completeAt
  split
  · exact kept_refl s
  · rename_i x hb
    split
    · exact kept_refl s
    · rename_i p hp
      exact kept_setPack (q := engDone p id) hb (packAt_getPack hp) rfl rfl (fun k f hf => ⟨f, hf⟩) rfl

theorem chain4 {s : State} (F1 F2 F3 F4 : State → State) (h1 : ∀ u, Steady u (F1 u)) (h2 : ∀ u, Steady u (F2 u)) (h3 : ∀ u, Steady u (F3 u))
    (h4 : ∀ u, Steady u (F4 u)) : Steady s (F4 (F3 (F2 (F1 s)))) :=
  steady_trans (h1 s) (steady_trans (h2 _) (steady_trans (h3 _) (h4 _)))

theorem steady_chans (u : State) (l : List Channel) : Steady u { u with channels := l } := steady_same rfl rfl
theorem steady_sends (u : State) (l : List NeReq) : Steady u { u with sends := l } := steady_same rfl rfl
theorem steady_receives (u : State) (l : List NeRecv) : Steady u { u with receives := l } := steady_same rfl rfl
theorem steady_arms (u : State) (l : List Pending) (m : List Arm) : Steady u { u with arriving := l, arms := m } := steady_same rfl rfl

theorem kept_finishSend (s : State) (q : NeReq) (a b : Nat) : Kept s (finishSend s q a b) := by
  refine kept_trans (steady_kept (chain4 (fun u => { u with sends := u.sends.filter fun x => x.op != q.op })
    (fun u => neCount u q.region q.ctx (wrCtr q.wr.toNat) q.ctr)
    (fun u => if wrRec q.wr.toNat then neRecord u q.ctx q.table (wrCh q.wr.toNat) q.entry q.gen (neRecordWord a b (wrOp q.wr.toNat) (wrCh q.wr.toNat) (if a = 1 then wrLen q.wr.toNat else sentBytes q) (wrTag q.wr.toNat) (wrLaddr q.wr.toNat)) else u)
    (fun u => if q.begun then modChan u q.ctx q.table (wrCh q.wr.toNat) fun c => { c with out := c.out - wrLen q.wr.toNat } else u)
    (fun u => steady_sends _ _) (fun u => steady_neCount _ _ _ _ _) (fun u => steady_ite (steady_neRecord _ _ _ _ _ _ _) (steady_refl u)) ?_)) (kept_completeAt _ q.blk q.pidx q.pos q.op)
  intro u
  refine steady_ite ?_ (steady_refl u)
  exact steady_chans _ _

theorem steady_finishRecv (s : State) (q : NeRecv) (a b : Nat) : Steady s (finishRecv s q a b) := by
  have hfin : ∀ (c : Bool) (w : Nat), ∀ t, t = (
      let u := neCount { s with receives := s.receives.filter fun x => x.op != q.op } q.region q.ctx (wrCtr q.wr.toNat) q.ctr
      let u := if c then fireArms u q.ctx q.tag (wrLaddr q.wr.toNat) else u
      if wrRec q.wr.toNat then neRecord u q.ctx q.table (wrCh q.wr.toNat) q.entry q.gen w else u) → Steady s t := by
    rintro c w t rfl
    exact chain4 (fun u => { u with receives := u.receives.filter fun x => x.op != q.op }) (fun u => neCount u q.region q.ctx (wrCtr q.wr.toNat) q.ctr)
      (fun u => if c then fireArms u q.ctx q.tag (wrLaddr q.wr.toNat) else u) (fun u => if wrRec q.wr.toNat then neRecord u q.ctx q.table (wrCh q.wr.toNat) q.entry q.gen w else u)
      (fun u => steady_receives _ _) (fun u => steady_neCount _ _ _ _ _) (fun u => steady_ite (steady_arms _ _ _) (steady_refl u)) (fun u => steady_ite (steady_neRecord _ _ _ _ _ _ _) (steady_refl u))
  exact hfin _ _ _ rfl

theorem kept_newLaunch (s : State) (n : Nat) (l : Launch) : Kept s { s with nextId := n, launches := s.launches ++ [l] } := fun r e he => by
  obtain ⟨i0, i1, i2, i3, i4⟩ := issuerAt_eq.1 he
  refine ⟨e, issuerAt_eq.2 ⟨i0, i1, i2, ?_, i4⟩⟩
  unfold getLaunch at *
  exact List.find?_append .. ▸ by rw [i3]; rfl

theorem steady_rejectPacket (s : State) (src : LaunchSource) (n r : Nat) : Steady s (rejectPacket s src n r) := by
  unfold rejectPacket
  split
  · exact steady_postEvent _ _ _
  · exact steady_postEvent _ _ _
  · exact steady_same rfl rfl

end Sys2Proof.Laws
end

