-- ==== Sys2Proof/Laws/Turn.lean ====
section
/-! SUPPORT. What a step is: what presses, a fragment of the cycle, or a turn: an event of the agenda, a fragment's, an event's. -/

namespace Sys2Proof.Laws

open Sys2Proof Sys2Proof.Machine Sys2Proof.Safety

theorem pressing_none {s : State} (hi : s.inputs = []) (hd : s.doomed = []) (hl : s.lost = []) : pressing s = none := by
  unfold pressing
  rw [hi, hd, hl]
  rfl

theorem step_pressing {s u : State} (h : pressing { s with cur := none } = some u) : step s = .next u := by
  unfold step; dsimp only; rw [h]

theorem coTurn_nil {s : State} (h : s.co = []) : coTurn s = (s, none) := by
  unfold coTurn
  rw [h]
  show (({ s with co := [] } : State), none) = (s, none)
  rw [← h]

theorem coTurn_cons {s : State} {e : Issuer} {rest : List FragRef} (h : s.co = e.ref :: rest) (he : issuerAt s e.ref = some e)
    (hr : fragReady s e = true) (hv : vectorNext s e = true) : coTurn s = ({ s with co := rest }, some e) := by
  unfold coTurn
  rw [h, List.dropWhile_cons_of_neg (by rw [he]; simp [hr, hv])]
  show (({ s with co := rest } : State), issuerAt s e.ref) = _
  rw [he]

theorem step_with {s u : State} {e : Issuer} (hp : pressing { s with cur := none } = none)
    (hc : coTurn { s with cur := none } = (u, some e)) : step s = issueWith u e := by
  unfold step; dsimp only; rw [hp]; dsimp only; rw [hc]

theorem step_turn {s u : State} (hp : pressing { s with cur := none } = none) (hc : coTurn { s with cur := none } = (u, none)) :
    step s = turn u := by
  unfold step; dsimp only; rw [hp]; dsimp only; rw [hc]

/-- Nothing presses, and no other fragment issues in this cycle. -/
theorem step_quiet {s : State} (hi : s.inputs = []) (hd : s.doomed = []) (hl : s.lost = []) (hc : s.co = []) :
    step s = turn { s with cur := none } :=
  step_turn (pressing_none hi hd hl) (coTurn_nil hc)

theorem turn_agenda {s : State} {i : Instr} {rest : List Instr} (h : s.agenda = i :: rest) :
    turn s = exec i { s with tick := s.tick + 1, agenda := rest } := by
  unfold turn; dsimp only; rw [h]

theorem turn_fragment {s : State} (h : s.agenda = []) (ht : s.tick % 2 = 0) : turn s = fragmentFirst { s with tick := s.tick + 1 } := by
  unfold turn; dsimp only; rw [h]; dsimp only; rw [if_pos ht]

theorem turn_event {s : State} (h : s.agenda = []) (ht : s.tick % 2 = 1) : turn s = eventFirst { s with tick := s.tick + 1 } := by
  unfold turn; dsimp only; rw [h]; dsimp only; rw [if_neg (by omega)]

theorem fragmentFirst_some {s : State} {e : Issuer} (h : selectFrag s = some e) : fragmentFirst s = issueFrom s e := by
  unfold fragmentFirst; rw [h]

theorem fragmentFirst_none {s : State} (h : selectFrag s = none) : fragmentFirst s = .next ((internalStep s).getD s) := by
  unfold fragmentFirst; rw [h]

theorem eventFirst_some {s t : State} (h : internalStep s = some t) : eventFirst s = .next t := by
  unfold eventFirst; rw [h]

theorem eventFirst_none {s : State} (h : internalStep s = none) : eventFirst s = fragmentFirst s := by
  unfold eventFirst; rw [h]

theorem issueFrom_ok {s : State} {e : Issuer} {i : Instr} (h : fetched (takeTurn s e) (refresh (takeTurn s e) e) = .ok i) :
    issueFrom s e = exec i (withMates (takeTurn s e) (refresh (takeTurn s e) e) i) := by
  unfold issueFrom; dsimp only; rw [h]

theorem issueFrom_trap {s : State} {e : Issuer} {t : TrapInfo}
    (h : fetched (takeTurn s e) (refresh (takeTurn s e) e) = .error t) :
    issueFrom s e = .next (takeTrap (takeTurn s e) (refresh (takeTurn s e) e) t) := by
  unfold issueFrom; dsimp only; rw [h]

theorem issueWith_ok {s : State} {e : Issuer} {i : Instr} (h : fetched (joinTurn s e) (refresh (joinTurn s e) e) = .ok i) :
    issueWith s e = exec i (joinTurn s e) := by
  unfold issueWith; dsimp only; rw [h]

theorem issueWith_trap {s : State} {e : Issuer} {t : TrapInfo}
    (h : fetched (joinTurn s e) (refresh (joinTurn s e) e) = .error t) :
    issueWith s e = .next (takeTrap (joinTurn s e) (refresh (joinTurn s e) e) t) := by
  unfold issueWith; dsimp only; rw [h]

/-- What the decoder answers is well formed. -/
theorem decode_wf {bs : List Byte} {i : Instr} {n : Nat} (h : decode bs = .instr i n) : i.wf = true := by
  unfold decode at h
  dsimp only at h
  split at h
  · cases h
  · unfold decodeWord at h
    dsimp only at h
    split at h
    · cases h
    · split at h
      · injection h with h1 _; rw [← h1]; assumption
      · cases h

theorem fetched_instr {s : State} {e : Issuer} {bs : List Byte} {i : Instr} {n : Nat}
    (h : fetchAt s e.l.ctx (inSup e.f) e.f.pc.toNat = .ok bs) (hd : decode bs = .instr i n) (hb : badPreds e i = false) :
    fetched s e = .ok i := by
  unfold fetched; rw [h]; dsimp only; rw [hd]; dsimp only; rw [hb]; rfl

theorem fetched_badPreds {s : State} {e : Issuer} {bs : List Byte} {i : Instr} {n : Nat}
    (h : fetchAt s e.l.ctx (inSup e.f) e.f.pc.toNat = .ok bs) (hd : decode bs = .instr i n) (hb : badPreds e i = true) :
    fetched s e = .error (trapAll e [] 0x0E) := by
  unfold fetched; rw [h]; dsimp only; rw [hd]; dsimp only; rw [hb]; rfl

theorem fetched_reject {s : State} {e : Issuer} {bs : List Byte} {r : Reject}
    (h : fetchAt s e.l.ctx (inSup e.f) e.f.pc.toNat = .ok bs) (hd : decode bs = .reject r) :
    fetched s e = .error (trapAll e [] 0x05) := by
  unfold fetched; rw [h]; dsimp only; rw [hd]

theorem fetched_fault {s : State} {e : Issuer} {c va : Nat}
    (h : fetchAt s e.l.ctx (inSup e.f) e.f.pc.toNat = .error (c, va)) :
    fetched s e = .error (trapLanes c ((maskLanes e.p e.f).map fun l => (l, va))) := by
  unfold fetched; rw [h]

end Sys2Proof.Laws
end

