-- ==== Sys2Proof/Tests/Slice0.lean ====
section
/-! SUPPORT. Tests: ill-formed terms that each check refuses; words written out from the encodings of spec/07_encoding.md that decode to
the instruction they stand for; single steps on small states; and, for every obligation with hypotheses, a state and operands
that meet them. -/

namespace Sys2Proof.Tests

set_option Elab.async false

open Sys2Proof Sys2Proof.Machine Sys2Proof.Safety

/-! ## Operands to vary -/

def all : Pred := { neg := false, idx := 7 }
def g0 : Gen := { dst := .null, nowb := false, pred := all, a := .unused, b := .unused, c := .unused, ty := .i32, rnd := .rne, sat := false,
                  opx := 0, scope := .block, hint := 0 }
def m0 : M64 := { data := .unused, nowb := false, pred := all, base := .s 0, off := 0, width := .b32, order := .plain, scope := .block, sel := 0,
                  ext := 0 }
def x0 : X64 := { tile := 0, tid := 0, slot := 0, mslot := 0, reg := .unused, cnt := 0, flags := 0 }
def q0 : G64 := { data := .unused, pred := all, addr := .unused, gp := 0, cw := .unused, width := 0, gop := 0, order := .plain, scope := .block,
                  gflags := 0, gext := 0 }
def g3 : Gen := { g0 with dst := .v 2, a := .v 4, b := .v 6 }

/-! ## Well-formedness (R13, R235 to R239, R244): each term breaks one check -/

theorem test_wf_generic_refused : ([.iadd { g3 with ty := .f32 }, .iadd { g3 with c := .v 0 }, .iadd { g3 with b := .unused },
    .iadd { g3 with rnd := .rup }, .imin { g3 with sat := true }, .iadd { g3 with opx := 1 }, .iadd { g3 with scope := .grid },
    .iadd { g3 with hint := 1 }, .iadd { g3 with dst := .null, nowb := true }, .iadd { g3 with dst := .s 0 },
    .iadd { g3 with ty := .i64, dst := .v 3 }, .iadd { g3 with ty := .i64, a := .s 1 }, .iadd { g3 with ty := .i64, b := .q 0 },
    .imad g3, .and g3, .shr { g3 with ty := .i32 }, .bfi { g3 with ty := .b32 }, .popc { g3 with ty := .b32 }, .prmt { g3 with ty := .b64 },
    .lea { g3 with ty := .i32 }, .iset { g3 with opx := 6 }, .sel { g3 with ty := .i32 }, .cvti { g3 with b := .unused, opx := 8 }] :
    List Instr).all (fun i => !i.wf) = true := by decide

theorem test_wf_moves_refused : ([.movsr { dst := .s 0, nowb := false, pred := all, sel := .laneid, ty := .b32 },
    .movsr { dst := .v 0, nowb := false, pred := all, sel := .clock, ty := .b32 },
    .movsr { dst := .v 1, nowb := false, pred := all, sel := .clock, ty := .b64 },
    .movi { dst := .v 3, nowb := false, pred := all, ext := .zx, imm := 0 },
    .movi { dst := .null, nowb := true, pred := all, ext := .word, imm := 0 }] : List Instr).all (fun i => !i.wf) = true := by decide

theorem test_wf_control_refused : ([.nop { g0 with a := .v 0 }, .exit { g0 with dst := .v 0 }, .bra { pred := all, tgt := .s 0, off := 0 },
    .bra { pred := { neg := true, idx := 7 }, tgt := .unused, off := 0 }, .brall { pred := all, tgt := .v 0, off := 0 },
    .jmp { pred := all, tgt := .s 1, off := 0 }, .jmp { pred := all, tgt := .s 0, off := 2 },
    .brc { cond := .eq, a := .q 0, b := .v 0, off := 0 }, .brv { pred := all, toff := 0, joff := 2 }, .brv { pred := all, toff := 2, joff := 0 },
    .ret { g0 with opx := 1 }, .regang { g0 with a := .v 0 }, .hold { g0 with a := .k 0 }, .yield { g0 with ty := .b32 },
    .waitcnt { g0 with a := .k 0, opx := 5 }, .psplit { g0 with opx := 0 }, .psplit { g0 with opx := 4 },
    .pfuse { g0 with pred := { neg := false, idx := 0 } }] : List Instr).all (fun i => !i.wf) = true := by decide

theorem test_wf_exchange_float_refused : ([.shfl { g3 with ty := .b32, opx := 4 }, .vote { g0 with dst := .v 0, a := .v 1, ty := .b32, opx := 3 },
    .vote { g0 with dst := .v 0, a := .v 1, ty := .b64, opx := 4 }, .matchLanes { g0 with dst := .s 0, a := .v 1, ty := .b32 },
    .redux { g0 with dst := .v 0, a := .v 1, ty := .n32, opx := 7 }, .redux { g0 with dst := .v 0, a := .v 1, ty := .i32, rnd := .rup },
    .scan { g0 with dst := .s 0, a := .v 1, ty := .i32 }, .rank { g0 with dst := .v 0, a := .v 1, ty := .b32, opx := 2 },
    .bcast { g0 with dst := .v 0, a := .v 1, b := .v 2, ty := .b32 }, .fadd g3, .ffma { g3 with c := .v 8, ty := .f32, opx := 4 },
    .fmin { g3 with ty := .f32, rnd := .rtz }, .fset { g3 with ty := .f32, opx := 8 }, .fsqrt { g3 with ty := .f32 },
    .frnd { g0 with dst := .v 0, a := .v 1, ty := .f32, opx := 2 }, .fscale { g0 with dst := .v 0, a := .v 1, ty := .f32 },
    .fclass { g3 with ty := .i32 }, .cvt { g0 with dst := .v 0, a := .v 1, ty := .f32, opx := 4 },
    .cvt { g0 with dst := .v 0, a := .v 1, ty := .f16x2, opx := 0 }, .tf8pk { g3 with ty := .f32 }, .tf8up { g3 with ty := .f32, opx := 4, dst := .v 2 },
    .requant { g3 with ty := .tf8x4, b := .unused }, .rng { g0 with dst := .v 2, ty := .n32, opx := 4 }, .rng { g0 with dst := .s 2, ty := .n32 },
    .fstatRead { g0 with dst := .v 0, ty := .b32, a := .k 1 }, .fstatSet { g0 with dst := .v 0, ty := .b32, a := .v 1, opx := 2 }] :
    List Instr).all (fun i => !i.wf) = true := by decide

theorem test_wf_memory_refused : ([.ld { m0 with data := .s 0 }, .ld { m0 with data := .v 2, width := .b128 }, .ld { m0 with data := .v 0, base := .s 1 },
    .ld { m0 with data := .v 0, order := .release }, .ld { m0 with data := .v 0, sel := 3 }, .ld { m0 with data := .v 0, ext := 1 },
    .ld { m0 with data := .v 0, width := .cp4 }, .ld { m0 with data := .v 0, scope := .grid }, .st m0, .st { m0 with data := .k 0, width := .b64 },
    .st { m0 with data := .v 0, sel := 1 }, .lds { m0 with data := .v 0, sel := 1 }, .sts { m0 with data := .v 0, nowb := true },
    .ldc { m0 with data := .v 0 }, .atom { m0 with data := .v 0, sel := 3 }, .atom { m0 with data := .v 1, sel := 2, ext := 1 },
    .red { m0 with data := .v 0, sel := 2, ext := 0 }, .red { m0 with data := .v 0, sel := 2, ext := 3 }, .cpl { m0 with data := .v 0 },
    .cpl { m0 with data := .v 0, width := .cp8, ext := 2 }, .pref m0, .discard { m0 with data := .v 0, width := .b8 },
    .waitc { m0 with data := .s 0, sel := 7 }, .waitc { m0 with data := .s 0, base := .s 1 }, .fence g0, .fence { g0 with opx := 1, hint := 1 },
    .smap { g0 with a := .s 2, b := .s 4, c := .s 5, hint := 3 }, .sunmap { g0 with a := .s 2 }, .bxferLoad { g0 with a := .s 2 },
    .bxferLoad { g0 with a := .s 4, opx := 1 }, .bxferRed { g0 with a := .s 4, c := .k 0, opx := 2, ty := .f32 }] :
    List Instr).all (fun i => !i.wf) = true := by decide

theorem test_wf_sync_matrix_refused : ([.barinit { g0 with a := .v 0, b := .k 1 }, .bararr { g0 with a := .k 0, b := .k 1 },
    .bararrJoin { g0 with a := .k 0, opx := 1 }, .barwait g0, .barexp { g0 with a := .k 0, b := .k 1, opx := 2 }, .bartry { g0 with a := .k 0 },
    .qcfg { g0 with a := .v 0, b := .k 1 }, .append { g0 with dst := .s 1, a := .k 0, b := .k 1, ty := .n64 },
    .decline { g0 with dst := .s 2, a := .k 0, b := .k 1, ty := .n64 }, .tdset { x0 with reg := .s 8 }, .tdget { x0 with reg := .s 16, tile := 1 },
    .mldb { x0 with reg := .s 1 }, .mbrel { x0 with reg := .k 0 }, .mldmeta { x0 with reg := .v 0 }, .mzero { x0 with slot := 1 },
    .mma { x0 with reg := .k 0, flags := 2 }, .mmaRing { x0 with reg := .k 0, flags := 1 }, .mmasp { x0 with reg := .k 0, cnt := 1 },
    .mst { x0 with reg := .k 0, flags := 1 }, .mstAdd { x0 with reg := .k 0 }, .mrda { x0 with reg := .v 8 }, .mwra { x0 with reg := .v 16, cnt := 8 },
    .ringinit { x0 with reg := .v 0 }, .mstat { g0 with dst := .v 0, ty := .b32, opx := 3 }] : List Instr).all (fun i => !i.wf) = true := by decide

theorem test_wf_grid_system_refused : ([.gpat { q0 with data := .s 2 }, .gst { q0 with data := .v 0 }, .gst { q0 with data := .v 1, addr := .s 0, width := 3 },
    .gld { q0 with data := .s 0, addr := .s 0 }, .gred { q0 with data := .v 0, addr := .s 0, cw := .s 2, width := 2, gop := 8 },
    .gred { q0 with data := .v 0, addr := .s 0, cw := .s 2, width := 2, gflags := 1 }, .gatom { q0 with data := .v 0, addr := .s 0, width := 2, gop := 11 },
    .gscan { q0 with data := .v 0, addr := .s 0, cw := .s 2, width := 2, gop := 10 }, .gcopy { q0 with data := .s 2, addr := .s 0 },
    .gfence q0, .gwait q0, .gst { q0 with data := .v 0, addr := .s 0, order := .release }, .gatecfg { g0 with a := .s 1 }, .gdispatch { g0 with a := .s 4 },
    .mbmark { g0 with a := .v 0 }, .ertopDefine { g0 with a := .k 0 }, .ertopRead { g0 with a := .k 0, dst := .v 0, opx := 5 }, .taskdef { g0 with a := .k 0, b := .s 1 },
    .taskdepSet { g0 with a := .k 0, b := .k 1 }, .kstat { g0 with dst := .v 0, opx := 6 }, .npost { g0 with a := .s 8 }, .npoll { g0 with dst := .s 4, a := .k 0 },
    .larm { g0 with a := .k 0, b := .s 4 }, .launch { g0 with a := .s 1 }, .srr { g0 with dst := .s 2, opx := 14 }, .srw { g0 with a := .s 2, opx := 1 },
    .tlbinvAll { g0 with opx := 2 }, .biasflipDev { g0 with a := .s 2 }, .migrateLocal { g0 with a := .s 2 }, .capset { g0 with a := .k 0, b := .s 8 },
    .mappg { g0 with dst := .s 2, a := .s 2, b := .k 0 }, .trap { g0 with a := .b 0 }, .retfEsc { g0 with opx := 2 }, .ctrread { g0 with dst := .s 1 },
    .movA32 { vd := 0, nowb := false, a := .v 0, b := .v 1 }, .iaddA32 { vd := 0, nowb := false, a := .v 0, b := .unused },
    .ldsA32 { vd := 0, nowb := false, a := .q 0, b := .v 0 }] : List Instr).all (fun i => !i.wf) = true := by decide

/-! ## Words written out field by field from the layouts of R226 to R254 -/

theorem test_decode_control :
    decodeTableWord 64 0x00007FFFFFDBFC2B = some (.exit { g0 with pred := { neg := true, idx := 3 } }) ∧
    decodeTableWord 64 0x00807FFFE9BBFC37 = some (.waitcnt { g0 with a := .k 3, opx := 2 }) ∧
    decodeTableWord 64 0x00407FFFFFBBFC3F = some (.psplit { g0 with opx := 1 }) ∧
    decodeTableWord 64 0xFFFFFFFA7FD00013 = some (.brany { pred := { neg := true, idx := 2 }, tgt := .unused, off := 4294967290 }) ∧
    decodeTableWord 64 0xFFFFFF3C0168000B = some (.brc { cond := .flt, a := .v 5, b := .c 0, off := 67108860 }) ∧
    decodeTableWord 64 0x000000005F38001B = some (.jmp { pred := { neg := false, idx := 7 }, tgt := .s 62, off := 0 }) := by
  decide +kernel

theorem test_decode_integer :
    decodeTableWord 64 0x0020E04103381093 = some (.imad { g0 with dst := .v 4, a := .v 6, b := .s 2, c := .b 0, ty := .n32, sat := true }) ∧
    decodeTableWord 64 0x00017F83820808BB = some (.sar { g0 with dst := .v 2, pred := { neg := false, idx := 1 }, a := .v 4, b := .v 7, ty := .i64 }) ∧
    decodeTableWord 64 0x00C1FFC4433A10DF = some (.lea { g0 with dst := .s 4, a := .s 6, b := .s 8, ty := .n64, opx := 3 }) ∧
    decodeTableWord 64 0xFFFFFFF900B810F3 = some (.movi { dst := .v 4, nowb := false, pred := { neg := false, idx := 7 }, ext := .sx, imm := 0xFFFFFFF9 }) ∧
    decodeTableWord 64 0x01027FF780BB48E3 = some (.iset { g0 with dst := .p 2, a := .v 1, b := .k 31, ty := .i16x2, opx := 4 }) := by
  decide +kernel

theorem test_decode_exchange :
    decodeTableWord 64 0x01DC7FFF84BA0D0F = some (.redux { g0 with dst := .s 3, a := .v 9, ty := .f32, rnd := .rup, opx := 7 }) ∧
    decodeTableWord 64 0x004681E881380503 = some (.shfl { g0 with dst := .v 1, a := .v 2, b := .k 1, c := .v 3, ty := .b32, opx := 1 }) ∧
    decodeTableWord 64 0x00077FFF8638290B = some (.matchLanes { g0 with dst := .v 10, a := .v 12, ty := .b64 }) := by
  decide +kernel

theorem test_decode_float :
    decodeTableWord 64 0x00F48579043C194F = some (.ffma { g0 with dst := .v 6, nowb := true, a := .v 8, b := .c 2, c := .v 10, ty := .f64, rnd := .rdn, sat := true, opx := 3 }) ∧
    decodeTableWord 64 0x01C5FF8100BB555B = some (.fset { g0 with dst := .p 5, a := .v 1, b := .v 2, ty := .bf16x2, opx := 7 }) ∧
    decodeTableWord 64 0x000C7FFF81380583 = some (.cvt { g0 with dst := .v 1, a := .v 2, ty := .f32, rnd := .rtz }) ∧
    decodeTableWord 64 0x0100FFFFFFB81193 = some (.rng { g0 with dst := .v 4, ty := .n32, opx := 4 }) ∧
    decodeTableWord 64 0x0046FFFFC4BA0597 = some (.fstatClear { g0 with dst := .s 1, a := .s 9, ty := .b32, opx := 1 }) := by
  decide +kernel

theorem test_decode_memory :
    decodeTableWord 64 0x0EA7FFF8413811C3 = some (.ld { m0 with data := .v 4, base := .s 2, width := .b128, off := 1048560, order := .acquire, scope := .system, sel := 1 }) ∧
    decodeTableWord 64 0x55980000053821D7 = some (.atom { m0 with data := .v 8, base := .v 10, width := .b64, order := .acqRel, scope := .grid, sel := 2, ext := 1 }) ∧
    decodeTableWord 64 0x58400020483811DF = some (.cpl { m0 with data := .v 4, base := .s 16, width := .cp32, off := 64, sel := 3, ext := 1 }) ∧
    decodeTableWord 64 0x70100000413B41FF = some (.waitc { m0 with data := .k 0, base := .s 2, width := .b32, sel := 6, ext := 1 }) ∧
    decodeTableWord 64 0x21406C42413BFDEF = some (.smap { g0 with a := .s 2, b := .s 4, c := .k 8, opx := 5, hint := 2 }) ∧
    decodeTableWord 64 0x0186ED69423BFDFB = some (.bxferRed { g0 with a := .s 4, b := .k 2, c := .k 10, ty := .b32, opx := 6 }) := by
  decide +kernel

theorem test_decode_synchronisation :
    decodeTableWord 64 0x00807FE8EFBBFE47 = some (.bararrDrop { g0 with a := .k 15, b := .k 1, opx := 2 }) ∧
    decodeTableWord 64 0x02407FEA40BBFE57 = some (.qcfg { g0 with a := .s 1, b := .k 4, opx := 9 }) ∧
    decodeTableWord 64 0x0001FFC4EFBA0A5B = some (.append { g0 with dst := .s 2, a := .k 15, b := .s 9, ty := .n64 }) := by
  decide +kernel

theorem test_decode_matrix :
    decodeTableWord 64 0x0210800101B8029B = some (.mma { x0 with tid := 3, slot := 2, flags := 1, reg := .s 4 }) ∧
    decodeTableWord 64 0x001A5F0483B80E9F = some (.mmasp { x0 with tile := 3, tid := 7, slot := 9, mslot := 31, reg := .k 2 }) ∧
    decodeTableWord 64 0x0210400004B812A3 = some (.mstAdd { x0 with tile := 4, tid := 9, flags := 1, reg := .s 2 }) ∧
    decodeTableWord 64 0x00E200000039FEAB = some (.mwra { x0 with tile := 127, cnt := 7, reg := .v 16 }) ∧
    decodeTableWord 64 0x001A20007FB802B3 = some (.ringput { x0 with tid := 255, reg := .k 1 }) ∧
    decodeTableWord 64 0x0086FFFFFFB806BF = some (.mstat { g0 with dst := .v 1, ty := .b32, opx := 2 }) := by
  decide +kernel

theorem test_decode_grid :
    decodeTableWord 64 0x000007FCFFBA2303 = some (.gpat { q0 with data := .s 8, gp := 9 }) ∧
    decodeTableWord 64 0x00F5143141000B0F = some (.gred { q0 with data := .v 2, pred := { neg := false, idx := 0 }, addr := .s 2, cw := .s 6, gp := 2, width := 2, gop := 10, gflags := 1, order := .release, scope := .system }) ∧
    decodeTableWord 64 0x005C9FFF83381313 = some (.gatom { q0 with data := .v 4, addr := .v 6, gp := 15, width := 3, gop := 9, order := .acqRel, scope := .grid }) ∧
    decodeTableWord 64 0x0900142744380B17 = some (.gscan { q0 with data := .v 2, addr := .s 8, cw := .s 4, gp := 14, width := 2, gflags := 2, gext := 1 }) ∧
    decodeTableWord 64 0x00800430C23A331B = some (.gcopy { q0 with data := .s 12, addr := .s 4, cw := .s 6, gp := 1, gflags := 1 }) ∧
    decodeTableWord 64 0x005007F87FBBFF1F = some (.gfence { q0 with order := .release, scope := .grid }) := by
  decide +kernel

theorem test_decode_experts :
    decodeTableWord 64 0x00807FEA443BFF47 = some (.gdispatch { g0 with a := .s 8, b := .k 4, opx := 2 }) ∧
    decodeTableWord 64 0x01407FFFC1BA1B4F = some (.ertopRead { g0 with dst := .s 6, a := .s 3, opx := 5 }) ∧
    decodeTableWord 64 0x0000426968BA0F57 = some (.taskdepSet { g0 with dst := .s 3, a := .k 1, b := .k 2, c := .s 4 }) ∧
    decodeTableWord 64 0x01407FFFE938075B = some (.kstat { g0 with dst := .v 1, a := .k 2, opx := 5 }) := by
  decide +kernel

theorem test_decode_network :
    decodeTableWord 64 0x00007FFFC83BFF63 = some (.npost { g0 with a := .s 16 }) ∧
    decodeTableWord 64 0x00007FFFE93A236B = some (.npoll { g0 with dst := .s 8, a := .k 2 }) ∧
    decodeTableWord 64 0x00007FD469BBFF6F = some (.larm { g0 with a := .k 3, b := .s 40 }) := by
  decide +kernel

theorem test_decode_system :
    decodeTableWord 64 0x03407FFFC23BFF87 = some (.srw { g0 with a := .s 4, opx := 13 }) ∧
    decodeTableWord 64 0x00407FE97FBBFF8B = some (.tlbinvContext { g0 with b := .k 2, opx := 1 }) ∧
    decodeTableWord 64 0x0040427FC13BFF93 = some (.migrateRemote { g0 with a := .s 2, c := .s 4, opx := 1 }) ∧
    decodeTableWord 64 0x00007FEB82480B9B = some (.mappg { g0 with dst := .v 2, pred := { neg := true, idx := 1 }, a := .v 4, b := .k 7 }) ∧
    decodeTableWord 64 0x00407FFF818BFF9F = some (.trapDbg { g0 with pred := { neg := false, idx := 1 }, a := .v 3, opx := 1 }) := by
  decide +kernel

theorem test_decode_short :
    decodeTableWord 16 0xBFE0 = some (.movC16 { vd := 31, src := .s 15 }) ∧
    decodeTableWord 16 0xFC2E = some (.shlC16 { vd := 1, src := .k 7 }) ∧
    decodeTableWord 16 0xDC5C = some (.fminC16 { vd := 2, src := .b 7 }) ∧
    decodeTableWord 32 0xC3017F11 = some (.imadA32 { vd := 127, nowb := false, a := .v 1, b := .b 3 }) ∧
    decodeTableWord 32 0xFF85833D = some (.clzA32 { vd := 3, nowb := true, a := .s 5, b := .unused }) ∧
    decodeTableWord 32 0xD4020171 = some (.shflXorA32 { vd := 1, nowb := false, a := .v 2, b := .k 4 }) ∧
    decodeTableWord 32 0x83010975 = some (.ldsA32 { vd := 9, nowb := false, a := .v 1, b := .s 3 }) ∧
    decodeTableWord 32 0xFFFFFEE5 = some (.callA32 0xFFFFFE) := by
  decide +kernel

/-! ## A small machine: one launch, one block, one pack of width 8 whose only fragment issues; its pages map to themselves -/

def slice : Slice := { lanes := List.replicate 4 {}, mask := 0xF, live := 0xF }
def frag : Fragment := { pc := 0x1000, slices := 3 }
def pack : Pack := { pidx := 0, pos := 0, width := 8, slot := 0, slices := [slice, slice], frags := [frag] }
def lch : Launch := { lid := 1, packet := BitVec.ofNat 1024 (probePacket 0x1000 0x100007000), region := 0x100007000, ctx := 0, args := 0,
                      arg0 := some 0, det := false, strict := false, prio := 0, quantum := 4096, next := 1 }
def blk : Block := { bid := 2, launch := 1, linear := 0, core := 0, base := 0, packs := [], tdbase := 0x100010000, capbase := 0x100014000 }

/-- Two mebibytes of bonded DRAM that map to themselves, with every permission. -/
def leaf : TlbEntry := { place := .core 0, ctx := 0, va := 0x100000000, k := 21, leaf := BitVec.ofNat 64 (0x100000000 + 0x2F) }

def world (p : Pack) (b : Block) (l : Launch) : State :=
  { State.reset with launches := [l], blocks := [{ b with packs := [p] }], cur := some { blk := 2, pidx := 0, pos := 0, frag := 0 },
                     nextId := 3, tlb := [leaf], sys := { budgetcfg := 0 }, cores := [(0, { lfsr := 1, awake := 0xFFFF })] }
def who (p : Pack) (b : Block) (l : Launch) : Issuer :=
  { ref := { blk := 2, pidx := 0, pos := 0, frag := 0 }, b := { b with packs := [p] }, p := p, f := p.frags.headD frag, l := l }

/-- The pack with another fragment, with uniform registers, in the handler. -/
def packF (f : Fragment) : Pack := { pack with frags := [f] }
def packS (s : List (Nat × Word)) : Pack := { pack with s := s }
def saved : SavedSlice := { mask := 0xF, stack := [], fpstat := 0, preds := [0, 0, 0, 0] }
def supFrag : Fragment := { frag with frame := some { info := { cause := 0x13, pc := 0x1000 }, slices := 3, saved := [saved, saved], latches := [],
                                                      resume := 0x1000 } }
def pc0 : DWord := 0x1000

/-! ## Witnesses: computing instructions -/

/-- The operands of every form, up to the last register that the launch gives (v127 and s63). -/
theorem test_witness_computing : IssuesAlone (world pack blk lch) (who pack blk lch) ∧ (let w := world pack blk lch; let e := who pack blk lch
    ∀ g ∈ [{ g0 with dst := .v 127, a := .v 126, b := .s 62, c := .s 63 }, { g0 with dst := .v 126, a := .v 124, b := .s 62, c := .c 7, ty := Ty.b64 },
           { g0 with dst := .s 62, a := .k 1, b := .s 8, ty := .i64 }, { g0 with dst := .null, a := .v 0, b := .v 1 },
           { g0 with dst := .p 7, a := .v 0, b := .v 1, c := .v 2 }, { g0 with dst := .v 124, a := .v 124, b := .v 1, ty := .f32, pred := { all with neg := true } }],
      ∀ srcs ∈ [srcs3 g, srcsShift g, [cvtiOpnd g], [opn g.a g.ty], [opn g.a g.ty, opn32 g.b], [opn g.a g.ty, opn g.b g.ty, opn32 g.c],
                [opn g.a g.ty, leaSrc g], [opn g.a (cvtTy g.opx.toNat), opn g.b (cvtTy g.opx.toNat)],
                [opn g.a g.ty, { src := g.b, ty := .i32, wide := false }], [opn g.a g.ty, opn32 g.b, opn g.c g.ty], [opn32 g.a], []],
        operandCause e (activeLanes e g.pred) srcs g.dst (nregs g.ty) = none ∧ queueWait w e (activeLanes e g.pred) srcs g.dst = none) := by
  refine ⟨⟨⟨rfl, rfl⟩, rfl⟩, ?_⟩
  decide +kernel

/-- A pop that empties a queue and a push that fills another. -/
def packQ : Pack := { pack with qbind := [{ q := 0, off := 0, push := false }, { q := 1, off := 64, push := true }] }
def blkQ : Block := { blk with queues := [(0, { cap := 1, width := 8, elems := [List.replicate 8 5], popped := true }),
                                          (64, { cap := 1, width := 8, pushed := true })] }
theorem test_witness_queues : Issues (world packQ blkQ lch) (who packQ blkQ lch) ∧ (let w := world packQ blkQ lch; let e := who packQ blkQ lch
    let g := { g0 with dst := .q 1, a := .q 0, b := .k 1 }
    OperandsReady w e g.pred (srcs3 g) g.dst (nregs g.ty)) := ⟨⟨rfl, rfl⟩, by decide +kernel, by decide +kernel⟩

/-- MOVSR of a fault register in supervisor mode; MOVI of every form; RNG and TF8UP into four registers; FSTAT. -/
theorem test_witness_moves_draws : (Issues (world (packF supFrag) blk lch) (who (packF supFrag) blk lch) ∧
    (srSup .faultmask = true ∧ inSup supFrag = true) ∧ srSup .laneid = false) ∧ (let w := world (packF supFrag) blk lch; let e := who (packF supFrag) blk lch
    (∀ x ∈ [([], Dst.v 120, 1), ([], .v 126, 2), ([], .s 62, 2), ([], dstHigh (.v 126), 1), ([], .p 6, 1), ([], .v 124, 4),
            (tf8pkSrcs { g0 with a := .v 124, c := .k 0, ty := .tf8x4 }, .v 0, 1),
            (tf8pkSrcs { g0 with a := .v 4, b := .v 5, c := .k 0, ty := .tf8x4, opx := 2 }, .v 0, 1)],
      operandCause e (activeLanes e all) x.1 x.2.1 x.2.2 = none ∧ queueWait w e (activeLanes e all) x.1 x.2.1 = none)) := by
  refine ⟨⟨⟨rfl, rfl⟩, by decide⟩, ?_⟩
  decide +kernel

/-- A latch that holds a result, and the operands of the short forms. -/
def latched : Pack := packF { frag with latches := List.replicate 8 { vals := [(0, 9)], valid := true } }
theorem test_witness_short : Issues (world latched blk lch) (who latched blk lch) ∧ (let w := world latched blk lch; let e := who latched blk lch
    (∀ c ∈ [{ vd := 31, src := Src6.v 31 }, { vd := 0, src := .s 15 }, { vd := 1, src := .b 7 }, { vd := 2, src := .k 7 }],
      ∀ t ∈ [Ty.i32, .n32, .b32, .f32], ∀ srcs ∈ [[src6Opnd t c.src], c16Srcs c t],
        operandCause e (activeLanes e alwaysPred) srcs (.v (c.vd.setWidth 7)) 1 = none ∧ queueWait w e (activeLanes e alwaysPred) srcs (.v (c.vd.setWidth 7)) = none) ∧
    (∀ x ∈ [{ vd := 127, nowb := true, a := Src.v 127, b := .s 63 }, { vd := 0, nowb := false, a := .b 7, b := .k 0 }],
      ∀ t ∈ [Ty.i32, .b32, .f32, .f16x2, .bf16x2], ∀ srcs ∈ [[opn x.a t], a32Srcs x t, a32Acc x t, [opn x.a t, opn32 x.b], [opn x.a .b32, opn32 x.b, opn .unused .b32]],
        operandCause e (activeLanes e alwaysPred) srcs (.v x.vd) 1 = none ∧ queueWait w e (activeLanes e alwaysPred) srcs (.v x.vd) = none)) := by
  refine ⟨⟨rfl, rfl⟩, ?_⟩
  decide +kernel

/-! ## Witnesses: control and regrouping -/

def packL (lo hi : Word) : Pack := packS [(62, lo), (63, hi)]

/-- Targets at both ends of the address space, and beyond: odd, and 2^57. -/
theorem test_witness_targets : IssuesAlone (world (packL 0 0) blk lch) (who (packL 0 0) blk lch) ∧
    (let e := who (packL 0 0) blk lch
     ValidTarget (e.f.pc + 2 * ((0 - 0x800 : BitVec 32).signExtend 64)) ∧ ValidTarget 0 ∧ ValidTarget (2 ^ 57 - 2) ∧
     uniCause e [{ src := .s 62, ty := .b64, wide := true }] = none) ∧
    IssuesAlone (world (packL 1 0) blk lch) (who (packL 1 0) blk lch) ∧ ¬ ValidTarget 1 ∧
    IssuesAlone (world (packL 0 0x2000000) blk lch) (who (packL 0 0x2000000) blk lch) ∧ ¬ ValidTarget (2 ^ 57) := by
  refine ⟨⟨⟨rfl, rfl⟩, rfl⟩, by unfold ValidTarget; decide +kernel, ⟨⟨rfl, rfl⟩, rfl⟩, by unfold ValidTarget; decide +kernel,
    ⟨⟨rfl, rfl⟩, rfl⟩, by unfold ValidTarget; decide +kernel⟩

/-- BRC's operands; a BRV that diverges on p0 with a stack of three entries, and with a full one. -/
def stacked (n : Nat) : Pack :=
  { pack with slices := [{ slice with lanes := { p := 1 } :: List.replicate 3 {}, stack := List.replicate n { join := 0x2000, pendPc := 0x1800, pend := 0, saved := 0xF } }, slice] }
theorem test_witness_branches : IssuesAlone (world (stacked 3) blk lch) (who (stacked 3) blk lch) ∧
    IssuesAlone (world (stacked 4) blk lch) (who (stacked 4) blk lch) ∧
    (let e := who (stacked 3) blk lch; let pr : Pred := { neg := false, idx := 0 }
     operandCause e ((fragSlices e.p e.f).map fun k => lowestLane (sliceOf e.p k) k) [opn (.v 127) .b32, opn (.k 31) .b32] .null 1 = none ∧
     (∀ k ∈ fragSlices e.p e.f, diverges e.p pr k = true → (sliceOf e.p k).stack.length < 4) ∧ diverges e.p pr 0 = true) ∧
    (let e := who (stacked 4) blk lch; let pr : Pred := { neg := false, idx := 0 }
     ∃ k ∈ fragSlices e.p e.f, diverges e.p pr k = true ∧ 4 ≤ (sliceOf e.p k).stack.length) := by
  refine ⟨⟨⟨rfl, rfl⟩, rfl⟩, ⟨⟨rfl, rfl⟩, rfl⟩, by decide +kernel, by decide +kernel⟩

/-- HOLD 0 that just fits its run, and one that does not. -/
theorem test_witness_hold : IssuesAlone (world (packF { frag with slots := 62 }) blk lch) (who (packF { frag with slots := 62 }) blk lch) ∧
    IssuesAlone (world (packF { frag with slots := 63 }) blk lch) (who (packF { frag with slots := 63 }) blk lch) ∧
    ¬ (0 < 62 ∧ 64 < 62 + (0 + 2) * slotsOf frag) ∧ (0 < 63 ∧ 64 < 63 + (0 + 2) * slotsOf frag) := by
  refine ⟨⟨⟨rfl, rfl⟩, rfl⟩, ⟨⟨rfl, rfl⟩, rfl⟩, by decide, by decide⟩

/-- WAITCNT and WAITTAG with a copy of tag 7 in flight: n = 1 is met, 0 is not; the mask 0x7F is met, 0xFF is not; and a deterministic
pack that must wait for its turn. -/
def busyPack : Pack := { pack with eng := [{ id := 1, cls := .copy, tag := some 7 }] }
def detLch : Launch := { lch with det := true }
def detBlk (p : Pack) : Block := { blk with packs := [p, { p with pidx := 1, slot := 1 }] }
theorem test_witness_waits : IssuesAlone (world busyPack blk lch) (who busyPack blk lch) ∧
    (let e := who busyPack blk lch
     uniCause e [opn (.k 0) .n32] = none ∧ needsTurn (world busyPack blk lch) e = false ∧
     (255 ≤ 1 || classCount e.p (engClassOf 4) ≤ 1) = true ∧ (255 ≤ 0 || classCount e.p (engClassOf 4) ≤ 0) = false ∧
     ((List.range 8).all fun t => !(0x7F : Nat).testBit t || tagCount e.p t == 0) = true ∧ 0xFF < 256 ∧
     ((List.range 8).all fun t => !(0xFF : Nat).testBit t || tagCount e.p t == 0) = false) := by
  refine ⟨⟨⟨rfl, rfl⟩, rfl⟩, by decide +kernel⟩

theorem test_witness_turn :
    let p := { pack with slot := 1, lclock := 5 }
    let b := { blk with packs := [{ pack with pidx := 1, slot := 0 }] }
    let s := { world p blk detLch with blocks := [{ b with packs := p :: b.packs }] }
    let e := { who p blk detLch with b := { b with packs := p :: b.packs } }
    IssuesAlone s e ∧ needsTurn s e = true := by
  refine ⟨⟨⟨rfl, rfl⟩, rfl⟩, by decide +kernel⟩

/-- REGANG: a mask beyond the pack, one without an own slice; two fragments of which one stands at the REGANG already, and not. -/
def twoFrags (st : FragState) : Pack := { pack with frags := [{ frag with slices := 1 }, { frag with slices := 2, st := st, gang := 3 }] }
theorem test_witness_regang : IssuesAlone (world pack blk lch) (who pack blk lch) ∧ uniCause (who pack blk lch) [opn (.k 4) .n32] = none ∧
    4 / 2 ^ (pack.width / 4) ≠ 0 ∧ (∃ k ∈ movedSlices pack frag, (1 : Nat).testBit k = false) ∧
    IssuesAlone (world (twoFrags .ready) blk lch) (who (twoFrags .ready) blk lch) ∧
    IssuesAlone (world (twoFrags .regang) blk lch) (who (twoFrags .regang) blk lch) ∧
    (∀ st ∈ [FragState.ready, .regang], let e := who (twoFrags st) blk lch; let f : Fragment := { e.f with st := .regang, gang := 3, since := 0 }
      3 / 2 ^ (e.p.width / 4) = 0 ∧ (∀ k ∈ movedSlices e.p e.f, (3 : Nat).testBit k = true) ∧
      regangReady (setFrag e.p 0 f) f = decide (st = .regang)) := by
  refine ⟨⟨⟨rfl, rfl⟩, rfl⟩, by decide +kernel, by decide, by decide +kernel, ⟨⟨rfl, rfl⟩, rfl⟩, ⟨⟨rfl, rfl⟩, rfl⟩, by decide +kernel⟩

/-- PSPLIT of a pack of width 16 by two, idle and not, and by four; by two of a pack of width 8. -/
def pack16 : Pack := { pack with width := 16, slices := [slice, slice, slice, slice], frags := [{ frag with slices := 15 }] }
def busy16 : Pack := { pack16 with eng := [{ id := 1, cls := .grid }] }
theorem test_witness_psplit : IssuesAlone (world pack16 blk lch) (who pack16 blk lch) ∧ IssuesAlone (world busy16 blk lch) (who busy16 blk lch) ∧
    16 / 2 = 8 ∧ 16 / 4 < 8 ∧ holdsAll pack16 (who pack16 blk lch).f = true ∧ needsRound (who pack16 blk lch) = false ∧
    engIdle pack16 = true ∧ engIdle busy16 = false ∧ pack16.width ≤ 64 ∧
    (∀ q ∈ (who pack16 blk lch).b.packs, q.pidx = pack16.pidx → pack16.pos < q.pos → pack16.pos + pack16.width / 8 ≤ q.pos) := by
  refine ⟨⟨⟨rfl, rfl⟩, rfl⟩, ⟨⟨rfl, rfl⟩, rfl⟩, by decide +kernel⟩

/-- PFUSE with a sibling that has not arrived, that has arrived, and that has arrived elsewhere. -/
def part (pos : Nat) (f : Fragment) : Pack := { packF f with pos := pos, hist := [{ width := 16, pos := 0, parts := 2 }] }
def twoParts (f : Fragment) : State :=
  { world (part 0 frag) blk lch with blocks := [{ blk with packs := [part 0 frag, part 1 f] }] }
def fuser (f : Fragment) : Issuer := { who (part 0 frag) blk lch with b := { blk with packs := [part 0 frag, part 1 f] } }
theorem test_witness_pfuse : IssuesAlone (world pack blk lch) (who pack blk lch) ∧ pack.hist = [] ∧
    (∀ f ∈ [frag, { frag with st := .pfuse }, { frag with st := .pfuse, pc := 0x1010 }],
      IssuesAlone (twoParts f) (fuser f) ∧ (let e := fuser f
      let p := setFrag e.p e.ref.frag { e.f with st := .pfuse, since := (twoParts f).tick }; let b := setPack e.b p
      e.p.hist = [{ width := 16, pos := 0, parts := 2 }] ∧ holdsAll e.p e.f = true ∧ needsRound e = false ∧
      allFused b p = decide (f.st = .pfuse) ∧ p ∈ siblings b p ∧ liveSlices p ≠ [] ∧
      (∀ x ∈ siblings b p, liveSlices x ≠ [] → x = p ∨ p.pos < x.pos) ∧ (liveFrags p).head? = some { frag with st := .pfuse } ∧
      (∃ x ∈ siblings b p, liveSlices x ≠ [] ∧ ∃ y ∈ liveFrags x, y.pc = f.pc))) := by
  refine ⟨⟨⟨rfl, rfl⟩, rfl⟩, rfl, ?_⟩
  intro f hf
  simp only [List.mem_cons, List.not_mem_nil, or_false] at hf
  obtain rfl | rfl | rfl := hf <;> exact ⟨⟨⟨rfl, rfl⟩, rfl⟩, by decide +kernel⟩

/-! ## Witnesses: memory -/

/-- Lane l holds the address 0x1001FFFC0 + 8 l in v8:v9 and the stash offset 0x8000 + 16 l in v10; s0:s1 and s2:s3 are addresses. -/
def packM : Pack :=
  { pack with slices := (List.range 2).map fun k => { slice with lanes := (List.range 4).map fun i =>
                { v := [(8, BitVec.ofNat 32 (0x1FFFC0 + 8 * (4 * k + i))), (9, 1), (10, BitVec.ofNat 32 (0x8000 + 16 * (4 * k + i)))] } },
              s := [(0, 0x20000), (1, 1), (2, 0x1FFFF0), (3, 1), (4, 0x80), (5, 0x40)] }
def wM : State := world packM blk lch
def eM : Issuer := who packM blk lch
theorem alone_wM : IssuesAlone wM eM := ⟨⟨rfl, rfl⟩, rfl⟩

/-- Eight lanes up to the last aligned address of their page, and one access for all through s2:s3. -/
theorem test_witness_loads : ∀ m ∈ [{ m0 with data := .v 126, base := .v 8, width := .b64 }, { m0 with data := .s 60, base := .s 2, width := .b128 },
      { m0 with data := .unused, base := .v 8, width := .b8, ext := 1, off := 7 }],
    let act := activeLanes eM m.pred
    operandCause eM act [baseOpnd m false] (dstOf m.data) (widthRegs m.width) = none ∧
    Reaches wM eM .read (widthBytes m.width) (accessLanes m act) (m64Addr eM m false) (m64Addr eM m false) ∧
    strictRace wM eM ((accessLanes m act).map (m64Addr eM m false)) = false ∧
    ∀ l ∈ accessLanes m act, gPoisoned wM (m64Addr eM m false l) (widthBytes m.width) = false := by
  unfold Reaches
  decide +kernel

/-- Aligned accesses apart from each other; and lanes that all meet. -/
theorem test_witness_stores : buffered eM = false ∧ wM.hi.mbhost.getLsbD 32 = false ∧
    (∀ m ∈ [{ m0 with data := .v 4, base := .v 8, width := .b64 }, { m0 with data := .v 124, base := .v 8, width := .b64, sel := 2, ext := 1 }],
      let act := activeLanes eM m.pred; let n := widthBytes m.width; let pa := m64Addr eM m false
      operandCause eM act [baseOpnd m false] .null 1 = none ∧ widthPlain m.width = true ∧ Reaches wM eM .write n act pa pa ∧ Apart n act pa ∧
      (∀ l ∈ act, isReg (pa l) = false ∧ Unowned wM (pa l) n) ∧ (∀ l ∈ act, gPoisoned wM (pa l) n = false) ∧
      regsCause eM act m.data (widthRegs m.width) = none ∧ regsCause eM act m.data (if atomOp m = 9 then 2 * widthRegs m.width else widthRegs m.width) = none) ∧
    (let m : M64 := { m0 with data := .v 4, base := .s 0 }; let act := activeLanes eM m.pred; let pa := m64Addr eM m false
     operandCause eM act [baseOpnd m false] .null 1 = none ∧ Reaches wM eM .write 4 act pa pa ∧ regsCause eM act m.data 1 = none ∧ ¬ Apart 4 act pa) := by
  unfold Reaches Apart Unowned
  decide +kernel

/-- Stash bytes of bound regions whose lines are absent, which LDS and STS fill, and the same bytes where no region is bound. -/
def blkR : Block := { blk with regions := [{ idx := 0, off := 0x8000, va := 0x100040000, lines := 1, mode := .rw },
                                           { idx := 5, off := 0x8080, va := 0x100050000, lines := 1, mode := .rw }] }
def wR : State := world packM blkR lch
def eR : Issuer := who packM blkR lch
theorem test_witness_stash : IssuesAlone wR eR ∧
    (∀ m ∈ [{ m0 with data := .v 4, base := .v 10, width := .b128 }, { m0 with data := .v 4, base := .v 10, off := 0xFF8000, width := .b8 }],
      let act := activeLanes eR m.pred; let n := widthBytes m.width; let addr := m64Addr eR m true
      operandCause eR act [baseOpnd m true] (dstOf m.data) (widthRegs m.width) = none ∧ operandCause eR act [baseOpnd m true] .null 1 = none ∧
      regsCause eR act m.data (widthRegs m.width) = none ∧
      (∀ l ∈ act, laneStashCheck wR eR true n n (addr l) = none ∧ laneStashCheck wR eR false n n (addr l) = none) ∧
      stashStall wR eR n (act.map addr) = none ∧ Apart n act addr ∧
      fillLines wM eM (act.map fun l => (addr l, n)) = wM ∧ getBlock wM 2 = some eM.b ∧ ∀ l ∈ act, stashPoisoned eM.b (addr l) n = false) ∧
    (let x : A32 := { vd := 0, nowb := false, a := .v 10, b := .k 0 }; let act := maskLanes eR.p eR.f
     let addr := fun l => (opndVal eR (opn32 x.a) l + opndVal eR (opn32 x.b) l) % 2 ^ 32
     operandCause eR act [opn32 x.a, opn32 x.b] (.v x.vd) 1 = none ∧ (∀ l ∈ act, laneStashCheck wR eR false 4 4 (addr l) = none) ∧
     stashStall wR eR 4 (act.map addr) = none) := by
  refine ⟨⟨⟨rfl, rfl⟩, rfl⟩, ?_⟩
  unfold Apart
  decide +kernel

/-- A buffer that these stores fill exactly, and one that they would overflow by a byte. -/
def packD (n : Nat) : Pack := { packM with buf := [.mem 0x100000000 (List.replicate n 0)] }
theorem test_witness_buffered (n : Nat) : IssuesAlone (world (packD n) blk detLch) (who (packD n) blk detLch) ∧ buffered (who (packD n) blk detLch) = true ∧
    (packD n).buf ≠ [] ∧ bufBytes (packD n).buf = n ∧
    (let e := who packM blk detLch; let w := world packM blk detLch; let m : M64 := { m0 with data := .v 4, base := .v 8 }; let act := activeLanes e m.pred
     regsCause e act m.data 1 = none ∧ operandCause e act [baseOpnd m false] .null 1 = none ∧
     (∀ l ∈ act, m64Addr e m false l % 4 = 0 ∧ xlate w e.l.ctx (inSup e.f) .write (m64Addr e m false l) = .ok (m64Addr e m false l)) ∧
     bufBytes (act.map fun l => BufOp.mem (m64Addr e m false l) (leBytes 4 0)) = 32768 - 32736) := by
  refine ⟨⟨⟨rfl, rfl⟩, rfl⟩, rfl, by simp [packD], by simp [packD, bufBytes], by decide +kernel⟩

/-- DISCARD of two sectors of a page that may be written, and of none; PREF. -/
theorem test_witness_hints : let m : M64 := { m0 with data := .s 5, base := .s 0, width := .b8 }
    let lo := (m64Addr eM m false 0 + 31) / 32 * 32; let hi := (m64Addr eM m false 0 + regsVal eM m.data 1 0) / 32 * 32
    operandCause eM (activeLanes eM m.pred) [baseOpnd m false] .null 1 = none ∧ regsCause eM (activeLanes eM m.pred) m.data 1 = none ∧ lo < hi ∧
    xlateRange wM eM.l.ctx (inSup eM.f) .write lo (hi - lo) = .ok [(0x100020000, 0x100020000)] := by decide +kernel

/-- A range of one line beside two bound regions; region 5 is bound, region 3 is not. -/
theorem test_witness_regions : needsRound eR = false ∧ (let g := { g0 with a := .s 0, b := .c 0, c := .k 1, opx := 3 }
    let off := 0x8100; let va := opndVal eR (opn g.a .b64) 0; let n := uniVal eR g.c
    uniCause eR [opn g.a .b64, opn32 (.s 4), opn32 g.c] = none ∧ off % 128 = 0 ∧ va % 128 = 0 ∧ 1 ≤ n ∧ n ≤ 8192 ∧
    off + 128 * n ≤ stashBytes eR.l ∧ va < 2 ^ 57 ∧
    (∀ r ∈ eR.b.regions, r.idx ≠ 3 → (off + 128 * n ≤ r.off ∨ r.off + 128 * r.lines ≤ off) ∧ (va + 128 * n ≤ r.va ∨ r.va + 128 * r.lines ≤ va)) ∧
    (eR.b.regions.find? fun r => r.idx == 5).isSome = true ∧ (eR.b.regions.find? fun r => r.idx == 3) = none) := by decide +kernel

/-- Two lines with distinct homes, one dirty. -/
def blkL : Block := { blkR with lines := [{ line := 256, pa := 0x100040000, dirty := 1, written := 1 }, { line := 257, pa := 0x100050000, dirty := 0, written := 0 }] }
theorem test_witness_release : getBlock (world packM blkL lch) 2 = some (who packM blkL lch).b ∧ (world packM blkL lch).hi.mbhost.getLsbD 32 = false ∧
    (blkL.lines.map (·.pa)).Nodup ∧ (∀ l ∈ blkL.lines, l.pa % 128 = 0) ∧ (blkL.regions.find? fun r => r.idx == 5).isSome = true :=
  ⟨rfl, by decide +kernel⟩

/-- CPL of 32 bytes in each lane, of no byte, and with no lane. -/
theorem test_witness_cpl : needsRound eM = false ∧ (∀ m ∈ [{ m0 with data := .v 10, base := .v 8, width := .cp8, sel := 7 },
      { m0 with data := .s 4, base := .s 2, width := .cp16, ext := 1 }],
    let act := activeLanes eM m.pred; let xs := cplLanes eM m act; let pa := m64Addr eM m false
    operandCause eM act [baseOpnd m false] .null 1 = none ∧ regsCause eM act m.data (if m.ext = 1 then 2 else 1) = none ∧
    (∀ x ∈ xs, cplCheck wM eM m x = none) ∧ act ≠ [] ∧ hasRoom eM.p 4 (some m.sel.toNat) = true ∧ scoreUsed wM eM.b.core = 0 ∧
    (∀ x ∈ xs, if x.2.2 = 0 then True else xlate wM eM.l.ctx (inSup eM.f) .read (pa x.1) = .ok (pa x.1)) ∧
    memHold wM eM ((xs.filter fun x => x.2.2 != 0).map fun x => pa x.1) = none ∧
    strictRace wM eM ((xs.filter fun x => x.2.2 != 0).map fun x => pa x.1) = false) ∧
    activeLanes eM { neg := true, idx := 7 } = [] := by decide +kernel

/-- BXFER of 16 bytes and of 2 MiB less: the streamer right, a barrier, the checks of R339. -/
def packX : Pack := { packM with streamer := true, s := [(0, 0x20000), (1, 1), (2, 0), (3, 16), (4, 0x20000), (5, 1), (6, 0xFF0), (7, 16)] }
def blkX : Block := { blk with barriers := [(15, { expected := 1 })] }
theorem test_witness_bxfer : IssuesAlone (world packX blkX lch) (who packX blkX lch) ∧ (let e := who packX blkX lch; let w := world packX blkX lch
    needsRound e = false ∧ ∀ g ∈ [{ g0 with a := .s 0, b := .k 15 }, { g0 with a := .s 4, c := .k 10, ty := Ty.b32, opx := 2 }],
      let va := (bxferArgs e g).1; let off := (bxferArgs e g).2.1; let len := (bxferArgs e g).2.2.1; let bar := (bxferArgs e g).2.2.2
      regsCause e [] g.a 4 = none ∧ uniCause e [opn32 g.b, opn32 g.c] = none ∧ hasRoom e.p 0 none = true ∧ scoreUsed w e.b.core < 1 ∧
      len = 16 ∧ bxferCause w e .read va off len bar true = none ∧ bxferCause w e .write va off len bar false = none ∧
      redCodeOk .b32 10 = true ∧ uniCause e [opn32 g.c] = none ∧ xlateRange w e.l.ctx (inSup e.f) .write va len = .ok [(0x100020000, 0x100020000)] ∧
      memHold w e [0x100020000] = none ∧ strictRace w e [0x100020000] = false) := by
  refine ⟨⟨⟨rfl, rfl⟩, rfl⟩, by decide +kernel⟩

/-- WAITC of a word that reads zero against 0 (met) and against 1 (not), in memory and in the stash. -/
theorem test_witness_waitc : needsTurn wM eM = false ∧ (∀ k ∈ [0, 1], let m : M64 := { m0 with data := .k k, base := .s 0 }
    operandCause eM (activeLanes eM m.pred) [baseOpnd m false] .null 1 = none ∧ regsCause eM (activeLanes eM m.pred) m.data 1 = none ∧
    m64Addr eM m false 0 % 4 = 0 ∧ xlate wM eM.l.ctx (inSup eM.f) .read (m64Addr eM m false 0) = .ok 0x100020000 ∧
    gPoisoned wM 0x100020000 4 = false ∧ waitcTest 0 4 (seeNat wM 0x100020000 4) (opndVal eM (opn m.data .b32) 0) = decide (k = 0)) ∧
    (∀ k ∈ [0, 1], let m : M64 := { m0 with data := .k k, base := .s 4, ext := 1 }; let a := m64Addr eM m true 0
    operandCause eM (activeLanes eM m.pred) [baseOpnd m true] .null 1 = none ∧ laneStashCheck wM eM false 4 4 a = none ∧ stashStall wM eM 4 [a] = none ∧
    fillLines wM eM [(a, 4)] = wM ∧ getBlock wM 2 = some eM.b ∧ stashPoisoned eM.b a 4 = false ∧
    waitcTest 0 4 (stashReadNat eM.b a 4) (opndVal eM (opn m.data .b32) 0) = decide (k = 0)) := by decide +kernel

/-! ## Witnesses: barriers, queues, ordered append -/

def blkB (x : Barrier) : Block := { blk with barriers := [(15, x)] }

/-- Barrier 15 at the ends of its ranges: counts up to 4,095 and down to 1, bytes up to 2^40 − 1, a first arrival, phases. -/
theorem test_witness_barriers : (∀ x ∈ [({ expected := 4094, arrived := 1 } : Barrier), { expected := 2, arrived := 1, arrivals := [(0, 7)], phase := 8, posted := 2 ^ 40 - 2 }],
      let b := blkB x; let w := world pack b lch; let e := who pack b lch
      IssuesAlone w e) ∧ (let x : Barrier := { expected := 4094, arrived := 1 }; let e := who pack (blkB x) lch; let w := world pack (blkB x) lch
      uniCause e [opn32 (.k 15), opn32 (.k 1)] = none ∧ needsTurn w e = false ∧ barFree w e.b 14 = true ∧ barFree w e.b 15 = false ∧
      getBar e.b 15 = some x ∧ holdsAll e.p e.f = true ∧ (packId e.p, x.phase) ∉ x.arrivals ∧ (x.arrived ≤ x.expected + 1 ∧ 1 ≤ x.expected + 1 ∧ x.expected + 1 ≤ 4095) ∧
      4095 < x.expected + 2 ∧ x.phase = waitPhase x e.p ∧ dstCause e (maskLanes e.p e.f) (.s 63) 1 = none ∧ 15 < uniVal e (.k 16) ∧ getBar e.b 0 = none) ∧
    (let x : Barrier := { expected := 2, arrived := 1, arrivals := [(0, 7)], phase := 8, posted := 2 ^ 40 - 2 }; let e := who pack (blkB x) lch
      getBar e.b 15 = some x ∧ (x.arrived + 1 ≤ x.expected ∧ 1 + 1 ≤ x.expected) ∧ (x.expected < 2 + 1 ∨ x.expected < x.arrived + 2) ∧ x.phase ≠ waitPhase x e.p ∧
      x.posted + 1 < 2 ^ 40 ∧ 2 ^ 40 ≤ x.posted + 2) := by
  refine ⟨?_, by decide +kernel, by decide +kernel⟩
  intro x hx
  simp only [List.mem_cons, List.not_mem_nil, or_false] at hx
  obtain rfl | rfl := hx <;> exact ⟨⟨rfl, rfl⟩, rfl⟩

/-- A second arrival in a phase; an arrival of a fragment without every live slice. -/
theorem test_witness_barrier_misuse : (let x : Barrier := { expected := 2, arrived := 1, arrivals := [(0, 8)], phase := 8 }; let e := who pack (blkB x) lch
      IssuesAlone (world pack (blkB x) lch) e ∧ (packId e.p, x.phase) ∈ x.arrivals) ∧
    IssuesAlone (world (twoFrags .ready) (blkB { expected := 2 }) lch) (who (twoFrags .ready) (blkB { expected := 2 }) lch) ∧
    holdsAll (twoFrags .ready) { frag with slices := 1 } = false := by
  refine ⟨⟨⟨⟨rfl, rfl⟩, rfl⟩, by decide +kernel⟩, ⟨⟨rfl, rfl⟩, rfl⟩, by decide +kernel⟩

/-- QCFG: a new queue of one element and of 255, the second end of one, an unbinding. -/
theorem test_witness_qcfg : IssuesAlone (world pack blk lch) (who pack blk lch) ∧ IssuesAlone (world packQ blkQ lch) (who packQ blkQ lch) ∧
    (let e := who pack blk lch
     uniCause e [opn32 (.k 0), opn32 (.k 1)] = none ∧ qcfgCause e 7 0 1 true = none ∧ qcfgCause e 0 1024 255 false = none) ∧
    (let e := who packQ blkQ lch
     qcfgCause e 0 0 0 true = none ∧ qcfgCause e 2 0 1 true = none ∧ qcfgCause e 1 128 2 true = none ∧ needsTurn (world packQ blkQ lch) e = false) := by
  refine ⟨⟨⟨rfl, rfl⟩, rfl⟩, ⟨⟨rfl, rfl⟩, rfl⟩, by decide +kernel, by decide +kernel⟩

/-- APPEND on stream 15: the block's turn, not its turn, claimed already, and while another fragment waits for its claim. -/
def lchA (c : List Nat) : Launch := { lch with streams := [(15, { claimed := c })] }
def blkA (n : Nat) : Block := { blk with linear := n }
def packA : Pack := { pack with frags := [{ frag with slices := 1 }, { frag with slices := 2, st := .waiting, wait := .append 15 }] }
theorem test_witness_append : (∀ c ∈ [[], [0], [1], [0, 1]], IssuesAlone (world pack (blkA 1) (lchA c)) (who pack (blkA 1) (lchA c))) ∧
    (let e := who pack (blkA 1) (lchA [0])
     uniCause e [opn32 (.k 15), opn32 (.k 1)] = none ∧ dstCause e (maskLanes e.p e.f) (.v 126) 2 = none ∧ needsTurn (world pack (blkA 1) (lchA [0])) e = false ∧
     15 < uniVal e (.k 16) ∧ e.b.linear ∉ [0] ∧ e.b.linear ∈ [0, 1] ∧ appendPending e 15 = false) ∧
    appendTurn (lchA [0]) 15 1 = true ∧ appendTurn (lchA []) 15 1 = false ∧
    IssuesAlone (world packA (blkA 0) lch) (who packA (blkA 0) lch) ∧ appendPending (who packA (blkA 0) lch) 15 = true := by
  refine ⟨?_, by decide +kernel, by decide +kernel, by decide +kernel, ⟨⟨rfl, rfl⟩, rfl⟩, by decide +kernel⟩
  intro c hc
  simp only [List.mem_cons, List.not_mem_nil, or_false] at hc
  obtain rfl | rfl | rfl | rfl := hc <;> exact ⟨⟨rfl, rfl⟩, rfl⟩

/-! ## Witnesses: the matrix unit -/

/-- An entry of format fmt over one row: the flags of bits 31 to 3, its columns, its base, its metadata. -/
def tensor (fmt flags cols base mbase : Nat) : Nat :=
  fmt + 8 + flags + 2 ^ 32 + cols * 2 ^ 64 + base * 2 ^ 96 + 2 ^ 160 + mbase * 2 ^ 256
def cellsAt (a w : Nat) : List Host.Cell := ((leBytes 64 w).mapIdx fun i b => (a + i, b)).filter fun c => c.2 != 0

/-- t0: BF16 in memory; t1: the same, sparse; t2: BF16 in the stash; t3: FP32 in memory. -/
def tensors : List Nat := [tensor 2 0 1 0x100030000 0, tensor 2 32 4 0x100030000 0x100034000, tensor 2 16 1 0 0, tensor 4 0 1 0x100030000 0]
def wX (p : Pack) (b : Block) : State := { world p b lch with mem := (tensors.mapIdx fun i w => cellsAt (0x100010000 + 64 * i) w).flatten }
def marv : MarverSlot := { fmt := 2, elems := [], exps := [], entry := 0, ti := 0, tj := 0 }
def blkX0 (acc : Sparse AccTile) (rings : List Ring) : Block :=
  { blk with marver := [(0, marv), (1, marv)], mslots := [(0, { fmt := 2, row0 := 0, kt := 0, nibbles := [] })], acc := acc, rings := rings }
def wT : State := wX pack (blkX0 [] [{ tid := 2, slots := [.valid, .free, .consumed] }])
def eT : Issuer := who pack (blkX0 [] [{ tid := 2, slots := [.valid, .free, .consumed] }]) lch

/-- The octet is there and not yet performed; not all there; performed by a partner. -/
theorem test_witness_octets : IssuesAlone wT eT ∧ pairReady eT.p eT.f = true ∧ todoOctets eT.p eT.f = [0] ∧
    uniCause eT [coordOpnd (.s 0)] = none ∧ uniCause eT [opn32 (.s 0)] = none ∧ regsCause eT [] (.s 0) 16 = none ∧ dstCause eT [] (.s 0) 16 = none ∧ operandCause eT (maskLanes eT.p eT.f) [] (.s 0) 1 = none ∧
    regsCause eT ((todoOctets eT.p eT.f).flatMap octLanes) (.s 0) 16 = none ∧
    IssuesAlone (world (twoFrags .ready) blk lch) (who (twoFrags .ready) blk lch) ∧
    (let p : Pack := { pack with frags := [{ frag with slices := 1 }, { frag with slices := 2, pc := 0x2000 }] }; pairReady p { frag with slices := 1 } = false) ∧
    (let f : Fragment := { frag with octs := 1, octPc := 0x1000 }; pairReady (packF f) f = true ∧ todoOctets (packF f) f = []) := by
  refine ⟨⟨⟨rfl, rfl⟩, rfl⟩, by decide +kernel, by decide +kernel, by decide +kernel, by decide +kernel, by decide +kernel, by decide +kernel,
    by decide +kernel, by decide +kernel, ⟨⟨rfl, rfl⟩, rfl⟩, by decide +kernel, by decide +kernel⟩

/-- The entries as a matrix instruction reads them. -/
theorem test_witness_entries : (List.range 4).map (fun i => entryOf wT eT i) = tensors.mapIdx (fun i w => .ok (w, 0x100010000 + 64 * i)) ∧
    tensors.all entryOk = true := by decide +kernel

/-- TDGET into s48 to s63; TDSET of a valid entry, and of one without rows. -/
theorem test_witness_tdset : dstCause eT [] (.s 48) 16 = none ∧ memHold wT eT (issuerTr wT eT 0x100010000).toList = none ∧ strictRace wT eT (issuerTr wT eT 0x100010000).toList = false ∧ needsTurn wT eT = false ∧ xlate wT eT.l.ctx (inSup eT.f) .write (tdAddr eT 255) = .ok 0x100013FC0 ∧
    memHold wT eT [0x100013FC0] = none ∧ (let p := packS [(0, 8)]
      IssuesAlone (world p blk lch) (who p blk lch) ∧ (regsVal (who p blk lch) (.s 0) 16 0).testBit 3 = true ∧ entryOk (regsVal (who p blk lch) (.s 0) 16 0) = false) := by
  refine ⟨by decide +kernel, by decide +kernel, by decide +kernel, by decide +kernel, by decide +kernel, by decide +kernel, ⟨⟨rfl, rfl⟩, rfl⟩, by decide +kernel⟩

/-- MLDB into the last slot, MBREL, MLDMETA into the last meta slot. -/
theorem test_witness_slots : 511 < pkMarver (launchWord eT.l) ∧ 31 < pkMeta (launchWord eT.l) ∧ uniCause eT [coordOpnd (.k 0)] = none ∧
    coordOf' eT (.k 0) = (0, 0) ∧ (let w := tensor 2 0 1 0x100030000 0;
      entryOk w = true ∧ tSparse w = false ∧ rectFaults wT eT .read .read w 0 (passDepth 2) 0 128 = []) ∧
    (let w := tensor 2 32 4 0x100030000 0x100034000;
      entryOk w = true ∧ tSparse w = true ∧ metaCells w 0 0 = [(0, 0)] ∧ metaAddr w 0 0 = 0x100034000 ∧
      xlate wT eT.l.ctx (inSup eT.f) .read 0x100034000 = .ok 0x100034000 ∧ needsRound eT = false ∧ memHold wT eT [0x100034000] = none ∧
      strictRace wT eT [0x100034000] = false ∧ gPoisoned wT 0x100034000 1 = false) := by decide +kernel

theorem test_witness_reads : ReadsOpen wT eT (viewCells (tensor 2 0 1 0x100030000 0) 0 64 0 128) := by
  unfold ReadsOpen
  decide +kernel

/-- MZERO of the last tile; MMA on t0, MMASP on t1, MMA.ring on t2 with its slot valid, and with one that is free. -/
theorem test_witness_passes : (∀ o ∈ todoOctets eT.p eT.f, 127 + o * 1 + 1 ≤ pkAcc (launchWord eT.l)) ∧
    (∀ y ∈ [({ x0 with reg := .k 0 }, false, false, tensor 2 0 1 0x100030000 0, 0x100010000), ({ x0 with tid := 2, reg := .k 0, flags := 2 }, true, false, tensor 2 16 1 0 0, 0x100010080),
            ({ x0 with tid := 2, reg := .k 1, flags := 2 }, true, false, tensor 2 16 1 0 0, 0x100010080),
            ({ x0 with tid := 1, reg := .k 0 }, false, true, tensor 2 32 4 0x100030000 0x100034000, 0x100010040)],
      let x : X64 := y.1; let w := y.2.2.2.1; let ring := ringOpnd eT x y.2.1
      uniCause eT [if y.2.1 then opn32 x.reg else coordOpnd x.reg] = none ∧ entryOf wT eT x.tid.toNat = .ok (w, y.2.2.2.2) ∧ entryOk w = true ∧ tFmt w ≤ 3 ∧
      tSparse w = y.2.2.1 ∧ (y.2.1 = true → tStash w = true) ∧ (∀ z ∈ ring, z.1 < z.2.2) ∧
      (∀ o ∈ todoOctets eT.p eT.f, mmaFaults wT eT x ring y.2.2.1 w y.2.2.2.2 0 0 o = []) ∧ badSlots eT x y.2.2.1 (todoOctets eT.p eT.f) = [] ∧ reloadFault eT x y.2.2.1 (todoOctets eT.p eT.f) = none ∧
      ringMissing eT x ring = (if x.reg = .k 1 then some 1 else none) ∧ heldAt wT eT.b.core 1 eT.l.region = false ∧
      needsRound eT = false ∧ ((matStash ((todoOctets eT.p eT.f).flatMap fun o => mmaCells ring w (mmaRow x 0 o) 0)).findSome? fun z => stashStall wT eT z.2 [z.1]) = none) ∧
    needsTurn wT eT = false := by decide +kernel

/-- MST of the last tile to t3, and MST.add. -/
theorem test_witness_drains : let w := tensor 4 0 1 0x100030000 0
    uniCause eT [coordOpnd (.k 0)] = none ∧ entryOk w = true ∧ tSparse w = false ∧ 2 ≤ tFmt w ∧
    (∀ o ∈ todoOctets eT.p eT.f, 127 + o < pkAcc (launchWord eT.l) ∧ rectFaults wT eT .write (if reducesCols w then .write else .read) w (8 * o) 8 0 128 = []) ∧
    classCount eT.p .drain + 1 ≤ 255 ∧ needsRound eT = false ∧ eT.b.passes = [] ∧ (spGet {} eT.b.acc 127).errs = [] ∧
    memHold wT eT ([0x100030000] ++ fillPas wT eT.l.ctx (inSup eT.f) eT.b []) = none ∧
    (((todoOctets eT.p eT.f).map fun o => drainElems wT eT { x0 with tile := 127, tid := 3, reg := .k 0 } false w 0 0 o).flatten.filter fun d => !d.stash).map (·.addr) = [0x100030000] := by
  decide +kernel

/-- MRDA of the last tile's last row into v112 to v127; of a poisoned row; MWRA. -/
theorem test_witness_rows : dstCause eT [] (.v 112) 16 = none ∧ eT.p.width ≤ 64 ∧ eT.p.slices.length * 4 = eT.p.width ∧ (∀ o ∈ todoOctets eT.p eT.f, 8 * o + 8 ≤ eT.p.width) ∧
    (∀ sl ∈ eT.p.slices, sl.lanes.length = 4) ∧ rowPoisoned (spGet {} eT.b.acc 127) 7 = false ∧ (todoOctets eT.p eT.f).Nodup ∧
    regsCause eT ((todoOctets eT.p eT.f).flatMap octLanes) (.v 112) 16 = none ∧
    (let b := blkX0 [(127, { poison := [7 * 128] })] []
     IssuesAlone (wX pack b) (who pack b lch) ∧ rowPoisoned (spGet {} b.acc 127) 7 = true) := by
  refine ⟨by decide +kernel, by decide +kernel, by decide +kernel, by decide +kernel, by decide +kernel, by decide +kernel, by decide +kernel,
    by decide +kernel, ⟨⟨rfl, rfl⟩, rfl⟩, by decide +kernel⟩

/-- RINGINIT of 2 and of 64 slots; slots valid, free and consumed of ring t2, and beyond it. -/
theorem test_witness_rings : uniCause eT [opn32 (.k 2)] = none ∧ (let w := tensor 2 16 1 0 0;
      entryOk w = true ∧ tFmt w ≤ 3 ∧ tStash w = true ∧ 0 + (63 * (tRows w * tRowLen w * tSize w) + storedExtent w) ≤ stashBytes eT.l) ∧
    (eT.b.rings.filter fun y => y.tid != 2).length < 8 ∧ ringWaiter eT.b 2 = false ∧
    (eT.b.rings.find? fun y => y.tid == 2) = some { tid := 2, slots := [.valid, .free, .consumed] } ∧ ([RingSlot.valid, .free, .consumed])[3]? = none ∧
    dstCause eT (maskLanes eT.p eT.f) (.v 127) 1 = none := by decide +kernel


/-- A pass waits on the tile that MZERO and MST name; a slot of marver is in error, so MMA reloads it first. -/
theorem test_witness_pending : (let b : Block := { blk with passes := [{ id := 1, pidx := 0, pos := 0, tile := 127, kind := .f32, sums := [], cols := [], rows := [] }] };
      IssuesAlone (wX pack b) (who pack b lch) ∧ ∃ p ∈ b.passes, p.tile ∈ [127]) ∧
    (let b : Block := { blkX0 [] [] with marver := [(0, { marv with err := true })] };
      IssuesAlone (wX pack b) (who pack b lch) ∧ badSlots (who pack b lch) x0 false [0] = [0]) := by
  exact ⟨⟨⟨⟨rfl, rfl⟩, rfl⟩, by decide +kernel⟩, ⟨⟨⟨rfl, rfl⟩, rfl⟩, by decide +kernel⟩⟩
/-! ## Witnesses: the grid -/

/-- A grid of two devices on one axis. gp0 names device 1, gp1 every device, gp2 this one; s0:s1 and v8:v9 are window addresses, s2:s3 a
completion word, s4 to s7 a copy of 16 bytes. -/
def packG : Pack :=
  { packM with gp := [(0, BitVec.ofNat 128 (2 ^ 120 + 4)), (1, BitVec.ofNat 128 (2 ^ 120 + 1)), (2, BitVec.ofNat 128 (2 ^ 120 + 3))],
               slices := (List.range 2).map fun k => { slice with lanes := (List.range 4).map fun i =>
                 { v := [(8, BitVec.ofNat 32 (8 * (4 * k + i))), (9, 0x1000000)] } },
               s := [(1, 0x1000000), (2, 0x20000), (3, 1), (4, 0x30000), (5, 1), (6, 16)] }
def wG : State := { world packG blk lch with sys := { budgetcfg := 0, griddesc := 0x101 } }
def eG : Issuer := who packG blk lch
def none8 : Pred := { neg := true, idx := 7 }

theorem test_witness_gpat : Issues wG eG ∧ IssuesAlone wG eG ∧ regsCause eG (activeLanes eG all) (.s 60) 4 = none ∧ activeLanes eG none8 = [] ∧
    livePlanes wG ≠ [] ∧ livePlanes { wG with sys := { budgetcfg := 0, griddesc := 0x101, planemap := 0x76543210 } } = [] ∧ gridUp wG = true ∧ gridUp wM = false ∧ IssuesAlone wM eM := by
  refine ⟨⟨rfl, rfl⟩, ⟨⟨rfl, rfl⟩, rfl⟩, by decide +kernel, by decide +kernel, by decide +kernel, by decide +kernel, by decide +kernel, by decide +kernel, ⟨⟨rfl, rfl⟩, rfl⟩⟩

/-- A word that reads zero against a target of 0, which it has reached, and of 2, which it has not; no active lane. -/
theorem test_witness_gwait : ∀ g ∈ [{ q0 with data := .v 126, cw := .s 2, addr := .k 0, gp := 1 }, { q0 with data := .s 62, cw := .s 2, gp := 1 }],
    let act := activeLanes eG g.pred
    uniCause eG [cwOpnd g, { src := g.addr, ty := .b32, wide := false }] = none ∧ dstCause eG act (dstOf g.data) 2 = none ∧ patOk wG eG g (fun _ => true) = true ∧
    act ≠ [] ∧ cwAddr eG g = some 0x100020000 ∧ 0x100020000 % 16 = 0 ∧ xlate wG eG.l.ctx (inSup eG.f) .read 0x100020000 = .ok 0x100020000 ∧
    needsTurn wG eG = false ∧ gReadNat wG 0x100020000 4 = 0 ∧ waitTarget wG eG g = (if g.addr = .k 0 then 0 else 2) ∧ activeLanes eG none8 = [] := by decide +kernel

/-- GLD and GATOM to device 1, GSCAN of every device, each with lanes and without; the checks of GST, GCOPY and GRED. -/
theorem test_witness_grid_requests : burstOk eG.f .last = true ∧ gridStall wG eG = none ∧ (eG.l.det && eG.l.strict) = false ∧
    (let g := { q0 with data := .v 126, addr := .v 8, width := 3 }; let act := activeLanes eG g.pred
     act ≠ [] ∧ operandCause eG act [addrOpnd g] (dstOf g.data) (gridRegs g) = none ∧ patOk wG eG g oneTarget = true ∧ (∀ l ∈ act, windowCause 8 8 (gridAddr eG g l) = none)) ∧
    (let g := { q0 with data := .v 124, addr := .v 8, width := 3, gop := 9 }; let act := activeLanes eG g.pred
     operandCause eG act [addrOpnd g] .null 1 = none ∧ regsCause eG act g.data (if g.gop = 9#4 then 2 * gridRegs g else gridRegs g) = none) ∧
    (let g := { q0 with data := .v 4, addr := .s 0, cw := .s 2, width := 2, gp := 1 }; let act := activeLanes eG g.pred
     uniCause eG [addrOpnd g, cwOpnd g] = none ∧ regsCause eG act g.data (gridRegs g) = none ∧ patOk wG eG g (contributes wG) = true ∧ (cwAddr eG g).getD 0 % 16 = 0 ∧
     windowCause 4 4 (gridAddr eG g 0) = none) ∧ activeLanes eG none8 = [] := by decide +kernel

theorem test_witness_grid_lines :
    (let g := { q0 with data := .v 4, addr := .v 8, cw := .s 2, width := 3, gp := 1 }; let act := activeLanes eG g.pred
     operandCause eG act [addrOpnd g] .null 1 = none ∧ uniCause eG [cwOpnd g] = none ∧ dataCause eG act g (gridRegs g) = none ∧ patOk wG eG g (someTarget wG) = true ∧
     cwCause wG eG g .write = none ∧ (∀ l ∈ act, windowCause 8 8 (gridAddr eG g l) = none) ∧ queueWait wG eG act (dataSrcs g) .null = none ∧ act ≠ [] ∧
     Apart 8 act (gridAddr eG g)) ∧
    (let g := { q0 with data := .s 4, addr := .s 0, gflags := 0 }; let act := activeLanes eG g.pred
     uniCause eG [addrOpnd g, cwOpnd g] = none ∧ regsCause eG act g.data 4 = none ∧ (gcopyArgs eG g).2.1 = 16 ∧ (gcopyArgs eG g).2.2.1 < 64 ∧
     patOk wG eG g (someTarget wG) = true ∧ cwCause wG eG g .write = none ∧ gcopyCause wG eG g = none ∧
     xlateRange wG eG.l.ctx (inSup eG.f) .read (gcopyArgs eG g).1 16 = .ok [(0x100030000, 0x100030000)] ∧ memHold wG eG [0x100030000] = none ∧
     strictRace wG eG [0x100030000] = false ∧ pagesPoison wG [(0x100030000, 0x100030000)] (gcopyArgs eG g).1 16 = none) ∧
    (let g := { q0 with data := .v 4, addr := .s 0, cw := .s 2, width := 2, gp := 1 }; let act := activeLanes eG g.pred
     uniCause eG [addrOpnd g, cwOpnd g] = none ∧ dataCause eG act g (gridRegs g) = none ∧ (eG.l.det && eG.l.strict && g.gop == 10#4 && !g.gflags.getLsbD 0) = false ∧
     patOk wG eG g (contributes wG) = true ∧ (cwAddr eG g).getD 0 % 16 = 0 ∧ windowCause (min (eG.p.width * 4) 128) (eG.p.width * 4) (gridAddr eG g 0) = none ∧
     gridAddr eG g 0 % 128 = 0 ∧ queueWait wG eG act (dataSrcs g) .null = none) := by
  unfold Apart
  decide +kernel

/-! ## Witnesses: experts, tasks -/

def cellsOfBytes (a : Nat) (bs : List Byte) : List Host.Cell := (bs.mapIdx fun i b => (a + i, b)).filter fun c => c.2 != 0

/-- One expert of 32 columns, one slot of it, capacity 1. -/
def gcb : Nat := 2 ^ 32 + 2 ^ 198 * 0 + 0x100050000 * 2 ^ 192 + 0x100050100 * 2 ^ 256 + 2 ^ 56 * 2 ^ 320 + (2 ^ 56 + 0x10000) * 2 ^ 384 + (2 ^ 56 + 0x20000) * 2 ^ 448
/-- t0: one row of 32 BF16 columns. The table of experts: 1 absent, 2 resident, 3 and 4 pinned twice and once, 5 pinned 4,095 times, 6
another context's. -/
def ert (state pins ctx : Nat) : Nat := state + pins * 16 + ctx * 2 ^ 16 + 2 ^ 32
def memE : List Host.Cell :=
  cellsAt 0x100010000 (tensor 2 0 32 0x100030000 0) ++ cellsOfBytes 0x100020000 (leBytes 64 gcb) ++
    ((List.range 7).map fun i => cellsOfBytes (0x100060000 + 32 * i)
      (leBytes 8 (if i = 0 then 0 else if i = 1 then ert 0 0 0 else if i = 2 then ert 2 0 0 else if i = 3 then ert 3 2 0 else if i = 4 then ert 3 1 0 else
        if i = 5 then ert 3 4095 0 else ert 2 0 9))).flatten
def gateSlot : GateSlot := { ctx := 0, region := 0x100007000, gcb := BitVec.ofNat 512 gcb, weights := List.replicate 32 0, bias := [0], shadow := [0],
                             shadowFor := 0, ptab := [0] }
/-- s0:s1 the block, s4:s5 a route table, s6 row 0, s7 one row. -/
def packE : Pack := { packG with s := [(0, 0x20000), (1, 1), (4, 0x40000), (5, 1), (7, 1)] }
def wE (gates : Sparse GateSlot) : State :=
  { world packE blk lch with sys := { budgetcfg := 0, griddesc := 0x101, ertbase := 0x100060000 }, mem := memE, gates := gates }
def eE : Issuer := who packE blk lch

theorem test_witness_gates : (∀ gs ∈ [[], [(7, gateSlot)], [(7, { gateSlot with toClose := [{ batch := 0, dests := [] }], j := 1, shadowFor := 0 })]], IssuesAlone (wE gs) eE) ∧
    needsRound eE = false ∧ uniCause eE [uniPair (.s 0)] = none ∧ gateFree (wE [(7, { gateSlot with toClose := [{ batch := 0, dests := [] }] })]) 7 = false ∧
    gateFree (wE []) 7 = true ∧ xlateRange (wE []) eE.l.ctx (inSup eE.f) .read (uniWide eE (.s 0)) 64 = .ok [(0x100020000, 0x100020000)] ∧
    (let n := ofLeBytes (pagesRead (wE []) [(0x100020000, 0x100020000)] (uniWide eE (.s 0)) 64); let w := tensor 2 0 32 0x100030000 0; let rs := gateRanges (wE []) eE n w
     n = gcb ∧ gcbOk n = true ∧ entryOf (wE []) eE (gWtid n) = .ok (w, 0x100010000) ∧ gateTensor n w = true ∧ overlaps (wE []) n (fun _ y => y.ctx != eE.l.ctx) = false ∧
     rangeFault eE (rs.map (·.2)) = none ∧ memHold (wE []) eE (([((0x100020000, 0x100020000) : Nat × Nat)] ++ rs.flatMap fun r => rangePages r.2).map Prod.snd) = none ∧
     strictRace (wE []) eE (([((0x100020000, 0x100020000) : Nat × Nat)] ++ rs.flatMap fun r => rangePages r.2).map Prod.snd) = false ∧ (∀ y ∈ (loadGate (wE []) eE n rs).ptab, y < 2 ^ 20)) := by
  refine ⟨?_, by decide +kernel, by decide +kernel, by decide +kernel, by decide +kernel, by decide +kernel, by decide +kernel⟩
  intro gs h
  simp only [List.mem_cons, List.not_mem_nil, or_false] at h
  obtain rfl | rfl | rfl := h <;> exact ⟨⟨rfl, rfl⟩, rfl⟩

theorem test_witness_dispatch : let w := wE [(7, gateSlot)]; let tw := tensor 2 0 32 0x100030000 0
    regsCause eE [] (.s 4) 4 = none ∧ uniCause eE [opn32 (.k 0)] = none ∧ spFind? w.gates 7 = some gateSlot ∧ entryOf w eE 0 = .ok (tw, 0x100010000) ∧
    tokenTensor (gateWord gateSlot) tw (uniVal eE (sPlus (.s 4) 2)) (uniVal eE (sPlus (.s 4) 3)) = true ∧ gateSlot.ctx = eE.l.ctx ∧ gateSlot.err = false ∧ (eE.l.det && eE.l.strict && !gOrdered (gateWord gateSlot)) = false ∧
    uniWide eE (.s 4) % 64 = 0 ∧ gridStall w eE = none ∧ markWaits w 7 = false ∧
    xlateRange w eE.l.ctx (inSup eE.f) .write (uniWide eE (.s 4)) 64 = .ok [(0x100040000, 0x100040000)] ∧ storedAddr tw 0 0 = 0x100030000 ∧
    xlateRange w eE.l.ctx (inSup eE.f) .read 0x100030000 (2 * gH (gateWord gateSlot)) = .ok [(0x100030000, 0x100030000)] ∧
    memHold w eE [0x100030000] = none ∧ strictRace w eE [0x100030000] = false := by decide +kernel

/-- MBMARK on its own device: free to go; held while the shadow of its batch has not come. -/
theorem test_witness_mbmark : uniCause eE [opn32 (.k 2)] = none ∧ (let w := wE [(7, gateSlot)]; let p := (spGet 0 eE.p.gp 2).toNat
    patValid w p = true ∧ patExself p = false ∧ patMatches p (selfCoord w) (selfCoord w) = true ∧ markWaits w 7 = false ∧ markFree w 7 = true) ∧
    markFree (wE [(7, { gateSlot with j := 1, shadowFor := 0 })]) 7 = false := by decide +kernel

/-- ERTOP on each state of an entry, at the last entry of the table and beyond it. -/
def packU : Pack := { packF supFrag with s := [(0, 1), (2, 0x200000)] }
theorem test_witness_ert : let w := wE []
    uniCause eE [opn32 (.k 1)] = none ∧ dstCause eE (maskLanes eE.p eE.f) (.s 62) 2 = none ∧
    (List.range 7).map (fun i => (ertState (ertEntry w i), ertPins (ertEntry w i), ertCtx (ertEntry w i), ertPages (ertEntry w i))) =
      [(0, 0, 0, 0), (0, 0, 0, 1), (2, 0, 0, 1), (3, 2, 0, 1), (3, 1, 0, 1), (3, 4095, 0, 1), (2, 0, 9, 1)] ∧
    (let e := who packU blk lch; let x := { wE [] with blocks := (world packU blk lch).blocks }
     IssuesAlone x e ∧ inSup e.f = true ∧ regsCause e [] (.s 0) 4 = none ∧ defineCause x e { g0 with b := .s 0 } 16383 = none) := by
  refine ⟨by decide +kernel, by decide +kernel, by decide +kernel, ⟨⟨rfl, rfl⟩, rfl⟩, by decide +kernel⟩

/-- TASKDEF of a template at s0:s1; TASKDEP up to 2^32 − 1 and down to 0, on a counter bound to a class; KSTAT of every selector. -/
theorem test_witness_tasks : let w := { wE [] with counters := [(1023, { value := 5, cls := some 3, ctx := some 0 })] }
    IssuesAlone w eE ∧ dstCause eE (maskLanes eE.p eE.f) (.s 63) 1 = none ∧ uniCause eE [opn32 (.c 7), uniPair (.s 0)] = none ∧
    xlateRange w eE.l.ctx (inSup eE.f) .read (uniWide eE (.s 0)) 128 = .ok [(0x100020000, 0x100020000)] ∧ (readHold w eE [0x100020000]).isNone = true ∧ needsTurn w eE = false ∧
    (counterAt w 1023).value.toNat = 5 ∧ 5 + (2 ^ 32 - 6) < 2 ^ 32 ∧ othersCounter w eE 1023 = false ∧ othersClass w eE 255 = false ∧
    (∀ x ∈ [(0, 0), (1, 5), (2, 5), (3, 7), (4, 7), (5, 0)], (match kstatValue w eE x.1 x.2 with | .ok _ => true | .error _ => false) = true) := by
  refine ⟨⟨⟨rfl, rfl⟩, rfl⟩, by decide +kernel⟩

/-! ## Witnesses: network, launches -/

/-- A channel that is valid and may do everything, with a ring of 16 records, and 4 bytes allowed. -/
def centry : Nat := 2 ^ 176 + 0x1F * 2 ^ 177 + 4 * 2 ^ 224 + 0x100020000 * 2 ^ 256 + 4 * 2 ^ 313
def chan (rd wr : Nat) : Channel := { ctx := 0, table := 0x100014000, ch := 0, region := 0x100007000, entry := BitVec.ofNat 512 centry, rd := rd, wr := wr }
/-- s16 to s31: an operation of no bytes. -/
def packN (op : Nat) : Pack := { pack with s := if op = 0 then [] else [(16, BitVec.ofNat 32 op)] }
theorem test_witness_requests : (∀ op ∈ [0, 4], let p := packN op; let e := who p blk lch; let w := { world p blk lch with channels := [chan 0 0] }
      regsCause e [] (.s 16) 16 = none ∧ needsRound e = false ∧ hasRoom e.p 3 none = true ∧ strictRace w e [] = false ∧
      (let n := workRequest e { g0 with a := .s 16 }
       wrBad n = false ∧ wrOp n = op ∧ (match wrPages w e n with | .ok x => x == ([], none) | .error _ => false) = true ∧
       (wrChan w e n).isSome = true ∧ wrLen n ≤ ceAllow centry)) ∧
    (∀ op ∈ [0, 4], let p := packN op; IssuesAlone { world p blk lch with channels := [chan 0 0] } (who p blk lch)) := by
  refine ⟨by decide +kernel, ?_⟩
  intro op h
  simp only [List.mem_cons, List.not_mem_nil, or_false] at h
  obtain rfl | rfl := h <;> exact ⟨⟨rfl, rfl⟩, rfl⟩

/-- NPOLL of a ring with one record, with none, of no channel; LARM; LAUNCH. -/
theorem test_witness_polls : (let e := who packE blk lch; let w := { wE [] with channels := [chan 15 16] }
      IssuesAlone w e ∧ dstCause e (maskLanes e.p e.f) (.s 56) 8 = none ∧ uniCause e [opn32 (.k 0)] = none ∧ chanOf w e.l.ctx e.b.capbase.toNat 0 = some (chan 15 16) ∧
      chanOf w e.l.ctx e.b.capbase.toNat 1 = none ∧ ceRlog centry = 4 ∧ ceValid centry = true ∧ (buffered e && e.l.strict) = false ∧
      (let va := ceRing centry + 32 * (15 % 2 ^ ceRlog centry); va = 0x1000201E0 ∧ xlateRange w e.l.ctx (inSup e.f) .read va 32 = .ok [(0x100020000, 0x100020000)]) ∧
      memHold w e [0x100020000] = none) ∧
    (let e := eE; let w := wE []; regsCause e [] (.s 0) 8 = none ∧ uniCause e [opn32 (.c 7)] = none ∧ uniVal e (.k 31) ≤ 63 ∧ uniVal e (sPlus (.s 0) 6) ≤ 1 ∧
      uniVal e (sPlus (.s 8) 7) = 0 ∧ uniWide e (.s 8) = 0 ∧ uniWide e (.s 0) ≠ 0 ∧ xlateRange w e.l.ctx (inSup e.f) .read (uniWide e (.s 0)) 128 = .ok [(0x100020000, 0x100020000)] ∧
      (readHold w e [0x100020000]).isNone = true) := by
  refine ⟨⟨⟨⟨rfl, rfl⟩, rfl⟩, by decide +kernel⟩, by decide +kernel⟩

/-! ## Witnesses: system instructions, traps -/

/-- A page of the window and the first two mebibytes of bonded DRAM; the region's control block; a supervisor. -/
def windowLeaf : TlbEntry := { ctx := 0, va := 2 ^ 56, k := 21, leaf := BitVec.ofNat 64 (0x100200000 + 0x2F), place := .core 0 }
def codeLeaf : TlbEntry := { ctx := 0, va := 0x1000, k := 12, leaf := BitVec.ofNat 64 (0x100001000 + 0x2F), place := .core 0 }
def memR : List Host.Cell := cellsOfBytes 0x100001000 (leBytes 8 0x00007FFFFFBBFC23) ++
  (probeRcb.flatMap fun x => cellsOfBytes (0x100007000 + x.1) (leBytes x.2.1 x.2.2))
def wS (p : Pack) (f : State → State) : State := f { world p blk lch with tlb := [leaf, windowLeaf, codeLeaf], mem := memR }
def sup (s : List (Nat × Word)) : Pack := { packF supFrag with s := s }
theorem test_witness_system : IssuesAlone (world pack blk lch) (who pack blk lch) ∧ inSup (who pack blk lch).f = false ∧
    (let p := sup [(0, 8), (2, 0x76543211), (3, 0xFF)]; let e := who p blk lch; let w := wS p id
     IssuesAlone w e ∧ inSup e.f = true ∧ dstCause e (maskLanes e.p e.f) (.s 62) 2 = none ∧ uniCause e [uniPair (.s 0)] = none ∧
     sysReserved 5 (uniWide e (.s 0)) = false ∧ sysReserved 1 (uniWide e (.s 0)) = true ∧ sysReserved 5 7 = true ∧ sysReserved 5 17 = true ∧
     sysReserved 4 (uniWide e (.s 2)) = false ∧ planeFence w (BitVec.ofNat 64 (uniWide e (.s 2))) = true ∧ gridQuiet w = true) ∧
    gridQuiet { world pack blk lch with gridOps := [{ tag := 0, op := 1, blk := 2, pidx := 0, pos := 0, kind := 0, ctx := 0, linear := 0, region := 0, expect := 1 }] } = false := by
  refine ⟨⟨⟨rfl, rfl⟩, rfl⟩, by decide +kernel, ⟨⟨⟨rfl, rfl⟩, rfl⟩, by decide +kernel⟩, by decide +kernel⟩

/-- TLBINV of 4 KiB and of 128 MiB, with a request in flight and without; BIASFLIP of one page; MIGRATE of each kind; CAPSET; MAPPG. -/
theorem test_witness_translations : let p := sup [(0, 0), (1, 1), (2, 0x200000), (3, 1), (4, 0), (5, 0x1000000)]; let e := who p blk lch; let w := wS p id
    IssuesAlone w e ∧ (uniCause e [uniPair (.s 0), opn32 (.k 12)] = none ∧ uniWide e (.s 0) % 2 ^ 27 = 0 ∧
    invBusy w { ctx := some 0, va := 0x100000000, len := 4096 } = false ∧ ertBusy w (some 0) 0x100000000 4096 = [] ∧
    invBusy { w with sends := [{ op := 1, blk := 2, pidx := 0, pos := 0, ctx := 0, table := 0, region := 0, entry := 0, wr := 2 ^ 64 * 0x1000, pages := [(0x100000000, 0x100000000)],
                                 ctr := none, begun := true }] } { ctx := none, va := 0, len := 2 ^ 57 } = true ∧
    (match flipUnits w e 0x100000000 1 with | .ok us => us == [0x100000000] | .error _ => false) = true) ∧
    (match movePage w e 0x100000000 with | .ok q => q.k == 21 && 0x100000000 % 2 ^ q.k == 0 && (moveHeld w e q).isNone | .error _ => false) = true ∧
    uniWide e (.s 2) % 2 ^ 21 = 0 ∧ moveTierOk (uniWide e (.s 2)) = true ∧ moveTierOk (uniWide e (.s 2) + 2 ^ 21 - 1) = true ∧
    (match movePage w e (2 ^ 56) with | .ok q => q.k == 21 && !oldFrame w q.pa (2 ^ q.k) && (moveHeld w e q).isNone | .error _ => false) = true ∧ isWindow (uniWide e (.s 4)) = true ∧
    regsCause e [] (.s 16) 16 = none ∧ ceBad (regsVal e (.s 16) 16 0) = false ∧
    xlateRange w e.l.ctx true .write (e.b.capbase.toNat + 64 * 63) 64 = .ok [(0x100014000, 0x100014000)] ∧ memHold w e [0x100014000] = none ∧
    operandCause e (activeLanes e all) [uniPair (.s 0), opn32 (.k 23)] (.v 127) 1 = none ∧ attrBad 23 = false ∧ (regionOf w e.l.region).isSome = true := by
  refine ⟨⟨⟨rfl, rfl⟩, rfl⟩, by decide +kernel⟩

/-- TRAP from user mode to a handler; RETF with a frame that matches, and with one that does not. -/
theorem test_witness_traps : let t := { wS pack id with sys := { budgetcfg := 0, trapbase := 0x2000 } }
    IssuesAlone t (who pack blk lch) ∧ (inSup frag = false ∧ t.sys.trapbase ≠ 0 ∧ (∀ f ∈ pack.frags, inSup f = false) ∧
      operandCause (who pack blk lch) [0, 1, 2, 3, 4, 5, 6, 7] [opn32 (.v 127)] .null 1 = none ∧ activeLanes (who pack blk lch) none8 = []) ∧
    (let p := packF { supFrag with frame := some { info := { cause := 0x13 }, slices := 1, saved := [saved], latches := [], resume := 0 } }
     IssuesAlone (world p blk lch) (who p blk lch) ∧ inSup (who p blk lch).f = true ∧ retfFrame (who p blk lch) = none) ∧
    (let e := who (packF supFrag) blk lch; let w := wS (packF supFrag) id
     IssuesAlone w e ∧ (∃ fr, retfFrame e = some fr ∧ fr.saved.length = (fragSlices e.p e.f).length ∧ (nextPc w e fr).map (BitVec.ofNat 64) = .ok (0x1008 : DWord)) ∧
      (∀ f ∈ e.p.frags, f.held = none) ∧ uniCause e [opn32 (.k 0)] = none) := by
  refine ⟨⟨⟨rfl, rfl⟩, rfl⟩, by decide +kernel, ⟨⟨⟨rfl, rfl⟩, rfl⟩, by decide +kernel⟩, ⟨⟨rfl, rfl⟩, rfl⟩, ⟨_, rfl, by decide +kernel, by decide +kernel⟩, by decide +kernel, by decide +kernel⟩

/-! ## Witnesses: events of the dispatcher -/

/-- The region's control block stands in memory. Launch 5 has one block to hand out; a block of launch 1 uses all of core 0. -/
def lch5 : Launch := { lch with lid := 5, next := 0 }
def wD (f : State → State) : State := f { world pack blk lch with mem := memR, cores := [] }
def ref0 : FragRef := { blk := 2, pidx := 0, pos := 0, frag := 0 }
def waiting (w : Wait) : Pack := packF { frag with st := .waiting, wait := w }
def gone : Pack := { pack with slices := [{ slice with mask := 0, live := 0 }, { slice with mask := 0, live := 0 }], frags := [{ frag with st := .free, slices := 0 }] }

/-- A packet, a chunk for core 0, the start of the only block of launch 5, and the two ends of the cores that may steal. -/
theorem test_witness_placement : (wD fun s => { s with arriving := [{ packet := 0, source := .leaf 0 }] }).arriving = { packet := 0, source := .leaf 0 } :: [] ∧
    (let s := wD fun s => { s with launches := [lch, lch5] }; nextLaunch s = some lch5 ∧ placeCore s lch5 = some 0 ∧ hasBlocks s lch5 = true) ∧
    (let s := wD fun s => { s with blocks := [], launches := [lch5], cores := [(0, { lfsr := 1, queue := [(5, 0)] })] }
     (coreOf s 0).queue = (5, 0) :: [] ∧ getLaunch s 5 = some lch5 ∧ couldStart s 0 lch5 = true) ∧
    coreIdle (wD id) 1 = true ∧ coreIdle (wD id) 191 = true := by decide +kernel

/-- A block that has ended and one that has not; one whose launch is stuck, one idle while a block waits, one displaced; a pre-empted block
whose region stands, and whose region is no longer valid. -/
theorem test_witness_blocks :
    (let s := wD fun s => { s with blocks := [{ blk with packs := [gone] }] }
     getBlock s 2 = some { blk with packs := [gone] } ∧ getLaunch s 1 = some lch ∧ blockDone { blk with packs := [gone] } = true ∧ endHeld s { blk with packs := [gone] } lch = none) ∧
    blockDone { blk with packs := [pack] } = false ∧
    (let l := { lch with det := true, next := 0 }; let b := { blk with packs := [waiting (.cnt 0 0)] }
     detStuck (wD fun s => { s with launches := [l], blocks := [b] }) b l = true) ∧
    (let b := { blk with packs := [waiting (.word 0x100000000 4 0 1 true)] }
     idleForOthers (wD fun s => { s with blocks := [b], cores := [(0, { lfsr := 1, queue := [(5, 0)] })] }) b = true) ∧
    (let b := { blk with packs := [pack] }; displaced (wD fun s => { s with launches := [lch, { lch5 with prio := 1 }] }) b = true) ∧
    (let b := { blk with packs := [pack], state := .preempted }; let s := wD fun s => { s with blocks := [b] }
     rcbValid (rcbWord s lch.region) = true ∧ nextResume s lch = some b ∧ nextLaunch s = some lch ∧ (allowedCores s lch).getLsbD 0 = true ∧
     coreFits s 0 (slotsNeeded b).length lch = true) ∧
    rcbValid (rcbWord { wD id with mem := [] } lch.region) = false := by decide +kernel

/-- A spawn that has room; a run of 48 slots; waits that are over and one that is not: a word of memory, a turn at APPEND, a copy that has
landed; a budget's use; a round and a turn of a deterministic launch. -/
theorem test_witness_runs_waits :
    (let s := wD fun s => { s with spawns := [(0, 3)] }; s.spawns = (0, 3) :: [] ∧ liveTasks s < Config.maxTasks) ∧
    (atLimit (wD fun s => { s with blocks := [{ blk with packs := [packF { frag with running := true, slots := 48 }] }] }) 0).isSome = true ∧
    (∀ w ∈ [Wait.word 0x100000000 4 0 0 true, .append 15, .cnt 0 0], let e := who (waiting w) blk lch; let s := wD fun s => { s with blocks := [{ blk with packs := [waiting w] }] }
     issuerAt s ref0 = some e ∧ e.b.state = .resident ∧ e.f.st = .waiting ∧ wakes s e.b e.p e.f = true ∧
     (isWordWait w, isAppendWait w) = (match w with | .word _ _ _ _ _ => (true, false) | .append _ => (false, true) | _ => (false, false)) ∧
     polls s w = false ∧ w ≠ .turn) ∧
    (let s := wD fun s => { s with blocks := [{ blk with packs := [waiting (.word 0x100000000 4 0 1 true)] }] }; canWake s ref0 isWordWait = false) ∧
    (let s := wD fun s => { s with blocks := [{ blk with packs := [waiting (.word 0x100000000 4 0 1 false)] }] }
     (pollAt s ref0).map (fun x => x.2) = some (0x100000000, 4) ∧ heldAmong s lch.region [0x100000000] = none) ∧
    (findUse (wD fun s => { s with budget := [{ unit := 1280, act := 6, rcb := 0x100007000, used := 9, allow := 5 }] }) 1280 6 0x100007000).isSome = true ∧
    inLehr (wD id) = false ∧
    (let l := { lch with det := true }; let p := { waiting .round with ended := true }; let s := wD fun s => { s with launches := [l], blocks := [{ blk with packs := [p] }] }
     getLaunch s 1 = some l ∧ roundDone s l = true ∧ roundHeld s l = none) ∧
    (let l := { lch with det := true }; let s := wD fun s => { s with launches := [l], blocks := [{ blk with packs := [waiting .turn] }] }
     dueTurns s 1 = ref0 :: [] ∧ (issuerAt s ref0).isSome = true) := by decide +kernel

/-! ## Witnesses: events of the memory system and the engines -/

/-- A context table and page tables that map one page of code at 0x1000, with a program of one instruction. -/
def wP (nbits w : Nat) : State := State.reset.withFetchWord nbits w
def regBlk : Block := { blk with packs := [pack], regions := [{ idx := 0, off := 0, va := 0x100000000, lines := 2, mode := .rw }],
                                 lines := [{ line := 1, pa := 0x4000000000000, dirty := 1, written := 0 }],
                                 passes := [{ id := 9, pidx := 0, pos := 0, tile := 0, kind := .i32, sums := [{ elem := 0, value := 3, exact := some (3, 0) }], cols := [(0, 3)], rows := [(0, 3)] }] }
def engOp (w : EngineWork) : EngineOp := { id := 7, blk := 2, pidx := 0, pos := 0, work := w }

theorem test_witness_units : (let s := wD fun s => { s with blocks := [regBlk] }
     (touched s 0).getLsbD 15 = true ∧ (coreOf s 0).awake.getLsbD 15 = false ∧ (s.gated = [] ∧ ((0, 15) : Nat × Nat) ∈ [((0, 15) : Nat × Nat)]) ∧
     fillNeed s (blockCtx s regBlk).1 true regBlk 0 = .ok (some 0x100000000) ∧
     (lineAt regBlk 1).map (fun l => (l.dirty != 0, cxlHome l.pa)) = some (true, true) ∧
     passAt s 9 = some (regBlk, regBlk.passes.headD { id := 0, pidx := 0, pos := 0, tile := 0, kind := .f32, sums := [], cols := [], rows := [] }) ∧ (regBlk.passes.all passCheck) = true ∧ regBlk.passes.all (fun p => (passErrs regBlk p).isEmpty) = true ∧ heldAmong s (blockCtx s regBlk).2 [0x4000000000000] = none) ∧
    (let w := fun (g : Nat) => ({ die := 0, ctx := 0, rcb := 0x100007000, granule := g, cores := [0] } : Walk)
     ∀ g ∈ [1, 2 ^ 45 - 1], let s := { wP 16 0x1E with walks := [w g] }
     (s.walks.find? fun w => w.ctx == 0 && w.granule == (4096 * g) / 4096) = some (w g) ∧
     (match walk s 0 (4096 * g) with | .ok p => g == 1 && !unheld s 0 p && sameWalk (w g) (w g) p | .error _ => g != 1) = true) ∧
    (∀ w ∈ [EngineWork.copy 4 [], .xfer .load [] 0 0 16 8 none, .xfer (.red 0 8) [] 0 0 16 8 none, .drain false []],
      getEngine (wD fun s => { s with engine := [engOp w] }) 7 = some (engOp w)) ∧ heldAmong (wD id) 0x100007000 [0x100000000] = none ∧ (1 ≤ 8 ∧ 8 + 8 ≤ 16 ∧ 8 % 8 = 0) ∧
    inLehr (wD id) = false ∧ deviceMemory (32 * 0) = true ∧
    (∀ k ∈ [HomeKind.load, .store, .atomic, .reduction], homeOk { kind := k, pa := 0x100000078, width := 8, op := 0, data := 0, cmp := 0 } = true) ∧
    gPoisoned (wD id) 0x100000078 8 = false := by decide +kernel

/-! ## Witnesses: what arrives -/

/-- A message of device 1 of two that reaches this one, and an answer to it. -/
def msg (src : Nat) : GMsg :=
  { pat := BitVec.ofNat 128 (2 ^ 120 + 1), src, ctx := 0, tag := 0, gop := 0, width := 2, order := .plain, sys := false, mflag := false, poison := false, count := 0,
    key := 0, addr := 2 ^ 56, nparts := 1, part := 0, cnt := 1, cw := 0, bytes := [], element := 0, compare := 0, lane := 0, refused := 0, first := 0, fvalid := false,
    code := 0, landing := 0, markers := 0 }
def wV (f : State → State) : State := f { wE [(7, gateSlot)] with unreachable := false }

theorem test_witness_grid_messages : reachesHere (wV id) (msg 1) = true ∧ (msg 1).markers = 0 ∧ rootHere (wV id) (msg 1) = true ∧ answersHere (wV id) (msg 0) = true ∧
    (wV fun s => { s with landings := [msg 1] }).landings.any (landingDue (wV id)) = true ∧ (wV id).unreachable = false ∧ gridValid (wV id) = true ∧
    (1 ≠ selfLin (wV id) ∧ 1 < gridDevices (wV id)) ∧ (wV id).deadPlanes.getLsbD 7 = false := by decide +kernel

/-- A link with a flit that is not acknowledged, with 16 failed replays, with 2^16 flits sent. Whatever credits the other end announced, some
count agrees with an audit, and some does not. -/
def flit (q : BitVec 8) (vc : BitVec 3) : PortFlit := { line := none, flit := { vc, sof := true, eof := true, fseq := q, payload := [] } }
def link : Link := { kept := [flit 4 0, flit 5 1, flit 6 0], fails := 15, flits := 2 ^ 16 }
theorem test_witness_links : (let s := wV fun s => { s with links := [(63, link)] }
     getLink s 63 = link ∧ link.up = true ∧ link.kept = [flit 4 0] ++ flit 5 1 :: [flit 6 0] ∧ (∀ x ∈ [flit 4 0], x.flit.fseq ≠ 5) ∧ link.fails < 16 ∧ 2 ^ 16 ≤ link.flits) ∧
    getLink (wV fun s => { s with links := [(0, { link with fails := 16 })] }) 0 = { link with fails := 16 } ∧ 16 ≤ { link with fails := 16 }.fails ∧ State.reset.unreachable = true := by
  decide +kernel

theorem test_witness_audit (vc : BitVec 3) :
    (∃ n, Config.initialCredits 63 vc.toNat + flying link vc.toNat = n + spGet 0 link.spent vc.toNat) ∧
    ∃ n, Config.initialCredits 63 vc.toNat + flying link vc.toNat ≠ n + spGet 0 link.spent vc.toNat :=
  ⟨⟨_, rfl⟩, ⟨_ + 1, fun h => by simp only [link, spGet, Nat.add_zero] at h; exact absurd h (Nat.ne_of_lt (Nat.lt_succ_self _))⟩⟩

/-- A row of batch 0; a dispatch with one slot that is out, and settled. A batch whose markers are due, one that a round closes, one that is
closed and has ended, one with a tile to spawn. -/
def disp (x : Bool) : Dispatch :=
  { op := 8, blk := 2, pidx := 0, pos := 0, ctx := 0, region := 0x100007000, gate := 7, batch := 0, ordered := false, route := [], routeVa := 0, r0 := 0, depth := 1, owners := [0],
    tokens := [{ row := 0, ranked := [0], taken := 1, data := [], poison := false }], slots := [{ token := 0, slot := 0, pos := 0, expert := 0, out := !x, settled := x, weight := 0 }] }
def row : TokenRow := { src := 1, ctx := 0, op := 8, gate := 7, batch := 0, token := 0, slot := 0, pos := 0, expert := 0, weight := 0, row := [] }
def ordSlot : GateSlot := { gateSlot with gcb := BitVec.ofNat 512 (gcb + 2 ^ 25), batches := [{ batch := 0, dests := [0], lasts := [0] }] }
def tileSlot : GateSlot := { gateSlot with batches := [{ batch := 0, closed := true, written := [(0, 0)] }] }
def memT : List Host.Cell := cellsOfBytes 0x100060000 (leBytes 8 (ert 2 0 0)) ++ [(0x100220000, 1)]

theorem test_witness_expert_rows : bankFree (wV id) 7 0 = true ∧ (let s := wV fun s => { s with dispatches := [disp false] }
     (∀ a ∈ [RowAnswer.granted 0, .full, .kennel, .refused], replyKnown s { op := 8, token := 0, slot := 0, answer := a } = true)) ∧
    (let s := wV fun s => { s with dispatches := [disp true] }; (s.dispatches.find? fun x => x.op == 8) = some (disp true) ∧ ((disp true).slots.all fun x => x.settled) = true) ∧
    markReady (wV id) 7 (gOrdered (gateWord gateSlot)) { batch := 0, dests := [0] } = true ∧
    (ordSlot.batches.find? roundReady = ordSlot.batches.head? ∧ gOrdered (gateWord ordSlot) = true) ∧
    (let b : BatchState := { batch := 1, closed := true, closeDone := true }; bankBatch { gateSlot with batches := [b] } 1 = some b ∧ resetReady b = true) ∧
    (let s := wV fun s => { s with gates := [(7, tileSlot)], tlb := [leaf, windowLeaf], mem := memT }
     ∃ b, bankBatch tileSlot 0 = some b ∧ tileReady s tileSlot b 0 0 = true) ∧ selfLin (wV id) = 0 := by
  refine ⟨by decide +kernel, by decide +kernel, by decide +kernel, by decide +kernel, by decide +kernel, by decide +kernel, ⟨_, rfl, by decide +kernel⟩, by decide +kernel⟩

/-- An MBMARK of slot 7 that waits, with the instruction at its address; a fetch that the pool serves, and one that runs; an entry that is
evicting. -/
def markPack : Pack := { packE with frags := [{ frag with st := .waiting, wait := .mark 7 }] }
def markWord : Nat := (encodeBytes (.mbmark { g0 with a := .k 2, opx := 7 })).foldr (fun b n => b.toNat + 256 * n) 0
def poolCells : List Host.Cell := cellsOfBytes 0x100007088 (leBytes 6 0x1000088) ++ cellsOfBytes 0x100008800 (leBytes 64 (25 + 2 ^ 192 * 0x100008900 + 2 ^ 256)) ++
  cellsOfBytes 0x100008900 (leBytes 8 0x100400000)
theorem test_witness_pager : (let s := wV fun s => { s with blocks := [{ blk with packs := [markPack] }], tlb := [leaf, codeLeaf], mem := cellsOfBytes 0x100001000 (leBytes 8 markWord) }
     ∃ e, markWaiter s 7 = some e ∧ markFree s 7 = true ∧ let u := wakeFrag s e.ref
      fetched u (refresh u e) = .ok (.mbmark { g0 with a := .k 2, opx := 7 })) ∧
    (let s := wV fun s => { s with fetches := [{ idx := 16383 }], hi := { s.hi with ctxtab := 0x100004001 },
                                   mem := cellsOfBytes 0x100001000 (leBytes 8 0x100001001) ++ memR.filter (fun c => 0x100002000 ≤ c.1) ++ cellsOfBytes 0x100004000 (leBytes 16 (0x100001001 + 2 ^ 64 * 0x1000070)) ++ poolCells ++
                                     cellsOfBytes (0x100060000 + 32 * 16383) (leBytes 16 (1 + 2 ^ 32 + 2 ^ 64 * 0x4000000000000)) }
     (runningFetch s 16383).isSome = true ∧ fetchReady s 16383 = true ∧ (fetchFrames s 16383).isSome = true) ∧
    ertState (ertEntry (wV fun s => { s with mem := cellsOfBytes 0x100060000 (leBytes 8 (ert 4 0 0)) }) 0) = 4 := by
  refine ⟨⟨_, rfl, by decide +kernel, by decide +kernel⟩, by decide +kernel, by decide +kernel⟩

/-- A request of 4 bytes that may start, and one that has; a segment, its channel; a receive whose message began. -/
def req (b : Bool) : NeReq :=
  { op := 8, blk := 2, pidx := 0, pos := 0, ctx := 0, table := 0x100014000, region := 0x100007000, entry := BitVec.ofNat 512 centry, wr := BitVec.ofNat 512 (4 * 2 ^ 32),
    pages := [], ctr := none, begun := b, segs := if b then [{ part := 0, psn := 0, port := 0 }] else [] }
theorem test_witness_network : (let s := wV fun s => { s with channels := [chan 0 0], sends := [req false] }
     (s.sends.find? fun x => x.op == 8) = some (req false) ∧ sendReady s (req false) = true ∧ (ackChan s { id := ceId centry, received := [0], refusal := none }).isSome = true ∧ s.livePorts ≠ 0 ∧ (chanById s (ceId centry)).isSome = true ∧ inLehr s = false) ∧
    (let s := wV fun s => { s with channels := [chan 0 0], sends := [req true] }
     (openSeg s 8 0).isSome = true ∧ (s.sends.find? fun q => q.op == 8 && q.begun) = some (req true)) ∧
    (let r : NeRecv := { op := 9, ctx := 0, table := 0x100014000, region := 0x100007000, wr := 0, pages := [], ctr := none, msg := some 0 }
     (wV fun s => { s with receives := [r] }).receives.find? (fun x => x.op == 9 && x.msg.isSome) = some r) := by decide +kernel

/-! ## Witnesses: the host, resets, the step -/

theorem test_witness_host : hostUp State.reset = true ∧ State.reset.planeWrite = none ∧ inLehr State.reset = false ∧
    inLehr { State.reset with hi := { State.reset.hi with histat := 6 } } = true ∧ hostUp { State.reset with hi := { State.reset.hi with histat := 6 } } = true ∧
    gridQuiet (wV fun s => { s with planeWrite := some 0x76543210 }) = true ∧
    (∀ k ∈ [HomeKind.load, .store], homeOk { kind := k, pa := 0, width := 128, op := 0, data := 0, cmp := 0 } = true) ∧ deviceMemory 0 = true ∧ deviceMemory 0x21FFFFFFFFF = true ∧
    (tierOf 0x8000000000000 = some .host ∧ 0x8000000000000 % 128 = 0 ∧ gPoisoned State.reset 0x8000000000000 128 = false) ∧
    (match xlate (wD id) 0 false .write 0x100000078 with | .ok pa => homeOk { kind := .store, pa, width := 8, op := 0, data := 0, cmp := 0 } | .error _ => false) = true ∧
    (let s := wD fun s => { s with moved := [{ ctx := 0, va := 2 ^ 56, k := 21, dest := 1 }] }
     (match xlate s 0 false .read (2 ^ 56 + 0x78) with | .ok _ => false | .error _ => true) = true ∧ movedTo s 0 (2 ^ 56 + 0x78) = some 1 ∧
     homeOk { kind := .load, pa := (2 ^ 56 + 0x78) % 128, width := 8, op := 0, data := 0, cmp := 0 } = true) ∧
    (islandOff State.reset 47 = false ∧ islandOff State.reset 208 = false) ∧ contextCounters State.reset 0 = none ∧ (contextCounters (wP 16 0x1E) 0).isSome = true := by decide +kernel

/-- A step runs NOP; it takes ILLEGAL for a reserved selector of C16, and the fault of a fetch that no translation serves. An event of the
agenda, one of the device's own in its turn and where no fragment can issue, and a device at rest. -/
def answersNext (o : Host.Outcome State Fault Refusal) : Bool := match o with
  | .next _ => true
  | _ => false
def fetchesNow (s : State) : Option (Except (Nat × Nat) (List Byte)) :=
  let t := { s with tick := s.tick + 1, cur := none }
  (selectFrag t).map fun e => let u := takeTurn t e; let e' := refresh u e; fetchAt u e'.l.ctx (inSup e'.f) e'.f.pc.toNat

theorem test_witness_step : ((wP 16 0x1E).agenda = [] ∧ (wP 16 0x1E).tick % 2 = 0 ∧
     (match fetchesNow (wP 16 0x1E) with | some (.ok bs) => decode bs == .instr .nopC16 1 | _ => false) = true) ∧
    (match fetchesNow (wP 16 0x9E) with | some (.ok bs) => (match decode bs with | .reject _ => true | _ => false) | _ => false) = true ∧
    (match fetchesNow (world pack blk lch) with | some (.error _) => true | _ => false) = true ∧
    ({ State.reset with agenda := [.nopC16] }.agenda = Instr.nopC16 :: [] ∧ State.reset.agenda = []) ∧
    (internalStep { State.reset with arriving := [{ packet := 0, source := .leaf 0 }], tick := 1 }).isSome = true ∧
    internalStep { State.reset with tick := 1 } = none ∧ selectFrag { State.reset with tick := 1 } = none := by
  refine ⟨by decide +kernel, by decide +kernel, by decide +kernel, by decide +kernel, by decide +kernel, by decide +kernel, by decide +kernel⟩

/-- A vector instruction that issues with another pack's; a predicate that an error has lost; an input, a domain to stop, a lost line. -/
def vecWorld (p : Pack) : State := { wS p id with mem := cellsOfBytes 0x100001000 (encodeBytes (.iadd { g0 with dst := .v 2, a := .v 1, b := .v 1, pred := { neg := false, idx := 0 } })) ++ memR.filter (fun c => 0x100002000 ≤ c.1) }
theorem test_witness_co_issue : (let s := { vecWorld pack with co := [ref0] }; let c := { s with cur := none }
     s.co = ref0 :: [] ∧ (issuerAt c ref0).map (·.ref) = some ref0 ∧ (issuerAt c ref0).any (fun e => fragReady c e && vectorNext c e) = true) ∧
    (let p := { pack with badP := [(7, 0)] }; badPreds (who p blk lch) (.iadd { g0 with dst := .v 2, a := .v 1, b := .v 1, pred := { neg := false, idx := 0 } }) = true) ∧
    ({ State.reset with inputs := [.page 0 0 0 12 [] []] }.inputs ≠ [] ∧ State.reset.inputs = [] ∧ State.reset.doomed = [] ∧ State.reset.co = []) ∧
    { State.reset with lost := [{ region := 0, va := 0 }] }.lost ≠ [] ∧ { State.reset with doomed := [{ region := 0, ctx := 0, pack := 0, linear := 0, info := { cause := 0x11 } }] }.doomed ≠ [] := by
  decide +kernel

/-- REGANG of the slices of a pack that has no other fragment; BARWAIT of a phase held from before. -/
theorem test_witness_alone : (let e := who pack blk lch; IssuesAlone (world pack blk lch) e ∧ (∀ i x, i ≠ e.ref.frag → getFrag e.p i = some x → x.st ≠ .regang)) ∧
    ((let e := who pack blk lch; ∀ k, k < 2 → (3 : Nat).testBit k = true → e.f.slices.getLsbD k = true)) ∧
    (let p := packF { frag with phase := some 7 }; let x : Barrier := { expected := 2, phase := 8 }; IssuesAlone (world p (blkB x) lch) (who p (blkB x) lch) ∧
      getBar (who p (blkB x) lch).b 15 = some x ∧ x.phase ≠ (who p (blkB x) lch).f.phase.getD (waitPhase x p)) := by
  refine ⟨⟨⟨⟨rfl, rfl⟩, rfl⟩, ?_⟩, by decide +kernel, ⟨⟨rfl, rfl⟩, rfl⟩, by decide +kernel, by decide +kernel⟩
  intro i x h hx
  cases i with
  | zero => exact absurd rfl h
  | succ n => simp [getFrag, who, pack] at hx

theorem test_witness_canonical : Memory.wf State.reset.mem = true ∧ answersNext (step State.reset) = true ∧ Memory.wf (wP 16 0x1E).mem = true ∧
    answersNext (step (wP 16 0x1E)) = true := by
  refine ⟨by decide +kernel, by decide +kernel, by decide +kernel, by decide +kernel⟩

/-! ## Single steps: expected values from the spec's worked examples, which each comment names -/

/-- The pack after an instruction, and a register of a lane, a uniform register, a predicate, a slice's FPSTAT. -/
def after (p : Pack) (i : Instr) : Pack := match exec i (world p blk lch) with
  | .next t => (packNow t ref0).getD gone
  | _ => gone
def packV (v : List (Nat × Word)) : Pack := { pack with slices := List.replicate 2 { slice with lanes := List.replicate 4 { v := v } } }
def vAt (p : Pack) (l r : Nat) : Word := getV false p l r
def fpAt (p : Pack) : BitVec 8 := (sliceOf p 0).fpstat

/-- R285, example: byte 2 sign-extended. -/
theorem test_prmt_extends : vAt (after (packV [(1, 0x128000FF), (3, 0x000E0002)]) (.prmt { g0 with dst := .v 2, a := .v 1, b := .v 1, c := .v 3, ty := .b32 })) 7 2 =
    0xFFFFFF80 := by decide +kernel

/-- R280, example: IADD.sat of i8x4 elements 100 and 100 gives 127 and SAT; without sat, −56. -/
theorem test_iadd_saturates : let r := after (packV [(1, 0x64646464)]) (.iadd { g0 with dst := .v 2, a := .v 1, b := .v 1, ty := .i8x4, sat := true })
    vAt r 0 2 = 0x7F7F7F7F ∧ fpAt r = 32 := by decide +kernel
theorem test_iadd_wraps : let r := after (packV [(1, 0x64646464)]) (.iadd { g0 with dst := .v 2, a := .v 1, b := .v 1, ty := .i8x4 })
    vAt r 0 2 = 0xC8C8C8C8 ∧ fpAt r = 0 := by decide +kernel

/-- The same example: IABSD.i32 of −2^31 and 1. -/
theorem test_iabsd : (vAt (after (packV [(1, 0x80000000), (3, 1)]) (.iabsd { g0 with dst := .v 2, a := .v 1, b := .v 3 })) 0 2 = 0x80000001) ∧
    vAt (after (packV [(1, 0x80000000), (3, 1)]) (.iabsd { g0 with dst := .v 2, a := .v 1, b := .v 3, sat := true })) 0 2 = 0x7FFFFFFF := by decide +kernel

/-- R291, example: p3 := p1 and not p2, by lut 0x88. -/
theorem test_plop_lut : ∀ x ∈ [((2 : BitVec 7), true), (6, false), (4, false), (0, false)],
    let p := { pack with slices := List.replicate 2 { slice with lanes := List.replicate 4 { p := x.1 } } }
    getP (after p (.plop { dst := 3, pred := all, pa := { neg := false, idx := 1 }, pb := { neg := true, idx := 2 }, pc := { neg := false, idx := 7 }, lut := 0x88 })) 0 3 = x.2 := by
  decide +kernel

/-- The table of the example under R296: a is 3, 5, 3, 7, 5, 3, 9, 5, and p2 is false only in lane 6, whose old value stays. -/
def exch : Pack := { pack with slices := [[3, 5, 3, 7], [5, 3, 9, 5]].mapIdx fun k xs =>
  { slice with lanes := xs.mapIdx fun i (x : Word) => { v := [(1, x), (2, 0x77)], p := if 4 * k + i = 6 then 0 else 4 } } }
def ofTable (i : Instr) : List Word := (List.range 8).map fun l => vAt (after exch i) l 2
def gx : Gen := { g0 with dst := .v 2, a := .v 1, pred := { neg := false, idx := 2 }, ty := .b32 }
theorem test_match : ofTable (.matchLanes gx) = [0x340, 0x341, 0x10300, 0x143, 0x10301, 0x20300, 0x77, 0x20301] := by decide +kernel
theorem test_rank : ofTable (.rank gx) = [0, 0, 1, 0, 1, 2, 0x77, 2] ∧ ofTable (.rank { gx with opx := 1 }) = [3, 3, 3, 1, 3, 3, 0x77, 3] := by decide +kernel
theorem test_redux_add : ofTable (.redux { gx with ty := .i32 }) = [31, 31, 31, 31, 31, 31, 0x77, 31] := by decide +kernel
theorem test_scan_exclusive : ofTable (.scan { gx with ty := .i32, opx := 8 }) = [0, 3, 8, 11, 18, 23, 0x77, 26] := by decide +kernel
theorem test_vote_mask : let r := after exch (.vote { gx with dst := .s 4, ty := .b64, opx := 3 }); getS false r 4 = 0xBF ∧ getS false r 5 = 0 := by decide +kernel

/-- R297, example: lane 12 belongs to another fragment, so lane 3 receives the fill. -/
theorem test_shfl_across_fragments : let p := { pack16 with
      slices := (List.range 4).map fun k => { slice with lanes := List.replicate 4 { v := [(0, if k = 3 then 9 else 5), (1, 0x77)] } },
      frags := [{ frag with slices := 3 }, { frag with slices := 12, pc := 0x2000 }] }
    vAt (after p (.shfl { g0 with dst := .v 1, a := .v 0, b := .k 12, ty := .b32 })) 3 1 = 0 := by decide +kernel

/-- R316, example: FSTAT.clear in fragment 1 leaves the DZ of slice 0. -/
theorem test_fstat_clear : let p := { pack with slices := [{ slice with fpstat := 2 }, slice], frags := [{ frag with slices := 2 }, { frag with slices := 1, pc := 0x2000 }] }
    let r := after { p with s := [(5, 0xFF), (4, 0x77)] } (.fstatClear { g0 with dst := .s 4, a := .s 5, ty := .b32 }); getS false r 4 = 0 ∧ fpAt r = 2 := by decide +kernel

/-- R304, example: FRCP of 3 toward zero and up, with NX. -/
theorem test_frcp : let r := fun m => after (packV [(3, 0x40400000)]) (.frcp { g0 with dst := .v 2, a := .v 3, ty := .f32, rnd := m })
    vAt (r .rtz) 0 2 = 0x3EAAAAAA ∧ vAt (r .rup) 0 2 = 0x3EAAAAAB ∧ fpAt (r .rtz) = 16 := by decide +kernel

/-! R299, R305, R306: an f64 FSET and an f64 FCLASS write one 32-bit register. -/
theorem test_fset_f64 : let r := after (packV [(2, 0), (3, 0x3FF00000), (4, 0), (5, 0x3FF00000), (7, 0x55)]) (.fset { g0 with dst := .v 6, a := .v 2, b := .v 4, ty := .f64 })
    vAt r 0 6 = 0xFFFFFFFF ∧ vAt r 0 7 = 0x55 := by decide +kernel
theorem test_fclass_f64 : let r := after (packV [(2, 0), (3, 0x3FF00000), (4, 0x3FF), (7, 0x55)]) (.fclass { g0 with dst := .v 6, a := .v 2, b := .v 4, ty := .f64 })
    vAt r 0 6 = 0x100 ∧ vAt r 0 7 = 0x55 := by decide +kernel

/-- R310, example: two values packed to bf16x2. -/
theorem test_cvt_bf16 : let r := after (packV [(2, 0x3F808000), (3, 0xC0466666)]) (.cvt { g0 with dst := .v 6, a := .v 2, b := .v 3, ty := .bf16x2, opx := 4 })
    vAt r 0 6 = 0xC0463F80 ∧ fpAt r = 16 := by decide +kernel

/-- R311, example: four values to one tf8x4 word; element 2 is stochastic. 3.0, −0.3, 2^−14, 1,500. -/
theorem test_tf8pk : let r := after (packV [(8, 0x40400000), (9, 0xBE99999A), (10, 0x38800000), (11, 0x44BB8000)]) (.tf8pk { g0 with dst := .v 4, a := .v 8, c := .k 1, ty := .tf8x4 })
    vAt r 0 4 ∈ [0x0700AA68, 0x0701AA68] ∧ fpAt r = 16 + 128 := by decide +kernel

/-- R313, example: code 0x68 re-scaled by 2 and by −10; and TF8UP of the word before, widened by 1. -/
theorem test_requant : let r := fun d => after (packV [(1, 0x68), (3, d)]) (.requant { g0 with dst := .v 2, a := .v 1, b := .v 3, ty := .tf8x4 })
    vAt (r 2) 0 2 = 0x48 ∧ fpAt (r 2) = 0 ∧ vAt (r 0xFFFFFFF6) 0 2 = 0x03 ∧ fpAt (r 0xFFFFFFF6) = 16 + 32 := by decide +kernel
theorem test_tf8up : let r := after (packV [(1, 0x0700AA68)]) (.tf8up { g0 with dst := .v 4, a := .v 1, b := .k 1, ty := .f32, opx := 4 })
    [4, 5, 6, 7].map (vAt r 0) = [0x40400000, 0xBEA00000, 0, 0x44800000] := by decide +kernel

/-- R219, example: 2^24, 1, 1, −2^24 by FADD: the tree gives 1.0, and the inclusive scan at lane 2 gives 2^24. -/
def terms : Pack := { pack with slices := [{ slice with lanes := [0x4B800000, 0x3F800000, 0x3F800000, 0xCB800000].map fun (x : Word) => { v := [(1, x)], p := 1 } }, slice] }
theorem test_redux_tree : vAt (after terms (.redux { g0 with dst := .v 2, a := .v 1, ty := .f32, pred := { neg := false, idx := 0 } })) 0 2 = 0x3F800000 := by decide +kernel
theorem test_scan_tree : vAt (after terms (.scan { g0 with dst := .v 2, a := .v 1, ty := .f32, pred := { neg := false, idx := 0 } })) 2 2 = 0x4B800000 := by decide +kernel

/-- R209, example: RoundTF8 of 0.3, −5.3, 600, 768, 2,000, 1.5 × 2^−13 for a w below m and for one at it, NaN; the decode of 0x5A. -/
theorem test_tf8_codes : (tf8Round (fDecode fmtF32 0x3E99999A) 0).1 = 0x43 ∧ (tf8Round (fDecode fmtF32 0xC0A9999A) 0).1 = 0xB3 ∧ (tf8Round (.fin false 600 0) 0).1 = 0x07 ∧
    (tf8Round (.fin false 768 0) 0).1 = 0x07 ∧ (tf8Round (.fin false 2000 0) 0).1 = 0x03 ∧ (tf8Round (.fin false 3 (-14)) 0xBFFFFF).1 = 0x01 ∧
    (tf8Round (.fin false 3 (-14)) 0xC00000).1 = 0 ∧ (tf8Round (.nan false) 0).1 = 0x80 ∧ (roundVal fmtF32 .rne (tf8Value 0x5A)).1 = 0x3F500000 := by decide +kernel

/-- R222, example: 2^20, −2^20, 3 × 2^−69 and 2^−80 give 2^−68. -/
theorem test_pass_window : (passSum [.fin false 1 20, .fin true 1 20, .fin false 3 (-69), .fin false 1 (-80)]).1 = 0x1D800000 := by decide +kernel

/-- R355, example: element (5, 130) of a BF16 tensor in Z-order. -/
theorem test_zorder : storedAddr (2 + 2 ^ 16 + 2 ^ 32 * 256 + 2 ^ 64 * 256 + 2 ^ 96 * 0x100000 + 2 ^ 160 * 4) 5 130 = 0x10804C := by decide +kernel

/-- R388, example: the pattern's validity, raw count, rank and root; E with and without exself. -/
theorem test_pattern : let s := { State.reset with sys := { griddesc := 0xC0100103 } }; let p := 0x03000000000000000001004006000004
    patValid s p = true ∧ patRaw s p = 8 ∧ patRank s p [1, 2, 3] = 7 ∧ patRoot p [1, 1, 0] = [1, 1, 0] ∧
    patExpected s (p + 2 ^ 123) [1, 1, 0] = 7 ∧ patExpected s (p + 2 ^ 123) [0, 0, 0] = 8 := by decide +kernel

/-- R396, R397, example: the logical plane, link and physical plane of a line. -/
theorem test_planes : planeOf 0x0100000000123480 = 7 ∧ linkOf 0x0100000000123480 = 2 ∧ physOf State.reset 7 = some 7 ∧
    physOf { State.reset with sys := { planemap := 0x0000007F76543210 } } 7 = some 0 := by decide +kernel

/-- R92, example: core 5 asks core 11, then core 22. -/
theorem test_steal_victims : lfsrNext 0x8005 = 0x000B ∧ lfsrNext 0x000B = 0x0016 := by decide

/-- R122, example. -/
theorem test_home_stack : stackOf 0x001800002080 = 1 ∧ tierOf 0x001800002080 = some .dram := by decide

/-- R116, example: blocks 0, 1 and 2 take 5, 0 (DECLINE) and 3 on stream 4. -/
theorem test_append_order : let a := claimStream lch 4 0 5; let b := claimStream a.1 4 1 0; let c := claimStream b.1 4 2 3
    (a.2, b.2, c.2) = (0, 5, 5) ∧ (spGet {} c.1.streams 4).base = 8 ∧ appendTurn lch 4 2 = false ∧ appendTurn b.1 4 2 = true := by decide

/-- Words of the spec's examples (R310, R330, R362, R417, R424, R491). -/
theorem test_decode_examples : decodeTableWord 64 0x0105FF8181381983 = some (.cvt { g0 with dst := .v 6, a := .v 2, b := .v 3, ty := .bf16x2, opx := 4 }) ∧
    decodeTableWord 64 0x50400020040819DF = some (.cpl { m0 with data := .v 6, pred := { neg := false, idx := 1 }, base := .v 8, off := 64, width := .cp32, sel := 2, ext := 1 }) ∧
    decodeTableWord 64 0x0011000001B8029B = some (.mma { x0 with tid := 3, reg := .s 8 }) ∧
    decodeTableWord 64 0x0211400003B812A3 = some (.mstAdd { x0 with tile := 4, tid := 7, reg := .s 10, flags := 1 }) ∧
    decodeTableWord 64 0x005817F884381313 = some (.gatom { q0 with data := .v 4, addr := .v 8, gp := 1, width := 2, order := .acqRel, scope := .grid }) ∧
    decodeTableWord 64 0x00807FEA443BFF47 = some (.gdispatch { g0 with a := .s 8, b := .k 4, opx := 2 }) ∧
    decodeTableWord 64 0x00007FEABC39EF9B = some (.mappg { g0 with dst := .v 123, a := .v 120, b := .k 5 }) := by decide +kernel

/-- The check value of CRC-32C (R391): the nine digits of "123456789". -/
theorem test_crc : crc32c ((List.range 9).map fun i => BitVec.ofNat 8 (0x31 + i)) = 0xE3069283 := by decide +kernel

/-- R391: the fields of a flit's header; R1: the Revision ID of the configuration header. -/
theorem test_flit_header : flitHead { vc := 5, sof := true, eof := false, crd := 3, cvc := 2, kind := 1, fseq := 0xA0, payload := [] } = 0xA0506D ∧
    (flitBytes { vc := 0, sof := false, eof := true, payload := List.replicate 56 0 }).length = 64 := by decide +kernel
theorem test_revision : pcieHeader 8 = some 0xB0 := by decide
end Sys2Proof.Tests
end

section
/-! O55: what the host, the management processor and the clocks do. -/

namespace Sys2Proof.Proofs

open Sys2Proof Sys2Proof.Machine Sys2Proof.Safety Sys2Proof.Laws

/-! ## Events -/

/-- An event that may occur has its effect. -/
theorem occur_due {s t : State} {enabled : Bool} (h : enabled = true) : occur s (due enabled t) = .next t := by
  subst h; rfl

/-! ## Writes of the device's registers (R449, R452, R454, R554) -/

theorem hostRegPut_lehr {s : State} (h : inLehr s = true) (off : Nat) (x : DWord) : hostRegPut s off x = s := by
  simp [hostRegPut, h]

theorem hostRegPut_sysreg {s : State} (h : inLehr s = false) {n : Nat} (hn : n < 16) (x : DWord) :
    hostRegPut s (0x400 + 8 * n) x = hostSysWrite s n x.toNat := by
  have hr : 0x400 ≤ 0x400 + 8 * n ∧ 0x400 + 8 * n < 0x480 := by omega
  have hi : (0x400 + 8 * n - 0x400) / 8 = n := by omega
  unfold hostRegPut
  rw [h, if_neg Bool.false_ne_true, if_pos hr, hi]

theorem hostRegPut_doorbell {s : State} (h : inLehr s = false) {q : Nat} (hq : q < 256) (p : Word) :
    hostRegPut s (0x1000 + 8 * q) (p.setWidth 64) = doorbell s q p := by
  have hs : ¬(0x400 ≤ 0x1000 + 8 * q ∧ 0x1000 + 8 * q < 0x480) := by omega
  have hr : 0x1000 ≤ 0x1000 + 8 * q ∧ 0x1000 + 8 * q < 0x1800 := by omega
  have hi : (0x1000 + 8 * q - 0x1000) / 8 = q := by omega
  have hp : (p.setWidth 64).setWidth 32 = p := by simp
  unfold hostRegPut
  rw [h, if_neg Bool.false_ne_true, if_neg hs, if_pos hr, hi, hp]

/-- Below the system registers every register takes its value by its own offset. -/
theorem hostRegPut_low {s : State} (h : inLehr s = false) (x : DWord) :
    hostRegPut s 0x10 x = { s with hi := { s.hi with ctxtab := x &&& tabMask } } ∧
    hostRegPut s 0x18 x = { s with hi := { s.hi with hqtab := x &&& tabMask } } ∧
    hostRegPut s 0x20 x = hqerrWrite s x ∧
    hostRegPut s 0x28 x = { s with hi := { s.hi with biastab := x &&& tabMask } } ∧
    hostRegPut s 0 x = s ∧ hostRegPut s 8 x = s := by
  simp [hostRegPut, h]

section Writes
variable {s : State} (hup : hostUp s = true) (hw : s.planeWrite = none)
include hup hw

theorem hostMayWrite_of : hostMayWrite s = true := by simp [hostMayWrite, hup, hw]

theorem exec_hostQueueDoorbell (q : BitVec 8) (p : Word) :
    exec (.hostQueueDoorbell q p) s = .next (hostRegPut s (0x1000 + 8 * q.toNat) (p.setWidth 64)) :=
  occur_due (hostMayWrite_of hup hw)

theorem exec_hqerrClear (mask : DWord) : exec (.hqerrClear mask) s = .next (hostRegPut s 0x20 mask) :=
  occur_due (hostMayWrite_of hup hw)

theorem exec_hostSysregWrite (n : BitVec 4) (x : DWord) :
    exec (.hostSysregWrite n x) s = .next (hostRegPut s (0x400 + 8 * n.toNat) x) := by
  change occur s (onHostSysregWrite n x s) = _
  rw [onHostSysregWrite, hw]
  exact occur_due hup

theorem exec_hostRegisterWrite {off : BitVec 24} (ha : off.toNat % 8 = 0) (ho : ownEvent off.toNat = false) (x : DWord) :
    exec (.hostRegisterWrite off x) s = .next (hostRegPut s off.toNat x) :=
  occur_due (by simp [hostMayWrite_of hup hw, ha, ho])

end Writes

/-- A write of PLANEMAP that had to wait completes once the grid is quiet (R526). -/
theorem exec_planeWrite {s : State} {y : DWord} (hw : s.planeWrite = some y) (hq : gridQuiet s = true) :
    exec (.hostSysregWrite 4 y) s = .next (setPlanemap s y) := by
  change occur s (onHostSysregWrite 4 y s) = _
  rw [onHostSysregWrite, hw]
  exact occur_due (by simp [hq])

/-- In the lehr state no write of the host changes anything (R554). -/
theorem hostWrites_lehr {s : State} (hup : hostUp s = true) (hw : s.planeWrite = none) (hl : inLehr s = true)
    (q : BitVec 8) (p : Word) (n : BitVec 4) (x : DWord) :
    ∀ i ∈ [Instr.hostQueueDoorbell q p, .hqerrClear x, .hostSysregWrite n x, .hostRegisterWrite 0x10 x], exec i s = .next s := by
  simp only [List.forall_mem_cons, exec_hostQueueDoorbell hup hw, exec_hqerrClear hup hw, exec_hostSysregWrite hup hw,
    exec_hostRegisterWrite hup hw (off := 0x10) rfl rfl, hostRegPut_lehr hl, true_and]
  exact List.forall_mem_nil _

/-! ## Accesses to memory (R142, R153, R193) -/

theorem gReadNat_charged {s t : State} (h : Charged s t) (pa n : Nat) : gReadNat t pa n = gReadNat s pa n := by
  rw [gReadNat, gReadNat, gRead_congr fun i _ => charged_byte h (pa + i)]

theorem charged_homeTouch (s : State) (pa n : Nat) : Charged s (homeTouch s pa n).1 := charged_of rfl

theorem mbhost_of_hostUp {s : State} (h : hostUp s = true) : s.hi.mbhost.getLsbD 32 = false := by
  simpa [hostUp] using h

theorem homeServe_store {s : State} {r : HomeReq} (h : r.kind = .store) :
    homeServe s r = gWriteNat (homeTouch s r.pa r.width).1 r.pa r.width r.data := by
  rw [homeServe, homePerform, h]

/-- A load of bytes that carry no poison is answered with them, and leaves the device as it was but for the L2. -/
theorem homeServe_load {s : State} {r : HomeReq} (hup : hostUp s = true) (h : r.kind = .load)
    (hp : gPoisoned s r.pa r.width = false) :
    homeServe s r = reply (homeTouch s r.pa r.width).1 r.pa (some (gReadNat s r.pa r.width)) := by
  have ht := charged_homeTouch s r.pa r.width
  have hp' : gPoisoned (homeTouch s r.pa r.width).1 r.pa r.width = false :=
    (gPoisoned_wrote (wrote_charged ht) (mbhost_of_hostUp hup)).trans hp
  rw [homeServe, homePerform, h]
  simp only [hp', Bool.false_eq_true, if_false, gReadNat_charged ht]

theorem exec_hostMemoryAccess {s : State} {r : HomeReq} (hup : hostUp s = true) (hr : homeOk r = true)
    (hd : deviceMemory r.pa = true) (hk : r.kind = .load ∨ r.kind = .store) :
    exec (.hostMemoryAccess r) s = .next (if inLehr s then reply s r.pa none else homeServe s r) :=
  occur_due (by simpa [hup, hr, hd] using hk)

/-- What a snoop is answered with. -/
theorem exec_cxlCacheSnoop {s : State} {line : Nat} (hup : hostUp s = true) (ht : tierOf line = some .host) (ha : line % 128 = 0)
    (inval : Bool) : exec (.cxlCacheSnoop line inval) s = .next
      (if inLehr s then reply s line none
       else if inval then recallLine (reply s line (if gPoisoned s line 128 then none else some (gReadNat s line 128))) line
       else reply s line (if gPoisoned s line 128 then none else some (gReadNat s line 128))) :=
  occur_due (by simp [hup, ht, ha])

/-! ## The loss of the host link (R556) -/

theorem exec_hostLinkDown {s : State} (hup : hostUp s = true) : exec .hostLinkDown s = .next (hostLost s) := occur_due hup

theorem getQueue_congr {s t : State} (h : t.hi.queues = s.hi.queues) (q : Nat) : getQueue t q = getQueue s q := by
  unfold getQueue
  rw [h]

theorem getQueue_q (s : State) (q : Nat) : (getQueue s q).q = q := by
  unfold getQueue
  split
  · rename_i h hf
    simpa using List.find?_some hf
  · rfl

theorem noteQueues_queues (s : State) : (noteQueues s).hi.queues = s.hi.queues := rfl

theorem noteQueues_mbhost (s : State) : (noteQueues s).hi.mbhost = s.hi.mbhost := rfl

/-- The queues that have stopped show in HISTAT[3] (R449). -/
theorem noteQueues_pending {s : State} (h : ∃ x ∈ s.hi.queues, x.stopped = true) : (noteQueues s).hi.histat.getLsbD 3 = true := by
  simp [noteQueues, List.any_eq_true.2 h]

/-- The mailbox says that the link is down. -/
def linkNoted (s : State) : State := { s with hi := { s.hi with mbhost := bumpHalf s.hi.mbhost false ||| 0x100000000 } }

/-- Every host queue has stopped. -/
def queuesStopped (s : State) : State :=
  { s with hi := { s.hi with hqerr := BitVec.allOnes 64,
                             queues := (List.range 256).map fun q => { getQueue s q with stopped := true } } }

/-- The loss of the link in its three parts, which keeps the 256 queues folded up. -/
theorem hostLost_eq (s : State) : hostLost s = noteQueues (queuesStopped (linkNoted s)) := rfl

theorem queuesStopped_mem (s : State) {q : Nat} (hq : q < 256) :
    { getQueue s q with stopped := true } ∈ (queuesStopped s).hi.queues :=
  List.mem_map_of_mem (f := fun q => { getQueue s q with stopped := true }) (List.mem_range.2 hq)

theorem stopped_of_mem_queuesStopped {s : State} {h : HostQueue} (hm : h ∈ (queuesStopped s).hi.queues) : h.stopped = true := by
  obtain ⟨k, -, rfl⟩ := List.mem_map.1 hm
  rfl

theorem queuesStopped_stopped (s : State) {q : Nat} (hq : q < 256) : (getQueue (queuesStopped s) q).stopped = true := by
  unfold getQueue
  split
  · rename_i h hf
    exact stopped_of_mem_queuesStopped (List.mem_of_find?_eq_some hf)
  · rename_i hf
    simpa [getQueue_q] using List.find?_eq_none.1 hf _ (queuesStopped_mem s hq)

theorem hostLost_stopped (s : State) {q : Nat} (hq : q < 256) : (getQueue (hostLost s) q).stopped = true := by
  rw [hostLost_eq, getQueue_congr (noteQueues_queues _)]
  exact queuesStopped_stopped _ hq

theorem hostLost_histat (s : State) : (hostLost s).hi.histat.getLsbD 3 = true := by
  rw [hostLost_eq]
  exact noteQueues_pending ⟨_, queuesStopped_mem _ (show 0 < 256 by decide), rfl⟩

theorem hostLost_mbhost (s : State) : (hostLost s).hi.mbhost.getLsbD 32 = true := by
  rw [hostLost_eq, noteQueues_mbhost, queuesStopped, linkNoted]
  simp

/-! ## Requests that meet a migration (R157, R459) -/

section Resend
variable {s : State} {ctx : BitVec 16} {va : DWord}

theorem exec_resend_here {r : HomeReq} {pa : Nat} (hx : xlate s ctx.toNat false (homeNeed r.kind) va.toNat = .ok pa)
    (hr : homeOk { r with pa := pa } = true) :
    exec (.migrationResend ctx va (.request r)) s = .next (homeServe s { r with pa := pa }) := by
  change occur s (onMigrationResend ctx va (.request r) s) = _
  simp only [onMigrationResend, hx]
  exact occur_due hr

theorem exec_resend_moved {r : HomeReq} {c d : Nat} (hx : xlate s ctx.toNat false (homeNeed r.kind) va.toNat = .error c)
    (hd : movedTo s ctx.toNat va.toNat = some d) (hr : homeOk { r with pa := va.toNat % 128 } = true) :
    exec (.migrationResend ctx va (.request r)) s = .next (resendGrid s ctx.toNat va.toNat r d) := by
  change occur s (onMigrationResend ctx va (.request r) s) = _
  simp only [onMigrationResend, hx, hd]
  exact occur_due hr

theorem exec_resend_combined {t : CombTree} (hk : treeKind t = 3 ∨ treeKind t = 4) (hc : (treeMsg t).ctx = ctx.toNat)
    (ha : (treeMsg t).addr = va.toNat) : exec (.migrationResend ctx va (.combined t)) s = .next (serveTree s t) :=
  occur_due (by simpa [hc, ha] using hk)

end Resend

/-! ## Islands and meters (R25, R26, R475) -/

theorem foldl_onlyShadows {α : Type} (g : State → α → State) (h : ∀ s x, g s x = { s with shadows := (g s x).shadows })
    (l : List α) (s : State) : l.foldl g s = { s with shadows := (l.foldl g s).shadows } := by
  induction l generalizing s with
  | nil => rfl
  | cons x l ih =>
    rw [List.foldl_cons, ih, h s x]

/-- An interval's energy goes to the island's meter, however it is shared out. -/
theorem splitEnergy_meter (s : State) (n nj : Nat) :
    (spGet Island.reset (splitEnergy s n nj).islands n).meter = (islandOf s n).meter + nj := by
  unfold splitEnergy putIsland
  dsimp only
  rw [foldl_onlyShadows _ (fun s h => count_eq s _ _ _ _), spGet_spPut, if_pos rfl]
  rfl

theorem exec_energyInterval {s : State} {n : BitVec 8} (h : islandOff s n.toNat = false) (nj : Nat) :
    exec (.energyInterval n nj) s = .next (splitEnergy s n.toNat nj) := occur_due (by simp [h])

theorem exec_islandSet {s : State} {n : BitVec 8} (h : islandOff s n.toNat = false) (mv mhz : BitVec 16) :
    exec (.islandSet n mv mhz) s = .next (putIsland s n.toNat { islandOf s n.toNat with mv, mhz }) := occur_due (by simp [h])

/-! ## Reports of the management processor (R477 to R479) -/

theorem exec_mctpReadCounters {s : State} (h : inLehr s = false) (ctx : BitVec 16) :
    exec (.mctpReadCounters ctx) s = .next (respond s ((contextCounters s ctx.toNat).getD [])) := occur_due (by simp [h])

theorem exec_mctpSignedSnapshot {s : State} (h : inLehr s = false) (ctx : BitVec 16) (x : BitVec 256) :
    exec (.mctpSignedSnapshot ctx x) s = .next (takeSnapshotOf s ctx.toNat x) := occur_due (by simp [h])

theorem takeSnapshotOf_none {s : State} {ctx : Nat} (h : contextCounters s ctx = none) (x : BitVec 256) :
    takeSnapshotOf s ctx x = respond s [] := by
  rw [takeSnapshotOf, h]

theorem takeSnapshotOf_some {s : State} {ctx : Nat} {cs : List Byte} (h : contextCounters s ctx = some cs) (x : BitVec 256) :
    takeSnapshotOf s ctx x = respond { s with snapshots := s.snapshots + 1 } (snapshotRecord (s.snapshots + 1) ctx x cs) := by
  rw [takeSnapshotOf, h]

/-! ## Resets (R553 to R558) -/

/-- Self-test changes nothing but registers of the host interface, links and ports. -/
theorem selfTest_eq (s : State) (o : TestOutcome) : selfTest s o = { s with
    hi := (selfTest s o).hi, links := (selfTest s o).links, livePorts := (selfTest s o).livePorts } := by
  cases o <;> rfl

theorem selfTest_mbreset (s : State) (o : TestOutcome) : (selfTest s o).hi.mbreset = s.hi.mbreset := by cases o <;> rfl

/-- What self-test leaves of a state that the reset has cleared, whatever the reset keeps of memory and of the mailbox. -/
theorem selfTest_cleared (s : State) (mem : List Host.Cell) (poison : List Nat) (hi : HostRegs) (o : TestOutcome) :
    let t := selfTest { cleared s with mem := mem, poison := poison, hi := hi } o
    t.blocks = [] ∧ t.launches = [] ∧ t.sys = State.reset.sys ∧ t.remap = Remap.fuses := by
  dsimp only
  rw [selfTest_eq]
  exact ⟨rfl, rfl, rfl, rfl⟩

theorem coldReset_mbreset (s : State) (o : TestOutcome) : (coldReset s o).hi.mbreset = State.reset.hi.mbreset :=
  selfTest_mbreset _ o

/-- Only host memory outlives a cold reset (R557). -/
theorem coldReset_mem (s : State) (o : TestOutcome) : ∀ c ∈ (coldReset s o).mem, tierOf c.1 = some .host := by
  intro c hc
  unfold coldReset at hc
  rw [selfTest_mem] at hc
  simpa using (List.mem_filter.1 hc).2

/-- MBRESET after a warm reset: the count, the cause, and whether a counter was lost (R555). -/
theorem warmReset_mbreset (s : State) (cause : Nat) (o : TestOutcome) :
    (warmReset s cause o).hi.mbreset =
      BitVec.ofNat 64 (satLow s.hi.mbreset + cause * 2 ^ 32 + bit (unflushable (stopAll s)) * 2 ^ 40) :=
  selfTest_mbreset _ o

theorem satLow_lt (x : DWord) : satLow x < 2 ^ 32 := by unfold satLow; omega

/-- The fields of MBRESET do not run into each other. -/
theorem mbreset_fields {count cause lost : Nat} (h1 : count < 2 ^ 32) (h2 : cause < 256) :
    (BitVec.ofNat 64 (count + cause * 2 ^ 32 + lost * 2 ^ 40)).toNat / 2 ^ 32 % 256 = cause ∧
    (BitVec.ofNat 64 (count + cause * 2 ^ 32 + lost * 2 ^ 40)).toNat % 2 ^ 32 = count := by
  rw [BitVec.toNat_ofNat]
  omega

theorem warmReset_spec (s : State) {cause : Nat} (hc : cause < 256) (o : TestOutcome) :
    let t := warmReset s cause o
    t.blocks = [] ∧ t.launches = [] ∧ t.sys = State.reset.sys ∧ t.remap = Remap.fuses ∧
    t.hi.mbreset.toNat / 2 ^ 32 % 256 = cause ∧ t.hi.mbreset.toNat % 2 ^ 32 = satLow s.hi.mbreset := by
  have hm := mbreset_fields (count := satLow s.hi.mbreset) (lost := bit (unflushable (stopAll s))) (satLow_lt _) hc
  rw [← warmReset_mbreset s cause o] at hm
  obtain ⟨hb, hl, hs, hr⟩ := selfTest_cleared _ _ _ _ o
  exact ⟨hb, hl, hs, hr, hm⟩

/-! ## The obligation -/

/-- The host's register writes take effect, outside the lehr state. -/
theorem hostWrites_effect {s : State} (hup : hostUp s = true) (hw : s.planeWrite = none) (hl : inLehr s = false) :
    (∀ (q : BitVec 8) (p : Word), exec (.hostQueueDoorbell q p) s = .next (doorbell s q.toNat p)) ∧
    (∀ mask, exec (.hqerrClear mask) s = .next (hqerrWrite s mask)) ∧
    (∀ (n : BitVec 4) x, exec (.hostSysregWrite n x) s = .next (hostSysWrite s n.toNat x.toNat)) ∧
    (∀ x, exec (.hostRegisterWrite 0x10 x) s = .next { s with hi := { s.hi with ctxtab := x &&& tabMask } } ∧
      exec (.hostRegisterWrite 0x18 x) s = .next { s with hi := { s.hi with hqtab := x &&& tabMask } } ∧
      exec (.hostRegisterWrite 0x28 x) s = .next { s with hi := { s.hi with biastab := x &&& tabMask } } ∧
      exec (.hostRegisterWrite 0 x) s = .next s ∧ exec (.hostRegisterWrite 8 x) s = .next s) := by
  refine ⟨fun q p => ?_, fun mask => ?_, fun n x => ?_, fun x => ?_⟩
  · rw [exec_hostQueueDoorbell hup hw, hostRegPut_doorbell hl q.isLt]
  · obtain ⟨-, -, h20, -⟩ := hostRegPut_low hl mask
    rw [exec_hqerrClear hup hw, h20]
  · rw [exec_hostSysregWrite hup hw, hostRegPut_sysreg hl n.isLt]
  · obtain ⟨h10, h18, -, h28, h0, h8⟩ := hostRegPut_low hl x
    have hput := fun (off : BitVec 24) ha ho => exec_hostRegisterWrite hup hw (off := off) ha ho x
    exact ⟨(hput 0x10 rfl rfl).trans (congrArg _ h10), (hput 0x18 rfl rfl).trans (congrArg _ h18),
      (hput 0x28 rfl rfl).trans (congrArg _ h28), (hput 0 rfl rfl).trans (congrArg _ h0),
      (hput 8 rfl rfl).trans (congrArg _ h8)⟩

theorem hostAccesses_effect {s : State} {r : HomeReq} (hup : hostUp s = true) (hr : homeOk r = true)
    (hd : deviceMemory r.pa = true) :
    (inLehr s = true → (r.kind = .load ∨ r.kind = .store) →
      exec (.hostMemoryAccess r) s = .next { s with replies := s.replies ++ [(r.pa, none)] }) ∧
    (inLehr s = false → r.kind = .store →
      exec (.hostMemoryAccess r) s = .next (gWriteNat (homeTouch s r.pa r.width).1 r.pa r.width r.data)) ∧
    (inLehr s = false → r.kind = .load → gPoisoned s r.pa r.width = false → ∃ t, exec (.hostMemoryAccess r) s = .next t ∧
      t = { s with replies := s.replies ++ [(r.pa, some (gReadNat s r.pa r.width))], l2 := t.l2, free := t.free }) := by
  refine ⟨fun hl hk => ?_, fun hl hk => ?_, fun hl hk hp => ⟨_, exec_hostMemoryAccess hup hr hd (.inl hk), ?_⟩⟩
  · rw [exec_hostMemoryAccess hup hr hd hk, hl, if_pos rfl, reply]
  · rw [exec_hostMemoryAccess hup hr hd (.inr hk), hl, if_neg Bool.false_ne_true, homeServe_store hk]
  · rw [hl, if_neg Bool.false_ne_true, homeServe_load hup hk hp]
    rfl

theorem snoops_effect {s : State} {line : Nat} (hup : hostUp s = true) (ht : tierOf line = some .host) (ha : line % 128 = 0) :
    (inLehr s = true → ∀ v, exec (.cxlCacheSnoop line v) s = .next { s with replies := s.replies ++ [(line, none)] }) ∧
    (inLehr s = false → gPoisoned s line 128 = false →
      let t := { s with replies := s.replies ++ [(line, some (gReadNat s line 128))] }
      exec (.cxlCacheSnoop line false) s = .next t ∧ exec (.cxlCacheSnoop line true) s = .next (recallLine t line)) := by
  refine ⟨fun hl v => ?_, fun hl hp => ⟨?_, ?_⟩⟩
  · simp only [exec_cxlCacheSnoop hup ht ha, hl, if_true, reply]
  · simp only [exec_cxlCacheSnoop hup ht ha, hl, hp, Bool.false_eq_true, if_false, reply]
  · simp only [exec_cxlCacheSnoop hup ht ha, hl, hp, Bool.false_eq_true, if_false, if_true, reply]

/-- The counters that the management processor reports, outside the lehr state. -/
theorem counterReports_effect {s : State} (hl : inLehr s = false) (ctx : BitVec 16) (x : BitVec 256) :
    exec (.mctpReadCounters ctx) s = .next (respond s ((contextCounters s ctx.toNat).getD [])) ∧
    (contextCounters s ctx.toNat = none → exec (.mctpSignedSnapshot ctx x) s = .next (respond s [])) ∧
    ∀ cs, contextCounters s ctx.toNat = some cs → exec (.mctpSignedSnapshot ctx x) s = .next
      (respond { s with snapshots := s.snapshots + 1 } (snapshotRecord (s.snapshots + 1) ctx.toNat x cs)) := by
  refine ⟨exec_mctpReadCounters hl ctx, fun h => ?_, fun cs h => ?_⟩
  · rw [exec_mctpSignedSnapshot hl, takeSnapshotOf_none h]
  · rw [exec_mctpSignedSnapshot hl, takeSnapshotOf_some h]

theorem coldReset_effect (s : State) (o : TestOutcome) : ∃ t, exec (.coldReset o) s = .next t ∧ t.blocks = [] ∧
    t.launches = [] ∧ t.sys = State.reset.sys ∧ t.hi.mbreset = State.reset.hi.mbreset ∧ t.remap = Remap.fuses ∧
    ∀ c ∈ t.mem, tierOf c.1 = some .host := by
  obtain ⟨hb, hl, hs, hr⟩ := selfTest_cleared _ _ _ _ o
  exact ⟨coldReset s o, occur_due rfl, hb, hl, hs, coldReset_mbreset s o, hr, coldReset_mem s o⟩

theorem warmResets_effect (s : State) (o : TestOutcome) :
    ∀ x ∈ [(Instr.warmResetFlr o, 1), (.warmResetSecondaryBus o, 2), (.warmResetMp o, 3)], ∃ t, exec x.1 s = .next t ∧ t.blocks = [] ∧
      t.launches = [] ∧ t.sys = State.reset.sys ∧ t.remap = Remap.fuses ∧ t.hi.mbreset.toNat / 2 ^ 32 % 256 = x.2 ∧
      t.hi.mbreset.toNat % 2 ^ 32 = min (s.hi.mbreset.toNat % 2 ^ 32 + 1) (2 ^ 32 - 1) := by
  have spec := fun cause (hc : cause < 256) => warmReset_spec s hc o
  simp only [List.forall_mem_cons]
  exact ⟨⟨_, occur_due rfl, spec 1 (by decide)⟩, ⟨_, occur_due rfl, spec 2 (by decide)⟩, ⟨_, occur_due rfl, spec 3 (by decide)⟩,
    List.forall_mem_nil _⟩

/-- Settles O55: each event is due where its hypotheses hold, and what it then does is the lemma of its register, line, queue,
meter, report or reset. -/
theorem eventsOfTheHost : Obligations.EventsOfTheHost := by
  unfold Obligations.EventsOfTheHost
  intro s
  refine ⟨hostWrites_effect, fun hup hw hl => hostWrites_lehr hup hw hl, fun y hw hq => exec_planeWrite hw hq,
    fun r hup hr hd => hostAccesses_effect hup hr hd, fun line hup ht ha => snoops_effect hup ht ha,
    fun hup => ⟨_, exec_hostLinkDown hup, rfl, hostLost_mbhost s, rfl, hostLost_histat s, fun q hq => hostLost_stopped s hq⟩,
    fun ctx va r => ⟨fun pa hx hr => exec_resend_here hx hr, fun c d hx hd hr => exec_resend_moved hx hd hr,
      fun t hk hc ha => exec_resend_combined hk hc ha⟩,
    fun u => occur_due rfl,
    fun n h => ⟨fun nj => ⟨_, exec_energyInterval h nj, splitEnergy_meter s _ nj⟩, fun mv mhz => exec_islandSet h mv mhz⟩,
    ?_, coldReset_effect s, warmResets_effect s⟩
  intro tells
  refine ⟨occur_due rfl, occur_due rfl, occur_due rfl, occur_due rfl, fun x => ⟨occur_due rfl, occur_due rfl⟩, fun hl ctx x => ?_⟩
  exact counterReports_effect hl ctx x

end Sys2Proof.Proofs
end

section
/-! Family 02_execution_model: rules shared by the obligations of instructions that issue. -/

namespace Sys2Proof.Proofs

open Sys2Proof Sys2Proof.Machine Sys2Proof.Safety Sys2Proof.Laws

/-- An instruction that issues and raises a cause traps. -/
theorem traps {i : Instr} {s : State} {e : Issuer} {len : Nat} {place : BurstPlace} {sup : Bool} {body : Issuer → Act}
    {t : TrapInfo} (hx : exec i s = issue s len place sup body) (h : Issues s e) (hb : burstOk e.f place = true)
    (hs : sup = false ∨ inSup e.f = true) (ha : body e = .trap t) : exec i s = .next (takeTrap s e t) := by
  rw [hx, issue_next h hb hs, ha]
  rfl

/-- An instruction that issues and says itself what it leaves. -/
theorem owns {i : Instr} {s t : State} {e : Issuer} {len : Nat} {place : BurstPlace} {sup : Bool} {body : Issuer → Act}
    (hx : exec i s = issue s len place sup body) (h : Issues s e) (hb : burstOk e.f place = true)
    (hs : sup = false ∨ inSup e.f = true) (ha : body e = .own t) : exec i s = .next t := by
  rw [hx, issue_next h hb hs, ha]
  rfl

/-- An instruction that completes without an effect of its own on the state. -/
theorem completes_same {i : Instr} {s : State} {e : Issuer} {len : Nat} {place : BurstPlace} {sup : Bool} {body : Issuer → Act}
    {r : Retire} (hx : exec i s = issue s len place sup body) (h : Issues s e) (hb : burstOk e.f place = true)
    (hs : sup = false ∨ inSup e.f = true) (ha : body e = .ok s r) : Completes i s e len fun m x => m = s ∧ x = r :=
  completes hx h hb hs ha h.2 ⟨rfl, rfl⟩

end Sys2Proof.Proofs
end


section
/-! O11: conditional branches (R268 to R270). -/

namespace Sys2Proof.Proofs

open Sys2Proof Sys2Proof.Machine Sys2Proof.Safety Sys2Proof.Laws

/-! ## BRANY and BRALL -/

theorem branchIf_eq (s : State) (e : Issuer) (j : J64) (test : (Nat → Bool) → List Nat → Bool) :
    branchIf s e j test = .ok s (goSome (if test (predTrue e.p j.pred) (maskLanes e.p e.f) then fragSlices e.p e.f else [])
      (e.f.pc + 2 * j.off.signExtend 64)) := by
  unfold branchIf
  split <;> rfl

theorem branches_whole {s : State} {e : Issuer} (j : J64) (h : IssuesAlone s e) :
    ∀ x ∈ [(Instr.brany j, (maskLanes e.p e.f).any fun l => predTrue e.p j.pred l),
        (.brall j, (maskLanes e.p e.f).all fun l => predTrue e.p j.pred l)],
      Completes x.1 s e 8 fun m r => m = s ∧
        r = goSome (if x.2 then fragSlices e.p e.f else []) (e.f.pc + 2 * j.off.signExtend 64) := by
  simp only [List.forall_mem_cons]
  exact ⟨completes_same rfl h.1 (burstOk_alone h.2 _) (.inl rfl) (branchIf_eq s e j fun f l => l.any f),
    completes_same rfl h.1 (burstOk_alone h.2 _) (.inl rfl) (branchIf_eq s e j fun f l => l.all f), List.forall_mem_nil _⟩

/-! ## BRC -/

/-- The slices of a fragment that `holdsLive` names. -/
theorem filter_holdsLive (p : Pack) (f : Fragment) : (fragSlices p f).filter (holdsLive p f) = movedSlices p f := by
  refine List.filter_congr fun k hk => ?_
  rw [holdsLive, (mem_fragSlices.1 hk).2, Bool.true_and]

/-- The slices that BRC sends to its target, picked from pairs of a slice and its lowest lane. -/
theorem map_filter_lowest (ks : List Nat) (low : Nat → Nat) (test : Nat → Bool) (a : DWord) :
    (((ks.map fun k => (k, low k)).filter fun l => test l.2).map fun l => (l.1, a)) =
      (ks.filter fun k => test (low k)).map fun k => (k, a) := by
  rw [List.filter_map, List.map_map]
  rfl

theorem brc_tests {s : State} {e : Issuer} {c : Brc} (h : IssuesAlone s e)
    (hc : operandCause e ((movedSlices e.p e.f).map fun k => lowestLane (sliceOf e.p k) k)
      [opn c.a (condTy c.cond), opn c.b (condTy c.cond)] .null 1 = none) :
    Completes (.brc c) s e 8 fun m r => m = s ∧
      r = goSome ((movedSlices e.p e.f).filter fun k =>
        condTest c.cond (opndVal e (opn c.a (condTy c.cond)) (lowestLane (sliceOf e.p k) k))
          (opndVal e (opn c.b (condTy c.cond)) (lowestLane (sliceOf e.p k) k))) (e.f.pc + 2 * c.off.signExtend 64) := by
  refine completes_same rfl h.1 (burstOk_alone h.2 _) (.inl rfl) ?_
  dsimp only
  rw [filter_holdsLive, List.map_map, Function.comp_def, hc]
  exact congrArg (fun j => Act.ok s { jump := j }) (map_filter_lowest _ (fun k => lowestLane (sliceOf e.p k) k)
    (fun l => condTest c.cond (opndVal e (opn c.a (condTy c.cond)) l) (opndVal e (opn c.b (condTy c.cond)) l)) _)

/-! ## BRV -/

/-- The entry that a divergent slice pushes (R42). -/
def divergedSlice (e : Issuer) (v : Brv) (k : Nat) : Slice :=
  { sliceOf e.p k with
    mask := takenMask e.p v.pred k,
    stack := { join := e.f.pc + 2 * v.joff.signExtend 64, pendPc := e.f.pc + 8,
               pend := (sliceOf e.p k).mask &&& ~~~ takenMask e.p v.pred k, saved := (sliceOf e.p k).mask } ::
      (sliceOf e.p k).stack }

/-- The pack in which the slices of a list that diverge are divided. -/
def dividePack (e : Issuer) (v : Brv) (ks : List Nat) (p : Pack) : Pack :=
  ks.foldl (fun p k => if diverges e.p v.pred k then { p with slices := p.slices.set k (divergedSlice e v k) } else p) p

theorem dividePack_eq (e : Issuer) (v : Brv) (ks : List Nat) (p : Pack) :
    dividePack e v ks p = { p with slices :=
      ((ks.filter fun k => diverges e.p v.pred k).map fun k => (k, divergedSlice e v k)).foldl (fun l x => l.set x.1 x.2) p.slices } := by
  induction ks generalizing p with
  | nil => rfl
  | cons k ks ih =>
    rw [dividePack, List.foldl_cons, ← dividePack, ih]
    by_cases hd : diverges e.p v.pred k = true <;> simp [hd]

theorem sliceOf_dividePack (e : Issuer) (v : Brv) (k : Nat) :
    sliceOf (dividePack e v (fragSlices e.p e.f) e.p) k =
      if k ∈ fragSlices e.p e.f ∧ diverges e.p v.pred k = true then divergedSlice e v k else sliceOf e.p k := by
  have hlt : ∀ k ∈ (fragSlices e.p e.f).filter fun k => diverges e.p v.pred k, k < e.p.slices.length := fun k hk =>
    (mem_fragSlices.1 (List.mem_filter.1 hk).1).1
  rw [dividePack_eq, sliceOf, foldl_set_getD _ (divergedSlice e v) _ _ hlt]
  simp only [List.mem_filter, sliceOf]

section Brv
variable {s : State} {e : Issuer} {v : Brv}

/-- A target is refused exactly where R266 gives it a cause. -/
theorem targetCause_valid {a : DWord} (h : ValidTarget a) : targetCause a = none := by
  obtain ⟨h0, h1⟩ := h
  have : a.toNat / 2 ^ 57 = 0 := Nat.div_eq_of_lt h1
  simp only [targetCause, h0, Bool.false_eq_true, if_false, this, ne_eq, not_true]

theorem targetCause_invalid {a : DWord} (h : ¬ ValidTarget a) :
    targetCause a = some (if a.getLsbD 0 then 0x04 else 0x02) := by
  unfold targetCause
  split
  · rfl
  · rename_i h0
    have h1 : ¬ a.toNat < 2 ^ 57 := fun h1 => h ⟨by simpa using h0, h1⟩
    rw [if_pos (by omega)]

/-- BRV over slices of which one that diverges has a full mask stack. -/
theorem full_iff (ks : List Nat) : (ks.any fun k => diverges e.p v.pred k && decide (4 ≤ (sliceOf e.p k).stack.length)) = true ↔
    ∃ k ∈ ks, diverges e.p v.pred k = true ∧ 4 ≤ (sliceOf e.p k).stack.length := by
  simp [List.any_eq_true]

theorem brv_full (h : IssuesAlone s e) (ha : ¬ (v.pred.idx = 7 ∧ v.pred.neg = false))
    (hf : ∃ k ∈ fragSlices e.p e.f, diverges e.p v.pred k = true ∧ 4 ≤ (sliceOf e.p k).stack.length) :
    exec (.brv v) s = .next (takeTrap s e (trapAll e [] 0x05)) := by
  refine traps rfl h.1 (burstOk_alone h.2 _) (.inl rfl) ?_
  dsimp only
  rw [if_neg ha, if_pos ((full_iff _).2 hf)]

theorem brv_divides (h : IssuesAlone s e) (ha : ¬ (v.pred.idx = 7 ∧ v.pred.neg = false))
    (hs : ∀ k ∈ fragSlices e.p e.f, diverges e.p v.pred k = true → (sliceOf e.p k).stack.length < 4) :
    Completes (.brv v) s e 8 fun m r =>
      r = goSome ((fragSlices e.p e.f).filter fun k => takenMask e.p v.pred k != 0) (e.f.pc + 2 * v.toff.signExtend 64) ∧
      PackIs s m e (dividePack e v (fragSlices e.p e.f) e.p) := by
  have hk := dividePack_eq e v (fragSlices e.p e.f) e.p
  refine completes_pack (p := dividePack e v (fragSlices e.p e.f) e.p) rfl h.1 (burstOk_alone h.2 _) (.inl rfl) ?_
    (by rw [hk]) (by rw [hk]) (by rw [hk]) fun hp => ⟨rfl, hp⟩
  have hn : ¬ (((fragSlices e.p e.f).any fun k => diverges e.p v.pred k && decide (4 ≤ (sliceOf e.p k).stack.length)) = true) :=
    fun hf => by
      obtain ⟨k, hk, hd, h4⟩ := (full_iff _).1 hf
      exact absurd (hs k hk hd) (by omega)
  dsimp only
  rw [if_neg ha, if_neg hn]
  rfl

/-- With the predicate that is always true BRV branches with the whole fragment, to a target that R266 allows. -/
theorem brv_goes (h : IssuesAlone s e) (ha : v.pred.idx = 7 ∧ v.pred.neg = false)
    (ht : ValidTarget (e.f.pc + 2 * v.toff.signExtend 64)) :
    Completes (.brv v) s e 8 fun m r => PackIs s m e e.p ∧ r = goTo e (e.f.pc + 2 * v.toff.signExtend 64) := by
  refine completes_pack (p := e.p) rfl h.1 (burstOk_alone h.2 _) (.inl rfl) ?_ rfl rfl rfl fun hp => ⟨hp, rfl⟩
  dsimp only
  rw [if_pos ha, branchAct, branchTarget, targetCause_valid ht]
  rfl

theorem brv_refused (h : IssuesAlone s e) (ha : v.pred.idx = 7 ∧ v.pred.neg = false)
    (ht : ¬ ValidTarget (e.f.pc + 2 * v.toff.signExtend 64)) :
    exec (.brv v) s = .next (takeTrap s e (trapLanes (if (e.f.pc + 2 * v.toff.signExtend 64).getLsbD 0 then 0x04 else 0x02)
      ((maskLanes e.p e.f).map fun l => (l, (e.f.pc + 2 * v.toff.signExtend 64).toNat)))) := by
  refine traps rfl h.1 (burstOk_alone h.2 _) (.inl rfl) ?_
  dsimp only
  rw [if_pos ha, branchAct, branchTarget, targetCause_invalid ht]
  rfl

end Brv

/-- Settles O11: each branch retires with the slices that its test sends to the target; BRV divides the slices that diverge, or
branches as BRA where its predicate is always true. -/
theorem conditionalBranches : Obligations.ConditionalBranches := by
  unfold Obligations.ConditionalBranches
  intro s e j c v h act ks some' low target always
  refine ⟨branches_whole j h, fun hc => brc_tests h hc, fun ha hs => ?_, fun ha hs => brv_full h ha hs,
    fun ha ht => brv_goes h ha ht, fun ha ht => brv_refused h ha ht⟩
  obtain ⟨m, r, t, hx, hr, hg, hp⟩ := brv_divides h ha hs
  exact ⟨m, r, t, hx, hr, hg, _, hp, by rw [dividePack_eq], fun k => sliceOf_dividePack e v k⟩

end Sys2Proof.Proofs
end

section
/-! O33: how the octets of a matrix instruction pair (R53, R357). -/

namespace Sys2Proof.Proofs

open Sys2Proof Sys2Proof.Machine Sys2Proof.Safety Sys2Proof.Laws

/-- An octet-level instruction outside a burst issues as any other. -/
theorem issueOctet_alone {s : State} {e : Issuer} (h : IssuesAlone s e) (body : Issuer → Act) :
    issueOctet s body = issue s 8 .last false fun e => octetAct (body e) := by
  rw [issue_next h.1 (burstOk_alone h.2 _) (.inl rfl), issueOctet, h.1.1]
  simp only [h.1.2, burstOk_alone h.2, Bool.not_true, Bool.false_eq_true, if_false]

/-- What an instruction comes to that waits for its octets, and whose partners may have performed them all. -/
def Pairs (i : Instr) (s : State) (e : Issuer) (r : Retire) : Prop :=
  (pairReady e.p e.f = false → Waits i s e .pairing .none) ∧
  (pairReady e.p e.f = true → todoOctets e.p e.f = [] → Completes i s e 8 fun m x => m = s ∧ x = r)

section
variable {i : Instr} {s : State} {e : Issuer} {body : Issuer → Act} {res : Pack → Retire}

/-- A pack-level instruction whose body is the issue of its octets pairs. -/
theorem pairs_issue {place : BurstPlace} (hx : exec i s = issue s 8 place false body) (h : IssuesAlone s e)
    (ha : ∃ k, body e = matIssue s e res k) : Pairs i s e (res e.p) := by
  obtain ⟨k, ha⟩ := ha
  exact ⟨fun hp => waits hx h.1 (burstOk_alone h.2 _) (.inl rfl) (ha.trans (matIssue_pairing hp)),
    fun hp ho => completes_same hx h.1 (burstOk_alone h.2 _) (.inl rfl) (ha.trans (matIssue_done hp ho))⟩

/-- The same for an octet-level instruction. -/
theorem pairs_octet (hx : exec i s = issueOctet s body) (h : IssuesAlone s e)
    (ha : ∃ k, body e = matIssue s e res k) : Pairs i s e (res e.p) := by
  obtain ⟨k, ha⟩ := ha
  have hx' := hx.trans (issueOctet_alone h body)
  refine ⟨fun hp => waits hx' h.1 (burstOk_alone h.2 _) (.inl rfl) ?_,
    fun hp ho => completes_same hx' h.1 (burstOk_alone h.2 _) (.inl rfl) ?_⟩
  · rw [ha, matIssue_pairing hp]; rfl
  · rw [ha, matIssue_done hp ho]; rfl

end

section
variable {s : State} {e : Issuer} (h : IssuesAlone s e) (x : X64)
include h

/-- The instructions that take coordinates, or no operand. -/
theorem pairs_coord (hc : uniCause e [coordOpnd x.reg] = none) : ∀ i ∈ [Instr.mldb x, .mbrel x, .mldmeta x, .mzero x,
    .mma x, .mst x, .mstAdd x], Pairs i s e {} := by
  simp only [List.forall_mem_cons]
  refine ⟨pairs_issue (res := noRes) rfl h ?_, pairs_issue (res := noRes) rfl h ⟨_, rfl⟩, pairs_issue (res := noRes) rfl h ?_,
    pairs_octet (res := noRes) rfl h ⟨_, rfl⟩, pairs_octet (res := noRes) rfl h ?_, pairs_octet (res := noRes) rfl h ?_,
    pairs_octet (res := noRes) rfl h ?_, List.forall_mem_nil _⟩
  · exact ⟨_, by rw [hc]⟩
  · exact ⟨_, by rw [hc]⟩
  · exact ⟨_, by rw [mmaAct, if_neg Bool.false_ne_true, hc]⟩
  · exact ⟨_, by rw [mstAct, hc]⟩
  · exact ⟨_, by rw [mstAct, hc]⟩

/-- The instructions that take a slot of a ring. -/
theorem pairs_ring (hr : uniCause e [opn32 x.reg] = none) : ∀ i ∈ [Instr.mmaRing x, .ringinit x, .ringput x, .ringtake x,
    .ringdone x], Pairs i s e {} := by
  simp only [List.forall_mem_cons]
  refine ⟨pairs_octet (res := noRes) rfl h ?_, pairs_issue (res := noRes) rfl h ?_, pairs_issue (res := noRes) rfl h ?_,
    pairs_issue (res := noRes) rfl h ?_, pairs_issue (res := noRes) rfl h ?_, List.forall_mem_nil _⟩
  · exact ⟨_, by rw [mmaAct, if_pos rfl, hr]⟩
  · exact ⟨_, by rw [hr]⟩
  · exact ⟨_, by rw [ringAct, hr]⟩
  · exact ⟨_, by rw [ringAct, hr]⟩
  · exact ⟨_, by rw [ringAct, hr]⟩

/-- MMASP takes coordinates or a slot of a ring, as its flag says. -/
theorem pairs_mmasp (hc : uniCause e [coordOpnd x.reg] = none) (hr : uniCause e [opn32 x.reg] = none) :
    Pairs (.mmasp x) s e {} := by
  refine pairs_octet (res := noRes) rfl h ?_
  have hu : uniCause e [if x.flags.getLsbD 1 then opn32 x.reg else coordOpnd x.reg] = none := by
    split
    · exact hr
    · exact hc
  exact ⟨_, by rw [mmaAct, hu]⟩

end

/-- Settles O33: the issue of the octets is the body of every matrix instruction once its operands can be read. -/
theorem octetPairing : Obligations.OctetPairing := by
  unfold Obligations.OctetPairing
  intro s e x g h hcoord hring hregs hlanes hdst hop
  have hc := pairs_coord h x hcoord
  have hr := pairs_ring h x hring
  simp only [List.forall_mem_cons] at hc hr ⊢
  obtain ⟨hmldb, hmbrel, hmldmeta, hmzero, hmma, hmst, hmstAdd, -⟩ := hc
  obtain ⟨hmmaRing, hinit, hput, htake, hdone, -⟩ := hr
  refine ⟨pairs_issue (res := noRes) rfl h ?_, hmldb, hmbrel, hmldmeta, hmzero, hmma, hmmaRing, pairs_mmasp h x hcoord hring,
    hmst, hmstAdd, pairs_octet (res := noRes) rfl h ?_, hinit, hput, htake, hdone,
    pairs_issue (res := tdgetRes e x) rfl h ?_, pairs_octet (res := mrdaRes e x) rfl h ?_,
    pairs_issue (res := mstatRes e g) rfl h ?_, List.forall_mem_nil _⟩
  · exact ⟨_, by rw [hregs]⟩
  · exact ⟨_, by rw [hlanes]⟩
  · exact ⟨_, by rw [hdst]⟩
  · exact ⟨_, by rw [hdst]⟩
  · exact ⟨_, by rw [hop]⟩

end Sys2Proof.Proofs
end

section
/-! O14: REGANG (R50 to R52, R271). What the fragments that wait at one address become is said once, in `mergedPack_spec`. -/

namespace Sys2Proof.Proofs

open Sys2Proof Sys2Proof.Machine Sys2Proof.Safety Sys2Proof.Laws

/-! ## Charging before an effect on the issuer's pack -/

theorem onlyPack_trans {s t u : State} {r : FragRef} (h : OnlyPack s t r) (k : OnlyPack t u r) : OnlyPack s u r := by
  refine ⟨?_, fun n hn => (k.blocks n hn).trans (h.blocks n hn), fun b hb => ?_, fun a => (k.bytes a).trans (h.bytes a)⟩
  · have hd := h.device
    have kd := k.device
    generalize t.blocks = B, t.budget = U, t.shadows = H, t.activity = A, t.free = F at hd
    subst hd
    exact kd
  · obtain ⟨b1, hb1, e1, hp1⟩ := h.block b hb
    obtain ⟨b2, hb2, e2, hp2⟩ := k.block b1 hb1
    exact ⟨b2, hb2, by rw [e2, e1], fun i j hij => (hp2 i j hij).trans (hp1 i j hij)⟩

theorem packIs_trans {s t u : State} {e : Issuer} {p : Pack} (h : OnlyPack s t e.ref) (k : PackIs t u e p) : PackIs s u e p :=
  ⟨onlyPack_trans h k.1, k.2⟩

/-! ## The split of a fragment leaves the others alone -/

/-- A split keeps every other fragment of its pack. -/
theorem getFrag_settleFrag_other {tick : Nat} {p : Pack} {i j : Nat} {g : Fragment} (next : Nat → DWord) (hj : i ≠ j)
    (hg : getFrag p j = some g) (hst : g.st ≠ .free) : getFrag (settleFrag tick p i next) j = some g := by
  unfold settleFrag
  split
  · exact hg
  · dsimp only
    split
    · rw [getFrag_setFrag_other hj]; exact hg
    · refine foldl_putEntry_keeps (fun e => { partOf _ _ e.2 e.1 with running := false, slots := 0, since := tick }) _ ?_ hst
      rw [getFrag_setFrag_other hj]; exact hg

/-- Freeing entries leaves an entry alone that is not listed. -/
theorem getFrag_freed_other {i j : Nat} (js : List Nat) (p : Pack) (hj : j ∉ js) :
    getFrag (js.foldl (fun p k => if k = i then p else setFrag p k freeFrag) p) j = getFrag p j := by
  induction js generalizing p with
  | nil => rfl
  | cons a js ih =>
    rw [List.foldl_cons, ih _ fun h => hj (List.mem_cons_of_mem _ h)]
    split
    · rfl
    · exact getFrag_setFrag_other fun h => hj (h ▸ List.mem_cons_self)

/-! ## The merged pack -/

/-- The fragments of a pack that wait at REGANG at an address. -/
def gangOf (p : Pack) (pc : DWord) : List Nat :=
  (List.range p.frags.length).filter fun j => match getFrag p j with
    | some g => g.st == .regang && g.pc == pc
    | none => false

theorem mem_gangOf {p : Pack} {pc : DWord} {j : Nat} :
    j ∈ gangOf p pc ↔ ∃ g, getFrag p j = some g ∧ g.st = .regang ∧ g.pc = pc := by
  unfold gangOf
  rw [List.mem_filter, List.mem_range]
  constructor
  · rintro ⟨-, h⟩
    split at h
    · rename_i g hg
      exact ⟨g, hg, by simpa using h⟩
    · cases h
  · rintro ⟨g, hg, hst, hpc⟩
    refine ⟨(List.getElem?_eq_some_iff.1 hg).1, ?_⟩
    rw [hg]
    simp [hst, hpc]

theorem gangOf_nodup (p : Pack) (pc : DWord) : (gangOf p pc).Nodup := List.nodup_range.filter _

/-- The slices of the fragments that merge with a fragment. -/
def gangSlices (e : Issuer) : BitVec 16 :=
  (gangOf e.p e.f.pc).foldl (fun m j => m ||| (match getFrag e.p j with | some g => g.slices | none => 0)) 0

/-- The fragment that takes the place of those that merge (R52). -/
def mergedFrag (e : Issuer) : Fragment :=
  { e.f with slices := gangSlices e, st := .ready, gang := 0, latches := [], wait := .none, slots := e.f.slots + slotsOf e.f }

/-- The pack with its merged fragment, before its draws, its clock and its slices move. -/
def gathered (e : Issuer) : Pack :=
  setFrag ((gangOf e.p e.f.pc).foldl (fun p j => if j = e.ref.frag then p else setFrag p j freeFrag) e.p) e.ref.frag (mergedFrag e)

/-- The slices that merge. -/
def gangList (e : Issuer) : List Nat := fragSlices (gathered e) (mergedFrag e)

/-- The pack whose draw counters have met (R214) and whose clock has counted each REGANG (R111). -/
def countedGang (e : Issuer) : Pack :=
  (gangOf e.p e.f.pc).foldl (fun p _ => countClock e.l (inSup e.f) false p) (mergeDraws (gathered e) (gangList e))

def mergedPack (tick : Nat) (e : Issuer) : Pack := settleFrag tick (countedGang e) e.ref.frag fun _ => e.f.pc + 8

/-- What each merging fragment is charged. -/
def chargeGang (s : State) (e : Issuer) : State :=
  (gangOf e.p e.f.pc).foldl (fun s j => match (getFrag e.p j).map fun g => { e with f := g } with
    | some e => chargeIssue s e
    | none => s) s

theorem chargeGang_eq (s : State) (e : Issuer) : chargeGang s e =
    (gangOf e.p e.f.pc).foldl (fun s j => match getFrag e.p j with
      | some g => chargeIssue s { e with f := g }
      | none => s) s := by
  unfold chargeGang
  congr 1
  funext s j
  cases getFrag e.p j <;> rfl

theorem mergeRegang_eq (s : State) (e : Issuer) :
    mergeRegang s e = putPack (chargeGang s e) e.ref.blk (mergedPack s.tick e) := by
  rw [chargeGang_eq]
  rfl

section
variable {e : Issuer}

theorem gathered_eq (e : Issuer) : gathered e = { e.p with frags := (gathered e).frags } := by
  obtain ⟨fr, h⟩ : ∃ fr, (gangOf e.p e.f.pc).foldl (fun p j => if j = e.ref.frag then p else setFrag p j freeFrag) e.p =
      { e.p with frags := fr } := ⟨_, (freeOthers e.ref.frag (gangOf e.p e.f.pc) e.p).1⟩
  rw [gathered, h]
  rfl

theorem gathered_slices (e : Issuer) : (gathered e).slices = e.p.slices := by rw [gathered_eq]

theorem getFrag_gathered (hf : getFrag e.p e.ref.frag = some e.f) : getFrag (gathered e) e.ref.frag = some (mergedFrag e) :=
  getFrag_setFrag ((freeOthers e.ref.frag (gangOf e.p e.f.pc) e.p).2.trans hf)

theorem sliceOf_congr {p q : Pack} (h : q.slices = p.slices) (k : Nat) : sliceOf q k = sliceOf p k := by
  unfold sliceOf
  rw [h]

/-- A slice merges that a waiting fragment of the address holds. -/
theorem mem_gangList {k : Nat} : k ∈ gangList e ↔ k < e.p.slices.length ∧
    ∃ i x, getFrag e.p i = some x ∧ (x.st = .regang ∧ x.pc = e.f.pc) ∧ x.slices.getLsbD k = true := by
  have hor : (gangSlices e).getLsbD k = true ↔ ∃ j ∈ gangOf e.p e.f.pc, ∃ x, getFrag e.p j = some x ∧ x.slices.getLsbD k = true :=
    (orAll e.p (gangOf e.p e.f.pc) 0 k).trans (by simp)
  unfold gangList
  rw [mem_fragSlices, gathered_slices, mergedFrag, hor]
  refine and_congr_right fun _ => ⟨?_, ?_⟩
  · rintro ⟨j, hj, x, hx, hk⟩
    obtain ⟨g, hg, hgang⟩ := mem_gangOf.1 hj
    obtain rfl : x = g := Option.some.inj (hx.symm.trans hg)
    exact ⟨j, x, hx, hgang, hk⟩
  · rintro ⟨j, x, hx, hgang, hk⟩
    exact ⟨j, mem_gangOf.2 ⟨x, hx, hgang⟩, x, hx, hk⟩

theorem gangList_lt {k : Nat} (h : k ∈ gangList e) : k < (gathered e).slices.length := (mem_fragSlices.1 h).1

/-- What counting each REGANG leaves alone. -/
theorem countedGang_eq (e : Issuer) : countedGang e = { mergeDraws (gathered e) (gangList e) with
    lclock := if e.l.det && inSup e.f then e.p.lclock else e.p.lclock + (gangOf e.p e.f.pc).length,
    ended := (countedGang e).ended } := by
  have h := Laws.counts e.l (inSup e.f) (gangOf e.p e.f.pc) (mergeDraws (gathered e) (gangList e))
  have hc : (mergeDraws (gathered e) (gangList e)).lclock = e.p.lclock := by
    show (gathered e).lclock = _
    rw [gathered_eq]
  rw [hc] at h
  exact h

/-- The merged pack: its clock has counted each REGANG, its merging slices draw from the largest counter, and each that has a live
lane stands where its join check puts it behind the REGANG. -/
theorem mergedPack_spec (tick : Nat) (hf : getFrag e.p e.ref.frag = some e.f) : let q := mergedPack tick e
    q = { e.p with slices := q.slices, frags := q.frags, lclock := q.lclock, ended := q.ended } ∧
    q.lclock = (if e.l.det && inSup e.f then e.p.lclock else e.p.lclock + (gangOf e.p e.f.pc).length) ∧
    (∃ m : BitVec 22, (∀ k ∈ gangList e, (sliceOf e.p k).draw ≤ m) ∧ (gangList e ≠ [] → ∃ k ∈ gangList e, m = (sliceOf e.p k).draw) ∧
      ∀ k, sliceOf q k = if k ∈ gangList e then
          (if (sliceOf e.p k).live ≠ 0 then (joinCheck 10 (e.f.pc + 8) { sliceOf e.p k with draw := m }).2
            else { sliceOf e.p k with draw := m })
        else sliceOf e.p k) ∧
    (∀ k ∈ gangList e, (sliceOf e.p k).live ≠ 0 → StandsAt q k (joinCheck 10 (e.f.pc + 8) (sliceOf e.p k)).1) ∧
    ∀ x, getFrag q e.ref.frag = some x → x.latches = [] := by
  intro q
  obtain ⟨m, hd, hlen, hdraw, hmax, hmem⟩ := mergeDraws_spec (gathered e) (gangList e) (fragSlices_nodup _ _) fun k => gangList_lt
  have hc := countedGang_eq e
  have hfr : getFrag (countedGang e) e.ref.frag = some (mergedFrag e) := by
    rw [hc, hd]; exact getFrag_gathered hf
  obtain ⟨hq, hsl, hst, hent⟩ := settleFrag_spec (tick := tick) (fun _ => e.f.pc + 8) hfr (by simp [mergedFrag])
  have hg0 := fun k => sliceOf_congr (gathered_slices e) k
  have hcs : ∀ k, sliceOf (countedGang e) k = if k ∈ gangList e then { sliceOf e.p k with draw := m } else sliceOf e.p k := by
    intro k
    rw [← hg0 k, ← hdraw k, sliceOf_congr (p := mergeDraws (gathered e) (gangList e)) (by rw [hc])]
  have hmoved : ∀ k, k ∈ movedSlices (countedGang e) (mergedFrag e) ↔ k ∈ gangList e ∧ (sliceOf e.p k).live ≠ 0 := by
    intro k
    have hl : (countedGang e).slices.length = (gathered e).slices.length := by rw [hc]; exact hlen
    have hlive : (sliceOf (countedGang e) k).live = (sliceOf e.p k).live := by
      rw [hcs]; split <;> rfl
    rw [movedSlices, List.mem_filter, gangList, mem_fragSlices, mem_fragSlices, hl, hlive]
    simp
  have hq0 : q = { e.p with slices := q.slices, frags := q.frags, lclock := (countedGang e).lclock, ended := q.ended } := by
    obtain ⟨F, hF⟩ : ∃ F, gathered e = { e.p with frags := F } := ⟨_, gathered_eq e⟩
    obtain ⟨S, hS⟩ : ∃ S, mergeDraws (gathered e) (gangList e) = { gathered e with slices := S } := ⟨_, hd⟩
    obtain ⟨C, E, hE⟩ : ∃ C E, countedGang e = { mergeDraws (gathered e) (gangList e) with lclock := C, ended := E } := ⟨_, _, hc⟩
    obtain ⟨S', F', hQ⟩ : ∃ S' F', q = { countedGang e with slices := S', frags := F' } := ⟨_, _, hq⟩
    rw [hQ, hE, hS, hF]
  have hclock : q.lclock = (countedGang e).lclock := by rw [hq0]
  refine ⟨by rw [hclock]; exact hq0, by rw [hclock, hc], ⟨m, fun k hk => hg0 k ▸ hmax k hk, fun hne => ?_, fun k => ?_⟩,
    fun k hk hlive => ?_, fun x hx => ?_⟩
  · obtain ⟨k, hk, he⟩ := hmem hne
    exact ⟨k, hk, he.trans (congrArg Slice.draw (hg0 k))⟩
  · refine (hsl k).trans ?_
    by_cases hk : k ∈ gangList e <;> by_cases hlive : (sliceOf e.p k).live = 0 <;> simp [hmoved, hcs, hk, hlive]
  · obtain ⟨hpc, -, -⟩ := joinCheck_congr 10 (e.f.pc + 8) (sl := sliceOf e.p k) (sl' := sliceOf (countedGang e) k)
      (by rw [hcs, if_pos hk]) (by rw [hcs, if_pos hk])
    exact hpc ▸ hst k ((hmoved k).2 ⟨hk, hlive⟩)
  · rcases hent with hent | ⟨pc, ks, hent⟩ <;> rw [Option.some.inj (hx.symm.trans hent)] <;> rfl

end

/-! ## The merge as an effect on the issuer's pack -/

theorem charges_gang (s : State) (w : Issuer) (r : FragRef) :
    OnlyPack s (chargeGang s w) r ∧ (chargeGang s w).blocks = s.blocks :=
  onlyPack_charges (onlyPack_refl s r) (fun j => (getFrag w.p j).map fun g => ({ w with f := g } : Issuer)) (gangOf w.p w.f.pc)

/-- A state with the same blocks and launches has the same issuers. -/
theorem issuerAt_congr {s t : State} (hb : t.blocks = s.blocks) (hl : t.launches = s.launches) (r : FragRef) :
    issuerAt t r = issuerAt s r := by
  unfold issuerAt getBlock getLaunch
  rw [hb, hl]

/-- A merge changes the pack of its fragments alone, whatever copy of that pack it starts from. -/
theorem packIs_mergeRegang {s : State} {e w : Issuer} (h : issuerAt s e.ref = some e) (hr : w.ref = e.ref)
    (hf : getFrag w.p w.ref.frag = some w.f) (hi : w.p.pidx = e.p.pidx) (hj : w.p.pos = e.p.pos) :
    PackIs s (mergeRegang s w) e (mergedPack s.tick w) := by
  obtain ⟨hcharge, hblocks⟩ := charges_gang s w e.ref
  have hu : issuerAt (chargeGang s w) e.ref = some e :=
    (issuerAt_congr hblocks (by rw [hcharge.device]) _).trans h
  obtain ⟨-, hb, -⟩ := issuerAt_eq.1 hu
  have hq := (mergedPack_spec s.tick hf).1
  rw [mergeRegang_eq, hr, putPack_eq hb]
  exact packIs_trans hcharge (packIs_set hu (by rw [hq]; exact hi) (by rw [hq]; exact hj))

/-! ## REGANG -/

section
variable {s : State} {e : Issuer} {g : Gen}

/-- The fragment that has come to REGANG, and its pack. -/
def atRegang (s : State) (e : Issuer) (n : Nat) : Fragment :=
  { e.f with st := .regang, gang := BitVec.ofNat 16 n, since := s.tick }

def gangIssuer (s : State) (e : Issuer) (n : Nat) : Issuer :=
  { e with f := atRegang s e n, p := setFrag e.p e.ref.frag (atRegang s e n) }

theorem gangIssuer_frag (h : Issues s e) (n : Nat) :
    getFrag (gangIssuer s e n).p (gangIssuer s e n).ref.frag = some (gangIssuer s e n).f := getFrag_setFrag (issuer_frag h.2)

/-- A mask that R271 refuses. -/
def badGang (e : Issuer) (n : Nat) : Prop :=
  n / 2 ^ (e.p.width / 4) ≠ 0 ∨ ∃ k ∈ movedSlices e.p e.f, n.testBit k = false

theorem badGang_iff (e : Issuer) (n : Nat) : badGang e n ↔
    n / 2 ^ (e.p.width / 4) ≠ 0 ∨ ¬ (((fragSlices e.p e.f).filter fun k => (sliceOf e.p k).live != 0).all fun k => n.testBit k) = true := by
  unfold badGang movedSlices
  simp [List.all_eq_true, and_assoc]

theorem regang_bad (h : IssuesAlone s e) (hc : uniCause e [opn g.a .n32] = none) (hb : badGang e (uniVal e g.a)) :
    exec (.regang g) s = .next (takeTrap s e (trapAll e [] 0x0B)) := by
  refine traps rfl h.1 (burstOk_alone h.2 _) (.inl rfl) ?_
  dsimp only
  rw [hc]
  exact if_pos ((badGang_iff _ _).1 hb)

/-- REGANG with a mask that R271 allows waits, or merges. -/
theorem regang_own (h : IssuesAlone s e) (hc : uniCause e [opn g.a .n32] = none) (hb : ¬ badGang e (uniVal e g.a)) :
    let w := gangIssuer s e (uniVal e g.a)
    exec (.regang g) s = .next (if regangReady w.p w.f then mergeRegang s w else putPack s e.ref.blk w.p) := by
  intro w
  refine owns rfl h.1 (burstOk_alone h.2 _) (.inl rfl) ?_
  dsimp only
  rw [hc]
  refine (if_neg (mt (badGang_iff _ _).2 hb)).trans ?_
  exact (apply_ite Act.own _ _ _).symm

theorem regang_waits (h : IssuesAlone s e) (hc : uniCause e [opn g.a .n32] = none) (hb : ¬ badGang e (uniVal e g.a))
    (hr : regangReady (gangIssuer s e (uniVal e g.a)).p (atRegang s e (uniVal e g.a)) = false) :
    ∃ t, exec (.regang g) s = .next t ∧ PackIs s t e (gangIssuer s e (uniVal e g.a)).p := by
  obtain ⟨-, i1, -⟩ := issuerAt_eq.1 h.1.2
  refine ⟨_, (regang_own h hc hb).trans ?_, packIs_set h.1.2 rfl rfl⟩
  rw [← putPack_eq i1]
  exact congrArg _ (if_neg (Bool.eq_false_iff.1 hr))

theorem regang_merges (h : IssuesAlone s e) (hc : uniCause e [opn g.a .n32] = none) (hb : ¬ badGang e (uniVal e g.a))
    (hr : regangReady (gangIssuer s e (uniVal e g.a)).p (atRegang s e (uniVal e g.a)) = true) :
    ∃ t, exec (.regang g) s = .next t ∧ PackIs s t e (mergedPack s.tick (gangIssuer s e (uniVal e g.a))) :=
  ⟨_, (regang_own h hc hb).trans (congrArg _ (if_pos hr)), packIs_mergeRegang h.1.2 rfl (gangIssuer_frag h.1 _) rfl rfl⟩

/-- A bit of the union of some masks. -/
theorem getLsbD_unionAll {α : Type} (v : α → BitVec 16) (l : List α) (m : BitVec 16) (k : Nat) :
    (l.foldl (fun m x => m ||| v x) m).getLsbD k = (m.getLsbD k || l.any fun x => (v x).getLsbD k) := by
  induction l generalizing m with
  | nil => simp
  | cons a l ih => rw [List.foldl_cons, ih, BitVec.getLsbD_or, List.any_cons, Bool.or_assoc]

theorem getLsbD_unionOf {α : Type} (v : α → BitVec 16) (l : List α) (k : Nat) :
    (l.foldl (fun m x => m ||| v x) 0).getLsbD k = l.any fun x => (v x).getLsbD k := by
  simp [getLsbD_unionAll]

/-- A fragment that stands at REGANG alone and names no live slice but its own is ready. -/
theorem regangReady_alone {p : Pack} {f : Fragment} (hf : f ∈ p.frags) (hst : f.st = .regang)
    (ho : ∀ x ∈ p.frags, x.st = .regang → x = f)
    (hn : ∀ k, (sliceOf p k).live ≠ 0 → f.gang.getLsbD k = true → f.slices.getLsbD k = true) : regangReady p f = true := by
  unfold regangReady
  dsimp only
  refine List.all_eq_true.2 fun k hk => ?_
  have hlive : (sliceOf p k).live ≠ 0 := by simpa using (List.mem_filter.1 hk).2
  rw [getLsbD_unionOf, getLsbD_unionOf, Bool.or_eq_true, Bool.not_eq_true', List.any_eq_true]
  by_cases hg : f.gang.getLsbD k = true
  · exact .inr ⟨f, List.mem_filter.2 ⟨hf, by simp [hst]⟩, hn k hlive hg⟩
  · refine .inl (List.any_eq_false.2 fun x hx => ?_)
    obtain ⟨hxp, hxs⟩ := List.mem_filter.1 hx
    rw [ho x hxp (beq_iff_eq.1 (Bool.and_eq_true_iff.1 hxs).1)]
    exact hg

/-- The fragments that wait at REGANG where the issuer comes to it as the only one. -/
theorem gangOf_alone (h : Issues s e) (n : Nat) (ho : ∀ i x, i ≠ e.ref.frag → getFrag e.p i = some x → x.st ≠ .regang) (j : Nat) :
    j ∈ gangOf (gangIssuer s e n).p (gangIssuer s e n).f.pc ↔ j = e.ref.frag := by
  rw [mem_gangOf]
  constructor
  · rintro ⟨x, hx, hst, -⟩
    by_contra hj
    exact ho j x hj ((getFrag_setFrag_other (Ne.symm hj)).symm.trans hx) hst
  · rintro rfl
    exact ⟨_, gangIssuer_frag h n, rfl, rfl⟩

theorem regangReady_issuer (h : Issues s e) {n : Nat} (ho : ∀ i x, i ≠ e.ref.frag → getFrag e.p i = some x → x.st ≠ .regang)
    (hn : ∀ k, (sliceOf e.p k).live ≠ 0 → n.testBit k = true → e.f.slices.getLsbD k = true) :
    regangReady (gangIssuer s e n).p (atRegang s e n) = true := by
  have hf := gangIssuer_frag h n
  refine regangReady_alone (List.mem_of_getElem? hf) rfl (fun x hx hst => ?_) fun k hlive hg => ?_
  · obtain ⟨i, hi⟩ := List.mem_iff_getElem?.1 hx
    by_cases hj : i = e.ref.frag
    · subst hj
      exact Option.some.inj (hi.symm.trans hf)
    · exact absurd hst (ho i x hj ((getFrag_setFrag_other (Ne.symm hj)).symm.trans hi))
  · refine hn k hlive ?_
    rw [atRegang, BitVec.getLsbD_ofNat, Bool.and_eq_true] at hg
    exact hg.2

end

/-- Settles O14: a mask that R271 refuses traps; else the fragment waits, or merges with those of its address as `mergedPack_spec`
says. -/
theorem regang : Obligations.Regang := by
  unfold Obligations.Regang
  intro s e g h hc n f p bad joins merged
  obtain ⟨hq, hclock, ⟨m, hmax, hmem, hsl⟩, hstands, hlatch⟩ := mergedPack_spec s.tick (gangIssuer_frag h.1 n)
  have hmerged : ∀ k, k ∈ gangList (gangIssuer s e n) ↔ merged k := fun k => by
    rw [mem_gangList]
    refine and_congr Iff.rfl (exists_congr fun i => exists_congr fun x => and_congr_right fun hx => and_congr_left' ?_)
    exact ⟨fun hj => ⟨x, hx, hj⟩, fun ⟨y, hy, hj⟩ => Option.some.inj (hx.symm.trans hy) ▸ hj⟩
  have hslices : ∀ k, sliceOf (gangIssuer s e n).p k = sliceOf e.p k := sliceOf_congr rfl
  simp only [hslices, hmerged] at hmax hmem hsl hstands
  have hdraw : ∀ k, merged k → (sliceOf (mergedPack s.tick (gangIssuer s e n)) k).lanes = (sliceOf e.p k).lanes ∧
      (sliceOf (mergedPack s.tick (gangIssuer s e n)) k).draw = m := fun k hk => by
    rw [hsl k, if_pos ((hmerged k).2 hk)]
    obtain ⟨mask, stack, hj⟩ := joinCheck_keeps 10 ((gangIssuer s e n).f.pc + 8) { sliceOf e.p k with draw := m }
    split
    · rw [hj]; exact ⟨rfl, rfl⟩
    · exact ⟨rfl, rfl⟩
  refine ⟨regang_bad h hc, fun hb hr => regang_waits h hc hb hr, fun hb hr => ?_, fun hb ho hn => ?_⟩
  · obtain ⟨t, ht, hp⟩ := regang_merges h hc hb hr
    refine ⟨t, _, gangOf p e.f.pc, ht, hp, hq, fun i => mem_gangOf, gangOf_nodup _ _, hclock, fun k hk => ?_,
      fun k hk => (hsl k).trans (if_neg (mt (hmerged k).1 hk)), hlatch⟩
    obtain ⟨hlanes, hm⟩ := hdraw k hk
    obtain ⟨j, hj, hmj⟩ := hmem (List.ne_nil_of_mem ((hmerged k).2 hk))
    exact ⟨hlanes, hm ▸ hmax k hk, ⟨j, hj, hm.trans hmj⟩, hstands k hk⟩
  · obtain ⟨t, ht, hp⟩ := regang_merges h hc hb (regangReady_issuer h.1 ho hn)
    have hone : (gangOf (gangIssuer s e n).p (gangIssuer s e n).f.pc).length = 1 :=
      ((List.perm_ext_iff_of_nodup (gangOf_nodup _ _) (List.nodup_singleton e.ref.frag)).2 fun j =>
        (gangOf_alone h.1 n ho j).trans List.mem_singleton.symm).length_eq
    refine ⟨t, mergedPack s.tick (gangIssuer s e n), ht, hp, by rw [hclock, hone]; rfl, hq, fun k hk => ?_⟩
    obtain ⟨hks, hlive⟩ := List.mem_filter.1 hk
    obtain ⟨hlt, hown⟩ := mem_fragSlices.1 hks
    have hm : merged k := ⟨hlt, e.ref.frag, _, gangIssuer_frag h.1 n, ⟨_, gangIssuer_frag h.1 n, rfl, rfl⟩, hown⟩
    exact ⟨(hdraw k hm).1, hstands k hm (by simpa using hlive)⟩

end Sys2Proof.Proofs
end

section
/-! O12: NOP, EXIT, YIELD and HOLD (R46, R98, R102, R272 to R274). EXIT may complete a REGANG: `regroup` keeps the fragment that
exits in its place. -/

namespace Sys2Proof.Proofs

open Sys2Proof Sys2Proof.Machine Sys2Proof.Safety Sys2Proof.Laws

/-! ## What a merge leaves to the other fragments -/

/-- A merge keeps the fragments of its pack that do not wait at REGANG. -/
theorem getFrag_mergedPack_other {tick : Nat} {w : Issuer} {j : Nat} {g : Fragment} (hg : getFrag w.p j = some g) (h1 : g.st ≠ .free)
    (h2 : g.st ≠ .regang) (hj : w.ref.frag ≠ j) : getFrag (mergedPack tick w) j = some g := by
  refine getFrag_settleFrag_other _ hj ?_ h1
  have hn : j ∉ gangOf w.p w.f.pc := fun h => by
    obtain ⟨x, hx, hst, -⟩ := mem_gangOf.1 h
    exact h2 (Option.some.inj (hg.symm.trans hx) ▸ hst)
  rw [countedGang_eq]
  change getFrag (gathered w) j = some g
  rw [gathered, getFrag_setFrag_other hj, getFrag_freed_other _ _ hn, hg]

/-- A fragment of a pack that an effect has left, as an issuer. -/
theorem issuerAt_packIs {s t : State} {w : Issuer} {q : Pack} (h : issuerAt s w.ref = some w) (hp : PackIs s t w q) {j : Nat}
    {f : Fragment} (hf : getFrag q j = some f) : ∃ b, issuerAt t { w.ref with frag := j } =
      some { ref := { w.ref with frag := j }, b := b, p := q, f := f, l := w.l } := by
  obtain ⟨-, hb, -, hl, -⟩ := issuerAt_eq.1 h
  obtain ⟨b, hb', he, -⟩ := hp.1.block _ hb
  have hnow := hp.2
  unfold packNow at hnow
  rw [hb'] at hnow
  refine ⟨b, issuerAt_eq.2 ⟨rfl, hb', hnow, ?_, hf⟩⟩
  have hls : t.launches = s.launches := by rw [hp.1.device]
  unfold getLaunch at hl ⊢
  rw [hls, he]
  exact hl

/-! ## Fragments that have become ready at REGANG -/

/-- The first fragment of a pack that waits at REGANG for slices that are all there. -/
def readyGang (p : Pack) : Option Nat := (List.range p.frags.length).find? fun i => match getFrag p i with
  | some f => f.st == .regang && regangReady p f
  | none => false

theorem regroup_succ (s : State) (r : FragRef) (n : Nat) : regroup s r.blk r.pidx r.pos (n + 1) =
    match (packNow s r).bind readyGang with
    | none => s
    | some i => match issuerAt s { r with frag := i } with
      | none => s
      | some e => regroup (mergeRegang s e) r.blk r.pidx r.pos n := by
  unfold packNow
  rw [regroup]
  cases getBlock s r.blk <;> rfl

theorem readyGang_regang {p : Pack} {i : Nat} {f : Fragment} (h : readyGang p = some i) (hf : getFrag p i = some f) :
    f.st = .regang := by
  have h := List.find?_some h
  rw [hf] at h
  exact beq_iff_eq.1 (Bool.and_eq_true_iff.1 h).1

theorem readyGang_none {p : Pack} (h : ∀ i x, getFrag p i = some x → x.st ≠ .regang) : readyGang p = none := by
  refine List.find?_eq_none.2 fun i _ => ?_
  split
  · rename_i f hf
    simp [h i f hf]
  · exact Bool.false_ne_true

theorem packNow_issuer {s : State} {e : Issuer} (h : issuerAt s e.ref = some e) : packNow s e.ref = some e.p := by
  obtain ⟨-, hb, hp, -⟩ := issuerAt_eq.1 h
  unfold packNow
  rw [hb]
  exact hp

/-- Regrouping keeps a fragment that does not wait at REGANG. -/
theorem regroup_keeps (n : Nat) {s : State} {e : Issuer} (h : issuerAt s e.ref = some e) (h1 : e.f.st ≠ .free)
    (h2 : e.f.st ≠ .regang) : ∃ e', issuerAt (regroup s e.ref.blk e.ref.pidx e.ref.pos n) e.ref = some e' := by
  induction n generalizing s e with
  | zero => exact ⟨e, h⟩
  | succ n ih =>
    rw [regroup_succ, packNow_issuer h]
    split
    · exact ⟨e, h⟩
    · rename_i i hi
      split
      · exact ⟨e, h⟩
      · rename_i w hw
        obtain ⟨hr, hb, hp, -, hf⟩ := issuerAt_eq.1 hw
        have hi : readyGang e.p = some i := hi
        obtain ⟨-, hb', hp', -, hf'⟩ := issuerAt_eq.1 h
        have hwb : w.b = e.b := Option.some.inj (hb.symm.trans hb')
        have hwp : w.p = e.p := Option.some.inj ((hwb ▸ hp).symm.trans hp')
        have hst : w.f.st = .regang := readyGang_regang (hwp.symm ▸ hi) hf
        have hne : w.ref.frag ≠ e.ref.frag := fun hx => by
          rw [hr] at hx
          obtain rfl : i = e.ref.frag := hx
          exact h2 (Option.some.inj (hf.symm.trans (hwp.symm ▸ hf')) ▸ hst)
        have hw' : issuerAt s w.ref = some w := hr.symm ▸ hw
        obtain ⟨b, ht⟩ := issuerAt_packIs hw' (packIs_mergeRegang hw' rfl (issuer_frag hw') rfl rfl)
          (getFrag_mergedPack_other (hwp.symm ▸ hf') h1 h2 hne)
        rw [hr] at ht
        exact ih (e := { ref := e.ref, b := b, p := mergedPack s.tick w, f := e.f, l := w.l }) ht h1 h2

theorem regroup_idle {s : State} {e : Issuer} (h : issuerAt s e.ref = some e) (hi : ∀ i x, getFrag e.p i = some x → x.st ≠ .regang)
    (n : Nat) : regroup s e.ref.blk e.ref.pidx e.ref.pos n = s := by
  cases n with
  | zero => rfl
  | succ n => rw [regroup_succ, packNow_issuer h, Option.bind_some, readyGang_none hi]

/-! ## Lanes that end -/

/-- The lanes of a list that lie in a slice, bit by bit. -/
theorem laneBits_getLsbD (ls : List Nat) (k : Nat) {i : Nat} (hi : i < 4) :
    (laneBits ls k).getLsbD i = decide (4 * k + i ∈ ls) := by
  have gen : ∀ (ls : List Nat) (m : Nat), (ls.foldl (fun m l => if l / 4 = k then m ||| 2 ^ (l % 4) else m) m).testBit i =
      (m.testBit i || decide (4 * k + i ∈ ls)) := by
    intro ls
    induction ls with
    | nil => simp
    | cons a ls ih =>
      intro m
      rw [List.foldl_cons, ih]
      by_cases ha : a / 4 = k
      · have hbit : (2 ^ (a % 4)).testBit i = decide (4 * k + i = a) := by
          rw [Nat.testBit_two_pow]
          exact decide_eq_decide.2 (by omega)
        rw [if_pos ha, Nat.testBit_or, hbit, Bool.or_assoc]
        simp [List.mem_cons]
      · have hne : 4 * k + i ≠ a := by omega
        simp [ha, hne]
  rw [laneBits, BitVec.getLsbD_ofNat, gen]
  simp [hi]

/-- The pack whose lanes of a list have ended. -/
def exitPack (p : Pack) (ls : List Nat) : Pack := { p with slices := p.slices.mapIdx fun k sl => exitSlice sl (laneBits ls k) }

theorem sliceOf_exitPack (p : Pack) (ls : List Nat) (k : Nat) : sliceOf (exitPack p ls) k = exitSlice (sliceOf p k) (laneBits ls k) := by
  unfold sliceOf exitPack
  rw [List.getD_eq_getElem?_getD, List.getD_eq_getElem?_getD, List.getElem?_mapIdx]
  cases p.slices[k]? with
  | some sl => rfl
  | none => simp [exitSlice]

section
variable {s : State} {e : Issuer}

theorem exits {i : Instr} {len : Nat} {ls : List Nat} {body : Issuer → Act} (hx : exec i s = issue s len .never false body)
    (h : IssuesAlone s e) (hb : body e = exitAct s e ls) (hr : e.f.st = .ready) : Completes i s e len fun m r => r = {} ∧ ∃ u p,
      PackIs s u e p ∧ p = { e.p with slices := p.slices } ∧ m = regroup u e.ref.blk e.ref.pidx e.ref.pos 16 ∧
      ((∀ i x, getFrag p i = some x → x.st ≠ .regang) → m = u) ∧
      ∀ k, ∃ gone : BitVec 4, (∀ i, i < 4 → gone.getLsbD i = decide (4 * k + i ∈ ls)) ∧
        sliceOf p k = { sliceOf e.p k with
          mask := (sliceOf e.p k).mask &&& ~~~ gone,
          live := (sliceOf e.p k).live &&& ~~~ gone,
          stack := (sliceOf e.p k).stack.map fun x => { x with pend := x.pend &&& ~~~ gone, saved := x.saved &&& ~~~ gone } } := by
  let w : Issuer := { e with b := setPack e.b (exitPack e.p ls), p := exitPack e.p ls }
  have hu : issuerAt (setBlock s (setPack e.b (exitPack e.p ls))) w.ref = some w :=
    issuerAt_set h.1.2 (p := exitPack e.p ls) rfl rfl (issuer_frag h.1.2)
  have h1 : w.f.st ≠ .free := by rw [show w.f.st = .ready from hr]; decide
  have h2 : w.f.st ≠ .regang := by rw [show w.f.st = .ready from hr]; decide
  obtain ⟨e', he'⟩ := regroup_keeps 16 hu h1 h2
  exact completes hx h.1 (burstOk_alone h.2 _) (.inl rfl) hb he' ⟨rfl, _, exitPack e.p ls, packIs_set h.1.2 rfl rfl, rfl, rfl,
    fun hi => regroup_idle hu hi 16, fun k => ⟨laneBits ls k, fun i hi => laneBits_getLsbD ls k hi, sliceOf_exitPack e.p ls k⟩⟩

/-- EXIT without a predicate ends every lane of the masks. -/
theorem activeLanes_always (e : Issuer) : activeLanes e alwaysPred = maskLanes e.p e.f :=
  List.filter_eq_self.2 fun _ _ => rfl

/-- HOLD whose slots do not fit the run ends the run before it issues (R102). -/
theorem hold_ends {g : Gen} (h : IssuesAlone s e) (hs : 0 < e.f.slots ∧ 64 < e.f.slots + (g.opx.toNat + 2) * slotsOf e.f) :
    ∃ t, exec (.hold g) s = .next t ∧ PackIs s t e (setFrag e.p e.ref.frag { e.f with slots := 64, since := s.tick }) := by
  refine ⟨_, ?_, packIs_set h.1.2 rfl rfl⟩
  rw [← putFrag_eq h.1.2]
  refine (issue_next h.1 (burstOk_alone h.2 .never) (.inl rfl)).trans ?_
  dsimp only
  rw [if_pos hs]
  rfl

theorem hold_begins {g : Gen} (h : IssuesAlone s e) (hs : ¬ (0 < e.f.slots ∧ 64 < e.f.slots + (g.opx.toNat + 2) * slotsOf e.f)) :
    Completes (.hold g) s e 8 fun m r => m = s ∧ r = { hold := some (g.opx.toNat + 1) } :=
  completes_same rfl h.1 (burstOk_alone h.2 _) (.inl rfl) (if_neg hs)

end

/-- Settles O12: NOP, YIELD and HOLD change nothing but by their retirement; EXIT ends its lanes and regroups. -/
theorem endsAndHolds : Obligations.EndsAndHolds := by
  unfold Obligations.EndsAndHolds
  intro s e g
  simp only [List.forall_mem_cons]
  refine ⟨fun h => ⟨completes_same rfl h (burstOk_any _) (.inl rfl) rfl, completes_same rfl h (burstOk_any _) (.inl rfl) rfl,
    List.forall_mem_nil _⟩, fun h => ?_⟩
  have hb := burstOk_alone h.2 .never
  exact ⟨⟨completes_same rfl h.1 hb (.inl rfl) rfl, completes_same rfl h.1 hb (.inl rfl) rfl, List.forall_mem_nil _⟩,
    fun hr => ⟨exits rfl h rfl hr, exits rfl h (congrArg (exitAct s e) (activeLanes_always e)) hr, List.forall_mem_nil _⟩,
    fun hs => hold_begins h hs, fun hs => hold_ends h hs⟩

end Sys2Proof.Proofs
end

section
/-! O31: QCFG (R69, R347, R348). -/

namespace Sys2Proof.Proofs

open Sys2Proof Sys2Proof.Machine Sys2Proof.Safety Sys2Proof.Laws

/-- A block is another but for its queue objects and one pack's bindings. -/
structure Rebound (b b' : Block) (p p' : Pack) : Prop where
  block : b' = { b with packs := b'.packs, queues := b'.queues }
  pack : getPack b' p.pidx p.pos = some p'
  bindings : p' = { p with qbind := p'.qbind }
  others : ∀ i j, ¬ (i = p.pidx ∧ j = p.pos) → getPack b' i j = getPack b i j

theorem rebound_refl {b : Block} {p : Pack} (h : getPack b p.pidx p.pos = some p) : Rebound b b p p :=
  ⟨rfl, h, rfl, fun _ _ _ => rfl⟩

theorem rebound_trans {b b1 b2 : Block} {p p1 p2 : Pack} (h : Rebound b b1 p p1) (k : Rebound b1 b2 p1 p2) : Rebound b b2 p p2 := by
  have h1 : p1.pidx = p.pidx := by rw [h.bindings]
  have h2 : p1.pos = p.pos := by rw [h.bindings]
  refine ⟨by rw [k.block, h.block], h1 ▸ h2 ▸ k.pack, by rw [k.bindings, h.bindings], fun i j hij => ?_⟩
  exact (k.others i j (by rw [h1, h2]; exact hij)).trans (h.others i j hij)

theorem rebound_ite {c : Prop} [Decidable c] {b b1 b2 : Block} {p p' : Pack} (h : Rebound b b1 p p') (k : Rebound b b2 p p') :
    Rebound b (if c then b1 else b2) p p' := by
  split
  · exact h
  · exact k

/-- A pack takes other bindings, and the block other queue objects. -/
theorem rebound_set {b : Block} {p : Pack} (h : getPack b p.pidx p.pos = some p) (l : List QBind) (o : Sparse Queue) :
    Rebound b { setPack b { p with qbind := l } with queues := o } p { p with qbind := l } :=
  ⟨rfl, getPack_setPack (p := { p with qbind := l }) h rfl rfl, rfl, fun _ _ hij => getPack_setPack_other (p := { p with qbind := l }) hij⟩

/-! ## The bindings of a pack -/

theorem qbindOf_dropped (p : Pack) (q k : Nat) :
    qbindOf { p with qbind := p.qbind.filter fun y => y.q != q } k = if k = q then none else qbindOf p k := by
  unfold qbindOf
  dsimp only
  rw [List.find?_filter]
  split
  · subst_vars
    exact List.find?_eq_none.2 fun x _ => by simp
  · rename_i hk
    refine congrArg (fun f => p.qbind.find? f) (funext fun x => ?_)
    by_cases hx : x.q = k <;> simp [hx, hk]

/-- What the end of a binding leaves: the register is unbound, the other bindings stay. -/
theorem unbindQueue_spec {b : Block} {p : Pack} (h : getPack b p.pidx p.pos = some p) (q : Nat) :
    ∃ p', Rebound b (unbindQueue b p q) p p' ∧ ∀ k, qbindOf p' k = if k = q then none else qbindOf p k := by
  unfold unbindQueue
  split
  · rename_i hq
    refine ⟨p, rebound_refl h, fun k => ?_⟩
    split
    · subst_vars; exact hq
    · rfl
  · refine ⟨{ p with qbind := p.qbind.filter fun y => y.q != q }, ?_, qbindOf_dropped p q⟩
    dsimp only
    split
    · exact rebound_set h _ b.queues
    · exact rebound_ite (rebound_set h _ _) (rebound_set h _ _)

/-- What a binding leaves: the register is bound to the object, the other bindings stay. -/
theorem bindQueue_spec {b : Block} {p : Pack} (h : getPack b p.pidx p.pos = some p) (q off cap : Nat) (push : Bool) :
    ∃ p', Rebound b (bindQueue b p q off cap push) p p' ∧
      ∀ k, qbindOf p' k = if k = q then some { q, off, push } else qbindOf p k := by
  refine ⟨{ p with qbind := { q, off, push } :: p.qbind.filter fun y => y.q != q }, rebound_set h _ _, fun k => ?_⟩
  have hd := qbindOf_dropped p q k
  unfold qbindOf at hd ⊢
  rw [List.find?_cons]
  by_cases hk : k = q
  · simp [hk]
  · rw [if_neg hk] at hd ⊢
    have hq : (q == k) = false := by simpa using Ne.symm hk
    rw [← hd, hq]

/-- The object that a register is bound to has the capacity and the width of its binding, and is marked as bound this way. -/
theorem bindQueue_object {b : Block} {p : Pack} {q off cap : Nat} {push : Bool} (h : bindMisuse b p.width off cap push = false) :
    ∃ o, spFind? (bindQueue b p q off cap push).queues off = some o ∧ o.cap = cap ∧ o.width = p.width ∧
      (if push then o.pushed else o.popped) = true := by
  have hfit : ((spFind? b.queues off).getD { cap, width := p.width }).cap = cap ∧
      ((spFind? b.queues off).getD { cap, width := p.width }).width = p.width := by
    unfold bindMisuse at h
    cases ho : spFind? b.queues off with
    | none => exact ⟨rfl, rfl⟩
    | some o =>
      rw [ho] at h
      simp only [Bool.or_eq_false_iff, bne_eq_false_iff_eq] at h
      obtain ⟨⟨hc, hw⟩, -⟩ := h
      exact ⟨hc, hw⟩
  refine ⟨_, (spFind?_spSet _ _ _ _).trans (if_pos rfl), ?_⟩
  cases push <;> exact ⟨hfit.1, hfit.2, rfl⟩

/-! ## The instruction -/

/-- The block that QCFG leaves. -/
def configured (e : Issuer) (q off cap : Nat) (push : Bool) : Block :=
  if cap = 0 then unbindQueue e.b e.p q
  else bindQueue (unbindQueue e.b e.p q) ((getPack (unbindQueue e.b e.p q) e.p.pidx e.p.pos).getD e.p) q off cap push

theorem getPack_issuer {s : State} {e : Issuer} (h : issuerAt s e.ref = some e) : getPack e.b e.p.pidx e.p.pos = some e.p := by
  obtain ⟨-, -, hp, -⟩ := issuerAt_eq.1 h
  obtain ⟨h1, h2⟩ := getPack_key hp
  rw [h1, h2]
  exact hp

theorem configured_spec {s : State} {e : Issuer} (h : issuerAt s e.ref = some e) {q off cap : Nat} {push : Bool}
    (hc : qcfgCause e q off cap push = none) :
    ∃ p, Rebound e.b (configured e q off cap push) e.p p ∧ (∀ k, k ≠ q → qbindOf p k = qbindOf e.p k) ∧
      qbindOf p q = (if cap = 0 then none else some { q, off, push }) ∧
      (cap ≠ 0 → ∃ o, spFind? (configured e q off cap push).queues off = some o ∧ o.cap = cap ∧ o.width = e.p.width ∧
        (if push then o.pushed else o.popped) = true) := by
  obtain ⟨p1, h1, hq1⟩ := unbindQueue_spec (getPack_issuer h) q
  unfold configured
  by_cases h0 : cap = 0
  · rw [if_pos h0, if_pos h0]
    exact ⟨p1, h1, fun k hk => (hq1 k).trans (if_neg hk), (hq1 q).trans (if_pos rfl), fun hn => absurd h0 hn⟩
  · have hw : p1.width = e.p.width := by rw [h1.bindings]
    have hmis : bindMisuse (unbindQueue e.b e.p q) p1.width off cap push = false := by
      rw [hw]
      unfold qcfgCause at hc
      by_contra hm
      rw [Bool.not_eq_false] at hm
      simp only [h0, hm, if_true, if_false] at hc
      split at hc <;> cases hc
    rw [if_neg h0, if_neg h0, h1.pack, Option.getD_some]
    have hp1 : getPack (unbindQueue e.b e.p q) p1.pidx p1.pos = some p1 := by
      have hk := getPack_key h1.pack
      rw [hk.1, hk.2]
      exact h1.pack
    obtain ⟨p2, h2, hq2⟩ := bindQueue_spec hp1 q off cap push
    refine ⟨p2, rebound_trans h1 h2, fun k hk => ?_, (hq2 q).trans (if_pos rfl), fun _ => hw ▸ bindQueue_object hmis⟩
    rw [hq2, if_neg hk, hq1, if_neg hk]

/-- Settles O31: QCFG leaves the block as `configured_spec` says, and completes as a synchronising operation. -/
theorem queueBinding : Obligations.QueueBinding := by
  unfold Obligations.QueueBinding
  intro s e g h hu ht q push off cap hc
  obtain ⟨p, hb, hothers, hq, ho⟩ := configured_spec h.1.2 hc
  have hb0 := hb.block
  obtain ⟨-, i1, i2, -, i4⟩ := issuerAt_eq.1 h.1.2
  have hkey := getPack_key i2
  have hset : issuerAt (setBlock s (configured e q off cap push)) e.ref = some
      { ref := e.ref, b := configured e q off cap push, p := p, f := e.f, l := e.l } := by
    refine issuerAt_setBlock h.1.2 ?_ (by rw [hb0]) (by rw [← hkey.1, ← hkey.2]; exact hb.pack) ?_
    · rw [hb0]; exact getBlock_bid (b := e.b) i1
    · rw [hb.bindings]; exact i4
  have hstir := stirred_syncDone (setBlock s (configured e q off cap push)) e
  obtain ⟨e', he'⟩ := kept_stirred hstir _ _ hset
  refine completes rfl h.1 (burstOk_alone h.2 _) (.inl rfl) ?_ he'
    ⟨rfl, _, p, hstir, hb0, hb.pack, hb.bindings, hb.others, hothers, hq, ho⟩
  dsimp only
  rw [hu, ht]
  dsimp only
  rw [if_neg Bool.false_ne_true, hc]
  rfl

end Sys2Proof.Proofs
end

section
/-! O39: tile rings and MSTAT (R376 to R378). -/

namespace Sys2Proof.Proofs

open Sys2Proof Sys2Proof.Machine Sys2Proof.Safety Sys2Proof.Laws

/-- An instruction with octets left to it that does not complete ends as its own body does. -/
theorem matIssue_stops {s : State} {e : Issuer} {res : Pack → Retire} {k : List Nat → Act} {a : Act} (hr : pairReady e.p e.f = true)
    (ho : todoOctets e.p e.f ≠ []) (hk : k (todoOctets e.p e.f) = a) (ha : ∀ t r, a ≠ .ok t r) : matIssue s e res k = a := by
  unfold matIssue
  have hne : (todoOctets e.p e.f).isEmpty = false := by simpa using ho
  simp only [hr, hne, Bool.not_true, Bool.false_eq_true, if_false, hk]

/-- `performs` for a body that is the issue of octets once its operands are read. -/
theorem performs_of {i : Instr} {s v : State} {e e' : Issuer} {place : BurstPlace} {body : Issuer → Act} {res : Pack → Retire}
    {r : Retire} {P : State → Retire → Prop} (hx : exec i s = issue s 8 place false body) (h : Issues s e)
    (hb : burstOk e.f place = true) (hr : pairReady e.p e.f = true) (ho : todoOctets e.p e.f ≠ [])
    (ha : ∃ k, body e = matIssue s e res k ∧ k (todoOctets e.p e.f) = .ok v r) (hv : issuerAt v e.ref = some e')
    (hP : P v (res (refresh (markPartners v e (todoOctets e.p e.f)) e).p)) : Performs i s e P := by
  obtain ⟨k, hk, hkv⟩ := ha
  exact performs hx h hb hr ho hk hkv hv hP

/-! ## MSTAT -/

section
variable {s : State} {e : Issuer} {g : Gen}

/-- MSTAT's count as its selector names it. -/
theorem mstatVal_eq (e : Issuer) (g : Gen) : mstatVal e g.opx.toNat = if e.l.det then 0 else
    if g.opx = 0 then e.b.passCount else if g.opx = 1 then e.b.replays % 2 ^ 32 else
      (e.b.passes.filter fun q => q.pidx == e.p.pidx && q.pos == e.p.pos).length := by
  have h0 : g.opx = 0 ↔ g.opx.toNat = 0 := BitVec.toNat_inj.symm
  have h1 : g.opx = 1 ↔ g.opx.toNat = 1 := BitVec.toNat_inj.symm
  unfold mstatVal
  simp only [h0, h1]
  match g.opx.toNat with
  | 0 => rfl
  | 1 => rfl
  | n + 2 => rfl

theorem octActive_slice {e : Issuer} {pr : Pred} {octs : List Nat} {l : Nat} (h : l ∈ octActive e pr octs) :
    l / 4 < e.p.slices.length := by
  by_contra hn
  have hm := (List.mem_filter.1 h).2
  rw [sliceOf, List.getD_eq_default _ _ (Nat.le_of_not_lt hn)] at hm
  simp at hm

theorem mstat_counts (h : IssuesAlone s e) (hr : pairReady e.p e.f = true) (ho : todoOctets e.p e.f ≠ [])
    (hc : operandCause e (maskLanes e.p e.f) [] g.dst 1 = none) : Performs (.mstat g) s e fun v r => ∃ p, PackIs s v e p ∧
      RegsAfter e.p p (inSup e.f) g.dst g.nowb 1 (octActive e g.pred (todoOctets e.p e.f)) (fun _ => mstatVal e g.opx.toNat) ∧
      r = mstatRes e g p := by
  let p := writeBack (inSup e.f) g.dst g.nowb 1
    ((octActive e g.pred (todoOctets e.p e.f)).map fun l => (l, mstatVal e g.opx.toNat)) e.p
  have hp : p = _ := (lanesOnly_writeBack (inSup e.f) g.dst g.nowb 1 _ e.p).rest
  obtain ⟨-, i1, -, -, i4⟩ := issuerAt_eq.1 h.1.2
  have h1 : p.pidx = e.p.pidx := by rw [hp]
  have h2 : p.pos = e.p.pos := by rw [hp]
  have hi := issuerAt_set h.1.2 h1 h2 (f := e.f) (by rw [hp]; exact i4)
  refine performs_of (res := mstatRes e g) (r := {}) rfl h.1 (burstOk_alone h.2 _) hr ho ⟨_, by rw [hc], ?_⟩ hi
    ⟨p, packIs_set h.1.2 h1 h2, ?_, ?_⟩
  · rw [← putPack_eq i1]
  · have hw := writeBack_regs (inSup e.f) g.dst g.nowb 1 (fun _ => mstatVal e g.opx.toNat)
      (fun l => octActive_slice (e := e) (pr := g.pred) (octs := todoOctets e.p e.f) (l := l))
    rw [← writeBack_all] at hw
    exact hw
  · obtain ⟨fr, hfr⟩ := refresh_markPartners (octs := todoOctets e.p e.f) hi h1 h2
    rw [hfr]
    rfl

end

/-! ## Ring operations -/

section
variable {s : State} {e : Issuer} {x : X64} {k : Nat → Nat → RingSlot → Act}

/-- What the operations on a ring meet: an operand that can be read, no turn to wait for, octets left to perform. -/
structure RingMeets (s : State) (e : Issuer) (x : X64) : Prop where
  issues : IssuesAlone s e
  ready : pairReady e.p e.f = true
  todo : todoOctets e.p e.f ≠ []
  operand : uniCause e [opn32 x.reg] = none
  turn : needsTurn s e = false

/-- The ring that an instruction names. -/
def ringOf (e : Issuer) (x : X64) : Option Ring := e.b.rings.find? fun y => y.tid == x.tid.toNat

/-- A ring operation on no ring, or beyond its ring, is misuse. -/
theorem ringAct_beyond (h : RingMeets s e x) (hn : ∀ y, ringOf e x = some y → y.slots.length ≤ uniVal e x.reg % 65536) :
    ringAct s e x k = .trap (trapAll e [] 0x0C) := by
  unfold ringAct
  rw [h.operand]
  refine matIssue_stops h.ready h.todo ?_ (fun t r => by simp)
  rw [h.turn]
  simp only [Bool.false_eq_true, if_false]
  unfold ringOf at hn
  split
  · rfl
  · rename_i y hy
    rw [List.getElem?_eq_none (hn y hy)]

/-- A ring operation on a slot acts on the state that the slot is in. -/
theorem ringAct_slot (h : RingMeets s e x) {y : Ring} {st : RingSlot} (hy : ringOf e x = some y)
    (hst : y.slots[uniVal e x.reg % 65536]? = some st) : ∃ f, ringAct s e x k = matIssue s e noRes f ∧
      f (todoOctets e.p e.f) = k (uniVal e x.reg % 65536) (uniVal e x.reg / 65536 % 2) st := by
  unfold ringAct
  rw [h.operand]
  refine ⟨_, rfl, ?_⟩
  unfold ringOf at hy
  rw [h.turn]
  simp only [Bool.false_eq_true, if_false, hy, hst]

/-- The answer of a ring operation on a slot. -/
theorem ringAct_stops (h : RingMeets s e x) {y : Ring} {st : RingSlot} {a : Act} (hy : ringOf e x = some y)
    (hst : y.slots[uniVal e x.reg % 65536]? = some st) (hk : k (uniVal e x.reg % 65536) (uniVal e x.reg / 65536 % 2) st = a)
    (ha : ∀ t r, a ≠ .ok t r) : ringAct s e x k = a := by
  obtain ⟨f, hf, hfk⟩ := ringAct_slot (k := k) h hy hst
  rw [hf]
  exact matIssue_stops h.ready h.todo (hfk.trans hk) ha

theorem ringAct_performs {i : Instr} {body : Issuer → Act} (hx : exec i s = issue s 8 .never false body) (hb : body e = ringAct s e x k)
    (h : RingMeets s e x) {y : Ring} {st : RingSlot} (hy : ringOf e x = some y) (hst : y.slots[uniVal e x.reg % 65536]? = some st)
    {b : Block} (hk : k (uniVal e x.reg % 65536) (uniVal e x.reg / 65536 % 2) st = .ok (syncDone (setBlock s b) e) {})
    (hbid : b.bid = e.b.bid) (hl : b.launch = e.b.launch) (hp : b.packs = e.b.packs) :
    Performs i s e fun v r => r = {} ∧ Stirred (setBlock s b) v := by
  obtain ⟨f, hf, hfk⟩ := ringAct_slot (k := k) h hy hst
  obtain ⟨-, i1, -⟩ := issuerAt_eq.1 h.issues.1.2
  have hs := stirred_syncDone (setBlock s b) e
  obtain ⟨e', he'⟩ := kept_trans (kept_setBlock_packs i1 hbid hl hp) (kept_stirred hs) _ _ h.issues.1.2
  exact performs hx h.issues.1 (burstOk_alone h.issues.2 _) h.ready h.todo (hb.trans hf) (hfk.trans hk) he' ⟨rfl, hs⟩

/-- Where a slot is valid RINGDONE consumes it and RINGPUT is misuse. -/
theorem ring_valid (h : RingMeets s e x) {y : Ring} (hy : ringOf e x = some y)
    (hst : y.slots[uniVal e x.reg % 65536]? = some .valid) :
    exec (.ringput x) s = .next (takeTrap s e (trapAll e [] 0x0C)) ∧ Performs (.ringdone x) s e fun v r => r = {} ∧
      Stirred (setBlock s (setRingSlot e.b x.tid.toNat (uniVal e x.reg % 65536) .consumed)) v :=
  ⟨traps rfl h.issues.1 (burstOk_alone h.issues.2 _) (.inl rfl) (ringAct_stops h hy hst rfl fun _ _ => Act.noConfusion),
    ringAct_performs rfl rfl h hy hst rfl rfl rfl rfl⟩

/-- Where a slot is not valid RINGPUT makes it so and RINGDONE is misuse. -/
theorem ring_invalid (h : RingMeets s e x) {y : Ring} {st : RingSlot} (hy : ringOf e x = some y)
    (hst : y.slots[uniVal e x.reg % 65536]? = some st) (hv : st ≠ .valid) :
    exec (.ringdone x) s = .next (takeTrap s e (trapAll e [] 0x0C)) ∧ Performs (.ringput x) s e fun v r => r = {} ∧
      Stirred (setBlock s (setRingSlot e.b x.tid.toNat (uniVal e x.reg % 65536) .valid)) v :=
  ⟨traps rfl h.issues.1 (burstOk_alone h.issues.2 _) (.inl rfl) (ringAct_stops h hy hst (if_pos hv) fun _ _ => Act.noConfusion),
    ringAct_performs rfl rfl h hy hst (if_neg hv) rfl rfl rfl⟩

/-- A slot is in the state that a mode waits for. -/
theorem ringReady_iff {y : Ring} {st : RingSlot} {i : Nat} (hy : ringOf e x = some y) (hst : y.slots[i]? = some st) (n : Nat) :
    ringReady e.b x.tid.toNat i (n % 2) = true ↔ (st = .valid ↔ n % 2 = 0) := by
  unfold ringOf at hy
  unfold ringReady
  simp only [hy, hst]
  have h2 : n % 2 = 0 ∨ n % 2 = 1 := by omega
  cases st <;> rcases h2 with h2 | h2 <;> simp [h2]

theorem ringtake_takes (h : RingMeets s e x) {y : Ring} {st : RingSlot} (hy : ringOf e x = some y)
    (hst : y.slots[uniVal e x.reg % 65536]? = some st) (hm : st = .valid ↔ uniVal e x.reg / 65536 % 2 = 0) :
    Performs (.ringtake x) s e fun v r => r = {} ∧ Stirred s v := by
  obtain ⟨f, hf, hfk⟩ := ringAct_slot (s := s) (k := fun i mode _ =>
    if ringReady e.b x.tid.toNat i mode then .ok (syncDone s e) {} else .wait .waiting (.ring x.tid.toNat i mode)) h hy hst
  obtain ⟨e', he'⟩ := kept_stirred (stirred_syncDone s e) _ _ h.issues.1.2
  exact performs (res := noRes) rfl h.issues.1 (burstOk_alone h.issues.2 _) h.ready h.todo hf
    (hfk.trans (if_pos ((ringReady_iff hy hst _).2 hm))) he' ⟨rfl, stirred_syncDone s e⟩

theorem ringtake_waits (h : RingMeets s e x) {y : Ring} {st : RingSlot} (hy : ringOf e x = some y)
    (hst : y.slots[uniVal e x.reg % 65536]? = some st) (hm : ¬ (st = .valid ↔ uniVal e x.reg / 65536 % 2 = 0)) :
    Waits (.ringtake x) s e .waiting (.ring x.tid.toNat (uniVal e x.reg % 65536) (uniVal e x.reg / 65536 % 2)) :=
  waits rfl h.issues.1 (burstOk_alone h.issues.2 _) (.inl rfl)
    (ringAct_stops h hy hst (if_neg (mt (ringReady_iff hy hst _).1 hm)) fun _ _ => Act.noConfusion)

/-- RINGINIT over a tensor in the stash that holds its slots makes a ring of free ones. -/
theorem ringinit_makes (h : RingMeets s e x) {w a : Nat} (hent : entryOf s e x.tid.toNat = .ok (w, a)) (hok : entryOk w = true)
    (hfmt : tFmt w ≤ 3) (hst : tStash w = true) (h2 : 2 ≤ uniVal e x.reg) (h64 : uniVal e x.reg ≤ 64)
    (h8 : (e.b.rings.filter fun y => y.tid != x.tid.toNat).length < 8) (hw : ringWaiter e.b x.tid.toNat = false)
    (hroom : tBase w + ((uniVal e x.reg - 1) * (tRows w * tRowLen w * tSize w) + storedExtent w) ≤ stashBytes e.l) :
    Performs (.ringinit x) s e fun v r => r = {} ∧ Stirred (setBlock s { e.b with
      rings := (e.b.rings.filter fun y => y.tid != x.tid.toNat) ++
        [{ tid := x.tid.toNat, slots := List.replicate (uniVal e x.reg) .free }] }) v := by
  obtain ⟨-, i1, -⟩ := issuerAt_eq.1 h.issues.1.2
  let b : Block := { e.b with rings := (e.b.rings.filter fun y => y.tid != x.tid.toNat) ++
    [{ tid := x.tid.toNat, slots := List.replicate (uniVal e x.reg) .free }] }
  have hs := stirred_syncDone (setBlock s b) e
  obtain ⟨e', he'⟩ := kept_trans (kept_setBlock_packs i1 (c := b) rfl rfl rfl) (kept_stirred hs) _ _ h.issues.1.2
  refine performs_of (res := noRes) (r := {}) rfl h.issues.1 (burstOk_alone h.issues.2 _) h.ready h.todo
    ⟨_, by rw [h.operand], ?_⟩ he' ⟨rfl, hs⟩
  have huse : useFaults w a (decide (tFmt w ≤ 3) && tStash w) = [] := useFaults_nil hok (by simp [hfmt, hst])
  have hcount : ¬ (uniVal e x.reg < 2 ∨ 64 < uniVal e x.reg ∨ 8 ≤ (e.b.rings.filter fun y => y.tid != x.tid.toNat).length ∨
      ringWaiter e.b x.tid.toNat = true) := by
    rw [hw]
    simp only [Bool.false_eq_true, or_false]
    omega
  simp only [hent, huse, h.turn, if_neg hcount, if_neg (Nat.not_lt.2 hroom), List.isEmpty_nil, Bool.and_false, Bool.false_eq_true,
    if_false, List.append_nil]
  rw [matTrap_none (by simp)]

/-- An operation on no ring, or beyond its ring. -/
theorem ring_misuse (h : RingMeets s e x) (hn : ∀ y, ringOf e x = some y → y.slots.length ≤ uniVal e x.reg % 65536) :
    ∀ y ∈ [Instr.ringput x, .ringtake x, .ringdone x], exec y s = .next (takeTrap s e (trapAll e [] 0x0C)) := by
  have hb := burstOk_alone h.issues.2 .never
  simp only [List.forall_mem_cons]
  exact ⟨traps rfl h.issues.1 hb (.inl rfl) (ringAct_beyond h hn), traps rfl h.issues.1 hb (.inl rfl) (ringAct_beyond h hn),
    traps rfl h.issues.1 hb (.inl rfl) (ringAct_beyond h hn), List.forall_mem_nil _⟩

end

/-- Settles O39: MSTAT writes its count to the lanes of its octets; each operation on a ring acts on the state of its slot. -/
theorem tileRings : Obligations.TileRings := by
  unfold Obligations.TileRings
  intro s e x g h hr ho
  refine ⟨fun hc => ?_, fun hu ht => ?_⟩
  · have hm := mstat_counts h hr ho hc
    simp only [mstatVal_eq] at hm
    exact hm
  · have hm : RingMeets s e x := ⟨h, hr, ho, hu, ht⟩
    refine ⟨fun w a hent hok hfmt hst h2 h64 h8 hw hroom => ringinit_makes hm hent hok hfmt hst h2 h64 h8 hw hroom, fun hn => ?_,
      fun y st hy hst => ⟨fun hv => ring_valid hm hy (hv ▸ hst), fun hv => ring_invalid hm hy hst hv,
        fun hv => ringtake_takes hm hy hst hv, fun hv => ringtake_waits hm hy hst hv⟩⟩
    have hall := ring_misuse hm hn
    simp only [List.forall_mem_cons] at hall
    obtain ⟨hput, htake, hdone, -⟩ := hall
    exact ⟨hput, htake, hdone⟩

end Sys2Proof.Proofs
end

section
/-! O15: PSPLIT (R56 to R60, R279). -/

namespace Sys2Proof.Proofs

open Sys2Proof Sys2Proof.Machine Sys2Proof.Safety Sys2Proof.Laws

/-! ## Effects on the packs of one block -/

/-- A state is another but for what charging records. -/
def Counted (s t : State) : Prop :=
  t = { s with budget := t.budget, shadows := t.shadows, activity := t.activity, free := t.free }

theorem counted_refl (s : State) : Counted s s := rfl

theorem counted_trans {s t u : State} (h : Counted s t) (k : Counted t u) : Counted s u := by
  unfold Counted at *
  generalize t.budget = U, t.shadows = H, t.activity = A, t.free = F at h
  subst h
  exact k

theorem counted_charge (s : State) (e : Issuer) : Counted s (chargeIssue s e) := by
  have h := chargeIssue_eq s e
  unfold Counted
  generalize chargeIssue s e = t at h
  generalize t.budget = U, t.shadows = H, t.activity = A at h
  subst h
  rfl

theorem counted_foldl {α : Type} (g : State → α → State) (h : ∀ s x, Counted s (g s x)) (l : List α) (s : State) :
    Counted s (l.foldl g s) := by
  induction l generalizing s with
  | nil => exact counted_refl s
  | cons a l ih => exact counted_trans (h s a) (ih _)

theorem counted_issuer {s t : State} (h : Counted s t) (r : FragRef) : issuerAt t r = issuerAt s r :=
  issuerAt_congr (by rw [h]) (by rw [h]) r

/-- A state is another but for the packs of one block and what charging records. -/
structure PacksOnly (s t : State) (blk : Nat) (b : Block) : Prop where
  device : t = { s with blocks := t.blocks, budget := t.budget, shadows := t.shadows, activity := t.activity, free := t.free }
  bytes : ∀ a, gByte t a = gByte s a
  others : ∀ m, m ≠ blk → getBlock t m = getBlock s m
  block : getBlock t blk = some b

/-- A block takes other packs, and instructions are charged. -/
theorem packsOnly_set {s t : State} {blk : Nat} {b c : Block} (hb : getBlock s blk = some b) (hc : c = { b with packs := c.packs })
    (ht : Counted (setBlock s c) t) : PacksOnly s t blk c := by
  have hbid : c.bid = blk := by rw [hc]; exact getBlock_bid (b := b) hb
  have hblocks : t.blocks = (setBlock s c).blocks := by rw [ht]
  refine ⟨by rw [ht]; rfl, fun a => ?_, fun m hm => ?_, ?_⟩
  · rw [gByte_congr hblocks (by rw [ht]) a]
    exact gByte_setBlock (by rw [hbid]; exact hb) (by rw [hc]) (by rw [hc]) a
  · rw [getBlock_congr hblocks, getBlock_setBlock_other (by rw [hbid]; exact hm)]
  · rw [getBlock_congr hblocks, getBlock_setBlock hb hbid]

theorem packNow_packsOnly {s t : State} {r : FragRef} {b : Block} (h : PacksOnly s t r.blk b) : packNow t r = getPack b r.pidx r.pos := by
  unfold packNow
  rw [h.block]
  rfl

/-! ## One fragment that holds a whole pack -/

/-- A pack whose only fragment holds all of its slices, once they have moved: those with a live lane stand behind their join
checks. -/
theorem settle_whole {tick : Nat} {p : Pack} {f : Fragment} {pc : DWord} (hp : p.frags = [f]) (hst : f.st ≠ .free)
    (hf : f.slices = sliceMask (List.range p.slices.length)) : let q := settleFrag tick p 0 fun _ => pc
    q = { p with slices := q.slices, frags := q.frags } ∧ ∀ k, k < 16 → (sliceOf q k).lanes = (sliceOf p k).lanes ∧
      (sliceOf q k).live = (sliceOf p k).live ∧ ((sliceOf q k).live ≠ 0 → StandsAt q k (joinCheck 10 pc (sliceOf p k)).1) := by
  intro q
  obtain ⟨hq, hsl, hstands, -⟩ := settleFrag_spec (tick := tick) (p := p) (i := 0) (fun _ => pc) (by rw [getFrag, hp]; rfl) hst
  refine ⟨hq, fun k hk => ?_⟩
  have hkeep : (sliceOf q k).lanes = (sliceOf p k).lanes ∧ (sliceOf q k).live = (sliceOf p k).live := by
    rw [show sliceOf q k = _ from hsl k]
    obtain ⟨mask, stack, hj⟩ := joinCheck_keeps 10 pc (sliceOf p k)
    split
    · rw [hj]; exact ⟨rfl, rfl⟩
    · exact ⟨rfl, rfl⟩
  refine ⟨hkeep.1, hkeep.2, fun hlive => hstands k (List.mem_filter.2 ⟨mem_fragSlices.2 ?_, by simpa [hkeep.2] using hlive⟩)⟩
  have hlt : k < p.slices.length := by
    by_contra hn
    rw [hkeep.2, sliceOf, List.getD_eq_default _ _ (Nat.le_of_not_lt hn)] at hlive
    exact hlive rfl
  refine ⟨hlt, ?_⟩
  rw [hf, sliceMask_getLsbD _ _ hk]
  simpa using hlt

/-! ## Sub-packs -/

/-- Where sub-pack j of a pack of sub-packs of w lanes lies. -/
theorem subPos_lt {n w width : Nat} {j : Nat} (hw : w = width / n) (h8 : 8 ≤ w) (hj : j < n) : j * w / 8 < width / 8 := by
  have h1 : n * w ≤ width := hw ▸ Nat.mul_div_le width n
  have h2 : j * w + w ≤ n * w := by
    rw [← Nat.succ_mul]; exact Nat.mul_le_mul_right w hj
  omega

theorem subPos_strict {w i j : Nat} (h8 : 8 ≤ w) (hij : i < j) : i * w / 8 < j * w / 8 := by
  have h2 : i * w + w ≤ j * w := by
    rw [← Nat.succ_mul]; exact Nat.mul_le_mul_right w hij
  omega

theorem sliceOf_part (p : Pack) (q : Pack) (d n k : Nat) (hq : q.slices = (p.slices.drop d).take n) (hk : k < n) :
    sliceOf q k = sliceOf p (d + k) := by
  unfold sliceOf
  rw [hq, List.getD_eq_getElem?_getD, List.getD_eq_getElem?_getD, List.getElem?_take, if_pos hk, List.getElem?_drop]

/-- The slices of sub-pack j of n. -/
def partSlices (p : Pack) (n j : Nat) : List Slice := (p.slices.drop (j * (p.width / n) / 4)).take (p.width / n / 4)

/-- The fragment of a sub-pack, which holds all of its slices (R58). -/
def partFrag (tick : Nat) (p : Pack) (f : Fragment) (n j : Nat) : Fragment :=
  { pc := f.pc + 8, slices := sliceMask (List.range (partSlices p n j).length), since := tick, frame := f.frame }

/-- A sub-pack before its slices move. -/
def partPack (tick : Nat) (p : Pack) (f : Fragment) (n j clock : Nat) : Pack :=
  let w := p.width / n
  { p with
    pos := p.pos + j * w / 8, width := w, slices := partSlices p n j,
    qbind := if j = 0 then p.qbind else [], streamer := j == 0 && p.streamer, eng := [],
    hist := { width := p.width, pos := p.pos, parts := n } :: p.hist, frags := [partFrag tick p f n j], lclock := clock, buf := [],
    badV := (p.badV.filter fun b => j * w ≤ b.1 && b.1 < (j + 1) * w).map fun b => (b.1 - j * w, b.2),
    badP := (p.badP.filter fun b => j * w ≤ b.1 && b.1 < (j + 1) * w).map fun b => (b.1 - j * w, b.2) }

theorem subPack_eq (tick : Nat) (p : Pack) (f : Fragment) (n j clock : Nat) :
    subPack tick p f n j clock = settleFrag tick (partPack tick p f n j clock) 0 fun _ => f.pc + 8 := rfl

theorem subPack_spec (tick : Nat) {p : Pack} (f : Fragment) {n : Nat} (j clock : Nat) (hw : p.width ≤ 64) :
    let q := subPack tick p f n j clock
    let w := p.width / n
    q = { partPack tick p f n j clock with slices := q.slices, frags := q.frags } ∧
    ∀ k, k < w / 4 → (sliceOf q k).lanes = (sliceOf p (j * w / 4 + k)).lanes ∧ (sliceOf q k).live = (sliceOf p (j * w / 4 + k)).live ∧
      ((sliceOf q k).live ≠ 0 → StandsAt q k (joinCheck 10 (f.pc + 8) (sliceOf p (j * w / 4 + k))).1) := by
  intro q w
  obtain ⟨hq, hk⟩ := settle_whole (tick := tick) (p := partPack tick p f n j clock) (f := partFrag tick p f n j) (pc := f.pc + 8)
    rfl (by simp [partFrag]) rfl
  refine ⟨hq, fun k hkw => ?_⟩
  have hw64 : w ≤ 64 := (Nat.div_le_self _ _).trans hw
  have hs := hk k (by omega)
  rw [sliceOf_part p (partPack tick p f n j clock) _ _ k rfl hkw] at hs
  exact hs

/-! ## The block of the sub-packs -/

section
variable {s : State} {e : Issuer} {g : Gen}

/-- The packs of a block in which the issuer's pack has given way to others. -/
def replacedBy (e : Issuer) (subs : List Pack) : List Pack :=
  e.b.packs.flatMap fun q => if q.pidx = e.p.pidx ∧ q.pos = e.p.pos then subs else [q]

/-- A sub-pack is found at its place. -/
theorem getPack_replacedBy (h : issuerAt s e.ref = some e) {subs : List Pack} {x : Nat} {q : Pack}
    (hx : ∀ y ∈ e.b.packs, y.pidx = e.p.pidx → y.pos = x → x = e.p.pos)
    (hq : subs.find? (fun y => y.pidx == e.p.pidx && y.pos == x) = some q) :
    getPack { e.b with packs := replacedBy e subs } e.ref.pidx x = some q := by
  obtain ⟨-, -, hp, -⟩ := issuerAt_eq.1 h
  have hkey := getPack_key hp
  unfold getPack at hp ⊢
  have hf := find_flatMap (fun y => y.pidx == e.p.pidx && y.pos == x) (fun y => decide (y.pidx = e.p.pidx ∧ y.pos = e.p.pos)) subs
    e.b.packs (x := e.p) ?_ (fun y hy hn => ?_) hq
  · rw [← hkey.1]
    simpa [replacedBy] using hf
  · rw [← hp, ← hkey.1, ← hkey.2]
    exact congrArg (fun F => e.b.packs.find? F) (funext fun y => by simp [Bool.decide_and, beq_eq_decide])
  · by_contra hc
    rw [Bool.not_eq_false, Bool.and_eq_true, beq_iff_eq, beq_iff_eq] at hc
    obtain ⟨hi, hj⟩ := hc
    have := hx y hy hi hj
    simp [hi, hj, this] at hn

/-- The sub-packs of a split into n. -/
def subPacks (s : State) (e : Issuer) (n : Nat) : List Pack :=
  (List.range n).map fun j => subPack s.tick e.p e.f n j (countClock e.l (inSup e.f) false e.p).lclock

/-- What a split needs (R279). -/
structure Splits (e : Issuer) (n : Nat) : Prop where
  wide : 8 ≤ e.p.width / n
  whole : holdsAll e.p e.f = true

theorem Splits.allowed {n : Nat} (h : Splits e n) : ¬ (e.p.width / n < 8 ∨ ¬ holdsAll e.p e.f = true) :=
  fun hn => hn.elim (Nat.not_lt.2 h.wide) fun hw => hw h.whole

theorem psplit_refused (h : IssuesAlone s e) (hb : e.p.width / 2 ^ g.opx.toNat < 8 ∨ holdsAll e.p e.f = false) :
    exec (.psplit g) s = .next (takeTrap s e (trapAll e [] 0x0B)) := by
  refine traps rfl h.1 (burstOk_alone h.2 _) (.inl rfl) ?_
  dsimp only
  exact if_pos (hb.imp_right fun hn => by simp [hn])

theorem psplit_waits (h : IssuesAlone s e) (hs : Splits e (2 ^ g.opx.toNat)) (hr : needsRound e = false) (hi : engIdle e.p = false) :
    Waits (.psplit g) s e .ready .drained := by
  refine waits rfl h.1 (burstOk_alone h.2 _) (.inl rfl) ?_
  dsimp only
  rw [if_neg hs.allowed, hr, hi]
  rfl

theorem psplit_splits (h : IssuesAlone s e) (hs : Splits e (2 ^ g.opx.toNat)) (hr : needsRound e = false) (hi : engIdle e.p = true) :
    exec (.psplit g) s =
      .next (chargeIssue (setBlock s { e.b with packs := replacedBy e (subPacks s e (2 ^ g.opx.toNat)) }) e) := by
  refine owns rfl h.1 (burstOk_alone h.2 _) (.inl rfl) ?_
  dsimp only
  rw [if_neg hs.allowed, hr, hi]
  rfl

/-- A sub-pack stands at its place in the block. -/
theorem getPack_subPacks (h : issuerAt s e.ref = some e) {n : Nat} (hs : Splits e n) (hw : e.p.width ≤ 64)
    (hp : ∀ q ∈ e.b.packs, q.pidx = e.p.pidx → e.p.pos < q.pos → e.p.pos + e.p.width / 8 ≤ q.pos) {j : Nat} (hj : j < n) :
    getPack { e.b with packs := replacedBy e (subPacks s e n) } e.ref.pidx (e.p.pos + j * (e.p.width / n) / 8) =
      some (subPack s.tick e.p e.f n j (countClock e.l (inSup e.f) false e.p).lclock) := by
  have hkey : ∀ i, (subPack s.tick e.p e.f n i (countClock e.l (inSup e.f) false e.p).lclock).pidx = e.p.pidx ∧
      (subPack s.tick e.p e.f n i (countClock e.l (inSup e.f) false e.p).lclock).pos = e.p.pos + i * (e.p.width / n) / 8 :=
    fun i => by
      rw [(subPack_spec s.tick e.f (n := n) i _ hw).1]
      exact ⟨rfl, rfl⟩
  refine getPack_replacedBy h (fun y hy hi hpos => ?_) (find_range _ _ n j hj (by simp [hkey]) fun i hij => ?_)
  · have hlt := subPos_lt rfl hs.wide hj
    by_contra hne
    have := hp y hy hi (by omega)
    omega
  · have := subPos_strict hs.wide hij
    have hne : ¬ (i * (e.p.width / n) / 8 = j * (e.p.width / n) / 8) := by omega
    simp [hkey, hne]

end

/-- Settles O15: a PSPLIT that R279 allows replaces the pack by its sub-packs, each as `subPack_spec` says. -/
theorem packSplit : Obligations.PackSplit := by
  unfold Obligations.PackSplit
  intro s e g h n w bad
  have hsplit : ¬ bad → Splits e n := fun hb => ⟨Nat.le_of_not_lt fun hw => hb (.inl hw), by simpa using fun hn => hb (.inr hn)⟩
  refine ⟨psplit_refused h, fun hb hr hi => psplit_waits h (hsplit hb) hr hi, fun hb hr hi hw hp => ?_⟩
  have hs := hsplit hb
  obtain ⟨-, i1, -⟩ := issuerAt_eq.1 h.1.2
  have ht := packsOnly_set i1 (c := { e.b with packs := replacedBy e (subPacks s e n) }) rfl (counted_charge _ e)
  refine ⟨_, psplit_splits h hs hr hi, ht.device, ht.bytes, ht.others, fun j hj => ?_⟩
  obtain ⟨hq, hslices⟩ := subPack_spec s.tick e.f (n := n) j (countClock e.l (inSup e.f) false e.p).lclock hw
  refine ⟨_, (packNow_packsOnly (r := { e.ref with pos := e.p.pos + j * w / 8 }) ht).trans (getPack_subPacks h.1.2 hs hw hp hj),
    ?_, ?_, ?_, ?_, ?_, ?_, ?_, ?_, hslices⟩
  · rw [hq]; rfl
  · rw [hq]
    change (countClock e.l (inSup e.f) false e.p).lclock = _
    rw [countClock_eq]
    rfl
  · rw [hq]; rfl
  · rw [hq]; rfl
  · rw [hq]; rfl
  · rw [hq]; rfl
  · rw [hq]; rfl
  · rw [hq]; rfl

end Sys2Proof.Proofs
end

section
/-! O16: PFUSE (R61 to R63). -/

namespace Sys2Proof.Proofs

open Sys2Proof Sys2Proof.Machine Sys2Proof.Safety Sys2Proof.Laws

/-! ## Siblings in order of position -/

theorem insertPos_perm (p : Pack) (l : List Pack) : (insertPos p l).Perm (p :: l) := by
  induction l with
  | nil => exact .refl _
  | cons q l ih =>
    unfold insertPos
    split
    · exact .refl _
    · exact (ih.cons q).trans (.swap p q l)

theorem insertPos_sorted (p : Pack) {l : List Pack} (h : l.Pairwise fun x y => x.pos ≤ y.pos) :
    (insertPos p l).Pairwise fun x y => x.pos ≤ y.pos := by
  induction l with
  | nil => exact List.pairwise_singleton _ _
  | cons q l ih =>
    obtain ⟨hq, hl⟩ := List.pairwise_cons.1 h
    unfold insertPos
    split
    · rename_i hpq
      exact List.pairwise_cons.2 ⟨fun x hx => (List.mem_cons.1 hx).elim (fun hx => hx ▸ hpq) fun hx => hpq.trans (hq x hx), h⟩
    · rename_i hpq
      refine List.pairwise_cons.2 ⟨fun x hx => ?_, ih hl⟩
      rcases List.mem_cons.1 ((insertPos_perm p l).mem_iff.1 hx) with rfl | hx
      · omega
      · exact hq x hx

/-- The siblings of an issuer's pack, in ascending position. -/
def fuseSibs (w : Issuer) : List Pack := (siblings w.b w.p).foldr insertPos []

theorem fuseSibs_perm (w : Issuer) : (fuseSibs w).Perm (siblings w.b w.p) := by
  unfold fuseSibs
  induction siblings w.b w.p with
  | nil => exact .refl _
  | cons q l ih => exact (insertPos_perm q _).trans (ih.cons q)

theorem fuseSibs_sorted (w : Issuer) : (fuseSibs w).Pairwise fun x y => x.pos ≤ y.pos := by
  unfold fuseSibs
  induction siblings w.b w.p with
  | nil => exact .nil
  | cons q l ih => exact insertPos_sorted q ih

theorem mem_fuseSibs {w : Issuer} {x : Pack} : x ∈ fuseSibs w ↔ x ∈ siblings w.b w.p := (fuseSibs_perm w).mem_iff

/-- The siblings that have a live lane. -/
def fuseLive (w : Issuer) : List Pack := (fuseSibs w).filter fun q => !packExited q

theorem mem_fuseLive {w : Issuer} {x : Pack} : x ∈ fuseLive w ↔ x ∈ siblings w.b w.p ∧ liveSlices x ≠ [] := by
  rw [fuseLive, List.mem_filter, mem_fuseSibs]
  simp [packExited]

/-- The lowest live sibling is the first of them. -/
theorem fuseLive_head {w : Issuer} {low : Pack} (hl : low ∈ siblings w.b w.p) (hn : liveSlices low ≠ [])
    (hmin : ∀ x ∈ siblings w.b w.p, liveSlices x ≠ [] → x = low ∨ low.pos < x.pos) : ∃ l, fuseLive w = low :: l := by
  have hmem : low ∈ fuseLive w := mem_fuseLive.2 ⟨hl, hn⟩
  have hs : (fuseLive w).Pairwise fun x y => x.pos ≤ y.pos := (fuseSibs_sorted w).filter _
  cases hf : fuseLive w with
  | nil => simp [hf] at hmem
  | cons a l =>
    obtain ⟨ha, -⟩ := List.pairwise_cons.1 (hf ▸ hs)
    obtain ⟨hsib, hlive⟩ := mem_fuseLive.1 (hf ▸ List.mem_cons_self : a ∈ fuseLive w)
    rcases hmin a hsib hlive with rfl | hlt
    · exact ⟨l, rfl⟩
    · rcases List.mem_cons.1 (hf ▸ hmem) with rfl | hl
      · exact ⟨l, rfl⟩
      · exact absurd (ha low hl) (by omega)

/-! ## The fused pack -/

theorem foldl_max {α : Type} (f : α → Nat) (l : List α) (m : Nat) : let r := l.foldl (fun m x => max m (f x)) m
    m ≤ r ∧ (∀ x ∈ l, f x ≤ r) ∧ (r = m ∨ ∃ x ∈ l, r = f x) := by
  induction l generalizing m with
  | nil => exact ⟨le_refl _, by simp, .inl rfl⟩
  | cons a l ih =>
    obtain ⟨h1, h2, h3⟩ := ih (max m (f a))
    refine ⟨(le_max_left _ _).trans h1, fun x hx => ?_, ?_⟩
    · rcases List.mem_cons.1 hx with rfl | hx
      · exact (le_max_right _ _).trans h1
      · exact h2 x hx
    · rcases h3 with h3 | ⟨x, hx, h3⟩
      · rcases le_total m (f a) with hm | hm
        · exact .inr ⟨a, List.mem_cons_self, h3.trans (max_eq_right hm)⟩
        · exact .inl (h3.trans (max_eq_left hm))
      · exact .inr ⟨x, List.mem_cons_of_mem _ hx, h3⟩

/-- What the PFUSE of a sibling leaves on its clock (R61, R111, R504). -/
theorem fuseClock_eq (det : Bool) (x : Pack) : fuseClock det x =
    if liveSlices x = [] ∨ (det = true ∧ ∃ y ∈ liveFrags x, inSup y = true) then x.lclock else x.lclock + 1 := by
  have hx : packExited x = true ↔ liveSlices x = [] := List.isEmpty_iff
  have hs : (liveFrags x).any inSup = true ↔ ∃ y ∈ liveFrags x, inSup y = true := List.any_eq_true
  unfold fuseClock
  simp only [← hx, ← hs]
  cases packExited x <;> cases det <;> cases (liveFrags x).any inSup <;> rfl

/-- The pack of all slices of the siblings, before their draw counters meet. -/
def joinedPack (det : Bool) (h : SplitRec) (sibs : List Pack) (low : Pack) : Pack :=
  { low with
    pos := h.pos, width := h.width, slices := sibs.flatMap (·.slices), hist := low.hist.tail,
    eng := sibs.flatMap (·.eng), lclock := sibs.foldl (fun m x => max m (fuseClock det x)) 0,
    skew := sibs.foldl (fun m x => max m x.skew) 0, lastSync := sibs.foldl (fun m x => max m x.lastSync) 0,
    buf := sibs.flatMap (·.buf), frags := [],
    badV := sibs.flatMap fun x => x.badV.map fun b => (b.1 + 8 * (x.pos - h.pos), b.2),
    badP := sibs.flatMap fun x => x.badP.map fun b => (b.1 + 8 * (x.pos - h.pos), b.2) }

/-- The fused pack's clock is the largest of its siblings'. -/
theorem joinedPack_lclock (det : Bool) (h : SplitRec) {sibs : List Pack} {low : Pack} (hl : low ∈ sibs) :
    (∀ x ∈ sibs, fuseClock det x ≤ (joinedPack det h sibs low).lclock) ∧
      ∃ x ∈ sibs, (joinedPack det h sibs low).lclock = fuseClock det x := by
  obtain ⟨-, hle, hmax⟩ := foldl_max (fuseClock det) sibs 0
  refine ⟨hle, hmax.elim (fun h0 => ⟨low, hl, ?_⟩) id⟩
  exact Nat.le_antisymm (h0.le.trans (Nat.zero_le _)) (hle low hl)

/-- The one fragment of the fused pack. -/
def fusedFrag (low : Pack) (n : Nat) (pc : DWord) : Fragment :=
  { pc, slices := sliceMask (List.range n), frame := low.frags.findSome? (·.frame) }

theorem fusePacks_eq (det : Bool) (h : SplitRec) (sibs : List Pack) (low : Pack) (pc : DWord) :
    fusePacks det h sibs low pc = { joinedPack det h sibs low with
      slices := (fusePacks det h sibs low pc).slices,
      frags := [fusedFrag low (fusePacks det h sibs low pc).slices.length pc] } := rfl

/-- The slices of the fused pack are those of the siblings, their draw counters aside. -/
theorem sliceOf_fusePacks (det : Bool) (h : SplitRec) (sibs : List Pack) (low : Pack) (pc : DWord) (k : Nat) :
    ∃ m, sliceOf (fusePacks det h sibs low pc) k =
      { (sibs.flatMap (·.slices)).getD k { lanes := [], mask := 0, live := 0 } with draw := m } := by
  obtain ⟨m, -, -, hsl, -, -⟩ := mergeDraws_spec (joinedPack det h sibs low) (liveSlices (joinedPack det h sibs low))
    (List.nodup_range.filter _) fun k hk => List.mem_range.1 (List.mem_filter.1 hk).1
  have hk : sliceOf (fusePacks det h sibs low pc) k = _ := hsl k
  rw [hk]
  split
  · exact ⟨m, rfl⟩
  · exact ⟨_, rfl⟩

/-! ## The joining of the siblings -/

/-- The packs of a block in which the siblings have given way to one pack. -/
def fusedPacks (w : Issuer) (q : Pack) : List Pack :=
  let rest := w.b.packs.filter fun x => !((fuseSibs w).any fun y => y.pidx == x.pidx && y.pos == x.pos)
  let before := rest.filter fun x => x.pidx < q.pidx || (x.pidx == q.pidx && x.pos < q.pos)
  let after := rest.filter fun x => !(x.pidx < q.pidx || (x.pidx == q.pidx && x.pos < q.pos))
  before ++ q :: after

theorem getPack_fusedPacks (w : Issuer) (q : Pack) : getPack { w.b with packs := fusedPacks w q } q.pidx q.pos = some q := by
  unfold getPack fusedPacks
  dsimp only
  rw [List.find?_append, List.find?_cons_of_pos (by simp)]
  refine Option.or_eq_some_iff.2 (.inr ⟨List.find?_eq_none.2 fun x hx => ?_, rfl⟩)
  have hb := (List.mem_filter.1 hx).2
  simp only [Bool.or_eq_true, Bool.and_eq_true, decide_eq_true_eq, beq_iff_eq] at hb ⊢
  omega

/-- What each sibling that arrived is charged. -/
def chargeFused (s : State) (w : Issuer) : State :=
  (fuseLive w).foldl (fun s x => (liveFrags x).foldl (fun s g => chargeIssue s { w with f := g }) s) s

theorem counted_chargeFused (s : State) (w : Issuer) : Counted s (chargeFused s w) :=
  counted_foldl _ (fun _ _ => counted_foldl _ (fun _ _ => counted_charge _ _) _ _) _ _

/-- The addresses at which the siblings have arrived. -/
def fusePcs (w : Issuer) : List DWord := (fuseLive w).flatMap fun q => (liveFrags q).map (·.pc)

/-- The block in which the siblings have become one pack, and what that charges. -/
def fusedState (s : State) (w : Issuer) (q : Pack) : State := chargeFused (setBlock s { w.b with packs := fusedPacks w q }) w

/-- The joining of the siblings under the lowest live one, at an address at which all of them have arrived or not. -/
def fuseUnder (s : State) (w : Issuer) (h : SplitRec) (low : Pack) (pc : DWord) (same : Bool) : State :=
  let q := fusePacks w.l.det h (fuseSibs w) low (if same then pc + 8 else pc)
  let u := fusedState s w (if same then settleFrag s.tick q 0 fun _ => pc + 8 else q)
  if same then u
  else
    match issuerAt u { w.ref with pos := h.pos, frag := 0 } with
    | some e' => takeTrap u e' (trapAll e' [] 0x0B)
    | none => u

theorem fuseAll_eq (s : State) (w : Issuer) (h : SplitRec) : fuseAll s w h =
    fuseUnder s w h ((fuseLive w).headD w.p) ((fusePcs w).headD w.f.pc) ((fusePcs w).all (· == (fusePcs w).headD w.f.pc)) := rfl

section
variable {s : State} {w : Issuer} {h : SplitRec} {low : Pack} {pc : DWord}

theorem fusePcs_head {x0 : Fragment} (hlow : ∃ l, fuseLive w = low :: l) (hx : (liveFrags low).head? = some x0) (hpc : x0.pc = pc) :
    (fusePcs w).headD w.f.pc = pc := by
  obtain ⟨l, hl⟩ := hlow
  obtain ⟨fs, hfs⟩ := List.head?_eq_some_iff.1 hx
  rw [fusePcs, hl, List.flatMap_cons, hfs]
  exact hpc

theorem fusePcs_all : (fusePcs w).all (· == pc) = true ↔
    ∀ x ∈ siblings w.b w.p, liveSlices x ≠ [] → ∀ y ∈ liveFrags x, y.pc = pc := by
  unfold fusePcs
  simp only [List.all_flatMap, List.all_map, List.all_eq_true, mem_fuseLive, Function.comp_apply, beq_iff_eq, and_imp]

/-- The fused pack that goes on behind its PFUSE. -/
def onward (s : State) (w : Issuer) (h : SplitRec) (low : Pack) (pc : DWord) : Pack :=
  settleFrag s.tick (fusePacks w.l.det h (fuseSibs w) low (pc + 8)) 0 fun _ => pc + 8

/-- Siblings that have arrived at one address go on behind their PFUSE. -/
theorem fuseAll_same {x0 : Fragment} (hlow : ∃ l, fuseLive w = low :: l) (hx : (liveFrags low).head? = some x0) (hpc : x0.pc = pc)
    (hs : ∀ x ∈ siblings w.b w.p, liveSlices x ≠ [] → ∀ y ∈ liveFrags x, y.pc = pc) :
    fuseAll s w h = fusedState s w (onward s w h low pc) := by
  obtain ⟨l, hl⟩ := hlow
  rw [fuseAll_eq, fusePcs_head ⟨l, hl⟩ hx hpc, fusePcs_all.2 hs, hl]
  simp only [fuseUnder, onward, List.headD_cons, if_true]

/-- Siblings that have arrived at different addresses trap as one pack at the lowest one's PFUSE. -/
theorem fuseAll_apart {x0 : Fragment} {e' : Issuer} (hlow : ∃ l, fuseLive w = low :: l) (hx : (liveFrags low).head? = some x0)
    (hpc : x0.pc = pc) (hs : ∃ x ∈ siblings w.b w.p, liveSlices x ≠ [] ∧ ∃ y ∈ liveFrags x, y.pc ≠ pc)
    (hi : issuerAt (fusedState s w (fusePacks w.l.det h (fuseSibs w) low pc)) { w.ref with pos := h.pos, frag := 0 } = some e') :
    fuseAll s w h = takeTrap (fusedState s w (fusePacks w.l.det h (fuseSibs w) low pc)) e' (trapAll e' [] 0x0B) := by
  obtain ⟨l, hl⟩ := hlow
  have hall : (fusePcs w).all (· == pc) = false := by
    obtain ⟨x, hx, hlive, y, hy, hne⟩ := hs
    exact Bool.eq_false_iff.2 fun hall => hne (fusePcs_all.1 hall x hx hlive y hy)
  rw [fuseAll_eq, fusePcs_head ⟨l, hl⟩ hx hpc, hall, hl]
  simp only [fuseUnder, List.headD_cons, Bool.false_eq_true, if_false, hi]

/-- The fused pack that goes on: its fields, its clock and its slices. -/
theorem onward_spec (s : State) (w : Issuer) (h : SplitRec) (low : Pack) (pc : DWord) : let q := onward s w h low pc
    q = { joinedPack w.l.det h (fuseSibs w) low with slices := q.slices, frags := q.frags } ∧
    ∀ k, k < 16 →
      let sl := ((fuseSibs w).flatMap (·.slices)).getD k { lanes := [], mask := 0, live := 0 }
      (sliceOf q k).lanes = sl.lanes ∧ (sliceOf q k).live = sl.live ∧
        (sl.live ≠ 0 → StandsAt q k (joinCheck 10 (pc + 8) sl).1) := by
  intro q
  have he := fusePacks_eq w.l.det h (fuseSibs w) low (pc + 8)
  obtain ⟨hq, hk⟩ := settle_whole (tick := s.tick) (p := fusePacks w.l.det h (fuseSibs w) low (pc + 8)) (pc := pc + 8)
    (f := fusedFrag low (fusePacks w.l.det h (fuseSibs w) low (pc + 8)).slices.length (pc + 8)) rfl (by simp [fusedFrag]) rfl
  refine ⟨hq, fun k hk16 => ?_⟩
  intro sl
  obtain ⟨m, hsl⟩ := sliceOf_fusePacks w.l.det h (fuseSibs w) low (pc + 8) k
  obtain ⟨hlanes, hlive, hstands⟩ := hk k hk16
  rw [hsl] at hlanes hlive hstands
  refine ⟨hlanes, hlive, fun hn => ?_⟩
  obtain ⟨hpc, -, -⟩ := joinCheck_congr 10 (pc + 8) (sl := sl) (sl' := { sl with draw := m }) rfl rfl
  exact hpc ▸ hstands (by rw [hlive]; exact hn)

end

/-! ## PFUSE -/

section
variable {s : State} {e : Issuer} {g : Gen} {h : SplitRec} {hs : List SplitRec}

/-- The issuer once it stands at PFUSE. -/
def atPfuse (s : State) (e : Issuer) : Issuer :=
  let p := setFrag e.p e.ref.frag { e.f with st := .pfuse, since := s.tick }
  { e with b := setPack e.b p, p := p }

theorem pfuse_refused (hi : IssuesAlone s e) (hb : e.p.hist = [] ∨ holdsAll e.p e.f = false) :
    exec (.pfuse g) s = .next (takeTrap s e (trapAll e [] 0x0B)) := by
  refine traps rfl hi.1 (burstOk_alone hi.2 _) (.inl rfl) ?_
  dsimp only
  split
  · rfl
  · rename_i hh
    rw [hh] at hb
    rw [hb.resolve_left (by simp)]
    rfl

theorem pfuse_own (hi : IssuesAlone s e) (hh : e.p.hist = h :: hs) (ha : holdsAll e.p e.f = true) (hr : needsRound e = false) :
    let w := atPfuse s e
    exec (.pfuse g) s = .next (if allFused w.b w.p then fuseAll (setBlock s w.b) w h else setBlock s w.b) := by
  intro w
  refine owns rfl hi.1 (burstOk_alone hi.2 _) (.inl rfl) ?_
  dsimp only
  rw [hh]
  dsimp only
  rw [ha, hr]
  exact (apply_ite Act.own _ _ _).symm

theorem packsOnly_trans {s t u : State} {blk : Nat} {b c : Block} (h : PacksOnly s t blk b) (k : PacksOnly t u blk c) :
    PacksOnly s u blk c := by
  refine ⟨?_, fun a => (k.bytes a).trans (h.bytes a), fun m hm => (k.others m hm).trans (h.others m hm), k.block⟩
  have hd := h.device
  have kd := k.device
  generalize t.blocks = B, t.budget = U, t.shadows = H, t.activity = A, t.free = F at hd
  subst hd
  exact kd

/-- The joining of the siblings changes the packs of their block alone. -/
theorem packsOnly_fused (hi : Issues s e) (q : Pack) :
    PacksOnly s (fusedState (setBlock s (atPfuse s e).b) (atPfuse s e) q) e.ref.blk
      { (atPfuse s e).b with packs := fusedPacks (atPfuse s e) q } := by
  obtain ⟨-, i1, -⟩ := issuerAt_eq.1 hi.2
  have h1 := packsOnly_set i1 (c := (atPfuse s e).b) rfl (counted_refl _)
  exact packsOnly_trans h1 (packsOnly_set h1.block rfl (counted_chargeFused _ _))

/-- A sibling's operations have completed unless it has exited (R61). -/
theorem eng_of_fused {b : Block} {p x : Pack} {o : EngOp} (hh : p.hist = h :: hs) (hf : allFused b p = true) (hx : x ∈ siblings b p)
    (ho : o ∈ x.eng) : liveSlices x = [] := by
  unfold allFused at hf
  rw [hh] at hf
  have hr := List.all_eq_true.1 hf x hx
  unfold fuseReady at hr
  rcases Bool.or_eq_true_iff.1 hr with hr | hr
  · simpa [packExited] using hr
  · simp only [Bool.and_eq_true, engIdle, List.isEmpty_iff] at hr
    simp [hr] at ho

theorem siblings_pidx {b : Block} {p x : Pack} (hx : x ∈ siblings b p) : x.pidx = p.pidx := by
  unfold siblings at hx
  split at hx
  · cases hx
  · have := (List.mem_filter.1 hx).2
    simp only [Bool.and_eq_true, beq_iff_eq] at this
    exact this.1.1

/-- What the joining of the siblings leaves, for a pack that they become: the block holds it at their place. -/
theorem packNow_fused (hi : Issues s e) {q : Pack} (h1 : q.pidx = e.ref.pidx) (h2 : q.pos = h.pos) :
    packNow (fusedState (setBlock s (atPfuse s e).b) (atPfuse s e) q) { e.ref with pos := h.pos } = some q := by
  have hg := getPack_fusedPacks (atPfuse s e) q
  rw [h1, h2] at hg
  exact (packNow_packsOnly (r := { e.ref with pos := h.pos }) (packsOnly_fused hi q)).trans hg

variable {low : Pack} {pc : DWord}

theorem low_pidx (hi : Issues s e) (hl : low ∈ siblings (atPfuse s e).b (atPfuse s e).p) : low.pidx = e.ref.pidx := by
  obtain ⟨-, -, hp, -⟩ := issuerAt_eq.1 hi.2
  exact (siblings_pidx hl).trans (getPack_key hp).1

/-- The pack that goes on behind the PFUSE of its siblings. -/
theorem onward_fields (hi : Issues s e) (hh : e.p.hist = h :: hs) (hf : allFused (atPfuse s e).b (atPfuse s e).p = true)
    (hl : low ∈ siblings (atPfuse s e).b (atPfuse s e).p) : ∃ q, q = onward (setBlock s (atPfuse s e).b) (atPfuse s e) h low pc ∧
    q.pidx = e.ref.pidx ∧ q.pos = h.pos ∧ q.width = h.width ∧ q.hist = low.hist.tail ∧ q.s = low.s ∧ q.sb = low.sb ∧
    q.qbind = low.qbind ∧ q.streamer = low.streamer ∧
    (∀ o ∈ q.eng, ∃ x ∈ siblings (atPfuse s e).b (atPfuse s e).p, liveSlices x = [] ∧ o ∈ x.eng) ∧
    (∀ x ∈ siblings (atPfuse s e).b (atPfuse s e).p, fuseClock e.l.det x ≤ q.lclock) ∧
    ∃ x ∈ siblings (atPfuse s e).b (atPfuse s e).p, q.lclock = fuseClock e.l.det x := by
  obtain ⟨hq, -⟩ := onward_spec (setBlock s (atPfuse s e).b) (atPfuse s e) h low pc
  generalize onward (setBlock s (atPfuse s e).b) (atPfuse s e) h low pc = q at hq
  obtain ⟨hle, x, hx, hmax⟩ := joinedPack_lclock e.l.det h (mem_fuseSibs.2 hl)
  have hlow := low_pidx hi hl
  refine ⟨q, rfl, ?_⟩
  rw [hq]
  refine ⟨hlow, rfl, rfl, rfl, rfl, rfl, rfl, rfl, fun o ho => ?_, fun x hx => hle x (mem_fuseSibs.2 hx), x, mem_fuseSibs.1 hx, hmax⟩
  obtain ⟨y, hy, ho⟩ := List.mem_flatMap.1 ho
  exact ⟨y, mem_fuseSibs.1 hy, eng_of_fused hh hf (mem_fuseSibs.1 hy) ho, ho⟩

/-- The pack that traps where its siblings have arrived apart. -/
theorem issuerAt_apart (hi : Issues s e) (hl : low ∈ siblings (atPfuse s e).b (atPfuse s e).p) :
    ∃ e', issuerAt (fusedState (setBlock s (atPfuse s e).b) (atPfuse s e)
      (fusePacks e.l.det h (fuseSibs (atPfuse s e)) low pc)) { e.ref with pos := h.pos, frag := 0 } = some e' ∧
      e'.p.width = h.width ∧ e'.f.pc = pc := by
  have hq := fusePacks_eq e.l.det h (fuseSibs (atPfuse s e)) low pc
  generalize fusePacks e.l.det h (fuseSibs (atPfuse s e)) low pc = q at hq
  have h1 : q.pidx = e.ref.pidx := by rw [hq]; exact low_pidx (low := low) hi hl
  have h2 : q.pos = h.pos := by rw [hq]; rfl
  have ht := packsOnly_fused hi q
  have hp := packNow_fused (h := h) hi h1 h2
  obtain ⟨-, -, -, i3, -⟩ := issuerAt_eq.1 hi.2
  unfold packNow at hp
  rw [ht.block] at hp
  refine ⟨⟨{ e.ref with pos := h.pos, frag := 0 }, { (atPfuse s e).b with packs := fusedPacks (atPfuse s e) q },
    q, fusedFrag low q.slices.length pc, e.l⟩, issuerAt_eq.2 ⟨rfl, ht.block, hp, ?_, ?_⟩, ?_, rfl⟩
  · unfold getLaunch at i3 ⊢
    rw [ht.device]
    exact i3
  · rw [getFrag, hq]; rfl
  · rw [hq]; rfl

end

/-- Settles O16: PFUSE waits for its siblings, and then joins them as `onward_spec` says, or traps where they stand apart. -/
theorem packFuse : Obligations.PackFuse := by
  unfold Obligations.PackFuse
  intro s e g hi
  refine ⟨pfuse_refused hi, fun h hs hh ha hr => ⟨fun hf => ?_,
    fun low x0 pc hf hl hn hmin hx hpc => ⟨fun hsame => ?_, fun happart => ?_⟩⟩⟩
  · have hown := pfuse_own (g := g) hi hh ha hr
    exact ⟨_, hown.trans (congrArg _ (if_neg (Bool.eq_false_iff.1 hf))), packIs_set hi.1.2 rfl rfl⟩
  · have hown := (pfuse_own (g := g) hi hh ha hr).trans (congrArg _ (if_pos hf))
    have hlow := fuseLive_head (w := atPfuse s e) hl hn hmin
    obtain ⟨q, hq, h1, h2, hwidth, hhist, hs', hsb, hbind, hstream, heng, hle, x, hx', hmax⟩ :=
      onward_fields (pc := pc) hi.1 hh hf hl
    obtain ⟨-, hslices⟩ := onward_spec (setBlock s (atPfuse s e).b) (atPfuse s e) h low pc
    replace hown := hown.trans (congrArg _ (fuseAll_same hlow hx hpc hsame))
    rw [← hq] at hown hslices
    have ht := packsOnly_fused hi.1 q
    exact ⟨_, q, fuseSibs (atPfuse s e), hown, ht.device, ht.bytes, ht.others, packNow_fused hi.1 h1 h2, hwidth, hhist, hs', hsb, hbind,
      hstream, heng, fun y hy => (fuseClock_eq _ y).symm.le.trans (hle y hy), ⟨x, hx', hmax.trans (fuseClock_eq _ x)⟩,
      fuseSibs_perm _, fuseSibs_sorted _, hslices⟩
  · have hown := (pfuse_own (g := g) hi hh ha hr).trans (congrArg _ (if_pos hf))
    have hlow := fuseLive_head (w := atPfuse s e) hl hn hmin
    obtain ⟨e', he', hw, hpc'⟩ := issuerAt_apart (h := h) (pc := pc) hi.1 hl
    exact ⟨_, e', hown.trans (congrArg _ (fuseAll_apart hlow hx hpc happart he')), he', hw, hpc'⟩

end Sys2Proof.Proofs
end

section
/-! O51: TRAP and RETF. A return leaves the fragment in the state of the split table that it had; the statement takes any state of the
entry, a free one with it. -/

namespace Sys2Proof.Proofs

open Sys2Proof Sys2Proof.Machine Sys2Proof.Safety Sys2Proof.Laws

/-! ## A fragment whose entry is free, in its handler -/

def looseSlice : Slice := { lanes := List.replicate 4 {}, mask := 0xF, live := 0xF }

def looseFrame : TrapFrame :=
  { info := { cause := 0x13 }, slices := 1, saved := [saveSlice looseSlice], latches := [], resume := 0x1000 }

/-- Its entry is free, though the fragment issues. -/
def looseFrag : Fragment := { pc := 0x2000, slices := 1, st := .free, frame := some looseFrame }

def loosePack : Pack := { pidx := 0, pos := 0, width := 8, slot := 0, slices := [looseSlice], frags := [looseFrag] }

def looseBlock : Block := { bid := 2, launch := 1, linear := 0, core := 0, base := 0, packs := [loosePack], tdbase := 0, capbase := 0 }

def looseLaunch : Launch :=
  { lid := 1, packet := 0, region := 0, ctx := 0, args := 0, arg0 := none, det := false, strict := false, prio := 0, quantum := 1 }

def looseRef : FragRef := { blk := 2, pidx := 0, pos := 0, frag := 0 }

def looseState : State := { State.reset with blocks := [looseBlock], launches := [looseLaunch], cur := some looseRef }

def looseIssuer : Issuer := { ref := looseRef, b := looseBlock, p := loosePack, f := looseFrag, l := looseLaunch }

def looseRetf : Gen := { dst := .null, nowb := false, pred := { neg := false, idx := 7 }, a := .unused, b := .unused, c := .unused, ty := .i32,
                         rnd := .rne, sat := false, opx := 0, scope := .block, hint := 0 }

theorem looseIssuer_issues : IssuesAlone looseState looseIssuer := ⟨⟨rfl, rfl⟩, rfl⟩

/-- The pack after an outcome. -/
def packAfter (o : Host.Outcome State Fault Refusal) (r : FragRef) : Option Pack :=
  match o with
  | .next s => packNow s r
  | _ => none

/-- After the return every entry of the pack is free. -/
theorem looseRetf_free : ((packAfter (exec (.retfRetry looseRetf) looseState) looseRef).map fun q => q.frags.all fun f => f.st == .free) =
    some true := by
  rfl

/-- A frame that reports no failed reload reloads no slot. -/
theorem reloadTrapped_of_not {t : TrapInfo} (h : t.reload = false) (s : State) (blk : Nat) : reloadTrapped s blk t = s := by
  unfold reloadTrapped
  split
  · simp [h]
  · rfl

/-- No slice stands in a pack whose entries are all free. -/
theorem not_standsAt_of_free {q : Pack} (h : (q.frags.all fun f => f.st == .free) = true) (k : Nat) (pc : DWord) : ¬ StandsAt q k pc := by
  rintro ⟨i, f, hf, hst, -⟩
  exact hst (by simpa using List.all_eq_true.1 h f (List.mem_of_getElem? hf))

/-- Refutes O51 at its clause on RETF: the statement does not say that the issuing fragment's entry of the split table is in use, as
it is where an instruction issues. A RETF.retry at a free entry leaves the entry free, so that no slice stands anywhere (`StandsAt`). -/
theorem not_trapsAndReturns : ¬ Obligations.TrapsAndReturns := by
  unfold Obligations.TrapsAndReturns
  intro h
  obtain ⟨-, -, hret⟩ := h looseState looseIssuer looseRetf looseIssuer_issues
  obtain ⟨hret, -⟩ := hret looseFrame rfl (by decide) rfl
  obtain ⟨u, q, hx, -, hq, -, hstands, -⟩ := hret _ List.mem_cons_self 0x1000 rfl
  have hfree := looseRetf_free
  rw [hx] at hfree
  dsimp only at hfree
  rw [reloadTrapped_of_not rfl] at hfree
  have hnow : packAfter (.next u) looseRef = some q := hq
  rw [hnow] at hfree
  exact not_standsAt_of_free (Option.some.inj hfree) 0 _ (hstands 0 0 (saveSlice looseSlice) rfl rfl (by decide)).1

end Sys2Proof.Proofs
end

section
/-! O52: the events of the dispatcher and the cores. What the device does to a block's stash, engines and record leaves every block
where it is: `Placed`. -/

namespace Sys2Proof.Proofs

open Sys2Proof Sys2Proof.Machine Sys2Proof.Safety Sys2Proof.Laws

/-! ## Blocks that stay where they are -/

/-- Which block it is and where: its core, and whether it is resident, or waits behind the unstarted blocks of its launch. -/
def placeOf (b : Block) : Nat × Nat × BlockState × Bool := (b.bid, b.core, b.state, b.behind)

/-- The same blocks exist, each where it was. -/
def Placed (s t : State) : Prop := ∀ n, (getBlock t n).map placeOf = (getBlock s n).map placeOf

theorem placed_refl (s : State) : Placed s s := fun _ => rfl

theorem placed_trans {s t u : State} (h : Placed s t) (k : Placed t u) : Placed s u := fun n => (k n).trans (h n)

theorem placed_blocks {s t : State} (h : t.blocks = s.blocks) : Placed s t := fun n => by rw [getBlock_congr h]

theorem placed_charged {s t : State} (h : Charged s t) : Placed s t := placed_blocks (charged_blocks h)

theorem placed_ite {s t u : State} {c : Prop} [Decidable c] (h : Placed s t) (k : Placed s u) : Placed s (if c then t else u) := by
  split
  · exact h
  · exact k

theorem placed_foldl {α : Type} (g : State → α → State) (h : ∀ s x, Placed s (g s x)) (l : List α) (s : State) :
    Placed s (l.foldl g s) := by
  induction l generalizing s with
  | nil => exact placed_refl s
  | cons a l ih => exact placed_trans (h s a) (ih _)

theorem placed_none {s t : State} (h : Placed s t) {n : Nat} (hn : getBlock s n = none) : getBlock t n = none := by
  have := h n
  rwa [hn, Option.map_none, Option.map_eq_none_iff] at this

theorem placed_some {s t : State} (h : Placed s t) {n : Nat} {b : Block} (hb : getBlock s n = some b) :
    ∃ c, getBlock t n = some c ∧ placeOf c = placeOf b := by
  have := h n
  rwa [hb, Option.map_some, Option.map_eq_some_iff] at this

/-- A block takes another form at its place. -/
theorem placed_setBlock {s : State} {n : Nat} {b c : Block} (hb : getBlock s n = some b) (hc : placeOf c = placeOf b) :
    Placed s (setBlock s c) := fun m => by
  have hn : c.bid = n := (congrArg Prod.fst hc).trans (getBlock_bid hb)
  by_cases hm : m = n
  · rw [hm, getBlock_setBlock hb hn, hb, Option.map_some, Option.map_some, hc]
  · rw [getBlock_setBlock_other (by rw [hn]; exact hm)]

/-! ## Memory and events -/

theorem writeBackLine_blocks (s : State) (b : Block) (l : StashLine) : (writeBackLine s b l).blocks = s.blocks := by
  unfold writeBackLine
  split
  · rfl
  · split
    · rfl
    · obtain ⟨u, hu, he⟩ := sendLine_eq { s with free := s.free + 1 } b l
      rw [he]
      exact (charged_blocks hu :)

theorem placed_recallLine (s : State) (pa : Nat) : Placed s (recallLine s pa) := by
  unfold recallLine
  split
  · exact placed_refl s
  · rename_i b l _
    have h := placed_blocks (writeBackLine_blocks s b l)
    dsimp only
    split
    · exact h
    · rename_i c hc
      exact placed_trans h (placed_setBlock hc rfl)

theorem placed_recallRange (s : State) (pa n : Nat) : Placed s (recallRange s pa n) :=
  placed_ite (placed_refl s) (placed_foldl _ (fun _ _ => placed_recallLine _ _) _ s)

theorem placed_gWrite (s : State) (pa : Nat) (bs : List Byte) : Placed s (gWrite s pa bs) :=
  placed_ite (placed_recallRange _ _ _) (placed_trans (placed_recallRange _ _ _) (placed_blocks rfl))

theorem placed_gWriteNat (s : State) (pa n x : Nat) : Placed s (gWriteNat s pa n x) := placed_gWrite _ _ _

theorem placed_pagesWrite (s : State) (ps : List (Nat × Nat)) (va : Nat) (bs : List Byte) : Placed s (pagesWrite s ps va bs) := by
  unfold pagesWrite
  generalize bs.length / 4096 + 2 = f
  induction f generalizing s va bs with
  | zero => exact placed_refl s
  | succ f ih =>
    unfold pagesWriteUnits
    split
    · exact placed_refl s
    · exact placed_trans (placed_gWrite _ _ _) (ih _ _ _)

theorem placed_noteLost (s : State) (f : Bool) : Placed s (noteLost s f) := placed_blocks rfl

theorem placed_postTo (s : State) (d r : Nat) : Placed s (postTo s d r) :=
  placed_ite (placed_noteLost _ _) (placed_ite (placed_gWriteNat _ _ _ _)
    (placed_trans (placed_gWriteNat _ _ _ _) (placed_gWriteNat _ _ _ _)))

theorem placed_postEvent (s : State) (rcb r : Nat) : Placed s (postEvent s rcb r) := placed_postTo _ _ _

theorem placed_postMemoryError (s : State) (r b a : Nat) : Placed s (postMemoryError s r b a) := placed_postEvent _ _ _

theorem placed_memAtomic (s : State) (pa w op a c : Nat) : Placed s (memAtomic s pa w op a c).1 := by
  unfold memAtomic
  have h := placed_recallRange s pa w
  generalize recallRange s pa w = u at h
  dsimp only
  split
  · exact h
  · exact placed_trans h (placed_gWriteNat _ _ _ _)

theorem placed_flushOne (s : State) (h : Shadow) : Placed s (flushOne s h) := by
  unfold flushOne
  refine placed_foldl _ (fun s r => ?_) _ _
  dsimp only
  split
  · exact placed_noteLost _ _
  · exact placed_gWriteNat _ _ _ _

theorem placed_flushWhere (s : State) (p : Shadow → Bool) : Placed s (flushWhere s p) := by
  unfold flushWhere
  exact placed_trans (placed_blocks rfl) (placed_foldl _ (fun _ _ => placed_flushOne _ _) _ _)

/-! ## The stash -/

theorem placeOf_filled (b : Block) (o : Nat) (bs : List Byte) (l : StashLine) :
    placeOf (setLine (stashPut b o bs) l) = placeOf b := rfl

theorem placed_doFill (s : State) (bid line pa : Nat) : Placed s (doFill s bid line pa) := by
  unfold doFill
  have h := placed_recallLine s pa
  generalize recallLine s pa = u at h
  dsimp only
  split
  · exact h
  · rename_i b hb
    have hd := charged_l1DropRange u b.core pa 128
    have hb' := (getBlock_congr (charged_blocks hd) bid).trans hb
    have h' := placed_trans h (placed_charged hd)
    generalize l1DropRange u b.core pa 128 = v at hd hb' h'
    split
    · exact h'
    · split
      · exact placed_trans h' (placed_setBlock hb' (placeOf_filled b _ _ _))
      · have hc := charged_chargeMem v
          (regionOfBlock v (stashPut b (128 * line) ((List.range 128).map fun i => rawByte v (pa + i)))) pa 128
        exact placed_trans h' (placed_trans (placed_charged hc)
          (placed_setBlock ((getBlock_congr (charged_blocks hc) bid).trans hb') rfl))

theorem placeOf_stashStore (b : Block) (o : Nat) (bs : List Byte) : placeOf (stashStore b o bs) = placeOf b := by
  rw [stashStore_eq]
  rfl

theorem placed_engineFill (s : State) (ctx bid o n : Nat) : Placed s (engineFill s ctx bid o n) := by
  unfold engineFill
  split
  · exact placed_refl s
  · refine placed_foldl _ (fun s k => ?_) _ _
    split
    · exact placed_doFill _ _ _ _
    · exact placed_refl s

theorem placed_engineStash (s : State) (ctx bid o : Nat) (bs : List Byte) (ps : List Nat) :
    Placed s (engineStash s ctx bid o bs ps) := by
  unfold engineStash
  have h := placed_engineFill s ctx bid o bs.length
  generalize engineFill s ctx bid o bs.length = u at h
  dsimp only
  split
  · exact h
  · rename_i b hb
    exact placed_trans h (placed_setBlock hb (placeOf_stashStore b o bs))

theorem placed_cleanLine (bid : Nat) (s : State) (l : StashLine) : Placed s (cleanLine bid s l) := by
  unfold cleanLine
  split
  · exact placed_refl s
  · split
    · exact placed_refl s
    · rename_i b hb
      have hw := writeBackLine_blocks s b l
      refine placed_trans (placed_blocks hw) (placed_setBlock ((getBlock_congr hw bid).trans hb) ?_)
      split <;> rfl

theorem placed_reportLost (s : State) : Placed s (reportLost s) :=
  placed_trans (t := { s with lost := [] }) (placed_blocks rfl) (placed_foldl _ (fun _ _ => placed_postEvent _ _ _) _ _)

theorem placed_cleanLines (s : State) (b : Block) (sel : StashLine → Bool) : Placed s (cleanLines s b sel) :=
  placed_trans (placed_foldl _ (fun _ _ => placed_cleanLine _ _ _) _ s) (placed_reportLost _)

theorem placed_releaseLines (s : State) (bid : Nat) : Placed s (releaseLines s bid) := by
  unfold releaseLines
  split
  · exact placed_refl s
  · rename_i b hb
    obtain ⟨c, hc, hp⟩ := placed_some (placed_cleanLines s b fun _ => true) hb
    exact placed_trans (placed_cleanLines _ _ _) (placed_setBlock hc hp.symm)

/-! ## The engines -/

theorem placed_completeAt (s : State) (bid i j id : Nat) : Placed s (completeAt s bid i j id) := by
  unfold completeAt
  split
  · exact placed_refl s
  · rename_i b hb
    split
    · exact placed_refl s
    · exact placed_setBlock hb rfl

theorem placed_copyLane (s : State) (bid ctx region linear size : Nat) (l : CopyLane) :
    Placed s (copyLane s bid ctx region linear size l) := by
  unfold copyLane
  dsimp only
  split
  · exact placed_trans (placed_charged (charged_chargeMem _ _ _ _)) (placed_engineStash _ _ _ _ _ _)
  · exact placed_trans (placed_trans (placed_charged (charged_chargeMem _ _ _ _)) (placed_engineStash _ _ _ _ _ _))
      (placed_postMemoryError _ _ _ _)

theorem placed_dropEngine (s : State) (id : Nat) : Placed s (dropEngine s id) := placed_blocks rfl

theorem placed_putEngine (s : State) (o : EngineOp) : Placed s (putEngine s o) := placed_blocks rfl

theorem placed_dropTag (s : State) (bid key t : Nat) (p : Pack) : Placed s (match getBlock s bid with
    | some b => if p.eng.all (fun e => e.tag != some t || e.done) && hasTag b key t then setBlock s (scoreDropTag b key t) else s
    | none => s) := by
  split
  · rename_i b hb
    exact placed_ite (placed_setBlock hb rfl) (placed_refl s)
  · exact placed_refl s

theorem placed_copyLand (s : State) (o : EngineOp) (size : Nat) (lanes : List CopyLane) : Placed s (copyLand s o size lanes) := by
  unfold copyLand
  split
  · exact placed_dropEngine _ _
  · rename_i b _
    dsimp only
    refine placed_trans (placed_trans (placed_foldl (fun u l => copyLane u o.blk (blockCtx s b).1 (blockCtx s b).2 b.linear size l)
      (fun _ _ => placed_copyLane _ _ _ _ _ _ _) lanes s) (placed_trans (placed_dropEngine _ o.id)
      (placed_completeAt _ o.blk o.pidx o.pos o.id))) ?_
    split
    · exact placed_refl _
    · split
      · exact placed_refl _
      · exact placed_foldl _ (fun u t => placed_dropTag u o.blk _ t _) _ _

/-- An operation's entry of the scoreboard retires. -/
theorem placed_scoreDrop (s : State) (bid op : Nat) : Placed s (match getBlock s bid with
    | some b => setBlock s (scoreDrop b op)
    | none => s) := by
  split
  · rename_i b hb
    exact placed_setBlock hb rfl
  · exact placed_refl s

theorem placed_poisonSector (s : State) (pa : Nat) : Placed s (poisonSector s pa) := placed_blocks rfl

theorem placed_redElem (b : Block) (region op w va off : Nat) (pages : List (Nat × Nat)) (s : State) (k : Nat) :
    Placed s (redElem b region op w va off pages s k) := by
  unfold redElem
  dsimp only
  have h := fun pa => placed_trans (placed_charged (charged_l1DropRange s b.core pa w))
    (placed_memAtomic (l1DropRange s b.core pa w) pa w op (stashReadNat b (off + k * w) w) 0)
  split
  · exact placed_postMemoryError _ _ _ _
  · split
    · exact placed_trans (h _) (placed_poisonSector _ _)
    · exact h _

theorem placed_l1DropPages (s : State) (c : Nat) (pages : List (Nat × Nat)) (va n : Nat) : Placed s (l1DropPages s c pages va n) :=
  placed_charged (charged_foldl _ (fun _ _ => charged_l1DropRange _ _ _ _) _ _)

theorem placed_chargePages (s : State) (rcb : Nat) (pages : List (Nat × Nat)) (va n : Nat) : Placed s (chargePages s rcb pages va n) :=
  placed_charged (charged_foldl _ (fun _ _ => charged_chargeMem _ _ _ _) _ _)

theorem placed_xferPart (s : State) (o : EngineOp) (kind : XferKind) (pages : List (Nat × Nat)) (va off n : Nat) :
    Placed s (xferPart s o kind pages va off n) := by
  unfold xferPart
  split
  · exact placed_refl s
  · rename_i b _
    dsimp only
    refine placed_trans (placed_trans (placed_chargePages s (blockCtx s b).2 pages va n)
      (placed_engineFill _ (blockCtx s b).1 o.blk off n)) ?_
    generalize engineFill (chargePages s (blockCtx s b).2 pages va n) (blockCtx s b).1 o.blk off n = u
    generalize (getBlock u o.blk).getD b = c
    cases kind with
    | load =>
      dsimp only
      split
      · exact placed_engineStash _ _ _ _ _ _
      · exact placed_trans (placed_engineStash _ _ _ _ _ _) (placed_postMemoryError _ _ _ _)
    | store =>
      have h := fun bad : List Nat => placed_trans
        (placed_trans (placed_pagesWrite u pages va (stashRead c off n)) (placed_l1DropPages _ c.core pages va n))
        (placed_foldl (fun s i => poisonSector s (pagesPa pages (va + i))) (fun _ _ => placed_poisonSector _ _) bad _)
      dsimp only
      split
      · exact h _
      · exact placed_trans (h _) (placed_postMemoryError _ _ _ _)
    | red op w =>
      have h := placed_foldl (redElem c (blockCtx s b).2 op.toNat w va off pages) (fun _ _ => placed_redElem _ _ _ _ _ _ _ _ _)
        (List.range (n / w)) u
      dsimp only
      split
      · exact placed_trans h (placed_postMemoryError _ _ _ _)
      · exact h

theorem placed_barLost (s : State) (b : Block) (i : Nat) (next : Bool) (n : Nat) : Placed s (barLost s b i next n) := by
  unfold barLost
  split
  · exact placed_refl s
  · exact placed_postEvent _ _ _

theorem placed_barDeliver (s : State) (bid i : Nat) (next : Bool) (n : Nat) : Placed s (barDeliver s bid i next n) := by
  unfold barDeliver
  split
  · exact placed_refl s
  · rename_i b hb
    split
    · exact placed_barLost _ _ _ _ _
    · exact placed_ite (placed_barLost _ _ _ _ _) (placed_ite (placed_setBlock hb rfl) (placed_setBlock hb rfl))

theorem placed_xferMove (s : State) (o : EngineOp) (kind : XferKind) (pages : List (Nat × Nat)) (va off len moved : Nat)
    (bar : Option (Nat × Bool)) (n : Nat) : Placed s (xferMove s o kind pages va off len moved bar n) := by
  unfold xferMove
  split
  · exact placed_dropEngine _ _
  · rename_i b _
    have h := placed_trans (placed_xferPart s o kind pages (va + moved) (off + moved) n)
      (placed_charged (charged_count _ b.core (blockCtx s b).2 3 n))
    dsimp only
    generalize count (xferPart s o kind pages (va + moved) (off + moved) n) b.core (blockCtx s b).2 3 n = u at h
    have h' : Placed s (if moved + n < len then putEngine u { o with work := .xfer kind pages va off len (moved + n) bar }
        else completeAt (match getBlock (dropEngine u o.id) o.blk with
          | some b => setBlock (dropEngine u o.id) (scoreDrop b o.id)
          | none => dropEngine u o.id) o.blk o.pidx o.pos o.id) :=
      placed_trans h (placed_ite (placed_putEngine _ _)
        (placed_trans (placed_dropEngine _ _) (placed_trans (placed_scoreDrop _ _ _) (placed_completeAt _ _ _ _ _))))
    split
    · exact placed_trans h' (placed_barDeliver _ _ _ _ _)
    · exact h'

theorem placed_drainElem (s : State) (bid ctx core : Nat) (add : Bool) (x : DrainElem) : Placed s (drainElem s bid ctx core add x) := by
  unfold drainElem
  split
  · have h := placed_engineFill s ctx bid x.addr x.size
    dsimp only
    split
    · exact h
    · exact placed_trans h (placed_engineStash _ _ _ _ _ _)
  · have h := fun v => placed_trans (placed_gWriteNat s x.addr x.size v) (placed_charged (charged_l1DropRange _ core x.addr x.size))
    dsimp only
    split
    · exact placed_trans (h _) (placed_poisonSector _ _)
    · exact h _

theorem placed_drainFinish (s : State) (o : EngineOp) (add : Bool) (elems : List DrainElem) : Placed s (drainFinish s o add elems) := by
  unfold drainFinish
  split
  · exact placed_dropEngine _ _
  · dsimp only
    exact placed_trans (placed_trans (placed_trans (placed_trans
      (placed_charged (charged_foldl _ (fun _ _ => charged_chargeMem _ _ _ _) _ s))
      (placed_foldl _ (fun _ _ => placed_drainElem _ _ _ _ _ _) _ _)) (placed_dropEngine _ _)) (placed_scoreDrop _ _ _))
      (placed_completeAt _ _ _ _ _)

theorem placed_finishOp (s : State) (o : EngineOp) : Placed s (finishOp s o) := by
  unfold finishOp
  split
  · exact placed_copyLand _ _ _ _
  · exact placed_xferMove _ _ _ _ _ _ _ _ _ _
  · exact placed_drainFinish _ _ _ _

/-! ## Passes -/

theorem placed_doom (s : State) (r c p l : Nat) (t : TrapInfo) : Placed s (doom s r c p l t) := placed_blocks rfl

theorem placeOf_poisonElems (b : Block) (tile : Nat) (elems : List Nat) : placeOf (poisonElems b tile elems) = placeOf b := rfl

theorem placed_losePassAt {s : State} {n : Nat} {b : Block} (hb : getBlock s n = some b) (p : PassOp) (elems : List Nat) :
    Placed s (losePassAt s b p elems) := by
  unfold losePassAt
  dsimp only
  exact placed_trans (placed_trans
    (placed_setBlock hb (placeOf_poisonElems { b with passes := b.passes.filter fun q => q.id != p.id } p.tile elems))
    (placed_postEvent _ _ _)) (placed_doom _ _ _ _ _ _)

theorem placed_countReplay {s : State} {n : Nat} {b : Block} (hb : getBlock s n = some b) (p : PassOp) : Placed s (countReplay s b p) := by
  unfold countReplay
  dsimp only
  exact placed_trans (placed_trans (placed_setBlock hb (by rfl)) (placed_charged (charged_count _ _ _ _ _)))
    (placed_charged (charged_count _ _ _ _ _))

theorem placeOf_applyPass (b : Block) (p : PassOp) : placeOf (applyPass b p) = placeOf b := rfl

theorem placed_endPass (bid : Nat) (s : State) (p : PassOp) : Placed s (endPass bid s p) := by
  unfold endPass
  split
  · exact placed_refl s
  · rename_i b hb
    split
    · exact placed_losePassAt hb _ _
    · split
      · exact placed_setBlock hb (placeOf_applyPass b p)
      · have h : Placed s (countReplay { s with free := s.free + 1 } b p) :=
          placed_trans (t := { s with free := s.free + 1 }) (placed_blocks rfl) (placed_countReplay (n := bid) hb p)
        dsimp only
        generalize countReplay { s with free := s.free + 1 } b p = u at h
        split
        · exact h
        · rename_i c hc
          exact placed_trans h (placed_ite (placed_setBlock hc (placeOf_applyPass c p)) (placed_losePassAt hc _ _))

theorem placed_finishBlock (s : State) (bid : Nat) : Placed s (finishBlock s bid) := by
  have h : Placed s (endPasses s bid) := by
    unfold endPasses
    split
    · exact placed_refl s
    · exact placed_foldl _ (fun _ _ => placed_endPass _ _ _) _ _
  exact placed_trans h (placed_foldl _ (fun _ _ => placed_finishOp _ _) _ _)

/-! ## Pre-emption and resumption -/

theorem placed_writeRecordPage (region : Nat) (s : State) (pa : Nat) : Placed s (writeRecordPage region s pa) := by
  unfold writeRecordPage
  dsimp only
  exact placed_trans (placed_trans (placed_recallRange s pa 4096) (placed_charged (charged_chargeMem _ region pa 4096)))
    (placed_blocks rfl)

theorem placed_writeRecord (s : State) (b : Block) : Placed s (writeRecord s b) := by
  unfold writeRecord
  dsimp only
  split
  · exact placed_trans (t := { s with free := s.free + 1 }) (placed_blocks rfl) (placed_doom _ _ _ _ _ _)
  · exact placed_foldl _ (fun _ _ => placed_writeRecordPage _ _ _) _ _

/-- A block that is suspended is there still, pre-empted. -/
theorem suspendBlock_spec {s : State} {n : Nat} {b : Block} (hb : getBlock s n = some b) :
    ∃ c, getBlock (suspendBlock s n) n = some c ∧ c.bid = n ∧ c.state = .preempted := by
  unfold suspendBlock
  rw [hb]
  dsimp only
  have h : Placed s (releaseLines (finishBlock (setBlock s { b with packs := b.packs.map discardBursts }) n) n) :=
    placed_trans (placed_trans (placed_setBlock hb (by rfl)) (placed_finishBlock _ _)) (placed_releaseLines _ _)
  generalize releaseLines (finishBlock (setBlock s { b with packs := b.packs.map discardBursts }) n) n = u at h
  obtain ⟨c, hc, hp⟩ := placed_some h hb
  obtain ⟨d, hd, -⟩ := placed_some
    (placed_trans (placed_writeRecord u c) (placed_charged (charged_count _ c.core (blockCtx u c).2 12 1))) hc
  have hbid : c.bid = n := getBlock_bid hc
  rw [hc]
  exact ⟨_, getBlock_setBlock hd hbid, hbid, rfl⟩

/-- A block that is pre-empted is there still, behind the unstarted blocks of its launch or ahead of them. -/
theorem preemptBlock_spec {s : State} {n : Nat} {b : Block} (hb : getBlock s n = some b) (behind : Bool) :
    ∃ c, getBlock (preemptBlock s n behind) n = some c ∧ c.state = .preempted ∧ c.behind = behind := by
  obtain ⟨c, hc, hbid, hst⟩ := suspendBlock_spec hb
  unfold preemptBlock
  dsimp only
  rw [hc]
  exact ⟨_, getBlock_setBlock hc hbid, hst, rfl⟩

theorem placeOf_putSlot (b : Block) (i : Nat) (m : MarverSlot) : placeOf (putSlot b i m) = placeOf b := rfl

theorem placed_reloadLine (s : State) (ctx bid k : Nat) : Placed s (match getBlock s bid with
    | some b => (match fillNeed s ctx false b k with
        | .ok (some pa) => doFill s bid k pa
        | _ => s)
    | none => s) := by
  split
  · split
    · exact placed_doFill _ _ _ _
    · exact placed_refl s
  · exact placed_refl s

theorem placed_loadedSlot {s : State} {bid : Nat} {b : Block} (hb : getBlock s bid = some b) (region : Nat) (as : List (Nat × Nat))
    (i : Nat) (m : MarverSlot) : Placed s (setBlock (chargeSectors s region as) (putSlot b i m)) := by
  have hc := charged_chargeSectors s region as
  exact placed_trans (placed_charged hc)
    (placed_setBlock ((getBlock_congr (charged_blocks hc) bid).trans hb) (placeOf_putSlot b i m))

theorem placed_reloadSlot (s : State) (bid i : Nat) : Placed s (reloadSlot s bid i) := by
  unfold reloadSlot
  split
  · exact placed_refl s
  · rename_i b hb
    split
    · rename_i m l _ _
      dsimp only
      split
      · exact placed_setBlock hb (placeOf_putSlot b _ _)
      · have h := fun lines : List Nat => placed_foldl _ (fun s k => placed_reloadLine s l.ctx bid k) lines s
        split
        · exact h _
        · rename_i c hc
          split
          · exact placed_trans (placed_trans (h _) (placed_loadedSlot hc _ _ _ _)) (placed_postMemoryError _ _ _ _)
          · exact placed_trans (h _) (placed_loadedSlot hc _ _ _ _)
    · exact placed_refl s

theorem placed_reloadAll (s : State) (bid : Nat) : Placed s (reloadAll s bid) := by
  unfold reloadAll
  split
  · exact placed_refl s
  · exact placed_foldl _ (fun _ _ => placed_reloadSlot _ _ _) _ _

theorem getBlock_reloadAll {s : State} {n : Nat} {b x : Block} (hb : getBlock s n = some b) (hx : x.bid = n) (k : Nat) :
    ∃ y, getBlock (reloadAll { setBlock s x with free := k } n) n = some y ∧ placeOf y = placeOf x :=
  placed_some (placed_reloadAll _ n) (s := { setBlock s x with free := k }) (getBlock_setBlock hb hx)

/-- A block that resumes is resident on its core, and not behind. -/
theorem resumeBlock_spec {s : State} {n : Nat} {b : Block} (hb : getBlock s n = some b) (l : Launch) (c : Nat) :
    ∃ x, getBlock (resumeBlock s b l c) n = some x ∧ x.core = c ∧ x.state = .resident ∧ x.behind = false := by
  obtain rfl : b.bid = n := getBlock_bid hb
  have hv : getBlock (l1Clear (regate { s with rr := l.region } c) c) b.bid = some b := hb
  unfold resumeBlock
  dsimp only
  generalize l1Clear (regate { s with rr := l.region } c) c = v at hv
  obtain ⟨x, hx, hp⟩ := getBlock_reloadAll
    (x := { b with core := c, state := .resident, behind := false, base := pickPlace v c (stashBytes l),
                   packs := moveSlots (freeSlots v c) b }) hv rfl (v.free + 1)
  simp only [placeOf, Prod.mk.injEq] at hp
  exact ⟨x, hx, hp.2⟩

/-! ## The end of a block -/

theorem getBlock_removeBlock (s : State) (n : Nat) : getBlock (removeBlock s n) n = none := by
  unfold getBlock removeBlock
  simp [List.find?_eq_none]

theorem placed_regate (s : State) (c : Nat) : Placed s (regate s c) := placed_blocks rfl

theorem placed_setLaunch (s : State) (l : Launch) : Placed s (setLaunch s l) := placed_blocks rfl

theorem placed_flushLast (s : State) (c rcb : Nat) : Placed s (flushLast s c rcb) :=
  placed_ite (placed_refl s) (placed_flushWhere _ _)

theorem placed_startTask (s : State) (c : Nat) (a : DWord) (t : Option TileTask) : Placed s (startTask s c a t) := by
  unfold startTask
  split
  · exact placed_refl s
  · exact placed_blocks rfl

theorem placed_counterZero (s : State) (n : Nat) : Placed s (counterZero s n) := by
  unfold counterZero
  split
  · exact placed_refl s
  · exact placed_ite (placed_startTask _ _ _ _) (placed_blocks rfl)

theorem placed_putCounter (s : State) (n : Nat) (c : DepCounter) : Placed s (putCounter s n c) := placed_blocks rfl

theorem placed_counterDown (s : State) (ctx n : Nat) : Placed s (counterDown s ctx n) :=
  placed_ite (placed_ite (placed_trans (placed_putCounter _ _ _) (placed_counterZero _ _)) (placed_putCounter _ _ _)) (placed_refl s)

theorem placed_ertUnpin (s : State) (i : Nat) : Placed s (ertUnpin s i) := by
  unfold ertUnpin
  dsimp only
  exact placed_ite (placed_gWriteNat _ _ _ _) (placed_refl s)

theorem placed_modBatch (s : State) (slot : Nat) (sel : BatchState → Bool) (f : BatchState → BatchState) :
    Placed s (modBatch s slot sel f) := by
  unfold modBatch
  split
  · exact placed_refl s
  · exact placed_blocks rfl

theorem placed_taskEnd (s : State) (t : TileTask) : Placed s (taskEnd s t) := by
  unfold taskEnd
  dsimp only
  have h : Placed s (if ertCtx (ertEntry s t.ert) = t.ctx then ertUnpin s t.ert else s) :=
    placed_ite (placed_ertUnpin _ _) (placed_refl s)
  have h' := placed_trans h (placed_counterDown _ t.ctx t.counter)
  exact placed_ite (placed_trans h' (placed_modBatch _ _ _ _)) h'

theorem placed_doneIncrement (s : State) (l : Launch) (n : Nat) : Placed s (doneIncrement s l n) := by
  unfold doneIncrement
  dsimp only
  split
  · exact placed_refl s
  · split
    · exact placed_postEvent _ _ _
    · exact placed_ite (placed_postEvent _ _ _) (placed_trans (placed_charged (charged_chargeMem _ _ _ _)) (placed_memAtomic _ _ _ _ _ _))

theorem placed_launchEnd (s : State) (l : Launch) (n : Nat) : Placed s (launchEnd s l n) := by
  unfold launchEnd
  have h := placed_doneIncrement s l n
  generalize doneIncrement s l n = u at h
  have h' : Placed s { u with launches := u.launches.filter fun x => x.lid != l.lid } := placed_trans h (placed_blocks rfl)
  dsimp only
  split
  · exact placed_trans h' (placed_taskEnd _ _)
  · exact h'

theorem placed_ended (s : State) (c : Nat) (l : Launch) : Placed s (flushLast (setLaunch (regate s c) l) c l.region) :=
  placed_trans (placed_trans (placed_regate _ _) (placed_setLaunch _ _)) (placed_flushLast _ _ _)

/-- A block that has ended is gone. -/
theorem getBlock_endBlock (s : State) (b : Block) (l : Launch) : getBlock (endBlock s b l) b.bid = none := by
  have hr := getBlock_removeBlock (cleanLines s b fun _ => true) b.bid
  unfold endBlock
  dsimp only
  generalize removeBlock (cleanLines s b fun _ => true) b.bid = u at hr
  have h := placed_ended u b.core { declineAll l b.linear with ended := l.ended ++ [b.linear] }
  split
  · exact placed_none (placed_trans h (placed_launchEnd _ _ _)) hr
  · exact placed_none h hr

/-- A block that is discarded is gone. -/
theorem getBlock_discardBlock (s : State) (b : Block) (l : Launch) : getBlock (discardBlock s b l) b.bid = none := by
  unfold discardBlock
  exact placed_none (placed_postEvent _ _ _) (getBlock_removeBlock _ _)

/-! ## The start of a block -/

theorem charged_chargeArg (s : State) (l : Launch) : Charged s (chargeArg s l) := by
  unfold chargeArg
  split
  · exact charged_foldl _ (fun _ _ => charged_chargeMem _ _ _ _) _ _
  · exact charged_refl s

/-- A core reads back as it is put. -/
theorem coreOf_putCore (s : State) (c : Nat) (k : Core) : coreOf (putCore s c k) c = k := by
  unfold coreOf putCore
  rw [spGet_spPut]
  exact if_pos rfl

/-- The device as the launch sequence leaves it before the block is there: what it charges, and the core, whose queue is shorter. -/
def beforeStart (s : State) (c : Nat) (l : Launch) : State :=
  let u := regate (chargeArg s l) c
  let u := if l.isTask then l1Clear u c else u
  putCore u c { coreOf u c with queue := (coreOf u c).queue.drop 1 }

theorem startHead_eq (s : State) (c linear : Nat) (l : Launch) : startHead s c linear l =
    { beforeStart s c l with blocks := (beforeStart s c l).blocks ++ [newBlock (beforeStart s c l) l linear c],
                             nextId := (beforeStart s c l).nextId + 1, free := (beforeStart s c l).free + 1 } := rfl

/-- A core that keeps its queue. -/
theorem coreOf_regate_queue (s : State) (c : Nat) : (coreOf (regate s c) c).queue = (coreOf s c).queue := by
  unfold regate
  rw [coreOf_putCore]

theorem coreOf_l1Clear_queue (s : State) (c : Nat) : (coreOf (l1Clear s c) c).queue = (coreOf s c).queue := by
  unfold l1Clear setL1
  rw [coreOf_putCore]

theorem charged_queue {s t : State} (h : Charged s t) (c : Nat) : (coreOf t c).queue = (coreOf s c).queue :=
  (congrArg Core.queue (h.cores c) :)

theorem beforeStart_queue (s : State) (c : Nat) (l : Launch) : (coreOf (beforeStart s c l) c).queue = (coreOf s c).queue.drop 1 := by
  have h := (coreOf_regate_queue (chargeArg s l) c).trans (charged_queue (charged_chargeArg s l) c)
  unfold beforeStart
  dsimp only
  rw [coreOf_putCore]
  split
  · rw [coreOf_l1Clear_queue, h]
  · rw [h]

theorem beforeStart_cores (s : State) (c : Nat) (l : Launch) : ∃ K, beforeStart s c l = { chargeArg s l with cores := K } := by
  unfold beforeStart
  dsimp only
  split <;> exact ⟨_, rfl⟩

theorem beforeStart_frame (s : State) (c : Nat) (l : Launch) : beforeStart s c l =
    { s with cores := (beforeStart s c l).cores, walks := (beforeStart s c l).walks, tlb := (beforeStart s c l).tlb,
             l2 := (beforeStart s c l).l2, budget := (beforeStart s c l).budget, shadows := (beforeStart s c l).shadows,
             activity := (beforeStart s c l).activity, free := (beforeStart s c l).free } := by
  obtain ⟨K, hK⟩ := beforeStart_cores s c l
  have h := (charged_chargeArg s l).device
  generalize chargeArg s l = v at h hK
  rw [hK]
  generalize v.tlb = V1, v.walks = V2, v.l2 = V3, v.cores = V4, v.budget = V5, v.shadows = V6, v.activity = V7, v.free = V8 at h
  subst h
  rfl

/-! ## Events that are due -/

section
variable {s : State}

/-- An event is held where no unit holds its region. -/
theorem occur_admitted {t : State} {region : Nat} {h : Option (Nat × Nat)} (hh : h = none) :
    occur s (admitAt s region h t) = .next t := by
  subst hh; rfl

/-- A fragment whose wait is over is ready. -/
theorem wakeFrag_eq {r : FragRef} {e : Issuer} (h : issuerAt s r = some e) : wakeFrag s r =
    putFrag s r { e.f with st := .ready, wait := heldWait e.f.wait, gang := 0, since := s.tick } := by
  unfold wakeFrag
  rw [h]

theorem exec_blockPlacement {l : Launch} {m : Nat} (hl : nextLaunch s = some l) (hm : placeCore s l = some m)
    (hb : hasBlocks s l = true) : exec .blockPlacement s = .next (placeChunk s l m) := by
  show occur s (onBlockPlacement s) = _
  unfold onBlockPlacement
  simp only [hl, hm]
  exact occur_due hb

theorem exec_blockStart {core : BitVec 8} {q : Nat × Nat} {rest : List (Nat × Nat)} {l : Launch}
    (hq : (coreOf s core.toNat).queue = q :: rest) (hl : getLaunch s q.1 = some l) (hc : couldStart s core.toNat l = true) :
    exec (.blockStart core) s = .next (startHead s core.toNat q.2 l) := by
  show occur s (onBlockStart core s) = _
  unfold onBlockStart
  simp only [hq, hl]
  exact occur_due hc

theorem blockStart_effect {core : BitVec 8} {q : Nat × Nat} {rest : List (Nat × Nat)} {l : Launch}
    (hq : (coreOf s core.toNat).queue = q :: rest) (hl : getLaunch s q.1 = some l) (hc : couldStart s core.toNat l = true) :
    ∃ t u, exec (.blockStart core) s = .next t ∧
      u = { s with cores := u.cores, walks := u.walks, tlb := u.tlb, l2 := u.l2, budget := u.budget, shadows := u.shadows,
                   activity := u.activity, free := u.free } ∧
      t.blocks = s.blocks ++ [newBlock u l q.2 core.toNat] ∧ (coreOf t core.toNat).queue = rest := by
  refine ⟨_, beforeStart s core.toNat l, exec_blockStart hq hl hc, beforeStart_frame _ _ _, ?_, ?_⟩
  · rw [startHead_eq]
    have hb : (beforeStart s core.toNat l).blocks = s.blocks := by rw [beforeStart_frame]
    exact congrArg (· ++ _) hb
  · have := beforeStart_queue s core.toNat l
    rw [hq] at this
    exact this

theorem exec_blockEnd {n : Nat} {b : Block} {l : Launch} (hb : getBlock s n = some b) (hl : getLaunch s b.launch = some l)
    (hd : blockDone b = true) (hh : endHeld s b l = none) : exec (.blockEnd n) s = .next (endBlock s b l) := by
  show occur s (onBlockEnd n s) = _
  unfold onBlockEnd
  simp only [hb, hl, hd, if_true]
  exact occur_admitted hh

theorem exec_blockEnd_not {n : Nat} {b : Block} {l : Launch} (hb : getBlock s n = some b) (hl : getLaunch s b.launch = some l)
    (hd : blockDone b = false) : exec (.blockEnd n) s = .next s := by
  show occur s (onBlockEnd n s) = _
  unfold onBlockEnd
  simp only [hb, hl, hd]
  rfl

theorem exec_preempt {n : Nat} {b : Block} {l : Launch} (hb : getBlock s n = some b) (hl : getLaunch s b.launch = some l)
    (hr : b.state = .resident) (hd : (detStuck s b l || idleForOthers s b || displaced s b) = true) :
    exec (.preempt n) s = .next (preemptBlock s n (detStuck s b l)) := by
  show occur s (onPreempt n s) = _
  unfold onPreempt
  simp only [hb, hl]
  exact occur_due (by rw [hr]; simpa using hd)

theorem exec_blockResume {n : Nat} {core : BitVec 8} {b : Block} {l x : Launch} (hb : getBlock s n = some b)
    (hl : getLaunch s b.launch = some l) (hv : rcbValid (rcbWord s l.region) = true) (hr : nextResume s l = some b)
    (hx : nextLaunch s = some x) (hxl : x.lid = l.lid) (ha : (allowedCores s l).getLsbD core.toNat = true)
    (hf : coreFits s core.toNat (slotsNeeded b).length l = true) :
    exec (.blockResume n core) s = .next (resumeBlock s b l core.toNat) := by
  show occur s (onBlockResume n core s) = _
  unfold onBlockResume
  simp only [hb, hl, hv]
  exact occur_due (by simp [hr, hx, hxl, getBlock_bid hb, resumeFits, ha, hf])

theorem exec_blockResume_discard {n : Nat} {b : Block} {l : Launch} (core : BitVec 8) (hb : getBlock s n = some b)
    (hl : getLaunch s b.launch = some l) (hv : rcbValid (rcbWord s l.region) = false) (hp : b.state = .preempted) :
    exec (.blockResume n core) s = .next (discardBlock s b l) := by
  show occur s (onBlockResume n core s) = _
  unfold onBlockResume
  simp only [hb, hl, hv]
  exact occur_due (by rw [hp]; rfl)

/-- A wait that is over, of a fragment of a resident block. -/
theorem canWake_of {r : FragRef} {e : Issuer} {p : Wait → Bool} (h : issuerAt s r = some e) (hr : e.b.state = .resident)
    (hw : wakes s e.b e.p e.f = true) (hst : e.f.st = .waiting ∨ e.f.st = .pairing ∨ e.f.st = .pfuse ∨ e.f.st = .regang)
    (hp : p e.f.wait = true) : canWake s r p = true := by
  unfold canWake
  rw [h]
  rcases hst with hst | hst | hst | hst <;> simp [hr, hw, hst, hp]

section
variable {r : FragRef} {e : Issuer} (h : issuerAt s r = some e) (hr : e.b.state = .resident) (hw : wakes s e.b e.p e.f = true)
include h hr hw

theorem exec_conditionMonitorWake (hst : e.f.st = .waiting) (hword : isWordWait e.f.wait = true) (hp : polls s e.f.wait = false) :
    exec (.conditionMonitorWake r) s = .next (wakeFrag s r) :=
  occur_due (canWake_of h hr hw (.inl hst) (by simp [hword, hp]))

theorem exec_appendClaimGrant (hst : e.f.st = .waiting) (ha : isAppendWait e.f.wait = true) :
    exec (.appendClaimGrant r) s = .next (wakeFrag s r) :=
  occur_due (canWake_of h hr hw (.inl hst) ha)

variable (hword : isWordWait e.f.wait = false) (ha : isAppendWait e.f.wait = false) (ht : e.f.wait ≠ .turn)
include hword ha ht

theorem exec_fragmentWake (hst : e.f.st = .waiting ∨ e.f.st = .pairing ∨ e.f.st = .pfuse ∨ e.f.st = .regang) :
    exec (.fragmentWake r) s = .next (resumeFrag s r) :=
  occur_due (canWake_of h hr hw hst (by simp [hword, ha, ht]))

theorem exec_fragmentWake_ready (hst : e.f.st = .waiting ∨ e.f.st = .pairing ∨ e.f.st = .pfuse) :
    exec (.fragmentWake r) s = .next (wakeFrag s r) := by
  rw [exec_fragmentWake h hr hw hword ha ht (hst.imp_right (·.imp_right .inl))]
  unfold resumeFrag
  rw [h]
  dsimp only
  rw [if_neg]
  rcases hst with hst | hst | hst <;> rw [hst] <;> simp

theorem exec_fragmentWake_regang (hst : e.f.st = .regang) : exec (.fragmentWake r) s = .next (mergeRegang s e) := by
  rw [exec_fragmentWake h hr hw hword ha ht (.inr (.inr (.inr hst)))]
  unfold resumeFrag
  rw [h]
  exact congrArg _ (if_pos hst)

end

theorem pollAt_issuer {r : FragRef} {e : Issuer} {pa w : Nat} (h : pollAt s r = some (e, pa, w)) : issuerAt s r = some e := by
  unfold pollAt at h
  split at h
  · cases h
  · rename_i x hx
    split at h
    · obtain ⟨y, -, hy⟩ := Option.map_eq_some_iff.1 h
      obtain ⟨rfl, -⟩ := Prod.mk.inj hy
      exact hx
    · cases h

/-- What the read of a polled word leaves. -/
def polled (s : State) (e : Issuer) (pa w : Nat) : State := l1Clear (if isReg pa then s else chargeMem s e.l.region pa w) e.b.core

theorem charged_polled (s : State) (e : Issuer) (pa w : Nat) : Charged s (polled s e pa w) := by
  refine charged_trans ?_ (charged_setL1 _ _ _)
  split
  · exact charged_refl s
  · exact charged_chargeMem _ _ _ _

theorem exec_monitorPoll {r : FragRef} {e : Issuer} {pa w : Nat} (h : pollAt s r = some (e, pa, w))
    (hh : heldAmong s e.l.region [pa] = none) : exec (.monitorPoll r) s =
      .next (if wakes (polled s e pa w) e.b e.p e.f then wakeFrag (polled s e pa w) r else polled s e pa w) := by
  show occur s (onMonitorPoll r s) = _
  unfold onMonitorPoll
  simp only [h]
  rw [occur_admitted hh, ← (issuerAt_eq.1 (pollAt_issuer h)).1]
  rfl

theorem findUse_key {u a r : Nat} {x : BudgetUse} (h : findUse s u a r = some x) : x.unit = u ∧ x.act = a ∧ x.rcb = r := by
  have := List.find?_some h
  simpa [and_assoc] using this

/-- A budget's use at the start of a period. -/
def freshUse (s : State) (u a r : Nat) (x : BudgetUse) : BudgetUse :=
  if x.unit = u ∧ x.act = a ∧ x.rcb = r then { x with used := 0, allow := allowOf s (chainOf s 8 r) a, posted := false } else x

theorem freshUse_key (s : State) (u a r : Nat) (x : BudgetUse) : ((freshUse s u a r x).unit == u && (freshUse s u a r x).act == a &&
    (freshUse s u a r x).rcb == r) = (x.unit == u && x.act == a && x.rcb == r) := by
  unfold freshUse
  split <;> rfl

theorem findUse_fresh {u a r : Nat} {x : BudgetUse} (h : findUse s u a r = some x) :
    findUse { s with budget := s.budget.map (freshUse s u a r) } u a r = some (freshUse s u a r x) := by
  unfold findUse at h ⊢
  rw [List.find?_map]
  simp only [Function.comp_def, freshUse_key]
  rw [h]
  rfl

theorem freshUse_of_findUse {u a r : Nat} {x : BudgetUse} (h : findUse s u a r = some x) :
    (freshUse s u a r x).used = 0 ∧ (freshUse s u a r x).posted = false ∧
      (freshUse s u a r x).allow = allowOf s (chainOf s 8 r) a := by
  simp only [freshUse, if_pos (findUse_key h), and_self]

theorem exec_budgetPeriodEnd {u : BitVec 11} {a : BitVec 3} {r : BitVec 52} {x : BudgetUse}
    (h : findUse s u.toNat a.toNat r.toNat = some x) : exec (.budgetPeriodEnd u a r) s =
      .next { s with budget := s.budget.map (freshUse s u.toNat a.toNat r.toNat) } := by
  show occur s (onBudgetPeriodEnd u a r s) = _
  unfold onBudgetPeriodEnd
  exact occur_due (by rw [h]; rfl)

theorem budgetPeriodEnd_effect {u : BitVec 11} {a : BitVec 3} {r : BitVec 52} {x : BudgetUse}
    (h : findUse s u.toNat a.toNat r.toNat = some x) :
    ∃ t, exec (.budgetPeriodEnd u a r) s = .next t ∧ t = { s with budget := t.budget } ∧
      ∃ y, findUse t u.toNat a.toNat r.toNat = some y ∧ y.used = 0 ∧ y.posted = false ∧
        y.allow = allowOf s (chainOf s 8 r.toNat) a.toNat := by
  exact ⟨_, exec_budgetPeriodEnd h, rfl, _, findUse_fresh h, freshUse_of_findUse h⟩

theorem exec_detRoundComplete {l : Launch} (hl : getLaunch s l.lid = some l) (hd : l.det = true) (hr : roundDone s l = true)
    (hh : roundHeld s l = none) : exec (.detRoundComplete l.lid) s = .next (publishRound s l) := by
  show occur s (onDetRoundComplete l.lid s) = _
  unfold onDetRoundComplete
  simp only [hl, hd, hr]
  exact occur_admitted hh

theorem exec_detSyncTurn {n : Nat} {r : FragRef} {rest : List FragRef} (hd : dueTurns s n = r :: rest) :
    exec (.detSyncTurn n) s = .next (wakeFrag s r) := by
  show occur s (onDetSyncTurn n s) = _
  unfold onDetSyncTurn
  simp only [hd]
  rfl

theorem exec_runEnd {core : BitVec 8} {w : BitVec 2} {e : Issuer} (h : atLimit s (4 * core.toNat + w.toNat) = some e) :
    exec (.runEnd core w) s = .next (endRun s (4 * core.toNat + w.toNat) e) := by
  show occur s (onRunEnd core w s) = _
  unfold onRunEnd
  simp only [h]
  rfl

theorem exec_launchAccept {p : Pending} {rest : List Pending} (h : s.arriving = p :: rest) :
    exec .launchAccept s = .next (acceptPacket { s with arriving := rest } p) := by
  show occur s (onLaunchAccept s) = _
  unfold onLaunchAccept
  simp only [h]
  rfl

theorem exec_launchAccept_none (h : s.arriving = []) : exec .launchAccept s = .next s := by
  show occur s (onLaunchAccept s) = _
  unfold onLaunchAccept
  simp only [h]
  rfl

end

/-- Settles O52: each event that is due has its effect. -/
theorem eventsOfTheDispatcher : Obligations.EventsOfTheDispatcher := by
  unfold Obligations.EventsOfTheDispatcher
  intro s core
  refine ⟨fun p rest => exec_launchAccept, exec_launchAccept_none, fun l m hl hm hb => exec_blockPlacement hl hm hb,
    fun q rest l hq hl hc => blockStart_effect hq hl hc, fun hc hi => occur_due (by rw [hi, Bool.and_true]; exact decide_eq_true hc),
    fun n b l hb hl => ⟨fun hd hh => ?_, exec_blockEnd_not hb hl, fun hr hd => ?_, fun hv hr hx ha hf => ?_, fun hv hp => ?_⟩,
    fun p rest hp hn => ?_, fun w e => exec_runEnd, fun r e h hr hw => ⟨fun hst hword hp => ?_, fun hst ha => ?_, fun hword ha ht =>
      ⟨fun hst => ?_, fun hst => ?_⟩⟩, fun r e pa w h hh => ?_, fun u a r x => budgetPeriodEnd_effect,
    fun hl r => occur_due (by rw [hl]; rfl), fun l hl hd hr hh => exec_detRoundComplete hl hd hr hh, fun n r rest e hd h => ?_⟩
  · refine ⟨_, exec_blockEnd hb hl hd hh, ?_⟩
    rw [← getBlock_bid hb]
    exact getBlock_endBlock s b l
  · exact ⟨_, exec_preempt hb hl hr hd, preemptBlock_spec hb _⟩
  · obtain ⟨x, hx, hxl⟩ := hx
    obtain ⟨c, hc, hcore, hst, hbe⟩ := resumeBlock_spec hb l core.toNat
    exact ⟨_, c, exec_blockResume hb hl hv hr hx hxl ha hf, hc, hcore, hst, hbe⟩
  · refine ⟨_, exec_blockResume_discard core hb hl hv hp, ?_⟩
    rw [← getBlock_bid hb]
    exact getBlock_discardBlock s b l
  · exact occur_due (by simp [spawnReady, hp, hn])
  · exact (exec_conditionMonitorWake h hr hw hst hword hp).trans (congrArg _ (wakeFrag_eq h))
  · exact (exec_appendClaimGrant h hr hw hst ha).trans (congrArg _ (wakeFrag_eq h))
  · exact (exec_fragmentWake_ready h hr hw hword ha ht hst).trans (congrArg _ (wakeFrag_eq h))
  · exact exec_fragmentWake_regang h hr hw hword ha ht hst
  · have hx := exec_monitorPoll h hh
    exact ⟨charged_polled s e pa w, fun hw => hx.trans (congrArg _ (if_pos hw)),
      fun hw => hx.trans (congrArg _ (if_neg (Bool.eq_false_iff.1 hw)))⟩
  · exact (exec_detSyncTurn hd).trans (congrArg _ (wakeFrag_eq h))

end Sys2Proof.Proofs
end

section
/-! Family 03_scheduling: rules shared by synchronising operations, uniform results and checks of operands. -/

namespace Sys2Proof.Proofs

open Sys2Proof Sys2Proof.Machine Sys2Proof.Safety Sys2Proof.Laws

theorem refresh_of {s : State} {e e' : Issuer} (h : issuerAt s e.ref = some e') : refresh s e = e' := by
  unfold refresh
  rw [h]
  rfl

theorem refresh_linesMoved {s t : State} {e : Issuer} {b : Block} (h : LinesMoved s t) (he : issuerAt s e.ref = some e)
    (hb : getBlock t e.ref.blk = some b) : refresh t e = { e with b := b } := by
  obtain ⟨b', hb', -, hi⟩ := linesMoved_issuer h he
  rw [hb] at hb'
  rw [refresh_of hi, Option.some.inj hb']

/-- Two checks that both pass. -/
theorem firstCause_pair {x y : Option Nat} (hx : x = none) (hy : y = none) : firstCause [x, y] = none := by
  rw [hx, hy]
  rfl

/-- The end of an instruction may be stated by what its effect implies. -/
theorem completes_mono {i : Instr} {s : State} {e : Issuer} {len : Nat} {P Q : State → Retire → Prop} (h : Completes i s e len P)
    (hPQ : ∀ m r, P m r → Q m r) : Completes i s e len Q := by
  obtain ⟨m, r, t, hx, hr, hp⟩ := h
  exact ⟨m, r, t, hx, hr, hPQ m r hp⟩

section
variable {i : Instr} {s : State} {e : Issuer} {len : Nat} {place : BurstPlace} {sup : Bool} {body : Issuer → Act}
  (hx : exec i s = issue s len place sup body) (h : Issues s e) (hb : burstOk e.f place = true) (hs : sup = false ∨ inSup e.f = true)
include hx h hb hs

/-- The state that an instruction with an effect leaves. -/
theorem retires {m : State} {r : Retire} (ha : body e = .ok m r) : exec i s = .next (retire m e len r) := by
  rw [hx, issue_next h hb hs, ha]
  rfl

/-- An instruction that ends as a synchronising operation completes with what that end stirs (R113). -/
theorem completes_synced {u : State} {e' : Issuer} {r : Retire} {P : State → Retire → Prop} (ha : body e = .ok (syncDone u e) r)
    (hu : issuerAt u e.ref = some e') (hP : Stirred u (syncDone u e) → P (syncDone u e) r) : Completes i s e len P := by
  obtain ⟨e2, he2⟩ := kept_stirred (stirred_syncDone u e) _ _ hu
  exact completes hx h hb hs ha he2 (hP (stirred_syncDone u e))

section
variable {t : State} {b : Block} {l : Launch} {d : Dst} {nowb : Bool} {n x : Nat} {P : State → Retire → Prop}
  (ht : issuerAt t e.ref = some { e with b := b, l := l })
include ht

/-- An instruction that ends with one value for its active lanes. -/
theorem completes_result (ha : body e = sameResult t e d nowb n x)
    (hP : ∀ m r, ResultOnly t m e d nowb n (maskLanes e.p e.f) (fun _ => x) r → P m r) : Completes i s e len P := by
  obtain ⟨m, r, hm, ⟨e', he'⟩, hr⟩ := sameResult_ok ht d nowb n x
  exact completes hx h hb hs (ha.trans hm) he' (hP m r hr)

/-- The same where that end is the end of a synchronising operation. -/
theorem completes_syncedResult (ha : ∀ u r, sameResult t e d nowb n x = .ok u r → body e = .ok (syncDone u e) r)
    (hP : ∀ u m r, ResultOnly t u e d nowb n (maskLanes e.p e.f) (fun _ => x) r → Stirred u m → P m r) : Completes i s e len P := by
  obtain ⟨u, r, hu, ⟨e', he'⟩, hr⟩ := sameResult_ok ht d nowb n x
  exact completes_synced hx h hb hs (ha u r hu) he' fun hst => hP u _ r hr hst

end

end

end Sys2Proof.Proofs
end

section
/-! O57: a step is the instruction that its bytes decode to, or the trap of its fetch (R97 to R99, R224, R549). -/

namespace Sys2Proof.Proofs

open Sys2Proof Sys2Proof.Machine Sys2Proof.Safety Sys2Proof.Laws

theorem pressing_input {s : State} {i : Input} {rest : List Input} (hi : s.inputs = i :: rest) :
    pressing s = some (takeInput { s with inputs := rest } i) := by
  unfold pressing
  rw [hi]

theorem pressing_doomed {s : State} (hi : s.inputs = []) (hd : s.doomed ≠ []) : pressing s = some (takeDooms s) := by
  unfold pressing
  rw [hi]
  exact if_pos (by simpa using hd)

theorem pressing_lost {s : State} (hi : s.inputs = []) (hd : s.doomed = []) (hl : s.lost ≠ []) :
    pressing s = some (reportLost s) := by
  unfold pressing
  rw [hi, hd]
  exact (if_neg Bool.false_ne_true).trans (if_pos (by simpa using hl))

section
variable {s : State} (hi : s.inputs = []) (hd : s.doomed = []) (hl : s.lost = [])
include hi hd hl

/-- In a fragment's turn the step is the issue of the fragment that the scheduler selects. -/
theorem step_selected (hc : s.co = []) (ha : s.agenda = []) (ht : s.tick % 2 = 0) {e : Issuer}
    (hsel : selectFrag { s with cur := none, tick := s.tick + 1 } = some e) :
    step s = issueFrom { s with cur := none, tick := s.tick + 1 } e :=
  (step_quiet hi hd hl hc).trans ((turn_fragment (s := { s with cur := none }) ha ht).trans (fragmentFirst_some hsel))

/-- A fragment that issues in the cycle of another's instruction. -/
theorem step_mate {e : Issuer} {rest : List FragRef} (hc : s.co = e.ref :: rest) (he : issuerAt { s with cur := none } e.ref = some e)
    (hr : fragReady { s with cur := none } e = true) (hv : vectorNext { s with cur := none } e = true) :
    step s = issueWith { s with cur := none, co := rest } e :=
  step_with (pressing_none hi hd hl) (coTurn_cons hc he hr hv)

theorem step_agenda (hc : s.co = []) {i : Instr} {rest : List Instr} (ha : s.agenda = i :: rest) :
    step s = exec i { s with cur := none, tick := s.tick + 1, agenda := rest } :=
  (step_quiet hi hd hl hc).trans (turn_agenda (s := { s with cur := none }) ha)

/-- In an event's turn, or where no fragment can issue, an event of the device that is due occurs. -/
theorem step_internal (hc : s.co = []) (ha : s.agenda = []) {u : State}
    (hu : internalStep { s with cur := none, tick := s.tick + 1 } = some u)
    (hw : s.tick % 2 = 1 ∨ selectFrag { s with cur := none, tick := s.tick + 1 } = none) : step s = .next u := by
  refine (step_quiet hi hd hl hc).trans ?_
  rcases Nat.mod_two_eq_zero_or_one s.tick with h0 | h1
  · have hsel := hw.resolve_left (by omega)
    refine (turn_fragment (s := { s with cur := none }) ha h0).trans ((fragmentFirst_none hsel).trans ?_)
    rw [hu]
    rfl
  · exact (turn_event (s := { s with cur := none }) ha h1).trans (eventFirst_some hu)

theorem step_idle (hc : s.co = []) (ha : s.agenda = []) (hu : internalStep { s with cur := none, tick := s.tick + 1 } = none)
    (hsel : selectFrag { s with cur := none, tick := s.tick + 1 } = none) :
    step s = .next { s with cur := none, tick := s.tick + 1 } := by
  have hf := fragmentFirst_none hsel
  rw [hu, Option.getD_none] at hf
  refine (step_quiet hi hd hl hc).trans ?_
  rcases Nat.mod_two_eq_zero_or_one s.tick with h0 | h1
  · exact (turn_fragment (s := { s with cur := none }) ha h0).trans hf
  · exact (turn_event (s := { s with cur := none }) ha h1).trans ((eventFirst_none hu).trans hf)

end

/-- Settles O57: what presses, the cycle's other fragments and the turns each by their own rule; the fetch says which instruction or
trap a fragment's turn is. -/
theorem stepRunsDecoded : Obligations.StepRunsDecoded := by
  unfold Obligations.StepRunsDecoded
  intro s calm c t
  refine ⟨?_, ?_, ?_, fun i rest hi => step_pressing (pressing_input hi), fun hi hd => step_pressing (pressing_doomed hi hd),
    fun hi hd hl => step_pressing (pressing_lost hi hd hl)⟩
  · rintro e ⟨hi, hd, hl⟩ hc ha ht hsel u e'
    have hstep := step_selected hi hd hl hc ha ht hsel
    refine ⟨fun bs hf => ⟨fun i n hdec => ⟨decode_wf hdec, fun hb => ?_, fun hb => ?_⟩, fun r hdec => ?_⟩, fun k va hf => ?_⟩
    · exact hstep.trans (issueFrom_ok (fetched_instr hf hdec hb))
    · exact hstep.trans (issueFrom_trap (fetched_badPreds hf hdec hb))
    · exact hstep.trans (issueFrom_trap (fetched_reject hf hdec))
    · exact hstep.trans (issueFrom_trap (fetched_fault hf))
  · rintro e rest ⟨hi, hd, hl⟩ hc he hr hv u i hf
    exact (step_mate hi hd hl hc he hr hv).trans (issueWith_ok hf)
  · rintro ⟨hi, hd, hl⟩ hc
    exact ⟨fun i rest ha => step_agenda hi hd hl hc ha, fun ha u hu hw => step_internal hi hd hl hc ha hu hw,
      fun ha hu hsel => step_idle hi hd hl hc ha hu hsel⟩

end Sys2Proof.Proofs
end

section
/-! O13: WAITCNT and WAITTAG (R113, R180, R277, R278). -/

namespace Sys2Proof.Proofs

open Sys2Proof Sys2Proof.Machine Sys2Proof.Safety Sys2Proof.Laws

section
variable {s : State} {e : Issuer} {holds : Bool} {w : Wait}

theorem waitFor_turn (ht : needsTurn s e = true) : waitFor s e holds w = .wait .waiting .turn := by
  rw [waitFor, ht, if_pos rfl]

theorem waitFor_holds (ht : needsTurn s e = false) : waitFor s e true w = .ok (syncDone (wakeAcquire s e w) e) {} := by
  rw [waitFor, ht, if_neg Bool.false_ne_true, if_pos rfl]

theorem waitFor_not (ht : needsTurn s e = false) : waitFor s e false w = .wait .waiting w := by
  rw [waitFor, ht, if_neg Bool.false_ne_true, if_neg Bool.false_ne_true]

/-- An instruction that is a wait whose return acquires at device scope waits for its turn, completes, or waits for its condition. -/
theorem counter_waits {i : Instr} {body : Issuer → Act} (hx : exec i s = issue s 8 .never false body) (h : IssuesAlone s e)
    (ha : body e = waitFor s e holds w) (hw : wakeAcquire s e w = acquired s e) :
    (needsTurn s e = true → Waits i s e .waiting .turn) ∧
    (needsTurn s e = false → holds = true → Completes i s e 8 fun m r => r = {} ∧ Stirred (acquired s e) m) ∧
    (needsTurn s e = false → holds = false → Waits i s e .waiting w) := by
  have hb := burstOk_alone h.2 .never
  refine ⟨fun ht => waits hx h.1 hb (.inl rfl) (ha.trans (waitFor_turn ht)), fun ht hh => ?_, fun ht hh => ?_⟩
  · subst hh
    have hacq : issuerAt (acquired s e) e.ref = some e := (charged_issuer (charged_acquired s e) _).trans h.1.2
    exact completes_synced hx h.1 hb (.inl rfl) (ha.trans ((waitFor_holds ht).trans (by rw [hw]))) hacq fun hst => ⟨rfl, hst⟩
  · subst hh
    exact waits hx h.1 hb (.inl rfl) (ha.trans (waitFor_not ht))

end

/-- Settles O13: both instructions are waits on their counters once their operand can be read. -/
theorem counterWaits : Obligations.CounterWaits := by
  unfold Obligations.CounterWaits
  intro s e g h hu n
  simp only [List.forall_mem_cons]
  refine ⟨fun _ => counter_waits rfl h ?_ rfl, fun hn => counter_waits rfl h ?_ rfl, List.forall_mem_nil _⟩
  · dsimp only
    rw [hu]
    rfl
  · dsimp only
    rw [hu]
    exact if_neg (show ¬ 256 ≤ n by omega)

end Sys2Proof.Proofs
end

section
/-! O19 and O22: stores of lanes, performed one by one or added to the pack's buffer (R104, R112, R161, R321, R325, R328). -/

namespace Sys2Proof.Proofs

open Sys2Proof Sys2Proof.Machine Sys2Proof.Safety Sys2Proof.Laws

/-! ## The order of lanes (R161, R328) -/

theorem insertKey_perm (key : Nat → Nat) (a : Nat × Nat) (l : List (Nat × Nat)) : (insertKey key a l).Perm (a :: l) := by
  induction l with
  | nil => exact .refl _
  | cons b l ih =>
    unfold insertKey
    split
    · exact .refl _
    · exact (ih.cons b).trans (.swap a b l)

theorem foldr_insertKey_perm (key : Nat → Nat) (l : List (Nat × Nat)) : (l.foldr (insertKey key) []).Perm l := by
  induction l with
  | nil => exact .refl _
  | cons a l ih => exact (insertKey_perm key a _).trans (ih.cons a)

/-- The order of lanes is one of their permutations, and choosing it uses at most the counter of free choices. -/
theorem laneOrder_spec (s : State) (e : Issuer) (n : Nat) (as : List (Nat × Nat)) :
    (laneOrder s e n as).1.Perm as ∧ Charged s (laneOrder s e n as).2 := by
  unfold laneOrder
  split
  · exact ⟨.refl _, charged_refl s⟩
  · exact ⟨foldr_insertKey_perm _ _, charged_of rfl⟩

/-! ## ST and RED -/

section
variable {s : State} {e : Issuer} {m : M64}

/-- The operands of a store of the active lanes can be read, and its aligned accesses translate. -/
structure StoreMeets (s : State) (e : Issuer) (m : M64) (pa : Nat → Nat) : Prop where
  base : operandCause e (activeLanes e m.pred) [baseOpnd m false] .null 1 = none
  data : regsCause e (activeLanes e m.pred) m.data (widthRegs m.width) = none
  lanes : ∀ l ∈ activeLanes e m.pred, m64Addr e m false l % widthBytes m.width = 0 ∧
    xlate s e.l.ctx (inSup e.f) .write (m64Addr e m false l) = .ok (pa l)

/-- The accesses of a store: each active lane with its physical address. -/
def storeAccesses (e : Issuer) (m : M64) (pa : Nat → Nat) : List (Nat × Nat) := (activeLanes e m.pred).map fun l => (l, pa l)

/-- What a RED's lane brings (R325). -/
def redVal (e : Issuer) (m : M64) (l : Nat) : Nat :=
  regsVal e m.data (widthRegs m.width) l (if widthBytes m.width = 8 then .b64 else .b32)

/-- What ST adds to the pack's buffer, and what RED adds (R112). -/
def bufferedSt (e : Issuer) (m : M64) (as : List (Nat × Nat)) : List BufOp :=
  as.map fun a => .mem a.2 (leBytes (widthBytes m.width) (regsVal e m.data (widthRegs m.width) a.1))

def bufferedRed (e : Issuer) (m : M64) (as : List (Nat × Nat)) : List BufOp :=
  as.map fun a => .red a.2 (widthBytes m.width) (BitVec.ofNat 5 (atomOp m)) (redVal e m a.1)

/-- How ST and RED issue, past the checks of their operands and addresses: into the buffer, or by a memory that may hold them (R104). -/
def storeAct (s : State) (e : Issuer) (as : List (Nat × Nat)) (ops : List BufOp) (perform : State) : Act :=
  if buffered e then bufferAct s e ops
  else
    match memHold s e (as.map (·.2)) with
    | some h => holdAct s e h
    | none => .ok perform {}

variable {pa : Nat → Nat}

theorem exec_st (hm : StoreMeets s e m pa) : ∃ body, exec (.st m) s = issue s 8 .last false body ∧
    body e = storeAct s e (storeAccesses e m pa) (bufferedSt e m (storeAccesses e m pa))
      (storeLanes (chargeLanes s e m (widthBytes m.width) (storeAccesses e m pa)) e (widthBytes m.width)
        (regsVal e m.data (widthRegs m.width)) (storeAccesses e m pa)) := by
  refine ⟨_, rfl, ?_⟩
  dsimp only
  rw [firstCause_pair hm.base hm.data]
  dsimp only
  rw [m64Bytes, xlate_lanes hm.lanes, missed_ok, reached_ok]
  rfl

theorem exec_red (hm : StoreMeets s e m pa) : ∃ body, exec (.red m) s = issue s 8 .last false body ∧
    body e = storeAct s e (storeAccesses e m pa) (bufferedRed e m (storeAccesses e m pa))
      (let o := laneOrder (chargeLanes s e m (widthBytes m.width) (storeAccesses e m pa)) e (widthBytes m.width) (storeAccesses e m pa)
       o.1.foldl (redLane e (widthBytes m.width) (atomOp m) (redVal e m)) o.2) := by
  refine ⟨_, rfl, ?_⟩
  dsimp only
  rw [firstCause_pair hm.base hm.data]
  dsimp only
  rw [m64Bytes, xlate_lanes hm.lanes, missed_ok, reached_ok]
  rfl

/-! ## Stores that are performed -/

/-- A store outside deterministic user code, at a memory that does not hold it, retires with its accesses performed. -/
theorem store_performs {i : Instr} {as : List (Nat × Nat)} {ops : List BufOp} {t : State} (h : IssuesAlone s e)
    (hbuf : buffered e = false) (hh : memHold s e (as.map (·.2)) = none)
    (hx : ∃ body, exec i s = issue s 8 .last false body ∧ body e = storeAct s e as ops t) : exec i s = .next (retire t e 8 {}) := by
  obtain ⟨body, hx, hb⟩ := hx
  refine retires hx h.1 (burstOk_alone h.2 _) (.inl rfl) (hb.trans ?_)
  rw [storeAct, hbuf, if_neg Bool.false_ne_true, hh]

/-! ## Stores into the buffer (R112, R321) -/

theorem bufferAct_fits {ops : List BufOp} (h : issuerAt s e.ref = some e) (hf : bufBytes e.p.buf + bufBytes ops ≤ 32768 ∨ e.p.buf = []) :
    bufferAct s e ops = .ok (setBlock s (setPack e.b { e.p with buf := e.p.buf ++ ops })) {} := by
  have hn : ¬ (32768 < bufBytes e.p.buf + bufBytes ops ∧ (!e.p.buf.isEmpty) = true) := by
    rintro ⟨hlt, hne⟩
    rcases hf with hle | hnil
    · omega
    · rw [hnil] at hne; exact absurd hne Bool.false_ne_true
  rw [bufferAct, if_neg hn, refresh_of h, putPack_eq (issuerAt_eq.1 h).2.1]

theorem bufferAct_full {ops : List BufOp} (hlt : 32768 < bufBytes e.p.buf + bufBytes ops) (hne : e.p.buf ≠ []) :
    bufferAct s e ops = forceRound s e := by
  rw [bufferAct, if_pos ⟨hlt, by simpa using hne⟩]

/-- The end of a quantum changes the issuer's pack alone. -/
theorem packIs_forceRound (h : issuerAt s e.ref = some e) : ∃ t, forceRound s e = .own t ∧
    PackIs s t e (setFrag { e.p with ended := true } e.ref.frag
      { e.f with st := .waiting, wait := .round, since := s.tick, pub := true }) := by
  refine ⟨_, rfl, ?_⟩
  rw [putPack_eq (issuerAt_eq.1 h).2.1]
  exact packIs_set h rfl rfl

/-- A store in deterministic user code joins the pack's buffer, or ends the quantum where the buffer would pass 32 KiB. -/
theorem store_buffers {i : Instr} {as : List (Nat × Nat)} {ops : List BufOp} {t : State} (h : IssuesAlone s e) (hbuf : buffered e = true)
    (hx : ∃ body, exec i s = issue s 8 .last false body ∧ body e = storeAct s e as ops t) :
    (bufBytes e.p.buf + bufBytes ops ≤ 32768 ∨ e.p.buf = [] →
      Completes i s e 8 fun t r => r = {} ∧ PackIs s t e { e.p with buf := e.p.buf ++ ops }) ∧
    (32768 < bufBytes e.p.buf + bufBytes ops → e.p.buf ≠ [] → ∃ t, exec i s = .next t ∧
      PackIs s t e (setFrag { e.p with ended := true } e.ref.frag
        { e.f with st := .waiting, wait := .round, since := s.tick, pub := true })) := by
  obtain ⟨body, hx, hb⟩ := hx
  rw [storeAct, hbuf, if_pos rfl] at hb
  have hlast := burstOk_alone h.2 .last
  refine ⟨fun hf => ?_, fun hlt hne => ?_⟩
  · exact completes_pack hx h.1 hlast (.inl rfl) (hb.trans (bufferAct_fits h.1.2 hf)) rfl rfl rfl fun hp => ⟨rfl, hp⟩
  · obtain ⟨t, ht, hp⟩ := packIs_forceRound h.1.2
    exact ⟨t, owns hx h.1 hlast (.inl rfl) (hb.trans ((bufferAct_full hlt hne).trans ht)), hp⟩

end

/-- Settles O19: past their checks ST and RED perform their accesses in the order of `laneOrder`, after the charge of their lanes. -/
theorem storesLaneByLane : Obligations.StoresLaneByLane := by
  unfold Obligations.StoresLaneByLane
  intro s e m h hbuf act n k rval hbase pa hreach hdata as order parts
  have hm : StoreMeets s e m pa := ⟨hbase, hdata, hreach.1⟩
  have hh : memHold s e ((storeAccesses e m pa).map (·.2)) = none := by
    rw [storeAccesses, List.map_map]
    exact hreach.2
  have hcharged := charged_chargeLanes s e m n as
  refine ⟨fun v => ?_, ⟨_, hcharged, store_performs h hbuf hh (exec_st hm)⟩, ⟨_, hcharged, store_performs h hbuf hh (exec_red hm)⟩⟩
  obtain ⟨hperm, hfree⟩ := laneOrder_spec v e n as
  exact ⟨hperm, fun hap => congrArg Prod.fst (laneOrder_apart (activeLanes_nodup e m.pred) hap), hfree⟩

/-- Settles O22: past their checks ST and RED hand their lanes' stores to the buffer. -/
theorem bufferedStores : Obligations.BufferedStores := by
  unfold Obligations.BufferedStores
  intro s e m h hbuf act n val rval hdata pa hbase hlanes
  have hm : StoreMeets s e m pa := ⟨hbase, hdata, hlanes⟩
  have hst := store_buffers h hbuf (exec_st hm)
  have hred := store_buffers h hbuf (exec_red hm)
  rw [bufferedSt, storeAccesses, List.map_map] at hst
  rw [bufferedRed, storeAccesses, List.map_map] at hred
  simp only [List.forall_mem_cons]
  exact ⟨hst, hred, List.forall_mem_nil _⟩

end Sys2Proof.Proofs
end

section
/-! O28: WAITC (R190 to R192, R341). -/

namespace Sys2Proof.Proofs

open Sys2Proof Sys2Proof.Machine Sys2Proof.Safety Sys2Proof.Laws

theorem linesMoved_armOn (pa : Nat) (s : State) : LinesMoved s (armOn pa s) := by
  unfold armOn
  split
  · exact linesMoved_refl s
  · exact linesMoved_recallLine s pa

/-- The word that WAITC compares with: a uniform register group's, or its operand's (R341). -/
def waitcOperand (e : Issuer) (m : M64) : Nat :=
  match m.data with
  | .s _ => regsVal e m.data (widthRegs m.width) 0
  | d => opndVal e (opn d (if widthBytes m.width = 8 then .b64 else .b32)) 0

/-- The operands of WAITC can be read. -/
structure WaitcReads (e : Issuer) (m : M64) : Prop where
  base : operandCause e (activeLanes e m.pred) [baseOpnd m (m.ext == 1)] .null 1 = none
  data : regsCause e (activeLanes e m.pred) m.data (widthRegs m.width) = none

section
variable {s : State} {e : Issuer} {m : M64}

/-! ## The end of a wait whose test was made in a state where lines have moved -/

section
variable {i : Instr} {body : Issuer → Act} {holds : Bool} {w : Wait} {u v : State} (hx : exec i s = issue s 8 .never false body)
  (h : IssuesAlone s e) (hu : LinesMoved s u) (ha : body e = meetOrWait u e holds w v)
include hx h hu ha

theorem meetOrWait_meets (hv : LinesMoved u v) (hh : holds = true) : Completes i s e 8 fun t r => r = {} ∧ Stirred v t := by
  obtain ⟨b, -, -, hi⟩ := linesMoved_issuer (linesMoved_trans hu hv) h.1.2
  rw [meetOrWait, if_pos hh] at ha
  exact completes_synced hx h.1 (burstOk_alone h.2 _) (.inl rfl) ha hi fun hst => ⟨rfl, hst⟩

theorem meetOrWait_waits (hh : holds = false) : ∃ t, exec i s = .next t ∧ PackIs u t e (setFrag e.p e.ref.frag
    { e.f with st := .waiting, wait := w, since := s.tick, gang := 0 }) := by
  obtain ⟨b, -, -, hi⟩ := linesMoved_issuer hu h.1.2
  have htick : u.tick = s.tick := by rw [hu.device]
  have ha' := ha.trans (if_neg (by rw [hh]; exact Bool.false_ne_true))
  refine ⟨_, owns hx h.1 (burstOk_alone h.2 _) (.inl rfl) ha', ?_⟩
  rw [refresh_of hi, putFrag_eq hi, htick]
  obtain ⟨hframe, hpack⟩ := packIs_set (e := { e with b := b }) hi
    (p := setFrag e.p e.ref.frag { e.f with st := .waiting, wait := w, since := s.tick, gang := 0 }) rfl rfl
  exact ⟨hframe, hpack⟩

end

/-! ## The body of WAITC -/

/-- A readable word of global memory is tested as it is seen before the line on it is recalled. -/
theorem exec_waitc_global (hr : WaitcReads e m) (hext : m.ext ≠ 1) (ht : needsTurn s e = false) {pa : Nat}
    (hal : m64Addr e m (m.ext == 1) 0 % widthBytes m.width = 0)
    (hxl : xlate s e.l.ctx (inSup e.f) .read (m64Addr e m (m.ext == 1) 0) = .ok pa)
    (hp : isReg pa = true ∨ gPoisoned s pa (widthBytes m.width) = false) :
    ∃ body, exec (.waitc m) s = issue s 8 .never false body ∧ body e = meetOrWait (armOn pa s) e
      (waitcTest m.sel.toNat (widthBytes m.width) (seeNat s pa (widthBytes m.width)) (waitcOperand e m))
      (.word pa (widthBytes m.width) m.sel.toNat (waitcOperand e m) (monitorFree s pa)) (acquired (armOn pa s) e) := by
  have hpois : (!isReg pa && gPoisoned s pa (widthBytes m.width)) = false := by
    rcases hp with hreg | hclean
    · rw [hreg]; rfl
    · rw [hclean, Bool.and_false]
  refine ⟨_, rfl, ?_⟩
  dsimp only
  rw [firstCause_pair hr.base hr.data]
  dsimp only
  rw [if_neg (by simpa using hext), m64Bytes, laneXlate_ok hal hxl]
  dsimp only
  rw [hpois, if_neg Bool.false_ne_true, waitMonitored, ht, if_neg Bool.false_ne_true]
  rfl

/-- A readable word of the stash is tested once its lines are there. -/
theorem exec_waitc_stash (h : issuerAt s e.ref = some e) (hr : WaitcReads e m) (hext : m.ext = 1) {a n : Nat}
    (hn : n = widthBytes m.width) (haddr : a = m64Addr e m (m.ext == 1) 0) (hck : laneStashCheck s e false n n a = none)
    (hst : stashStall s e n [a] = none) (hf : fillHold s e [(a, n)] = none) {b : Block}
    (hb : getBlock (fillLines s e [(a, n)]) e.ref.blk = some b) (hp : stashPoisoned b a n = false)
    (ht : needsTurn (fillLines s e [(a, n)]) e = false) :
    ∃ body, exec (.waitc m) s = issue s 8 .never false body ∧ body e = meetOrWait (fillLines s e [(a, n)]) e
      (waitcTest m.sel.toNat n (stashReadNat b a n) (waitcOperand e m)) (.stashWord a n m.sel.toNat (waitcOperand e m))
      (fillLines s e [(a, n)]) := by
  subst hn haddr
  refine ⟨_, rfl, ?_⟩
  dsimp only
  rw [firstCause_pair hr.base hr.data]
  dsimp only
  rw [if_pos (by simpa using hext), m64Bytes, hck]
  dsimp only
  rw [hst, hf]
  dsimp only
  rw [refresh_linesMoved (linesMoved_fillLines s e _) h hb, hp, if_neg Bool.false_ne_true, ht, if_neg Bool.false_ne_true]
  rfl

end

/-- Settles O28: WAITC is a wait whose test is made, for a word of global memory, before its line is recalled, for a word of the stash
after its lines are filled. -/
theorem wordWaits : Obligations.WordWaits := by
  unfold Obligations.WordWaits
  intro s e m h act n a x hbase hdata ht
  have hr : WaitcReads e m := ⟨hbase, hdata⟩
  refine ⟨?_, fun hext hck hst hf u b hu hb hp hturn => ?_⟩
  · intro hext pa hal hxl hp u
    obtain ⟨body, hx, hbody⟩ := exec_waitc_global hr hext ht hal hxl hp
    have hm := linesMoved_armOn pa s
    exact ⟨hm, meetOrWait_meets hx h hm hbody (linesMoved_charged (charged_acquired _ e)), meetOrWait_waits hx h hm hbody⟩
  · subst hu
    obtain ⟨body, hx, hbody⟩ := exec_waitc_stash h.1.2 hr hext rfl rfl hck hst hf hb hp hturn
    have hm := linesMoved_fillLines s e [(a, n)]
    exact ⟨hm, meetOrWait_meets hx h hm hbody (linesMoved_refl _), meetOrWait_waits hx h hm hbody⟩

end Sys2Proof.Proofs
end

section
/-! O32: APPEND and DECLINE (R116, R117, R349). -/

namespace Sys2Proof.Proofs

open Sys2Proof Sys2Proof.Machine Sys2Proof.Safety Sys2Proof.Laws

/-- The issuer after a change of its launch that keeps the launch's number. -/
theorem issuerAt_setLaunch {s : State} {e : Issuer} (h : issuerAt s e.ref = some e) {l : Launch} (hl : l.lid = e.l.lid) :
    issuerAt (setLaunch s l) e.ref = some { e with l := l } := by
  obtain ⟨h0, h1, h2, h3, h4⟩ := issuerAt_eq.1 h
  exact issuerAt_eq.2 ⟨h0, h1, h2, getLaunch_setLaunch h3 (hl.trans (getLaunch_lid h3)), h4⟩

/-- The streams after a block's claim: its own has passed the items, every other is as it was. -/
theorem claimStream_streams (l : Launch) (k linear n j : Nat) : spGet {} (claimStream l k linear n).1.streams j =
    if j = k then { base := (spGet {} l.streams k).base + BitVec.ofNat 64 n, claimed := insNat (spGet {} l.streams k).claimed linear }
    else spGet {} l.streams j := spGet_spPut _ _ _ _ _

section
variable {s : State} {e : Issuer} {g : Gen} {n : Nat}

/-- APPEND and DECLINE read their operands, and can write their result. -/
structure AppendMeets (e : Issuer) (g : Gen) : Prop where
  operands : uniCause e [opn32 g.a, opn32 g.b] = none
  result : dstCause e (maskLanes e.p e.f) g.dst 2 = none

theorem appendAct_stream (hm : AppendMeets e g) (hk : 15 < uniVal e g.a) : appendAct s e g n = .trap (trapAll e [] 0x0C) := by
  rw [appendAct, firstCause_pair hm.result hm.operands]
  exact if_pos hk

/-- What an append comes to in its pack's turn, on a stream that there is: misuse, a wait for its block's turn, or its claim, which is
the end of a synchronising operation. -/
theorem appendAct_turn (hm : AppendMeets e g) (hk : uniVal e g.a ≤ 15) (ht : needsTurn s e = false) : ∃ claim, appendAct s e g n =
    (if (spGet {} e.l.streams (uniVal e g.a)).claimed.contains e.b.linear || appendPending e (uniVal e g.a) then .trap (trapAll e [] 0x0C)
     else if !appendTurn e.l (uniVal e g.a) e.b.linear then .wait .waiting (.append (uniVal e g.a)) else claim) ∧
    ∀ u r, sameResult (setLaunch s (claimStream e.l (uniVal e g.a) e.b.linear n).1) e g.dst g.nowb 2
      (spGet {} e.l.streams (uniVal e g.a)).base.toNat = .ok u r → claim = .ok (syncDone u e) r := by
  rw [appendAct, firstCause_pair hm.result hm.operands]
  dsimp only
  rw [if_neg (by omega), ht, if_neg Bool.false_ne_true]
  refine ⟨_, rfl, fun u r hu => ?_⟩
  dsimp only [claimStream] at hu ⊢
  rw [hu]

theorem appendAct_misuse (hm : AppendMeets e g) (hk : uniVal e g.a ≤ 15) (ht : needsTurn s e = false)
    (hc : e.b.linear ∈ (spGet {} e.l.streams (uniVal e g.a)).claimed ∨ appendPending e (uniVal e g.a) = true) :
    appendAct s e g n = .trap (trapAll e [] 0x0C) := by
  obtain ⟨claim, heq, -⟩ := appendAct_turn (n := n) hm hk ht
  rw [heq, if_pos]
  rw [Bool.or_eq_true, List.contains_iff_mem]
  exact hc

variable (hm : AppendMeets e g) (hk : uniVal e g.a ≤ 15) (ht : needsTurn s e = false)
  (hc : e.b.linear ∉ (spGet {} e.l.streams (uniVal e g.a)).claimed) (hp : appendPending e (uniVal e g.a) = false)
include hm hk ht hc hp

theorem appendAct_waits (hn : appendTurn e.l (uniVal e g.a) e.b.linear = false) :
    appendAct s e g n = .wait .waiting (.append (uniVal e g.a)) := by
  obtain ⟨claim, heq, -⟩ := appendAct_turn (n := n) hm hk ht
  rw [heq, hp, hn, Bool.or_false, if_neg (by simpa using hc)]
  rfl

theorem appendAct_claims (hn : appendTurn e.l (uniVal e g.a) e.b.linear = true) {u : State} {r : Retire}
    (hu : sameResult (setLaunch s (claimStream e.l (uniVal e g.a) e.b.linear n).1) e g.dst g.nowb 2
      (spGet {} e.l.streams (uniVal e g.a)).base.toNat = .ok u r) : appendAct s e g n = .ok (syncDone u e) r := by
  obtain ⟨claim, heq, hclaim⟩ := appendAct_turn (n := n) hm hk ht
  rw [heq, hp, hn, Bool.or_false, if_neg (by simpa using hc), hclaim u r hu]
  rfl

end

/-- What an append of n items on a stream comes to. -/
theorem append_effect {i : Instr} {s : State} {e : Issuer} {g : Gen} {n : Nat} {body : Issuer → Act}
    (hx : exec i s = issue s 8 .never false body) (hbody : body e = appendAct s e g n) (h : IssuesAlone s e) (hm : AppendMeets e g) :
    let k := uniVal e g.a
    let t := spGet {} e.l.streams k
    (15 < k → exec i s = .next (takeTrap s e (trapAll e [] 0x0C))) ∧
    (k ≤ 15 → needsTurn s e = false →
      ((e.b.linear ∈ t.claimed ∨ appendPending e k = true) → exec i s = .next (takeTrap s e (trapAll e [] 0x0C))) ∧
      (e.b.linear ∉ t.claimed → appendPending e k = false →
        (appendTurn e.l k e.b.linear = false → Waits i s e .waiting (.append k)) ∧
        (appendTurn e.l k e.b.linear = true → Completes i s e 8 fun m r => ∃ l u, Stirred u m ∧
          l = { e.l with streams := l.streams } ∧
          (∀ j, spGet {} l.streams j = if j = k then { base := t.base + BitVec.ofNat 64 n, claimed := insNat t.claimed e.b.linear }
            else spGet {} e.l.streams j) ∧
          ResultOnly (setLaunch s l) u e g.dst g.nowb 2 (maskLanes e.p e.f) (fun _ => t.base.toNat) r))) := by
  intro k t
  have hb := burstOk_alone h.2 .never
  refine ⟨fun hk => traps hx h.1 hb (.inl rfl) (hbody.trans (appendAct_stream hm hk)), fun hk ht =>
    ⟨fun hc => traps hx h.1 hb (.inl rfl) (hbody.trans (appendAct_misuse hm hk ht hc)), fun hc hp => ⟨fun hn => ?_, fun hn => ?_⟩⟩⟩
  · exact waits hx h.1 hb (.inl rfl) (hbody.trans (appendAct_waits hm hk ht hc hp hn))
  · exact completes_syncedResult hx h.1 hb (.inl rfl)
      (issuerAt_setLaunch (l := (claimStream e.l k e.b.linear n).1) h.1.2 rfl)
      (fun u r hu => hbody.trans (appendAct_claims hm hk ht hc hp hn hu))
      fun u m r hr hst => ⟨_, u, hst, rfl, claimStream_streams e.l k e.b.linear n, hr⟩

/-- Settles O32: APPEND claims the items that its operand counts, DECLINE none. -/
theorem orderedAppend : Obligations.OrderedAppend := by
  unfold Obligations.OrderedAppend
  intro s e g h hu hd k t
  simp only [List.forall_mem_cons]
  exact ⟨append_effect rfl rfl h ⟨hu, hd⟩, append_effect rfl rfl h ⟨hu, hd⟩, List.forall_mem_nil _⟩

end Sys2Proof.Proofs
end

section
/-! O46: TASKDEF, TASKDEP and KSTAT (R94, R95, R443, R444, R446). -/

namespace Sys2Proof.Proofs

open Sys2Proof Sys2Proof.Machine Sys2Proof.Safety Sys2Proof.Laws

/-! ## Classes and counters -/

theorem spFind?_putClass (s : State) (e : Issuer) (n w r c : Nat) : spFind? (putClass s e n w r).classes c =
    if c = n then (if r = 0 then some { ctx := e.l.ctx, region := e.l.region, packet := BitVec.ofNat 1024 w } else none)
    else spFind? s.classes c := by
  unfold putClass
  by_cases hr : r = 0
  · simp only [hr, if_true]
    exact spFind?_spSet _ _ _ _
  · simp only [hr, if_false]
    exact spFind?_spDel _ _ _

theorem counterAt_putCounter (s : State) (n : Nat) (c : DepCounter) : counterAt (putCounter s n c) n = c :=
  (spGet_spPut _ _ _ _ _).trans (if_pos rfl)

theorem counterZero_putCounter (s : State) (n : Nat) (c : DepCounter) :
    counterZero (putCounter s n c) n = c.cls.elim (putCounter s n c) (spawnTask (putCounter s n c) n) := by
  rw [counterZero, counterAt_putCounter]
  cases c.cls <;> rfl

/-- A set to zero spawns a task of its class at once. -/
theorem setCounter_eq (s : State) (e : Issuer) (n v c : Nat) : setCounter s e n v c =
    (let x : DepCounter := { value := BitVec.ofNat 32 v, cls := some c, ctx := some e.l.ctx }
     if v = 0 then spawnTask (putCounter s n x) n c else putCounter s n x) := by
  unfold setCounter
  split
  · exact counterZero_putCounter s n _
  · rfl

/-- A counter that does not come down to zero only takes its value. -/
theorem counterTo_up (s : State) {n x : Nat} (hx : x < 2 ^ 32) (hle : (counterAt s n).value.toNat ≤ x) :
    counterTo s n x = putCounter s n { counterAt s n with value := BitVec.ofNat 32 x } := by
  refine if_neg ?_
  rintro ⟨hne, h0⟩
  have : x % 2 ^ 32 = 0 := congrArg BitVec.toNat h0
  exact hne (BitVec.eq_of_toNat_eq (by simp; omega))

/-- A counter that comes down takes its value; from another value to zero it spawns a task of its class, if it is bound to one. -/
theorem counterTo_sub (s : State) {n v : Nat} (hv : v ≤ (counterAt s n).value.toNat) :
    counterTo s n ((counterAt s n).value.toNat - v) =
      (let t := putCounter s n { counterAt s n with value := BitVec.ofNat 32 ((counterAt s n).value.toNat - v) }
       if v = (counterAt s n).value.toNat ∧ v ≠ 0 then (counterAt s n).cls.elim t fun c => spawnTask t n c else t) := by
  have hlt := (counterAt s n).value.isLt
  have hzero : (counterAt s n).value ≠ 0 ∧ BitVec.ofNat 32 ((counterAt s n).value.toNat - v) = 0#32 ↔
      v = (counterAt s n).value.toNat ∧ v ≠ 0 := by
    rw [ne_eq, ← BitVec.toNat_inj, ← BitVec.toNat_inj]
    simp only [BitVec.toNat_ofNat, BitVec.ofNat_eq_ofNat]
    omega
  unfold counterTo
  simp only [hzero]
  split
  · exact counterZero_putCounter s n _
  · rfl

/-! ## Effects that leave the issuer as it is -/

theorem issuerAt_putClass {s : State} {r : FragRef} {e : Issuer} (h : issuerAt s r = some e) (c n k : Nat) :
    issuerAt (putClass s e c n k) r = some e := h

theorem issuerAt_putCounter {s : State} {r : FragRef} {e : Issuer} (h : issuerAt s r = some e) (n : Nat) (c : DepCounter) :
    issuerAt (putCounter s n c) r = some e := h

theorem spawnTask_same (s : State) (n c : Nat) : (spawnTask s n c).blocks = s.blocks ∧ (spawnTask s n c).launches = s.launches := by
  unfold spawnTask
  split
  · unfold startTask
    split <;> exact ⟨rfl, rfl⟩
  · exact ⟨rfl, rfl⟩

theorem issuerAt_spawnTask {s : State} {r : FragRef} {e : Issuer} (h : issuerAt s r = some e) (n c : Nat) :
    issuerAt (spawnTask s n c) r = some e :=
  (issuerAt_congr (spawnTask_same s n c).1 (spawnTask_same s n c).2 r).trans h

section
variable {s : State} {e : Issuer} {g : Gen}

/-! ## TASKDEF -/

theorem exec_taskdef (hd : dstCause e (maskLanes e.p e.f) g.dst 1 = none) (hu : uniCause e [opn32 g.a, uniPair g.b] = none)
    (hn : uniVal e g.a ≤ 255) {ps : List (Nat × Nat)} (hps : xlateRange s e.l.ctx (inSup e.f) .read (uniWide e g.b) 128 = .ok ps)
    (hh : readHold s e (ps.map (·.2)) = none) :
    ∃ body, exec (.taskdef g) s = issue s 8 .never false body ∧
      body e = (let w := ofLeBytes (pagesRead s ps (uniWide e g.b) 128)
        sameResult (putClass (chargeMem s e.l.region (pagesPa ps (uniWide e g.b)) 128) e (uniVal e g.a) w (templateReason s e w)) e
          g.dst g.nowb 1 (templateReason s e w)) := by
  refine ⟨_, rfl, ?_⟩
  dsimp only
  rw [firstCause_pair hd hu]
  dsimp only
  rw [if_neg (by omega), hps]
  dsimp only
  rw [hh]

/-- TASKDEF of a template that can be read: its class is registered, or removed where the template is refused. -/
theorem taskdef_effect (h : IssuesAlone s e) (hd : dstCause e (maskLanes e.p e.f) g.dst 1 = none)
    (hu : uniCause e [opn32 g.a, uniPair g.b] = none) (hn : uniVal e g.a ≤ 255) {ps : List (Nat × Nat)}
    (hps : xlateRange s e.l.ctx (inSup e.f) .read (uniWide e g.b) 128 = .ok ps) (hh : readHold s e (ps.map (·.2)) = none) :
    let w := ofLeBytes (pagesRead s ps (uniWide e g.b) 128)
    Completes (.taskdef g) s e 8 fun m r => ∃ u t, Charged s u ∧ t = { u with classes := t.classes } ∧
      (∀ c, spFind? t.classes c = if c = uniVal e g.a then
        (if templateReason s e w = 0 then some { ctx := e.l.ctx, region := e.l.region, packet := BitVec.ofNat 1024 w } else none)
        else spFind? s.classes c) ∧
      ResultOnly t m e g.dst g.nowb 1 (maskLanes e.p e.f) (fun _ => templateReason s e w) r := by
  intro w
  obtain ⟨body, hx, hbody⟩ := exec_taskdef hd hu hn hps hh
  have hcharged := charged_chargeMem s e.l.region (pagesPa ps (uniWide e g.b)) 128
  generalize chargeMem s e.l.region (pagesPa ps (uniWide e g.b)) 128 = u at hcharged hbody
  have hi := issuerAt_putClass ((charged_issuer hcharged e.ref).trans h.1.2) (uniVal e g.a) w (templateReason s e w)
  have hcls : s.classes = u.classes := by rw [hcharged.device]
  exact completes_result hx h.1 (burstOk_alone h.2 _) (.inl rfl) (b := e.b) (l := e.l) hi hbody fun m r hr =>
    ⟨u, _, hcharged, rfl, fun c => hcls ▸ spFind?_putClass u e _ w _ c, hr⟩

/-! ## TASKDEP -/

/-- A TASKDEP issues in its turn with operands that can be read, on a counter that there is. -/
structure DepMeets (s : State) (e : Issuer) (g : Gen) : Prop where
  issues : IssuesAlone s e
  result : dstCause e (maskLanes e.p e.f) g.dst 1 = none
  operands : uniCause e ([opn32 g.a, opn32 g.b] ++ if g.c == .unused then [] else [opn32 g.c]) = none
  turn : needsTurn s e = false
  counter : uniVal e g.a ≤ 1023

/-- What a TASKDEP completes with: its change, and the counter's old value as the result of a synchronising operation. -/
def DepLeaves (i : Instr) (s : State) (e : Issuer) (g : Gen) (t : State) : Prop := Completes i s e 8 fun m r =>
  ∃ u, ResultOnly t u e g.dst g.nowb 1 (maskLanes e.p e.f) (fun _ => (counterAt s (uniVal e g.a)).value.toNat) r ∧ Stirred u m

theorem depAct_changes {f : Nat → Nat → Except Nat State} {t u : State} {r : Retire} (hm : DepMeets s e g)
    (hf : f (uniVal e g.a) (uniVal e g.b) = .ok t)
    (hr : sameResult t e g.dst g.nowb 1 (counterAt s (uniVal e g.a)).value.toNat = .ok u r) :
    depAct s e g f = .ok (syncDone u e) r := by
  unfold depAct
  dsimp only
  rw [firstCause_pair hm.result hm.operands]
  dsimp only
  rw [hm.turn, if_neg Bool.false_ne_true, if_neg (Nat.not_lt.2 hm.counter), hf]
  dsimp only
  rw [hr]

/-- A TASKDEP whose change leaves the issuer in its place. -/
theorem dep_leaves {i : Instr} {f : Nat → Nat → Except Nat State} {t : State} {body : Issuer → Act} (hm : DepMeets s e g)
    (hx : exec i s = issue s 8 .never false body) (hbody : body e = depAct s e g f)
    (hf : f (uniVal e g.a) (uniVal e g.b) = .ok t) (hi : issuerAt t e.ref = some e) : DepLeaves i s e g t :=
  completes_syncedResult hx hm.issues.1 (burstOk_alone hm.issues.2 _) (.inl rfl) (b := e.b) (l := e.l) hi
    (fun _ _ hr => hbody.trans (depAct_changes hm hf hr)) fun u _ _ hr hst => ⟨u, hr, hst⟩

theorem taskdepSet_effect (hm : DepMeets s e g) (ho : othersClass s e (uniVal e g.c) = false) (hc : uniVal e g.c ≤ 255) :
    let n := uniVal e g.a
    let c : DepCounter := { value := BitVec.ofNat 32 (uniVal e g.b), cls := some (uniVal e g.c), ctx := some e.l.ctx }
    DepLeaves (.taskdepSet g) s e g
      (if uniVal e g.b = 0 then spawnTask (putCounter s n c) n (uniVal e g.c) else putCounter s n c) := by
  intro n c
  have hi := issuerAt_putCounter hm.issues.1.2 n c
  refine dep_leaves hm rfl rfl ?_ ?_
  · dsimp only
    rw [ho, if_neg Bool.false_ne_true, if_neg (Nat.not_lt.2 hc)]
    exact congrArg Except.ok (setCounter_eq s e n (uniVal e g.b) (uniVal e g.c))
  · split
    · exact issuerAt_spawnTask hi _ _
    · exact hi

theorem taskdepAdd_effect (hm : DepMeets s e g) (ho : othersCounter s e (uniVal e g.a) = false)
    (hlt : (counterAt s (uniVal e g.a)).value.toNat + uniVal e g.b < 2 ^ 32) :
    let n := uniVal e g.a
    DepLeaves (.taskdepAdd g) s e g
      (putCounter s n { counterAt s n with value := BitVec.ofNat 32 ((counterAt s n).value.toNat + uniVal e g.b) }) := by
  intro n
  refine dep_leaves hm rfl rfl ?_ (issuerAt_putCounter hm.issues.1.2 n _)
  rw [ho, if_neg Bool.false_ne_true, if_neg (Nat.not_le.2 hlt)]
  exact congrArg Except.ok (counterTo_up s hlt (Nat.le_add_right _ _))

theorem taskdepSub_effect (hm : DepMeets s e g) (ho : othersCounter s e (uniVal e g.a) = false)
    (hle : uniVal e g.b ≤ (counterAt s (uniVal e g.a)).value.toNat) :
    let n := uniVal e g.a
    let t := putCounter s n { counterAt s n with value := BitVec.ofNat 32 ((counterAt s n).value.toNat - uniVal e g.b) }
    DepLeaves (.taskdepSub g) s e g (if uniVal e g.b = (counterAt s n).value.toNat ∧ uniVal e g.b ≠ 0 then
      (counterAt s n).cls.elim t fun c => spawnTask t n c else t) := by
  intro n t
  have hi : issuerAt t e.ref = some e := issuerAt_putCounter hm.issues.1.2 n _
  refine dep_leaves hm rfl rfl ?_ ?_
  · rw [ho, if_neg Bool.false_ne_true, if_neg (Nat.not_lt.2 hle)]
    exact congrArg Except.ok (counterTo_sub s hle)
  · split
    · cases (counterAt s n).cls with
      | none => exact hi
      | some c => exact issuerAt_spawnTask hi n c
    · exact hi

/-! ## KSTAT -/

theorem kstat_effect (h : IssuesAlone s e) (hd : dstCause e (maskLanes e.p e.f) g.dst 1 = none)
    (hu : uniCause e (if g.a == .unused then [] else [opn32 g.a]) = none) {x : Nat}
    (hx : kstatValue s e g.opx.toNat (uniVal e g.a) = .ok x) : Completes (.kstat g) s e 8 fun m r =>
      ResultOnly s m e g.dst g.nowb 1 (maskLanes e.p e.f) (fun _ => if e.l.det then 0 else x % 2 ^ 32) r := by
  refine completes_result (i := .kstat g) rfl h.1 (burstOk_alone h.2 _) (.inl rfl) (b := e.b) (l := e.l) h.1.2 ?_ fun m r hr => hr
  dsimp only
  rw [firstCause_pair hd hu]
  dsimp only
  rw [hx]
  dsimp only
  cases e.l.det <;> rfl

end

/-- Settles O46: TASKDEF and KSTAT complete with their result, TASKDEP with its change of the counter too. -/
theorem tasks : Obligations.Tasks := by
  unfold Obligations.Tasks
  intro s e g h hd n v old leaves
  refine ⟨fun hu hn ps hps hh => taskdef_effect h hd hu hn hps hh, fun hu ht hn => ?_, fun hu x hx => kstat_effect h hd hu hx⟩
  have hm : DepMeets s e g := ⟨h, hd, hu, ht, hn⟩
  exact ⟨fun ho hc => taskdepSet_effect hm ho hc,
    fun ho => ⟨fun hlt => taskdepAdd_effect hm ho hlt, fun hle => taskdepSub_effect hm ho hle⟩⟩

end Sys2Proof.Proofs
end

section
/-! O48: NPOLL, LARM and LAUNCH (R83, R468 to R472). -/

namespace Sys2Proof.Proofs

open Sys2Proof Sys2Proof.Machine Sys2Proof.Safety Sys2Proof.Laws

theorem pagesRead_charged {s t : State} (h : Charged s t) (ps : List (Nat × Nat)) (n : Nat) :
    ∀ va, pagesRead t ps va n = pagesRead s ps va n := by
  induction n with
  | zero => exact fun _ => rfl
  | succ n ih => exact fun va => by rw [pagesRead, pagesRead, charged_byte h, ih]

/-! ## NPOLL -/

section
variable {s : State} {e : Issuer} {g : Gen} {c : Channel}

theorem pollEffect_empty (ps : List (Nat × Nat)) (va : Nat) (h : c.wr ≤ c.rd) : pollEffect s c ps va = (s, 0) := if_pos h

theorem pollEffect_record (ps : List (Nat × Nat)) (va : Nat) (h : c.rd < c.wr) : pollEffect s c ps va =
    (putChan s { c with rd := c.rd + 1, ovf := false },
     ofLeBytes (pagesRead s ps va 32) ||| if c.ovf then 2 ^ 30 else 0) := by
  rw [pollEffect, if_neg (by omega)]
  cases c.ovf <;> rfl

/-- The operands of NPOLL can be read, its result written, and it issues. -/
structure PollMeets (s : State) (e : Issuer) (g : Gen) : Prop where
  issues : IssuesAlone s e
  result : dstCause e (maskLanes e.p e.f) g.dst 8 = none
  operand : uniCause e [opn32 g.a] = none

/-- The channel that a poll names. -/
def polledChan (s : State) (e : Issuer) (g : Gen) : Option Channel := chanOf s e.l.ctx e.b.capbase.toNat (uniVal e g.a)

/-- The address of the next record of a channel's ring (R468). -/
def recordVa (c : Channel) : Nat := ceRing c.entry.toNat + 32 * (c.rd % 2 ^ ceRlog c.entry.toNat)

theorem npoll_noChannel (h : PollMeets s e g) (hc : polledChan s e g = none) :
    exec (.npoll g) s = .next (takeTrap s e (trapAll e [] 0x07)) := by
  refine traps rfl h.issues.1 (burstOk_alone h.issues.2 _) (.inl rfl) ?_
  dsimp only
  rw [firstCause_pair h.result h.operand]
  dsimp only
  rw [show chanOf s e.l.ctx e.b.capbase.toNat (uniVal e g.a) = none from hc]

theorem npoll_noRing (h : PollMeets s e g) (hc : polledChan s e g = some c) (hr : ceRlog c.entry.toNat = 0) :
    exec (.npoll g) s = .next (takeTrap s e (trapAll e [] 0x07)) := by
  refine traps rfl h.issues.1 (burstOk_alone h.issues.2 _) (.inl rfl) ?_
  dsimp only
  rw [firstCause_pair h.result h.operand]
  dsimp only
  rw [show chanOf s e.l.ctx e.b.capbase.toNat (uniVal e g.a) = some c from hc]
  exact if_pos hr

/-- A poll of a ring whose memory can be reached leaves what `pollEffect` reads, after the acquire of the wait that it covers. -/
theorem npoll_polls (h : PollMeets s e g) (hc : polledChan s e g = some c) (hr : ceRlog c.entry.toNat ≠ 0)
    (hs : (buffered e && e.l.strict) = false) (hround : needsRound e = false) {ps : List (Nat × Nat)}
    (hps : xlateRange s e.l.ctx (inSup e.f) .read (recordVa c) (if c.wr ≤ c.rd then 0 else 32) = .ok ps)
    (hh : memHold s e (ps.map (·.2)) = none) {t : State} {x : Nat} (hp : pollEffect (acquired s e) c ps (recordVa c) = (t, x))
    (ht : issuerAt t e.ref = some e) :
    Completes (.npoll g) s e 8 fun m r => ResultOnly t m e g.dst g.nowb 8 (maskLanes e.p e.f) (fun _ => x) r := by
  refine completes_result (i := .npoll g) rfl h.issues.1 (burstOk_alone h.issues.2 _) (.inl rfl) (b := e.b) (l := e.l) ht ?_
    fun m r hr => hr
  dsimp only
  rw [firstCause_pair h.result h.operand]
  dsimp only
  rw [show chanOf s e.l.ctx e.b.capbase.toNat (uniVal e g.a) = some c from hc]
  dsimp only
  rw [if_neg hr, hs, if_neg Bool.false_ne_true, hround, if_neg Bool.false_ne_true, ← recordVa, hps]
  dsimp only
  rw [hh]
  dsimp only
  rw [hp]

end

/-! ## LARM -/

section
variable {s : State} {e : Issuer} {g : Gen}

/-- The arms beside one of the issuer's context (R470). -/
def otherArms (s : State) (e : Issuer) (i : Nat) : List Arm := s.arms.filter fun a => !(a.ctx == e.l.ctx && a.idx == i)

theorem otherArms_charged {u : State} (h : Charged s u) (i : Nat) : otherArms u e i = otherArms s e i := by
  unfold otherArms
  rw [h.device]

/-- The operands of LARM can be read, and are in their ranges (R470). -/
structure ArmMeets (s : State) (e : Issuer) (g : Gen) : Prop where
  issues : IssuesAlone s e
  operand : uniCause e [opn32 g.a] = none
  group : regsCause e [] g.b 8 = none
  index : uniVal e g.a ≤ 63
  control : uniVal e (sPlus g.b 6) ≤ 1
  reserved : uniVal e (sPlus g.b 7) = 0

theorem ArmMeets.allowed (h : ArmMeets s e g) :
    ¬ (63 < uniVal e g.a ∨ 1 < uniVal e (sPlus g.b 6) ∨ uniVal e (sPlus g.b 7) ≠ 0) := by
  obtain ⟨-, -, -, hi, hc, h0⟩ := h
  omega

theorem larm_removes (h : ArmMeets s e g) (hva : uniWide e g.b = 0) :
    Completes (.larm g) s e 8 fun m r => r = {} ∧ m = { s with arms := otherArms s e (uniVal e g.a) } := by
  refine completes (e' := e) (m := { s with arms := otherArms s e (uniVal e g.a) }) (r := {}) rfl h.issues.1
    (burstOk_alone h.issues.2 _) (.inl rfl) ?_ h.issues.1.2 ⟨rfl, rfl⟩
  dsimp only
  rw [firstCause_pair h.operand h.group]
  dsimp only
  rw [if_neg h.allowed, if_pos hva]
  rfl

/-- A template that passes the checks of R83 replaces the arm. -/
theorem armEffect_passes {n : Nat} (hp : packetReason s (.leaf e.l.region) n = 0) (i tag mask : Nat) (keep : Bool) :
    armEffect s e i n tag mask keep = { s with
      arms := { ctx := e.l.ctx, idx := i, packet := BitVec.ofNat 1024 n, region := e.l.region, tag := BitVec.ofNat 64 tag,
                mask := BitVec.ofNat 64 mask, keep } :: otherArms s e i } := by
  unfold armEffect
  split
  · rfl
  · exact absurd hp ‹_›

theorem armEffect_rejected {n : Nat} (hp : packetReason s (.leaf e.l.region) n ≠ 0) (i tag mask : Nat) (keep : Bool) :
    armEffect s e i n tag mask keep = rejectPacket s (.leaf e.l.region) n (packetReason s (.leaf e.l.region) n) := by
  unfold armEffect
  split
  · exact absurd ‹_› hp
  · rfl

theorem steady_armEffect (s : State) (e : Issuer) (i n tag mask : Nat) (keep : Bool) : Steady s (armEffect s e i n tag mask keep) := by
  by_cases hp : packetReason s (.leaf e.l.region) n = 0
  · rw [armEffect_passes hp]
    exact steady_same rfl rfl
  · rw [armEffect_rejected hp]
    exact steady_rejectPacket _ _ _ _

/-- LARM of a template that can be read. -/
theorem larm_arms (h : ArmMeets s e g) (hva : uniWide e g.b ≠ 0) {ps : List (Nat × Nat)}
    (hps : xlateRange s e.l.ctx (inSup e.f) .read (uniWide e g.b) 128 = .ok ps) (hh : readHold s e (ps.map (·.2)) = none) :
    Completes (.larm g) s e 8 fun m r => r = {} ∧ m = armEffect (chargeMem s e.l.region (pagesPa ps (uniWide e g.b)) 128) e
      (uniVal e g.a) (ofLeBytes (pagesRead s ps (uniWide e g.b) 128)) (uniWide e (sPlus g.b 2)) (uniWide e (sPlus g.b 4))
      (uniVal e (sPlus g.b 6) == 1) := by
  obtain ⟨e', he'⟩ := kept_trans (kept_charged (charged_chargeMem s e.l.region (pagesPa ps (uniWide e g.b)) 128))
    (steady_kept (steady_armEffect _ e (uniVal e g.a) (ofLeBytes (pagesRead s ps (uniWide e g.b) 128)) (uniWide e (sPlus g.b 2))
      (uniWide e (sPlus g.b 4)) (uniVal e (sPlus g.b 6) == 1))) _ _ h.issues.1.2
  refine completes (r := {}) rfl h.issues.1 (burstOk_alone h.issues.2 _) (.inl rfl) ?_ he' ⟨rfl, rfl⟩
  dsimp only
  rw [firstCause_pair h.operand h.group]
  dsimp only
  rw [if_neg h.allowed, if_neg hva, hps]
  dsimp only
  rw [hh]

/-! ## LAUNCH -/

/-- A packet that passes every check names a region. -/
theorem packetRegion_of_passes {src : LaunchSource} {n : Nat} (h : packetReason s src n = 0) : ∃ x, packetRegion s src n = some x := by
  unfold packetReason at h
  split at h
  · exact absurd h (by decide)
  split at h
  · exact absurd h (by decide)
  split at h
  · exact absurd h (by decide)
  split at h
  · exact absurd h (by decide)
  · exact ⟨_, ‹_›⟩

theorem acceptPacket_passes {p : Pending} {x : Region} (h : packetReason s p.source p.packet.toNat = 0)
    (hx : packetRegion s p.source p.packet.toNat = some x) :
    acceptPacket s p = { s with nextId := s.nextId + 1, launches := s.launches ++ [makeLaunch s p x] } := by
  unfold acceptPacket
  dsimp only
  rw [h, hx]
  rfl

theorem acceptPacket_rejected {p : Pending} (ht : p.task = none) (h : packetReason s p.source p.packet.toNat ≠ 0) :
    acceptPacket s p = rejectPacket s p.source p.packet.toNat (packetReason s p.source p.packet.toNat) := by
  unfold acceptPacket
  dsimp only
  split
  · exact absurd ‹_› h
  · rw [ht]

/-- A packet that no tile task waits for leaves every issuer in its place. -/
theorem kept_acceptPacket {p : Pending} (ht : p.task = none) : Kept s (acceptPacket s p) := by
  by_cases h : packetReason s p.source p.packet.toNat = 0
  · obtain ⟨x, hx⟩ := packetRegion_of_passes h
    rw [acceptPacket_passes h hx]
    exact kept_newLaunch s _ _
  · rw [acceptPacket_rejected ht h]
    exact steady_kept (steady_rejectPacket _ _ _ _)

/-- The packet that LAUNCH reads (R472). -/
def launchPacket (s : State) (e : Issuer) (g : Gen) (ps : List (Nat × Nat)) : Pending :=
  { packet := BitVec.ofNat 1024 (ofLeBytes (pagesRead s ps (uniWide e g.a) 128)), source := .leaf e.l.region }

/-- LAUNCH of a packet that can be read. -/
theorem launch_accepts (h : IssuesAlone s e) (hu : uniCause e [uniPair g.a] = none) {ps : List (Nat × Nat)}
    (hps : xlateRange s e.l.ctx (inSup e.f) .read (uniWide e g.a) 128 = .ok ps) (hh : readHold s e (ps.map (·.2)) = none) :
    Completes (.launch g) s e 8 fun m r => r = {} ∧ m = acceptPacket (chargeMem s e.l.region (pagesPa ps (uniWide e g.a)) 128)
      (launchPacket s e g ps) := by
  obtain ⟨e', he'⟩ := kept_trans (kept_charged (charged_chargeMem s e.l.region (pagesPa ps (uniWide e g.a)) 128))
    (kept_acceptPacket (p := launchPacket s e g ps) rfl) _ _ h.1.2
  refine completes (r := {}) rfl h.1 (burstOk_alone h.2 _) (.inl rfl) ?_ he' ⟨rfl, rfl⟩
  dsimp only
  rw [hu]
  dsimp only
  rw [hps]
  dsimp only
  rw [hh]
  rfl

end

/-- NPOLL's clause of O48. -/
theorem npoll_effect {s : State} {e : Issuer} {g : Gen} {c : Channel} (h : PollMeets s e g) (hc : polledChan s e g = some c)
    (hr : ceRlog c.entry.toNat ≠ 0) (hs : (buffered e && e.l.strict) = false) (hround : needsRound e = false) :
    (c.wr ≤ c.rd → Completes (.npoll g) s e 8 fun m r =>
      ResultOnly (acquired s e) m e g.dst g.nowb 8 (maskLanes e.p e.f) (fun _ => 0) r) ∧
    (c.rd < c.wr → ∀ ps, xlateRange s e.l.ctx (inSup e.f) .read (recordVa c) 32 = .ok ps → memHold s e (ps.map (·.2)) = none →
      Completes (.npoll g) s e 8 fun m r =>
        ResultOnly (putChan (acquired s e) { c with rd := c.rd + 1, ovf := false }) m e g.dst g.nowb 8 (maskLanes e.p e.f)
          (fun _ => ofLeBytes (pagesRead s ps (recordVa c) 32) ||| if c.ovf then 2 ^ 30 else 0) r) := by
  have hacq := charged_acquired s e
  have hi : issuerAt (acquired s e) e.ref = some e := (charged_issuer hacq _).trans h.issues.1.2
  refine ⟨fun hle => ?_, fun hlt ps hps hh => ?_⟩
  · exact npoll_polls h hc hr hs hround (ps := []) (by rw [if_pos hle]; rfl) rfl (pollEffect_empty _ _ hle) hi
  · refine npoll_polls h hc hr hs hround (by rw [if_neg (by omega)]; exact hps) hh
      (t := putChan (acquired s e) { c with rd := c.rd + 1, ovf := false }) ?_ ?_
    · rw [pollEffect_record _ _ hlt, pagesRead_charged hacq]
    · exact hi

/-- Settles O48: each instruction past its checks completes with the effect of the model's own function for it. -/
theorem pollsArmsLaunches : Obligations.PollsArmsLaunches := by
  unfold Obligations.PollsArmsLaunches
  intro s e g h
  refine ⟨?_, ?_, ?_⟩
  · intro hd hu chan
    have hm : PollMeets s e g := ⟨h, hd, hu⟩
    exact ⟨npoll_noChannel hm, fun c hc => ⟨npoll_noRing hm hc, fun hr hs hround => npoll_effect hm hc hr hs hround⟩⟩
  · intro hu hg hi hc h0 others va
    have hm : ArmMeets s e g := ⟨h, hu, hg, hi, hc, h0⟩
    refine ⟨larm_removes hm, fun hva ps hps hh => completes_mono (larm_arms hm hva hps hh) ?_⟩
    rintro m r ⟨hr, hm'⟩
    have hcharged := charged_chargeMem s e.l.region (pagesPa ps (uniWide e g.b)) 128
    generalize chargeMem s e.l.region (pagesPa ps (uniWide e g.b)) 128 = u at hcharged hm'
    refine ⟨hr, u, hcharged, fun hp => ?_, fun hp => hm'.trans (armEffect_rejected hp _ _ _ _)⟩
    rw [hm', armEffect_passes hp, otherArms_charged hcharged]
    rfl
  · intro hu ps hps hh w
    refine completes_mono (launch_accepts h hu hps hh) ?_
    rintro m r ⟨hr, rfl⟩
    refine ⟨hr, _, charged_chargeMem s e.l.region (pagesPa ps (uniWide e g.a)) 128, fun hp => ?_, fun hp => acceptPacket_rejected rfl hp⟩
    obtain ⟨x, hx⟩ := packetRegion_of_passes hp
    exact ⟨x, hx, acceptPacket_passes hp hx⟩

end Sys2Proof.Proofs
end

section
/-! Family 04_memory_hierarchy: rules shared by instructions that fill stash lines, and LDS and STS (O20, O21; R130, R131, R138, R318 to R325). -/

namespace Sys2Proof.Proofs

open Sys2Proof Sys2Proof.Machine Sys2Proof.Safety Sys2Proof.Laws

/-! ## Results after lines have moved -/

/-- What values leave that go to registers of the issuer's pack, in a state where lines have moved. -/
theorem written_linesMoved {s t : State} {e : Issuer} (ht : LinesMoved s t) (h : issuerAt s e.ref = some e) (d : Dst) (nowb : Bool) (n : Nat)
    {act : List Nat} (hact : ∀ l ∈ act, l / 4 < e.p.slices.length) (val : Nat → Nat) :
    ResultOnly t (putPack t e.ref.blk (writeBack (inSup e.f) d nowb n (act.map fun l => (l, val l)) e.p)) e d nowb n act val
      { res := latchOf d act (act.map fun l => (l, val l)) } ∧
    ∃ e', issuerAt (putPack t e.ref.blk (writeBack (inSup e.f) d nowb n (act.map fun l => (l, val l)) e.p)) e.ref = some e' := by
  obtain ⟨b, -, -, hi⟩ := linesMoved_issuer ht h
  exact ⟨resultOnly_block (resultOnly_writeBack (e := { e with b := b }) hi d nowb n hact val),
    issuer_writeBack (e := { e with b := b }) hi (charged_refl t) d nowb n (act.map fun l => (l, val l))⟩

/-- An instruction whose values go to registers of the issuer's pack, in a state where lines have moved. -/
theorem completes_written {i : Instr} {s t : State} {e : Issuer} {len : Nat} {place : BurstPlace} {sup : Bool} {body : Issuer → Act}
    {d : Dst} {nowb : Bool} {n : Nat} {act : List Nat} {val : Nat → Nat} (hx : exec i s = issue s len place sup body) (h : Issues s e)
    (hb : burstOk e.f place = true) (hs : sup = false ∨ inSup e.f = true) (ht : LinesMoved s t)
    (hact : ∀ l ∈ act, l / 4 < e.p.slices.length)
    (ha : body e = .ok (putPack t e.ref.blk (writeBack (inSup e.f) d nowb n (act.map fun l => (l, val l)) (refresh t e).p))
      { res := latchOf d act (act.map fun l => (l, val l)) }) :
    Completes i s e len fun m r => LinesMoved s t ∧ ResultOnly t m e d nowb n act val r := by
  obtain ⟨b, -, -, hi⟩ := linesMoved_issuer ht h.2
  rw [refresh_of hi] at ha
  obtain ⟨hres, e', he'⟩ := written_linesMoved ht h.2 d nowb n hact val
  exact completes hx h hb hs ha he' ⟨ht, hres⟩

/-! ## LDS -/

section
variable {s : State} {e : Issuer} {act lanes : List Nat} {n : Nat} {addr : Nat → Nat} {spread : TrapInfo → TrapInfo}

/-- Past the checks of its lanes a stash load goes on with their bytes, from a state whose absent lines are filled. -/
theorem stashLoad_reads {k : State → List (Nat × Nat) → Act} {b : Block} (hck : ∀ l ∈ lanes, laneStashCheck s e false n n (addr l) = none)
    (hst : stashStall s e n (lanes.map addr) = none) (hf : fillHold s e (lanes.map fun l => (addr l, n)) = none)
    (hb : getBlock (fillLines s e (lanes.map fun l => (addr l, n))) e.ref.blk = some b)
    (hp : ∀ l ∈ lanes, lanePoisoned e b (addr l) n = false) :
    stashLoad s e act lanes n addr spread k = k (fillLines s e (lanes.map fun l => (addr l, n)))
      (lanes.map fun l => (l, ofLeBytes (laneStash e b (addr l) n))) := by
  have hchecks : firstFault (lanes.map fun l => (l, laneStashCheck s e false n n (addr l))) = none :=
    firstFault_none (List.forall_mem_map.2 hck)
  have hclean : firstFault (lanes.map fun l => (l, if lanePoisoned e b (addr l) n then some (0x0E, addr l) else none)) = none :=
    firstFault_none (List.forall_mem_map.2 fun l hl => by rw [hp l hl]; rfl)
  unfold stashLoad
  rw [hchecks]
  dsimp only
  rw [hst, hf]
  dsimp only
  rw [hb]
  dsimp only
  rw [hclean]

end

/-- Each active lane takes the value of the access that serves it (R324). -/
theorem spreadVals_served (m : M64) (act : List Nat) (v : Nat → Nat) :
    spreadVals m act ((accessLanes m act).map fun l => (l, v l)) = act.map fun l => (l, v (servedBy m act l)) := by
  unfold spreadVals accessLanes servedBy
  cases m.base with
  | s r => cases act <;> rfl
  | _ => rfl

/-- Settles O20: past its checks LDS, in either form, writes what its lanes read of the stash with absent lines filled. -/
theorem stashLoads : Obligations.StashLoads := by
  unfold Obligations.StashLoads
  intro s e m x h
  have hlast := burstOk_alone h.2 .last
  refine ⟨?_, ?_⟩
  · intro act n lanes addr ranges f hop hck hst hf b hb hp
    refine completes_written rfl h.1 hlast (.inl rfl) (linesMoved_fillLines s e ranges) (fun l hl => mem_activeLanes hl) ?_
    dsimp only
    rw [hop]
    dsimp only
    rw [m64Bytes, stashLoad_reads hck hst hf hb hp, loadEnd, List.map_map]
    dsimp only [Function.comp_def]
    rw [spreadVals_served m act fun l => extend m (ofLeBytes (laneStash e b (addr l) n))]
  · intro act addr ranges f hop hck hst hf b hb hp
    refine completes_written rfl h.1 hlast (.inl rfl) (linesMoved_fillLines s e ranges) (fun l hl => (mem_maskLanes hl).1) ?_
    dsimp only [ldsSumAct]
    rw [hop]
    dsimp only
    rw [stashLoad_reads hck hst hf hb hp]

/-! ## STS -/

theorem leBytes_drop (o k x : Nat) : (leBytes (o + k) x).drop o = leBytes k (x / 2 ^ (8 * o)) := by
  induction o generalizing x with
  | zero => simp
  | succ o ih =>
    rw [show o + 1 + k = o + k + 1 by omega, leBytes, List.drop_succ_cons, ih, Nat.div_div_eq_div_mul,
      show 256 * 2 ^ (8 * o) = 2 ^ (8 * (o + 1)) by rw [Nat.mul_succ, Nat.pow_add, Nat.mul_comm]]

theorem leBytes_take (k j x : Nat) : (leBytes (k + j) x).take k = leBytes k x := by
  induction k generalizing x with
  | zero => rfl
  | succ k ih => rw [show k + 1 + j = k + j + 1 by omega, leBytes, leBytes, List.take_succ_cons, ih]

theorem byteOf_div (x n i : Nat) : byteOf (x / 2 ^ (8 * n)) i = byteOf x (n + i) := by
  unfold byteOf
  rw [Nat.div_div_eq_div_mul, ← Nat.pow_add, Nat.mul_add]

/-- A block is another but for the stash bytes of lanes, which hold their values, the marks of those bytes, and the lines that they lie
in. -/
structure StashWritten (b c : Block) (n : Nat) (lanes : List Nat) (addr val : Nat → Nat) : Prop where
  block : c = { b with stash := c.stash, stashPoison := c.stashPoison, lines := c.lines }
  bytes : ∀ l ∈ lanes, ∀ i, i < n → stashByte c (addr l + i) = byteOf (val l) i
  others : ∀ o, (∀ l ∈ lanes, ¬ (addr l ≤ o ∧ o < addr l + n)) → stashByte c o = stashByte b o
  lines : (∀ l ∈ lanes, ∀ i, i < n → lineAt b ((addr l + i) / 128) = none) → c.lines = b.lines

/-- Values that are stored in two parts. -/
theorem stashWritten_join {b c d : Block} {n k : Nat} {lanes : List Nat} {addr val : Nat → Nat} (hap : Apart (n + k) lanes addr)
    (h : StashWritten b c n lanes addr val) (h' : StashWritten c d k lanes (fun l => addr l + n) (fun l => val l / 2 ^ (8 * n))) :
    StashWritten b d (n + k) lanes addr val := by
  refine ⟨by rw [h'.block, h.block], fun l hl i hi => ?_, fun o ho => ?_, fun hn => ?_⟩
  · by_cases hin : i < n
    · rw [h'.others (addr l + i) fun j hj => ?_, h.bytes l hl i hin]
      by_cases hlj : l = j
      · subst hlj; omega
      · have := hap l hl j hj hlj; omega
    · have := h'.bytes l hl (i - n) (by omega)
      rwa [show addr l + n + (i - n) = addr l + i by omega, byteOf_div, show n + (i - n) = i by omega] at this
  · rw [h'.others o fun l hl => ?_, h.others o fun l hl => ?_] <;> have := ho l hl <;> omega
  · have hc : c.lines = b.lines := h.lines fun l hl i hi => hn l hl i (by omega)
    rw [h'.lines fun l hl i hi => ?_, hc]
    unfold lineAt at hn ⊢
    rw [hc, Nat.add_assoc]
    exact hn l hl (n + i) (by omega)

section
variable {n : Nat} {addr val : Nat → Nat} {lanes : List Nat} (hnd : lanes.Nodup) (hap : Apart n lanes addr)
include hnd hap

/-- One part of what lanes that do not meet store. -/
theorem stashWritten_part {o w : Nat} (hw : (min 8 (n - o)) = w) (hon : o + w ≤ n) (b : Block) :
    StashWritten b ((lanes.map fun l => (l, addr l)).foldl (stashLane n val o) b) w lanes (fun l => addr l + o)
      (fun l => val l / 2 ^ (8 * o)) := by
  have hpart : ∀ l, ((leBytes n (val l)).drop o).take 8 = leBytes w (val l / 2 ^ (8 * o)) := fun l => by
    obtain ⟨k, hk⟩ := Nat.exists_eq_add_of_le (show o ≤ n by omega)
    subst hk
    rw [leBytes_drop]
    by_cases h8 : k ≤ 8
    · rw [show w = k by omega, List.take_of_length_le (by rw [leBytes_length]; exact h8)]
    · rw [show w = 8 by omega, show k = 8 + (k - 8) by omega, leBytes_take]
  have hfold : (lanes.map fun l => (l, addr l)).foldl (stashLane n val o) b =
      lanes.foldl (fun b l => stashStore b (addr l + o) (leBytes w (val l / 2 ^ (8 * o)))) b := by
    rw [List.foldl_map]
    simp only [stashLane, hpart]
  obtain ⟨c, hc, h1, h2, h3, h4⟩ := stashStores_spec (n := w) (addr := fun l => addr l + o) (val := fun l => val l / 2 ^ (8 * o)) lanes hnd
    (fun l hl k hk hne => by have := hap l hl k hk hne; dsimp only; omega) b
  rw [hfold, hc]
  exact ⟨h1, h2, h3, h4⟩

end

theorem setBlock_setBlock (s : State) {b c : Block} (h : b.bid = c.bid) : setBlock (setBlock s b) c = setBlock s c := by
  have hr : ∀ l : List Block, replaceFirst (fun x => x.bid == c.bid) c (replaceFirst (fun x => x.bid == b.bid) b l) =
      replaceFirst (fun x => x.bid == c.bid) c l := by
    intro l
    rw [h]
    induction l with
    | nil => rfl
    | cons x l ih =>
      by_cases hx : (x.bid == c.bid) = true
      · simp [replaceFirst, hx, h]
      · simp [replaceFirst, hx, ih]
  exact congrArg (fun l => ({ s with blocks := l } : State)) (hr s.blocks)

/-- The stores of lanes that do not meet, of at most 16 bytes each in parts of 8, change the issuer's block alone. -/
theorem stashLanes_written {s : State} {e : Issuer} {n : Nat} {addr val : Nat → Nat} {lanes : List Nat} {b : Block}
    (hb : getBlock s e.ref.blk = some b) (hn : n ≤ 8 ∨ n = 16) (hnd : lanes.Nodup) (hap : Apart n lanes addr) :
    ∃ c, stashLanes s e n val (lanes.map fun l => (l, addr l)) = setBlock s c ∧ StashWritten b c n lanes addr val := by
  have horder : ∀ u : State, laneOrder u e n (lanes.map fun l => (l, addr l)) = (lanes.map fun l => (l, addr l), u) :=
    fun u => laneOrder_apart hnd hap
  rcases hn with hn | rfl
  · have h0 := stashWritten_part (val := val) (o := 0) (w := n) hnd hap (by omega) (by omega) b
    refine ⟨_, ?_, by simpa using h0⟩
    unfold stashLanes accessParts
    rw [if_neg (by omega), List.foldl_cons, List.foldl_nil, hb]
    dsimp only
    rw [horder]
  · have h0 := stashWritten_part (val := val) (o := 0) (w := 8) hnd hap (by omega) (by omega) b
    generalize hc : (lanes.map fun l => (l, addr l)).foldl (stashLane 16 val 0) b = c at h0
    have h8 := stashWritten_part (val := val) (o := 8) (w := 8) hnd hap (by omega) (by omega) c
    generalize hd : (lanes.map fun l => (l, addr l)).foldl (stashLane 16 val 8) c = d at h8
    have hcb : c.bid = b.bid := by rw [h0.block]
    have hdb : d.bid = c.bid := by rw [h8.block]
    refine ⟨d, ?_, stashWritten_join hap (by simpa using h0) h8⟩
    unfold stashLanes accessParts
    rw [if_pos rfl, List.foldl_cons, List.foldl_cons, List.foldl_nil, hb]
    dsimp only
    rw [horder, hc, getBlock_setBlock hb (hcb.trans (getBlock_bid hb))]
    dsimp only
    rw [horder, hd, setBlock_setBlock _ hdb.symm]

/-- Where no line is held at the bytes that are stored, they are no copy of memory, and every byte of it reads as before. -/
theorem gByte_stashWritten {s : State} {b c : Block} {n : Nat} {lanes : List Nat} {addr val : Nat → Nat}
    (hb : getBlock s c.bid = some b) (hw : StashWritten b c n lanes addr val)
    (hl : ∀ l ∈ lanes, ∀ i, i < n → lineAt b ((addr l + i) / 128) = none) (a : Nat) : gByte (setBlock s c) a = gByte s a := by
  refine gByte_setBlock_lines hb (hw.lines hl) (fun x hx j hj => hw.others _ fun l hlane hin => ?_) a
  have hnone := hl l hlane (128 * x.line + j - addr l) (by omega)
  rw [show (addr l + (128 * x.line + j - addr l)) / 128 = x.line by omega] at hnone
  exact absurd (List.find?_eq_none.1 hnone x hx) (by simp)

theorem widthBytes_plain {w : Width} (h : widthPlain w = true) : widthBytes w ≤ 8 ∨ widthBytes w = 16 := by
  revert h
  cases w <;> decide

/-- Settles O21: past its checks STS fills absent lines and stores its lanes' bytes to the issuer's block. -/
theorem stashStores : Obligations.StashStores := by
  unfold Obligations.StashStores
  intro s e m h hbuf act n addr ranges f hop hregs hck hst hf hplain hap
  have hmoved : LinesMoved s f := linesMoved_fillLines s e ranges
  obtain ⟨b, hb, -, hi⟩ := linesMoved_issuer hmoved h.1.2
  obtain ⟨c, hc, hw⟩ := stashLanes_written (val := regsVal e m.data (widthRegs m.width)) hb (widthBytes_plain hplain)
    (activeLanes_nodup e m.pred) hap
  have hcbid : c.bid = e.ref.blk := by
    have : c.bid = b.bid := by rw [hw.block]
    exact this.trans (getBlock_bid hb)
  obtain ⟨e', he'⟩ := kept_setBlock_packs hb (c := c) (by rw [hw.block]) (by rw [hw.block]) (by rw [hw.block]) _ _ hi
  refine completes (r := {}) rfl h.1 (burstOk_alone h.2 .last) (.inl rfl) (m := setBlock f c) ?_ he'
    ⟨rfl, hmoved, b, c, ⟨rfl, fun k hk => getBlock_setBlock_other (by rw [hcbid]; exact hk), hb, getBlock_setBlock hb hcbid, hw.block⟩,
      hw.bytes, hw.others, fun hl => gByte_stashWritten (by rw [hcbid]; exact hb) hw hl⟩
  dsimp only
  rw [firstCause_pair hop hregs]
  dsimp only
  rw [m64Bytes, firstFault_none (List.forall_mem_map.2 hck)]
  dsimp only
  rw [hst, hf]
  dsimp only
  rw [hbuf, if_neg Bool.false_ne_true, hc]

end Sys2Proof.Proofs
end

section
/-! O25: the flush of stash lines and the release of a region (R134, R336, R337). -/

namespace Sys2Proof.Proofs

open Sys2Proof Sys2Proof.Machine Sys2Proof.Safety Sys2Proof.Laws

/-- What is left of a store when the keys that a test refuses are dropped. -/
theorem spGet_filter {α : Type} (d : α) (p : Nat → Bool) (l : List (Nat × α)) (i : Nat) :
    spGet d (l.filter fun x => p x.1) i = if p i then spGet d l i else d := by
  induction l with
  | nil => simp [spGet]
  | cons x l ih =>
    by_cases hx : p x.1 = true
    · rw [List.filter_cons_of_pos (p := fun y : Nat × α => p y.1) hx, spGet, spGet, ih]
      by_cases hi : i = x.1
      · subst hi; simp [hx]
      · simp [hi]
    · rw [List.filter_cons_of_neg (p := fun y : Nat × α => p y.1) hx, ih, spGet]
      by_cases hi : i = x.1
      · subst hi; simp [hx]
      · simp [hi]

section
variable {b : Block} (hn : (b.lines.map (·.line)).Nodup)
include hn

/-- Lines of distinct places are found at their places. -/
theorem lineAt_mem {l : StashLine} (h : l ∈ b.lines) : lineAt b l.line = some l := by
  unfold lineAt
  generalize b.lines = ls at hn h
  induction ls with
  | nil => cases h
  | cons x ls ih =>
    rw [List.map_cons, List.nodup_cons] at hn
    rcases List.mem_cons.1 h with rfl | h
    · simp
    · have : x.line ≠ l.line := fun e => hn.1 (List.mem_map.2 ⟨l, h, e.symm⟩)
      rw [List.find?_cons_of_neg (by simpa using this)]
      exact ih hn.2 h

/-- The lines after those that a test selects are clean, the others as they were. -/
theorem lineAt_cleaned {c : Block} {sel : StashLine → Bool}
    (hsel : ∀ l ∈ b.lines.filter sel, lineAt c l.line = some { l with dirty := 0 })
    (hrest : ∀ k, (∀ l ∈ b.lines.filter sel, k ≠ l.line) → lineAt c k = lineAt b k) (k : Nat) :
    lineAt c k = (lineAt b k).map fun l => if sel l then { l with dirty := 0 } else l := by
  cases hk : lineAt b k with
  | none =>
    rw [hrest k fun l hl e => ?_, hk]
    · rfl
    · rw [e, lineAt_mem hn (List.mem_of_mem_filter hl)] at hk
      cases hk
  | some l =>
    have hl : l ∈ b.lines := List.mem_of_find?_eq_some hk
    have hlk : l.line = k := by simpa using List.find?_some hk
    rw [Option.map_some]
    by_cases hs : sel l = true
    · rw [if_pos hs, ← hlk]
      exact hsel l (List.mem_filter.2 ⟨hl, hs⟩)
    · rw [if_neg hs, hrest k fun x hx e => ?_, hk]
      obtain ⟨hxb, hxs⟩ := List.mem_filter.1 hx
      rw [e, lineAt_mem hn hxb, Option.some.injEq] at hk
      exact hs (hk ▸ hxs)

end

/-- A block whose dirty bytes all have a home of their own that can be reached (R132, R515, R556). -/
structure Flushable (s : State) (bid : Nat) (b : Block) : Prop where
  block : getBlock s bid = some b
  up : s.hi.mbhost.getLsbD 32 = false
  lost : s.lost = []
  homes : (b.lines.map (·.pa)).Nodup
  places : (b.lines.map (·.line)).Nodup
  reach : ∀ l ∈ b.lines, l.pa % 128 = 0 ∧ cxlHome l.pa = false

section
variable {s : State} {bid : Nat} {b : Block} (hb : Flushable s bid b)
include hb

/-- What the flush of the lines that a test selects leaves. -/
theorem cleanLines_spec (sel : StashLine → Bool) : ∃ t c, cleanLines s b sel = t ∧ LinesMoved s t ∧ t.lost = [] ∧
    (∀ n, n ≠ bid → getBlock t n = getBlock s n) ∧ getBlock t bid = some c ∧ c = { b with lines := c.lines } ∧
    (∀ k, lineAt c k = (lineAt b k).map fun l => if sel l then { l with dirty := 0 } else l) ∧
    (∀ l ∈ b.lines, sel l = true → ∀ j, j < 128 → l.dirty.getLsbD j = true → rawByte t (l.pa + j) = stashByte b (128 * l.line + j)) ∧
    ∀ a, (∀ l ∈ b.lines, sel l = true → ∀ j, j < 128 → l.dirty.getLsbD j = true → a ≠ l.pa + j) → rawByte t a = rawByte s a := by
  have hsub : List.Sublist (b.lines.filter sel) b.lines := List.filter_sublist
  obtain ⟨c, hc, hcb, hlost, hothers, hclean, hrest, hbytes, hsame⟩ := cleanEach_spec (bid := bid) (b.lines.filter sel) s b hb.block hb.up
    (fun l hl => ⟨lineAt_mem hb.places (List.mem_of_mem_filter hl), hb.reach l (List.mem_of_mem_filter hl)⟩)
    (hb.homes.sublist (hsub.map _)) (hb.places.sublist (hsub.map _))
  have hmoved : LinesMoved s ((b.lines.filter sel).foldl (cleanLine bid) s) := linesMoved_foldl _ (linesMoved_cleanLine bid) _ s
  have ht : cleanLines s b sel = (b.lines.filter sel).foldl (cleanLine bid) s := by
    rw [cleanLines, getBlock_bid hb.block, reportLost_nil (hlost.trans hb.lost)]
  refine ⟨_, c, ht, hmoved, hlost.trans hb.lost, hothers, hc, hcb, lineAt_cleaned hb.places hclean hrest, fun l hl hs => ?_, fun a ha => ?_⟩
  · exact hbytes l (List.mem_filter.2 ⟨hl, hs⟩)
  · refine hsame a fun l hl => ?_
    obtain ⟨hlb, hs⟩ := List.mem_filter.1 hl
    exact ha l hlb hs

/-- What the release of a region leaves of its block. -/
theorem unmapRegion_spec {i : Nat} {x : StashRegion} (hx : b.regions.find? (fun r => r.idx == i) = some x) :
    ∃ c, getBlock (unmapRegion s bid i) bid = some c ∧ c.regions = b.regions.filter (fun r => r.idx != i) ∧
      (∀ l ∈ c.lines, inRegion x l.line = false) ∧
      ∀ o, stashByte c o = if x.off ≤ o ∧ o < x.off + 128 * x.lines then 0 else stashByte b o := by
  obtain ⟨t, c, ht, -, -, -, hc, hcb, -, -, -⟩ := cleanLines_spec hb fun l => inRegion x l.line
  unfold unmapRegion
  rw [hb.block]
  dsimp only
  rw [hx]
  dsimp only
  rw [ht, hc]
  refine ⟨_, getBlock_setBlock hc (show c.bid = bid from getBlock_bid hc), ?_, fun l hl => ?_, fun o => ?_⟩
  · rw [hcb]
  · simpa using (List.mem_filter.1 hl).2
  · have hst : c.stash = b.stash := by rw [hcb]
    show spGet 0 (c.stash.filter fun y => !(x.off ≤ y.1 && y.1 < x.off + 128 * x.lines)) o = _
    rw [spGet_filter 0 (fun k => !(x.off ≤ k && k < x.off + 128 * x.lines)), hst]
    by_cases hin : x.off ≤ o ∧ o < x.off + 128 * x.lines
    · simp [hin]
    · simp only [hin, if_false]
      exact if_pos (by simp; omega)

end

/-- Settles O25. -/
theorem regionRelease : Obligations.RegionRelease := by
  unfold Obligations.RegionRelease
  intro s bid b hb hup hlost hhomes hplaces hreach
  have hf : Flushable s bid b := ⟨hb, hup, hlost, hhomes, hplaces, hreach⟩
  exact ⟨cleanLines_spec hf, fun i x => unmapRegion_spec hf⟩

end Sys2Proof.Proofs
end

section
/-! O26 and O27: CPL and BXFER hand an engine one operation (R137, R180, R329, R330, R338 to R340). -/

namespace Sys2Proof.Proofs

open Sys2Proof Sys2Proof.Machine Sys2Proof.Safety Sys2Proof.Laws

/-! ## An operation begins (R137, R180) -/

/-- The issuer is still there when its pack counts an operation, its block notes a range and the engines have the operation. -/
theorem issuer_begun {u : State} {e : Issuer} {b c : Block} (hi : issuerAt u e.ref = some { e with b := b }) {id : Nat} {cls : EngClass}
    {tag : Option Nat} (hc : c = { setPack b (engAdd e.p id cls tag) with score := c.score }) (n : Nat) (ops : List EngineOp) :
    ∃ e', issuerAt { setBlock u c with nextId := n, engine := ops } e.ref = some e' := by
  obtain ⟨-, hb, hp, -, -⟩ := issuerAt_eq.1 hi
  have hset : Kept u (setBlock u c) :=
    kept_setPack (q := engAdd e.p id cls tag) hb hp rfl rfl (fun _ f hf => ⟨f, hf⟩) (by rw [hc])
  exact kept_trans hset (t := setBlock u c) (kept_same rfl rfl) _ _ hi

section
variable {i : Instr} {s u : State} {e : Issuer} {body : Issuer → Act} {b : Block} {cls : EngClass} {tag : Option Nat}
  {note : Block → Block} {work : EngineWork} (hx : exec i s = issue s 8 .last false body) (h : IssuesAlone s e) (hu : LinesMoved s u)
  (hnote : ∀ c, note c = { c with score := (note c).score })
include hx h hu hnote

/-- An instruction that hands an engine one operation, in a state where lines have moved, retires with it. -/
theorem retires_begun (ha : body e = .ok { setBlock u (note (setPack (refresh u e).b (engAdd (refresh u e).p u.nextId cls tag))) with
      nextId := u.nextId + 1
      engine := u.engine ++ [{ id := u.nextId, blk := e.ref.blk, pidx := e.ref.pidx, pos := e.ref.pos, work }] } {}) :
    ∃ v t b, exec i s = .next t ∧ Retired v t e 8 {} ∧ getBlock u e.ref.blk = some b ∧
      v = { setBlock u (note (setPack b (engAdd e.p s.nextId cls tag))) with
              nextId := s.nextId + 1
              engine := s.engine ++ [{ id := s.nextId, blk := e.ref.blk, pidx := e.ref.pidx, pos := e.ref.pos, work }] } := by
  obtain ⟨b, hb, -, hi⟩ := linesMoved_issuer hu h.1.2
  have hid : u.nextId = s.nextId := by rw [hu.device]
  have hops : u.engine = s.engine := by rw [hu.device]
  rw [refresh_of hi, hid, hops] at ha
  obtain ⟨e', he'⟩ := issuer_begun hi (hnote _) (s.nextId + 1) (s.engine ++ [_])
  exact ⟨_, _, b, retires hx h.1 (burstOk_alone h.2 _) (.inl rfl) ha, retired_retire he', hb, rfl⟩

end

/-! ## CPL -/

theorem foldl_min_le {α : Type} (f : α → Nat) (l : List α) (a : Nat) : l.foldl (fun a x => min a (f x)) a ≤ a ∧
    (∀ x ∈ l, l.foldl (fun a x => min a (f x)) a ≤ f x) ∧
    (l.foldl (fun a x => min a (f x)) a = a ∨ ∃ x ∈ l, l.foldl (fun a x => min a (f x)) a = f x) := by
  induction l generalizing a with
  | nil => simp
  | cons y l ih =>
    obtain ⟨h1, h2, h3⟩ := ih (min a (f y))
    rw [List.foldl_cons]
    refine ⟨by omega, fun x hx => ?_, ?_⟩
    · rcases List.mem_cons.1 hx with rfl | hx
      · omega
      · exact h2 x hx
    · rcases h3 with h3 | ⟨x, hx, h3⟩
      · rcases Nat.le_total a (f y) with hle | hle
        · exact .inl (by omega)
        · exact .inr ⟨y, List.mem_cons_self, by omega⟩
      · exact .inr ⟨x, List.mem_cons_of_mem _ hx, h3⟩

theorem le_foldl_max {α : Type} (f : α → Nat) (l : List α) (a : Nat) : a ≤ l.foldl (fun a x => max a (f x)) a ∧
    (∀ x ∈ l, f x ≤ l.foldl (fun a x => max a (f x)) a) ∧
    (l.foldl (fun a x => max a (f x)) a = a ∨ ∃ x ∈ l, l.foldl (fun a x => max a (f x)) a = f x) := by
  induction l generalizing a with
  | nil => simp
  | cons y l ih =>
    obtain ⟨h1, h2, h3⟩ := ih (max a (f y))
    rw [List.foldl_cons]
    refine ⟨by omega, fun x hx => ?_, ?_⟩
    · rcases List.mem_cons.1 hx with rfl | hx
      · omega
      · exact h2 x hx
    · rcases h3 with h3 | ⟨x, hx, h3⟩
      · rcases Nat.le_total (f y) a with hle | hle
        · exact .inl (by omega)
        · exact .inr ⟨y, List.mem_cons_self, by omega⟩
      · exact .inr ⟨x, List.mem_cons_of_mem _ hx, h3⟩

/-- The lowest of some values, none above the start. -/
theorem foldl_min_mem {α : Type} (f : α → Nat) {l : List α} (hl : l ≠ []) {a : Nat} (ha : ∀ x ∈ l, f x ≤ a) :
    ∃ x ∈ l, l.foldl (fun a x => min a (f x)) a = f x := by
  obtain ⟨-, h2, h3 | h3⟩ := foldl_min_le f l a
  · obtain ⟨x, hx⟩ := List.exists_mem_of_ne_nil l hl
    exact ⟨x, hx, by have := ha x hx; have := h2 x hx; omega⟩
  · exact h3

/-- The highest of some values. -/
theorem foldl_max_mem {α : Type} (f : α → Nat) {l : List α} (hl : l ≠ []) : ∃ x ∈ l, l.foldl (fun a x => max a (f x)) 0 = f x := by
  obtain ⟨-, h2, h3 | h3⟩ := le_foldl_max f l 0
  · obtain ⟨x, hx⟩ := List.exists_mem_of_ne_nil l hl
    exact ⟨x, hx, by have := h2 x hx; omega⟩
  · exact h3

/-- A destination that passes the checks of CPL lies in the block's stash. -/
theorem cplCheck_bound {s : State} {e : Issuer} {m : M64} {x : Nat × Nat × Nat} (h : cplCheck s e m x = none) :
    x.2.1 + widthBytes m.width ≤ stashBytes e.l := by
  by_contra hlt
  have hcheck : ∃ c a, (c = 0x04 ∨ c = 0x03) ∧ laneStashCheck s e true (m64Bytes m) (m64Bytes m) x.2.1 = some (c, a) := by
    unfold laneStashCheck
    by_cases hal : x.2.1 % m64Bytes m = 0
    · exact ⟨0x03, _, .inr rfl, by rw [if_neg (by simpa using hal), if_pos (by rw [m64Bytes]; omega)]⟩
    · exact ⟨0x04, _, .inl rfl, if_pos hal⟩
  obtain ⟨c, a, hc, hca⟩ := hcheck
  unfold cplCheck at h
  dsimp only at h
  rw [hca] at h
  rw [List.findSome?_eq_none_iff] at h
  have hfound := h c (by rcases hc with rfl | rfl <;> simp)
  rw [List.find?_eq_none] at hfound
  exact hfound (c, a) (by simp) (by simp)

/-- The lane copies of CPL, each with its translated address. -/
def copiesOf (e : Issuer) (m : M64) (pa : Nat → Nat) : List CopyLane :=
  (cplLanes e m (activeLanes e m.pred)).map fun x => { dst := x.2.1, valid := x.2.2, pa := pa x.1 }

/-- The addresses from which lanes copy bytes. -/
def copySources (e : Issuer) (m : M64) (pa : Nat → Nat) : List Nat :=
  ((cplLanes e m (activeLanes e m.pred)).filter fun x => x.2.2 != 0).map fun x => pa x.1

/-- The state in which the absent lines of CPL's destinations are filled. -/
def cplFilled (s : State) (e : Issuer) (m : M64) : State :=
  let xs := cplLanes e m (activeLanes e m.pred)
  fillLines (xs.foldl (fun s x => if x.2.2 = 0 then s else noteMiss e.l.ctx s (m64Addr e m false x.1)) s) e
    (xs.map fun x => (x.2.1, widthBytes m.width))

theorem linesMoved_cplFilled (s : State) (e : Issuer) (m : M64) : LinesMoved s (cplFilled s e m) := by
  refine linesMoved_trans (linesMoved_charged (charged_foldl _ (fun s x => ?_) _ s)) (linesMoved_fillLines _ _ _)
  split
  · exact charged_refl s
  · exact charged_noteMiss _ _ _

/-- The operands of CPL can be read and its lanes pass their checks. -/
structure CplMeets (s : State) (e : Issuer) (m : M64) : Prop where
  base : operandCause e (activeLanes e m.pred) [baseOpnd m false] .null 1 = none
  data : regsCause e (activeLanes e m.pred) m.data (if m.ext = 1 then 2 else 1) = none
  lanes : ∀ x ∈ cplLanes e m (activeLanes e m.pred), cplCheck s e m x = none

section
variable {s : State} {e : Issuer} {m : M64} (hm : CplMeets s e m)
include hm

theorem exec_cpl_none (hact : activeLanes e m.pred = []) :
    ∃ body, exec (.cpl m) s = issue s 8 .last false body ∧ body e = .ok s {} := by
  refine ⟨_, rfl, ?_⟩
  dsimp only
  rw [firstCause_pair hm.base hm.data]
  dsimp only
  rw [firstFault_none (List.forall_mem_map.2 hm.lanes)]
  dsimp only
  rw [hact]
  rfl

theorem exec_cpl_copies {pa : Nat → Nat} (hact : activeLanes e m.pred ≠ []) (hround : needsRound e = false)
    (hroom : hasRoom e.p 4 (some m.sel.toNat) = true)
    (hentry : hasTag e.b (packId e.p) m.sel.toNat = true ∨ scoreUsed s e.b.core < Config.scoreEntries)
    (hpa : ∀ x ∈ cplLanes e m (activeLanes e m.pred),
      if x.2.2 = 0 then pa x.1 = 0 else xlate s e.l.ctx (inSup e.f) .read (m64Addr e m false x.1) = .ok (pa x.1))
    (hhold : memHold s e (copySources e m pa ++ fillPas s e.l.ctx (inSup e.f) e.b
      ((cplLanes e m (activeLanes e m.pred)).map fun x => (x.2.1, widthBytes m.width))) = none)
    (hrace : strictRace s e (copySources e m pa) = false) :
    ∃ body, exec (.cpl m) s = issue s 8 .last false body ∧
      body e = (let u := cplFilled s e m
        .ok { setBlock u (scoreTag (setPack (refresh u e).b (engAdd (refresh u e).p u.nextId .copy (some m.sel.toNat))) (packId e.p)
              m.sel.toNat ((copiesOf e m pa).foldl (fun a l => min a l.dst) (stashBytes e.l))
              ((copiesOf e m pa).foldl (fun a l => max a (l.dst + widthBytes m.width - 1)) 0)) with
            nextId := u.nextId + 1
            engine := u.engine ++ [{ id := u.nextId, blk := e.ref.blk, pidx := e.ref.pidx, pos := e.ref.pos,
                                     work := .copy (widthBytes m.width) (copiesOf e m pa) }] } {}) := by
  have hcopies : ∀ copy : Nat × Nat × Nat → CopyLane, (∀ x ∈ cplLanes e m (activeLanes e m.pred),
      copy x = { dst := x.2.1, valid := x.2.2, pa := pa x.1 }) →
      (cplLanes e m (activeLanes e m.pred)).map copy = copiesOf e m pa := fun _ hc => List.map_congr_left hc
  have hsources : ((copiesOf e m pa).filter fun l => l.valid != 0).map (·.pa) = copySources e m pa := by
    rw [copiesOf, List.filter_map, List.map_map]
    rfl
  refine ⟨_, rfl, ?_⟩
  dsimp only
  rw [firstCause_pair hm.base hm.data]
  dsimp only
  rw [firstFault_none (List.forall_mem_map.2 hm.lanes)]
  dsimp only
  rw [if_neg (by simpa using hact), hround, if_neg Bool.false_ne_true, hroom, if_neg (by simp)]
  rw [if_neg (by rcases hentry with ht | ht <;> simp [ht])]
  rw [hcopies, hsources, m64Bytes, hhold]
  · dsimp only
    rw [hrace, if_neg Bool.false_ne_true]
    rfl
  · intro x hx
    have hx := hpa x hx
    by_cases hv : x.2.2 = 0
    · rw [if_pos hv] at hx
      rw [hx, hv]
      split <;> rfl
    · rw [if_neg hv] at hx
      rw [hx]
      simp only [if_neg hv]

end

theorem scoreTag_eq (b : Block) (key tag lo hi : Nat) : scoreTag b key tag lo hi = { b with score := (scoreTag b key tag lo hi).score } := by
  unfold scoreTag
  split <;> rfl

/-- Settles O26: past its checks CPL hands the copy engine its lanes, the tag's range holding the lowest and the highest destination. -/
theorem laneCopies : Obligations.LaneCopies := by
  unfold Obligations.LaneCopies
  intro s e m h hround act n tag xs hbase hdata
  refine ⟨fun hact => ?_, fun hact hck hroom hentry pa hpa hhold hrace => ?_⟩
  · have hm : CplMeets s e m := ⟨hbase, hdata, by show ∀ x ∈ xs, _; rw [show xs = [] by simp [xs, cplLanes, hact]]; simp⟩
    obtain ⟨body, hx, hb⟩ := exec_cpl_none hm hact
    exact ⟨_, retires hx h.1 (burstOk_alone h.2 _) (.inl rfl) hb, retired_retire h.1.2⟩
  · obtain ⟨body, hx, hb⟩ := exec_cpl_copies ⟨hbase, hdata, hck⟩ hact hround hroom hentry hpa hhold hrace
    have hu := linesMoved_cplFilled s e m
    obtain ⟨v, t, b, ht, hr, hblk, hv⟩ := retires_begun hx h hu (fun c => scoreTag_eq c _ _ _ _) hb
    have hne : copiesOf e m pa ≠ [] := by simpa [copiesOf, cplLanes] using hact
    have hmem : ∀ l ∈ copiesOf e m pa, ∃ x ∈ xs, l.dst = x.2.1 := fun l hl => by
      obtain ⟨x, hx, rfl⟩ := List.mem_map.1 hl
      exact ⟨x, hx, rfl⟩
    obtain ⟨l, hl, hlo⟩ := foldl_min_mem (fun l : CopyLane => l.dst) hne (a := stashBytes e.l) fun l hl => by
      obtain ⟨x, hx, hd⟩ := hmem l hl
      have := cplCheck_bound (hck x hx)
      omega
    obtain ⟨k, hk, hhi⟩ := foldl_max_mem (fun l : CopyLane => l.dst + widthBytes m.width - 1) hne
    refine ⟨v, t, _, b, _, _, ht, hr, hu, hblk, fun x hx => ?_, ?_, ?_, hv⟩
    · have hin : ({ dst := x.2.1, valid := x.2.2, pa := pa x.1 } : CopyLane) ∈ copiesOf e m pa := List.mem_map.2 ⟨x, hx, rfl⟩
      exact ⟨(foldl_min_le _ _ _).2.1 _ hin, (le_foldl_max (fun l : CopyLane => l.dst + widthBytes m.width - 1) _ _).2.1 _ hin⟩
    · obtain ⟨x, hx, hd⟩ := hmem l hl
      exact ⟨x, hx, hlo.trans hd⟩
    · obtain ⟨x, hx, hd⟩ := hmem k hk
      exact ⟨x, hx, by rw [hhi, hd]⟩

/-! ## BXFER -/

/-- Whether a transfer loads, and the permission that it needs (R338). -/
def xferLoads : XferKind → Bool
  | .load => true
  | _ => false

def xferNeed (kind : XferKind) : Need := if xferLoads kind then .read else .write

/-- A floating-point reduction is not for a strict deterministic launch (R198). -/
def XferOrdered (e : Issuer) : XferKind → Prop
  | .red op _ => op = 10 ∨ op = 11 → e.l.det = true → e.l.strict = false
  | _ => True

/-- The operands of BXFER can be read, and its counter and the scoreboard have room for one more (R137, R180). -/
structure BxferMeets (s : State) (e : Issuer) (g : Gen) : Prop where
  regs : regsCause e [] g.a 4 = none
  uni : uniCause e [opn32 g.b, opn32 g.c] = none
  room : hasRoom e.p 0 none = true
  entry : scoreUsed s e.b.core < Config.scoreEntries
  round : needsRound e = false

/-- A transfer passes its own checks, with its pages. -/
structure XferMeets (s : State) (e : Issuer) (g : Gen) (kind : XferKind) (pages : List (Nat × Nat)) : Prop where
  cause : bxferCause s e (xferNeed kind) (bxferArgs e g).1 (bxferArgs e g).2.1 (bxferArgs e g).2.2.1 (bxferArgs e g).2.2.2
    (xferLoads kind) = none
  ordered : XferOrdered e kind
  reach : xlateRange s e.l.ctx (inSup e.f) (xferNeed kind) (bxferArgs e g).1 (bxferArgs e g).2.2.1 = .ok pages
  held : memHold s e (pages.map (·.2) ++ fillPas s e.l.ctx (inSup e.f) e.b [((bxferArgs e g).2.1, (bxferArgs e g).2.2.1)]) = none
  race : (xferLoads kind && strictRace s e (pages.map (·.2))) = false

/-- The state in which the absent lines of a transfer's stash bytes are filled. -/
def xferFilled (s : State) (e : Issuer) (g : Gen) (pages : List (Nat × Nat)) : State :=
  fillLines (pages.foldl (fun s p => noteMiss e.l.ctx s p.1) s) e [((bxferArgs e g).2.1, (bxferArgs e g).2.2.1)]

theorem linesMoved_xferFilled (s : State) (e : Issuer) (g : Gen) (pages : List (Nat × Nat)) : LinesMoved s (xferFilled s e g pages) :=
  linesMoved_trans (linesMoved_charged (charged_foldl _ (fun _ _ => charged_noteMiss _ _ _) _ s)) (linesMoved_fillLines _ _ _)

section
variable {s : State} {e : Issuer} {g : Gen} {kind : XferKind} {pages : List (Nat × Nat)} (hm : BxferMeets s e g)
  (hk : XferMeets s e g kind pages)
include hm hk

theorem bxferAct_begins : bxferAct s e g kind = (let u := xferFilled s e g pages
    .ok { setBlock u (scoreAdd (setPack (refresh u e).b (engAdd (refresh u e).p u.nextId .streamer none))
          { lo := (bxferArgs e g).2.1, hi := (bxferArgs e g).2.1 + (bxferArgs e g).2.2.1 - 1, op := some u.nextId }) with
        nextId := u.nextId + 1
        engine := u.engine ++ [{ id := u.nextId, blk := e.ref.blk, pidx := e.ref.pidx, pos := e.ref.pos,
                                 work := .xfer kind pages (bxferArgs e g).1 (bxferArgs e g).2.1 (bxferArgs e g).2.2.1 0
                                   ((bxferArgs e g).2.2.2.map fun i => (i, g.opx.getLsbD 2)) }] } {}) := by
  obtain ⟨hregs, huni, hroom, hentry, hround⟩ := hm
  obtain ⟨hcause, hordered, hreach, hheld, hrace⟩ := hk
  unfold bxferAct
  rw [firstCause_pair hregs huni]
  dsimp only
  have hfull : ¬ Config.scoreEntries ≤ scoreUsed s e.b.core := by omega
  cases kind with
  | load =>
    simp only [xferNeed, xferLoads, if_true, Bool.true_and] at hcause hreach hrace
    dsimp only
    rw [if_pos rfl, hcause]
    dsimp only
    rw [Bool.false_and, Bool.false_and, if_neg Bool.false_ne_true, hround, if_neg Bool.false_ne_true, hroom, if_neg (by simp),
      if_neg hfull, hreach]
    dsimp only
    rw [hheld]
    dsimp only
    rw [hrace, Bool.and_false, if_neg Bool.false_ne_true]
    rfl
  | store =>
    simp only [xferNeed, xferLoads, Bool.false_eq_true, if_false] at hcause hreach
    dsimp only
    rw [if_neg Bool.false_ne_true, hcause]
    dsimp only
    rw [Bool.false_and, Bool.false_and, if_neg Bool.false_ne_true, hround, if_neg Bool.false_ne_true, hroom, if_neg (by simp),
      if_neg hfull, hreach]
    dsimp only
    rw [hheld]
    rfl
  | red op w =>
    simp only [xferNeed, xferLoads, Bool.false_eq_true, if_false] at hcause hreach
    dsimp only
    rw [if_neg Bool.false_ne_true, hcause]
    dsimp only
    rw [if_neg (by simpa using show op = 10 ∨ op = 11 → _ from hordered), hround, if_neg Bool.false_ne_true, hroom, if_neg (by simp), if_neg hfull, hreach]
    dsimp only
    rw [hheld]
    rfl

/-- A transfer that meets its checks begins. -/
theorem bxfer_begins {i : Instr} {body : Issuer → Act} (hx : exec i s = issue s 8 .last false body) (h : IssuesAlone s e)
    (ha : body e = bxferAct s e g kind) : ∃ v t, exec i s = .next t ∧ Retired v t e 8 {} ∧ ∃ u b, LinesMoved s u ∧
      getBlock u e.ref.blk = some b ∧
      v = { setBlock u (scoreAdd (setPack b (engAdd e.p s.nextId .streamer none))
              { lo := (bxferArgs e g).2.1, hi := (bxferArgs e g).2.1 + (bxferArgs e g).2.2.1 - 1, op := some s.nextId }) with
              nextId := s.nextId + 1
              engine := s.engine ++ [{ id := s.nextId, blk := e.ref.blk, pidx := e.ref.pidx, pos := e.ref.pos,
                                       work := .xfer kind pages (bxferArgs e g).1 (bxferArgs e g).2.1 (bxferArgs e g).2.2.1 0
                                         ((bxferArgs e g).2.2.2.map fun i => (i, g.opx.getLsbD 2)) }] } := by
  have hu := linesMoved_xferFilled s e g pages
  have hid : (xferFilled s e g pages).nextId = s.nextId := by rw [hu.device]
  rw [bxferAct_begins hm hk] at ha
  dsimp only at ha
  obtain ⟨v, t, b, ht, hr, hb, hv⟩ := retires_begun (note := fun c => scoreAdd c
    { lo := (bxferArgs e g).2.1, hi := (bxferArgs e g).2.1 + (bxferArgs e g).2.2.1 - 1, op := some (xferFilled s e g pages).nextId })
    hx h hu (fun _ => rfl) ha
  rw [hid] at hv
  exact ⟨v, t, ht, hr, _, b, hu, hb, hv⟩

end

/-- A reduction that is one of integers in a strict deterministic launch (R198). -/
theorem xferOrdered_red {e : Issuer} {n w : Nat} (h : e.l.det = true → e.l.strict = true → n ≤ 7) : XferOrdered e (.red (BitVec.ofNat 5 n) w) := by
  intro hop hdet
  by_contra hstrict
  have hn := h hdet (by simpa using hstrict)
  rcases hop with hop | hop <;> bv_omega

/-- Settles O27: each form of BXFER hands the streamer its transfer past the checks of its kind. -/
theorem streamerTransfers : Obligations.StreamerTransfers := by
  unfold Obligations.StreamerTransfers
  intro s e g h hround va off len bar red fills begins hregs huni hroom hentry
  have hm : BxferMeets s e g := ⟨hregs, huni, hroom, hentry, hround⟩
  refine ⟨fun hcause pages hpages hheld hrace => ?_, fun hcause pages hpages hheld => ?_,
    fun hcause hcode hint hc pages hpages hheld => ?_⟩
  · exact bxfer_begins (kind := .load) hm ⟨hcause, trivial, hpages, hheld, hrace⟩ rfl h rfl
  · exact bxfer_begins (kind := .store) hm ⟨hcause, trivial, hpages, hheld, rfl⟩ rfl h rfl
  · refine bxfer_begins (kind := red) hm ⟨hcause, xferOrdered_red hint, hpages, hheld, rfl⟩ rfl h ?_
    dsimp only
    rw [hc]
    dsimp only
    rw [hcode]
    rfl

end Sys2Proof.Proofs
end

section
/-! O41: GWAIT (R133, R191, R192, R420). -/

namespace Sys2Proof.Proofs

open Sys2Proof Sys2Proof.Machine Sys2Proof.Safety Sys2Proof.Laws

/-- The operands of GWAIT can be read, and its pattern holds. -/
structure GwaitMeets (s : State) (e : Issuer) (g : G64) : Prop where
  uni : uniCause e [cwOpnd g, { src := g.addr, ty := .b32, wide := false }] = none
  dst : dstCause e (activeLanes e g.pred) (dstOf g.data) 2 = none
  pattern : patOk s e g (fun _ => true) = true

/-- The completion word of a GWAIT with active lanes can be read, and no turn is due. -/
structure GwaitReads (s : State) (e : Issuer) (g : G64) (va pa : Nat) : Prop where
  active : activeLanes e g.pred ≠ []
  addr : cwAddr e g = some va
  aligned : va % 16 = 0
  reach : xlate s e.l.ctx (inSup e.f) .read va = .ok pa
  turn : needsTurn s e = false

section
variable {s : State} {e : Issuer} {g : G64} (hm : GwaitMeets s e g)
include hm

theorem exec_gwait_none (hact : activeLanes e g.pred = []) : ∃ body, exec (.gwait g) s = issue s 8 .never false body ∧
    body e = .ok s { res := latchOf (dstOf g.data) [] [] } := by
  refine ⟨_, rfl, ?_⟩
  dsimp only
  rw [firstCause_pair hm.uni hm.dst]
  dsimp only
  rw [hm.pattern, if_neg (by simp), hact]
  unfold uniformFault
  cases cwCause s e g .read <;> rfl

section
variable {va pa : Nat} (hr : GwaitReads s e g va pa)
include hr

/-- Past its checks GWAIT looks at the count of its word as it was before the line on it was recalled. -/
theorem exec_gwait_word : ∃ body, exec (.gwait g) s = issue s 8 .never false body ∧
    body e = if gReadNat s pa 4 < waitTarget s e g then
        meetOrWait (armOn pa s) e false (.cword pa (waitTarget s e g) (monitorFree s pa)) (armOn pa s)
      else
        let vals := (activeLanes e g.pred).map fun l => (l, gReadNat s pa 8)
        let u := putPack (armOn pa s) e.ref.blk (writeBack (inSup e.f) (dstOf g.data) false 2 vals e.p)
        .ok (syncDone (if g.order = .acquire then acquired u e else u) e) { res := latchOf (dstOf g.data) (activeLanes e g.pred) vals } := by
  have hcause : cwCause s e g .read = none := by
    unfold cwCause
    rw [hr.addr]
    dsimp only
    rw [if_neg (by simpa using hr.aligned), hr.reach]
  have hpa : cwPa s e g .read = some pa := by
    unfold cwPa
    rw [hr.addr]
    dsimp only
    rw [hr.reach]
  refine ⟨_, rfl, ?_⟩
  dsimp only
  rw [firstCause_pair hm.uni hm.dst]
  dsimp only
  rw [hm.pattern, if_neg (by simp), hcause, uniformFault, firstFault_none (by simp)]
  dsimp only
  rw [if_neg (by simpa using hr.active), hr.turn, if_neg Bool.false_ne_true, hpa]
  simp only [Option.getD_some, beq_iff_eq]
  rfl

end

end

/-- Settles O41: GWAIT waits on its word or ends as a synchronising operation with the value that it has read. -/
theorem gridWaits : Obligations.GridWaits := by
  unfold Obligations.GridWaits
  intro s e g h act huni hdst hpat
  have hm : GwaitMeets s e g := ⟨huni, hdst, hpat⟩
  have hnever := burstOk_alone h.2 .never
  refine ⟨fun hact => ?_, fun va pa hact hva hal hxl hturn => ?_⟩
  · obtain ⟨body, hx, hb⟩ := exec_gwait_none hm hact
    exact completes_same hx h.1 hnever (.inl rfl) hb
  · obtain ⟨body, hx, hb⟩ := exec_gwait_word hm ⟨hact, hva, hal, hxl, hturn⟩
    have ha := linesMoved_armOn pa s
    refine ⟨ha, fun hlt => ?_, fun hle => ?_⟩
    · exact meetOrWait_waits hx h ha (hb.trans (if_pos hlt)) rfl
    · rw [if_neg (by omega)] at hb
      dsimp only at hb
      obtain ⟨hres, e', he'⟩ := written_linesMoved ha h.1.2 (dstOf g.data) false 2 (act := act) (fun l hl => mem_activeLanes hl)
        fun _ => gReadNat s pa 8
      generalize putPack (armOn pa s) e.ref.blk _ = u at hb hres he'
      have hv : issuerAt (if g.order = .acquire then acquired u e else u) e.ref = some e' := by
        split
        · exact (charged_issuer (charged_acquired u e) _).trans he'
        · exact he'
      exact completes_synced hx h.1 hnever (.inl rfl) hb hv fun hst => ⟨u, _, hres, rfl, hst⟩

end Sys2Proof.Proofs
end

section
/-! SUPPORT. What leaves memory alone: of each operation of the model that does not write memory, in the order of the model's files,
that `mem` is as before. They serve `simp`; `by rfl` keeps them usable under the binder of a fold (`foldl_mem`). -/

namespace Sys2Proof.Proofs

open Sys2Proof Sys2Proof.Machine Sys2Proof.Safety Sys2Proof.Laws

theorem foldl_mem {α : Type} (g : State → α → State) (hg : ∀ s x, (g s x).mem = s.mem) (l : List α) (s : State) :
    (l.foldl g s).mem = s.mem := by
  induction l generalizing s with
  | nil => rfl
  | cons x l ih => exact (ih _).trans (hg s x)

@[simp] theorem foldl_poisonSector_mem {α : Type} (f : α → Nat) (l : List α) (s : State) :
    (l.foldl (fun s x => poisonSector s (f x)) s).mem = s.mem := foldl_mem _ (fun _ _ => poisonSector_mem _ _) _ _

/-! ### Machine/Mem -/

@[simp] theorem l2Drop_mem (s : State) (p : Nat → L2Line → Bool) : (l2Drop s p).mem = s.mem := by rfl

@[simp] theorem noteMiss_mem (ctx : Nat) (s : State) (va : Nat) : (noteMiss ctx s va).mem = s.mem := by
  unfold noteMiss
  (repeat' split) <;> simp [apply_ite State.mem]

/-! ### Machine/Charge -/

@[simp] theorem count_mem (s : State) (unit rcb idx amount : Nat) : (count s unit rcb idx amount).mem = s.mem := by rfl

@[simp] theorem charge_mem (s : State) (unit act rcb amount : Nat) : (charge s unit act rcb amount).mem = s.mem := by rfl

@[simp] theorem choose_mem (s : State) (n : Nat) : (choose s n).2.mem = s.mem := by rfl

@[simp] theorem chargeTier_mem (s : State) (rcb pa bytes : Nat) : (chargeTier s rcb pa bytes).mem = s.mem := by rfl

@[simp] theorem homeTouch_mem (s : State) (pa n : Nat) : (homeTouch s pa n).1.mem = s.mem := by rfl

@[simp] theorem chargeUncached_mem (s : State) (rcb pa n : Nat) : (chargeUncached s rcb pa n).mem = s.mem := by
  unfold chargeUncached
  split <;> simp

@[simp] theorem chargePages_mem (s : State) (rcb : Nat) (pages : List (Nat × Nat)) (va n : Nat) :
    (chargePages s rcb pages va n).mem = s.mem := by simp [chargePages, chargeMem_mem, foldl_mem]

@[simp] theorem l2Evict_mem (rcb : Nat) (s : State) (line : Nat) : (l2Evict rcb s line).mem = s.mem := by
  unfold l2Evict
  split <;> rfl

/-! ### Machine/Home -/

@[simp] theorem setL1_mem (s : State) (c : Nat) (ls : List L1Line) : (setL1 s c ls).mem = s.mem := by rfl

@[simp] theorem l1Clear_mem (s : State) (c : Nat) : (l1Clear s c).mem = s.mem := by rfl

@[simp] theorem l1DropRange_mem (s : State) (c pa n : Nat) : (l1DropRange s c pa n).mem = s.mem := by rfl

@[simp] theorem l1DropPages_mem (s : State) (c : Nat) (pages : List (Nat × Nat)) (va n : Nat) :
    (l1DropPages s c pages va n).mem = s.mem := by simp [l1DropPages, foldl_mem]

@[simp] theorem l1Fill_mem (s : State) (c pa n : Nat) : (l1Fill s c pa n).mem = s.mem := by
  unfold l1Fill
  dsimp only
  split <;> simp

@[simp] theorem l1Store_mem (s : State) (c pa : Nat) (bs : List Byte) : (l1Store s c pa bs).mem = s.mem := by rfl

@[simp] theorem lastRead_mem (rcb c n : Nat) (s : State) (pa : Nat) : (lastRead rcb c n s pa).mem = s.mem := by
  simp [lastRead, foldl_mem]

/-! ### Machine/Region -/

@[simp] theorem noteLost_mem (s : State) (flush : Bool) : (noteLost s flush).mem = s.mem := by rfl

/-! ### Machine/Block -/

@[simp] theorem completeAt_mem (s : State) (bid pidx pos id : Nat) : (completeAt s bid pidx pos id).mem = s.mem := by
  unfold completeAt
  (repeat' split) <;> rfl

/-! ### Machine/Engine -/

@[simp] theorem dropEngine_mem (s : State) (id : Nat) : (dropEngine s id).mem = s.mem := by rfl

@[simp] theorem putEngine_mem (s : State) (o : EngineOp) : (putEngine s o).mem = s.mem := by rfl

@[simp] theorem countReplay_mem (s : State) (b : Block) (p : PassOp) : (countReplay s b p).mem = s.mem := by rfl

@[simp] theorem doom_mem (s : State) (region ctx pack linear : Nat) (info : TrapInfo) :
    (doom s region ctx pack linear info).mem = s.mem := by rfl

/-! ### Machine/Combine -/

@[simp] theorem splitAnswer_mem {f : State → GOut → Nat → State} (hf : ∀ s g v, (f s g v).mem = s.mem) (t : CombTree)
    (v : Nat) (s : State) : (splitAnswer f t v s).mem = s.mem := by
  induction t generalizing v s with
  | one g => exact hf s g v
  | two l r m ihl ihr => exact (ihr _ _).trans (ihl _ _)

/-! ### Machine/Link -/

@[simp] theorem putLink_mem (s : State) (k : Nat) (l : Link) : (putLink s k l).mem = s.mem := by rfl

@[simp] theorem pump_mem (s : State) (k : Nat) (l : Link) : (pump s k l).mem = s.mem := by rfl

@[simp] theorem enqueue_mem (s : State) (k : Nat) (ws : List PortFlit) : (enqueue s k ws).mem = s.mem := by rfl

@[simp] theorem sendOpen_mem (s : State) (k kind vc n : Nat) : (sendOpen s k kind vc n).mem = s.mem := by rfl

@[simp] theorem acceptFlits_mem (s : State) (k vc n : Nat) : (acceptFlits s k vc n).mem = s.mem := by rfl

/-! ### Machine/Send -/

@[simp] theorem leave_mem (s : State) (g : GOut) : (leave s g).mem = s.mem := by
  unfold leave
  dsimp only
  split <;> simp

@[simp] theorem leavePort_mem (s : State) (t : CombTree) : (leavePort s t).mem = s.mem := by simp [leavePort]

@[simp] theorem flushPort_mem (s : State) : (flushPort s).mem = s.mem := by simp [flushPort, foldl_mem]

@[simp] theorem toPort_mem (s : State) (g : GOut) : (toPort s g).mem = s.mem := by simp [toPort, apply_ite State.mem]

@[simp] theorem sendMarker_mem (s : State) (g : GOut) : (sendMarker s g).mem = s.mem := by
  unfold sendMarker
  split <;> simp

@[simp] theorem releaseMarkers_mem (s : State) : (releaseMarkers s).mem = s.mem := by simp [releaseMarkers, foldl_mem]

@[simp] theorem chargeFabric_mem (s : State) (region n : Nat) (received : Bool) :
    (chargeFabric s region n received).mem = s.mem := by rfl

@[simp] theorem sendMarkers_mem (s : State) (g : GOut) : (sendMarkers s g).mem = s.mem := by
  unfold sendMarkers
  refine foldl_mem _ (fun t m => ?_) _ _
  rw [sendMarker_mem]
  split <;> simp

@[simp] theorem emit_mem (s : State) (g : GOut) : (emit s g).mem = s.mem := by simp [emit, apply_ite State.mem]

@[simp] theorem route_mem (s : State) (g : GOut) : (route s g).mem = s.mem := by
  unfold route
  split <;> simp

@[simp] theorem releaseHeld_mem (s : State) : (releaseHeld s).mem = s.mem := by simp [releaseHeld, foldl_mem]

@[simp] theorem send_mem (region : Nat) (s : State) (g : GOut) : (send region s g).mem = s.mem := by simp [send]

@[simp] theorem sendPoison_mem (region : Nat) (s : State) (gs : List GOut) : (sendPoison region s gs).mem = s.mem := by
  unfold sendPoison
  split <;> simp [foldl_mem]

@[simp] theorem sendPoisonDue_mem (s : State) : (sendPoisonDue s).mem = s.mem := by simp [sendPoisonDue, foldl_mem]

@[simp] theorem sendOn_mem (s : State) (kind dest : Nat) (m : GMsg) (home : Option Nat) :
    (sendOn s kind dest m home).mem = s.mem := by
  unfold sendOn
  dsimp only
  split <;> simp

@[simp] theorem farStore_mem (s : State) (dest ctx va : Nat) (bs : List Byte) : (farStore s dest ctx va bs).mem = s.mem := by
  simp [farStore]

@[simp] theorem farAtom_mem (s : State) (dest ctx va w gop x c : Nat) (home : Option Nat) :
    (farAtom s dest ctx va w gop x c home).mem = s.mem := by simp [farAtom]

@[simp] theorem farLoad_mem (s : State) (dest ctx va w : Nat) (home : Option Nat) :
    (farLoad s dest ctx va w home).mem = s.mem := by simp [farLoad]

@[simp] theorem setPlanemap_mem (s : State) (x : DWord) : (setPlanemap s x).mem = s.mem := by simp [setPlanemap]

/-! ### Machine/HostRegs -/

@[simp] theorem noteSelf_mem (s : State) : (noteSelf s).mem = s.mem := by rfl

@[simp] theorem sysPut_mem (s : State) (n : Nat) (x : DWord) : (sysPut s n x).mem = s.mem := by
  unfold sysPut
  split <;> simp

@[simp] theorem hostSysWrite_mem (s : State) (n x : Nat) : (hostSysWrite s n x).mem = s.mem := by
  simp [hostSysWrite, apply_ite State.mem]

@[simp] theorem putQueue_mem (s : State) (h : HostQueue) : (putQueue s h).mem = s.mem := by rfl

@[simp] theorem noteQueues_mem (s : State) : (noteQueues s).mem = s.mem := by rfl

@[simp] theorem stopQueue_mem (s : State) (q : Nat) : (stopQueue s q).mem = s.mem := by rfl

@[simp] theorem hqerrWrite_mem (s : State) (mask : DWord) : (hqerrWrite s mask).mem = s.mem := by rfl

/-! ### Machine/Ops -/

@[simp] theorem putPack_mem (s : State) (blk : Nat) (p : Pack) : (putPack s blk p).mem = s.mem := by
  unfold putPack
  split <;> rfl

@[simp] theorem putFrag_mem (s : State) (r : FragRef) (f : Fragment) : (putFrag s r f).mem = s.mem := by
  unfold putFrag
  (repeat' split) <;> rfl

@[simp] theorem chargeIssue_mem (s : State) (e : Issuer) : (chargeIssue s e).mem = s.mem := by rfl

@[simp] theorem retire_mem (s : State) (e : Issuer) (len : Nat) (r : Retire) : (retire s e len r).mem = s.mem := by
  unfold retire
  split <;> simp

@[simp] theorem blockPoison_mem (s : State) (b : Block) : (blockPoison s b).mem = s.mem := by
  unfold blockPoison
  exact foldl_mem _ (fun _ _ => sendPoison_mem _ _ _) _ _

@[simp] theorem removeBlock_mem (s : State) (bid : Nat) : (removeBlock s bid).mem = s.mem := by rfl

@[simp] theorem enterHandler_mem (s : State) (r : FragRef) (t : TrapInfo) : (enterHandler s r t).mem = s.mem := by
  unfold enterHandler
  split <;> simp

/-! ### Machine/Det -/

@[simp] theorem noteEffect_mem (s : State) (lid seq pa : Nat) (old new : List Byte) :
    (noteEffect s lid seq pa old new).mem = s.mem := by
  unfold noteEffect
  split <;> rfl

@[simp] theorem nextQuantum_mem (s : State) (l : Launch) : (nextQuantum s l).mem = s.mem := by
  unfold nextQuantum
  dsimp only
  split <;> simp

@[simp] theorem wakeFrag_mem (s : State) (r : FragRef) : (wakeFrag s r).mem = s.mem := by
  unfold wakeFrag
  split <;> simp

@[simp] theorem syncDone_mem (s : State) (e : Issuer) : (syncDone s e).mem = s.mem := by
  unfold syncDone
  split
  · rfl
  · split
    · rfl
    · rw [foldl_mem]
      · simp
      · intro t r
        split
        · rfl
        · dsimp only
          split
          · split <;> simp
          · rfl

/-! ### Machine/Control -/

@[simp] theorem mergeRegang_mem (s : State) (e : Issuer) : (mergeRegang s e).mem = s.mem := by
  unfold mergeRegang
  rw [putPack_mem]
  refine foldl_mem _ (fun t j => ?_) _ _
  split <;> simp

@[simp] theorem regroup_mem (s : State) (blk pidx pos n : Nat) : (regroup s blk pidx pos n).mem = s.mem := by
  induction n generalizing s with
  | zero => rfl
  | succ n ih =>
    unfold regroup
    split
    · rfl
    · split
      · rfl
      · rw [ih, mergeRegang_mem]

@[simp] theorem acquired_mem (s : State) (e : Issuer) : (acquired s e).mem = s.mem := by rfl

@[simp] theorem wakeAcquire_mem (s : State) (e : Issuer) (w : Wait) : (wakeAcquire s e w).mem = s.mem := by
  unfold wakeAcquire
  split <;> rfl

/-! ### Machine/GridHome -/

@[simp] theorem answer_mem (s : State) (m : GMsg) (kind : Nat) (change : GMsg → GMsg) :
    (answer s m kind change).mem = s.mem := by
  unfold answer
  split <;> simp

@[simp] theorem acknowledge_mem (s : State) (m : GMsg) (n : Nat) (refused poison : Bool) :
    (acknowledge s m n refused poison).mem = s.mem := by simp [acknowledge]

@[simp] theorem refuseLane_mem (s : State) (m : GMsg) (code : Nat) : (refuseLane s m code).mem = s.mem := by simp [refuseLane]

@[simp] theorem settlePart_mem (s : State) (m : GMsg) (refused : Bool) : (settlePart s m refused).mem = s.mem := by
  simp [settlePart, apply_ite State.mem]

@[simp] theorem forward_mem (s : State) (t : CombTree) (dest : Nat) : (forward s t dest).mem = s.mem := by simp [forward]

@[simp] theorem settleStash_mem (s : State) (m : GMsg) (refused : Bool) : (settleStash s m refused).mem = s.mem := by
  simp [settleStash, apply_ite State.mem]

@[simp] theorem dropBatch_mem (s : State) (b : Batch) : (dropBatch s b).mem = s.mem := by rfl

@[simp] theorem putBatch_mem (s : State) (b : Batch) : (putBatch s b).mem = s.mem := by rfl

@[simp] theorem ackLeaves_mem (s : State) (t : CombTree) (refused : Bool) : (ackLeaves s t refused).mem = s.mem := by
  simp [ackLeaves, foldl_mem]

@[simp] theorem settleRelease_mem (s : State) (h : HeldRelease) (n : Nat) : (settleRelease s h n).mem = s.mem := by rfl

@[simp] theorem fromLink_mem (s : State) (g : GOut) : (fromLink s g).mem = s.mem := by
  unfold fromLink
  split <;> rfl

/-! ### Machine/Task -/

@[simp] theorem startTask_mem (s : State) (cls : Nat) (arg0 : DWord) (task : Option TileTask) :
    (startTask s cls arg0 task).mem = s.mem := by
  unfold startTask
  split <;> rfl

@[simp] theorem spawnTask_mem (s : State) (counter cls : Nat) : (spawnTask s counter cls).mem = s.mem := by
  unfold spawnTask
  split <;> simp

@[simp] theorem startSpawn_mem (s : State) : (startSpawn s).mem = s.mem := by
  unfold startSpawn
  split <;> simp

@[simp] theorem putCounter_mem (s : State) (n : Nat) (c : DepCounter) : (putCounter s n c).mem = s.mem := by rfl

@[simp] theorem counterZero_mem (s : State) (n : Nat) : (counterZero s n).mem = s.mem := by
  unfold counterZero
  split <;> simp

@[simp] theorem counterTo_mem (s : State) (n x : Nat) : (counterTo s n x).mem = s.mem := by
  simp [counterTo, apply_ite State.mem]

@[simp] theorem counterUp_mem (s : State) (ctx n : Nat) : (counterUp s ctx n).mem = s.mem := by
  unfold counterUp
  split <;> simp

@[simp] theorem counterDown_mem (s : State) (ctx n : Nat) : (counterDown s ctx n).mem = s.mem := by
  unfold counterDown
  split <;> simp

/-! ### Machine/Ert -/

@[simp] theorem tlbDrop_mem (s : State) (ctx va len : Nat) : (tlbDrop s ctx va len).mem = s.mem := by rfl

@[simp] theorem dropDst_mem (s : State) (n : Nat) : (dropDst s n).mem = s.mem := by rfl

@[simp] theorem modBatch_mem (s : State) (slot : Nat) (sel : BatchState → Bool) (f : BatchState → BatchState) :
    (modBatch s slot sel f).mem = s.mem := by
  unfold modBatch
  split <;> rfl

@[simp] theorem releaseRow_mem (void : Bool) (s : State) (e : KennelEntry) : (releaseRow void s e).mem = s.mem := by
  unfold releaseRow
  split <;> simp

@[simp] theorem chargeFetch_mem (s : State) (n : Nat) : (chargeFetch s n).mem = s.mem := by
  unfold chargeFetch
  split <;> simp [foldl_mem]

@[simp] theorem passAbsent_mem (s : State) (i : Nat) : (passAbsent s i).mem = s.mem := by rfl

/-! ### Machine/Fetch -/

@[simp] theorem startRun_mem (s : State) (e : Issuer) : (startRun s e).mem = s.mem := by rfl

@[simp] theorem takeTurn_mem (s : State) (e : Issuer) : (takeTurn s e).mem = s.mem := by simp [takeTurn]

/-! ### Machine/Memory -/

@[simp] theorem chargeSectors_mem (s : State) (region : Nat) (as : List (Nat × Nat)) :
    (chargeSectors s region as).mem = s.mem := by simp [chargeSectors, chargeMem_mem, foldl_mem]

@[simp] theorem chargeDirect_mem (s : State) (region : Nat) (as : List (Nat × Nat)) :
    (chargeDirect s region as).mem = s.mem := foldl_mem _ (fun _ _ => by simp) _ _

@[simp] theorem chargeLanes_mem (s : State) (e : Issuer) (m : M64) (n : Nat) (as : List (Nat × Nat)) :
    (chargeLanes s e m n as).mem = s.mem := by simp [chargeLanes, foldl_mem]

@[simp] theorem laneOrder_mem (s : State) (e : Issuer) (n : Nat) (as : List (Nat × Nat)) :
    (laneOrder s e n as).2.mem = s.mem := by
  unfold laneOrder
  split <;> rfl

@[simp] theorem l1After_mem (e : Issuer) (m : M64) (far all : List (Nat × Nat)) (s : State) :
    (l1After e m far all s).mem = s.mem := by simp [l1After, foldl_mem, apply_ite State.mem]

@[simp] theorem stashLanes_mem (s : State) (e : Issuer) (n : Nat) (val : Nat → Nat) (as : List (Nat × Nat)) :
    (stashLanes s e n val as).mem = s.mem := by
  unfold stashLanes
  refine foldl_mem _ (fun t o => ?_) _ _
  split <;> simp

@[simp] theorem prefLane_mem (e : Issuer) (m : M64) (s : State) (l : Nat) : (prefLane e m s l).mem = s.mem := by
  unfold prefLane
  dsimp only
  split <;> simp [chargeMem_mem, apply_ite State.mem]

/-! ### Machine/GridOps -/

@[simp] theorem writeReply_mem (s : State) (o : GridOp) (l x : Nat) : (writeReply s o l x).mem = s.mem := by
  unfold writeReply
  (repeat' split) <;> rfl

@[simp] theorem setGridOp_mem (s : State) (o : GridOp) : (setGridOp s o).mem = s.mem := by rfl

@[simp] theorem gridAcquire_mem (s : State) (o : GridOp) : (gridAcquire s o).mem = s.mem := by
  unfold gridAcquire
  split <;> simp [apply_ite State.mem]

@[simp] theorem relayAnswer_mem (kind : Nat) (a : GMsg) (s : State) (leaf : GOut) (v : Nat) :
    (relayAnswer kind a s leaf v).mem = s.mem := by
  unfold relayAnswer
  split <;> simp [apply_ite State.mem]

@[simp] theorem sendOp_mem (s : State) (e : Issuer) (o : GridOp) (gs : List GOut) : (sendOp s e o gs).mem = s.mem := by
  simp [sendOp, foldl_mem]

/-! ### Machine/Matrix -/

@[simp] theorem markPartners_mem (s : State) (e : Issuer) (octs : List Nat) : (markPartners s e octs).mem = s.mem := by
  unfold markPartners
  (repeat' split) <;> rfl

@[simp] theorem formPasses_mem (code : Nat) (x : State × Block × Nat) (g : Nat × Nat) :
    (formPasses code x g).1.mem = x.1.mem := by rfl

@[simp] theorem chargePasses_mem (s : State) (e : Issuer) (x : X64) (sparse : Bool) (fmt : Nat) (octs : List Nat) :
    (chargePasses s e x sparse fmt octs).mem = s.mem := by
  unfold chargePasses
  have hf : ∀ (gs : List (Nat × Nat)) (x : State × Block × Nat),
      (gs.foldl (formPasses (fmt + 8 * bit sparse)) x).1.mem = x.1.mem := by
    intro gs
    induction gs with
    | nil => exact fun _ => rfl
    | cons g gs ih => exact fun x => (ih _).trans (formPasses_mem _ x g)
  simp [hf]

@[simp] theorem drainStart_mem (e : Issuer) (s : State) (x : Bool × List DrainElem) : (drainStart e s x).mem = s.mem := by
  unfold drainStart
  split <;> rfl

/-! ### Machine/Expert -/

@[simp] theorem leaveX_mem (s : State) (x : XMsg) : (leaveX s x).mem = s.mem := by
  unfold leaveX
  split <;> rfl

@[simp] theorem fromXLink_mem (s : State) (x : XMsg) : (fromXLink s x).mem = s.mem := by
  unfold fromXLink
  split <;> rfl

@[simp] theorem sendX_mem (s : State) (x : XMsg) : (sendX s x).mem = s.mem := by simp [sendX, apply_ite State.mem]

@[simp] theorem putDispatch_mem (s : State) (d : Dispatch) : (putDispatch s d).mem = s.mem := by rfl

@[simp] theorem putGate_mem (s : State) (n : Nat) (g : GateSlot) : (putGate s n g).mem = s.mem := by rfl

@[simp] theorem modGate_mem (s : State) (n : Nat) (f : GateSlot → GateSlot) : (modGate s n f).mem = s.mem := by
  unfold modGate
  split <;> rfl

@[simp] theorem endSlot_mem (s : State) (d : Dispatch) (i : Nat) (x : SlotState) (status k : Nat) :
    (endSlot s d i x status k).mem = s.mem := by simp [endSlot]

@[simp] theorem sendAttempt_mem (s : State) (d : Dispatch) (i : Nat) : (sendAttempt s d i).mem = s.mem := by
  unfold sendAttempt
  (repeat' split) <;> simp [apply_ite State.mem]

@[simp] theorem walkSlot_mem (s : State) (d : Dispatch) (i : Nat) : (walkSlot s d i).mem = s.mem := by
  unfold walkSlot
  (repeat' split) <;> simp

@[simp] theorem rowReply_mem (s : State) (r : RowReply) : (rowReply s r).mem = s.mem := by
  unfold rowReply
  (repeat' split) <;> simp [apply_ite State.mem]

@[simp] theorem walkRound_mem (s : State) (slot batch : Nat) : (walkRound s slot batch).mem = s.mem := by
  unfold walkRound
  refine foldl_mem _ (fun t d => foldl_mem _ (fun u i => ?_) _ _) _ _
  split
  · rfl
  · split
    · split <;> simp
    · rfl

@[simp] theorem sendMark_mem (s : State) (slot : Nat) (g : GateSlot) (m : MarkDue) : (sendMark s slot g m).mem = s.mem := by
  simp [sendMark, apply_ite State.mem]

@[simp] theorem settleClose_mem (s : State) (slot : Nat) : (settleClose s slot).mem = s.mem := by
  unfold settleClose
  (repeat' split) <;> simp

@[simp] theorem settleCloses_mem (s : State) : (settleCloses s).mem = s.mem := by simp [settleCloses, foldl_mem]

@[simp] theorem closeBatch_mem (s : State) (slot : Nat) (g : GateSlot) (m : BatchState) :
    (closeBatch s slot g m).mem = s.mem := by simp [closeBatch, apply_ite State.mem]

@[simp] theorem replyTo_mem (s : State) (r : TokenRow) (a : RowAnswer) : (replyTo s r a).mem = s.mem := by simp [replyTo]

@[simp] theorem voidPosition_mem (s : State) (slot j e i : Nat) : (voidPosition s slot j e i).mem = s.mem := by
  simp [voidPosition]

@[simp] theorem takeLoads_mem (s : State) (slot j : Nat) (ls : List (Nat × Nat)) : (takeLoads s slot j ls).mem = s.mem := by
  simp [takeLoads]

/-! ### Machine/ExpertInstr -/

@[simp] theorem installGate_mem (s : State) (slot n : Nat) (g : GateSlot) : (installGate s slot n g).mem = s.mem := by rfl

@[simp] theorem putClass_mem (s : State) (e : Issuer) (c n reason : Nat) : (putClass s e c n reason).mem = s.mem := by rfl

@[simp] theorem setCounter_mem (s : State) (e : Issuer) (n v c : Nat) : (setCounter s e n v c).mem = s.mem := by
  unfold setCounter
  split <;> simp

/-! ### Machine/Net -/

@[simp] theorem putChan_mem (s : State) (c : Channel) : (putChan s c).mem = s.mem := by rfl

@[simp] theorem modChan_mem (s : State) (ctx table ch : Nat) (f : Channel → Channel) :
    (modChan s ctx table ch f).mem = s.mem := by rfl

@[simp] theorem installChan_mem (s : State) (ctx table ch region : Nat) (entry : BitVec 512) :
    (installChan s ctx table ch region entry).mem = s.mem := by
  unfold installChan
  split <;> rfl

@[simp] theorem fireArms_mem (s : State) (ctx : Nat) (tag : BitVec 64) (addr : Nat) :
    (fireArms s ctx tag addr).mem = s.mem := by rfl

@[simp] theorem chargeNet_mem (s : State) (rcb n : Nat) (received : Bool) : (chargeNet s rcb n received).mem = s.mem := by rfl

@[simp] theorem putReq_mem (s : State) (q : NeReq) : (putReq s q).mem = s.mem := by rfl

@[simp] theorem sendSeg_mem (s : State) (q : NeReq) (g : SegState) : (sendSeg s q g).mem = s.mem := by simp [sendSeg]

@[simp] theorem reportSeg_mem (s : State) (c : Channel) (id : NeId) (psn : Nat) : (reportSeg s c id psn).mem = s.mem := by
  unfold reportSeg
  split <;> simp [foldl_mem]

@[simp] theorem putRecv_mem (s : State) (r : NeRecv) : (putRecv s r).mem = s.mem := by rfl

@[simp] theorem tookSeg_mem (s : State) (c : Channel) (g : NeSeg) : (tookSeg s c g).mem = s.mem := by rfl

@[simp] theorem answerSeg_mem (c : Channel) (g : NeSeg) (ps : List (Nat × Nat)) (k first : Nat) (s : State) (i : Nat) :
    (answerSeg c g ps k first s i).mem = s.mem := by
  unfold answerSeg
  split <;> simp

@[simp] theorem answerRead_mem (s : State) (c : Channel) (g : NeSeg) (ps : List (Nat × Nat)) :
    (answerRead s c g ps).mem = s.mem := by
  unfold answerRead
  split <;> simp [foldl_mem]

@[simp] theorem pollEffect_mem (s : State) (c : Channel) (ps : List (Nat × Nat)) (va : Nat) :
    (pollEffect s c ps va).1.mem = s.mem := by
  unfold pollEffect
  split <;> rfl

/-! ### Machine/System -/

@[simp] theorem issuerPut_mem (s : State) (e : Issuer) (n : Nat) (x : DWord) : (issuerPut s e n x).mem = s.mem := by
  unfold issuerPut
  split <;> simp

@[simp] theorem chargeMove_mem (s : State) (rcb pa n : Nat) : (chargeMove s rcb pa n).mem = s.mem := by rfl

@[simp] theorem dropTable_mem (s : State) (ctx va n : Nat) : (dropTable s ctx va n).mem = s.mem := by rfl

@[simp] theorem shiftRequests_mem (s : State) (f : Nat → Nat) : (shiftRequests s f).mem = s.mem := by rfl

@[simp] theorem farRequests_mem (s : State) (p : Page) (dest : Nat) : (farRequests s p dest).mem = s.mem := by rfl

/-! ### Machine/Host -/

@[simp] theorem reply_mem (s : State) (pa : Nat) (x : Option Nat) : (reply s pa x).mem = s.mem := by rfl

@[simp] theorem hostLost_mem (s : State) : (hostLost s).mem = s.mem := by rfl

@[simp] theorem resendGrid_mem (s : State) (ctx va : Nat) (r : HomeReq) (dest : Nat) :
    (resendGrid s ctx va r dest).mem = s.mem := by
  unfold resendGrid
  split <;> simp

/-! ### Machine/Sched -/

@[simp] theorem regate_mem (s : State) (c : Nat) : (regate s c).mem = s.mem := by rfl

@[simp] theorem placeChunk_mem (s : State) (l : Launch) (c : Nat) : (placeChunk s l c).mem = s.mem := by rfl

@[simp] theorem chargeArg_mem (s : State) (l : Launch) : (chargeArg s l).mem = s.mem := by
  unfold chargeArg
  split <;> simp

@[simp] theorem startHead_mem (s : State) (c linear : Nat) (l : Launch) : (startHead s c linear l).mem = s.mem := by
  unfold startHead
  split <;> simp

@[simp] theorem stealFrom_mem (s : State) (thief victim : Nat) : (stealFrom s thief victim).mem = s.mem := by
  unfold stealFrom
  dsimp only
  split <;> simp

@[simp] theorem stealAttempt_mem (s : State) (c : Nat) : (stealAttempt s c).mem = s.mem := by
  simp [stealAttempt, apply_ite State.mem]

@[simp] theorem endRun_mem (s : State) (k : Nat) (e : Issuer) : (endRun s k e).mem = s.mem := by
  unfold endRun
  split <;> simp

@[simp] theorem resumeFrag_mem (s : State) (r : FragRef) : (resumeFrag s r).mem = s.mem := by
  unfold resumeFrag
  split <;> simp [apply_ite State.mem]

@[simp] theorem pollWord_mem (s : State) (e : Issuer) (pa w : Nat) : (pollWord s e pa w).mem = s.mem := by
  simp [pollWord, chargeMem_mem, apply_ite State.mem]

/-! ### Machine/Events -/

@[simp] theorem chargeWalk_mem (s : State) (w : Walk) : (chargeWalk s w).mem = s.mem := by
  unfold chargeWalk
  split <;> simp [chargeMem_mem, foldl_mem]

@[simp] theorem putTlb_mem (s : State) (e : TlbEntry) : (putTlb s e).mem = s.mem := by rfl

@[simp] theorem walkFound_mem (s : State) (w : Walk) (p : Page) : (walkFound s w p).mem = s.mem := by
  simp [walkFound, foldl_mem]

@[simp] theorem walkEnds_mem (s : State) (w : Walk) : (walkEnds s w).mem = s.mem := by
  unfold walkEnds
  split <;> simp [apply_ite State.mem]

@[simp] theorem memoryError_mem (s : State) (sector : Nat) : (memoryError s sector).mem = s.mem := by
  unfold memoryError
  dsimp only
  split <;> simp [apply_ite State.mem]

@[simp] theorem noteCorrected_mem (s : State) : (noteCorrected s).mem = s.mem := by rfl

@[simp] theorem noteUncorrected_mem (s : State) : (noteUncorrected s).mem = s.mem := by rfl

@[simp] theorem tagError_mem (s : State) (line : Nat) : (tagError s line).mem = s.mem := by
  unfold tagError
  dsimp only
  repeat' split
  all_goals simp

@[simp] theorem scrubSector_mem (s : State) (sector : Nat) (x : ScrubResult) : (scrubSector s sector x).mem = s.mem := by
  unfold scrubSector
  split <;> simp

/-! ### Machine/Fabric -/

@[simp] theorem sendCtl_mem (s : State) (k : Nat) (f : CtlFlit) : (sendCtl s k f).mem = s.mem := by rfl

@[simp] theorem takeFlit_mem (s : State) (k : Nat) : (takeFlit s k).mem = s.mem := by rfl

@[simp] theorem resendFlits_mem (s : State) (k : Nat) (ws : List PortFlit) : (resendFlits s k ws).mem = s.mem := by rfl

@[simp] theorem moveFlits_mem (s : State) (old : Link) (k : Nat) : (moveFlits s old k).mem = s.mem := by
  unfold moveFlits
  dsimp only
  split <;> simp

@[simp] theorem retrain_mem (s : State) (k : Nat) : (retrain s k).mem = s.mem := by simp [retrain]

/-! ### Machine/GridInstr -/

@[simp] theorem gstOrder_mem (s : State) (e : Issuer) (n : Nat) (as : List (Nat × Nat)) :
    (gstOrder s e n as).2.mem = s.mem := by simp [gstOrder]

@[simp] theorem gcopyEntry_mem (s : State) (e : Issuer) (g : G64) : (gcopyEntry s e g).mem = s.mem := by
  unfold gcopyEntry
  split
  simp [apply_ite State.mem]

/-! ### Machine/Mgmt -/

@[simp] theorem putIsland_mem (s : State) (n : Nat) (x : Island) : (putIsland s n x).mem = s.mem := by rfl

@[simp] theorem splitEnergy_mem (s : State) (n nj : Nat) : (splitEnergy s n nj).mem = s.mem := by simp [splitEnergy, foldl_mem]

@[simp] theorem respond_mem (s : State) (bs : List Byte) : (respond s bs).mem = s.mem := by rfl

@[simp] theorem takeSnapshotOf_mem (s : State) (ctx : Nat) (nonce : BitVec 256) : (takeSnapshotOf s ctx nonce).mem = s.mem := by
  unfold takeSnapshotOf
  split <;> rfl

/-! ### Machine/Internal -/

@[simp] theorem withMates_mem (s : State) (e : Issuer) (i : Instr) : (withMates s e i).mem = s.mem := by rfl

@[simp] theorem joinTurn_mem (s : State) (e : Issuer) : (joinTurn s e).mem = s.mem := by
  unfold joinTurn
  split <;> simp

@[simp] theorem coTurn_mem (s : State) : (coTurn s).1.mem = s.mem := by
  unfold coTurn
  split <;> rfl

end Sys2Proof.Proofs
end

section
/-! SUPPORT. Every operation of the model that writes memory keeps its canonical form (`Memory.wf`), and so do the instructions'
meanings; in the order of the model's files. Laws/Canonical.lean has the operations on memory themselves. -/

namespace Sys2Proof.Proofs

open Sys2Proof Sys2Proof.Machine Sys2Proof.Safety Sys2Proof.Laws

/-! ### The form of what an operation gives -/

/-- The state that an instruction's end holds has canonical memory. -/
def WfAct : Act → Prop
  | .ok s _ => Memory.wf s.mem = true
  | .own s => Memory.wf s.mem = true
  | _ => True

/-- A state that is there has canonical memory. -/
def WfSome : Option State → Prop
  | some s => Memory.wf s.mem = true
  | none => True

/-- The state that an instruction or a step comes to has canonical memory. -/
def WfNext : Host.Outcome State Fault Refusal → Prop
  | .next s => Memory.wf s.mem = true
  | _ => True

@[simp] theorem wfAct_ok {s : State} {r : Retire} : WfAct (.ok s r) ↔ Memory.wf s.mem = true := Iff.rfl
@[simp] theorem wfAct_own {s : State} : WfAct (.own s) ↔ Memory.wf s.mem = true := Iff.rfl
@[simp] theorem wfAct_trap {t : TrapInfo} : WfAct (.trap t) := trivial
@[simp] theorem wfAct_wait {st : FragState} {w : Wait} : WfAct (.wait st w) := trivial
@[simp] theorem wfAct_endRun : WfAct .endRun := trivial
@[simp] theorem wfSome_some {s : State} : WfSome (some s) ↔ Memory.wf s.mem = true := Iff.rfl
@[simp] theorem wfSome_none : WfSome none := trivial
@[simp] theorem wfNext_next {s : State} : WfNext (.next s) ↔ Memory.wf s.mem = true := Iff.rfl
@[simp] theorem wfNext_fault {f : Fault} : WfNext (.fault f) := trivial

@[simp] theorem wf_due {b : Bool} {s : State} : WfSome (due b s) ↔ (b = true → Memory.wf s.mem = true) := by
  cases b <;> simp [due]

@[simp] theorem wf_occur {s : State} (h : Memory.wf s.mem = true) {r : Option State} (hr : WfSome r) : WfNext (occur s r) := by
  cases r with
  | none => exact h
  | some t => exact hr

theorem wf_guard {c : Prop} [Decidable c] {o : Option State} (h : WfSome o) : WfSome (if c then o else none) := by
  split
  · exact h
  · trivial

theorem wf_map_some {α : Type} {o : Option α} {f : α → State} (h : ∀ x, Memory.wf (f x).mem = true) : WfSome (o.map f) := by
  cases o with
  | none => trivial
  | some x => exact h x

/-! ### The shared frames of meanings -/

@[simp] theorem wf_octetAct {a : Act} (ha : WfAct a) : WfAct (octetAct a) := by cases a <;> exact ha

@[simp] theorem wf_trapTarget (e : Issuer) (cause : Nat) (target : DWord) : WfAct (trapTarget e cause target) := trivial

@[simp] theorem wf_withPoison {a : Act} (ha : WfAct a) (s : State) (e : Issuer) (g : G64) (kind : Nat) (act : List Nat) :
    WfAct (withPoison s e g kind act a) := by cases a <;> exact ha

theorem wf_afterPasses (e : Issuer) (tiles : List Nat) {k : Act} (hk : WfAct k) : WfAct (afterPasses e tiles k) := by
  unfold afterPasses
  split
  · exact hk
  · trivial

theorem wf_ertAct (e : Issuer) (g : Gen) {f : Nat → Act} (hf : ∀ i, WfAct (f i)) : WfAct (ertAct e g f) := by
  unfold ertAct
  split
  · trivial
  · dsimp only
    split
    · trivial
    · exact hf _

theorem wf_ertUse (s : State) (e : Issuer) (g : Gen) {f : Nat → Nat → Act} (hf : ∀ i n, WfAct (f i n)) :
    WfAct (ertUse s e g f) := by
  refine wf_ertAct e g fun i => ?_
  dsimp only
  split
  · trivial
  · exact hf _ _

theorem wf_barAct (s : State) (e : Issuer) (g : Gen) {f : Nat → Nat → Act} (hf : ∀ i n, WfAct (f i n)) :
    WfAct (barAct s e g f) := by
  unfold barAct
  split
  · trivial
  · split
    · trivial
    · dsimp only
      split
      · trivial
      · exact hf _ _

theorem wf_barUse (s : State) (e : Issuer) (g : Gen) {f : Nat → Barrier → Nat → Act} (hf : ∀ i x n, WfAct (f i x n)) :
    WfAct (barUse s e g f) := by
  refine wf_barAct s e g fun i n => ?_
  split
  · trivial
  · exact hf _ _ _

theorem wf_depAct (s : State) (e : Issuer) (g : Gen) {f : Nat → Nat → Except Nat State}
    (hf : ∀ n v t, f n v = .ok t → Memory.wf t.mem = true) : WfAct (depAct s e g f) := by
  unfold depAct sameResult
  dsimp only
  repeat' split
  all_goals simp
  all_goals exact hf _ _ _ ‹_›

theorem wf_firstMove {s : State} {l : List Move} (hl : ∀ m ∈ l, WfSome (m s)) : WfSome (firstMove s l) := by
  unfold firstMove
  cases hf : l.findSome? fun m => m s with
  | none => trivial
  | some t =>
    obtain ⟨m, hm, ht⟩ := List.exists_of_findSome?_eq_some hf
    exact ht ▸ hl m hm

theorem wf_splitAnswer {f : State → GOut → Nat → State} (hf : ∀ s g v, Memory.wf s.mem = true → Memory.wf (f s g v).mem = true)
    (t : CombTree) (v : Nat) {s : State} (hs : Memory.wf s.mem = true) : Memory.wf (splitAnswer f t v s).mem = true := by
  induction t generalizing v s with
  | one g => exact hf s g v hs
  | two l r m ihl ihr => exact ihr _ (ihl _ hs)

/-- The places may be any: that they are not computed keeps the check of this fold short. -/
theorem wf_foldl_gWriteNat {α : Type} (pa : State → α → Nat) (n x : Nat) (l : List α) {s : State} (hs : Memory.wf s.mem = true) :
    Memory.wf (l.foldl (fun s a => gWriteNat s (pa s a) n x) s).mem = true :=
  wf_foldl _ (fun _ _ ht => wf_gWriteNat ht _ _ _) l hs

/-- `park` with the place of the entry in memory left open: computing it would make the checks of proofs about `park` long. -/
theorem park_eq (s : State) (e : KennelEntry) : ∃ a u,
    u = gWriteNat { s with kennel := s.kennel ++ [{ e with place := kennelPlace s }] } a 16
      (kennelWord { e with place := kennelPlace s }) ∧
    park s e = if ertState (ertEntry u e.ert) = 0
      then startFetch (putErt u e.ert (setErtParked (ertEntry u e.ert) (ertParked (ertEntry u e.ert) + 1))) e.ert
      else putErt u e.ert (setErtParked (ertEntry u e.ert) (ertParked (ertEntry u e.ert) + 1)) := by
  unfold park
  exact ⟨kennelBase s + 16 * kennelPlace s, _, rfl, rfl⟩

section

variable {s : State} (hs : Memory.wf s.mem = true)
include hs

/-! ### Machine/Region -/

@[simp] theorem wf_postTo (domain record : Nat) : Memory.wf (postTo s domain record).mem = true := by
  simp [postTo, hs, wf_gWriteNat, apply_ite State.mem, apply_ite Memory.wf]

@[simp] theorem wf_postEvent (rcb record : Nat) : Memory.wf (postEvent s rcb record).mem = true := by simp [postEvent, hs]

@[simp] theorem wf_postMemoryError (rcb block addr : Nat) : Memory.wf (postMemoryError s rcb block addr).mem = true := by
  simp [postMemoryError, hs]

@[simp] theorem wf_flushOne (h : Shadow) : Memory.wf (flushOne s h).mem = true := by
  unfold flushOne
  refine wf_foldl _ (fun t r ht => ?_) _ hs
  dsimp only
  split <;> simp [ht, wf_gWriteNat]

@[simp] theorem wf_flushWhere (p : Shadow → Bool) : Memory.wf (flushWhere s p).mem = true := by
  unfold flushWhere
  exact wf_foldl _ (fun t x ht => by simp [ht]) _ hs

@[simp] theorem wf_postHeld (unit act rcb : Nat) : Memory.wf (postHeld s unit act rcb).mem = true := by
  unfold postHeld
  (repeat' split) <;> simp [hs]

/-! ### Machine/Block -/

@[simp] theorem wf_doFill (bid line pa : Nat) : Memory.wf (doFill s bid line pa).mem = true := by
  unfold doFill
  dsimp only
  (repeat' split) <;> simp [hs, wf_recallLine, chargeMem_mem]

@[simp] theorem wf_engineFill (ctx bid o n : Nat) : Memory.wf (engineFill s ctx bid o n).mem = true := by
  unfold engineFill
  split
  · simp [hs]
  · exact wf_foldl _ (fun t x ht => by (repeat' split) <;> simp [ht]) _ hs

@[simp] theorem wf_engineStash (ctx bid o : Nat) (bs : List Byte) (poisoned : List Nat) :
    Memory.wf (engineStash s ctx bid o bs poisoned).mem = true := by
  unfold engineStash
  dsimp only
  split <;> simp [hs]

@[simp] theorem wf_reportLost : Memory.wf (reportLost s).mem = true := by
  unfold reportLost
  exact wf_foldl _ (fun t x ht => by simp [ht]) _ hs

@[simp] theorem wf_cleanLine (bid : Nat) (l : StashLine) : Memory.wf (cleanLine bid s l).mem = true := by
  unfold cleanLine
  (repeat' split) <;> simp [hs, wf_writeBackLine]

@[simp] theorem wf_cleanLines (b : Block) (sel : StashLine → Bool) : Memory.wf (cleanLines s b sel).mem = true := by
  unfold cleanLines
  exact wf_reportLost (wf_foldl _ (fun _ _ ht => wf_cleanLine ht _ _) _ hs)

@[simp] theorem wf_barLost (b : Block) (i : Nat) (next : Bool) (n : Nat) : Memory.wf (barLost s b i next n).mem = true := by
  unfold barLost
  split <;> simp [hs]

@[simp] theorem wf_barDeliver (bid i : Nat) (next : Bool) (n : Nat) : Memory.wf (barDeliver s bid i next n).mem = true := by
  unfold barDeliver
  (repeat' split) <;> simp [hs, apply_ite State.mem, apply_ite Memory.wf]

/-! ### Machine/Engine -/

@[simp] theorem wf_copyLane (bid ctx region linear size : Nat) (l : CopyLane) :
    Memory.wf (copyLane s bid ctx region linear size l).mem = true := by
  unfold copyLane
  dsimp only
  split <;> simp [hs, chargeMem_mem]

@[simp] theorem wf_copyLand (o : EngineOp) (size : Nat) (lanes : List CopyLane) :
    Memory.wf (copyLand s o size lanes).mem = true := by
  unfold copyLand
  split
  · simp [hs]
  · rename_i b _
    obtain ⟨ctx, region⟩ := blockCtx s b
    have hc := wf_foldl _ (fun t l ht => wf_copyLane ht o.blk ctx region b.linear size l) lanes hs
    dsimp only
    split
    · simp [hc]
    · split
      · simp [hc]
      · refine wf_foldl _ (fun t i ht => ?_) _ (by simp [hc])
        split
        · split <;> simp [ht]
        · exact ht

@[simp] theorem wf_redElem (b : Block) (region op w va off : Nat) (pages : List (Nat × Nat)) (k : Nat) :
    Memory.wf (redElem b region op w va off pages s k).mem = true := by
  simp [redElem, hs, wf_memAtomic, apply_ite State.mem, apply_ite Memory.wf]

@[simp] theorem wf_xferPart (o : EngineOp) (kind : XferKind) (pages : List (Nat × Nat)) (va off n : Nat) :
    Memory.wf (xferPart s o kind pages va off n).mem = true := by
  unfold xferPart
  split
  · exact hs
  · rename_i b _
    obtain ⟨ctx, region⟩ := blockCtx s b
    have hf : Memory.wf (engineFill (chargePages s region pages va n) ctx o.blk off n).mem = true := by simp [hs]
    dsimp only
    cases kind with
    | load =>
      dsimp only
      split <;> simp [hf]
    | store =>
      dsimp only
      split <;> simp [hf, wf_pagesWrite]
    | red op w =>
      have hr := fun c => wf_foldl _ (fun t i ht => wf_redElem ht c region op.toNat w va off pages i) (List.range (n / w)) hf
      dsimp only
      split <;> simp [hr]

@[simp] theorem wf_xferMove (o : EngineOp) (kind : XferKind) (pages : List (Nat × Nat)) (va off len moved : Nat) (bar : Option
    (Nat × Bool)) (n : Nat) : Memory.wf (xferMove s o kind pages va off len moved bar n).mem = true := by
  unfold xferMove
  dsimp only
  (repeat' split) <;> simp [hs]

@[simp] theorem wf_losePassAt (b : Block) (p : PassOp) (elems : List Nat) : Memory.wf (losePassAt s b p elems).mem = true := by
  simp [losePassAt, hs]

@[simp] theorem wf_losePass (b : Block) (p : PassOp) : Memory.wf (losePass s b p).mem = true := by simp [losePass, hs]

@[simp] theorem wf_endPass (bid : Nat) (p : PassOp) : Memory.wf (endPass bid s p).mem = true := by
  unfold endPass
  dsimp only
  (repeat' split) <;> simp [hs]

@[simp] theorem wf_endPasses (bid : Nat) : Memory.wf (endPasses s bid).mem = true := by
  unfold endPasses
  split
  · exact hs
  · exact wf_foldl _ (fun _ _ ht => wf_endPass ht _ _) _ hs

@[simp] theorem wf_drainElem (bid ctx core : Nat) (add : Bool) (e : DrainElem) :
    Memory.wf (drainElem s bid ctx core add e).mem = true := by
  unfold drainElem
  dsimp only
  (repeat' split) <;> simp [hs, wf_gWriteNat]

@[simp] theorem wf_drainFinish (o : EngineOp) (add : Bool) (elems : List DrainElem) :
    Memory.wf (drainFinish s o add elems).mem = true := by
  unfold drainFinish
  dsimp only
  (repeat' split) <;> simp +contextual [wf_foldl, hs, chargeMem_mem]

@[simp] theorem wf_finishOp (o : EngineOp) : Memory.wf (finishOp s o).mem = true := by
  unfold finishOp
  split <;> simp [hs]

@[simp] theorem wf_finishBlock (bid : Nat) : Memory.wf (finishBlock s bid).mem = true := by
  unfold finishBlock
  exact wf_foldl _ (fun _ _ ht => wf_finishOp ht _) _ (wf_endPasses hs _)

@[simp] theorem wf_releaseLines (bid : Nat) : Memory.wf (releaseLines s bid).mem = true := by
  unfold releaseLines
  split <;> simp [hs]

@[simp] theorem wf_writeRecord (b : Block) : Memory.wf (writeRecord s b).mem = true := by
  unfold writeRecord
  (repeat' split) <;> simp +contextual [wf_foldl, hs, wf_writeRecordPage]

@[simp] theorem wf_suspendBlock (bid : Nat) : Memory.wf (suspendBlock s bid).mem = true := by
  unfold suspendBlock
  split
  · exact hs
  · rename_i b _
    have hr := wf_releaseLines (wf_finishBlock (s := setBlock s { b with packs := b.packs.map discardBursts }) hs bid) bid
    dsimp only
    split
    · exact hr
    · simp [hr]

@[simp] theorem wf_preemptBlock (bid : Nat) (behind : Bool) : Memory.wf (preemptBlock s bid behind).mem = true := by
  unfold preemptBlock
  dsimp only
  split <;> simp [hs]

/-! ### Machine/HostRegs -/

@[simp] theorem wf_readPacket (q slog ring rcb cons : Nat) : Memory.wf (readPacket q slog ring rcb cons s).mem = true := by
  simp [readPacket, hs, wf_gWriteNat]

@[simp] theorem wf_doorbell (q : Nat) (p : Word) : Memory.wf (doorbell s q p).mem = true := by
  unfold doorbell
  split <;> simp +contextual [wf_foldl, hs, apply_ite State.mem, apply_ite Memory.wf]

@[simp] theorem wf_hostRegPut (off : Nat) (x : DWord) : Memory.wf (hostRegPut s off x).mem = true := by
  unfold hostRegPut
  (repeat' split) <;> simp [hs]

@[simp] theorem wf_regWrite (pa : Nat) (bs : List Byte) : Memory.wf (regWrite s pa bs).mem = true := by
  unfold regWrite
  exact wf_foldl _ (fun t x ht => by simp [ht]) _ hs

/-! ### Machine/Ops -/

@[simp] theorem wf_stopDomain (domain : Nat) : Memory.wf (stopDomain s domain).mem = true := by
  unfold stopDomain
  have h1 := wf_foldl (fun t b => if b.state = .resident then suspendBlock t b.bid else t)
    (fun t b ht => by split <;> simp [ht])
    (s.blocks.filter fun b => ((s.launches.filter fun l => under s domain l.region).map fun l => l.lid).contains b.launch) hs
  exact wf_flushWhere (wf_foldl _ (fun t b ht => by simp [ht]) _ h1) _

@[simp] theorem wf_escalateAt (region ctx pack linear : Nat) (t : TrapInfo) (nested : Bool) :
    Memory.wf (escalateAt s region ctx pack linear t nested).mem = true := by simp [escalateAt, hs]

@[simp] theorem wf_escalate (e : Issuer) (t : TrapInfo) (nested : Bool) : Memory.wf (escalate s e t nested).mem = true := by
  simp [escalate, hs]

@[simp] theorem wf_takeTrap (e : Issuer) (t : TrapInfo) : Memory.wf (takeTrap s e t).mem = true := by
  unfold takeTrap
  dsimp only
  (repeat' split) <;> simp [hs]

@[simp] theorem wf_takeDooms : Memory.wf (takeDooms s).mem = true := by
  unfold takeDooms
  exact wf_foldl _ (fun t x ht => by simp [ht]) _ hs

@[simp] theorem wf_deliverHeld (blk pidx pos : Nat) : Memory.wf (deliverHeld s blk pidx pos).mem = true := by
  unfold deliverHeld
  dsimp only
  (repeat' split) <;> simp [hs]

@[simp] theorem wf_returnTo (e : Issuer) (fr : TrapFrame) (pc : DWord) : Memory.wf (returnTo s e fr pc).mem = true := by
  simp [returnTo, hs]

theorem wf_finish (e : Issuer) (len : Nat) {a : Act} (ha : WfAct a) : Memory.wf (finish s e len a).mem = true := by
  cases a with
  | ok t r => simpa [finish] using ha
  | trap t => simp [finish, hs]
  | wait st w => simp [finish, hs]
  | endRun => simp [finish, hs]
  | own t => exact ha

theorem wf_issue {len : Nat} {place : BurstPlace} {sup : Bool} {body : Issuer → Act} (hb : ∀ e, WfAct (body e)) :
    WfNext (issue s len place sup body) := by
  unfold issue
  split
  · trivial
  · split
    · trivial
    · split
      · simp [hs]
      · split
        · simp [hs]
        · exact wf_finish hs _ _ (hb _)

theorem wf_issueOctet {body : Issuer → Act} (hb : ∀ e, WfAct (body e)) : WfNext (issueOctet s body) := by
  unfold issueOctet
  split
  · trivial
  · split
    · trivial
    · split
      · simp [hs]
      · exact wf_finish hs _ _ (wf_octetAct (hb _))

/-! ### Machine/Det -/

@[simp] theorem wf_forceRound (e : Issuer) : WfAct (forceRound s e) := by simp [forceRound, hs]

@[simp] theorem wf_admitAt {t : State} (ht : Memory.wf t.mem = true) (region : Nat) (o : Option (Nat × Nat)) :
    WfSome (admitAt s region o t) := by
  unfold admitAt
  split
  · exact ht
  · split
    · trivial
    · simp [hs]

@[simp] theorem wf_publishOp (bid core ctx region linear : Nat) (o : BufOp) :
    Memory.wf (publishOp bid core ctx region linear s o).mem = true := by
  unfold publishOp
  split <;> simp [hs, wf_memAtomic, wf_coreWrite, chargeMem_mem, apply_ite State.mem, apply_ite Memory.wf]

@[simp] theorem wf_publishOps (bid core ctx region linear : Nat) (os : List BufOp) :
    Memory.wf (publishOps bid core ctx region linear os s).1.mem = true := by
  induction os generalizing s with
  | nil => exact hs
  | cons o os ih =>
    unfold publishOps
    split
    · simp [hs]
    · exact ih (wf_publishOp hs _ _ _ _ _ _)

theorem wf_publishPack (l : Launch) (b : Bool) (x : Block × Pack) : Memory.wf (publishPack l (s, b) x).1.mem = true := by
  unfold publishPack
  dsimp only
  repeat' split
  all_goals simp [hs]

@[simp] theorem wf_publishRound (l : Launch) : Memory.wf (publishRound s l).mem = true := by
  unfold publishRound
  have hp : ∀ (xs : List (Block × Pack)) (t : State × Bool), Memory.wf t.1.mem = true →
      Memory.wf (xs.foldl (publishPack l) t).1.mem = true := by
    intro xs
    induction xs with
    | nil => exact fun _ ht => ht
    | cons x xs ih => exact fun t ht => ih _ (wf_publishPack ht l t.2 x)
  dsimp only
  split <;> simp [hp, hs]

/-! ### Machine/Operands -/

@[simp] theorem wf_alu (e : Issuer) (pr : Pred) (srcs : List Opnd) (d : Dst) (nowb : Bool) (n : Nat) (f :
    (Nat → Nat → Nat) → List Nat → List Nat → List (Nat × Nat) × List (Nat × Nat)) (post : Pack → Pack) :
    WfAct (alu s e pr srcs d nowb n f post) := by
  unfold alu
  dsimp only
  (repeat' split) <;> simp [hs]

/-! ### Machine/Control -/

@[simp] theorem wf_branchAct (e : Issuer) (target : DWord) (link : Pack → Pack) : WfAct (branchAct s e target link) := by
  unfold branchAct
  split <;> simp [hs]

theorem wf_execJmp (j : J64) : WfNext (execJmp j s) := by
  refine wf_issue hs fun e => ?_
  dsimp only
  split <;> simp [hs]

@[simp] theorem wf_callAct (e : Issuer) (len : Nat) (off : BitVec 64) : WfAct (callAct s e len off) := by simp [callAct, hs]

@[simp] theorem wf_retAct (e : Issuer) : WfAct (retAct s e) := by
  unfold retAct
  split <;> simp [hs]

@[simp] theorem wf_branchIf (e : Issuer) (j : J64) (test : (Nat → Bool) → List Nat → Bool) : WfAct (branchIf s e j test) := by
  unfold branchIf
  split <;> simp [hs]

theorem wf_execBrc (c : Brc) : WfNext (execBrc c s) := by
  refine wf_issue hs fun e => ?_
  dsimp only
  split <;> simp [hs]

theorem wf_execBrv (v : Brv) : WfNext (execBrv v s) := by
  refine wf_issue hs fun e => ?_
  dsimp only
  (repeat' split) <;> simp [hs]

theorem wf_execRegang (g : Gen) : WfNext (execRegang g s) := by
  refine wf_issue hs fun e => ?_
  dsimp only
  (repeat' split) <;> simp [hs]

@[simp] theorem wf_exitAct (e : Issuer) (act : List Nat) : WfAct (exitAct s e act) := by simp [exitAct, hs]

theorem wf_execHold (g : Gen) : WfNext (execHold g s) := by
  refine wf_issue hs fun e => ?_
  dsimp only
  split <;> simp [hs]

@[simp] theorem wf_waitFor (e : Issuer) (holds : Bool) (w : Wait) : WfAct (waitFor s e holds w) := by
  unfold waitFor
  (repeat' split) <;> simp [hs]

theorem wf_execWaitcnt (g : Gen) : WfNext (execWaitcnt g s) := by
  refine wf_issue hs fun e => ?_
  split <;> simp [hs]

theorem wf_execWaittag (g : Gen) : WfNext (execWaittag g s) := by
  refine wf_issue hs fun e => ?_
  dsimp only
  (repeat' split) <;> simp [hs]

theorem wf_execPsplit (g : Gen) : WfNext (execPsplit g s) := by
  refine wf_issue hs fun e => ?_
  dsimp only
  (repeat' split) <;> simp [hs]

@[simp] theorem wf_fuseAll (e : Issuer) (h : SplitRec) : Memory.wf (fuseAll s e h).mem = true := by
  unfold fuseAll
  dsimp only
  have hm : ∀ (ps : List Pack) (t : State), (ps.foldl (fun s x => (liveFrags x).foldl
      (fun s g => chargeIssue s { e with f := g }) s) t).mem = t.mem := fun ps t =>
    foldl_mem _ (fun _ _ => foldl_mem _ (fun _ _ => chargeIssue_mem _ _) _ _) _ _
  split
  · simp [hm, hs]
  · split <;> simp [hm, hs]

theorem wf_execPfuse (_g : Gen) : WfNext (execPfuse _g s) := by
  refine wf_issue hs fun e => ?_
  dsimp only
  (repeat' split) <;> simp [hs]

/-! ### Machine/Integer -/

@[simp] theorem wf_wordAct (e : Issuer) (g : Gen) (srcs : List Opnd) (n : Nat) (f : (Nat → Nat) → Nat) :
    WfAct (wordAct s e g srcs n f) := by simp [wordAct, hs]

@[simp] theorem wf_elemAct (e : Issuer) (g : Gen) (srcs : List Opnd) (f : (Nat → Nat) → Nat × Nat) :
    WfAct (elemAct s e g srcs f) := by simp [elemAct, hs]

@[simp] theorem wf_intAct (e : Issuer) (g : Gen) (srcs : List Opnd) (x : (Nat → Int) → Int) : WfAct (intAct s e g srcs x) := by
  simp [intAct, hs]

@[simp] theorem wf_bitAct (e : Issuer) (g : Gen) (srcs : List Opnd) (f : Nat → Nat → Nat → Nat) :
    WfAct (bitAct s e g srcs f) := by simp [bitAct, hs]

@[simp] theorem wf_countAct (e : Issuer) (g : Gen) (f : Nat → Nat → Nat) : WfAct (countAct s e g f) := by simp [countAct, hs]

/-! ### Machine/Lane -/

@[simp] theorem wf_shflAct (e : Issuer) (g : Gen) (mode : Nat) : WfAct (shflAct s e g mode) := by simp [shflAct, hs]

/-! ### Machine/Pool -/

@[simp] theorem wf_takeSmall (pool : Nat) : WfSome ((takeSmall s pool).map Prod.fst) := by
  unfold takeSmall
  dsimp only
  split <;> simp [hs, wf_gWriteNat]

@[simp] theorem wf_takeLarge (pool : Nat) : WfSome ((takeLarge s pool).map Prod.fst) := by
  unfold takeLarge
  dsimp only
  split <;> simp [hs, wf_gWriteNat]

@[simp] theorem wf_giveSmall (pool : Nat) (f : Nat) : Memory.wf (giveSmall pool s f).mem = true := by
  simp [giveSmall, hs, wf_gWriteNat]

@[simp] theorem wf_giveLarge (pool : Nat) (f : Nat) : Memory.wf (giveLarge pool s f).mem = true := by
  simp [giveLarge, hs, wf_gWriteNat]

@[simp] theorem wf_takeSmalls (pool n : Nat) : WfSome ((takeSmalls s pool n).map Prod.fst) := by
  induction n generalizing s with
  | zero => exact hs
  | succ n ih =>
    unfold takeSmalls
    split
    · trivial
    · rename_i t f ht
      have h1 : WfSome ((some (t, f)).map Prod.fst) := ht ▸ wf_takeSmall hs pool
      have h2 := ih h1
      revert h2
      cases takeSmalls t pool n <;> exact id

@[simp] theorem wf_takeLarges (pool n : Nat) : WfSome ((takeLarges s pool n).map Prod.fst) := by
  induction n generalizing s with
  | zero => exact hs
  | succ n ih =>
    unfold takeLarges
    split
    · trivial
    · rename_i t f ht
      have h1 : WfSome ((some (t, f)).map Prod.fst) := ht ▸ wf_takeLarge hs pool
      have h2 := ih h1
      revert h2
      cases takeLarges t pool n <;> exact id

/-! ### Machine/GridHome -/

@[simp] theorem wf_noteRefusal (m : GMsg) (cause addr : Nat) : Memory.wf (noteRefusal s m cause addr).mem = true := by
  unfold noteRefusal
  split <;> simp [hs]

@[simp] theorem wf_updateCword (pa count refused errors : Nat) (first : Option Nat) :
    Memory.wf (updateCword s pa count refused errors first).mem = true := by simp [updateCword, hs, wf_gWriteNat]

@[simp] theorem wf_writeLine (m : GMsg) (r : Region) (pa : Nat) : Memory.wf (writeLine s m r pa).mem = true := by
  unfold writeLine
  refine wf_foldl _ (fun t x ht => ?_) _ hs
  dsimp only
  split
  · simp [ht, chargeMem_mem]
  · split <;> simp [ht, chargeMem_mem, wf_gWrite]

@[simp] theorem wf_storeLine (g : GOut) : Memory.wf (storeLine s g).mem = true := by
  unfold storeLine
  dsimp only
  split <;> simp [hs]

@[simp] theorem wf_landLine (m : GMsg) (b : Block) : Memory.wf (landLine s m b).mem = true := by
  unfold landLine
  dsimp only
  generalize hrun : maskRuns 0 m.bytes = runs
  have h0 : ∀ f : Nat × List Byte → Nat, Memory.wf (match runs with
      | [] => s
      | x :: _ => if m.nparts = 1 then s else setBlock s (scoreGrid b (m.src,
        m.tag) (m.addr % 2 ^ 32 + x.1) (f x))).mem = true := by
    intro f
    split
    · exact hs
    · split <;> simp [hs]
  have hr : ∀ t : State, Memory.wf t.mem = true → Memory.wf (runs.foldl (fun s x =>
      engineStash s m.ctx b.bid (m.addr % 2 ^ 32 + x.1) x.2
        (if m.poison then (List.range x.2.length).map (m.addr % 2 ^ 32 + x.1 + ·) else [])) t).mem = true :=
    fun t ht => wf_foldl _ (fun _ _ hu => wf_engineStash hu _ _ _ _ _) _ ht
  split
  · exact wf_barDeliver (hr _ (h0 _)) _ _ _ _
  · exact hr _ (h0 _)

@[simp] theorem wf_stashLine (m : GMsg) : Memory.wf (stashLine s m).mem = true := by
  unfold stashLine
  split <;> simp [hs, apply_ite State.mem, apply_ite Memory.wf]

@[simp] theorem wf_deliverLandings : Memory.wf (deliverLandings s).mem = true := by
  unfold deliverLandings
  exact wf_foldl _ (fun t x ht => by simp [ht]) _ hs

@[simp] theorem wf_loadLine (g : GOut) : Memory.wf (loadLine s g).mem = true := by
  unfold loadLine
  dsimp only
  split <;> simp [hs, chargeMem_mem, apply_ite State.mem, apply_ite Memory.wf]

@[simp] theorem wf_serveAtom (t : CombTree) : Memory.wf (serveAtom s t).mem = true := by
  unfold serveAtom
  dsimp only
  (repeat' split) <;> simp [wf_foldl, hs, wf_memAtomic, chargeMem_mem]

@[simp] theorem wf_countPart (kind cwPa : Nat) (m : GMsg) (refused : Bool) :
    Memory.wf (countPart s kind cwPa m refused).mem = true := by simp [countPart, hs]

@[simp] theorem wf_applyLine (m : GMsg) : Memory.wf (applyLine s m).mem = true := by
  unfold applyLine
  split <;> simp +contextual [wf_foldl, hs, wf_memAtomic, chargeMem_mem]

@[simp] theorem wf_reduceLine (ms : List GMsg) (part : Nat) : Memory.wf (reduceLine s ms part).mem = true := by
  unfold reduceLine
  dsimp only
  split
  · exact hs
  · split
    · simp [hs]
    · refine wf_foldl _ (fun t i ht => ?_) _ hs
      split
      · exact ht
      · simp [ht, chargeMem_mem, wf_memAtomic]

@[simp] theorem wf_spill (m : GMsg) (b : Batch) : WfSome ((spill s m b).map Prod.fst) := by
  unfold spill
  repeat' split
  · simpa using hs
  · dsimp only
    split
    · simpa using hs
    · split
      · simpa using hs
      · rw [Option.map_map]
        exact wf_takeSmall hs _

@[simp] theorem wf_finishOrdered (m : GMsg) (b : Batch) : Memory.wf (finishOrdered s m b).mem = true := by
  unfold finishOrdered
  have hr := wf_foldl _ (fun t k ht => wf_reduceLine ht (batchOrder s b.held) k)
    ((batchOrder s b.held).map fun m => m.part).eraseDups ((dropBatch_mem s b).symm ▸ hs)
  dsimp only
  split
  · exact wf_foldl _ (fun t f ht => wf_giveSmall ht _ _) _ hr
  · exact hr

@[simp] theorem wf_orderedPart (cwPa : Nat) (m : GMsg) (refused : Bool) :
    Memory.wf (orderedPart s cwPa m refused).mem = true := by simp [orderedPart, hs, apply_ite State.mem, apply_ite Memory.wf]

@[simp] theorem wf_gredLine (t : CombTree) : Memory.wf (gredLine s t).mem = true := by
  unfold gredLine
  dsimp only
  split
  · simp [hs]
  · split
    · split <;> simp [hs]
    · split
      · split
        · simp [hs]
        · rename_i u b hb
          have hu : Memory.wf u.mem = true := by
            split at hb
            · obtain ⟨rfl, -⟩ := Prod.mk.inj (Option.some.inj hb)
              exact hs
            · have := wf_spill hs (treeMsg t) (getBatch s 3 (treeMsg t))
              rwa [hb] at this
          simp [hu]
      · have ha : Memory.wf (if (treeMsg t).poison then s else applyLine s (treeMsg t)).mem = true := by
          split <;> simp [hs]
        simp [ha]

@[simp] theorem wf_serveTree (t : CombTree) : Memory.wf (serveTree s t).mem = true := by
  unfold serveTree
  split <;> simp [hs]

@[simp] theorem wf_drainComb : Memory.wf (drainComb s).mem = true := by
  unfold drainComb
  exact wf_foldl _ (fun t x ht => by simp [ht]) _ hs

@[simp] theorem wf_atPort (g : GOut) (busy : Bool) : Memory.wf (atPort s g busy).mem = true := by
  unfold atPort
  split <;> simp [hs]

@[simp] theorem wf_finishScan (b : Batch) : Memory.wf (finishScan s b).mem = true := by
  unfold finishScan
  dsimp only
  (repeat' split) <;> simp [wf_foldl, hs, wf_gWriteNat, chargeMem_mem]

@[simp] theorem wf_scanPart (cwPa : Nat) (m : GMsg) (refused : Bool) : Memory.wf (scanPart s cwPa m refused).mem = true := by
  simp [scanPart, hs, apply_ite State.mem, apply_ite Memory.wf]

@[simp] theorem wf_gscanContribution (m : GMsg) : Memory.wf (gscanContribution s m).mem = true := by
  unfold gscanContribution
  (repeat' split) <;> simp [hs]

@[simp] theorem wf_deliver (g : GOut) (busy : Bool) : Memory.wf (deliver s g busy).mem = true := by
  unfold deliver
  split <;> simp [hs, apply_ite State.mem, apply_ite Memory.wf]

@[simp] theorem wf_settlePort (busy : Bool) : Memory.wf (settlePort s busy).mem = true := by
  unfold settlePort
  exact wf_foldl _ (fun t x ht => by simp [ht]) _ hs

@[simp] theorem wf_arrive (g : GOut) (busy : optParam Bool false) : Memory.wf (arrive s g busy).mem = true := by
  unfold arrive
  split <;> simp [hs, apply_ite State.mem, apply_ite Memory.wf]

@[simp] theorem wf_markerArrives (src tag plane : Nat) : Memory.wf (markerArrives s src tag plane).mem = true := by
  simp [markerArrives, hs]

/-! ### Machine/Task -/

@[simp] theorem wf_deviceWrite (rcb ctx block va : Nat) (bs : List Byte) :
    Memory.wf (deviceWrite s rcb ctx block va bs).mem = true := by
  unfold deviceWrite
  (repeat' split) <;> simp [hs, wf_pagesWrite, chargeMem_mem]

/-! ### Machine/Ert -/

@[simp] theorem wf_putErt (i n : Nat) : Memory.wf (putErt s i n).mem = true := by simp [putErt, hs, wf_gWriteNat]

@[simp] theorem wf_startFetch (i : Nat) : Memory.wf (startFetch s i).mem = true := by simp [startFetch, hs]

@[simp] theorem wf_ertPin (i : Nat) : Memory.wf (ertPin s i).mem = true := by
  simp [ertPin, hs, apply_ite State.mem, apply_ite Memory.wf]

@[simp] theorem wf_ertUnpin (i : Nat) : Memory.wf (ertUnpin s i).mem = true := by
  simp [ertUnpin, hs, apply_ite State.mem, apply_ite Memory.wf]

@[simp] theorem wf_ertEvict (i : Nat) : Memory.wf (ertEvict s i).mem = true := by
  simp [ertEvict, hs, apply_ite State.mem, apply_ite Memory.wf]

@[simp] theorem wf_park (e : KennelEntry) : Memory.wf (park s e).mem = true := by
  obtain ⟨a, u, hu, hp⟩ := park_eq s e
  have hw : Memory.wf u.mem = true :=
    hu ▸ wf_gWriteNat (s := { s with kennel := s.kennel ++ [{ e with place := kennelPlace s }] }) hs a 16 _
  rw [hp]
  split <;> simp [hw]

@[simp] theorem wf_unpark (i : Nat) : Memory.wf (unpark s i).1.mem = true := by
  unfold unpark
  dsimp only
  exact wf_foldl_gWriteNat _ _ _ _ hs

@[simp] theorem wf_fetchPage (n : Nat) (x : Nat × Nat) : Memory.wf (fetchPage n s x).mem = true := by
  unfold fetchPage
  dsimp only
  split <;> simp [hs, wf_gWriteNat, wf_copySpan]

@[simp] theorem wf_fetchDone (i : Nat) (frames : List Nat) : Memory.wf (fetchDone s i frames).mem = true := by
  unfold fetchDone
  have hf := wf_foldl _ (fun t x ht => wf_fetchPage ht (ertEntry s i) x) (frames.mapIdx fun k f => (k, f)) hs
  dsimp only
  rw [foldl_mem _ fun _ _ => releaseRow_mem _ _ _]
  refine wf_putErt (wf_unpark ?_ _) _ _
  split <;> simp [hf]

@[simp] theorem wf_fetchFailed (i : Nat) (pool : Bool) : Memory.wf (fetchFailed s i pool).mem = true := by
  unfold fetchFailed
  dsimp only
  have hu := wf_unpark (s := { s with fetches := s.fetches.filter fun f => f.idx != i }) hs i
  split
  · rw [foldl_mem _ fun _ _ => releaseRow_mem _ _ _]
    simp [hu]
  · refine wf_postEvent ?_ _ _
    rw [foldl_mem _ fun _ _ => releaseRow_mem _ _ _]
    simp [hu]

@[simp] theorem wf_attemptFails (f : Fetch) (pool : Bool) : Memory.wf (attemptFails s f pool).mem = true := by
  unfold attemptFails
  split <;> simp [hs]

@[simp] theorem wf_fetchFrames (i : Nat) : WfSome ((fetchFrames s i).map Prod.fst) := by simp [fetchFrames, hs]

@[simp] theorem wf_onPagerFetchComplete (idx : BitVec 14) : WfSome (onPagerFetchComplete idx s) := by
  unfold onPagerFetchComplete
  simp only [wf_due]
  intro
  split
  · rename_i t f ht
    have h1 := wf_fetchFrames hs idx.toNat
    rw [ht] at h1
    exact wf_fetchDone h1 _ _
  · exact hs

@[simp] theorem wf_unmapPage (n pool : Nat) (k : Nat) : Memory.wf (unmapPage n pool s k).mem = true := by
  unfold unmapPage
  split <;> simp [hs, wf_gWriteNat, apply_ite State.mem, apply_ite Memory.wf]

@[simp] theorem wf_evictDone (i : Nat) : Memory.wf (evictDone s i).mem = true := by
  unfold evictDone
  have hu := wf_foldl _ (fun t k ht => wf_unmapPage ht (ertEntry s i) (ertPool s (ertEntry s i)) k)
    (List.range (ertPages (ertEntry s i))) hs
  dsimp only
  split <;> simp [hu]

@[simp] theorem wf_onEvictUnmapComplete (idx : BitVec 14) : WfSome (onEvictUnmapComplete idx s) := by
  simp [onEvictUnmapComplete, hs]

/-! ### Machine/Float -/

@[simp] theorem wf_floatAct (e : Issuer) (g : Gen) (srcs : List Opnd) (f : Fmt → Rnd → (Nat → Nat) → Nat × Nat) :
    WfAct (floatAct s e g srcs f) := by simp [floatAct, hs]

@[simp] theorem wf_fstatAct (e : Issuer) (g : Gen) (f : BitVec 8 → BitVec 8 → BitVec 8) : WfAct (fstatAct s e g f) := by
  simp [fstatAct, hs]

/-! ### Machine/Memory -/

@[simp] theorem wf_holdAct (e : Issuer) (h : Nat × Nat) : WfAct (holdAct s e h) := by simp [holdAct, hs]

@[simp] theorem wf_fillLine (e : Issuer) (k : Nat) : Memory.wf (fillLine e s k).mem = true := by
  unfold fillLine
  (repeat' split) <;> simp [hs]

@[simp] theorem wf_fillLines (e : Issuer) (ranges : List (Nat × Nat)) : Memory.wf (fillLines s e ranges).mem = true := by
  unfold fillLines
  exact wf_foldl _ (fun t x ht => by simp [ht]) _ hs

@[simp] theorem wf_loadEnd (e : Issuer) (m : M64) (act : List Nat) (vals : List (Nat × Nat)) :
    WfAct (loadEnd s e m act vals) := by simp [loadEnd, hs]

@[simp] theorem wf_loadAct (e : Issuer) (m : M64) : WfAct (loadAct s e m) := by
  unfold loadAct
  dsimp only
  (repeat' split) <;> simp [hs]

theorem wf_stashLoad (e : Issuer) (act lanes : List Nat) (n : Nat) (addr : Nat → Nat) (spread : TrapInfo → TrapInfo)
    {k : State → List (Nat × Nat) → Act} (hk : ∀ t vals, Memory.wf t.mem = true → WfAct (k t vals)) :
    WfAct (stashLoad s e act lanes n addr spread k) := by
  unfold stashLoad
  dsimp only
  split
  · trivial
  · split
    · trivial
    · simp [hs]
    · split
      · trivial
      · split
        · trivial
        · exact hk _ _ (wf_fillLines hs _ _)

theorem wf_execLds (m : M64) : WfNext (execLds m s) := by
  refine wf_issue hs fun e => ?_
  dsimp only
  split
  · trivial
  · exact wf_stashLoad hs _ _ _ _ _ _ fun t vals ht => by simp [ht]

@[simp] theorem wf_ldsSumAct (e : Issuer) (x : A32) : WfAct (ldsSumAct s e x) := by
  unfold ldsSumAct
  dsimp only
  split
  · trivial
  · exact wf_stashLoad hs _ _ _ _ _ _ fun t vals ht => by simp [ht]

@[simp] theorem wf_bufferAct (e : Issuer) (ops : List BufOp) : WfAct (bufferAct s e ops) := by
  unfold bufferAct
  split <;> simp [hs]

@[simp] theorem wf_storeLane (e : Issuer) (n : Nat) (val : Nat → Nat) (o : Nat) (a : Nat × Nat) :
    Memory.wf (storeLane e n val o s a).mem = true := by
  simp [storeLane, hs, wf_coreWrite, apply_ite State.mem, apply_ite Memory.wf]

@[simp] theorem wf_storeLanes (e : Issuer) (n : Nat) (val : Nat → Nat) (as : List (Nat × Nat)) :
    Memory.wf (storeLanes s e n val as).mem = true := by
  unfold storeLanes
  refine wf_foldl _ (fun t o ht => ?_) _ hs
  exact wf_foldl _ (fun u a hu => wf_storeLane hu e n val o a) _ ((laneOrder_mem t e n as).symm ▸ ht)

theorem wf_execSt (m : M64) : WfNext (execSt m s) := by
  refine wf_issue hs fun e => ?_
  dsimp only
  (repeat' split) <;> simp [hs]

theorem wf_execSts (m : M64) : WfNext (execSts m s) := by
  refine wf_issue hs fun e => ?_
  dsimp only
  (repeat' split) <;> simp [hs]

@[simp] theorem wf_atomAt (core pa w op a c : Nat) : Memory.wf (atomAt s core pa w op a c).1.mem = true := by
  unfold atomAt
  split <;> simp [hs, wf_memAtomic]

@[simp] theorem wf_atomLanes (e : Issuer) (m : M64) (order : List (Nat × Nat)) :
    Memory.wf (atomLanes e m s order).1.mem = true := by
  unfold atomLanes
  have hf : ∀ (as : List (Nat × Nat)) (x : State × List (Nat × Nat)), Memory.wf x.1.mem = true → Memory.wf (as.foldl
      (fun (x : State × List (Nat × Nat)) a =>
        let (v, c) := atomArgs e m a.1
        let before := gRead x.1 a.2 (m64Bytes m)
        let (s, old) := atomAt x.1 e.b.core a.2 (m64Bytes m) (atomOp m) v c
        let s := if buffered e then noteEffect s e.l.lid (syncSeq e) a.2 before (gRead s a.2 (m64Bytes m)) else s
        (s, x.2 ++ [(a.1, old)])) x).1.mem = true := by
    intro as
    induction as with
    | nil => exact fun _ hx => hx
    | cons a as ih =>
      refine fun x hx => ih _ ?_
      have := wf_atomAt hx e.b.core a.2 (m64Bytes m) (atomOp m) (atomArgs e m a.1).1 (atomArgs e m a.1).2
      dsimp only
      split <;> simpa using this
  exact hf _ _ hs

theorem wf_execAtom (m : M64) : WfNext (execAtom m s) := by
  refine wf_issue hs fun e => ?_
  dsimp only
  (repeat' split) <;> simp [hs]

@[simp] theorem wf_redLane (e : Issuer) (w op : Nat) (val : Nat → Nat) (a : Nat × Nat) :
    Memory.wf (redLane e w op val s a).mem = true := by
  unfold redLane
  split <;> simp [hs]

theorem wf_execRed (m : M64) : WfNext (execRed m s) := by
  refine wf_issue hs fun e => ?_
  dsimp only
  split
  · trivial
  · split
    · trivial
    · split
      · exact wf_bufferAct hs _ _
      · split
        · exact wf_holdAct hs _ _
        · refine wf_foldl _ (fun t a ht => wf_redLane ht _ _ _ _ _) _ ?_
          rw [laneOrder_mem, chargeLanes_mem]
          exact hs

theorem wf_execCpl (m : M64) : WfNext (execCpl m s) := by
  refine wf_issue hs fun e => ?_
  dsimp only
  split
  · trivial
  · split
    · trivial
    · repeat' split
      all_goals simp only [wfAct_trap, wfAct_wait, wfAct_ok, wf_forceRound hs, wf_holdAct hs, hs, setBlock_mem]
      refine wf_fillLines ?_ _ _
      rw [foldl_mem _ fun t x => by split <;> simp]
      exact hs

theorem wf_execPref (m : M64) : WfNext (execPref m s) := by
  refine wf_issue hs fun e => ?_
  dsimp only
  split
  · trivial
  · rw [wfAct_ok, foldl_mem _ fun _ _ => prefLane_mem _ _ _ _]
    exact hs

theorem wf_execDiscard (m : M64) : WfNext (execDiscard m s) := by
  refine wf_issue hs fun e => ?_
  dsimp only
  split
  · trivial
  · split
    · exact hs
    · split
      · trivial
      · split
        · exact hs
        · exact wf_foldl _ (fun t i ht => wf_discardSector ht _ _) _ hs

theorem wf_execFence (g : Gen) : WfNext (execFence g s) := by
  refine wf_issue hs fun e => ?_
  split <;> simp [hs]

@[simp] theorem wf_unmapRegion (bid i : Nat) : Memory.wf (unmapRegion s bid i).mem = true := by
  unfold unmapRegion
  dsimp only
  (repeat' split) <;> simp [hs]

theorem wf_execSmap (g : Gen) : WfNext (execSmap g s) := by
  refine wf_issue hs fun e => ?_
  dsimp only
  (repeat' split) <;> simp [hs]

@[simp] theorem wf_bxferAct (e : Issuer) (g : Gen) (kind : XferKind) : WfAct (bxferAct s e g kind) := by
  unfold bxferAct
  dsimp only
  (repeat' split) <;> simp [wf_foldl, hs]

theorem wf_execBxferRed (g : Gen) : WfNext (execBxferRed g s) := by
  refine wf_issue hs fun e => ?_
  dsimp only
  (repeat' split) <;> simp [hs]

@[simp] theorem wf_armOn (pa : Nat) : Memory.wf (armOn pa s).mem = true := by
  unfold armOn
  split <;> simp [hs, wf_recallLine]

@[simp] theorem wf_meetOrWait {t : State} (hd : Memory.wf t.mem = true) (e : Issuer) (holds : Bool) (w : Wait) :
    WfAct (meetOrWait s e holds w t) := by
  unfold meetOrWait
  split <;> simp [hs, hd]

@[simp] theorem wf_waitMonitored (e : Issuer) (holds : Bool) (w : Wait) (pa : Nat) : WfAct (waitMonitored s e holds w pa) := by
  unfold waitMonitored
  split
  · trivial
  · simp [hs]

theorem wf_execWaitc (m : M64) : WfNext (execWaitc m s) := by
  refine wf_issue hs fun e => ?_
  dsimp only
  (repeat' split) <;> simp [hs]

/-! ### Machine/GridOps -/

@[simp] theorem wf_settleOp (o : GridOp) : Memory.wf (settleOp s o).mem = true := by
  unfold settleOp
  dsimp only
  (repeat' split) <;> simp [hs]

@[simp] theorem wf_laneAnswer (o : GridOp) (m : GMsg) (refused : Bool) : Memory.wf (laneAnswer s o m refused).mem = true := by
  unfold laneAnswer
  split <;> simp [hs]

@[simp] theorem wf_partAnswer (o : GridOp) (m : GMsg) (refused : Nat) : Memory.wf (partAnswer s o m refused).mem = true := by
  unfold partAnswer
  (repeat' split) <;> simp [hs]

@[simp] theorem wf_opAnswer (o : GridOp) (g : GOut) : Memory.wf (opAnswer s o g).mem = true := by
  unfold opAnswer
  split <;> simp [hs, apply_ite State.mem, apply_ite Memory.wf]

@[simp] theorem wf_ownAnswer (kind : Nat) (a : GMsg) (leaf : GOut) (v : Nat) :
    Memory.wf (ownAnswer kind a s leaf v).mem = true := by
  unfold ownAnswer
  split <;> simp [hs]

@[simp] theorem wf_splitRelay (r : Relay) (g : GOut) : Memory.wf (splitRelay s r g).mem = true := by
  unfold splitRelay
  dsimp only
  cases r.far with
  | true => exact (splitAnswer_mem (fun s g v => relayAnswer_mem _ _ _ _ _) _ _ _).symm ▸ hs
  | false => exact wf_splitAnswer (fun t g v ht => wf_ownAnswer ht _ _ _ _) _ _ hs

@[simp] theorem wf_receiveAnswer (g : GOut) : Memory.wf (receiveAnswer s g).mem = true := by
  unfold receiveAnswer
  dsimp only
  (repeat' split) <;> simp [hs]

@[simp] theorem wf_deliverLoop : WfSome (deliverLoop s) := by
  unfold deliverLoop
  refine wf_map_some fun x => ?_
  dsimp only
  split <;> simp [hs]

theorem wf_gridStall (e : Issuer) {a : Act} (ha : gridStall s e = some a) : WfAct a := by
  unfold gridStall at ha
  split at ha
  · obtain rfl := Option.some.inj ha
    simp [hs]
  · split at ha
    · obtain rfl := Option.some.inj ha
      trivial
    · split at ha
      · obtain rfl := Option.some.inj ha
        simp [hs]
      · split at ha
        · obtain rfl := Option.some.inj ha
          trivial
        · cases ha

/-! ### Machine/Sync -/

@[simp] theorem wf_sameResult (e : Issuer) (d : Dst) (nowb : Bool) (n x : Nat) : WfAct (sameResult s e d nowb n x) := by
  simp [sameResult, hs]

@[simp] theorem wf_barDone (e : Issuer) (i : Nat) (x : Barrier) : WfAct (barDone s e i x) := by simp [barDone, hs]

theorem wf_execBarinit (g : Gen) : WfNext (execBarinit g s) := by
  refine wf_issue hs fun e => wf_barAct s e g fun i n => ?_
  split
  · trivial
  · simp [hs]

theorem wf_execBararr (g : Gen) : WfNext (execBararr g s) := by
  refine wf_issue hs fun e => wf_barUse s e g fun i x n => ?_
  split <;> simp [hs]

@[simp] theorem wf_barResize (e : Issuer) (i : Nat) (x : Barrier) (n : Int) : WfAct (barResize s e i x n) := by
  unfold barResize
  split <;> simp [hs]

theorem wf_execBararrJoin (g : Gen) : WfNext (execBararrJoin g s) := by
  exact wf_issue hs fun e => wf_barUse s e g fun i x n => wf_barResize hs _ _ _ _

theorem wf_execBararrDrop (g : Gen) : WfNext (execBararrDrop g s) := by
  exact wf_issue hs fun e => wf_barUse s e g fun i x n => wf_barResize hs _ _ _ _

theorem wf_execBarwait (g : Gen) : WfNext (execBarwait g s) := by
  refine wf_issue hs fun e => wf_barUse s e g fun i x n => ?_
  dsimp only
  split <;> simp [hs]

theorem wf_execBarexp (g : Gen) : WfNext (execBarexp g s) := by
  refine wf_issue hs fun e => wf_barUse s e g fun i x n => ?_
  dsimp only
  generalize (if g.opx == 1#4 then x.postedNext else x.posted) + n = t
  split
  · trivial
  · exact wf_barDone hs _ _ _

theorem wf_execBartry (g : Gen) : WfNext (execBartry g s) := by
  refine wf_issue hs fun e => ?_
  split
  · trivial
  · exact wf_barUse s e g fun i x n => by simp [sameResult, hs]

theorem wf_execQcfg (g : Gen) : WfNext (execQcfg g s) := by
  refine wf_issue hs fun e => ?_
  dsimp only
  (repeat' split) <;> simp [hs]

@[simp] theorem wf_appendAct (e : Issuer) (g : Gen) (n : Nat) : WfAct (appendAct s e g n) := by
  unfold appendAct sameResult
  dsimp only
  repeat' split
  all_goals simp [hs]

/-! ### Machine/Matrix -/

theorem wf_matIssue (e : Issuer) (res : Pack → Retire) {k : List Nat → Act} (hk : ∀ octs, WfAct (k octs)) :
    WfAct (matIssue s e res k) := by
  unfold matIssue
  split
  · trivial
  · dsimp only
    split
    · exact hs
    · have := hk (todoOctets e.p e.f)
      split
      · rename_i t r hr
        rw [hr] at this
        simpa using this
      · exact this

theorem wf_matRead (e : Issuer) (cells : List (Nat × Nat × Nat)) {k : State → Act} (hk : ∀ t, Memory.wf t.mem = true → WfAct
    (k t)) : WfAct (matRead s e cells k) := by
  unfold matRead
  dsimp only
  split
  · simp [hs]
  · split
    · trivial
    · split
      · simp [hs]
      · split
        · trivial
        · exact hk _ (by simp [hs])

@[simp] theorem wf_storeBytes (e : Issuer) (pa : Nat) (bs : List Byte) : Memory.wf (storeBytes s e pa bs).mem = true := by
  simp [storeBytes, hs, wf_gWrite, apply_ite State.mem, apply_ite Memory.wf]

@[simp] theorem wf_syncStore (e : Issuer) (pa : Nat) (bs : List Byte) : Memory.wf (syncStore s e pa bs).mem = true := by
  unfold syncStore
  split <;> simp [hs]

theorem wf_execTdset (x : X64) : WfNext (execTdset x s) := by
  refine wf_issue hs fun e => ?_
  split
  · trivial
  · refine wf_matIssue hs _ _ fun octs => ?_
    dsimp only
    split
    · trivial
    · trivial
    · split
      · trivial
      · split <;> simp [hs]

theorem wf_execTdget (x : X64) : WfNext (execTdget x s) := by
  refine wf_issue hs fun e => ?_
  split
  · trivial
  · refine wf_matIssue hs _ _ fun octs => ?_
    split
    · trivial
    · dsimp only
      split
      · exact wf_holdAct hs _ _
      · split
        · trivial
        · split <;> simp [hs]

theorem wf_execMldb (x : X64) : WfNext (execMldb x s) := by
  refine wf_issue hs fun e => ?_
  split
  · trivial
  · refine wf_matIssue hs _ _ fun octs => ?_
    split
    · trivial
    · dsimp only
      split
      · trivial
      · refine wf_matRead hs _ _ fun t ht => ?_
        split <;> simp [ht]

theorem wf_execMbrel (x : X64) : WfNext (execMbrel x s) := by
  refine wf_issue hs fun e => wf_matIssue hs _ _ fun octs => ?_
  split <;> simp [hs]

theorem wf_execMldmeta (x : X64) : WfNext (execMldmeta x s) := by
  refine wf_issue hs fun e => ?_
  split
  · trivial
  · refine wf_matIssue hs _ _ fun octs => ?_
    split
    · trivial
    · dsimp only
      (repeat' split) <;> simp [hs]

theorem wf_execMzero (x : X64) : WfNext (execMzero x s) := by
  refine wf_issueOctet hs fun e => wf_matIssue hs _ _ fun octs => ?_
  dsimp only
  split
  · trivial
  · exact wf_afterPasses e _ (by simp [hs])

@[simp] theorem wf_reloadSlot (bid i : Nat) : Memory.wf (reloadSlot s bid i).mem = true := by
  unfold reloadSlot
  split
  · exact hs
  · split
    · dsimp only
      split
      · simp [hs]
      · rename_i b _ m l _ _ _ _
        have hf : ∀ ks : List Nat, Memory.wf (ks.foldl (fun s k => match getBlock s bid with
            | some b => (match fillNeed s l.ctx false b k with
                | .ok (some pa) => doFill s bid k pa
                | _ => s)
            | none => s) s).mem = true := by
          intro ks
          refine wf_foldl _ (fun t k ht => ?_) _ hs
          split
          · split
            · exact wf_doFill ht _ _ _
            · exact ht
          · exact ht
        split
        · exact hf _
        · split
          · refine wf_postMemoryError ?_ _ _ _
            rw [setBlock_mem, chargeSectors_mem]
            exact hf _
          · rw [setBlock_mem, chargeSectors_mem]
            exact hf _
    · exact hs

@[simp] theorem wf_mmaAct (e : Issuer) (x : X64) (isRing sparse : Bool) : WfAct (mmaAct s e x isRing sparse) := by
  unfold mmaAct
  split
  · trivial
  · refine wf_matIssue hs _ _ fun octs => ?_
    split
    · trivial
    · dsimp only
      split
      · trivial
      · split
        · exact wf_foldl _ (fun t k ht => wf_reloadSlot ht _ _) _ hs
        · split
          · trivial
          · split
            · simp [hs]
            · split
              · trivial
              · split
                · trivial
                · split
                  · simp [hs]
                  · refine wf_matRead hs _ _ fun t ht => ?_
                    split <;> simp [ht]

theorem wf_execMma (x : X64) : WfNext (execMma x s) := wf_issueOctet hs fun e => wf_mmaAct hs e x _ _

theorem wf_execMmaRing (x : X64) : WfNext (execMmaRing x s) := wf_issueOctet hs fun e => wf_mmaAct hs e x _ _

theorem wf_execMmasp (x : X64) : WfNext (execMmasp x s) := wf_issueOctet hs fun e => wf_mmaAct hs e x _ _

@[simp] theorem wf_accLost (e : Issuer) (errs : List (Nat × Nat × Nat)) : WfAct (accLost s e errs) := by simp [accLost, hs]

@[simp] theorem wf_mstAct (e : Issuer) (x : X64) (add : Bool) : WfAct (mstAct s e x add) := by
  unfold mstAct
  split
  · trivial
  · refine wf_matIssue hs _ _ fun octs => ?_
    split
    · trivial
    · dsimp only
      split
      · trivial
      · repeat' split
        all_goals simp only [wfAct_wait, wfAct_ok, wf_forceRound hs, wf_holdAct hs, wf_accLost hs, putPack_mem]
        all_goals exact (foldl_mem _ (fun _ _ => drainStart_mem _ _ _) _ _).symm ▸ wf_fillLines hs _ _

theorem wf_execMst (x : X64) : WfNext (execMst x s) := wf_issueOctet hs fun e => wf_mstAct hs e x _

theorem wf_execMstAdd (x : X64) : WfNext (execMstAdd x s) := wf_issueOctet hs fun e => wf_mstAct hs e x _

theorem wf_execMrda (x : X64) : WfNext (execMrda x s) := by
  refine wf_issueOctet hs fun e => ?_
  split
  · trivial
  · refine wf_matIssue hs _ _ fun octs => ?_
    dsimp only
    split
    · trivial
    · refine wf_afterPasses e _ ?_
      (repeat' split) <;> simp [hs]

theorem wf_execMwra (x : X64) : WfNext (execMwra x s) := by
  refine wf_issueOctet hs fun e => ?_
  split
  · trivial
  · refine wf_matIssue hs _ _ fun octs => ?_
    split
    · trivial
    · exact wf_afterPasses e _ (by simp [hs])

theorem wf_execRinginit (x : X64) : WfNext (execRinginit x s) := by
  refine wf_issue hs fun e => ?_
  split
  · trivial
  · refine wf_matIssue hs _ _ fun octs => ?_
    split
    · trivial
    · dsimp only
      split
      · trivial
      · split
        · trivial
        · simp [hs]

theorem wf_ringAct (e : Issuer) (x : X64) {k : Nat → Nat → RingSlot → Act} (hk : ∀ i j st, WfAct (k i j st)) :
    WfAct (ringAct s e x k) := by
  unfold ringAct
  split
  · trivial
  · refine wf_matIssue hs _ _ fun octs => ?_
    split
    · trivial
    · dsimp only
      split
      · trivial
      · split
        · trivial
        · exact hk _ _ _

theorem wf_execRingput (x : X64) : WfNext (execRingput x s) := by
  refine wf_issue hs fun e => wf_ringAct hs e x fun i j st => ?_
  split <;> simp [hs]

theorem wf_execRingtake (x : X64) : WfNext (execRingtake x s) := by
  refine wf_issue hs fun e => wf_ringAct hs e x fun i j st => ?_
  split <;> simp [hs]

theorem wf_execRingdone (x : X64) : WfNext (execRingdone x s) := by
  refine wf_issue hs fun e => wf_ringAct hs e x fun i j st => ?_
  split <;> simp [hs]

theorem wf_execMstat (g : Gen) : WfNext (execMstat g s) := by
  refine wf_issue hs fun e => ?_
  split
  · trivial
  · exact wf_matIssue hs _ _ fun octs => by simp [hs]

/-! ### Machine/Expert -/

@[simp] theorem wf_onRowRefusalReceive (r : RowReply) : WfSome (onRowRefusalReceive r s) := by simp [onRowRefusalReceive, hs]

@[simp] theorem wf_onRowAcceptanceReceive (r : RowReply) : WfSome (onRowAcceptanceReceive r s) := by
  simp [onRowAcceptanceReceive, hs]

@[simp] theorem wf_dispatchDone (d : Dispatch) : Memory.wf (dispatchDone s d).mem = true := by
  unfold dispatchDone
  dsimp only
  split
  · exact hs
  · rw [completeAt_mem, foldl_mem _ fun _ _ => chargeMem_mem _ _ _ _]
    refine wf_foldl _ (fun t x ht => ?_) _ hs
    split
    · exact wf_pagesWrite ht _ _ _
    · exact ht

@[simp] theorem wf_onGdispatchComplete (op : Nat) : WfSome (onGdispatchComplete op s) := by
  unfold onGdispatchComplete
  split <;> simp [hs]

@[simp] theorem wf_onCloseMarkerSend (slot : BitVec 3) : WfSome (onCloseMarkerSend slot s) := by
  unfold onCloseMarkerSend
  (repeat' split) <;> simp [hs]

@[simp] theorem wf_resetBank (slot : Nat) (g : GateSlot) (m : BatchState) : Memory.wf (resetBank s slot g m).mem = true := by
  unfold resetBank
  rw [putGate_mem]
  refine wf_foldl _ (fun t x ht => ?_) _ hs
  dsimp only
  split
  · exact wf_gWriteNat ht _ _ _
  · exact ht

@[simp] theorem wf_onFillCounterReset (slot : BitVec 3) (bank : BitVec 1) : WfSome (onFillCounterReset slot bank s) := by
  unfold onFillCounterReset
  (repeat' split) <;> simp [hs]

@[simp] theorem wf_openBatch (slot j : Nat) : Memory.wf (openBatch s slot j).mem = true := by
  unfold openBatch
  (repeat' split) <;> simp [hs]

@[simp] theorem wf_closeMark (slot j src : Nat) (last : Bool) (dests : List Nat) :
    Memory.wf (closeMark s slot j src last dests).mem = true := by
  unfold closeMark
  dsimp only
  (repeat' split) <;> simp [hs]

@[simp] theorem wf_onCloseMarkerReceive (slot : BitVec 3) (batch src : Nat) (last : Bool) (dests : List Nat) :
    WfSome (onCloseMarkerReceive slot batch src last dests s) := by simp [onCloseMarkerReceive, hs]

@[simp] theorem wf_refuseRow (r : TokenRow) (code addr : Nat) : Memory.wf (refuseRow s r code addr).mem = true := by
  unfold refuseRow
  split <;> simp [hs]

@[simp] theorem wf_ownerWrite (rcb : Nat) (ps : List (Nat × Nat)) (va : Nat) (bs : List Byte) :
    Memory.wf (ownerWrite s rcb ps va bs).mem = true := by simp [ownerWrite, hs, wf_pagesWrite, chargeMem_mem]

@[simp] theorem wf_placeRow (slot rcb : Nat) (g : GateSlot) (r : TokenRow) (i : Nat) (rows recs : List (Nat × Nat)) :
    Memory.wf (placeRow s slot rcb g r i rows recs).mem = true := by
  unfold placeRow
  split <;> simp [hs]

@[simp] theorem wf_grantRow (slot rcb : Nat) (g : GateSlot) (r : TokenRow) :
    Memory.wf (grantRow s slot rcb g r).mem = true := by
  unfold grantRow
  have hm := fun pa => wf_memAtomic hs pa 4 0 1 0
  dsimp only
  repeat' split
  all_goals simp [hs, hm]

@[simp] theorem wf_holdRow (slot : Nat) (rg : Region) (g : GateSlot) (r : TokenRow) :
    Memory.wf (holdRow s slot rg g r).mem = true := by
  unfold holdRow
  split
  · exact hs
  · dsimp only
    split
    · rename_i m _ _ t fs ht
      have := wf_takeSmalls hs rg.pool (ceilDiv ((m.heldRows.length + 1) * (2 * gH (gateWord g) + 16))
        (2 ^ poolK (poolWord s rg.pool)) - m.frames.length)
      rw [ht] at this
      simpa using this
    · simp [hs]

@[simp] theorem wf_rowArrives (r : TokenRow) : Memory.wf (rowArrives s r).mem = true := by
  unfold rowArrives
  dsimp only
  (repeat' split) <;> simp [hs]

@[simp] theorem wf_onTokenRowReceive (r : TokenRow) : WfSome (onTokenRowReceive r s) := by simp [onTokenRowReceive, hs]

@[simp] theorem wf_closeRound (slot : Nat) (g : GateSlot) (m : BatchState) : Memory.wf (closeRound s slot g m).mem = true := by
  unfold closeRound
  have hr : ∀ (rg : Region) (rows : List TokenRow) {t : State}, Memory.wf t.mem = true → Memory.wf (rows.foldl (fun s r =>
      match spFind? s.gates slot with
      | some g => grantRow s slot rg.rcb g r
      | none => s) t).mem = true := by
    intro rg rows t ht
    refine wf_foldl _ (fun u r hu => ?_) _ ht
    split
    · exact wf_grantRow hu _ _ _ _
    · exact hu
  have hg : ∀ (rg : Region) (fs : List Nat) {t : State},
    Memory.wf t.mem = true → Memory.wf (fs.foldl (giveSmall rg.pool) t).mem = true :=
    fun rg fs t ht => wf_foldl _ (fun u f hu => wf_giveSmall hu _ _) _ ht
  dsimp only
  cases regionOfCtx (putGate s slot (putMb g { m with heldRows := [], frames := [], round := m.round + 1 })) g.ctx with
  | none =>
    dsimp only
    repeat' split
    all_goals simp [hs]
  | some rg =>
    have hw := hr rg (m.heldRows.foldr insertRow []) (hg rg m.frames
      (t := putGate s slot (putMb g { m with heldRows := [], frames := [], round := m.round + 1 })) hs)
    dsimp only
    split
    · split
      · exact hw
      · split
        · rw [closeBatch_mem]
          exact hw
        · exact hw
    · exact hw

@[simp] theorem wf_onOrderedRoundClose (slot : BitVec 3) : WfSome (onOrderedRoundClose slot s) := by
  unfold onOrderedRoundClose
  (repeat' split) <;> simp [hs]

@[simp] theorem wf_onLoadMulticastReceive (slot : BitVec 3) (batch : Nat) (loads : List (Nat × Nat)) :
    WfSome (onLoadMulticastReceive slot batch loads s) := by simp [onLoadMulticastReceive, hs]

@[simp] theorem wf_taskEnd (t : TileTask) : Memory.wf (taskEnd s t).mem = true := by
  unfold taskEnd
  split <;> simp [hs, apply_ite State.mem]

@[simp] theorem wf_spawnTile (slot : Nat) (g : GateSlot) (m : BatchState) (e q : Nat) :
    Memory.wf (spawnTile s slot g m e q).mem = true := by simp [spawnTile, hs, apply_ite State.mem, apply_ite Memory.wf]

@[simp] theorem wf_onTileSpawn (slot : BitVec 3) (bank : BitVec 1) (expert tile : Nat) :
    WfSome (onTileSpawn slot bank expert tile s) := by
  unfold onTileSpawn
  (repeat' split) <;> simp [hs]

@[simp] theorem wf_onFetchAttemptFail (idx : BitVec 14) : WfSome (onFetchAttemptFail idx s) := by
  unfold onFetchAttemptFail
  dsimp only
  split <;> simp [hs]

@[simp] theorem wf_deliverX (x : XMsg) : Memory.wf (deliverX s x).mem = true := by
  unfold deliverX
  split <;> simp [hs]

@[simp] theorem wf_takeX (before xs : List XMsg) : WfSome (takeX s before xs) := by
  induction xs generalizing before with
  | nil => trivial
  | cons x l ih =>
    rw [takeX]
    split
    · exact wf_deliverX (s := { s with xloop := before ++ l }) hs x
    · exact ih _

@[simp] theorem wf_deliverXloop : WfSome (deliverXloop s) := wf_takeX hs _ _

/-! ### Machine/ExpertInstr -/

theorem wf_readHold {e : Issuer} {l : List Nat} {a : Act} (ha : readHold s e l = some a) : WfAct a := by
  unfold readHold at ha
  split at ha
  · obtain rfl := Option.some.inj ha
    exact wf_forceRound hs _
  · obtain ⟨h, -, rfl⟩ := Option.map_eq_some_iff.1 ha
    exact wf_holdAct hs _ _

@[simp] theorem wf_gateRead (e : Issuer) (slot n : Nat) (gp : List (Nat × Nat)) : WfAct (gateRead s e slot n gp) := by
  unfold gateRead
  dsimp only
  (repeat' split) <;> simp [hs, chargeMem_mem]

theorem wf_execGatecfg (g : Gen) : WfNext (execGatecfg g s) := by
  refine wf_issue hs fun e => ?_
  dsimp only
  (repeat' split) <;> simp [hs]

@[simp] theorem wf_dispatchLost (e : Issuer) (slot : Nat) (g : GateSlot) (va r0 : Nat) (route : List (Nat × Nat)) (k a : Nat) :
    Memory.wf (dispatchLost s e slot g va r0 route k a).mem = true := by simp [dispatchLost, hs]

@[simp] theorem wf_dispatchEffect (e : Issuer) (slot : Nat) (g : GateSlot) (va r0 : Nat) (route : List (Nat × Nat))
    (rows : List (Nat × List (Nat × Nat))) : Memory.wf (dispatchEffect s e slot g va r0 route rows).mem = true := by
  unfold dispatchEffect
  dsimp only
  refine wf_foldl _ (fun t i ht => ?_) _ ?_
  · split
    · simp [ht]
    · exact ht
  · have hc : (rows.foldl (fun s r => chargeMem s e.l.region (pagesPa r.2 r.1) (2 * gH (gateWord g))) s).mem = s.mem :=
      foldl_mem _ (fun _ _ => chargeMem_mem _ _ _ _) _ _
    rw [putPack_mem]
    dsimp only
    split <;> simp [hc, hs]

@[simp] theorem wf_dispatchAct (e : Issuer) (slot : Nat) (g : GateSlot) (w va r0 k : Nat) :
    WfAct (dispatchAct s e slot g w va r0 k) := by
  unfold dispatchAct
  dsimp only
  split
  · trivial
  · split
    · trivial
    · split
      · exact wf_gridStall hs _ ‹_›
      · split
        · trivial
        · split
          · simp [hs]
          · split
            · trivial
            · split <;> simp [hs]

theorem wf_execGdispatch (g : Gen) : WfNext (execGdispatch g s) := by
  refine wf_issue hs fun e => ?_
  dsimp only
  (repeat' split) <;> simp [hs]

@[simp] theorem wf_markEffect (e : Issuer) (slot : Nat) (g : GateSlot) (p : Nat) :
    Memory.wf (markEffect s e slot g p).mem = true := by simp [markEffect, hs]

@[simp] theorem wf_markAct (e : Issuer) (x : Gen) (commit : Bool) : WfAct (markAct s e x commit) := by
  unfold markAct
  dsimp only
  (repeat' split) <;> simp [hs]

@[simp] theorem wf_onMbmarkCommit (slot : BitVec 3) : WfSome (onMbmarkCommit slot s) := by
  unfold onMbmarkCommit
  split
  · trivial
  · dsimp only
    split
    · exact wf_due.2 fun _ => wf_finish (by simp [hs]) _ _ (by simp [hs])
    · simp [hs]

theorem wf_execErtopDefine (g : Gen) : WfNext (execErtopDefine g s) := by
  refine wf_issue hs fun e => ?_
  dsimp only
  (repeat' split) <;> simp [hs]

theorem wf_execErtopFetch (g : Gen) : WfNext (execErtopFetch g s) := by
  refine wf_issue hs fun e => wf_ertUse s e g fun i n => ?_
  (repeat' split) <;> simp [hs]

theorem wf_execErtopEvict (g : Gen) : WfNext (execErtopEvict g s) := by
  refine wf_issue hs fun e => wf_ertUse s e g fun i n => ?_
  (repeat' split) <;> simp [hs]

theorem wf_execErtopPin (g : Gen) : WfNext (execErtopPin g s) := by
  refine wf_issue hs fun e => wf_ertUse s e g fun i n => ?_
  (repeat' split) <;> simp [hs]

theorem wf_execErtopUnpin (g : Gen) : WfNext (execErtopUnpin g s) := by
  refine wf_issue hs fun e => wf_ertUse s e g fun i n => ?_
  (repeat' split) <;> simp [hs]

theorem wf_execErtopRead (g : Gen) : WfNext (execErtopRead g s) := by
  refine wf_issue hs fun e => ?_
  split
  · trivial
  · refine wf_ertUse s e g fun i n => ?_
    split <;> simp [sameResult, hs]

theorem wf_execTaskdef (g : Gen) : WfNext (execTaskdef g s) := by
  refine wf_issue hs fun e => ?_
  split
  · trivial
  · dsimp only
    split
    · trivial
    · split
      · trivial
      · split
        · exact wf_readHold hs ‹_›
        · simp [sameResult, chargeMem_mem, hs]

theorem wf_execTaskdepSet (g : Gen) : WfNext (execTaskdepSet g s) := by
  refine wf_issue hs fun e => wf_depAct s e g fun n v t ht => ?_
  dsimp only at ht
  (repeat' split at ht) <;> cases ht
  simp [hs]

theorem wf_execTaskdepAdd (g : Gen) : WfNext (execTaskdepAdd g s) := by
  refine wf_issue hs fun e => wf_depAct s e g fun n v t ht => ?_
  (repeat' split at ht) <;> cases ht
  simp [hs]

theorem wf_execTaskdepSub (g : Gen) : WfNext (execTaskdepSub g s) := by
  refine wf_issue hs fun e => wf_depAct s e g fun n v t ht => ?_
  (repeat' split at ht) <;> cases ht
  simp [hs]

theorem wf_execKstat (g : Gen) : WfNext (execKstat g s) := by
  refine wf_issue hs fun e => ?_
  dsimp only
  (repeat' split) <;> simp [hs]

/-! ### Machine/Launch -/

@[simp] theorem wf_rejectPacket (src : LaunchSource) (n reason : Nat) : Memory.wf (rejectPacket s src n reason).mem = true := by
  unfold rejectPacket
  (repeat' split) <;> simp +contextual [hs]

@[simp] theorem wf_acceptPacket (p : Pending) : Memory.wf (acceptPacket s p).mem = true := by
  unfold acceptPacket
  dsimp only
  (repeat' split) <;> simp [hs]

@[simp] theorem wf_onLaunchAccept : WfSome (onLaunchAccept s) := by
  unfold onLaunchAccept
  split <;> simp [hs]

theorem wf_execLaunch (g : Gen) : WfNext (execLaunch g s) := by
  refine wf_issue hs fun e => ?_
  split
  · trivial
  · dsimp only
    split
    · trivial
    · split
      · exact wf_readHold hs ‹_›
      · simp [chargeMem_mem, hs]

/-! ### Machine/Net -/

@[simp] theorem wf_neCount (rcb ctx va : Nat) (ctr : Option Nat) : Memory.wf (neCount s rcb ctx va ctr).mem = true := by
  unfold neCount
  split <;> simp [hs, wf_memAtomic, chargeMem_mem, apply_ite State.mem, apply_ite Memory.wf]

@[simp] theorem wf_neRecord (ctx table ch : Nat) (entry : BitVec 512) (gen word : Nat) :
    Memory.wf (neRecord s ctx table ch entry gen word).mem = true := by
  unfold neRecord
  split <;> simp [hs, apply_ite State.mem, apply_ite Memory.wf]

@[simp] theorem wf_finishSend (q : NeReq) (status fault : Nat) : Memory.wf (finishSend s q status fault).mem = true := by
  simp [finishSend, hs, apply_ite State.mem, apply_ite Memory.wf]

@[simp] theorem wf_finishRecv (r : NeRecv) (status fault : Nat) : Memory.wf (finishRecv s r status fault).mem = true := by
  simp [finishRecv, hs, apply_ite State.mem, apply_ite Memory.wf]

@[simp] theorem wf_startSend (q : NeReq) : Memory.wf (startSend s q).mem = true := by
  unfold startSend
  dsimp only
  (repeat' split) <;> simp [wf_foldl, hs]

@[simp] theorem wf_onNpostStart (op : Nat) : WfSome (onNpostStart op s) := by
  unfold onNpostStart
  split <;> simp [hs]

@[simp] theorem wf_failSend (q : NeReq) (status fault : Nat) : Memory.wf (failSend s q status fault).mem = true := by
  simp [failSend, hs]

@[simp] theorem wf_resend (q : NeReq) (g : SegState) (counted : Bool) : Memory.wf (resend s q g counted).mem = true := by
  simp [resend, hs, apply_ite State.mem, apply_ite Memory.wf]

@[simp] theorem wf_onNeRetransmitTimeout (op part : Nat) : WfSome (onNeRetransmitTimeout op part s) := by
  unfold onNeRetransmitTimeout
  split <;> simp [hs]

@[simp] theorem wf_onNeNotReadyReceive (op : Nat) : WfSome (onNeNotReadyReceive op s) := by
  unfold onNeNotReadyReceive
  split
  · trivial
  · refine wf_due.2 fun _ => wf_foldl _ (fun t g ht => ?_) _ hs
    split
    · exact wf_resend ht _ _ _
    · exact ht

@[simp] theorem wf_resendLost (c : Channel) (id : NeId) : Memory.wf (resendLost s c id).mem = true := by
  unfold resendLost
  refine wf_foldl _ (fun t q ht => wf_foldl _ (fun u g hu => ?_) _ ht) _ hs
  split
  · split
    · exact wf_resend hu _ _ _
    · exact hu
  · exact hu

@[simp] theorem wf_ackArrives (c : Channel) (a : NeAck) : Memory.wf (ackArrives s c a).mem = true := by
  unfold ackArrives
  have hl : ∀ {t : State}, Memory.wf t.mem = true →
      Memory.wf (resendLost (a.received.foldl (fun s p => reportSeg s c a.id p) t) c a.id).mem = true :=
    fun {t} ht => wf_resendLost ((foldl_mem _ (fun _ _ => reportSeg_mem _ _ _ _) _ t).symm ▸ ht) _ _
  dsimp only
  refine wf_foldl _ (fun t q ht => by split <;> simp [ht]) _ (hl ?_)
  repeat' split
  all_goals simp [hs]

@[simp] theorem wf_onNeAckReceive (a : NeAck) : WfSome (onNeAckReceive a s) := by
  unfold onNeAckReceive
  split <;> simp [hs]

@[simp] theorem wf_refuseMsg (c : Channel) (g : NeSeg) (fault : Nat) : Memory.wf (refuseMsg s c g fault).mem = true := by
  unfold refuseMsg
  split <;> simp [hs]

@[simp] theorem wf_placeSeg (c : Channel) (r : NeRecv) (g : NeSeg) : Memory.wf (placeSeg s c r g).mem = true := by
  simp [placeSeg, hs, wf_pagesWrite, apply_ite State.mem, apply_ite Memory.wf]

@[simp] theorem wf_rmaSeg (c : Channel) (g : NeSeg) : Memory.wf (rmaSeg s c g).mem = true := by
  unfold rmaSeg
  (repeat' split) <;> simp [hs, wf_pagesWrite]

@[simp] theorem wf_readBack (c : Channel) (g : NeSeg) : Memory.wf (readBack s c g).mem = true := by
  unfold readBack
  dsimp only
  split <;> simp [hs, wf_pagesWrite, apply_ite State.mem, apply_ite Memory.wf]

@[simp] theorem wf_takeSeg (c : Channel) (g : NeSeg) : Memory.wf (takeSeg s c g).mem = true := by
  unfold takeSeg
  (repeat' split) <;> simp [hs, apply_ite State.mem, apply_ite Memory.wf]

@[simp] theorem wf_drainHeld (ctx table ch n : Nat) : Memory.wf (drainHeld ctx table ch n s).mem = true := by
  induction n generalizing s with
  | zero => exact hs
  | succ n ih =>
    rw [drainHeld]
    split
    · exact hs
    · split
      · exact hs
      · refine ih ?_
        split <;> simp [hs]

@[simp] theorem wf_segArrives (g : NeSeg) : Memory.wf (segArrives s g).mem = true := by
  unfold segArrives
  split <;> simp [hs, apply_ite State.mem, apply_ite Memory.wf]

@[simp] theorem wf_onNeSegmentReceive (g : NeSeg) : WfSome (onNeSegmentReceive g s) := by simp [onNeSegmentReceive, hs]

@[simp] theorem wf_onNeReceiveTimeout (op : Nat) : WfSome (onNeReceiveTimeout op s) := by
  unfold onNeReceiveTimeout
  split <;> simp [hs]

@[simp] theorem wf_abortArrives (c : Channel) (msg : Nat) : Memory.wf (abortArrives s c msg).mem = true := by
  unfold abortArrives
  split <;> simp [hs]

@[simp] theorem wf_onNeAbortReceive (id : NeId) (msg : Nat) : WfSome (onNeAbortReceive id msg s) := by
  unfold onNeAbortReceive
  split <;> simp [hs]

@[simp] theorem wf_npostEffect (e : Issuer) (n : Nat) (ps : List (Nat × Nat)) (ctr : Option Nat) :
    Memory.wf (npostEffect s e n ps ctr).mem = true := by
  unfold npostEffect
  dsimp only
  split <;> simp [hs, apply_ite State.mem, apply_ite Memory.wf]

theorem wf_execNpost (g : Gen) : WfNext (execNpost g s) := by
  refine wf_issue hs fun e => ?_
  dsimp only
  (repeat' split) <;> simp [hs]

@[simp] theorem wf_nrecvEffect (e : Issuer) (n : Nat) (ps : List (Nat × Nat)) (ctr : Option Nat) :
    Memory.wf (nrecvEffect s e n ps ctr).mem = true := by
  unfold nrecvEffect
  dsimp only
  split <;> simp [hs]

theorem wf_execNrecv (g : Gen) : WfNext (execNrecv g s) := by
  refine wf_issue hs fun e => ?_
  dsimp only
  (repeat' split) <;> simp [hs]

theorem wf_execNpoll (g : Gen) : WfNext (execNpoll g s) := by
  refine wf_issue hs fun e => ?_
  dsimp only
  (repeat' split) <;> simp [hs]

@[simp] theorem wf_armEffect (e : Issuer) (i n tag mask : Nat) (keep : Bool) :
    Memory.wf (armEffect s e i n tag mask keep).mem = true := by
  unfold armEffect
  split <;> simp [hs]

theorem wf_execLarm (g : Gen) : WfNext (execLarm g s) := by
  refine wf_issue hs fun e => ?_
  split
  · trivial
  · dsimp only
    split
    · trivial
    · split
      · exact hs
      · split
        · trivial
        · split
          · exact wf_readHold hs ‹_›
          · simp [chargeMem_mem, hs]

/-! ### Machine/System -/

theorem wf_execSrw (g : Gen) : WfNext (execSrw g s) := by
  refine wf_issue hs fun e => ?_
  dsimp only
  (repeat' split) <;> simp [hs]

@[simp] theorem wf_invIdle (r : InvRange) : Memory.wf (invIdle s r).mem = true := by
  unfold invIdle
  refine wf_foldl _ (fun t q ht => wf_finishRecv ht _ _ _) _ ?_
  exact wf_foldl _ (fun t q ht => wf_finishSend ht _ _ _) _ hs

@[simp] theorem wf_ertInval (ctx : Option Nat) (va len : Nat) : Memory.wf (ertInval s ctx va len).mem = true := by
  unfold ertInval
  exact wf_foldl _ (fun t x ht => by simp [ht]) _ hs

@[simp] theorem wf_evictRange (e : Issuer) (ctx : Option Nat) (va len : Nat) :
    Memory.wf (evictRange s e ctx va len).1.mem = true := by
  unfold evictRange
  split <;> simp +contextual [wf_foldl, hs]

@[simp] theorem wf_waitEvicts (e : Issuer) (l : List Nat) : WfAct (waitEvicts s e l) := by simp [waitEvicts, hs]

@[simp] theorem wf_invStash (r : InvRange) : Memory.wf (invStash s r).mem = true := by
  unfold invStash
  refine wf_foldl _ (fun t b ht => ?_) _ hs
  split
  · exact wf_foldl _ (fun u l hu => wf_recallLine hu _) _ ht
  · exact ht

@[simp] theorem wf_invAct (e : Issuer) (r : InvRange) : WfAct (invAct s e r) := by
  unfold invAct
  extract_lets u v x
  have hv : Memory.wf v.mem = true := by
    unfold v
    split
    · exact hs
    · exact wf_invIdle (s := u) hs r
  have hx : Memory.wf x.1.mem = true := wf_evictRange (wf_invStash hv r) _ _ _ _
  split <;> simp [hx]

theorem wf_execTlbinvPage (g : Gen) : WfNext (execTlbinvPage g s) := by
  refine wf_issue hs fun e => ?_
  dsimp only
  (repeat' split) <;> simp [hs]

theorem wf_execTlbinvContext (g : Gen) : WfNext (execTlbinvContext g s) := by
  refine wf_issue hs fun e => ?_
  split <;> simp [hs]

@[simp] theorem wf_flipUnit (host : Bool) (pa : Nat) : Memory.wf (flipUnit host s pa).mem = true := by
  unfold flipUnit
  (repeat' split) <;> simp [hs, wf_gWrite, wf_recallSpan, dropCaches_mem, apply_ite State.mem, apply_ite Memory.wf]

@[simp] theorem wf_flipAct (e : Issuer) (g : Gen) (host : Bool) : WfAct (flipAct s e g host) := by
  unfold flipAct
  dsimp only
  (repeat' split) <;> simp +contextual [wf_foldl, hs]

@[simp] theorem wf_changeLeaves (ctx : Nat) (p : Page) (f : Nat → Nat) : Memory.wf (changeLeaves s ctx p f).mem = true := by
  unfold changeLeaves
  split <;> simp +contextual [wf_foldl, hs, wf_gWriteNat]

theorem wf_moveHeld {e : Issuer} {p : Page} {a : Act} (ha : moveHeld s e p = some a) : WfAct a := by
  unfold moveHeld at ha
  dsimp only at ha
  split at ha
  · cases ha
  · obtain rfl := Option.some.inj ha
    exact wf_waitEvicts (wf_evictRange hs _ _ _ _) _ _

@[simp] theorem wf_moveGone (e : Issuer) (c va : Nat) : WfAct (moveGone s e c va) := by
  unfold moveGone
  split
  · trivial
  · exact hs
  · have := wf_foldl _ (fun t i ht => wf_ertEvict ht i) ‹_› hs
    simp [waitEvicts, this]

@[simp] theorem wf_moveLocal (e : Issuer) (p : Page) (frame : Nat) : Memory.wf (moveLocal s e p frame).mem = true := by
  simp [moveLocal, hs, wf_copySpan, dropCaches_mem]

theorem wf_execMigrateLocal (g : Gen) : WfNext (execMigrateLocal g s) := by
  refine wf_issue hs fun e => ?_
  split
  · trivial
  · dsimp only
    split
    · exact wf_moveGone hs _ _ _
    · repeat' split
      · trivial
      · trivial
      · trivial
      · exact wf_moveHeld hs ‹_›
      · exact wf_moveLocal hs _ _ _

@[simp] theorem wf_moveRemote (e : Issuer) (p : Page) (dest : Nat) : Memory.wf (moveRemote s e p dest).mem = true := by
  unfold moveRemote
  have hr := wf_recallSpan (wf_drainComb hs) p.pa (2 ^ p.k)
  dsimp only
  rw [farRequests_mem, dropTable_mem]
  refine wf_changeLeaves ?_ _ _ _
  rw [chargeFabric_mem, chargeMove_mem, dropCaches_mem]
  exact hr

@[simp] theorem wf_takePage (src ctx va k : Nat) (cells : List Host.Cell) (bad : List Nat) :
    Memory.wf (takePage s src ctx va k cells bad).mem = true := by
  unfold takePage
  dsimp only
  split <;> simp [hs, wf_recallSpan, wf_putSpan, dropCaches_mem, apply_ite State.mem, apply_ite Memory.wf]

@[simp] theorem wf_moveAborted (e : Issuer) (p : Page) (dest cause : Nat) :
    Memory.wf (moveAborted s e p dest cause).mem = true := by simp [moveAborted, hs]

@[simp] theorem wf_moveOutcome (e : Issuer) (p : Page) (dest : Nat) : Memory.wf (moveOutcome s e p dest).mem = true := by
  unfold moveOutcome
  dsimp only
  (repeat' split) <;> simp [hs]

theorem wf_execMigrateRemote (g : Gen) : WfNext (execMigrateRemote g s) := by
  refine wf_issue hs fun e => ?_
  split
  · trivial
  · dsimp only
    split
    · exact wf_moveGone hs _ _ _
    · repeat' split
      · trivial
      · trivial
      · exact wf_moveHeld hs ‹_›
      · exact wf_waitEvicts hs _ _
      · exact wf_moveOutcome hs _ _ _

theorem wf_execCapset (g : Gen) : WfNext (execCapset g s) := by
  refine wf_issue hs fun e => ?_
  split
  · trivial
  · dsimp only
    split
    · trivial
    · split
      · trivial
      · split
        · exact wf_holdAct hs _ _
        · rw [wfAct_ok, installChan_mem]
          exact wf_pagesWrite ((chargeMem_mem _ _ _ _).symm ▸ hs) _ _ _

/-! ### Machine/Trap -/

@[simp] theorem wf_mapLane (ctx rcb attr : Nat) (r : Region) (va : Nat) :
    Memory.wf (mapLane ctx rcb attr r s va).1.mem = true := by
  unfold mapLane
  dsimp only
  split
  · exact hs
  · split
    · exact hs
    · split
      · exact hs
      · split
        · exact hs
        · split
          · exact hs
          · rename_i t f ht
            have h1 : WfSome ((some (t, f)).map Prod.fst) := ht ▸ wf_takeSmall hs r.pool
            split
            · exact h1
            · exact wf_foldl _ (fun _ _ hu => wf_gWriteNat hu _ _ _) _ ((chargeMove_mem _ _ _ _).symm ▸ wf_zeroFrame h1 _ _)

@[simp] theorem wf_mapLanes (ctx rcb attr : Nat) (r : Region) (vas : List (Nat × Nat)) :
    Memory.wf (mapLanes ctx rcb attr r s vas).1.mem = true := by
  induction vas generalizing s with
  | nil => exact hs
  | cons x xs ih => exact ih (wf_mapLane hs ctx rcb attr r x.2)

theorem wf_execMappg (g : Gen) : WfNext (execMappg g s) := by
  refine wf_issue hs fun e => ?_
  dsimp only
  (repeat' split) <;> simp [hs]

@[simp] theorem wf_trapAct (e : Issuer) (g : Gen) (cause : Nat) : WfAct (trapAct s e g cause) := by
  unfold trapAct
  dsimp only
  (repeat' split) <;> simp [hs]

@[simp] theorem wf_reloadTrapped (blk : Nat) (t : TrapInfo) : Memory.wf (reloadTrapped s blk t).mem = true := by
  unfold reloadTrapped
  split <;> simp +contextual [wf_foldl, hs]

theorem wf_execRetfEsc (g : Gen) : WfNext (execRetfEsc g s) := by
  refine wf_issue hs fun e => ?_
  (repeat' split) <;> simp [hs]

/-! ### Machine/Host -/

@[simp] theorem wf_onHostQueueDoorbell (q : BitVec 8) (p : Word) : WfSome (onHostQueueDoorbell q p s) := by
  simp [onHostQueueDoorbell, hs]

@[simp] theorem wf_onHqerrClear (mask : DWord) : WfSome (onHqerrClear mask s) := by simp [onHqerrClear, hs]

@[simp] theorem wf_onHostSysregWrite (n : BitVec 4) (x : DWord) : WfSome (onHostSysregWrite n x s) := by
  unfold onHostSysregWrite
  split <;> simp [hs]

@[simp] theorem wf_onHostRegisterWrite (off : BitVec 24) (x : DWord) : WfSome (onHostRegisterWrite off x s) := by
  simp [onHostRegisterWrite, hs]

@[simp] theorem wf_homePerform (r : HomeReq) : Memory.wf (homePerform s r).mem = true := by
  unfold homePerform
  split <;> simp [hs, wf_gWriteNat, wf_memAtomic, apply_ite State.mem, apply_ite Memory.wf]

@[simp] theorem wf_homeServe (r : HomeReq) : Memory.wf (homeServe s r).mem = true := by simp [homeServe, hs]

@[simp] theorem wf_onHomeSliceAccess (r : HomeReq) : WfSome (onHomeSliceAccess r s) := by simp [onHomeSliceAccess, hs]

@[simp] theorem wf_onHostMemoryAccess (r : HomeReq) : WfSome (onHostMemoryAccess r s) := by
  unfold onHostMemoryAccess
  split <;> simp [hs]

@[simp] theorem wf_onCxlCacheSnoop (line : Nat) (inval : Bool) : WfSome (onCxlCacheSnoop line inval s) := by
  unfold onCxlCacheSnoop
  (repeat' split) <;> simp [hs, wf_recallLine]

@[simp] theorem wf_onHostLinkDown : WfSome (onHostLinkDown s) := by simp [onHostLinkDown, hs]

@[simp] theorem wf_onMigrationResend (ctx : BitVec 16) (va : DWord) (r : Resent) : WfSome (onMigrationResend ctx va r s) := by
  unfold onMigrationResend
  (repeat' split) <;> simp [hs]

/-! ### Machine/Sched -/

@[simp] theorem wf_onBlockPlacement : WfSome (onBlockPlacement s) := by
  unfold onBlockPlacement
  (repeat' split) <;> simp [hs]

@[simp] theorem wf_onBlockStart (core : BitVec 8) : WfSome (onBlockStart core s) := by
  unfold onBlockStart
  dsimp only
  (repeat' split) <;> simp [hs]

@[simp] theorem wf_onStealAttempt (core : BitVec 8) : WfSome (onStealAttempt core s) := by simp [onStealAttempt, hs]

@[simp] theorem wf_doneIncrement (l : Launch) (linear : Nat) : Memory.wf (doneIncrement s l linear).mem = true := by
  unfold doneIncrement
  dsimp only
  (repeat' split) <;> simp [hs, wf_memAtomic, chargeMem_mem]

@[simp] theorem wf_launchEnd (l : Launch) (linear : Nat) : Memory.wf (launchEnd s l linear).mem = true := by
  unfold launchEnd
  split <;> simp [hs]

@[simp] theorem wf_flushLast (c rcb : Nat) : Memory.wf (flushLast s c rcb).mem = true := by
  unfold flushLast
  split <;> simp [hs]

@[simp] theorem wf_endBlock (b : Block) (l : Launch) : Memory.wf (endBlock s b l).mem = true := by
  unfold endBlock
  have hc := wf_cleanLines hs b fun _ => true
  dsimp only
  split <;> simp [hc]

@[simp] theorem wf_onBlockEnd (blk : Nat) : WfSome (onBlockEnd blk s) := by
  unfold onBlockEnd
  (repeat' split) <;> simp [hs]

@[simp] theorem wf_onPendingSpawn : WfSome (onPendingSpawn s) := by simp [onPendingSpawn, hs]

@[simp] theorem wf_onRunEnd (core : BitVec 8) (sched : BitVec 2) : WfSome (onRunEnd core sched s) := by
  unfold onRunEnd
  dsimp only
  split <;> simp [hs]

@[simp] theorem wf_onFragmentWake (f : FragRef) : WfSome (onFragmentWake f s) := by simp [onFragmentWake, hs]

@[simp] theorem wf_onAppendClaimGrant (f : FragRef) : WfSome (onAppendClaimGrant f s) := by simp [onAppendClaimGrant, hs]

@[simp] theorem wf_onConditionMonitorWake (f : FragRef) : WfSome (onConditionMonitorWake f s) := by
  simp [onConditionMonitorWake, hs]

@[simp] theorem wf_onMonitorPoll (f : FragRef) : WfSome (onMonitorPoll f s) := by
  unfold onMonitorPoll
  split <;> simp [hs]

@[simp] theorem wf_onBudgetPeriodEnd (unit : BitVec 11) (act : BitVec 3) (rcb : BitVec 52) :
    WfSome (onBudgetPeriodEnd unit act rcb s) := by simp [onBudgetPeriodEnd, hs]

@[simp] theorem wf_onPreempt (blk : Nat) : WfSome (onPreempt blk s) := by
  unfold onPreempt
  (repeat' split) <;> simp [hs]

@[simp] theorem wf_switchRegion (rcb : Nat) : Memory.wf (switchRegion s rcb).mem = true := by
  unfold switchRegion
  exact wf_flushWhere (wf_foldl _ (fun _ _ ht => wf_preemptBlock ht _ _) _ hs) _

@[simp] theorem wf_onContextSwitch (rcb : BitVec 52) : WfSome (onContextSwitch rcb s) := by simp [onContextSwitch, hs]

@[simp] theorem wf_reloadAll (bid : Nat) : Memory.wf (reloadAll s bid).mem = true := by
  unfold reloadAll
  split <;> simp +contextual [wf_foldl, hs]

@[simp] theorem wf_resumeBlock (b : Block) (l : Launch) (c : Nat) : Memory.wf (resumeBlock s b l c).mem = true := by
  simp [resumeBlock, hs]

@[simp] theorem wf_discardBlock (b : Block) (l : Launch) : Memory.wf (discardBlock s b l).mem = true := by
  simp [discardBlock, hs]

@[simp] theorem wf_onBlockResume (blk : Nat) (core : BitVec 8) : WfSome (onBlockResume blk core s) := by
  unfold onBlockResume
  (repeat' split) <;> simp [hs]

@[simp] theorem wf_onDetRoundComplete (launch : Nat) : WfSome (onDetRoundComplete launch s) := by
  unfold onDetRoundComplete
  (repeat' split) <;> simp [hs]

@[simp] theorem wf_onDetSyncTurn (launch : Nat) : WfSome (onDetSyncTurn launch s) := by
  unfold onDetSyncTurn
  split <;> simp [hs]

/-! ### Machine/Events -/

@[simp] theorem wf_onStashSegmentWake (core : BitVec 8) (seg : BitVec 4) : WfSome (onStashSegmentWake core seg s) := by
  simp [onStashSegmentWake, hs]

@[simp] theorem wf_onStashFillComplete (blk line : Nat) : WfSome (onStashFillComplete blk line s) := by
  unfold onStashFillComplete
  (repeat' split) <;> simp [hs]

@[simp] theorem wf_loseLine (b : Block) (l : StashLine) : Memory.wf (loseLine s b l).mem = true := by simp [loseLine, hs]

@[simp] theorem wf_earlyBack (b : Block) (l : StashLine) : Memory.wf (earlyBack s b l).mem = true := by
  simp [earlyBack, hs, wf_sendLine]

@[simp] theorem wf_onStashWriteback (blk line : Nat) (err : Bool) : WfSome (onStashWriteback blk line err s) := by
  unfold onStashWriteback
  (repeat' split) <;> simp [hs]

@[simp] theorem wf_onL2WayGate (stack : BitVec 2) (way : Nat) : WfSome (onL2WayGate stack way s) := by simp [onL2WayGate, hs]

@[simp] theorem wf_onL2WayEnable (stack : BitVec 2) (way : Nat) : WfSome (onL2WayEnable stack way s) := by
  simp [onL2WayEnable, hs]

@[simp] theorem wf_onPageWalkComplete (ctx : BitVec 16) (va : DWord) : WfSome (onPageWalkComplete ctx va s) := by
  exact wf_map_some fun w => by simp [hs]

theorem wf_engineGoes {t : State} (ht : Memory.wf t.mem = true) (o : EngineOp) (pas : List Nat) (fills : List (Nat × Nat)) :
    WfSome (engineGoes s o pas fills t) := by
  unfold engineGoes
  split
  · exact ht
  · exact wf_admitAt hs ht _ _

@[simp] theorem wf_onStreamerBytesComplete (op n : Nat) : WfSome (onStreamerBytesComplete op n s) := by
  unfold onStreamerBytesComplete
  split
  · trivial
  · split
    · exact wf_guard (wf_engineGoes hs (wf_xferMove hs _ _ _ _ _ _ _ _ _) _ _ _)
    · trivial

@[simp] theorem wf_onLaneCopyLand (op : Nat) : WfSome (onLaneCopyLand op s) := by
  unfold onLaneCopyLand
  split
  · trivial
  · split
    · exact wf_engineGoes hs (by simp [hs]) _ _ _
    · trivial

@[simp] theorem wf_onMatrixDrainComplete (op : Nat) : WfSome (onMatrixDrainComplete op s) := by
  unfold onMatrixDrainComplete
  split
  · trivial
  · split
    · exact wf_engineGoes hs (by simp [hs]) _ _ _
    · trivial

@[simp] theorem wf_passLost (b : Block) (p : PassOp) (elems : List Nat) : Memory.wf (passLost s b p elems).mem = true := by
  simp [passLost, hs]

@[simp] theorem wf_onMatrixPassComplete (op : Nat) : WfSome (onMatrixPassComplete op s) := by
  unfold onMatrixPassComplete
  (repeat' split) <;> simp [hs]

@[simp] theorem wf_replayPass (b : Block) (p : PassOp) (good : Bool) : Memory.wf (replayPass s b p good).mem = true := by
  unfold replayPass
  dsimp only
  split <;> simp [hs, apply_ite State.mem, apply_ite Memory.wf]

@[simp] theorem wf_onChecksumReplay (op : Nat) (good : Bool) : WfSome (onChecksumReplay op good s) := by
  unfold onChecksumReplay
  split <;> simp [hs]

@[simp] theorem wf_strikeBlock (blk : Nat) (f : Block → Option Block) : WfSome (strikeBlock s blk f) := by
  unfold strikeBlock
  split
  · split
    · exact wf_map_some fun _ => hs
    · trivial
  · trivial

@[simp] theorem wf_strikePack (blk pidx pos : Nat) (f : Pack → Pack) : WfSome (strikePack s blk pidx pos f) := by
  exact wf_strikeBlock hs _ _

@[simp] theorem wf_strikeAt (u : Upset) : WfSome (strikeAt s u) := by
  cases u with
  | corrected => exact hs
  | memory k => simp only [strikeAt]; split <;> simp [hs]
  | l2Data k =>
    simp only [strikeAt]
    cases spFind? s.l2 (k / 4) with
    | none => trivial
    | some l => simp only [Option.bind_some]; split <;> simp [hs]
  | l2Tag k => simp only [strikeAt]; split <;> simp [hs]
  | l1 c k => exact hs
  | tlb p va => exact hs
  | stash blk w => exact wf_strikeBlock hs _ _
  | vector blk i j lane r banked => exact wf_strikePack hs _ _ _ _
  | uniform blk i j r banked => exact wf_strikePack hs _ _ _ _
  | predicate blk i j lane r => exact wf_strikePack hs _ _ _ _
  | accumulator blk t k => exact wf_strikeBlock hs _ _
  | marver blk k => exact wf_strikeBlock hs _ _
  | gate k => exact wf_map_some fun _ => hs

@[simp] theorem wf_strike (u : Upset) : Memory.wf (strike s u).mem = true := by
  unfold strike
  split
  · exact hs
  · rename_i t ht
    have h1 : Memory.wf t.mem = true := by
      have := wf_strikeAt hs u
      rwa [ht] at this
    split <;> simp [h1]

@[simp] theorem wf_takeInput (x : Input) : Memory.wf (takeInput s x).mem = true := by
  unfold takeInput
  split <;> simp [hs]

@[simp] theorem wf_onScrub (sector : Nat) (r : ScrubResult) : WfSome (onScrub sector r s) := by simp [onScrub, hs]

/-! ### Machine/Fabric -/

@[simp] theorem wf_requestIn (g : GOut) (busy : optParam Bool false) : Memory.wf (requestIn s g busy).mem = true := by
  simp [requestIn, hs]

@[simp] theorem wf_answerIn (g : GOut) : Memory.wf (answerIn s g).mem = true := by simp [answerIn, hs]

@[simp] theorem wf_onGstLineReceive (m : GMsg) : WfSome (onGstLineReceive m s) := by simp [onGstLineReceive, hs]

@[simp] theorem wf_onGldRequestReceive (m : GMsg) : WfSome (onGldRequestReceive m s) := by simp [onGldRequestReceive, hs]

@[simp] theorem wf_onGldReplyReceive (m : GMsg) : WfSome (onGldReplyReceive m s) := by simp [onGldReplyReceive, hs]

@[simp] theorem wf_onGredContributionReceive (c : Contribution) : WfSome (onGredContributionReceive c s) := by
  simp [onGredContributionReceive, hs]

@[simp] theorem wf_onGatomRequestReceive (m : GMsg) (busy : Bool) : WfSome (onGatomRequestReceive m busy s) := by
  simp [onGatomRequestReceive, hs]

@[simp] theorem wf_onGatomReplyReceive (m : GMsg) : WfSome (onGatomReplyReceive m s) := by simp [onGatomReplyReceive, hs]

@[simp] theorem wf_onGscanContributionReceive (m : GMsg) : WfSome (onGscanContributionReceive m s) := by
  simp [onGscanContributionReceive, hs]

@[simp] theorem wf_onGscanReplyReceive (m : GMsg) : WfSome (onGscanReplyReceive m s) := by simp [onGscanReplyReceive, hs]

@[simp] theorem wf_onGcopyLineReceive (m : GMsg) : WfSome (onGcopyLineReceive m s) := by simp [onGcopyLineReceive, hs]

@[simp] theorem wf_onGcopyHeldDelivery : WfSome (onGcopyHeldDelivery s) := by simp [onGcopyHeldDelivery, hs]

@[simp] theorem wf_onAcknowledgementReceive (m : GMsg) : WfSome (onAcknowledgementReceive m s) := by
  simp [onAcknowledgementReceive, hs]

@[simp] theorem wf_markerIn (g : GOut) : Memory.wf (markerIn s g).mem = true := by
  unfold markerIn
  dsimp only
  split <;> simp [hs]

@[simp] theorem wf_onReleaseMarkerReceive (src : BitVec 20) (mark : MarkerId) : WfSome (onReleaseMarkerReceive src mark s) := by
  simp [onReleaseMarkerReceive, hs]

@[simp] theorem wf_onRefusalReceive (m : GMsg) : WfSome (onRefusalReceive m s) := by simp [onRefusalReceive, hs]

@[simp] theorem wf_planeEscalate (m : Nat) (domain : Nat) : Memory.wf (planeEscalate m s domain).mem = true := by
  unfold planeEscalate
  exact wf_postTo (wf_postTo (wf_stopDomain hs _) _ _) _ _

@[simp] theorem wf_failPlane (m : Nat) : Memory.wf (failPlane s m).mem = true := by
  unfold failPlane
  dsimp only
  refine wf_foldl _ (fun _ _ ht => wf_planeEscalate ht _ _) _ (wf_settlePort ?_ _)
  rw [foldl_mem _ fun _ _ => settleRelease_mem _ _ _]
  exact hs

@[simp] theorem wf_onPlaneLossReport (plane : BitVec 3) : WfSome (onPlaneLossReport plane s) := by simp [onPlaneLossReport, hs]

@[simp] theorem wf_onIdleFlitReceive (link : BitVec 6) (vc : BitVec 3) (crd : BitVec 6) :
    WfSome (onIdleFlitReceive link vc crd s) := by simp [onIdleFlitReceive, hs]

@[simp] theorem wf_onReservedVcFlit (link : BitVec 6) : WfSome (onReservedVcFlit link s) := by simp [onReservedVcFlit, hs]

@[simp] theorem wf_onFlitCrcFailure (link : BitVec 6) : WfSome (onFlitCrcFailure link s) := by simp [onFlitCrcFailure, hs]

@[simp] theorem wf_onLinkReplayRequest (link : BitVec 6) (fseq : BitVec 8) : WfSome (onLinkReplayRequest link fseq s) := by
  simp [onLinkReplayRequest, hs]

@[simp] theorem wf_onLinkFlitAcknowledge (link : BitVec 6) (fseq : BitVec 8) : WfSome (onLinkFlitAcknowledge link fseq s) := by
  simp [onLinkFlitAcknowledge, hs]

@[simp] theorem wf_downLink (k : Nat) : Memory.wf (downLink s k).mem = true := by
  unfold downLink
  dsimp only
  split <;> simp [hs, apply_ite State.mem, apply_ite Memory.wf]

@[simp] theorem wf_onLinkDown (link : BitVec 6) : WfSome (onLinkDown link s) := by simp [onLinkDown, hs]

@[simp] theorem wf_onLinkFailoverNotice (link : BitVec 6) (fseq : BitVec 8) : WfSome (onLinkFailoverNotice link fseq s) := by
  simp [onLinkFailoverNotice, hs]

@[simp] theorem wf_onAuditFlitSend (link : BitVec 6) : WfSome (onAuditFlitSend link s) := by simp [onAuditFlitSend, hs]

@[simp] theorem wf_onCreditAuditReceive (link : BitVec 6) (vc : BitVec 3) (slots : Nat) :
    WfSome (onCreditAuditReceive link vc slots s) := by simp [onCreditAuditReceive, hs, apply_ite State.mem]

@[simp] theorem wf_onUnreachableMark (link : BitVec 6) : WfSome (onUnreachableMark link s) := by simp [onUnreachableMark, hs]

/-! ### Machine/GridInstr -/

theorem wf_execGpat (g : G64) : WfNext (execGpat g s) := by
  refine wf_issue hs fun e => ?_
  dsimp only
  (repeat' split) <;> simp [hs]

@[simp] theorem wf_gstEffect (e : Issuer) (g : G64) (act : List Nat) : WfAct (gstEffect s e g act) := by
  unfold gstEffect
  split <;> simp [hs]

theorem wf_execGst (g : G64) : WfNext (execGst g s) := by
  unfold execGst
  refine wf_issue hs fun e => ?_
  dsimp only
  (repeat' split) <;> try simp [hs]
  exact wf_gridStall hs _ ‹_›

@[simp] theorem wf_gcopyEffect (e : Issuer) (g : G64) (pages : List (Nat × Nat)) : WfAct (gcopyEffect s e g pages) := by
  unfold gcopyEffect
  dsimp only
  split <;> simp [hs]

theorem wf_execGcopy (g : G64) : WfNext (execGcopy g s) := by
  unfold execGcopy
  refine wf_issue hs fun e => ?_
  dsimp only
  (repeat' split) <;> try simp [hs]
  exact wf_gridStall hs _ ‹_›

theorem wf_execGld (g : G64) : WfNext (execGld g s) := by
  unfold execGld
  refine wf_issue hs fun e => ?_
  dsimp only
  (repeat' split) <;> try simp [hs]
  exact wf_gridStall hs _ ‹_›

theorem wf_execGatom (g : G64) : WfNext (execGatom g s) := by
  unfold execGatom
  refine wf_issue hs fun e => ?_
  dsimp only
  (repeat' split) <;> try simp [hs]
  exact wf_gridStall hs _ ‹_›

@[simp] theorem wf_gredAct (e : Issuer) (g : G64) (act : List Nat) : WfAct (gredAct s e g act) := by
  unfold gredAct
  dsimp only
  split
  · trivial
  · split
    · trivial
    · split
      · trivial
      · split
        · trivial
        · split
          · exact wf_gridStall hs _ ‹_›
          · trivial
          · split <;> simp [hs]

@[simp] theorem wf_gscanAct (e : Issuer) (g : G64) (act : List Nat) : WfAct (gscanAct s e g act) := by
  unfold gscanAct
  dsimp only
  split
  · trivial
  · split
    · trivial
    · split
      · trivial
      · split
        · exact hs
        · split
          · exact wf_gridStall hs _ ‹_›
          · simp [hs]

theorem wf_execGfence (_g : G64) : WfNext (execGfence _g s) := by
  refine wf_issue hs fun e => ?_
  split <;> simp [hs]

theorem wf_execGwait (g : G64) : WfNext (execGwait g s) := by
  refine wf_issue hs fun e => ?_
  dsimp only
  (repeat' split) <;> simp [hs]

/-! ### Machine/Mgmt -/

@[simp] theorem wf_onShadowFlushTimer (unit : BitVec 11) : WfSome (onShadowFlushTimer unit s) := by
  unfold onShadowFlushTimer
  exact wf_foldl _ (fun t x ht => by simp [ht]) _ hs

@[simp] theorem wf_onEnergyInterval (island : BitVec 8) (nj : Nat) : WfSome (onEnergyInterval island nj s) := by
  simp [onEnergyInterval, hs]

@[simp] theorem wf_onIslandSet (island : BitVec 8) (mv mhz : BitVec 16) : WfSome (onIslandSet island mv mhz s) := by
  simp [onIslandSet, hs]

@[simp] theorem wf_onMctpStatus : WfSome (onMctpStatus s) := hs

@[simp] theorem wf_onMctpIslandTelemetry : WfSome (onMctpIslandTelemetry s) := hs

@[simp] theorem wf_onMctpReadCounters (ctx : BitVec 16) : WfSome (onMctpReadCounters ctx s) := by simp [onMctpReadCounters, hs]

@[simp] theorem wf_onMctpSignedSnapshot (ctx : BitVec 16) (nonce : BitVec 256) : WfSome (onMctpSignedSnapshot ctx nonce s) := by
  simp [onMctpSignedSnapshot, hs]

@[simp] theorem wf_onMctpSelfTestReport : WfSome (onMctpSelfTestReport s) := hs

@[simp] theorem wf_onSpdmGetCertificate : WfSome (onSpdmGetCertificate s) := hs

@[simp] theorem wf_onSpdmChallenge (nonce : BitVec 256) : WfSome (onSpdmChallenge nonce s) := hs

@[simp] theorem wf_onSpdmGetMeasurements (nonce : BitVec 256) : WfSome (onSpdmGetMeasurements nonce s) := hs

@[simp] theorem wf_saveLine (bid : Nat) (l : StashLine) : Memory.wf (saveLine bid s l).mem = true := by
  unfold saveLine
  split <;> simp [hs, wf_sendLine, apply_ite State.mem, apply_ite Memory.wf]

@[simp] theorem wf_saveLines (b : Block) : Memory.wf (saveLines s b).mem = true := by
  unfold saveLines
  exact wf_foldl _ (fun t x ht => by simp [ht]) _ hs

@[simp] theorem wf_saveL2 : Memory.wf (saveL2 s).mem = true := by
  unfold saveL2
  exact wf_foldl _ (fun t x ht => by simp [ht, wf_sectorBehind]) _ hs

@[simp] theorem wf_stopAll : Memory.wf (stopAll s).mem = true := by
  unfold stopAll
  have h1 := wf_foldl _ (fun _ (b : Block) ht => wf_finishBlock ht b.bid) (s.blocks.filter fun b => b.state == .resident) hs
  have h2 := fun l => wf_foldl saveLines (fun _ b ht => wf_saveLines ht b) l h1
  have h3 := fun l k => wf_foldl _ (fun _ (b : Block) ht => wf_suspendBlock ht b.bid) k (h2 l)
  exact wf_saveL2 (h3 _ _)

@[simp] theorem wf_warmReset (cause : Nat) (o : TestOutcome) : Memory.wf (warmReset s cause o).mem = true := by
  simp [warmReset, hs, selfTest_mem]

@[simp] theorem wf_onColdReset (o : TestOutcome) : WfSome (onColdReset o s) := by simp [onColdReset, wf_coldReset, hs]

@[simp] theorem wf_onWarmResetFlr (o : TestOutcome) : WfSome (onWarmResetFlr o s) := by simp [onWarmResetFlr, hs]

@[simp] theorem wf_onWarmResetSecondaryBus (o : TestOutcome) : WfSome (onWarmResetSecondaryBus o s) := by
  simp [onWarmResetSecondaryBus, hs]

@[simp] theorem wf_onWarmResetMp (o : TestOutcome) : WfSome (onWarmResetMp o s) := by simp [onWarmResetMp, hs]

/-! ### Machine/Internal -/

@[simp] theorem wf_passMove (p : PassOp) : WfSome (passMove p s) := by
  unfold passMove
  split <;> simp [hs]

theorem wf_onSome (there : Bool) {f : State → State} (hf : ∀ s, Memory.wf s.mem = true → Memory.wf (f s).mem = true) :
    WfSome (onSome there f s) := wf_due.2 fun _ => hf _ hs

@[simp] theorem wf_pressing : WfSome (pressing s) := by
  unfold pressing
  (repeat' split) <;> simp [hs]

end

end Sys2Proof.Proofs
end

section
/-! O60: every step keeps memory in its canonical form. -/

namespace Sys2Proof.Proofs

open Sys2Proof Sys2Proof.Machine Sys2Proof.Safety Sys2Proof.Laws

theorem wf_exec {s : State} (hs : Memory.wf s.mem = true) (i : Instr) : WfNext (exec i s) := by
  cases i with
  | nop g | bra j | brany j | brall j | call j | ret g | exit g | yield g | iadd g | isub g | imul g | imulh g
  | imad g | imin g | imax g | iabsd g | and g | or g | xor g | andn g | shl g | shr g | sar g | rotl g | bfe g
  | bfi g | popc g | clz g | ctz g | brev g | prmt g | lea g | iset g | sel g | mov g | movsr m | movi m | cvti g
  | plop p | shfl g | vote g | matchLanes g | redux g | scan g | rank g | bcast g | fadd g | fsub g | fmul g | ffma g
  | fmin g | fmax g | fset g | fdiv g | frcp g | fsqrt g | frsq g | fex2 g | flg2 g | frnd g | fscale g | fclass g
  | cvt g | tf8pk g | tf8up g | requant g | rng g | fstatRead g | fstatClear g | fstatSet g | ld m | ldc m
  | bxferLoad g | bxferStore g | append g | decline g | gred g | gscan g | mbmark g | tlbinvAll g | biasflipDev g
  | biasflipHost g | trap g | trapDbg g | movC16 c | iaddC16 c | isubC16 c | imulC16 c | andC16 c | orC16 c
  | xorC16 c | shlC16 c | shrC16 c | sarC16 c | faddC16 c | fsubC16 c | fmulC16 c | fmaxC16 c | fminC16 c | nopC16
  | yieldC16 | retC16 | exitC16 | movA32 a | iaddA32 a | isubA32 a | imulA32 a | imadA32 a | iminA32 a | imaxA32 a
  | andA32 a | orA32 a | xorA32 a | andnA32 a | shlA32 a | shrA32 a | sarA32 a | popcA32 a | clzA32 a | faddF32A32 a
  | fsubF32A32 a | fmulF32A32 a | ffmaF32A32 a | fminF32A32 a | fmaxF32A32 a | faddF16x2A32 a | fmulF16x2A32 a
  | ffmaF16x2A32 a | faddBf16x2A32 a | fmulBf16x2A32 a | ffmaBf16x2A32 a | shflXorA32 a | ldsA32 a | braA32 off
  | callA32 off =>
    exact wf_issue hs fun e => by simp [hs]
  | sunmap g | sflush g | srr g | retfRetry g | retfNext g | ctrread g =>
    refine wf_issue hs fun e => ?_
    (repeat' split) <;> simp [hs]
  | brc c => exact wf_execBrc hs c
  | brv v => exact wf_execBrv hs v
  | jmp j => exact wf_execJmp hs j
  | regang g => exact wf_execRegang hs g
  | hold g => exact wf_execHold hs g
  | waitcnt g => exact wf_execWaitcnt hs g
  | waittag g => exact wf_execWaittag hs g
  | psplit g => exact wf_execPsplit hs g
  | pfuse g => exact wf_execPfuse hs g
  | st m => exact wf_execSt hs m
  | lds m => exact wf_execLds hs m
  | sts m => exact wf_execSts hs m
  | atom m => exact wf_execAtom hs m
  | red m => exact wf_execRed hs m
  | cpl m => exact wf_execCpl hs m
  | pref m => exact wf_execPref hs m
  | discard m => exact wf_execDiscard hs m
  | fence g => exact wf_execFence hs g
  | smap g => exact wf_execSmap hs g
  | bxferRed g => exact wf_execBxferRed hs g
  | waitc m => exact wf_execWaitc hs m
  | barinit g => exact wf_execBarinit hs g
  | bararr g => exact wf_execBararr hs g
  | bararrJoin g => exact wf_execBararrJoin hs g
  | bararrDrop g => exact wf_execBararrDrop hs g
  | barwait g => exact wf_execBarwait hs g
  | barexp g => exact wf_execBarexp hs g
  | bartry g => exact wf_execBartry hs g
  | qcfg g => exact wf_execQcfg hs g
  | tdset x => exact wf_execTdset hs x
  | tdget x => exact wf_execTdget hs x
  | mldb x => exact wf_execMldb hs x
  | mbrel x => exact wf_execMbrel hs x
  | mldmeta x => exact wf_execMldmeta hs x
  | mzero x => exact wf_execMzero hs x
  | mma x => exact wf_execMma hs x
  | mmaRing x => exact wf_execMmaRing hs x
  | mmasp x => exact wf_execMmasp hs x
  | mst x => exact wf_execMst hs x
  | mstAdd x => exact wf_execMstAdd hs x
  | mrda x => exact wf_execMrda hs x
  | mwra x => exact wf_execMwra hs x
  | ringinit x => exact wf_execRinginit hs x
  | ringput x => exact wf_execRingput hs x
  | ringtake x => exact wf_execRingtake hs x
  | ringdone x => exact wf_execRingdone hs x
  | mstat g => exact wf_execMstat hs g
  | gpat g => exact wf_execGpat hs g
  | gst g => exact wf_execGst hs g
  | gld g => exact wf_execGld hs g
  | gatom g => exact wf_execGatom hs g
  | gcopy g => exact wf_execGcopy hs g
  | gfence g => exact wf_execGfence hs g
  | gwait g => exact wf_execGwait hs g
  | gatecfg g => exact wf_execGatecfg hs g
  | gdispatch g => exact wf_execGdispatch hs g
  | ertopDefine g => exact wf_execErtopDefine hs g
  | ertopFetch g => exact wf_execErtopFetch hs g
  | ertopEvict g => exact wf_execErtopEvict hs g
  | ertopPin g => exact wf_execErtopPin hs g
  | ertopUnpin g => exact wf_execErtopUnpin hs g
  | ertopRead g => exact wf_execErtopRead hs g
  | taskdef g => exact wf_execTaskdef hs g
  | taskdepSet g => exact wf_execTaskdepSet hs g
  | taskdepAdd g => exact wf_execTaskdepAdd hs g
  | taskdepSub g => exact wf_execTaskdepSub hs g
  | kstat g => exact wf_execKstat hs g
  | npost g => exact wf_execNpost hs g
  | nrecv g => exact wf_execNrecv hs g
  | npoll g => exact wf_execNpoll hs g
  | larm g => exact wf_execLarm hs g
  | launch g => exact wf_execLaunch hs g
  | srw g => exact wf_execSrw hs g
  | tlbinvPage g => exact wf_execTlbinvPage hs g
  | tlbinvContext g => exact wf_execTlbinvContext hs g
  | migrateLocal g => exact wf_execMigrateLocal hs g
  | migrateRemote g => exact wf_execMigrateRemote hs g
  | capset g => exact wf_execCapset hs g
  | mappg g => exact wf_execMappg hs g
  | retfEsc g => exact wf_execRetfEsc hs g
  | hostQueueDoorbell q p | hqerrClear mask | hostSysregWrite n x | hostRegisterWrite off x | launchAccept
  | blockPlacement | blockStart core | stealAttempt core | blockEnd blk | pendingSpawn | runEnd core sched
  | fragmentWake f | budgetPeriodEnd unit act rcb | preempt blk | contextSwitch rcb | blockResume blk core
  | detRoundComplete launch | detSyncTurn launch | appendClaimGrant f | stashSegmentWake core seg
  | stashFillComplete blk line | homeSliceAccess r | stashWriteback blk line err | l2WayGate stack way
  | l2WayEnable stack way | pageWalkComplete ctx va | hostMemoryAccess r | migrationResend ctx va r
  | conditionMonitorWake f | monitorPoll f | streamerBytesComplete op n | laneCopyLand op | matrixPassComplete op
  | checksumReplay op good | matrixDrainComplete op | gstLineReceive m | gldRequestReceive m | gldReplyReceive m
  | gredContributionReceive c | gatomRequestReceive m busy | gatomReplyReceive m | gscanContributionReceive m
  | gscanReplyReceive m | gcopyLineReceive m | gcopyHeldDelivery | acknowledgementReceive m
  | releaseMarkerReceive src mark | refusalReceive m | idleFlitReceive link vc crd | reservedVcFlit link
  | linkReplayRequest link fseq | linkDown link | linkFailoverNotice link fseq | auditFlitSend link
  | creditAuditReceive link vc slots | planeLossReport plane | unreachableMark link | tokenRowReceive r
  | rowRefusalReceive r | gdispatchComplete op | mbmarkCommit slot | closeMarkerSend slot
  | closeMarkerReceive slot batch src last dests | loadMulticastReceive slot batch loads | fillCounterReset slot bank
  | orderedRoundClose slot | pagerFetchComplete idx | fetchAttemptFail idx | evictUnmapComplete idx
  | tileSpawn slot bank expert tile | npostStart op | neSegmentReceive g | neAckReceive a | neNotReadyReceive op
  | neRetransmitTimeout op part | neReceiveTimeout op | neAbortReceive id msg | shadowFlushTimer unit
  | energyInterval island nj | scrub sector r | islandSet island mv mhz | mctpStatus | mctpIslandTelemetry
  | mctpReadCounters ctx | mctpSignedSnapshot ctx nonce | mctpSelfTestReport | spdmGetCertificate
  | spdmChallenge nonce | spdmGetMeasurements nonce | coldReset o | warmResetFlr o | warmResetSecondaryBus o
  | warmResetMp o | hostLinkDown | cxlCacheSnoop line inval | flitCrcFailure link | linkFlitAcknowledge link fseq
  | rowAcceptanceReceive r =>
    exact wf_occur hs (by simp [hs])

/-! ### The step -/

theorem wf_forall_flatMap {α : Type} {s : State} {l : List α} {f : α → List Move} (h : ∀ x, ∀ m ∈ f x, WfSome (m s)) :
    ∀ m ∈ l.flatMap f, WfSome (m s) := by
  intro m hm
  obtain ⟨x, -, hx⟩ := List.mem_flatMap.1 hm
  exact h x m hx

theorem wf_forall_map {α : Type} {s : State} {l : List α} {f : α → Move} (h : ∀ x, WfSome (f x s)) :
    ∀ m ∈ l.map f, WfSome (m s) :=
  List.forall_mem_map.2 fun x _ => h x

theorem wf_dueBlocks {s : State} (hs : Memory.wf s.mem = true) : ∀ m ∈ dueBlocks s, WfSome (m s) := by
  unfold dueBlocks
  simp only [List.forall_mem_append]
  refine ⟨⟨by simp [hs], wf_forall_map fun e => by simp [hs]⟩, wf_forall_flatMap fun b => ?_⟩
  (repeat' split) <;> simp [hs]

theorem wf_dueFrags {s : State} (hs : Memory.wf s.mem = true) : ∀ m ∈ dueFrags s, WfSome (m s) := by
  unfold dueFrags
  simp only [List.forall_mem_append]
  exact ⟨wf_forall_flatMap fun r => by simp [hs], wf_forall_flatMap fun l => by simp [hs]⟩

theorem wf_dueUnits {s : State} (hs : Memory.wf s.mem = true) : ∀ m ∈ dueUnits s, WfSome (m s) := by
  unfold dueUnits
  simp only [List.forall_mem_append]
  exact ⟨wf_forall_flatMap fun c => wf_forall_map fun g => by simp [hs], wf_forall_map fun u => by simp [hs]⟩

theorem wf_dueEngines {s : State} (hs : Memory.wf s.mem = true) : ∀ m ∈ dueEngines s, WfSome (m s) := by
  unfold dueEngines
  simp only [List.forall_mem_append]
  refine ⟨⟨wf_forall_map fun o => ?_, wf_forall_flatMap fun b => wf_forall_map fun p => by simp [hs]⟩,
    wf_forall_map fun w => by simp [hs]⟩
  cases o.work <;> simp [hs]

theorem wf_dueGate {s : State} (hs : Memory.wf s.mem = true) (k : Nat) (g : GateSlot) : ∀ m ∈ dueGate s k g, WfSome (m s) := by
  unfold dueGate
  simp only [List.forall_mem_append]
  exact ⟨by simp [hs], wf_forall_flatMap fun b => wf_forall_map fun x => by simp [hs]⟩

theorem wf_dueOthers {s : State} (hs : Memory.wf s.mem = true) : ∀ m ∈ dueOthers s, WfSome (m s) := by
  unfold dueOthers
  simp only [List.forall_mem_append]
  refine ⟨⟨⟨⟨⟨⟨wf_forall_flatMap fun e => wf_dueGate hs _ _, wf_forall_map fun d => by simp [hs]⟩, wf_forall_map fun f => ?_⟩,
    wf_forall_map fun i => by simp [hs]⟩, wf_forall_map fun q => by simp [hs]⟩, ?_⟩, ?_⟩
  all_goals split <;> simp [hs]

theorem wf_dueMoves {s : State} (hs : Memory.wf s.mem = true) : ∀ m ∈ dueMoves s, WfSome (m s) := by
  have hl : ∀ m ∈ dueBlocks s ++ dueFrags s ++ dueUnits s ++ dueEngines s ++ dueOthers s, WfSome (m s) := by
    simp only [List.forall_mem_append]
    exact ⟨⟨⟨⟨wf_dueBlocks hs, wf_dueFrags hs⟩, wf_dueUnits hs⟩, wf_dueEngines hs⟩, wf_dueOthers hs⟩
  unfold dueMoves
  simp only [List.forall_mem_append]
  exact ⟨fun m hm => hl m (List.mem_of_mem_drop hm), fun m hm => hl m (List.mem_of_mem_take hm)⟩

theorem wf_gridMoves {s : State} (hs : Memory.wf s.mem = true) : ∀ m ∈ gridMoves s, WfSome (m s) := by
  simp [gridMoves, onSome, hs]

theorem wf_internalStep {s : State} (hs : Memory.wf s.mem = true) : WfSome (internalStep s) := by
  unfold internalStep
  split
  · exact wf_firstMove (List.forall_mem_append.2 ⟨wf_gridMoves hs, wf_dueMoves hs⟩)
  · exact wf_firstMove (List.forall_mem_append.2 ⟨wf_dueMoves hs, wf_gridMoves hs⟩)

theorem wf_issueFrom {s : State} (hs : Memory.wf s.mem = true) (e : Issuer) : WfNext (issueFrom s e) := by
  unfold issueFrom
  dsimp only
  split
  · simp [hs]
  · exact wf_exec (by simp [hs]) _

theorem wf_issueWith {s : State} (hs : Memory.wf s.mem = true) (e : Issuer) : WfNext (issueWith s e) := by
  unfold issueWith
  dsimp only
  split
  · simp [hs]
  · exact wf_exec (by simp [hs]) _

theorem wf_fragmentFirst {s : State} (hs : Memory.wf s.mem = true) : WfNext (fragmentFirst s) := by
  unfold fragmentFirst
  split
  · exact wf_issueFrom hs _
  · have := wf_internalStep hs
    cases hi : internalStep s with
    | none => simpa using hs
    | some t => rwa [hi] at this

theorem wf_eventFirst {s : State} (hs : Memory.wf s.mem = true) : WfNext (eventFirst s) := by
  unfold eventFirst
  split
  · rename_i t ht
    have := wf_internalStep hs
    rw [ht] at this
    exact wfSome_some.1 this
  · exact wf_fragmentFirst hs

theorem wf_turn {s : State} (hs : Memory.wf s.mem = true) : WfNext (turn s) := by
  unfold turn
  dsimp only
  split
  · rename_i i rest _
    exact wf_exec (s := { s with tick := s.tick + 1, agenda := rest }) hs i
  · split
    · exact wf_fragmentFirst (s := { s with tick := s.tick + 1 }) hs
    · exact wf_eventFirst (s := { s with tick := s.tick + 1 }) hs

theorem wf_step {s : State} (hs : Memory.wf s.mem = true) : WfNext (step s) := by
  unfold step
  dsimp only
  have hp := wf_pressing (s := { s with cur := none }) hs
  have hc := coTurn_mem { s with cur := none }
  split
  · rename_i u hu
    rw [hu] at hp
    exact wfSome_some.1 hp
  · split
    · rename_i u e hu
      rw [hu] at hc
      exact wf_issueWith (hc.symm ▸ hs) e
    · rename_i u hu
      rw [hu] at hc
      exact wf_turn (hc.symm ▸ hs)

/-- Settles O60: whatever the step does, it writes memory through operations that keep the form (`wf_exec` for the instructions and
the events, `wf_internalStep` for what the device does by itself, `wf_pressing` for what comes from outside). -/
theorem stepKeepsMemoryCanonical : Obligations.StepKeepsMemoryCanonical := by
  unfold Obligations.StepKeepsMemoryCanonical
  intro s t hs ht
  have := wf_step hs
  rw [ht] at this
  exact wfNext_next.1 this

end Sys2Proof.Proofs
end

section
/-! O53: what the memory system and the engines come to. -/

namespace Sys2Proof.Proofs

open Sys2Proof Sys2Proof.Machine Sys2Proof.Safety Sys2Proof.Laws

variable {s : State}

/-! ### Segments, lines and ways -/

theorem exec_stashSegmentWake {core : BitVec 8} {seg : BitVec 4} (ht : (touched s core.toNat).getLsbD seg.toNat = true)
    (ha : (coreOf s core.toNat).awake.getLsbD seg.toNat = false) :
    exec (.stashSegmentWake core seg) s = .next (putCore s core.toNat
      { coreOf s core.toNat with awake := (coreOf s core.toNat).awake ||| BitVec.ofNat 16 (2 ^ seg.toNat) }) :=
  occur_due (by rw [ht, ha]; rfl)

theorem exec_stashFillComplete {n line pa : Nat} {b : Block} (hb : getBlock s n = some b)
    (hf : fillNeed s (blockCtx s b).1 true b line = .ok (some pa)) (hr : b.state = .resident) :
    exec (.stashFillComplete n line) s = .next (doFill s n line pa) := by
  show occur s (onStashFillComplete n line s) = _
  unfold onStashFillComplete
  simp only [hb, hf]
  exact occur_due (by rw [hr]; rfl)

/-- A dirty line whose access nothing holds is written back, or lost with its home. -/
theorem exec_stashWriteback {n line : Nat} {b : Block} {l : StashLine} {err : Bool} (hb : getBlock s n = some b)
    (hl : lineAt b line = some l) (hd : l.dirty ≠ 0) (hh : heldAmong s (blockCtx s b).2 [l.pa] = none)
    (he : err = true → cxlHome l.pa = true) :
    exec (.stashWriteback n line err) s =
      .next (if err || cutOff s l.pa then loseLine s b l else earlyBack s b l) := by
  show occur s (onStashWriteback n line err s) = _
  unfold onStashWriteback
  simp only [hb, hl]
  rw [if_neg]
  · exact occur_admitted hh
  · rintro (h | h)
    · exact hd h
    · simp only [Bool.and_eq_true, Bool.not_eq_true'] at h
      rw [he h.1] at h
      exact absurd h.2 (by simp)

theorem exec_l2WayGate {stack : BitVec 2} {way : Nat} (h : (stack.toNat, way) ∉ s.gated) :
    exec (.l2WayGate stack way) s =
      .next { l2Drop s (inWay (stack.toNat, way)) with gated := (stack.toNat, way) :: s.gated } :=
  occur_due (by simpa using h)

theorem exec_l2WayEnable {stack : BitVec 2} {way : Nat} (h : (stack.toNat, way) ∈ s.gated) :
    exec (.l2WayEnable stack way) s = .next { s with gated := s.gated.filter fun x => x != (stack.toNat, way) } :=
  occur_due (by simpa using h)

/-! ### Page walks -/

/-- Only what charging an access records differs. -/
def ChargesOnly (s t : State) : Prop :=
  ∃ l2 budget shadows activity free,
    t = { s with l2 := l2, budget := budget, shadows := shadows, activity := activity, free := free }

theorem chargesOnly_foldl {α : Type} {g : State → α → State} (hg : ∀ s x, ChargesOnly s (g s x)) (l : List α) (s : State) :
    ChargesOnly s (l.foldl g s) := by
  induction l generalizing s with
  | nil => exact ⟨_, _, _, _, _, rfl⟩
  | cons x l ih =>
    obtain ⟨l2, budget, shadows, activity, free, h⟩ := hg s x
    rw [List.foldl_cons, h]
    exact ih _

theorem chargesOnly_chargeWalk (s : State) (w : Walk) : ChargesOnly s (chargeWalk s w) := by
  unfold chargeWalk
  split
  · exact ⟨_, _, _, _, _, rfl⟩
  · exact chargesOnly_foldl (fun _ _ => ⟨_, _, _, _, _, rfl⟩) _ s

theorem mem_putTlb {x e : TlbEntry} : x ∈ (putTlb s e).tlb ↔ x = e ∨ x ∈ s.tlb := by
  by_cases h : x = e <;> simp [putTlb, h]

/-- Entries put one after another: each is there, and so is what was. -/
theorem mem_foldl_putTlb {α : Type} (f : α → TlbEntry) (l : List α) (s : State) (x : TlbEntry) :
    x ∈ (l.foldl (fun s c => putTlb s (f c)) s).tlb ↔ x ∈ s.tlb ∨ ∃ c ∈ l, x = f c := by
  induction l generalizing s with
  | nil => simp
  | cons c l ih => simp [ih, mem_putTlb, or_assoc, or_left_comm]

theorem foldl_putTlb {α : Type} (f : α → TlbEntry) (l : List α) (s : State) :
    l.foldl (fun s c => putTlb s (f c)) s = { s with tlb := (l.foldl (fun s c => putTlb s (f c)) s).tlb } := by
  induction l generalizing s with
  | nil => rfl
  | cons c l ih => exact ih (putTlb s (f c))

/-- The translation that a walk of `w` to the page `p` leaves. -/
def leafEntry (w : Walk) (p : Page) (place : TlbPlace) : TlbEntry :=
  { place := place, ctx := w.ctx, va := p.va, k := p.k, leaf := BitVec.ofNat 64 (pageLeaf p) }

theorem walkFound_eq (s : State) (w : Walk) (p : Page) :
    walkFound s w p = { s with tlb := (walkFound s w p).tlb, walks := s.walks.filter fun x => !sameWalk w x p } := by
  unfold walkFound
  dsimp only
  rw [foldl_putTlb]
  rfl

theorem mem_walkFound (s : State) (w : Walk) (p : Page) (x : TlbEntry) : x ∈ (walkFound s w p).tlb ↔
    x = leafEntry w p (.die w.die) ∨ x ∈ s.tlb ∨ ∃ y ∈ s.walks, sameWalk w y p = true ∧ ∃ c ∈ y.cores, x = leafEntry w p (.core c) := by
  unfold walkFound
  dsimp only
  rw [mem_foldl_putTlb, mem_putTlb, or_assoc]
  simp only [List.mem_flatMap, List.mem_filter, leafEntry]
  aesop

/-- A walk that finds no leaf to keep leaves the TLBs as they are. -/
theorem walkEnds_lost {w : Walk} (h : ∀ p, walk s w.ctx (4096 * w.granule) = .ok p → unheld s w.ctx p = true) :
    walkEnds s w = chargeWalk { s with walks := s.walks.filter fun x => x != w } w := by
  unfold walkEnds
  dsimp only
  split
  · rw [if_pos (h _ ‹_›)]
  · rfl

theorem walkEnds_found {w : Walk} {p : Page} (h : walk s w.ctx (4096 * w.granule) = .ok p) (hu : unheld s w.ctx p = false) :
    walkEnds s w = walkFound { chargeWalk { s with walks := s.walks.filter fun x => x != w } w with walks := s.walks } w p := by
  unfold walkEnds
  simp only [h, hu]
  rfl

/-- The frame of a walk that ends. -/
theorem walkEnds_frame (s : State) (w : Walk) : walkEnds s w =
    { s with tlb := (walkEnds s w).tlb, walks := (walkEnds s w).walks, l2 := (walkEnds s w).l2, budget := (walkEnds s w).budget,
             shadows := (walkEnds s w).shadows, activity := (walkEnds s w).activity, free := (walkEnds s w).free } := by
  obtain ⟨l2, budget, shadows, activity, free, h⟩ :=
    chargesOnly_chargeWalk { s with walks := s.walks.filter fun x => x != w } w
  by_cases hl : ∀ p, walk s w.ctx (4096 * w.granule) = .ok p → unheld s w.ctx p = true
  · rw [walkEnds_lost hl, h]
  · push Not at hl
    obtain ⟨p, hp, hu⟩ := hl
    rw [walkEnds_found hp (by simpa using hu), walkFound_eq, h]

theorem walkEnds_lost_spec {w : Walk} (h : ∀ p, walk s w.ctx (4096 * w.granule) = .ok p → unheld s w.ctx p = true) :
    (walkEnds s w).tlb = s.tlb ∧ w ∉ (walkEnds s w).walks := by
  obtain ⟨l2, budget, shadows, activity, free, hc⟩ :=
    chargesOnly_chargeWalk { s with walks := s.walks.filter fun x => x != w } w
  rw [walkEnds_lost h, hc]
  simp

theorem walkEnds_found_spec {w : Walk} {p : Page} (h : walk s w.ctx (4096 * w.granule) = .ok p) (hu : unheld s w.ctx p = false) :
    leafEntry w p (.die w.die) ∈ (walkEnds s w).tlb ∧ (∀ x ∈ s.tlb, x ∈ (walkEnds s w).tlb) ∧
      ∀ x, sameWalk w x p = true → x ∉ (walkEnds s w).walks ∧
        (x ∈ s.walks → ∀ c ∈ x.cores, leafEntry w p (.core c) ∈ (walkEnds s w).tlb) := by
  obtain ⟨l2, budget, shadows, activity, free, hc⟩ :=
    chargesOnly_chargeWalk { s with walks := s.walks.filter fun x => x != w } w
  rw [walkEnds_found h hu, hc]
  refine ⟨(mem_walkFound _ _ _ _).2 (.inl rfl), fun x hx => (mem_walkFound _ _ _ _).2 (.inr (.inl hx)), fun x hx => ⟨?_, ?_⟩⟩
  · rw [walkFound_eq]
    simp [hx]
  · exact fun hm c hcx => (mem_walkFound _ _ _ _).2 (.inr (.inr ⟨x, hm, hx, c, hcx, rfl⟩))

theorem exec_pageWalkComplete {ctx : BitVec 16} {va : DWord} {w : Walk}
    (hw : (s.walks.find? fun w => w.ctx == ctx.toNat && w.granule == va.toNat / 4096) = some w) :
    exec (.pageWalkComplete ctx va) s = .next (walkEnds s w) := by
  show occur s (onPageWalkComplete ctx va s) = _
  unfold onPageWalkComplete
  rw [hw]
  rfl

/-! ### The engines -/

theorem engineGoes_of {o : EngineOp} {pas : List Nat} {fills : List (Nat × Nat)} {t : State}
    (h : ∀ b, getBlock s o.blk = some b →
      heldAmong s (blockCtx s b).2 (pas ++ fillPas s (blockCtx s b).1 true b fills) = none) :
    occur s (engineGoes s o pas fills t) = .next t := by
  unfold engineGoes
  split
  · rfl
  · exact occur_admitted (h _ ‹_›)

theorem exec_streamerBytesComplete {o : EngineOp} {n : Nat} {kind : XferKind} {pages : List (Nat × Nat)} {va off len moved : Nat}
    {bar : Option (Nat × Bool)} (ho : getEngine s o.id = some o) (hw : o.work = .xfer kind pages va off len moved bar)
    (h1 : 1 ≤ n) (hn : moved + n ≤ len) (hk : ∀ x w, kind = .red x w → n % w = 0)
    (hg : ∀ b, getBlock s o.blk = some b → heldAmong s (blockCtx s b).2
      (((unitParts (va + moved) n).map fun x => pagesPa pages x.1) ++ fillPas s (blockCtx s b).1 true b [(off + moved, n)]) = none) :
    exec (.streamerBytesComplete o.id n) s = .next (xferMove s o kind pages va off len moved bar n) := by
  show occur s (onStreamerBytesComplete o.id n s) = _
  unfold onStreamerBytesComplete
  simp only [ho, hw]
  rw [if_pos]
  · exact engineGoes_of hg
  · cases kind with
    | load => simp [h1, hn]
    | store => simp [h1, hn]
    | red x w => simp [h1, hn, hk x w rfl]

theorem exec_laneCopyLand {o : EngineOp} {size : Nat} {lanes : List CopyLane} (ho : getEngine s o.id = some o)
    (hw : o.work = .copy size lanes)
    (hg : ∀ b, getBlock s o.blk = some b → heldAmong s (blockCtx s b).2
      (lanes.map (·.pa) ++ fillPas s (blockCtx s b).1 true b (lanes.map fun l => (l.dst, size))) = none) :
    exec (.laneCopyLand o.id) s = .next (copyLand s o size lanes) := by
  show occur s (onLaneCopyLand o.id s) = _
  unfold onLaneCopyLand
  simp only [ho, hw]
  exact engineGoes_of hg

theorem exec_matrixDrainComplete {o : EngineOp} {add : Bool} {elems : List DrainElem} (ho : getEngine s o.id = some o)
    (hw : o.work = .drain add elems)
    (hg : ∀ b, getBlock s o.blk = some b → heldAmong s (blockCtx s b).2
      (((elems.filter fun d => !d.stash).map (·.addr)) ++
        fillPas s (blockCtx s b).1 true b ((elems.filter fun d => d.stash).map fun d => (d.addr, d.size))) = none) :
    exec (.matrixDrainComplete o.id) s = .next (drainFinish s o add elems) := by
  show occur s (onMatrixDrainComplete o.id s) = _
  unfold onMatrixDrainComplete
  simp only [ho, hw]
  exact engineGoes_of hg

/-! ### Matrix passes -/

theorem exec_matrixPassComplete_ok {n : Nat} {b : Block} {p : PassOp} (h : passAt s n = some (b, p)) (he : passErrs b p = [])
    (hr : p.replays = 0) (hc : passCheck p = true) : exec (.matrixPassComplete n) s = .next (setBlock s (applyPass b p)) := by
  show occur s (onMatrixPassComplete n s) = _
  unfold onMatrixPassComplete
  simp only [h, he]
  exact occur_due (by simp [hr, hc])

theorem exec_matrixPassComplete_errs {n : Nat} {b : Block} {p : PassOp} (h : passAt s n = some (b, p)) (he : passErrs b p ≠ []) :
    exec (.matrixPassComplete n) s = .next (takeDooms (losePassAt s b p (passErrs b p))) := by
  show occur s (onMatrixPassComplete n s) = _
  unfold onMatrixPassComplete
  simp only [h]
  rw [if_pos (by simpa using he)]
  rfl

theorem exec_checksumReplay {n : Nat} {b : Block} {p : PassOp} {good : Bool} (h : passAt s n = some (b, p))
    (hc : good = true → passCheck p = true) : exec (.checksumReplay n good) s = .next (replayPass s b p good) := by
  show occur s (onChecksumReplay n good s) = _
  unfold onChecksumReplay
  simp only [h]
  exact occur_due (by cases good <;> simp_all)

/-! ### Scrubbing, and requests at a home slice -/

theorem exec_scrub {sector : Nat} {r : ScrubResult} (hl : inLehr s = false) (hd : deviceMemory (32 * sector) = true) :
    exec (.scrub sector r) s = .next (scrubSector s sector r) :=
  occur_due (by rw [hl, hd]; rfl)

theorem mem_insNat {l : List Nat} {n k : Nat} : k ∈ insNat l n ↔ k ∈ l ∨ k = n := by
  induction l with
  | nil => simp [insNat]
  | cons m l ih =>
    unfold insNat
    split
    · simp [or_comm]
    · split
      · next h => simp [h]; tauto
      · simp [ih, or_assoc]

theorem memoryError_frame (s : State) (sector : Nat) :
    memoryError s sector = { s with poison := (memoryError s sector).poison, l2 := (memoryError s sector).l2 } := by
  unfold memoryError
  dsimp only
  split
  · split <;> rfl
  · rfl

/-- A sector that no cache line holds dirty is poisoned in memory. -/
theorem memoryError_clean {sector : Nat} (h : ∀ l, spFind? s.l2 (sector / 4) = some l → l.dirty.getLsbD (sector % 4) = false) :
    memoryError s sector = poisonSector s (32 * sector) := by
  unfold memoryError
  dsimp only
  split
  · next l hl =>
    have hb := h l hl
    have hm : sector % 4 < 4 := Nat.mod_lt _ (by omega)
    rw [if_pos]
    generalize sector % 4 = j at hb hm
    apply BitVec.eq_of_getLsbD_eq
    intro i hi
    interval_cases j <;> interval_cases i <;> simp_all
  · rfl

theorem exec_homeSliceAccess {r : HomeReq} (h : homeOk r = true) : exec (.homeSliceAccess r) s = .next (homeServe s r) :=
  occur_due h

theorem homeServe_load_frame {r : HomeReq} (hk : r.kind = .load) (hp : gPoisoned s r.pa r.width = false) :
    homeServe s r = { (homeTouch s r.pa r.width).1 with replies := s.replies ++ [(r.pa, some (gReadNat s r.pa r.width))] } := by
  have hp' : gPoisoned (homeTouch s r.pa r.width).1 r.pa r.width = false := hp
  unfold homeServe homePerform
  simp only [hk]
  rw [hp', gReadNat_charged (charged_homeTouch s _ _)]
  rfl

/-- A line found at a place is the line of that place. -/
theorem line_of_lineAt {b : Block} {line : Nat} {l : StashLine} (h : lineAt b line = some l) : l.line = line := by
  simpa using List.find?_some h

/-- A line that is lost drops from its place, and its context's supervisor learns of it. -/
theorem loseLine_at {b : Block} {line : Nat} {l : StashLine} (h : lineAt b line = some l) :
    loseLine s b l = postEvent (setBlock s (dropLine b line)) (blockCtx s b).2
      (eventRecord 3 0x0E (blockCtx s b).1 0 0 0 0 (lineVa b line)) := by
  rw [loseLine, line_of_lineAt h]

theorem mem_l2Drop {p : Nat → L2Line → Bool} {x : Nat × L2Line} : x ∈ (l2Drop s p).l2 ↔ x ∈ s.l2 ∧ p x.1 x.2 = false := by
  simp [l2Drop]

theorem noteUncorrected_memoryError_frame (s : State) (sector : Nat) : noteUncorrected (memoryError s sector) =
    { s with hi := { s.hi with mbue := bumpAll s.hi.mbue }, poison := (memoryError s sector).poison,
             l2 := (memoryError s sector).l2 } := by
  rw [memoryError_frame]
  rfl

theorem mem_poisonSector {sector k : Nat} : k ∈ (poisonSector s (32 * sector)).poison ↔ k ∈ s.poison ∨ k = sector := by
  rw [poisonSector, mem_insNat, Nat.mul_div_cancel_left _ (by omega)]

/-- Settles O53: each event has the effect its function of the model gives, where its conditions hold; the TLBs after a walk, the L2
after a way gates and the poison after a scrub are read off the lemmas on those functions. -/
theorem eventsOfTheUnits : Obligations.EventsOfTheUnits := by
  unfold Obligations.EventsOfTheUnits
  intro s
  refine ⟨fun core seg ht ha => exec_stashSegmentWake ht ha,
    fun n b line hb => ⟨fun pa hf hr => exec_stashFillComplete hb hf hr, fun l hl hd hh => ?_⟩,
    fun stack way => ⟨fun h => ⟨_, exec_l2WayGate h, rfl, fun x => mem_l2Drop⟩, fun h => ⟨_, exec_l2WayEnable h, rfl, by simp⟩⟩,
    fun ctx va w hw => ⟨_, exec_pageWalkComplete hw, walkEnds_frame s w, fun x hx => ?_, fun p hp => ?_⟩,
    fun o ho => ⟨fun kind pages va off len moved bar n hw h1 hn hk hg => exec_streamerBytesComplete ho hw h1 hn hk hg,
      fun size lanes hw hg => exec_laneCopyLand ho hw hg, fun add elems hw hg => exec_matrixDrainComplete ho hw hg⟩,
    fun n b p h => ⟨exec_matrixPassComplete_ok h, exec_matrixPassComplete_errs h, fun hc => exec_checksumReplay h fun _ => hc,
      exec_checksumReplay h fun hf => absurd hf Bool.false_ne_true⟩,
    fun sector hl hd => ⟨exec_scrub hl hd, exec_scrub hl hd, _, exec_scrub hl hd, noteUncorrected_memoryError_frame s sector, fun h => ?_⟩,
    fun r h => exec_homeSliceAccess h, fun r h hk hp => ⟨_, exec_homeSliceAccess h, ?_⟩⟩
  case refine_1 =>
    have hw := fun err => exec_stashWriteback (n := n) (err := err) hb hl hd hh
    refine ⟨fun hc => (hw false nofun).trans ?_, fun hc => (hw false nofun).trans ?_, fun hc => (hw true fun _ => hc).trans ?_⟩
    · rw [hc, Bool.or_false, if_neg Bool.false_ne_true, earlyBack]
    · rw [hc, Bool.or_true, if_pos rfl, loseLine_at hl]
    · rw [Bool.true_or, if_pos rfl, loseLine_at hl]
  case refine_2 => exact walkEnds_lost_spec fun p hp => by simp [hx] at hp
  case refine_3 =>
    exact ⟨fun hu => walkEnds_lost_spec fun q hq => by rw [hp] at hq; cases hq; exact hu, walkEnds_found_spec hp⟩
  case refine_4 =>
    show (memoryError s sector).l2 = s.l2 ∧ ∀ k, k ∈ (memoryError s sector).poison ↔ k ∈ s.poison ∨ k = sector
    rw [memoryError_clean h]
    exact ⟨rfl, fun k => mem_poisonSector⟩
  case refine_5 =>
    rw [homeServe_load_frame hk hp]
    rfl

end Sys2Proof.Proofs
end

section
/-! O50: the translations. -/

namespace Sys2Proof.Proofs

open Sys2Proof Sys2Proof.Machine Sys2Proof.Safety Sys2Proof.Laws

/-! ### What keeps every issuer's pack -/

/-- A step keeps the packs when it does so from the state before it on. -/
theorem steady_then {s t u : State} (k : Steady t u) (h : Steady s t) : Steady s u := steady_trans h k

theorem steady_gWriteNat (s : State) (pa n x : Nat) : Steady s (gWriteNat s pa n x) := steady_linesMoved (linesMoved_gWriteNat _ _ _ _)

theorem steady_chargeMem (s : State) (r pa n : Nat) : Steady s (chargeMem s r pa n) := steady_charged (charged_chargeMem _ _ _ _)

theorem steady_recallSpan (s : State) (pa n : Nat) : Steady s (recallSpan s pa n) :=
  steady_foldl _ (fun s _ => steady_foldl _ (fun s _ => steady_ite (steady_linesMoved (linesMoved_recallLine _ _)) (steady_refl s)) _ s) _ s

theorem steady_dropCaches (s : State) (pa n : Nat) : Steady s (dropCaches s pa n) := steady_same rfl rfl

theorem steady_copySpan (s : State) (src dst n : Nat) : Steady s (copySpan s src dst n) := by
  have h := steady_trans (steady_recallSpan s src n) (steady_recallSpan _ dst n)
  unfold copySpan
  dsimp only
  generalize recallSpan (recallSpan s src n) dst n = u at h ⊢
  exact steady_trans h (steady_same rfl rfl)

theorem steady_chargeMove (s : State) (r pa n : Nat) : Steady s (chargeMove s r pa n) := steady_same rfl rfl

theorem steady_changeLeaves (s : State) (ctx : Nat) (p : Page) (f : Nat → Nat) : Steady s (changeLeaves s ctx p f) := by
  unfold changeLeaves
  split
  · exact steady_refl s
  · exact steady_foldl _ (fun s i => steady_gWriteNat _ _ _ _) _ s

theorem steady_dropTable (s : State) (ctx va n : Nat) : Steady s (dropTable s ctx va n) := steady_same rfl rfl

theorem steady_flipUnit (host : Bool) (s : State) (pa : Nat) : Steady s (flipUnit host s pa) := by
  have h : Steady s (if host then dropCaches (recallSpan s pa 4096) pa 4096 else s) :=
    steady_ite (steady_trans (steady_recallSpan _ _ _) (steady_dropCaches _ _ _)) (steady_refl s)
  unfold flipUnit
  dsimp only
  generalize (if host then dropCaches (recallSpan s pa 4096) pa 4096 else s) = u at h ⊢
  split
  · exact h
  · exact steady_ite (steady_trans h (steady_linesMoved (linesMoved_gWrite _ _ _))) h

theorem steady_installChan (s : State) (ctx table ch region : Nat) (entry : BitVec 512) :
    Steady s (installChan s ctx table ch region entry) := by
  unfold installChan
  split <;> exact steady_putChan _ _

/-! ### Messages that the home of a page performs -/

theorem steady_noteRefusal (s : State) (m : GMsg) (c a : Nat) : Steady s (noteRefusal s m c a) := by
  unfold noteRefusal
  split
  · exact steady_postTo _ _ _
  · exact steady_same rfl rfl

theorem steady_answer (s : State) (m : GMsg) (kind : Nat) (f : GMsg → GMsg) : Steady s (answer s m kind f) := by
  unfold answer
  dsimp only
  split
  · exact steady_sent (sent_send _ _ _)
  · exact steady_sent (sent_route _ _)

theorem steady_acknowledge (s : State) (m : GMsg) (n : Nat) (r p : Bool) : Steady s (acknowledge s m n r p) := by
  unfold acknowledge
  exact steady_answer _ _ _ _

theorem steady_refuseLane (s : State) (m : GMsg) (c : Nat) : Steady s (refuseLane s m c) := by
  unfold refuseLane
  exact steady_answer _ _ _ _

theorem steady_sendOn (s : State) (kind dest : Nat) (m : GMsg) (home : Option Nat) : Steady s (sendOn s kind dest m home) := by
  unfold sendOn
  dsimp only
  split
  · exact steady_then (steady_sent (sent_send _ _ _)) (steady_same rfl rfl)
  · exact steady_then (steady_sent (sent_route _ _)) (steady_same rfl rfl)

theorem steady_forward (s : State) (t : CombTree) (dest : Nat) : Steady s (forward s t dest) := by
  unfold forward
  exact steady_then (steady_sendOn _ _ _ _ _) (steady_same rfl rfl)

theorem steady_splitAnswer {f : State → GOut → Nat → State} (hf : ∀ s g v, Steady s (f s g v)) (t : CombTree) (v : Nat) (s : State) :
    Steady s (splitAnswer f t v s) := by
  induction t generalizing v s with
  | one g => exact hf s g v
  | two l r g ihl ihr => exact steady_trans (ihl v s) (ihr _ _)

theorem steady_serveAtom (s : State) (t : CombTree) : Steady s (serveAtom s t) := by
  have hr : ∀ c, Steady s ((treeLeaves t).foldl (fun s x => refuseLane s x c) (noteRefusal s (treeMsg t) c (treeMsg t).addr)) := fun c =>
    steady_trans (steady_noteRefusal _ _ _ _) (steady_foldl _ (fun s x => steady_refuseLane _ _ _) _ _)
  unfold serveAtom
  dsimp only
  split
  · exact steady_forward _ _ _
  · exact hr _
  · refine steady_ite (hr _) ?_
    exact steady_trans (steady_trans (steady_chargeMem _ _ _ _) (steady_memAtomic _ _ _ _ _ _))
      (steady_splitAnswer (fun s g v => steady_answer _ _ _ _) _ _ _)

theorem steady_applyLine (s : State) (m : GMsg) : Steady s (applyLine s m) := by
  unfold applyLine
  split
  · exact steady_refl s
  · exact steady_foldl _ (fun s e => steady_trans (steady_chargeMem _ _ _ _) (steady_memAtomic _ _ _ _ _ _)) _ s

theorem steady_reduceLine (s : State) (ms : List GMsg) (part : Nat) : Steady s (reduceLine s ms part) := by
  unfold reduceLine
  dsimp only
  split
  · exact steady_refl s
  · split
    · exact steady_noteRefusal _ _ _ _
    · refine steady_foldl _ (fun s i => ?_) _ s
      split
      · exact steady_refl s
      · exact steady_trans (steady_chargeMem _ _ _ _) (steady_memAtomic _ _ _ _ _ _)

theorem steady_giveSmall (pool : Nat) (s : State) (f : Nat) : Steady s (giveSmall pool s f) :=
  steady_trans (steady_gWriteNat _ _ _ _) (steady_gWriteNat _ _ _ _)

theorem steady_takeSmall {s : State} {pool : Nat} {x : State × Nat} (h : takeSmall s pool = some x) : Steady s x.1 := by
  unfold takeSmall at h
  dsimp only at h
  split at h
  · cases h
  · cases h
    exact steady_gWriteNat _ _ _ _

theorem steady_finishOrdered (s : State) (m : GMsg) (b : Batch) : Steady s (finishOrdered s m b) := by
  have h : ∀ ms (ps : List Nat), Steady s (ps.foldl (fun s k => reduceLine s ms k) (dropBatch s b)) := fun ms ps =>
    steady_then (steady_foldl _ (fun s k => steady_reduceLine _ _ _) _ _) (steady_same rfl rfl)
  unfold finishOrdered
  dsimp only
  split
  · exact steady_trans (h _ _) (steady_foldl _ (fun s f => steady_giveSmall _ _ _) _ _)
  · exact h _ _

theorem steady_putBatch (s : State) (b : Batch) : Steady s (putBatch s b) := steady_same rfl rfl

theorem steady_countPart (s : State) (kind pa : Nat) (m : GMsg) (r : Bool) : Steady s (countPart s kind pa m r) := steady_gWriteNat _ _ _ _

theorem steady_orderedPart (s : State) (pa : Nat) (m : GMsg) (r : Bool) : Steady s (orderedPart s pa m r) :=
  steady_then (steady_countPart _ _ _ _ _) (steady_trans (steady_acknowledge _ _ _ _ _)
    (steady_ite (steady_finishOrdered _ _ _) (steady_putBatch _ _)))

theorem steady_ackLeaves (s : State) (t : CombTree) (r : Bool) : Steady s (ackLeaves s t r) :=
  steady_foldl _ (fun _ _ => steady_acknowledge _ _ _ _ _) _ s

theorem steady_spill {s : State} {m : GMsg} {b : Batch} {x : State × Batch} (h : spill s m b = some x) : Steady s x.1 := by
  unfold spill at h
  split at h
  · cases h
    exact steady_refl s
  · dsimp only at h
    split at h
    · cases h
      exact steady_refl s
    · split at h
      · cases h
        exact steady_refl s
      · obtain ⟨y, hy, rfl⟩ := Option.map_eq_some_iff.1 h
        exact steady_takeSmall hy

theorem steady_gredLine (s : State) (t : CombTree) : Steady s (gredLine s t) := by
  unfold gredLine
  dsimp only
  split
  · exact steady_trans (steady_noteRefusal _ _ _ _) (steady_ackLeaves _ _ _)
  · split
    · refine steady_trans (steady_noteRefusal _ _ _ _) (steady_ite (steady_orderedPart _ _ _ _) ?_)
      exact steady_trans (steady_countPart _ _ _ _ _) (steady_ackLeaves _ _ _)
    · split
      · split
        · exact steady_trans (steady_noteRefusal _ _ _ _) (steady_orderedPart _ _ _ _)
        · next u b hu =>
          have h : Steady s u := by
            split at hu
            · cases hu
              exact steady_refl s
            · exact steady_spill hu
          exact steady_trans h (steady_trans (steady_putBatch _ _) (steady_orderedPart _ _ _ _))
      · refine steady_then (steady_ackLeaves _ _ _) (steady_then (steady_countPart _ _ _ _ _) ?_)
        exact steady_ite (steady_refl s) (steady_applyLine _ _)

theorem steady_serveTree (s : State) (t : CombTree) : Steady s (serveTree s t) := by
  unfold serveTree
  exact steady_ite (steady_gredLine _ _) (steady_serveAtom _ _)

theorem steady_drainComb (s : State) : Steady s (drainComb s) :=
  steady_then (steady_foldl serveTree steady_serveTree s.comb { s with comb := [] }) (steady_same rfl rfl)

/-! ### Requests that follow a page -/

/-- Packs and launches changed one by one, their places and their fragments kept. -/
theorem kept_map {s t : State} {f : Pack → Pack} {k : Fragment → Fragment} {g : Launch → Launch}
    (hb : t.blocks = s.blocks.map fun b => { b with packs := b.packs.map f }) (hl : t.launches = s.launches.map g)
    (hf : ∀ p, (f p).pidx = p.pidx ∧ (f p).pos = p.pos ∧ (f p).frags = p.frags.map k) (hg : ∀ l, (g l).lid = l.lid) : Kept s t := by
  intro r e he
  obtain ⟨-, h1, h2, h3, h4⟩ := issuerAt_eq.1 he
  refine ⟨{ ref := r, b := { e.b with packs := e.b.packs.map f }, p := f e.p, f := k e.f, l := g e.l },
    issuerAt_eq.2 ⟨rfl, ?_, ?_, ?_, ?_⟩⟩
  · unfold getBlock at *
    rw [hb, List.find?_map]
    exact (congrArg (Option.map _) h1 :)
  · unfold getPack at *
    rw [List.find?_map]
    have hc : (fun p : Pack => p.pidx == r.pidx && p.pos == r.pos) ∘ f = fun p => p.pidx == r.pidx && p.pos == r.pos :=
      funext fun p => by simp only [Function.comp_apply, (hf p).1, (hf p).2.1]
    rw [hc, h2]
    rfl
  · unfold getLaunch at *
    rw [hl, List.find?_map]
    have hc : (fun l : Launch => l.lid == e.b.launch) ∘ g = fun l => l.lid == e.b.launch :=
      funext fun l => by simp only [Function.comp_apply, hg l]
    show Option.map g (s.launches.find? ((fun l : Launch => l.lid == e.b.launch) ∘ g)) = _
    rw [hc, h3]
    rfl
  · unfold getFrag at *
    show (f e.p).frags[r.frag]? = some (k e.f)
    rw [(hf e.p).2.2, List.getElem?_map, h4]
    rfl

theorem kept_shiftRequests (s : State) (f : Nat → Nat) : Kept s (shiftRequests s f) :=
  kept_map (g := fun l => { l with effects := l.effects.map fun x => { x with pa := f x.pa } }) rfl rfl (fun _ => ⟨rfl, rfl, rfl⟩) fun _ => rfl

theorem kept_farRequests (s : State) (p : Page) (dest : Nat) : Kept s (farRequests s p dest) :=
  kept_map (g := id) rfl (List.map_id _).symm (fun _ => ⟨rfl, rfl, rfl⟩) fun _ => rfl

theorem kept_moveLocal (s : State) (e : Issuer) (p : Page) (frame : Nat) : Kept s (moveLocal s e p frame) := by
  refine kept_trans (steady_kept ?_) (kept_shiftRequests _ _)
  refine steady_then (steady_dropTable _ _ _ _) (steady_then (steady_changeLeaves _ _ _ _) ?_)
  refine steady_then (steady_chargeMove _ _ _ _) (steady_then (steady_chargeMove _ _ _ _) (steady_then (steady_dropCaches _ _ _) ?_))
  exact steady_copySpan _ _ _ _

theorem kept_moveRemote (s : State) (e : Issuer) (p : Page) (dest : Nat) : Kept s (moveRemote s e p dest) := by
  refine kept_trans (kept_trans (steady_kept ?_) (kept_farRequests _ _ _)) (kept_same rfl rfl)
  refine steady_then (steady_dropTable _ _ _ _) (steady_then (steady_changeLeaves _ _ _ _) ?_)
  refine steady_then (steady_sent (sent_chargeFabric _ _ _ _)) (steady_then (steady_chargeMove _ _ _ _) ?_)
  exact steady_then (steady_dropCaches _ _ _) (steady_then (steady_recallSpan _ _ _) (steady_drainComb s))

theorem kept_moveOutcome (s : State) (e : Issuer) (p : Page) (dest : Nat) : Kept s (moveOutcome s e p dest) := by
  have ha : ∀ t, Kept s t → ∀ c, Kept s (moveAborted t e p dest c) := fun t h c => kept_trans h (kept_postEvent _ _ _)
  unfold moveOutcome
  refine kept_ite (ha s (kept_refl s) _) ?_
  have h : Kept s (choose s 4).2 := kept_same rfl rfl
  generalize choose s 4 = x at h ⊢
  dsimp only
  split
  · exact kept_trans h (kept_moveRemote _ _ _ _)
  · exact ha _ h _
  · exact ha _ h _
  · exact ha _ h _

end Sys2Proof.Proofs
end

section
/-! O50: TLBINV, BIASFLIP, MIGRATE, CAPSET and MAPPG. -/

namespace Sys2Proof.Proofs

open Sys2Proof Sys2Proof.Machine Sys2Proof.Safety Sys2Proof.Laws

/-! ### What leaves the turn's number -/

/-- The number of the turn is the same. -/
def SameTurn (s t : State) : Prop := t.tick = s.tick

theorem sameTurn_refl (s : State) : SameTurn s s := rfl

theorem sameTurn_trans {s t u : State} (h : SameTurn s t) (k : SameTurn t u) : SameTurn s u := Eq.trans k h

theorem sameTurn_linesMoved {s t : State} (h : LinesMoved s t) : SameTurn s t := by
  unfold SameTurn
  rw [h.device]

theorem sameTurn_ite {s t u : State} {c : Prop} [Decidable c] (h : SameTurn s t) (k : SameTurn s u) :
    SameTurn s (if c then t else u) := by
  split
  · exact h
  · exact k

theorem sameTurn_foldl {α : Type} (g : State → α → State) (h : ∀ s x, SameTurn s (g s x)) (l : List α) (s : State) :
    SameTurn s (l.foldl g s) := by
  induction l generalizing s with
  | nil => exact sameTurn_refl s
  | cons x l ih => exact sameTurn_trans (h s x) (ih _)

theorem sameTurn_gWriteNat (s : State) (pa n x : Nat) : SameTurn s (gWriteNat s pa n x) :=
  sameTurn_linesMoved (linesMoved_gWriteNat _ _ _ _)

theorem sameTurn_noteLost (s : State) (f : Bool) : SameTurn s (noteLost s f) := rfl

theorem sameTurn_postTo (s : State) (d r : Nat) : SameTurn s (postTo s d r) :=
  sameTurn_ite (sameTurn_noteLost _ _) (sameTurn_ite (sameTurn_gWriteNat _ _ _ _)
    (sameTurn_trans (sameTurn_gWriteNat _ _ _ _) (sameTurn_gWriteNat _ _ _ _)))

theorem sameTurn_postEvent (s : State) (rcb r : Nat) : SameTurn s (postEvent s rcb r) := sameTurn_postTo _ _ _

theorem sameTurn_memAtomic (s : State) (pa w op a c : Nat) : SameTurn s (memAtomic s pa w op a c).1 := by
  have h := linesMoved_recallRange s pa w
  unfold memAtomic
  generalize recallRange s pa w = u at h
  dsimp only
  split
  · exact sameTurn_linesMoved h
  · exact sameTurn_trans (sameTurn_linesMoved h) (sameTurn_gWriteNat _ _ _ _)

theorem sameTurn_deviceWrite (s : State) (rcb ctx block va : Nat) (bs : List Byte) :
    SameTurn s (deviceWrite s rcb ctx block va bs) := by
  unfold deviceWrite
  dsimp only
  split
  · exact sameTurn_postEvent _ _ _
  · split
    · exact sameTurn_postEvent _ _ _
    · exact sameTurn_linesMoved (linesMoved_trans (linesMoved_charged (charged_chargeMem _ _ _ _)) (linesMoved_pagesWrite _ _ _ _))

theorem sameTurn_neCount (s : State) (rcb ctx va : Nat) (c : Option Nat) : SameTurn s (neCount s rcb ctx va c) := by
  unfold neCount
  split
  · exact sameTurn_refl s
  · refine sameTurn_ite (sameTurn_postEvent _ _ _) (sameTurn_trans ?_ (sameTurn_memAtomic _ _ _ _ _ _))
    exact sameTurn_linesMoved (linesMoved_charged (charged_chargeMem _ _ _ _))

theorem sameTurn_putChan (s : State) (c : Channel) : SameTurn s (putChan s c) := rfl

theorem sameTurn_neRecord (s : State) (ctx table ch : Nat) (entry : BitVec 512) (gen word : Nat) :
    SameTurn s (neRecord s ctx table ch entry gen word) := by
  unfold neRecord
  split
  · exact sameTurn_refl s
  · dsimp only
    refine sameTurn_ite (sameTurn_refl s) (sameTurn_ite (sameTurn_ite (sameTurn_putChan _ _) (sameTurn_refl s)) ?_)
    exact sameTurn_trans (sameTurn_putChan _ _) (sameTurn_deviceWrite _ _ _ _ _ _)

theorem sameTurn_modChan (s : State) (ctx table ch : Nat) (f : Channel → Channel) : SameTurn s (modChan s ctx table ch f) := rfl

theorem sameTurn_fireArms (s : State) (ctx : Nat) (tag : BitVec 64) (a : Nat) : SameTurn s (fireArms s ctx tag a) := rfl

theorem sameTurn_completeAt (s : State) (b i j id : Nat) : SameTurn s (completeAt s b i j id) := by
  unfold completeAt
  split
  · exact sameTurn_refl s
  · split <;> rfl

/-- Two effects one after the other, each where its condition holds. -/
theorem sameTurn_steps {s u : State} {c d : Prop} [Decidable c] [Decidable d] {f g : State → State} (h : SameTurn s u)
    (hf : ∀ s, SameTurn s (f s)) (hg : ∀ s, SameTurn s (g s)) :
    SameTurn s (if d then g (if c then f u else u) else if c then f u else u) := by
  have hc : SameTurn s (if c then f u else u) := sameTurn_ite (sameTurn_trans h (hf u)) h
  exact sameTurn_ite (sameTurn_trans hc (hg _)) hc

theorem sameTurn_finishSend (s : State) (q : NeReq) (a b : Nat) : SameTurn s (finishSend s q a b) := by
  unfold finishSend
  refine sameTurn_trans ?_ (sameTurn_completeAt _ _ _ _ _)
  refine sameTurn_steps (f := fun s => neRecord s _ _ _ _ _ _) (g := fun s => modChan s _ _ _ _) ?_
    (fun s => sameTurn_neRecord _ _ _ _ _ _ _) (fun s => sameTurn_modChan _ _ _ _ _)
  exact sameTurn_trans rfl (sameTurn_neCount _ _ _ _ _)

theorem sameTurn_finishRecv (s : State) (r : NeRecv) (a b : Nat) : SameTurn s (finishRecv s r a b) := by
  unfold finishRecv
  refine sameTurn_steps (f := fun s => fireArms s _ _ _) (g := fun s => neRecord s _ _ _ _ _ _) ?_
    (fun s => sameTurn_fireArms _ _ _ _) (fun s => sameTurn_neRecord _ _ _ _ _ _ _)
  exact sameTurn_trans rfl (sameTurn_neCount _ _ _ _ _)

/-! ### TLBINV -/

/-- The translations that an invalidation covers are gone. -/
def invDropped (s : State) (x : InvRange) : State :=
  { s with tlb := s.tlb.filter fun t => !(invCtx x t.ctx && t.va < x.va + x.len && x.va < t.va + 2 ^ t.k) }

/-- The requests that it covers and that have not begun have been told, once. -/
def invTold (s : State) (e : Issuer) (x : InvRange) : State :=
  if e.f.evicts.isSome then invDropped s x else invIdle (invDropped s x) x

/-- Stashes and experts have been told as well: the state, and the experts that it waits for. -/
def invReached (s : State) (e : Issuer) (x : InvRange) : State × List Nat :=
  evictRange (invStash (invTold s e x) x) e x.ctx x.va x.len

theorem invAct_eq (s : State) (e : Issuer) (x : InvRange) : invAct s e x =
    if invBusy (invReached s e x).1 x || !(invReached s e x).2.isEmpty then waitEvicts (invReached s e x).1 e (invReached s e x).2
    else .ok (acquired (invReached s e x).1 e) {} := rfl

theorem invAct_ok {s : State} {e : Issuer} {x : InvRange} (hb : invBusy (invReached s e x).1 x = false) (hl : (invReached s e x).2 = []) :
    invAct s e x = .ok (acquired (invReached s e x).1 e) {} := by
  rw [invAct_eq, if_neg (by rw [hb, hl]; simp)]

theorem invAct_waits {s : State} {e : Issuer} {x : InvRange} (h : invBusy (invReached s e x).1 x = true ∨ (invReached s e x).2 ≠ []) :
    invAct s e x = waitEvicts (invReached s e x).1 e (invReached s e x).2 := by
  rw [invAct_eq, if_pos]
  simpa using h

theorem kept_invIdle (s : State) (x : InvRange) : Kept s (invIdle s x) :=
  kept_trans (kept_foldl _ (fun _ _ => kept_finishSend _ _ _ _) _ s)
    (kept_foldl _ (fun _ _ => steady_kept (steady_finishRecv _ _ _ _)) _ _)

theorem sameTurn_invIdle (s : State) (x : InvRange) : SameTurn s (invIdle s x) :=
  sameTurn_trans (sameTurn_foldl _ (fun _ _ => sameTurn_finishSend _ _ _ _) _ s)
    (sameTurn_foldl _ (fun _ _ => sameTurn_finishRecv _ _ _ _) _ _)

theorem kept_invTold (s : State) (e : Issuer) (x : InvRange) : Kept s (invTold s e x) := by
  have h : Kept s (invDropped s x) := kept_same rfl rfl
  exact kept_ite h (kept_trans h (kept_invIdle _ _))

theorem sameTurn_invTold (s : State) (e : Issuer) (x : InvRange) : SameTurn s (invTold s e x) := by
  have h : SameTurn s (invDropped s x) := rfl
  exact sameTurn_ite h (sameTurn_trans h (sameTurn_invIdle _ _))

theorem linesMoved_ite {s t u : State} {c : Prop} [Decidable c] (h : LinesMoved s t) (k : LinesMoved s u) :
    LinesMoved s (if c then t else u) := by
  split
  · exact h
  · exact k

theorem linesMoved_invStash (s : State) (x : InvRange) : LinesMoved s (invStash s x) :=
  linesMoved_foldl _ (fun s _ => linesMoved_ite (linesMoved_foldl _ (fun _ _ => linesMoved_recallLine _ _) _ s) (linesMoved_refl s)) _ s

theorem linesMoved_ertEvict (s : State) (i : Nat) : LinesMoved s (ertEvict s i) := by
  unfold ertEvict
  dsimp only
  split
  · exact linesMoved_putErt _ _ _
  · split
    · exact linesMoved_putErt _ _ _
    · exact linesMoved_refl s

theorem linesMoved_evictRange (s : State) (e : Issuer) (ctx : Option Nat) (va len : Nat) :
    LinesMoved s (evictRange s e ctx va len).1 := by
  unfold evictRange
  split <;> exact linesMoved_foldl _ linesMoved_ertEvict _ s

theorem linesMoved_invReached (s : State) (e : Issuer) (x : InvRange) : LinesMoved (invTold s e x) (invReached s e x).1 :=
  linesMoved_trans (linesMoved_invStash _ _) (linesMoved_evictRange _ _ _ _ _)

theorem kept_invReached (s : State) (e : Issuer) (x : InvRange) : Kept s (invReached s e x).1 :=
  kept_trans (kept_invTold s e x) (kept_linesMoved (linesMoved_invReached s e x))

theorem sameTurn_invReached (s : State) (e : Issuer) (x : InvRange) : SameTurn s (invReached s e x).1 :=
  sameTurn_trans (sameTurn_invTold s e x) (sameTurn_linesMoved (linesMoved_invReached s e x))

/-! ### MAPPG -/

theorem steady_zeroFrame (s : State) (pa n : Nat) : Steady s (zeroFrame s pa n) := by
  have h := steady_recallSpan s pa n
  unfold zeroFrame
  generalize recallSpan s pa n = u at h ⊢
  exact steady_trans h (steady_same rfl rfl)

theorem steady_mapLane (ctx rcb attr : Nat) (r : Region) (s : State) (va : Nat) : Steady s (mapLane ctx rcb attr r s va).1 := by
  unfold mapLane
  dsimp only
  split
  · exact steady_refl s
  · split
    · exact steady_refl s
    · split
      · exact steady_refl s
      · split
        · exact steady_refl s
        · split
          · exact steady_refl s
          · next u f hu =>
            have h : Steady s u := steady_takeSmall hu
            split
            · exact h
            · refine steady_then (steady_foldl _ (fun _ _ => steady_gWriteNat _ _ _ _) _ _) ?_
              exact steady_then (steady_chargeMove _ _ _ _) (steady_then (steady_zeroFrame _ _ _) h)

theorem mapLanes_cons (ctx rcb attr : Nat) (r : Region) (s : State) (x : Nat × Nat) (l : List (Nat × Nat)) :
    mapLanes ctx rcb attr r s (x :: l) = ((mapLanes ctx rcb attr r (mapLane ctx rcb attr r s x.2).1 l).1,
      (x.1, (mapLane ctx rcb attr r s x.2).2) :: (mapLanes ctx rcb attr r (mapLane ctx rcb attr r s x.2).1 l).2) := rfl

theorem steady_mapLanes (ctx rcb attr : Nat) (r : Region) (l : List (Nat × Nat)) (s : State) :
    Steady s (mapLanes ctx rcb attr r s l).1 := by
  induction l generalizing s with
  | nil => exact steady_refl s
  | cons x l ih =>
    rw [mapLanes_cons]
    exact steady_trans (steady_mapLane _ _ _ _ _ _) (ih _)

theorem mapLanes_lanes (ctx rcb attr : Nat) (r : Region) (l : List (Nat × Nat)) (s : State) :
    (mapLanes ctx rcb attr r s l).2.map (·.1) = l.map (·.1) := by
  induction l generalizing s with
  | nil => rfl
  | cons x l ih =>
    rw [mapLanes_cons, List.map_cons, List.map_cons]
    exact congrArg _ (ih _)

/-- The status that a lane has in a list of them. -/
def statusOf (vals : List (Nat × Nat)) (l : Nat) : Nat := (vals.find? fun y => y.1 == l).elim 0 (·.2)

/-- Pairs of distinct lanes are what looking each lane up gives. -/
theorem eq_map_statusOf {vals : List (Nat × Nat)} (h : (vals.map (·.1)).Nodup) :
    vals = (vals.map (·.1)).map fun l => (l, statusOf vals l) := by
  induction vals with
  | nil => rfl
  | cons x vals ih =>
    obtain ⟨hx, hn⟩ := List.nodup_cons.1 h
    have hi := ih hn
    simp only [statusOf, List.map_cons, List.map_map, List.find?_cons, beq_self_eq_true] at hi ⊢
    refine congrArg (x :: ·) (hi.trans (List.map_congr_left fun y hy => ?_))
    have hxy : (x.1 == y.1) = false := by
      simp only [beq_eq_false_iff_ne]
      intro he
      exact hx (List.mem_map.2 ⟨y, hy, he.symm⟩)
    simp only [Function.comp_apply, hxy]

/-- What the lanes of a MAPPG leave, and their statuses. -/
def mapped (s : State) (e : Issuer) (g : Gen) (x : Region) : State × List (Nat × Nat) :=
  mapLanes e.l.ctx e.l.region (uniVal e g.b) x s ((activeLanes e g.pred).map fun l => (l, opndVal e (uniPair g.a) l))

theorem mapped_lanes (s : State) (e : Issuer) (g : Gen) (x : Region) : (mapped s e g x).2.map (·.1) = activeLanes e g.pred := by
  unfold mapped
  rw [mapLanes_lanes, List.map_map]
  exact List.map_id _

theorem mapped_statuses (s : State) (e : Issuer) (g : Gen) (x : Region) :
    (mapped s e g x).2 = (activeLanes e g.pred).map fun l => (l, statusOf (mapped s e g x).2 l) := by
  have hl := mapped_lanes s e g x
  have h := eq_map_statusOf (hl ▸ activeLanes_nodup e g.pred)
  rwa [hl] at h

end Sys2Proof.Proofs
end

section
/-! O50: the instructions themselves. -/

namespace Sys2Proof.Proofs

open Sys2Proof Sys2Proof.Machine Sys2Proof.Safety Sys2Proof.Laws

section
variable {i : Instr} {s : State} {e : Issuer} {body : Issuer → Act} (hx : exec i s = issue s 8 .never true body) (h : IssuesAlone s e)
  (hs : inSup e.f = true)
include hx h hs

/-- A supervisor instruction with an effect that keeps the fragment that issued it. -/
theorem completes_kept {t : State} (ha : body e = .ok t {}) (hk : Kept s t) : Completes i s e 8 fun m r => m = t ∧ r = {} := by
  obtain ⟨e', he'⟩ := hk _ _ h.1.2
  exact completes hx h.1 (burstOk_alone h.2 _) (.inr hs) ha he' ⟨rfl, rfl⟩

theorem invalidates_reached {x : InvRange} (ha : body e = invAct s e x) :
    LinesMoved (invTold s e x) (invStash (invTold s e x) x) ∧
    (invBusy (invReached s e x).1 x = false → (invReached s e x).2 = [] →
      Completes i s e 8 fun m r => m = acquired (invReached s e x).1 e ∧ r = {}) ∧
    (invBusy (invReached s e x).1 x = true ∨ (invReached s e x).2 ≠ [] → exec i s = .next (putFrag (invReached s e x).1 e.ref
      { (refresh (invReached s e x).1 e).f with st := .waiting, wait := .translations, since := s.tick, gang := 0,
                                                evicts := some (invReached s e x).2 })) := by
  refine ⟨linesMoved_invStash _ _, fun hb hl => ?_, fun hw => ?_⟩
  · exact completes_kept hx h hs (ha.trans (invAct_ok hb hl)) (kept_trans (kept_invReached s e x) (kept_charged (charged_acquired _ _)))
  · have ht : (invReached s e x).1.tick = s.tick := sameTurn_invReached s e x
    rw [owns hx h.1 (burstOk_alone h.2 _) (.inr hs) (ha.trans (invAct_waits hw)), ht]

end

section
variable {s : State} {e : Issuer} {g : Gen}

theorem kept_flips (host : Bool) (us : List Nat) (s : State) : Kept s (us.foldl (flipUnit host) s) :=
  steady_kept (steady_foldl _ (steady_flipUnit host) us s)

theorem flipAct_ok {host : Bool} (hb : host = true → s.hi.biastab.getLsbD 0 = true) (hc : uniCause e [uniPair g.a, opn32 g.b] = none)
    (h1 : 1 ≤ uniVal e g.b) (h2 : uniVal e g.b ≤ 65536) (ha : uniWide e g.a % 4096 = 0) {us : List Nat}
    (hu : flipUnits s e (uniWide e g.a) (uniVal e g.b) = .ok us) : flipAct s e g host = .ok (us.foldl (flipUnit host) s) {} := by
  unfold flipAct
  simp only [hc, hu]
  rw [if_neg (by omega), if_neg (by omega), if_neg]
  cases host with
  | false => exact Bool.false_ne_true
  | true => simpa using hb rfl

section
variable (h : IssuesAlone s e) (hs : inSup e.f = true)
include h hs

theorem completes_migrateLocal {p : Page} (hp : movePage s e (uniWide e g.a) = .ok p) (ha : uniWide e g.a % 2 ^ p.k = 0)
    (hh : moveHeld s e p = none) (hc : uniCause e [uniPair g.a, uniPair g.b] = none) (hb : uniWide e g.b % 2 ^ p.k = 0)
    (h1 : moveTierOk (uniWide e g.b) = true) (h2 : moveTierOk (uniWide e g.b + 2 ^ p.k - 1) = true) :
    Completes (.migrateLocal g) s e 8 fun m r => m = moveLocal s e p (uniWide e g.b) ∧ r = {} := by
  refine completes_kept rfl h hs ?_ (kept_moveLocal s e p _)
  simp [hc, hp, ha, hb, h1, h2, hh]

theorem completes_migrateRemote {p : Page} (hp : movePage s e (uniWide e g.a) = .ok p) (ha : uniWide e g.a % 2 ^ p.k = 0)
    (hh : moveHeld s e p = none) (hc : uniCause e [uniPair g.a, opn32 g.c] = none) (hw : isWindow (uniWide e g.a) = true)
    (ho : oldFrame s p.pa (2 ^ p.k) = false) :
    Completes (.migrateRemote g) s e 8 fun m r => m = moveOutcome s e p (uniVal e g.c) ∧ r = {} := by
  refine completes_kept rfl h hs ?_ (kept_moveOutcome s e p _)
  simp [hc, hp, ha, hw, hh, ho]

theorem waits_migrateRemote {p : Page} (hp : movePage s e (uniWide e g.a) = .ok p) (ha : uniWide e g.a % 2 ^ p.k = 0)
    (hh : moveHeld s e p = none) (hc : uniCause e [uniPair g.a, opn32 g.c] = none) (hw : isWindow (uniWide e g.a) = true)
    (ho : oldFrame s p.pa (2 ^ p.k) = true) : exec (.migrateRemote g) s = .next (putFrag s e.ref
      { e.f with st := .waiting, wait := .translations, since := s.tick, gang := 0, evicts := some [] }) := by
  refine owns rfl h.1 (burstOk_alone h.2 _) (.inr hs) ?_
  simp [hc, hp, ha, hw, hh, ho, waitEvicts, refresh_of h.1.2]

theorem completes_capset (ha : uniCause e [opn32 g.a] = none) (hb : regsCause e [] g.b 16 = none) (hc : uniVal e g.a ≤ 63)
    (hn : ceBad (regsVal e g.b 16 0) = false) {ps : List (Nat × Nat)}
    (hp : xlateRange s e.l.ctx true .write (e.b.capbase.toNat + 64 * uniVal e g.a) 64 = .ok ps) (hh : memHold s e (ps.map (·.2)) = none) :
    Completes (.capset g) s e 8 fun m r => r = {} ∧ ∃ u, Charged s u ∧
      m = installChan (pagesWrite u ps (e.b.capbase.toNat + 64 * uniVal e g.a) (leBytes 64 (regsVal e g.b 16 0))) e.l.ctx
        e.b.capbase.toNat (uniVal e g.a) e.l.region (BitVec.ofNat 512 (regsVal e g.b 16 0)) := by
  have hu := charged_chargeMem s e.l.region (pagesPa ps (e.b.capbase.toNat + 64 * uniVal e g.a)) 64
  refine completes_mono (completes_kept (t := installChan (pagesWrite (chargeMem s e.l.region
    (pagesPa ps (e.b.capbase.toNat + 64 * uniVal e g.a)) 64) ps (e.b.capbase.toNat + 64 * uniVal e g.a)
    (leBytes 64 (regsVal e g.b 16 0))) e.l.ctx e.b.capbase.toNat (uniVal e g.a) e.l.region
    (BitVec.ofNat 512 (regsVal e g.b 16 0))) rfl h hs ?_ (steady_kept ?_)) fun m r hm => ⟨hm.2, _, hu, hm.1⟩
  · simp only [firstCause_pair ha hb, hp, hh]
    rw [if_neg]
    rw [hn]
    simp
    omega
  · exact steady_then (steady_installChan _ _ _ _ _ _) (steady_linesMoved (linesMoved_trans (linesMoved_charged hu) (linesMoved_pagesWrite _ _ _ _)))

/-- Lanes' statuses are written back as a result, in the state that the lanes left. -/
theorem completes_mappg (hc : operandCause e (activeLanes e g.pred) [uniPair g.a, opn32 g.b] g.dst 1 = none)
    (hb : attrBad (uniVal e g.b) = false) {x : Region} (hr : regionOf s e.l.region = some x) :
    Completes (.mappg g) s e 8 fun m r =>
      ResultOnly (mapped s e g x).1 m e g.dst g.nowb 1 (activeLanes e g.pred) (statusOf (mapped s e g x).2) r := by
  obtain ⟨b, l, he⟩ := steady_mapLanes e.l.ctx e.l.region (uniVal e g.b) x
    ((activeLanes e g.pred).map fun l => (l, opndVal e (uniPair g.a) l)) s _ _ h.1.2
  change issuerAt (mapped s e g x).1 e.ref = _ at he
  have hm := resultOnly_writeBack (e := { e with b := b, l := l }) he g.dst g.nowb 1
    (fun k (hk : k ∈ activeLanes e g.pred) => mem_activeLanes hk) (statusOf (mapped s e g x).2)
  obtain ⟨e', he'⟩ := issuer_writeBack (e := { e with b := b, l := l }) he (charged_refl _) g.dst g.nowb 1 (mapped s e g x).2
  rw [← mapped_statuses] at hm
  refine completes rfl h.1 (burstOk_alone h.2 _) (.inr hs) ?_ he' ⟨hm.frame, hm.pack, hm.latch⟩
  simp only [hc, hb, hr, hs]
  have hf := refresh_of (e := e) he
  unfold mapped at hf ⊢
  rw [hf]
  rfl

end

end

/-- Settles O50: each instruction's effect keeps the fragment that issued it, whatever it moves, sends or tells, so it retires; TLBINV waits
with what it has told in its fragment. -/
theorem translations : Obligations.Translations := by
  unfold Obligations.Translations
  intro s e g h hs
  refine ⟨fun hc h1 h2 ha => invalidates_reached rfl h hs ?_, fun hc => invalidates_reached rfl h hs ?_, invalidates_reached rfl h hs rfl,
    fun hc h1 h2 ha us hu => ⟨completes_kept rfl h hs (flipAct_ok (fun hf => absurd hf Bool.false_ne_true) hc h1 h2 ha hu) (kept_flips false us s),
      fun hb => completes_kept rfl h hs (flipAct_ok (fun _ => hb) hc h1 h2 ha hu) (kept_flips true us s)⟩,
    fun p hp ha hh => ⟨completes_migrateLocal h hs hp ha hh, fun hc hw => ⟨completes_migrateRemote h hs hp ha hh hc hw,
      waits_migrateRemote h hs hp ha hh hc hw⟩⟩,
    fun ha hb hc hn ps hp hh => completes_capset h hs ha hb hc hn hp hh,
    fun hc hb x hr => ?_⟩
  · simp only [hc]
    rw [if_neg (by omega), if_neg (by omega)]
  · simp only [hc]
  · exact completes_mono (completes_mappg h hs hc hb hr) fun m r hm => ⟨_, _, rfl, mapped_lanes s e g x, hm⟩

end Sys2Proof.Proofs
end

section
/-! O37: MST begins one drain for each octet (R180, R359, R372 to R374). -/

namespace Sys2Proof.Proofs

open Sys2Proof Sys2Proof.Machine Sys2Proof.Safety Sys2Proof.Laws

/-! ## Octet-level instructions -/

/-- What an octet-level instruction adds to its traps it adds to those of its octets' issue. -/
theorem octetAct_matIssue (s : State) (e : Issuer) (res : Pack → Retire) (k : List Nat → Act) :
    octetAct (matIssue s e res k) = matIssue s e res fun octs => octetAct (k octs) := by
  unfold matIssue
  dsimp only
  split
  · rfl
  · split
    · rfl
    · cases k (todoOctets e.p e.f) <;> rfl

section
variable {i : Instr} {s : State} {e : Issuer} {body : Issuer → Act} {res : Pack → Retire} {k : List Nat → Act}
  (hx : exec i s = issueOctet s body) (h : IssuesAlone s e) (hr : pairReady e.p e.f = true) (ho : todoOctets e.p e.f ≠ [])
  (ha : body e = matIssue s e res k)
include hx h hr ho ha

/-- `performs` for an octet-level instruction. -/
theorem performs_octet {v : State} {e' : Issuer} {r : Retire} {P : State → Retire → Prop} (hk : k (todoOctets e.p e.f) = .ok v r)
    (hv : issuerAt v e.ref = some e') (hP : P v (res (refresh (markPartners v e (todoOctets e.p e.f)) e).p)) : Performs i s e P :=
  performs (hx.trans (issueOctet_alone h body)) h.1 (burstOk_alone h.2 _) hr ho (by rw [ha, octetAct_matIssue]) (by rw [hk]; rfl) hv hP

/-- An octet-level instruction waits where its body does. -/
theorem waits_octet {st : FragState} {w : Wait} (hk : k (todoOctets e.p e.f) = .wait st w) : Waits i s e st w :=
  waits (hx.trans (issueOctet_alone h body)) h.1 (burstOk_alone h.2 _) (.inl rfl)
    (by rw [ha, matIssue_stops hr ho hk fun _ _ => Act.noConfusion]; rfl)

end

/-! ## Drains begin (R180) -/

/-- The drain of an octet among the operations in flight, and in the counters of its pack. -/
def drainOp (e : Issuer) (add : Bool) (id : Nat) (job : List DrainElem) : EngineOp :=
  { id, blk := e.ref.blk, pidx := e.ref.pidx, pos := e.ref.pos, work := .drain add job }

def drainCount (id : Nat) : EngOp := { id, cls := .drain, tag := none }

/-- From a state u with issuer w, drains of some jobs have begun under numbers in order; the issuer is w' now. -/
structure DrainsBegun (e : Issuer) (add : Bool) (jobs : List (List DrainElem)) (u : State) (w : Issuer) (v : State) (w' : Issuer) :
    Prop where
  issuer : issuerAt v e.ref = some w'
  nextId : v.nextId = u.nextId + jobs.length
  engine : v.engine = u.engine ++ jobs.mapIdx fun i => drainOp e add (u.nextId + i)
  acc : w'.b.acc = w.b.acc
  passes : w'.b.passes = w.b.passes
  pack : w'.p = { w.p with eng := w.p.eng ++ jobs.mapIdx fun i _ => drainCount (u.nextId + i) }

/-- The range that a drain takes in the scoreboard is all that it leaves in its block beside its pack's counter (R137). -/
theorem drainStart_eq {s : State} {e w : Issuer} (hw : issuerAt s e.ref = some w) (h1 : e.p.pidx = e.ref.pidx)
    (h2 : e.p.pos = e.ref.pos) (add : Bool) (job : List DrainElem) :
    ∃ c, c = { setPack w.b (engAdd w.p s.nextId .drain none) with score := c.score } ∧
      drainStart e s (add, job) = { setBlock s c with nextId := s.nextId + 1, engine := s.engine ++ [drainOp e add s.nextId job] } := by
  obtain ⟨-, hb, hp, -, -⟩ := issuerAt_eq.1 hw
  unfold drainStart
  rw [h1, h2]
  simp only [hb, hp, Option.getD_some]
  cases job.filter fun d => d.stash with
  | nil => exact ⟨setPack w.b (engAdd w.p s.nextId .drain none), rfl, rfl⟩
  | cons d ds => exact ⟨scoreAdd (setPack w.b (engAdd w.p s.nextId .drain none)) _, rfl, rfl⟩

/-- One drain begins. -/
theorem drainsBegun_one {s : State} {e w : Issuer} (hw : issuerAt s e.ref = some w) (h1 : e.p.pidx = e.ref.pidx)
    (h2 : e.p.pos = e.ref.pos) (add : Bool) (job : List DrainElem) :
    ∃ w', DrainsBegun e add [job] s w (drainStart e s (add, job)) w' := by
  obtain ⟨c, hc, hs⟩ := drainStart_eq hw h1 h2 add job
  obtain ⟨-, hb, hp, -, hf⟩ := issuerAt_eq.1 hw
  have hk := getPack_key hp
  have hpack : getPack c e.ref.pidx e.ref.pos = some (engAdd w.p s.nextId .drain none) := by
    rw [hc]
    exact getPack_setPack (p := engAdd w.p s.nextId .drain none) hp hk.1 hk.2
  have hi := issuerAt_setBlock hw (b := c) (by rw [hc]; exact (show w.b.bid = _ from getBlock_bid hb)) (by rw [hc]; rfl) hpack (f := w.f) hf
  refine ⟨_, (issuerAt_congr (s := setBlock s c) ?_ ?_ _).trans hi, ?_, ?_, ?_, ?_, rfl⟩
  · rw [hs]
  · rw [hs]
  · rw [hs]; rfl
  · rw [hs]; rfl
  · show c.acc = _
    rw [hc]; rfl
  · show c.passes = _
    rw [hc]; rfl

theorem drainsBegun_trans {e : Issuer} {add : Bool} {js ks : List (List DrainElem)} {s u v : State} {w w' w'' : Issuer}
    (h : DrainsBegun e add js s w u w') (k : DrainsBegun e add ks u w' v w'') : DrainsBegun e add (js ++ ks) s w v w'' where
  issuer := k.issuer
  nextId := by rw [k.nextId, h.nextId, List.length_append, Nat.add_assoc]
  engine := by
    rw [k.engine, h.engine, h.nextId, List.mapIdx_append, List.append_assoc]
    simp only [Nat.add_comm, Nat.add_left_comm]
  acc := k.acc.trans h.acc
  passes := k.passes.trans h.passes
  pack := by
    rw [k.pack, h.pack, h.nextId, List.mapIdx_append]
    simp only [List.append_assoc, Nat.add_comm, Nat.add_left_comm]

/-- The drains of an issue begin one after another. -/
theorem drainsBegun_foldl {s : State} {e w : Issuer} (hw : issuerAt s e.ref = some w) (h1 : e.p.pidx = e.ref.pidx)
    (h2 : e.p.pos = e.ref.pos) (add : Bool) (jobs : List (List DrainElem)) :
    ∃ w', DrainsBegun e add jobs s w (jobs.foldl (fun s j => drainStart e s (add, j)) s) w' := by
  induction jobs generalizing s w with
  | nil => exact ⟨w, hw, rfl, by simp, rfl, rfl, by simp⟩
  | cons job jobs ih =>
    obtain ⟨u, hu⟩ := drainsBegun_one hw h1 h2 add job
    obtain ⟨w', hw'⟩ := ih hu.issuer
    exact ⟨w', drainsBegun_trans hu hw'⟩

/-- They begin in the state in which the lines that they write are there. -/
theorem drainsBegun_linesMoved {s u : State} {e : Issuer} (hu : LinesMoved s u) (hi : issuerAt s e.ref = some e) (add : Bool)
    (jobs : List (List DrainElem)) : ∃ w', DrainsBegun e add jobs s e (jobs.foldl (fun s j => drainStart e s (add, j)) u) w' := by
  obtain ⟨hpidx, hpos⟩ := getPack_key (issuerAt_eq.1 hi).2.2.1
  obtain ⟨b, -, hb, hiu⟩ := linesMoved_issuer hu hi
  obtain ⟨w', hw'⟩ := drainsBegun_foldl hiu hpidx hpos add jobs
  have hid : u.nextId = s.nextId := by rw [hu.device]
  have hops : u.engine = s.engine := by rw [hu.device]
  exact ⟨w', hw'.issuer, by rw [hw'.nextId, hid], by rw [hw'.engine, hid, hops], by rw [hw'.acc, hb], by rw [hw'.passes, hb],
    by rw [hw'.pack, hid]⟩

/-! ## Draws (R214) -/

/-- Draws of fragments change slices alone. -/
theorem foldl_advanceDraws_slices (e : Issuer) (gs : List Fragment) {p : Pack} (hp : p.slices.length = e.p.slices.length) :
    ∃ sl, gs.foldl (fun p g => advanceDraws { e with f := g } p) p = { p with slices := sl } := by
  induction gs generalizing p with
  | nil => exact ⟨p.slices, rfl⟩
  | cons g gs ih =>
    obtain ⟨hd, hlen, -⟩ := advanceDraws_spec { e with f := g } p hp
    obtain ⟨sl, hsl⟩ := ih (hlen.trans hp)
    exact ⟨sl, by rw [List.foldl_cons, hsl, hd]⟩

theorem matDraws_slices (e : Issuer) (octs : List Nat) {p : Pack} (hp : p.slices.length = e.p.slices.length) :
    ∃ sl, matDraws e octs p = { p with slices := sl } :=
  foldl_advanceDraws_slices e _ hp

/-- The state after the draws of a tensor whose format takes them. -/
def mstDrawn (e : Issuer) (octs : List Nat) (w : Nat) (v : State) : State :=
  if tFmt w = 0 then putPack v e.ref.blk (matDraws e octs (refresh v e).p) else v

/-- Draws keep the issuer's place, its block and what its pack counts. -/
theorem issuer_mstDrawn {v : State} {e w' : Issuer} (hi : issuerAt v e.ref = some w') (hl : w'.p.slices.length = e.p.slices.length)
    (octs : List Nat) (w : Nat) : (mstDrawn e octs w v).nextId = v.nextId ∧ (mstDrawn e octs w v).engine = v.engine ∧
      ∃ e', issuerAt (mstDrawn e octs w v) e.ref = some e' ∧ e'.b.acc = w'.b.acc ∧ e'.b.passes = w'.b.passes ∧
        e'.p = { w'.p with slices := e'.p.slices } := by
  unfold mstDrawn
  split
  · obtain ⟨href, hb, -, -, hf⟩ := issuerAt_eq.1 hi
    obtain ⟨sl, hsl⟩ := matDraws_slices e octs hl
    rw [refresh_of hi, putPack_eq hb, hsl, ← href]
    rw [← href] at hi hf
    exact ⟨rfl, rfl, _, issuerAt_set hi (p := { w'.p with slices := sl }) rfl rfl hf, rfl, rfl, rfl⟩
  · exact ⟨rfl, rfl, w', hi, rfl, rfl, rfl⟩

/-! ## MST -/

/-- The tiles that the octets of an MST drain. -/
def mstTiles (e : Issuer) (x : X64) : List Nat := (todoOctets e.p e.f).map fun o => x.tile.toNat + o

/-- What each octet drains, to a tensor of entry w. -/
def mstJobs (s : State) (e : Issuer) (x : X64) (add : Bool) (w : Nat) : List (List DrainElem) :=
  (todoOctets e.p e.f).map fun o => drainElems s e x add w (coordOf' e x.reg).1 (coordOf' e x.reg).2 o

/-- The bytes of the stash that some drains write. -/
def drainRanges (jobs : List (List DrainElem)) : List (Nat × Nat) :=
  (jobs.flatten.filter fun d => d.stash).map fun d => (d.addr, d.size)

/-- What an MST meets whose octets are there and whose operand, entry, tiles and rectangles pass their checks. -/
structure MstMeets (s : State) (e : Issuer) (x : X64) (add : Bool) (w a : Nat) : Prop where
  issues : IssuesAlone s e
  ready : pairReady e.p e.f = true
  todo : todoOctets e.p e.f ≠ []
  operand : uniCause e [coordOpnd x.reg] = none
  entry : entryOf s e x.tid.toNat = .ok (w, a)
  valid : entryOk w = true
  dense : tSparse w = false
  fmt : add = true → 2 ≤ tFmt w
  tiles : ∀ o ∈ todoOctets e.p e.f, x.tile.toNat + o < pkAcc (launchWord e.l) ∧
    rectFaults s e .write (if reducesCols w then .write else .read) w ((coordOf' e x.reg).1 + 8 * o) 8 ((coordOf' e x.reg).2 * 128) 128 = []

/-- Its drains may begin: nothing is in flight on its tiles, none has an element in error, and there is room (R104, R137, R180, R538). -/
structure MstOpen (s : State) (e : Issuer) (x : X64) (add : Bool) (w : Nat) : Prop where
  quiet : ∀ p ∈ e.b.passes, p.tile ∉ mstTiles e x
  sound : ∀ o ∈ todoOctets e.p e.f, (spGet {} e.b.acc (x.tile.toNat + o)).errs = []
  round : needsRound e = false
  room : classCount e.p .drain + (todoOctets e.p e.f).length ≤ 255
  entries : tStash w = true → scoreUsed s e.b.core + (todoOctets e.p e.f).length ≤ Config.scoreEntries
  held : memHold s e (((mstJobs s e x add w).flatten.filter fun d => !d.stash).map (·.addr) ++
    fillPas s e.l.ctx (inSup e.f) e.b (drainRanges (mstJobs s e x add w))) = none

/-- The state in which its drains have begun. -/
def mstBegun (s : State) (e : Issuer) (x : X64) (add : Bool) (w : Nat) : State :=
  (mstJobs s e x add w).foldl (fun s j => drainStart e s (add, j)) (fillLines s e (drainRanges (mstJobs s e x add w)))

theorem tilesQuiet_iff (b : Block) (ts : List Nat) : tilesQuiet b (.tiles ts) = true ↔ ∀ p ∈ b.passes, p.tile ∉ ts := by
  simp [tilesQuiet]

theorem readErrs_nil {e : Issuer} {x : X64} {octs : List Nat} {sel : Nat → Bool}
    (h : ∀ o ∈ octs, (spGet {} e.b.acc (x.tile.toNat + o)).errs = []) : readErrs e x octs sel = [] :=
  List.flatMap_eq_nil_iff.2 fun o ho => by rw [h o ho]; rfl

section
variable {s : State} {e : Issuer} {x : X64} {add : Bool} {w a : Nat} (hm : MstMeets s e x add w a)
include hm

/-- Past its checks MST waits for the passes on its tiles, and begins its drains when they may. -/
theorem mstAct_checked : ∃ k, mstAct s e x add = matIssue s e noRes k ∧
    ((∃ p ∈ e.b.passes, p.tile ∈ mstTiles e x) → k (todoOctets e.p e.f) = .wait .pairing (.tiles (mstTiles e x))) ∧
    (MstOpen s e x add w → k (todoOctets e.p e.f) = .ok (mstDrawn e (todoOctets e.p e.f) w (mstBegun s e x add w)) {}) := by
  have huse : useFaults w a (!tSparse w && (!add || decide (2 ≤ tFmt w))) = [] :=
    useFaults_nil hm.valid (by rw [hm.dense]; cases add <;> simp [hm.fmt])
  unfold mstAct
  rw [hm.operand]
  refine ⟨_, rfl, fun hp => ?_, fun hopen => ?_⟩
  all_goals
    rw [hm.entry]
    dsimp only
    rw [huse, matTrap_none (List.forall_mem_map.2 fun o ho => by
      obtain ⟨hlt, hrect⟩ := hm.tiles o ho
      exact List.append_eq_nil_iff.2 ⟨beyond_nil hlt, hrect⟩)]
    dsimp only
  · have hbusy : tilesQuiet e.b (.tiles (mstTiles e x)) = false := by
      rw [← Bool.not_eq_true, tilesQuiet_iff]
      simpa using hp
    exact if_pos (by rw [← mstTiles, hbusy]; rfl)
  · have hquiet := (tilesQuiet_iff _ _).2 hopen.quiet
    rw [← mstTiles, hquiet, hopen.round, if_neg (by simp), if_neg Bool.false_ne_true, if_neg (Nat.not_lt.2 hopen.room),
      if_neg (by simpa using hopen.entries), readErrs_nil hopen.sound, ← mstJobs, ← drainRanges, hopen.held]
    rfl

theorem mst_waits {i : Instr} (hx : exec i s = issueOctet s fun e => mstAct s e x add) (hp : ∃ p ∈ e.b.passes, p.tile ∈ mstTiles e x) :
    Waits i s e .pairing (.tiles (mstTiles e x)) := by
  obtain ⟨k, ha, hwait, -⟩ := mstAct_checked hm
  exact waits_octet hx hm.issues hm.ready hm.todo ha (hwait hp)

/-- Lines move, one drain of each octet begins, and draw counters advance. -/
theorem mst_begins {i : Instr} (hx : exec i s = issueOctet s fun e => mstAct s e x add) (hopen : MstOpen s e x add w) :
    Performs i s e fun v r => r = {} ∧ v.nextId = s.nextId + (todoOctets e.p e.f).length ∧
      v.engine = s.engine ++ (mstJobs s e x add w).mapIdx (fun i => drainOp e add (s.nextId + i)) ∧
      ∃ e', issuerAt v e.ref = some e' ∧ e'.b.acc = e.b.acc ∧ e'.b.passes = e.b.passes ∧
        e'.p.eng = e.p.eng ++ (mstJobs s e x add w).mapIdx (fun i _ => drainCount (s.nextId + i)) ∧
        e'.p.s = e.p.s ∧ e'.p.lclock = e.p.lclock := by
  obtain ⟨k, ha, -, hok⟩ := mstAct_checked hm
  obtain ⟨w', hw'⟩ := drainsBegun_linesMoved (linesMoved_fillLines s e (drainRanges (mstJobs s e x add w))) hm.issues.1.2 add
    (mstJobs s e x add w)
  rw [← mstBegun] at hw'
  obtain ⟨hid, hops, e', he', hacc, hpasses, hpack⟩ := issuer_mstDrawn hw'.issuer (by rw [hw'.pack]) (todoOctets e.p e.f) w
  rw [hw'.pack] at hpack
  refine performs_octet hx hm.issues hm.ready hm.todo ha (hok hopen) he'
    ⟨rfl, ?_, hops.trans hw'.engine, e', he', hacc.trans hw'.acc, hpasses.trans hw'.passes, ?_⟩
  · rw [hid, hw'.nextId, mstJobs, List.length_map]
  · rw [hpack]
    exact ⟨rfl, rfl, rfl⟩

end

/-- Settles O37: past the checks of MST each octet's drain begins in turn, the lines that they write being filled first. -/
theorem drains : Obligations.Drains := by
  unfold Obligations.Drains
  intro s e x h hready htodo octs tiles c hop w a hentry hvalid hdense htiles
  have meets : ∀ {add}, (add = true → 2 ≤ tFmt w) → MstMeets s e x add w a := fun hfmt =>
    ⟨h, hready, htodo, hop, hentry, hvalid, hdense, hfmt, htiles⟩
  refine List.forall_mem_cons.2 ⟨fun hfmt => ?_, List.forall_mem_singleton.2 fun hfmt => ?_⟩
  all_goals
    exact ⟨mst_waits (meets hfmt) rfl, fun hquiet hsound hround hroom hentries hheld =>
      mst_begins (meets hfmt) rfl ⟨hquiet, hsound, hround, hroom, hentries, hheld⟩⟩

end Sys2Proof.Proofs
end

section
/-! Family 06_numbers: floating point and FSTAT. The body of each instruction is a computation lane by lane, or a change of the
copies of the fragment's slices. -/

namespace Sys2Proof.Proofs

open Sys2Proof Sys2Proof.Machine Sys2Proof.Safety Sys2Proof.Laws

/-! ## Computations element by element (R302 to R310) -/

/-- An instruction whose body is an operation on the elements of its three sources. -/
theorem gives_elements {i : Instr} {s : State} {e : Issuer} {g : Gen} {f : Fmt → Rnd → (Nat → Nat) → Nat × Nat}
    (hx : exec i s = issue s 8 .any false fun e => floatAct s e g (srcs3 g) f) :
    Gives i s e 8 g.pred (srcs3 g) g.dst g.nowb (nregs g.ty) false (floatVal g.ty g.rnd g.sat f) :=
  gives_float hx rfl

/-- An instruction whose body computes each lane's result and flags from that lane's sources, and draws nothing. -/
theorem gives_lanes {i : Instr} {s : State} {e : Issuer} {pr : Pred} {srcs : List Opnd} {d : Dst} {nowb : Bool} {n : Nat}
    {f : (Nat → Nat) → Nat × Nat} {val : (Nat → Nat → Nat) → Nat → Nat × Nat}
    (hx : exec i s = issue s 8 .any false fun e => alu s e pr srcs d nowb n (perLane e d fun v _ => f v) id)
    (hv : val = fun rd l => f fun i => rd i l) : Gives i s e 8 pr srcs d nowb n false val :=
  gives_perLane hx (.inl rfl) rfl hv

/-- Settles O4: every instruction computes lane by lane, those of R302 to R304 and R307 element by element of their own type. -/
theorem floatingPoint : Obligations.FloatingPoint := by
  unfold Obligations.FloatingPoint
  intro s e g
  refine ⟨?_, gives_lanes rfl rfl, gives_lanes rfl rfl, gives_lanes rfl rfl, gives_lanes rfl rfl⟩
  simp only [List.forall_mem_cons]
  exact ⟨gives_elements rfl, gives_elements rfl, gives_elements rfl, gives_elements rfl, gives_elements rfl, gives_elements rfl,
    gives_elements rfl, gives_elements rfl, gives_elements rfl, gives_elements rfl, gives_elements rfl, gives_elements rfl,
    gives_elements rfl, List.forall_mem_nil _⟩

/-! ## The copies of FPSTAT (R204, R315) -/

/-- Settles O7: the three forms read the same OR and differ in what they make of a copy. -/
theorem fstatCopies : Obligations.FstatCopies := by
  unfold Obligations.FstatCopies
  intro s e g
  simp only [List.forall_mem_cons]
  exact ⟨yields_fstat g (fun c _ => c) rfl, yields_fstat g (fun c m => c &&& ~~~ m) rfl, yields_fstat g (fun c m => c ||| m) rfl,
    List.forall_mem_nil _⟩

end Sys2Proof.Proofs
end

section
/-! O59: decoding gives back what was encoded (R224 to R253). The bytes of a word are its number again, each code and each layout
is read as it was written, and each opcode's instruction is the one whose word holds it. -/

namespace Sys2Proof.Proofs

open Sys2Proof Sys2Proof.Machine Sys2Proof.Safety Sys2Proof.Laws

/-! ## Bytes (R9) -/

@[simp] theorem length_leBytes (n x : Nat) : (leBytes n x).length = n := by
  induction n generalizing x with
  | zero => rfl
  | succ n ih => rw [leBytes, List.length_cons, ih]

theorem ofLeBytes_leBytes (n x : Nat) : ofLeBytes (leBytes n x) = x % 256 ^ n := by
  induction n generalizing x with
  | zero => rw [Nat.pow_zero, Nat.mod_one]; rfl
  | succ n ih =>
    rw [leBytes, ofLeBytes, ih, BitVec.toNat_ofNat, pow_succ' 256 n]
    exact Nat.mod_mul.symm

theorem take_leBytes {k n : Nat} (h : k ≤ n) (x : Nat) : (leBytes n x).take k = leBytes k x := by
  induction n generalizing k x with
  | zero => rw [Nat.le_zero.1 h]; rfl
  | succ n ih =>
    cases k with
    | zero => rfl
    | succ k => rw [leBytes, leBytes, List.take_succ_cons, ih (Nat.le_of_succ_le_succ h)]

/-- The first k bytes of a word of n bytes hold its low part, whatever follows. -/
theorem ofLeBytes_take {k n : Nat} (h : k ≤ n) (x : Nat) (more : List Byte) :
    ofLeBytes ((leBytes n x ++ more).take k) = x % 256 ^ k := by
  rw [List.take_append_of_le_length (by rwa [length_leBytes]), take_leBytes h, ofLeBytes_leBytes]

/-- The first parcel of a word gives its length (R224). -/
theorem parcelsOf_firstParcel (w : Nat) : parcelsOf (w % 256 ^ 2) = parcelsOf w := by
  have h2 : w % 256 ^ 2 % 2 = w % 2 := by omega
  have h4 : w % 256 ^ 2 % 4 = w % 4 := by omega
  rw [parcelsOf, h2, h4, parcelsOf]

theorem decode_leBytes {w n : Nat} (hn : 1 ≤ n) (hw : w < 2 ^ (16 * n)) (hp : parcelsOf w = n) (more : List Byte) :
    decode (leBytes (2 * n) w ++ more) = decodeWord w := by
  have hpow : (256 : Nat) ^ (2 * n) = 2 ^ (16 * n) := by
    rw [show (256 : Nat) = 2 ^ 8 from rfl, ← Nat.pow_mul, ← Nat.mul_assoc]
  have hlen : parcelsOf (ofLeBytes ((leBytes (2 * n) w ++ more).take 2)) = n := by
    rw [ofLeBytes_take (by omega), parcelsOf_firstParcel, hp]
  unfold decode
  dsimp only
  rw [hlen, ofLeBytes_take (Nat.le_refl _), hpow, Nat.mod_eq_of_lt hw]
  exact if_neg (by rw [List.length_append, length_leBytes]; omega)

/-! ## Codes: each reads back what it was written for -/

@[simp] theorem srcOfCode_srcCode (x : Src) : srcOfCode (srcCode x % 2 ^ 8) = .ok x := by
  cases x with
  | v n | s n | b n | q n | k n | c n =>
    have := n.isLt
    simp (disch := omega) only [srcCode, srcOfCode, Nat.mod_eq_of_lt, if_pos, if_neg, Nat.add_sub_cancel_left,
      BitVec.ofNat_toNat, BitVec.setWidth_eq]
  | unused => rfl

@[simp] theorem dstOfCode_dstCode (d : Dst) : dstOfCode (dstCode d % 2 ^ 8) = .ok d := by
  cases d with
  | v n | s n | q n | p n =>
    have := n.isLt
    simp (disch := omega) only [dstCode, dstOfCode, Nat.mod_eq_of_lt, if_pos, if_neg, Nat.add_sub_cancel_left,
      BitVec.ofNat_toNat, BitVec.setWidth_eq]
  | null => rfl

@[simp] theorem src6OfCode_src6Code (x : Src6) : src6OfCode (src6Code x % 2 ^ 6) = x := by
  cases x with
  | v n | s n | b n | k n =>
    have := n.isLt
    simp (disch := omega) only [src6Code, src6OfCode, Nat.mod_eq_of_lt, if_pos, if_neg, Nat.add_sub_cancel_left,
      BitVec.ofNat_toNat, BitVec.setWidth_eq]

@[simp] theorem decide_bit (b : Bool) : decide (bit b % 2 = 1) = b := by cases b <;> rfl

@[simp] theorem predOfCode_predCode (p : Pred) : predOfCode (predCode p) = p := by
  obtain ⟨neg, idx⟩ := p
  have hi := idx.isLt
  have hidx : BitVec.ofNat 3 (8 * bit neg + idx.toNat) = idx :=
    BitVec.eq_of_toNat_eq (by rw [BitVec.toNat_ofNat]; omega)
  have hneg : decide ((8 * bit neg + idx.toNat) / 8 % 2 = 1) = neg := by
    rw [show (8 * bit neg + idx.toNat) / 8 = bit neg by omega]
    exact decide_bit neg
  rw [predOfCode, predCode, hidx, hneg]

@[simp] theorem predCode_lt (p : Pred) : predCode p < 16 := by
  have := p.idx.isLt
  unfold predCode bit
  split <;> omega

@[simp] theorem predCode_mod4 (p : Pred) : predCode p % 2 ^ 4 = predCode p := Nat.mod_eq_of_lt (predCode_lt p)
@[simp] theorem predCode_mod8 (p : Pred) : predCode p % 2 ^ 8 = predCode p :=
  Nat.mod_eq_of_lt (Nat.lt_trans (predCode_lt p) (by decide))

@[simp] theorem tyOfCode_tyCode (t : Ty) : tyOfCode (tyCode t % 2 ^ 4) = .ok t := by cases t <;> rfl
@[simp] theorem rndOfCode_rndCode (r : Rnd) : rndOfCode (rndCode r % 2 ^ 2) = r := by cases r <;> rfl
@[simp] theorem scopeOfCode_scopeCode (x : Scope) : scopeOfCode (scopeCode x % 2 ^ 2) = x := by cases x <;> rfl
@[simp] theorem orderOfCode_orderCode (x : Order) : orderOfCode (orderCode x % 2 ^ 2) = x := by cases x <;> rfl
@[simp] theorem widthOfCode_widthCode (x : Width) : widthOfCode (widthCode x % 2 ^ 4) = .ok x := by cases x <;> rfl
@[simp] theorem condOfCode_condCode (c : Cond) : condOfCode (condCode c % 2 ^ 4) = c := by cases c <;> rfl
@[simp] theorem extOfCode_extCode (x : MoviExt) : extOfCode (extCode x % 2 ^ 2) = x := by cases x <;> rfl
@[simp] theorem specialOfCode_specialCode (r : SpecialReg) : specialOfCode (specialCode r % 2 ^ 8) = .ok r := by cases r <;> rfl

/-! ## Layouts: each reads back what was written in it -/

@[simp] theorem splitFields_cons (n v : Nat) (ns : List Nat) (fs : List (Nat × Nat)) :
    splitFields (n :: ns) (joinFields ((v, n) :: fs)) = v % 2 ^ n :: splitFields ns (joinFields fs) := by
  rw [splitFields, joinFields_head, joinFields, Nat.add_mul_div_left _ _ (Nat.two_pow_pos n),
    Nat.div_eq_of_lt (Nat.mod_lt _ (Nat.two_pow_pos n)), Nat.zero_add]

@[simp] theorem splitFields_nil (w : Nat) : splitFields [] w = [] := rfl

@[simp] theorem ok_bind {α β ε : Type} (a : α) (f : α → Except ε β) : (Except.ok a >>= f) = f a := rfl

@[simp] theorem genOf_genWord (op : Nat) (g : Gen) : genOf (genWord op g) = .ok g := by
  simp [genOf, genLayout, genWord, -Nat.reducePow]

@[simp] theorem movsrOf_movsrWord (m : Movsr) : movsrOf (movsrWord m) = .ok m := by
  simp [movsrOf, genLayout, movsrWord, -Nat.reducePow, show 255 % 2 ^ 8 = 255 from rfl]

/-- The truth table of PLOP in its two halves (R291). -/
theorem lut_halves (x : BitVec 8) : BitVec.ofNat 8 (x.toNat / 16 % 2 ^ 4 * 16 + x.toNat % 16 % 2 ^ 4) = x := by
  have := x.isLt
  exact BitVec.eq_of_toNat_eq (by rw [BitVec.toNat_ofNat]; omega)

@[simp] theorem plopOf_plopWord (p : Plop) : plopOf (plopWord p) = .ok p := by
  have hd : dstOfCode ((208 + p.dst.toNat) % 2 ^ 8) = .ok (.p p.dst) := dstOfCode_dstCode (.p p.dst)
  simp [plopOf, genLayout, plopWord, -Nat.reducePow, hd, lut_halves, show 13 % 2 ^ 4 = 13 from rfl]

@[simp] theorem m64Of_m64Word (op : Nat) (m : M64) : m64Of (m64Word op m) = .ok m := by
  simp [m64Of, m64Word, -Nat.reducePow]

@[simp] theorem j64Of_j64Word (op : Nat) (j : J64) : j64Of (j64Word op j) = .ok j := by
  simp [j64Of, j64Word, -Nat.reducePow]

@[simp] theorem brcOf_brcWord (c : Brc) : brcOf (brcWord c) = .ok c := by
  simp [brcOf, brcWord, -Nat.reducePow]

@[simp] theorem brvOf_brvWord (v : Brv) : brvOf (brvWord v) = .ok v := by
  simp [brvOf, brvWord, -Nat.reducePow]

@[simp] theorem moviOf_moviWord (m : Movi) : moviOf (moviWord m) = .ok m := by
  simp [moviOf, moviWord, -Nat.reducePow]

@[simp] theorem x64Of_x64Word (op : Nat) (x : X64) : x64Of (x64Word op x) = .ok x := by
  simp [x64Of, x64Word, -Nat.reducePow, show 7 % 2 ^ 4 = 7 from rfl]

@[simp] theorem g64Of_g64Word (op : Nat) (g : G64) : g64Of (g64Word op g) = .ok g := by
  simp [g64Of, g64Word, -Nat.reducePow]

theorem c16Of_c16Word {op4 : Nat} (h : op4 < 15) (c : C16) : c16Of (c16Word op4 c) = c16Instr op4 c := by
  have ho : op4 % 2 ^ 4 = op4 := Nat.mod_eq_of_lt (by omega)
  simp [c16Of, c16Word, -Nat.reducePow, ho, show op4 ≠ 15 by omega]

theorem a32Of_a32Word {op6 : Nat} (h : op6 < 30) (a : A32) : a32Of (a32Word op6 a) = a32Instr op6 a := by
  have ho : op6 % 2 ^ 6 = op6 := Nat.mod_eq_of_lt (by omega)
  simp [a32Of, a32Word, -Nat.reducePow, ho, show op6 ≠ 56 by omega, show op6 ≠ 57 by omega, show ¬ 30 ≤ op6 by omega]

theorem a32Branch_reads (op6 : Nat) (h : op6 < 64) (off : BitVec 24) :
    a32Branch op6 off / 256 = off.toNat ∧ a32Branch op6 off / 4 % 64 = op6 := by
  have := off.isLt
  simp only [a32Branch, joinFields]
  omega

theorem a32Of_a32Branch_bra (off : BitVec 24) : a32Of (a32Branch 56 off) = .ok (.braA32 off) := by
  obtain ⟨hoff, hop⟩ := a32Branch_reads 56 (by decide) off
  simp [a32Of, splitFields, hop, hoff]

theorem a32Of_a32Branch_call (off : BitVec 24) : a32Of (a32Branch 57 off) = .ok (.callA32 off) := by
  obtain ⟨hoff, hop⟩ := a32Branch_reads 57 (by decide) off
  simp [a32Of, splitFields, hop, hoff]

/-! ## The route from an opcode to its layout (R254) -/

theorem op8_joinFields (op : Nat) (fs : List (Nat × Nat)) : joinFields ((3, 2) :: (op, 8) :: fs) / 4 % 256 = op % 256 := by
  simp only [joinFields]
  omega

/-! The opcodes of the layouts that several instructions share. -/

abbrev J64Op (op : Nat) : Prop := op = 0x01 ∨ (0x04 ≤ op ∧ op ≤ 0x07)
abbrev M64Op (op : Nat) : Prop := (0x70 ≤ op ∧ op ≤ 0x79) ∨ op = 0x7f
abbrev X64Op (op : Nat) : Prop := 0xa0 ≤ op ∧ op ≤ 0xae
abbrev G64Op (op : Nat) : Prop := 0xc0 ≤ op ∧ op ≤ 0xc8
abbrev GenOp (op : Nat) : Prop :=
  op < 256 ∧ op ∉ [0x02, 0x03, 0x3b, 0x3c, 0x3e] ∧ ¬ J64Op op ∧ ¬ M64Op op ∧ ¬ X64Op op ∧ ¬ G64Op op

theorem e64Instr_brcWord (c : Brc) : e64Instr (brcWord c) = .ok (.brc c) := by
  have hop : brcWord c / 4 % 256 = 0x02 := op8_joinFields 0x02 _
  simp [e64Instr, hop, Except.map]

theorem e64Instr_brvWord (v : Brv) : e64Instr (brvWord v) = .ok (.brv v) := by
  have hop : brvWord v / 4 % 256 = 0x03 := op8_joinFields 0x03 _
  simp [e64Instr, hop, Except.map]

theorem e64Instr_movsrWord (m : Movsr) : e64Instr (movsrWord m) = .ok (.movsr m) := by
  have hop : movsrWord m / 4 % 256 = 0x3b := op8_joinFields 0x3b _
  simp [e64Instr, hop, Except.map]

theorem e64Instr_moviWord (m : Movi) : e64Instr (moviWord m) = .ok (.movi m) := by
  have hop : moviWord m / 4 % 256 = 0x3c := op8_joinFields 0x3c _
  simp [e64Instr, hop, Except.map]

theorem e64Instr_plopWord (q : Plop) : e64Instr (plopWord q) = .ok (.plop q) := by
  have hop : plopWord q / 4 % 256 = 0x3e := op8_joinFields 0x3e _
  simp [e64Instr, hop, Except.map]

theorem e64Instr_j64Word {op : Nat} (h : J64Op op) (j : J64) : e64Instr (j64Word op j) = j64Instr op j := by
  have hop : j64Word op j / 4 % 256 = op := (op8_joinFields op _).trans (Nat.mod_eq_of_lt (by omega))
  simp (disch := omega) only [e64Instr, hop, if_neg, if_pos, j64Of_j64Word]
  rfl

theorem e64Instr_m64Word {op : Nat} (h : M64Op op) (m : M64) : e64Instr (m64Word op m) = m64Instr op m := by
  have hop : m64Word op m / 4 % 256 = op := (op8_joinFields op _).trans (Nat.mod_eq_of_lt (by omega))
  simp (disch := omega) only [e64Instr, hop, if_neg, if_pos, m64Of_m64Word]
  rfl

theorem e64Instr_x64Word {op : Nat} (h : X64Op op) (x : X64) : e64Instr (x64Word op x) = x64Instr op x := by
  have hop : x64Word op x / 4 % 256 = op := (op8_joinFields op _).trans (Nat.mod_eq_of_lt (by omega))
  simp (disch := omega) only [e64Instr, hop, if_neg, if_pos, x64Of_x64Word]
  rfl

theorem e64Instr_g64Word {op : Nat} (h : G64Op op) (g : G64) : e64Instr (g64Word op g) = g64Instr op g := by
  have hop : g64Word op g / 4 % 256 = op := (op8_joinFields op _).trans (Nat.mod_eq_of_lt (by omega))
  simp (disch := omega) only [e64Instr, hop, if_neg, if_pos, g64Of_g64Word]
  rfl

theorem e64Instr_genWord {op : Nat} (h : GenOp op) (g : Gen) : e64Instr (genWord op g) = genInstr op g := by
  obtain ⟨hlt, hone, hj, hm, hx, hg⟩ := h
  simp only [List.mem_cons, List.not_mem_nil, or_false, not_or] at hone
  obtain ⟨h02, h03, h3b, h3c, h3e⟩ := hone
  have hop : genWord op g / 4 % 256 = op := (op8_joinFields op _).trans (Nat.mod_eq_of_lt hlt)
  unfold e64Instr
  dsimp only
  rw [hop, if_neg h02, if_neg h03, if_neg h3b, if_neg h3c, if_neg h3e, if_neg hj, if_neg hm, if_neg hx, if_neg hg, genOf_genWord]
  rfl

/-! ## Instructions whose words read back -/

/-- What the bits of a word encode, before its acceptance (R257). -/
def wordInstr (w : Nat) : Except Reject Instr :=
  if parcelsOf w = 1 then c16Of w else if parcelsOf w = 2 then a32Of w else e64Instr w

/-- A word whose instruction is accepted decodes to it (R257). -/
theorem decodeWord_of_reads {w : Nat} {i : Instr} (h : wordInstr w = .ok i) (hwf : i.wf = true) :
    decodeWord w = .instr i (parcelsOf w) := by
  unfold wordInstr at h
  simp only [decodeWord, h, hwf, if_true]

/-- An instruction's word has the length that its first parcel gives, and reads as the instruction. -/
structure Recoded (i : Instr) : Prop where
  fits : encode i < 2 ^ (16 * i.parcels)
  length : parcelsOf (encode i) = i.parcels
  reads : wordInstr (encode i) = .ok i

/-- A word of four parcels that reads as its instruction. -/
theorem recoded_e64 {i : Instr} {fs : List (Nat × Nat)} (he : encode i = joinFields ((3, 2) :: fs)) (hs : (fs.map (·.2)).sum = 62)
    (hp : i.parcels = 4) (hi : e64Instr (encode i) = .ok i) : Recoded i := by
  obtain ⟨hlt, hlen⟩ := coded_e64 fs hs
  rw [← he] at hlt hlen
  exact ⟨by rwa [hp], hlen.trans hp.symm, by rw [wordInstr, hlen]; exact hi⟩

theorem recoded_gen {i : Instr} {op : Nat} {g : Gen} (he : encode i = genWord op g) (hp : i.parcels = 4) (ho : GenOp op)
    (hi : genInstr op g = .ok i) : Recoded i :=
  recoded_e64 he rfl hp (by rw [he, e64Instr_genWord ho, hi])

/-- An instruction of an opcode whose rows opx tells apart. -/
theorem recoded_row {f : Gen → Instr} {op : Nat} {g : Gen} {n : BitVec 4} (hn : g.opx = n) (he : encode (f g) = genWord op g)
    (hp : (f g).parcels = 4) (ho : GenOp op)
    (hi : genInstr op { g with opx := n } = .ok (f { g with opx := n })) : Recoded (f g) := by
  subst hn
  exact recoded_gen he hp ho hi

theorem recoded_j64 {i : Instr} {op : Nat} {j : J64} (he : encode i = j64Word op j) (hp : i.parcels = 4) (ho : J64Op op)
    (hi : j64Instr op j = .ok i) : Recoded i :=
  recoded_e64 he rfl hp (by rw [he, e64Instr_j64Word ho, hi])

theorem recoded_m64 {i : Instr} {op : Nat} {m : M64} (he : encode i = m64Word op m) (hp : i.parcels = 4) (ho : M64Op op)
    (hi : m64Instr op m = .ok i) : Recoded i :=
  recoded_e64 he rfl hp (by rw [he, e64Instr_m64Word ho, hi])

theorem recoded_x64 {i : Instr} {op : Nat} {x : X64} (he : encode i = x64Word op x) (hp : i.parcels = 4) (ho : X64Op op)
    (hi : x64Instr op x = .ok i) : Recoded i :=
  recoded_e64 he rfl hp (by rw [he, e64Instr_x64Word ho, hi])

theorem recoded_g64 {i : Instr} {op : Nat} {g : G64} (he : encode i = g64Word op g) (hp : i.parcels = 4) (ho : G64Op op)
    (hi : g64Instr op g = .ok i) : Recoded i :=
  recoded_e64 he rfl hp (by rw [he, e64Instr_g64Word ho, hi])

/-- The same of a word of two parcels. -/
theorem recoded_twoParcels {i : Instr} {fs : List (Nat × Nat)} (he : encode i = joinFields ((1, 2) :: fs))
    (hs : (fs.map (·.2)).sum = 30) (hp : i.parcels = 2) (hi : a32Of (encode i) = .ok i) : Recoded i := by
  obtain ⟨hlt, hlen⟩ := coded_a32 fs hs
  rw [← he] at hlt hlen
  exact ⟨by rwa [hp], hlen.trans hp.symm, by rw [wordInstr, hlen]; exact hi⟩

/-- The same of a word of one parcel. -/
theorem recoded_oneParcel {i : Instr} {fs : List (Nat × Nat)} (he : encode i = joinFields ((0, 1) :: fs))
    (hs : (fs.map (·.2)).sum = 15) (hp : i.parcels = 1) (hi : c16Of (encode i) = .ok i) : Recoded i := by
  obtain ⟨hlt, hlen⟩ := coded_c16 fs hs
  rw [← he] at hlt hlen
  exact ⟨by rwa [hp], hlen.trans hp.symm, by rw [wordInstr, hlen]; exact hi⟩

theorem recoded_a32 {i : Instr} {op6 : Nat} {a : A32} (he : encode i = a32Word op6 a) (hp : i.parcels = 2) (ho : op6 < 30)
    (hi : a32Instr op6 a = .ok i) : Recoded i :=
  recoded_twoParcels he rfl hp (by rw [he, a32Of_a32Word ho, hi])

theorem recoded_c16 {i : Instr} {op4 : Nat} {c : C16} (he : encode i = c16Word op4 c) (hp : i.parcels = 1) (ho : op4 < 15)
    (hi : c16Instr op4 c = .ok i) : Recoded i :=
  recoded_oneParcel he rfl hp (by rw [he, c16Of_c16Word ho, hi])

/-! ## The rows of one opcode, which opx or the flags of X64 tell apart (R243, R252) -/

section
variable {g : Gen} {n : BitVec 4}

theorem opx_of_acceptFstat (h : acceptFstat g n = true) : g.opx = n := by simp_all [acceptFstat]
theorem opx_of_acceptBararr (h : acceptBararr g n = true) : g.opx = n := by simp_all [acceptBararr]
theorem opx_of_acceptErtop (h : acceptErtop g n = true) : g.opx = n := by simp_all [acceptErtop]
theorem opx_of_acceptTaskdep (h : acceptTaskdep g n = true) : g.opx = n := by simp_all [acceptTaskdep]
theorem opx_of_acceptTlbinv (h : acceptTlbinv g n = true) : g.opx = n := by simp_all [acceptTlbinv]
theorem opx_of_acceptBiasflip (h : acceptBiasflip g n = true) : g.opx = n := by simp_all [acceptBiasflip]
theorem opx_of_acceptMigrate (h : acceptMigrate g n = true) : g.opx = n := by simp_all [acceptMigrate]
theorem opx_of_acceptTrap (h : acceptTrap g n = true) : g.opx = n := by simp_all [acceptTrap]
theorem opx_of_acceptRetf (h : acceptRetf g n = true) : g.opx = n := by simp_all [acceptRetf]
theorem kind_of_acceptBxfer {k : Nat} (h : acceptBxfer g k = true) : g.opx.toNat % 4 = k := by simp_all [acceptBxfer]

end

theorem flags_of_acceptMma {x : X64} (h : acceptMma x = true) : x.flags.toNat < 2 := by
  simp only [acceptMma, Bool.and_eq_true, decide_eq_true_eq] at h
  omega

theorem flags_of_acceptMmaRing {x : X64} (h : acceptMmaRing x = true) : ¬ x.flags.toNat < 2 := by
  simp only [acceptMmaRing, Bool.and_eq_true, Bool.or_eq_true, beq_iff_eq] at h
  omega

theorem flags_of_acceptMst {x : X64} {n : BitVec 6} (h : acceptMst x n = true) : x.flags = n := by simp_all [acceptMst]

/-! ## Every instruction of a pack -/

/-- Every instruction that its entry accepts has a word that reads back as it; an event has none (R254, R257). -/
theorem recoded_of_wf (i : Instr) (hwf : i.wf = true) (hp : i.parcels ≠ 0) : Recoded i := by
  cases i with
  | nop g | ret g | regang g | exit g | hold g | yield g | waitcnt g | waittag g | psplit g | pfuse g | iadd g | isub g
  | imul g | imulh g | imad g | imin g | imax g | iabsd g | and g | or g | xor g | andn g | shl g | shr g | sar g | rotl g
  | bfe g | bfi g | popc g | clz g | ctz g | brev g | prmt g | lea g | iset g | sel g | mov g | cvti g | shfl g | vote g
  | matchLanes g | redux g | scan g | rank g | bcast g | fadd g | fsub g | fmul g | ffma g | fmin g | fmax g | fset g | fdiv g
  | frcp g | fsqrt g | frsq g | fex2 g | flg2 g | frnd g | fscale g | fclass g | cvt g | tf8pk g | tf8up g | requant g | rng g
  | fence g | smap g | sunmap g | sflush g | barinit g | barwait g | barexp g | bartry g | qcfg g | append g | decline g
  | mstat g | gatecfg g | gdispatch g | mbmark g | taskdef g | kstat g | npost g | nrecv g | npoll g | larm g | launch g
  | srr g | srw g | capset g | mappg g | ctrread g =>
    exact recoded_gen rfl rfl (by decide) rfl
  | fstatRead g | fstatClear g | fstatSet g =>
    exact recoded_row (opx_of_acceptFstat hwf) rfl rfl (by decide) rfl
  | bararr g | bararrJoin g | bararrDrop g =>
    exact recoded_row (opx_of_acceptBararr hwf) rfl rfl (by decide) rfl
  | ertopDefine g | ertopFetch g | ertopEvict g | ertopPin g | ertopUnpin g | ertopRead g =>
    exact recoded_row (opx_of_acceptErtop hwf) rfl rfl (by decide) rfl
  | taskdepSet g | taskdepAdd g | taskdepSub g =>
    exact recoded_row (opx_of_acceptTaskdep hwf) rfl rfl (by decide) rfl
  | tlbinvPage g | tlbinvContext g | tlbinvAll g =>
    exact recoded_row (opx_of_acceptTlbinv hwf) rfl rfl (by decide) rfl
  | biasflipDev g | biasflipHost g =>
    exact recoded_row (opx_of_acceptBiasflip hwf) rfl rfl (by decide) rfl
  | migrateLocal g | migrateRemote g =>
    exact recoded_row (opx_of_acceptMigrate hwf) rfl rfl (by decide) rfl
  | trap g | trapDbg g =>
    exact recoded_row (opx_of_acceptTrap hwf) rfl rfl (by decide) rfl
  | retfRetry g | retfNext g | retfEsc g =>
    exact recoded_row (opx_of_acceptRetf hwf) rfl rfl (by decide) rfl
  | bxferLoad g => exact recoded_gen rfl rfl (by decide) (if_pos (kind_of_acceptBxfer hwf))
  | bxferStore g =>
    have hk : g.opx.toNat % 4 = 1 := kind_of_acceptBxfer hwf
    exact recoded_gen rfl rfl (by decide) ((if_neg (by omega)).trans (if_pos hk))
  | bxferRed g =>
    have hk : g.opx.toNat % 4 = 2 := kind_of_acceptBxfer hwf
    exact recoded_gen rfl rfl (by decide) ((if_neg (by omega)).trans ((if_neg (by omega)).trans (if_pos hk)))
  | bra j | brany j | brall j | jmp j | call j =>
    exact recoded_j64 rfl rfl (by decide) rfl
  | brc c => exact recoded_e64 rfl rfl rfl (e64Instr_brcWord c)
  | brv v => exact recoded_e64 rfl rfl rfl (e64Instr_brvWord v)
  | movsr m => exact recoded_e64 rfl rfl rfl (e64Instr_movsrWord m)
  | movi m => exact recoded_e64 rfl rfl rfl (e64Instr_moviWord m)
  | plop q => exact recoded_e64 rfl rfl rfl (e64Instr_plopWord q)
  | ld m | st m | lds m | sts m | ldc m | atom m | red m | cpl m | pref m | discard m | waitc m =>
    exact recoded_m64 rfl rfl (by decide) rfl
  | tdset x | tdget x | mldb x | mbrel x | mldmeta x | mzero x | mmasp x | mrda x | mwra x | ringinit x | ringput x
  | ringtake x | ringdone x =>
    exact recoded_x64 rfl rfl (by decide) rfl
  | mma x => exact recoded_x64 rfl rfl (by decide) (if_pos (flags_of_acceptMma hwf))
  | mmaRing x => exact recoded_x64 rfl rfl (by decide) (if_neg (flags_of_acceptMmaRing hwf))
  | mst x => exact recoded_x64 rfl rfl (by decide) (if_pos (flags_of_acceptMst hwf))
  | mstAdd x =>
    have hf : x.flags = 1#6 := flags_of_acceptMst hwf
    exact recoded_x64 rfl rfl (by decide) (if_neg (by rw [hf]; decide))
  | gpat g | gst g | gld g | gred g | gatom g | gscan g | gcopy g | gfence g | gwait g =>
    exact recoded_g64 rfl rfl (by decide) rfl
  | movC16 c | iaddC16 c | isubC16 c | imulC16 c | andC16 c | orC16 c | xorC16 c | shlC16 c | shrC16 c | sarC16 c | faddC16 c
  | fsubC16 c | fmulC16 c | fmaxC16 c | fminC16 c =>
    exact recoded_c16 rfl rfl (by decide) rfl
  | nopC16 | yieldC16 | retC16 | exitC16 =>
    exact recoded_oneParcel rfl rfl rfl rfl
  | movA32 a | iaddA32 a | isubA32 a | imulA32 a | imadA32 a | iminA32 a | imaxA32 a | andA32 a | orA32 a | xorA32 a
  | andnA32 a | shlA32 a | shrA32 a | sarA32 a | popcA32 a | clzA32 a | faddF32A32 a | fsubF32A32 a | fmulF32A32 a
  | ffmaF32A32 a | fminF32A32 a | fmaxF32A32 a | faddF16x2A32 a | fmulF16x2A32 a | ffmaF16x2A32 a | faddBf16x2A32 a
  | fmulBf16x2A32 a | ffmaBf16x2A32 a | shflXorA32 a | ldsA32 a =>
    exact recoded_a32 rfl rfl (by decide) rfl
  | braA32 off => exact recoded_twoParcels rfl rfl rfl (a32Of_a32Branch_bra off)
  | callA32 off => exact recoded_twoParcels rfl rfl rfl (a32Of_a32Branch_call off)
  | _ => exact absurd rfl hp

/-- Settles O59: the bytes of a word hold its number, and the word reads back as its instruction. -/
theorem decodeOfEncode : Obligations.DecodeOfEncode := by
  unfold Obligations.DecodeOfEncode
  intro i more hwf hp
  obtain ⟨hfits, hlen, hreads⟩ := recoded_of_wf i hwf hp
  rw [encodeBytes, decode_leBytes (Nat.one_le_iff_ne_zero.2 hp) hfits hlen, decodeWord_of_reads hreads hwf, hlen]

end Sys2Proof.Proofs
end

section
/-! O3, O8, O9: moves and selection, and the short forms (R226 to R232, R251, R287 to R291). The body of each instruction is a
computation lane by lane; that of a short form is its twin's over the fields that `c16Gen` or `a32Gen` gives it. -/

namespace Sys2Proof.Proofs

open Sys2Proof Sys2Proof.Machine Sys2Proof.Safety Sys2Proof.Laws

/-! ## Moves and selection (R251, R287 to R291) -/

/-- Settles O3: every instruction computes lane by lane; MOVI chooses its registers and value by its form. -/
theorem movesAndSelection : Obligations.MovesAndSelection := by
  unfold Obligations.MovesAndSelection
  rintro s e g m ⟨dst, nowb, pred, ext, imm⟩ q
  refine ⟨gives_lanes rfl rfl, gives_perLane rfl (.inl rfl) rfl rfl, gives_word rfl rfl, fun hsup => ?_,
    ?_, ?_, ?_, ?_, gives_perLane rfl (.inl rfl) rfl rfl⟩
  · refine gives_perLane rfl ?_ rfl rfl
    cases h : srSup m.sel with
    | false => exact .inl rfl
    | true => exact .inr (hsup h)
  all_goals
    rintro rfl
    exact gives_perLane rfl (.inl rfl) rfl rfl

/-! ## C16 (R226 to R229) -/

section
variable {i : Instr} {s : State} {e : Issuer} {c : C16} (t : Ty)

theorem gives_c16_int (x : (Nat → Int) → Int)
    (hx : exec i s = issue s 2 .any false fun e => intAct s e (c16Gen c t) (c16Srcs c t) x) :
    Gives i s e 2 alwaysPred (c16Srcs c t) (.v (c.vd.setWidth 7)) false (nregs t) false (intVal t false x) :=
  gives_int hx rfl

theorem gives_c16_bits (f : Nat → Nat → Nat → Nat)
    (hx : exec i s = issue s 2 .any false fun e => bitAct s e (c16Gen c t) (c16Srcs c t) f) :
    Gives i s e 2 alwaysPred (c16Srcs c t) (.v (c.vd.setWidth 7)) false (nregs t) false
      (wordVal fun v => f (tyBits t) (v 0) (v 1)) :=
  gives_word hx rfl

theorem gives_c16_float (f : Fmt → Rnd → (Nat → Nat) → Nat × Nat)
    (hx : exec i s = issue s 2 .any false fun e => floatAct s e (c16Gen c t) (c16Srcs c t) f) :
    Gives i s e 2 alwaysPred (c16Srcs c t) (.v (c.vd.setWidth 7)) false (nregs t) false (floatVal t .rne false f) :=
  gives_float hx rfl

end

/-- Settles O8: the body of each form is its twin's. -/
theorem shortFormsC16 : Obligations.ShortFormsC16 := by
  unfold Obligations.ShortFormsC16
  intro s e c
  simp only [List.forall_mem_cons]
  exact ⟨gives_word (g := c16Gen c .b32) rfl rfl,
    ⟨gives_c16_int .i32 xAdd rfl, gives_c16_int .i32 xSub rfl, gives_c16_int .i32 xMul rfl, List.forall_mem_nil _⟩,
    ⟨gives_c16_bits .b32 bitAnd rfl, gives_c16_bits .b32 bitOr rfl, gives_c16_bits .b32 bitXor rfl, gives_c16_bits .b32 shlBits rfl,
      gives_c16_bits .n32 shrBits rfl, gives_c16_bits .i32 sarBits rfl, List.forall_mem_nil _⟩,
    ⟨gives_c16_float .f32 opAdd rfl, gives_c16_float .f32 opSub rfl, gives_c16_float .f32 opMul rfl, gives_c16_float .f32 opMax rfl,
      gives_c16_float .f32 opMin rfl, List.forall_mem_nil _⟩⟩

/-! ## A32 (R230 to R232) -/

section
variable {i : Instr} {s : State} {e : Issuer} {a : A32} (t : Ty) {srcs : List Opnd}

theorem gives_a32_int (x : (Nat → Int) → Int)
    (hx : exec i s = issue s 4 .any false fun e => intAct s e (a32Gen a t) srcs x) :
    Gives i s e 4 alwaysPred srcs (.v a.vd) a.nowb (nregs t) false (intVal t false x) :=
  gives_int hx rfl

theorem gives_a32_bits (f : Nat → Nat → Nat → Nat)
    (hx : exec i s = issue s 4 .any false fun e => bitAct s e (a32Gen a t) srcs f) :
    Gives i s e 4 alwaysPred srcs (.v a.vd) a.nowb (nregs t) false (wordVal fun v => f (tyBits t) (v 0) (v 1)) :=
  gives_word hx rfl

theorem gives_a32_float (f : Fmt → Rnd → (Nat → Nat) → Nat × Nat)
    (hx : exec i s = issue s 4 .any false fun e => floatAct s e (a32Gen a t) srcs f) :
    Gives i s e 4 alwaysPred srcs (.v a.vd) a.nowb (nregs t) false (floatVal t .rne false f) :=
  gives_float hx rfl

/-- SHFL.xor.b32: a lane whose source is not there takes the unused operand, which reads zero (R232, R292). -/
theorem yields_shflXor : Yields (.shflXorA32 a) s e 4 alwaysPred [opn a.a .b32, opn32 a.b, opn .unused .b32] (.v a.vd) a.nowb 1
    (fun rd l => if liveHere e (l ^^^ (rd 1 l % e.p.width)) then rd 0 (l ^^^ (rd 1 l % e.p.width)) else 0) (fun _ _ c => c) :=
  yields_lanes rfl rfl [] (fun _ => rfl) (List.forall_mem_nil _) no_flags

end

/-- Settles O9: the body of each form is its twin's. -/
theorem shortFormsA32 : Obligations.ShortFormsA32 := by
  unfold Obligations.ShortFormsA32
  intro s e x
  simp only [List.forall_mem_cons]
  exact ⟨gives_word (g := a32Gen x .b32) rfl rfl,
    ⟨gives_a32_int .i32 xAdd rfl, gives_a32_int .i32 xSub rfl, gives_a32_int .i32 xMul rfl, gives_a32_int .i32 xMin rfl,
      gives_a32_int .i32 xMax rfl, List.forall_mem_nil _⟩,
    gives_a32_int .i32 xMad rfl,
    ⟨gives_a32_bits .b32 bitAnd rfl, gives_a32_bits .b32 bitOr rfl, gives_a32_bits .b32 bitXor rfl, gives_a32_bits .b32 bitAndn rfl,
      List.forall_mem_nil _⟩,
    ⟨gives_a32_bits .b32 shlBits rfl, gives_a32_bits .n32 shrBits rfl, gives_a32_bits .i32 sarBits rfl, List.forall_mem_nil _⟩,
    ⟨gives_a32_float .f32 opAdd rfl, gives_a32_float .f32 opSub rfl, gives_a32_float .f32 opMul rfl, gives_a32_float .f32 opMin rfl,
      gives_a32_float .f32 opMax rfl, gives_a32_float .f16x2 opAdd rfl, gives_a32_float .f16x2 opMul rfl,
      gives_a32_float .bf16x2 opAdd rfl, gives_a32_float .bf16x2 opMul rfl, List.forall_mem_nil _⟩,
    ⟨gives_a32_float .f32 (opFma false false) rfl, gives_a32_float .f16x2 (opFma false false) rfl,
      gives_a32_float .bf16x2 (opFma false false) rfl, List.forall_mem_nil _⟩,
    gives_word (g := a32Gen x .b32) rfl rfl, gives_word (g := a32Gen x .b32) rfl rfl, yields_shflXor⟩

end Sys2Proof.Proofs
end

section
/-! O10: branches of the whole fragment, jumps, calls and returns (R225, R263, R266, R267). The body of each is `branchAct` once its
target can be read. -/

namespace Sys2Proof.Proofs

open Sys2Proof Sys2Proof.Machine Sys2Proof.Safety Sys2Proof.Laws

theorem branchAct_valid {s : State} {e : Issuer} {a : DWord} (h : ValidTarget a) (link : Pack → Pack) :
    branchAct s e a link = .ok (setBlock s (setPack e.b (link e.p))) (goTo e a) := by
  rw [branchAct, targetCause_valid h]
  rfl

theorem branchAct_invalid {s : State} {e : Issuer} {a : DWord} (h : ¬ ValidTarget a) (link : Pack → Pack) :
    branchAct s e a link = .trap (trapLanes (if a.getLsbD 0 then 0x04 else 0x02)
      ((maskLanes e.p e.f).map fun l => (l, a.toNat))) := by
  rw [branchAct, targetCause_invalid h]
  rfl

/-- A return whose link pair can be read branches to the address that the pair holds (R267). -/
theorem retAct_linked {s : State} {e : Issuer} (h : uniCause e [linkOpnd] = none) : retAct s e =
    branchAct s e (BitVec.ofNat 64 ((getS (inSup e.f) e.p 62).toNat + 2 ^ 32 * (getS (inSup e.f) e.p 63).toNat)) id := by
  rw [retAct, h]
  rfl

section
variable {i : Instr} {s : State} {e : Issuer} {len : Nat} {body : Issuer → Act} {a : DWord} {link : Pack → Pack}

/-- A branch to a valid target leaves the pack as its link says, and its slices go there. -/
theorem branch_goes (hx : exec i s = issue s len .never false body) (h : IssuesAlone s e) (hb : body e = branchAct s e a link)
    (h1 : (link e.p).pidx = e.p.pidx) (h2 : (link e.p).pos = e.p.pos) (h3 : (link e.p).frags = e.p.frags) (ha : ValidTarget a) :
    ∃ m t, exec i s = .next t ∧ PackIs s m e (link e.p) ∧ Retired m t e len (goTo e a) := by
  obtain ⟨m, r, t, ht, hr, hp, rfl⟩ := completes_pack (P := fun m r => PackIs s m e (link e.p) ∧ r = goTo e a) hx h.1
    (burstOk_alone h.2 _) (.inl rfl) (hb.trans (branchAct_valid ha link)) h1 h2 h3 fun hp => ⟨hp, rfl⟩
  exact ⟨m, t, ht, hp, hr⟩

/-- A branch that leaves no link leaves its pack as it was. -/
theorem branch_goes_unlinked (hx : exec i s = issue s len .never false body) (h : IssuesAlone s e)
    (hb : body e = branchAct s e a id) (ha : ValidTarget a) : ∃ m t, exec i s = .next t ∧ PackIs s m e e.p ∧ Retired m t e len (goTo e a) :=
  branch_goes hx h hb rfl rfl rfl ha

/-- A branch to a target that R266 refuses traps in every active lane, with the target as its address. -/
theorem branch_refused (hx : exec i s = issue s len .never false body) (h : IssuesAlone s e) (hb : body e = branchAct s e a link)
    (ha : ¬ ValidTarget a) : exec i s = .next (takeTrap s e
      (trapLanes (if a.getLsbD 0 then 0x04 else 0x02) ((maskLanes e.p e.f).map fun l => (l, a.toNat)))) :=
  traps hx h.1 (burstOk_alone h.2 _) (.inl rfl) (hb.trans (branchAct_invalid ha link))

/-- A call leaves the address of the next instruction in the link pair (R267). -/
theorem call_goes {x : Nat} (hx : exec i s = issue s len .never false body) (h : IssuesAlone s e)
    (hb : body e = branchAct s e a (putS64 (inSup e.f) 62 x)) (ha : ValidTarget a) :
    ∃ m t p, exec i s = .next t ∧ PackIs s m e p ∧ SetsUniform e.p p (inSup e.f) 62 2 x ∧ Retired m t e len (goTo e a) := by
  have hs : SetsUniform e.p (putS64 (inSup e.f) 62 x e.p) (inSup e.f) 62 2 x := setsUniform_putSRange (inSup e.f) 62 x 2 e.p
  obtain ⟨m, t, ht, hp, hr⟩ := branch_goes hx h hb (by rw [hs.1]) (by rw [hs.1]) (by rw [hs.1]) ha
  exact ⟨m, t, _, ht, hp, hs, hr⟩

end

/-- Settles O10: each goes to its target or is refused as R266 says of the target that its body reads. -/
theorem branchesAndCalls : Obligations.BranchesAndCalls := by
  unfold Obligations.BranchesAndCalls
  intro s e j off g h near short far link linked turned
  exact ⟨branch_goes_unlinked rfl h rfl, branch_goes_unlinked rfl h rfl,
    fun hj => branch_goes_unlinked rfl h (by simp only [hj]; rfl),
    fun hl => branch_goes_unlinked rfl h (retAct_linked hl), fun hl => branch_goes_unlinked rfl h (retAct_linked hl),
    call_goes rfl h rfl, call_goes rfl h rfl,
    fun ha => ⟨branch_refused rfl h rfl ha, branch_refused rfl h rfl ha⟩,
    fun ha => ⟨branch_refused rfl h rfl ha, branch_refused rfl h rfl ha⟩,
    fun hj => branch_refused (link := id) rfl h (by simp only [hj]; rfl),
    fun hl ha => ⟨branch_refused rfl h (retAct_linked hl) ha, branch_refused rfl h (retAct_linked hl) ha⟩⟩

end Sys2Proof.Proofs
end

section
/-! O58: words that the decoder reads, or refuses, as their layouts say (R224 to R256). -/

namespace Sys2Proof.Proofs

open Sys2Proof Sys2Proof.Machine Sys2Proof.Safety Sys2Proof.Laws

/-- Settles O58: the decoder evaluates on each word, in the statement's order: system short forms, C16, A32, E64, and words that are
none. -/
theorem decodeWords : Obligations.DecodeWords := by
  unfold Obligations.DecodeWords
  exact ⟨rfl, rfl, rfl, rfl, rfl, rfl, rfl, rfl, rfl, rfl, rfl, rfl, rfl, rfl, rfl, rfl, rfl⟩

end Sys2Proof.Proofs
end

section
/-! Family 08_isa_control_integer, O1, O2: integer and bitwise instructions (R280 to R286, R290). The body of each is a computation lane
by lane: an exact value of the elements narrowed once, or a function of whole operands. -/

namespace Sys2Proof.Proofs

open Sys2Proof Sys2Proof.Machine Sys2Proof.Safety Sys2Proof.Laws

section
variable {i : Instr} {s : State} {e : Issuer} {g : Gen}

/-- An instruction whose body narrows an exact value of the elements of its three sources (R280). -/
theorem gives_exact {x : (Nat → Int) → Int} (hx : exec i s = issue s 8 .any false fun e => intAct s e g (srcs3 g) x) :
    Gives i s e 8 g.pred (srcs3 g) g.dst g.nowb (nregs g.ty) false (intVal g.ty g.sat x) :=
  gives_int hx rfl

/-- An instruction whose body is a function of the width of its type and of two whole operands (R282). -/
theorem gives_bits {srcs : List Opnd} {f : Nat → Nat → Nat → Nat}
    (hx : exec i s = issue s 8 .any false fun e => bitAct s e g srcs f) :
    Gives i s e 8 g.pred srcs g.dst g.nowb (nregs g.ty) false (wordVal fun v => f (tyBits g.ty) (v 0) (v 1)) :=
  gives_word hx rfl

/-- An instruction whose body is a function of the width of its type and of one whole operand (R284). -/
theorem gives_count {f : Nat → Nat → Nat} (hx : exec i s = issue s 8 .any false fun e => countAct s e g f) :
    Gives i s e 8 g.pred [opn g.a g.ty] g.dst g.nowb (nregs g.ty) false (wordVal fun v => f (tyBits g.ty) (v 0)) :=
  gives_word hx rfl

end

/-- Settles O1: IADD to IABSD narrow the exact value of their elements; IMULH takes the whole operands, and CVTI the low bits of
its one source. -/
theorem integerArithmetic : Obligations.IntegerArithmetic := by
  unfold Obligations.IntegerArithmetic
  intro s e g
  exact ⟨gives_exact (x := xAdd) rfl, gives_exact (x := xSub) rfl, gives_exact (x := xMul) rfl, gives_exact (x := xMad) rfl,
    gives_exact (x := xMin) rfl, gives_exact (x := xMax) rfl, gives_exact (x := xAbsd) rfl,
    gives_word rfl rfl, gives_lanes rfl rfl⟩

/-- Settles O2: logic and shifts are functions of two operands at the width of the type, counts of one; the fields, PRMT and LEA
read operands of their own. -/
theorem bitwiseAndShifts : Obligations.BitwiseAndShifts := by
  unfold Obligations.BitwiseAndShifts
  intro s e g
  simp only [List.forall_mem_cons]
  exact ⟨⟨gives_bits (f := bitAnd) rfl, gives_bits (f := bitOr) rfl, gives_bits (f := bitXor) rfl, gives_bits (f := bitAndn) rfl,
      List.forall_mem_nil _⟩,
    ⟨gives_bits (f := shlBits) rfl, gives_bits (f := shrBits) rfl, gives_bits (f := sarBits) rfl, gives_bits (f := rotlBits) rfl,
      List.forall_mem_nil _⟩,
    ⟨gives_count (f := popcBits) rfl, gives_count (f := clzBits) rfl, gives_count (f := ctzBits) rfl, gives_count (f := brevBits) rfl,
      List.forall_mem_nil _⟩,
    gives_word rfl rfl, gives_word rfl rfl, gives_word rfl rfl, gives_word rfl rfl⟩

end Sys2Proof.Proofs
end

section
/-! Family 08_isa_control_integer, O6: lane exchange (R218, R219, R292 to R296). The results of an exchange raise no flag; those of a
tree raise its flags in every slice with an active lane. -/

namespace Sys2Proof.Proofs

open Sys2Proof Sys2Proof.Machine Sys2Proof.Safety Sys2Proof.Laws

section
variable {i : Instr} {s : State} {e : Issuer} {pr : Pred} {srcs : List Opnd} {d : Dst} {nowb : Bool} {n : Nat} {body : Issuer → Act}
  {f : (Nat → Nat → Nat) → List Nat → List Nat → List (Nat × Nat) × List (Nat × Nat)} {val : (Nat → Nat → Nat) → Nat → Nat}
  (hx : exec i s = issue s 8 .any false body) (hb : body e = alu s e pr srcs d nowb n f id)
include hx hb

/-- An instruction whose result in each lane is a function of every lane's sources. -/
theorem yields_exchange (hf : ∀ rd outs, f rd (activeLanes e pr) outs = (outs.map fun l => (l, val rd l), [])) :
    Yields i s e 8 pr srcs d nowb n val (fun _ _ x => x) :=
  yields_lanes hx hb [] (fun _ => hf _ _) (List.forall_mem_nil _) no_flags

/-- An instruction whose results are a tree's: the flags of the combinations that enter a result go into every slice with an active
lane (R295). -/
theorem yields_tree {flags : (Nat → Nat → Nat) → Nat} (hf : ∀ rd, f rd (activeLanes e pr) (outLanes d (activeLanes e pr)) =
      ((outLanes d (activeLanes e pr)).map (fun l => (l, val rd l)), flagSlices (activeLanes e pr) (flags rd))) :
    Yields i s e 8 pr srcs d nowb n val
      (fun rd k x => if activeSlice (activeLanes e pr) k then x ||| BitVec.ofNat 8 (flags rd) else x) :=
  yields_lanes hx hb (flagSlices (activeLanes e pr) (flags (reader e srcs))) (fun _ => hf _) flagSlices_mem fun k x => by
    rw [sliceFlags_flagSlices]
    split
    · rfl
    · exact BitVec.or_zero.symm

end

/-- Settles O6: SHFL to RANK take each lane's result from the sources of all; REDUX is one tree for every lane, SCAN a prefix for
each, whose flags the body gathers beside their results. -/
theorem laneExchange : Obligations.LaneExchange := by
  unfold Obligations.LaneExchange
  intro s e g act
  refine ⟨yields_exchange rfl rfl fun _ _ => rfl, yields_exchange rfl rfl fun _ _ => rfl, yields_exchange rfl rfl fun _ _ => rfl,
    yields_exchange rfl rfl fun _ _ => rfl, yields_exchange rfl rfl fun _ _ => rfl, yields_tree rfl rfl fun _ => rfl,
    yields_tree rfl rfl fun rd => ?_⟩
  exact Prod.ext List.map_map (congrArg (flagSlices act) (List.foldl_map.trans List.foldl_map.symm))

end Sys2Proof.Proofs
end

section
/-! Family 09_isa_float, O5: the instructions that draw, and TF8UP (R213 to R216, R311 to R314). The body of each is a computation lane by
lane; a draw reads the counters as they stand and then advances them (R214). -/

namespace Sys2Proof.Proofs

open Sys2Proof Sys2Proof.Machine Sys2Proof.Safety Sys2Proof.Laws

/-- An instruction whose body computes each lane's result and flags from that lane's sources and number, and then advances the draw
counters. -/
theorem gives_drawn {i : Instr} {s : State} {e : Issuer} {pr : Pred} {srcs : List Opnd} {d : Dst} {nowb : Bool} {n : Nat}
    {f : (Nat → Nat) → Nat → Nat × Nat} {val : (Nat → Nat → Nat) → Nat → Nat × Nat} {body : Issuer → Act}
    (hx : exec i s = issue s 8 .any false body)
    (hb : body e = alu s e pr srcs d nowb n (perLane e d f) (advanceDraws e))
    (hv : val = fun rd l => f (fun i => rd i l) l) : Gives i s e 8 pr srcs d nowb n true val :=
  gives_perLane hx (.inl rfl) hb hv

/-- Settles O5: TF8PK and REQUANT round each element with its own number of the lane's draw, RNG writes the draw's words, and
TF8UP draws nothing. -/
theorem drawsAndTF8 : Obligations.DrawsAndTF8 := by
  unfold Obligations.DrawsAndTF8
  intro s e g
  exact ⟨gives_drawn rfl rfl rfl, gives_drawn rfl rfl rfl, gives_drawn rfl rfl rfl, gives_lanes rfl rfl⟩

end Sys2Proof.Proofs
end

section
/-! Family 10_isa_memory_sync, O29 and O30: barriers (R113, R342 to R346). -/

namespace Sys2Proof.Proofs

open Sys2Proof Sys2Proof.Machine Sys2Proof.Safety Sys2Proof.Laws

section
variable {s : State} {e : Issuer} {g : Gen}

/-! ## The checks that barrier instructions share (R113, R346) -/

/-- The operands of a barrier instruction can be read, and it is its pack's turn. -/
structure BarrierMeets (s : State) (e : Issuer) (g : Gen) : Prop where
  issues : IssuesAlone s e
  operands : uniCause e [opn32 g.a, opn32 g.b] = none
  turn : needsTurn s e = false

theorem barAct_eq (h : BarrierMeets s e g) (f : Nat → Nat → Act) : barAct s e g f =
    if 15 < uniVal e g.a then .trap (trapAll e [] 0x0B) else f (uniVal e g.a) (uniVal e g.b) := by
  rw [barAct, h.operands]
  dsimp only
  rw [h.turn, if_neg Bool.false_ne_true]

theorem barAct_inRange (h : BarrierMeets s e g) (hi : uniVal e g.a ≤ 15) (f : Nat → Nat → Act) :
    barAct s e g f = f (uniVal e g.a) (uniVal e g.b) := by
  rw [barAct_eq h, if_neg (by omega)]

theorem barUse_some (h : BarrierMeets s e g) (hi : uniVal e g.a ≤ 15) {x : Barrier} (hx : getBar e.b (uniVal e g.a) = some x)
    (f : Nat → Barrier → Nat → Act) : barUse s e g f = f (uniVal e g.a) x (uniVal e g.b) := by
  rw [barUse, barAct_inRange h hi, hx]

/-- An instruction that needs a barrier finds misuse where there is none. -/
theorem barUse_absent (h : BarrierMeets s e g) (hx : 15 < uniVal e g.a ∨ getBar e.b (uniVal e g.a) = none)
    (f : Nat → Barrier → Nat → Act) : barUse s e g f = .trap (trapAll e [] 0x0B) := by
  rw [barUse, barAct_eq h]
  split
  · rfl
  · rw [hx.resolve_left ‹_›]

/-- Where the effect on the barrier that there is would be misuse, so is the instruction. -/
theorem barUse_misuse (h : BarrierMeets s e g) {x : Barrier} (hx : getBar e.b (uniVal e g.a) = some x) {f : Nat → Barrier → Nat → Act}
    (hf : f (uniVal e g.a) x (uniVal e g.b) = .trap (trapAll e [] 0x0B)) : barUse s e g f = .trap (trapAll e [] 0x0B) := by
  rcases Nat.lt_or_ge 15 (uniVal e g.a) with hi | hi
  · exact barUse_absent h (.inl hi) f
  · exact (barUse_some h hi hx f).trans hf

/-! ## What a barrier instruction leaves -/

/-- The block with a changed barrier, stirred by the end of a synchronising operation. -/
theorem completes_setBar {i : Instr} {body : Issuer → Act} {k : Nat} {y : Barrier} (hx : exec i s = issue s 8 .never false body)
    (h : IssuesAlone s e) (ha : body e = .ok (syncDone (setBlock s (setBar e.b k y)) e) {}) :
    Completes i s e 8 fun m r => r = {} ∧ Stirred (setBlock s (setBar e.b k y)) m := by
  obtain ⟨e', he'⟩ := kept_setBlock_packs (c := setBar e.b k y) (issuerAt_eq.1 h.1.2).2.1 rfl rfl rfl _ _ h.1.2
  exact completes_synced hx h.1 (burstOk_alone h.2 _) (.inl rfl) ha he' fun hst => ⟨rfl, hst⟩

theorem misuse_traps {i : Instr} {body : Issuer → Act} (hx : exec i s = issue s 8 .never false body) (h : IssuesAlone s e)
    (ha : body e = .trap (trapAll e [] 0x0B)) : exec i s = .next (takeTrap s e (trapAll e [] 0x0B)) :=
  traps hx h.1 (burstOk_alone h.2 _) (.inl rfl) ha

/-! ## The effect of each instruction on a barrier -/

theorem barResize_done {i : Nat} {x : Barrier} {n : Int} (ha : holdsAll e.p e.f = true) (h1 : 1 ≤ n) (h2 : n ≤ 4095)
    (h3 : (x.arrived : Int) ≤ n) : barResize s e i x n = barDone s e i { x with expected := n.toNat } := by
  rw [barResize, ha, if_neg]
  simp only [Bool.not_true, Bool.false_or, Bool.or_eq_true, decide_eq_true_eq]
  omega

theorem barResize_misuse {i : Nat} {x : Barrier} {n : Int} (h : holdsAll e.p e.f = false ∨ n < 1 ∨ 4095 < n ∨ n < x.arrived) :
    barResize s e i x n = .trap (trapAll e [] 0x0B) := by
  rw [barResize, if_pos]
  simp only [Bool.or_eq_true, decide_eq_true_eq, Bool.not_eq_true']
  tauto

end

section
variable {s : State} {e : Issuer} {g : Gen} (h : BarrierMeets s e g)
include h

theorem barinit_done (hi : uniVal e g.a ≤ 15) (h1 : 1 ≤ uniVal e g.b) (h2 : uniVal e g.b ≤ 4095)
    (hf : barFree s e.b (uniVal e g.a) = true) : Completes (.barinit g) s e 8 fun m r => r = {} ∧
      Stirred (setBlock s (setBar e.b (uniVal e g.a)
        { expected := uniVal e g.b, phase := (getBar e.b (uniVal e g.a)).elim 0 (·.phase) })) m := by
  refine completes_setBar rfl h.issues ((barAct_inRange h hi _).trans ?_)
  rw [hf, if_neg (by simp only [not_true_eq_false, or_false]; omega)]
  cases getBar e.b (uniVal e g.a) <;> rfl

theorem barinit_misuse (hm : 15 < uniVal e g.a ∨ uniVal e g.b < 1 ∨ 4095 < uniVal e g.b ∨ barFree s e.b (uniVal e g.a) = false) :
    exec (.barinit g) s = .next (takeTrap s e (trapAll e [] 0x0B)) := by
  refine misuse_traps rfl h.issues ((barAct_eq h _).trans ?_)
  split
  · rfl
  · rw [if_pos]
    have := hm.resolve_left ‹_›
    rwa [Bool.not_eq_true]

/-- An instruction that needs a barrier traps where there is none (R346). -/
theorem absent_misuse (hd : dstCause e (maskLanes e.p e.f) g.dst 1 = none)
    (hx : 15 < uniVal e g.a ∨ getBar e.b (uniVal e g.a) = none) :
    ∀ x ∈ [Instr.bararr g, .bararrJoin g, .bararrDrop g, .barwait g, .barexp g, .bartry g],
      exec x s = .next (takeTrap s e (trapAll e [] 0x0B)) := by
  have hbartry : exec (.bartry g) s = .next (takeTrap s e (trapAll e [] 0x0B)) := by
    refine misuse_traps rfl h.issues ?_
    rw [hd]
    exact barUse_absent h hx _
  simp only [List.forall_mem_cons]
  exact ⟨misuse_traps rfl h.issues (barUse_absent h hx _), misuse_traps rfl h.issues (barUse_absent h hx _),
    misuse_traps rfl h.issues (barUse_absent h hx _), misuse_traps rfl h.issues (barUse_absent h hx _),
    misuse_traps rfl h.issues (barUse_absent h hx _), hbartry, List.forall_mem_nil _⟩

section
variable {x : Barrier} (hx : getBar e.b (uniVal e g.a) = some x)
include hx

/-- BARARR where the fragment may not arrive: it lacks a live slice, or its pack has arrived (R343, R346). -/
theorem bararr_misuse (hm : holdsAll e.p e.f = false ∨ (packId e.p, x.phase) ∈ x.arrivals) :
    exec (.bararr g) s = .next (takeTrap s e (trapAll e [] 0x0B)) := by
  refine misuse_traps rfl h.issues (barUse_misuse h hx (if_pos ?_))
  rwa [Bool.or_eq_true, Bool.not_eq_true', List.contains_iff_mem]

theorem barexp_misuse (hm : 2 ^ 40 ≤ (if g.opx = 1#4 then x.postedNext else x.posted) + uniVal e g.b) :
    exec (.barexp g) s = .next (takeTrap s e (trapAll e [] 0x0B)) := by
  refine misuse_traps rfl h.issues (barUse_misuse h hx (if_pos ?_))
  simpa using hm

variable (hi : uniVal e g.a ≤ 15)
include hi

theorem bararr_done (ha : holdsAll e.p e.f = true) (hn : (packId e.p, x.phase) ∉ x.arrivals) :
    Completes (.bararr g) s e 8 fun m r => r = {} ∧ Stirred (setBlock s (setBar e.b (uniVal e g.a) (barSettle
      { x with arrived := x.arrived + 1, arrivals := (packId e.p, x.phase) :: x.arrivals.filter fun a => a.1 != packId e.p }))) m := by
  refine completes_setBar rfl h.issues ((barUse_some h hi hx _).trans (if_neg ?_))
  rw [Bool.or_eq_true, Bool.not_eq_true', List.contains_iff_mem, ha]
  simpa using hn

theorem barwait_done (hp : x.phase ≠ e.f.phase.getD (waitPhase x e.p)) :
    Completes (.barwait g) s e 8 fun m r => r = {} ∧ Stirred s m :=
  completes_synced rfl h.issues.1 (burstOk_alone h.issues.2 _) (.inl rfl) ((barUse_some h hi hx _).trans (if_pos hp)) h.issues.1.2
    fun hst => ⟨rfl, hst⟩

theorem barwait_waits (hp : x.phase = e.f.phase.getD (waitPhase x e.p)) : ∃ t, exec (.barwait g) s = .next t ∧
    PackIs s t e (setFrag e.p e.ref.frag { e.f with st := .waiting, wait := .barrier (uniVal e g.a) (e.f.phase.getD (waitPhase x e.p)),
                                                    since := s.tick, gang := 0, phase := some (e.f.phase.getD (waitPhase x e.p)) }) := by
  refine ⟨_, owns rfl h.issues.1 (burstOk_alone h.issues.2 _) (.inl rfl) ((barUse_some h hi hx _).trans (if_neg (not_not.2 hp))), ?_⟩
  rw [putFrag_eq h.issues.1.2]
  exact packIs_set h.issues.1.2 rfl rfl

theorem barexp_done (hn : (if g.opx = 1#4 then x.postedNext else x.posted) + uniVal e g.b < 2 ^ 40) :
    Completes (.barexp g) s e 8 fun m r => r = {} ∧ Stirred (setBlock s (setBar e.b (uniVal e g.a) (barSettle
      (if g.opx = 1#4 then { x with postedNext := x.postedNext + uniVal e g.b }
       else { x with posted := x.posted + uniVal e g.b })))) m := by
  refine completes_setBar rfl h.issues ((barUse_some h hi hx _).trans ?_)
  by_cases hnext : g.opx = 1#4
  · simp only [hnext, if_true] at hn
    simp only [hnext, beq_self_eq_true, if_true]
    rw [if_neg (by omega), barDone]
  · simp only [hnext, if_false] at hn
    simp only [hnext, beq_eq_false_iff_ne.2 hnext, if_false, Bool.false_eq_true]
    rw [if_neg (by omega), barDone]

theorem bartry_tests (hd : dstCause e (maskLanes e.p e.f) g.dst 1 = none) :
    Completes (.bartry g) s e 8 fun m r => ∃ u, Stirred u m ∧
      ResultOnly s u e g.dst g.nowb 1 (maskLanes e.p e.f) (fun _ => if x.phase = waitPhase x e.p then 0 else 1) r := by
  have hbit : bit (x.phase != waitPhase x e.p) = if x.phase = waitPhase x e.p then 0 else 1 := by
    by_cases hp : x.phase = waitPhase x e.p <;> simp [bit, hp]
  refine completes_syncedResult (b := e.b) (l := e.l) (t := s) rfl h.issues.1 (burstOk_alone h.issues.2 _) (.inl rfl) h.issues.1.2
    (fun u r hu => ?_) fun u m r hr hst => ⟨u, hst, hr⟩
  rw [hd]
  dsimp only
  rw [barUse_some h hi hx, hbit, hu]

end

end

/-- Settles O29: each instruction in its turn, on a barrier that there is. -/
theorem barriers : Obligations.Barriers := by
  unfold Obligations.Barriers
  intro s e g halone hops hturn i n leaves hi
  have h : BarrierMeets s e g := ⟨halone, hops, hturn⟩
  refine ⟨barinit_done h hi, fun x hx => ⟨bararr_done h hx hi, ?_, ?_, barwait_done h hx hi, barwait_waits h hx hi, barexp_done h hx hi,
    bartry_tests h hx hi⟩⟩
  · intro ha h1 h2 h3
    refine completes_setBar rfl halone ((barUse_some h hi hx _).trans (barResize_done ha ?_ ?_ ?_))
    all_goals omega
  · intro ha h1 h2 h3
    have hn : ((x.expected : Int) - n).toNat = x.expected - n := by omega
    rw [← hn]
    refine completes_setBar rfl halone ((barUse_some h hi hx _).trans (barResize_done ha ?_ ?_ ?_))
    all_goals omega

/-- Settles O30: each misuse is found before the barrier changes. -/
theorem barrierMisuse : Obligations.BarrierMisuse := by
  unfold Obligations.BarrierMisuse
  intro s e g halone hops hd hturn i n misuse
  have h : BarrierMeets s e g := ⟨halone, hops, hturn⟩
  have hjoin : ∀ x, getBar e.b i = some x → (holdsAll e.p e.f = false ∨ 4095 < x.expected + n) → misuse (.bararrJoin g) :=
    fun x hx hm => misuse_traps rfl halone (barUse_misuse h hx (barResize_misuse (hm.imp_right fun hm => .inr (.inl (by omega)))))
  have hdrop : ∀ x, getBar e.b i = some x → (holdsAll e.p e.f = false ∨ x.expected < n + 1 ∨ x.expected < x.arrived + n) →
      misuse (.bararrDrop g) :=
    fun x hx hm => misuse_traps rfl halone (barUse_misuse h hx (barResize_misuse (hm.imp_right fun hm => by omega)))
  exact ⟨absent_misuse h hd, barinit_misuse h, fun x hx =>
    ⟨fun hm => ⟨bararr_misuse h hx (.inl hm), hjoin x hx (.inl hm), hdrop x hx (.inl hm)⟩,
    fun hm => bararr_misuse h hx (.inr hm), fun hm => hjoin x hx (.inr hm), fun hm => hdrop x hx (.inr hm), barexp_misuse h hx⟩⟩

end Sys2Proof.Proofs
end

section
/-! Family 10_isa_memory_sync, O24: SMAP, SUNMAP and SFLUSH (R104, R334 to R337). -/

namespace Sys2Proof.Proofs

open Sys2Proof Sys2Proof.Machine Sys2Proof.Safety Sys2Proof.Laws

section
variable {s : State} {e : Issuer} {g : Gen}

/-- An effect that keeps the fragment that issued it, of an instruction that ends its burst. -/
theorem completes_last {i : Instr} {body : Issuer → Act} {t : State} (hx : exec i s = issue s 8 .last false body) (h : IssuesAlone s e)
    (ha : body e = .ok t {}) (hk : Kept s t) : Completes i s e 8 fun m r => r = {} ∧ m = t := by
  obtain ⟨e', he'⟩ := hk _ _ h.1.2
  exact completes hx h.1 (burstOk_alone h.2 _) (.inl rfl) ha he' ⟨rfl, rfl⟩

/-- No region to release. -/
theorem unmapRegion_absent (h : issuerAt s e.ref = some e) {i : Nat} (hx : e.b.regions.find? (fun r => r.idx == i) = none) :
    unmapRegion s e.ref.blk i = s := by
  rw [unmapRegion, (issuerAt_eq.1 h).2.1]
  dsimp only
  rw [hx]

/-- A range in the stash of the block, aligned and of a length that there may be, at addresses that there are, apart from every
other region's (R335). -/
structure MapMeets (e : Issuer) (i off va n : Nat) : Prop where
  stash : off % 128 = 0
  global : va % 128 = 0
  nonempty : 1 ≤ n
  most : n ≤ 8192
  fits : off + 128 * n ≤ stashBytes e.l
  canonical : va < 2 ^ 57
  others : ∀ r ∈ e.b.regions, r.idx ≠ i → (off + 128 * n ≤ r.off ∨ r.off + 128 * r.lines ≤ off) ∧
    (va + 128 * n ≤ r.va ∨ r.va + 128 * r.lines ≤ va)

theorem smapCause_none {i off va n : Nat} (h : MapMeets e i off va n) : smapCause e i off va n = none := by
  have hapart : (e.b.regions.any fun r => r.idx != i &&
      ((off < r.off + 128 * r.lines && r.off < off + 128 * n) || (va < r.va + 128 * r.lines && r.va < va + 128 * n))) = false := by
    rw [List.any_eq_false]
    intro r hr hmeets
    simp only [Bool.and_eq_true, Bool.or_eq_true, decide_eq_true_eq, bne_iff_ne] at hmeets
    have := h.others r hr hmeets.1
    omega
  obtain ⟨hstash, hglobal, hnonempty, hmost, hfits, hcanonical, -⟩ := h
  rw [smapCause, if_neg (by omega), if_neg (by omega), hapart, if_neg Bool.false_ne_true, if_neg (by omega)]

variable (h : IssuesAlone s e) (hround : needsRound e = false) (hhold : cleanHold s e g.opx.toNat = none)
include h hround hhold

theorem sunmap_releases : Completes (.sunmap g) s e 8 fun m r => r = {} ∧ m = unmapRegion s e.ref.blk g.opx.toNat := by
  refine completes_last rfl h ?_ (kept_unmapRegion s e.ref.blk g.opx.toNat)
  rw [hround, if_neg Bool.false_ne_true, hhold]

theorem smap_binds (hops : uniCause e [opn g.a .b64, opn32 g.b, opn32 g.c] = none)
    (hm : MapMeets e g.opx.toNat (uniVal e g.b) (opndVal e (opn g.a .b64) 0) (uniVal e g.c)) :
    Completes (.smap g) s e 8 fun m r => r = {} ∧ ∃ b, getBlock (unmapRegion s e.ref.blk g.opx.toNat) e.ref.blk = some b ∧
      m = setBlock (unmapRegion s e.ref.blk g.opx.toNat) { b with regions := b.regions ++
        [{ idx := g.opx.toNat, off := uniVal e g.b, va := opndVal e (opn g.a .b64) 0, lines := uniVal e g.c, mode := smapMode g.hint }] } := by
  have hkept := kept_unmapRegion s e.ref.blk g.opx.toNat
  obtain ⟨e', he'⟩ := hkept _ _ h.1.2
  obtain ⟨-, hb, -⟩ := issuerAt_eq.1 he'
  refine completes_mono (completes_last rfl h ?_ (kept_trans hkept (kept_setBlock_packs (c := { e'.b with regions := e'.b.regions ++
    [{ idx := g.opx.toNat, off := uniVal e g.b, va := opndVal e (opn g.a .b64) 0, lines := uniVal e g.c, mode := smapMode g.hint }] })
    hb rfl rfl rfl))) fun m r ⟨hr, hm⟩ => ⟨hr, e'.b, hb, hm⟩
  dsimp only
  rw [hops]
  dsimp only
  rw [smapCause_none hm]
  dsimp only
  rw [hround, if_neg Bool.false_ne_true, hhold]
  dsimp only
  rw [hb]

theorem sflush_cleans {x : StashRegion} (hx : e.b.regions.find? (fun r => r.idx == g.opx.toNat) = some x) :
    Completes (.sflush g) s e 8 fun m r => r = {} ∧ m = cleanLines s e.b fun l => inRegion x l.line := by
  refine completes_last rfl h ?_ (kept_cleanLines s e.b fun l => inRegion x l.line)
  rw [hround, if_neg Bool.false_ne_true, hx, hhold]

omit hhold in
theorem sflush_absent (hx : e.b.regions.find? (fun r => r.idx == g.opx.toNat) = none) :
    Completes (.sflush g) s e 8 fun m r => r = {} ∧ m = s := by
  refine completes_last rfl h ?_ (kept_refl s)
  rw [hround, if_neg Bool.false_ne_true, hx]

end

/-- Settles O24: each instruction is its model's own change of the block's regions, past the checks of its range. -/
theorem stashRegions : Obligations.StashRegions := by
  unfold Obligations.StashRegions
  intro s e g h hround i va off n u hhold
  refine ⟨sunmap_releases h hround hhold, fun hops hstash hglobal hnonempty hmost hfits hcanonical hothers => ?_,
    fun x hx => sflush_cleans h hround hhold hx, fun hx => ⟨unmapRegion_absent h.1.2 hx, sflush_absent h hround hx⟩⟩
  exact smap_binds h hround hhold hops ⟨hstash, hglobal, hnonempty, hmost, hfits, hcanonical, hothers⟩

end Sys2Proof.Proofs
end

section
/-! Family 10_isa_memory_sync, O17: LD and LDC (R141, R318 to R324, R508). -/

namespace Sys2Proof.Proofs

open Sys2Proof Sys2Proof.Machine Sys2Proof.Safety Sys2Proof.Laws

section
variable {s : State} {e : Issuer} {m : M64}

/-- The operands of a load can be read and its destination written, and the accesses that it makes reach bytes without poison and
without a race. -/
structure LoadMeets (s : State) (e : Issuer) (m : M64) (pa : Nat → Nat) : Prop where
  operands : operandCause e (activeLanes e m.pred) [baseOpnd m false] (dstOf m.data) (widthRegs m.width) = none
  reaches : Reaches s e .read (widthBytes m.width) (accessLanes m (activeLanes e m.pred)) (m64Addr e m false) pa
  race : strictRace s e ((accessLanes m (activeLanes e m.pred)).map pa) = false
  clean : ∀ l ∈ accessLanes m (activeLanes e m.pred), isReg (pa l) = true ∨ gPoisoned s (pa l) (widthBytes m.width) = false

/-- What a lane of a load reads, of the access that serves it (R324). -/
def loadVal (s : State) (e : Issuer) (m : M64) (pa : Nat → Nat) (l : Nat) : Nat :=
  let k := servedBy m (activeLanes e m.pred) l
  extend m (laneRead s e m (k, pa k))

/-- Past its checks a load ends with what its lanes read, after the accesses that go to their homes are charged: those are some of its
accesses, so none is held, races or meets poison. -/
theorem loadAct_reads {pa : Nat → Nat} (h : LoadMeets s e m pa) : ∃ u, Charged s u ∧ loadAct s e m =
    loadEnd u e m (activeLanes e m.pred) ((activeLanes e m.pred).map fun l => (l, loadVal s e m pa l)) := by
  obtain ⟨hops, ⟨hlanes, hhold⟩, hrace, hclean⟩ := h
  unfold loadAct
  dsimp only
  rw [hops]
  dsimp only
  rw [m64Bytes, xlate_lanes hlanes, missed_ok, reached_ok]
  dsimp only
  generalize hfar : ((accessLanes m (activeLanes e m.pred)).map fun l => (l, pa l)).filter _ = far
  have hmem : ∀ a ∈ far, ∃ l ∈ accessLanes m (activeLanes e m.pred), (l, pa l) = a := fun a ha =>
    List.mem_map.1 (List.mem_of_mem_filter (hfar ▸ ha))
  have hsub : ∀ x ∈ far.map (·.2), x ∈ (accessLanes m (activeLanes e m.pred)).map pa := by
    intro x hx
    obtain ⟨a, ha, rfl⟩ := List.mem_map.1 hx
    obtain ⟨l, hl, rfl⟩ := hmem a ha
    exact List.mem_map_of_mem hl
  have hnofault : firstFault (far.map fun a => (a.1, if !isReg a.2 && gPoisoned s a.2 (widthBytes m.width) then
      some (0x0E, m64Addr e m false a.1) else none)) = none := by
    refine firstFault_none (List.forall_mem_map.2 fun a ha => ?_)
    obtain ⟨l, hl, rfl⟩ := hmem a ha
    rcases hclean l hl with hreg | hp
    · simp [hreg]
    · simp [hp]
  rw [memHold_subset hhold hsub]
  dsimp only
  rw [strictRace_subset hrace hsub, if_neg Bool.false_ne_true, hnofault, List.map_map]
  dsimp only [Function.comp_def]
  rw [spreadVals_served m (activeLanes e m.pred) fun l => extend m (laneRead s e m (l, pa l))]
  exact ⟨_, charged_trans (charged_chargeLanes _ _ _ _ _) (charged_l1After _ _ _ _ _), rfl⟩

/-- A load past its checks completes with its lanes' values as its only effect. -/
theorem load_completes {i : Instr} {pa : Nat → Nat} (hx : exec i s = issue s 8 .last false fun e => loadAct s e m) (h : IssuesAlone s e)
    (hm : LoadMeets s e m pa) : Completes i s e 8 fun t r => ∃ u, Charged s u ∧
      ResultOnly u t e (dstOf m.data) m.nowb (widthRegs m.width) (activeLanes e m.pred) (loadVal s e m pa) r := by
  obtain ⟨u, hu, ha⟩ := loadAct_reads hm
  exact completes_mono (completes_written hx h.1 (burstOk_alone h.2 _) (.inl rfl) (linesMoved_charged hu)
    (fun l hl => mem_activeLanes hl) ha) fun t r ⟨_, hr⟩ => ⟨u, hu, hr⟩

end

/-- Settles O17: LD and LDC have one body, which past its checks writes what its lanes read. -/
theorem loads : Obligations.Loads := by
  unfold Obligations.Loads
  intro s e m h act n lanes hops pa hreach hrace hclean
  have hm : LoadMeets s e m pa := ⟨hops, hreach, hrace, hclean⟩
  simp only [List.forall_mem_cons]
  exact ⟨load_completes rfl h hm, load_completes rfl h hm, List.forall_mem_nil _⟩

end Sys2Proof.Proofs
end

section
/-! Family 10_isa_memory_sync, O18: ST, RED and ATOM on plain memory (R163, R318, R321, R325 to R328, R508). The clauses on RED and ATOM
hold, and that on ST where physical addresses are aligned as virtual ones are; the statement takes any translation that a TLB holds,
and one whose virtual base is no multiple of 16 refutes it. -/

namespace Sys2Proof.Proofs

open Sys2Proof Sys2Proof.Machine Sys2Proof.Safety Sys2Proof.Laws

/-! ## Memory after lanes wrote -/

/-- A state is another but for the bytes in memory of lanes, which hold their values, and what the accesses leave. -/
structure LanesWrote (s t : State) (n : Nat) (lanes : List Nat) (pa val : Nat → Nat) : Prop where
  wrote : Wrote s t
  bytes : ∀ l ∈ lanes, ∀ i, i < n → rawByte t (pa l + i) = byteOf (val l) i
  others : ∀ a, (∀ l ∈ lanes, ¬ (pa l ≤ a ∧ a < pa l + n)) → rawByte t a = rawByte s a

section
variable {s t u : State} {n k : Nat} {lanes : List Nat} {pa val : Nat → Nat}

theorem lanesWrote_charged (h : Charged s t) (hw : LanesWrote t u n lanes pa val) : LanesWrote s u n lanes pa val := by
  have hmem : t.mem = s.mem := by rw [h.device]
  refine ⟨wrote_trans (wrote_charged h) hw.wrote, hw.bytes, fun a ha => (hw.others a ha).trans ?_⟩
  rw [rawByte, hmem, rawByte]

/-- Writes of lanes that do not meet, one after another. -/
theorem lanesWrote_fold {g : State → Nat → State} (hnd : lanes.Nodup) (hap : Apart n lanes pa)
    (hg : ∀ t l, l ∈ lanes → Wrote s t → (∀ i, i < n → rawByte t (pa l + i) = rawByte s (pa l + i)) →
      Wrote t (g t l) ∧ (g t l).mem = writeBytes Config.memDefault t.mem (pa l) (leBytes n (val l))) :
    LanesWrote s (lanes.foldl g s) n lanes pa val := by
  obtain ⟨hwrote, hbytes, hothers⟩ := fold_stores lanes hnd hap hg
  exact ⟨hwrote, hbytes, hothers⟩

/-- Values that are written in two parts. -/
theorem lanesWrote_join (hap : Apart (n + k) lanes pa) (h : LanesWrote s t n lanes pa val)
    (h' : LanesWrote t u k lanes (fun l => pa l + n) fun l => val l / 2 ^ (8 * n)) : LanesWrote s u (n + k) lanes pa val := by
  refine ⟨wrote_trans h.wrote h'.wrote, fun l hl i hi => ?_, fun a ha => ?_⟩
  · by_cases hin : i < n
    · rw [h'.others (pa l + i) fun j hj => ?_, h.bytes l hl i hin]
      by_cases hlj : l = j
      · subst hlj; omega
      · have := hap l hl j hj hlj; omega
    · have := h'.bytes l hl (i - n) (by omega)
      rwa [show pa l + n + (i - n) = pa l + i by omega, byteOf_div, show n + (i - n) = i by omega] at this
  · rw [h'.others a fun l hl => ?_, h.others a fun l hl => ?_] <;> have := ha l hl <;> omega

theorem lanesWrote_stored (hu : ∀ l ∈ lanes, Unowned s (pa l) n) (h : LanesWrote s t n lanes pa val) : BytesStored s t n lanes pa val :=
  bytesStored_of hu (wrote_blocks h.wrote) h.bytes h.others

theorem wrote_issuer (h : Wrote s t) (r : FragRef) : issuerAt t r = issuerAt s r := (charged_issuer h r).trans rfl

theorem wrote_up (h : Wrote s t) (hup : s.hi.mbhost.getLsbD 32 = false) : t.hi.mbhost.getLsbD 32 = false := by
  rw [h.device]; exact hup

theorem unowned_wrote {a : Nat} (h : Wrote s t) (hu : Unowned s a n) : Unowned t a n := fun i hi => by
  unfold ownerOf
  rw [wrote_blocks h]
  exact hu i hi

end

/-! ## Stores (R163, R321) -/

section
variable {s : State} {e : Issuer} {n o : Nat} {val : Nat → Nat} {a : Nat × Nat}

theorem storeLane_register (hreg : isReg (a.2 + o) = true) :
    storeLane e n val o s a = regWrite s (a.2 + o) (((leBytes n (val a.1)).drop o).take 8) := if_pos hreg

theorem storeLane_memory (hreg : isReg (a.2 + o) = false) (hup : s.hi.mbhost.getLsbD 32 = false) :
    storeLane e n val o s a = coreWrite s e.b.core (a.2 + o) (((leBytes n (val a.1)).drop o).take 8) := by
  unfold storeLane
  dsimp only
  rw [hreg, cutOff_up hup, if_neg Bool.false_ne_true, if_neg Bool.false_ne_true]

end

theorem coreWrite_unowned {s : State} {c pa : Nat} {bs : List Byte} (h : Unowned s pa bs.length) (hn : bs.length < 32)
    (hup : s.hi.mbhost.getLsbD 32 = false) : Wrote s (coreWrite s c pa bs) ∧
      (coreWrite s c pa bs).mem = writeBytes Config.memDefault s.mem pa bs := by
  have hstore := charged_l1Store (gWrite s pa bs) c pa bs
  refine ⟨wrote_trans ?_ (wrote_charged hstore), ?_⟩
  · rw [gWrite_unowned h hn hup]
    exact wrote_mem s _ (charged_of rfl)
  · rw [coreWrite, hstore.device, gWrite_unowned h hn hup]

/-- The part of a value that is stored at an offset. -/
theorem leBytes_part {n o w x : Nat} (hw : min 8 (n - o) = w) (hon : o + w ≤ n) :
    ((leBytes n x).drop o).take 8 = leBytes w (x / 2 ^ (8 * o)) := by
  obtain ⟨k, rfl⟩ := Nat.exists_eq_add_of_le (show o ≤ n by omega)
  rw [leBytes_drop]
  by_cases h8 : k ≤ 8
  · rw [show w = k by omega, List.take_of_length_le (by rw [leBytes_length]; exact h8)]
  · rw [show w = 8 by omega, show k = 8 + (k - 8) by omega, leBytes_take]

section
variable {s : State} {e : Issuer} {n : Nat} {lanes : List Nat} {pa val : Nat → Nat} (hup : s.hi.mbhost.getLsbD 32 = false)
  (hun : ∀ l ∈ lanes, Unowned s (pa l) n) (hnd : lanes.Nodup) (hap : Apart n lanes pa)
include hup hun hnd hap

/-- One part of the stores of lanes that do not meet, none of it to a device register. -/
theorem storePart_wrote {o w : Nat} (hw : min 8 (n - o) = w) (hon : o + w ≤ n) (hreg : ∀ l ∈ lanes, isReg (pa l + o) = false) :
    LanesWrote s ((lanes.map fun l => (l, pa l)).foldl (storeLane e n val o) s) w lanes (fun l => pa l + o)
      fun l => val l / 2 ^ (8 * o) := by
  rw [List.foldl_map]
  refine lanesWrote_fold hnd (fun l hl k hk hne => by have := hap l hl k hk hne; omega) fun t l hl ht _ => ?_
  rw [storeLane_memory (hreg l hl) (wrote_up ht hup), leBytes_part hw hon]
  refine coreWrite_unowned (fun i hi => ?_) (by rw [leBytes_length]; omega) (wrote_up ht hup)
  rw [leBytes_length] at hi
  rw [Nat.add_assoc]
  exact unowned_wrote ht (hun l hl) (o + i) (by omega)

/-- The stores of lanes that do not meet, at most 16 bytes each, no part of them to a device register. -/
theorem storeLanes_wrote (hn : n ≤ 8 ∨ n = 16) (hreg : ∀ l ∈ lanes, ∀ o ∈ accessParts n, isReg (pa l + o) = false) :
    LanesWrote s (storeLanes s e n val (lanes.map fun l => (l, pa l))) n lanes pa val := by
  have horder : ∀ u : State, laneOrder u e n (lanes.map fun l => (l, pa l)) = (lanes.map fun l => (l, pa l), u) :=
    fun u => laneOrder_apart hnd hap
  unfold storeLanes
  simp only [horder]
  rcases hn with hn | rfl
  · have hpart : accessParts n = [0] := if_neg (by omega)
    rw [hpart] at hreg ⊢
    have hlow := storePart_wrote (e := e) (val := val) (o := 0) (w := n) hup hun hnd hap (by omega) (by omega)
      fun l hl => hreg l hl 0 List.mem_cons_self
    simpa using hlow
  · have hlow := storePart_wrote (e := e) (val := val) (o := 0) (w := 8) hup hun hnd hap (by omega) (by omega)
      fun l hl => hreg l hl 0 List.mem_cons_self
    have hhigh := storePart_wrote (s := (lanes.map fun l => (l, pa l)).foldl (storeLane e 16 val 0) s) (e := e) (val := val) (o := 8) (w := 8)
      (wrote_up hlow.wrote hup) (fun l hl => unowned_wrote hlow.wrote (hun l hl)) hnd hap (by omega) (by omega)
      fun l hl => hreg l hl 8 (List.mem_cons_of_mem _ List.mem_cons_self)
    exact lanesWrote_join (n := 8) (k := 8) hap (by simpa using hlow) hhigh

end

/-! ## Atomics (R325 to R328) -/

section
variable {s : State} {core n op : Nat} {lanes : List Nat} {pa : Nat → Nat} {args : Nat → Nat × Nat}

/-- The value that an atomic of a lane brings to its location. -/
def atomVal (s : State) (n op : Nat) (pa : Nat → Nat) (args : Nat → Nat × Nat) (l : Nat) : Nat :=
  atomNew op n (ofLeBytes (gRead s (pa l) n)) (args l).1 (args l).2

theorem gRead_charged {t : State} (h : Charged s t) (a n : Nat) : gRead t a n = gRead s a n := gRead_congr fun _ _ => charged_byte h _

theorem atomVal_charged {t : State} (h : Charged s t) : atomVal t n op pa args = atomVal s n op pa args := by
  unfold atomVal
  simp only [gRead_charged h]

/-- A lane's atomic where the bytes of its location are still those of an earlier state. -/
theorem atomAt_plain {t : State} {a x y : Nat} (hup : s.hi.mbhost.getLsbD 32 = false) (hun : Unowned s a n) (hreg : isReg a = false)
    (hp : gPoisoned s a n = false) (hn : n < 32) (ht : Wrote s t) (hsame : ∀ i, i < n → rawByte t (a + i) = rawByte s (a + i)) :
    Wrote t (atomAt t core a n op x y).1 ∧
    (atomAt t core a n op x y).1.mem = writeBytes Config.memDefault t.mem a (leBytes n (atomNew op n (ofLeBytes (gRead s a n)) x y)) ∧
    (atomAt t core a n op x y).2 = ofLeBytes (gRead s a n) := by
  have hdrop := charged_l1DropRange t core a n
  have hmem : (l1DropRange t core a n).mem = t.mem := by rw [hdrop.device]
  have hw : Wrote s (l1DropRange t core a n) := wrote_trans ht (wrote_charged hdrop)
  have hread : gRead (l1DropRange t core a n) a n = gRead s a n := gRead_congr fun i hi =>
    gByte_mem (wrote_blocks hw) ((congrArg (fun m => spGet Config.memDefault m (a + i)) hmem).trans (hsame i hi))
  unfold atomAt
  rw [hreg, if_neg Bool.false_ne_true, memAtomic_unowned (unowned_wrote hw hun) hn (wrote_up hw hup) ((gPoisoned_wrote hw hup).trans hp),
    hread, hmem]
  exact ⟨wrote_trans (wrote_charged hdrop) (wrote_mem _ _ (charged_of rfl)), rfl, rfl⟩

variable (hup : s.hi.mbhost.getLsbD 32 = false) (hn : n < 32) (hun : ∀ l ∈ lanes, Unowned s (pa l) n)
  (hreg : ∀ l ∈ lanes, isReg (pa l) = false) (hp : ∀ l ∈ lanes, gPoisoned s (pa l) n = false) (hnd : lanes.Nodup) (hap : Apart n lanes pa)
include hup hn hun hreg hp hnd hap

/-- Atomics of lanes that do not meet, one after another. -/
theorem atomics_wrote : LanesWrote s (lanes.foldl (fun t l => (atomAt t core (pa l) n op (args l).1 (args l).2).1) s) n lanes pa
    (atomVal s n op pa args) := by
  refine lanesWrote_fold hnd hap fun t l hl ht hsame => ?_
  obtain ⟨hwrote, hmem, -⟩ := atomAt_plain (core := core) (op := op) (x := (args l).1) (y := (args l).2) hup (hun l hl) (hreg l hl) (hp l hl)
    hn ht hsame
  exact ⟨hwrote, hmem⟩

/-- The REDs of lanes that do not meet: atomics without a compare value. -/
theorem reds_wrote {e : Issuer} {val : Nat → Nat} : LanesWrote s ((lanes.map fun l => (l, pa l)).foldl (redLane e n op val) s) n lanes pa
    (atomVal s n op pa fun l => (val l, 0)) := by
  rw [List.foldl_map]
  refine lanesWrote_fold hnd hap fun t l hl ht hsame => ?_
  obtain ⟨hwrote, hmem, -⟩ := atomAt_plain (core := e.b.core) (op := op) (x := val l) (y := 0) hup (hun l hl) (hreg l hl) (hp l hl) hn ht hsame
  rw [redLane, (gPoisoned_wrote ht hup).trans (hp l hl), Bool.and_false, if_neg Bool.false_ne_true]
  exact ⟨hwrote, hmem⟩

end

/-- The lanes of an ATOM outside deterministic user code, apart: each leaves its new value and gets the old one. -/
theorem atomLanes_apart {s : State} {e : Issuer} {m : M64} {pa : Nat → Nat} (hbuf : buffered e = false) (hup : s.hi.mbhost.getLsbD 32 = false)
    (hn : widthBytes m.width < 32) (lanes : List Nat) (hnd : lanes.Nodup) (hap : Apart (widthBytes m.width) lanes pa)
    (hun : ∀ l ∈ lanes, Unowned s (pa l) (widthBytes m.width)) (hreg : ∀ l ∈ lanes, isReg (pa l) = false)
    (hp : ∀ l ∈ lanes, gPoisoned s (pa l) (widthBytes m.width) = false) :
    atomLanes e m s (lanes.map fun l => (l, pa l)) =
      (lanes.foldl (fun t l => (atomAt t e.b.core (pa l) (widthBytes m.width) (atomOp m) (atomArgs e m l).1 (atomArgs e m l).2).1) s,
       lanes.map fun l => (l, ofLeBytes (gRead s (pa l) (widthBytes m.width)))) := by
  induction lanes using List.reverseRecOn with
  | nil => rfl
  | append_singleton ls l ih =>
    have hmem : ∀ k ∈ ls, k ∈ ls ++ [l] := fun k hk => List.mem_append_left _ hk
    have hlast : l ∈ ls ++ [l] := List.mem_append_right _ List.mem_cons_self
    obtain ⟨hndls, -, hdisj⟩ := List.nodup_append.1 hnd
    have hapls : Apart (widthBytes m.width) ls pa := fun j hj k hk => hap j (hmem j hj) k (hmem k hk)
    have hls := atomics_wrote (core := e.b.core) (op := atomOp m) (args := atomArgs e m) hup hn (fun k hk => hun k (hmem k hk))
      (fun k hk => hreg k (hmem k hk)) (fun k hk => hp k (hmem k hk)) hndls hapls
    have hih := ih hndls hapls (fun k hk => hun k (hmem k hk)) (fun k hk => hreg k (hmem k hk)) (fun k hk => hp k (hmem k hk))
    obtain ⟨-, -, hold⟩ := atomAt_plain (core := e.b.core) (op := atomOp m) (x := (atomArgs e m l).1) (y := (atomArgs e m l).2) hup (hun l hlast)
      (hreg l hlast) (hp l hlast) hn hls.wrote fun i hi => hls.others _ fun k hk => by
        have := hap l hlast k (hmem k hk) fun he => hdisj k hk l List.mem_cons_self he.symm
        omega
    unfold atomLanes at hih ⊢
    rw [m64Bytes] at hih ⊢
    rw [List.map_append, List.foldl_append, hih, List.foldl_append, List.map_append]
    simp only [List.map_cons, List.map_nil, List.foldl_cons, List.foldl_nil, hbuf, Bool.false_eq_true, if_false, hold]

/-! ## ST, RED and ATOM where the lanes' accesses meet plain memory -/

/-- The premises of O18 on the accesses of an instruction. -/
structure PlainAccesses (s : State) (e : Issuer) (m : M64) (pa : Nat → Nat) : Prop where
  base : operandCause e (activeLanes e m.pred) [baseOpnd m false] .null 1 = none
  plain : widthPlain m.width = true
  reaches : Reaches s e .write (widthBytes m.width) (activeLanes e m.pred) (m64Addr e m false) pa
  apart : Apart (widthBytes m.width) (activeLanes e m.pred) pa
  up : s.hi.mbhost.getLsbD 32 = false
  memory : ∀ l ∈ activeLanes e m.pred, isReg (pa l) = false ∧ Unowned s (pa l) (widthBytes m.width)

theorem widthBytes_lt {w : Width} (h : widthPlain w = true) : widthBytes w < 32 := by
  have := widthBytes_plain h
  omega

theorem isReg_iff (a : Nat) : isReg a = true ↔ 0x022000000000 ≤ a ∧ a ≤ 0x022000FFFFFF := by
  unfold isReg tierOf
  repeat' split
  all_goals simp only [beq_iff_eq, reduceCtorEq, Option.some.injEq, false_iff, true_iff]
  all_goals omega

/-- No part of an aligned access to memory lies in a device register. -/
theorem isReg_part {n a o : Nat} (hal : a % n = 0) (h : isReg a = false) (ho : o ∈ accessParts n) : isReg (a + o) = false := by
  rw [Bool.eq_false_iff, ne_eq, isReg_iff] at h ⊢
  by_cases hn : n = 16
  · subst hn
    have : o = 0 ∨ o = 8 := by simpa [accessParts] using ho
    omega
  · have : o = 0 := by simpa [accessParts, hn] using ho
    omega

/-- The state from which the lanes of an ATOM act: its accesses are charged, and a wide acquire has emptied the core's L1. -/
def atomStart (s : State) (e : Issuer) (m : M64) (as : List (Nat × Nat)) : State :=
  let t := chargeLanes s e m (widthBytes m.width) as
  if wideAcquire m then acquired t e else t

theorem charged_atomStart (s : State) (e : Issuer) (m : M64) (as : List (Nat × Nat)) : Charged s (atomStart s e m as) := by
  have hcharged := charged_chargeLanes s e m (widthBytes m.width) as
  unfold atomStart
  dsimp only
  split
  · exact charged_trans hcharged (charged_acquired _ e)
  · exact hcharged

section
variable {s : State} {e : Issuer} {m : M64} {pa : Nat → Nat} (hbuf : buffered e = false) (hm : PlainAccesses s e m pa)
  (hp : ∀ l ∈ activeLanes e m.pred, gPoisoned s (pa l) (widthBytes m.width) = false)
include hbuf hm hp

/-- An ATOM outside deterministic user code whose locations are not poisoned: its lanes act, and what they give is written back. -/
theorem exec_atom (hdata : regsCause e (activeLanes e m.pred) m.data (if atomOp m = 9 then 2 * widthRegs m.width else widthRegs m.width) = none) :
    ∃ body, exec (.atom m) s = issue s 8 .last false body ∧ body e =
      (let x := atomLanes e m (atomStart s e m (storeAccesses e m pa)) (storeAccesses e m pa)
       .ok (putPack x.1 e.ref.blk (writeBack (inSup e.f) (dstOf m.data) false (widthRegs m.width) x.2 (refresh x.1 e).p))
         { res := latchOf (dstOf m.data) (activeLanes e m.pred) x.2 }) := by
  have hturn : needsTurn s e = false := by rw [needsTurn, show (e.l.det && !inSup e.f) = false from hbuf, Bool.false_and]
  have hhold : memHold s e ((storeAccesses e m pa).map (·.2)) = none := by
    rw [storeAccesses, List.map_map]
    exact hm.reaches.2
  have hnofault : firstFault ((storeAccesses e m pa).map fun a =>
      (a.1, if !isReg a.2 && gPoisoned s a.2 (widthBytes m.width) then some (0x0E, m64Addr e m false a.1) else none)) = none := by
    refine firstFault_none (List.forall_mem_map.2 (List.forall_mem_map.2 fun l hl => ?_))
    rw [hp l hl, Bool.and_false]
    rfl
  have hdone : ∀ t : State, (if (activeLanes e m.pred).isEmpty then t else syncDone t e) = t := fun t => by
    rw [syncDone, hbuf]
    exact ite_self t
  have horder : ∀ t, laneOrder t e (widthBytes m.width) (storeAccesses e m pa) = (storeAccesses e m pa, t) := fun t =>
    laneOrder_apart (activeLanes_nodup e m.pred) hm.apart
  refine ⟨_, rfl, ?_⟩
  dsimp only
  rw [firstCause_pair hm.base hdata]
  dsimp only
  rw [m64Bytes, xlate_lanes hm.reaches.1, missed_ok, reached_ok, ← storeAccesses]
  dsimp only
  rw [hhold]
  dsimp only
  rw [hturn, Bool.false_and, if_neg Bool.false_ne_true, hnofault]
  dsimp only
  rw [horder]
  dsimp only
  rw [hdone]
  rfl

/-- What its lanes leave, and the old values that they get. -/
theorem atomLanes_wrote : ∃ u, atomLanes e m (atomStart s e m (storeAccesses e m pa)) (storeAccesses e m pa) =
      (u, (activeLanes e m.pred).map fun l => (l, ofLeBytes (gRead s (pa l) (widthBytes m.width)))) ∧
    LanesWrote s u (widthBytes m.width) (activeLanes e m.pred) pa (atomVal s (widthBytes m.width) (atomOp m) pa (atomArgs e m)) := by
  have hcharged := charged_atomStart s e m (storeAccesses e m pa)
  generalize atomStart s e m (storeAccesses e m pa) = v at hcharged ⊢
  have hwrote := wrote_charged hcharged
  have hup := wrote_up hwrote hm.up
  have hn := widthBytes_lt hm.plain
  have hnd := activeLanes_nodup e m.pred
  have hun : ∀ l ∈ activeLanes e m.pred, Unowned v (pa l) (widthBytes m.width) := fun l hl => unowned_wrote hwrote (hm.memory l hl).2
  have hreg : ∀ l ∈ activeLanes e m.pred, isReg (pa l) = false := fun l hl => (hm.memory l hl).1
  have hclean : ∀ l ∈ activeLanes e m.pred, gPoisoned v (pa l) (widthBytes m.width) = false := fun l hl =>
    (gPoisoned_wrote hwrote hm.up).trans (hp l hl)
  have hlanes := atomLanes_apart hbuf hup hn _ hnd hm.apart hun hreg hclean
  have hw := lanesWrote_charged hcharged (atomics_wrote (core := e.b.core) (op := atomOp m) (args := atomArgs e m) hup hn hun hreg hclean hnd
    hm.apart)
  simp only [gRead_charged hcharged] at hlanes
  rw [atomVal_charged hcharged] at hw
  exact ⟨_, hlanes, hw⟩

end

section
variable {s : State} {e : Issuer} {m : M64} {pa : Nat → Nat} (h : IssuesAlone s e) (hbuf : buffered e = false) (hm : PlainAccesses s e m pa)
include h hbuf hm

/-- A store or RED that is performed leaves what its lanes wrote. -/
theorem completes_lanesWrote {i : Instr} {ops : List BufOp} {t : State} {val : Nat → Nat}
    (hx : ∃ body, exec i s = issue s 8 .last false body ∧ body e = storeAct s e (storeAccesses e m pa) ops t)
    (hw : LanesWrote s t (widthBytes m.width) (activeLanes e m.pred) pa val) : Completes i s e 8 fun t r => r = {} ∧
      BytesStored s t (widthBytes m.width) (activeLanes e m.pred) pa val ∧ Charged { s with mem := t.mem } t := by
  have hhold : memHold s e ((storeAccesses e m pa).map (·.2)) = none := by
    rw [storeAccesses, List.map_map]
    exact hm.reaches.2
  exact ⟨t, {}, _, store_performs h hbuf hhold hx, retired_retire ((wrote_issuer hw.wrote _).trans h.1.2), rfl,
    lanesWrote_stored (fun l hl => (hm.memory l hl).2) hw, hw.wrote⟩

/-- What holds of O18's clause on ST: it stores as stated where the physical addresses are aligned too. -/
theorem st_stores (hal : ∀ l ∈ activeLanes e m.pred, pa l % widthBytes m.width = 0)
    (hdata : regsCause e (activeLanes e m.pred) m.data (widthRegs m.width) = none) : Completes (.st m) s e 8 fun t r => r = {} ∧
      BytesStored s t (widthBytes m.width) (activeLanes e m.pred) pa (regsVal e m.data (widthRegs m.width)) ∧
      Charged { s with mem := t.mem } t := by
  have hcharged := charged_chargeLanes s e m (widthBytes m.width) (storeAccesses e m pa)
  have hwrote := wrote_charged hcharged
  exact completes_lanesWrote h hbuf hm (exec_st ⟨hm.base, hdata, hm.reaches.1⟩) (lanesWrote_charged hcharged
    (storeLanes_wrote (wrote_up hwrote hm.up) (fun l hl => unowned_wrote hwrote (hm.memory l hl).2) (activeLanes_nodup e m.pred) hm.apart
      (widthBytes_plain hm.plain) fun l hl o ho => isReg_part (hal l hl) (hm.memory l hl).1 ho))

/-- O18's clause on RED, which holds. -/
theorem red_stores (hp : ∀ l ∈ activeLanes e m.pred, gPoisoned s (pa l) (widthBytes m.width) = false)
    (hdata : regsCause e (activeLanes e m.pred) m.data (widthRegs m.width) = none) : Completes (.red m) s e 8 fun t r => r = {} ∧
      BytesStored s t (widthBytes m.width) (activeLanes e m.pred) pa
        (atomVal s (widthBytes m.width) (atomOp m) pa fun l => (redVal e m l, 0)) ∧
      Charged { s with mem := t.mem } t := by
  have hcharged := charged_chargeLanes s e m (widthBytes m.width) (storeAccesses e m pa)
  have hwrote := wrote_charged hcharged
  have hw := lanesWrote_charged hcharged (reds_wrote (e := e) (op := atomOp m) (val := redVal e m) (wrote_up hwrote hm.up)
    (widthBytes_lt hm.plain) (fun l hl => unowned_wrote hwrote (hm.memory l hl).2) (fun l hl => (hm.memory l hl).1)
    (fun l hl => (gPoisoned_wrote hwrote hm.up).trans (hp l hl)) (activeLanes_nodup e m.pred) hm.apart)
  rw [atomVal_charged hcharged] at hw
  refine completes_lanesWrote h hbuf hm (exec_red ⟨hm.base, hdata, hm.reaches.1⟩) ?_
  dsimp only
  rw [storeAccesses, laneOrder_apart (activeLanes_nodup e m.pred) hm.apart]
  exact hw

/-- O18's clause on ATOM, which holds. -/
theorem atom_stores (hp : ∀ l ∈ activeLanes e m.pred, gPoisoned s (pa l) (widthBytes m.width) = false)
    (hdata : regsCause e (activeLanes e m.pred) m.data (if atomOp m = 9 then 2 * widthRegs m.width else widthRegs m.width) = none) :
    Completes (.atom m) s e 8 fun t r => ∃ u,
      BytesStored s u (widthBytes m.width) (activeLanes e m.pred) pa (atomVal s (widthBytes m.width) (atomOp m) pa (atomArgs e m)) ∧
      Charged { s with mem := u.mem } u ∧ ResultOnly u t e (dstOf m.data) false (widthRegs m.width) (activeLanes e m.pred)
        (fun l => ofLeBytes (gRead s (pa l) (widthBytes m.width))) r := by
  obtain ⟨body, hx, ha⟩ := exec_atom hbuf hm hp hdata
  obtain ⟨u, hlanes, hw⟩ := atomLanes_wrote hbuf hm hp
  have hi : issuerAt u e.ref = some e := (wrote_issuer hw.wrote _).trans h.1.2
  dsimp only at ha
  rw [hlanes] at ha
  dsimp only at ha
  rw [refresh_of hi] at ha
  obtain ⟨e', he'⟩ := issuer_writeBack hi (charged_refl u) (dstOf m.data) false (widthRegs m.width)
    ((activeLanes e m.pred).map fun l => (l, ofLeBytes (gRead s (pa l) (widthBytes m.width))))
  exact completes hx h.1 (burstOk_alone h.2 .last) (.inl rfl) ha he' ⟨u, lanesWrote_stored (fun l hl => (hm.memory l hl).2) hw, hw.wrote,
    resultOnly_writeBack hi _ _ _ (fun l hl => mem_activeLanes hl) _⟩

end

/-! ## A store of 16 bytes across the edge of the device registers -/

def edgeSlice : Slice := { lanes := List.replicate 4 {}, mask := 1, live := 1 }

/-- A fragment in its handler, which may use s56 to s63 whatever its launch gives (R488). -/
def edgeFrag : Fragment :=
  { pc := 0x2000, slices := 1,
    frame := some { info := { cause := 0x13 }, slices := 1, saved := [saveSlice edgeSlice], latches := [], resume := 0x1000 } }

/-- s56:s57 hold the virtual address, s60 to s63 the value 2^64. -/
def edgePack : Pack :=
  { pidx := 0, pos := 0, width := 8, slot := 0, slices := [edgeSlice], frags := [edgeFrag], sb := [(56, 0x1000), (62, 1)] }

def edgeBlock : Block := { bid := 2, launch := 1, linear := 0, core := 0, base := 0, packs := [edgePack], tdbase := 0, capbase := 0 }

def edgeLaunch : Launch :=
  { lid := 1, packet := 0, region := 0, ctx := 0, args := 0, arg0 := none, det := false, strict := false,
    prio := 0, quantum := 1 }

def edgeRef : FragRef := { blk := 2, pidx := 0, pos := 0, frag := 0 }

/-- A translation whose virtual base is no multiple of 16: the virtual address 0x1000 is at 8 bytes below the device registers. -/
def edgeEntry : TlbEntry := { place := .core 0, ctx := 0, va := 8, k := 12, leaf := 0x21FFFFFF02F }

def edgePa : Nat := 0x21FFFFFFFF8

def edgeState : State :=
  { State.reset with blocks := [edgeBlock], launches := [edgeLaunch], cur := some edgeRef, tlb := [edgeEntry], sys := { budgetcfg := 0 } }

def edgeIssuer : Issuer := { ref := edgeRef, b := edgeBlock, p := edgePack, f := edgeFrag, l := edgeLaunch }

/-- ST.b128 [s56:s57], s60. -/
def edgeSt : M64 := { data := .s 60, nowb := false, pred := { neg := false, idx := 7 }, base := .s 56, off := 0, width := .b128, order := .plain,
                      scope := .block, sel := 0, ext := 0 }

theorem edge_issues : IssuesAlone edgeState edgeIssuer := ⟨⟨rfl, rfl⟩, rfl⟩

theorem edge_lanes : activeLanes edgeIssuer edgeSt.pred = [0] := by decide

theorem edge_unowned (a n : Nat) : Unowned edgeState a n := fun _ _ => rfl

theorem edge_accesses : PlainAccesses edgeState edgeIssuer edgeSt fun _ => edgePa where
  base := by decide
  plain := rfl
  reaches := by
    rw [edge_lanes]
    exact ⟨by decide, by decide⟩
  apart := by
    rw [edge_lanes]
    intro l hl k hk hne
    rw [List.mem_singleton.1 hl, List.mem_singleton.1 hk] at hne
    exact absurd rfl hne
  up := by decide
  memory := fun _ _ => ⟨by decide, edge_unowned _ _⟩

theorem edge_data : regsCause edgeIssuer (activeLanes edgeIssuer edgeSt.pred) edgeSt.data (widthRegs edgeSt.width) = none := by decide

/-- A write of the first device register, HIID, has no effect (R449). -/
theorem regWrite_hiid (s : State) {bs : List Byte} (h : bs.length = 8) : regWrite s 0x22000000000 bs = s := by
  have hput : ∀ x, hostRegPut s 0 x = s := fun x => by
    unfold hostRegPut
    split
    · rfl
    · rfl
  unfold regWrite
  rw [h]
  exact hput _

/-- The upper half of a store at that address is lost. -/
theorem edge_storeLanes {s : State} (hw : Wrote edgeState s) (val : Nat → Nat) :
    LanesWrote s (storeLanes s edgeIssuer 16 val [(0, edgePa)]) 8 [0] (fun _ => edgePa) val := by
  have hlost : ∀ t : State, storeLane edgeIssuer 16 val 8 t (0, edgePa) = t := fun t =>
    (storeLane_register (by decide)).trans (regWrite_hiid t rfl)
  have hlow := storePart_wrote (e := edgeIssuer) (n := 16) (lanes := [0]) (pa := fun _ => edgePa) (val := val) (o := 0) (w := 8)
    (wrote_up hw edge_accesses.up) (fun l _ => unowned_wrote hw (edge_unowned _ _)) (List.nodup_singleton 0)
    (edge_lanes ▸ edge_accesses.apart) rfl (by decide) fun _ _ => by decide
  have hstores : storeLanes s edgeIssuer 16 val [(0, edgePa)] = storeLane edgeIssuer 16 val 0 s (0, edgePa) := hlost _
  rw [hstores]
  simpa using hlow

/-- After the store the first byte of that half is what it was. -/
theorem edge_byteKept {t : State} (hx : exec (.st edgeSt) edgeState = .next t) : gByte t (edgePa + 8) = 0 := by
  have hlanes : storeAccesses edgeIssuer edgeSt (fun _ => edgePa) = [(0, edgePa)] := by
    rw [storeAccesses, edge_lanes]
    rfl
  have hperform := store_performs edge_issues rfl (by rw [hlanes]; decide) (exec_st ⟨edge_accesses.base, edge_data, edge_accesses.reaches.1⟩)
  rw [hlanes, hx, Host.Outcome.next.injEq] at hperform
  have hcharged := charged_chargeLanes edgeState edgeIssuer edgeSt 16 [(0, edgePa)]
  have hwrote := lanesWrote_charged hcharged (edge_storeLanes (wrote_charged hcharged) (regsVal edgeIssuer edgeSt.data 4))
  have hretired := retire_spec (e := edgeIssuer) (len := 8) (r := {}) ((wrote_issuer hwrote.wrote edgeRef).trans edge_issues.1.2)
  rw [hperform]
  calc _ = _ := hretired.1.bytes (edgePa + 8)
    _ = _ := gByte_unowned (unowned_wrote hwrote.wrote (edge_unowned edgePa 9) 8 (by decide))
    _ = rawByte edgeState (edgePa + 8) := hwrote.others _ fun _ _ => by omega
    _ = 0 := rfl

/-- Refutes O18 at its clause on ST: the virtual address is aligned and its physical address is plain memory, but a store of 16 bytes is
two of 8 (R163), and through a translation that does not keep the alignment the second is at HIID, which ignores it: the bytes of
memory there keep their value. -/
theorem not_storesAndAtomics : ¬ Obligations.StoresAndAtomics := by
  unfold Obligations.StoresAndAtomics
  intro h
  obtain ⟨hst, -⟩ := h edgeState edgeIssuer edgeSt edge_issues rfl edge_accesses.base rfl _ edge_accesses.reaches edge_accesses.apart
    edge_accesses.up edge_accesses.memory
  obtain ⟨u, r, t, hx, ⟨hframe, -⟩, -, ⟨hbytes, -⟩, -⟩ := hst edge_data
  have hkept : gByte u (edgePa + 8) = 0 := (hframe.bytes _).symm.trans (edge_byteKept hx)
  have hstored := hbytes 0 (by rw [edge_lanes]; exact List.mem_cons_self) 8 (by decide)
  rw [hkept] at hstored
  exact absurd hstored (by decide)

end Sys2Proof.Proofs
end

section
/-! Family 11_isa_matrix: rules shared by matrix instructions, and TDGET and TDSET (O34; R353, R363). -/

namespace Sys2Proof.Proofs

open Sys2Proof Sys2Proof.Machine Sys2Proof.Safety Sys2Proof.Laws

/-! ## Instructions with octets left to them -/

section
variable {i : Instr} {s : State} {e : Issuer} {body : Issuer → Act} {res : Pack → Retire} {a : Act}

/-- The body of a matrix instruction with octets left to it comes to an act, past the check of its operands. -/
def ComesTo (s : State) (e : Issuer) (body : Issuer → Act) (a : Act) : Prop :=
  ∃ res k, body e = matIssue s e res k ∧ k (todoOctets e.p e.f) = a

section
variable (h : IssuesAlone s e) (hr : pairReady e.p e.f = true) (ho : todoOctets e.p e.f ≠ [])
include h hr ho

/-- A pack-level instruction traps where its body does. -/
theorem traps_pack {place : BurstPlace} {t : TrapInfo} (hx : exec i s = issue s 8 place false body) (ha : ComesTo s e body (.trap t)) :
    exec i s = .next (takeTrap s e t) := by
  obtain ⟨res, k, hb, hk⟩ := ha
  exact traps hx h.1 (burstOk_alone h.2 _) (.inl rfl) (hb.trans (matIssue_stops hr ho hk fun _ _ => Act.noConfusion))

/-- An octet-level instruction traps where its body does, and says that its trap is of octets (R486). -/
theorem traps_octet {t : TrapInfo} (hx : exec i s = issueOctet s body) (ha : ComesTo s e body (.trap t)) :
    exec i s = .next (takeTrap s e (octetTrap t)) := by
  obtain ⟨res, k, hb, hk⟩ := ha
  refine traps (hx.trans (issueOctet_alone h body)) h.1 (burstOk_alone h.2 _) (.inl rfl) ?_
  rw [hb, matIssue_stops hr ho hk fun _ _ => Act.noConfusion]
  rfl

/-- An octet-level instruction whose body says itself what it leaves. -/
theorem owns_octet {t : State} (hx : exec i s = issueOctet s body) (ha : ComesTo s e body (.own t)) : exec i s = .next t := by
  obtain ⟨res, k, hb, hk⟩ := ha
  refine owns (hx.trans (issueOctet_alone h body)) h.1 (burstOk_alone h.2 _) (.inl rfl) ?_
  rw [hb, matIssue_stops hr ho hk fun _ _ => Act.noConfusion]
  rfl

end

end

/-- A FORMAT fault of a pack-level instruction: every live lane raises it. -/
theorem matTrap_format (e : Issuer) (a : Nat) : matTrap false (packLanes e) [(0, [(0x08, a)])] =
    some (trapLanes 0x08 ((liveLanes e.p e.f).map fun l => (l, a))) := by
  show some { trapLanes 0x08 ([(0, a)].flatMap fun o => (packLanes e o.1).map fun l => (l, o.2)) with octet := false } = _
  rw [List.flatMap_singleton]
  rfl

/-! ## TDGET -/

section
variable {s : State} {e : Issuer} {x : X64}

/-- TDGET writes the words of the entry to its uniform registers; its latch takes what they hold. -/
theorem tdget_reads (h : IssuesAlone s e) (hr : pairReady e.p e.f = true) (ho : todoOctets e.p e.f ≠ []) {w a : Nat} {n : BitVec 6}
    (hentry : entryOf s e x.tid.toNat = .ok (w, a)) (hreg : x.reg = .s n) (hdst : dstCause e [] (.s n) 16 = none)
    (hheld : memHold s e (issuerTr s e a).toList = none) (hrace : strictRace s e (issuerTr s e a).toList = false) :
    Performs (.tdget x) s e fun v r => ∃ u p, Charged s u ∧ PackIs u v e p ∧ SetsUniform e.p p (inSup e.f) n.toNat 16 w ∧
      r = { res := latchOf (.s n) (maskLanes e.p e.f) ((maskLanes e.p e.f).map fun l => (l, getSRange (inSup e.f) p n.toNat 4)) } := by
  have hu : Charged s (chargeSectors s e.l.region ((issuerTr s e a).toList.map fun pa => (pa, 64))) := charged_chargeSectors _ _ _
  generalize hcharged : chargeSectors s e.l.region ((issuerTr s e a).toList.map fun pa => (pa, 64)) = u at hu
  have hiu : issuerAt u e.ref = some e := (charged_issuer hu _).trans h.1.2
  obtain ⟨-, hblk, -, -, hfrag⟩ := issuerAt_eq.1 hiu
  have hset := setsUniform_putSRange (inSup e.f) n.toNat w 16 e.p
  generalize hp : putSRange (inSup e.f) n.toNat w 16 e.p = p at hset
  have hpidx : p.pidx = e.p.pidx := by rw [hset.1]
  have hpos : p.pos = e.p.pos := by rw [hset.1]
  have hfrags : p.frags = e.p.frags := by rw [hset.1]
  have hiv := issuerAt_set hiu hpidx hpos (f := e.f) (by unfold getFrag at hfrag ⊢; rw [hfrags]; exact hfrag)
  refine performs_of (res := tdgetRes e x) (r := {}) rfl h.1 (burstOk_alone h.2 _) hr ho ⟨_, by rw [hreg, dstOf, hdst], ?_⟩ hiv
    ⟨u, p, hu, packIs_set hiu hpidx hpos, hset, ?_⟩
  · simp only [hentry, hheld, hrace, hcharged, refresh_of hiu, hp, putPack_eq hblk, Bool.false_eq_true, if_false]
  · obtain ⟨fr, hfr⟩ := refresh_markPartners (octs := todoOctets e.p e.f) hiv hpidx hpos
    rw [hfr, tdgetRes, hreg]
    rfl

/-! ## TDSET -/

theorem kept_storeBytes (s : State) (e : Issuer) (pa : Nat) (bs : List Byte) : Kept s (storeBytes s e pa bs) := by
  unfold storeBytes
  split
  · exact kept_regWrite _ _ _
  · split
    · exact kept_postMemoryError _ _ _ _
    · exact kept_trans (kept_linesMoved (linesMoved_gWrite _ _ _)) (kept_charged (charged_l1DropRange _ _ _ _))

theorem kept_syncStore (s : State) (e : Issuer) (pa : Nat) (bs : List Byte) : Kept s (syncStore s e pa bs) := by
  unfold syncStore
  dsimp only
  exact kept_ite (kept_trans (kept_storeBytes _ _ _ _) (kept_noteEffect _ _ _ _ _ _)) (kept_storeBytes _ _ _ _)

section
variable (h : IssuesAlone s e) (hr : pairReady e.p e.f = true) (ho : todoOctets e.p e.f ≠ [])
  (hregs : regsCause e [] x.reg 16 = none) {pa : Nat} (hpa : xlate s e.l.ctx (inSup e.f) .write (tdAddr e x.tid.toNat) = .ok pa)
include h hr ho hregs hpa

/-- An entry that claims validity without obeying R353 is FORMAT. -/
theorem tdset_format (hvalid : (regsVal e x.reg 16 0).testBit 3 = true) (hbad : entryOk (regsVal e x.reg 16 0) = false) :
    exec (.tdset x) s =
      .next (takeTrap s e (trapLanes 0x08 ((liveLanes e.p e.f).map fun l => (l, tdAddr e x.tid.toNat)))) := by
  refine traps_pack h hr ho rfl ⟨noRes, _, by dsimp only; rw [hregs], ?_⟩
  simp only [hpa, hvalid, hbad, Bool.not_false, Bool.and_self, if_true, List.append_nil]
  rw [matTrap_format]

/-- Another entry is stored, as a synchronising operation. -/
theorem tdset_stores (hturn : needsTurn s e = false)
    (hok : (regsVal e x.reg 16 0).testBit 3 = true → entryOk (regsVal e x.reg 16 0) = true) (hheld : memHold s e [pa] = none) :
    Performs (.tdset x) s e fun v r => r = {} ∧
      ∃ u, Charged s u ∧ Stirred (syncStore u e pa (leBytes 64 (regsVal e x.reg 16 0))) v := by
  have hu : Charged s (chargeSectors s e.l.region [(pa, 64)]) := charged_chargeSectors _ _ _
  have hstir := stirred_syncDone (syncStore (chargeSectors s e.l.region [(pa, 64)]) e pa (leBytes 64 (regsVal e x.reg 16 0))) e
  obtain ⟨e', he'⟩ := kept_trans (kept_trans (kept_charged hu) (kept_syncStore _ _ _ _)) (kept_stirred hstir) _ _ h.1.2
  refine performs_of (res := noRes) (r := {}) rfl h.1 (burstOk_alone h.2 _) hr ho ⟨_, by rw [hregs], ?_⟩ he' ⟨rfl, _, hu, hstir⟩
  have hgood : ((regsVal e x.reg 16 0).testBit 3 && !entryOk (regsVal e x.reg 16 0)) = false := by
    cases hb : (regsVal e x.reg 16 0).testBit 3 with
    | false => rfl
    | true => rw [hok hb]; rfl
  simp only [hpa, hgood, hturn, Bool.false_eq_true, if_false, List.append_nil]
  rw [matTrap_none (by simp)]
  dsimp only
  rw [hheld]

end

end

/-- Settles O34: TDGET writes the words of the entry to its registers; TDSET stores an entry that R353 admits. -/
theorem tensorEntries : Obligations.TensorEntries := by
  unfold Obligations.TensorEntries
  intro s e x h hr ho
  exact ⟨fun w a n hentry hreg hdst hheld hrace => tdget_reads h hr ho hentry hreg hdst hheld hrace, fun hregs hturn pa hpa =>
    ⟨tdset_format h hr ho hregs hpa, tdset_stores h hr ho hregs hpa hturn⟩⟩

end Sys2Proof.Proofs
end

section
/-! O38: MRDA and MWRA (R359, R375, R507, R508, R538). -/

namespace Sys2Proof.Proofs

open Sys2Proof Sys2Proof.Machine Sys2Proof.Safety Sys2Proof.Laws

/-! ## Words of a joined value, and entries of a store that a list of writes leaves -/

theorem elem_joinElems (w : Nat) (l : List Nat) (k : Nat) : elem w (joinElems w l) k = l.getD k 0 % 2 ^ w := by
  unfold elem
  induction l generalizing k with
  | nil => simp [joinElems]
  | cons x xs ih =>
    have hlow : (x % 2 ^ w + 2 ^ w * joinElems w xs) / 2 ^ w = joinElems w xs := by
      rw [Nat.add_mul_div_left _ _ (Nat.two_pow_pos w), Nat.div_eq_of_lt (Nat.mod_lt _ (Nat.two_pow_pos w)), Nat.zero_add]
    cases k with
    | zero => simp [joinElems]
    | succ k =>
      rw [joinElems, Nat.mul_succ, Nat.add_comm (w * k), Nat.pow_add, ← Nat.div_div_eq_div_mul, hlow, ih]
      rfl

theorem ofNat_elem (x k : Nat) : BitVec.ofNat 32 (elem 32 x k) = wordOf x k := by
  apply BitVec.eq_of_toNat_eq
  simp [elem, Safety.wordOf]

/-- Writes whose values are a function g of their keys. -/
theorem spGet_foldl_spPut {α β : Type} [DecidableEq α] (d : α) (key : β → Nat) (g : Nat → α) (l : List β) (m : Sparse α) (j : Nat) :
    spGet d (l.foldl (fun m b => spPut d m (key b) (g (key b))) m) j = if j ∈ l.map key then g j else spGet d m j := by
  induction l generalizing m with
  | nil => rfl
  | cons b l ih =>
    rw [List.foldl_cons, ih, spGet_spPut, List.map_cons]
    by_cases hl : j ∈ l.map key
    · rw [if_pos hl, if_pos (List.mem_cons_of_mem _ hl)]
    · by_cases hb : j = key b
      · rw [if_neg hl, if_pos hb, if_pos (by rw [hb]; exact List.mem_cons_self), hb]
      · rw [if_neg hl, if_neg hb, if_neg (by simp [hb, hl])]

/-- Each key of a list takes a function of its old value. -/
theorem spGet_foldl_update {α β : Type} [DecidableEq α] (d : α) (key : β → Nat) (hkey : Function.Injective key) (g : β → α → α)
    (l : List β) (hl : l.Nodup) (m : Sparse α) :
    (∀ b ∈ l, spGet d (l.foldl (fun m b => spPut d m (key b) (g b (spGet d m (key b)))) m) (key b) = g b (spGet d m (key b))) ∧
      ∀ j, (∀ b ∈ l, j ≠ key b) →
        spGet d (l.foldl (fun m b => spPut d m (key b) (g b (spGet d m (key b)))) m) j = spGet d m j := by
  induction l generalizing m with
  | nil => exact ⟨fun _ h => absurd h List.not_mem_nil, fun _ _ => rfl⟩
  | cons a l ih =>
    obtain ⟨ha, hl⟩ := List.nodup_cons.1 hl
    obtain ⟨hin, hout⟩ := ih hl (spPut d m (key a) (g a (spGet d m (key a))))
    have hne : ∀ b ∈ l, key b ≠ key a := fun b hb h => ha (hkey h ▸ hb)
    refine ⟨List.forall_mem_cons.2 ⟨?_, fun b hb => ?_⟩, fun j hj => ?_⟩
    · rw [List.foldl_cons, hout _ fun b hb => (hne b hb).symm, spGet_spPut, if_pos rfl]
    · rw [List.foldl_cons, hin b hb, spGet_spPut, if_neg (hne b hb)]
    · obtain ⟨hja, hjl⟩ := List.forall_mem_cons.1 hj
      rw [List.foldl_cons, hout j hjl, spGet_spPut, if_neg hja]

/-! ## What the two share -/

/-- What MRDA and MWRA meet whose octets are there, on tiles that exist and that no pass is in flight on. -/
structure RowMeets (s : State) (e : Issuer) (x : X64) : Prop where
  issues : IssuesAlone s e
  ready : pairReady e.p e.f = true
  todo : todoOctets e.p e.f ≠ []
  tiles : ∀ o ∈ todoOctets e.p e.f, x.tile.toNat + o < pkAcc (launchWord e.l)
  quiet : ∀ p ∈ e.b.passes, ∀ o ∈ todoOctets e.p e.f, p.tile ≠ x.tile.toNat + o

/-- The tile of an octet. -/
def rowTile (e : Issuer) (x : X64) (o : Nat) : AccTile := spGet {} e.b.acc (x.tile.toNat + o)

section
variable {s : State} {e : Issuer} {x : X64} (hm : RowMeets s e x)
include hm

/-- They go on where their tiles are there. -/
theorem rowTiles_pass (k : Act) : afterPasses e ((todoOctets e.p e.f).map (x.tile.toNat + ·)) k = k := by
  unfold afterPasses
  rw [if_pos ((tilesQuiet_iff _ _).2 fun p hp ht => ?_)]
  obtain ⟨o, ho, heq⟩ := List.mem_map.1 ht
  exact hm.quiet p hp o ho heq.symm

theorem rowTiles_sound : matTrap true octLanes
    ((todoOctets e.p e.f).map fun o => (o, beyond (x.tile.toNat + o + 1) (pkAcc (launchWord e.l)))) = none :=
  matTrap_none (List.forall_mem_map.2 fun o ho => beyond_nil (hm.tiles o ho))

end

/-! ## MRDA -/

/-- The lanes of octets take the rows of their tiles. -/
def rowsRead (e : Issuer) (x : X64) (r : BitVec 7) (octs : List Nat) : Pack :=
  octs.foldl (fun p o => (List.range 8).foldl (fun p i =>
    putVRange (inSup e.f) (8 * o + i) r.toNat (rowWords (rowTile e x o) x.cnt.toNat i) 16 p) p) e.p

/-- They take them lane by lane. -/
theorem rowsRead_eq (e : Issuer) (x : X64) (r : BitVec 7) (octs : List Nat) : rowsRead e x r octs =
    ((octs.flatMap octLanes).map fun l => (l, rowWords (rowTile e x (l / 8)) x.cnt.toNat (l % 8))).foldl
      (fun p y => putVRange (inSup e.f) y.1 r.toNat y.2 16 p) e.p := by
  unfold rowsRead
  rw [List.foldl_map, List.foldl_flatMap]
  refine congrArg (fun f => octs.foldl f e.p) (funext fun p => funext fun o => ?_)
  rw [octLanes, List.foldl_map]
  refine List.foldl_ext _ _ _ fun q i hi => ?_
  have hi := List.mem_range.1 hi
  rw [show (8 * o + i) / 8 = o by omega, show (8 * o + i) % 8 = i by omega]

/-- A register of a row's lane. -/
theorem word_rowWords (t : AccTile) (row i : Nat) {k : Nat} (hk : k < 16) :
    wordOf (rowWords t row i) k = spGet 0 t.data (rowKey row i k) := by
  rw [← ofNat_elem, rowWords, elem_joinElems, List.getD_eq_getElem _ _ (by simpa using hk), List.getElem_map, List.getElem_range,
    Nat.mod_eq_of_lt (BitVec.isLt _), BitVec.ofNat_toNat, BitVec.setWidth_eq]

theorem mem_flatMap_octLanes {octs : List Nat} {l : Nat} : l ∈ octs.flatMap octLanes ↔ l / 8 ∈ octs := by
  simp only [List.mem_flatMap, octLanes, List.mem_map, List.mem_range]
  constructor
  · rintro ⟨o, ho, i, hi, rfl⟩
    rwa [show (8 * o + i) / 8 = o by omega]
  · exact fun h => ⟨l / 8, h, l % 8, by omega, by omega⟩

/-- A pack that differs in vector registers alone. -/
def VectorsOnly (p q : Pack) : Prop := q = { p with slices := q.slices, badV := q.badV }

theorem vectorsOnly_trans {p q r : Pack} (h : VectorsOnly p q) (k : VectorsOnly q r) : VectorsOnly p r := by
  unfold VectorsOnly at *
  generalize q.slices = a, q.badV = b at h
  subst h
  exact k

theorem vectorsOnly_putVRange (sup : Bool) (l r x n : Nat) (p : Pack) : VectorsOnly p (putVRange sup l r x n p) := by
  induction n generalizing r x p with
  | zero => rfl
  | succ n ih =>
    refine vectorsOnly_trans ?_ (ih _ _ _)
    unfold VectorsOnly putV
    dsimp only
    split <;> rfl

theorem vectorsOnly_foldl {α : Type} (g : Pack → α → Pack) (h : ∀ p y, VectorsOnly p (g p y)) (l : List α) (p : Pack) :
    VectorsOnly p (l.foldl g p) := by
  induction l generalizing p with
  | nil => rfl
  | cons a l ih => exact vectorsOnly_trans (h p a) (ih _)

theorem vectorsOnly_rowsRead (e : Issuer) (x : X64) (r : BitVec 7) (octs : List Nat) : VectorsOnly e.p (rowsRead e x r octs) := by
  rw [rowsRead_eq]
  exact vectorsOnly_foldl _ (fun p y => vectorsOnly_putVRange _ _ _ _ _ p) _ _

/-- The registers of the issuer's mode after the read. -/
theorem getV_rowsRead {e : Issuer} {x : X64} {octs : List Nat} (hlen : ∀ o ∈ octs, 8 * o + 8 ≤ e.p.slices.length * 4) (r : BitVec 7)
    (l k : Nat) : getV (inSup e.f) (rowsRead e x r octs) l k = if l / 8 ∈ octs ∧ r.toNat ≤ k ∧ k < r.toNat + 16 then
      spGet 0 (rowTile e x (l / 8)).data (rowKey x.cnt.toNat (l % 8) (k - r.toNat)) else getV (inSup e.f) e.p l k := by
  rw [rowsRead_eq, getV_foldl (fun l => rowWords (rowTile e x (l / 8)) x.cnt.toNat (l % 8)) fun l hl => by
    have := hlen _ (mem_flatMap_octLanes.1 hl); omega]
  simp only [mem_flatMap_octLanes, true_or, and_true]
  split
  · rename_i hin
    exact word_rowWords _ _ _ (by omega)
  · rfl

/-- The octets whose row is poisoned. -/
def poisonedRows (e : Issuer) (x : X64) : List Nat :=
  (todoOctets e.p e.f).filter fun o => rowPoisoned (rowTile e x o) x.cnt.toNat

section
variable {s : State} {e : Issuer} {x : X64} (hm : RowMeets s e x) {r : BitVec 7} (hreg : x.reg = .v r)
  (hdst : dstCause e [] (.v r) 16 = none) (herr : ∀ o ∈ todoOctets e.p e.f, ∀ k ∈ (rowTile e x o).errs, k / 128 ≠ x.cnt.toNat)
include hm hreg hdst herr

/-- Past its checks MRDA traps at a poisoned row, and reads the rows where none is. -/
theorem mrda_checked : ∃ body k, exec (.mrda x) s = issueOctet s body ∧ body e = matIssue s e (mrdaRes e x) k ∧
    (∀ b bs, poisonedRows e x = b :: bs →
      k (todoOctets e.p e.f) = .trap (trapLanes 0x0E ((b :: bs).flatMap fun o => (octLanes o).map fun l => (l, 0)))) ∧
    (poisonedRows e x = [] →
      k (todoOctets e.p e.f) = .ok (putPack s e.ref.blk (rowsRead e x r (todoOctets e.p e.f))) {}) := by
  have hread : readErrs e x (todoOctets e.p e.f) (fun k => k / 128 == x.cnt.toNat) = [] :=
    List.flatMap_eq_nil_iff.2 fun o ho => List.map_eq_nil_iff.2 (List.filter_eq_nil_iff.2 fun k hk => by simpa using herr o ho k hk)
  refine ⟨_, _, rfl, by rw [hreg, dstOf, hdst], fun b bs hb => ?_, fun hb => ?_⟩
  all_goals
    unfold poisonedRows rowTile at hb
    dsimp only
    rw [rowTiles_sound hm]
    dsimp only
    rw [rowTiles_pass hm, hread, hb]
  rfl

theorem mrda_traps (hp : ∃ o ∈ todoOctets e.p e.f, rowPoisoned (rowTile e x o) x.cnt.toNat = true) :
    ∃ t, t.cause = 0x0E ∧ exec (.mrda x) s = .next (takeTrap s e t) := by
  obtain ⟨body, k, hx, hb, htrap, -⟩ := mrda_checked hm hreg hdst herr
  obtain ⟨o, ho, hpo⟩ := hp
  obtain ⟨b, bs, hcons⟩ := List.exists_cons_of_ne_nil (List.ne_nil_of_mem (show o ∈ poisonedRows e x from List.mem_filter.2 ⟨ho, hpo⟩))
  exact ⟨_, rfl, traps_octet hm.issues hm.ready hm.todo hx ⟨_, k, hb, htrap b bs hcons⟩⟩

theorem mrda_reads (hlen : ∀ o ∈ todoOctets e.p e.f, 8 * o + 8 ≤ e.p.slices.length * 4)
    (hp : ∀ o ∈ todoOctets e.p e.f, rowPoisoned (rowTile e x o) x.cnt.toNat = false) :
    Performs (.mrda x) s e fun v _ => ∃ p, v = setBlock s (setPack e.b p) ∧ VectorsOnly e.p p ∧
      ∀ l k, getV (inSup e.f) p l k = if l / 8 ∈ todoOctets e.p e.f ∧ r.toNat ≤ k ∧ k < r.toNat + 16 then
        spGet 0 (rowTile e x (l / 8)).data (rowKey x.cnt.toNat (l % 8) (k - r.toNat)) else getV (inSup e.f) e.p l k := by
  obtain ⟨body, k, hx, hb, -, hok⟩ := mrda_checked hm hreg hdst herr
  have hk := hok (List.filter_eq_nil_iff.2 fun o ho => by simp [hp o ho])
  obtain ⟨-, hblk, -, -, hfrag⟩ := issuerAt_eq.1 hm.issues.1.2
  have hv := vectorsOnly_rowsRead e x r (todoOctets e.p e.f)
  have hget := getV_rowsRead (x := x) hlen r
  rw [putPack_eq hblk] at hk
  generalize rowsRead e x r (todoOctets e.p e.f) = p at hv hget hk
  have hpidx : p.pidx = e.p.pidx := by rw [hv]
  have hpos : p.pos = e.p.pos := by rw [hv]
  have hfrags : p.frags = e.p.frags := by rw [hv]
  have hi := issuerAt_set hm.issues.1.2 hpidx hpos (f := e.f) (by unfold getFrag at hfrag ⊢; rw [hfrags]; exact hfrag)
  exact performs_octet hx hm.issues hm.ready hm.todo hb hk hi ⟨p, rfl, hv, hget⟩

end

/-! ## MWRA -/

/-- The words of a tile after a lane's sixteen are put into a row. -/
theorem spGet_putRow (t : AccTile) (row x j : Nat) {i : Nat} : spGet 0 (putRow t row i x).data j =
    if j / 16 = 8 * row + i then wordOf x (j % 16) else spGet 0 t.data j := by
  have hdata : (putRow t row i x).data = (List.range 16).foldl (fun m r =>
      spPut 0 m (rowKey row i r) (wordOf x (rowKey row i r % 16))) t.data := by
    unfold putRow
    rw [← List.foldl_hom AccTile.data (g₂ := fun m r => spPut 0 m (rowKey row i r) (BitVec.ofNat 32 (elem 32 x r)))
      (fun _ _ => rfl)]
    refine List.foldl_ext _ _ _ fun m r hr => ?_
    have hr := List.mem_range.1 hr
    rw [ofNat_elem, show rowKey row i r % 16 = r by unfold rowKey; omega]
  rw [hdata, spGet_foldl_spPut 0 (rowKey row i) fun j => wordOf x (j % 16)]
  refine if_congr ?_ rfl rfl
  simp only [List.mem_map, List.mem_range, rowKey]
  exact ⟨fun ⟨r, hr, h⟩ => by omega, fun h => ⟨j % 16, by omega, by omega⟩⟩

/-- A tile after all the lanes of its octet have put theirs. -/
def rowWritten (row : Nat) (val : Nat → Nat) (t : AccTile) : AccTile :=
  (List.range 8).foldl (fun t i => putRow t row i (val i)) t

theorem spGet_foldl_putRow (row : Nat) (val : Nat → Nat) (is : List Nat) (t : AccTile) (j : Nat) :
    spGet 0 (is.foldl (fun t i => putRow t row i (val i)) t).data j =
      if ∃ i ∈ is, j / 16 = 8 * row + i then wordOf (val (j / 16 - 8 * row)) (j % 16) else spGet 0 t.data j := by
  induction is generalizing t with
  | nil => simp
  | cons i is ih =>
    rw [List.foldl_cons, ih, spGet_putRow]
    simp only [List.mem_cons, exists_eq_or_imp]
    by_cases hi : j / 16 = 8 * row + i
    · rw [if_pos hi, if_pos (Or.inl hi), show j / 16 - 8 * row = i by omega, ite_self]
    · simp only [hi, if_false, false_or]

theorem spGet_rowWritten (row : Nat) (val : Nat → Nat) (t : AccTile) (j : Nat) : spGet 0 (rowWritten row val t).data j =
    if j / 128 = row then wordOf (val (j / 16 % 8)) (j % 16) else spGet 0 t.data j := by
  rw [rowWritten, spGet_foldl_putRow]
  by_cases hj : j / 128 = row
  · rw [if_pos ⟨j / 16 - 8 * row, List.mem_range.2 (by omega), by omega⟩, if_pos hj, show j / 16 - 8 * row = j / 16 % 8 by omega]
  · rw [if_neg fun ⟨i, hi, h⟩ => hj (by have := List.mem_range.1 hi; omega), if_neg hj]

/-- The tiles after each octet has written its row. -/
def rowsWritten (e : Issuer) (x : X64) (octs : List Nat) : Sparse AccTile :=
  octs.foldl (fun acc o => spPut {} acc (x.tile.toNat + o)
    (rowWritten x.cnt.toNat (fun i => regsVal e x.reg 16 (8 * o + i)) (spGet {} acc (x.tile.toNat + o)))) e.b.acc

theorem rowsWritten_spec (e : Issuer) (x : X64) {octs : List Nat} (hnd : octs.Nodup) :
    (∀ o ∈ octs, spGet {} (rowsWritten e x octs) (x.tile.toNat + o) =
      rowWritten x.cnt.toNat (fun i => regsVal e x.reg 16 (8 * o + i)) (rowTile e x o)) ∧
    ∀ t, (∀ o ∈ octs, t ≠ x.tile.toNat + o) → spGet {} (rowsWritten e x octs) t = spGet {} e.b.acc t :=
  spGet_foldl_update {} (x.tile.toNat + ·) (fun _ _ h => Nat.add_left_cancel h)
    (fun o => rowWritten x.cnt.toNat fun i => regsVal e x.reg 16 (8 * o + i)) octs hnd e.b.acc

/-- MWRA writes the rows of its tiles. -/
theorem mwra_writes {s : State} {e : Issuer} {x : X64} (hm : RowMeets s e x)
    (hregs : regsCause e ((todoOctets e.p e.f).flatMap octLanes) x.reg 16 = none) :
    Performs (.mwra x) s e fun v r => r = {} ∧ v = setBlock s { e.b with acc := rowsWritten e x (todoOctets e.p e.f) } := by
  obtain ⟨-, hblk, -⟩ := issuerAt_eq.1 hm.issues.1.2
  obtain ⟨e', he'⟩ := kept_setBlock_packs hblk (c := { e.b with acc := rowsWritten e x (todoOctets e.p e.f) }) rfl rfl rfl _ _
    hm.issues.1.2
  refine performs_octet (res := noRes) (r := {}) rfl hm.issues hm.ready hm.todo (by rw [hregs]) ?_ he' ⟨rfl, rfl⟩
  dsimp only
  rw [rowTiles_sound hm]
  dsimp only
  rw [rowTiles_pass hm]
  rfl

/-- Settles O38: past its checks MRDA reads the rows of its tiles into its lanes' registers, MWRA writes them. -/
theorem accumulatorRows : Obligations.AccumulatorRows := by
  unfold Obligations.AccumulatorRows
  intro s e x h hr ho octs row tile htiles hquiet
  have hm : RowMeets s e x := ⟨h, hr, ho, htiles, hquiet⟩
  refine ⟨fun n hreg hdst _ hslices hwidth _ herr => ⟨mrda_traps hm hreg hdst herr, fun hp =>
    mrda_reads hm hreg hdst herr (fun o ho => hslices ▸ hwidth o ho) hp⟩, fun hregs hnd => ?_⟩
  obtain ⟨hin, hout⟩ := rowsWritten_spec e x hnd
  obtain ⟨m, r, t, hx, hret, v, ⟨hr, hv⟩, hmark⟩ := mwra_writes hm hregs
  refine ⟨m, r, t, hx, hret, v, ⟨hr, _, hv, rfl, fun o ho i k hi hk => ?_, fun o ho j hj => ?_, hout⟩, hmark⟩
  · rw [hin o ho, spGet_rowWritten, if_pos (by unfold rowKey; omega)]
    unfold rowKey
    rw [show (128 * row + 16 * i + k) / 16 % 8 = i by omega, show (128 * row + 16 * i + k) % 16 = k by omega]
  · rw [hin o ho, spGet_rowWritten, if_neg hj]
    rfl

end Sys2Proof.Proofs
end

section
/-! O35: MLDB, MBREL and MLDMETA (R351, R364 to R366, R371, R511). -/

namespace Sys2Proof.Proofs

open Sys2Proof Sys2Proof.Machine Sys2Proof.Safety Sys2Proof.Laws

/-- What an instruction without a result of its own that performs leaves, in the words of the statement. -/
theorem performs_plain {i : Instr} {s : State} {e : Issuer} {P : State → Prop} (h : Performs i s e fun v r => r = {} ∧ P v) :
    ∃ v, P v ∧ ∃ m t, exec i s = .next t ∧ m = markPartners v e (todoOctets e.p e.f) ∧ Retired m t e 8 {} := by
  obtain ⟨m, r, t, hx, hret, v, ⟨rfl, hv⟩, hm⟩ := h
  exact ⟨v, hv, m, t, hx, hm, hret⟩

/-! ## Slots -/

theorem spFind?_filter_none {α : Type} {p : Nat × α → Bool} {i : Nat} (hp : ∀ v, p (i, v) = false) (l : List (Nat × α)) :
    spFind? (l.filter p) i = none := by
  induction l with
  | nil => rfl
  | cons x l ih =>
    obtain ⟨k, v⟩ := x
    by_cases hk : i = k
    · subst hk
      rw [List.filter_cons, hp, if_neg Bool.false_ne_true, ih]
    · rw [List.filter_cons]
      split
      · rw [spFind?, if_neg hk, ih]
      · exact ih

/-- A slot that takes new contents has no pass that a later octet may join (R371). -/
theorem spFind?_closeFuse (b : Block) (i : Nat) : spFind? (closeFuse b i).fuse i = none :=
  spFind?_filter_none (fun _ => by simp) b.fuse

/-- Blocks that keep their packs and their launch keep the issuer. -/
theorem issuer_setBlock {s : State} {e w : Issuer} (hw : issuerAt s e.ref = some w) {c : Block} (hbid : c.bid = w.b.bid)
    (hl : c.launch = w.b.launch) (hp : c.packs = w.b.packs) : ∃ e', issuerAt (setBlock s c) e.ref = some e' :=
  kept_setBlock_packs (issuerAt_eq.1 hw).2.1 hbid hl hp _ _ hw

section
variable {s : State} {e : Issuer} {x : X64} (h : IssuesAlone s e) (hr : pairReady e.p e.f = true) (ho : todoOctets e.p e.f ≠ [])
include h hr ho

/-! ## MBREL -/

/-- The block without what a marver slot held. -/
def slotReleased (b : Block) (i : Nat) : Block := { closeFuse b i with marver := spDel b.marver i }

theorem mbrel_empties (hslot : x.slot.toNat < pkMarver (launchWord e.l)) :
    Performs (.mbrel x) s e fun v r => r = {} ∧ v = setBlock s (slotReleased e.b x.slot.toNat) := by
  obtain ⟨e', he'⟩ := issuer_setBlock (c := slotReleased e.b x.slot.toNat) h.1.2 rfl rfl rfl
  refine performs_of (res := noRes) (r := {}) rfl h.1 (burstOk_alone h.2 _) hr ho ⟨_, rfl, ?_⟩ he' ⟨rfl, rfl⟩
  dsimp only
  rw [beyond_nil hslot, matTrap_none (by simp)]
  rfl

/-! ## MLDB -/

/-- A marver slot filled from an entry at tile coordinates c, in a state u whose lines are there, with the report of a poisoned source
(R364, R511). -/
def slotLoaded (u : State) (e : Issuer) (b : Block) (i w : Nat) (c : Nat × Nat) : State :=
  match rectPoison u b (issuerTr u e) w (c.1 * passDepth (tFmt w)) (passDepth (tFmt w)) (c.2 * 128) 128 with
  | some a => postMemoryError (setBlock u (putSlot b i (loadSlot u b (issuerRd u e) (issuerTr u e) w c.1 c.2))) e.l.region e.b.linear a
  | none => setBlock u (putSlot b i (loadSlot u b (issuerRd u e) (issuerTr u e) w c.1 c.2))

omit h hr ho in
theorem issuer_slotLoaded {u : State} {b : Block} (hi : issuerAt u e.ref = some { e with b := b }) (i w : Nat) (c : Nat × Nat) :
    ∃ e', issuerAt (slotLoaded u e b i w c) e.ref = some e' := by
  obtain ⟨e', he'⟩ := issuer_setBlock (c := putSlot b i (loadSlot u b (issuerRd u e) (issuerTr u e) w c.1 c.2)) hi rfl rfl rfl
  unfold slotLoaded
  split
  · exact kept_postMemoryError _ _ _ _ _ _ he'
  · exact ⟨e', he'⟩

theorem mldb_fills {w a : Nat} (hop : uniCause e [coordOpnd x.reg] = none) (hentry : entryOf s e x.tid.toNat = .ok (w, a))
    (hvalid : entryOk w = true) (hfmt : tFmt w ≤ 3) (hdense : tSparse w = false) (hslot : x.slot.toNat < pkMarver (launchWord e.l))
    (hrect : rectFaults s e .read .read w ((coordOf' e x.reg).1 * passDepth (tFmt w)) (passDepth (tFmt w))
      ((coordOf' e x.reg).2 * 128) 128 = [])
    (hopen : ReadsOpen s e (viewCells w ((coordOf' e x.reg).1 * passDepth (tFmt w)) (passDepth (tFmt w))
      ((coordOf' e x.reg).2 * 128) 128)) :
    Performs (.mldb x) s e fun v r => r = {} ∧ ∃ u b, LinesMoved s u ∧ getBlock u e.ref.blk = some b ∧
      v = slotLoaded u e b x.slot.toNat w (coordOf' e x.reg) := by
  generalize hc : coordOf' e x.reg = c at hrect hopen
  obtain ⟨ti, tj⟩ := c
  have huse : useFaults w a (decide (tFmt w ≤ 3) && !tSparse w) = [] := useFaults_nil hvalid (by simp [hfmt, hdense])
  obtain ⟨u, hu, hread⟩ := matRead_open hopen fun u =>
    .ok (slotLoaded u e (refresh u e).b x.slot.toNat w (ti, tj)) {}
  obtain ⟨b, hb, -, hi⟩ := linesMoved_issuer hu h.1.2
  obtain ⟨e', he'⟩ := issuer_slotLoaded hi x.slot.toNat w (ti, tj)
  rw [refresh_of hi] at hread
  refine performs_of (res := noRes) (r := {}) rfl h.1 (burstOk_alone h.2 _) hr ho ⟨_, by rw [hop], ?_⟩ he' ⟨rfl, u, b, hu, hb, rfl⟩
  rw [← hread]
  dsimp only
  rw [hentry, hc]
  dsimp only
  rw [huse, hrect, beyond_nil hslot, List.isEmpty_nil, if_pos rfl, matTrap_none (by simp)]
  dsimp only
  refine congrArg (matRead s e _) (funext fun t => ?_)
  unfold slotLoaded
  dsimp only
  generalize rectPoison t (refresh t e).b (issuerTr t e) w (ti * passDepth (tFmt w)) (passDepth (tFmt w)) (tj * 128) 128 = bad
  cases bad with
  | none => rfl
  | some a => rfl

/-! ## MLDMETA -/

/-- The nibble of each place of a meta slot, from the byte at its physical address (R365, R366). -/
def nibbleAt (u : State) (e : Issuer) (pa : Nat × Nat → Nat) (q : Nat × Nat) : Nat :=
  (issuerRd u e (pa q)).toNat / 16 ^ (q.2 % 2) % 16

/-- A meta slot of an entry at coordinates c whose nibbles are those of some places. -/
def metaLoaded (u : State) (e : Issuer) (w : Nat) (c : Nat × Nat) (cells : List (Nat × Nat)) (pa : Nat × Nat → Nat) : MetaSlot :=
  { fmt := tFmt w, row0 := c.1, kt := c.2,
    nibbles := (cells.map fun q => (128 * q.1 + q.2, nibbleAt u e pa q)).filter fun y => y.2 != 0 }

omit h hr ho in
theorem mem_metaLoaded (u : State) (w : Nat) (c : Nat × Nat) (cells : List (Nat × Nat)) (pa : Nat × Nat → Nat) (k n : Nat) :
    (k, n) ∈ (metaLoaded u e w c cells pa).nibbles ↔ ∃ q ∈ cells, k = 128 * q.1 + q.2 ∧ n = nibbleAt u e pa q ∧ n ≠ 0 := by
  simp only [metaLoaded, List.mem_filter, List.mem_map, Prod.mk.injEq, bne_iff_ne]
  exact ⟨fun ⟨⟨q, hq, hk, hn⟩, h0⟩ => ⟨q, hq, hk.symm, hn.symm, h0⟩, fun ⟨q, hq, hk, hn, h0⟩ => ⟨⟨q, hq, hk.symm, hn.symm⟩, h0⟩⟩

omit h hr ho in
/-- Charging changes no mark of poison. -/
theorem gPoisoned_charged {t : State} (hc : Charged s t) (pa n : Nat) : gPoisoned t pa n = gPoisoned s pa n := by
  rw [hc.device]
  rfl

/-- The address of the nibble of a place, from coordinates c (R365). -/
def placeAddr (w : Nat) (c q : Nat × Nat) : Nat := metaAddr w (c.1 + q.1) (c.2 * (sparseDepth (tFmt w) / 4) + q.2)

theorem mldmeta_fills {w a : Nat} (hop : uniCause e [coordOpnd x.reg] = none) (hentry : entryOf s e x.tid.toNat = .ok (w, a))
    (hvalid : entryOk w = true) (hfmt : tFmt w ≤ 3) (hsparse : tSparse w = true) (hslot : x.mslot.toNat < pkMeta (launchWord e.l))
    {c : Nat × Nat} (hc : coordOf' e x.reg = c) {pa : Nat × Nat → Nat}
    (hpa : ∀ q ∈ metaCells w c.1 c.2, xlate s e.l.ctx (inSup e.f) .read (placeAddr w c q) = .ok (pa q)) (hround : needsRound e = false)
    (hheld : memHold s e ((metaCells w c.1 c.2).map pa) = none) (hrace : strictRace s e ((metaCells w c.1 c.2).map pa) = false)
    (hclean : ∀ q ∈ metaCells w c.1 c.2, gPoisoned s (pa q) 1 = false) :
    Performs (.mldmeta x) s e fun v r => r = {} ∧ ∃ u, Charged s u ∧
      v = setBlock u { e.b with mslots := spSet e.b.mslots x.mslot.toNat (metaLoaded u e w c (metaCells w c.1 c.2) pa) } := by
  obtain ⟨row0, kt⟩ := c
  dsimp only at *
  have huse : useFaults w a (decide (tFmt w ≤ 3) && tSparse w) = [] := useFaults_nil hvalid (by simp [hfmt, hsparse])
  generalize hcells : metaCells w row0 kt = cells at *
  have hfar : (cells.filterMap fun q => (issuerTr s e (placeAddr w (row0, kt) q)).map fun pa => (q, pa)) =
      cells.map fun q => (q, pa q) := by
    rw [← List.filterMap_eq_map]
    exact List.filterMap_congr fun q hq => by rw [issuerTr, hpa q hq]; rfl
  have hu : Charged s (chargeSectors s e.l.region (cells.map fun q => (pa q, 1))) := charged_chargeSectors _ _ _
  generalize hcharged : chargeSectors s e.l.region (cells.map fun q => (pa q, 1)) = u at hu
  have hiu : issuerAt u e.ref = some e := (charged_issuer hu _).trans h.1.2
  have hsound : (cells.map fun q => (q, pa q)).find? (fun y => gPoisoned u y.2 1) = none :=
    List.find?_eq_none.2 (List.forall_mem_map.2 fun q hq => by rw [gPoisoned_charged hu, hclean q hq]; exact Bool.false_ne_true)
  obtain ⟨e', he'⟩ := issuer_setBlock hiu
    (c := { e.b with mslots := spSet e.b.mslots x.mslot.toNat (metaLoaded u e w (row0, kt) cells pa) }) rfl rfl rfl
  refine performs_of (res := noRes) (r := {}) rfl h.1 (burstOk_alone h.2 _) hr ho ⟨_, by rw [hop], ?_⟩ he' ⟨rfl, u, hu, rfl⟩
  unfold placeAddr at hpa hfar
  dsimp only at hpa hfar ⊢
  rw [hentry, hc]
  dsimp only
  rw [huse, List.isEmpty_nil, if_pos rfl, if_pos rfl, hcells, matTrap_none]
  swap
  · exact List.forall_mem_singleton.2
      (List.append_eq_nil_iff.2 ⟨beyond_nil hslot, List.filterMap_eq_nil_iff.2 fun q hq => by rw [hpa q hq]⟩)
  dsimp only
  rw [hfar, hround, if_neg Bool.false_ne_true, List.map_map, Function.comp_def, hheld]
  dsimp only
  rw [hrace, if_neg Bool.false_ne_true, List.map_map, Function.comp_def, hcharged, hsound, refresh_of hiu, List.map_map]
  rfl

end

/-- Settles O35: each of the three fills or empties its slot as its lemma says, past the checks that the statement supposes. -/
theorem operandSlots : Obligations.OperandSlots := by
  unfold Obligations.OperandSlots
  intro s e x h hr ho performs
  refine ⟨fun hslot => ?_, fun hop w a hentry hvalid hfmt => ⟨fun hdense hslot hrect hopen => ?_, ?_⟩⟩
  · obtain ⟨v, hv, hperf⟩ := performs_plain (mbrel_empties h hr ho hslot)
    exact ⟨v, slotReleased e.b x.slot.toNat, hperf, hv, rfl, spFind?_closeFuse _ _, fun k => spFind?_spDel _ _ _⟩
  · obtain ⟨v, ⟨u, b, hu, hb, hv⟩, hperf⟩ := performs_plain (mldb_fills h hr ho hop hentry hvalid hfmt hdense hslot hrect hopen)
    refine ⟨v, u, b, putSlot b x.slot.toNat (loadSlot u b (issuerRd u e) (issuerTr u e) w (coordOf' e x.reg).1 (coordOf' e x.reg).2),
      hperf, hu, hb, rfl, spFind?_closeFuse _ _, hv.trans ?_⟩
    unfold slotLoaded
    rfl
  · intro hsparse hslot pa cells addr hpa hround hheld hrace hclean
    obtain ⟨v, ⟨u, hu, hv⟩, hperf⟩ :=
      performs_plain (mldmeta_fills h hr ho hop hentry hvalid hfmt hsparse hslot rfl hpa hround hheld hrace hclean)
    exact ⟨v, u, metaLoaded u e w (coordOf' e x.reg) cells pa, hperf, hu, hv, rfl, rfl, rfl, rfl, mem_metaLoaded u w _ _ pa⟩

end Sys2Proof.Proofs
end

section
/-! O36: MZERO, MMA, MMA.ring and MMASP (R359, R367 to R371, R380, R510). -/

namespace Sys2Proof.Proofs

open Sys2Proof Sys2Proof.Machine Sys2Proof.Safety Sys2Proof.Laws

/-! ## MZERO -/

/-- The tiles of an octet, and those of an issue. -/
def zeroedOf (x : X64) (o : Nat) : List Nat := (List.range (x.cnt.toNat + 1)).map fun i => x.tile.toNat + o * (x.cnt.toNat + 1) + i
def zeroed (e : Issuer) (x : X64) : List Nat := (todoOctets e.p e.f).flatMap (zeroedOf x)

/-- The tiles of a block when some are set to zero. -/
def tilesZeroed (b : Block) (ts : List Nat) : Block := { b with acc := ts.foldl (fun a t => spPut {} a t {}) b.acc }

theorem spGet_tilesZeroed (b : Block) (ts : List Nat) (t : Nat) :
    spGet {} (tilesZeroed b ts).acc t = if t ∈ ts then {} else spGet {} b.acc t := by
  have := spGet_foldl_spPut ({} : AccTile) id (fun _ => {}) ts b.acc t
  rwa [List.map_id] at this

theorem tilesBusy_iff (b : Block) (ts : List Nat) : tilesQuiet b (.tiles ts) = false ↔ ∃ p ∈ b.passes, p.tile ∈ ts := by
  rw [← Bool.not_eq_true, tilesQuiet_iff]
  simp

section
variable {s : State} {e : Issuer} {x : X64} (h : IssuesAlone s e) (hr : pairReady e.p e.f = true) (ho : todoOctets e.p e.f ≠ [])
  (htiles : ∀ o ∈ todoOctets e.p e.f, x.tile.toNat + o * (x.cnt.toNat + 1) + (x.cnt.toNat + 1) ≤ pkAcc (launchWord e.l))
include h hr ho htiles

omit h hr ho in
/-- Past its checks MZERO waits for the passes on its tiles. -/
theorem mzero_checked : ∃ body k, exec (.mzero x) s = issueOctet s body ∧ body e = matIssue s e noRes k ∧
    k (todoOctets e.p e.f) = afterPasses e (zeroed e x) (.ok (setBlock s (tilesZeroed e.b (zeroed e x))) {}) := by
  refine ⟨_, _, rfl, rfl, ?_⟩
  dsimp only
  rw [matTrap_none (List.forall_mem_map.2 fun o ho => beyond_nil (htiles o ho))]
  rfl

theorem mzero_zeroes (hquiet : ∀ p ∈ e.b.passes, p.tile ∉ zeroed e x) :
    Performs (.mzero x) s e fun v r => r = {} ∧ v = setBlock s (tilesZeroed e.b (zeroed e x)) := by
  obtain ⟨body, k, hx, hb, hk⟩ := mzero_checked (s := s) htiles
  rw [afterPasses, if_pos ((tilesQuiet_iff _ _).2 hquiet)] at hk
  obtain ⟨e', he'⟩ := issuer_setBlock (c := tilesZeroed e.b (zeroed e x)) h.1.2 rfl rfl rfl
  exact performs_octet hx h hr ho hb hk he' ⟨rfl, rfl⟩

theorem mzero_waits (hbusy : ∃ p ∈ e.b.passes, p.tile ∈ zeroed e x) : Waits (.mzero x) s e .pairing (.tiles (zeroed e x)) := by
  obtain ⟨body, k, hx, hb, hk⟩ := mzero_checked (s := s) htiles
  rw [afterPasses, if_neg (by rw [(tilesBusy_iff _ _).2 hbusy]; exact Bool.false_ne_true)] at hk
  exact waits_octet hx h hr ho hb hk

end

/-! ## The passes of an issue -/

/-- A pass without the mark that it shares a pass of the device with another (R371). -/
def unfused (p : PassOp) : PassOp := { p with fused := false }

/-- A block is another but for the sharing of passes. -/
structure Shared (b c : Block) : Prop where
  block : c = { b with passes := c.passes, fuse := c.fuse }
  passes : c.passes.map unfused = b.passes.map unfused

theorem foldl_formPasses (code : Nat) (gs : List (Nat × Nat)) (y : State × Block × Nat) :
    (gs.foldl (formPasses code) y).1 = { y.1 with free := (gs.foldl (formPasses code) y).1.free } ∧
      (gs.foldl (formPasses code) y).2.1 = { y.2.1 with fuse := (gs.foldl (formPasses code) y).2.1.fuse } := by
  induction gs generalizing y with
  | nil => exact ⟨rfl, rfl⟩
  | cons g gs ih =>
    obtain ⟨hs, hb⟩ := ih (formPasses code y g)
    exact ⟨hs, hb⟩

/-- How the device shares the passes changes marks of passes, what later octets may join, and charges. -/
theorem chargePasses_spec {t : State} {e w : Issuer} (hw : issuerAt t e.ref = some w) (x : X64) (sparse : Bool) (fmt : Nat)
    (octs : List Nat) : ∃ c, Shared w.b c ∧ Charged (setBlock t c) (chargePasses t e x sparse fmt octs) := by
  obtain ⟨hs, hb⟩ := foldl_formPasses (fmt + 8 * bit sparse) (slotGroups x sparse octs) (t, w.b, 0)
  unfold chargePasses
  rw [refresh_of hw]
  generalize (slotGroups x sparse octs).foldl (formPasses (fmt + 8 * bit sparse)) (t, w.b, 0) = y at hs hb
  obtain ⟨t', b', n⟩ := y
  dsimp only at hs hb ⊢
  generalize t'.free = k at hs
  generalize b'.fuse = f at hb
  subst hs hb
  refine ⟨{ w.b with fuse := f, passes := w.b.passes.map fun p =>
    if p.pidx = e.ref.pidx ∧ p.pos = e.ref.pos ∧ p.pc = e.f.pc then { p with fused := n < octs.length } else p }, ⟨rfl, ?_⟩, ?_⟩
  · rw [List.map_map]
    refine List.map_congr_left fun p _ => ?_
    dsimp only [Function.comp_apply]
    split <;> rfl
  · refine charged_trans ?_ (charged_count _ _ _ _ _)
    refine charged_trans ?_ (charged_count _ _ _ _ _)
    refine charged_trans ?_ (charged_charge _ _ _ _ _)
    exact charged_of rfl

/-! ## MMA, MMA.ring and MMASP -/

/-- The coordinates of A: those of the operand, or the origin of a ring's rows (R370). -/
def mmaPlace (e : Issuer) (x : X64) (isRing : Bool) : Nat × Nat := if isRing then (0, 0) else coordOf' e x.reg

/-- What the octets of an issue read of A. -/
def issueCells (e : Issuer) (x : X64) (isRing : Bool) (w : Nat) : List (Nat × Nat × Nat) :=
  (todoOctets e.p e.f).flatMap fun o =>
    mmaCells (ringOpnd e x isRing) w (mmaRow x (mmaPlace e x isRing).1 o) (mmaPlace e x isRing).2

/-- The passes of an issue in a state u, under numbers from a first one on. -/
def issuePasses (u : State) (e : Issuer) (x : X64) (isRing sparse : Bool) (w first : Nat) : List PassOp :=
  (todoOctets e.p e.f).mapIdx fun i o =>
    mmaPass u e x (ringOpnd e x isRing) sparse w (mmaPlace e x isRing).1 (mmaPlace e x isRing).2 (first + i) o

/-- The passes stand behind those in flight. -/
def passesBegun (u : State) (e : Issuer) (x : X64) (isRing sparse : Bool) (w : Nat) : State :=
  setBlock { u with nextId := u.nextId + (todoOctets e.p e.f).length }
    { (refresh u e).b with passes := (refresh u e).b.passes ++ issuePasses u e x isRing sparse w u.nextId }

/-- The state that an issue of passes leaves, once its operands are there. -/
def passesIssued (u : State) (e : Issuer) (x : X64) (isRing sparse : Bool) (w : Nat) : State :=
  let t := chargePasses (passesBegun u e x isRing sparse w) e x sparse (tFmt w) (todoOctets e.p e.f)
  if isRing then syncDone t e else t

/-- What an issue of passes meets whose octets are there and whose operand, entry, ring, slots and tiles pass their checks. -/
structure MmaMeets (s : State) (e : Issuer) (x : X64) (isRing sparse : Bool) (w a : Nat) : Prop where
  issues : IssuesAlone s e
  ready : pairReady e.p e.f = true
  todo : todoOctets e.p e.f ≠ []
  operand : uniCause e [if isRing then opn32 x.reg else coordOpnd x.reg] = none
  entry : entryOf s e x.tid.toNat = .ok (w, a)
  valid : entryOk w = true
  fmt : tFmt w ≤ 3
  kind : tSparse w = sparse
  stash : isRing = true → tStash w = true
  ring : ∀ f k m, ringOpnd e x isRing = some (f, k, m) → f < m
  sound : ∀ o ∈ todoOctets e.p e.f,
    mmaFaults s e x (ringOpnd e x isRing) sparse w a (mmaPlace e x isRing).1 (mmaPlace e x isRing).2 o = []

/-- No slot that it names is in error, no reload of one has failed, and it waits for no round and no turn (R104, R113, R503, R510). -/
structure MmaClear (s : State) (e : Issuer) (x : X64) (isRing sparse : Bool) : Prop where
  good : badSlots e x sparse (todoOctets e.p e.f) = []
  loaded : reloadFault e x sparse (todoOctets e.p e.f) = none
  order : isRing = true → needsRound e = false ∧ needsTurn s e = false

section
variable {s : State} {e : Issuer} {x : X64} {isRing sparse : Bool} {w a : Nat} (hm : MmaMeets s e x isRing sparse w a)
include hm

/-- Past its checks an issue reloads the slots in error; without any it waits for its ring, or reads A and begins its passes. -/
theorem mmaAct_checked : ∃ k, mmaAct s e x isRing sparse = matIssue s e noRes k ∧
    (badSlots e x sparse (todoOctets e.p e.f) ≠ [] → k (todoOctets e.p e.f) =
      .own ((badSlots e x sparse (todoOctets e.p e.f)).foldl (fun u j => reloadSlot u e.ref.blk j) s)) ∧
    (MmaClear s e x isRing sparse →
      (∀ j, ringMissing e x (ringOpnd e x isRing) = some j → k (todoOctets e.p e.f) = .wait .waiting (.ring x.tid.toNat j 0)) ∧
      (ringMissing e x (ringOpnd e x isRing) = none → heldAt s e.b.core 1 e.l.region = false → k (todoOctets e.p e.f) =
        matRead s e (issueCells e x isRing w) fun u => .ok (passesIssued u e x isRing sparse w) {})) := by
  have huse : useFaults w a (decide (tFmt w ≤ 3) && tSparse w == sparse && (!isRing || tStash w)) = [] :=
    useFaults_nil hm.valid (by rw [hm.kind]; cases isRing <;> simp [hm.fmt, hm.stash])
  unfold mmaAct
  rw [hm.operand]
  refine ⟨_, rfl, fun hbad => ?_, fun hclear => ⟨fun j hj => ?_, fun hnone hheld => ?_⟩⟩
  all_goals
    rw [hm.entry]
    dsimp only
    rw [huse, ← mmaPlace, matTrap_none]
    swap
    · refine List.forall_mem_map.2 fun o ho => ?_
      have hring := hm.ring
      have hsound := hm.sound o ho
      generalize ringOpnd e x isRing = ring at hring hsound ⊢
      cases ring with
      | none => exact hsound
      | some r =>
        have hfirst := Nat.not_le.2 (hring r.1 r.2.1 r.2.2 rfl)
        simp only [hfirst, if_false]
        exact hsound
    dsimp only
  · rw [if_pos (by simpa using hbad)]
  all_goals
    have hround : (isRing && needsRound e) = false := by cases isRing <;> simp [hclear.order]
    have hturn : (isRing && needsTurn s e) = false := by cases isRing <;> simp [hclear.order]
    rw [hclear.good, hclear.loaded, if_neg (by simp)]
    dsimp only
    rw [hround, hturn, if_neg Bool.false_ne_true, if_neg Bool.false_ne_true]
  · rw [hj]
  · rw [hnone]
    dsimp only
    rw [hheld, if_neg Bool.false_ne_true]
    rfl

variable {i : Instr} (hx : exec i s = issueOctet s fun e => mmaAct s e x isRing sparse)
include hx

/-- A slot in error is reloaded first (R380, R510). -/
theorem mma_reloads (hbad : badSlots e x sparse (todoOctets e.p e.f) ≠ []) : exec i s =
    .next ((badSlots e x sparse (todoOctets e.p e.f)).foldl (fun u k => reloadSlot u e.ref.blk k) s) := by
  obtain ⟨k, ha, hown, -⟩ := mmaAct_checked hm
  exact owns_octet hm.issues hm.ready hm.todo hx ⟨noRes, k, ha, hown hbad⟩

variable (hclear : MmaClear s e x isRing sparse)
include hclear

theorem mma_waits {j : Nat} (hj : ringMissing e x (ringOpnd e x isRing) = some j) :
    Waits i s e .waiting (.ring x.tid.toNat j 0) := by
  obtain ⟨k, ha, -, hgo⟩ := mmaAct_checked hm
  exact waits_octet hx hm.issues hm.ready hm.todo ha ((hgo hclear).1 j hj)

/-- Lines move, and the passes of the octets begin behind those in flight. -/
theorem mma_begins (hnone : ringMissing e x (ringOpnd e x isRing) = none) (hheld : heldAt s e.b.core 1 e.l.region = false)
    (hopen : ReadsOpen s e (issueCells e x isRing w)) : Performs i s e fun v r => r = {} ∧ ∃ u b d t, LinesMoved s u ∧
      getBlock u e.ref.blk = some b ∧ d = { b with passes := d.passes, fuse := d.fuse } ∧
      d.passes.map unfused = (b.passes ++ issuePasses u e x isRing sparse w s.nextId).map unfused ∧
      Charged { setBlock u d with nextId := s.nextId + (todoOctets e.p e.f).length } t ∧ Stirred t v := by
  obtain ⟨k, ha, -, hgo⟩ := mmaAct_checked hm
  obtain ⟨u, hu, hread⟩ := matRead_open hopen fun u => .ok (passesIssued u e x isRing sparse w) {}
  obtain ⟨b, hb, -, hiu⟩ := linesMoved_issuer hu hm.issues.1.2
  have hid : u.nextId = s.nextId := by rw [hu.device]
  have hbegun : passesBegun u e x isRing sparse w = setBlock { u with nextId := u.nextId + (todoOctets e.p e.f).length }
      { b with passes := b.passes ++ issuePasses u e x isRing sparse w u.nextId } := by rw [passesBegun, refresh_of hiu]
  have hiw := issuerAt_setBlock (s := { u with nextId := u.nextId + (todoOctets e.p e.f).length })
    (b := { b with passes := b.passes ++ issuePasses u e x isRing sparse w u.nextId }) hiu (show b.bid = _ from getBlock_bid hb) rfl
    (issuerAt_eq.1 hiu).2.2.1 (issuerAt_eq.1 hiu).2.2.2.2
  rw [← hbegun] at hiw
  obtain ⟨d, hd, hcharged⟩ := chargePasses_spec hiw x sparse (tFmt w) (todoOctets e.p e.f)
  have hset : setBlock (passesBegun u e x isRing sparse w) d =
      { setBlock u d with nextId := s.nextId + (todoOctets e.p e.f).length } := by
    rw [hbegun, setBlock_setBlock _ (by rw [hd.block]), hid]
    rfl
  have hstir : Stirred (chargePasses (passesBegun u e x isRing sparse w) e x sparse (tFmt w) (todoOctets e.p e.f))
      (passesIssued u e x isRing sparse w) := by
    unfold passesIssued
    dsimp only
    split
    · exact stirred_syncDone _ _
    · exact stirred_refl _
  obtain ⟨e', he'⟩ := issuer_setBlock hiw (c := d) (by rw [hd.block]) (by rw [hd.block]) (by rw [hd.block])
  obtain ⟨e'', he''⟩ := kept_trans (kept_charged hcharged) (kept_stirred hstir) _ _ he'
  rw [hset] at hcharged
  have hpasses := hd.passes
  rw [hid] at hpasses
  exact performs_octet hx hm.issues hm.ready hm.todo ha (((hgo hclear).2 hnone hheld).trans hread) he''
    ⟨rfl, u, b, d, _, hu, hb, by rw [hd.block], hpasses, hcharged, hstir⟩

end

/-- Settles O36: MZERO is `mzero_checked`; the three issues of passes are one act, which `mmaAct_checked` follows past its checks. -/
theorem matrixPasses : Obligations.MatrixPasses := by
  unfold Obligations.MatrixPasses
  intro s e x h hr ho octs n tiles
  refine ⟨fun htiles => ⟨fun hquiet => ?_, mzero_waits h hr ho htiles⟩, ?_⟩
  · obtain ⟨m, r, t, hx, hret, v, ⟨hr, hv⟩, hmark⟩ := mzero_zeroes h hr ho htiles hquiet
    exact ⟨m, r, t, hx, hret, v, ⟨hr, _, hv, rfl, spGet_tilesZeroed _ _⟩, hmark⟩
  · refine List.forall_mem_cons.2 ⟨?_, List.forall_mem_cons.2 ⟨?_, List.forall_mem_singleton.2 ?_⟩⟩
    all_goals
      intro hop w a hentry hvalid hfmt hkind hstash c ring hring hsound
      have hm : MmaMeets s e x _ _ w a := ⟨h, hr, ho, hop, hentry, hvalid, hfmt, hkind, hstash, hring, hsound⟩
      exact ⟨mma_reloads hm rfl, fun hgood hloaded horder =>
        ⟨fun k => mma_waits hm rfl ⟨hgood, hloaded, horder⟩, mma_begins hm rfl ⟨hgood, hloaded, horder⟩⟩⟩

end Sys2Proof.Proofs
end

section
/-! O56: the state after reset (R397, R449, R453, R555, R558, R559). -/

namespace Sys2Proof.Proofs

open Sys2Proof Sys2Proof.Machine Sys2Proof.Safety Sys2Proof.Laws

/-- The mailbox is clear after reset: its log is empty, and so is every register in front of it. -/
theorem mailbox_reset (off : Nat) : mailbox State.reset off = 0 := by
  unfold mailbox
  split
  · have hlog : (State.reset.hi.mblog.getD ((off - 0x2100) / 16) 0).toNat = 0 := rfl
    rw [hlog]
    split <;> simp
  · split <;> rfl

theorem hostReg_mailbox (s : State) {off : Nat} (h1 : 0x2000 ≤ off) (h2 : off < 0x3000) : hostReg s off = mailbox s off :=
  if_pos ⟨h1, h2⟩

/-- Settles O56: each register is a field of the reset state; the mailbox is `mailbox_reset`. -/
theorem resetValues : Obligations.ResetValues := by
  unfold Obligations.ResetValues
  refine ⟨by decide, rfl, rfl, rfl, rfl, by decide, fun off h1 h2 => (hostReg_mailbox _ h1 h2).trans (mailbox_reset off), ?_⟩
  exact ⟨rfl, rfl, rfl, rfl, rfl, rfl, rfl, rfl, rfl, rfl, rfl⟩

end Sys2Proof.Proofs
end

section
/-! Family 14_network_host, O49: the system registers and the privilege of supervisor instructions (R453, R455, R456, R476, R526). -/

namespace Sys2Proof.Proofs

open Sys2Proof Sys2Proof.Machine Sys2Proof.Safety Sys2Proof.Laws

/-- A supervisor instruction in user mode is PRIVILEGED before its body is looked at (R489). -/
theorem privileged {i : Instr} {s : State} {e : Issuer} {len : Nat} {place : BurstPlace} {body : Issuer → Act}
    (hx : exec i s = issue s len place true body) (h : Issues s e) (hb : burstOk e.f place = true) (hu : inSup e.f = false) :
    exec i s = .next (takeTrap s e (trapAll e [] 0x06)) := by
  rw [hx]
  unfold issue
  rw [h.1]
  dsimp only
  rw [h.2]
  dsimp only
  rw [hb, hu]
  rfl

theorem exec_srw {s : State} {e : Issuer} {g : Gen} (hu : uniCause e [uniPair g.a] = none) : ∃ body, exec (.srw g) s = issue s 8 .never true body ∧
    body e = if sysReserved g.opx.toNat (uniWide e g.a) = true then .trap (trapAll e [] 0x05)
      else if g.opx.toNat = 4 ∧ planeFence s (BitVec.ofNat 64 (uniWide e g.a)) = true ∧ ¬ gridQuiet s = true then .wait .waiting .planes
      else .ok (issuerPut s e g.opx.toNat (BitVec.ofNat 64 (uniWide e g.a))) {} := by
  refine ⟨_, rfl, ?_⟩
  dsimp only
  rw [hu]

/-- A register takes its value: the issuing block's two, else one of the device. -/
theorem issuerPut_spec (s : State) (e : Issuer) (n : Nat) (x : DWord) :
    (n = 7 → issuerPut s e n x = setBlock s { e.b with tdbase := x }) ∧ (n = 8 → issuerPut s e n x = setBlock s { e.b with capbase := x }) ∧
    (n ≠ 7 → n ≠ 8 → issuerPut s e n x = sysPut s n x) := by
  unfold issuerPut
  refine ⟨?_, ?_, fun h7 h8 => ?_⟩
  · rintro rfl; rfl
  · rintro rfl; rfl
  · split
    · exact absurd rfl h7
    · exact absurd rfl h8
    · rfl

section
variable {s : State} {e : Issuer} {g : Gen} (h : IssuesAlone s e)
include h

theorem supervisor_privileged (hu : inSup e.f = false) :
    ∀ x ∈ [Instr.srr g, .srw g, .ertopDefine g, .tlbinvPage g, .tlbinvContext g, .tlbinvAll g, .biasflipDev g,
      .biasflipHost g, .migrateLocal g, .migrateRemote g, .capset g, .mappg g, .retfRetry g, .retfNext g, .retfEsc g],
    exec x s = .next (takeTrap s e (trapAll e [] 0x06)) := by
  have traps : ∀ {x : Instr} {body : Issuer → Act}, exec x s = issue s 8 .never true body →
      exec x s = .next (takeTrap s e (trapAll e [] 0x06)) := fun hx => privileged hx h.1 (burstOk_alone h.2 _) hu
  simp only [List.forall_mem_cons]
  exact ⟨traps rfl, traps rfl, traps rfl, traps rfl, traps rfl, traps rfl, traps rfl, traps rfl, traps rfl, traps rfl, traps rfl,
    traps rfl, traps rfl, traps rfl, traps rfl, List.forall_mem_nil _⟩

theorem srr_reads (hs : inSup e.f = true) (hd : dstCause e (maskLanes e.p e.f) g.dst 2 = none) :
    Completes (.srr g) s e 8 fun m r => ResultOnly (acquired s e) m e g.dst g.nowb 2 (maskLanes e.p e.f)
      (fun _ => (issuerReg s e g.opx.toNat).toNat) r := by
  refine completes_result (i := .srr g) rfl h.1 (burstOk_alone h.2 _) (.inr hs) (b := e.b) (l := e.l)
    ((charged_issuer (charged_acquired s e) _).trans h.1.2) ?_ fun _ _ hr => hr
  rw [hd]

theorem ctrread_reads (hd : dstCause e (maskLanes e.p e.f) g.dst 2 = none) :
    Completes (.ctrread g) s e 8 fun m r => ResultOnly s m e g.dst g.nowb 2 (maskLanes e.p e.f)
      (fun _ => if e.l.det then 0 else counterOf s e.l.region g.opx.toNat) r := by
  refine completes_result (i := .ctrread g) rfl h.1 (burstOk_alone h.2 _) (.inl rfl) (b := e.b) (l := e.l) h.1.2 ?_ fun _ _ hr => hr
  rw [hd]

/-! ## SRW -/

theorem kept_issuerPut (n : Nat) (x : DWord) : Kept s (issuerPut s e n x) := by
  have hb := (issuerAt_eq.1 h.1.2).2.1
  unfold issuerPut
  split
  · exact kept_setBlock_packs hb rfl rfl rfl
  · exact kept_setBlock_packs hb rfl rfl rfl
  · exact kept_sysPut s _ x

theorem srw_effect (hs : inSup e.f = true) (hu : uniCause e [uniPair g.a] = none) :
    let n := g.opx.toNat
    let x := uniWide e g.a
    (sysReserved n x = true → exec (.srw g) s = .next (takeTrap s e (trapAll e [] 0x05))) ∧
    (sysReserved n x = false →
      (n = 4 → planeFence s (BitVec.ofNat 64 x) = true → gridQuiet s = false → Waits (.srw g) s e .waiting .planes) ∧
      ((n ≠ 4 ∨ planeFence s (BitVec.ofNat 64 x) = false ∨ gridQuiet s = true) → Completes (.srw g) s e 8 fun m r => r = {} ∧
        (n = 7 → m = setBlock s { e.b with tdbase := BitVec.ofNat 64 x }) ∧
        (n = 8 → m = setBlock s { e.b with capbase := BitVec.ofNat 64 x }) ∧
        (n ≠ 7 → n ≠ 8 → m = sysPut s n (BitVec.ofNat 64 x)))) := by
  intro n x
  obtain ⟨body, hx, hbody⟩ := exec_srw (s := s) hu
  have hnever := burstOk_alone h.2 .never
  refine ⟨fun hres => traps hx h.1 hnever (.inr hs) (hbody.trans (if_pos hres)), fun hres => ?_⟩
  rw [if_neg (by simpa using hres)] at hbody
  refine ⟨fun hn hf hq => waits hx h.1 hnever (.inr hs) (hbody.trans (if_pos ⟨hn, hf, by simp [hq]⟩)), fun hgo => ?_⟩
  have hpass : ¬ (g.opx.toNat = 4 ∧ planeFence s (BitVec.ofNat 64 (uniWide e g.a)) = true ∧ ¬ gridQuiet s = true) := by
    rintro ⟨hn, hf, hq⟩
    obtain hg | hg | hg := hgo
    · exact hg hn
    · exact Bool.false_ne_true (hg.symm.trans hf)
    · exact hq hg
  obtain ⟨e', he'⟩ := kept_issuerPut h n (BitVec.ofNat 64 x) _ _ h.1.2
  exact completes hx h.1 hnever (.inr hs) (hbody.trans (if_neg hpass)) he' ⟨rfl, issuerPut_spec s e n _⟩

end

/-- Settles O49: user mode stops a supervisor instruction at its issue; in supervisor mode SRR, SRW and CTRREAD have their own effect. -/
theorem systemRegisters : Obligations.SystemRegisters := by
  unfold Obligations.SystemRegisters
  intro s e g h all
  exact ⟨supervisor_privileged h, srr_reads h, srw_effect h, ctrread_reads h⟩

end Sys2Proof.Proofs
end

section
/-! Family 12_grid, O40 and O42: GPAT and GFENCE, which send nothing (R387, R397, R410, R419), and GLD, GATOM and GSCAN, which send one
message for each lane (R404, R408, R413, R417, R418). -/

namespace Sys2Proof.Proofs

open Sys2Proof Sys2Proof.Machine Sys2Proof.Safety Sys2Proof.Laws

theorem packIs_refl {s : State} {e : Issuer} (h : issuerAt s e.ref = some e) : PackIs s s e e.p :=
  ⟨onlyPack_refl s e.ref, steady_packNow (steady_refl s) h⟩

/-! ## GPAT -/

/-- The pack after a GPAT: its pattern register holds the value of the four registers. -/
def patternLoaded (e : Issuer) (g : G64) : Pack :=
  { e.p with gp := spPut 0 e.p.gp g.gp.toNat (BitVec.ofNat 128 (regsVal e g.data 4 0)) }

section
variable {s : State} {e : Issuer} {g : G64}

theorem exec_gpat (hr : regsCause e (activeLanes e g.pred) g.data 4 = none) :
    ∃ body, exec (.gpat g) s = issue s 8 .any false body ∧
      body e = if livePlanes s = [] then .trap (trapAll e (activeLanes e g.pred) 0x10)
        else if activeLanes e g.pred = [] then .ok s {} else .ok (putPack s e.ref.blk (patternLoaded e g)) {} := by
  refine ⟨_, rfl, ?_⟩
  dsimp only
  rw [hr]
  simp only [List.isEmpty_iff]
  rfl

theorem gpat_effect (h : Issues s e) (hr : regsCause e (activeLanes e g.pred) g.data 4 = none) :
    (livePlanes s ≠ [] → Completes (.gpat g) s e 8 fun m r => r = {} ∧ ∃ p, PackIs s m e p ∧ p = { e.p with gp := p.gp } ∧
      ∀ k, spGet 0 p.gp k = if k = g.gp.toNat ∧ activeLanes e g.pred ≠ [] then BitVec.ofNat 128 (regsVal e g.data 4 0)
        else spGet 0 e.p.gp k) ∧
    (livePlanes s = [] → exec (.gpat g) s = .next (takeTrap s e (trapAll e (activeLanes e g.pred) 0x10))) := by
  obtain ⟨body, hx, hb⟩ := exec_gpat (s := s) hr
  have hany := burstOk_any e.f
  refine ⟨fun hlive => ?_, fun hnone => traps hx h hany (.inl rfl) (hb.trans (if_pos hnone))⟩
  rw [if_neg hlive] at hb
  by_cases hact : activeLanes e g.pred = []
  · rw [if_pos hact] at hb
    exact completes hx h hany (.inl rfl) hb h.2 ⟨rfl, e.p, packIs_refl h.2, rfl, fun k => by rw [if_neg fun hk => hk.2 hact]⟩
  · rw [if_neg hact, putPack_eq (issuerAt_eq.1 h.2).2.1] at hb
    refine completes_pack hx h hany (.inl rfl) hb rfl rfl rfl fun hp => ⟨rfl, _, hp, rfl, fun k => ?_⟩
    simp only [hact, ne_eq, not_false_eq_true, and_true]
    exact spGet_spPut _ _ _ _ _

/-! ## GFENCE -/

theorem gfence_effect (h : IssuesAlone s e) :
    (gridUp s = true → Completes (.gfence g) s e 8 fun m r => r = {} ∧
      PackIs { s with nextId := s.nextId + 1 } m e { e.p with fences := [s.nextId] }) ∧
    (gridUp s = false → exec (.gfence g) s = .next (takeTrap s e (trapAll e [] 0x10))) := by
  have hnever := burstOk_alone h.2 .never
  refine ⟨fun hup => ?_, fun hdown => ?_⟩
  · have hi : issuerAt { s with nextId := s.nextId + 1 } e.ref = some e := h.1.2
    refine completes (i := .gfence g) rfl h.1 hnever (.inl rfl) (r := {})
      (m := setBlock { s with nextId := s.nextId + 1 } (setPack e.b { e.p with fences := [s.nextId] })) ?_
      (issuerAt_set hi (p := { e.p with fences := [s.nextId] }) rfl rfl (issuer_frag h.1.2)) ⟨rfl, packIs_set hi rfl rfl⟩
    dsimp only
    rw [hup, ← putPack_eq (issuerAt_eq.1 hi).2.1]
    rfl
  · refine traps (i := .gfence g) rfl h.1 hnever (.inl rfl) ?_
    dsimp only
    rw [hdown]
    rfl

end

/-- Settles O40: GPAT and GFENCE change the issuer's pack alone, where the grid can be used. -/
theorem gridPatternsAndFences : Obligations.GridPatternsAndFences := by
  unfold Obligations.GridPatternsAndFences
  exact fun s e g => ⟨fun h hr => gpat_effect h hr, fun h => gfence_effect h⟩

/-! ## One message for each lane (R408) -/

/-- What keeps an operation from issuing: nothing, so a tag is free. -/
theorem freeTag_of_gridStall {s : State} {e : Issuer} (h : gridStall s e = none) : (freeTag s).isSome = true := by
  unfold gridStall at h
  split at h
  · cases h
  · split at h
    · cases h
    · split at h
      · cases h
      · split at h
        · cases h
        · rename_i hf
          simpa [Option.isSome_iff_ne_none] using hf

/-- An operation that a value answers in each active lane, past its checks: nothing without a lane, else one message for each. -/
def laneAct (s : State) (e : Issuer) (g : G64) (kind : Nat) (write : Bool) (addr : Nat → Nat) (msg : Nat → GMsg) (act : List Nat) : Act :=
  if act = [] then .ok s {}
  else
    match gridStall s e with
    | some a => a
    | none => .ok (sendOp s e (laneOp s e g kind write (act.map fun l => (l, addr l))) (laneMsgs kind act fun l => { msg l with addr := addr l })) {}

/-- What a lane operation completes with. -/
def LaneSends (i : Instr) (s : State) (e : Issuer) (g : G64) (kind : Nat) (write : Bool) (addr : Nat → Nat) (msg : Nat → GMsg) : Prop :=
  let act := activeLanes e g.pred
  (act = [] → Completes i s e 8 fun m r => m = s ∧ r = {}) ∧
  (act ≠ [] → gridStall s e = none → Completes i s e 8 fun m r => r = {} ∧
    Posts s m e { newOp s e g kind 0 write with lanes := act.map fun l => (l, addr l), width := gridBytes g,
                                                dst := match g.data with | .v k => k.toNat | _ => 0 }
      (act.mapIdx fun k l => { kind, msg := { msg l with addr := addr l, lane := l, part := k, nparts := act.length } }))

section
variable {s : State} {e : Issuer} {g : G64} {i : Instr} {place : BurstPlace} {body : Issuer → Act} {kind : Nat} {write : Bool}
  {addr : Nat → Nat} {msg : Nat → GMsg}

/-- An instruction whose act is a lane operation's, up to what it makes of a trap. -/
theorem laneSends {f : Act → Act} (hf : ∀ m r, f (.ok m r) = .ok m r) (hx : exec i s = issue s 8 place false body) (h : Issues s e)
    (hb : burstOk e.f place = true) (ha : body e = f (laneAct s e g kind write addr msg (activeLanes e g.pred))) :
    LaneSends i s e g kind write addr msg := by
  unfold laneAct at ha
  refine ⟨fun hact => completes_same hx h hb (.inl rfl) ?_, fun hact hstall => ?_⟩
  · rw [ha, if_pos hact, hf]
  rw [if_neg hact, hstall] at ha
  have hok := ha.trans (hf _ _)
  obtain ⟨hposts, e', he'⟩ := posts_sendOp h.2 rfl (freeTag_of_gridStall hstall)
    (laneOp s e g kind write ((activeLanes e g.pred).map fun l => (l, addr l)))
    (laneMsgs kind (activeLanes e g.pred) fun l => { msg l with addr := addr l })
  exact completes hx h hb (.inl rfl) hok he' ⟨rfl, hposts⟩

/-- The addresses of the lanes raise nothing. -/
theorem laneWindows_clear (hw : ∀ l ∈ activeLanes e g.pred, windowCause (gridBytes g) (gridBytes g) (gridAddr e g l) = none) :
    firstFault ((activeLanes e g.pred).map fun l => (l, windowCause (gridBytes g) (gridBytes g) (gridAddr e g l))) = none :=
  firstFault_none fun x hx => by
    obtain ⟨l, hl, rfl⟩ := List.mem_map.1 hx
    exact hw l hl

theorem gld_sends (h : Issues s e) (hb : burstOk e.f .last = true)
    (ho : operandCause e (activeLanes e g.pred) [addrOpnd g] (dstOf g.data) (gridRegs g) = none) (hp : patOk s e g oneTarget = true)
    (hw : ∀ l ∈ activeLanes e g.pred, windowCause (gridBytes g) (gridBytes g) (gridAddr e g l) = none) :
    LaneSends (.gld g) s e g 1 false (gridAddr e g) fun _ => baseMsg s e g false := by
  refine laneSends (i := .gld g) (f := id) (fun _ _ => rfl) rfl h hb ?_
  dsimp only
  rw [ho]
  dsimp only
  rw [hp, laneWindows_clear hw]
  simp only [List.isEmpty_iff]
  rfl

theorem gatom_sends (h : Issues s e) (hb : burstOk e.f .last = true)
    (ho : operandCause e (activeLanes e g.pred) [addrOpnd g] .null 1 = none)
    (hd : regsCause e (activeLanes e g.pred) g.data (if g.gop = 9#4 then 2 * gridRegs g else gridRegs g) = none)
    (hs : (e.l.det && e.l.strict) = false) (hp : patOk s e g oneTarget = true)
    (hw : ∀ l ∈ activeLanes e g.pred, windowCause (gridBytes g) (gridBytes g) (gridAddr e g l) = none) :
    LaneSends (.gatom g) s e g 4 true (gridAddr e g) fun l =>
      { baseMsg s e g true with element := (gatomArgs e g l).1, compare := (gatomArgs e g l).2 } := by
  refine laneSends (i := .gatom g) (f := id) (fun _ _ => rfl) rfl h hb ?_
  dsimp only
  rw [firstCause_pair ho hd]
  dsimp only
  rw [hs, hp, laneWindows_clear hw]
  simp only [List.isEmpty_iff]
  rfl

/-- A contribution that stands where a burst allows it raises nothing for its place. -/
theorem placeCause_none (hb : burstOk e.f .last = true) : placeCause e = none := by
  unfold placeCause
  rw [hb, if_pos rfl]

theorem gscan_sends (h : Issues s e) (hb : burstOk e.f .last = true) (hu : uniCause e [addrOpnd g, cwOpnd g] = none)
    (hd : regsCause e (activeLanes e g.pred) g.data (gridRegs g) = none) (hp : patOk s e g (contributes s) = true)
    (hc : (cwAddr e g).getD 0 % 16 = 0) (hw : windowCause (gridBytes g) (gridBytes g) (gridAddr e g 0) = none) :
    LaneSends (.gscan g) s e g 6 true (fun _ => gridAddr e g 0) fun l =>
      { contribMsg s e g true l with element := dataVal e g (gridRegs g) l } := by
  refine laneSends (i := .gscan g) (f := withPoison s e g 6 (activeLanes e g.pred)) (fun _ _ => rfl) rfl h (burstOk_any e.f) ?_
  dsimp only
  unfold gscanAct
  rw [firstCause_none (by simp [placeCause_none hb, hu, hd])]
  dsimp only
  rw [hp, hw, if_neg (not_not.2 hc)]
  simp only [List.isEmpty_iff]
  rfl

end

/-- Settles O42: past its checks each of the three is a lane operation, with its own message. -/
theorem gridLaneRequests : Obligations.GridLaneRequests := by
  unfold Obligations.GridLaneRequests
  intro s e g h hb act n sends
  exact ⟨fun ho hp hw => gld_sends h hb ho hp hw, fun ho hd hs hp hw => gatom_sends h hb ho hd hs hp hw,
    fun hu hd hp hc hw => gscan_sends h hb hu hd hp hc hw⟩

end Sys2Proof.Proofs
end

section
/-! Family 14_network_host, O47: NPOST and NRECV (R463 to R465, R467). -/

namespace Sys2Proof.Proofs

open Sys2Proof Sys2Proof.Machine Sys2Proof.Safety Sys2Proof.Laws

/-- The send that a work request of a NPOST begins, with the entry that its channel has. -/
def sendOf (s : State) (e : Issuer) (n : Nat) (ps : List (Nat × Nat)) (ctr : Option Nat) : NeReq :=
  let own := chanOf s e.l.ctx e.b.capbase.toNat (wrCh n)
  { op := s.nextId, blk := e.ref.blk, pidx := e.ref.pidx, pos := e.ref.pos, ctx := e.l.ctx,
    table := e.b.capbase.toNat, region := e.l.region, entry := own.elim 0 (·.entry), gen := own.elim 0 (·.gen),
    wr := BitVec.ofNat 512 n, pages := ps, ctr := ctr }

/-- The receive that a work request of a NRECV begins. -/
def recvOf (s : State) (e : Issuer) (n : Nat) (ps : List (Nat × Nat)) (ctr : Option Nat) : NeRecv :=
  let own := chanOf s e.l.ctx e.b.capbase.toNat (wrCh n)
  { op := s.nextId, ctx := e.l.ctx, table := e.b.capbase.toNat, region := e.l.region,
    entry := own.elim 0 (·.entry), gen := own.elim 0 (·.gen), wr := BitVec.ofNat 512 n, pages := ps, ctr := ctr }

/-- The send is the engine's, and counts in its pack (R464). -/
def sendHanded (s : State) (e : Issuer) (q : NeReq) : State :=
  setBlock { s with nextId := s.nextId + 1, sends := s.sends ++ [q] } (setPack e.b (engAdd e.p s.nextId .net none))

/-- The receive is the engine's. -/
def recvHanded (s : State) (x : NeRecv) : State := { s with nextId := s.nextId + 1, receives := s.receives ++ [x] }

/-- What becomes of a send that has been handed over, by the channel that it may use: one that allows its length lets it go on. -/
def sendAnswered (v : State) (q : NeReq) (n : Nat) : Option Channel → State
  | none => finishSend v q 5 0
  | some c => if ceAllow c.entry.toNat < wrLen n then finishSend v q 5 0 else v

theorem sendAnswered_spec (v : State) (q : NeReq) (n : Nat) (c : Option Channel) :
    ((∃ x, c = some x ∧ wrLen n ≤ ceAllow x.entry.toNat) → sendAnswered v q n c = v) ∧
    ((∀ x, c = some x → ceAllow x.entry.toNat < wrLen n) → sendAnswered v q n c = finishSend v q 5 0) := by
  refine ⟨?_, fun hc => ?_⟩
  · rintro ⟨x, rfl, hx⟩
    exact if_neg (Nat.not_lt.2 hx)
  · cases c with
    | none => rfl
    | some x => exact if_pos (hc x rfl)

theorem kept_sendAnswered (v : State) (q : NeReq) (n : Nat) (c : Option Channel) : Kept v (sendAnswered v q n c) := by
  cases c with
  | none => exact kept_finishSend v q 5 0
  | some x => exact kept_ite (kept_finishSend v q 5 0) (kept_refl v)

/-- A send without an entry takes that of its channel, and is handed over. -/
def sendEnters (v : State) (e : Issuer) (n : Nat) (q : NeReq) : State :=
  let own := chanOf v e.l.ctx e.b.capbase.toNat (wrCh n)
  let q := { q with entry := own.elim 0 (·.entry), gen := own.elim 0 (·.gen) }
  sendAnswered { v with sends := v.sends ++ [q] } q n (wrChan v e n)

theorem npostEffect_enters (s : State) (e : Issuer) (n : Nat) (ps : List (Nat × Nat)) (ctr : Option Nat) :
    npostEffect s e n ps ctr = sendEnters (putPack { s with nextId := s.nextId + 1 } e.ref.blk (engAdd (refresh s e).p s.nextId .net none))
      e n { sendOf s e n ps ctr with entry := 0, gen := 0 } := by
  unfold npostEffect sendEnters
  dsimp only
  generalize putPack _ _ _ = v
  cases chanOf v e.l.ctx e.b.capbase.toNat (wrCh n) <;> cases wrChan v e n <;> rfl

theorem npostEffect_eq {s : State} {e : Issuer} (h : issuerAt s e.ref = some e) (n : Nat) (ps : List (Nat × Nat)) (ctr : Option Nat) :
    npostEffect s e n ps ctr =
      sendAnswered (sendHanded s e (sendOf s e n ps ctr)) (sendOf s e n ps ctr) n (wrChan s e n) := by
  have hput : putPack { s with nextId := s.nextId + 1 } e.ref.blk (engAdd e.p s.nextId .net none) =
      setBlock { s with nextId := s.nextId + 1 } (setPack e.b (engAdd e.p s.nextId .net none)) :=
    putPack_eq (s := { s with nextId := s.nextId + 1 }) (issuerAt_eq.1 h).2.1 _
  rw [npostEffect_enters, refresh_of h, hput]
  rfl

theorem nrecvEffect_eq (s : State) (e : Issuer) (n : Nat) (ps : List (Nat × Nat)) (ctr : Option Nat) :
    nrecvEffect s e n ps ctr =
      let x := recvOf s e n ps ctr
      if (wrChan s e n).isSome then recvHanded s x else finishRecv (recvHanded s x) x 5 0 := by
  have hchan : ∀ x : NeRecv, wrChan { s with nextId := s.nextId + 1, receives := s.receives ++ [x] } e n = wrChan s e n := fun _ => rfl
  unfold nrecvEffect recvOf
  simp only [hchan]
  cases chanOf s e.l.ctx e.b.capbase.toNat (wrCh n) <;> cases wrChan s e n <;> rfl

theorem packIs_sendHanded {s : State} {e : Issuer} (h : issuerAt s e.ref = some e) (q : NeReq) :
    PackIs { s with nextId := s.nextId + 1, sends := s.sends ++ [q] } (sendHanded s e q) e
      { e.p with eng := e.p.eng ++ [{ id := s.nextId, cls := .net, tag := none }] } :=
  packIs_set (s := { s with nextId := s.nextId + 1, sends := s.sends ++ [q] }) h rfl rfl

theorem issuer_sendHanded {s : State} {e : Issuer} (h : issuerAt s e.ref = some e) (q : NeReq) :
    ∃ e', issuerAt (sendHanded s e q) e.ref = some e' :=
  ⟨_, issuerAt_set (s := { s with nextId := s.nextId + 1, sends := s.sends ++ [q] }) (p := engAdd e.p s.nextId .net none) h rfl rfl (issuer_frag h)⟩

/-- A work request that can be read, and whose pages and counter translate. -/
structure RequestMeets (s : State) (e : Issuer) (g : Gen) (ps : List (Nat × Nat)) (ctr : Option Nat) : Prop where
  issues : IssuesAlone s e
  regs : regsCause e [] g.a 16 = none
  good : wrBad (workRequest e g) = false
  round : needsRound e = false
  pages : wrPages s e (workRequest e g) = .ok (ps, ctr)

section
variable {s : State} {e : Issuer} {g : Gen} {ps : List (Nat × Nat)} {ctr : Option Nat} (hm : RequestMeets s e g ps ctr)
include hm

theorem exec_npost (hop : wrOp (workRequest e g) ≤ 3) (hroom : hasRoom e.p 3 none = true)
    (hrace : wrOp (workRequest e g) ≤ 2 → strictRace s e (ps.map (·.2)) = false) : ∃ body, exec (.npost g) s = issue s 8 .last false body ∧
      body e = .ok (npostEffect s e (workRequest e g) ps ctr) {} := by
  refine ⟨_, rfl, ?_⟩
  have hrace' : (decide (wrOp (workRequest e g) ≤ 2) && strictRace s e (ps.map (·.2))) = false := by simpa using hrace
  simp [hm.regs, hm.good, Nat.not_lt.2 hop, hm.pages, hm.round, hroom, hrace']

theorem npost_hands (hop : wrOp (workRequest e g) ≤ 3) (hroom : hasRoom e.p 3 none = true)
    (hrace : wrOp (workRequest e g) ≤ 2 → strictRace s e (ps.map (·.2)) = false) :
    let n := workRequest e g
    let q := sendOf s e n ps ctr
    Completes (.npost g) s e 8 fun m r => r = {} ∧ ∃ v, PackIs { s with nextId := s.nextId + 1, sends := s.sends ++ [q] } v e
        { e.p with eng := e.p.eng ++ [{ id := s.nextId, cls := .net, tag := none }] } ∧
      ((∃ c, wrChan s e n = some c ∧ wrLen n ≤ ceAllow c.entry.toNat) → m = v) ∧
      ((∀ c, wrChan s e n = some c → ceAllow c.entry.toNat < wrLen n) → m = finishSend v q 5 0) := by
  intro n q
  obtain ⟨body, hx, hb⟩ := exec_npost hm hop hroom hrace
  have hi := hm.issues.1.2
  rw [npostEffect_eq hi] at hb
  obtain ⟨e1, hv⟩ := issuer_sendHanded hi q
  obtain ⟨e2, he⟩ := kept_sendAnswered (sendHanded s e q) q n (wrChan s e n) _ _ hv
  exact completes hx hm.issues.1 (burstOk_alone hm.issues.2 _) (.inl rfl) hb he
    ⟨rfl, _, packIs_sendHanded hi q, sendAnswered_spec _ _ _ _⟩

theorem exec_nrecv (hop : wrOp (workRequest e g) = 4) : ∃ body, exec (.nrecv g) s = issue s 8 .never false body ∧
    body e = .ok (nrecvEffect s e (workRequest e g) ps ctr) {} := by
  refine ⟨_, rfl, ?_⟩
  simp [hm.regs, hm.good, hop, hm.pages, hm.round]

theorem nrecv_hands (hop : wrOp (workRequest e g) = 4) :
    let n := workRequest e g
    let x := recvOf s e n ps ctr
    Completes (.nrecv g) s e 8 fun m r => r = {} ∧ ∃ v, v = { s with nextId := s.nextId + 1, receives := s.receives ++ [x] } ∧
      m = if (wrChan s e n).isSome then v else finishRecv v x 5 0 := by
  intro n x
  have hi : issuerAt (recvHanded s x) e.ref = some e := hm.issues.1.2
  obtain ⟨e1, he⟩ := kept_ite (kept_refl (recvHanded s x)) (steady_kept (steady_finishRecv (recvHanded s x) x 5 0))
    (c := (wrChan s e n).isSome = true) _ _ hi
  obtain ⟨body, hx, hb⟩ := exec_nrecv hm hop
  rw [nrecvEffect_eq] at hb
  exact completes hx hm.issues.1 (burstOk_alone hm.issues.2 _) (.inl rfl) hb he ⟨rfl, _, rfl, rfl⟩

end

/-- Settles O47: past its checks each hands its request over, and completes it where its channel does not allow it. -/
theorem networkRequests : Obligations.NetworkRequests := by
  unfold Obligations.NetworkRequests
  intro s e g h hr n hbad hround ps ctr hpages own q x
  have hm : RequestMeets s e g ps ctr := ⟨h, hr, hbad, hround, hpages⟩
  exact ⟨npost_hands hm, nrecv_hands hm⟩

end Sys2Proof.Proofs
end

section
/-! Family 13_experts, O45: ERTOP (R435, R436, R440, R483). -/

namespace Sys2Proof.Proofs

open Sys2Proof Sys2Proof.Machine Sys2Proof.Safety Sys2Proof.Laws

/-! ## Entries -/

theorem kept_tlbDrop (s : State) (ctx va len : Nat) : Kept s (tlbDrop s ctx va len) := kept_same rfl rfl

theorem kept_putErt (s : State) (i n : Nat) : Kept s (putErt s i n) := kept_linesMoved (linesMoved_putErt s i n)

theorem putErt_fetches (s : State) (i n : Nat) : (putErt s i n).fetches = s.fetches := by
  rw [(linesMoved_putErt s i n).device]

/-- A fetch writes the entry, forgets its destination, and is the last in the pager's turn. -/
theorem startFetch_eq (s : State) (i : Nat) :
    startFetch s i = { tlbDrop (putErt s i (setErtState (ertEntry s i) 1)) (ertCtx (ertEntry s i)) (ertDst (ertEntry s i))
      (ertPages (ertEntry s i) * 2 ^ 21) with fetches := s.fetches ++ [{ idx := i }] } := by
  rw [← putErt_fetches s i (setErtState (ertEntry s i) 1)]
  rfl

section
variable {s : State} {i n : Nat} (hn : ertEntry s i = n)
include hn

/-- What an eviction makes of each state. -/
theorem ertEvict_spec : (ertState n = 2 → ertEvict s i = putErt s i (setErtState n 4)) ∧
    (ertState n = 3 → ertEvict s i = putErt s i (setErtDefer n true)) ∧ (ertState n ≠ 2 → ertState n ≠ 3 → ertEvict s i = s) := by
  unfold ertEvict
  simp only [hn]
  refine ⟨fun h => by rw [if_pos h], fun h => ?_, fun h2 h3 => by rw [if_neg h2, if_neg h3]⟩
  rw [if_neg (by omega), if_pos h]

theorem ertPin_spec : (ertState n = 2 ∨ ertState n = 3 → ertPin s i = putErt s i (setErtState (setErtPins n (ertPins n + 1)) 3)) ∧
    (ertState n ≠ 2 → ertState n ≠ 3 → ertPin s i = s) := by
  unfold ertPin
  simp only [hn]
  exact ⟨fun h => by rw [if_pos h], fun h2 h3 => by rw [if_neg fun h => h.elim h2 h3]⟩

/-- What an unpin makes of an entry with more pins than one, with one, and of one that is not pinned. -/
theorem ertUnpin_spec : (ertState n = 3 → 1 < ertPins n → ertUnpin s i = putErt s i (setErtPins n (ertPins n - 1))) ∧
    (ertState n = 3 → ertPins n = 1 → ertUnpin s i = putErt s i (setErtState (setErtPins n 0) (if ertDefer n then 4 else 2))) ∧
    (ertState n ≠ 3 → ertUnpin s i = s) := by
  unfold ertUnpin
  simp only [hn]
  refine ⟨fun h3 hp => ?_, fun h3 hp => ?_, fun h3 => by rw [if_neg fun h => h3 h.1]⟩
  · rw [if_pos ⟨h3, by omega⟩, if_neg (by omega)]
  · rw [if_pos ⟨h3, by omega⟩, if_pos hp, hp]

end

/-- The bounds of the operands of a define that raises nothing. -/
theorem defineCause_none {s : State} {e : Issuer} {g : Gen} {i : Nat} (h : defineCause s e g i = none) :
    uniVal e g.b < 2 ^ 16 ∧ uniVal e (sPlus g.b 1) < 2 ^ 31 ∧ uniWide e (sPlus g.b 2) < 2 ^ 57 := by
  unfold defineCause at h
  dsimp only at h
  split at h
  · cases h
  · omega

/-- The fields of an entry that holds a context, a page count, a source and a destination. -/
theorem entry_fields {c p src dst : Nat} (hc : c < 2 ^ 16) (hp : p < 2 ^ 16) (hs : src < 2 ^ 31) (hd : dst < 2 ^ 57) :
    let w := c * 2 ^ 16 + p * 2 ^ 32 + src * 2 ^ 21 * 2 ^ 64 + dst * 2 ^ 128
    ertState w = 0 ∧ ertDefer w = false ∧ ertPins w = 0 ∧ ertParked w = 0 ∧ ertCtx w = c ∧ ertPages w = p ∧ ertSrc w = src * 2 ^ 21 ∧
      ertDst w = dst := by
  intro w
  have hw : w = c * 2 ^ 16 + p * 2 ^ 32 + src * 2 ^ 21 * 2 ^ 64 + dst * 2 ^ 128 := rfl
  clear_value w
  unfold ertState ertDefer ertPins ertParked ertCtx ertPages ertSrc ertDst field
  simp only [Nat.shiftRight_eq_div_pow, Nat.testBit_eq_decide_div_mod_eq]
  refine ⟨?_, ?_, ?_, ?_, ?_, ?_, ?_, ?_⟩
  all_goals simp; omega

theorem definedEntry_fields {s : State} {e : Issuer} {g : Gen} {i : Nat} (h : defineCause s e g i = none) :
    let w := definedEntry e g
    ertState w = 0 ∧ ertDefer w = false ∧ ertPins w = 0 ∧ ertParked w = 0 ∧ ertCtx w = e.l.ctx % 2 ^ 16 ∧
    ertPages w = uniVal e g.b ∧ ertSrc w = uniVal e (sPlus g.b 1) * 2 ^ 21 ∧ ertDst w = uniWide e (sPlus g.b 2) := by
  obtain ⟨hp, hs, hd⟩ := defineCause_none h
  have hf := entry_fields (Nat.mod_lt e.l.ctx (Nat.two_pow_pos 16)) hp hs hd
  unfold definedEntry
  rw [Nat.mod_eq_of_lt hp]
  exact hf

/-! ## The instruction -/

/-- An ERTOP that changes an entry, or nothing, and completes. -/
def ErtLeaves (i : Instr) (s : State) (e : Issuer) (t : State) : Prop := Completes i s e 8 fun m r => m = t ∧ r = {}

section
variable {s : State} {e : Issuer} {g : Gen}

theorem ertAct_index {f : Nat → Act} (hu : uniCause e [opn32 g.a] = none) :
    ertAct e g f = if 16383 < uniVal e g.a then .trap (trapAll e [] 0x0C) else f (uniVal e g.a) := by
  unfold ertAct
  rw [hu]

/-- The forms on an entry of the issuing region's context: beyond the table and another context's first, then the form's own act. -/
theorem ertUse_cases {f : Nat → Nat → Act} (hu : uniCause e [opn32 g.a] = none) :
    ertUse s e g f = if 16383 < uniVal e g.a then .trap (trapAll e [] 0x0C)
      else if ertCtx (ertEntry s (uniVal e g.a)) ≠ e.l.ctx then .trap (trapAll e [] 0x06)
      else f (uniVal e g.a) (ertEntry s (uniVal e g.a)) := ertAct_index hu

/-- Past the check of its destination a read is such a form too. -/
theorem exec_ertopRead (hd : dstCause e (maskLanes e.p e.f) g.dst 2 = none) : ∃ body, exec (.ertopRead g) s = issue s 8 .never false body ∧
    body e = ertUse s e g fun _ n => if needsRound e then forceRound s e else sameResult s e g.dst g.nowb 2 (n % 2 ^ 64) := by
  refine ⟨_, rfl, ?_⟩
  rw [hd]

theorem ertForms_use (hd : dstCause e (maskLanes e.p e.f) g.dst 2 = none) :
    ∀ x ∈ [Instr.ertopFetch g, .ertopEvict g, .ertopPin g, .ertopUnpin g, .ertopRead g],
      ∃ body f, exec x s = issue s 8 .never false body ∧ body e = ertUse s e g f := by
  simp only [List.forall_mem_cons]
  obtain ⟨body, hx, hb⟩ := exec_ertopRead (s := s) hd
  exact ⟨⟨_, _, rfl, rfl⟩, ⟨_, _, rfl, rfl⟩, ⟨_, _, rfl, rfl⟩, ⟨_, _, rfl, rfl⟩, ⟨_, _, hx, hb⟩, List.forall_mem_nil _⟩

section
variable (h : IssuesAlone s e) (hu : uniCause e [opn32 g.a] = none) {x : Instr}
  (hx : ∃ body f, exec x s = issue s 8 .never false body ∧ body e = ertUse s e g f)
include h hu hx

theorem ert_beyond (hi : 16383 < uniVal e g.a) : exec x s = .next (takeTrap s e (trapAll e [] 0x0C)) := by
  obtain ⟨body, f, hx, hb⟩ := hx
  exact traps hx h.1 (burstOk_alone h.2 _) (.inl rfl) (hb.trans ((ertUse_cases hu).trans (if_pos hi)))

theorem ert_others (hi : uniVal e g.a ≤ 16383) (hc : ertCtx (ertEntry s (uniVal e g.a)) ≠ e.l.ctx) :
    exec x s = .next (takeTrap s e (trapAll e [] 0x06)) := by
  obtain ⟨body, f, hx, hb⟩ := hx
  rw [ertUse_cases hu, if_neg (Nat.not_lt.2 hi), if_pos hc] at hb
  exact traps hx h.1 (burstOk_alone h.2 _) (.inl rfl) hb

end

end

/-! ## ERTOP.define -/

section
variable {s : State} {e : Issuer} {g : Gen}

theorem define_effect (h : IssuesAlone s e) (hu : uniCause e [opn32 g.a] = none) (hs : inSup e.f = true) (hr : regsCause e [] g.b 4 = none)
    (hc : defineCause s e g (uniVal e g.a) = none) :
    let w := definedEntry e g
    ErtLeaves (.ertopDefine g) s e (tlbDrop (putErt s (uniVal e g.a) w) (ertCtx w) (ertDst w) (ertPages w * 2 ^ 21)) := by
  intro w
  obtain ⟨e', he'⟩ := kept_trans (kept_putErt s (uniVal e g.a) w) (kept_tlbDrop _ (ertCtx w) (ertDst w) (ertPages w * 2 ^ 21)) _ _ h.1.2
  refine completes (i := .ertopDefine g) rfl h.1 (burstOk_alone h.2 _) (.inr hs) (r := {}) ?_ he' ⟨rfl, rfl⟩
  have hround : needsRound e = false := by simp [needsRound, buffered, hs]
  dsimp only
  rw [firstCause_pair hu hr]
  dsimp only
  rw [hc]
  dsimp only
  rw [hround]
  rfl

end

/-! ## The other forms on an entry of the issuing region's context -/

/-- An ERTOP on an entry of its own context. -/
structure ErtMeets (s : State) (e : Issuer) (g : Gen) : Prop where
  issues : IssuesAlone s e
  operand : uniCause e [opn32 g.a] = none
  index : uniVal e g.a ≤ 16383
  own : ertCtx (ertEntry s (uniVal e g.a)) = e.l.ctx

section
variable {s : State} {e : Issuer} {g : Gen} (hm : ErtMeets s e g)
include hm

theorem ertUse_own (f : Nat → Nat → Act) : ertUse s e g f = f (uniVal e g.a) (ertEntry s (uniVal e g.a)) := by
  rw [ertUse_cases hm.operand, if_neg (Nat.not_lt.2 hm.index), if_neg (not_not.2 hm.own)]

theorem ert_leaves {x : Instr} {f : Nat → Nat → Act} {body : Issuer → Act} {t : State} (hx : exec x s = issue s 8 .never false body)
    (hb : body e = ertUse s e g f) (hf : f (uniVal e g.a) (ertEntry s (uniVal e g.a)) = .ok t {}) (ht : Kept s t) : ErtLeaves x s e t := by
  obtain ⟨e', he'⟩ := ht _ _ hm.issues.1.2
  exact completes hx hm.issues.1 (burstOk_alone hm.issues.2 _) (.inl rfl) (hb.trans ((ertUse_own hm f).trans hf)) he' ⟨rfl, rfl⟩

theorem unpin_unpinned (hp : ertPins (ertEntry s (uniVal e g.a)) = 0) :
    exec (.ertopUnpin g) s = .next (takeTrap s e (trapAll e [] 0x0C)) :=
  traps (i := .ertopUnpin g) rfl hm.issues.1 (burstOk_alone hm.issues.2 _) (.inl rfl) ((ertUse_own hm _).trans (if_pos hp))

variable (hr : needsRound e = false)
include hr

theorem fetch_effect :
    let i := uniVal e g.a
    let n := ertEntry s i
    (ertState n = 0 → ertPages n ≠ 0 → ErtLeaves (.ertopFetch g) s e
      { tlbDrop (putErt s i (setErtState n 1)) (ertCtx n) (ertDst n) (ertPages n * 2 ^ 21) with fetches := s.fetches ++ [{ idx := i }] }) ∧
    ((ertState n ≠ 0 ∨ ertPages n = 0) → ErtLeaves (.ertopFetch g) s e s) := by
  intro i n
  refine ⟨fun h0 hp => ?_, fun hno => ?_⟩
  · rw [← startFetch_eq]
    refine ert_leaves hm (x := .ertopFetch g) rfl rfl ?_ (kept_trans (kept_putErt s i (setErtState n 1)) (kept_same rfl rfl))
    rw [hr, if_neg Bool.false_ne_true, if_pos ⟨h0, hp⟩]
  · refine ert_leaves hm (x := .ertopFetch g) rfl rfl ?_ (kept_refl s)
    rw [hr, if_neg Bool.false_ne_true, if_neg fun hx => hno.elim (· hx.1) hx.2]

theorem evict_leaves {t : State} (ht : ertEvict s (uniVal e g.a) = t) (hk : Kept s t) : ErtLeaves (.ertopEvict g) s e t := by
  refine ert_leaves hm (x := .ertopEvict g) rfl rfl ?_ hk
  rw [hr, if_neg Bool.false_ne_true, ht]

theorem pin_leaves {t : State} (hp : ertPins (ertEntry s (uniVal e g.a)) ≠ 4095) (ht : ertPin s (uniVal e g.a) = t) (hk : Kept s t) :
    ErtLeaves (.ertopPin g) s e t := by
  refine ert_leaves hm (x := .ertopPin g) rfl rfl ?_ hk
  rw [hr, if_neg Bool.false_ne_true, if_neg hp, ht]

theorem pin_waits (hp : ertPins (ertEntry s (uniVal e g.a)) = 4095) : Waits (.ertopPin g) s e .waiting .translations := by
  refine waits (i := .ertopPin g) rfl hm.issues.1 (burstOk_alone hm.issues.2 _) (.inl rfl) ((ertUse_own hm _).trans ?_)
  rw [hr, if_neg Bool.false_ne_true, if_pos hp]

theorem unpin_leaves {t : State} (hp : ertPins (ertEntry s (uniVal e g.a)) ≠ 0) (ht : ertUnpin s (uniVal e g.a) = t) (hk : Kept s t) :
    ErtLeaves (.ertopUnpin g) s e t := by
  refine ert_leaves hm (x := .ertopUnpin g) rfl rfl ?_ hk
  rw [if_neg hp, hr, if_neg Bool.false_ne_true, ht]

theorem read_effect (hd : dstCause e (maskLanes e.p e.f) g.dst 2 = none) : Completes (.ertopRead g) s e 8 fun m r =>
    ResultOnly s m e g.dst g.nowb 2 (maskLanes e.p e.f) (fun _ => ertEntry s (uniVal e g.a) % 2 ^ 64) r := by
  obtain ⟨body, hx, hb⟩ := exec_ertopRead (s := s) hd
  rw [ertUse_own hm, hr, if_neg Bool.false_ne_true] at hb
  exact completes_result hx hm.issues.1 (burstOk_alone hm.issues.2 _) (.inl rfl) (b := e.b) (l := e.l) hm.issues.1.2 hb fun _ _ hr => hr

end

/-- Settles O45: a define writes its entry; the other forms look at the index, the context and the state of theirs. -/
theorem expertResidency : Obligations.ExpertResidency := by
  unfold Obligations.ExpertResidency
  intro s e g h hu hd i n at' stops forgets
  refine ⟨fun hs hr hc => ⟨_, define_effect h hu hs hr hc, definedEntry_fields hc⟩, fun hi x hx => ert_beyond h hu (ertForms_use hd x hx) hi,
    fun hi hc x hx => ert_others h hu (ertForms_use hd x hx) hi hc, fun hi hc => ?_⟩
  · have hm : ErtMeets s e g := ⟨h, hu, hi, hc⟩
    refine ⟨unpin_unpinned hm, fun hr => ?_⟩
    obtain ⟨fetches, nothing⟩ := fetch_effect hm hr
    obtain ⟨evicts, marks, stays⟩ := ertEvict_spec (rfl : ertEntry s i = n)
    obtain ⟨pins, unpinned⟩ := ertPin_spec (rfl : ertEntry s i = n)
    obtain ⟨fewer, last, same⟩ := ertUnpin_spec (rfl : ertEntry s i = n)
    exact ⟨fetches, nothing, fun h2 => evict_leaves hm hr (evicts h2) (kept_putErt _ _ _),
      fun h3 => evict_leaves hm hr (marks h3) (kept_putErt _ _ _), fun h2 h3 => evict_leaves hm hr (stays h2 h3) (kept_refl s),
      pin_waits hm hr, fun hp h23 => pin_leaves hm hr hp (pins h23) (kept_putErt _ _ _),
      fun hp h2 h3 => pin_leaves hm hr hp (unpinned h2 h3) (kept_refl s),
      fun h3 hp => unpin_leaves hm hr (Nat.ne_of_gt (Nat.lt_trans Nat.zero_lt_one hp)) (fewer h3 hp) (kept_putErt _ _ _),
      fun h3 hp => unpin_leaves hm hr (ne_of_eq_of_ne hp Nat.one_ne_zero) (last h3 hp) (kept_putErt _ _ _),
      fun h3 hp => unpin_leaves hm hr hp (same h3) (kept_refl s), read_effect hm hr hd⟩

end Sys2Proof.Proofs
end

section
/-! O54: what arrives on links and ports (R391 to R393, R396 to R398, R402 to R404, R411 to R418, R423 to R445, R465, R467, R519,
R523 to R525, R528 to R533, R559). -/

namespace Sys2Proof.Proofs

open Sys2Proof Sys2Proof.Machine Sys2Proof.Safety Sys2Proof.Laws

/-- An event whose function answers has the effect that it answers. -/
theorem occurs {i : Instr} {s t : State} {r : Option State} (hx : exec i s = occur s r) (hr : r = some t) : exec i s = .next t := by
  rw [hx, hr]
  rfl

/-! ## Grid messages -/

section
variable {s : State} {m : GMsg}

theorem requests_taken (h : reachesHere s m = true) (busy : Bool) :
    exec (.gstLineReceive m) s = .next (requestIn s { kind := 0, msg := m }) ∧
    exec (.gldRequestReceive m) s = .next (requestIn s { kind := 1, msg := m }) ∧
    exec (.gatomRequestReceive m busy) s = .next (requestIn s { kind := 4, msg := m } busy) ∧
    exec (.gcopyLineReceive m) s = .next (requestIn s { kind := 8, msg := m }) :=
  ⟨occur_due h, occur_due h, occur_due h, occur_due h⟩

theorem contributions_taken (h : rootHere s m = true) (busy : Bool) :
    exec (.gredContributionReceive { msg := m, busy }) s = .next (requestIn s { kind := 3, msg := m } busy) ∧
    exec (.gscanContributionReceive m) s = .next (requestIn s { kind := 6, msg := m }) :=
  ⟨occur_due h, occur_due h⟩

theorem answers_taken (h : answersHere s m = true) :
    exec (.gldReplyReceive m) s = .next (answerIn s { kind := 2, msg := m }) ∧
    exec (.gatomReplyReceive m) s = .next (answerIn s { kind := 5, msg := m }) ∧
    exec (.gscanReplyReceive m) s = .next (answerIn s { kind := 7, msg := m }) ∧
    exec (.acknowledgementReceive m) s = .next (answerIn s { kind := 9, msg := m }) ∧
    exec (.refusalReceive m) s = .next (answerIn s { kind := 11, msg := m }) :=
  ⟨occur_due h, occur_due h, occur_due h, occur_due h, occur_due h⟩

theorem landings_delivered (hm : m ∈ s.landings) (h : landingDue s m = true) : exec .gcopyHeldDelivery s = .next (deliverLandings s) :=
  occur_due (List.any_eq_true.2 ⟨m, hm, h⟩)

theorem marker_taken {src : BitVec 20} (k : MarkerId) (hu : s.unreachable = false) (hv : gridValid s = true) (hne : src.toNat ≠ selfLin s)
    (hlt : src.toNat < gridDevices s) :
    exec (.releaseMarkerReceive src k) s = .next (markerIn s (markerMsg src.toNat k.tag.toNat k.ctx.toNat k.plane.toNat)) :=
  occur_due (by simp [hu, hv, hne, hlt])

theorem plane_lost {p : BitVec 3} (h : s.deadPlanes.getLsbD p.toNat = false) :
    exec (.planeLossReport p) s = .next (failPlane s p.toNat) :=
  occur_due (by rw [h]; rfl)

end

/-! ## What a link keeps of what it receives while it sends (R391 to R393) -/

/-- Two states of a link agree in what they know of the other end's flits: the next number, the errors, the failover. -/
def SameReceived (l m : Link) : Prop := m.rx = l.rx ∧ m.errors = l.errors ∧ m.moved = l.moved

theorem sameReceived_refl (l : Link) : SameReceived l l := ⟨rfl, rfl, rfl⟩

theorem sameReceived_trans {l m n : Link} (h : SameReceived l m) (k : SameReceived m n) : SameReceived l n :=
  ⟨k.1.trans h.1, k.2.1.trans h.2.1, k.2.2.trans h.2.2⟩

theorem sameReceived_sendFlit (l : Link) (w : PortFlit) : SameReceived l (sendFlit l w).1 := ⟨rfl, rfl, rfl⟩

theorem sameReceived_drainPort (k : Nat) (ws : List PortFlit) : ∀ (vcs : List (BitVec 3)) (lines : List Nat) (l : Link),
    SameReceived l (drainPort k vcs lines l ws).1 := by
  induction ws with
  | nil => exact fun _ _ l => sameReceived_refl l
  | cons w ws ih =>
    intro vcs lines l
    rw [drainPort]
    split
    · exact ih _ _ l
    · exact sameReceived_trans (sameReceived_sendFlit l w) (ih _ _ _)

theorem sameReceived_returnCredits (fill : List Byte) (n : Nat) : ∀ l : Link, SameReceived l (returnCredits fill n l).1 := by
  induction n with
  | zero => exact fun l => sameReceived_refl l
  | succ n ih =>
    intro l
    rw [returnCredits]
    split
    · exact sameReceived_refl l
    · exact sameReceived_trans (sameReceived_sendFlit l _) (ih _)

theorem sameReceived_pumpLink (k : Nat) (fill : List Byte) (l : Link) : SameReceived l (pumpLink k fill l).1 :=
  sameReceived_trans (sameReceived_drainPort k l.queue [] [] l) (sameReceived_returnCredits fill _ _)

theorem getLink_putLink (s : State) (k : Nat) (l : Link) : getLink (putLink s k l) k = l := (spGet_spPut _ _ _ _ _).trans (if_pos rfl)

theorem sameReceived_pump (s : State) (k : Nat) (l : Link) : SameReceived l (getLink (pump s k l) k) := by
  unfold pump
  dsimp only
  rw [getLink_putLink]
  split
  · exact sameReceived_pumpLink k _ l
  · exact sameReceived_refl l

theorem sameReceived_sendCtl (s : State) (k : Nat) (f : CtlFlit) : SameReceived (getLink s k) (getLink (sendCtl s k f) k) :=
  sameReceived_pump _ k _

/-- One flit accepted is one number more, and nothing else of what the link receives. -/
theorem acceptFlits_received (s : State) (k vc : Nat) : (getLink (acceptFlits s k vc 1) k).rx = (getLink s k).rx + 1 ∧
    (getLink (acceptFlits s k vc 1) k).errors = (getLink s k).errors := by
  obtain ⟨hrx, herr, -⟩ := sameReceived_pump s k
    { getLink s k with rx := (getLink s k).rx + BitVec.ofNat 8 1, owed := spPut 0 (getLink s k).owed vc (spGet 0 (getLink s k).owed vc + 1) }
  exact ⟨hrx, herr⟩

/-! ## Flits (R393, R523, R524, R559) -/

theorem keptFrom_split {l : Link} {q : BitVec 8} {pre post : List PortFlit} {w : PortFlit} (hk : l.kept = pre ++ w :: post)
    (hw : w.flit.fseq = q) (hpre : ∀ x ∈ pre, x.flit.fseq ≠ q) : keptFrom l q = w :: post := by
  unfold keptFrom
  rw [hk, List.dropWhile_append_of_pos (fun x hx => by simpa using hpre x hx), List.dropWhile_cons_of_neg (by simpa using hw)]

section
variable {s : State} {k : BitVec 6} (hup : (getLink s k.toNat).up = true)
include hup

theorem idle_taken (vc : BitVec 3) (crd : BitVec 6) : exec (.idleFlitReceive k vc crd) s = .next (pump s k.toNat
    { getLink s k.toNat with rx := (getLink s k.toNat).rx + 1,
                             spent := spPut 0 (getLink s k.toNat).spent vc.toNat (spGet 0 (getLink s k.toNat).spent vc.toNat - crd.toNat) }) :=
  occur_due hup

theorem reservedVc_dropped : ∃ t, exec (.reservedVcFlit k) s = .next t ∧ (getLink t k.toNat).errors = (getLink s k.toNat).errors + 1 ∧
    (getLink t k.toNat).rx = (getLink s k.toNat).rx + 1 ∧ t.mem = s.mem ∧ t.blocks = s.blocks := by
  obtain ⟨hrx, herr⟩ := acceptFlits_received s k.toNat 7
  refine ⟨_, occur_due hup, ?_, ?_, rfl, rfl⟩
  · rw [getLink_putLink, ← herr]
  · rw [getLink_putLink, ← hrx]

theorem crcFailure_asks : ∃ t, exec (.flitCrcFailure k) s = .next t ∧ t.ctlOut = s.ctlOut ++ [.replay k.toNat (getLink s k.toNat).rx] ∧
    (getLink t k.toNat).rx = (getLink s k.toNat).rx :=
  ⟨_, occur_due hup, rfl, (sameReceived_sendCtl s k.toNat _).1⟩

theorem kept_replayed {q : BitVec 8} {pre post : List PortFlit} {w : PortFlit} (hk : (getLink s k.toNat).kept = pre ++ w :: post)
    (hw : w.flit.fseq = q) (hpre : ∀ x ∈ pre, x.flit.fseq ≠ q) :
    let l := getLink s k.toNat
    (l.fails < 16 → exec (.linkReplayRequest k q) s = .next
      { putLink s k.toNat { l with fails := l.fails + 1, flits := l.flits + (post.length + 1) } with
        flitsOut := s.flitsOut ++ (w :: post).map fun x => (k.toNat, x.flit) }) ∧
    exec (.linkFlitAcknowledge k q) s = .next (putLink s k.toNat { l with kept := post, fails := 0 }) := by
  intro l
  have hkept := keptFrom_split hk hw hpre
  refine ⟨fun hf => occurs (r := onLinkReplayRequest k q s) rfl ?_, occurs (r := onLinkFlitAcknowledge k q s) rfl ?_⟩
  · unfold onLinkReplayRequest
    dsimp only
    rw [hkept]
    exact if_pos (by simp [hup, show (getLink s k.toNat).fails < 16 from hf])
  · unfold onLinkFlitAcknowledge
    dsimp only
    rw [hkept]
    exact if_pos (by simp [hup, hk, hw])

theorem link_goesDown (hf : 16 ≤ (getLink s k.toNat).fails) : exec (.linkDown k) s = .next (downLink s k.toNat) :=
  occur_due (by simp [linkUp, hup, hf])

theorem failover_noted (q : BitVec 8) : ∃ t, exec (.linkFailoverNotice k q) s = .next t ∧ (getLink t k.toNat).moved = some q ∧
    (getLink t k.toNat).rx = (getLink s k.toNat).rx + 1 := by
  refine ⟨_, occur_due hup, ?_, ?_⟩
  · rw [getLink_putLink]
  · rw [getLink_putLink]
    exact (acceptFlits_received s k.toNat 5).1

theorem audit_sent (hf : 2 ^ 16 ≤ (getLink s k.toNat).flits) : ∃ t, exec (.auditFlitSend k) s = .next t ∧
    t.ctlOut = s.ctlOut ++ [.audit k.toNat] ∧ t.mem = s.mem :=
  ⟨_, occur_due (by simpa [linkUp, hup] using hf), rfl, rfl⟩

/-- An audit that agrees is only taken; one that does not makes the link retrain. -/
theorem audit_taken (vc : BitVec 3) (n : Nat) :
    let l := getLink s k.toNat
    (Config.initialCredits k.toNat vc.toNat + flying l vc.toNat = n + spGet 0 l.spent vc.toNat →
      exec (.creditAuditReceive k vc n) s = .next (takeFlit s k.toNat)) ∧
    (Config.initialCredits k.toNat vc.toNat + flying l vc.toNat ≠ n + spGet 0 l.spent vc.toNat →
      exec (.creditAuditReceive k vc n) s = .next (retrain (takeFlit s k.toNat) k.toNat)) :=
  ⟨fun h => (occur_due hup).trans (congrArg _ (if_pos h)), fun h => (occur_due hup).trans (congrArg _ (if_neg h))⟩

theorem unreachable_marked (hu : s.unreachable = true) : ∃ t, exec (.unreachableMark k) s = .next t ∧
    t.ctlOut = s.ctlOut ++ [.unreachable k.toNat] ∧ t.mem = s.mem :=
  ⟨_, occur_due (by simp [linkUp, hup, hu]), rfl, rfl⟩

end

/-! ## Expert rows, close markers, loads, tiles (R430 to R434, R441, R445) -/

section
variable {s : State}

theorem row_taken {r : TokenRow} (hu : s.unreachable = false) (hb : bankFree s r.gate r.batch = true) :
    exec (.tokenRowReceive r) s = .next (rowArrives (fromXLink s (.row (selfLin s) r)) r) :=
  occur_due (by simp [hu, hb])

theorem replyKnown_of {r : RowReply} {d : Dispatch} {i : Nat} (hd : d ∈ s.dispatches) (hop : d.op = r.op) (hi : replySlot d r = some i) :
    replyKnown s r = true :=
  List.any_eq_true.2 ⟨d, hd, by simp [hop, hi]⟩

theorem rowReply_taken {r : RowReply} (hr : replyKnown s r = true) :
    let u := rowReply (fromXLink s (.reply (selfLin s) r)) r
    ((∃ n, r.answer = .granted n) → exec (.rowAcceptanceReceive r) s = .next u) ∧
    ((∀ n, r.answer ≠ .granted n) → exec (.rowRefusalReceive r) s = .next u) := by
  refine ⟨fun ⟨n, hn⟩ => occur_due (by rw [hn]; exact hr), fun hno => occur_due ?_⟩
  split
  · rename_i n hn
    exact absurd hn (hno n)
  · exact hr

theorem dispatch_completes {d : Dispatch} (hd : (s.dispatches.find? fun x => x.op == d.op) = some d) (h : ∀ x ∈ d.slots, x.settled = true) :
    exec (.gdispatchComplete d.op) s = .next (dispatchDone s d) :=
  occurs (r := onGdispatchComplete d.op s) rfl (by simpa [onGdispatchComplete, due, hd] using h)

section
variable {slot : BitVec 3} {g : GateSlot} (hg : spFind? s.gates slot.toNat = some g)
include hg

theorem close_sent {d : MarkDue} {rest : List MarkDue} (hc : g.toClose = d :: rest)
    (hr : markReady s slot.toNat (gOrdered (gateWord g)) d = true) :
    exec (.closeMarkerSend slot) s = .next (sendMark s slot.toNat g d) :=
  occurs (r := onCloseMarkerSend slot s) rfl (by simp [onCloseMarkerSend, due, hg, hc, hr])

theorem loads_taken (hu : s.unreachable = false) (batch : Nat) (loads : List (Nat × Nat)) : exec (.loadMulticastReceive slot batch loads) s =
    .next (takeLoads (fromXLink s (.loads [selfLin s] slot.toNat batch loads)) slot.toNat batch loads) :=
  occur_due (by simp [hu, hg])

theorem round_closes {b : BatchState} (hb : g.batches.find? roundReady = some b) (ho : gOrdered (gateWord g) = true) :
    exec (.orderedRoundClose slot) s = .next (closeRound s slot.toNat g b) :=
  occurs (r := onOrderedRoundClose slot s) rfl (by simp [onOrderedRoundClose, due, hg, hb, ho])

theorem bank_given {bank : BitVec 1} {b : BatchState} (hb : bankBatch g bank.toNat = some b) (hc : b.closeDone = true) (hl : b.live = 0) :
    exec (.fillCounterReset slot bank) s = .next (resetBank s slot.toNat g b) :=
  occurs (r := onFillCounterReset slot bank s) rfl (by simp [onFillCounterReset, due, hg, hb, resetReady, hc, hl])

theorem tile_spawned {bank : BitVec 1} {b : BatchState} (hb : bankBatch g bank.toNat = some b) {e q : Nat} (ht : tileReady s g b e q = true) :
    exec (.tileSpawn slot bank e q) s = .next (spawnTile s slot.toNat g b e q) :=
  occurs (r := onTileSpawn slot bank e q s) rfl (by simp [onTileSpawn, due, hg, hb, ht])

end

theorem close_taken {slot : BitVec 3} {batch src : Nat} {dests : List Nat} (last : Bool) (hu : s.unreachable = false)
    (hb : bankFree s slot.toNat batch = true) (hs : src ∈ dests) (hd : selfLin s ∈ dests) :
    exec (.closeMarkerReceive slot batch src last dests) s =
      .next (closeMark (fromXLink s (.close dests slot.toNat batch src last)) slot.toNat batch src last dests) :=
  occur_due (by simp [hu, hb, hs, hd])

theorem mark_commits {slot : BitVec 3} {e : Issuer} {g : Gen} (hw : markWaiter s slot.toNat = some e) (hf : markFree s slot.toNat = true) :
    let u := wakeFrag s e.ref
    fetched u (refresh u e) = .ok (.mbmark g) →
    exec (.mbmarkCommit slot) s = .next (finish u (refresh u e) 8 (markAct u (refresh u e) g true)) := by
  intro u hfetch
  refine occurs (r := onMbmarkCommit slot s) rfl ?_
  unfold onMbmarkCommit
  rw [hw]
  dsimp only
  rw [hfetch]
  exact if_pos hf

/-! ## The pager (R438, R528) -/

theorem fetch_completes {i : BitVec 14} {t : State} {f : List Nat} (hr : fetchReady s i.toNat = true)
    (hf : fetchFrames s i.toNat = some (t, f)) : exec (.pagerFetchComplete i) s = .next (fetchDone t i.toNat f) :=
  occurs (r := onPagerFetchComplete i s) rfl (by simp [onPagerFetchComplete, due, hf, hr])

theorem fetch_fails {i : BitVec 14} {f : Fetch} (hf : runningFetch s i.toNat = some f) : exec (.fetchAttemptFail i) s = .next (settleCloses
    (attemptFails s f (srcOk (ertEntry s i.toNat) && (fetchFrames s i.toNat).isNone))) :=
  occurs (r := onFetchAttemptFail i s) rfl (by simp [onFetchAttemptFail, due, hf])

theorem evict_completes {i : BitVec 14} (h : ertState (ertEntry s i.toNat) = 4) : exec (.evictUnmapComplete i) s = .next (evictDone s i.toNat) :=
  occur_due (by simp [h])

/-! ## The network engine (R465, R467, R531 to R533) -/

theorem send_starts {q : NeReq} (hq : (s.sends.find? fun x => x.op == q.op) = some q) (hr : sendReady s q = true) :
    exec (.npostStart q.op) s = .next (startSend s q) :=
  occurs (r := onNpostStart q.op s) rfl (by simp [onNpostStart, due, hq, hr])

/-- A segment that is still open is sent again. -/
def resendOpen (op : Nat) (s : State) (g : SegState) : State :=
  match openSeg s op g.part with
  | some x => resend s x.1 x.2 false
  | none => s

section
variable (hp : s.livePorts ≠ 0)
include hp

theorem segment_taken {g : NeSeg} (hl : inLehr s = false) (hop : g.op ≤ 3 ∨ g.op = 5) (h1 : g.part < g.nparts) (h2 : g.part ≤ g.psn)
    (h3 : 1 ≤ g.size) : exec (.neSegmentReceive g) s = .next (segArrives s g) :=
  occur_due (by simpa [hl, hop, h1, h2, h3] using hp)

theorem ack_taken {a : NeAck} {c : Channel} (hc : ackChan s a = some c) : exec (.neAckReceive a) s = .next (ackArrives s c a) :=
  occurs (r := onNeAckReceive a s) rfl (by simpa [onNeAckReceive, due, hc] using hp)

theorem segment_resent {op part : Nat} {q : NeReq} {g : SegState} (hg : openSeg s op part = some (q, g)) :
    exec (.neRetransmitTimeout op part) s = .next (resend s q g true) :=
  occurs (r := onNeRetransmitTimeout op part s) rfl (by simpa [onNeRetransmitTimeout, due, hg] using hp)

theorem exec_neNotReadyReceive {op : Nat} {q : NeReq} (hq : (s.sends.find? fun q => q.op == op && q.begun) = some q) :
    exec (.neNotReadyReceive op) s = .next ((q.segs.filter fun g => !g.acked).foldl (resendOpen op) s) := by
  refine occurs (r := onNeNotReadyReceive op s) rfl ?_
  unfold onNeNotReadyReceive
  rw [hq]
  exact if_pos (by simpa using hp)

/-- What is not acknowledged is sent again, and nothing else. -/
theorem notReady_resends {op : Nat} {q : NeReq} (hq : (s.sends.find? fun q => q.op == op && q.begun) = some q) :
    ∃ t, exec (.neNotReadyReceive op) s = .next t ∧ ((∀ g ∈ q.segs, g.acked = true) → t = s) ∧
      (∀ g, (q.segs.filter fun x => !x.acked) = [g] → openSeg s op g.part = some (q, g) → t = resend s q g false) := by
  refine ⟨_, exec_neNotReadyReceive hp hq, fun hall => ?_, fun g hg ho => ?_⟩
  · rw [List.filter_eq_nil_iff.2 fun g hg => by simp [hall g hg]]
    rfl
  · rw [hg, List.foldl_cons, resendOpen, ho]
    rfl

end

theorem receive_expires {op : Nat} {r : NeRecv} (hr : (s.receives.find? fun x => x.op == op && x.msg.isSome) = some r) :
    exec (.neReceiveTimeout op) s = .next (finishRecv s r 4 0) :=
  occurs (r := onNeReceiveTimeout op s) rfl (by simp [onNeReceiveTimeout, due, hr])

theorem abort_taken {id : NeId} {c : Channel} (n : Nat) (hc : chanById s id = some c) :
    exec (.neAbortReceive id n) s = .next (abortArrives s c n) :=
  occurs (r := onNeAbortReceive id n s) rfl (by simp [onNeAbortReceive, due, hc])

end

/-- Settles O54: each event is due where its hypotheses hold, and then has the effect of the model's function for it; what a link sends
meanwhile leaves what it has received (`sameReceived_pump`). -/
theorem eventsOfMessages : Obligations.EventsOfMessages := by
  unfold Obligations.EventsOfMessages
  intro s m
  refine ⟨fun busy h => requests_taken h busy, fun busy h => contributions_taken h busy, answers_taken,
    fun x hx h => landings_delivered hx h, fun src k hu hv hne hlt => marker_taken k hu hv hne hlt, fun p h => plane_lost h,
    fun k hup => ?_, fun r hu hb => row_taken hu hb, fun r d i hd hop hi => rowReply_taken (replyKnown_of hd hop hi),
    fun d hd h => dispatch_completes hd h, fun slot g hg => ?_, fun slot batch src last dests hu hb hs hd => close_taken last hu hb hs hd,
    fun slot e g hw hf => mark_commits hw hf,
    fun i => ⟨fun t f hr hf => fetch_completes hr hf, fun f hf => fetch_fails hf, fun h => evict_completes h⟩,
    fun q hq hr => send_starts hq hr, fun hp => ⟨fun g hl hop h1 h2 h3 => segment_taken hp hl hop h1 h2 h3, fun a c hc => ack_taken hp hc,
      fun op part q g hg => segment_resent hp hg, fun op q hq => notReady_resends hp hq⟩,
    fun op r hr => receive_expires hr, fun id n c hc => abort_taken n hc⟩
  · exact ⟨idle_taken hup, reservedVc_dropped hup, crcFailure_asks hup, fun q pre w post hk hw hpre => kept_replayed hup hk hw hpre,
      link_goesDown hup, failover_noted hup, audit_sent hup, fun vc n => (audit_taken hup vc n).1, fun vc n => (audit_taken hup vc n).2,
      unreachable_marked hup⟩
  · exact ⟨fun d rest hc hr => close_sent hg hc hr, loads_taken hg, fun b hb ho => round_closes hg hb ho,
      fun bank b hb => ⟨bank_given hg hb, fun e q ht => tile_spawned hg hb ht⟩⟩

end Sys2Proof.Proofs
end

section
/-! Family 13_experts, O44: GATECFG, GDISPATCH and MBMARK (R423 to R425, R429, R432, R510). -/

namespace Sys2Proof.Proofs

open Sys2Proof Sys2Proof.Machine Sys2Proof.Safety Sys2Proof.Laws

/-- Ranges that all translate raise nothing. -/
theorem rangeFault_ok {e : Issuer} {rs : List (Except (Nat × Nat) (List (Nat × Nat)))} (h : ∀ r ∈ rs, ∃ ps, r = .ok ps) :
    rangeFault e rs = none := by
  have hcause : rangeCause rs = none := by
    unfold rangeCause
    refine List.findSome?_eq_none_iff.2 fun c _ => List.findSome?_eq_none_iff.2 fun r hr => ?_
    obtain ⟨ps, rfl⟩ := h r hr
    rfl
  unfold rangeFault
  rw [hcause]
  rfl

/-! ## GATECFG -/

section
variable {s : State} {e : Issuer} {g : Gen} (h : IssuesAlone s e)

/-- A configuration block that GATECFG can load: the block, its weight tensor and what they reach. -/
structure GateLoads (s : State) (e : Issuer) (n w a : Nat) (gp : List (Nat × Nat)) : Prop where
  good : gcbOk n = true
  entry : entryOf s e (gWtid n) = .ok (w, a)
  tensor : gateTensor n w = true
  own : (overlaps s n fun _ y => y.ctx != e.l.ctx) = false
  ranges : rangeFault e ((gateRanges s e n w).map (·.2)) = none
  open' : memHold s e ((gp ++ (gateRanges s e n w).flatMap fun r => rangePages r.2).map (·.2)) = none
  race : strictRace s e ((gp ++ (gateRanges s e n w).flatMap fun r => rangePages r.2).map (·.2)) = false
  table : ∀ y ∈ (loadGate s e n (gateRanges s e n w)).ptab, y < 2 ^ 20

/-- What reading a configuration block charges. -/
def gateCharged (s : State) (e : Issuer) (n : Nat) (gp : List (Nat × Nat)) : State :=
  chargeMem s e.l.region (pagesPa gp (gp.headD (0, 0)).1) (64 + 2 * gE n * gH n + 12 * gE n)

theorem gateRead_loads {n w a slot : Nat} {gp : List (Nat × Nat)} (hl : GateLoads s e n w a gp) : gateRead s e slot n gp =
    .ok (installGate (gateCharged s e n gp) slot n (loadGate s e n (gateRanges s e n w))) {} := by
  have htable : ((loadGate s e n (gateRanges s e n w)).ptab.any fun x => decide (2 ^ 20 ≤ x)) = false := by
    simpa using hl.table
  unfold gateRead
  rw [hl.entry]
  dsimp only
  rw [hl.tensor, hl.own, hl.ranges]
  dsimp only
  rw [hl.open']
  dsimp only
  rw [hl.race, htable]
  rfl

/-- The slots that stay configured beside a new one. -/
theorem installGate_spec (u : State) (slot n : Nat) (x : GateSlot) : ∃ kept, installGate u slot n x = { u with gates := spSet kept slot x } ∧
    ∀ y, y ∈ kept ↔ y ∈ u.gates ∧ (y.1 = slot ∨ rangesMeet (gRange n) (gRange (gateWord y.2)) = false) :=
  ⟨_, rfl, fun y => by simp [List.mem_filter]⟩

include h

theorem gatecfg_waits (hu : uniCause e [uniPair g.a] = none) (hr : needsRound e = false) (hf : gateFree s (g.opx.toNat % 8) = false) :
    Waits (.gatecfg g) s e .waiting (.gate (g.opx.toNat % 8)) := by
  refine waits (i := .gatecfg g) rfl h.1 (burstOk_alone h.2 _) (.inl rfl) ?_
  rw [hu]
  dsimp only
  rw [hr, hf]
  rfl

theorem gatecfg_loads (hu : uniCause e [uniPair g.a] = none) (hr : needsRound e = false) (hf : gateFree s (g.opx.toNat % 8) = true)
    {gp : List (Nat × Nat)} {w a : Nat} (hgp : xlateRange s e.l.ctx (inSup e.f) .read (uniWide e g.a) 64 = .ok gp)
    (hl : GateLoads s e (ofLeBytes (pagesRead s gp (uniWide e g.a) 64)) w a gp) :
    let slot := g.opx.toNat % 8
    let n := ofLeBytes (pagesRead s gp (uniWide e g.a) 64)
    let x := loadGate s e n (gateRanges s e n w)
    Completes (.gatecfg g) s e 8 fun m r => r = {} ∧ ∃ u kept, Charged s u ∧ m = { u with gates := spSet kept slot x } ∧
      x.shadow = x.bias ∧ x.j = 0 ∧ x.drops = 0 ∧ x.moves = 0 ∧
      ∀ y, y ∈ kept ↔ y ∈ s.gates ∧ (y.1 = slot ∨ rangesMeet (gRange n) (gRange (gateWord y.2)) = false) := by
  intro slot n x
  have hcharged : Charged s (gateCharged s e n gp) := charged_chargeMem _ _ _ _
  obtain ⟨kept, hm, hkept⟩ := installGate_spec (gateCharged s e n gp) slot n x
  have hgates : (gateCharged s e n gp).gates = s.gates := by rw [hcharged.device]
  rw [hgates] at hkept
  have hi : issuerAt (installGate (gateCharged s e n gp) slot n x) e.ref = some e := (charged_issuer hcharged e.ref).trans h.1.2
  refine completes (i := .gatecfg g) rfl h.1 (burstOk_alone h.2 _) (.inl rfl) (r := {}) ?_ hi
    ⟨rfl, _, kept, hcharged, hm, rfl, rfl, rfl, rfl, hkept⟩
  dsimp only
  rw [hu]
  dsimp only
  rw [hr, hf, hgp]
  dsimp only
  simp only [hl.good, Bool.not_true, Bool.false_eq_true, if_false]
  exact gateRead_loads hl

end

/-! ## GDISPATCH -/

/-- A grid operation that counts in the pack of its issuer, which a steady effect has left as it was. -/
theorem counted_putPack {s u : State} {e : Issuer} (hi : issuerAt s e.ref = some e) (hu : Steady s u) (n id : Nat) (ds : List Dispatch) :
    ∃ e', issuerAt (putPack { u with nextId := n, dispatches := ds } e.ref.blk (engAdd (refresh u e).p id .grid none)) e.ref = some e' ∧
      e'.p = engAdd e.p id .grid none := by
  obtain ⟨b, l, h⟩ := hu _ _ hi
  rw [refresh_of h, putPack_eq (s := { u with nextId := n, dispatches := ds }) (issuerAt_eq.1 h).2.1]
  exact ⟨_, issuerAt_set (s := { u with nextId := n, dispatches := ds }) (e := { e with b := b, l := l }) (p := engAdd e.p id .grid none)
    h rfl rfl (issuer_frag hi), rfl⟩

/-- What a dispatch leaves its issuer: its pack with one operation more. -/
def DispatchCounted (s m : State) (e : Issuer) : Prop :=
  (∃ e', issuerAt m e.ref = some e') ∧
    ∃ p, packNow m e.ref = some p ∧ p = { e.p with eng := e.p.eng ++ [{ id := s.nextId, cls := .grid, tag := none }] }

theorem counted_of {s v m : State} {e e' : Issuer} (hi : issuerAt v e.ref = some e') (hp : e'.p = engAdd e.p s.nextId .grid none)
    (hm : Steady v m) : DispatchCounted s m e :=
  ⟨steady_kept hm _ _ hi, _, steady_packNow hm hi, hp⟩

section
variable {s : State} {e : Issuer} (hi : issuerAt s e.ref = some e)
include hi

theorem dispatchEffect_counted (slot : Nat) (x : GateSlot) (va r0 : Nat) (route : List (Nat × Nat)) (rows : List (Nat × List (Nat × Nat))) :
    DispatchCounted s (dispatchEffect (putGate s slot x) e slot x va r0 route rows) e := by
  unfold dispatchEffect
  extract_lets n tokens slots d u v m
  have hu : Steady s u := steady_trans (t := putGate s slot x) (steady_same rfl rfl)
    (steady_foldl _ (fun _ _ => steady_charged (charged_chargeMem _ _ _ _)) _ _)
  have hv : Steady s v := by
    unfold v
    split
    · exact steady_trans hu (steady_postMemoryError _ _ _ _)
    · exact hu
  obtain ⟨e', he', hp⟩ := counted_putPack hi hv (v.nextId + 1) d.op (v.dispatches ++ [d])
  refine counted_of he' hp (steady_foldl _ (fun t i => ?_) _ _)
  split
  · exact steady_sendAttempt _ _ _
  · exact steady_refl _

theorem dispatchLost_counted (slot : Nat) (g : GateSlot) (va r0 : Nat) (route : List (Nat × Nat)) (k a : Nat) :
    DispatchCounted s (dispatchLost s e slot g va r0 route k a) e := by
  unfold dispatchLost
  extract_lets d v
  have hv : Steady s v := steady_trans (t := { s with free := s.free + k * gK (gateWord g) }) (steady_same rfl rfl)
    (steady_postMemoryError _ _ _ _)
  obtain ⟨e', he', hp⟩ := counted_putPack hi hv (v.nextId + 1) d.op (v.dispatches ++ [d])
  exact counted_of he' hp (steady_refl _)

end

/-- Rows with their pages, as translations that succeeded. -/
def translated (rows : List (Nat × List (Nat × Nat))) : List (Nat × Except (Nat × Nat) (List (Nat × Nat))) :=
  rows.map fun r => (r.1, .ok r.2)

theorem translated_pages (rows : List (Nat × List (Nat × Nat))) : (translated rows).map (fun r => (r.1, rangePages r.2)) = rows := by
  unfold translated
  rw [List.map_map]
  exact List.map_id rows

theorem translated_ok (rows : List (Nat × List (Nat × Nat))) : ∀ r ∈ (translated rows).map (·.2), ∃ ps, r = .ok ps := by
  intro r hr
  obtain ⟨y, hy, rfl⟩ := List.mem_map.1 hr
  obtain ⟨z, -, rfl⟩ := List.mem_map.1 hy
  exact ⟨z.2, rfl⟩

theorem translated_of {k : Nat} {addr : Nat → Nat} {tr : Nat → Except (Nat × Nat) (List (Nat × Nat))} {rows : List (Nat × List (Nat × Nat))}
    (hk : rows.length = k) (hr : ∀ i, i < k → ∃ ps, rows[i]? = some (addr i, ps) ∧ tr (addr i) = .ok ps) :
    ((List.range k).map fun i => (addr i, tr (addr i))) = translated rows := by
  refine List.ext_getElem? fun i => ?_
  unfold translated
  rw [List.getElem?_map, List.getElem?_map]
  by_cases hlt : i < k
  · obtain ⟨ps, hrow, htr⟩ := hr i hlt
    rw [List.getElem?_range hlt, hrow, Option.map_some, htr]
    rfl
  · rw [List.getElem?_eq_none (by simpa using hlt), List.getElem?_eq_none (by omega)]
    rfl

/-- A GDISPATCH whose operands, slot, tokens and routes pass its checks, and that nothing holds. -/
structure DispatchMeets (s : State) (e : Issuer) (g : Gen) (gs : GateSlot) (w a : Nat) (route : List (Nat × Nat))
    (rows : List (Nat × List (Nat × Nat))) : Prop where
  issues : IssuesAlone s e
  regs : regsCause e [] g.a 4 = none
  operand : uniCause e [opn32 g.b] = none
  slot : spFind? s.gates (g.opx.toNat % 8) = some gs
  tensor : uniVal e g.b ≤ 255
  entry : entryOf s e (uniVal e g.b) = .ok (w, a)
  suits : tokenTensor (gateWord gs) w (uniVal e (sPlus g.a 2)) (uniVal e (sPlus g.a 3)) = true
  own : gs.ctx = e.l.ctx
  strict : (e.l.det && e.l.strict && !gOrdered (gateWord gs)) = false
  aligned : uniWide e g.a % 64 = 0
  stall : gridStall s e = none
  marks : markWaits s (g.opx.toNat % 8) = false
  routed : xlateRange s e.l.ctx (inSup e.f) .write (uniWide e g.a) (64 * uniVal e (sPlus g.a 3)) = .ok route
  count : rows.length = uniVal e (sPlus g.a 3)
  read : ∀ i, i < uniVal e (sPlus g.a 3) → ∃ ps, rows[i]? = some (storedAddr w (uniVal e (sPlus g.a 2) + i) 0, ps) ∧
    xlateRange s e.l.ctx (inSup e.f) .read (storedAddr w (uniVal e (sPlus g.a 2) + i) 0) (2 * gH (gateWord gs)) = .ok ps
  hold : memHold s e (rows.flatMap fun r => r.2.map (·.2)) = none
  race : strictRace s e (rows.flatMap fun r => r.2.map (·.2)) = false

/-- What a dispatch that is accepted does, by what the slot's weights come to. -/
def dispatchAccepted (s : State) (e : Issuer) (slot : Nat) (gs : GateSlot) (va r0 k : Nat) (route : List (Nat × Nat))
    (rows : List (Nat × List (Nat × Nat))) : Except Nat GateSlot → State
  | .ok x => dispatchEffect (putGate s slot x) e slot x va r0 route rows
  | .error a => dispatchLost s e slot gs va r0 route k a

section
variable {s : State} {e : Issuer} {g : Gen} {gs : GateSlot} {w a : Nat} {route : List (Nat × Nat)} {rows : List (Nat × List (Nat × Nat))}
  (hm : DispatchMeets s e g gs w a route rows)
include hm

theorem dispatchAct_accepts : dispatchAct s e (g.opx.toNat % 8) gs w (uniWide e g.a) (uniVal e (sPlus g.a 2)) (uniVal e (sPlus g.a 3)) =
    .ok (dispatchAccepted s e (g.opx.toNat % 8) gs (uniWide e g.a) (uniVal e (sPlus g.a 2)) (uniVal e (sPlus g.a 3)) route rows
      (gateAgain s e gs)) {} := by
  have hrows := translated_of (addr := fun i => storedAddr w (uniVal e (sPlus g.a 2) + i) 0)
    (tr := fun a => xlateRange s e.l.ctx (inSup e.f) .read a (2 * gH (gateWord gs))) hm.count hm.read
  have hclear : rangeFault e (.ok route :: (translated rows).map (·.2)) = none :=
    rangeFault_ok (List.forall_mem_cons.2 ⟨⟨route, rfl⟩, translated_ok rows⟩)
  unfold dispatchAct
  dsimp only
  rw [if_neg (not_not.2 hm.aligned), hm.routed, hrows, hclear, translated_pages]
  dsimp only
  rw [hm.stall]
  dsimp only
  rw [hm.marks, hm.hold]
  dsimp only
  rw [hm.race]
  cases gateAgain s e gs <;> rfl

theorem gdispatch_accepts : Completes (.gdispatch g) s e 8 fun m r => r = {} ∧
    m = dispatchAccepted s e (g.opx.toNat % 8) gs (uniWide e g.a) (uniVal e (sPlus g.a 2)) (uniVal e (sPlus g.a 3)) route rows
      (gateAgain s e gs) ∧ ∃ p, packNow m e.ref = some p ∧ p = { e.p with eng := e.p.eng ++ [{ id := s.nextId, cls := .grid, tag := none }] } := by
  have hcounted : DispatchCounted s (dispatchAccepted s e (g.opx.toNat % 8) gs (uniWide e g.a) (uniVal e (sPlus g.a 2))
      (uniVal e (sPlus g.a 3)) route rows (gateAgain s e gs)) e := by
    cases gateAgain s e gs with
    | ok x => exact dispatchEffect_counted hm.issues.1.2 _ _ _ _ _ _
    | error a => exact dispatchLost_counted hm.issues.1.2 _ _ _ _ _ _ _
  obtain ⟨⟨e', he'⟩, hpack⟩ := hcounted
  refine completes (i := .gdispatch g) rfl hm.issues.1 (burstOk_alone hm.issues.2 _) (.inl rfl) ?_ he' ⟨rfl, rfl, hpack⟩
  dsimp only
  rw [firstCause_pair hm.regs hm.operand]
  dsimp only
  rw [hm.slot]
  dsimp only
  rw [if_neg (Nat.not_lt.2 hm.tensor), hm.entry]
  dsimp only
  rw [hm.suits, if_neg (by decide), if_neg (not_not.2 hm.own), hm.strict, if_neg (by decide)]
  exact dispatchAct_accepts hm

end

/-- Weights without an error are used as they are. -/
theorem gateAgain_sound {s : State} {e : Issuer} {gs : GateSlot} (h : gs.err = false) : gateAgain s e gs = .ok gs := by
  unfold gateAgain
  rw [h]
  rfl

/-! ## MBMARK -/

/-- The slot of a MBMARK whose pattern names this device among others. -/
structure MarkMeets (s : State) (e : Issuer) (g : Gen) (x : GateSlot) : Prop where
  issues : IssuesAlone s e
  operand : uniCause e [opn32 g.a] = none
  register : uniVal e g.a ≤ 15
  slot : spFind? s.gates (g.opx.toNat % 8) = some x
  own : x.ctx = e.l.ctx
  round : needsRound e = false
  valid : patValid s (spGet 0 e.p.gp (uniVal e g.a)).toNat = true
  whole : patExself (spGet 0 e.p.gp (uniVal e g.a)).toNat = false
  here : patMatches (spGet 0 e.p.gp (uniVal e g.a)).toNat (selfCoord s) (selfCoord s) = true

section
variable {s : State} {e : Issuer} {g : Gen} {x : GateSlot} (hm : MarkMeets s e g x)
include hm

theorem markAct_passes : markAct s e g false = if (markWaits s (g.opx.toNat % 8) || !markFree s (g.opx.toNat % 8)) = true then
    .wait .waiting (.mark (g.opx.toNat % 8)) else .ok (markEffect s e (g.opx.toNat % 8) x (spGet 0 e.p.gp (uniVal e g.a)).toNat) {} := by
  unfold markAct
  rw [hm.operand]
  dsimp only
  rw [hm.valid, hm.whole, hm.here, if_neg (by simpa using hm.register), hm.slot]
  dsimp only
  rw [if_neg (not_not.2 hm.own), hm.round, if_neg (by decide)]
  rfl

theorem mbmark_waits (hw : markWaits s (g.opx.toNat % 8) = true ∨ markFree s (g.opx.toNat % 8) = false) :
    Waits (.mbmark g) s e .waiting (.mark (g.opx.toNat % 8)) :=
  waits (i := .mbmark g) rfl hm.issues.1 (burstOk_alone hm.issues.2 _) (.inl rfl)
    ((markAct_passes hm).trans (if_pos (by simpa using hw)))

theorem mbmark_marks (hw : markWaits s (g.opx.toNat % 8) = false) (hf : markFree s (g.opx.toNat % 8) = true) :
    let slot := g.opx.toNat % 8
    let p := (spGet 0 e.p.gp (uniVal e g.a)).toNat
    Completes (.mbmark g) s e 8 fun m r => r = {} ∧ ∃ u, u = { s with gates := u.gates } ∧
      (∀ k, spFind? u.gates k = if k = slot then some { x with bias := x.shadow, j := x.j + 1,
                                                               toClose := x.toClose ++ [{ batch := x.j, dests := patDevices s p }] }
        else spFind? s.gates k) ∧
      m = deviceWrite u e.l.region e.l.ctx e.b.linear (gBias (gateWord x)) (x.shadow.flatMap fun y => leBytes 4 y.toNat) := by
  intro slot p
  let u := putGate s slot { x with bias := x.shadow, j := x.j + 1, toClose := x.toClose ++ [{ batch := x.j, dests := patDevices s p }] }
  have hsteady : Steady s (deviceWrite u e.l.region e.l.ctx e.b.linear (gBias (gateWord x)) (x.shadow.flatMap fun y => leBytes 4 y.toNat)) :=
    steady_trans (t := u) (steady_same rfl rfl) (steady_deviceWrite _ _ _ _ _ _)
  obtain ⟨b, l, he'⟩ := hsteady _ _ hm.issues.1.2
  exact completes (i := .mbmark g) rfl hm.issues.1 (burstOk_alone hm.issues.2 _) (.inl rfl)
    ((markAct_passes hm).trans (if_neg (by simp [hw, hf]))) he' ⟨rfl, u, rfl, fun k => spFind?_spSet _ _ _ _, rfl⟩

end

/-- Settles O44: each of the three past its checks; what a dispatch does depends on the weights that `gateAgain` leaves. -/
theorem expertGating : Obligations.ExpertGating := by
  unfold Obligations.ExpertGating
  intro s e g h slot
  refine ⟨fun hu hr => ⟨fun hf => gatecfg_waits h hu hr hf, ?_⟩, ?_, ?_⟩
  · intro hf gp w a hgp n rs x hgood hentry htensor hown hranges hopen hrace htable
    exact gatecfg_loads h hu hr hf hgp ⟨hgood, hentry, htensor, hown, hranges, hopen, hrace, htable⟩
  · intro hr hu gs w a hgs va r0 k htid hentry hsuits hown hstrict hal hstall hmarks route rows hroute hrows hhold hrace counted
    have hd := gdispatch_accepts ⟨h, hr, hu, hgs, htid, hentry, hsuits, hown, hstrict, hal, hstall, hmarks, hroute, hrows.1, hrows.2, hhold, hrace⟩
    refine ⟨gateAgain_sound, fun x hx => ?_, fun a ha => ?_⟩
    · rwa [hx] at hd
    · rwa [ha] at hd
  · intro hu h15 x hx hown hr p hvalid hwhole hhere
    have hm : MarkMeets s e g x := ⟨h, hu, h15, hx, hown, hr, hvalid, hwhole, hhere⟩
    exact ⟨mbmark_waits hm, mbmark_marks hm⟩

end Sys2Proof.Proofs
end

section
/-! Family 12_grid, O43: GST, GRED and GCOPY, which send one message for each line (R137, R408, R411, R412, R414). -/

namespace Sys2Proof.Proofs

open Sys2Proof Sys2Proof.Machine Sys2Proof.Safety Sys2Proof.Laws

/-- The issuer stands where it stood when its block changes beside its packs. -/
theorem issuerAt_block {s : State} {e : Issuer} {b : Block} (h : issuerAt s e.ref = some e) (h1 : b.bid = e.b.bid)
    (h2 : b.launch = e.b.launch) (h3 : b.packs = e.b.packs) : issuerAt (setBlock s b) e.ref = some { e with b := b } := by
  obtain ⟨-, hblk, hpack, -, hfrag⟩ := issuerAt_eq.1 h
  refine issuerAt_setBlock h (h1.trans (getBlock_bid hblk)) h2 ?_ hfrag
  unfold getPack at hpack ⊢
  rwa [h3]

/-! ## The queues of a data source -/

/-- The issuer's block once a data source that is a queue has given its element. -/
def poppedBlock (e : Issuer) (g : G64) (act : List Nat) : Block :=
  if act = [] then e.b else moveQueues e e.b (dataSrcs g) .null []

/-- Messages are sent from state u with the issuer's block b, and the pops are then recorded as synchronisation. -/
def Queued (s : State) (e : Issuer) (g : G64) (m v u : State) (b : Block) : Prop :=
  Charged s u ∧ Stirred v m ∧ b = poppedBlock e g (activeLanes e g.pred) ∧ (dataSrcs g = [] → m = v)

theorem issuerAt_popped {s : State} {e : Issuer} (h : issuerAt s e.ref = some e) (g : G64) (act : List Nat) :
    issuerAt (setBlock s (poppedBlock e g act)) e.ref = some { e with b := poppedBlock e g act } := by
  have hq : ∃ q, poppedBlock e g act = { e.b with queues := q } := by
    unfold poppedBlock
    split
    · exact ⟨_, rfl⟩
    · exact ⟨_, moveQueues_eq e e.b (dataSrcs g) .null []⟩
  obtain ⟨q, hq⟩ := hq
  rw [hq]
  exact issuerAt_block h rfl rfl rfl

/-- Without a queue among the data sources nothing is popped. -/
theorem popsOf_nil {srcs : List Opnd} (h : srcs = []) : (popsOf srcs).isEmpty = true := by
  rw [h]
  rfl

/-- An act that pops its data, sends its messages and records the pops. -/
def queuedAct (s : State) (e : Issuer) (g : G64) (act : List Nat) (o : GridOp) (gs : List GOut) (quiet : Prop) [Decidable quiet] : Act :=
  .ok (if quiet then sendOp (setBlock s (poppedBlock e g act)) e o gs
    else syncDone (sendOp (setBlock s (poppedBlock e g act)) e o gs) e) {}

/-- The tags in use do not stand in blocks. -/
theorem freeTag_setBlock (s : State) (b : Block) : freeTag (setBlock s b) = freeTag s := by
  unfold freeTag setBlock
  rfl

theorem completes_queued {s : State} {e : Issuer} {g : G64} {i : Instr} {place : BurstPlace} {body : Issuer → Act} {o : GridOp}
    {gs : List GOut} {quiet : Prop} [Decidable quiet] (hx : exec i s = issue s 8 place false body) (h : Issues s e)
    (hb : burstOk e.f place = true) (hstall : gridStall s e = none) (hq : dataSrcs g = [] → quiet)
    (ha : body e = queuedAct s e g (activeLanes e g.pred) o gs quiet) :
    Completes i s e 8 fun m r => r = {} ∧ ∃ u b v, Queued s e g m v u b ∧ Posts (setBlock u b) v e o gs := by
  obtain ⟨hposts, e', he'⟩ := posts_sendOp (e := e) (issuerAt_popped h.2 g (activeLanes e g.pred)) rfl
    (by rw [freeTag_setBlock]; exact freeTag_of_gridStall hstall) o gs
  unfold queuedAct at ha
  by_cases hc : quiet
  · rw [if_pos hc] at ha
    exact completes hx h hb (.inl rfl) ha he' ⟨rfl, s, _, _, ⟨charged_refl s, stirred_refl _, rfl, fun _ => rfl⟩, hposts⟩
  · rw [if_neg hc] at ha
    exact completes_synced hx h hb (.inl rfl) ha he'
      fun hsync => ⟨rfl, s, _, _, ⟨charged_refl s, hsync, rfl, fun hd => absurd (hq hd) hc⟩, hposts⟩

/-! ## GST (R411) -/

theorem foldl_lower (l : List Nat) (x : Nat) : l.foldl lower (some x) = some (l.foldl min x) := by
  induction l generalizing x with
  | nil => rfl
  | cons a l ih =>
    rw [List.foldl_cons, List.foldl_cons]
    exact ih (min x a)

theorem foldl_lower_none (l : List Nat) : l.foldl lower none = l.min? := by
  cases l with
  | nil => rfl
  | cons a l => exact foldl_lower l a

/-- No lane raises what a uniform check finds. -/
theorem uniformFault_nil (f : Option (Nat × Nat)) : uniformFault [] f = [] := by
  cases f <;> rfl

/-- The lines of a GST whose lanes do not meet. -/
def gstLines (e : Issuer) (g : G64) (act : List Nat) : List (Nat × List (Bool × Byte)) :=
  (act.map fun l => (l, gridAddr e g l)).foldl
    (fun ls a => overlayBytes ls a.2 (leBytes (gridBytes g) (dataVal e g (gridRegs g) a.1))) []

/-- The operation of a GST. -/
def gstOp (s : State) (e : Issuer) (g : G64) (act : List Nat) : GridOp :=
  { newOp s e g 0 (patExpected s (patOf e g).toNat (selfCoord s)) true with
    cw := cwPa s e g .write, lowAddr := (act.map (gridAddr e g)).min? }

section
variable {s : State} {e : Issuer} {g : G64}

theorem gstEffect_apart {act : List Nat} (hact : act ≠ []) (hnd : act.Nodup) (hap : Apart (gridBytes g) act (gridAddr e g)) :
    gstEffect s e g act = queuedAct s e g act (gstOp s e g act) (lineMsgs 0 (baseMsg s e g true) (gstLines e g act))
      ((popsOf (dataSrcs g)).isEmpty = true) := by
  unfold gstEffect gstOrder queuedAct poppedBlock
  extract_lets n
  rw [laneOrder_apart hnd hap, foldl_lower_none, if_neg hact]
  rfl

theorem gstLines_message (hap : Apart (gridBytes g) (activeLanes e g.pred) (gridAddr e g)) :
    LineMessages 0 (baseMsg s e g true) (lineMsgs 0 (baseMsg s e g true) (gstLines e g (activeLanes e g.pred)))
      (laneByteAt (gridBytes g) (gridAddr e g) (dataVal e g (gridRegs g)) (activeLanes e g.pred)) :=
  lineMessages_of (linesHold_congr (linesHold_lanes (val := dataVal e g (gridRegs g)) _ (activeLanes_nodup e g.pred) hap linesHold_nil)
    fun _ => Option.or_none) 0 _

/-- Past its checks, a GST without a lane does nothing, and one whose data are there has its effect. -/
theorem exec_gst (ho : operandCause e (activeLanes e g.pred) [addrOpnd g] .null 1 = none) (hu : uniCause e [cwOpnd g] = none)
    (hd : dataCause e (activeLanes e g.pred) g (gridRegs g) = none) (hp : patOk s e g (someTarget s) = true)
    (hf : firstFault (uniformFault (activeLanes e g.pred) (cwCause s e g .write) ++
      (activeLanes e g.pred).map fun l => (l, windowCause (gridBytes g) (gridBytes g) (gridAddr e g l))) = none) :
    ∃ body, exec (.gst g) s = issue s 8 .last false body ∧
      (activeLanes e g.pred = [] → body e = .ok s {}) ∧
      (activeLanes e g.pred ≠ [] → gridStall s e = none → queueWait s e (activeLanes e g.pred) (dataSrcs g) .null = none →
        body e = gstEffect s e g (activeLanes e g.pred)) := by
  refine ⟨_, rfl, fun hact => ?_, fun hact hs hw => ?_⟩ <;> dsimp only <;>
    rw [firstCause_none (by simp [ho, hu, hd])] <;> dsimp only <;> rw [hp, hf]
  · simp [hact]
  · rw [hs, hw]
    simp [hact]

theorem gst_effect (h : Issues s e) (hb : burstOk e.f .last = true) (hstall : gridStall s e = none)
    (ho : operandCause e (activeLanes e g.pred) [addrOpnd g] .null 1 = none) (hu : uniCause e [cwOpnd g] = none)
    (hd : dataCause e (activeLanes e g.pred) g (gridRegs g) = none) (hp : patOk s e g (someTarget s) = true)
    (hc : cwCause s e g .write = none)
    (hw : ∀ l ∈ activeLanes e g.pred, windowCause (gridBytes g) (gridBytes g) (gridAddr e g l) = none)
    (hq : queueWait s e (activeLanes e g.pred) (dataSrcs g) .null = none) (hact : activeLanes e g.pred ≠ [])
    (hap : Apart (gridBytes g) (activeLanes e g.pred) (gridAddr e g)) :
    Completes (.gst g) s e 8 fun m r => r = {} ∧ ∃ u b v, Queued s e g m v u b ∧
      Posts (setBlock u b) v e (gstOp s e g (activeLanes e g.pred))
        (lineMsgs 0 (baseMsg s e g true) (gstLines e g (activeLanes e g.pred))) := by
  obtain ⟨body, hx, -, hbody⟩ := exec_gst (s := s) ho hu hd hp (by rw [hc]; exact laneWindows_clear hw)
  exact completes_queued hx h hb hstall popsOf_nil
    ((hbody hact hstall hq).trans (gstEffect_apart hact (activeLanes_nodup e g.pred) hap))

theorem gst_none (h : Issues s e) (hb : burstOk e.f .last = true)
    (ho : operandCause e (activeLanes e g.pred) [addrOpnd g] .null 1 = none) (hu : uniCause e [cwOpnd g] = none)
    (hd : dataCause e (activeLanes e g.pred) g (gridRegs g) = none) (hp : patOk s e g (someTarget s) = true)
    (hact : activeLanes e g.pred = []) : Completes (.gst g) s e 8 fun m r => m = s ∧ r = {} := by
  obtain ⟨body, hx, hbody, -⟩ := exec_gst (s := s) ho hu hd hp (by rw [hact, uniformFault_nil]; rfl)
  exact completes_same hx h hb (.inl rfl) (hbody hact)

end

end Sys2Proof.Proofs
end


section
/-! Family 12_grid, O43: the lines of a GRED (R414) and what every run of lines has in common. -/

namespace Sys2Proof.Proofs

open Sys2Proof Sys2Proof.Machine Sys2Proof.Safety Sys2Proof.Laws

/-! ## Lines in a row -/

/-- The 128 bytes of the line at an address are those that a function of the address gives, marked, where it gives one. -/
def LineHolds (bs : List (Bool × Byte)) (line : Nat) (f : Nat → Option Byte) : Prop :=
  bs.length = 128 ∧ ∀ j, j < 128 → bs[j]? = some ((f (line + j)).elim (false, 0) fun b => (true, b))

theorem lineHolds_congr {bs : List (Bool × Byte)} {line : Nat} {f f' : Nat → Option Byte} (h : LineHolds bs line f)
    (hf : ∀ j, j < 128 → f (line + j) = f' (line + j)) : LineHolds bs line f' :=
  ⟨h.1, fun j hj => by rw [← hf j hj]; exact h.2 j hj⟩

theorem lineHolds_empty (line : Nat) : LineHolds emptyLine line fun _ => none := by
  refine ⟨List.length_replicate, fun j hj => ?_⟩
  unfold emptyLine
  rw [List.getElem?_replicate, if_pos hj]
  rfl

/-- The messages of n lines in a row, the first at L. -/
def rowMsgs (kind : Nat) (m : GMsg) (n L : Nat) (bytes : Nat → List (Bool × Byte)) : List GOut :=
  (List.range n).map fun i => { kind, msg := { m with addr := L + i * 128, bytes := bytes i, part := i, nparts := n } }

theorem lineMessages_row {kind n L : Nat} {m : GMsg} {bytes : Nat → List (Bool × Byte)} {f : Nat → Option Byte} (hL : L % 128 = 0)
    (hbytes : ∀ i, i < n → LineHolds (bytes i) (L + i * 128) f) (hf : ∀ a b, f a = some b → L ≤ a ∧ a < L + n * 128) :
    LineMessages kind m (rowMsgs kind m n L bytes) f := by
  refine ⟨fun i x hx => ?_, ?_, fun a b hab => ?_⟩
  · unfold rowMsgs at hx
    rw [List.getElem?_map] at hx
    obtain ⟨k, hk, rfl⟩ := Option.map_eq_some_iff.1 hx
    obtain ⟨hi, rfl⟩ := List.getElem?_eq_some_iff.1 hk
    rw [List.length_range] at hi
    rw [List.getElem_range]
    exact ⟨by simp [rowMsgs], by dsimp only; omega, (hbytes i hi).1, (hbytes i hi).2⟩
  · unfold rowMsgs
    rw [List.map_map]
    exact List.nodup_range.map fun i k hik => by simpa using hik
  · obtain ⟨h1, h2⟩ := hf a b hab
    exact ⟨_, List.mem_map.2 ⟨(a - L) / 128, List.mem_range.2 (by omega), rfl⟩, by dsimp only; omega⟩

/-! ## A lane's bytes in a line -/

/-- A line takes bytes from a place on. -/
def putBytes (bs : List (Bool × Byte)) (k : Nat) (v : List Byte) : List (Bool × Byte) :=
  (v.mapIdx fun j b => (j, b)).foldl (fun bs x => putByte bs (k + x.1) x.2) bs

theorem putBytes_concat (bs : List (Bool × Byte)) (k : Nat) (v : List Byte) (b : Byte) :
    putBytes bs k (v ++ [b]) = putByte (putBytes bs k v) (k + v.length) b := by
  unfold putBytes
  rw [List.mapIdx_concat, List.foldl_append]
  rfl

theorem putBytes_length (bs : List (Bool × Byte)) (k : Nat) (v : List Byte) : (putBytes bs k v).length = bs.length := by
  induction v using List.reverseRecOn with
  | nil => rfl
  | append_singleton v b ih => rw [putBytes_concat, putByte, List.length_set, ih]

theorem putBytes_get {bs : List (Bool × Byte)} {k : Nat} {v : List Byte} (h : k + v.length ≤ bs.length) (j : Nat) :
    (putBytes bs k v)[j]? = if k ≤ j ∧ j < k + v.length then some (true, v.getD (j - k) 0) else bs[j]? := by
  induction v using List.reverseRecOn with
  | nil =>
    rw [if_neg (by rw [List.length_nil]; omega)]
    rfl
  | append_singleton v b ih =>
    rw [List.length_append, List.length_singleton] at h ⊢
    rw [putBytes_concat, putByte, List.getElem?_set, putBytes_length, ih (by omega)]
    by_cases hj : k + v.length = j
    · subst hj
      rw [if_pos rfl, if_pos (by omega), if_pos (by omega), Nat.add_sub_cancel_left, List.getD_append_right _ _ _ _ (Nat.le_refl _),
        Nat.sub_self]
      rfl
    · rw [if_neg hj]
      by_cases hin : k ≤ j ∧ j < k + v.length
      · rw [if_pos hin, if_pos (by omega), List.getD_append _ _ _ _ (by omega)]
      · rw [if_neg hin, if_neg (by omega)]

/-- The lane before the others gives its byte, where none of them gives one. -/
theorem laneByteAt_cons {n : Nat} {addr val : Nat → Nat} {l : Nat} {act : List Nat} (hnd : (l :: act).Nodup) (hap : Apart n (l :: act) addr)
    (a : Nat) (f : Nat → Option Byte) :
    (laneByteAt n addr val act a).or (if addr l ≤ a ∧ a < addr l + n then some (byteOf (val l) (a - addr l)) else f a) =
      (laneByteAt n addr val (l :: act) a).or (f a) := by
  unfold laneByteAt
  rw [List.find?_cons]
  by_cases hc : addr l ≤ a ∧ a < addr l + n
  · have hnone : (act.find? fun l => addr l ≤ a && a < addr l + n) = none := List.find?_eq_none.2 fun k hk hka => by
      simp only [Bool.and_eq_true, decide_eq_true_eq] at hka
      have := hap l List.mem_cons_self k (List.mem_cons_of_mem _ hk) fun he => (List.nodup_cons.1 hnd).1 (he ▸ hk)
      omega
    have hl : (decide (addr l ≤ a) && decide (a < addr l + n)) = true := by simp [hc]
    rw [hnone, if_pos hc, hl]
    rfl
  · have hl : (decide (addr l ≤ a) && decide (a < addr l + n)) = false := by
      rw [Bool.and_eq_false_iff, decide_eq_false_iff_not, decide_eq_false_iff_not]
      omega
    rw [if_neg hc, hl]

/-- The byte that a lane gives lies within its access. -/
theorem laneByteAt_within {n : Nat} {addr val : Nat → Nat} {act : List Nat} {a : Nat} {b : Byte} (h : laneByteAt n addr val act a = some b) :
    ∃ l ∈ act, addr l ≤ a ∧ a < addr l + n := by
  obtain ⟨l, hl, -⟩ := Option.map_eq_some_iff.1 h
  have := List.find?_some hl
  simp only [Bool.and_eq_true, decide_eq_true_eq] at this
  exact ⟨l, List.mem_of_find?_eq_some hl, this⟩

/-- A line takes what a lane gives of it. -/
def putLane (n : Nat) (addr val : Nat → Nat) (line : Nat) (bs : List (Bool × Byte)) (l : Nat) : List (Bool × Byte) :=
  if line ≤ addr l ∧ addr l < line + 128 then putBytes bs (addr l - line) (leBytes n (val l)) else bs

theorem lineHolds_putLane {n line l : Nat} {addr val : Nat → Nat} {bs : List (Bool × Byte)} {f : Nat → Option Byte} (h : LineHolds bs line f)
    (hline : line % 128 = 0) (hl : addr l % 128 + n ≤ 128) :
    LineHolds (putLane n addr val line bs l) line
      fun a => if addr l ≤ a ∧ a < addr l + n then some (byteOf (val l) (a - addr l)) else f a := by
  unfold putLane
  split
  · rename_i hin
    refine ⟨(putBytes_length _ _ _).trans h.1, fun j hj => ?_⟩
    rw [putBytes_get (by rw [leBytes_length, h.1]; omega), leBytes_length]
    dsimp only
    by_cases hc : addr l ≤ line + j ∧ line + j < addr l + n
    · rw [if_pos hc, if_pos (by omega), leBytes_getD _ _ _ (by omega), show j - (addr l - line) = line + j - addr l by omega]
      rfl
    · rw [if_neg hc, if_neg (by omega)]
      exact h.2 j hj
  · exact lineHolds_congr h fun j hj => by rw [if_neg (by omega)]

theorem lineHolds_lanes {n line : Nat} {addr val : Nat → Nat} (hline : line % 128 = 0) (act : List Nat) (hnd : act.Nodup)
    (hap : Apart n act addr) (hcross : ∀ l ∈ act, addr l % 128 + n ≤ 128) :
    ∀ {bs : List (Bool × Byte)} {f : Nat → Option Byte} (_ : LineHolds bs line f),
      LineHolds (act.foldl (putLane n addr val line) bs) line fun a => (laneByteAt n addr val act a).or (f a) := by
  induction act with
  | nil => exact fun h => h
  | cons l act ih =>
    intro bs f h
    rw [List.foldl_cons]
    refine lineHolds_congr (ih (List.nodup_cons.1 hnd).2 (fun x hx y hy => hap x (List.mem_cons_of_mem _ hx) y (List.mem_cons_of_mem _ hy))
      (fun x hx => hcross x (List.mem_cons_of_mem _ hx)) (lineHolds_putLane (val := val) h hline (hcross l List.mem_cons_self)))
      fun j _ => laneByteAt_cons hnd hap (line + j) f

/-! ## GRED (R414) -/

/-- An element's bytes divide a line. -/
theorem elemBytes_cases (w : Nat) : elemBytes w = 1 ∨ elemBytes w = 2 ∨ elemBytes w = 4 ∨ elemBytes w = 8 ∨ elemBytes w = 16 := by
  unfold elemBytes
  have h : min w 4 ≤ 4 := Nat.min_le_right _ _
  interval_cases min w 4 <;> simp

/-- Where a GRED's lane stands. -/
def gredAddr (e : Issuer) (g : G64) (l : Nat) : Nat := gridAddr e g 0 + l * gridBytes g

/-- The message of a GRED, but for its lines. -/
def gredMsg (s : State) (e : Issuer) (g : G64) (act : List Nat) : GMsg := contribMsg s e g true (act.headD 0)

section
variable {s : State} {e : Issuer} {g : G64}

theorem gredAddr_end {l : Nat} (hl : l < e.p.width) : gredAddr e g l + gridBytes g ≤ gridAddr e g 0 + e.p.width * gridBytes g := by
  have : (l + 1) * gridBytes g ≤ e.p.width * gridBytes g := Nat.mul_le_mul_right _ hl
  rw [Nat.succ_mul] at this
  unfold gredAddr
  omega

theorem gredAddr_apart (act : List Nat) : Apart (gridBytes g) act (gredAddr e g) := by
  have h : ∀ l k, l < k → gredAddr e g l + gridBytes g ≤ gredAddr e g k := fun l k hlk => by
    have : (l + 1) * gridBytes g ≤ k * gridBytes g := Nat.mul_le_mul_right _ hlk
    rw [Nat.succ_mul] at this
    unfold gredAddr
    omega
  exact fun l _ k _ hne => (Nat.lt_or_gt_of_ne hne).imp (h l k) (h k l)

/-- No lane of a GRED crosses a line: its base is a line's, or one line holds them all. -/
theorem gredAddr_line (hline : gridAddr e g 0 % 128 = 0 ∨ gridAddr e g 0 % 128 + e.p.width * gridBytes g ≤ 128) {l : Nat}
    (hl : l < e.p.width) : gredAddr e g l % 128 + gridBytes g ≤ 128 := by
  rcases hline with hbase | hone
  · unfold gredAddr gridBytes
    rcases elemBytes_cases g.width.toNat with h | h | h | h | h <;> rw [h] <;> omega
  · have := gredAddr_end (e := e) (g := g) hl
    unfold gredAddr at this ⊢
    omega

theorem gredMsgs_row (s : State) (e : Issuer) (g : G64) (act : List Nat) : gredMsgs s e g act =
    rowMsgs 3 (gredMsg s e g act) (gredLines e g) (gridAddr e g 0 / 128 * 128) fun i =>
      act.foldl (putLane (gridBytes g) (gredAddr e g) (dataVal e g (gridRegs g)) (gridAddr e g 0 / 128 * 128 + i * 128)) emptyLine := by
  unfold gredMsgs rowMsgs
  dsimp only
  refine List.map_congr_left fun i _ => ?_
  rw [Nat.add_mul]
  rfl

theorem gredMsgs_lines (hline : gridAddr e g 0 % 128 = 0 ∨ gridAddr e g 0 % 128 + e.p.width * gridBytes g ≤ 128) :
    LineMessages 3 (gredMsg s e g (activeLanes e g.pred)) (gredMsgs s e g (activeLanes e g.pred))
      (laneByteAt (gridBytes g) (gredAddr e g) (dataVal e g (gridRegs g)) (activeLanes e g.pred)) := by
  have hwidth : ∀ l ∈ activeLanes e g.pred, l < e.p.width := fun l hl => (mem_maskLanes (List.mem_of_mem_filter hl)).2.1
  rw [gredMsgs_row]
  refine lineMessages_row (Nat.mul_mod_left _ _) (fun i _ => ?_) fun a b hab => ?_
  · exact lineHolds_congr (lineHolds_lanes (by omega) _ (activeLanes_nodup e g.pred) (gredAddr_apart _)
      (fun l hl => gredAddr_line hline (hwidth l hl)) (lineHolds_empty _)) fun j _ => Option.or_none
  · obtain ⟨l, hl, h1, h2⟩ := laneByteAt_within hab
    have hend := gredAddr_end (g := g) (hwidth l hl)
    have hstart : gridAddr e g 0 ≤ gredAddr e g l := Nat.le_add_right _ _
    unfold gredLines
    omega

theorem gredMsgs_length (s : State) (e : Issuer) (g : G64) (act : List Nat) : (gredMsgs s e g act).length = gredLines e g := by
  rw [gredMsgs_row]
  simp [rowMsgs]

/-- Past its checks a GRED sends its lines, with a lane or without. -/
theorem gredAct_sends {act : List Nat} (hb : burstOk e.f .last = true) (hu : uniCause e [addrOpnd g, cwOpnd g] = none)
    (hd : dataCause e act g (gridRegs g) = none) (hs : (e.l.det && e.l.strict && g.gop == 10#4 && !g.gflags.getLsbD 0) = false)
    (hp : patOk s e g (contributes s) = true) (hc : (cwAddr e g).getD 0 % 16 = 0)
    (hw : windowCause (min (e.p.width * gridBytes g) 128) (e.p.width * gridBytes g) (gridAddr e g 0) = none)
    (hstall : gridStall s e = none) (hq : queueWait s e act (dataSrcs g) .null = none) :
    gredAct s e g act = queuedAct s e g act (newOp s e g 3 (gredLines e g) true) (gredMsgs s e g act)
      (act.isEmpty = true ∨ (popsOf (dataSrcs g)).isEmpty = true) := by
  unfold gredAct queuedAct poppedBlock
  rw [firstCause_none (by simp [placeCause_none hb, hu, hd])]
  dsimp only
  rw [hs, hp, hw, if_neg (not_not.2 hc), hstall, hq]
  simp only [List.isEmpty_iff]
  rfl

theorem gred_effect (h : Issues s e) (hb : burstOk e.f .last = true) (hstall : gridStall s e = none)
    (hu : uniCause e [addrOpnd g, cwOpnd g] = none) (hd : dataCause e (activeLanes e g.pred) g (gridRegs g) = none)
    (hs : (e.l.det && e.l.strict && g.gop == 10#4 && !g.gflags.getLsbD 0) = false)
    (hp : patOk s e g (contributes s) = true) (hc : (cwAddr e g).getD 0 % 16 = 0)
    (hw : windowCause (min (e.p.width * gridBytes g) 128) (e.p.width * gridBytes g) (gridAddr e g 0) = none)
    (hq : queueWait s e (activeLanes e g.pred) (dataSrcs g) .null = none) :
    Completes (.gred g) s e 8 fun m r => r = {} ∧ ∃ u b v, Queued s e g m v u b ∧
      Posts (setBlock u b) v e (newOp s e g 3 (gredLines e g) true) (gredMsgs s e g (activeLanes e g.pred)) :=
  completes_queued (i := .gred g) rfl h (burstOk_any e.f) hstall (fun hsrc => .inr (popsOf_nil hsrc))
    (congrArg (withPoison s e g 3 (activeLanes e g.pred)) (gredAct_sends hb hu hd hs hp hc hw hstall hq))

end

end Sys2Proof.Proofs
end


section
/-! Family 12_grid, O43: GCOPY (R412), whose entry of the scoreboard changes nothing of what memory, translation and the grid see. -/

namespace Sys2Proof.Proofs

open Sys2Proof Sys2Proof.Machine Sys2Proof.Safety Sys2Proof.Laws

/-! ## States that see memory alike -/

section
variable {s t : State}

theorem gReadNat_congr (h : ∀ a, gByte t a = gByte s a) (pa n : Nat) : gReadNat t pa n = gReadNat s pa n :=
  congrArg ofLeBytes (gRead_congr fun _ _ => h _)

/-- The walk from a table of the lowest level. -/
theorem walkFrom_zero (s : State) (va table : Nat) : walkFrom s va 0 table =
    if !tablePaOk table then .error 2
    else
      let n := gReadNat s (table + 8 * (va / 2 ^ (12 + 9 * 0) % 512)) 8
      if n % 2 = 0 then .error 1 else if n.testBit 1 then leafPage 0 va n else .error 2 := rfl

/-- The walk from a table of a higher level. -/
theorem walkFrom_succ (s : State) (va level table : Nat) : walkFrom s va (level + 1) table =
    if !tablePaOk table then .error 2
    else
      let n := gReadNat s (table + 8 * (va / 2 ^ (12 + 9 * (level + 1)) % 512)) 8
      if n % 2 = 0 then .error 1
      else if n.testBit 1 then leafPage (level + 1) va n
      else if field n 63 52 ≠ 0 ∨ field n 9 6 ≠ 0 ∨ field n 11 10 = 3 then .error 2
      else walkFrom s va level (field n 51 12 * 4096) := rfl

theorem walkFrom_congr (h : ∀ a, gByte t a = gByte s a) (va level table : Nat) : walkFrom t va level table = walkFrom s va level table := by
  induction level generalizing table with
  | zero => rw [walkFrom_zero, walkFrom_zero, gReadNat_congr h]
  | succ level ih => simp only [walkFrom_succ, gReadNat_congr h, ih]

theorem ctxEntry_congr (h : ∀ a, gByte t a = gByte s a) (hhi : t.hi = s.hi) (ctx : Nat) : ctxEntry t ctx = ctxEntry s ctx := by
  unfold ctxEntry
  rw [hhi, gReadNat_congr h]

/-- States with the same memory, TLBs and issuing core translate alike. -/
theorem xlate_congr (h : ∀ a, gByte t a = gByte s a) (hhi : t.hi = s.hi) (htlb : t.tlb = s.tlb) (hcore : issuingCore t = issuingCore s)
    (ctx : Nat) (sup : Bool) (need : Need) (va : Nat) : xlate t ctx sup need va = xlate s ctx sup need va := by
  have hfind : tlbFind t ctx va = tlbFind s ctx va := by unfold tlbFind; rw [hcore, htlb]
  have hwalk : walk t ctx va = walk s ctx va := by
    unfold walk
    rw [ctxEntry_congr h hhi]
    split
    · rfl
    · exact walkFrom_congr h _ _ _
  unfold xlate pageOf
  rw [hfind, hwalk]

theorem pagesRead_congr (h : ∀ a, gByte t a = gByte s a) (ps : List (Nat × Nat)) (va n : Nat) : pagesRead t ps va n = pagesRead s ps va n := by
  induction n generalizing va with
  | zero => rfl
  | succ n ih => rw [pagesRead, pagesRead, h, ih]

end

/-- What a block's stash owns of a line, seen through a function that a new block keeps, is as it was. -/
theorem ownerOf_setBlock {α : Type} {s : State} {b c : Block} (h : getBlock s c.bid = some b) (hl : c.lines = b.lines)
    (F : Block × StashLine → α) (hF : ∀ l, F (c, l) = F (b, l)) (a : Nat) : (ownerOf (setBlock s c) a).map F = (ownerOf s a).map F := by
  have gen : ∀ L : List Block, L.find? (fun x => x.bid == c.bid) = some b →
      ((replaceFirst (fun x => x.bid == c.bid) c L).findSome? fun b => (b.lines.find? fun l => l.pa == a / 128 * 128).map fun l => (b, l)).map F =
        (L.findSome? fun b => (b.lines.find? fun l => l.pa == a / 128 * 128).map fun l => (b, l)).map F := by
    intro L
    induction L with
    | nil => exact fun hf => nomatch hf
    | cons x L ih =>
      intro hf
      by_cases hx : (x.bid == c.bid) = true
      · obtain rfl : x = b := by simpa [List.find?_cons, hx] using hf
        rw [replaceFirst, if_pos hx, List.findSome?_cons, List.findSome?_cons, hl]
        cases x.lines.find? fun l => l.pa == a / 128 * 128 with
        | none => rfl
        | some l => exact congrArg some (hF l)
      · rw [replaceFirst, if_neg hx, List.findSome?_cons, List.findSome?_cons]
        rw [List.find?_cons, eq_false_of_ne_true hx] at hf
        cases x.lines.find? fun l => l.pa == a / 128 * 128 with
        | none => exact ih hf
        | some l => rfl
  exact gen s.blocks h

/-- A block that keeps its lines and the poison of its stash leaves every mark of poison as it was. -/
theorem gPoisoned_setBlock {s : State} {b c : Block} (h : getBlock s c.bid = some b) (hl : c.lines = b.lines)
    (hp : c.stashPoison = b.stashPoison) (pa n : Nat) : gPoisoned (setBlock s c) pa n = gPoisoned s pa n := by
  let mark := fun (a : Nat) (x : Block × StashLine) =>
    if x.2.written.getLsbD (a % 128) then x.1.stashPoison.contains ((128 * x.2.line + a % 128) / 4) else s.poison.contains (a / 32)
  have hbyte : ∀ (t : State), t.poison = s.poison → cutOff t pa = cutOff s pa → gPoisoned t pa n = (cutOff s pa ||
      (List.range n).any fun i => ((ownerOf t (pa + i)).map (mark (pa + i))).getD (s.poison.contains ((pa + i) / 32))) := by
    intro t ht hc
    unfold gPoisoned
    rw [hc, ht]
    congr 2
    funext i
    cases ownerOf t (pa + i) <;> rfl
  rw [hbyte (setBlock s c) rfl rfl, hbyte s rfl rfl]
  have hmark : ∀ a l, mark a (c, l) = mark a (b, l) := fun a l => by
    show (if _ then c.stashPoison.contains _ else _) = if _ then b.stashPoison.contains _ else _
    rw [hp]
  simp only [fun a => ownerOf_setBlock h hl (mark a) (hmark a) a]

/-! ## The lines of a copy (R412) -/

theorem pagesRead_length (s : State) (ps : List (Nat × Nat)) (va n : Nat) : (pagesRead s ps va n).length = n := by
  induction n generalizing va with
  | zero => rfl
  | succ n ih => rw [pagesRead, List.length_cons, ih]

theorem pagesRead_get (s : State) (ps : List (Nat × Nat)) {n i : Nat} (h : i < n) (va : Nat) :
    (pagesRead s ps va n)[i]? = some (gByte s (pagesPa ps (va + i))) := by
  induction n generalizing va i with
  | zero => omega
  | succ n ih =>
    cases i with
    | zero => rfl
    | succ i => rw [pagesRead, List.getElem?_cons_succ, ih (by omega), Nat.add_right_comm, Nat.add_assoc]

theorem pagesPoison_within {s : State} {ps : List (Nat × Nat)} {va n : Nat} (h : pagesPoison s ps va n = none) {x k : Nat}
    (h1 : va ≤ x) (h2 : x + k ≤ va + n) : pagesPoison s ps x k = none := by
  unfold pagesPoison at h ⊢
  rw [List.findSome?_eq_none_iff] at h ⊢
  intro i hi
  have := h (x - va + i) (List.mem_range.2 (by have := List.mem_range.1 hi; omega))
  rwa [show va + (x - va + i) = x + i by omega] at this

/-- The bytes of the line at an offset, of a copy of len bytes from src to an offset. -/
def copyLine (s : State) (ps : List (Nat × Nat)) (src off len line : Nat) : List (Bool × Byte) :=
  List.replicate (max off line - line) (false, 0) ++
    (pagesRead s ps (src + (max off line - off)) (min (off + len) (line + 128) - max off line)).map (fun b => (true, b)) ++
    List.replicate (line + 128 - max off line - (min (off + len) (line + 128) - max off line)) (false, 0)

/-- The byte that a copy of len bytes from src to dst gives at an address. -/
def copyByte (s : State) (ps : List (Nat × Nat)) (src dst len a : Nat) : Option Byte :=
  if dst ≤ a ∧ a < dst + len then some ((pagesRead s ps (src + (a - dst)) 1).headD 0) else none

theorem lineHolds_copyLine (s : State) (ps : List (Nat × Nat)) {src off len line : Nat} (h1 : line ≤ off + len) (h2 : off < line + 128)
    (high : Nat) : LineHolds (copyLine s ps src off len line) (line + high) (copyByte s ps src (off + high) len) := by
  refine ⟨?_, fun j hj => ?_⟩
  · simp only [copyLine, List.length_append, List.length_replicate, List.length_map, pagesRead_length]
    omega
  · unfold copyLine copyByte
    by_cases hin : off + high ≤ line + high + j ∧ line + high + j < off + high + len
    · rw [if_pos hin, List.getElem?_append_left (by simp [pagesRead_length]; omega),
        List.getElem?_append_right (by rw [List.length_replicate]; omega), List.length_replicate, List.getElem?_map,
        pagesRead_get _ _ (by omega), show src + (max off line - off) + (j - (max off line - line)) =
          src + (line + high + j - (off + high)) by omega]
      rfl
    · rw [if_neg hin]
      by_cases hlow : j < max off line - line
      · rw [List.append_assoc, List.getElem?_append_left (by rw [List.length_replicate]; exact hlow), List.getElem?_replicate, if_pos hlow]
        rfl
      · rw [List.getElem?_append_right (by simp [pagesRead_length]; omega), List.getElem?_replicate,
          if_pos (by simp [pagesRead_length]; omega)]
        rfl

end Sys2Proof.Proofs
end


section
/-! O43: GST, GRED and GCOPY send one message for each line (R137, R408, R411, R412, R414). -/

namespace Sys2Proof.Proofs

open Sys2Proof Sys2Proof.Machine Sys2Proof.Safety Sys2Proof.Laws

/-! ## What an entry of the scoreboard leaves alone -/

theorem scoreGrid_eq (b : Block) (key : Nat × Nat) (lo hi : Nat) : ∃ x, scoreGrid b key lo hi = { b with score := x } := by
  unfold scoreGrid scoreAdd
  split <;> exact ⟨_, rfl⟩

/-- A state differs from another in its blocks alone, and not in what accesses, translation and the issuer's pack see of them. -/
structure SeenAlike (s u : State) (e : Issuer) : Prop where
  blocks : ∃ B, u = { s with blocks := B }
  bytes : ∀ a, gByte u a = gByte s a
  poison : ∀ pa n, gPoisoned u pa n = gPoisoned s pa n
  core : issuingCore u = issuingCore s
  issuer : ∃ e', issuerAt u e.ref = some e' ∧ e'.p = e.p

section
variable {s u : State} {e : Issuer} {g : G64}

theorem seenAlike_refl (h : Issues s e) : SeenAlike s s e := ⟨⟨_, rfl⟩, fun _ => rfl, fun _ _ => rfl, rfl, e, h.2, rfl⟩

theorem seenAlike_score (h : Issues s e) (x : List ScoreEntry) : SeenAlike s (setBlock s { e.b with score := x }) e := by
  obtain ⟨-, hblk, -, -, -⟩ := issuerAt_eq.1 h.2
  have hbid := getBlock_bid hblk
  have hown : getBlock s ({ e.b with score := x } : Block).bid = some e.b := by rw [← hbid] at hblk; exact hblk
  refine ⟨⟨_, rfl⟩, gByte_setBlock hown rfl rfl, gPoisoned_setBlock hown rfl rfl, ?_, _, issuerAt_block h.2 rfl rfl rfl, rfl⟩
  have hcur : (setBlock s { e.b with score := x }).cur = some e.ref := h.1
  unfold issuingCore
  rw [hcur, h.1, Option.bind_some, Option.bind_some, getBlock_setBlock hblk (b := { e.b with score := x }) hbid, hblk]
  rfl

theorem seenAlike_gcopyEntry (h : Issues s e) (g : G64) : SeenAlike s (gcopyEntry s e g) e := by
  unfold gcopyEntry
  dsimp only
  split
  · obtain ⟨x, hx⟩ := scoreGrid_eq e.b (selfLin s, freshTag s) ((gcopyArgs e g).2.2.2 % 2 ^ 32)
      ((gcopyArgs e g).2.2.2 % 2 ^ 32 + (gcopyArgs e g).2.1 - 1)
    rw [hx]
    exact seenAlike_score h x
  · exact seenAlike_refl h

theorem cwPa_seen (hu : SeenAlike s u e) (need : Need) : cwPa u e g need = cwPa s e g need := by
  obtain ⟨⟨B, hB⟩, hbytes, -, hcore, -⟩ := hu
  have hx := xlate_congr hbytes (by rw [hB]) (by rw [hB]) hcore
  unfold cwPa
  simp only [hx]

theorem pagesPoison_seen (hu : SeenAlike s u e) (ps : List (Nat × Nat)) (va n : Nat) : pagesPoison u ps va n = pagesPoison s ps va n := by
  unfold pagesPoison
  simp only [hu.poison]

/-! ## GCOPY (R412) -/

/-- The operation of a GCOPY to dst. -/
def gcopyOp (s : State) (e : Issuer) (g : G64) (dst : Nat) : GridOp :=
  { newOp s e g 8 (patExpected s (patOf e g).toNat (selfCoord s)) true with cw := cwPa s e g .write, lowAddr := some dst }

theorem gcopyOp_seen (hu : SeenAlike s u e) (dst : Nat) : gcopyOp u e g dst = gcopyOp s e g dst := by
  unfold gcopyOp
  rw [cwPa_seen hu]
  obtain ⟨B, hB⟩ := hu.blocks
  rw [hB]
  rfl

/-- The message of a GCOPY, but for its lines. -/
def gcopyMsg (s : State) (e : Issuer) (g : G64) : GMsg := { baseMsg s e g true with landing := (gcopyArgs e g).2.2.1 }

/-- The offset and the base that make up a GCOPY's destination. -/
def gcopyOff (e : Issuer) (g : G64) : Nat :=
  if g.gflags.getLsbD 0 then (gcopyArgs e g).2.2.2 % 2 ^ 32 else (gcopyArgs e g).2.2.2

def gcopyHigh (e : Issuer) (g : G64) : Nat := if g.gflags.getLsbD 0 then (gcopyArgs e g).2.2.2 / 2 ^ 32 * 2 ^ 32 else 0

theorem gcopyOff_high (e : Issuer) (g : G64) : gcopyOff e g + gcopyHigh e g = (gcopyArgs e g).2.2.2 ∧ gcopyHigh e g % 128 = 0 := by
  unfold gcopyOff gcopyHigh
  split <;> omega

/-- The lines that a GCOPY's destination touches. -/
def gcopyLines (e : Issuer) (g : G64) : Nat := (gcopyOff e g + (gcopyArgs e g).2.1 - 1) / 128 - gcopyOff e g / 128 + 1

theorem gcopyMsgs_row (hu : SeenAlike s u e) {ps : List (Nat × Nat)}
    (hclean : pagesPoison s ps (gcopyArgs e g).1 (gcopyArgs e g).2.1 = none) :
    gcopyMsgs u e g ps = rowMsgs 8 (gcopyMsg s e g) (gcopyLines e g) (gcopyOff e g / 128 * 128 + gcopyHigh e g) fun i =>
      copyLine s ps (gcopyArgs e g).1 (gcopyOff e g) (gcopyArgs e g).2.1 ((gcopyOff e g / 128 + i) * 128) := by
  have hbase : baseMsg u e g true = baseMsg s e g true := by
    obtain ⟨B, hB⟩ := hu.blocks
    rw [hB]
    rfl
  unfold gcopyMsgs rowMsgs
  dsimp only
  refine List.map_congr_left fun i hi => ?_
  have hi : i < gcopyLines e g := List.mem_range.1 hi
  have hpart : pagesPoison s ps ((gcopyArgs e g).1 + (max (gcopyOff e g) ((gcopyOff e g / 128 + i) * 128) - gcopyOff e g))
      (min (gcopyOff e g + (gcopyArgs e g).2.1) ((gcopyOff e g / 128 + i) * 128 + 128) -
        max (gcopyOff e g) ((gcopyOff e g / 128 + i) * 128)) = none := by
    unfold gcopyLines at hi
    exact pagesPoison_within hclean (by omega) (by omega)
  rw [pagesRead_congr hu.bytes, pagesPoison_seen hu, hbase, show gcopyOff e g / 128 * 128 + gcopyHigh e g + i * 128 =
    (gcopyOff e g / 128 + i) * 128 + gcopyHigh e g by omega]
  unfold gcopyOff at hpart
  rw [hpart]
  rfl

theorem gcopyMsgs_lines (hu : SeenAlike s u e) {ps : List (Nat × Nat)}
    (hclean : pagesPoison s ps (gcopyArgs e g).1 (gcopyArgs e g).2.1 = none) :
    LineMessages 8 (gcopyMsg s e g) (gcopyMsgs u e g ps) (copyByte s ps (gcopyArgs e g).1 (gcopyArgs e g).2.2.2 (gcopyArgs e g).2.1) := by
  obtain ⟨hdst, hhigh⟩ := gcopyOff_high e g
  rw [gcopyMsgs_row hu hclean]
  refine lineMessages_row (by omega) (fun i hi => ?_) fun a b hab => ?_
  · have hline := lineHolds_copyLine s ps (src := (gcopyArgs e g).1) (off := gcopyOff e g) (len := (gcopyArgs e g).2.1)
      (line := (gcopyOff e g / 128 + i) * 128) (by unfold gcopyLines at hi; omega) (by omega) (gcopyHigh e g)
    rwa [hdst, show (gcopyOff e g / 128 + i) * 128 + gcopyHigh e g = gcopyOff e g / 128 * 128 + gcopyHigh e g + i * 128 by omega] at hline
  · unfold copyByte at hab
    split at hab
    · unfold gcopyLines
      omega
    · exact nomatch hab

theorem gcopyEffect_clean (hu : SeenAlike s (gcopyEntry s e g) e) {ps : List (Nat × Nat)}
    (hclean : pagesPoison s ps (gcopyArgs e g).1 (gcopyArgs e g).2.1 = none) : ∃ as,
    gcopyEffect s e g ps = .ok (chargeSectors (sendOp (gcopyEntry s e g) e (gcopyOp s e g (gcopyArgs e g).2.2.2)
      (gcopyMsgs (gcopyEntry s e g) e g ps)) e.l.region as) {} := by
  rw [← gcopyOp_seen hu]
  rw [← pagesPoison_seen hu] at hclean
  unfold gcopyEffect
  generalize gcopyEntry s e g = u at *
  refine ⟨?_, ?_⟩
  rotate_left
  · dsimp only
    rw [hclean]
    rfl

/-- Past its checks, a GCOPY without a lane does nothing, and one that nothing holds has its effect. -/
theorem exec_gcopy (hu : uniCause e [addrOpnd g, cwOpnd g] = none)
    (hr : regsCause e (activeLanes e g.pred) g.data (if g.gflags.getLsbD 0 then 4 else 3) = none)
    (hctl : g.gflags.getLsbD 0 = true → (gcopyArgs e g).2.2.1 < 64) (hp : patOk s e g (someTarget s) = true)
    (hf : firstFault (uniformFault (activeLanes e g.pred) (cwCause s e g .write) ++
      uniformFault (activeLanes e g.pred) (gcopyCause s e g)) = none) :
    ∃ body, exec (.gcopy g) s = issue s 8 .last false body ∧
      (activeLanes e g.pred = [] → body e = .ok s {}) ∧
      (activeLanes e g.pred ≠ [] → ∀ ps,
        xlateRange s e.l.ctx (inSup e.f) .read (gcopyArgs e g).1 (gcopyArgs e g).2.1 = .ok ps →
        gridStall s e = none → memHold s e (ps.map (·.2)) = none → strictRace s e (ps.map (·.2)) = false →
        (gcopyHere s e g && decide (Config.scoreEntries ≤ scoreUsed s e.b.core)) = false → body e = gcopyEffect s e g ps) := by
  have hland : (g.gflags.getLsbD 0 && decide (63 < (gcopyArgs e g).2.2.1)) = false := by
    rw [Bool.and_eq_false_imp]
    exact fun hflag => decide_eq_false (by have := hctl hflag; omega)
  refine ⟨_, rfl, fun hact => ?_, fun hact ps hx hs hm hrace hscore => ?_⟩ <;> dsimp only <;>
    rw [firstCause_pair hu hr] <;> dsimp only <;> rw [hland, hp, hf]
  · simp [hact]
  · rw [hx, hs]
    dsimp only
    rw [hm, hrace, hscore]
    simp [hact]

theorem gcopy_effect (h : Issues s e) (hb : burstOk e.f .last = true) (hstall : gridStall s e = none)
    (hu : uniCause e [addrOpnd g, cwOpnd g] = none)
    (hr : regsCause e (activeLanes e g.pred) g.data (if g.gflags.getLsbD 0 then 4 else 3) = none)
    (hctl : g.gflags.getLsbD 0 = true → (gcopyArgs e g).2.2.1 < 64) (hp : patOk s e g (someTarget s) = true)
    (hc : cwCause s e g .write = none) (hcause : gcopyCause s e g = none) (hact : activeLanes e g.pred ≠ [])
    (hscore : gcopyHere s e g = true → scoreUsed s e.b.core < Config.scoreEntries) {ps : List (Nat × Nat)}
    (hx : xlateRange s e.l.ctx (inSup e.f) .read (gcopyArgs e g).1 (gcopyArgs e g).2.1 = .ok ps)
    (hm : memHold s e (ps.map (·.2)) = none) (hrace : strictRace s e (ps.map (·.2)) = false)
    (hclean : pagesPoison s ps (gcopyArgs e g).1 (gcopyArgs e g).2.1 = none) :
    Completes (.gcopy g) s e 8 fun m r => r = {} ∧ ∃ v, Charged v m ∧
      Posts (gcopyEntry s e g) v e (gcopyOp s e g (gcopyArgs e g).2.2.2) (gcopyMsgs (gcopyEntry s e g) e g ps) := by
  obtain ⟨body, hexec, -, hbody⟩ := exec_gcopy (s := s) hu hr hctl hp (by rw [hc, hcause]; rfl)
  have hfree : (gcopyHere s e g && decide (Config.scoreEntries ≤ scoreUsed s e.b.core)) = false := by
    rw [Bool.and_eq_false_imp]
    exact fun hhere => decide_eq_false (by have := hscore hhere; omega)
  have hseen := seenAlike_gcopyEntry h g
  obtain ⟨as, hok⟩ := gcopyEffect_clean hseen hclean
  obtain ⟨e', he', hpack⟩ := hseen.issuer
  have htag : freeTag (gcopyEntry s e g) = freeTag s := by
    obtain ⟨B, hB⟩ := hseen.blocks
    rw [hB]
    unfold freeTag
    rfl
  obtain ⟨hposts, e2, he2⟩ := posts_sendOp he' hpack (by rw [htag]; exact freeTag_of_gridStall hstall)
    (gcopyOp s e g (gcopyArgs e g).2.2.2) (gcopyMsgs (gcopyEntry s e g) e g ps)
  have hcharged := charged_chargeSectors (sendOp (gcopyEntry s e g) e (gcopyOp s e g (gcopyArgs e g).2.2.2)
    (gcopyMsgs (gcopyEntry s e g) e g ps)) e.l.region as
  exact completes hexec h hb (.inl rfl) ((hbody hact ps hx hstall hm hrace hfree).trans hok)
    ((charged_issuer hcharged e.ref).trans he2) ⟨rfl, _, hcharged, hposts⟩

/-- The entry of a GCOPY: that of its range where it lands in the issuing block's own stash, else none. -/
theorem gcopyEntry_cases (s : State) (e : Issuer) (g : G64) :
    (gcopyHere s e g = false → gcopyEntry s e g = s) ∧
    (gcopyHere s e g = true → ∃ t, gcopyEntry s e g = setBlock s (scoreGrid e.b (selfLin s, t) ((gcopyArgs e g).2.2.2 % 2 ^ 32)
      ((gcopyArgs e g).2.2.2 % 2 ^ 32 + (gcopyArgs e g).2.1 - 1))) := by
  unfold gcopyEntry
  dsimp only
  exact ⟨fun hhere => by rw [hhere]; rfl, fun hhere => ⟨freshTag s, by rw [hhere]; rfl⟩⟩

theorem gcopy_none (h : Issues s e) (hb : burstOk e.f .last = true) (hu : uniCause e [addrOpnd g, cwOpnd g] = none)
    (hr : regsCause e (activeLanes e g.pred) g.data (if g.gflags.getLsbD 0 then 4 else 3) = none)
    (hctl : g.gflags.getLsbD 0 = true → (gcopyArgs e g).2.2.1 < 64) (hp : patOk s e g (someTarget s) = true)
    (hact : activeLanes e g.pred = []) : Completes (.gcopy g) s e 8 fun m r => m = s ∧ r = {} := by
  obtain ⟨body, hx, hbody, -⟩ := exec_gcopy (s := s) hu hr hctl hp (by rw [hact, uniformFault_nil, uniformFault_nil]; rfl)
  exact completes_same hx h hb (.inl rfl) (hbody hact)

end

/-- Settles O43: a GST's lines are its lanes laid over them, a GRED's and a GCOPY's stand in a row. -/
theorem gridLines : Obligations.GridLines := by
  unfold Obligations.GridLines
  intro s e g h hb hstall act n cw laneByte queued
  refine ⟨fun ho hu hd hp hc hw hq hact hap => ?_, fun hu hr hctl hp hc hcause hact hscore ps hx hm hrace hclean => ?_,
    fun hu hd hs hp hc hw hline hq => ?_, fun ho hu hd hp hact => gst_none h hb ho hu hd hp hact,
    fun hu hr hctl hp hact => gcopy_none h hb hu hr hctl hp hact⟩
  · obtain ⟨m, r, t, hx, hret, hr, u, b, v, hqueued, hposts⟩ := gst_effect h hb hstall ho hu hd hp hc hw hq hact hap
    exact ⟨m, r, t, hx, hret, hr, u, b, v, _, hqueued, hposts, gstLines_message hap⟩
  · obtain ⟨m, r, t, hx, hret, hr, v, hcharged, hposts⟩ :=
      gcopy_effect h hb hstall hu hr hctl hp hc hcause hact hscore hx hm hrace hclean
    obtain ⟨haway, hhere⟩ := gcopyEntry_cases s e g
    exact ⟨m, r, t, hx, hret, hr, _, v, _, hcharged, haway, hhere, hposts,
      gcopyMsgs_lines (seenAlike_gcopyEntry h g) hclean⟩
  · obtain ⟨m, r, t, hx, hret, hr, u, b, v, hqueued, hposts⟩ := gred_effect h hb hstall hu hd hs hp hc hw hq
    exact ⟨m, r, t, hx, hret, hr, u, b, v, _, hqueued, gredMsgs_length s e g act, hposts, gredMsgs_lines hline⟩

end Sys2Proof.Proofs
end


section
/-! FENCE, PREF and DISCARD (R141, R145, R331 to R333), of which O23 speaks. What it claims of FENCE, of PREF, and of a DISCARD without a
sector or in a deterministic launch holds in every state. What it claims of a DISCARD that gives sectors up holds where no two blocks bear
one number (`discard_givesUp`). Its hypotheses do not say so, and where two do the claim turns on the free choices (log 6), whose values no
proof can see: `cacheHints_iff` says what is left open. -/

namespace Sys2Proof.Proofs

open Sys2Proof Sys2Proof.Machine Sys2Proof.Safety Sys2Proof.Laws

/-! ## FENCE and PREF (R141, R169, R331, R333) -/

theorem charged_prefLane (e : Issuer) (m : M64) (s : State) (l : Nat) : Charged s (prefLane e m s l) := by
  unfold prefLane
  dsimp only
  split
  · exact charged_refl s
  · rename_i pa _
    split
    · exact charged_refl s
    · have hline := charged_trans (charged_noteMiss e.l.ctx s (m64Addr e m false l))
        (charged_chargeMem _ e.l.region (pa / 128 * 128) 128)
      split
      · exact charged_trans hline (charged_l1Fill _ _ _ _)
      · exact hline

/-- An acquire leaves the L1 of the issuer's core empty. -/
theorem acquired_l1 (s : State) (e : Issuer) : (coreOf (acquired s e) e.b.core).l1 = [] := by
  unfold acquired l1Clear setL1
  rw [coreOf_putCore]

section
variable {s : State} {e : Issuer} {g : Gen} {m : M64}

theorem fence_orders (h : IssuesAlone s e) (hg : fenceAcquires g = false) : Completes (.fence g) s e 8 fun t r => t = s ∧ r = {} :=
  completes_same (body := fun e => .ok (if fenceAcquires g then acquired s e else s) {}) rfl h.1 (burstOk_alone h.2 _) (.inl rfl)
    (by rw [hg]; rfl)

theorem fence_acquires (h : IssuesAlone s e) (hg : fenceAcquires g = true) :
    Completes (.fence g) s e 8 fun t r => Charged s t ∧ (coreOf t e.b.core).l1 = [] ∧ r = {} := by
  have hc := charged_acquired s e
  exact completes (body := fun e => .ok (if fenceAcquires g then acquired s e else s) {}) rfl h.1 (burstOk_alone h.2 _) (.inl rfl)
    (by rw [hg]; rfl) ((charged_issuer hc e.ref).trans h.1.2) ⟨hc, acquired_l1 s e, rfl⟩

theorem pref_charges (h : IssuesAlone s e) (hc : operandCause e (activeLanes e m.pred) [baseOpnd m false] .null 1 = none) :
    Completes (.pref m) s e 8 fun t r => Charged s t ∧ r = {} := by
  have hall := charged_foldl (prefLane e m) (charged_prefLane e m) (activeLanes e m.pred) s
  refine completes (e' := e) rfl h.1 (burstOk_alone h.2 _) (.inl rfl) ?_ ((charged_issuer hall e.ref).trans h.1.2) ⟨hall, rfl⟩
  dsimp only
  rw [hc]

end

/-! ## A sector that is given up (R145) -/

/-- No two blocks of a state bear the same number. -/
def NumbersApart (s : State) : Prop := (s.blocks.map (·.bid)).Nodup

theorem getBlock_of_mem {s : State} (hs : NumbersApart s) {b : Block} (hb : b ∈ s.blocks) : getBlock s b.bid = some b := by
  unfold NumbersApart at hs
  unfold getBlock
  revert hs hb
  generalize s.blocks = L
  intro hs hb
  induction L with
  | nil => exact absurd hb List.not_mem_nil
  | cons c L ih =>
    obtain ⟨hc, hL⟩ := List.nodup_cons.1 hs
    rcases List.mem_cons.1 hb with rfl | hb
    · exact List.find?_cons_of_pos (beq_self_eq_true b.bid)
    · rw [List.find?_cons_of_neg, ih hL hb]
      intro heq
      exact hc (List.mem_map.2 ⟨b, hb, (eq_of_beq heq).symm⟩)

theorem ownerOf_mem {s : State} {pa : Nat} {b : Block} {l : StashLine} (h : ownerOf s pa = some (b, l)) : b ∈ s.blocks := by
  obtain ⟨c, hc, hl⟩ := List.exists_of_findSome?_eq_some h
  obtain ⟨_, _, heq⟩ := Option.map_eq_some_iff.1 hl
  rw [← (Prod.mk.inj heq).1]
  exact hc

theorem map_bid_replaceFirst (b : Block) (L : List Block) :
    (replaceFirst (fun c => c.bid == b.bid) b L).map (·.bid) = L.map (·.bid) := by
  induction L with
  | nil => rfl
  | cons c L ih =>
    rw [replaceFirst]
    split
    · rename_i heq
      rw [List.map_cons, List.map_cons, eq_of_beq heq]
    · rw [List.map_cons, List.map_cons, ih]

/-- A reverted line changes the stash of its block and what is dirty there. -/
theorem stashRevert_eq (b : Block) (l : StashLine) (sec : Nat) (bs : List Byte) (bad : Bool) : stashRevert b l sec bs bad =
    { b with stash := (stashRevert b l sec bs bad).stash, stashPoison := (stashRevert b l sec bs bad).stashPoison,
             lines := (stashRevert b l sec bs bad).lines } := rfl

/-- What a sector that reverts leaves: its owner's block reverted, and memory with the bytes last written back. -/
theorem sectorBehind_eq (s : State) (sec : Nat) : ∃ u p l2, sectorBehind s sec =
      { u with mem := writeBytes Config.memDefault s.mem (32 * sec) (behindBytes s sec), poison := p, l2 := l2 } ∧
    (ownerOf s (32 * sec) = none → u = s) ∧
    ∀ b l, ownerOf s (32 * sec) = some (b, l) → u = setBlock s (stashRevert b l sec (behindBytes s sec) (behindBad s sec)) := by
  unfold sectorBehind
  cases ownerOf s (32 * sec) with
  | none => exact ⟨s, _, _, rfl, fun _ => rfl, nofun⟩
  | some x =>
    obtain ⟨b, l⟩ := x
    refine ⟨_, _, _, rfl, nofun, fun c k h => ?_⟩
    cases h
    rfl

theorem behindBytes_length (s : State) (sec : Nat) : (behindBytes s sec).length = 32 := by
  unfold behindBytes
  rw [List.length_map, List.length_range]

theorem rawByte_sectorBehind (s : State) {sec a : Nat} (ha : a / 32 ≠ sec) : rawByte (sectorBehind s sec) a = rawByte s a := by
  obtain ⟨u, p, l2, heq, -, -⟩ := sectorBehind_eq s sec
  rw [heq]
  unfold rawByte
  rw [spGet_writeBytes, behindBytes_length, if_neg (by omega)]

theorem map_bid_sectorBehind (s : State) (sec : Nat) : (sectorBehind s sec).blocks.map (·.bid) = s.blocks.map (·.bid) := by
  obtain ⟨u, p, l2, heq, hnone, hsome⟩ := sectorBehind_eq s sec
  rw [heq]
  dsimp only
  cases ho : ownerOf s (32 * sec) with
  | none => rw [hnone ho]
  | some x =>
    rw [hsome x.1 x.2 ho]
    exact map_bid_replaceFirst _ _

theorem linesMoved_sectorBehind {s : State} (hs : NumbersApart s) (sec : Nat) : LinesMoved s (sectorBehind s sec) := by
  obtain ⟨u, p, l2, heq, hnone, hsome⟩ := sectorBehind_eq s sec
  have hu : LinesMoved s u := by
    cases ho : ownerOf s (32 * sec) with
    | none => rw [hnone ho]; exact linesMoved_refl s
    | some x =>
      rw [hsome x.1 x.2 ho]
      exact linesMoved_setBlock (getBlock_of_mem hs (ownerOf_mem ho)) (stashRevert_eq _ _ _ _ _)
  rw [heq]
  exact linesMoved_trans hu (linesMoved_memory u _ p l2 u.lost u.free)

/-- What a sector's discard can do: nothing, or the issuer's core drops its copies, and where the free choice says so the sector reverts. -/
theorem discardSector_cases (core : Nat) (s : State) (pa : Nat) : discardSector core s pa = s ∨ ∃ u, Charged s u ∧
    (discardSector core s pa = u ∨ (Config.choice s.free % 2 = 1 ∧ discardSector core s pa = sectorBehind u (pa / 32))) := by
  unfold discardSector
  split
  · exact .inl rfl
  · refine .inr ⟨{ l1DropRange s core pa 32 with free := s.free + 1 },
      charged_trans (charged_l1DropRange s core pa 32) (charged_of rfl), ?_⟩
    have hfree : (choose (l1DropRange s core pa 32) 2) =
        (Config.choice s.free % 2, { l1DropRange s core pa 32 with free := s.free + 1 }) := rfl
    rw [hfree]
    dsimp only
    split
    · exact .inl rfl
    · exact .inr ⟨by omega, rfl⟩

/-- What a discard of sectors leaves: lines that moved, blocks of the same numbers, and every byte outside the sectors. -/
structure GivenUp (secs : List Nat) (s t : State) : Prop where
  moved : LinesMoved s t
  numbers : t.blocks.map (·.bid) = s.blocks.map (·.bid)
  bytes : ∀ a, (∀ sec ∈ secs, a / 32 ≠ sec) → rawByte t a = rawByte s a

theorem givenUp_charged {s t : State} (h : Charged s t) (secs : List Nat) : GivenUp secs s t :=
  ⟨linesMoved_charged h, by rw [charged_blocks h], fun a _ => by unfold rawByte; rw [h.device]⟩

/-- Either the free choices never revert a sector, or the owner of a line is the block that its number finds. -/
def RevertsWell (s : State) : Prop := (∀ n, Config.choice n % 2 = 0) ∨ NumbersApart s

theorem givenUp_discardSector {s : State} (hs : RevertsWell s) (core pa : Nat) : GivenUp [pa / 32] s (discardSector core s pa) := by
  obtain heq | ⟨u, hu, heq | ⟨hodd, heq⟩⟩ := discardSector_cases core s pa
  · rw [heq]
    exact givenUp_charged (charged_refl s) _
  · rw [heq]
    exact givenUp_charged hu _
  · have hg := givenUp_charged hu [pa / 32]
    have hapart : NumbersApart u := by
      rcases hs with heven | hs
      · rw [heven] at hodd
        exact absurd hodd (by decide)
      · unfold NumbersApart
        rwa [hg.numbers]
    rw [heq]
    exact ⟨linesMoved_trans hg.moved (linesMoved_sectorBehind hapart _), (map_bid_sectorBehind u _).trans hg.numbers,
      fun a ha => (rawByte_sectorBehind u (ha _ List.mem_cons_self)).trans (hg.bytes a ha)⟩

theorem revertsWell_givenUp {secs : List Nat} {s t : State} (h : GivenUp secs s t) (hs : RevertsWell s) : RevertsWell t :=
  hs.imp_right fun hs => by
    unfold NumbersApart
    rwa [h.numbers]

theorem givenUp_sectors (core : Nat) (pa : Nat → Nat) (is : List Nat) {s : State} (hs : RevertsWell s) :
    GivenUp (is.map fun i => pa i / 32) s (is.foldl (fun s i => discardSector core s (pa i)) s) := by
  induction is generalizing s with
  | nil => exact givenUp_charged (charged_refl s) _
  | cons i is ih =>
    have h := givenUp_discardSector hs core (pa i)
    have k := ih (revertsWell_givenUp h hs)
    refine ⟨linesMoved_trans h.moved k.moved, k.numbers.trans h.numbers, fun a ha => ?_⟩
    rw [List.map_cons] at ha
    rw [List.foldl_cons, k.bytes a fun sec hsec => ha sec (List.mem_cons_of_mem _ hsec)]
    exact h.bytes a fun sec hsec => ha sec (List.mem_singleton.1 hsec ▸ List.mem_cons_self)

/-! ## DISCARD (R332) -/

/-- The sectors of a DISCARD: from the first whole one up to the one that it does not cover (R332). -/
def discardLo (e : Issuer) (m : M64) : Nat := (m64Addr e m false 0 + 31) / 32 * 32
def discardHi (e : Issuer) (m : M64) : Nat := (m64Addr e m false 0 + regsVal e m.data 1 0) / 32 * 32

/-- The state after a DISCARD of sectors in a launch that is not deterministic. -/
def discarded (s : State) (e : Issuer) (m : M64) (ps : List (Nat × Nat)) : State :=
  (List.range ((discardHi e m - discardLo e m) / 32)).foldl
    (fun s i => discardSector e.b.core s (pagesPa ps (discardLo e m + 32 * i))) s

/-- DISCARD, its operands readable, changes nothing without a whole sector or in a deterministic launch, else gives its sectors up. -/
theorem exec_discard (s : State) {e : Issuer} {m : M64} (hc : operandCause e (activeLanes e m.pred) [baseOpnd m false] .null 1 = none)
    (hr : regsCause e (activeLanes e m.pred) m.data 1 = none) : ∃ body, exec (.discard m) s = issue s 8 .last false body ∧
    (discardHi e m ≤ discardLo e m → body e = .ok s {}) ∧
    (discardLo e m < discardHi e m → ∀ ps,
      xlateRange s e.l.ctx (inSup e.f) .write (discardLo e m) (discardHi e m - discardLo e m) = .ok ps →
      body e = .ok (if e.l.det then s else discarded s e m ps) {}) := by
  refine ⟨_, rfl, fun hempty => ?_, fun hsome ps hx => ?_⟩ <;> unfold discardLo discardHi at * <;> dsimp only <;>
    rw [firstCause_pair hc hr] <;> dsimp only
  · rw [if_pos hempty]
  · rw [if_neg (by omega), hx]
    dsimp only
    split <;> rfl

section
variable {s : State} {e : Issuer} {m : M64} (h : IssuesAlone s e)
  (hc : operandCause e (activeLanes e m.pred) [baseOpnd m false] .null 1 = none)
  (hr : regsCause e (activeLanes e m.pred) m.data 1 = none)
include h hc hr

theorem discard_none (hempty : discardHi e m ≤ discardLo e m) : Completes (.discard m) s e 8 fun t r => t = s ∧ r = {} := by
  obtain ⟨body, hx, hbody, -⟩ := exec_discard s hc hr
  exact completes_same hx h.1 (burstOk_alone h.2 _) (.inl rfl) (hbody hempty)

theorem discard_givesUp (hs : e.l.det = false → RevertsWell s) (hsome : discardLo e m < discardHi e m) {ps : List (Nat × Nat)}
    (hxl : xlateRange s e.l.ctx (inSup e.f) .write (discardLo e m) (discardHi e m - discardLo e m) = .ok ps) :
    Completes (.discard m) s e 8 fun t r => r = {} ∧ LinesMoved s t ∧ (e.l.det = true → t = s) ∧
      ∀ a, (∀ i, i < (discardHi e m - discardLo e m) / 32 → a / 32 ≠ pagesPa ps (discardLo e m + 32 * i) / 32) →
        rawByte t a = rawByte s a := by
  obtain ⟨body, hx, -, hbody⟩ := exec_discard s hc hr
  have hact := hbody hsome ps hxl
  cases hdet : e.l.det with
  | true =>
    rw [hdet, if_pos rfl] at hact
    exact completes hx h.1 (burstOk_alone h.2 _) (.inl rfl) hact h.1.2 ⟨rfl, linesMoved_refl s, fun _ => rfl, fun _ _ => rfl⟩
  | false =>
    rw [hdet, if_neg Bool.false_ne_true] at hact
    have hg := givenUp_sectors e.b.core (fun i => pagesPa ps (discardLo e m + 32 * i))
      (List.range ((discardHi e m - discardLo e m) / 32)) (hs hdet)
    obtain ⟨e', he'⟩ := kept_linesMoved hg.moved _ _ h.1.2
    refine completes hx h.1 (burstOk_alone h.2 _) (.inl rfl) hact he' ⟨rfl, hg.moved, nofun, fun a ha => hg.bytes a fun sec hsec => ?_⟩
    obtain ⟨i, hi, rfl⟩ := List.mem_map.1 hsec
    exact ha i (List.mem_range.1 hi)

end

/-- If the free choices never give a sector the value last written back, every state is as O23 claims. -/
theorem cacheHints_of_even (heven : ∀ n, Config.choice n % 2 = 0) : Obligations.CacheHints := by
  unfold Obligations.CacheHints
  intro s e g m h
  exact ⟨fence_orders h, fence_acquires h, pref_charges h, discard_none h, fun hc hr hsome ps hx =>
    discard_givesUp h hc hr (fun _ => .inl heven) hsome hx⟩

/-! ## Two blocks of one number -/

/-- s56:s57 hold the address 0x100020000, s60 the 32 bytes of one sector. -/
def twinPack : Pack := { edgePack with sb := [(56, 0x20000), (57, 1), (60, 0x20)] }
def issuingTwin : Block := { edgeBlock with packs := [twinPack] }

/-- A block of the same number on another core, whose stash owns the line there. -/
def owningTwin : Block := { issuingTwin with core := 1, lines := [{ line := 0, pa := 0x100020000, dirty := 0, written := 0 }] }

/-- Two mebibytes of bonded DRAM that map to themselves. -/
def twinEntry : TlbEntry := { place := .core 0, ctx := 0, va := 0x100000000, k := 21, leaf := 0x10000002F }

/-- The first of the two blocks issues; the free choices have come to n. -/
def twinState (n : Nat) : State := { edgeState with blocks := [issuingTwin, owningTwin], tlb := [twinEntry], free := n }
def twinIssuer : Issuer := { edgeIssuer with b := issuingTwin, p := twinPack }

theorem twin_issues (n : Nat) : IssuesAlone (twinState n) twinIssuer := ⟨⟨rfl, rfl⟩, rfl⟩

theorem twin_base : operandCause twinIssuer (activeLanes twinIssuer edgeSt.pred) [baseOpnd edgeSt false] .null 1 = none := by decide

theorem twin_data : regsCause twinIssuer (activeLanes twinIssuer edgeSt.pred) edgeSt.data 1 = none := by decide

theorem twin_range : discardLo twinIssuer edgeSt = 0x100020000 ∧ discardHi twinIssuer edgeSt = 0x100020020 := by decide

theorem twin_pages (n : Nat) : xlateRange (twinState n) twinIssuer.l.ctx (inSup twinIssuer.f) .write (discardLo twinIssuer edgeSt)
    (discardHi twinIssuer edgeSt - discardLo twinIssuer edgeSt) = .ok [(0x100020000, 0x100020000)] := by
  have hx : xlate (twinState n) twinIssuer.l.ctx (inSup twinIssuer.f) .write 0x100020000 = .ok 0x100020000 :=
    (xlate_congr (s := twinState 0) (t := twinState n) (fun _ => rfl) rfl rfl rfl _ _ _ _).trans (by decide)
  rw [twin_range.1, twin_range.2]
  unfold xlateRange
  simp [hx, failures, successes, reported]

/-- Where the free choice reverts the sector, the block that owns it takes the place of the one that issues. -/
theorem twin_replaced {n : Nat} (hodd : Config.choice n % 2 = 1) :
    ∃ e', issuerAt (discarded (twinState n) twinIssuer edgeSt [(0x100020000, 0x100020000)]) edgeRef = some e' ∧ e'.b.core = 1 := by
  have hsectors : discarded (twinState n) twinIssuer edgeSt [(0x100020000, 0x100020000)] =
      discardSector 0 (twinState n) 0x100020000 := by
    unfold discarded
    rw [twin_range.1, twin_range.2]
    rfl
  have hopen : (isReg 0x100020000 || cutOff (twinState n) 0x100020000) = false := by
    rw [cutOff_up (s := twinState n) edge_accesses.up]
    decide
  have hchoice : ∀ u : State, u.free = n → (choose u 2).1 = 1 := fun u hu => by
    unfold choose
    rw [hu]
    exact hodd
  rw [hsectors]
  unfold discardSector
  rw [hopen, if_neg Bool.false_ne_true]
  dsimp only
  rw [hchoice _ rfl, if_neg (by decide)]
  exact ⟨_, rfl, rfl⟩

/-- A completed instruction that moves lines leaves the issuer's block on its core. -/
theorem core_of_completes {i : Instr} {s : State} {e : Issuer} {len : Nat} {P : State → Retire → Prop} (h : issuerAt s e.ref = some e)
    (hc : Completes i s e len P) (hP : ∀ t r, P t r → LinesMoved s t) :
    ∃ t b, exec i s = .next t ∧ getBlock t e.ref.blk = some b ∧ b.core = e.b.core := by
  obtain ⟨m, r, t, hx, hret, hm⟩ := hc
  obtain ⟨c, hc, hcb⟩ := (hP m r hm).blocks _ _ (issuerAt_eq.1 h).2.1
  obtain ⟨b, hb, hbc, -⟩ := hret.frame.block c hc
  refine ⟨t, b, hx, hb, ?_⟩
  rw [hbc, hcb]

theorem twin_core {n : Nat} (hodd : Config.choice n % 2 = 1) {t : State} {b : Block} (hx : exec (.discard edgeSt) (twinState n) = .next t)
    (hb : getBlock t 2 = some b) : b.core = 1 := by
  obtain ⟨e', he', hcore⟩ := twin_replaced hodd
  obtain ⟨body, hexec, -, hbody⟩ := exec_discard (twinState n) twin_base twin_data
  have hact := hbody (by decide) _ (twin_pages n)
  rw [hexec, issue_next (twin_issues n).1 rfl (.inl rfl), hact, if_neg (by decide), Host.Outcome.next.injEq] at hx
  obtain ⟨c, hc, hcb, -⟩ := (retired_retire (e := twinIssuer) (len := 8) (r := {}) he').frame.block _ (issuerAt_eq.1 he').2.1
  subst hx
  obtain rfl := Option.some.inj (hb.symm.trans hc)
  rw [hcb]
  exact hcore

/-- A FENCE, of which nothing is asked here. -/
def twinFence : Gen := { dst := .null, nowb := false, pred := edgeSt.pred, a := .unused, b := .unused, c := .unused, ty := .b32, rnd := .rne,
                         sat := false, opx := 0, scope := .block, hint := 0 }

/-- O23 turns on the free choices, of whose values nothing can be proved: what it claims of a DISCARD fails in a state with two blocks of
one number, where a choice gives a sector the value last written back. -/
theorem cacheHints_iff : Obligations.CacheHints ↔ ∀ n, Config.choice n % 2 = 0 := by
  refine ⟨fun h n => ?_, cacheHints_of_even⟩
  by_contra hn
  have hodd : Config.choice n % 2 = 1 := by omega
  unfold Obligations.CacheHints at h
  obtain ⟨-, -, -, -, hdiscard⟩ := h (twinState n) twinIssuer twinFence edgeSt (twin_issues n)
  obtain ⟨t, b, hx, hb, hcore⟩ := core_of_completes (twin_issues n).1.2
    (hdiscard twin_base twin_data (by decide) _ (twin_pages n)) fun t r hP => hP.2.1
  rw [twin_core hodd hx hb] at hcore
  exact absurd hcore (by decide)

end Sys2Proof.Proofs
end
